-- ==== Sys2Proof/Word.lean ====
section
/-! DEFINITION. The word types of the part and their plainest arithmetic: bytes, 64-bit words (R95), vector registers
of 64 slots (R42), predicate registers of 512 bits (R270), and the cutting and placing of bit fields. -/

namespace Sys2Proof

/-- A byte of memory. -/
abbrev Byte := BitVec 8

/-- A scalar register, an instruction word, a near word (R71, R95, R174). -/
abbrev Word := BitVec 64

/-- A vector register: slot `i` is bits `32 i + 31 .. 32 i` (R42). -/
abbrev Vec := BitVec 2048

/-- A predicate register: bit `k` governs element `k` (R270). -/
abbrev Pred := BitVec 512

/-- A token payload of 16 slots (R150). -/
abbrev Payload := BitVec 512

/-- Bits `lo + w - 1 .. lo` of a natural number. -/
def bitsOf (n lo w : Nat) : Nat := n / 2 ^ lo % 2 ^ w

/-- Bit `k` of a natural number. -/
def bitOf (n k : Nat) : Bool := n / 2 ^ k % 2 == 1

/-- The natural number of a truth value. -/
def bit (b : Bool) : Nat := if b then 1 else 0

/-- The two's-complement value of the low `w` bits of `n`. -/
def signedOf (w n : Nat) : Int :=
  if n % 2 ^ w < 2 ^ (w - 1) then (n % 2 ^ w : Nat) else (n % 2 ^ w : Nat) - (2 ^ w : Nat)

/-- The `w`-bit pattern of an integer. -/
def patternOf (w : Nat) (x : Int) : Nat := (x % (2 ^ w : Nat)).toNat

/-- `Sat` of R45 for a signed type of `w` bits. -/
def satSigned (w : Nat) (x : Int) : Int :=
  max (-(2 ^ (w - 1) : Nat) : Int) (min x ((2 ^ (w - 1) : Nat) - 1))

/-- `Sat` of R45 for an unsigned type of `w` bits. -/
def satUnsigned (w : Nat) (x : Int) : Int := max 0 (min x ((2 ^ w : Nat) - 1))

/-- Floor of the base-2 logarithm; 0 for 0. -/
abbrev log2 (n : Nat) : Nat := Nat.log2 n

end Sys2Proof
end

