-- ==== Sys2Proof/Syntax.lean ====
section
/-! DEFINITION. The syntax of the SX-1200: `Instr` has one constructor for each row of spec/opcode_table.json.
The part's own indivisible steps and the steps of the outside world (rows 288 to 395) stand first; they have no word. The
instructions of the opcode map (rows 0 to 287, R80) follow: their operands are the fields of the word that the row uses, at
the width the word gives them (R71, R72). -/

namespace Sys2Proof

/-- The read that meets an error which its code cannot correct (R374 to R376). -/
inductive ReadSite where
  /-- An access in progress, by its number. -/
  | access (op : Nat)
  /-- The next word of a copy template's firing. -/
  | copyWord (ctx slot tpl : Nat)
  /-- A register that the next entry of a compute tile reads. -/
  | tileRegister (tile reg : Nat)
  /-- A register that the next instruction of a sequencer reads. -/
  | seqRegister (seq reg : Nat)
  /-- What the oldest firing of an operation slot reads: near memory at an address, or its accumulator. -/
  | firing (tile ts : Nat) (near : Option Nat)
  /-- The accumulator that a tile's started `tstore` reads. -/
  | tstore (tile : Nat)
  /-- Near memory that the oldest `twload` of a tile reads, at an address. -/
  | twload (tile near : Nat)
  /-- The token at the head of a ring window of near memory: what the next entry of its consumer's tile reads, or its engine. -/
  | ringToken (ctx tag : Nat)
  /-- The next instruction that a sequencer fetches. -/
  | fetch (seq : Nat)
  /-- What the next update of a scatter-add reads. -/
  | scatterAdd (ctx slot ma : Nat)
  /-- The page that the sweeper of a context visits next. -/
  | sweep (ctx : Nat)
  /-- The next access of a context's cellar, at an offset. -/
  | cellar (ctx off : Nat)
  deriving DecidableEq, Repr

/-- One row of the table of steps. -/
inductive Instr where
  /-- Event RESULT_WRITEBACK (R98): A pending register result reaches its destination at its due advancing cycle. -/
  | resultWriteback (tile : Nat)
  /-- Event REGION_RESUME (R30): The first cycle in which every pop and push of the frozen cycle can complete, the region issues that stamp. -/
  | regionResume (ctx : Nat) (slot : Nat) (reg : Nat)
  /-- Event PHASE_START (R28): A held region starts its phase once its windows hold the declared tokens and free slots. -/
  | phaseStart (ctx : Nat) (slot : Nat) (reg : Nat)
  /-- Event PHASE_END (R23): CYC reaches the phase length and the region ends the phase, advancing PHASE. -/
  | phaseEnd (ctx : Nat) (slot : Nat) (reg : Nat)
  /-- Event STALL (R208): The watchdog count reaches its limit and the region raises STALL. -/
  | stall (ctx : Nat) (slot : Nat) (reg : Nat)
  /-- Event SCHEDULED_TOKEN_ARRIVAL (R158): A token on the scheduled plane lands in its port's input staging. -/
  | scheduledTokenArrival (ctx : Nat) (tag : Nat)
  /-- Event RING_WINDOW_WRITE (R159): A token or marker arriving on the dynamic plane is written into a ring window. -/
  | ringWindowWrite (ctx : Nat) (tag : Nat)
  /-- Event CREDIT_ARRIVAL (R160): A read-pointer publication reaches the producer and restores credits. -/
  | creditArrival (ctx : Nat) (tag : Nat)
  /-- Event CHUNK_GRANT (R162): Attic chunks are granted to a held elastic ring. -/
  | chunkGrant (ctx : Nat) (tag : Nat)
  /-- Event SOURCE_REQUEST (R189): A source or gather issues its DRAM request once its timing, room and index conditions hold. -/
  | sourceRequest (ctx : Nat) (slot : Nat) (ma : Nat)
  /-- Event DRAM_REPLY (R189): A DRAM reply lands as a token in a memory actor's window. -/
  | dramReply (op : Nat)
  /-- Event GATHER_INDEX_TAKE (R190): A gather takes an index token and emits row tokens for its indices. -/
  | gatherIndexTake (ctx : Nat) (slot : Nat) (ma : Nat)
  /-- Event SCATTER_ADD_UPDATE (R191): A scatter-add performs a row addition beside the DRAM controller. -/
  | scatterAddUpdate (ctx : Nat) (slot : Nat) (ma : Nat)
  /-- Event SINK_WRITE (R193): A sink writes a token whole at its pattern address. -/
  | sinkWrite (ctx : Nat) (slot : Nat) (ma : Nat)
  /-- Event MODE_REQUEST_ARRIVAL (R250): A mode or drain request reaches an injection point, which writes its marker. -/
  | modeRequestArrival (ctx : Nat) (slot : Nat) (point : Nat)
  /-- Event MEMORY_ACTOR_QUIESCENT (R252): A memory actor or copy template meets its quiescence condition. -/
  | memoryActorQuiescent (ctx : Nat) (slot : Nat) (ma : Nat)
  /-- Event START_PULSE (R253): The target mode starts in the first cycle in which quiescence, initial tokens, staging and engine drains all hold. -/
  | startPulse (ctx : Nat) (slot : Nat)
  /-- Event COPY_FIRING (R185): A queued token fires an armed copy template. -/
  | copyFiring (ctx : Nat) (slot : Nat) (tpl : Nat)
  /-- Event COPY_COMPLETION (R186): The last word of a firing lands and a CTRL token enters the bound window. -/
  | copyCompletion (ctx : Nat) (slot : Nat) (tpl : Nat)
  /-- Event BANK_ACCESS (R176): A near access reaches its bank and is served in arbitration order. -/
  | bankAccess (op : Nat)
  /-- Event PRESENCE_READ_SERVED (R178): A waiting presence read is served after its word is written. -/
  | presenceReadServed (op : Nat)
  /-- Event GENERATOR_TAKE_PATTERN (R182): An address generator takes its new pattern 14 cycles after agset. -/
  | generatorTakePattern (mtile : Nat) (gen : Nat)
  /-- Event JOIN_SIGNAL_ARRIVAL (R216): A signal reaches a join element and is counted. -/
  | joinSignalArrival (ctx : Nat) (slot : Nat) (join : Nat) (member : Nat)
  /-- Event RELEASE_ARRIVAL (R213): A join release reaches a member's control window. -/
  | releaseArrival (ctx : Nat) (slot : Nat) (join : Nat) (member : Nat)
  /-- Event CONTROL_TOKEN_ARRIVAL (R213): A control token reaches a sequencer's control window. -/
  | controlTokenArrival (ctx : Nat) (tag : Nat)
  /-- Event ORDER_TOKEN_ARRIVAL (R228): An ORDER token arrives and advances the completed prefix of its channel. -/
  | orderTokenArrival (unit : Nat) (chan : Nat) (seqn : Nat)
  /-- Event ATOMIC_PIPELINE_TAKE (R234): The atomic pipeline takes an atomic at its bank and performs the update. -/
  | atomicPipelineTake (op : Nat)
  /-- Event FAR_ATOMIC_REPLY (R234): The reply of a far atomic returns to its issuer. -/
  | farAtomicReply (op : Nat)
  /-- Event RAMO_INVOCATION_ARRIVAL (R444): A ramo invocation reaches its target package and enters the atomic pipeline. -/
  | ramoInvocationArrival (link : Nat)
  /-- Event RAMO_REPLY (R444): A ramo reply reaches its issuer and completes it. -/
  | ramoReply (op : Nat)
  /-- Event COLOUR_DRAW (R254): The dispatcher serves a colour draw from the pool. -/
  | colourDraw (op : Nat)
  /-- Event TENSOR_FIRING_START (R327): An armed slot fires when its buffers are FULL and its accumulator and array are free. -/
  | tensorFiringStart (tile : Nat) (ts : Nat)
  /-- Event TENSOR_FIRING_COMPLETE (R328): A firing adds its groups into the accumulator and empties consumed buffers. -/
  | tensorFiringComplete (tile : Nat) (ts : Nat)
  /-- Event TTAG_ARRIVAL (R331): A ttag request reaches the memory tile and changes the buffer tag. -/
  | ttagArrival (op : Nat)
  /-- Event TREAD_READ (R332): A tread reads its row once the accumulator is CLOSED. -/
  | treadRead (op : Nat)
  /-- Event TSTORE_START (R333): A queued tstore starts once it heads the queue and its conditions hold. -/
  | tstoreStart (tile : Nat)
  /-- Event TSTORE_COMPLETE (R333): A tstore finishes its writes, empties the accumulator and fills the buffer. -/
  | tstoreComplete (tile : Nat)
  /-- Event TACCZ_EFFECT (R334): taccz empties the accumulator once earlier work on it has completed. -/
  | tacczEffect (tile : Nat) (acc : Nat)
  /-- Event TWLOAD_VALID (R343): Loaded systolic weights become valid. -/
  | twloadValid (tile : Nat)
  /-- Event SYSTOLIC_PASS_START (R344): A systolic pass starts once its operands, accumulators and weights are ready. -/
  | systolicPassStart (ctx : Nat) (slot : Nat) (grp : Nat)
  /-- Event SYSTOLIC_PASS_COMPLETE (R345): A pass completes and advances the bottom accumulators. -/
  | systolicPassComplete (ctx : Nat) (slot : Nat) (grp : Nat)
  /-- Event TILE_FAULT_REPORT (R356): A tile passes a fault report to its quad sequencer. -/
  | tileFaultReport (tile : Nat)
  /-- Event TRAP_ENTRY (R357): A sequencer enters its handler for an own fault, a report or a trap. -/
  | trapEntry (seq : Nat)
  /-- Event SEQ_COMPLETION_FAULT (R500): A sequencer access is refused after it has left the sequencer. -/
  | seqCompletionFault (seq : Nat)
  /-- Event HALT_POINT (R366): At the HALT point every region and sequencer of the context stops. -/
  | haltPoint (ctx : Nat)
  /-- Event SAVE_COMPLETE (R369): In-flight work has ended and the context record is written, making the context SAVED. -/
  | saveComplete (ctx : Nat)
  /-- Event RESTORE_PULSE (R370): Every region of a restored context starts at its saved position. -/
  | restorePulse (ctx : Nat)
  /-- Event DRAIN_COMPLETE (R371): Every graph of a draining context is IDLE, LOADED or FAILED. -/
  | drainComplete (ctx : Nat)
  /-- Event GRAPH_LOAD_COMPLETE (R247): The loader finishes its checks and the graph becomes LOADED or FAILED. -/
  | graphLoadComplete (ctx : Nat) (slot : Nat)
  /-- Event GRAPH_PLACEMENT (R198): The dispatcher admits and places a waiting graph's root groups. -/
  | graphPlacement (ctx : Nat) (slot : Nat)
  /-- Event STAGING_COMPLETE (R200): Staging of a group's partitions, windows and lists completes. -/
  | stagingComplete (ctx : Nat) (slot : Nat)
  /-- Event LAUNCH_RECORD_READ (R263): The dispatcher reads one launch record from a context's ring. -/
  | launchRecordRead (ctx : Nat)
  /-- Event RECORD_RUN (R264): A ready RUN record applies setmode and gact. -/
  | recordRun (ctx : Nat) (id : Nat)
  /-- Event RECORD_KICK (R264): A ready KICK record issues ckick with its argument. -/
  | recordKick (ctx : Nat) (id : Nat)
  /-- Event RECORD_MODE (R264): A ready MODE record applies setmode. -/
  | recordMode (ctx : Nat) (id : Nat)
  /-- Event RECORD_NOTE (R264): A ready NOTE record finishes at once. -/
  | recordNote (ctx : Nat) (id : Nat)
  /-- Event RECORD_UNLOAD (R264): A ready UNLOAD record applies gunld. -/
  | recordUnload (ctx : Nat) (id : Nat)
  /-- Event RECORD_FINISH (R264): A record finishes and decrements its successors' PREDS. -/
  | recordFinish (ctx : Nat) (id : Nat)
  /-- Event THERMAL_SAMPLE (R486): The die's sensors are sampled every 8,000 cycles. -/
  | thermalSample (die : Nat) (degrees : Nat)
  /-- Event ALLOWANCE_UPDATE (R487): The die controller writes the allowance A every 40,000 cycles. -/
  | allowanceUpdate (die : Nat)
  /-- Event MIGRATION_REQUEST (R392): A write at 0x0118 submits a migration, park or unpark request. -/
  | migrationRequest (die : Nat) (w0 : Nat) (w1 : Nat) (w2 : Nat) (w3 : Nat)
  /-- Event MIGRATION_ACCEPT (R392): An engine accepts a queued request, or refuses it with a code. -/
  | migrationAccept (die : Nat)
  /-- Event MIGRATION_PASS_END (R393): A copy pass ends and its commit sets CMT. -/
  | migrationPassEnd (die : Nat)
  /-- Event MIGRATION_COMMIT (R393): After the old translation drains, the filter test commits, repeats or abandons. -/
  | migrationCommit (die : Nat)
  /-- Event WALK_COMPLETE (R386): A table walk ends and its stream replays in order. -/
  | walkComplete (op : Nat)
  /-- Event TEST_BANK_END (R396): An HBM test bank's test ends, zeroing it and releasing held requests. -/
  | testBankEnd (die : Nat) (bank : Nat) (failed : Nat)
  /-- Event READ_RETRY (R374): An uncorrectable read is retried once, giving a transient or lasting error. -/
  | readRetry (site : ReadSite) (lasting : Nat)
  /-- Event CONFIG_STORE_ERROR (R377): A lasting configuration-store error freezes the group and starts a reload. -/
  | configStoreError (ctx : Nat) (slot : Nat) (reg : Nat) (lasting : Nat)
  /-- Event CONFIG_RELOAD_COMPLETE (R377): The region's configuration reload ends and the region resumes or raises CONFIG. -/
  | configReloadComplete (ctx : Nat) (slot : Nat) (reg : Nat) (failed : Nat)
  /-- Event SNAP_OPEN_POINT (R406): At the open point the polarity flips, SNAP markers are injected and the sweeper starts. -/
  | snapOpenPoint (ctx : Nat)
  /-- Event SWEEPER_VISIT (R415): The sweeper captures the next uncaptured writable leaf. -/
  | sweeperVisit (ctx : Nat)
  /-- Event SNAPSHOT_SEALING (R416): All marker points, writes, records and the sweep are done, so the inventory is written. -/
  | snapshotSealing (ctx : Nat)
  /-- Event SEAL_COMPLETE (R417): The inventory is written and the snapshot is SEALED. -/
  | sealComplete (ctx : Nat)
  /-- Event SNAPSHOT_FAIL (R419): An open or sealing snapshot fails and the failure sweep starts. -/
  | snapshotFail (ctx : Nat) (reason : Nat)
  /-- Event FAILURE_SWEEP_END (R419): The failure sweep has corrected every leaf's S and D. -/
  | failureSweepEnd (ctx : Nat)
  /-- Event COPY_BACK_PAGE (R428): Rollback copies one page home from the cellar. -/
  | copyBackPage (ctx : Nat)
  /-- Event FRAME_SEND (R432): A link sends one frame every 4 cycles. -/
  | frameSend (link : Nat)
  /-- Event FRAME_DELIVERY (R438): A frame is delivered and checked at the receiving port. -/
  | frameDelivery (link : Nat) (fseq : Nat) (flip : Nat) (body : Nat)
  /-- Event FRAME_RESEND (R438): A NAKed frame is resent in a retry frame. -/
  | frameResend (link : Nat)
  /-- Event FRAME_HOLD_TIMEOUT (R438): A frame held longer than 4F + 256 cycles makes the failure lasting. -/
  | frameHoldTimeout (link : Nat)
  /-- Event BOUNDARY_FLIT_RESEND (R430): An uncorrectable dynamic-plane flit is resent 48 cycles later. -/
  | boundaryFlitResend (boundary : Nat) (fails : Nat)
  /-- Event LINK_TRAINING_DONE (R439): Training passes or an attempt fails. -/
  | linkTrainingDone (link : Nat) (ok : Nat)
  /-- Event LINK_ENABLE (R439): The die controller enables an aligned link to UP. -/
  | linkEnable (link : Nat)
  /-- Event CARRIER_LOSS (R439): A link loses carrier and becomes DEGRADED. -/
  | carrierLoss (link : Nat)
  /-- Event RANK_LOST (R448): No link to a rank has been UP for 80,000 cycles. -/
  | rankLost (rank : Nat)
  /-- Event PCYC_ADOPT (R490): An unsettled package adopts its peer's master number and PCYC at a round boundary. -/
  | pcycAdopt (link : Nat) (master : Nat)
  /-- Event LINK_RETRAIN (R440): LCMD RETRAIN sends a link to TRAINING. -/
  | linkRetrain (link : Nat)
  /-- Event LINK_RESET (R440): LCMD RESET sends a link to DOWN or TRAINING. -/
  | linkReset (link : Nat)
  /-- Event CTXCREATE (R348): A descriptor PA written at 0x00 creates or refuses a context. -/
  | ctxcreate (va : Nat)
  /-- Event CONTEXT_DESTROY (R349): CMD OP 1 destroys a context. -/
  | contextDestroy (ctx : Nat)
  /-- Event HOST_RESUME (R453): CMD OP 2 resumes a trap forwarded to the host. -/
  | hostResume (value : Nat)
  /-- Event HOST_DOORBELL (R454): An 8-byte write at a context page pushes a tail token on its host arc. -/
  | hostDoorbell (ctx : Nat) (size : Nat) (value : Nat)
  /-- Event CAUSE_FIFO_READ (R455): Reading word 0 of a context page removes its oldest cause record. -/
  | causeFifoRead (ctx : Nat)
  /-- Event PACKAGE_EVENT_READ (R453): Reading 0x20 removes the oldest package event record. -/
  | packageEventRead
  /-- Event ERROR_LOG_READ (R496): Reading word 0 removes the oldest error-log entry. -/
  | errorLogRead (die : Nat)
  /-- Event BAR2_READ (R451): A host read of device physical memory. -/
  | bar2Read (pa : Nat) (len : Nat)
  /-- Event BAR2_WRITE (R502): A host physical write to device memory, untranslated and uncaptured. -/
  | bar2Write (pa : Nat) (bytes : List (BitVec 8))
  /-- Event DCCALL (R495): A write at 0x0300 requests a die-controller call of host code. -/
  | dccall (die : Nat) (value : Nat)
  /-- Event DCCALL_ENTRY (R495): At an instruction boundary the die controller saves its state and jumps to the call. -/
  | dccallEntry (die : Nat)
  /-- Event PKGRESET (R498): DCTL PKGRESET resets the package to step 1 of bring-up. -/
  | pkgreset
  /-- Event DCRESTART (R498): DCTL DCRESTART restarts a stopped die controller. -/
  | dcrestart (die : Nat)
  /-- Event REGISTER_WRITE (R452): A host write to a register with no behaviour of its own. -/
  | registerWrite (addr : Nat) (value : Nat)
  /-- Event POWER_GOOD (R491): After power-good the package runs bring-up. -/
  | powerGood
  /-- Event NEAR_RESULT_LATE (R175): A near, presence, atomic, spawn or tread result is not usable in the advancing cycle in which it is due, so the region freezes before that cycle's entries issue. -/
  | nearResultLate (ctx : Nat) (slot : Nat) (reg : Nat)
  /-- Event TEST_BANK_START (R396): The die controller begins march patterns on an HBM4 test bank, and from then on every request to that bank is held at its controller. -/
  | testBankStart (die : Nat) (bank : Nat)
  /-- Event PCIE_ERROR (R496): An error on the PCIe port is reported under AER and logged by die 0. -/
  | pcieError (value : Nat)
  /-- Event DRAM_ACCESS_PERFORMED (R116): A sequencer load or store to DRAM or host memory is performed at its controller, returning a load's value and completing the access for interlocks and fence. -/
  | dramAccessPerformed (op : Nat)
  /-- Event BOUNDARY_FLIT_CROSSING (R430): A flit completes its 24-cycle die-boundary crossing and is checked; an uncorrectable scheduled-plane flit is lasting at once and raises LINK with WHY 4. -/
  | boundaryFlitCrossing (boundary : Nat) (errors : Nat)
  /-- `nop` (R103): Issues, takes one cycle of the list or sequencer, and changes no state. -/
  | nop
  /-- `br` (R117): Sets PC to the target in sequencer code. -/
  | br (target : BitVec 26)
  /-- `beq` (R117): Branches to the target when sD equals sA. -/
  | beq (d : BitVec 6) (a : BitVec 6) (target : BitVec 26)
  /-- `bne` (R117): Branches to the target when sD differs from sA. -/
  | bne (d : BitVec 6) (a : BitVec 6) (target : BitVec 26)
  /-- `blt` (R117): Branches when sD is less than sA, signed. -/
  | blt (d : BitVec 6) (a : BitVec 6) (target : BitVec 26)
  /-- `bge` (R117): Branches when sD is at least sA, signed. -/
  | bge (d : BitVec 6) (a : BitVec 6) (target : BitVec 26)
  /-- `bltu` (R117): Branches when sD is less than sA, unsigned. -/
  | bltu (d : BitVec 6) (a : BitVec 6) (target : BitVec 26)
  /-- `bgeu` (R117): Branches when sD is at least sA, unsigned. -/
  | bgeu (d : BitVec 6) (a : BitVec 6) (target : BitVec 26)
  /-- `call` (R118): Writes PC + 8 to sD and jumps to the target. -/
  | call (d : BitVec 6) (target : BitVec 26)
  /-- `jr` (R118): Jumps to the address in sA, raising ALIGN if it is not a multiple of 8. -/
  | jr (a : BitVec 6)
  /-- `jalr` (R118): Reads sA, writes PC + 8 to sD and jumps to the value read. -/
  | jalr (d : BitVec 6) (a : BitVec 6)
  /-- `loop` (R121): Arms sequencer hardware loop n with a begin, an end and a count. -/
  | loop (d : BitVec 6) (count : BitVec 16) (span : BitVec 16)
  /-- `loopr` (R122): Arms a hardware loop with the count in sA; a count of 0 skips the body and one above 65,535 raises LOOP. -/
  | loopr (d : BitVec 6) (a : BitVec 6) (span : BitVec 16)
  /-- `tloop` (R126): Places a span of timed-list entries count times, shifted by a stride, and sets lb, le and lc. -/
  | tloop (d : BitVec 6) (stride : BitVec 12) (count : BitVec 10) (span : BitVec 10)
  /-- `add` (R104): Sets sD to sA + sB modulo 2^64. -/
  | add (d : BitVec 6) (a : BitVec 6) (b : BitVec 6)
  /-- `sub` (R104): Sets sD to sA - sB modulo 2^64. -/
  | sub (d : BitVec 6) (a : BitVec 6) (b : BitVec 6)
  /-- `and` (R104): Sets sD to the bitwise and of sA and sB. -/
  | and (d : BitVec 6) (a : BitVec 6) (b : BitVec 6)
  /-- `or` (R104): Sets sD to the bitwise or of sA and sB. -/
  | or (d : BitVec 6) (a : BitVec 6) (b : BitVec 6)
  /-- `xor` (R104): Sets sD to the bitwise xor of sA and sB. -/
  | xor (d : BitVec 6) (a : BitVec 6) (b : BitVec 6)
  /-- `sll` (R104): Shifts sA left by sB[5:0]. -/
  | sll (d : BitVec 6) (a : BitVec 6) (b : BitVec 6)
  /-- `srl` (R104): Shifts sA right logically by sB[5:0]. -/
  | srl (d : BitVec 6) (a : BitVec 6) (b : BitVec 6)
  /-- `sra` (R104): Shifts sA right arithmetically by sB[5:0]. -/
  | sra (d : BitVec 6) (a : BitVec 6) (b : BitVec 6)
  /-- `mul` (R104): Sets sD to the low 64 bits of the product. -/
  | mul (d : BitVec 6) (a : BitVec 6) (b : BitVec 6)
  /-- `mulh` (R104): Sets sD to the high 64 bits of the signed product. -/
  | mulh (d : BitVec 6) (a : BitVec 6) (b : BitVec 6)
  /-- `mulhu` (R104): Sets sD to the high 64 bits of the unsigned product. -/
  | mulhu (d : BitVec 6) (a : BitVec 6) (b : BitVec 6)
  /-- `min` (R104): Sets sD to the signed minimum of sA and sB. -/
  | min (d : BitVec 6) (a : BitVec 6) (b : BitVec 6)
  /-- `max` (R104): Sets sD to the signed maximum of sA and sB. -/
  | max (d : BitVec 6) (a : BitVec 6) (b : BitVec 6)
  /-- `minu` (R104): Sets sD to the unsigned minimum of sA and sB. -/
  | minu (d : BitVec 6) (a : BitVec 6) (b : BitVec 6)
  /-- `maxu` (R104): Sets sD to the unsigned maximum of sA and sB. -/
  | maxu (d : BitVec 6) (a : BitVec 6) (b : BitVec 6)
  /-- `addi` (R105): Adds the sign-extended immediate to sA. -/
  | addi (d : BitVec 6) (a : BitVec 6) (imm : BitVec 26)
  /-- `andi` (R105): Ands sA with the sign-extended immediate. -/
  | andi (d : BitVec 6) (a : BitVec 6) (imm : BitVec 26)
  /-- `ori` (R105): Ors sA with the sign-extended immediate. -/
  | ori (d : BitVec 6) (a : BitVec 6) (imm : BitVec 26)
  /-- `xori` (R105): Xors sA with the sign-extended immediate. -/
  | xori (d : BitVec 6) (a : BitVec 6) (imm : BitVec 26)
  /-- `slli` (R105): Shifts sA left by an immediate of 0 to 63. -/
  | slli (d : BitVec 6) (a : BitVec 6) (imm : BitVec 26)
  /-- `srli` (R105): Shifts sA right logically by an immediate of 0 to 63. -/
  | srli (d : BitVec 6) (a : BitVec 6) (imm : BitVec 26)
  /-- `srai` (R105): Shifts sA right arithmetically by an immediate of 0 to 63. -/
  | srai (d : BitVec 6) (a : BitVec 6) (imm : BitVec 26)
  /-- `muli` (R105): Multiplies sA by the sign-extended immediate, modulo 2^64. -/
  | muli (d : BitVec 6) (a : BitVec 6) (imm : BitVec 26)
  /-- `mini` (R105): Sets sD to the signed minimum of sA and the immediate. -/
  | mini (d : BitVec 6) (a : BitVec 6) (imm : BitVec 26)
  /-- `maxi` (R105): Sets sD to the signed maximum of sA and the immediate. -/
  | maxi (d : BitVec 6) (a : BitVec 6) (imm : BitVec 26)
  /-- `div` (R106): Signed division truncating towards zero, with stated results for division by zero and overflow. -/
  | div (d : BitVec 6) (a : BitVec 6) (b : BitVec 6)
  /-- `divu` (R106): Unsigned division, with 2^64 - 1 for division by zero. -/
  | divu (d : BitVec 6) (a : BitVec 6) (b : BitVec 6)
  /-- `rem` (R106): Signed remainder with the sign of the dividend. -/
  | rem (d : BitVec 6) (a : BitVec 6) (b : BitVec 6)
  /-- `remu` (R106): Unsigned remainder. -/
  | remu (d : BitVec 6) (a : BitVec 6) (b : BitVec 6)
  /-- `seq` (R107): Sets sD to 1 when sA equals sB, else 0. -/
  | seq (d : BitVec 6) (a : BitVec 6) (b : BitVec 6)
  /-- `sne` (R107): Sets sD to 1 when sA differs from sB. -/
  | sne (d : BitVec 6) (a : BitVec 6) (b : BitVec 6)
  /-- `slt` (R107): Sets sD to 1 when sA < sB, signed. -/
  | slt (d : BitVec 6) (a : BitVec 6) (b : BitVec 6)
  /-- `sge` (R107): Sets sD to 1 when sA >= sB, signed. -/
  | sge (d : BitVec 6) (a : BitVec 6) (b : BitVec 6)
  /-- `sltu` (R107): Sets sD to 1 when sA < sB, unsigned. -/
  | sltu (d : BitVec 6) (a : BitVec 6) (b : BitVec 6)
  /-- `sgeu` (R107): Sets sD to 1 when sA >= sB, unsigned. -/
  | sgeu (d : BitVec 6) (a : BitVec 6) (b : BitVec 6)
  /-- `seqi` (R107): Compares sA with the sign-extended immediate for equality. -/
  | seqi (d : BitVec 6) (a : BitVec 6) (imm : BitVec 26)
  /-- `snei` (R107): Compares sA with the immediate for inequality. -/
  | snei (d : BitVec 6) (a : BitVec 6) (imm : BitVec 26)
  /-- `slti` (R107): Signed less-than against the immediate. -/
  | slti (d : BitVec 6) (a : BitVec 6) (imm : BitVec 26)
  /-- `sgei` (R107): Signed greater-or-equal against the immediate. -/
  | sgei (d : BitVec 6) (a : BitVec 6) (imm : BitVec 26)
  /-- `sltui` (R107): Unsigned less-than against the sign-extended immediate. -/
  | sltui (d : BitVec 6) (a : BitVec 6) (imm : BitVec 26)
  /-- `sgeui` (R107): Unsigned greater-or-equal against the sign-extended immediate. -/
  | sgeui (d : BitVec 6) (a : BitVec 6) (imm : BitVec 26)
  /-- `bfx` (R108): Extracts a bit field of sA and sign-extends it. -/
  | bfx (d : BitVec 6) (a : BitVec 6) (pos : BitVec 6) (len : BitVec 6)
  /-- `bfxu` (R108): Extracts a bit field of sA and zero-extends it. -/
  | bfxu (d : BitVec 6) (a : BitVec 6) (pos : BitVec 6) (len : BitVec 6)
  /-- `bfi` (R108): Inserts the low bits of sA into a field of sD. -/
  | bfi (d : BitVec 6) (a : BitVec 6) (pos : BitVec 6) (len : BitVec 6)
  /-- `clz` (R109): Counts the leading zero bits of sA. -/
  | clz (d : BitVec 6) (a : BitVec 6)
  /-- `ctz` (R109): Counts the trailing zero bits of sA. -/
  | ctz (d : BitVec 6) (a : BitVec 6)
  /-- `popc` (R109): Counts the one bits of sA. -/
  | popc (d : BitVec 6) (a : BitVec 6)
  /-- `brev` (R109): Reverses the bits of sA. -/
  | brev (d : BitVec 6) (a : BitVec 6)
  /-- `bswap` (R109): Reverses the bytes of sA. -/
  | bswap (d : BitVec 6) (a : BitVec 6)
  /-- `li` (R110): Loads a sign-extended 32-bit immediate into sD. -/
  | li (d : BitVec 6) (imm : BitVec 32)
  /-- `lih` (R110): Writes the immediate into sD[63:32] and keeps the low half. -/
  | lih (d : BitVec 6) (imm : BitVec 32)
  /-- `mov` (R111): Copies sA into sD. -/
  | mov (d : BitVec 6) (a : BitVec 6)
  /-- `lea` (R111): Sets sD to sA + sB scaled by 1, 2, 4 or 8. -/
  | lea (d : BitVec 6) (a : BitVec 6) (b : BitVec 6) (x : BitVec 4)
  /-- `ld` (R114): Loads 8 bytes of DRAM at a translated VA into sD. -/
  | ld (d : BitVec 6) (a : BitVec 6) (imm : BitVec 26)
  /-- `ld.i8` (R114): Loads one byte and sign-extends it. -/
  | ldI8 (d : BitVec 6) (a : BitVec 6) (imm : BitVec 26)
  /-- `ld.ui8` (R114): Loads one byte and zero-extends it. -/
  | ldUi8 (d : BitVec 6) (a : BitVec 6) (imm : BitVec 26)
  /-- `ld.i16` (R114): Loads two bytes and sign-extends them. -/
  | ldI16 (d : BitVec 6) (a : BitVec 6) (imm : BitVec 26)
  /-- `ld.ui16` (R114): Loads two bytes and zero-extends them. -/
  | ldUi16 (d : BitVec 6) (a : BitVec 6) (imm : BitVec 26)
  /-- `ld.i32` (R114): Loads four bytes and sign-extends them. -/
  | ldI32 (d : BitVec 6) (a : BitVec 6) (imm : BitVec 26)
  /-- `ld.ui32` (R114): Loads four bytes and zero-extends them. -/
  | ldUi32 (d : BitVec 6) (a : BitVec 6) (imm : BitVec 26)
  /-- `st` (R114): Stores the 8 bytes of sD at a translated VA. -/
  | st (d : BitVec 6) (a : BitVec 6) (imm : BitVec 26)
  /-- `st.i8` (R114): Stores the low byte of sD. -/
  | stI8 (d : BitVec 6) (a : BitVec 6) (imm : BitVec 26)
  /-- `st.i16` (R114): Stores the low two bytes of sD. -/
  | stI16 (d : BitVec 6) (a : BitVec 6) (imm : BitVec 26)
  /-- `st.i32` (R114): Stores the low four bytes of sD. -/
  | stI32 (d : BitVec 6) (a : BitVec 6) (imm : BitVec 26)
  /-- `mfsr` (R112): Reads a system register, zero-extended, into sD. -/
  | mfsr (d : BitVec 6) (sr : BitVec 16)
  /-- `vadd` (R280): Element-wise integer addition modulo 2^w. -/
  | vaddInt (fold : BitVec 2) (d : BitVec 6) (a : BitVec 6) (b : BitVec 6) (p : BitVec 3) (ft : BitVec 3)
  /-- `vsub` (R280): Element-wise integer subtraction modulo 2^w. -/
  | vsubInt (fold : BitVec 2) (d : BitVec 6) (a : BitVec 6) (b : BitVec 6) (p : BitVec 3) (ft : BitVec 3)
  /-- `vmul` (R280): Element-wise integer product modulo 2^w. -/
  | vmulInt (fold : BitVec 2) (d : BitVec 6) (a : BitVec 6) (b : BitVec 6) (p : BitVec 3) (ft : BitVec 3)
  /-- `vmulh` (R280): Element-wise high part of the integer product. -/
  | vmulh (fold : BitVec 2) (d : BitVec 6) (a : BitVec 6) (b : BitVec 6) (p : BitVec 3) (ft : BitVec 3)
  /-- `vmin` (R280): Element-wise integer minimum. -/
  | vminInt (fold : BitVec 2) (d : BitVec 6) (a : BitVec 6) (b : BitVec 6) (p : BitVec 3) (ft : BitVec 3)
  /-- `vmax` (R280): Element-wise integer maximum. -/
  | vmaxInt (fold : BitVec 2) (d : BitVec 6) (a : BitVec 6) (b : BitVec 6) (p : BitVec 3) (ft : BitVec 3)
  /-- `vabs` (R280): Element-wise integer absolute value modulo 2^w. -/
  | vabsInt (fold : BitVec 2) (d : BitVec 6) (a : BitVec 6) (p : BitVec 3) (ft : BitVec 3)
  /-- `vneg` (R280): Element-wise integer negation modulo 2^w. -/
  | vnegInt (fold : BitVec 2) (d : BitVec 6) (a : BitVec 6) (p : BitVec 3) (ft : BitVec 3)
  /-- `vadds` (R280): Element-wise saturating addition. -/
  | vadds (fold : BitVec 2) (d : BitVec 6) (a : BitVec 6) (b : BitVec 6) (p : BitVec 3) (ft : BitVec 3)
  /-- `vsubs` (R280): Element-wise saturating subtraction. -/
  | vsubs (fold : BitVec 2) (d : BitVec 6) (a : BitVec 6) (b : BitVec 6) (p : BitVec 3) (ft : BitVec 3)
  /-- `vavg` (R280): Element-wise rounded-up average. -/
  | vavg (fold : BitVec 2) (d : BitVec 6) (a : BitVec 6) (b : BitVec 6) (p : BitVec 3) (ft : BitVec 3)
  /-- `vmad` (R280): Element-wise a*b + c modulo 2^w. -/
  | vmad (fold : BitVec 2) (d : BitVec 6) (a : BitVec 6) (b : BitVec 6) (c : BitVec 6) (p : BitVec 3) (ft : BitVec 3)
  /-- `vand` (R281): Bitwise and of 32-bit elements. -/
  | vand (fold : BitVec 2) (d : BitVec 6) (a : BitVec 6) (b : BitVec 6) (p : BitVec 3)
  /-- `vor` (R281): Bitwise or of 32-bit elements. -/
  | vor (fold : BitVec 2) (d : BitVec 6) (a : BitVec 6) (b : BitVec 6) (p : BitVec 3)
  /-- `vxor` (R281): Bitwise xor of 32-bit elements. -/
  | vxor (fold : BitVec 2) (d : BitVec 6) (a : BitVec 6) (b : BitVec 6) (p : BitVec 3)
  /-- `vandn` (R281): Bitwise a and not b of 32-bit elements. -/
  | vandn (fold : BitVec 2) (d : BitVec 6) (a : BitVec 6) (b : BitVec 6) (p : BitVec 3)
  /-- `vnot` (R281): Bitwise not of 32-bit elements. -/
  | vnot (fold : BitVec 2) (d : BitVec 6) (a : BitVec 6) (p : BitVec 3)
  /-- `vmov` (R281): Copies 32-bit elements under the predicate. -/
  | vmov (fold : BitVec 2) (d : BitVec 6) (a : BitVec 6) (p : BitVec 3)
  /-- `vsll` (R282): Shifts elements left by per-element counts. -/
  | vsll (fold : BitVec 2) (d : BitVec 6) (a : BitVec 6) (b : BitVec 6) (p : BitVec 3) (ft : BitVec 3)
  /-- `vsrl` (R282): Shifts elements right logically by per-element counts. -/
  | vsrl (fold : BitVec 2) (d : BitVec 6) (a : BitVec 6) (b : BitVec 6) (p : BitVec 3) (ft : BitVec 3)
  /-- `vsra` (R282): Shifts elements right arithmetically by per-element counts. -/
  | vsra (fold : BitVec 2) (d : BitVec 6) (a : BitVec 6) (b : BitVec 6) (p : BitVec 3) (ft : BitVec 3)
  /-- `vrol` (R282): Rotates elements left by per-element counts. -/
  | vrol (fold : BitVec 2) (d : BitVec 6) (a : BitVec 6) (b : BitVec 6) (p : BitVec 3) (ft : BitVec 3)
  /-- `vslls` (R282): Shifts elements left by a scalar count. -/
  | vslls (fold : BitVec 2) (d : BitVec 6) (a : BitVec 6) (b : BitVec 6) (p : BitVec 3) (ft : BitVec 3)
  /-- `vsrls` (R282): Shifts elements right logically by a scalar count. -/
  | vsrls (fold : BitVec 2) (d : BitVec 6) (a : BitVec 6) (b : BitVec 6) (p : BitVec 3) (ft : BitVec 3)
  /-- `vsras` (R282): Shifts elements right arithmetically by a scalar count. -/
  | vsras (fold : BitVec 2) (d : BitVec 6) (a : BitVec 6) (b : BitVec 6) (p : BitVec 3) (ft : BitVec 3)
  /-- `vcmpeq` (R283): Sets predicate bits where integer elements are equal. -/
  | vcmpeqInt (fold : BitVec 2) (d : BitVec 6) (a : BitVec 6) (b : BitVec 6) (p : BitVec 3) (ft : BitVec 3)
  /-- `vcmpne` (R283): Sets predicate bits where integer elements differ. -/
  | vcmpneInt (fold : BitVec 2) (d : BitVec 6) (a : BitVec 6) (b : BitVec 6) (p : BitVec 3) (ft : BitVec 3)
  /-- `vcmplt` (R283): Sets predicate bits where a < b as integers. -/
  | vcmpltInt (fold : BitVec 2) (d : BitVec 6) (a : BitVec 6) (b : BitVec 6) (p : BitVec 3) (ft : BitVec 3)
  /-- `vcmple` (R283): Sets predicate bits where a <= b as integers. -/
  | vcmpleInt (fold : BitVec 2) (d : BitVec 6) (a : BitVec 6) (b : BitVec 6) (p : BitVec 3) (ft : BitVec 3)
  /-- `vcmpgt` (R283): Sets predicate bits where a > b as integers. -/
  | vcmpgtInt (fold : BitVec 2) (d : BitVec 6) (a : BitVec 6) (b : BitVec 6) (p : BitVec 3) (ft : BitVec 3)
  /-- `vcmpge` (R283): Sets predicate bits where a >= b as integers. -/
  | vcmpgeInt (fold : BitVec 2) (d : BitVec 6) (a : BitVec 6) (b : BitVec 6) (p : BitVec 3) (ft : BitVec 3)
  /-- `vsel` (R284): Selects elements of vA or vB by a selector predicate. -/
  | vsel (fold : BitVec 2) (d : BitVec 6) (a : BitVec 6) (b : BitVec 6) (p : BitVec 3) (ft : BitVec 3)
  /-- `vsplat` (R284): Writes the low bits of sA into every element. -/
  | vsplat (fold : BitVec 2) (d : BitVec 6) (a : BitVec 6) (ft : BitVec 3)
  /-- `vext` (R284): Extracts element sB mod E of vA into sD. -/
  | vext (fold : BitVec 2) (d : BitVec 6) (a : BitVec 6) (b : BitVec 6) (ft : BitVec 3)
  /-- `vins` (R284): Inserts sA into element sB mod E of vD. -/
  | vins (fold : BitVec 2) (d : BitVec 6) (a : BitVec 6) (b : BitVec 6) (ft : BitVec 3)
  /-- `viota` (R284): Sets element k to k mod 2^w. -/
  | viota (fold : BitVec 2) (d : BitVec 6) (ft : BitVec 3)
  /-- `vadd` (R286): Element-wise floating addition rounded once under RM. -/
  | vaddFp (fold : BitVec 2) (d : BitVec 6) (a : BitVec 6) (b : BitVec 6) (p : BitVec 3) (ft : BitVec 3) (rm : BitVec 4)
  /-- `vsub` (R286): Element-wise floating subtraction. -/
  | vsubFp (fold : BitVec 2) (d : BitVec 6) (a : BitVec 6) (b : BitVec 6) (p : BitVec 3) (ft : BitVec 3) (rm : BitVec 4)
  /-- `vmul` (R286): Element-wise floating multiplication. -/
  | vmulFp (fold : BitVec 2) (d : BitVec 6) (a : BitVec 6) (b : BitVec 6) (p : BitVec 3) (ft : BitVec 3) (rm : BitVec 4)
  /-- `vfma` (R286): Fused a*b + c rounded once. -/
  | vfma (fold : BitVec 2) (d : BitVec 6) (a : BitVec 6) (b : BitVec 6) (c : BitVec 6) (p : BitVec 3) (ft : BitVec 3) (rm : BitVec 4)
  /-- `vfms` (R286): Fused a*b - c rounded once. -/
  | vfms (fold : BitVec 2) (d : BitVec 6) (a : BitVec 6) (b : BitVec 6) (c : BitVec 6) (p : BitVec 3) (ft : BitVec 3) (rm : BitVec 4)
  /-- `vfnma` (R286): Fused c - a*b rounded once. -/
  | vfnma (fold : BitVec 2) (d : BitVec 6) (a : BitVec 6) (b : BitVec 6) (c : BitVec 6) (p : BitVec 3) (ft : BitVec 3) (rm : BitVec 4)
  /-- `vmin` (R287): Floating minimum with -0 below +0 and NaN giving the canonical NaN. -/
  | vminFp (fold : BitVec 2) (d : BitVec 6) (a : BitVec 6) (b : BitVec 6) (p : BitVec 3) (ft : BitVec 3)
  /-- `vmax` (R287): Floating maximum with NaN giving the canonical NaN. -/
  | vmaxFp (fold : BitVec 2) (d : BitVec 6) (a : BitVec 6) (b : BitVec 6) (p : BitVec 3) (ft : BitVec 3)
  /-- `vabs` (R287): Clears the sign bit of floating elements. -/
  | vabsFp (fold : BitVec 2) (d : BitVec 6) (a : BitVec 6) (p : BitVec 3) (ft : BitVec 3)
  /-- `vneg` (R287): Inverts the sign bit of floating elements. -/
  | vnegFp (fold : BitVec 2) (d : BitVec 6) (a : BitVec 6) (p : BitVec 3) (ft : BitVec 3)
  /-- `vdiv` (R288): Element-wise floating division with stated special cases. -/
  | vdiv (fold : BitVec 2) (d : BitVec 6) (a : BitVec 6) (b : BitVec 6) (p : BitVec 3) (ft : BitVec 3) (rm : BitVec 4)
  /-- `vsqrt` (R288): Element-wise floating square root with stated special cases. -/
  | vsqrt (fold : BitVec 2) (d : BitVec 6) (a : BitVec 6) (p : BitVec 3) (ft : BitVec 3) (rm : BitVec 4)
  /-- `vcmpeq` (R289): IEEE equality compare into a predicate. -/
  | vcmpeqFp (fold : BitVec 2) (d : BitVec 6) (a : BitVec 6) (b : BitVec 6) (p : BitVec 3) (ft : BitVec 3)
  /-- `vcmpne` (R289): IEEE inequality compare, true for NaN. -/
  | vcmpneFp (fold : BitVec 2) (d : BitVec 6) (a : BitVec 6) (b : BitVec 6) (p : BitVec 3) (ft : BitVec 3)
  /-- `vcmplt` (R289): IEEE less-than compare. -/
  | vcmpltFp (fold : BitVec 2) (d : BitVec 6) (a : BitVec 6) (b : BitVec 6) (p : BitVec 3) (ft : BitVec 3)
  /-- `vcmple` (R289): IEEE less-or-equal compare. -/
  | vcmpleFp (fold : BitVec 2) (d : BitVec 6) (a : BitVec 6) (b : BitVec 6) (p : BitVec 3) (ft : BitVec 3)
  /-- `vcmpgt` (R289): IEEE greater-than compare. -/
  | vcmpgtFp (fold : BitVec 2) (d : BitVec 6) (a : BitVec 6) (b : BitVec 6) (p : BitVec 3) (ft : BitVec 3)
  /-- `vcmpge` (R289): IEEE greater-or-equal compare. -/
  | vcmpgeFp (fold : BitVec 2) (d : BitVec 6) (a : BitVec 6) (b : BitVec 6) (p : BitVec 3) (ft : BitVec 3)
  /-- `vcmpun` (R289): Sets predicate bits where either operand is NaN. -/
  | vcmpun (fold : BitVec 2) (d : BitVec 6) (a : BitVec 6) (b : BitVec 6) (p : BitVec 3) (ft : BitVec 3)
  /-- `vli` (R285): Writes a 32-bit immediate into every slot that its fold reaches. -/
  | vli (fold : BitVec 2) (d : BitVec 6) (imm : BitVec 32)
  /-- `vcvt` (R292): Converts elements between the listed integer and floating types. -/
  | vcvt (fold : BitVec 2) (d : BitVec 6) (a : BitVec 6) (src : BitVec 6) (p : BitVec 3) (rm : BitVec 4) (dst : BitVec 4)
  /-- `vquant` (R293): Chooses an E8M0 scale per 32-element block and quantises with saturation. -/
  | vquant (fold : BitVec 2) (d : BitVec 6) (a : BitVec 6) (src : BitVec 6) (c : BitVec 6) (p : BitVec 3) (rm : BitVec 4) (dst : BitVec 4)
  /-- `vdequant` (R294): Dequantises scaled 8-bit or 4-bit elements into a float format. -/
  | vdequant (fold : BitVec 2) (d : BitVec 6) (a : BitVec 6) (src : BitVec 6) (c : BitVec 6) (p : BitVec 3) (rm : BitVec 4) (dst : BitVec 4)
  /-- `vlq2` (R295): Decodes LQ2 indices into scaled weights. -/
  | vlq2 (fold : BitVec 2) (d : BitVec 6) (a : BitVec 6) (src : BitVec 6) (c : BitVec 6) (p : BitVec 3) (rm : BitVec 4) (dst : BitVec 4)
  /-- `vscale` (R294): Multiplies float elements by block scales and rounds. -/
  | vscale (fold : BitVec 2) (d : BitVec 6) (a : BitVec 6) (src : BitVec 6) (c : BitVec 6) (p : BitVec 3) (rm : BitVec 4) (dst : BitVec 4)
  /-- `vexp2` (R290): Correctly rounded 2^x per element. -/
  | vexp2 (fold : BitVec 2) (d : BitVec 6) (a : BitVec 6) (p : BitVec 3) (ft : BitVec 3) (rm : BitVec 4)
  /-- `vlog2` (R290): Correctly rounded log2 x per element. -/
  | vlog2 (fold : BitVec 2) (d : BitVec 6) (a : BitVec 6) (p : BitVec 3) (ft : BitVec 3) (rm : BitVec 4)
  /-- `vrcp` (R290): Correctly rounded 1/x per element. -/
  | vrcp (fold : BitVec 2) (d : BitVec 6) (a : BitVec 6) (p : BitVec 3) (ft : BitVec 3) (rm : BitVec 4)
  /-- `vrsqrt` (R290): Correctly rounded 1/sqrt x per element. -/
  | vrsqrt (fold : BitVec 2) (d : BitVec 6) (a : BitVec 6) (p : BitVec 3) (ft : BitVec 3) (rm : BitVec 4)
  /-- `vtanh` (R290): Correctly rounded tanh x per element. -/
  | vtanh (fold : BitVec 2) (d : BitVec 6) (a : BitVec 6) (p : BitVec 3) (ft : BitVec 3) (rm : BitVec 4)
  /-- `vsigm` (R290): Correctly rounded logistic function per element. -/
  | vsigm (fold : BitVec 2) (d : BitVec 6) (a : BitVec 6) (p : BitVec 3) (ft : BitVec 3) (rm : BitVec 4)
  /-- `vredsum` (R296): Sums all elements by the fixed tree into sD. -/
  | vredsum (fold : BitVec 2) (d : BitVec 6) (a : BitVec 6) (p : BitVec 3) (ft : BitVec 3) (rm : BitVec 4)
  /-- `vredmin` (R296): Reduces all elements to their minimum. -/
  | vredmin (fold : BitVec 2) (d : BitVec 6) (a : BitVec 6) (p : BitVec 3) (ft : BitVec 3)
  /-- `vredmax` (R296): Reduces all elements to their maximum. -/
  | vredmax (fold : BitVec 2) (d : BitVec 6) (a : BitVec 6) (p : BitVec 3) (ft : BitVec 3)
  /-- `vredminu` (R296): Unsigned minimum reduction. -/
  | vredminu (fold : BitVec 2) (d : BitVec 6) (a : BitVec 6) (p : BitVec 3)
  /-- `vredmaxu` (R296): Unsigned maximum reduction. -/
  | vredmaxu (fold : BitVec 2) (d : BitVec 6) (a : BitVec 6) (p : BitVec 3)
  /-- `vredand` (R296): Bitwise and reduction. -/
  | vredand (fold : BitVec 2) (d : BitVec 6) (a : BitVec 6) (p : BitVec 3)
  /-- `vredor` (R296): Bitwise or reduction. -/
  | vredor (fold : BitVec 2) (d : BitVec 6) (a : BitVec 6) (p : BitVec 3)
  /-- `vscan` (R297): Sequential inclusive prefix sum. -/
  | vscan (fold : BitVec 2) (d : BitVec 6) (a : BitVec 6) (p : BitVec 3) (ft : BitVec 3) (rm : BitVec 4)
  /-- `vscanx` (R297): Sequential exclusive prefix sum. -/
  | vscanx (fold : BitVec 2) (d : BitVec 6) (a : BitVec 6) (p : BitVec 3) (ft : BitVec 3) (rm : BitVec 4)
  /-- `vscanmax` (R297): Sequential prefix maximum. -/
  | vscanmax (fold : BitVec 2) (d : BitVec 6) (a : BitVec 6) (p : BitVec 3) (ft : BitVec 3)
  /-- `vperm` (R298): Permutes elements of vA by the indices in vB. -/
  | vperm (fold : BitVec 2) (d : BitVec 6) (a : BitVec 6) (b : BitVec 6) (ft : BitVec 3)
  /-- `vrot` (R298): Rotates elements by sB. -/
  | vrot (fold : BitVec 2) (d : BitVec 6) (a : BitVec 6) (b : BitVec 6) (ft : BitVec 3)
  /-- `vrev` (R298): Reverses the element order. -/
  | vrev (fold : BitVec 2) (d : BitVec 6) (a : BitVec 6) (ft : BitVec 3)
  /-- `vzip` (R298): Interleaves elements of vA and vB. -/
  | vzip (fold : BitVec 2) (d : BitVec 6) (a : BitVec 6) (b : BitVec 6) (ft : BitVec 3)
  /-- `vunzip` (R298): Takes the even elements of vA followed by vB. -/
  | vunzip (fold : BitVec 2) (d : BitVec 6) (a : BitVec 6) (b : BitVec 6) (ft : BitVec 3)
  /-- `vbcast` (R298): Broadcasts element sB mod E to every element. -/
  | vbcast (fold : BitVec 2) (d : BitVec 6) (a : BitVec 6) (b : BitVec 6) (ft : BitVec 3)
  /-- `vsortn` (R299): Writes the n largest keys in decreasing order with their carried values. -/
  | vsortn (fold : BitVec 2) (d : BitVec 6) (a : BitVec 6) (b : BitVec 6) (c : BitVec 6) (ft : BitVec 3)
  /-- `vcompress` (R300): Packs predicate-selected elements to the front and writes their count. -/
  | vcompress (fold : BitVec 2) (d : BitVec 6) (a : BitVec 6) (b : BitVec 6) (p : BitVec 3) (ft : BitVec 3)
  /-- `vexpand` (R300): Spreads leading elements into predicate-selected positions. -/
  | vexpand (fold : BitVec 2) (d : BitVec 6) (a : BitVec 6) (p : BitVec 3) (ft : BitVec 3)
  /-- `vrng` (R301): Writes Philox random words into enabled slots. -/
  | vrng (fold : BitVec 2) (d : BitVec 6) (p : BitVec 3)
  /-- `vrngf` (R301): Writes uniform floats in [0, 1) from Philox words. -/
  | vrngf (fold : BitVec 2) (d : BitVec 6) (p : BitVec 3) (ft : BitVec 3)
  /-- `pand` (R302): Bitwise and of two predicates. -/
  | pand (fold : BitVec 2) (d : BitVec 6) (a : BitVec 6) (b : BitVec 6)
  /-- `por` (R302): Bitwise or of two predicates. -/
  | por (fold : BitVec 2) (d : BitVec 6) (a : BitVec 6) (b : BitVec 6)
  /-- `pxor` (R302): Bitwise xor of two predicates. -/
  | pxor (fold : BitVec 2) (d : BitVec 6) (a : BitVec 6) (b : BitVec 6)
  /-- `pnot` (R302): Inverts a predicate. -/
  | pnot (fold : BitVec 2) (d : BitVec 6) (a : BitVec 6)
  /-- `pmov` (R302): Copies a predicate. -/
  | pmov (fold : BitVec 2) (d : BitVec 6) (a : BitVec 6)
  /-- `pall` (R302): Sets all 512 predicate bits. -/
  | pall (fold : BitVec 2) (d : BitVec 6)
  /-- `pnone` (R302): Clears all 512 predicate bits. -/
  | pnone (fold : BitVec 2) (d : BitVec 6)
  /-- `pcnt` (R302): Counts the set bits of a predicate. -/
  | pcnt (fold : BitVec 2) (d : BitVec 6) (a : BitVec 6)
  /-- `pfirst` (R302): Gives the index of the lowest set bit, or 512. -/
  | pfirst (fold : BitVec 2) (d : BitVec 6) (a : BitVec 6)
  /-- `pwlt` (R302): Sets predicate bits below sA. -/
  | pwlt (fold : BitVec 2) (d : BitVec 6) (a : BitVec 6)
  /-- `madd` (R312): Modular sum into canonical residues. -/
  | madd (fold : BitVec 2) (d : BitVec 6) (a : BitVec 6) (b : BitVec 6) (p : BitVec 3) (qset : BitVec 2)
  /-- `msub` (R312): Modular difference. -/
  | msub (fold : BitVec 2) (d : BitVec 6) (a : BitVec 6) (b : BitVec 6) (p : BitVec 3) (qset : BitVec 2)
  /-- `mneg` (R312): Modular negation. -/
  | mneg (fold : BitVec 2) (d : BitVec 6) (a : BitVec 6) (p : BitVec 3) (qset : BitVec 2)
  /-- `mmulq` (R312): Montgomery product. -/
  | mmulq (fold : BitVec 2) (d : BitVec 6) (a : BitVec 6) (b : BitVec 6) (p : BitVec 3) (qset : BitVec 2)
  /-- `mmac` (R312): Montgomery multiply-accumulate. -/
  | mmac (fold : BitVec 2) (d : BitVec 6) (a : BitVec 6) (b : BitVec 6) (c : BitVec 6) (p : BitVec 3) (qset : BitVec 2)
  /-- `mtomont` (R312): Converts into Montgomery form. -/
  | mtomont (fold : BitVec 2) (d : BitVec 6) (a : BitVec 6) (p : BitVec 3) (qset : BitVec 2)
  /-- `mfrmont` (R312): Converts out of Montgomery form. -/
  | mfrmont (fold : BitVec 2) (d : BitVec 6) (a : BitVec 6) (p : BitVec 3) (qset : BitVec 2)
  /-- `mred` (R312): Reduces any 64-bit value modulo the lane modulus. -/
  | mred (fold : BitVec 2) (d : BitVec 6) (a : BitVec 6) (p : BitVec 3) (qset : BitVec 2)
  /-- `mmul` (R312): Plain modular product. -/
  | mmul (fold : BitVec 2) (d : BitVec 6) (a : BitVec 6) (b : BitVec 6) (p : BitVec 3) (qset : BitVec 2)
  /-- `bflyct` (R313): One Cooley-Tukey radix-2 stage over 64 residues. -/
  | bflyct (fold : BitVec 2) (d : BitVec 6) (a : BitVec 6) (b : BitVec 6) (stage : BitVec 3) (qset : BitVec 2)
  /-- `bflygs` (R313): One Gentleman-Sande radix-2 stage over 64 residues. -/
  | bflygs (fold : BitVec 2) (d : BitVec 6) (a : BitVec 6) (b : BitVec 6) (stage : BitVec 3) (qset : BitVec 2)
  /-- `bfperm.rev` (R314): Bit-reversal permutation of 64 elements. -/
  | bfpermRev (fold : BitVec 2) (d : BitVec 6) (a : BitVec 6)
  /-- `bfperm.shuf` (R314): Perfect-shuffle permutation of 64 elements. -/
  | bfpermShuf (fold : BitVec 2) (d : BitVec 6) (a : BitVec 6)
  /-- `bfperm.strd` (R314): Stride permutation of 64 elements. -/
  | bfpermStrd (fold : BitVec 2) (d : BitVec 6) (a : BitVec 6) (stride : BitVec 6)
  /-- `mauto` (R315): Applies x to x^kappa in Z[x]/(x^64 + 1) and reduces. -/
  | mauto (fold : BitVec 2) (d : BitVec 6) (a : BitVec 6) (b : BitVec 6) (qset : BitVec 2)
  /-- `mqset` (R307): Writes a modulus set and its derived constants, seen 40 stamps later. -/
  | mqset (fold : BitVec 2) (d : BitVec 6) (a : BitVec 6)
  /-- `mqget` (R308): Reads a modulus set with its constants and validity. -/
  | mqget (fold : BitVec 2) (d : BitVec 6) (a : BitVec 6)
  /-- `tcfg` (R319): Writes the tensor configuration register. -/
  | tcfg (imm : BitVec 32)
  /-- `tdef` (R324): Defines an operation slot from CFG, two buffers and an accumulator. -/
  | tdef (d : BitVec 6) (a : BitVec 6) (b : BitVec 6) (c : BitVec 6) (flags : BitVec 4)
  /-- `tarm` (R325): Arms a defined slot, or starts a systolic pass in the corner tile. -/
  | tarm (d : BitVec 6)
  /-- `tdisarm` (R325): Returns an armed slot to DEFINED. -/
  | tdisarm (d : BitVec 6)
  /-- `ttag.empty` (R331): Requests that a buffer's tag become EMPTY. -/
  | ttagEmpty (a : BitVec 6)
  /-- `ttag.full` (R331): Requests that a buffer's tag become FULL. -/
  | ttagFull (a : BitVec 6)
  /-- `twload` (R343): Loads the tile's systolic weight store. -/
  | twload (a : BitVec 6)
  /-- `tread` (R332): Reads one row of a closed accumulator into a vector register. -/
  | tread (d : BitVec 6) (a : BitVec 6) (b : BitVec 6)
  /-- `tstore` (R333): Queues a converted store of an accumulator to near memory. -/
  | tstore (a : BitVec 6) (b : BitVec 6) (ft : BitVec 3) (rm : BitVec 4)
  /-- `taccz` (R334): Requests that an accumulator be emptied. -/
  | taccz (d : BitVec 6)
  /-- `tsysto` (R342): Sets or clears the systolic bit of the issuing quad's root group. -/
  | tsysto (on : BitVec 1)
  /-- `tstat.slot` (R335): Reads the status of an operation slot. -/
  | tstatSlot (d : BitVec 6) (a : BitVec 6)
  /-- `tstat.acc` (R335): Reads the status of an accumulator. -/
  | tstatAcc (d : BitVec 6) (a : BitVec 6)
  /-- `pop` (R168): Takes one token per beat from an input window into a register. -/
  | pop (fold : BitVec 2) (d : BitVec 6) (a : BitVec 6)
  /-- `popd` (R168): Takes and discards one token per beat. -/
  | popd (fold : BitVec 2) (a : BitVec 6)
  /-- `push` (R170): Sends one DATA token per beat on an output port. -/
  | push (fold : BitVec 2) (d : BitVec 6) (a : BitVec 6) (ft : BitVec 3)
  /-- `peek` (R169): Reads tokens behind the head without removing them. -/
  | peek (fold : BitVec 2) (d : BitVec 6) (a : BitVec 6)
  /-- `nld` (R174): Loads 32 near words into a vector register. -/
  | nld (d : BitVec 6) (a : BitVec 6) (imm : BitVec 26)
  /-- `nlds` (R174): Loads one near word into a scalar register. -/
  | nlds (d : BitVec 6) (a : BitVec 6) (imm : BitVec 26)
  /-- `nst` (R174): Stores 32 near words from a vector register. -/
  | nst (d : BitVec 6) (a : BitVec 6) (b : BitVec 6) (ocx : BitVec 4)
  /-- `nsts` (R174): Stores one near word from a scalar register. -/
  | nsts (d : BitVec 6) (a : BitVec 6) (b : BitVec 6) (ocx : BitVec 4)
  /-- `pld` (R178): Reads a presence word, waiting until it is written. -/
  | pld (d : BitVec 6) (a : BitVec 6) (b : BitVec 6)
  /-- `pldv` (R178): Reads 32 presence words, waiting for each. -/
  | pldv (d : BitVec 6) (a : BitVec 6) (b : BitVec 6)
  /-- `pst` (R179): Writes a presence word once and sets its presence bit. -/
  | pst (d : BitVec 6) (a : BitVec 6) (b : BitVec 6) (ocx : BitVec 4)
  /-- `pstv` (R179): Writes 32 presence words once. -/
  | pstv (d : BitVec 6) (a : BitVec 6) (b : BitVec 6) (ocx : BitVec 4)
  /-- `pclr` (R180): Clears the presence bits of a range of words. -/
  | pclr (a : BitVec 6) (b : BitVec 6)
  /-- `agset` (R182): Reads a generator descriptor from near memory. -/
  | agset (d : BitVec 6) (a : BitVec 6)
  /-- `agld` (R183): Loads 32 words at the generator's offset and advances it. -/
  | agld (d : BitVec 6) (a : BitVec 6)
  /-- `agst` (R183): Stores 32 words at the generator's offset and advances it. -/
  | agst (d : BitVec 6) (a : BitVec 6)
  /-- `amo.add` (R233): Atomic add, returning the old word. -/
  | amoAdd (d : BitVec 6) (a : BitVec 6) (b : BitVec 6) (oc : BitVec 3) (scope : BitVec 3)
  /-- `amo.min` (R233): Atomic signed minimum. -/
  | amoMin (d : BitVec 6) (a : BitVec 6) (b : BitVec 6) (oc : BitVec 3) (scope : BitVec 3)
  /-- `amo.max` (R233): Atomic signed maximum. -/
  | amoMax (d : BitVec 6) (a : BitVec 6) (b : BitVec 6) (oc : BitVec 3) (scope : BitVec 3)
  /-- `amo.and` (R233): Atomic and. -/
  | amoAnd (d : BitVec 6) (a : BitVec 6) (b : BitVec 6) (oc : BitVec 3) (scope : BitVec 3)
  /-- `amo.or` (R233): Atomic or. -/
  | amoOr (d : BitVec 6) (a : BitVec 6) (b : BitVec 6) (oc : BitVec 3) (scope : BitVec 3)
  /-- `amo.xor` (R233): Atomic xor. -/
  | amoXor (d : BitVec 6) (a : BitVec 6) (b : BitVec 6) (oc : BitVec 3) (scope : BitVec 3)
  /-- `amo.swap` (R233): Atomic swap. -/
  | amoSwap (d : BitVec 6) (a : BitVec 6) (b : BitVec 6) (oc : BitVec 3) (scope : BitVec 3)
  /-- `amo.cas` (R233): Atomic compare-and-swap. -/
  | amoCas (d : BitVec 6) (a : BitVec 6) (b : BitVec 6) (c : BitVec 6) (oc : BitVec 3) (scope : BitVec 3)
  /-- `amo.fadd` (R233): Atomic F32 addition rounded under RNE. -/
  | amoFadd (d : BitVec 6) (a : BitVec 6) (b : BitVec 6) (oc : BitVec 3) (scope : BitVec 3)
  /-- `amo.minu` (R233): Atomic unsigned minimum. -/
  | amoMinu (d : BitVec 6) (a : BitVec 6) (b : BitVec 6) (oc : BitVec 3) (scope : BitVec 3)
  /-- `amo.maxu` (R233): Atomic unsigned maximum. -/
  | amoMaxu (d : BitVec 6) (a : BitVec 6) (b : BitVec 6) (oc : BitVec 3) (scope : BitVec 3)
  /-- `red.add` (R233): Atomic add with no returned value. -/
  | redAdd (a : BitVec 6) (b : BitVec 6) (oc : BitVec 3) (scope : BitVec 3)
  /-- `red.min` (R233): Atomic signed minimum with no return. -/
  | redMin (a : BitVec 6) (b : BitVec 6) (oc : BitVec 3) (scope : BitVec 3)
  /-- `red.max` (R233): Atomic signed maximum with no return. -/
  | redMax (a : BitVec 6) (b : BitVec 6) (oc : BitVec 3) (scope : BitVec 3)
  /-- `red.and` (R233): Atomic and with no return. -/
  | redAnd (a : BitVec 6) (b : BitVec 6) (oc : BitVec 3) (scope : BitVec 3)
  /-- `red.or` (R233): Atomic or with no return. -/
  | redOr (a : BitVec 6) (b : BitVec 6) (oc : BitVec 3) (scope : BitVec 3)
  /-- `red.xor` (R233): Atomic xor with no return. -/
  | redXor (a : BitVec 6) (b : BitVec 6) (oc : BitVec 3) (scope : BitVec 3)
  /-- `red.fadd` (R233): Atomic F32 addition with no return. -/
  | redFadd (a : BitVec 6) (b : BitVec 6) (oc : BitVec 3) (scope : BitVec 3)
  /-- `red.minu` (R233): Atomic unsigned minimum with no return. -/
  | redMinu (a : BitVec 6) (b : BitVec 6) (oc : BitVec 3) (scope : BitVec 3)
  /-- `red.maxu` (R233): Atomic unsigned maximum with no return. -/
  | redMaxu (a : BitVec 6) (b : BitVec 6) (oc : BitVec 3) (scope : BitVec 3)
  /-- `csig` (R219): Sends one signal to a join or one control token from a control port. -/
  | csig (d : BitVec 6)
  /-- `cwait` (R220): Waits for a release or token at a control port and removes one. -/
  | cwait (a : BitVec 6)
  /-- `ctest` (R221): Reads the number of releases or tokens waiting at a control port. -/
  | ctest (d : BitVec 6) (a : BitVec 6)
  /-- `punct` (R224): Sends one PUNCT marker on an output port. -/
  | punct (d : BitVec 6)
  /-- `punctall` (R225): Checks every input's PS bit, sends PUNCT on every output and clears PS. -/
  | punctall
  /-- `ordj` (R229): Captures an order channel's issued count and signals once it completes. -/
  | ordj (d : BitVec 6) (a : BitVec 6)
  /-- `fence` (R236): Holds later sequencer instructions until earlier accesses in the scope complete. -/
  | fence (scope : BitVec 3)
  /-- `ramo.add` (R444): Remote atomic add on another package of the domain. -/
  | ramoAdd (d : BitVec 6) (a : BitVec 6) (b : BitVec 6) (oc : BitVec 3)
  /-- `ramo.min` (R444): Remote atomic signed minimum. -/
  | ramoMin (d : BitVec 6) (a : BitVec 6) (b : BitVec 6) (oc : BitVec 3)
  /-- `ramo.max` (R444): Remote atomic signed maximum. -/
  | ramoMax (d : BitVec 6) (a : BitVec 6) (b : BitVec 6) (oc : BitVec 3)
  /-- `ramo.and` (R444): Remote atomic and. -/
  | ramoAnd (d : BitVec 6) (a : BitVec 6) (b : BitVec 6) (oc : BitVec 3)
  /-- `ramo.or` (R444): Remote atomic or. -/
  | ramoOr (d : BitVec 6) (a : BitVec 6) (b : BitVec 6) (oc : BitVec 3)
  /-- `ramo.xor` (R444): Remote atomic xor. -/
  | ramoXor (d : BitVec 6) (a : BitVec 6) (b : BitVec 6) (oc : BitVec 3)
  /-- `ramo.swap` (R444): Remote atomic swap. -/
  | ramoSwap (d : BitVec 6) (a : BitVec 6) (b : BitVec 6) (oc : BitVec 3)
  /-- `ramo.cas` (R444): Remote atomic compare-and-swap. -/
  | ramoCas (d : BitVec 6) (a : BitVec 6) (b : BitVec 6) (c : BitVec 6) (oc : BitVec 3)
  /-- `ramo.fadd` (R444): Remote atomic F32 addition. -/
  | ramoFadd (d : BitVec 6) (a : BitVec 6) (b : BitVec 6) (oc : BitVec 3)
  /-- `ramo.minu` (R444): Remote atomic unsigned minimum. -/
  | ramoMinu (d : BitVec 6) (a : BitVec 6) (b : BitVec 6) (oc : BitVec 3)
  /-- `ramo.maxu` (R444): Remote atomic unsigned maximum. -/
  | ramoMaxu (d : BitVec 6) (a : BitVec 6) (b : BitVec 6) (oc : BitVec 3)
  /-- `setmode` (R249): Requests a mode of a graph, injecting MODE markers when it is RUNNING. -/
  | setmode (a : BitVec 6) (mode : BitVec 3)
  /-- `spawn` (R255): Draws a colour and sends one token of that colour on a spawn arc. -/
  | spawn (d : BitVec 6) (a : BitVec 6) (tag : BitVec 12)
  /-- `cret` (R256): Sends a return token carrying the actor's colour and returns that colour to the pool. -/
  | cret (d : BitVec 6)
  /-- `ckick` (R257): Sends one token carrying an offset on a named hardware queue. -/
  | ckick (a : BitVec 6) (tag : BitVec 12)
  /-- `carm` (R258): Arms a copy template from a descriptor or from the image. -/
  | carm (a : BitVec 6) (tag : BitVec 12)
  /-- `gld` (R259): Takes a graph slot, returns its handle and starts loading the image. -/
  | gld (d : BitVec 6) (a : BitVec 6) (b : BitVec 6)
  /-- `gact` (R259): Makes a LOADED or IDLE graph WAITING. -/
  | gact (a : BitVec 6)
  /-- `gdrain` (R259): Drains a RUNNING or CHANGING graph. -/
  | gdrain (a : BitVec 6)
  /-- `gunld` (R259): Unloads a graph in any state without a drain. -/
  | gunld (a : BitVec 6)
  /-- `gstat` (R260): Reads a graph, load or region status word. -/
  | gstat (d : BitVec 6) (a : BitVec 6)
  /-- `mstat` (R260): Reads the status of a memory actor. -/
  | mstat (d : BitVec 6) (a : BitVec 6)
  /-- `gpatch` (R248): Records a new base for a memory actor, taking effect at the next start pulse. -/
  | gpatch (d : BitVec 6) (a : BitVec 6) (tag : BitVec 12)
  /-- `trap` (R362): Raises TRAP in its own sequencer, or forwards while in a handler. -/
  | trap (code : BitVec 16)
  /-- `tret` (R359): Leaves a handler and releases, reissues or drops the trapped operation. -/
  | tret
  /-- `mtsr` (R363): Writes a permitted system register. -/
  | mtsr (a : BitVec 6) (sr : BitVec 16)
  /-- `idle` (R364): Stops issue until a trap, release, forward or doorbell. -/
  | idle
  /-- `csave` (R366): Starts HALT or DRAIN pre-emption of a context. -/
  | csave (a : BitVec 6)
  /-- `cload` (R370): Restores a SAVED context. -/
  | cload (a : BitVec 6)
  /-- `pginv` (R399): Invalidates translations of a VA range within a scope. -/
  | pginv (a : BitVec 6) (b : BitVec 6) (scope : BitVec 4)
  /-- `pgfence` (R400): Waits for earlier accesses, walks and table updates in the scope. -/
  | pgfence (scope : BitVec 4)
  /-- `pgstat` (R401): Translates a VA without access and reports the walk. -/
  | pgstat (d : BitVec 6) (a : BitVec 6)
  /-- `snap` (R424): Opens a package or domain snapshot. -/
  | snap (ident : BitVec 16) (scope : BitVec 4)
  /-- `snapq` (R425): Reads the state or inventory offset of a snapshot. -/
  | snapq (d : BitVec 6) (a : BitVec 6)
  /-- `snapw` (R426): Waits until a snapshot is SEALED, FAILED or not held. -/
  | snapw (a : BitVec 6)
  /-- `rollb` (R427): Rolls a context back to a sealed snapshot. -/
  | rollb (a : BitVec 6)
  /-- `rkset` (R447): Writes a rank-table entry. -/
  | rkset (a : BitVec 6) (b : BitVec 6)
  /-- `rkget` (R447): Reads a rank-table entry. -/
  | rkget (d : BitVec 6) (a : BitVec 6)
  deriving DecidableEq, Repr

end Sys2Proof
end

