-- ==== Sys2Proof/WellFormed.lean ====
section
/-! DEFINITION. Which words are instructions: the checks of R83 as predicates of `Instr`. `Instr.shape` says how a row
stands in the opcode map (R80) and in the field-use tables (R103, R171, R218, R232, R262, R279, R311, R337, R398, R422, R445):
its format, where it may stand, whether it folds, and which fields the row fixes. -/

namespace Sys2Proof

/-- Where a word stands: in a timed list or in sequencer code (R71). -/
inductive Place where
  | list
  | seq
  deriving DecidableEq, Repr

/-- The column *Where* of the opcode map (R80). -/
inductive Where where
  | both
  | seqOnly
  | listOnly
  deriving DecidableEq, Repr

/-- May an instruction of this column stand at this place (check 3 of R83)? -/
def Where.allows : Where → Place → Bool
  | .both, _ => true
  | .seqOnly, .seq => true
  | .seqOnly, .list => false
  | .listOnly, .list => true
  | .listOnly, .seq => false

/-- The six formats (R72). -/
inductive Format where
  | t3 | ti | tl | ta | tc | ts
  deriving DecidableEq, Repr

/-- How a row stands in the opcode map. -/
structure Shape where
  /-- OP, bits [51:44]. -/
  op : Nat
  /-- SUB, bits [43:40]. -/
  sub : Nat
  fmt : Format
  place : Where
  /-- May FOLD be 01 or 10 (R81)? -/
  folds : Bool := false
  /-- The value the row fixes for FT; any other fails check 6. -/
  ftFixed : Option Nat := none
  /-- The value the row fixes for X; any other fails check 6. -/
  xFixed : Option Nat := none
  /-- Does the row use P, as a predicate, a selector or an order-channel code (R82)? -/
  usesP : Bool := false
  /-- Does the row list 0 as its only RM value (R59)? Then any other fails check 7. -/
  rmZero : Bool := false
  deriving DecidableEq, Repr

/-- The shape of each instruction; events have none. -/
def Instr.shape : Instr → Option Shape
  | .nop => some { op := 0x00, sub := 0, fmt := .t3, place := .both }
  | .br _ => some { op := 0x01, sub := 0, fmt := .tc, place := .seqOnly }
  | .beq _ _ _ => some { op := 0x02, sub := 0, fmt := .tc, place := .seqOnly }
  | .bne _ _ _ => some { op := 0x02, sub := 1, fmt := .tc, place := .seqOnly }
  | .blt _ _ _ => some { op := 0x02, sub := 2, fmt := .tc, place := .seqOnly }
  | .bge _ _ _ => some { op := 0x02, sub := 3, fmt := .tc, place := .seqOnly }
  | .bltu _ _ _ => some { op := 0x02, sub := 4, fmt := .tc, place := .seqOnly }
  | .bgeu _ _ _ => some { op := 0x02, sub := 5, fmt := .tc, place := .seqOnly }
  | .call _ _ => some { op := 0x03, sub := 0, fmt := .tc, place := .seqOnly }
  | .jr _ => some { op := 0x04, sub := 0, fmt := .t3, place := .seqOnly }
  | .jalr _ _ => some { op := 0x04, sub := 1, fmt := .t3, place := .seqOnly }
  | .loop _ _ _ => some { op := 0x05, sub := 0, fmt := .tl, place := .seqOnly }
  | .loopr _ _ _ => some { op := 0x05, sub := 1, fmt := .ti, place := .seqOnly }
  | .tloop _ _ _ _ => some { op := 0x06, sub := 0, fmt := .tl, place := .listOnly }
  | .add _ _ _ => some { op := 0x20, sub := 0, fmt := .t3, place := .both }
  | .sub _ _ _ => some { op := 0x20, sub := 1, fmt := .t3, place := .both }
  | .and _ _ _ => some { op := 0x20, sub := 2, fmt := .t3, place := .both }
  | .or _ _ _ => some { op := 0x20, sub := 3, fmt := .t3, place := .both }
  | .xor _ _ _ => some { op := 0x20, sub := 4, fmt := .t3, place := .both }
  | .sll _ _ _ => some { op := 0x20, sub := 5, fmt := .t3, place := .both }
  | .srl _ _ _ => some { op := 0x20, sub := 6, fmt := .t3, place := .both }
  | .sra _ _ _ => some { op := 0x20, sub := 7, fmt := .t3, place := .both }
  | .mul _ _ _ => some { op := 0x20, sub := 8, fmt := .t3, place := .both }
  | .mulh _ _ _ => some { op := 0x20, sub := 9, fmt := .t3, place := .both }
  | .mulhu _ _ _ => some { op := 0x20, sub := 10, fmt := .t3, place := .both }
  | .min _ _ _ => some { op := 0x20, sub := 11, fmt := .t3, place := .both }
  | .max _ _ _ => some { op := 0x20, sub := 12, fmt := .t3, place := .both }
  | .minu _ _ _ => some { op := 0x20, sub := 13, fmt := .t3, place := .both }
  | .maxu _ _ _ => some { op := 0x20, sub := 14, fmt := .t3, place := .both }
  | .addi _ _ _ => some { op := 0x21, sub := 0, fmt := .ti, place := .both }
  | .andi _ _ _ => some { op := 0x21, sub := 2, fmt := .ti, place := .both }
  | .ori _ _ _ => some { op := 0x21, sub := 3, fmt := .ti, place := .both }
  | .xori _ _ _ => some { op := 0x21, sub := 4, fmt := .ti, place := .both }
  | .slli _ _ _ => some { op := 0x21, sub := 5, fmt := .ti, place := .both }
  | .srli _ _ _ => some { op := 0x21, sub := 6, fmt := .ti, place := .both }
  | .srai _ _ _ => some { op := 0x21, sub := 7, fmt := .ti, place := .both }
  | .muli _ _ _ => some { op := 0x21, sub := 8, fmt := .ti, place := .both }
  | .mini _ _ _ => some { op := 0x21, sub := 11, fmt := .ti, place := .both }
  | .maxi _ _ _ => some { op := 0x21, sub := 12, fmt := .ti, place := .both }
  | .div _ _ _ => some { op := 0x22, sub := 0, fmt := .t3, place := .both }
  | .divu _ _ _ => some { op := 0x22, sub := 1, fmt := .t3, place := .both }
  | .rem _ _ _ => some { op := 0x22, sub := 2, fmt := .t3, place := .both }
  | .remu _ _ _ => some { op := 0x22, sub := 3, fmt := .t3, place := .both }
  | .seq _ _ _ => some { op := 0x23, sub := 0, fmt := .t3, place := .both }
  | .sne _ _ _ => some { op := 0x23, sub := 1, fmt := .t3, place := .both }
  | .slt _ _ _ => some { op := 0x23, sub := 2, fmt := .t3, place := .both }
  | .sge _ _ _ => some { op := 0x23, sub := 3, fmt := .t3, place := .both }
  | .sltu _ _ _ => some { op := 0x23, sub := 4, fmt := .t3, place := .both }
  | .sgeu _ _ _ => some { op := 0x23, sub := 5, fmt := .t3, place := .both }
  | .seqi _ _ _ => some { op := 0x24, sub := 0, fmt := .ti, place := .both }
  | .snei _ _ _ => some { op := 0x24, sub := 1, fmt := .ti, place := .both }
  | .slti _ _ _ => some { op := 0x24, sub := 2, fmt := .ti, place := .both }
  | .sgei _ _ _ => some { op := 0x24, sub := 3, fmt := .ti, place := .both }
  | .sltui _ _ _ => some { op := 0x24, sub := 4, fmt := .ti, place := .both }
  | .sgeui _ _ _ => some { op := 0x24, sub := 5, fmt := .ti, place := .both }
  | .bfx _ _ _ _ => some { op := 0x25, sub := 0, fmt := .ti, place := .both }
  | .bfxu _ _ _ _ => some { op := 0x25, sub := 1, fmt := .ti, place := .both }
  | .bfi _ _ _ _ => some { op := 0x25, sub := 2, fmt := .ti, place := .both }
  | .clz _ _ => some { op := 0x26, sub := 0, fmt := .t3, place := .both }
  | .ctz _ _ => some { op := 0x26, sub := 1, fmt := .t3, place := .both }
  | .popc _ _ => some { op := 0x26, sub := 2, fmt := .t3, place := .both }
  | .brev _ _ => some { op := 0x26, sub := 3, fmt := .t3, place := .both }
  | .bswap _ _ => some { op := 0x26, sub := 4, fmt := .t3, place := .both }
  | .li _ _ => some { op := 0x27, sub := 0, fmt := .tl, place := .both }
  | .lih _ _ => some { op := 0x27, sub := 1, fmt := .tl, place := .both }
  | .mov _ _ => some { op := 0x28, sub := 0, fmt := .t3, place := .both }
  | .lea _ _ _ _ => some { op := 0x29, sub := 0, fmt := .t3, place := .both }
  | .ld _ _ _ => some { op := 0x2A, sub := 0, fmt := .ti, place := .seqOnly }
  | .ldI8 _ _ _ => some { op := 0x2A, sub := 1, fmt := .ti, place := .seqOnly }
  | .ldUi8 _ _ _ => some { op := 0x2A, sub := 2, fmt := .ti, place := .seqOnly }
  | .ldI16 _ _ _ => some { op := 0x2A, sub := 3, fmt := .ti, place := .seqOnly }
  | .ldUi16 _ _ _ => some { op := 0x2A, sub := 4, fmt := .ti, place := .seqOnly }
  | .ldI32 _ _ _ => some { op := 0x2A, sub := 5, fmt := .ti, place := .seqOnly }
  | .ldUi32 _ _ _ => some { op := 0x2A, sub := 6, fmt := .ti, place := .seqOnly }
  | .st _ _ _ => some { op := 0x2B, sub := 0, fmt := .ti, place := .seqOnly }
  | .stI8 _ _ _ => some { op := 0x2B, sub := 1, fmt := .ti, place := .seqOnly }
  | .stI16 _ _ _ => some { op := 0x2B, sub := 2, fmt := .ti, place := .seqOnly }
  | .stI32 _ _ _ => some { op := 0x2B, sub := 3, fmt := .ti, place := .seqOnly }
  | .mfsr _ _ => some { op := 0x2C, sub := 0, fmt := .ts, place := .both }
  | .vaddInt _ _ _ _ _ _ => some { op := 0x40, sub := 0, fmt := .t3, place := .listOnly, folds := true, usesP := true, rmZero := true }
  | .vsubInt _ _ _ _ _ _ => some { op := 0x40, sub := 1, fmt := .t3, place := .listOnly, folds := true, usesP := true, rmZero := true }
  | .vmulInt _ _ _ _ _ _ => some { op := 0x40, sub := 2, fmt := .t3, place := .listOnly, folds := true, usesP := true, rmZero := true }
  | .vmulh _ _ _ _ _ _ => some { op := 0x40, sub := 3, fmt := .t3, place := .listOnly, folds := true, usesP := true, rmZero := true }
  | .vminInt _ _ _ _ _ _ => some { op := 0x40, sub := 4, fmt := .t3, place := .listOnly, folds := true, usesP := true, rmZero := true }
  | .vmaxInt _ _ _ _ _ _ => some { op := 0x40, sub := 5, fmt := .t3, place := .listOnly, folds := true, usesP := true, rmZero := true }
  | .vabsInt _ _ _ _ _ => some { op := 0x40, sub := 6, fmt := .t3, place := .listOnly, folds := true, usesP := true, rmZero := true }
  | .vnegInt _ _ _ _ _ => some { op := 0x40, sub := 7, fmt := .t3, place := .listOnly, folds := true, usesP := true, rmZero := true }
  | .vadds _ _ _ _ _ _ => some { op := 0x40, sub := 8, fmt := .t3, place := .listOnly, folds := true, usesP := true, rmZero := true }
  | .vsubs _ _ _ _ _ _ => some { op := 0x40, sub := 9, fmt := .t3, place := .listOnly, folds := true, usesP := true, rmZero := true }
  | .vavg _ _ _ _ _ _ => some { op := 0x40, sub := 10, fmt := .t3, place := .listOnly, folds := true, usesP := true, rmZero := true }
  | .vmad _ _ _ _ _ _ _ => some { op := 0x40, sub := 11, fmt := .t3, place := .listOnly, folds := true, usesP := true, rmZero := true }
  | .vand _ _ _ _ _ => some { op := 0x42, sub := 0, fmt := .t3, place := .listOnly, folds := true, ftFixed := some 0, usesP := true, rmZero := true }
  | .vor _ _ _ _ _ => some { op := 0x42, sub := 1, fmt := .t3, place := .listOnly, folds := true, ftFixed := some 0, usesP := true, rmZero := true }
  | .vxor _ _ _ _ _ => some { op := 0x42, sub := 2, fmt := .t3, place := .listOnly, folds := true, ftFixed := some 0, usesP := true, rmZero := true }
  | .vandn _ _ _ _ _ => some { op := 0x42, sub := 3, fmt := .t3, place := .listOnly, folds := true, ftFixed := some 0, usesP := true, rmZero := true }
  | .vnot _ _ _ _ => some { op := 0x42, sub := 4, fmt := .t3, place := .listOnly, folds := true, ftFixed := some 0, usesP := true, rmZero := true }
  | .vmov _ _ _ _ => some { op := 0x42, sub := 5, fmt := .t3, place := .listOnly, folds := true, ftFixed := some 0, usesP := true, rmZero := true }
  | .vsll _ _ _ _ _ _ => some { op := 0x43, sub := 0, fmt := .t3, place := .listOnly, folds := true, usesP := true, rmZero := true }
  | .vsrl _ _ _ _ _ _ => some { op := 0x43, sub := 1, fmt := .t3, place := .listOnly, folds := true, usesP := true, rmZero := true }
  | .vsra _ _ _ _ _ _ => some { op := 0x43, sub := 2, fmt := .t3, place := .listOnly, folds := true, usesP := true, rmZero := true }
  | .vrol _ _ _ _ _ _ => some { op := 0x43, sub := 3, fmt := .t3, place := .listOnly, folds := true, usesP := true, rmZero := true }
  | .vslls _ _ _ _ _ _ => some { op := 0x43, sub := 4, fmt := .t3, place := .listOnly, folds := true, usesP := true, rmZero := true }
  | .vsrls _ _ _ _ _ _ => some { op := 0x43, sub := 5, fmt := .t3, place := .listOnly, folds := true, usesP := true, rmZero := true }
  | .vsras _ _ _ _ _ _ => some { op := 0x43, sub := 6, fmt := .t3, place := .listOnly, folds := true, usesP := true, rmZero := true }
  | .vcmpeqInt _ _ _ _ _ _ => some { op := 0x45, sub := 0, fmt := .t3, place := .listOnly, folds := true, usesP := true, rmZero := true }
  | .vcmpneInt _ _ _ _ _ _ => some { op := 0x45, sub := 1, fmt := .t3, place := .listOnly, folds := true, usesP := true, rmZero := true }
  | .vcmpltInt _ _ _ _ _ _ => some { op := 0x45, sub := 2, fmt := .t3, place := .listOnly, folds := true, usesP := true, rmZero := true }
  | .vcmpleInt _ _ _ _ _ _ => some { op := 0x45, sub := 3, fmt := .t3, place := .listOnly, folds := true, usesP := true, rmZero := true }
  | .vcmpgtInt _ _ _ _ _ _ => some { op := 0x45, sub := 4, fmt := .t3, place := .listOnly, folds := true, usesP := true, rmZero := true }
  | .vcmpgeInt _ _ _ _ _ _ => some { op := 0x45, sub := 5, fmt := .t3, place := .listOnly, folds := true, usesP := true, rmZero := true }
  | .vsel _ _ _ _ _ _ => some { op := 0x46, sub := 0, fmt := .t3, place := .listOnly, folds := true, usesP := true, rmZero := true }
  | .vsplat _ _ _ _ => some { op := 0x47, sub := 0, fmt := .t3, place := .listOnly, folds := true, rmZero := true }
  | .vext _ _ _ _ _ => some { op := 0x47, sub := 1, fmt := .t3, place := .listOnly, folds := true, rmZero := true }
  | .vins _ _ _ _ _ => some { op := 0x47, sub := 2, fmt := .t3, place := .listOnly, folds := true, rmZero := true }
  | .viota _ _ _ => some { op := 0x47, sub := 3, fmt := .t3, place := .listOnly, folds := true, rmZero := true }
  | .vaddFp _ _ _ _ _ _ _ => some { op := 0x48, sub := 0, fmt := .t3, place := .listOnly, folds := true, usesP := true }
  | .vsubFp _ _ _ _ _ _ _ => some { op := 0x48, sub := 1, fmt := .t3, place := .listOnly, folds := true, usesP := true }
  | .vmulFp _ _ _ _ _ _ _ => some { op := 0x48, sub := 2, fmt := .t3, place := .listOnly, folds := true, usesP := true }
  | .vfma _ _ _ _ _ _ _ _ => some { op := 0x48, sub := 3, fmt := .t3, place := .listOnly, folds := true, usesP := true }
  | .vfms _ _ _ _ _ _ _ _ => some { op := 0x48, sub := 4, fmt := .t3, place := .listOnly, folds := true, usesP := true }
  | .vfnma _ _ _ _ _ _ _ _ => some { op := 0x48, sub := 5, fmt := .t3, place := .listOnly, folds := true, usesP := true }
  | .vminFp _ _ _ _ _ _ => some { op := 0x48, sub := 6, fmt := .t3, place := .listOnly, folds := true, usesP := true, rmZero := true }
  | .vmaxFp _ _ _ _ _ _ => some { op := 0x48, sub := 7, fmt := .t3, place := .listOnly, folds := true, usesP := true, rmZero := true }
  | .vabsFp _ _ _ _ _ => some { op := 0x48, sub := 8, fmt := .t3, place := .listOnly, folds := true, usesP := true, rmZero := true }
  | .vnegFp _ _ _ _ _ => some { op := 0x48, sub := 9, fmt := .t3, place := .listOnly, folds := true, usesP := true, rmZero := true }
  | .vdiv _ _ _ _ _ _ _ => some { op := 0x48, sub := 10, fmt := .t3, place := .listOnly, folds := true, usesP := true }
  | .vsqrt _ _ _ _ _ _ => some { op := 0x48, sub := 11, fmt := .t3, place := .listOnly, folds := true, usesP := true }
  | .vcmpeqFp _ _ _ _ _ _ => some { op := 0x49, sub := 0, fmt := .t3, place := .listOnly, folds := true, usesP := true, rmZero := true }
  | .vcmpneFp _ _ _ _ _ _ => some { op := 0x49, sub := 1, fmt := .t3, place := .listOnly, folds := true, usesP := true, rmZero := true }
  | .vcmpltFp _ _ _ _ _ _ => some { op := 0x49, sub := 2, fmt := .t3, place := .listOnly, folds := true, usesP := true, rmZero := true }
  | .vcmpleFp _ _ _ _ _ _ => some { op := 0x49, sub := 3, fmt := .t3, place := .listOnly, folds := true, usesP := true, rmZero := true }
  | .vcmpgtFp _ _ _ _ _ _ => some { op := 0x49, sub := 4, fmt := .t3, place := .listOnly, folds := true, usesP := true, rmZero := true }
  | .vcmpgeFp _ _ _ _ _ _ => some { op := 0x49, sub := 5, fmt := .t3, place := .listOnly, folds := true, usesP := true, rmZero := true }
  | .vcmpun _ _ _ _ _ _ => some { op := 0x49, sub := 6, fmt := .t3, place := .listOnly, folds := true, usesP := true, rmZero := true }
  | .vli _ _ _ => some { op := 0x4A, sub := 0, fmt := .tl, place := .listOnly, folds := true }
  | .vcvt _ _ _ _ _ _ _ => some { op := 0x80, sub := 0, fmt := .t3, place := .listOnly, folds := true, ftFixed := some 0, usesP := true }
  | .vquant _ _ _ _ _ _ _ _ => some { op := 0x80, sub := 1, fmt := .t3, place := .listOnly, folds := true, ftFixed := some 0, usesP := true }
  | .vdequant _ _ _ _ _ _ _ _ => some { op := 0x80, sub := 2, fmt := .t3, place := .listOnly, folds := true, ftFixed := some 0, usesP := true }
  | .vlq2 _ _ _ _ _ _ _ _ => some { op := 0x80, sub := 3, fmt := .t3, place := .listOnly, folds := true, ftFixed := some 0, usesP := true }
  | .vscale _ _ _ _ _ _ _ _ => some { op := 0x80, sub := 4, fmt := .t3, place := .listOnly, folds := true, ftFixed := some 0, usesP := true }
  | .vexp2 _ _ _ _ _ _ => some { op := 0x81, sub := 0, fmt := .t3, place := .listOnly, folds := true, usesP := true }
  | .vlog2 _ _ _ _ _ _ => some { op := 0x81, sub := 1, fmt := .t3, place := .listOnly, folds := true, usesP := true }
  | .vrcp _ _ _ _ _ _ => some { op := 0x81, sub := 2, fmt := .t3, place := .listOnly, folds := true, usesP := true }
  | .vrsqrt _ _ _ _ _ _ => some { op := 0x81, sub := 3, fmt := .t3, place := .listOnly, folds := true, usesP := true }
  | .vtanh _ _ _ _ _ _ => some { op := 0x81, sub := 4, fmt := .t3, place := .listOnly, folds := true, usesP := true }
  | .vsigm _ _ _ _ _ _ => some { op := 0x81, sub := 5, fmt := .t3, place := .listOnly, folds := true, usesP := true }
  | .vredsum _ _ _ _ _ _ => some { op := 0x82, sub := 0, fmt := .t3, place := .listOnly, folds := true, usesP := true }
  | .vredmin _ _ _ _ _ => some { op := 0x82, sub := 1, fmt := .t3, place := .listOnly, folds := true, usesP := true, rmZero := true }
  | .vredmax _ _ _ _ _ => some { op := 0x82, sub := 2, fmt := .t3, place := .listOnly, folds := true, usesP := true, rmZero := true }
  | .vredminu _ _ _ _ => some { op := 0x82, sub := 3, fmt := .t3, place := .listOnly, folds := true, ftFixed := some 0, usesP := true, rmZero := true }
  | .vredmaxu _ _ _ _ => some { op := 0x82, sub := 4, fmt := .t3, place := .listOnly, folds := true, ftFixed := some 0, usesP := true, rmZero := true }
  | .vredand _ _ _ _ => some { op := 0x82, sub := 5, fmt := .t3, place := .listOnly, folds := true, ftFixed := some 0, usesP := true, rmZero := true }
  | .vredor _ _ _ _ => some { op := 0x82, sub := 6, fmt := .t3, place := .listOnly, folds := true, ftFixed := some 0, usesP := true, rmZero := true }
  | .vscan _ _ _ _ _ _ => some { op := 0x83, sub := 0, fmt := .t3, place := .listOnly, folds := true, usesP := true }
  | .vscanx _ _ _ _ _ _ => some { op := 0x83, sub := 1, fmt := .t3, place := .listOnly, folds := true, usesP := true }
  | .vscanmax _ _ _ _ _ => some { op := 0x83, sub := 2, fmt := .t3, place := .listOnly, folds := true, usesP := true, rmZero := true }
  | .vperm _ _ _ _ _ => some { op := 0x84, sub := 0, fmt := .t3, place := .listOnly, folds := true, rmZero := true }
  | .vrot _ _ _ _ _ => some { op := 0x84, sub := 1, fmt := .t3, place := .listOnly, folds := true, rmZero := true }
  | .vrev _ _ _ _ => some { op := 0x84, sub := 2, fmt := .t3, place := .listOnly, folds := true, rmZero := true }
  | .vzip _ _ _ _ _ => some { op := 0x84, sub := 3, fmt := .t3, place := .listOnly, folds := true, rmZero := true }
  | .vunzip _ _ _ _ _ => some { op := 0x84, sub := 4, fmt := .t3, place := .listOnly, folds := true, rmZero := true }
  | .vbcast _ _ _ _ _ => some { op := 0x84, sub := 5, fmt := .t3, place := .listOnly, folds := true, rmZero := true }
  | .vsortn _ _ _ _ _ _ => some { op := 0x85, sub := 0, fmt := .t3, place := .listOnly, folds := true, rmZero := true }
  | .vcompress _ _ _ _ _ _ => some { op := 0x86, sub := 0, fmt := .t3, place := .listOnly, folds := true, usesP := true, rmZero := true }
  | .vexpand _ _ _ _ _ => some { op := 0x86, sub := 1, fmt := .t3, place := .listOnly, folds := true, usesP := true, rmZero := true }
  | .vrng _ _ _ => some { op := 0x87, sub := 0, fmt := .t3, place := .listOnly, folds := true, ftFixed := some 0, usesP := true, rmZero := true }
  | .vrngf _ _ _ _ => some { op := 0x87, sub := 1, fmt := .t3, place := .listOnly, folds := true, usesP := true, rmZero := true }
  | .pand _ _ _ _ => some { op := 0x88, sub := 0, fmt := .t3, place := .listOnly, folds := true, rmZero := true }
  | .por _ _ _ _ => some { op := 0x88, sub := 1, fmt := .t3, place := .listOnly, folds := true, rmZero := true }
  | .pxor _ _ _ _ => some { op := 0x88, sub := 2, fmt := .t3, place := .listOnly, folds := true, rmZero := true }
  | .pnot _ _ _ => some { op := 0x88, sub := 3, fmt := .t3, place := .listOnly, folds := true, rmZero := true }
  | .pmov _ _ _ => some { op := 0x88, sub := 4, fmt := .t3, place := .listOnly, folds := true, rmZero := true }
  | .pall _ _ => some { op := 0x88, sub := 5, fmt := .t3, place := .listOnly, folds := true, rmZero := true }
  | .pnone _ _ => some { op := 0x88, sub := 6, fmt := .t3, place := .listOnly, folds := true, rmZero := true }
  | .pcnt _ _ _ => some { op := 0x88, sub := 7, fmt := .t3, place := .listOnly, folds := true, rmZero := true }
  | .pfirst _ _ _ => some { op := 0x88, sub := 8, fmt := .t3, place := .listOnly, folds := true, rmZero := true }
  | .pwlt _ _ _ => some { op := 0x88, sub := 9, fmt := .t3, place := .listOnly, folds := true, rmZero := true }
  | .madd _ _ _ _ _ _ => some { op := 0x90, sub := 0, fmt := .t3, place := .listOnly, folds := true, usesP := true }
  | .msub _ _ _ _ _ _ => some { op := 0x90, sub := 1, fmt := .t3, place := .listOnly, folds := true, usesP := true }
  | .mneg _ _ _ _ _ => some { op := 0x90, sub := 2, fmt := .t3, place := .listOnly, folds := true, usesP := true }
  | .mmulq _ _ _ _ _ _ => some { op := 0x90, sub := 3, fmt := .t3, place := .listOnly, folds := true, usesP := true }
  | .mmac _ _ _ _ _ _ _ => some { op := 0x90, sub := 4, fmt := .t3, place := .listOnly, folds := true, usesP := true }
  | .mtomont _ _ _ _ _ => some { op := 0x90, sub := 5, fmt := .t3, place := .listOnly, folds := true, usesP := true }
  | .mfrmont _ _ _ _ _ => some { op := 0x90, sub := 6, fmt := .t3, place := .listOnly, folds := true, usesP := true }
  | .mred _ _ _ _ _ => some { op := 0x90, sub := 7, fmt := .t3, place := .listOnly, folds := true, usesP := true }
  | .mmul _ _ _ _ _ _ => some { op := 0x90, sub := 8, fmt := .t3, place := .listOnly, folds := true, usesP := true }
  | .bflyct _ _ _ _ _ _ => some { op := 0x91, sub := 0, fmt := .t3, place := .listOnly, folds := true }
  | .bflygs _ _ _ _ _ _ => some { op := 0x91, sub := 1, fmt := .t3, place := .listOnly, folds := true }
  | .bfpermRev _ _ _ => some { op := 0x92, sub := 0, fmt := .t3, place := .listOnly, folds := true }
  | .bfpermShuf _ _ _ => some { op := 0x92, sub := 1, fmt := .t3, place := .listOnly, folds := true }
  | .bfpermStrd _ _ _ _ => some { op := 0x92, sub := 2, fmt := .t3, place := .listOnly, folds := true }
  | .mauto _ _ _ _ _ => some { op := 0x93, sub := 0, fmt := .t3, place := .listOnly, folds := true }
  | .mqset _ _ _ => some { op := 0x94, sub := 0, fmt := .t3, place := .listOnly, folds := true }
  | .mqget _ _ _ => some { op := 0x94, sub := 1, fmt := .t3, place := .listOnly, folds := true }
  | .tcfg _ => some { op := 0xA0, sub := 0, fmt := .tl, place := .listOnly }
  | .tdef _ _ _ _ _ => some { op := 0xA1, sub := 0, fmt := .t3, place := .listOnly }
  | .tarm _ => some { op := 0xA2, sub := 0, fmt := .t3, place := .listOnly }
  | .tdisarm _ => some { op := 0xA3, sub := 0, fmt := .t3, place := .listOnly }
  | .ttagEmpty _ => some { op := 0xA4, sub := 0, fmt := .t3, place := .listOnly }
  | .ttagFull _ => some { op := 0xA4, sub := 1, fmt := .t3, place := .listOnly }
  | .twload _ => some { op := 0xA5, sub := 0, fmt := .t3, place := .listOnly }
  | .tread _ _ _ => some { op := 0xA6, sub := 0, fmt := .t3, place := .listOnly }
  | .tstore _ _ _ _ => some { op := 0xA7, sub := 0, fmt := .t3, place := .listOnly }
  | .taccz _ => some { op := 0xA8, sub := 0, fmt := .t3, place := .listOnly }
  | .tsysto _ => some { op := 0xA9, sub := 0, fmt := .ti, place := .seqOnly }
  | .tstatSlot _ _ => some { op := 0xAA, sub := 0, fmt := .t3, place := .listOnly }
  | .tstatAcc _ _ => some { op := 0xAA, sub := 1, fmt := .t3, place := .listOnly }
  | .pop _ _ _ => some { op := 0xB0, sub := 0, fmt := .t3, place := .listOnly, folds := true }
  | .popd _ _ => some { op := 0xB0, sub := 1, fmt := .t3, place := .listOnly, folds := true }
  | .push _ _ _ _ => some { op := 0xB1, sub := 0, fmt := .t3, place := .listOnly, folds := true }
  | .peek _ _ _ => some { op := 0xB2, sub := 0, fmt := .t3, place := .listOnly, folds := true }
  | .nld _ _ _ => some { op := 0xB3, sub := 0, fmt := .ti, place := .listOnly }
  | .nlds _ _ _ => some { op := 0xB3, sub := 1, fmt := .ti, place := .both }
  | .nst _ _ _ _ => some { op := 0xB4, sub := 0, fmt := .t3, place := .listOnly }
  | .nsts _ _ _ _ => some { op := 0xB4, sub := 1, fmt := .t3, place := .both }
  | .pld _ _ _ => some { op := 0xB5, sub := 0, fmt := .t3, place := .both }
  | .pldv _ _ _ => some { op := 0xB5, sub := 1, fmt := .t3, place := .listOnly }
  | .pst _ _ _ _ => some { op := 0xB5, sub := 2, fmt := .t3, place := .both }
  | .pstv _ _ _ _ => some { op := 0xB5, sub := 3, fmt := .t3, place := .listOnly }
  | .pclr _ _ => some { op := 0xB5, sub := 4, fmt := .t3, place := .both }
  | .agset _ _ => some { op := 0xB6, sub := 0, fmt := .t3, place := .listOnly }
  | .agld _ _ => some { op := 0xB6, sub := 1, fmt := .t3, place := .listOnly }
  | .agst _ _ => some { op := 0xB6, sub := 2, fmt := .t3, place := .listOnly }
  | .amoAdd _ _ _ _ _ => some { op := 0xC0, sub := 0, fmt := .t3, place := .both, ftFixed := some 0, usesP := true, rmZero := true }
  | .amoMin _ _ _ _ _ => some { op := 0xC0, sub := 1, fmt := .t3, place := .both, ftFixed := some 0, usesP := true, rmZero := true }
  | .amoMax _ _ _ _ _ => some { op := 0xC0, sub := 2, fmt := .t3, place := .both, ftFixed := some 0, usesP := true, rmZero := true }
  | .amoAnd _ _ _ _ _ => some { op := 0xC0, sub := 3, fmt := .t3, place := .both, ftFixed := some 0, usesP := true, rmZero := true }
  | .amoOr _ _ _ _ _ => some { op := 0xC0, sub := 4, fmt := .t3, place := .both, ftFixed := some 0, usesP := true, rmZero := true }
  | .amoXor _ _ _ _ _ => some { op := 0xC0, sub := 5, fmt := .t3, place := .both, ftFixed := some 0, usesP := true, rmZero := true }
  | .amoSwap _ _ _ _ _ => some { op := 0xC0, sub := 6, fmt := .t3, place := .both, ftFixed := some 0, usesP := true, rmZero := true }
  | .amoCas _ _ _ _ _ _ => some { op := 0xC0, sub := 7, fmt := .t3, place := .both, ftFixed := some 0, usesP := true, rmZero := true }
  | .amoFadd _ _ _ _ _ => some { op := 0xC0, sub := 8, fmt := .t3, place := .both, ftFixed := some 1, usesP := true, rmZero := true }
  | .amoMinu _ _ _ _ _ => some { op := 0xC0, sub := 9, fmt := .t3, place := .both, ftFixed := some 0, usesP := true, rmZero := true }
  | .amoMaxu _ _ _ _ _ => some { op := 0xC0, sub := 10, fmt := .t3, place := .both, ftFixed := some 0, usesP := true, rmZero := true }
  | .redAdd _ _ _ _ => some { op := 0xC1, sub := 0, fmt := .t3, place := .both, ftFixed := some 0, usesP := true, rmZero := true }
  | .redMin _ _ _ _ => some { op := 0xC1, sub := 1, fmt := .t3, place := .both, ftFixed := some 0, usesP := true, rmZero := true }
  | .redMax _ _ _ _ => some { op := 0xC1, sub := 2, fmt := .t3, place := .both, ftFixed := some 0, usesP := true, rmZero := true }
  | .redAnd _ _ _ _ => some { op := 0xC1, sub := 3, fmt := .t3, place := .both, ftFixed := some 0, usesP := true, rmZero := true }
  | .redOr _ _ _ _ => some { op := 0xC1, sub := 4, fmt := .t3, place := .both, ftFixed := some 0, usesP := true, rmZero := true }
  | .redXor _ _ _ _ => some { op := 0xC1, sub := 5, fmt := .t3, place := .both, ftFixed := some 0, usesP := true, rmZero := true }
  | .redFadd _ _ _ _ => some { op := 0xC1, sub := 8, fmt := .t3, place := .both, ftFixed := some 1, usesP := true, rmZero := true }
  | .redMinu _ _ _ _ => some { op := 0xC1, sub := 9, fmt := .t3, place := .both, ftFixed := some 0, usesP := true, rmZero := true }
  | .redMaxu _ _ _ _ => some { op := 0xC1, sub := 10, fmt := .t3, place := .both, ftFixed := some 0, usesP := true, rmZero := true }
  | .csig _ => some { op := 0xC2, sub := 0, fmt := .t3, place := .both }
  | .cwait _ => some { op := 0xC2, sub := 1, fmt := .t3, place := .seqOnly }
  | .ctest _ _ => some { op := 0xC2, sub := 2, fmt := .t3, place := .seqOnly }
  | .punct _ => some { op := 0xC3, sub := 0, fmt := .t3, place := .listOnly }
  | .punctall => some { op := 0xC3, sub := 1, fmt := .t3, place := .listOnly }
  | .ordj _ _ => some { op := 0xC4, sub := 0, fmt := .t3, place := .both }
  | .fence _ => some { op := 0xC5, sub := 0, fmt := .t3, place := .seqOnly }
  | .ramoAdd _ _ _ _ => some { op := 0xC6, sub := 0, fmt := .t3, place := .both, ftFixed := some 0, xFixed := some 5, usesP := true, rmZero := true }
  | .ramoMin _ _ _ _ => some { op := 0xC6, sub := 1, fmt := .t3, place := .both, ftFixed := some 0, xFixed := some 5, usesP := true, rmZero := true }
  | .ramoMax _ _ _ _ => some { op := 0xC6, sub := 2, fmt := .t3, place := .both, ftFixed := some 0, xFixed := some 5, usesP := true, rmZero := true }
  | .ramoAnd _ _ _ _ => some { op := 0xC6, sub := 3, fmt := .t3, place := .both, ftFixed := some 0, xFixed := some 5, usesP := true, rmZero := true }
  | .ramoOr _ _ _ _ => some { op := 0xC6, sub := 4, fmt := .t3, place := .both, ftFixed := some 0, xFixed := some 5, usesP := true, rmZero := true }
  | .ramoXor _ _ _ _ => some { op := 0xC6, sub := 5, fmt := .t3, place := .both, ftFixed := some 0, xFixed := some 5, usesP := true, rmZero := true }
  | .ramoSwap _ _ _ _ => some { op := 0xC6, sub := 6, fmt := .t3, place := .both, ftFixed := some 0, xFixed := some 5, usesP := true, rmZero := true }
  | .ramoCas _ _ _ _ _ => some { op := 0xC6, sub := 7, fmt := .t3, place := .both, ftFixed := some 0, xFixed := some 5, usesP := true, rmZero := true }
  | .ramoFadd _ _ _ _ => some { op := 0xC6, sub := 8, fmt := .t3, place := .both, ftFixed := some 1, xFixed := some 5, usesP := true, rmZero := true }
  | .ramoMinu _ _ _ _ => some { op := 0xC6, sub := 9, fmt := .t3, place := .both, ftFixed := some 0, xFixed := some 5, usesP := true, rmZero := true }
  | .ramoMaxu _ _ _ _ => some { op := 0xC6, sub := 10, fmt := .t3, place := .both, ftFixed := some 0, xFixed := some 5, usesP := true, rmZero := true }
  | .setmode _ _ => some { op := 0xD0, sub := 0, fmt := .ti, place := .seqOnly }
  | .spawn _ _ _ => some { op := 0xD1, sub := 0, fmt := .ta, place := .both }
  | .cret _ => some { op := 0xD2, sub := 0, fmt := .t3, place := .listOnly }
  | .ckick _ _ => some { op := 0xD3, sub := 0, fmt := .ta, place := .both }
  | .carm _ _ => some { op := 0xD4, sub := 0, fmt := .ta, place := .seqOnly }
  | .gld _ _ _ => some { op := 0xD5, sub := 0, fmt := .t3, place := .seqOnly }
  | .gact _ => some { op := 0xD5, sub := 1, fmt := .t3, place := .seqOnly }
  | .gdrain _ => some { op := 0xD5, sub := 2, fmt := .t3, place := .seqOnly }
  | .gunld _ => some { op := 0xD5, sub := 3, fmt := .t3, place := .seqOnly }
  | .gstat _ _ => some { op := 0xD6, sub := 0, fmt := .t3, place := .seqOnly }
  | .mstat _ _ => some { op := 0xD6, sub := 1, fmt := .t3, place := .seqOnly }
  | .gpatch _ _ _ => some { op := 0xD7, sub := 0, fmt := .ta, place := .seqOnly }
  | .trap _ => some { op := 0xE0, sub := 0, fmt := .ts, place := .seqOnly }
  | .tret => some { op := 0xE1, sub := 0, fmt := .t3, place := .seqOnly }
  | .mtsr _ _ => some { op := 0xE2, sub := 0, fmt := .ts, place := .seqOnly }
  | .idle => some { op := 0xE3, sub := 0, fmt := .t3, place := .seqOnly }
  | .csave _ => some { op := 0xE4, sub := 0, fmt := .t3, place := .seqOnly }
  | .cload _ => some { op := 0xE4, sub := 1, fmt := .t3, place := .seqOnly }
  | .pginv _ _ _ => some { op := 0xE5, sub := 0, fmt := .t3, place := .seqOnly }
  | .pgfence _ => some { op := 0xE6, sub := 0, fmt := .t3, place := .seqOnly }
  | .pgstat _ _ => some { op := 0xE7, sub := 0, fmt := .t3, place := .seqOnly }
  | .snap _ _ => some { op := 0xE8, sub := 0, fmt := .ts, place := .seqOnly }
  | .snapq _ _ => some { op := 0xE9, sub := 0, fmt := .t3, place := .seqOnly }
  | .snapw _ => some { op := 0xEA, sub := 0, fmt := .t3, place := .seqOnly }
  | .rollb _ => some { op := 0xEB, sub := 0, fmt := .t3, place := .seqOnly }
  | .rkset _ _ => some { op := 0xEC, sub := 0, fmt := .t3, place := .seqOnly }
  | .rkget _ _ => some { op := 0xEC, sub := 1, fmt := .t3, place := .seqOnly }
  | .resultWriteback _ => none
  | .regionResume _ _ _ => none
  | .phaseStart _ _ _ => none
  | .phaseEnd _ _ _ => none
  | .stall _ _ _ => none
  | .scheduledTokenArrival _ _ => none
  | .ringWindowWrite _ _ => none
  | .creditArrival _ _ => none
  | .chunkGrant _ _ => none
  | .sourceRequest _ _ _ => none
  | .dramReply _ => none
  | .gatherIndexTake _ _ _ => none
  | .scatterAddUpdate _ _ _ => none
  | .sinkWrite _ _ _ => none
  | .modeRequestArrival _ _ _ => none
  | .memoryActorQuiescent _ _ _ => none
  | .startPulse _ _ => none
  | .copyFiring _ _ _ => none
  | .copyCompletion _ _ _ => none
  | .bankAccess _ => none
  | .presenceReadServed _ => none
  | .generatorTakePattern _ _ => none
  | .joinSignalArrival _ _ _ _ => none
  | .releaseArrival _ _ _ _ => none
  | .controlTokenArrival _ _ => none
  | .orderTokenArrival _ _ _ => none
  | .atomicPipelineTake _ => none
  | .farAtomicReply _ => none
  | .ramoInvocationArrival _ => none
  | .ramoReply _ => none
  | .colourDraw _ => none
  | .tensorFiringStart _ _ => none
  | .tensorFiringComplete _ _ => none
  | .ttagArrival _ => none
  | .treadRead _ => none
  | .tstoreStart _ => none
  | .tstoreComplete _ => none
  | .tacczEffect _ _ => none
  | .twloadValid _ => none
  | .systolicPassStart _ _ _ => none
  | .systolicPassComplete _ _ _ => none
  | .tileFaultReport _ => none
  | .trapEntry _ => none
  | .seqCompletionFault _ => none
  | .haltPoint _ => none
  | .saveComplete _ => none
  | .restorePulse _ => none
  | .drainComplete _ => none
  | .graphLoadComplete _ _ => none
  | .graphPlacement _ _ => none
  | .stagingComplete _ _ => none
  | .launchRecordRead _ => none
  | .recordRun _ _ => none
  | .recordKick _ _ => none
  | .recordMode _ _ => none
  | .recordNote _ _ => none
  | .recordUnload _ _ => none
  | .recordFinish _ _ => none
  | .thermalSample _ _ => none
  | .allowanceUpdate _ => none
  | .migrationRequest _ _ _ _ _ => none
  | .migrationAccept _ => none
  | .migrationPassEnd _ => none
  | .migrationCommit _ => none
  | .walkComplete _ => none
  | .testBankEnd _ _ _ => none
  | .readRetry _ _ => none
  | .configStoreError _ _ _ _ => none
  | .configReloadComplete _ _ _ _ => none
  | .snapOpenPoint _ => none
  | .sweeperVisit _ => none
  | .snapshotSealing _ => none
  | .sealComplete _ => none
  | .snapshotFail _ _ => none
  | .failureSweepEnd _ => none
  | .copyBackPage _ => none
  | .frameSend _ => none
  | .frameDelivery _ _ _ _ => none
  | .frameResend _ => none
  | .frameHoldTimeout _ => none
  | .boundaryFlitResend _ _ => none
  | .linkTrainingDone _ _ => none
  | .linkEnable _ => none
  | .carrierLoss _ => none
  | .rankLost _ => none
  | .pcycAdopt _ _ => none
  | .linkRetrain _ => none
  | .linkReset _ => none
  | .ctxcreate _ => none
  | .contextDestroy _ => none
  | .hostResume _ => none
  | .hostDoorbell _ _ _ => none
  | .causeFifoRead _ => none
  | .packageEventRead => none
  | .errorLogRead _ => none
  | .bar2Read _ _ => none
  | .bar2Write _ _ => none
  | .dccall _ _ => none
  | .dccallEntry _ => none
  | .pkgreset => none
  | .dcrestart _ => none
  | .registerWrite _ _ => none
  | .powerGood => none
  | .nearResultLate _ _ _ => none
  | .testBankStart _ _ => none
  | .pcieError _ => none
  | .dramAccessPerformed _ => none
  | .boundaryFlitCrossing _ _ => none

/-- Is this an instruction of the opcode map (and not an event)? -/
def Instr.isInstruction (i : Instr) : Bool := i.shape.isSome

/-- The FOLD field of an instruction; 0 where the row has none. -/
def Instr.fold : Instr → BitVec 2
  | .vaddInt fold _ _ _ _ _ => fold
  | .vsubInt fold _ _ _ _ _ => fold
  | .vmulInt fold _ _ _ _ _ => fold
  | .vmulh fold _ _ _ _ _ => fold
  | .vminInt fold _ _ _ _ _ => fold
  | .vmaxInt fold _ _ _ _ _ => fold
  | .vabsInt fold _ _ _ _ => fold
  | .vnegInt fold _ _ _ _ => fold
  | .vadds fold _ _ _ _ _ => fold
  | .vsubs fold _ _ _ _ _ => fold
  | .vavg fold _ _ _ _ _ => fold
  | .vmad fold _ _ _ _ _ _ => fold
  | .vand fold _ _ _ _ => fold
  | .vor fold _ _ _ _ => fold
  | .vxor fold _ _ _ _ => fold
  | .vandn fold _ _ _ _ => fold
  | .vnot fold _ _ _ => fold
  | .vmov fold _ _ _ => fold
  | .vsll fold _ _ _ _ _ => fold
  | .vsrl fold _ _ _ _ _ => fold
  | .vsra fold _ _ _ _ _ => fold
  | .vrol fold _ _ _ _ _ => fold
  | .vslls fold _ _ _ _ _ => fold
  | .vsrls fold _ _ _ _ _ => fold
  | .vsras fold _ _ _ _ _ => fold
  | .vcmpeqInt fold _ _ _ _ _ => fold
  | .vcmpneInt fold _ _ _ _ _ => fold
  | .vcmpltInt fold _ _ _ _ _ => fold
  | .vcmpleInt fold _ _ _ _ _ => fold
  | .vcmpgtInt fold _ _ _ _ _ => fold
  | .vcmpgeInt fold _ _ _ _ _ => fold
  | .vsel fold _ _ _ _ _ => fold
  | .vsplat fold _ _ _ => fold
  | .vext fold _ _ _ _ => fold
  | .vins fold _ _ _ _ => fold
  | .viota fold _ _ => fold
  | .vaddFp fold _ _ _ _ _ _ => fold
  | .vsubFp fold _ _ _ _ _ _ => fold
  | .vmulFp fold _ _ _ _ _ _ => fold
  | .vfma fold _ _ _ _ _ _ _ => fold
  | .vfms fold _ _ _ _ _ _ _ => fold
  | .vfnma fold _ _ _ _ _ _ _ => fold
  | .vminFp fold _ _ _ _ _ => fold
  | .vmaxFp fold _ _ _ _ _ => fold
  | .vabsFp fold _ _ _ _ => fold
  | .vnegFp fold _ _ _ _ => fold
  | .vdiv fold _ _ _ _ _ _ => fold
  | .vsqrt fold _ _ _ _ _ => fold
  | .vcmpeqFp fold _ _ _ _ _ => fold
  | .vcmpneFp fold _ _ _ _ _ => fold
  | .vcmpltFp fold _ _ _ _ _ => fold
  | .vcmpleFp fold _ _ _ _ _ => fold
  | .vcmpgtFp fold _ _ _ _ _ => fold
  | .vcmpgeFp fold _ _ _ _ _ => fold
  | .vcmpun fold _ _ _ _ _ => fold
  | .vli fold _ _ => fold
  | .vcvt fold _ _ _ _ _ _ => fold
  | .vquant fold _ _ _ _ _ _ _ => fold
  | .vdequant fold _ _ _ _ _ _ _ => fold
  | .vlq2 fold _ _ _ _ _ _ _ => fold
  | .vscale fold _ _ _ _ _ _ _ => fold
  | .vexp2 fold _ _ _ _ _ => fold
  | .vlog2 fold _ _ _ _ _ => fold
  | .vrcp fold _ _ _ _ _ => fold
  | .vrsqrt fold _ _ _ _ _ => fold
  | .vtanh fold _ _ _ _ _ => fold
  | .vsigm fold _ _ _ _ _ => fold
  | .vredsum fold _ _ _ _ _ => fold
  | .vredmin fold _ _ _ _ => fold
  | .vredmax fold _ _ _ _ => fold
  | .vredminu fold _ _ _ => fold
  | .vredmaxu fold _ _ _ => fold
  | .vredand fold _ _ _ => fold
  | .vredor fold _ _ _ => fold
  | .vscan fold _ _ _ _ _ => fold
  | .vscanx fold _ _ _ _ _ => fold
  | .vscanmax fold _ _ _ _ => fold
  | .vperm fold _ _ _ _ => fold
  | .vrot fold _ _ _ _ => fold
  | .vrev fold _ _ _ => fold
  | .vzip fold _ _ _ _ => fold
  | .vunzip fold _ _ _ _ => fold
  | .vbcast fold _ _ _ _ => fold
  | .vsortn fold _ _ _ _ _ => fold
  | .vcompress fold _ _ _ _ _ => fold
  | .vexpand fold _ _ _ _ => fold
  | .vrng fold _ _ => fold
  | .vrngf fold _ _ _ => fold
  | .pand fold _ _ _ => fold
  | .por fold _ _ _ => fold
  | .pxor fold _ _ _ => fold
  | .pnot fold _ _ => fold
  | .pmov fold _ _ => fold
  | .pall fold _ => fold
  | .pnone fold _ => fold
  | .pcnt fold _ _ => fold
  | .pfirst fold _ _ => fold
  | .pwlt fold _ _ => fold
  | .madd fold _ _ _ _ _ => fold
  | .msub fold _ _ _ _ _ => fold
  | .mneg fold _ _ _ _ => fold
  | .mmulq fold _ _ _ _ _ => fold
  | .mmac fold _ _ _ _ _ _ => fold
  | .mtomont fold _ _ _ _ => fold
  | .mfrmont fold _ _ _ _ => fold
  | .mred fold _ _ _ _ => fold
  | .mmul fold _ _ _ _ _ => fold
  | .bflyct fold _ _ _ _ _ => fold
  | .bflygs fold _ _ _ _ _ => fold
  | .bfpermRev fold _ _ => fold
  | .bfpermShuf fold _ _ => fold
  | .bfpermStrd fold _ _ _ => fold
  | .mauto fold _ _ _ _ => fold
  | .mqset fold _ _ => fold
  | .mqget fold _ _ => fold
  | .pop fold _ _ => fold
  | .popd fold _ => fold
  | .push fold _ _ _ => fold
  | .peek fold _ _ => fold
  | _ => 0

/-! Ranges of the register and name classes (R75). -/

/-- A scalar register `s0`-`s31`. -/
abbrev isS (r : BitVec 6) : Bool := r.toNat < 32
/-- A vector register `v0`-`v31`. -/
abbrev isV (r : BitVec 6) : Bool := r.toNat < 32
/-- The even register of a pair. -/
abbrev isPair (r : BitVec 6) : Bool := r.toNat < 32 && r.toNat % 2 == 0
/-- A predicate register as a source. -/
abbrev isP (r : BitVec 6) : Bool := r.toNat < 8
/-- A predicate register as a destination: `p0` is illegal. -/
abbrev isPd (r : BitVec 6) : Bool := 0 < r.toNat && r.toNat < 8
/-- A modulus set. -/
abbrev isQ (r : BitVec 6) : Bool := r.toNat < 4
/-- An accumulator tile. -/
abbrev isAcc (r : BitVec 6) : Bool := r.toNat < 8
/-- An operation slot. -/
abbrev isTs (r : BitVec 6) : Bool := r.toNat < 8
/-- An input or output port. -/
abbrev isPort (r : BitVec 6) : Bool := r.toNat < 16
/-- A control port. -/
abbrev isCx (r : BitVec 6) : Bool := r.toNat < 8
/-- An order channel. -/
abbrev isOc (r : BitVec 6) : Bool := r.toNat < 4
/-- An address generator. -/
abbrev isAg (r : BitVec 6) : Bool := r.toNat < 16
/-- A hardware loop. -/
abbrev isLc (r : BitVec 6) : Bool := r.toNat < 4
/-- The order channel of a store in X: 0b0000 for none or 0b10nn (R80). -/
abbrev isOcx (x : BitVec 4) : Bool := x.toNat == 0 || x.toNat / 4 == 2

/-- Check 5 of R83 on the fields themselves: every register or name field is in its range, no pair base is odd and
`p0` is no destination. What a list or a sequencer declares is checked where the declarations are known. -/
def Instr.namesOk : Instr → Bool
  | .nop => true
  | .br _ => true
  | .beq d a _ => isS d && isS a
  | .bne d a _ => isS d && isS a
  | .blt d a _ => isS d && isS a
  | .bge d a _ => isS d && isS a
  | .bltu d a _ => isS d && isS a
  | .bgeu d a _ => isS d && isS a
  | .call d _ => isS d
  | .jr a => isS a
  | .jalr d a => isS d && isS a
  | .loop d _ _ => isLc d
  | .loopr d a _ => isLc d && isS a
  | .tloop d _ _ _ => isLc d
  | .add d a b => isS d && isS a && isS b
  | .sub d a b => isS d && isS a && isS b
  | .and d a b => isS d && isS a && isS b
  | .or d a b => isS d && isS a && isS b
  | .xor d a b => isS d && isS a && isS b
  | .sll d a b => isS d && isS a && isS b
  | .srl d a b => isS d && isS a && isS b
  | .sra d a b => isS d && isS a && isS b
  | .mul d a b => isS d && isS a && isS b
  | .mulh d a b => isS d && isS a && isS b
  | .mulhu d a b => isS d && isS a && isS b
  | .min d a b => isS d && isS a && isS b
  | .max d a b => isS d && isS a && isS b
  | .minu d a b => isS d && isS a && isS b
  | .maxu d a b => isS d && isS a && isS b
  | .addi d a _ => isS d && isS a
  | .andi d a _ => isS d && isS a
  | .ori d a _ => isS d && isS a
  | .xori d a _ => isS d && isS a
  | .slli d a _ => isS d && isS a
  | .srli d a _ => isS d && isS a
  | .srai d a _ => isS d && isS a
  | .muli d a _ => isS d && isS a
  | .mini d a _ => isS d && isS a
  | .maxi d a _ => isS d && isS a
  | .div d a b => isS d && isS a && isS b
  | .divu d a b => isS d && isS a && isS b
  | .rem d a b => isS d && isS a && isS b
  | .remu d a b => isS d && isS a && isS b
  | .seq d a b => isS d && isS a && isS b
  | .sne d a b => isS d && isS a && isS b
  | .slt d a b => isS d && isS a && isS b
  | .sge d a b => isS d && isS a && isS b
  | .sltu d a b => isS d && isS a && isS b
  | .sgeu d a b => isS d && isS a && isS b
  | .seqi d a _ => isS d && isS a
  | .snei d a _ => isS d && isS a
  | .slti d a _ => isS d && isS a
  | .sgei d a _ => isS d && isS a
  | .sltui d a _ => isS d && isS a
  | .sgeui d a _ => isS d && isS a
  | .bfx d a _ _ => isS d && isS a
  | .bfxu d a _ _ => isS d && isS a
  | .bfi d a _ _ => isS d && isS a
  | .clz d a => isS d && isS a
  | .ctz d a => isS d && isS a
  | .popc d a => isS d && isS a
  | .brev d a => isS d && isS a
  | .bswap d a => isS d && isS a
  | .li d _ => isS d
  | .lih d _ => isS d
  | .mov d a => isS d && isS a
  | .lea d a b _ => isS d && isS a && isS b
  | .ld d a _ => isS d && isS a
  | .ldI8 d a _ => isS d && isS a
  | .ldUi8 d a _ => isS d && isS a
  | .ldI16 d a _ => isS d && isS a
  | .ldUi16 d a _ => isS d && isS a
  | .ldI32 d a _ => isS d && isS a
  | .ldUi32 d a _ => isS d && isS a
  | .st d a _ => isS d && isS a
  | .stI8 d a _ => isS d && isS a
  | .stI16 d a _ => isS d && isS a
  | .stI32 d a _ => isS d && isS a
  | .mfsr d _ => isS d
  | .vaddInt _ d a b _ _ => isV d && isV a && isV b
  | .vsubInt _ d a b _ _ => isV d && isV a && isV b
  | .vmulInt _ d a b _ _ => isV d && isV a && isV b
  | .vmulh _ d a b _ _ => isV d && isV a && isV b
  | .vminInt _ d a b _ _ => isV d && isV a && isV b
  | .vmaxInt _ d a b _ _ => isV d && isV a && isV b
  | .vabsInt _ d a _ _ => isV d && isV a
  | .vnegInt _ d a _ _ => isV d && isV a
  | .vadds _ d a b _ _ => isV d && isV a && isV b
  | .vsubs _ d a b _ _ => isV d && isV a && isV b
  | .vavg _ d a b _ _ => isV d && isV a && isV b
  | .vmad _ d a b c _ _ => isV d && isV a && isV b && isV c
  | .vand _ d a b _ => isV d && isV a && isV b
  | .vor _ d a b _ => isV d && isV a && isV b
  | .vxor _ d a b _ => isV d && isV a && isV b
  | .vandn _ d a b _ => isV d && isV a && isV b
  | .vnot _ d a _ => isV d && isV a
  | .vmov _ d a _ => isV d && isV a
  | .vsll _ d a b _ _ => isV d && isV a && isV b
  | .vsrl _ d a b _ _ => isV d && isV a && isV b
  | .vsra _ d a b _ _ => isV d && isV a && isV b
  | .vrol _ d a b _ _ => isV d && isV a && isV b
  | .vslls _ d a b _ _ => isV d && isV a && isS b
  | .vsrls _ d a b _ _ => isV d && isV a && isS b
  | .vsras _ d a b _ _ => isV d && isV a && isS b
  | .vcmpeqInt _ d a b _ _ => isPd d && isV a && isV b
  | .vcmpneInt _ d a b _ _ => isPd d && isV a && isV b
  | .vcmpltInt _ d a b _ _ => isPd d && isV a && isV b
  | .vcmpleInt _ d a b _ _ => isPd d && isV a && isV b
  | .vcmpgtInt _ d a b _ _ => isPd d && isV a && isV b
  | .vcmpgeInt _ d a b _ _ => isPd d && isV a && isV b
  | .vsel _ d a b _ _ => isV d && isV a && isV b
  | .vsplat _ d a _ => isV d && isS a
  | .vext _ d a b _ => isS d && isV a && isS b
  | .vins _ d a b _ => isV d && isS a && isS b
  | .viota _ d _ => isV d
  | .vaddFp _ d a b _ _ _ => isV d && isV a && isV b
  | .vsubFp _ d a b _ _ _ => isV d && isV a && isV b
  | .vmulFp _ d a b _ _ _ => isV d && isV a && isV b
  | .vfma _ d a b c _ _ _ => isV d && isV a && isV b && isV c
  | .vfms _ d a b c _ _ _ => isV d && isV a && isV b && isV c
  | .vfnma _ d a b c _ _ _ => isV d && isV a && isV b && isV c
  | .vminFp _ d a b _ _ => isV d && isV a && isV b
  | .vmaxFp _ d a b _ _ => isV d && isV a && isV b
  | .vabsFp _ d a _ _ => isV d && isV a
  | .vnegFp _ d a _ _ => isV d && isV a
  | .vdiv _ d a b _ _ _ => isV d && isV a && isV b
  | .vsqrt _ d a _ _ _ => isV d && isV a
  | .vcmpeqFp _ d a b _ _ => isPd d && isV a && isV b
  | .vcmpneFp _ d a b _ _ => isPd d && isV a && isV b
  | .vcmpltFp _ d a b _ _ => isPd d && isV a && isV b
  | .vcmpleFp _ d a b _ _ => isPd d && isV a && isV b
  | .vcmpgtFp _ d a b _ _ => isPd d && isV a && isV b
  | .vcmpgeFp _ d a b _ _ => isPd d && isV a && isV b
  | .vcmpun _ d a b _ _ => isPd d && isV a && isV b
  | .vli _ d _ => isV d
  | .vcvt _ d a _ _ _ _ => isV d && isV a
  | .vquant _ d a _ c _ _ _ => isV d && isV a && isV c
  | .vdequant _ d a _ c _ _ _ => isV d && isV a && isV c
  | .vlq2 _ d a _ c _ _ _ => isV d && isV a && isV c
  | .vscale _ d a _ c _ _ _ => isV d && isV a && isV c
  | .vexp2 _ d a _ _ _ => isV d && isV a
  | .vlog2 _ d a _ _ _ => isV d && isV a
  | .vrcp _ d a _ _ _ => isV d && isV a
  | .vrsqrt _ d a _ _ _ => isV d && isV a
  | .vtanh _ d a _ _ _ => isV d && isV a
  | .vsigm _ d a _ _ _ => isV d && isV a
  | .vredsum _ d a _ _ _ => isS d && isV a
  | .vredmin _ d a _ _ => isS d && isV a
  | .vredmax _ d a _ _ => isS d && isV a
  | .vredminu _ d a _ => isS d && isV a
  | .vredmaxu _ d a _ => isS d && isV a
  | .vredand _ d a _ => isS d && isV a
  | .vredor _ d a _ => isS d && isV a
  | .vscan _ d a _ _ _ => isV d && isV a
  | .vscanx _ d a _ _ _ => isV d && isV a
  | .vscanmax _ d a _ _ => isV d && isV a
  | .vperm _ d a b _ => isV d && isV a && isV b
  | .vrot _ d a b _ => isV d && isV a && isS b
  | .vrev _ d a _ => isV d && isV a
  | .vzip _ d a b _ => isV d && isV a && isV b
  | .vunzip _ d a b _ => isV d && isV a && isV b
  | .vbcast _ d a b _ => isV d && isV a && isS b
  | .vsortn _ d a b c _ => isPair d && isV a && isV b && isS c
  | .vcompress _ d a b _ _ => isV d && isV a && isS b
  | .vexpand _ d a _ _ => isV d && isV a
  | .vrng _ d _ => isV d
  | .vrngf _ d _ _ => isV d
  | .pand _ d a b => isPd d && isP a && isP b
  | .por _ d a b => isPd d && isP a && isP b
  | .pxor _ d a b => isPd d && isP a && isP b
  | .pnot _ d a => isPd d && isP a
  | .pmov _ d a => isPd d && isP a
  | .pall _ d => isPd d
  | .pnone _ d => isPd d
  | .pcnt _ d a => isS d && isP a
  | .pfirst _ d a => isS d && isP a
  | .pwlt _ d a => isPd d && isS a
  | .madd _ d a b _ _ => isPair d && isPair a && isPair b
  | .msub _ d a b _ _ => isPair d && isPair a && isPair b
  | .mneg _ d a _ _ => isPair d && isPair a
  | .mmulq _ d a b _ _ => isPair d && isPair a && isPair b
  | .mmac _ d a b c _ _ => isPair d && isPair a && isPair b && isPair c
  | .mtomont _ d a _ _ => isPair d && isPair a
  | .mfrmont _ d a _ _ => isPair d && isPair a
  | .mred _ d a _ _ => isPair d && isPair a
  | .mmul _ d a b _ _ => isPair d && isPair a && isPair b
  | .bflyct _ d a b _ _ => isPair d && isPair a && isPair b
  | .bflygs _ d a b _ _ => isPair d && isPair a && isPair b
  | .bfpermRev _ d a => isPair d && isPair a
  | .bfpermShuf _ d a => isPair d && isPair a
  | .bfpermStrd _ d a _ => isPair d && isPair a
  | .mauto _ d a b _ => isPair d && isPair a && isS b
  | .mqset _ d a => isQ d && isPair a
  | .mqget _ d a => isPair d && isQ a
  | .tcfg _ => true
  | .tdef d a b c _ => isTs d && isS a && isS b && isAcc c
  | .tarm d => isTs d
  | .tdisarm d => isTs d
  | .ttagEmpty a => isS a
  | .ttagFull a => isS a
  | .twload a => isS a
  | .tread d a b => isV d && isAcc a && isS b
  | .tstore a b _ _ => isS a && isAcc b
  | .taccz d => isAcc d
  | .tsysto _ => true
  | .tstatSlot d a => isS d && isTs a
  | .tstatAcc d a => isS d && isAcc a
  | .pop _ d a => isV d && isPort a
  | .popd _ a => isPort a
  | .push _ d a _ => isPort d && isV a
  | .peek _ d a => isV d && isPort a
  | .nld d a _ => isV d && isS a
  | .nlds d a _ => isS d && isS a
  | .nst d a b ocx => isV d && isS a && isS b && isOcx ocx
  | .nsts d a b ocx => isS d && isS a && isS b && isOcx ocx
  | .pld d a b => isS d && isS a && isS b
  | .pldv d a b => isV d && isS a && isS b
  | .pst d a b ocx => isS d && isS a && isS b && isOcx ocx
  | .pstv d a b ocx => isV d && isS a && isS b && isOcx ocx
  | .pclr a b => isS a && isS b
  | .agset d a => isAg d && isS a
  | .agld d a => isV d && isAg a
  | .agst d a => isAg d && isV a
  | .amoAdd d a b _ _ => isS d && isS a && isS b
  | .amoMin d a b _ _ => isS d && isS a && isS b
  | .amoMax d a b _ _ => isS d && isS a && isS b
  | .amoAnd d a b _ _ => isS d && isS a && isS b
  | .amoOr d a b _ _ => isS d && isS a && isS b
  | .amoXor d a b _ _ => isS d && isS a && isS b
  | .amoSwap d a b _ _ => isS d && isS a && isS b
  | .amoCas d a b c _ _ => isS d && isS a && isS b && isS c
  | .amoFadd d a b _ _ => isS d && isS a && isS b
  | .amoMinu d a b _ _ => isS d && isS a && isS b
  | .amoMaxu d a b _ _ => isS d && isS a && isS b
  | .redAdd a b _ _ => isS a && isS b
  | .redMin a b _ _ => isS a && isS b
  | .redMax a b _ _ => isS a && isS b
  | .redAnd a b _ _ => isS a && isS b
  | .redOr a b _ _ => isS a && isS b
  | .redXor a b _ _ => isS a && isS b
  | .redFadd a b _ _ => isS a && isS b
  | .redMinu a b _ _ => isS a && isS b
  | .redMaxu a b _ _ => isS a && isS b
  | .csig d => isCx d
  | .cwait a => isCx a
  | .ctest d a => isS d && isCx a
  | .punct d => isPort d
  | .punctall => true
  | .ordj d a => isCx d && isOc a
  | .fence _ => true
  | .ramoAdd d a b _ => isS d && isS a && isS b
  | .ramoMin d a b _ => isS d && isS a && isS b
  | .ramoMax d a b _ => isS d && isS a && isS b
  | .ramoAnd d a b _ => isS d && isS a && isS b
  | .ramoOr d a b _ => isS d && isS a && isS b
  | .ramoXor d a b _ => isS d && isS a && isS b
  | .ramoSwap d a b _ => isS d && isS a && isS b
  | .ramoCas d a b c _ => isS d && isS a && isS b && isS c
  | .ramoFadd d a b _ => isS d && isS a && isS b
  | .ramoMinu d a b _ => isS d && isS a && isS b
  | .ramoMaxu d a b _ => isS d && isS a && isS b
  | .setmode a _ => isS a
  | .spawn d a _ => isS d && isS a
  | .cret d => isPort d
  | .ckick a _ => isS a
  | .carm a _ => isS a
  | .gld d a b => isS d && isS a && isS b
  | .gact a => isS a
  | .gdrain a => isS a
  | .gunld a => isS a
  | .gstat d a => isS d && isS a
  | .mstat d a => isS d && isS a
  | .gpatch d a _ => isS d && isS a
  | .trap _ => true
  | .tret => true
  | .mtsr a _ => isS a
  | .idle => true
  | .csave a => isS a
  | .cload a => isS a
  | .pginv a b _ => isS a && isS b
  | .pgfence _ => true
  | .pgstat d a => isS d && isS a
  | .snap _ _ => true
  | .snapq d a => isS d && isS a
  | .snapw a => isS a
  | .rollb a => isS a
  | .rkset a b => isS a && isS b
  | .rkget d a => isS d && isS a
  | .resultWriteback _ => true
  | .regionResume _ _ _ => true
  | .phaseStart _ _ _ => true
  | .phaseEnd _ _ _ => true
  | .stall _ _ _ => true
  | .scheduledTokenArrival _ _ => true
  | .ringWindowWrite _ _ => true
  | .creditArrival _ _ => true
  | .chunkGrant _ _ => true
  | .sourceRequest _ _ _ => true
  | .dramReply _ => true
  | .gatherIndexTake _ _ _ => true
  | .scatterAddUpdate _ _ _ => true
  | .sinkWrite _ _ _ => true
  | .modeRequestArrival _ _ _ => true
  | .memoryActorQuiescent _ _ _ => true
  | .startPulse _ _ => true
  | .copyFiring _ _ _ => true
  | .copyCompletion _ _ _ => true
  | .bankAccess _ => true
  | .presenceReadServed _ => true
  | .generatorTakePattern _ _ => true
  | .joinSignalArrival _ _ _ _ => true
  | .releaseArrival _ _ _ _ => true
  | .controlTokenArrival _ _ => true
  | .orderTokenArrival _ _ _ => true
  | .atomicPipelineTake _ => true
  | .farAtomicReply _ => true
  | .ramoInvocationArrival _ => true
  | .ramoReply _ => true
  | .colourDraw _ => true
  | .tensorFiringStart _ _ => true
  | .tensorFiringComplete _ _ => true
  | .ttagArrival _ => true
  | .treadRead _ => true
  | .tstoreStart _ => true
  | .tstoreComplete _ => true
  | .tacczEffect _ _ => true
  | .twloadValid _ => true
  | .systolicPassStart _ _ _ => true
  | .systolicPassComplete _ _ _ => true
  | .tileFaultReport _ => true
  | .trapEntry _ => true
  | .seqCompletionFault _ => true
  | .haltPoint _ => true
  | .saveComplete _ => true
  | .restorePulse _ => true
  | .drainComplete _ => true
  | .graphLoadComplete _ _ => true
  | .graphPlacement _ _ => true
  | .stagingComplete _ _ => true
  | .launchRecordRead _ => true
  | .recordRun _ _ => true
  | .recordKick _ _ => true
  | .recordMode _ _ => true
  | .recordNote _ _ => true
  | .recordUnload _ _ => true
  | .recordFinish _ _ => true
  | .thermalSample _ _ => true
  | .allowanceUpdate _ => true
  | .migrationRequest _ _ _ _ _ => true
  | .migrationAccept _ => true
  | .migrationPassEnd _ => true
  | .migrationCommit _ => true
  | .walkComplete _ => true
  | .testBankEnd _ _ _ => true
  | .readRetry _ _ => true
  | .configStoreError _ _ _ _ => true
  | .configReloadComplete _ _ _ _ => true
  | .snapOpenPoint _ => true
  | .sweeperVisit _ => true
  | .snapshotSealing _ => true
  | .sealComplete _ => true
  | .snapshotFail _ _ => true
  | .failureSweepEnd _ => true
  | .copyBackPage _ => true
  | .frameSend _ => true
  | .frameDelivery _ _ _ _ => true
  | .frameResend _ => true
  | .frameHoldTimeout _ => true
  | .boundaryFlitResend _ _ => true
  | .linkTrainingDone _ _ => true
  | .linkEnable _ => true
  | .carrierLoss _ => true
  | .rankLost _ => true
  | .pcycAdopt _ _ => true
  | .linkRetrain _ => true
  | .linkReset _ => true
  | .ctxcreate _ => true
  | .contextDestroy _ => true
  | .hostResume _ => true
  | .hostDoorbell _ _ _ => true
  | .causeFifoRead _ => true
  | .packageEventRead => true
  | .errorLogRead _ => true
  | .bar2Read _ _ => true
  | .bar2Write _ _ => true
  | .dccall _ _ => true
  | .dccallEntry _ => true
  | .pkgreset => true
  | .dcrestart _ => true
  | .registerWrite _ _ => true
  | .powerGood => true
  | .nearResultLate _ _ _ => true
  | .testBankStart _ _ => true
  | .pcieError _ => true
  | .dramAccessPerformed _ => true
  | .boundaryFlitCrossing _ _ => true

/-! Ranges of immediates, type codes and numbers (check 6). -/

/-- System registers that `mfsr` may read at a place (R77). -/
def mfsrAllowed (place : Place) (sr : BitVec 16) : Bool :=
  let n := sr.toNat
  let both := n == 2 || n == 4 || n == 5 || n == 7 || n == 0xD || (0x10 ≤ n && n < 0x1C)
  match place with
  | .list => both || n == 0 || n == 1 || n == 3 || n == 6
  | .seq => both || (8 ≤ n && n < 0xF)

/-- System registers that `mtsr` may write (R363): any other raises ILLEGAL with check 6. -/
def mtsrAllowed (sr : BitVec 16) : Bool :=
  let n := sr.toNat
  n == 4 || n == 5 || n == 8 || n == 0xC || n == 0xD || (0x18 ≤ n && n < 0x1C)

/-- Integer type codes of arithmetic, shift and compare rows (R78). -/
abbrev isIntCode (ft : BitVec 3) : Bool := ft.toNat < 6
/-- Width codes of data-movement rows (R78). -/
abbrev isWidthCode (ft : BitVec 3) : Bool := ft.toNat < 7
/-- Format tags of float-arithmetic rows (R78). -/
abbrev isFloatTag (ft : BitVec 3) : Bool := 0 < ft.toNat && ft.toNat < 4
/-- 000 or a float tag: reductions and scans (R279). -/
abbrev isReduceCode (ft : BitVec 3) : Bool := ft.toNat < 4
/-- 000 or 001: `vsortn` (R279). -/
abbrev isSortCode (ft : BitVec 3) : Bool := ft.toNat < 2

/-- Pairs of `vcvt` (R292). -/
def vcvtPair (src : BitVec 6) (dst : BitVec 4) : Bool :=
  let s := src.toNat
  let t := dst.toNat
  (s < 12 && t < 12) || (s == 12 && 6 ≤ t && t ≤ 8)

/-- Pairs of `vquant` (R293). -/
def vquantPair (src : BitVec 6) (dst : BitVec 4) : Bool :=
  6 ≤ src.toNat && src.toNat ≤ 8 && 9 ≤ dst.toNat && dst.toNat ≤ 11

/-- Pairs of `vdequant` (R294). -/
def vdequantPair (src : BitVec 6) (dst : BitVec 4) : Bool :=
  9 ≤ src.toNat && src.toNat ≤ 11 && 6 ≤ dst.toNat && dst.toNat ≤ 8

/-- Pairs of `vlq2` (R295). -/
def vlq2Pair (src : BitVec 6) (dst : BitVec 4) : Bool :=
  src.toNat == 13 && 6 ≤ dst.toNat && dst.toNat ≤ 9

/-- Pairs of `vscale` (R294). -/
def vscalePair (src : BitVec 6) (dst : BitVec 4) : Bool :=
  6 ≤ src.toNat && src.toNat ≤ 8 && 6 ≤ dst.toNat && dst.toNat ≤ 8

/-- Is a configuration word of `tcfg` legal (R318, R319)? Operand codes 0 BF16, 1 F16, 2 E4M3, 3 E5M2, 4 E2M1, 5 I8,
6 LQ2. -/
def tcfgLegal (imm : BitVec 32) : Bool :=
  let x := imm.toNat / 2 ^ 29
  let y := imm.toNat / 2 ^ 26 % 8
  let acc := imm.toNat / 2 ^ 25 % 2
  let eight (c : Nat) : Bool := c == 2 || c == 3 || c == 6
  if x == 5 && y == 5 then acc == 1
  else acc == 0 &&
    ((x < 2 && y < 2) || (eight x && (eight y || y == 4)) || (x == 4 && (eight y || y == 4)))

/-- Scope codes 1 to 5 (R35). -/
abbrev isScope (s : BitVec 3) : Bool := 1 ≤ s.toNat && s.toNat ≤ 5

/-- Check 6 of R83: immediates, type codes, type numbers, stages, scopes and system-register numbers. -/
def Instr.rangesOk (place : Place) : Instr → Bool
  | .loop _ count span => (count != 0#16 && span != 0#16)
  | .loopr _ _ span => span != 0#16
  | .tloop _ stride count span => (stride != 0#12 && count != 0#10 && span != 0#10)
  | .slli _ _ imm => decide (imm.toNat < 64)
  | .srli _ _ imm => decide (imm.toNat < 64)
  | .srai _ _ imm => decide (imm.toNat < 64)
  | .bfx _ _ pos len => decide (pos.toNat + len.toNat + 1 ≤ 64)
  | .bfxu _ _ pos len => decide (pos.toNat + len.toNat + 1 ≤ 64)
  | .bfi _ _ pos len => decide (pos.toNat + len.toNat + 1 ≤ 64)
  | .lea _ _ _ x => decide (x.toNat < 4)
  | .mfsr _ sr => mfsrAllowed place sr
  | .vaddInt _ _ _ _ _ ft => isIntCode ft
  | .vsubInt _ _ _ _ _ ft => isIntCode ft
  | .vmulInt _ _ _ _ _ ft => isIntCode ft
  | .vmulh _ _ _ _ _ ft => isIntCode ft
  | .vminInt _ _ _ _ _ ft => isIntCode ft
  | .vmaxInt _ _ _ _ _ ft => isIntCode ft
  | .vabsInt _ _ _ _ ft => isIntCode ft
  | .vnegInt _ _ _ _ ft => isIntCode ft
  | .vadds _ _ _ _ _ ft => isIntCode ft
  | .vsubs _ _ _ _ _ ft => isIntCode ft
  | .vavg _ _ _ _ _ ft => isIntCode ft
  | .vmad _ _ _ _ _ _ ft => isIntCode ft
  | .vsll _ _ _ _ _ ft => isIntCode ft
  | .vsrl _ _ _ _ _ ft => isIntCode ft
  | .vsra _ _ _ _ _ ft => isIntCode ft
  | .vrol _ _ _ _ _ ft => isIntCode ft
  | .vslls _ _ _ _ _ ft => isIntCode ft
  | .vsrls _ _ _ _ _ ft => isIntCode ft
  | .vsras _ _ _ _ _ ft => isIntCode ft
  | .vcmpeqInt _ _ _ _ _ ft => isIntCode ft
  | .vcmpneInt _ _ _ _ _ ft => isIntCode ft
  | .vcmpltInt _ _ _ _ _ ft => isIntCode ft
  | .vcmpleInt _ _ _ _ _ ft => isIntCode ft
  | .vcmpgtInt _ _ _ _ _ ft => isIntCode ft
  | .vcmpgeInt _ _ _ _ _ ft => isIntCode ft
  | .vsel _ _ _ _ _ ft => isWidthCode ft
  | .vsplat _ _ _ ft => isWidthCode ft
  | .vext _ _ _ _ ft => isWidthCode ft
  | .vins _ _ _ _ ft => isWidthCode ft
  | .viota _ _ ft => isWidthCode ft
  | .vaddFp _ _ _ _ _ ft _ => isFloatTag ft
  | .vsubFp _ _ _ _ _ ft _ => isFloatTag ft
  | .vmulFp _ _ _ _ _ ft _ => isFloatTag ft
  | .vfma _ _ _ _ _ _ ft _ => isFloatTag ft
  | .vfms _ _ _ _ _ _ ft _ => isFloatTag ft
  | .vfnma _ _ _ _ _ _ ft _ => isFloatTag ft
  | .vminFp _ _ _ _ _ ft => isFloatTag ft
  | .vmaxFp _ _ _ _ _ ft => isFloatTag ft
  | .vabsFp _ _ _ _ ft => isFloatTag ft
  | .vnegFp _ _ _ _ ft => isFloatTag ft
  | .vdiv _ _ _ _ _ ft _ => isFloatTag ft
  | .vsqrt _ _ _ _ ft _ => isFloatTag ft
  | .vcmpeqFp _ _ _ _ _ ft => isFloatTag ft
  | .vcmpneFp _ _ _ _ _ ft => isFloatTag ft
  | .vcmpltFp _ _ _ _ _ ft => isFloatTag ft
  | .vcmpleFp _ _ _ _ _ ft => isFloatTag ft
  | .vcmpgtFp _ _ _ _ _ ft => isFloatTag ft
  | .vcmpgeFp _ _ _ _ _ ft => isFloatTag ft
  | .vcmpun _ _ _ _ _ ft => isFloatTag ft
  | .vcvt _ _ _ src _ _ dst => vcvtPair src dst
  | .vquant _ _ _ src _ _ _ dst => vquantPair src dst
  | .vdequant _ _ _ src _ _ _ dst => vdequantPair src dst
  | .vlq2 _ _ _ src _ _ _ dst => vlq2Pair src dst
  | .vscale _ _ _ src _ _ _ dst => vscalePair src dst
  | .vexp2 _ _ _ _ ft _ => isFloatTag ft
  | .vlog2 _ _ _ _ ft _ => isFloatTag ft
  | .vrcp _ _ _ _ ft _ => isFloatTag ft
  | .vrsqrt _ _ _ _ ft _ => isFloatTag ft
  | .vtanh _ _ _ _ ft _ => isFloatTag ft
  | .vsigm _ _ _ _ ft _ => isFloatTag ft
  | .vredsum _ _ _ _ ft _ => isReduceCode ft
  | .vredmin _ _ _ _ ft => isReduceCode ft
  | .vredmax _ _ _ _ ft => isReduceCode ft
  | .vscan _ _ _ _ ft _ => isReduceCode ft
  | .vscanx _ _ _ _ ft _ => isReduceCode ft
  | .vscanmax _ _ _ _ ft => isReduceCode ft
  | .vperm _ _ _ _ ft => isWidthCode ft
  | .vrot _ _ _ _ ft => isWidthCode ft
  | .vrev _ _ _ ft => isWidthCode ft
  | .vzip _ _ _ _ ft => isWidthCode ft
  | .vunzip _ _ _ _ ft => isWidthCode ft
  | .vbcast _ _ _ _ ft => isWidthCode ft
  | .vsortn _ _ _ _ _ ft => isSortCode ft
  | .vcompress _ _ _ _ _ ft => isWidthCode ft
  | .vexpand _ _ _ _ ft => isWidthCode ft
  | .vrngf _ _ _ ft => isFloatTag ft
  | .bflyct _ _ _ _ stage _ => decide (stage.toNat < 6)
  | .bflygs _ _ _ _ stage _ => decide (stage.toNat < 6)
  | .bfpermStrd _ _ _ stride => decide (stride.toNat < 6)
  | .tcfg imm => tcfgLegal imm
  | .amoAdd _ _ _ _ scope => isScope scope
  | .amoMin _ _ _ _ scope => isScope scope
  | .amoMax _ _ _ _ scope => isScope scope
  | .amoAnd _ _ _ _ scope => isScope scope
  | .amoOr _ _ _ _ scope => isScope scope
  | .amoXor _ _ _ _ scope => isScope scope
  | .amoSwap _ _ _ _ scope => isScope scope
  | .amoCas _ _ _ _ _ scope => isScope scope
  | .amoFadd _ _ _ _ scope => isScope scope
  | .amoMinu _ _ _ _ scope => isScope scope
  | .amoMaxu _ _ _ _ scope => isScope scope
  | .redAdd _ _ _ scope => isScope scope
  | .redMin _ _ _ scope => isScope scope
  | .redMax _ _ _ scope => isScope scope
  | .redAnd _ _ _ scope => isScope scope
  | .redOr _ _ _ scope => isScope scope
  | .redXor _ _ _ scope => isScope scope
  | .redFadd _ _ _ scope => isScope scope
  | .redMinu _ _ _ scope => isScope scope
  | .redMaxu _ _ _ scope => isScope scope
  | .fence scope => isScope scope
  | .mtsr _ sr => mtsrAllowed sr
  | .pginv _ _ scope => (3 ≤ scope.toNat && scope.toNat ≤ 5)
  | .pgfence scope => (3 ≤ scope.toNat && scope.toNat ≤ 5)
  | .snap _ scope => (4 ≤ scope.toNat && scope.toNat ≤ 5)
  | _ => true

/-- RM values of a row that rounds: every mode, saturating or not (R59). -/
abbrev isRm (rm : BitVec 4) : Bool := rm.toNat % 8 < 6
/-- RM values of a row without STOCH (R59). -/
abbrev isRmNoStoch (rm : BitVec 4) : Bool := rm.toNat % 8 < 5

/-- Check 7 of R83 on the fields: RM holds a value the row accepts, and an order-channel code in P is 000 or 100-111. -/
def Instr.modesOk : Instr → Bool
  | .vaddFp _ _ _ _ _ _ rm => isRm rm
  | .vsubFp _ _ _ _ _ _ rm => isRm rm
  | .vmulFp _ _ _ _ _ _ rm => isRm rm
  | .vfma _ _ _ _ _ _ _ rm => isRm rm
  | .vfms _ _ _ _ _ _ _ rm => isRm rm
  | .vfnma _ _ _ _ _ _ _ rm => isRm rm
  | .vdiv _ _ _ _ _ _ rm => isRm rm
  | .vsqrt _ _ _ _ _ rm => isRm rm
  | .vcvt _ _ _ src _ rm dst => (if src.toNat < 6 && dst.toNat < 6 then rm.toNat == 0 else isRm rm)
  | .vquant _ _ _ _ _ _ rm _ => isRm rm
  | .vdequant _ _ _ _ _ _ rm _ => isRm rm
  | .vlq2 _ _ _ _ _ _ rm _ => isRm rm
  | .vscale _ _ _ _ _ _ rm _ => isRm rm
  | .vexp2 _ _ _ _ _ rm => isRmNoStoch rm
  | .vlog2 _ _ _ _ _ rm => isRmNoStoch rm
  | .vrcp _ _ _ _ _ rm => isRmNoStoch rm
  | .vrsqrt _ _ _ _ _ rm => isRmNoStoch rm
  | .vtanh _ _ _ _ _ rm => isRmNoStoch rm
  | .vsigm _ _ _ _ _ rm => isRmNoStoch rm
  | .vredsum _ _ _ _ ft rm => (if ft.toNat == 0 then rm.toNat == 0 else isRm rm)
  | .vscan _ _ _ _ ft rm => (if ft.toNat == 0 then rm.toNat == 0 else isRm rm)
  | .vscanx _ _ _ _ ft rm => (if ft.toNat == 0 then rm.toNat == 0 else isRm rm)
  | .tstore _ _ ft rm => (if ft.toNat == 0 || ft.toNat == 6 then rm.toNat == 0 else isRmNoStoch rm)
  | .amoAdd _ _ _ oc _ => (oc.toNat == 0 || 4 ≤ oc.toNat)
  | .amoMin _ _ _ oc _ => (oc.toNat == 0 || 4 ≤ oc.toNat)
  | .amoMax _ _ _ oc _ => (oc.toNat == 0 || 4 ≤ oc.toNat)
  | .amoAnd _ _ _ oc _ => (oc.toNat == 0 || 4 ≤ oc.toNat)
  | .amoOr _ _ _ oc _ => (oc.toNat == 0 || 4 ≤ oc.toNat)
  | .amoXor _ _ _ oc _ => (oc.toNat == 0 || 4 ≤ oc.toNat)
  | .amoSwap _ _ _ oc _ => (oc.toNat == 0 || 4 ≤ oc.toNat)
  | .amoCas _ _ _ _ oc _ => (oc.toNat == 0 || 4 ≤ oc.toNat)
  | .amoFadd _ _ _ oc _ => (oc.toNat == 0 || 4 ≤ oc.toNat)
  | .amoMinu _ _ _ oc _ => (oc.toNat == 0 || 4 ≤ oc.toNat)
  | .amoMaxu _ _ _ oc _ => (oc.toNat == 0 || 4 ≤ oc.toNat)
  | .redAdd _ _ oc _ => (oc.toNat == 0 || 4 ≤ oc.toNat)
  | .redMin _ _ oc _ => (oc.toNat == 0 || 4 ≤ oc.toNat)
  | .redMax _ _ oc _ => (oc.toNat == 0 || 4 ≤ oc.toNat)
  | .redAnd _ _ oc _ => (oc.toNat == 0 || 4 ≤ oc.toNat)
  | .redOr _ _ oc _ => (oc.toNat == 0 || 4 ≤ oc.toNat)
  | .redXor _ _ oc _ => (oc.toNat == 0 || 4 ≤ oc.toNat)
  | .redFadd _ _ oc _ => (oc.toNat == 0 || 4 ≤ oc.toNat)
  | .redMinu _ _ oc _ => (oc.toNat == 0 || 4 ≤ oc.toNat)
  | .redMaxu _ _ oc _ => (oc.toNat == 0 || 4 ≤ oc.toNat)
  | .ramoAdd _ _ _ oc => (oc.toNat == 0 || 4 ≤ oc.toNat)
  | .ramoMin _ _ _ oc => (oc.toNat == 0 || 4 ≤ oc.toNat)
  | .ramoMax _ _ _ oc => (oc.toNat == 0 || 4 ≤ oc.toNat)
  | .ramoAnd _ _ _ oc => (oc.toNat == 0 || 4 ≤ oc.toNat)
  | .ramoOr _ _ _ oc => (oc.toNat == 0 || 4 ≤ oc.toNat)
  | .ramoXor _ _ _ oc => (oc.toNat == 0 || 4 ≤ oc.toNat)
  | .ramoSwap _ _ _ oc => (oc.toNat == 0 || 4 ≤ oc.toNat)
  | .ramoCas _ _ _ _ oc => (oc.toNat == 0 || 4 ≤ oc.toNat)
  | .ramoFadd _ _ _ oc => (oc.toNat == 0 || 4 ≤ oc.toNat)
  | .ramoMinu _ _ _ oc => (oc.toNat == 0 || 4 ≤ oc.toNat)
  | .ramoMaxu _ _ _ oc => (oc.toNat == 0 || 4 ≤ oc.toNat)
  | _ => true

/-- FOLD is not 11 (check 4; a row that does not fold has no FOLD field, R81). -/
def Instr.foldOk (i : Instr) : Bool := i.fold != 3#2

/-- Is `i` an instruction that may stand at `place`, by checks 3 to 7 of R83? -/
def Instr.WellFormed (place : Place) (i : Instr) : Bool :=
  match i.shape with
  | none => false
  | some sh => sh.place.allows place && i.foldOk && i.namesOk && i.rangesOk place && i.modesOk

end Sys2Proof
end

