-- ==== Sys2Proof/Decode.lean ====
section
/-! DEFINITION. The decoder and the encoder. A word is cut into its common fields (R71) and the fields of its format (R72).
`decode` makes the checks 1 to 8 of R83 in order, and rejects by the name of the first that fails. It is total on every
64-bit word. Check 9 needs a whole list and is the loader's. (`noncomputable` only says that no code is generated: Lean's
runtime cannot build a constructor beyond the 245th; the kernel evaluates every definition here.) -/

namespace Sys2Proof

/-- Why a word is no instruction; the number of the check is `DecodeError.check` (R83). -/
inductive DecodeError where
  /-- Check 1: OP is not assigned. -/
  | opUnassigned
  /-- Check 2: SUB is not assigned for that OP. -/
  | subUnassigned
  /-- Check 3: the instruction may not stand at this place. -/
  | placeRefused
  /-- Check 4: FOLD is 11, or nonzero where the row does not fold. -/
  | foldRefused
  /-- Check 5: a register or name field outside its range. -/
  | nameRange
  /-- Check 6: an immediate, type code, scope or number outside its range. -/
  | numberRange
  /-- Check 7: RM or P. -/
  | roundingOrPredicate
  /-- Check 8: a reserved field or bit is nonzero. -/
  | reservedField
  deriving DecidableEq, Repr

/-- The number of the failing check (R83, R85). -/
def DecodeError.check : DecodeError → Nat
  | .opUnassigned => 1
  | .subUnassigned => 2
  | .placeRefused => 3
  | .foldRefused => 4
  | .nameRange => 5
  | .numberRange => 6
  | .roundingOrPredicate => 7
  | .reservedField => 8

/-! The common fields (R71). -/

/-- STAMP, bits [63:52]. -/
def stampOf (w : Word) : BitVec 12 := w.extractLsb' 52 12
/-- OP, bits [51:44]. -/
def opOf (w : Word) : BitVec 8 := w.extractLsb' 44 8
/-- SUB, bits [43:40]. -/
def subOf (w : Word) : BitVec 4 := w.extractLsb' 40 4
/-- FOLD, bits [39:38]. -/
def foldOf (w : Word) : BitVec 2 := w.extractLsb' 38 2
/-- D, bits [37:32]. -/
def dOf (w : Word) : BitVec 6 := w.extractLsb' 32 6
/-- The low half, bits [31:0]: IMM32 of format TL. -/
def lowOf (w : Word) : BitVec 32 := w.extractLsb' 0 32

/-! The fields of the formats (R72), cut from the low half. -/

/-- A, [31:26]. -/
def aOf (w : Word) : BitVec 6 := w.extractLsb' 26 6
/-- B, [25:20]. -/
def bOf (w : Word) : BitVec 6 := w.extractLsb' 20 6
/-- C, [19:14]. -/
def cOf (w : Word) : BitVec 6 := w.extractLsb' 14 6
/-- P, [13:11]. -/
def pOf (w : Word) : BitVec 3 := w.extractLsb' 11 3
/-- FT, [10:8]. -/
def ftOf (w : Word) : BitVec 3 := w.extractLsb' 8 3
/-- RM, [7:4]. -/
def rmOf (w : Word) : BitVec 4 := w.extractLsb' 4 4
/-- X, [3:0]. -/
def xOf (w : Word) : BitVec 4 := w.extractLsb' 0 4
/-- X[2:0], a scope. -/
def scopeOf (w : Word) : BitVec 3 := w.extractLsb' 0 3
/-- X[1:0], a modulus set. -/
def setOf (w : Word) : BitVec 2 := w.extractLsb' 0 2
/-- IMM26 and TARGET, [25:0]. -/
def imm26Of (w : Word) : BitVec 26 := w.extractLsb' 0 26
/-- TAG, [25:14]. -/
def tagOf (w : Word) : BitVec 12 := w.extractLsb' 14 12
/-- IMM16, [23:8]. -/
def imm16Of (w : Word) : BitVec 16 := w.extractLsb' 8 16

/-! The rows of each OP, by SUB (R80): the instruction with its fields, or none where SUB is not assigned. -/

/-- OP 0x00. -/
noncomputable def rows00 (_w : Word) : Nat → Option Instr
  | 0 => some .nop
  | _ => none

/-- OP 0x01. -/
noncomputable def rows01 (w : Word) : Nat → Option Instr
  | 0 => some (.br (imm26Of w))
  | _ => none

/-- OP 0x02. -/
noncomputable def rows02 (w : Word) : Nat → Option Instr
  | 0 => some (.beq (dOf w) (aOf w) (imm26Of w))
  | 1 => some (.bne (dOf w) (aOf w) (imm26Of w))
  | 2 => some (.blt (dOf w) (aOf w) (imm26Of w))
  | 3 => some (.bge (dOf w) (aOf w) (imm26Of w))
  | 4 => some (.bltu (dOf w) (aOf w) (imm26Of w))
  | 5 => some (.bgeu (dOf w) (aOf w) (imm26Of w))
  | _ => none

/-- OP 0x03. -/
noncomputable def rows03 (w : Word) : Nat → Option Instr
  | 0 => some (.call (dOf w) (imm26Of w))
  | _ => none

/-- OP 0x04. -/
noncomputable def rows04 (w : Word) : Nat → Option Instr
  | 0 => some (.jr (aOf w))
  | 1 => some (.jalr (dOf w) (aOf w))
  | _ => none

/-- OP 0x05. -/
noncomputable def rows05 (w : Word) : Nat → Option Instr
  | 0 => some (.loop (dOf w) (w.extractLsb' 16 16) (w.extractLsb' 0 16))
  | 1 => some (.loopr (dOf w) (aOf w) (w.extractLsb' 0 16))
  | _ => none

/-- OP 0x06. -/
noncomputable def rows06 (w : Word) : Nat → Option Instr
  | 0 => some (.tloop (dOf w) (w.extractLsb' 20 12) (w.extractLsb' 10 10) (w.extractLsb' 0 10))
  | _ => none

/-- OP 0x20. -/
noncomputable def rows20 (w : Word) : Nat → Option Instr
  | 0 => some (.add (dOf w) (aOf w) (bOf w))
  | 1 => some (.sub (dOf w) (aOf w) (bOf w))
  | 2 => some (.and (dOf w) (aOf w) (bOf w))
  | 3 => some (.or (dOf w) (aOf w) (bOf w))
  | 4 => some (.xor (dOf w) (aOf w) (bOf w))
  | 5 => some (.sll (dOf w) (aOf w) (bOf w))
  | 6 => some (.srl (dOf w) (aOf w) (bOf w))
  | 7 => some (.sra (dOf w) (aOf w) (bOf w))
  | 8 => some (.mul (dOf w) (aOf w) (bOf w))
  | 9 => some (.mulh (dOf w) (aOf w) (bOf w))
  | 10 => some (.mulhu (dOf w) (aOf w) (bOf w))
  | 11 => some (.min (dOf w) (aOf w) (bOf w))
  | 12 => some (.max (dOf w) (aOf w) (bOf w))
  | 13 => some (.minu (dOf w) (aOf w) (bOf w))
  | 14 => some (.maxu (dOf w) (aOf w) (bOf w))
  | _ => none

/-- OP 0x21. -/
noncomputable def rows21 (w : Word) : Nat → Option Instr
  | 0 => some (.addi (dOf w) (aOf w) (imm26Of w))
  | 2 => some (.andi (dOf w) (aOf w) (imm26Of w))
  | 3 => some (.ori (dOf w) (aOf w) (imm26Of w))
  | 4 => some (.xori (dOf w) (aOf w) (imm26Of w))
  | 5 => some (.slli (dOf w) (aOf w) (imm26Of w))
  | 6 => some (.srli (dOf w) (aOf w) (imm26Of w))
  | 7 => some (.srai (dOf w) (aOf w) (imm26Of w))
  | 8 => some (.muli (dOf w) (aOf w) (imm26Of w))
  | 11 => some (.mini (dOf w) (aOf w) (imm26Of w))
  | 12 => some (.maxi (dOf w) (aOf w) (imm26Of w))
  | _ => none

/-- OP 0x22. -/
noncomputable def rows22 (w : Word) : Nat → Option Instr
  | 0 => some (.div (dOf w) (aOf w) (bOf w))
  | 1 => some (.divu (dOf w) (aOf w) (bOf w))
  | 2 => some (.rem (dOf w) (aOf w) (bOf w))
  | 3 => some (.remu (dOf w) (aOf w) (bOf w))
  | _ => none

/-- OP 0x23. -/
noncomputable def rows23 (w : Word) : Nat → Option Instr
  | 0 => some (.seq (dOf w) (aOf w) (bOf w))
  | 1 => some (.sne (dOf w) (aOf w) (bOf w))
  | 2 => some (.slt (dOf w) (aOf w) (bOf w))
  | 3 => some (.sge (dOf w) (aOf w) (bOf w))
  | 4 => some (.sltu (dOf w) (aOf w) (bOf w))
  | 5 => some (.sgeu (dOf w) (aOf w) (bOf w))
  | _ => none

/-- OP 0x24. -/
noncomputable def rows24 (w : Word) : Nat → Option Instr
  | 0 => some (.seqi (dOf w) (aOf w) (imm26Of w))
  | 1 => some (.snei (dOf w) (aOf w) (imm26Of w))
  | 2 => some (.slti (dOf w) (aOf w) (imm26Of w))
  | 3 => some (.sgei (dOf w) (aOf w) (imm26Of w))
  | 4 => some (.sltui (dOf w) (aOf w) (imm26Of w))
  | 5 => some (.sgeui (dOf w) (aOf w) (imm26Of w))
  | _ => none

/-- OP 0x25. -/
noncomputable def rows25 (w : Word) : Nat → Option Instr
  | 0 => some (.bfx (dOf w) (aOf w) (w.extractLsb' 6 6) (w.extractLsb' 0 6))
  | 1 => some (.bfxu (dOf w) (aOf w) (w.extractLsb' 6 6) (w.extractLsb' 0 6))
  | 2 => some (.bfi (dOf w) (aOf w) (w.extractLsb' 6 6) (w.extractLsb' 0 6))
  | _ => none

/-- OP 0x26. -/
noncomputable def rows26 (w : Word) : Nat → Option Instr
  | 0 => some (.clz (dOf w) (aOf w))
  | 1 => some (.ctz (dOf w) (aOf w))
  | 2 => some (.popc (dOf w) (aOf w))
  | 3 => some (.brev (dOf w) (aOf w))
  | 4 => some (.bswap (dOf w) (aOf w))
  | _ => none

/-- OP 0x27. -/
noncomputable def rows27 (w : Word) : Nat → Option Instr
  | 0 => some (.li (dOf w) (lowOf w))
  | 1 => some (.lih (dOf w) (lowOf w))
  | _ => none

/-- OP 0x28. -/
noncomputable def rows28 (w : Word) : Nat → Option Instr
  | 0 => some (.mov (dOf w) (aOf w))
  | _ => none

/-- OP 0x29. -/
noncomputable def rows29 (w : Word) : Nat → Option Instr
  | 0 => some (.lea (dOf w) (aOf w) (bOf w) (xOf w))
  | _ => none

/-- OP 0x2A. -/
noncomputable def rows2A (w : Word) : Nat → Option Instr
  | 0 => some (.ld (dOf w) (aOf w) (imm26Of w))
  | 1 => some (.ldI8 (dOf w) (aOf w) (imm26Of w))
  | 2 => some (.ldUi8 (dOf w) (aOf w) (imm26Of w))
  | 3 => some (.ldI16 (dOf w) (aOf w) (imm26Of w))
  | 4 => some (.ldUi16 (dOf w) (aOf w) (imm26Of w))
  | 5 => some (.ldI32 (dOf w) (aOf w) (imm26Of w))
  | 6 => some (.ldUi32 (dOf w) (aOf w) (imm26Of w))
  | _ => none

/-- OP 0x2B. -/
noncomputable def rows2B (w : Word) : Nat → Option Instr
  | 0 => some (.st (dOf w) (aOf w) (imm26Of w))
  | 1 => some (.stI8 (dOf w) (aOf w) (imm26Of w))
  | 2 => some (.stI16 (dOf w) (aOf w) (imm26Of w))
  | 3 => some (.stI32 (dOf w) (aOf w) (imm26Of w))
  | _ => none

/-- OP 0x2C. -/
noncomputable def rows2C (w : Word) : Nat → Option Instr
  | 0 => some (.mfsr (dOf w) (imm16Of w))
  | _ => none

/-- OP 0x40. -/
noncomputable def rows40 (w : Word) : Nat → Option Instr
  | 0 => some (.vaddInt (foldOf w) (dOf w) (aOf w) (bOf w) (pOf w) (ftOf w))
  | 1 => some (.vsubInt (foldOf w) (dOf w) (aOf w) (bOf w) (pOf w) (ftOf w))
  | 2 => some (.vmulInt (foldOf w) (dOf w) (aOf w) (bOf w) (pOf w) (ftOf w))
  | 3 => some (.vmulh (foldOf w) (dOf w) (aOf w) (bOf w) (pOf w) (ftOf w))
  | 4 => some (.vminInt (foldOf w) (dOf w) (aOf w) (bOf w) (pOf w) (ftOf w))
  | 5 => some (.vmaxInt (foldOf w) (dOf w) (aOf w) (bOf w) (pOf w) (ftOf w))
  | 6 => some (.vabsInt (foldOf w) (dOf w) (aOf w) (pOf w) (ftOf w))
  | 7 => some (.vnegInt (foldOf w) (dOf w) (aOf w) (pOf w) (ftOf w))
  | 8 => some (.vadds (foldOf w) (dOf w) (aOf w) (bOf w) (pOf w) (ftOf w))
  | 9 => some (.vsubs (foldOf w) (dOf w) (aOf w) (bOf w) (pOf w) (ftOf w))
  | 10 => some (.vavg (foldOf w) (dOf w) (aOf w) (bOf w) (pOf w) (ftOf w))
  | 11 => some (.vmad (foldOf w) (dOf w) (aOf w) (bOf w) (cOf w) (pOf w) (ftOf w))
  | _ => none

/-- OP 0x42. -/
noncomputable def rows42 (w : Word) : Nat → Option Instr
  | 0 => some (.vand (foldOf w) (dOf w) (aOf w) (bOf w) (pOf w))
  | 1 => some (.vor (foldOf w) (dOf w) (aOf w) (bOf w) (pOf w))
  | 2 => some (.vxor (foldOf w) (dOf w) (aOf w) (bOf w) (pOf w))
  | 3 => some (.vandn (foldOf w) (dOf w) (aOf w) (bOf w) (pOf w))
  | 4 => some (.vnot (foldOf w) (dOf w) (aOf w) (pOf w))
  | 5 => some (.vmov (foldOf w) (dOf w) (aOf w) (pOf w))
  | _ => none

/-- OP 0x43. -/
noncomputable def rows43 (w : Word) : Nat → Option Instr
  | 0 => some (.vsll (foldOf w) (dOf w) (aOf w) (bOf w) (pOf w) (ftOf w))
  | 1 => some (.vsrl (foldOf w) (dOf w) (aOf w) (bOf w) (pOf w) (ftOf w))
  | 2 => some (.vsra (foldOf w) (dOf w) (aOf w) (bOf w) (pOf w) (ftOf w))
  | 3 => some (.vrol (foldOf w) (dOf w) (aOf w) (bOf w) (pOf w) (ftOf w))
  | 4 => some (.vslls (foldOf w) (dOf w) (aOf w) (bOf w) (pOf w) (ftOf w))
  | 5 => some (.vsrls (foldOf w) (dOf w) (aOf w) (bOf w) (pOf w) (ftOf w))
  | 6 => some (.vsras (foldOf w) (dOf w) (aOf w) (bOf w) (pOf w) (ftOf w))
  | _ => none

/-- OP 0x45. -/
noncomputable def rows45 (w : Word) : Nat → Option Instr
  | 0 => some (.vcmpeqInt (foldOf w) (dOf w) (aOf w) (bOf w) (pOf w) (ftOf w))
  | 1 => some (.vcmpneInt (foldOf w) (dOf w) (aOf w) (bOf w) (pOf w) (ftOf w))
  | 2 => some (.vcmpltInt (foldOf w) (dOf w) (aOf w) (bOf w) (pOf w) (ftOf w))
  | 3 => some (.vcmpleInt (foldOf w) (dOf w) (aOf w) (bOf w) (pOf w) (ftOf w))
  | 4 => some (.vcmpgtInt (foldOf w) (dOf w) (aOf w) (bOf w) (pOf w) (ftOf w))
  | 5 => some (.vcmpgeInt (foldOf w) (dOf w) (aOf w) (bOf w) (pOf w) (ftOf w))
  | _ => none

/-- OP 0x46. -/
noncomputable def rows46 (w : Word) : Nat → Option Instr
  | 0 => some (.vsel (foldOf w) (dOf w) (aOf w) (bOf w) (pOf w) (ftOf w))
  | _ => none

/-- OP 0x47. -/
noncomputable def rows47 (w : Word) : Nat → Option Instr
  | 0 => some (.vsplat (foldOf w) (dOf w) (aOf w) (ftOf w))
  | 1 => some (.vext (foldOf w) (dOf w) (aOf w) (bOf w) (ftOf w))
  | 2 => some (.vins (foldOf w) (dOf w) (aOf w) (bOf w) (ftOf w))
  | 3 => some (.viota (foldOf w) (dOf w) (ftOf w))
  | _ => none

/-- OP 0x48. -/
noncomputable def rows48 (w : Word) : Nat → Option Instr
  | 0 => some (.vaddFp (foldOf w) (dOf w) (aOf w) (bOf w) (pOf w) (ftOf w) (rmOf w))
  | 1 => some (.vsubFp (foldOf w) (dOf w) (aOf w) (bOf w) (pOf w) (ftOf w) (rmOf w))
  | 2 => some (.vmulFp (foldOf w) (dOf w) (aOf w) (bOf w) (pOf w) (ftOf w) (rmOf w))
  | 3 => some (.vfma (foldOf w) (dOf w) (aOf w) (bOf w) (cOf w) (pOf w) (ftOf w) (rmOf w))
  | 4 => some (.vfms (foldOf w) (dOf w) (aOf w) (bOf w) (cOf w) (pOf w) (ftOf w) (rmOf w))
  | 5 => some (.vfnma (foldOf w) (dOf w) (aOf w) (bOf w) (cOf w) (pOf w) (ftOf w) (rmOf w))
  | 6 => some (.vminFp (foldOf w) (dOf w) (aOf w) (bOf w) (pOf w) (ftOf w))
  | 7 => some (.vmaxFp (foldOf w) (dOf w) (aOf w) (bOf w) (pOf w) (ftOf w))
  | 8 => some (.vabsFp (foldOf w) (dOf w) (aOf w) (pOf w) (ftOf w))
  | 9 => some (.vnegFp (foldOf w) (dOf w) (aOf w) (pOf w) (ftOf w))
  | 10 => some (.vdiv (foldOf w) (dOf w) (aOf w) (bOf w) (pOf w) (ftOf w) (rmOf w))
  | 11 => some (.vsqrt (foldOf w) (dOf w) (aOf w) (pOf w) (ftOf w) (rmOf w))
  | _ => none

/-- OP 0x49. -/
noncomputable def rows49 (w : Word) : Nat → Option Instr
  | 0 => some (.vcmpeqFp (foldOf w) (dOf w) (aOf w) (bOf w) (pOf w) (ftOf w))
  | 1 => some (.vcmpneFp (foldOf w) (dOf w) (aOf w) (bOf w) (pOf w) (ftOf w))
  | 2 => some (.vcmpltFp (foldOf w) (dOf w) (aOf w) (bOf w) (pOf w) (ftOf w))
  | 3 => some (.vcmpleFp (foldOf w) (dOf w) (aOf w) (bOf w) (pOf w) (ftOf w))
  | 4 => some (.vcmpgtFp (foldOf w) (dOf w) (aOf w) (bOf w) (pOf w) (ftOf w))
  | 5 => some (.vcmpgeFp (foldOf w) (dOf w) (aOf w) (bOf w) (pOf w) (ftOf w))
  | 6 => some (.vcmpun (foldOf w) (dOf w) (aOf w) (bOf w) (pOf w) (ftOf w))
  | _ => none

/-- OP 0x4A. -/
noncomputable def rows4A (w : Word) : Nat → Option Instr
  | 0 => some (.vli (foldOf w) (dOf w) (lowOf w))
  | _ => none

/-- OP 0x80. -/
noncomputable def rows80 (w : Word) : Nat → Option Instr
  | 0 => some (.vcvt (foldOf w) (dOf w) (aOf w) (bOf w) (pOf w) (rmOf w) (xOf w))
  | 1 => some (.vquant (foldOf w) (dOf w) (aOf w) (bOf w) (cOf w) (pOf w) (rmOf w) (xOf w))
  | 2 => some (.vdequant (foldOf w) (dOf w) (aOf w) (bOf w) (cOf w) (pOf w) (rmOf w) (xOf w))
  | 3 => some (.vlq2 (foldOf w) (dOf w) (aOf w) (bOf w) (cOf w) (pOf w) (rmOf w) (xOf w))
  | 4 => some (.vscale (foldOf w) (dOf w) (aOf w) (bOf w) (cOf w) (pOf w) (rmOf w) (xOf w))
  | _ => none

/-- OP 0x81. -/
noncomputable def rows81 (w : Word) : Nat → Option Instr
  | 0 => some (.vexp2 (foldOf w) (dOf w) (aOf w) (pOf w) (ftOf w) (rmOf w))
  | 1 => some (.vlog2 (foldOf w) (dOf w) (aOf w) (pOf w) (ftOf w) (rmOf w))
  | 2 => some (.vrcp (foldOf w) (dOf w) (aOf w) (pOf w) (ftOf w) (rmOf w))
  | 3 => some (.vrsqrt (foldOf w) (dOf w) (aOf w) (pOf w) (ftOf w) (rmOf w))
  | 4 => some (.vtanh (foldOf w) (dOf w) (aOf w) (pOf w) (ftOf w) (rmOf w))
  | 5 => some (.vsigm (foldOf w) (dOf w) (aOf w) (pOf w) (ftOf w) (rmOf w))
  | _ => none

/-- OP 0x82. -/
noncomputable def rows82 (w : Word) : Nat → Option Instr
  | 0 => some (.vredsum (foldOf w) (dOf w) (aOf w) (pOf w) (ftOf w) (rmOf w))
  | 1 => some (.vredmin (foldOf w) (dOf w) (aOf w) (pOf w) (ftOf w))
  | 2 => some (.vredmax (foldOf w) (dOf w) (aOf w) (pOf w) (ftOf w))
  | 3 => some (.vredminu (foldOf w) (dOf w) (aOf w) (pOf w))
  | 4 => some (.vredmaxu (foldOf w) (dOf w) (aOf w) (pOf w))
  | 5 => some (.vredand (foldOf w) (dOf w) (aOf w) (pOf w))
  | 6 => some (.vredor (foldOf w) (dOf w) (aOf w) (pOf w))
  | _ => none

/-- OP 0x83. -/
noncomputable def rows83 (w : Word) : Nat → Option Instr
  | 0 => some (.vscan (foldOf w) (dOf w) (aOf w) (pOf w) (ftOf w) (rmOf w))
  | 1 => some (.vscanx (foldOf w) (dOf w) (aOf w) (pOf w) (ftOf w) (rmOf w))
  | 2 => some (.vscanmax (foldOf w) (dOf w) (aOf w) (pOf w) (ftOf w))
  | _ => none

/-- OP 0x84. -/
noncomputable def rows84 (w : Word) : Nat → Option Instr
  | 0 => some (.vperm (foldOf w) (dOf w) (aOf w) (bOf w) (ftOf w))
  | 1 => some (.vrot (foldOf w) (dOf w) (aOf w) (bOf w) (ftOf w))
  | 2 => some (.vrev (foldOf w) (dOf w) (aOf w) (ftOf w))
  | 3 => some (.vzip (foldOf w) (dOf w) (aOf w) (bOf w) (ftOf w))
  | 4 => some (.vunzip (foldOf w) (dOf w) (aOf w) (bOf w) (ftOf w))
  | 5 => some (.vbcast (foldOf w) (dOf w) (aOf w) (bOf w) (ftOf w))
  | _ => none

/-- OP 0x85. -/
noncomputable def rows85 (w : Word) : Nat → Option Instr
  | 0 => some (.vsortn (foldOf w) (dOf w) (aOf w) (bOf w) (cOf w) (ftOf w))
  | _ => none

/-- OP 0x86. -/
noncomputable def rows86 (w : Word) : Nat → Option Instr
  | 0 => some (.vcompress (foldOf w) (dOf w) (aOf w) (bOf w) (pOf w) (ftOf w))
  | 1 => some (.vexpand (foldOf w) (dOf w) (aOf w) (pOf w) (ftOf w))
  | _ => none

/-- OP 0x87. -/
noncomputable def rows87 (w : Word) : Nat → Option Instr
  | 0 => some (.vrng (foldOf w) (dOf w) (pOf w))
  | 1 => some (.vrngf (foldOf w) (dOf w) (pOf w) (ftOf w))
  | _ => none

/-- OP 0x88. -/
noncomputable def rows88 (w : Word) : Nat → Option Instr
  | 0 => some (.pand (foldOf w) (dOf w) (aOf w) (bOf w))
  | 1 => some (.por (foldOf w) (dOf w) (aOf w) (bOf w))
  | 2 => some (.pxor (foldOf w) (dOf w) (aOf w) (bOf w))
  | 3 => some (.pnot (foldOf w) (dOf w) (aOf w))
  | 4 => some (.pmov (foldOf w) (dOf w) (aOf w))
  | 5 => some (.pall (foldOf w) (dOf w))
  | 6 => some (.pnone (foldOf w) (dOf w))
  | 7 => some (.pcnt (foldOf w) (dOf w) (aOf w))
  | 8 => some (.pfirst (foldOf w) (dOf w) (aOf w))
  | 9 => some (.pwlt (foldOf w) (dOf w) (aOf w))
  | _ => none

/-- OP 0x90. -/
noncomputable def rows90 (w : Word) : Nat → Option Instr
  | 0 => some (.madd (foldOf w) (dOf w) (aOf w) (bOf w) (pOf w) (setOf w))
  | 1 => some (.msub (foldOf w) (dOf w) (aOf w) (bOf w) (pOf w) (setOf w))
  | 2 => some (.mneg (foldOf w) (dOf w) (aOf w) (pOf w) (setOf w))
  | 3 => some (.mmulq (foldOf w) (dOf w) (aOf w) (bOf w) (pOf w) (setOf w))
  | 4 => some (.mmac (foldOf w) (dOf w) (aOf w) (bOf w) (cOf w) (pOf w) (setOf w))
  | 5 => some (.mtomont (foldOf w) (dOf w) (aOf w) (pOf w) (setOf w))
  | 6 => some (.mfrmont (foldOf w) (dOf w) (aOf w) (pOf w) (setOf w))
  | 7 => some (.mred (foldOf w) (dOf w) (aOf w) (pOf w) (setOf w))
  | 8 => some (.mmul (foldOf w) (dOf w) (aOf w) (bOf w) (pOf w) (setOf w))
  | _ => none

/-- OP 0x91. -/
noncomputable def rows91 (w : Word) : Nat → Option Instr
  | 0 => some (.bflyct (foldOf w) (dOf w) (aOf w) (bOf w) (ftOf w) (setOf w))
  | 1 => some (.bflygs (foldOf w) (dOf w) (aOf w) (bOf w) (ftOf w) (setOf w))
  | _ => none

/-- OP 0x92. -/
noncomputable def rows92 (w : Word) : Nat → Option Instr
  | 0 => some (.bfpermRev (foldOf w) (dOf w) (aOf w))
  | 1 => some (.bfpermShuf (foldOf w) (dOf w) (aOf w))
  | 2 => some (.bfpermStrd (foldOf w) (dOf w) (aOf w) (cOf w))
  | _ => none

/-- OP 0x93. -/
noncomputable def rows93 (w : Word) : Nat → Option Instr
  | 0 => some (.mauto (foldOf w) (dOf w) (aOf w) (bOf w) (setOf w))
  | _ => none

/-- OP 0x94. -/
noncomputable def rows94 (w : Word) : Nat → Option Instr
  | 0 => some (.mqset (foldOf w) (dOf w) (aOf w))
  | 1 => some (.mqget (foldOf w) (dOf w) (aOf w))
  | _ => none

/-- OP 0xA0. -/
noncomputable def rowsA0 (w : Word) : Nat → Option Instr
  | 0 => some (.tcfg (lowOf w))
  | _ => none

/-- OP 0xA1. -/
noncomputable def rowsA1 (w : Word) : Nat → Option Instr
  | 0 => some (.tdef (dOf w) (aOf w) (bOf w) (cOf w) (xOf w))
  | _ => none

/-- OP 0xA2. -/
noncomputable def rowsA2 (w : Word) : Nat → Option Instr
  | 0 => some (.tarm (dOf w))
  | _ => none

/-- OP 0xA3. -/
noncomputable def rowsA3 (w : Word) : Nat → Option Instr
  | 0 => some (.tdisarm (dOf w))
  | _ => none

/-- OP 0xA4. -/
noncomputable def rowsA4 (w : Word) : Nat → Option Instr
  | 0 => some (.ttagEmpty (aOf w))
  | 1 => some (.ttagFull (aOf w))
  | _ => none

/-- OP 0xA5. -/
noncomputable def rowsA5 (w : Word) : Nat → Option Instr
  | 0 => some (.twload (aOf w))
  | _ => none

/-- OP 0xA6. -/
noncomputable def rowsA6 (w : Word) : Nat → Option Instr
  | 0 => some (.tread (dOf w) (aOf w) (bOf w))
  | _ => none

/-- OP 0xA7. -/
noncomputable def rowsA7 (w : Word) : Nat → Option Instr
  | 0 => some (.tstore (aOf w) (bOf w) (ftOf w) (rmOf w))
  | _ => none

/-- OP 0xA8. -/
noncomputable def rowsA8 (w : Word) : Nat → Option Instr
  | 0 => some (.taccz (dOf w))
  | _ => none

/-- OP 0xA9. -/
noncomputable def rowsA9 (w : Word) : Nat → Option Instr
  | 0 => some (.tsysto (w.extractLsb' 0 1))
  | _ => none

/-- OP 0xAA. -/
noncomputable def rowsAA (w : Word) : Nat → Option Instr
  | 0 => some (.tstatSlot (dOf w) (aOf w))
  | 1 => some (.tstatAcc (dOf w) (aOf w))
  | _ => none

/-- OP 0xB0. -/
noncomputable def rowsB0 (w : Word) : Nat → Option Instr
  | 0 => some (.pop (foldOf w) (dOf w) (aOf w))
  | 1 => some (.popd (foldOf w) (aOf w))
  | _ => none

/-- OP 0xB1. -/
noncomputable def rowsB1 (w : Word) : Nat → Option Instr
  | 0 => some (.push (foldOf w) (dOf w) (aOf w) (ftOf w))
  | _ => none

/-- OP 0xB2. -/
noncomputable def rowsB2 (w : Word) : Nat → Option Instr
  | 0 => some (.peek (foldOf w) (dOf w) (aOf w))
  | _ => none

/-- OP 0xB3. -/
noncomputable def rowsB3 (w : Word) : Nat → Option Instr
  | 0 => some (.nld (dOf w) (aOf w) (imm26Of w))
  | 1 => some (.nlds (dOf w) (aOf w) (imm26Of w))
  | _ => none

/-- OP 0xB4. -/
noncomputable def rowsB4 (w : Word) : Nat → Option Instr
  | 0 => some (.nst (dOf w) (aOf w) (bOf w) (xOf w))
  | 1 => some (.nsts (dOf w) (aOf w) (bOf w) (xOf w))
  | _ => none

/-- OP 0xB5. -/
noncomputable def rowsB5 (w : Word) : Nat → Option Instr
  | 0 => some (.pld (dOf w) (aOf w) (bOf w))
  | 1 => some (.pldv (dOf w) (aOf w) (bOf w))
  | 2 => some (.pst (dOf w) (aOf w) (bOf w) (xOf w))
  | 3 => some (.pstv (dOf w) (aOf w) (bOf w) (xOf w))
  | 4 => some (.pclr (aOf w) (bOf w))
  | _ => none

/-- OP 0xB6. -/
noncomputable def rowsB6 (w : Word) : Nat → Option Instr
  | 0 => some (.agset (dOf w) (aOf w))
  | 1 => some (.agld (dOf w) (aOf w))
  | 2 => some (.agst (dOf w) (aOf w))
  | _ => none

/-- OP 0xC0. -/
noncomputable def rowsC0 (w : Word) : Nat → Option Instr
  | 0 => some (.amoAdd (dOf w) (aOf w) (bOf w) (pOf w) (scopeOf w))
  | 1 => some (.amoMin (dOf w) (aOf w) (bOf w) (pOf w) (scopeOf w))
  | 2 => some (.amoMax (dOf w) (aOf w) (bOf w) (pOf w) (scopeOf w))
  | 3 => some (.amoAnd (dOf w) (aOf w) (bOf w) (pOf w) (scopeOf w))
  | 4 => some (.amoOr (dOf w) (aOf w) (bOf w) (pOf w) (scopeOf w))
  | 5 => some (.amoXor (dOf w) (aOf w) (bOf w) (pOf w) (scopeOf w))
  | 6 => some (.amoSwap (dOf w) (aOf w) (bOf w) (pOf w) (scopeOf w))
  | 7 => some (.amoCas (dOf w) (aOf w) (bOf w) (cOf w) (pOf w) (scopeOf w))
  | 8 => some (.amoFadd (dOf w) (aOf w) (bOf w) (pOf w) (scopeOf w))
  | 9 => some (.amoMinu (dOf w) (aOf w) (bOf w) (pOf w) (scopeOf w))
  | 10 => some (.amoMaxu (dOf w) (aOf w) (bOf w) (pOf w) (scopeOf w))
  | _ => none

/-- OP 0xC1. -/
noncomputable def rowsC1 (w : Word) : Nat → Option Instr
  | 0 => some (.redAdd (aOf w) (bOf w) (pOf w) (scopeOf w))
  | 1 => some (.redMin (aOf w) (bOf w) (pOf w) (scopeOf w))
  | 2 => some (.redMax (aOf w) (bOf w) (pOf w) (scopeOf w))
  | 3 => some (.redAnd (aOf w) (bOf w) (pOf w) (scopeOf w))
  | 4 => some (.redOr (aOf w) (bOf w) (pOf w) (scopeOf w))
  | 5 => some (.redXor (aOf w) (bOf w) (pOf w) (scopeOf w))
  | 8 => some (.redFadd (aOf w) (bOf w) (pOf w) (scopeOf w))
  | 9 => some (.redMinu (aOf w) (bOf w) (pOf w) (scopeOf w))
  | 10 => some (.redMaxu (aOf w) (bOf w) (pOf w) (scopeOf w))
  | _ => none

/-- OP 0xC2. -/
noncomputable def rowsC2 (w : Word) : Nat → Option Instr
  | 0 => some (.csig (dOf w))
  | 1 => some (.cwait (aOf w))
  | 2 => some (.ctest (dOf w) (aOf w))
  | _ => none

/-- OP 0xC3. -/
noncomputable def rowsC3 (w : Word) : Nat → Option Instr
  | 0 => some (.punct (dOf w))
  | 1 => some .punctall
  | _ => none

/-- OP 0xC4. -/
noncomputable def rowsC4 (w : Word) : Nat → Option Instr
  | 0 => some (.ordj (dOf w) (aOf w))
  | _ => none

/-- OP 0xC5. -/
noncomputable def rowsC5 (w : Word) : Nat → Option Instr
  | 0 => some (.fence (scopeOf w))
  | _ => none

/-- OP 0xC6. -/
noncomputable def rowsC6 (w : Word) : Nat → Option Instr
  | 0 => some (.ramoAdd (dOf w) (aOf w) (bOf w) (pOf w))
  | 1 => some (.ramoMin (dOf w) (aOf w) (bOf w) (pOf w))
  | 2 => some (.ramoMax (dOf w) (aOf w) (bOf w) (pOf w))
  | 3 => some (.ramoAnd (dOf w) (aOf w) (bOf w) (pOf w))
  | 4 => some (.ramoOr (dOf w) (aOf w) (bOf w) (pOf w))
  | 5 => some (.ramoXor (dOf w) (aOf w) (bOf w) (pOf w))
  | 6 => some (.ramoSwap (dOf w) (aOf w) (bOf w) (pOf w))
  | 7 => some (.ramoCas (dOf w) (aOf w) (bOf w) (cOf w) (pOf w))
  | 8 => some (.ramoFadd (dOf w) (aOf w) (bOf w) (pOf w))
  | 9 => some (.ramoMinu (dOf w) (aOf w) (bOf w) (pOf w))
  | 10 => some (.ramoMaxu (dOf w) (aOf w) (bOf w) (pOf w))
  | _ => none

/-- OP 0xD0. -/
noncomputable def rowsD0 (w : Word) : Nat → Option Instr
  | 0 => some (.setmode (aOf w) (w.extractLsb' 0 3))
  | _ => none

/-- OP 0xD1. -/
noncomputable def rowsD1 (w : Word) : Nat → Option Instr
  | 0 => some (.spawn (dOf w) (aOf w) (tagOf w))
  | _ => none

/-- OP 0xD2. -/
noncomputable def rowsD2 (w : Word) : Nat → Option Instr
  | 0 => some (.cret (dOf w))
  | _ => none

/-- OP 0xD3. -/
noncomputable def rowsD3 (w : Word) : Nat → Option Instr
  | 0 => some (.ckick (aOf w) (tagOf w))
  | _ => none

/-- OP 0xD4. -/
noncomputable def rowsD4 (w : Word) : Nat → Option Instr
  | 0 => some (.carm (aOf w) (tagOf w))
  | _ => none

/-- OP 0xD5. -/
noncomputable def rowsD5 (w : Word) : Nat → Option Instr
  | 0 => some (.gld (dOf w) (aOf w) (bOf w))
  | 1 => some (.gact (aOf w))
  | 2 => some (.gdrain (aOf w))
  | 3 => some (.gunld (aOf w))
  | _ => none

/-- OP 0xD6. -/
noncomputable def rowsD6 (w : Word) : Nat → Option Instr
  | 0 => some (.gstat (dOf w) (aOf w))
  | 1 => some (.mstat (dOf w) (aOf w))
  | _ => none

/-- OP 0xD7. -/
noncomputable def rowsD7 (w : Word) : Nat → Option Instr
  | 0 => some (.gpatch (dOf w) (aOf w) (tagOf w))
  | _ => none

/-- OP 0xE0. -/
noncomputable def rowsE0 (w : Word) : Nat → Option Instr
  | 0 => some (.trap (imm16Of w))
  | _ => none

/-- OP 0xE1. -/
noncomputable def rowsE1 (_w : Word) : Nat → Option Instr
  | 0 => some .tret
  | _ => none

/-- OP 0xE2. -/
noncomputable def rowsE2 (w : Word) : Nat → Option Instr
  | 0 => some (.mtsr (aOf w) (imm16Of w))
  | _ => none

/-- OP 0xE3. -/
noncomputable def rowsE3 (_w : Word) : Nat → Option Instr
  | 0 => some .idle
  | _ => none

/-- OP 0xE4. -/
noncomputable def rowsE4 (w : Word) : Nat → Option Instr
  | 0 => some (.csave (aOf w))
  | 1 => some (.cload (aOf w))
  | _ => none

/-- OP 0xE5. -/
noncomputable def rowsE5 (w : Word) : Nat → Option Instr
  | 0 => some (.pginv (aOf w) (bOf w) (xOf w))
  | _ => none

/-- OP 0xE6. -/
noncomputable def rowsE6 (w : Word) : Nat → Option Instr
  | 0 => some (.pgfence (xOf w))
  | _ => none

/-- OP 0xE7. -/
noncomputable def rowsE7 (w : Word) : Nat → Option Instr
  | 0 => some (.pgstat (dOf w) (aOf w))
  | _ => none

/-- OP 0xE8. -/
noncomputable def rowsE8 (w : Word) : Nat → Option Instr
  | 0 => some (.snap (imm16Of w) (xOf w))
  | _ => none

/-- OP 0xE9. -/
noncomputable def rowsE9 (w : Word) : Nat → Option Instr
  | 0 => some (.snapq (dOf w) (aOf w))
  | _ => none

/-- OP 0xEA. -/
noncomputable def rowsEA (w : Word) : Nat → Option Instr
  | 0 => some (.snapw (aOf w))
  | _ => none

/-- OP 0xEB. -/
noncomputable def rowsEB (w : Word) : Nat → Option Instr
  | 0 => some (.rollb (aOf w))
  | _ => none

/-- OP 0xEC. -/
noncomputable def rowsEC (w : Word) : Nat → Option Instr
  | 0 => some (.rkset (aOf w) (bOf w))
  | 1 => some (.rkget (dOf w) (aOf w))
  | _ => none

/-- The rows of an OP, or none where OP is not assigned (R80, check 1). -/
noncomputable def rowsOf (w : Word) : Nat → Option (Nat → Option Instr)
  | 0x00 => some (rows00 w)
  | 0x01 => some (rows01 w)
  | 0x02 => some (rows02 w)
  | 0x03 => some (rows03 w)
  | 0x04 => some (rows04 w)
  | 0x05 => some (rows05 w)
  | 0x06 => some (rows06 w)
  | 0x20 => some (rows20 w)
  | 0x21 => some (rows21 w)
  | 0x22 => some (rows22 w)
  | 0x23 => some (rows23 w)
  | 0x24 => some (rows24 w)
  | 0x25 => some (rows25 w)
  | 0x26 => some (rows26 w)
  | 0x27 => some (rows27 w)
  | 0x28 => some (rows28 w)
  | 0x29 => some (rows29 w)
  | 0x2A => some (rows2A w)
  | 0x2B => some (rows2B w)
  | 0x2C => some (rows2C w)
  | 0x40 => some (rows40 w)
  | 0x42 => some (rows42 w)
  | 0x43 => some (rows43 w)
  | 0x45 => some (rows45 w)
  | 0x46 => some (rows46 w)
  | 0x47 => some (rows47 w)
  | 0x48 => some (rows48 w)
  | 0x49 => some (rows49 w)
  | 0x4A => some (rows4A w)
  | 0x80 => some (rows80 w)
  | 0x81 => some (rows81 w)
  | 0x82 => some (rows82 w)
  | 0x83 => some (rows83 w)
  | 0x84 => some (rows84 w)
  | 0x85 => some (rows85 w)
  | 0x86 => some (rows86 w)
  | 0x87 => some (rows87 w)
  | 0x88 => some (rows88 w)
  | 0x90 => some (rows90 w)
  | 0x91 => some (rows91 w)
  | 0x92 => some (rows92 w)
  | 0x93 => some (rows93 w)
  | 0x94 => some (rows94 w)
  | 0xA0 => some (rowsA0 w)
  | 0xA1 => some (rowsA1 w)
  | 0xA2 => some (rowsA2 w)
  | 0xA3 => some (rowsA3 w)
  | 0xA4 => some (rowsA4 w)
  | 0xA5 => some (rowsA5 w)
  | 0xA6 => some (rowsA6 w)
  | 0xA7 => some (rowsA7 w)
  | 0xA8 => some (rowsA8 w)
  | 0xA9 => some (rowsA9 w)
  | 0xAA => some (rowsAA w)
  | 0xB0 => some (rowsB0 w)
  | 0xB1 => some (rowsB1 w)
  | 0xB2 => some (rowsB2 w)
  | 0xB3 => some (rowsB3 w)
  | 0xB4 => some (rowsB4 w)
  | 0xB5 => some (rowsB5 w)
  | 0xB6 => some (rowsB6 w)
  | 0xC0 => some (rowsC0 w)
  | 0xC1 => some (rowsC1 w)
  | 0xC2 => some (rowsC2 w)
  | 0xC3 => some (rowsC3 w)
  | 0xC4 => some (rowsC4 w)
  | 0xC5 => some (rowsC5 w)
  | 0xC6 => some (rowsC6 w)
  | 0xD0 => some (rowsD0 w)
  | 0xD1 => some (rowsD1 w)
  | 0xD2 => some (rowsD2 w)
  | 0xD3 => some (rowsD3 w)
  | 0xD4 => some (rowsD4 w)
  | 0xD5 => some (rowsD5 w)
  | 0xD6 => some (rowsD6 w)
  | 0xD7 => some (rowsD7 w)
  | 0xE0 => some (rowsE0 w)
  | 0xE1 => some (rowsE1 w)
  | 0xE2 => some (rowsE2 w)
  | 0xE3 => some (rowsE3 w)
  | 0xE4 => some (rowsE4 w)
  | 0xE5 => some (rowsE5 w)
  | 0xE6 => some (rowsE6 w)
  | 0xE7 => some (rowsE7 w)
  | 0xE8 => some (rowsE8 w)
  | 0xE9 => some (rowsE9 w)
  | 0xEA => some (rowsEA w)
  | 0xEB => some (rowsEB w)
  | 0xEC => some (rowsEC w)
  | _ => none

/-! The encoder. The low half of each format, from its fields (R72). -/

/-- Format T3. -/
def lowT3 (a b c : BitVec 6) (p ft : BitVec 3) (rm x : BitVec 4) : BitVec 32 := a ++ b ++ c ++ p ++ ft ++ rm ++ x
/-- Format TI, and TC with TARGET in place of IMM26. -/
def lowTI (a : BitVec 6) (imm : BitVec 26) : BitVec 32 := a ++ imm
/-- Format TA. -/
def lowTA (a : BitVec 6) (tag : BitVec 12) (p ft : BitVec 3) (rm x : BitVec 4) : BitVec 32 :=
  a ++ tag ++ p ++ ft ++ rm ++ x
/-- Format TS. -/
def lowTS (a : BitVec 6) (imm : BitVec 16) (x : BitVec 4) : BitVec 32 := a ++ 0#2 ++ imm ++ 0#4 ++ x

/-- A whole word from its common fields and its low half (R71). -/
def mkWord (stamp : BitVec 12) (op : BitVec 8) (sub : BitVec 4) (fold : BitVec 2) (d : BitVec 6) (low : BitVec 32) : Word :=
  stamp ++ op ++ sub ++ fold ++ d ++ low

/-- The word of an instruction with a stamp or issue delay; events have none. -/
def encode (stamp : BitVec 12) : Instr → Option Word
  | .nop => some (mkWord stamp 0x00 0 0 0 (lowT3 0 0 0 0 0 0 0))
  | .br target => some (mkWord stamp 0x01 0 0 0 (lowTI 0 target))
  | .beq d a target => some (mkWord stamp 0x02 0 0 d (lowTI a target))
  | .bne d a target => some (mkWord stamp 0x02 1 0 d (lowTI a target))
  | .blt d a target => some (mkWord stamp 0x02 2 0 d (lowTI a target))
  | .bge d a target => some (mkWord stamp 0x02 3 0 d (lowTI a target))
  | .bltu d a target => some (mkWord stamp 0x02 4 0 d (lowTI a target))
  | .bgeu d a target => some (mkWord stamp 0x02 5 0 d (lowTI a target))
  | .call d target => some (mkWord stamp 0x03 0 0 d (lowTI 0 target))
  | .jr a => some (mkWord stamp 0x04 0 0 0 (lowT3 a 0 0 0 0 0 0))
  | .jalr d a => some (mkWord stamp 0x04 1 0 d (lowT3 a 0 0 0 0 0 0))
  | .loop d count span => some (mkWord stamp 0x05 0 0 d (count ++ span))
  | .loopr d a span => some (mkWord stamp 0x05 1 0 d (lowTI a (0#10 ++ span)))
  | .tloop d stride count span => some (mkWord stamp 0x06 0 0 d (stride ++ count ++ span))
  | .add d a b => some (mkWord stamp 0x20 0 0 d (lowT3 a b 0 0 0 0 0))
  | .sub d a b => some (mkWord stamp 0x20 1 0 d (lowT3 a b 0 0 0 0 0))
  | .and d a b => some (mkWord stamp 0x20 2 0 d (lowT3 a b 0 0 0 0 0))
  | .or d a b => some (mkWord stamp 0x20 3 0 d (lowT3 a b 0 0 0 0 0))
  | .xor d a b => some (mkWord stamp 0x20 4 0 d (lowT3 a b 0 0 0 0 0))
  | .sll d a b => some (mkWord stamp 0x20 5 0 d (lowT3 a b 0 0 0 0 0))
  | .srl d a b => some (mkWord stamp 0x20 6 0 d (lowT3 a b 0 0 0 0 0))
  | .sra d a b => some (mkWord stamp 0x20 7 0 d (lowT3 a b 0 0 0 0 0))
  | .mul d a b => some (mkWord stamp 0x20 8 0 d (lowT3 a b 0 0 0 0 0))
  | .mulh d a b => some (mkWord stamp 0x20 9 0 d (lowT3 a b 0 0 0 0 0))
  | .mulhu d a b => some (mkWord stamp 0x20 10 0 d (lowT3 a b 0 0 0 0 0))
  | .min d a b => some (mkWord stamp 0x20 11 0 d (lowT3 a b 0 0 0 0 0))
  | .max d a b => some (mkWord stamp 0x20 12 0 d (lowT3 a b 0 0 0 0 0))
  | .minu d a b => some (mkWord stamp 0x20 13 0 d (lowT3 a b 0 0 0 0 0))
  | .maxu d a b => some (mkWord stamp 0x20 14 0 d (lowT3 a b 0 0 0 0 0))
  | .addi d a imm => some (mkWord stamp 0x21 0 0 d (lowTI a imm))
  | .andi d a imm => some (mkWord stamp 0x21 2 0 d (lowTI a imm))
  | .ori d a imm => some (mkWord stamp 0x21 3 0 d (lowTI a imm))
  | .xori d a imm => some (mkWord stamp 0x21 4 0 d (lowTI a imm))
  | .slli d a imm => some (mkWord stamp 0x21 5 0 d (lowTI a imm))
  | .srli d a imm => some (mkWord stamp 0x21 6 0 d (lowTI a imm))
  | .srai d a imm => some (mkWord stamp 0x21 7 0 d (lowTI a imm))
  | .muli d a imm => some (mkWord stamp 0x21 8 0 d (lowTI a imm))
  | .mini d a imm => some (mkWord stamp 0x21 11 0 d (lowTI a imm))
  | .maxi d a imm => some (mkWord stamp 0x21 12 0 d (lowTI a imm))
  | .div d a b => some (mkWord stamp 0x22 0 0 d (lowT3 a b 0 0 0 0 0))
  | .divu d a b => some (mkWord stamp 0x22 1 0 d (lowT3 a b 0 0 0 0 0))
  | .rem d a b => some (mkWord stamp 0x22 2 0 d (lowT3 a b 0 0 0 0 0))
  | .remu d a b => some (mkWord stamp 0x22 3 0 d (lowT3 a b 0 0 0 0 0))
  | .seq d a b => some (mkWord stamp 0x23 0 0 d (lowT3 a b 0 0 0 0 0))
  | .sne d a b => some (mkWord stamp 0x23 1 0 d (lowT3 a b 0 0 0 0 0))
  | .slt d a b => some (mkWord stamp 0x23 2 0 d (lowT3 a b 0 0 0 0 0))
  | .sge d a b => some (mkWord stamp 0x23 3 0 d (lowT3 a b 0 0 0 0 0))
  | .sltu d a b => some (mkWord stamp 0x23 4 0 d (lowT3 a b 0 0 0 0 0))
  | .sgeu d a b => some (mkWord stamp 0x23 5 0 d (lowT3 a b 0 0 0 0 0))
  | .seqi d a imm => some (mkWord stamp 0x24 0 0 d (lowTI a imm))
  | .snei d a imm => some (mkWord stamp 0x24 1 0 d (lowTI a imm))
  | .slti d a imm => some (mkWord stamp 0x24 2 0 d (lowTI a imm))
  | .sgei d a imm => some (mkWord stamp 0x24 3 0 d (lowTI a imm))
  | .sltui d a imm => some (mkWord stamp 0x24 4 0 d (lowTI a imm))
  | .sgeui d a imm => some (mkWord stamp 0x24 5 0 d (lowTI a imm))
  | .bfx d a pos len => some (mkWord stamp 0x25 0 0 d (lowTI a (0#14 ++ pos ++ len)))
  | .bfxu d a pos len => some (mkWord stamp 0x25 1 0 d (lowTI a (0#14 ++ pos ++ len)))
  | .bfi d a pos len => some (mkWord stamp 0x25 2 0 d (lowTI a (0#14 ++ pos ++ len)))
  | .clz d a => some (mkWord stamp 0x26 0 0 d (lowT3 a 0 0 0 0 0 0))
  | .ctz d a => some (mkWord stamp 0x26 1 0 d (lowT3 a 0 0 0 0 0 0))
  | .popc d a => some (mkWord stamp 0x26 2 0 d (lowT3 a 0 0 0 0 0 0))
  | .brev d a => some (mkWord stamp 0x26 3 0 d (lowT3 a 0 0 0 0 0 0))
  | .bswap d a => some (mkWord stamp 0x26 4 0 d (lowT3 a 0 0 0 0 0 0))
  | .li d imm => some (mkWord stamp 0x27 0 0 d imm)
  | .lih d imm => some (mkWord stamp 0x27 1 0 d imm)
  | .mov d a => some (mkWord stamp 0x28 0 0 d (lowT3 a 0 0 0 0 0 0))
  | .lea d a b x => some (mkWord stamp 0x29 0 0 d (lowT3 a b 0 0 0 0 x))
  | .ld d a imm => some (mkWord stamp 0x2A 0 0 d (lowTI a imm))
  | .ldI8 d a imm => some (mkWord stamp 0x2A 1 0 d (lowTI a imm))
  | .ldUi8 d a imm => some (mkWord stamp 0x2A 2 0 d (lowTI a imm))
  | .ldI16 d a imm => some (mkWord stamp 0x2A 3 0 d (lowTI a imm))
  | .ldUi16 d a imm => some (mkWord stamp 0x2A 4 0 d (lowTI a imm))
  | .ldI32 d a imm => some (mkWord stamp 0x2A 5 0 d (lowTI a imm))
  | .ldUi32 d a imm => some (mkWord stamp 0x2A 6 0 d (lowTI a imm))
  | .st d a imm => some (mkWord stamp 0x2B 0 0 d (lowTI a imm))
  | .stI8 d a imm => some (mkWord stamp 0x2B 1 0 d (lowTI a imm))
  | .stI16 d a imm => some (mkWord stamp 0x2B 2 0 d (lowTI a imm))
  | .stI32 d a imm => some (mkWord stamp 0x2B 3 0 d (lowTI a imm))
  | .mfsr d sr => some (mkWord stamp 0x2C 0 0 d (lowTS 0 sr 0))
  | .vaddInt fold d a b p ft => some (mkWord stamp 0x40 0 fold d (lowT3 a b 0 p ft 0 0))
  | .vsubInt fold d a b p ft => some (mkWord stamp 0x40 1 fold d (lowT3 a b 0 p ft 0 0))
  | .vmulInt fold d a b p ft => some (mkWord stamp 0x40 2 fold d (lowT3 a b 0 p ft 0 0))
  | .vmulh fold d a b p ft => some (mkWord stamp 0x40 3 fold d (lowT3 a b 0 p ft 0 0))
  | .vminInt fold d a b p ft => some (mkWord stamp 0x40 4 fold d (lowT3 a b 0 p ft 0 0))
  | .vmaxInt fold d a b p ft => some (mkWord stamp 0x40 5 fold d (lowT3 a b 0 p ft 0 0))
  | .vabsInt fold d a p ft => some (mkWord stamp 0x40 6 fold d (lowT3 a 0 0 p ft 0 0))
  | .vnegInt fold d a p ft => some (mkWord stamp 0x40 7 fold d (lowT3 a 0 0 p ft 0 0))
  | .vadds fold d a b p ft => some (mkWord stamp 0x40 8 fold d (lowT3 a b 0 p ft 0 0))
  | .vsubs fold d a b p ft => some (mkWord stamp 0x40 9 fold d (lowT3 a b 0 p ft 0 0))
  | .vavg fold d a b p ft => some (mkWord stamp 0x40 10 fold d (lowT3 a b 0 p ft 0 0))
  | .vmad fold d a b c p ft => some (mkWord stamp 0x40 11 fold d (lowT3 a b c p ft 0 0))
  | .vand fold d a b p => some (mkWord stamp 0x42 0 fold d (lowT3 a b 0 p 0 0 0))
  | .vor fold d a b p => some (mkWord stamp 0x42 1 fold d (lowT3 a b 0 p 0 0 0))
  | .vxor fold d a b p => some (mkWord stamp 0x42 2 fold d (lowT3 a b 0 p 0 0 0))
  | .vandn fold d a b p => some (mkWord stamp 0x42 3 fold d (lowT3 a b 0 p 0 0 0))
  | .vnot fold d a p => some (mkWord stamp 0x42 4 fold d (lowT3 a 0 0 p 0 0 0))
  | .vmov fold d a p => some (mkWord stamp 0x42 5 fold d (lowT3 a 0 0 p 0 0 0))
  | .vsll fold d a b p ft => some (mkWord stamp 0x43 0 fold d (lowT3 a b 0 p ft 0 0))
  | .vsrl fold d a b p ft => some (mkWord stamp 0x43 1 fold d (lowT3 a b 0 p ft 0 0))
  | .vsra fold d a b p ft => some (mkWord stamp 0x43 2 fold d (lowT3 a b 0 p ft 0 0))
  | .vrol fold d a b p ft => some (mkWord stamp 0x43 3 fold d (lowT3 a b 0 p ft 0 0))
  | .vslls fold d a b p ft => some (mkWord stamp 0x43 4 fold d (lowT3 a b 0 p ft 0 0))
  | .vsrls fold d a b p ft => some (mkWord stamp 0x43 5 fold d (lowT3 a b 0 p ft 0 0))
  | .vsras fold d a b p ft => some (mkWord stamp 0x43 6 fold d (lowT3 a b 0 p ft 0 0))
  | .vcmpeqInt fold d a b p ft => some (mkWord stamp 0x45 0 fold d (lowT3 a b 0 p ft 0 0))
  | .vcmpneInt fold d a b p ft => some (mkWord stamp 0x45 1 fold d (lowT3 a b 0 p ft 0 0))
  | .vcmpltInt fold d a b p ft => some (mkWord stamp 0x45 2 fold d (lowT3 a b 0 p ft 0 0))
  | .vcmpleInt fold d a b p ft => some (mkWord stamp 0x45 3 fold d (lowT3 a b 0 p ft 0 0))
  | .vcmpgtInt fold d a b p ft => some (mkWord stamp 0x45 4 fold d (lowT3 a b 0 p ft 0 0))
  | .vcmpgeInt fold d a b p ft => some (mkWord stamp 0x45 5 fold d (lowT3 a b 0 p ft 0 0))
  | .vsel fold d a b p ft => some (mkWord stamp 0x46 0 fold d (lowT3 a b 0 p ft 0 0))
  | .vsplat fold d a ft => some (mkWord stamp 0x47 0 fold d (lowT3 a 0 0 0 ft 0 0))
  | .vext fold d a b ft => some (mkWord stamp 0x47 1 fold d (lowT3 a b 0 0 ft 0 0))
  | .vins fold d a b ft => some (mkWord stamp 0x47 2 fold d (lowT3 a b 0 0 ft 0 0))
  | .viota fold d ft => some (mkWord stamp 0x47 3 fold d (lowT3 0 0 0 0 ft 0 0))
  | .vaddFp fold d a b p ft rm => some (mkWord stamp 0x48 0 fold d (lowT3 a b 0 p ft rm 0))
  | .vsubFp fold d a b p ft rm => some (mkWord stamp 0x48 1 fold d (lowT3 a b 0 p ft rm 0))
  | .vmulFp fold d a b p ft rm => some (mkWord stamp 0x48 2 fold d (lowT3 a b 0 p ft rm 0))
  | .vfma fold d a b c p ft rm => some (mkWord stamp 0x48 3 fold d (lowT3 a b c p ft rm 0))
  | .vfms fold d a b c p ft rm => some (mkWord stamp 0x48 4 fold d (lowT3 a b c p ft rm 0))
  | .vfnma fold d a b c p ft rm => some (mkWord stamp 0x48 5 fold d (lowT3 a b c p ft rm 0))
  | .vminFp fold d a b p ft => some (mkWord stamp 0x48 6 fold d (lowT3 a b 0 p ft 0 0))
  | .vmaxFp fold d a b p ft => some (mkWord stamp 0x48 7 fold d (lowT3 a b 0 p ft 0 0))
  | .vabsFp fold d a p ft => some (mkWord stamp 0x48 8 fold d (lowT3 a 0 0 p ft 0 0))
  | .vnegFp fold d a p ft => some (mkWord stamp 0x48 9 fold d (lowT3 a 0 0 p ft 0 0))
  | .vdiv fold d a b p ft rm => some (mkWord stamp 0x48 10 fold d (lowT3 a b 0 p ft rm 0))
  | .vsqrt fold d a p ft rm => some (mkWord stamp 0x48 11 fold d (lowT3 a 0 0 p ft rm 0))
  | .vcmpeqFp fold d a b p ft => some (mkWord stamp 0x49 0 fold d (lowT3 a b 0 p ft 0 0))
  | .vcmpneFp fold d a b p ft => some (mkWord stamp 0x49 1 fold d (lowT3 a b 0 p ft 0 0))
  | .vcmpltFp fold d a b p ft => some (mkWord stamp 0x49 2 fold d (lowT3 a b 0 p ft 0 0))
  | .vcmpleFp fold d a b p ft => some (mkWord stamp 0x49 3 fold d (lowT3 a b 0 p ft 0 0))
  | .vcmpgtFp fold d a b p ft => some (mkWord stamp 0x49 4 fold d (lowT3 a b 0 p ft 0 0))
  | .vcmpgeFp fold d a b p ft => some (mkWord stamp 0x49 5 fold d (lowT3 a b 0 p ft 0 0))
  | .vcmpun fold d a b p ft => some (mkWord stamp 0x49 6 fold d (lowT3 a b 0 p ft 0 0))
  | .vli fold d imm => some (mkWord stamp 0x4A 0 fold d imm)
  | .vcvt fold d a src p rm dst => some (mkWord stamp 0x80 0 fold d (lowT3 a src 0 p 0 rm dst))
  | .vquant fold d a src c p rm dst => some (mkWord stamp 0x80 1 fold d (lowT3 a src c p 0 rm dst))
  | .vdequant fold d a src c p rm dst => some (mkWord stamp 0x80 2 fold d (lowT3 a src c p 0 rm dst))
  | .vlq2 fold d a src c p rm dst => some (mkWord stamp 0x80 3 fold d (lowT3 a src c p 0 rm dst))
  | .vscale fold d a src c p rm dst => some (mkWord stamp 0x80 4 fold d (lowT3 a src c p 0 rm dst))
  | .vexp2 fold d a p ft rm => some (mkWord stamp 0x81 0 fold d (lowT3 a 0 0 p ft rm 0))
  | .vlog2 fold d a p ft rm => some (mkWord stamp 0x81 1 fold d (lowT3 a 0 0 p ft rm 0))
  | .vrcp fold d a p ft rm => some (mkWord stamp 0x81 2 fold d (lowT3 a 0 0 p ft rm 0))
  | .vrsqrt fold d a p ft rm => some (mkWord stamp 0x81 3 fold d (lowT3 a 0 0 p ft rm 0))
  | .vtanh fold d a p ft rm => some (mkWord stamp 0x81 4 fold d (lowT3 a 0 0 p ft rm 0))
  | .vsigm fold d a p ft rm => some (mkWord stamp 0x81 5 fold d (lowT3 a 0 0 p ft rm 0))
  | .vredsum fold d a p ft rm => some (mkWord stamp 0x82 0 fold d (lowT3 a 0 0 p ft rm 0))
  | .vredmin fold d a p ft => some (mkWord stamp 0x82 1 fold d (lowT3 a 0 0 p ft 0 0))
  | .vredmax fold d a p ft => some (mkWord stamp 0x82 2 fold d (lowT3 a 0 0 p ft 0 0))
  | .vredminu fold d a p => some (mkWord stamp 0x82 3 fold d (lowT3 a 0 0 p 0 0 0))
  | .vredmaxu fold d a p => some (mkWord stamp 0x82 4 fold d (lowT3 a 0 0 p 0 0 0))
  | .vredand fold d a p => some (mkWord stamp 0x82 5 fold d (lowT3 a 0 0 p 0 0 0))
  | .vredor fold d a p => some (mkWord stamp 0x82 6 fold d (lowT3 a 0 0 p 0 0 0))
  | .vscan fold d a p ft rm => some (mkWord stamp 0x83 0 fold d (lowT3 a 0 0 p ft rm 0))
  | .vscanx fold d a p ft rm => some (mkWord stamp 0x83 1 fold d (lowT3 a 0 0 p ft rm 0))
  | .vscanmax fold d a p ft => some (mkWord stamp 0x83 2 fold d (lowT3 a 0 0 p ft 0 0))
  | .vperm fold d a b ft => some (mkWord stamp 0x84 0 fold d (lowT3 a b 0 0 ft 0 0))
  | .vrot fold d a b ft => some (mkWord stamp 0x84 1 fold d (lowT3 a b 0 0 ft 0 0))
  | .vrev fold d a ft => some (mkWord stamp 0x84 2 fold d (lowT3 a 0 0 0 ft 0 0))
  | .vzip fold d a b ft => some (mkWord stamp 0x84 3 fold d (lowT3 a b 0 0 ft 0 0))
  | .vunzip fold d a b ft => some (mkWord stamp 0x84 4 fold d (lowT3 a b 0 0 ft 0 0))
  | .vbcast fold d a b ft => some (mkWord stamp 0x84 5 fold d (lowT3 a b 0 0 ft 0 0))
  | .vsortn fold d a b c ft => some (mkWord stamp 0x85 0 fold d (lowT3 a b c 0 ft 0 0))
  | .vcompress fold d a b p ft => some (mkWord stamp 0x86 0 fold d (lowT3 a b 0 p ft 0 0))
  | .vexpand fold d a p ft => some (mkWord stamp 0x86 1 fold d (lowT3 a 0 0 p ft 0 0))
  | .vrng fold d p => some (mkWord stamp 0x87 0 fold d (lowT3 0 0 0 p 0 0 0))
  | .vrngf fold d p ft => some (mkWord stamp 0x87 1 fold d (lowT3 0 0 0 p ft 0 0))
  | .pand fold d a b => some (mkWord stamp 0x88 0 fold d (lowT3 a b 0 0 0 0 0))
  | .por fold d a b => some (mkWord stamp 0x88 1 fold d (lowT3 a b 0 0 0 0 0))
  | .pxor fold d a b => some (mkWord stamp 0x88 2 fold d (lowT3 a b 0 0 0 0 0))
  | .pnot fold d a => some (mkWord stamp 0x88 3 fold d (lowT3 a 0 0 0 0 0 0))
  | .pmov fold d a => some (mkWord stamp 0x88 4 fold d (lowT3 a 0 0 0 0 0 0))
  | .pall fold d => some (mkWord stamp 0x88 5 fold d (lowT3 0 0 0 0 0 0 0))
  | .pnone fold d => some (mkWord stamp 0x88 6 fold d (lowT3 0 0 0 0 0 0 0))
  | .pcnt fold d a => some (mkWord stamp 0x88 7 fold d (lowT3 a 0 0 0 0 0 0))
  | .pfirst fold d a => some (mkWord stamp 0x88 8 fold d (lowT3 a 0 0 0 0 0 0))
  | .pwlt fold d a => some (mkWord stamp 0x88 9 fold d (lowT3 a 0 0 0 0 0 0))
  | .madd fold d a b p qset => some (mkWord stamp 0x90 0 fold d (lowT3 a b 0 p 0 0 (0#2 ++ qset)))
  | .msub fold d a b p qset => some (mkWord stamp 0x90 1 fold d (lowT3 a b 0 p 0 0 (0#2 ++ qset)))
  | .mneg fold d a p qset => some (mkWord stamp 0x90 2 fold d (lowT3 a 0 0 p 0 0 (0#2 ++ qset)))
  | .mmulq fold d a b p qset => some (mkWord stamp 0x90 3 fold d (lowT3 a b 0 p 0 0 (0#2 ++ qset)))
  | .mmac fold d a b c p qset => some (mkWord stamp 0x90 4 fold d (lowT3 a b c p 0 0 (0#2 ++ qset)))
  | .mtomont fold d a p qset => some (mkWord stamp 0x90 5 fold d (lowT3 a 0 0 p 0 0 (0#2 ++ qset)))
  | .mfrmont fold d a p qset => some (mkWord stamp 0x90 6 fold d (lowT3 a 0 0 p 0 0 (0#2 ++ qset)))
  | .mred fold d a p qset => some (mkWord stamp 0x90 7 fold d (lowT3 a 0 0 p 0 0 (0#2 ++ qset)))
  | .mmul fold d a b p qset => some (mkWord stamp 0x90 8 fold d (lowT3 a b 0 p 0 0 (0#2 ++ qset)))
  | .bflyct fold d a b stage qset => some (mkWord stamp 0x91 0 fold d (lowT3 a b 0 0 stage 0 (0#2 ++ qset)))
  | .bflygs fold d a b stage qset => some (mkWord stamp 0x91 1 fold d (lowT3 a b 0 0 stage 0 (0#2 ++ qset)))
  | .bfpermRev fold d a => some (mkWord stamp 0x92 0 fold d (lowT3 a 0 0 0 0 0 0))
  | .bfpermShuf fold d a => some (mkWord stamp 0x92 1 fold d (lowT3 a 0 0 0 0 0 0))
  | .bfpermStrd fold d a stride => some (mkWord stamp 0x92 2 fold d (lowT3 a 0 stride 0 0 0 0))
  | .mauto fold d a b qset => some (mkWord stamp 0x93 0 fold d (lowT3 a b 0 0 0 0 (0#2 ++ qset)))
  | .mqset fold d a => some (mkWord stamp 0x94 0 fold d (lowT3 a 0 0 0 0 0 0))
  | .mqget fold d a => some (mkWord stamp 0x94 1 fold d (lowT3 a 0 0 0 0 0 0))
  | .tcfg imm => some (mkWord stamp 0xA0 0 0 0 imm)
  | .tdef d a b c flags => some (mkWord stamp 0xA1 0 0 d (lowT3 a b c 0 0 0 flags))
  | .tarm d => some (mkWord stamp 0xA2 0 0 d (lowT3 0 0 0 0 0 0 0))
  | .tdisarm d => some (mkWord stamp 0xA3 0 0 d (lowT3 0 0 0 0 0 0 0))
  | .ttagEmpty a => some (mkWord stamp 0xA4 0 0 0 (lowT3 a 0 0 0 0 0 0))
  | .ttagFull a => some (mkWord stamp 0xA4 1 0 0 (lowT3 a 0 0 0 0 0 0))
  | .twload a => some (mkWord stamp 0xA5 0 0 0 (lowT3 a 0 0 0 0 0 0))
  | .tread d a b => some (mkWord stamp 0xA6 0 0 d (lowT3 a b 0 0 0 0 0))
  | .tstore a b ft rm => some (mkWord stamp 0xA7 0 0 0 (lowT3 a b 0 0 ft rm 0))
  | .taccz d => some (mkWord stamp 0xA8 0 0 d (lowT3 0 0 0 0 0 0 0))
  | .tsysto on => some (mkWord stamp 0xA9 0 0 0 (lowTI 0 (0#25 ++ on)))
  | .tstatSlot d a => some (mkWord stamp 0xAA 0 0 d (lowT3 a 0 0 0 0 0 0))
  | .tstatAcc d a => some (mkWord stamp 0xAA 1 0 d (lowT3 a 0 0 0 0 0 0))
  | .pop fold d a => some (mkWord stamp 0xB0 0 fold d (lowT3 a 0 0 0 0 0 0))
  | .popd fold a => some (mkWord stamp 0xB0 1 fold 0 (lowT3 a 0 0 0 0 0 0))
  | .push fold d a ft => some (mkWord stamp 0xB1 0 fold d (lowT3 a 0 0 0 ft 0 0))
  | .peek fold d a => some (mkWord stamp 0xB2 0 fold d (lowT3 a 0 0 0 0 0 0))
  | .nld d a imm => some (mkWord stamp 0xB3 0 0 d (lowTI a imm))
  | .nlds d a imm => some (mkWord stamp 0xB3 1 0 d (lowTI a imm))
  | .nst d a b ocx => some (mkWord stamp 0xB4 0 0 d (lowT3 a b 0 0 0 0 ocx))
  | .nsts d a b ocx => some (mkWord stamp 0xB4 1 0 d (lowT3 a b 0 0 0 0 ocx))
  | .pld d a b => some (mkWord stamp 0xB5 0 0 d (lowT3 a b 0 0 0 0 0))
  | .pldv d a b => some (mkWord stamp 0xB5 1 0 d (lowT3 a b 0 0 0 0 0))
  | .pst d a b ocx => some (mkWord stamp 0xB5 2 0 d (lowT3 a b 0 0 0 0 ocx))
  | .pstv d a b ocx => some (mkWord stamp 0xB5 3 0 d (lowT3 a b 0 0 0 0 ocx))
  | .pclr a b => some (mkWord stamp 0xB5 4 0 0 (lowT3 a b 0 0 0 0 0))
  | .agset d a => some (mkWord stamp 0xB6 0 0 d (lowT3 a 0 0 0 0 0 0))
  | .agld d a => some (mkWord stamp 0xB6 1 0 d (lowT3 a 0 0 0 0 0 0))
  | .agst d a => some (mkWord stamp 0xB6 2 0 d (lowT3 a 0 0 0 0 0 0))
  | .amoAdd d a b oc scope => some (mkWord stamp 0xC0 0 0 d (lowT3 a b 0 oc 0 0 (0#1 ++ scope)))
  | .amoMin d a b oc scope => some (mkWord stamp 0xC0 1 0 d (lowT3 a b 0 oc 0 0 (0#1 ++ scope)))
  | .amoMax d a b oc scope => some (mkWord stamp 0xC0 2 0 d (lowT3 a b 0 oc 0 0 (0#1 ++ scope)))
  | .amoAnd d a b oc scope => some (mkWord stamp 0xC0 3 0 d (lowT3 a b 0 oc 0 0 (0#1 ++ scope)))
  | .amoOr d a b oc scope => some (mkWord stamp 0xC0 4 0 d (lowT3 a b 0 oc 0 0 (0#1 ++ scope)))
  | .amoXor d a b oc scope => some (mkWord stamp 0xC0 5 0 d (lowT3 a b 0 oc 0 0 (0#1 ++ scope)))
  | .amoSwap d a b oc scope => some (mkWord stamp 0xC0 6 0 d (lowT3 a b 0 oc 0 0 (0#1 ++ scope)))
  | .amoCas d a b c oc scope => some (mkWord stamp 0xC0 7 0 d (lowT3 a b c oc 0 0 (0#1 ++ scope)))
  | .amoFadd d a b oc scope => some (mkWord stamp 0xC0 8 0 d (lowT3 a b 0 oc 1 0 (0#1 ++ scope)))
  | .amoMinu d a b oc scope => some (mkWord stamp 0xC0 9 0 d (lowT3 a b 0 oc 0 0 (0#1 ++ scope)))
  | .amoMaxu d a b oc scope => some (mkWord stamp 0xC0 10 0 d (lowT3 a b 0 oc 0 0 (0#1 ++ scope)))
  | .redAdd a b oc scope => some (mkWord stamp 0xC1 0 0 0 (lowT3 a b 0 oc 0 0 (0#1 ++ scope)))
  | .redMin a b oc scope => some (mkWord stamp 0xC1 1 0 0 (lowT3 a b 0 oc 0 0 (0#1 ++ scope)))
  | .redMax a b oc scope => some (mkWord stamp 0xC1 2 0 0 (lowT3 a b 0 oc 0 0 (0#1 ++ scope)))
  | .redAnd a b oc scope => some (mkWord stamp 0xC1 3 0 0 (lowT3 a b 0 oc 0 0 (0#1 ++ scope)))
  | .redOr a b oc scope => some (mkWord stamp 0xC1 4 0 0 (lowT3 a b 0 oc 0 0 (0#1 ++ scope)))
  | .redXor a b oc scope => some (mkWord stamp 0xC1 5 0 0 (lowT3 a b 0 oc 0 0 (0#1 ++ scope)))
  | .redFadd a b oc scope => some (mkWord stamp 0xC1 8 0 0 (lowT3 a b 0 oc 1 0 (0#1 ++ scope)))
  | .redMinu a b oc scope => some (mkWord stamp 0xC1 9 0 0 (lowT3 a b 0 oc 0 0 (0#1 ++ scope)))
  | .redMaxu a b oc scope => some (mkWord stamp 0xC1 10 0 0 (lowT3 a b 0 oc 0 0 (0#1 ++ scope)))
  | .csig d => some (mkWord stamp 0xC2 0 0 d (lowT3 0 0 0 0 0 0 0))
  | .cwait a => some (mkWord stamp 0xC2 1 0 0 (lowT3 a 0 0 0 0 0 0))
  | .ctest d a => some (mkWord stamp 0xC2 2 0 d (lowT3 a 0 0 0 0 0 0))
  | .punct d => some (mkWord stamp 0xC3 0 0 d (lowT3 0 0 0 0 0 0 0))
  | .punctall => some (mkWord stamp 0xC3 1 0 0 (lowT3 0 0 0 0 0 0 0))
  | .ordj d a => some (mkWord stamp 0xC4 0 0 d (lowT3 a 0 0 0 0 0 0))
  | .fence scope => some (mkWord stamp 0xC5 0 0 0 (lowT3 0 0 0 0 0 0 (0#1 ++ scope)))
  | .ramoAdd d a b oc => some (mkWord stamp 0xC6 0 0 d (lowT3 a b 0 oc 0 0 5))
  | .ramoMin d a b oc => some (mkWord stamp 0xC6 1 0 d (lowT3 a b 0 oc 0 0 5))
  | .ramoMax d a b oc => some (mkWord stamp 0xC6 2 0 d (lowT3 a b 0 oc 0 0 5))
  | .ramoAnd d a b oc => some (mkWord stamp 0xC6 3 0 d (lowT3 a b 0 oc 0 0 5))
  | .ramoOr d a b oc => some (mkWord stamp 0xC6 4 0 d (lowT3 a b 0 oc 0 0 5))
  | .ramoXor d a b oc => some (mkWord stamp 0xC6 5 0 d (lowT3 a b 0 oc 0 0 5))
  | .ramoSwap d a b oc => some (mkWord stamp 0xC6 6 0 d (lowT3 a b 0 oc 0 0 5))
  | .ramoCas d a b c oc => some (mkWord stamp 0xC6 7 0 d (lowT3 a b c oc 0 0 5))
  | .ramoFadd d a b oc => some (mkWord stamp 0xC6 8 0 d (lowT3 a b 0 oc 1 0 5))
  | .ramoMinu d a b oc => some (mkWord stamp 0xC6 9 0 d (lowT3 a b 0 oc 0 0 5))
  | .ramoMaxu d a b oc => some (mkWord stamp 0xC6 10 0 d (lowT3 a b 0 oc 0 0 5))
  | .setmode a mode => some (mkWord stamp 0xD0 0 0 0 (lowTI a (0#23 ++ mode)))
  | .spawn d a tag => some (mkWord stamp 0xD1 0 0 d (lowTA a tag 0 0 0 0))
  | .cret d => some (mkWord stamp 0xD2 0 0 d (lowT3 0 0 0 0 0 0 0))
  | .ckick a tag => some (mkWord stamp 0xD3 0 0 0 (lowTA a tag 0 0 0 0))
  | .carm a tag => some (mkWord stamp 0xD4 0 0 0 (lowTA a tag 0 0 0 0))
  | .gld d a b => some (mkWord stamp 0xD5 0 0 d (lowT3 a b 0 0 0 0 0))
  | .gact a => some (mkWord stamp 0xD5 1 0 0 (lowT3 a 0 0 0 0 0 0))
  | .gdrain a => some (mkWord stamp 0xD5 2 0 0 (lowT3 a 0 0 0 0 0 0))
  | .gunld a => some (mkWord stamp 0xD5 3 0 0 (lowT3 a 0 0 0 0 0 0))
  | .gstat d a => some (mkWord stamp 0xD6 0 0 d (lowT3 a 0 0 0 0 0 0))
  | .mstat d a => some (mkWord stamp 0xD6 1 0 d (lowT3 a 0 0 0 0 0 0))
  | .gpatch d a tag => some (mkWord stamp 0xD7 0 0 d (lowTA a tag 0 0 0 0))
  | .trap code => some (mkWord stamp 0xE0 0 0 0 (lowTS 0 code 0))
  | .tret => some (mkWord stamp 0xE1 0 0 0 (lowT3 0 0 0 0 0 0 0))
  | .mtsr a sr => some (mkWord stamp 0xE2 0 0 0 (lowTS a sr 0))
  | .idle => some (mkWord stamp 0xE3 0 0 0 (lowT3 0 0 0 0 0 0 0))
  | .csave a => some (mkWord stamp 0xE4 0 0 0 (lowT3 a 0 0 0 0 0 0))
  | .cload a => some (mkWord stamp 0xE4 1 0 0 (lowT3 a 0 0 0 0 0 0))
  | .pginv a b scope => some (mkWord stamp 0xE5 0 0 0 (lowT3 a b 0 0 0 0 scope))
  | .pgfence scope => some (mkWord stamp 0xE6 0 0 0 (lowT3 0 0 0 0 0 0 scope))
  | .pgstat d a => some (mkWord stamp 0xE7 0 0 d (lowT3 a 0 0 0 0 0 0))
  | .snap ident scope => some (mkWord stamp 0xE8 0 0 0 (lowTS 0 ident scope))
  | .snapq d a => some (mkWord stamp 0xE9 0 0 d (lowT3 a 0 0 0 0 0 0))
  | .snapw a => some (mkWord stamp 0xEA 0 0 0 (lowT3 a 0 0 0 0 0 0))
  | .rollb a => some (mkWord stamp 0xEB 0 0 0 (lowT3 a 0 0 0 0 0 0))
  | .rkset a b => some (mkWord stamp 0xEC 0 0 0 (lowT3 a b 0 0 0 0 0))
  | .rkget d a => some (mkWord stamp 0xEC 1 0 d (lowT3 a 0 0 0 0 0 0))
  | .resultWriteback _ => none
  | .regionResume _ _ _ => none
  | .phaseStart _ _ _ => none
  | .phaseEnd _ _ _ => none
  | .stall _ _ _ => none
  | .scheduledTokenArrival _ _ => none
  | .ringWindowWrite _ _ => none
  | .creditArrival _ _ => none
  | .chunkGrant _ _ => none
  | .sourceRequest _ _ _ => none
  | .dramReply _ => none
  | .gatherIndexTake _ _ _ => none
  | .scatterAddUpdate _ _ _ => none
  | .sinkWrite _ _ _ => none
  | .modeRequestArrival _ _ _ => none
  | .memoryActorQuiescent _ _ _ => none
  | .startPulse _ _ => none
  | .copyFiring _ _ _ => none
  | .copyCompletion _ _ _ => none
  | .bankAccess _ => none
  | .presenceReadServed _ => none
  | .generatorTakePattern _ _ => none
  | .joinSignalArrival _ _ _ _ => none
  | .releaseArrival _ _ _ _ => none
  | .controlTokenArrival _ _ => none
  | .orderTokenArrival _ _ _ => none
  | .atomicPipelineTake _ => none
  | .farAtomicReply _ => none
  | .ramoInvocationArrival _ => none
  | .ramoReply _ => none
  | .colourDraw _ => none
  | .tensorFiringStart _ _ => none
  | .tensorFiringComplete _ _ => none
  | .ttagArrival _ => none
  | .treadRead _ => none
  | .tstoreStart _ => none
  | .tstoreComplete _ => none
  | .tacczEffect _ _ => none
  | .twloadValid _ => none
  | .systolicPassStart _ _ _ => none
  | .systolicPassComplete _ _ _ => none
  | .tileFaultReport _ => none
  | .trapEntry _ => none
  | .seqCompletionFault _ => none
  | .haltPoint _ => none
  | .saveComplete _ => none
  | .restorePulse _ => none
  | .drainComplete _ => none
  | .graphLoadComplete _ _ => none
  | .graphPlacement _ _ => none
  | .stagingComplete _ _ => none
  | .launchRecordRead _ => none
  | .recordRun _ _ => none
  | .recordKick _ _ => none
  | .recordMode _ _ => none
  | .recordNote _ _ => none
  | .recordUnload _ _ => none
  | .recordFinish _ _ => none
  | .thermalSample _ _ => none
  | .allowanceUpdate _ => none
  | .migrationRequest _ _ _ _ _ => none
  | .migrationAccept _ => none
  | .migrationPassEnd _ => none
  | .migrationCommit _ => none
  | .walkComplete _ => none
  | .testBankEnd _ _ _ => none
  | .readRetry _ _ => none
  | .configStoreError _ _ _ _ => none
  | .configReloadComplete _ _ _ _ => none
  | .snapOpenPoint _ => none
  | .sweeperVisit _ => none
  | .snapshotSealing _ => none
  | .sealComplete _ => none
  | .snapshotFail _ _ => none
  | .failureSweepEnd _ => none
  | .copyBackPage _ => none
  | .frameSend _ => none
  | .frameDelivery _ _ _ _ => none
  | .frameResend _ => none
  | .frameHoldTimeout _ => none
  | .boundaryFlitResend _ _ => none
  | .linkTrainingDone _ _ => none
  | .linkEnable _ => none
  | .carrierLoss _ => none
  | .rankLost _ => none
  | .pcycAdopt _ _ => none
  | .linkRetrain _ => none
  | .linkReset _ => none
  | .ctxcreate _ => none
  | .contextDestroy _ => none
  | .hostResume _ => none
  | .hostDoorbell _ _ _ => none
  | .causeFifoRead _ => none
  | .packageEventRead => none
  | .errorLogRead _ => none
  | .bar2Read _ _ => none
  | .bar2Write _ _ => none
  | .dccall _ _ => none
  | .dccallEntry _ => none
  | .pkgreset => none
  | .dcrestart _ => none
  | .registerWrite _ _ => none
  | .powerGood => none
  | .nearResultLate _ _ _ => none
  | .testBankStart _ _ => none
  | .pcieError _ => none
  | .dramAccessPerformed _ => none
  | .boundaryFlitCrossing _ _ => none

/-! The decoder. -/

/-- Checks 4 to 8 of R83 on a word whose row, with its fields, is `i`. P stands in formats T3 and TA only, and a nonzero
P in a row that does not use it fails check 7 (R82). A nonzero bit that the row does not use is a bit that encoding the
instruction again does not give (check 8). -/
def checkFields (place : Place) (w : Word) (i : Instr) (sh : Shape) : Option DecodeError :=
  let hasModes := sh.fmt == .t3 || sh.fmt == .ta
  if !(sh.place.allows place) then some .placeRefused
  else if foldOf w == 3 || (!sh.folds && foldOf w != 0) then some .foldRefused
  else if !i.namesOk then some .nameRange
  else if !(i.rangesOk place) || (sh.ftFixed.any fun v => (ftOf w).toNat != v)
      || (sh.xFixed.any fun v => (xOf w).toNat != v) then some .numberRange
  else if !i.modesOk || (hasModes && !sh.usesP && pOf w != 0) || (sh.rmZero && rmOf w != 0) then
    some .roundingOrPredicate
  else if encode (stampOf w) i != some w then some .reservedField
  else none

/-- The instruction a word holds at a place, or the first check of R83 that it fails. -/
noncomputable def decode (place : Place) (w : Word) : Except DecodeError Instr :=
  match rowsOf w (opOf w).toNat with
  | none => .error .opUnassigned
  | some rows =>
    match rows (subOf w).toNat with
    | none => .error .subUnassigned
    | some i =>
      match i.shape with
      | none => .error .subUnassigned
      | some sh =>
        match checkFields place w i sh with
        | some e => .error e
        | none => .ok i

/-- The instruction a word holds at a place, if it is one. -/
noncomputable def decode? (place : Place) (w : Word) : Option Instr :=
  match decode place w with
  | .ok i => some i
  | .error _ => none

/-- The instruction that the decoder reads from an instruction word numbered as spec/opcode_table.json numbers it (bit 0 the
least significant of the one 64-bit word; `nbits` is 64, or fewer where the bits above are zero): as sequencer code where it
may stand there, else as a timed-list entry. -/
noncomputable def decodeTableWord (nbits w : Nat) : Option Instr :=
  let word : Word := BitVec.ofNat 64 (w % 2 ^ nbits)
  match decode? .seq word with
  | some i => some i
  | none => decode? .list word

/-! Byte order: a word is stored little-endian (R71). -/

/-- The bytes of a number, least significant first. -/
def bytesLE (n : Nat) : Nat → List Byte
  | 0 => []
  | k + 1 => BitVec.ofNat 8 n :: bytesLE (n / 256) k

/-- The number whose bytes, least significant first, these are. -/
def natOfBytesLE : List Byte → Nat
  | [] => 0
  | b :: bs => b.toNat + 256 * natOfBytesLE bs

/-- The instruction in eight bytes at increasing addresses. -/
noncomputable def decodeBytes (place : Place) (bs : List Byte) : Except DecodeError Instr :=
  decode place (BitVec.ofNat 64 (natOfBytesLE bs))

end Sys2Proof
end

