-- ==== Sys2Proof/Config.lean ====
section
/-! DEFINITION. What the spec leaves open: constants without a body. Nothing in Lean can evaluate one, so a statement proved
about the model holds whatever its value (log 2, log 14). Each is applied to the counter `freeCount` of the state, which every
use advances, so that two uses are two values. -/

namespace Sys2Proof

/-- A duration the spec gives no figure for, in cycles: the dynamic plane, DRAM replies, walks, loading, staging, sweeps,
saves, training (log 2). -/
opaque Config.freeDelay : Nat → Nat

/-- A measured quantity the spec gives no figure for: the energy of a period in microjoules (log 14). -/
opaque Config.freeMeasure : Nat → Nat

/-- A choice the spec leaves open (log 2). -/
opaque Config.freeChoice : Nat → Bool

/-- Contents that the spec leaves to the part: the part's own words of a save area and of a cellar (log 11, log 12). -/
opaque Config.freeWord : Nat → Word

/-- The 64 bytes behind the header of a management or cellar item, whose layout is the part's own (R501, log 9). -/
opaque Config.freeItem : Nat → BitVec 512

end Sys2Proof
end

