-- ==== Sys2Proof/Machine/Data.lean ====
section
/-! DEFINITION. The kinds of data that the state is made of: sparse tables, tokens, pending results, arcs, tiles, memory
tiles, sequencers, regions, graphs and their images, contexts, translation engines, links and dies. Each structure's default
value is what an object that is not listed holds: the value after reset. -/

namespace Sys2Proof.Machine

/-- A sparse table: keys strictly rising. What an unlisted key holds is said where the table is used. -/
abbrev Map (α : Type) := List (Nat × α)

/-- Bytes of a memory: keys are addresses; no entry holds 0x00, which is what an unlisted byte reads as (log 1). -/
abbrev Memory := List Host.Cell

/-! ## Tokens (R150, R151) -/

/-- The kinds of token. -/
inductive TokKind where
  | data | punct | mode | snap | drain | order | ctrl
  deriving DecidableEq, Repr

/-- A token: its header fields and its payload. -/
structure Token where
  kind : TokKind := .data
  tag : Nat := 0
  colour : Nat := 0
  fmt : Nat := 0
  lseq : Nat := 0
  payload : Payload := 0
  deriving DecidableEq, Repr

/-- Is it counted, and delivered to `pop` (R151)? CTRL tokens stand only in the windows of copy-bound ports. -/
def Token.isItem (t : Token) : Bool := t.kind == .data || t.kind == .ctrl

/-- Is it a marker that a beat passes over (R152)? -/
def Token.isPassing (t : Token) : Bool := t.kind == .punct || t.kind == .snap

/-- Is it a marker that stays until the start pulse or the drain (R152)? -/
def Token.isStopping (t : Token) : Bool := t.kind == .mode || t.kind == .drain

/-! ## Register results (R97 to R101, R276) -/

/-- Constants of one modulus set: 16 lanes of 64 bits each (R303). -/
structure ModSet where
  q : BitVec 1024 := 0
  k : BitVec 1024 := 0
  w : BitVec 1024 := 0
  deriving DecidableEq, Repr

/-- What a pending result writes when it is due. A vector or predicate result writes the bits of its mask. -/
inductive Result where
  | scalar (r : Nat) (val : Word)
  | vector (r : Nat) (mask val : Vec)
  | pred (r : Nat) (mask val : Pred)
  | modset (n : Nat) (val : ModSet)
  /-- `STATUS.MODERR` becomes 1 (R306). -/
  | moderr
  /-- `COLOUR` of an actor, read from the next cycle (R141). -/
  | colour (actor : Nat) (val : Nat)
  /-- The pattern of `agset` for a generator (R182). -/
  | pattern (mtile gen : Nat) (desc : BitVec 256)
  deriving DecidableEq, Repr

/-- A result on its way: the advancing cycles left (R99) and its place in issue order (R100). `op` names the access that
still has to bring the value (R175); the value then is not yet there. -/
structure Pending where
  left : Nat
  order : Nat
  res : Result
  op : Option Nat := none
  /-- The first package cycle in which the value is there: a read of an operand that was repeated makes it late (R374). -/
  ready : Nat := 0
  deriving DecidableEq, Repr

/-- What the first beat of an entry reads for all its beats (R65, R135, R305). -/
structure Capture where
  scalar : Word := 0
  scalar2 : Word := 0
  scalar3 : Word := 0
  pred : Pred := 0
  /-- Predicate operands named in fields A and B. -/
  predA : Pred := 0
  predB : Pred := 0
  sets : Map ModSet := []
  ctr0 : Nat := 0
  ctr1 : Nat := 0
  ctr2 : Nat := 0
  key : Nat := 0
  deriving DecidableEq, Repr

/-! ## Who issues -/

/-- An issuing unit: the compute tile at a position (die * 256 + 16 y + x) or the control unit of a number (R63). -/
inductive UnitId where
  | tile (t : Nat)
  | seq (n : Nat)
  deriving DecidableEq, Repr

/-- The entry or instruction that is being executed: which unit, which graph, which actor, its stamp and beat. -/
structure Cur where
  unit : UnitId := .seq 396
  ctx : Nat := 0
  slot : Nat := 0
  /-- The owning actor: its kernel id (R130). -/
  actor : Nat := 0
  seg : Nat := 0
  entry : Nat := 0
  /-- The placed stamp (R112), or the issue delay. -/
  stamp : Nat := 0
  beat : Nat := 0
  /-- The issue count of R63. -/
  count : Nat := 0
  /-- What beat 0 read; in beat 0 itself, what is read now. -/
  cap : Option Capture := none
  /-- Its place in the issue order of its tile (R100, R276). -/
  order : Nat := 0
  deriving DecidableEq, Repr

/-- An entry between beats (R135, R138). -/
structure Between where
  instr : Instr
  cur : Cur
  deriving DecidableEq, Repr

/-! ## Order channels (R227 to R229) -/

/-- An order channel: I, C, the completed operations beyond C, and the `ordj` captures with their ports and colours. -/
structure OrdChan where
  issued : Nat := 0
  upto : Nat := 0
  done : List Nat := []
  joins : List (Nat × Nat × Nat) := []
  deriving DecidableEq, Repr

/-! ## Compute tiles -/

/-- One stored entry of a timed list: its word, relocated, and the kernel id of its owner. -/
structure Entry where
  word : Word
  owner : Nat
  deriving DecidableEq, Repr

/-- One half of a list store: whose list it is, its entries and the segment table (R132). -/
structure ListStore where
  ctx : Nat
  slot : Nat
  mode : Nat
  list : Nat
  entries : List Entry
  /-- Index of the first entry of each segment, and the number of its entries. -/
  table : List (Nat × Nat)
  deriving DecidableEq, Repr

/-- A data port of the tile with its rate monitor (R145, R164). -/
structure Port where
  /-- The arc tag the port is bound to. -/
  arc : Option Nat := none
  /-- The kernel id of the actor that owns it, and its number there. -/
  owner : Nat := 0
  own : Nat := 0
  rate : List Nat := []
  count : Nat := 0
  first : Option Nat := none
  mix : Bool := false
  /-- Tokens of the first colour, saturating at 255 (R167). -/
  same : Nat := 0
  /-- The punctuation bit of an input port (R223). -/
  ps : Bool := false
  deriving DecidableEq, Repr

/-- What a control port is bound to (R211). -/
inductive CtrlLink where
  | none
  /-- Member `m` of join `j` of the graph in `slot`. -/
  | join (slot j m : Nat)
  /-- The producer end of the control arc `tag`. -/
  | prod (tag : Nat)
  /-- The consumer end of the control arc `tag`. -/
  | cons (tag : Nat)
  deriving DecidableEq, Repr

/-- A control port: its link and the releases or tokens in its window (R213, R214). -/
structure CtrlPort where
  link : CtrlLink := .none
  held : Nat := 0
  /-- Tokens beyond 255 wait in the network (R213). -/
  waiting : Nat := 0
  /-- Releases that a rollback still discards (R411). -/
  skip : Nat := 0
  deriving DecidableEq, Repr

/-- States of an operation slot (R323). -/
inductive SlotState where
  | free | defined | armed
  deriving DecidableEq, Repr

/-- An operation slot of the tensor unit (R316, R323, R324). -/
structure TSlot where
  state : SlotState := .free
  cfg : BitVec 32 := 0
  aAddr : Nat := 0
  bAddr : Nat := 0
  acc : Nat := 0
  flags : Nat := 0
  curA : Nat := 0
  curB : Nat := 0
  /-- The entry of the last `tarm` (R336): segment, entry, stamp. -/
  armedBy : Nat × Nat × Nat := (0, 0, 0)
  deriving DecidableEq, Repr

/-- A firing in flight with its own capture (R323): slot, configuration, flags, the near addresses of its buffers, the
accumulator, and the near words that it has read so far, by their keys (R329). -/
structure Firing where
  ts : Nat
  cfg : BitVec 32
  flags : Nat
  a : Nat
  b : Nat
  acc : Nat
  got : Map Nat := []
  deriving DecidableEq, Repr

/-- States of an accumulator (R326). -/
inductive AccState where
  | empty | open | closed
  deriving DecidableEq, Repr

/-- An accumulator tile: state, firings started and done, kind, shape and the 40-bit words (key 64 i + j, unlisted 0). -/
structure Acc where
  state : AccState := .empty
  started : Nat := 0
  done : Nat := 0
  /-- 0 FA40, 1 I40. -/
  kind : Nat := 0
  m : Nat := 0
  n : Nat := 0
  ch : Nat := 0
  cells : Map (BitVec 40) := []
  deriving DecidableEq, Repr

/-- The weight store of the systolic array (R316, R343): operand code, elements (key 64 k + j) and scales (key 64 g + j). -/
structure Weights where
  valid : Bool := false
  fmt : Nat := 0
  cells : Map (BitVec 16) := []
  scales : Map (BitVec 8) := []
  deriving DecidableEq, Repr

/-- A `twload` under way (R343): near address, `CFG`, the near words read so far, and whether its 80 cycles have passed: it then waits for the
passes in flight in its group. -/
structure Loading where
  addr : Nat
  cfg : BitVec 32
  got : Map Nat := []
  complete : Bool := false
  deriving DecidableEq, Repr

/-- A queued `tstore` (R333). -/
structure TStore where
  addr : Nat
  acc : Nat
  ft : Nat
  rm : Nat
  issued : Nat
  seg : Nat
  entry : Nat
  stamp : Nat
  /-- The cycle in which it started. -/
  started : Option Nat := none
  deriving DecidableEq, Repr

/-- A pending tensor setting (R325): it takes effect in the package cycle after its issue. -/
inductive TSetting where
  | cfg (word : BitVec 32)
  | define (ts : Nat) (slot : TSlot)
  | arm (ts : Nat) (seg entry stamp : Nat)
  | disarm (ts : Nat)
  deriving DecidableEq, Repr

/-- The tensor unit of a tile. -/
structure Tensor where
  cfg : BitVec 32 := 0
  slots : Map TSlot := []
  accs : Map Acc := []
  weights : Weights := {}
  /-- First cycle in which the array may start another firing. -/
  busyUntil : Nat := 0
  /-- Firings in flight, in the order of their starts. -/
  firings : List Firing := []
  queue : List TStore := []
  settings : List TSetting := []
  /-- `taccz` waiting for their accumulators, with their cycles of issue. -/
  zeroing : List (Nat × Nat) := []
  /-- `twload` instructions under way, oldest first (R343). -/
  loading : List Loading := []
  deriving DecidableEq, Repr

/-- A fault report kept by a tile (R356): code, `TINFO` and `TWHERE`; for a class I fault the entry it names, and for a
class C fault the refused access (R352). -/
structure Report where
  code : Nat
  info : Word
  loc : Word
  entry : Option Nat := none
  op : Option Nat := none
  /-- The boundary at which it is raised: the cycle that begins there (R361). -/
  since : Nat := 0
  deriving DecidableEq, Repr

/-- A compute tile. -/
structure Tile where
  s : Map Word := []
  v : Map Vec := []
  p : Map Pred := []
  q : Map ModSet := []
  moderr : Bool := false
  pend : List Pending := []
  between : List Between := []
  /-- Next place in issue order, and that of the entry whose results are being delivered (R100, R276). -/
  order : Nat := 0
  issuing : Nat := 0
  active : Option ListStore := none
  shadow : Option ListStore := none
  /-- The entry index within the segment (R26). -/
  pos : Nat := 0
  lb : Map Nat := []
  le : Map Nat := []
  lc : Map Nat := []
  /-- Issues of each entry since `FIRES` last changed (R63). -/
  counts : Map Nat := []
  inPorts : Map Port := []
  outPorts : Map Port := []
  cx : Map CtrlPort := []
  oc : Map OrdChan := []
  tensor : Tensor := {}
  reports : List Report := []
  /-- Cycles by which a repeated read makes the results of the next entry late (R374), and the SRC and ADDR of what it reads with a lasting
  error: a register, or a token (R375, R376). -/
  slow : Nat := 0
  badReg : Option (Nat × Nat) := none
  /-- The region the tile serves, as a key of `State.regions`. -/
  region : Option Nat := none
  deriving DecidableEq, Repr

/-! ## Memory tiles -/

/-- Partition modes (R172). -/
inductive PartMode where
  | ordinary | tileStore | lineBuffer | fifo | presence
  deriving DecidableEq, Repr

/-- A partition: granules of 64 KiB, its mode, and for a buffered tile store its buffers and their tags. -/
structure Partition where
  base : Nat
  granules : Nat
  mode : PartMode
  buffers : Nat := 0
  full : List Bool := []
  /-- The graph that owns it: context and slot. -/
  ctx : Nat := 0
  slot : Nat := 0
  grp : Nat := 0
  deriving DecidableEq, Repr

/-- An address generator: its descriptor, its indices and the patterns it is to take (R181, R182). -/
structure Generator where
  desc : BitVec 256 := 0
  j0 : Nat := 0
  j1 : Nat := 0
  j2 : Nat := 0
  /-- The cycle of the last issue, the local indices of the tiles that issued in it with their accesses, and the indices before
  it: the issues of one cycle advance the generator in the order of R176 (R183). -/
  at_ : Nat := 0
  takers : List (Nat × Nat) := []
  from_ : Nat × Nat × Nat := (0, 0, 0)
  next : List (BitVec 256) := []
  deriving DecidableEq, Repr

/-- A memory tile. Its bytes and presence bits stand in `State.near` and `State.present`. -/
structure MemTile where
  parts : List Partition := []
  gens : Map Generator := []
  /-- Banks that have served an access in the cycle `busyAt` (R176). -/
  busyAt : Nat := 0
  busyBanks : List Nat := []
  deriving DecidableEq, Repr

/-! ## Accesses under way -/

/-- What an access under way is. -/
inductive OpKind where
  /-- Near loads and stores of 1 or 32 words (R174). -/
  | nearLoad
  | nearStore (val : Vec)
  /-- Presence accesses (R178 to R180). -/
  | presLoad
  | presStore (val : Vec)
  | presClear
  /-- The descriptor read of `agset` (R182). -/
  | takePattern (gen : Nat)
  /-- A `ttag` (R331). -/
  | tag (full : Bool)
  /-- An atomic near or far: SUB, operands, and whether it answers (R233, R234). -/
  | atomic (sub : Nat) (b c : BitVec 32) (answers : Bool)
  /-- A remote atomic on its way over a link, and its reply (R443, R444). -/
  | remote (sub : Nat) (b c : BitVec 32) (rank link : Nat)
  /-- A colour draw of `spawn` with its payload and spawn arc (R255). -/
  | colour (arc : Nat) (val : Payload)
  /-- A `tread` (R332). -/
  | tensorRead (acc row : Nat)
  /-- A `tstat` of a slot or an accumulator (R335). -/
  | tensorStat (slot : Bool) (n : Nat)
  /-- A `tstore` refused at its start, or stopped by a lasting error (R333, R375). -/
  | tstore (acc ft rm : Nat)
  /-- The operation of an entry, a firing and a `twload` that a lasting error stopped (R375): the entry with the
  registers of its tile at its issue, the firing or the `twload`, each with SRC and ADDR of R376. -/
  | entry (instr : Instr) (src at_ : Nat) (regs : Tile)
  | firing (f : Firing) (src at_ : Nat)
  | loading (l : Loading) (at_ : Nat)
  /-- DRAM accesses of a sequencer (R113). -/
  | dramLoad (bytes : Nat) (signed : Bool)
  | dramStore (bytes : Nat) (val : Word)
  /-- A table walk for a virtual address (R386); the stream is the issuing unit, or an engine. -/
  | walk
  /-- A DRAM read of a memory-actor engine: actor and token number (R189). -/
  | engineRead (ma token : Nat)
  deriving DecidableEq, Repr

/-- Who waits for a walk or an engine's access (R386). -/
inductive Stream where
  | seq (n : Nat)
  | memActor (slot ma : Nat)
  | copy (slot tpl : Nat)
  /-- The submission ring of a context, read through die 0 (R263). -/
  | ring
  deriving DecidableEq, Repr

/-- An access under way: who issued it, where it goes, which register waits for it, and which order channel it reports to. -/
structure Op where
  kind : OpKind
  cur : Cur := {}
  stream : Stream := .seq 396
  ctx : Nat := 0
  /-- Memory tile position, for accesses to near space; the die, for a walk. -/
  mtile : Nat := 0
  /-- Near offset, virtual address of a walk, or physical address. -/
  addr : Nat := 0
  va : Nat := 0
  /-- Number of words, and those not yet served by their banks. -/
  words : Nat := 1
  left : List Nat := []
  /-- What a load has read so far, 64 bits a word. -/
  got : Vec := 0
  /-- The cycle of issue. -/
  issued : Nat := 0
  /-- An access of an address generator (R176), and the cycle in which a far atomic has reached its pipeline (R234). -/
  gen : Bool := false
  entered : Option Nat := none
  /-- The destination register, if any. -/
  dst : Option Nat := none
  /-- Order channel plus 1, 0 for none, and the operation's number on it. -/
  chan : Nat := 0
  seqn : Nat := 0
  /-- Performed; the value is usable from the cycle `usable` on. -/
  served : Bool := false
  usable : Nat := 0
  /-- Cycles that a repeated read adds to it (R374). -/
  slow : Nat := 0
  /-- Polarity of the context at issue: the marker bit M of R412 says whether it is the polarity in force. -/
  pol : Bool := false
  /-- It was issued in a handler (R500). -/
  inTrap : Bool := false
  /-- Refused, and waiting for a `tret` (R352, R500). -/
  refused : Bool := false
  /-- The address of a sequencer's `ramo` (R441). -/
  pc : Word := 0
  deriving DecidableEq, Repr

end Sys2Proof.Machine
end

