-- ==== Sys2Proof/Machine/GraphData.lean ====
section
/-! DEFINITION. The graph image as the loader reads it (R92 to R94, R247), and the objects that a graph becomes: arcs,
regions, memory actors, copy templates, joins, groups. The byte form of an image is not in the spec: an image stands at a
virtual address of a context as this structured value (log 4). -/

namespace Sys2Proof.Machine

/-! ## The image -/

/-- An end of a declared arc (R92, R93, R94, R211). -/
inductive End where
  /-- Written `-`. -/
  | none
  /-- Port of a kernel, by declaration index. -/
  | actor (k port : Nat)
  /-- Port of a memory actor. -/
  | mem (m port : Nat)
  /-- Control port of a kernel. -/
  | actorCx (k port : Nat)
  /-- Control port of a `.seq`. -/
  | seqCx (q port : Nat)
  /-- A copy template, or the dispatcher, as the consumer of a queue. -/
  | template (c : Nat)
  | dispatcher
  deriving DecidableEq, Repr

/-- A declared port: its number, the format tags it accepts and its detour arc (R92, R153). -/
structure PortDecl where
  num : Nat
  tags : List Nat := []
  detour : Option Nat := none
  deriving DecidableEq, Repr

/-- A `.kernel` block. -/
structure KernelDecl where
  ins : List PortDecl := []
  outs : List PortDecl := []
  cxs : List Nat := []
  /-- Bytes of its cupboard (R92). -/
  cupboard : Nat := 0
  deriving DecidableEq, Repr

/-- A declared arc (R93). -/
structure ArcDecl where
  src : End
  dst : End
  init : Nat := 0
  delay : Nat := 0
  elastic : Bool := false
  tag : Option Nat := none
  queue : Bool := false
  control : Bool := false
  slots : Nat := 1
  /-- Recorded ring capacity (R159). -/
  cap : Nat := 1
  deriving DecidableEq, Repr

/-- Kinds of memory actor (R94). -/
inductive MAKind where
  | source | sink | gather | scatterAdd
  deriving DecidableEq, Repr

/-- A `.memactor` (R94). -/
structure MADecl where
  kind : MAKind
  base : Nat
  lead : Nat := 1
  fmt : Nat := 0
  counts : List Nat := []
  strides : List Int := []
  rowbytes : Nat := 0
  rows : Nat := 0
  /-- Format of `op`: 0 I32, 1 F32, 2 BF16. -/
  op : Nat := 0
  ordered : Bool := false
  /-- Every key of its kind is there and none of another kind (R94). -/
  keysOk : Bool := true
  deriving DecidableEq, Repr

/-- A `.copy` template. Endpoints are 64-bit values (R185). -/
structure CopyDecl where
  queue : Nat
  src : Nat
  dst : Nat
  words : Nat
  actor : Nat
  port : Nat
  /-- The kernel whose cupboard address is added to an endpoint (R146). -/
  srcState : Option Nat := none
  dstState : Option Nat := none
  deriving DecidableEq, Repr

/-- A `.group`. -/
structure GroupDecl where
  parent : Option Nat
  /-- A parent that is not declared. -/
  badParent : Bool := false
  lists : List Nat
  deriving DecidableEq, Repr

/-- What the loader writes into a list word at placement (R248). -/
inductive Reloc where
  | none
  /-- The tag of an arc, by declaration index. -/
  | tag (arc : Nat)
  /-- The scope of a group; none for `*`. -/
  | scope (grp : Option Nat)
  /-- The near address of the cupboard of a kernel, of the ring window of an arc, or of the partition of a row of the partition
  table, added to IMM26 or IMM32. -/
  | near (k : Nat)
  | window (arc : Nat)
  | part (row : Nat)
  /-- The tile's number of the owner's port of this number (R76). -/
  | port (p : Nat)
  deriving DecidableEq, Repr

/-- A list word with its owner, by kernel id. -/
structure WordDecl where
  word : Word
  owner : Nat
  reloc : Reloc := .none
  deriving DecidableEq, Repr

/-- A `.list` of a mode: the logical tile it belongs to, its actors and its segments. -/
structure ListDecl where
  tile : Nat
  actors : List Nat
  segs : List (List WordDecl)
  deriving DecidableEq, Repr

/-- A `.rate` line. -/
structure RateDecl where
  /-- Declared for a memory actor rather than a kernel. -/
  mem : Bool := false
  actor : Nat
  out : Bool
  port : Nat
  /-- It names a control port. -/
  ctrl : Bool := false
  vals : List Nat
  deriving DecidableEq, Repr

/-- A `.region` of a mode: its lists, watchdog limit and declared energy per period (R207, R266). -/
structure RegionDecl where
  lists : List Nat
  wdog : Nat := 3125
  energy : Nat := 0
  deriving DecidableEq, Repr

/-- A `.mode`. -/
structure ModeDecl where
  phases : List Nat
  rates : List RateDecl
  regions : List RegionDecl
  lists : List ListDecl
  fallback : Option Nat := none
  deriving DecidableEq, Repr

/-- A row of the partition table (R320, R467). -/
structure PartDecl where
  tile : Nat
  addr : Nat
  granules : Nat
  mode : PartMode
  buffers : Nat := 0
  deriving DecidableEq, Repr

/-- Initial data: at a near address of a list's quad, or in DRAM at the virtual address that the image gives it. -/
structure DataDecl where
  near : Option Nat
  addr : Nat
  bytes : List Byte
  deriving DecidableEq, Repr

/-- A `.seq`: its group and its code, at the virtual address where the loader put it. -/
structure SeqDecl where
  grp : Nat
  va : Nat
  code : List Word
  relocs : List (Nat × Reloc) := []
  deriving DecidableEq, Repr

/-- A declaration of an image's source: a kernel, memory actor, arc, copy template, join, group or mode by its index, or a list by mode and
index. -/
inductive Decl where
  | kernel (k : Nat)
  | mem (m : Nat)
  | arc (a : Nat)
  | copy (c : Nat)
  | join (j : Nat)
  | group (g : Nat)
  | mode (n : Nat)
  | list (n i : Nat)
  deriving DecidableEq, Repr

/-- A graph image (R92). Lists are logical tiles, by declaration index; `places` gives each its offset. -/
structure Image where
  parses : Bool := true
  /-- Bytes that it takes in its context's address space. -/
  bytes : Nat := 1
  kernels : List KernelDecl := []
  arcs : List ArcDecl := []
  mems : List MADecl := []
  copies : List CopyDecl := []
  joins : List (List End) := []
  groups : List GroupDecl := []
  tiles : Nat := 0
  places : List (Option (Int × Int)) := []
  modes : List (Option ModeDecl) := []
  parts : List PartDecl := []
  data : List DataDecl := []
  seqs : List SeqDecl := []
  /-- The package, by rank, on which each root group stands, where it is not this one (R449). -/
  ranks : List (Nat × Nat) := []
  /-- The declarations in the order of the source, which the image keeps (R247); those that it does not list stand first. -/
  order : List Decl := []
  deriving DecidableEq, Repr

/-! ## Arcs -/

/-- States of an arc (R156). -/
inductive ArcState where
  | declared | bound | active | marked | released
  deriving DecidableEq, Repr

/-- Kinds of arc (R155). -/
inductive ArcKind where
  | slot | ring | queue | control
  deriving DecidableEq, Repr

/-- An end of an arc, placed. -/
inductive PlacedEnd where
  | none
  /-- Port of a compute tile. -/
  | tile (t port : Nat)
  /-- Memory actor of the arc's graph. -/
  | mem (m port : Nat)
  /-- Copy template of the arc's graph. -/
  | copy (c : Nat)
  /-- Control port of a sequencer. -/
  | seq (n port : Nat)
  /-- Control port of a compute tile. -/
  | tileCx (t port : Nat)
  | dispatcher
  /-- A root group on another package, by rank. -/
  | remote (rank : Nat)
  deriving DecidableEq, Repr

/-- A token of a slot-scheduled arc on its way: the links of the route that it has passed, the cycle in which it reaches the next
router or the consumer, and whether it waits at the router's lane entry (R204, R205). -/
structure Flight where
  leg : Nat
  due : Nat
  waits : Bool := false
  deriving DecidableEq, Repr

/-- An arc of a context: the key is ctx * 4096 + tag. -/
structure Arc where
  state : ArcState := .declared
  kind : ArcKind := .ring
  slot : Nat := 0
  /-- Declaration index in the image; for a join's member link, none. -/
  decl : Option Nat := none
  src : PlacedEnd := .none
  dst : PlacedEnd := .none
  cap : Nat := 0
  /-- The memory tile that holds the window (R159). -/
  home : Option Nat := none
  /-- Where its first slot lies there (R159), and since when the oldest token finds a bank busy (R176). -/
  base : Nat := 0
  blocked : Option Nat := none
  /-- Window, staging or queue, head first. -/
  window : List Token := []
  /-- Written in this cycle, and visible from the next (R159). -/
  fresh : List Token := []
  /-- Tokens that wait at the window's entry behind a detoured one (R154). -/
  entry : List Token := []
  /-- Tokens on the way, oldest first. -/
  transit : List Token := []
  /-- On a slot-scheduled arc: where each of them is. -/
  flights : List Flight := []
  /-- Tokens sent (R160). -/
  sent : Nat := 0
  /-- Tokens and markers that have left the head or were refused (R160). -/
  read : Nat := 0
  /-- The read pointer last published and seen by the producer. -/
  seen : Nat := 0
  /-- Publications on the way, oldest first. -/
  pubs : List Nat := []
  /-- Chunks borrowed, oldest first, each as the read pointer that shows its slots consumed (R162); the number still asked for. -/
  chunkEnds : List Nat := []
  asked : Nat := 0
  /-- Slots of the chunks that it has given back (R162). -/
  lent : Nat := 0
  /-- Tokens a rollback still discards at the entry (R428), and their number as it was when the SNAP marker of the snapshot in progress
  entered (R410). -/
  overdraw : Nat := 0
  overdrawAt : Nat := 0
  /-- The snapshot is recording the channel (R410). -/
  recording : Bool := false
  recorded : List Token := []
  /-- The snapshot whose SNAP marker counts: a marker carries the identifier in its payload. -/
  snapId : Nat := 0
  /-- Its SNAP marker has been removed, and the DATA and PUNCT tokens removed since (R410). -/
  snapped : Bool := false
  after : Nat := 0
  /-- Lanes of the links of its route in the mode in force: (link key, lane) (R204). -/
  lanes : List (Nat × Nat) := []
  /-- Link sequence numbers (R436). -/
  lseqOut : Nat := 0
  lseqIn : Nat := 0
  /-- 2hB + 24bB of the way on the other package, as that package has told it (R435). -/
  farWay : Option Nat := none
  deriving DecidableEq, Repr

/-! ## Regions -/

/-- Why a region does not advance. -/
inductive FreezeWhy where
  | inputShort | outputShort | popWait | pushWait | nearLate | presenceWait | chunkRefused
  deriving DecidableEq, Repr

/-- The number of R208. -/
def FreezeWhy.code : FreezeWhy → Nat
  | .inputShort => 0
  | .outputShort => 1
  | .popWait => 2
  | .pushWait => 3
  | .nearLate => 4
  | .presenceWait => 5
  | .chunkRefused => 6

/-- What a region waits for: the reason, the tile, port, tag and entry that the watchdog reports (R208). -/
structure Waiting where
  why : FreezeWhy
  port : Nat := 0
  tag : Nat := 0
  tile : Nat := 0
  seg : Nat := 0
  entry : Nat := 0
  stamp : Nat := 0
  deriving DecidableEq, Repr

/-- A resident region. The key is (ctx * 256 + slot) * 2048 + region number. `rstate` is RSTATE (R207). -/
structure Region where
  cyc : Nat := 0
  phase : Nat := 0
  rstate : Nat := 7
  wcnt : Nat := 0
  wdog : Nat := 3125
  mode : Nat := 0
  /-- Compute tiles of the region. -/
  tiles : List Nat := []
  phases : List Nat := []
  waiting : Option Waiting := none
  /-- In the phase (false: at its start, held or stretching). -/
  inPhase : Bool := false
  /-- The rate check of this phase end has been reported (R165). -/
  rateDone : Bool := false
  stretch : Nat := 0
  stretchLeft : Nat := 0
  /-- Phases ended since the start pulse. -/
  ended : Nat := 0
  /-- Declared and measured energy per period in microjoules (R266). -/
  energy : Nat := 0
  measured : List Nat := []
  /-- Its configuration has been reloaded for a token on the wrong lane (R205), and a reload is under way. -/
  reloads : Nat := 0
  reloading : Bool := false
  /-- The check of R435 has passed since the start or restore pulse. -/
  checked : Bool := false
  /-- Entries dropped by `tret` with SKIP (R359): tile and entry. -/
  dropped : List (Nat × Nat) := []
  /-- Refused accesses that `tret` reissues in the first advancing cycle (R352). -/
  reissue : List Nat := []
  deriving DecidableEq, Repr

/-! ## Engines and joins of a graph -/

/-- A memory actor, placed or not (R188 to R193, R252, R260). -/
structure MemActor where
  bound : Bool := false
  /-- The memory-actor engine that it has: die * 24 + n (R15, R188). -/
  engine : Option Nat := none
  base : Nat := 0
  patched : Option Nat := none
  /-- Position in the pattern: next token to request, and to deliver or write. -/
  next : Nat := 0
  tokens : Nat := 0
  range : Bool := false
  pagewait : Bool := false
  /-- The address whose translation failed last (R388). -/
  faultVa : Nat := 0
  /-- It has stopped at a read that ended in MEMERR, until its `tret` (R375); the cycle before which a repeated read of an update delays
  it (R374). -/
  held : Bool := false
  pause : Nat := 0
  quiescent : Bool := false
  /-- Source: the token number after which the marker stands. -/
  lastToken : Option Nat := none
  marked : Bool := false
  /-- Tokens requested and not yet delivered: token number, colour and, once the reply is there, its payload. -/
  fetching : List (Nat × Nat × Option Payload) := []
  /-- Gather and scatter-add: indices of the index token in hand, its colour, and the row token within the index. -/
  indices : List Int := []
  colour : Nat := 0
  row : Nat := 0
  /-- Row additions accepted and not yet performed: address, row and marker bit (R191, R412). -/
  updates : List (Nat × Payload × Bool) := []
  /-- The first of them waits for its translation or for a `tret`, and is tried again before any other (R386, R388). -/
  retry : Bool := false
  /-- `next` at the last start pulse. -/
  startAt : Nat := 0
  /-- Source: the token number before which the SNAP marker stands (R407). -/
  snapAt : Option Nat := none
  /-- Position that a snapshot recorded (R409). -/
  snapPos : Option Nat := none
  deriving DecidableEq, Repr

/-- A copy template (R185 to R187, R258). -/
structure Template where
  armed : Bool := false
  /-- It has been armed as declared, at the first staging of a mode that uses its bound actor (R258); the copy engine beside which
  its queue stands: die * 4 + n (R15, R184). -/
  staged : Bool := false
  engine : Option Nat := none
  src : Nat := 0
  dst : Nat := 0
  words : Nat := 0
  /-- The firing in progress: colour, offset and the words landed before the page span in hand. -/
  firing : Option (Nat × Nat × Nat) := none
  /-- The end of the span whose endpoints are translated (R390); the words of it not yet read, in runs that lie in one 64-byte line of
  the source, as first word and number; the words read and not yet landed, as index and value (R185, R242). -/
  span : Nat := 0
  unread : List (Nat × Nat) := []
  hand : List (Nat × Nat) := []
  /-- Its endpoints and length, taken when it fired. -/
  fsrc : Nat := 0
  fdst : Nat := 0
  fwords : Nat := 0
  /-- The firing token lies behind the marker in its queue (R412). -/
  fmark : Bool := true
  /-- The number of the firing token on its queue. -/
  ftoken : Nat := 0
  /-- A SNAP marker has reached the head of the queue and is not yet forwarded (R409). -/
  snapDue : Bool := false
  pagewait : Bool := false
  faultVa : Nat := 0
  /-- The first cycle in which it goes on behind a repeated read (R374). -/
  pause : Nat := 0
  /-- It waits for the `tret` of a report that is no translation fault: a refused firing, or a read that ended in MEMERR (R187, R375). -/
  held : Bool := false
  stopped : Bool := false
  marked : Bool := false
  quiescent : Bool := false
  deriving DecidableEq, Repr

/-- States of a join (R216). -/
inductive JoinState where
  | declared | bound | armed | released
  deriving DecidableEq, Repr

/-- A join element: the link tag, signal count, held signals of each member, and the tile position of the element. -/
structure Join where
  state : JoinState := .declared
  tags : List Nat := []
  counts : List Nat := []
  heldSigs : List Nat := []
  elem : Nat := 0
  /-- Cycle of the last firing: at most one in a cycle (R215). -/
  firedAt : Option Nat := none
  /-- Signals sent and releases removed since it was armed, by member (R411). -/
  sent : List Nat := []
  removed : List Nat := []
  /-- What a rollback leaves it: signal counts, and releases owed to each member, negative ones to discard (R411). -/
  restore : Option (List Nat × List Int) := none
  deriving DecidableEq, Repr

/-- States of a list (R131). FAULTED is read off its region (RSTATE 3); a RETIRED list is gone. -/
inductive ListState where
  | loaded | placed | shadowed | active | quiescent
  deriving DecidableEq, Repr

/-- States of a group (R200). -/
inductive GroupState where
  | unbound | bound | staged | running | draining | quiescent | faulted | frozen | saved
  deriving DecidableEq, Repr

/-- A systolic pass in flight (R344, R345) with what it took at its start: slot and configuration; of each tile of column 0 the near
address of its A buffer and the flags of its slot; the accumulator of each bottom tile. `age` counts its advancing cycles, and
`rows` holds the rows of A that have entered, by 64 ρ + m: raw elements and scale bytes. -/
structure Pass where
  ts : Nat
  cfg : BitVec 32
  bufs : List Nat := []
  flags : List Nat := []
  accs : List Nat := []
  age : Nat := 0
  rows : Map (List Nat × List Nat) := []
  deriving DecidableEq, Repr

/-- A root group: its state, its origin, its quads and its systolic bit. While it is QUIESCENT, FAULTED or FROZEN, `state` is the
state that R200 calls prior: `groupState` reads those three off its context, regions, lists and arcs. -/
structure Group where
  state : GroupState := .unbound
  /-- Translation in package coordinates (R198). -/
  dx : Int := 0
  dy : Int := 0
  /-- Quad numbers of the package (die * 32 + quad). -/
  quads : List Nat := []
  systolic : Bool := false
  /-- Passes in flight, oldest first; the pass that starts in this cycle; advancing cycles since the last start. -/
  passes : List Pass := []
  starting : Option Pass := none
  sincePass : Option Nat := none
  deriving DecidableEq, Repr

/-- States of a graph (R245), in the order of the STATE field of R260. -/
inductive GraphState where
  | loading | failed | loaded | waiting | staging | running | changing | draining | idle | saved
  deriving DecidableEq, Repr

/-- The number of R260. -/
def GraphState.code : GraphState → Nat
  | .loading => 0
  | .failed => 1
  | .loaded => 2
  | .waiting => 3
  | .staging => 4
  | .running => 5
  | .changing => 6
  | .draining => 7
  | .idle => 8
  | .saved => 9

/-- A graph in a slot of a context: the key is ctx * 256 + slot. -/
structure Graph where
  state : GraphState := .loading
  prior : GraphState := .loading
  handle : Nat := 0
  image : Image := {}
  /-- Where the image stands (R259), and the reservations of its memory tiles: the quad relative to the origin of the partition's
  group, the local memory tile, and the partition (R146, R172). -/
  va : Nat := 0
  layout : List (Int × Int × Nat × Partition) := []
  /-- Load status word (R246), and what the loader's check of the image found once it has ended: 0 where it passes (R247). -/
  load : Word := 0
  verdict : Option Word := none
  mode : Nat := 0
  target : Nat := 0
  /-- The latched SEED (R347). -/
  seed : Word := 0
  /-- The latched SEED is a rollback's, which the next start pulse keeps (R66, R427). -/
  keepSeed : Bool := false
  /-- Periods of region 0 since the last start pulse (R260), and since the graph was activated (R264). -/
  periods : Nat := 0
  ran : Nat := 0
  /-- Measured energy of the last 64 periods of each region, by mode * 2048 + number (R266). -/
  measured : Map (List Nat) := []
  /-- Arc tags, in the order of `image.arcs`. -/
  tags : List Nat := []
  /-- Groups, in the order of `image.groups`; subgroups share their root's state. -/
  groups : List Group := []
  /-- Tile positions of the logical tiles, once placed. -/
  placed : List Nat := []
  /-- Near addresses of the cupboards, by kernel: memory tile (local index) and offset. -/
  cupboards : List Nat := []
  /-- Near addresses of the ring windows: arc declaration and address (R159). -/
  windows : List (Nat × Nat) := []
  cupZero : Bool := true
  mems : List MemActor := []
  copies : List Template := []
  joins : List Join := []
  /-- State of each list: key mode * 2048 + logical tile. -/
  lists : Map ListState := []
  /-- Shadowed mode whose staging is complete, if any (R149). -/
  stagedMode : Option Nat := none
  everStaged : Bool := false
  /-- The lanes of its slot-scheduled arcs: arc declaration, mode, and link key and lane for every link of the route (R204). -/
  lanePlan : List (Nat × Nat × List (Nat × Nat)) := []
  /-- Other packages of the graph that have found their conditions for the next pulse met, by rank, with the cycle (R201, R442). -/
  peersReady : Map Nat := []
  /-- The cycle in which they were met here, of which those packages have been told (R437, R442). -/
  noticed : Option Nat := none
  /-- Other packages that have refused their part of the graph's load (R478). -/
  peersRefuse : List Nat := []
  /-- A load that this package has issued (R478): whether the other packages have been asked, and those that hold the graph too. -/
  issued : Bool := false
  told : Bool := false
  peersTook : List Nat := []
  /-- Injection points whose request has arrived and that have not yet acted (R250). -/
  points : List Nat := []
  /-- Accesses of sequencer `spawn` instructions that issued before the request and have not yet placed their tokens (R250). -/
  owed : List Nat := []
  /-- Lists whose actors have all completed their last period and whose results are still due (R251, R338). -/
  closing : List Nat := []
  /-- Actors that have completed their last period, by kernel (R251). -/
  finished : List Nat := []
  /-- Lists that forward a marker in the cycle after the period end in this cycle (R251): logical tile and cycle. -/
  forwarding : List (Nat × Nat) := []
  /-- Actors that forward a SNAP marker so (R408): kernel and cycle. -/
  snapForward : List (Nat × Nat) := []
  draining : Bool := false
  residue : Bool := false
  /-- Launch data: priority, latency class, cycle it became ready, RUN record. -/
  prio : Nat := 0
  lat : Bool := false
  since : Nat := 0
  record : Option Nat := none
  count : Nat := 0
  saveAreaTold : Bool := false
  /-- Region status kept while the groups are bound: rewritten WDOG, by mode * 2048 + region number (R207, log 59). -/
  wdogs : Map Nat := []
  /-- Cupboards kept over a drain, by kernel (R245), and address generators, by group * 4096 + quad * 4 + memory tile (R371). -/
  kept : Map (List Byte) := []
  /-- Punctuation bits that a drain has kept or a rollback gives, by kernel, a bit for each input port (R371, R427, log 66). -/
  ps : Map Nat := []
  /-- Loop registers that a rollback gives the tiles, by logical tile: `lb`, `le`, `lc` (R26, R127). -/
  loops : Map (Map Nat × Map Nat × Map Nat) := []
  keptGens : Map (Map Generator) := []
  /-- `SQN` that a rollback gives the sequencers, by group * 1024 + quad (R427). -/
  sqns : Map Word := []
  deriving DecidableEq, Repr

/-- An actor of a graph: the key is (ctx * 256 + slot) * 65536 + kernel id (R129, R130). -/
structure Actor where
  fires : Nat := 0
  colour : Nat := 0
  /-- Marker point of the open snapshot reached (R408). -/
  recorded : Bool := false
  deriving DecidableEq, Repr

end Sys2Proof.Machine
end

