-- ==== Sys2Proof/Machine/CtxData.lean ====
section
/-! DEFINITION. Control units, contexts, snapshots and translation engines as data (R117 to R125, R347 to R372, R381 to R397,
R402 to R429). -/

namespace Sys2Proof.Machine

/-! ## Control units -/

/-- A hardware loop of a sequencer (R121). -/
structure SeqLoop where
  first : Word := 0
  final : Word := 0
  count : Nat := 0
  active : Bool := false
  deriving DecidableEq, Repr

/-- Which kind of trap a handler serves (R357, R359, R360). -/
inductive TrapKind where
  | none
  /-- An own fault of an instruction, at its address. -/
  | own
  /-- Raised by `trap`. -/
  | raised
  /-- A completion fault, with the refused access (R500). -/
  | completion (op : Nat)
  /-- The report of the tile at a position. -/
  | report (tile : Nat)
  /-- A trap that another unit forwarded: its number, and its context. -/
  | forwarded (seq ctx : Nat)
  /-- A report of a memory-actor or copy engine (R187, R375, R388). -/
  | engine (stream : Stream)
  deriving DecidableEq, Repr

/-- A trap that waits for a unit: cause, values, and what it is. -/
structure TrapReq where
  cause : Nat
  info : Word
  loc : Word
  kind : TrapKind
  /-- A double fault that was forwarded (R358, R360). -/
  dbl : Bool := false
  /-- The cycle in which it arrived (R356, R360). -/
  since : Nat := 0
  deriving DecidableEq, Repr

/-- What a sequencer does. -/
inductive RunState where
  /-- No code: a quad without a group, or a unit before its start. -/
  | off
  | run
  /-- Its access or fetch waits for a table walk (R115, R386). -/
  | xlat (op : Nat)
  | cwait (port : Nat)
  | idle
  | fence (scope : Nat)
  /-- `pgfence` and `pginv`: the walks, or the accesses, that they wait for, once the unit's earlier accesses are performed. -/
  | pgfence (walks : Option (List Nat))
  | pginv (accesses : Option (List Nat))
  | snapw (id : Nat)
  | csave (ctx : Nat)
  | cload (ctx : Nat)
  | rollb (ctx : Nat)
  | tsysto (slot grp : Nat) (on : Bool)
  | spawn (op : Nat)
  | ckick
  | carm
  /-- Forwarded a trap and stopped until it is released (R360). -/
  | forwarded (kind : TrapKind) (dbl : Bool)
  /-- Stopped by FATAL (R360), by its die's clock (R488) or by the end of called code. -/
  | stopped
  deriving DecidableEq, Repr

/-- What a unit that a trap interrupts goes on with: an instruction that has not issued is issued again, a `fence` that has
issued still holds the later instructions (R236, log 33). -/
def RunState.kept : RunState → RunState
  | .off => .off
  | .fence scope => .fence scope
  | _ => .run

/-- A control unit: quad sequencer 0 to 383, die controller 384 to 395, dispatcher 396 (R63). -/
structure Seq where
  s : Map Word := []
  pc : Word := 0
  tvec : Word := 0
  tepc : Word := 0
  tcause : Nat := 0
  tinfo : Word := 0
  twhere : Word := 0
  /-- `STATUS` bits (R355). -/
  fwd : Bool := false
  dbl : Bool := false
  cmpl : Bool := false
  skip : Bool := false
  trap : Bool := false
  sqn : Word := 0
  ctxid : Nat := 0
  loops : Map SeqLoop := []
  shadow : Map SeqLoop := []
  run : RunState := .off
  /-- What the unit does again when the trap that it handles or forwards is released: nothing without code to run, a `fence` that
  still waits, or its instructions. -/
  back : RunState := .run
  /-- The word fetched last: an instruction that waits is this one. -/
  word : Word := 0
  /-- Package cycle of the last issue, and the first cycle in which the next may issue (R21, R102). -/
  last : Nat := 0
  ready : Nat := 0
  /-- Registers that wait for an access: register, access (R102). -/
  waits : List (Nat × Nat) := []
  /-- Results with a fixed latency: register, first cycle that may read it (R97, R102). -/
  busy : List (Nat × Nat) := []
  cx : Map CtrlPort := []
  oc : Map OrdChan := []
  /-- Traps passed and not yet taken, in arrival order. -/
  queue : List TrapReq := []
  handling : TrapKind := .none
  /-- Completion faults that have returned (R500). -/
  refused : List TrapReq := []
  /-- In a save: the trap that it forwarded has been released meanwhile, with this SKIP, and it goes on when it is restored (R360). -/
  freed : Option Bool := none
  /-- `TEPC` at the entry of a LINK for a `ramo` behind which it has gone on, and where it goes on (R441). -/
  behind : Option (Word × Word) := none
  deriving DecidableEq, Repr

/-! ## Snapshots -/

/-- States of a snapshot (R405, R425). -/
inductive SnapState where
  | requested | opened | sealing | sealed | failed
  deriving DecidableEq, Repr

/-- The record of one actor in a snapshot (R408, R410). -/
structure ActorRec where
  slot : Nat
  kernel : Nat
  fires : Nat
  colour : Nat
  ps : Nat
  mode : Nat
  seed : Word
  cupboard : List Byte
  /-- The logical tile of its list in the mode in force, with the loop registers there (R26): `lb`, `le`, `lc`. -/
  tile : Option Nat := none
  loops : Map Nat × Map Nat × Map Nat := ([], [], [])
  deriving DecidableEq, Repr

/-- What a snapshot recorded of a graph that stands in it: slot, handle, mode, latched SEED, and the positions of its memory
actors (R408, R409). -/
structure GraphRec where
  slot : Nat
  handle : Nat
  mode : Nat
  seed : Word
  positions : List Nat
  /-- It had never been staged: its windows are still to be filled (R157). -/
  unstaged : Bool := false
  /-- It ran, or was saved in a run: its SEED is one that a start pulse or a restore has latched (R347). -/
  latched : Bool := false
  deriving DecidableEq, Repr

/-- A captured page (R413, R417): its address, size code, holder and cellar offset. -/
structure PageRec where
  vpn : Nat
  size : Nat
  holder : Nat
  coff : Nat
  deriving DecidableEq, Repr

/-- The cellar descriptor as the part read it (R402). -/
structure Cellar where
  csize : Nat := 0
  cbase : Nat := 0
  keep : Nat := 0
  place : Nat := 0
  peer : Nat := 0
  deriving DecidableEq, Repr

/-- A snapshot (R404 to R419). -/
structure Snap where
  id : Nat
  state : SnapState := .requested
  reason : Nat := 0
  dom : Bool := false
  pol : Bool := false
  seed : Word := 0
  prev : Nat := 0
  pages : List PageRec := []
  newCopies : Nat := 0
  actors : List ActorRec := []
  graphs : List GraphRec := []
  /-- Agents not yet past their marker point: slot * 2^20, plus the kernel id, 2^17 + a memory actor, or 2^18 + a template. -/
  pending : List Nat := []
  /-- Channel state: tag and tokens; overdraw: tag and count (R410). -/
  channels : Map (List Token) := []
  overdraw : Map Nat := []
  /-- Joins: signals sent and releases removed before the marker points: key slot * 65536 + join * 64 + member (R411). -/
  sigs : Map Nat := []
  rels : Map Nat := []
  /-- Draws less returns of each colour (R411). -/
  colours : Map Int := []
  sqns : Map Word := []
  /-- Where the inventory lies, once sealed. -/
  inventory : Nat := 0
  /-- Slots of graphs that are saved: their markers are injected at the restore pulse (R420). -/
  deferred : List Nat := []
  /-- Number of rollbacks of the context before it opened. -/
  epoch : Nat := 0
  /-- Other packages whose share of a domain snapshot satisfies R416, by rank (R421). -/
  peersDone : List Nat := []
  deriving DecidableEq, Repr

/-! ## Contexts -/

/-- States of a context (R349, R429). -/
inductive CtxState where
  | free | ready | active | halting | draining | saved | restoring | rolling | lost
  deriving DecidableEq, Repr

/-- A launch record that is not finished (R263, R264). -/
structure LaunchRec where
  id : Nat
  kind : Nat
  irq : Bool
  lat : Bool
  prio : Nat
  mode : Nat
  preds : Nat
  handle : Nat
  count : Nat
  arg : Word
  succ : List Nat
  /-- It has acted and has not finished. -/
  acting : Bool := false
  failed : Bool := false
  readySince : Nat := 0
  /-- KICK: the number of its token on the queue. -/
  place : Nat := 0
  deriving DecidableEq, Repr

/-- A record of a cause FIFO or of the package event FIFO (R455): four words. -/
structure EventRec where
  w0 : Word
  w1 : Word
  w2 : Word
  w3 : Word
  deriving DecidableEq, Repr

/-- What a HALT or DRAIN save holds: the objects of the context as they stood (R369, log 11). -/
structure Saved where
  drain : Bool := false
  /-- Slots of the graphs that the drain made IDLE or withdrew (R371). -/
  again : List Nat := []
  /-- The graphs saved, by slot, and their quads: slot, group, quad. -/
  graphs : Map Graph := []
  quads : List (Nat × Nat × Nat) := []
  tiles : Map Tile := []
  mtiles : Map MemTile := []
  near : Memory := []
  present : Map Bool := []
  seqs : Map Seq := []
  arcs : Map Arc := []
  regions : Map Region := []
  ops : Map Op := []
  deriving DecidableEq, Repr

/-- A context. -/
structure Ctx where
  state : CtxState := .free
  seed : Word := 0
  msiv : Nat := 0
  latok : Bool := false
  rbvec : Word := 0
  tvec : Word := 0
  saveSize : Nat := 0
  saveBase : Nat := 0
  ringBase : Nat := 0
  rlog : Nat := 0
  ptroot : Nat := 0
  /-- Use counts of the graph slots; unlisted 1 (R244). -/
  uses : Map Nat := []
  /-- Drawn colours (R254). -/
  drawn : List Nat := []
  /-- Colours returned in this cycle: free from the next (R254). -/
  returned : List Nat := []
  /-- Draws that wait for the dispatcher: accesses, in order. -/
  draws : List Nat := []
  /-- Host arc (R263): tokens waiting; records read; tail. -/
  hostArc : List Nat := []
  readPtr : Nat := 0
  tail : Nat := 0
  ringStop : Bool := false
  /-- The record that is read next cannot be read (R263); the next access of a save or restore to the save area fails (R372). -/
  ringBad : Bool := false
  saveBad : Bool := false
  /-- The answers that a `pginv` or `pgfence` with scope 5 waits for: sequencer and rank (R399, R400). -/
  awaited : List (Nat × Nat) := []
  /-- The next access of the cellar fails, and its retry too (R419, R427). -/
  cellarBad : Bool := false
  records : List LaunchRec := []
  /-- Decrements aimed at records not yet read: id and number. -/
  kept : Map Nat := []
  causes : List EventRec := []
  ovf : Bool := false
  lastCause : EventRec := { w0 := 0, w1 := 0, w2 := 0, w3 := 0 }
  /-- Polarity (R406). -/
  pol : Bool := false
  snaps : List Snap := []
  snapid : Nat := 0
  /-- Sweeper and failure sweep: next virtual address. -/
  sweep : Option Nat := none
  failSweep : Bool := false
  /-- The cellar in use, and the offsets and sizes taken in it. -/
  cellar : Cellar := {}
  cellarUsed : List (Nat × Nat) := []
  /-- Pre-emption in progress: the unit that waits, HALT or DRAIN, the halt cycle. -/
  haltAt : Option Nat := none
  drainSave : Bool := false
  /-- A restore over several packages: the cycle in which the saved graphs were placed again, those of the ranks that have told the same,
  and the common pulse (R442). -/
  placedAt : Option Nat := none
  peersPlaced : Map Nat := []
  pulseAt : Option Nat := none
  /-- Slots of the graphs that a DRAIN in progress drains or has withdrawn (R371). -/
  drained : List Nat := []
  saved : Option Saved := none
  /-- A rollback in progress: its identifier, and the pages still to copy back. -/
  rolling : Option Nat := none
  copyBack : List PageRec := []
  /-- Number of rollbacks, and the snapshot that the last one went back to: its copies are the pages' earlier ones (R428). -/
  epoch : Nat := 0
  base : Nat := 0
  /-- Sealed snapshots that lie in a cellar of an earlier context of this number (R498): the cellar, the offsets and sizes taken
  in it, and the snapshots. -/
  stored : Option (Cellar × List (Nat × Nat) × List Snap) := none
  deriving DecidableEq, Repr

/-! ## Translation -/

/-- A TLB entry (R385): context, virtual page start and size in bytes, and the leaf as captured. -/
structure TlbEntry where
  ctx : Nat
  va : Nat
  size : Nat
  leaf : Word
  /-- PA of the leaf entry. -/
  leafAt : Nat
  deriving DecidableEq, Repr

/-- A migration, park or unpark that an engine runs (R392, R393). -/
structure Migration where
  ctx : Nat
  kind : Nat
  entry : Nat
  dest : Nat
  result : Nat
  /-- The entry as captured when the request was accepted. -/
  leaf : Word := 0
  pass : Nat := 0
  /-- Lines written during the pass: the dirty filter. -/
  dirty : List Nat := []
  deriving DecidableEq, Repr

/-- The translation engine of a die. -/
structure Xlat where
  tlb : List TlbEntry := []
  /-- Requests not yet accepted, as written: four words each. -/
  queue : List (Nat × Nat × Nat × Nat) := []
  running : List Migration := []
  /-- The next node that it reads for a walk of the part's own streams cannot be read, not by its retry either (R385). -/
  nodeBad : Bool := false
  deriving DecidableEq, Repr

end Sys2Proof.Machine
end

