-- ==== Sys2Proof/Machine/State.lean ====
section
/-! DEFINITION. The state of one SX-1200 package (R14 to R20), its faults and refusals as outcomes of a step, and the state
after reset. All of it is plain data. Inputs of the outside world stand in it as a queue (log 3). -/

namespace Sys2Proof.Machine

/-! ## Outcomes other than a next state -/

/-- Why the machine stops. Every fault of the spec (R351) is a trap entry or a report to the host and so a next state;
these are stops of the model. -/
inductive Fault where
  /-- An instruction was given to `exec` with a register or name outside its class (R75): no word decodes to it. Raised by
  the step when a decoded instruction is not well-formed, which the decoder excludes. Safe. -/
  | notWellFormed
  deriving DecidableEq, Repr

/-- Why a step has no meaning. -/
inductive Refusal where
  /-- The instruction has no meaning in the model yet. Raised by the dispatch alone. Safe. -/
  | notModelled (mnemonic : String)
  /-- A sequencer-only instruction in a timed list: no such word ever reaches issue in a compute tile (R84), because the
  image that carries it fails to load. Raised by meanings that need a sequencer. Safe. -/
  | sequencerOnlyInList
  deriving DecidableEq, Repr

/-! ## What is left to do in a cycle -/

/-- A task of the current cycle. -/
inductive Task where
  /-- A step of the table happens. -/
  | event (i : Instr)
  /-- A unit's chance to act in this cycle: a region resolves its boundary (R361). -/
  | region (key : Nat)
  /-- A beat of an entry between beats (R135): the tile and the entry. -/
  | beat (tile entry : Nat)
  /-- The entry of a tile at the region's `CYC`. -/
  | entry (tile : Nat)
  /-- The end of a region's advancing cycle. -/
  | advance (key : Nat)
  /-- A control unit issues. -/
  | seq (n : Nat)
  /-- An engine or element looks at its conditions. -/
  | memActor (ctx slot ma : Nat)
  | copy (ctx slot tpl : Nat)
  | tensor (tile : Nat)
  /-- The firing rule of a tile (R327), and what a started `tstore` of it writes (R333). -/
  | fire (tile : Nat)
  | store (tile : Nat)
  | graph (ctx slot : Nat)
  | context (c : Nat)
  /-- The dispatcher turns to its ready list (R265). -/
  | dispatch
  | arc (key : Nat)
  | join (ctx slot j : Nat)
  | link (n : Nat)
  | die (d : Nat)
  /-- The oldest input from outside. -/
  | input
  deriving DecidableEq, Repr

/-! ## Links and dies -/

/-- States of a package link (R439). -/
inductive LinkState where
  | down | training | aligned | up | degraded | repointed
  deriving DecidableEq, Repr

/-- The number of R440. -/
def LinkState.code : LinkState → Nat
  | .down => 0
  | .training => 1
  | .aligned => 2
  | .up => 3
  | .degraded => 4
  | .repointed => 5

/-- A dynamic item of a frame (R437, R501): its class, and the fields the spec gives it. -/
structure DynItem where
  cls : Nat
  ctx : Nat := 0
  rank : Nat := 0
  itag : Nat := 0
  a : Word := 0
  b : BitVec 32 := 0
  c : BitVec 32 := 0
  sub : Nat := 0
  ft : Nat := 0
  /-- An invocation: the cycle in which it has reached the atomic pipeline of its target (R444). -/
  entered : Option Nat := none
  deriving DecidableEq, Repr

/-- A frame (R432): its number, its arc tokens and its dynamic items by slot, pointer publications (tag, pointer), and a NAK. -/
structure Frame where
  fseq : Nat
  tokens : List (Nat × Token) := []
  items : List (Nat × DynItem) := []
  pubs : List (Nat × Nat) := []
  nak : Option Nat := none
  /-- At the receiving port: the cycle since which it is held (R438). -/
  since : Nat := 0
  deriving DecidableEq, Repr

/-- A package link (R431 to R441). -/
structure Link where
  state : LinkState := .down
  peer : Nat := 0
  peerLink : Nat := 0
  f : Nat := 0
  trans : Nat := 0
  last : Nat := 0
  attempts : Nat := 0
  /-- The cycle in which the attempt under way began (R439). -/
  trainAt : Nat := 0
  fseqOut : Nat := 0
  /-- Next frame number expected. -/
  fseqIn : Nat := 0
  /-- The cycle from which frames depart, and numbers of frames that begin a round, sent and received (R432, R439). -/
  startAt : Nat := 0
  baseOut : Nat := 0
  baseIn : Nat := 0
  /-- The 500 bytes of the frame that departed last, the first in the low bits (R432). -/
  wire : Nat := 0
  /-- Owner of each traffic slot of a round: slot, arc key, for what is sent and for what is received (R433). -/
  owners : Map Nat := []
  ownersIn : Map Nat := []
  /-- Tokens on their way to the port or waiting there for their slot: arc key, cycle in which it reaches the port, token. -/
  out : List (Nat × Nat × Token) := []
  /-- Publications (arc key, cycle in which it reaches the port, pointer) and dynamic items waiting, and the context served last
  of each class (R437). -/
  pubsOut : List (Nat × Nat × Nat) := []
  itemsOut : List DynItem := []
  served : Map Nat := []
  /-- Dynamic items received and not yet acted on. -/
  itemsIn : List DynItem := []
  /-- Frames sent, kept for a resend: oldest first. -/
  sent : List Frame := []
  /-- Frames received behind a failed one, held; frame numbers failed and waiting for their resend. -/
  heldFrames : List Frame := []
  failedNums : List Nat := []
  naksDue : List Nat := []
  resends : List Nat := []
  /-- Frames whose NAK has departed and whose resend has not come. -/
  nakked : List Nat := []
  /-- Tokens received whose tag is not that of their slot's owner, and those behind them in the slot: they wait (R205). -/
  strays : List (Nat × Token) := []
  /-- Invocations of this package in flight over the link: accesses, by item tag. -/
  inFlight : List (Nat × Nat) := []
  /-- What the ports exchange at ALIGNED (R490): the peer's master number, whether its package is settled, by how much its
  `PCYC` + F is ahead of this package's, mod 2^64, and whether the two differ by exactly F. -/
  peerMaster : Nat := 0
  peerSettled : Bool := false
  peerAhead : Nat := 0
  inStep : Bool := false
  deriving DecidableEq, Repr

/-- An entry of an error log (R497). -/
structure LogEntry where
  w0 : Word
  w1 : Word
  deriving DecidableEq, Repr

/-- The management of a die (R485 to R498), its attic pool, and what its controller's call saved. -/
structure Die where
  step : Nat := 0
  ready : Bool := false
  stopped : Bool := false
  clockStopped : Bool := false
  tierOff : Bool := false
  hbmOff : Bool := false
  dieOff : Bool := false
  acap : Nat := 300
  allow : Nat := 300
  temp : Nat := 0
  trips : Nat := 0
  /-- What the 17 sensors read, in tenths of a degree, and the highest reading of each of the last five samples (R486). -/
  sensors : List Nat := []
  samples : List Nat := []
  sampledAt : Option Nat := none
  energy : Nat := 0
  log : List LogEntry := []
  lost : Nat := 0
  lastLog : Word := 0
  /-- Migration request words last written (R493). -/
  mreq : List Word := [0, 0, 0, 0]
  /-- Free attic chunks (R163). -/
  attic : Nat := 1024
  /-- The context that received chunks last (R163). -/
  turn : Nat := 63
  /-- Join elements taken (R214). -/
  joins : Nat := 0
  /-- DCCALL (R495). -/
  callVa : Word := 0
  callCtx : Nat := 0
  callCtxIn : Nat := 0
  busy : Bool := false
  inCall : Bool := false
  done : Bool := false
  callFault : Bool := false
  /-- The firmware's registers while code that the host called runs (R495). -/
  firmware : Seq := {}
  /-- Test banks under test, and what the requests held for them do, in arrival order (R396). -/
  testing : List Nat := []
  held : List Task := []
  deriving DecidableEq, Repr

/-! ## The state -/

/-- A management request of another package of a context (R437): an operation that acts on this package's part too. -/
inductive PeerRequest where
  /-- `gld` on a rank names groups here, with a handle and an image address (R478). -/
  | load (rank handle va : Nat)
  /-- A package does not take its part of a load that this one has issued (R478). -/
  | refuse (slot rank : Nat)
  /-- A package takes its part of it. -/
  | took (slot rank : Nat)
  /-- `gact`, `gdrain`, `gunld` and `setmode` there (R478). -/
  | activate (slot : Nat)
  | drain (slot : Nat)
  | unload (slot : Nat)
  | mode (slot m : Nat)
  /-- `csave` there, with its HALT point, and `cload` (R366, R370). -/
  | save (drain : Bool) (h : Nat)
  | restore
  /-- A domain snapshot with its open point, and the rollback to one with its HALT point (R406, R421, R427). -/
  | snap (ident h : Nat)
  | rollBack (ident h : Nat)
  /-- `pginv` there with scope 5, with the range, and `pgfence` (R398 to R400): the rank that asks, and its sequencer. -/
  | pginv (rank seq lo hi : Nat)
  | pgfence (rank seq : Nat)
  /-- The part of either that waits here for accesses, and the answer to the sequencer here that asked the rank. -/
  | pgWait (rank seq : Nat) (ids : List Nat)
  | pgDone (rank seq : Nat)
  /-- Bytes that the peer writes in a cellar that it holds in this package's memory (R403). -/
  | cellarWrite (pa : Nat) (bytes : List Byte)
  deriving DecidableEq, Repr

/-- What the outside of the package, or chance, does to it (log 3). -/
inductive Input where
  /-- A step of the table that begins outside. -/
  | event (i : Instr)
  /-- The die controller's handler writes WDOG of a region (R207). -/
  | wdog (ctx slot reg limit : Nat)
  /-- An error that the code corrects, in a read on a die: SRC and WHERE of its log entry (R373). -/
  | corrected (die src loc : Nat)
  /-- The next write of a context's save or restore fails, and its retry fails too (R372). -/
  | saveFails (ctx : Nat)
  /-- What the sensors of a die read, in tenths of a degree (R486). -/
  | sensors (die : Nat) (tenths : List Nat)
  /-- The host reads 8 bytes at an offset of BAR0 that has no step of its own (R452). -/
  | register (addr : Nat)
  /-- An entry of a router's lane table is no longer that of the image (R205): link, lane, and the owner that stands there. -/
  | laneUpset (link lane owner : Nat)
  /-- Another package of a graph has found its conditions for the next pulse met in a cycle (R442), and tells 2hB + 24bB of the arcs to and
  from it, by tag (R435). -/
  | peerReady (ctx slot rank cycle : Nat) (ways : List (Nat × Nat))
  /-- Another package of a context has placed its saved graphs again in a cycle (R442), and tells the same of their arcs. -/
  | peerPlaced (ctx rank cycle : Nat) (ways : List (Nat × Nat))
  /-- A request of another package for a context. -/
  | peer (ctx : Nat) (r : PeerRequest)
  /-- Another package's share of a domain snapshot satisfies R416 (R421). -/
  | shareDone (ctx rank : Nat)
  /-- The next record of a submission ring cannot be read, not by its retry either (R263). -/
  | recordUnread (ctx : Nat)
  /-- The next node that a die's engine reads for a walk of the loader, a save or restore, the sweeper or a cellar copy, or the page of
  an image behind it, cannot be read, not by its retry either (R385, R247). -/
  | nodeFails (die : Nat)
  /-- The pass of the oldest request that a die's engine runs meets a lasting memory error (R393). -/
  | passFails (die : Nat)
  /-- What stands in the cellar of a peer package that another package filled, as this one reads it (R449, log 12): the context here, the
  cellar, the offsets and sizes taken in it, its sealed snapshots, and its bytes by physical address there. -/
  | peerCellar (ctx : Nat) (cellar : Cellar) (used : List (Nat × Nat)) (snaps : List Snap) (cells : Memory)
  deriving DecidableEq, Repr

/-- One package. Tables are keyed as their comments say; an unlisted key holds the default of its structure. -/
structure State where
  /-- `PCYC` (R489). -/
  pcyc : Nat
  /-- Master number (R490) and PKGID straps (R484). -/
  master : Nat
  pkgid : Nat
  /-- Units that fail bring-up (R492): dies, stacks, whether a channel of the tier or the dispatcher fails, and links. -/
  badDies : List Nat
  badStacks : List Nat
  badTier : Bool
  badDispatcher : Bool
  badLinks : List Nat
  /-- Step 8 of bring-up has ended (R491). -/
  up : Bool
  /-- Physical memory, at 52-bit addresses (R378). -/
  mem : Memory
  /-- Memory of peer packages as this package wrote it: rank * 2^52 + PA (R403, log 9). -/
  peerMem : Memory
  /-- Near memory: memory tile position * 2^21 + offset (R172). -/
  near : Memory
  /-- Presence bits: memory tile position * 2^18 + word; unlisted clear (R178). -/
  present : Map Bool
  /-- Compute tiles and memory tiles, by position die * 256 + 16 y + x. -/
  tiles : Map Tile
  mtiles : Map MemTile
  /-- Control units, by number (R63). -/
  seqs : Map Seq
  /-- Contexts, by CTXID. -/
  ctxs : Map Ctx
  /-- Graphs, by ctx * 256 + slot. -/
  graphs : Map Graph
  /-- Actors, by (ctx * 256 + slot) * 65536 + kernel id. -/
  actors : Map Actor
  /-- Regions, by (ctx * 256 + slot) * 2048 + region number of the mode in force. -/
  regions : Map Region
  /-- Arcs, by ctx * 4096 + tag. The window of a port bound to a copy template, which no arc feeds, stands at
  (ctx + 64) * 4096 + the tag of the template's queue. -/
  arcs : Map Arc
  /-- Accesses under way, by identifier. -/
  ops : Map Op
  /-- Owner of each slot lane of each mesh link: link * 8 + lane, arc key (R204). -/
  lanes : Map Nat
  /-- Translation engines and management, by die. -/
  xlats : Map Xlat
  dies : Map Die
  links : Map Link
  /-- Rank table (R446) and since when a rank has had no link UP (R448). -/
  ranks : Map Word
  rankDown : Map Nat
  /-- Package registers and events (R453, R455). -/
  ctxresult : Word
  pkgvec : Nat
  events : List EventRec
  eventsOvf : Bool
  lastEvent : EventRec
  /-- MSI-X messages sent, oldest first. -/
  msix : List Nat
  /-- What the host last read (log 3). -/
  hostRead : List Byte
  /-- Traps forwarded to the host and not resumed: context, the unit that forwarded, and what the trap is (R360). -/
  hostTraps : List (Nat × Nat × TrapKind)
  /-- Graph images that stand in contexts' address spaces: context, address and image (log 4). -/
  images : List (Nat × Nat × Image)
  /-- The entry or instruction being executed. -/
  cur : Cur
  /-- Steps due at later cycles, in the order in which they were set (log 2). -/
  agenda : List (Nat × Instr)
  /-- Tasks left in this cycle. -/
  todo : List Task
  /-- Inputs from outside, oldest first (log 3). -/
  inputs : List Input
  /-- The cycle in which the dispatcher last read a record (R263). -/
  recordAt : Option Nat
  /-- Counter of free values and of access identifiers. -/
  freeCount : Nat
  opCount : Nat
  deriving DecidableEq, Repr

/-- The state after reset: power is good and bring-up is the first step (R491). Registers that the spec gives no reset value
hold the values of log 6, memory lists nothing (log 1), and nothing fails bring-up (log 5). -/
def State.reset : State where
  pcyc := 0
  master := 0
  pkgid := 0
  badDies := []
  badStacks := []
  badTier := false
  badDispatcher := false
  badLinks := []
  up := false
  mem := []
  peerMem := []
  near := []
  present := []
  tiles := []
  mtiles := []
  seqs := []
  ctxs := []
  graphs := []
  actors := []
  regions := []
  arcs := []
  ops := []
  lanes := []
  xlats := []
  dies := []
  links := []
  ranks := []
  rankDown := []
  ctxresult := 0
  pkgvec := 0
  events := []
  eventsOvf := false
  lastEvent := { w0 := 0, w1 := 0, w2 := 0, w3 := 0 }
  msix := []
  hostRead := []
  hostTraps := []
  images := []
  cur := {}
  agenda := []
  todo := [.event .powerGood]
  inputs := []
  recordAt := none
  freeCount := 0
  opCount := 0

end Sys2Proof.Machine
end

