-- ==== Sys2Proof/Machine/Ops.lean ====
section
/-! DEFINITION. The named operations over the state: sparse tables, memories, registers, results on their way, the advance of
a sequencer past an instruction, and taking an exception and returning from one. Every read and write of a register or a
memory in a meaning goes through here. -/

namespace Sys2Proof.Machine

/-- The outcome of a step of this machine. -/
abbrev StepResult := Host.Outcome State Fault Refusal

/-! ## Sparse tables -/

/-- The value listed at a key. -/
def mfind {α : Type} : Map α → Nat → Option α
  | [], _ => none
  | (k, v) :: m, i => if k = i then some v else mfind m i

/-- The value at a key, `d` where it is not listed. -/
def mget {α : Type} (d : α) (m : Map α) (i : Nat) : α := (mfind m i).getD d

/-- The table with `v` listed at key `i`. -/
def mset {α : Type} : Map α → Nat → α → Map α
  | [], i, v => [(i, v)]
  | (k, u) :: m, i, v =>
    if i < k then (i, v) :: (k, u) :: m
    else if i = k then (i, v) :: m
    else (k, u) :: mset m i v

/-- The table with nothing listed at key `i`. -/
def mdel {α : Type} : Map α → Nat → Map α
  | [], _ => []
  | (k, u) :: m, i => if k = i then mdel m i else (k, u) :: mdel m i

/-- The table that holds `v` at key `i`, where an unlisted key holds `d`: the canonical form lists no `d`. -/
def mput {α : Type} [DecidableEq α] (d : α) (m : Map α) (i : Nat) (v : α) : Map α :=
  if v = d then mdel m i else mset m i v

/-- Every key of the table is at least `lo`, and the keys rise strictly. -/
def mrising {α : Type} : Nat → Map α → Bool
  | _, [] => true
  | lo, (k, _) :: m => decide (lo ≤ k) && mrising (k + 1) m

/-! ## Memories -/

/-- What a byte that nothing has written reads as (log 1). -/
def blankByte : Byte := 0

/-- The canonical form of a memory: addresses strictly rising, no entry equal to what an unlisted address reads as. -/
def Memory.wf (m : Memory) : Bool := mrising 0 m && m.all fun c => c.2 != blankByte

/-- One byte. -/
def readByte (m : Memory) (a : Nat) : Byte := mget blankByte m a

/-- One byte written. -/
def writeByte (m : Memory) (a : Nat) (b : Byte) : Memory := mput blankByte m a b

/-- `n` bytes from `a`, least significant first, as a number (R5). -/
def readLE (m : Memory) (a : Nat) : Nat → Nat
  | 0 => 0
  | n + 1 => (readByte m a).toNat + 256 * readLE m (a + 1) n

/-- The low `n` bytes of a number written from `a`, least significant first. -/
def writeLE (m : Memory) (a : Nat) : Nat → Nat → Memory
  | 0, _ => m
  | n + 1, v => writeLE (writeByte m a (BitVec.ofNat 8 v)) (a + 1) n (v / 256)

/-- Bytes written from `a` upwards. -/
def writeBytes (m : Memory) (a : Nat) : List Byte → Memory
  | [] => m
  | b :: bs => writeBytes (writeByte m a b) (a + 1) bs

/-- `n` bytes from `a` upwards. -/
def readBytes (m : Memory) (a : Nat) : Nat → List Byte
  | 0 => []
  | n + 1 => readByte m a :: readBytes m (a + 1) n

/-! ## Objects of the state -/

namespace State

/-- The compute tile at a position. -/
def tile (s : State) (t : Nat) : Tile := mget {} s.tiles t
/-- The state with a compute tile replaced. -/
def setTile (s : State) (t : Nat) (x : Tile) : State := { s with tiles := mset s.tiles t x }
/-- The memory tile at a position. -/
def mtile (s : State) (t : Nat) : MemTile := mget {} s.mtiles t
/-- The state with a memory tile replaced. -/
def setMtile (s : State) (t : Nat) (x : MemTile) : State := { s with mtiles := mset s.mtiles t x }
/-- A control unit. -/
def seq (s : State) (n : Nat) : Seq := mget {} s.seqs n
/-- The state with a control unit replaced. -/
def setSeq (s : State) (n : Nat) (x : Seq) : State := { s with seqs := mset s.seqs n x }
/-- A context. -/
def ctx (s : State) (c : Nat) : Ctx := mget {} s.ctxs c
/-- The state with a context replaced. -/
def setCtx (s : State) (c : Nat) (x : Ctx) : State := { s with ctxs := mset s.ctxs c x }
/-- The key of a graph slot. -/
def graphKey (c g : Nat) : Nat := c * 256 + g
/-- The graph in a slot, if the slot is taken. -/
def graph? (s : State) (c g : Nat) : Option Graph := mfind s.graphs (graphKey c g)
/-- The state with a graph replaced. -/
def setGraph (s : State) (c g : Nat) (x : Graph) : State := { s with graphs := mset s.graphs (graphKey c g) x }
/-- The key of a region. -/
def regionKey (c g r : Nat) : Nat := graphKey c g * 2048 + r
/-- A region, by key. -/
def regionAt (s : State) (k : Nat) : Region := mget {} s.regions k
/-- The state with a region replaced. -/
def setRegion (s : State) (k : Nat) (x : Region) : State := { s with regions := mset s.regions k x }
/-- The key of an actor. -/
def actorKey (c g k : Nat) : Nat := graphKey c g * 65536 + k
/-- An actor, by key. -/
def actor (s : State) (k : Nat) : Actor := mget {} s.actors k
/-- The state with an actor replaced. -/
def setActor (s : State) (k : Nat) (x : Actor) : State := { s with actors := mset s.actors k x }
/-- The key of an arc. -/
def arcKey (c tag : Nat) : Nat := c * 4096 + tag
/-- An arc, by key. -/
def arc? (s : State) (k : Nat) : Option Arc := mfind s.arcs k
/-- The state with an arc replaced. -/
def setArc (s : State) (k : Nat) (x : Arc) : State := { s with arcs := mset s.arcs k x }
/-- The management of a die. -/
def die (s : State) (d : Nat) : Die := mget {} s.dies d
/-- The state with a die's management replaced. -/
def setDie (s : State) (d : Nat) (x : Die) : State := { s with dies := mset s.dies d x }
/-- The translation engine of a die. -/
def xlat (s : State) (d : Nat) : Xlat := mget {} s.xlats d
/-- The state with a translation engine replaced. -/
def setXlat (s : State) (d : Nat) (x : Xlat) : State := { s with xlats := mset s.xlats d x }
/-- A package link. -/
def link (s : State) (n : Nat) : Link := mget {} s.links n
/-- The state with a link replaced. -/
def setLink (s : State) (n : Nat) (x : Link) : State := { s with links := mset s.links n x }

end State

/-! ## Positions (R14 to R18, R63) -/

/-- The die of a tile position. -/
def dieOfPos (t : Nat) : Nat := t / 256
/-- Row and column of a tile position within its die. -/
def rowOfPos (t : Nat) : Nat := t / 16 % 16
/-- Column of a tile position within its die. -/
def colOfPos (t : Nat) : Nat := t % 16
/-- The position of column x and row y of a die. -/
def posOf (d x y : Nat) : Nat := d * 256 + y * 16 + x
/-- Is this position a compute tile (R16)? -/
def isComputePos (t : Nat) : Bool := t < 3072 && (rowOfPos t + colOfPos t) % 2 == 0
/-- Is this position a memory tile (R16)? -/
def isMemoryPos (t : Nat) : Bool := t < 3072 && (rowOfPos t + colOfPos t) % 2 == 1
/-- The quad of a position, counted over the package: die * 32 + n (R17). -/
def quadOfPos (t : Nat) : Nat := dieOfPos t * 32 + (rowOfPos t / 2) * 4 + colOfPos t / 4
/-- The local index of a compute or memory tile in its quad (R17). -/
def localOfPos (t : Nat) : Nat := 2 * (rowOfPos t % 2) + colOfPos t % 4 / 2
/-- The compute tile of local index i of a quad of the package (R17). -/
def computeOfQuad (q i : Nat) : Nat :=
  let d := q / 32
  let x0 := 4 * (q % 32 % 4)
  let y0 := 2 * (q % 32 / 4)
  posOf d (x0 + 2 * (i % 2) + i / 2) (y0 + i / 2)
/-- The memory tile of local index i of a quad of the package (R17). -/
def memoryOfQuad (q i : Nat) : Nat :=
  let d := q / 32
  let x0 := 4 * (q % 32 % 4)
  let y0 := 2 * (q % 32 / 4)
  posOf d (x0 + 2 * (i % 2) + (1 - i / 2)) (y0 + i / 2)
/-- The tile address of a position (R18). -/
def tileAddr (t : Nat) : Nat := t * 16
/-- The position that a tile address names, if it names one (R18). -/
def posOfAddr? (a : Nat) : Option Nat := if a % 16 = 0 ∧ a / 4096 < 12 then some (a / 16) else none

/-- Is this unit a quad sequencer? Quad sequencers are numbers 0 to 383, one for each quad (R63, log 7). -/
def isQuadSeq (n : Nat) : Bool := n < 384
/-- Is this unit a die controller? -/
def isDieCtl (n : Nat) : Bool := 384 ≤ n && n < 396
/-- The die a control unit stands on; the dispatcher acts through die 0 (R263). -/
def dieOfSeq (n : Nat) : Nat := if n < 384 then n / 32 else if n < 396 then n - 384 else 0

/-! ## The issuing unit -/

/-- The tile position of the issuing unit, if it is a tile. -/
def State.curTile (s : State) : Option Nat :=
  match s.cur.unit with
  | .tile t => some t
  | .seq _ => none

/-- A scalar register of a unit: `s0` reads 0 (R75, R95). -/
def regOf (m : Map Word) (r : Nat) : Word := if r = 0 then 0 else mget 0 m r

/-- A scalar register written: a write to `s0` is discarded (R75). -/
def setRegOf (m : Map Word) (r : Nat) (v : Word) : Map Word := if r = 0 then m else mput 0 m r v

/-- A scalar operand of the issuing unit. -/
def readS (s : State) (r : BitVec 6) : Word :=
  match s.cur.unit with
  | .tile t => regOf (s.tile t).s r.toNat
  | .seq n => regOf (s.seq n).s r.toNat

/-- A vector register of a tile. -/
def vecOf (x : Tile) (r : Nat) : Vec := mget 0 x.v r

/-- A vector operand of the issuing tile; sequencers have none (R177). -/
def readV (s : State) (r : BitVec 6) : Vec :=
  match s.cur.unit with
  | .tile t => vecOf (s.tile t) r.toNat
  | .seq _ => 0

/-- All 512 bits set. -/
def allTrue : Pred := BitVec.allOnes 512

/-- A predicate register of a tile: `p0` reads all-true (R270). -/
def predOf (x : Tile) (r : Nat) : Pred := if r = 0 then allTrue else mget 0 x.p r

/-- A predicate operand of the issuing tile. -/
def readP (s : State) (r : Nat) : Pred :=
  match s.cur.unit with
  | .tile t => predOf (s.tile t) r
  | .seq _ => allTrue

/-! ## Results on their way (R97 to R101, R276) -/

/-- A result in its place: behind those of its own entry and of the entries issued before. -/
def putPending (p : Pending) : List Pending → List Pending
  | [] => [p]
  | q :: l => if q.order ≤ p.order then q :: putPending p l else p :: q :: l

/-- A result of the entry being executed that becomes visible after `left` advancing cycles. Results stand in the issue order of their
entries, so that of two that reach one slot in one cycle the later-issued entry's is written last (R276). -/
def addPending (x : Tile) (left : Nat) (res : Result) (op : Option Nat := none) : Tile :=
  { x with pend := putPending { left := left, order := x.issuing, res := res, op := op } x.pend }

/-- What a due result writes into the registers of its tile. A colour is written by the region's step. -/
def applyResult (x : Tile) : Result → Tile
  | .scalar r v => { x with s := setRegOf x.s r v }
  | .vector r mask v => { x with v := mput 0 x.v r ((vecOf x r &&& ~~~mask) ||| (v &&& mask)) }
  | .pred r mask v => if r = 0 then x else { x with p := mput 0 x.p r ((mget 0 x.p r &&& ~~~mask) ||| (v &&& mask)) }
  | .modset n v => { x with q := mput {} x.q n v }
  | .moderr => { x with moderr := true }
  | .colour _ _ => x
  | .pattern _ _ _ => x

/-! ## Sequencers: the next instruction (R102, R117 to R124) -/

/-- A loop that a transfer to `target` leaves becomes inactive (R124). -/
def leaveLoops (ls : Map SeqLoop) (target : Word) : Map SeqLoop :=
  ls.map fun e => (e.1, if e.2.active && !(e.2.first.toNat ≤ target.toNat && target.toNat ≤ e.2.final.toNat) then
    { e.2 with active := false } else e.2)

/-- Evaluation of the loops whose end is `a`, in decreasing number below `n` (R123): the loops, and the address to return to
if one was taken. -/
def evalLoops (ls : Map SeqLoop) (a : Word) : Nat → Map SeqLoop × Option Word
  | 0 => (ls, none)
  | n + 1 =>
    let l := mget {} ls n
    if l.active && l.final == a then
      if 1 < l.count then (mset ls n { l with count := l.count - 1 }, some l.first)
      else evalLoops (mset ls n { l with count := 0, active := false }) a n
    else evalLoops ls a n

/-- A sequencer past an instruction that is no taken transfer: the loops are evaluated (R123), and the next instruction may
issue in the next cycle (R102). -/
def Seq.advance (q : Seq) (now : Nat) : Seq :=
  let r := evalLoops q.loops q.pc 4
  match r.2 with
  | some b => { q with pc := b, loops := leaveLoops r.1 b, last := now, ready := now + 1 }
  | none => { q with pc := q.pc + 8, loops := r.1, last := now, ready := now + 1 }

/-- A sequencer after a taken branch, call or jump: the next instruction issues 3 cycles later at the earliest (R102). -/
def Seq.jump (q : Seq) (now : Nat) (target : Word) : Seq :=
  { q with pc := target, loops := leaveLoops q.loops target, last := now, ready := now + 3 }

/-- The issuing sequencer changed by `f`. -/
def State.updSeq (s : State) (n : Nat) (f : Seq → Seq) : State := s.setSeq n (f (s.seq n))

/-- A register of a sequencer written with a fixed latency: an access under way to it no longer writes it (log 10). -/
def Seq.write (q : Seq) (r : Nat) (v : Word) (readyAt : Nat) : Seq :=
  { q with s := setRegOf q.s r v
           waits := q.waits.filter fun w => w.1 != r
           busy := (r, readyAt) :: q.busy.filter fun w => w.1 != r }

/-- The result `v` of an instruction with latency `lat` for register `d`: pending in a tile, written in a sequencer, which
goes on to its next instruction. -/
def finishScalar (lat : Nat) (d : BitVec 6) (v : Word) (s : State) : StepResult :=
  match s.cur.unit with
  | .tile t => .next (s.setTile t (addPending (s.tile t) lat (.scalar d.toNat v)))
  | .seq n => .next (s.updSeq n fun q => (q.write d.toNat v (s.pcyc + lat)).advance s.pcyc)

/-- An instruction whose completion the spec gives no time for: the next one issues after it (log 2). -/
def finishFree (n : Nat) (s : State) : StepResult :=
  .next { s.updSeq n (fun q => { q.advance s.pcyc with ready := s.pcyc + 1 + Config.freeDelay s.freeCount }) with freeCount := s.freeCount + 1 }

/-- An instruction that sets a register, interlocked, after a time that the spec does not give (log 2). -/
def finishOpen (n : Nat) (d : BitVec 6) (v : Word) (s : State) : StepResult :=
  .next { s.updSeq n (fun q => (q.write d.toNat v (s.pcyc + 1 + Config.freeDelay s.freeCount)).advance s.pcyc) with freeCount := s.freeCount + 1 }

/-- An instruction that stands in sequencer code only: no such word reaches issue in a compute tile (R84). -/
def onSeq (s : State) (f : Nat → StepResult) : StepResult :=
  match s.cur.unit with
  | .seq n => f n
  | .tile _ => .refused .sequencerOnlyInList

/-- An instruction without a register result is done. -/
def finish (s : State) : StepResult :=
  match s.cur.unit with
  | .tile _ => .next s
  | .seq n => .next (s.updSeq n fun q => q.advance s.pcyc)

/-! ## Steps set for later (log 2, log 3) -/

/-- A step is set for `delay` cycles from now. -/
def State.after (s : State) (delay : Nat) (i : Instr) : State := { s with agenda := s.agenda ++ [(s.pcyc + delay, i)] }

/-- A step is set for this cycle, behind the tasks already there. -/
def State.soon (s : State) (i : Instr) : State := { s with todo := s.todo ++ [.event i] }

/-- A step is set after a time that the spec leaves open: at least one cycle (log 2). -/
def State.later (s : State) (i : Instr) : State :=
  { s with agenda := s.agenda ++ [(s.pcyc + 1 + Config.freeDelay s.freeCount, i)], freeCount := s.freeCount + 1 }

/-- The first step of a kind that is set comes `d` cycles later, or not at all. -/
def State.delay (s : State) (d : Nat) (i : Instr) : State :=
  match s.agenda.findIdx? fun e => e.2 == i with
  | some k => { s with agenda := s.agenda.modify k fun e => (e.1 + d, e.2) }
  | none => s
def State.cancel (s : State) (i : Instr) : State :=
  match s.agenda.findIdx? fun e => e.2 == i with
  | some k => { s with agenda := s.agenda.eraseIdx k }
  | none => s

/-- An access is recorded under the next identifier. -/
def State.newOp (s : State) (o : Op) : State := { s with ops := mset s.ops s.opCount o, opCount := s.opCount + 1 }

/-- An access is forgotten. -/
def State.dropOp (s : State) (id : Nat) : State := { s with ops := mdel s.ops id }

/-! ## What the host is told (R351, R455) -/

/-- Word 0 of a cause record. -/
def causeWord (code : Nat) (ovf : Bool) (tcause id : Nat) : Word :=
  BitVec.ofNat 64 (code * 2 ^ 56 + bit ovf * 2 ^ 55 + tcause % 2 ^ 16 * 2 ^ 32 + id % 2 ^ 16 * 2 ^ 16)

/-- A record for a context's cause FIFO, with its MSI-X message; one that finds the FIFO full is dropped (R455). -/
def State.tellHost (s : State) (c code tcause id : Nat) (info loc : Word) : State :=
  let x := s.ctx c
  if 256 ≤ x.causes.length then s.setCtx c { x with ovf := true }
  else
    let s' := s.setCtx c { x with causes := x.causes ++ [{ w0 := causeWord code x.ovf tcause id, w1 := info, w2 := loc, w3 := 0 }]
                                  ovf := false }
    { s' with msix := s'.msix ++ [x.msiv] }

/-- A record for the package event FIFO (R455). -/
def State.tellPackage (s : State) (code tcause id : Nat) (info loc : Word) : State :=
  if 256 ≤ s.events.length then { s with eventsOvf := true }
  else
    { s with events := s.events ++ [{ w0 := causeWord code s.eventsOvf tcause id, w1 := info, w2 := loc, w3 := 0 }]
             eventsOvf := false
             msix := s.msix ++ [s.pkgvec] }

/-- A record for a cause FIFO whose `TWHERE`, and whose `TINFO` where none is given, no rule states: they are left open (log 2). -/
def State.tellOpen (s : State) (c code id : Nat) (info : Option Word) : State :=
  { s.tellHost c code 0 id (info.getD (Config.freeWord s.freeCount)) (Config.freeWord (s.freeCount + 1)) with freeCount := s.freeCount + 2 }

/-- The same for the package event FIFO. -/
def State.tellPackageOpen (s : State) (code id : Nat) (info : Option Word) : State :=
  { s.tellPackage code 0 id (info.getD (Config.freeWord s.freeCount)) (Config.freeWord (s.freeCount + 1)) with freeCount := s.freeCount + 2 }

/-- An entry for a die's error log (R496, R497): one that finds the log full is dropped and counted. -/
def State.logError (s : State) (d src kind place : Nat) : State :=
  let x := s.die d
  if 1024 ≤ x.log.length then s.setDie d { x with lost := x.lost + 1 }
  else
    let w0 := src % 16 * 2 ^ 60 + kind % 4 * 2 ^ 58 + min x.lost 1023 * 2 ^ 48 + place % 2 ^ 48
    s.setDie d { x with log := x.log ++ [{ w0 := BitVec.ofNat 64 w0, w1 := BitVec.ofNat 64 s.pcyc }], lost := 0 }

/-! ## `TWHERE` (R354) -/

/-- The package's domain rank: the entry of the rank table with SELF (R446). -/
def State.rank (s : State) : Nat :=
  match s.ranks.find? fun e => bitOf e.2.toNat 61 with
  | some e => e.1
  | none => 0

/-- Tile form. -/
def State.tileLoc (s : State) (t seg entry cyc : Nat) : Word :=
  BitVec.ofNat 64 (s.rank * 2 ^ 58 + tileAddr t * 2 ^ 42 + seg % 16 * 2 ^ 37 + entry % 8192 * 2 ^ 24 + cyc % 4096 * 2 ^ 12)

/-- Sequencer form. -/
def State.seqLoc (s : State) (n : Nat) : Word :=
  BitVec.ofNat 64 (s.rank * 2 ^ 58 + 2 ^ 41 + n % 512 * 2 ^ 32)

/-- `TWHERE` of the entry or instruction being executed. -/
def State.curLoc (s : State) : Word :=
  match s.cur.unit with
  | .tile t => s.tileLoc t s.cur.seg s.cur.entry s.cur.stamp
  | .seq n => s.seqLoc n

/-! ## Banks (R175, R176) -/

/-- The banks of a memory tile that have served an access in this cycle. -/
def busyBanks (s : State) (mt : Nat) : List Nat :=
  let x := s.mtile mt
  if x.busyAt = s.pcyc then x.busyBanks else []
/-- The bank of an offset. -/
def bankOf (o : Nat) : Nat := o / 8 % 256
/-- Banks marked as used in this cycle. -/
def useBanks (mt : Nat) (bs : List Nat) (s : State) : State :=
  s.setMtile mt { s.mtile mt with busyAt := s.pcyc, busyBanks := busyBanks s mt ++ bs }

/-! ## Codes (R351) -/

namespace Code

abbrev illegal := 0x01
abbrev align := 0x02
abbrev page := 0x03
abbrev memerr := 0x04
abbrev loop := 0x05
abbrev priv := 0x06
abbrev trap := 0x07
abbrev ctx := 0x08
abbrev rate := 0x10
abbrev format := 0x11
abbrev stall := 0x12
abbrev slot := 0x13
abbrev punct := 0x14
abbrev colour := 0x15
abbrev config := 0x16
abbrev nearRange := 0x20
abbrev part := 0x21
abbrev writeTwice := 0x22
abbrev scope := 0x23
abbrev order := 0x24
abbrev join := 0x25
abbrev tensor := 0x30
abbrev systolic := 0x31
abbrev graph := 0x40
abbrev copy := 0x41
abbrev nomap := 0x50
abbrev snap := 0x60
abbrev link := 0x70
abbrev delay := 0x71
abbrev rank := 0x72
abbrev residue := 0x80
abbrev launch := 0x81
abbrev saveArea := 0x82
abbrev lost := 0x83
abbrev fatal := 0x84
abbrev forward := 0x85
abbrev done := 0x86

end Code

/-! ## Taking an exception (R357 to R360) -/

/-- The place of a trap among those that reach a unit in one cycle: reports by local index (R356), forwards by sequencer number
(R360). -/
def TrapReq.place (r : TrapReq) : Nat :=
  match r.kind with
  | .report t => localOfPos t
  | .forwarded m _ => m
  | _ => 0

/-- A trap joins the ones that wait for a unit, in arrival order. -/
def insertTrap (r : TrapReq) : List TrapReq → List TrapReq
  | [] => [r]
  | q :: l => if r.since < q.since || (r.since = q.since && r.place < q.place) then r :: q :: l else q :: insertTrap r l

/-- A forward that reaches a die controller in `idle` ends it, in a handler too (R364). The delay of the next instruction counts from the
issue of the `idle` (R21). -/
def Seq.woken (q : Seq) (k : TrapKind) (now : Nat) : Seq :=
  match k, q.run with
  | .forwarded _ _, .idle => if q.trap then { q.advance q.last with run := .run, ready := now + 1 } else q
  | _, _ => q

/-- A trap is passed to a control unit (R356, R360). -/
def passTrap (n : Nat) (r : TrapReq) (s : State) : State :=
  s.updSeq n fun q => { q.woken r.kind s.pcyc with queue := insertTrap { r with since := s.pcyc } q.queue }

/-- Trap entry of R357: the pc to come back to, the loops and the cause are saved, and the handler runs 3 cycles later. The loop registers
read 0 in the handler until it arms a loop: R124 moves the loop state into the shadow and does not say what it leaves (DESIGN CHOICE,
log 48). -/
def trapEntry (n : Nat) (r : TrapReq) (resume : Word) (s : State) : State :=
  s.updSeq n fun q =>
    { q with tepc := resume
             shadow := q.loops
             loops := []
             tcause := r.cause
             tinfo := r.info
             twhere := r.loc
             trap := true
             skip := false
             fwd := match r.kind with
               | .forwarded _ _ => true
               | _ => false
             dbl := r.dbl
             cmpl := match r.kind with
               | .completion _ => true
               | _ => false
             handling := r.kind
             behind := none
             back := q.run.kept
             pc := q.tvec
             run := .run
             last := s.pcyc
             ready := s.pcyc + 3 }

/-- The context of a trap that a unit forwards to the host: of the quad sequencer from which it came, or the unit's own (R360,
log 34). -/
def trapCtx (n : Nat) (k : TrapKind) (s : State) : Nat :=
  match k with
  | .forwarded _ c => c
  | _ => (s.seq n).ctxid

/-- A unit forwards a trap (R360): a quad sequencer stops, and the trap waits for its die controller; a die controller or the
dispatcher tells the host and goes on. `resume` is where the unit comes back. -/
def forwardTrap (n : Nat) (r : TrapReq) (resume : Word) (s : State) : State :=
  if isQuadSeq n then
    let d := 384 + dieOfSeq n
    let s' := s.updSeq n fun q => { q with pc := resume, run := .forwarded r.kind r.dbl, last := s.pcyc, ready := s.pcyc + 1 }
    passTrap d { r with kind := .forwarded n (s.seq n).ctxid } s'
  else
    let c := trapCtx n r.kind s
    let s' := s.tellHost c Code.forward r.cause 0 r.info r.loc
    { s' with hostTraps := s'.hostTraps ++ [(c, n, r.kind)] }

/-- A double fault in a die controller or the dispatcher (R360): FATAL at the host, and the unit stops. -/
def fatal (n : Nat) (r : TrapReq) (s : State) : State :=
  let s' := s.tellPackage Code.fatal r.cause 0 r.info (s.seqLoc n)
  let s'' := s'.updSeq n fun q => { q with run := .stopped }
  if isDieCtl n then s''.setDie (n - 384) { s''.die (n - 384) with stopped := true } else s''

/-- Is a trap a fault of the code that a die controller runs for the host (R495)? -/
def faultOfCall (s : State) (n : Nat) (k : TrapKind) : Bool :=
  isDieCtl n && (s.die (n - 384)).inCall && match k with
    | .own => true
    | .raised => true
    | .completion _ => true
    | _ => false

/-- A trap enters a unit outside a handler: its handler, or the forward of R360 where `TVEC` is 0. Code that a die controller runs
for the host waits behind its forward: the host's resume ends the call (R495, log 32). -/
def takeTrap (n : Nat) (r : TrapReq) (resume : Word) (s : State) : State :=
  if (s.seq n).tvec = 0 then
    let next := if isQuadSeq n then resume else
      match r.kind with
      | .own => resume + 8
      | _ => resume
    let s' := forwardTrap n r next (s.updSeq n fun q =>
      { q with pc := next, back := q.run.kept, run := q.run.kept, last := s.pcyc, ready := s.pcyc + 1 })
    if faultOfCall s n r.kind then s'.updSeq n fun q => { q with run := .forwarded r.kind r.dbl } else s'
  else trapEntry n r resume s

/-- The fault `code` of the instruction at the pc of unit `n` (R357, R358): entry, or the forward of a double fault. -/
def ownFault (n code : Nat) (info : Word) (s : State) : State :=
  let q := s.seq n
  let r : TrapReq := { cause := code, info := info, loc := s.seqLoc n, kind := .own }
  if q.trap then
    let d := { r with dbl := true }
    if isQuadSeq n then forwardTrap n d q.pc s else fatal n d s
  else takeTrap n r q.pc s

/-- The place of a report among those of its tile at one boundary (R361): the region's fault; refused operations in the order of
their issue; RATE, that of a beat too, by OUT and PORT of its `TINFO`; entries. -/
def Report.rank (r : Report) : Nat × Nat :=
  if r.code = Code.rate then (2, bitsOf r.info.toNat 27 5)
  else if r.entry.isSome then (3, 0)
  else if r.code = Code.stall || r.code = Code.slot || r.code = Code.config || r.code = Code.delay then (0, 0)
  else (1, r.op.getD 0)

/-- Does a report stand before another one of its tile: by boundary, then in the order of R361? -/
def Report.before (r x : Report) : Bool :=
  r.since < x.since || (r.since = x.since && (r.rank.1 < x.rank.1 || (r.rank.1 = x.rank.1 && r.rank.2 < x.rank.2)))

/-- A report joins those of its tile. -/
def insertReport (r : Report) : List Report → List Report
  | [] => [r]
  | x :: l => if r.before x then r :: x :: l else x :: insertReport r l

/-- A tile fault (R352, R356): the tile keeps the report, its region freezes in RSTATE 3, and the tile passes the report on
when it is the first, once every report of the boundary is there (R361). -/
def tileReport (t : Nat) (r : Report) (s : State) : State :=
  let x := s.tile t
  let r := { r with since := max r.since s.pcyc }
  let s := s.setTile t { x with reports := insertReport r x.reports }
  let s := match x.region with
    | none => s
    | some k => s.setRegion k { s.regionAt k with rstate := 3, wcnt := 0 }
  if !x.reports.isEmpty then s
  else if r.since = s.pcyc then s.soon (.tileFaultReport t)
  else s.after 1 (.tileFaultReport t)

/-- The fault of the entry or instruction being executed: a report of its tile, or the own fault of its sequencer. -/
def raise (code : Nat) (info : Word) (s : State) : StepResult :=
  match s.cur.unit with
  | .tile t => .next (tileReport t { code := code, info := info, loc := s.curLoc, entry := some s.cur.entry } s)
  | .seq n => .next (ownFault n code info s)

/-- An instruction that stands in timed lists only: in sequencer code it fails check 3 and raises ILLEGAL (R83, R85). -/
def onTile (s : State) (f : Nat → StepResult) : StepResult :=
  match s.cur.unit with
  | .tile t => f t
  | .seq n => .next (ownFault n Code.illegal 3 s)

/-- Where a unit goes on at `tret` (R359): at `TEPC`, or behind the instruction there where the trap was its own fault and SKIP is set. Behind
a LINK whose `TEPC` the handler has left at the `ramo`, which alone is reissued, it goes on where it stood (R441). -/
def Seq.returnPc (q : Seq) : Word :=
  let own := match q.handling with
    | .own => true
    | _ => false
  if own && q.skip then q.tepc + 8
  else match q.behind with
    | some (at_, next) => if q.tepc = at_ then next else q.tepc
    | none => q.tepc

/-- The return of R359: the loops come back from the shadow, the handler is left, and the unit goes on. -/
def trapReturn (n : Nat) (s : State) : State :=
  s.updSeq n fun q =>
    { q with pc := q.returnPc
             behind := none
             loops := q.shadow
             shadow := []
             trap := false
             cmpl := false
             fwd := false
             dbl := false
             handling := .none
             run := q.back
             last := s.pcyc
             ready := s.pcyc + 1 }

end Sys2Proof.Machine
end

