-- ==== Sys2Proof/Machine/Operands.lean ====
section
/-! DEFINITION. Every form of operand: immediates, elements and slots of vector registers, the part of a register that a beat
reads and writes, what beat 0 captures, and the system registers of R77. -/

namespace Sys2Proof.Machine

/-! ## Immediates (R73) -/

/-- IMM26, sign-extended to 64 bits. -/
def simm26 (imm : BitVec 26) : Word := imm.signExtend 64

/-- IMM32, sign-extended to 64 bits (R110). -/
def simm32 (imm : BitVec 32) : Word := imm.signExtend 64

/-- TARGET: the address of the instruction plus 8 * TARGET. -/
def targetOf (pc : Word) (target : BitVec 26) : Word := pc + target.signExtend 64 * 8

/-! ## Elements (R42): element k of width w stands at bits w k .. w k + w - 1 -/

/-- Element `k` of width `w`, as a natural number. -/
def elem (w : Nat) (v : Nat) (k : Nat) : Nat := v / 2 ^ (w * k) % 2 ^ w

/-- The value whose element `k`, for k below `n`, is `f k`, at bits of elements `lo` upwards in steps of width `w`. -/
def packFrom (w : Nat) (f : Nat → Nat) : Nat → Nat → Nat
  | _, 0 => 0
  | k, n + 1 => f k % 2 ^ w + 2 ^ w * packFrom w f (k + 1) n

/-- The value whose element `k` is `f k`, for all k below `n`. -/
def pack (w n : Nat) (f : Nat → Nat) : Nat := packFrom w f 0 n

/-- A vector register from its elements of width `w`: there are 2048 / w (R269). -/
def vecOfElems (w : Nat) (f : Nat → Nat) : Vec := BitVec.ofNat 2048 (pack w (2048 / w) f)

/-- The number of elements of a register at width `w` (R269). -/
def elemCount (w : Nat) : Nat := 2048 / w

/-- The bits of the elements of width `w` for which `f` holds. -/
def maskOf (w : Nat) (f : Nat → Bool) : Vec := vecOfElems w fun k => if f k then 2 ^ w - 1 else 0

/-- Element width of an integer type or width code (R78). -/
def widthOfCode (ft : BitVec 3) : Nat :=
  match ft.toNat with
  | 0 => 32
  | 1 => 32
  | 2 => 16
  | 3 => 16
  | 4 => 8
  | 5 => 8
  | _ => 4

/-- Is an integer type code signed (R78)? -/
def signedCode (ft : BitVec 3) : Bool := ft.toNat % 2 == 0 && ft.toNat < 6

/-- Element width of a float tag of an arithmetic row: F32, BF16 or F16 (R43). -/
def widthOfTag (ft : BitVec 3) : Nat := if ft.toNat = 1 then 32 else 16

/-- Number of beats of a FOLD field (R71). -/
def beatsOf (fold : BitVec 2) : Nat :=
  match fold.toNat with
  | 0 => 1
  | 1 => 2
  | _ => 4

/-- Does slot `i` of 64 belong to beat `b` of `f` (R135)? -/
def inBeat (f b i : Nat) : Bool := 64 * b / f ≤ i && i < 64 * (b + 1) / f

/-- Does element `k` of width `w` belong to beat `b` of `f`? -/
def elemInBeat (w f b k : Nat) : Bool := inBeat f b (k * w / 32)

/-- Element `e` of 64 bits of a pair (R44, R309). -/
def pairElem (lo hi : Vec) (e : Nat) : Nat := elem 32 lo.toNat e + 2 ^ 32 * elem 32 hi.toNat e

/-- The even and the odd register of a pair from its 64 elements. -/
def pairOf (f : Nat → Nat) : Vec × Vec :=
  (vecOfElems 32 fun e => f e % 2 ^ 32, vecOfElems 32 fun e => f e / 2 ^ 32 % 2 ^ 32)

/-! ## What beat 0 reads (R63, R65, R135, R305) -/

/-- The graph slot in which a unit works: a tile's is that of its entry; a quad sequencer's is that of the group that holds
its quad. -/
def slotOfQuad (s : State) (n : Nat) : Option Nat :=
  let c := (s.seq n).ctxid
  (s.graphs.find? fun e => e.1 / 256 = c ∧ (e.2.groups.any fun g => g.quads.contains n)).map fun e => e.1 % 256

/-- The context that a unit works for: a quad sequencer's is that of its group, a die controller's and the dispatcher's the
one that `CTXID` selects (R350). -/
def curCtx (s : State) : Nat :=
  match s.cur.unit with
  | .tile _ => s.cur.ctx
  | .seq n => (s.seq n).ctxid

/-- The graph of the entry being executed, or of the sequencer's group. -/
def curSlot (s : State) : Option Nat :=
  match s.cur.unit with
  | .tile _ => some s.cur.slot
  | .seq n => slotOfQuad s n

/-- The key of the owning actor. -/
def curActor (s : State) : Nat := State.actorKey s.cur.ctx s.cur.slot s.cur.actor

/-- The three counter words and the key of R63 and R65. -/
def drawKey (s : State) : Nat × Nat × Nat × Nat :=
  match s.cur.unit with
  | .tile _ =>
    ((s.actor (curActor s)).fires % 2 ^ 32, s.cur.actor % 2 ^ 16 * 2 ^ 16 + s.cur.entry % 2 ^ 13,
      s.cur.seg % 16 * 2 ^ 28 + s.cur.count % 2 ^ 28,
      ((s.graph? s.cur.ctx s.cur.slot).map fun g => g.seed.toNat).getD 0)
  | .seq n =>
    ((s.seq n).sqn.toNat % 2 ^ 32, 0xFFFF * 2 ^ 16 + n % 2 ^ 9, 0, (s.ctx (s.seq n).ctxid).seed.toNat)

/-- The modulus sets of the issuing tile. -/
def readSets (s : State) : Map ModSet :=
  match s.cur.unit with
  | .tile t => (s.tile t).q
  | .seq _ => []

/-- What an entry with fields A, B, C and P reads in beat 0, whichever of them its row uses: read now in
beat 0, and as captured in every later beat. -/
def grab (s : State) (a b c : BitVec 6) (p : Nat) : Capture :=
  match s.cur.cap with
  | some c => c
  | none =>
    let d := drawKey s
    { scalar := readS s a, scalar2 := readS s b, scalar3 := readS s c, pred := readP s p
      predA := readP s a.toNat, predB := readP s b.toNat, sets := readSets s
      ctr0 := d.1, ctr1 := d.2.1, ctr2 := d.2.2.1, key := d.2.2.2 }

/-- Is this the last of the beats of `fold`? A whole-register instruction acts in it (R275). -/
def lastBeat (s : State) (fold : BitVec 2) : Bool := s.cur.beat + 1 == beatsOf fold

/-! ## Vector results (R135, R273 to R276) -/

/-- Results of a tile's instruction, each visible after `lat` advancing cycles. -/
def deliver (lat : Nat) (t : Nat) (rs : List Result) (s : State) : State :=
  s.setTile t (rs.foldl (fun x r => addPending x lat r) (s.tile t))

/-- An element-wise result: the beat delivers the enabled elements of its slots. -/
def finishElems (lat w : Nat) (fold : BitVec 2) (d : BitVec 6) (en : Nat → Bool) (f : Nat → Nat) (s : State) : StepResult :=
  onTile s fun t =>
    let on := fun k => elemInBeat w (beatsOf fold) s.cur.beat k && en k
    .next (deliver lat t [.vector d.toNat (maskOf w on) (vecOfElems w fun k => if on k then f k else 0)] s)

/-- A whole-register instruction: `rs` are delivered in the last beat (R275). -/
def finishWhole (lat : Nat) (fold : BitVec 2) (rs : List Result) (s : State) : StepResult :=
  onTile s fun t => .next (if lastBeat s fold then deliver lat t rs s else s)

/-- A whole vector register as a result. -/
def wholeVec (d : BitVec 6) (v : Vec) : Result := .vector d.toNat (BitVec.allOnes 2048) v

/-- A whole predicate register as a result. -/
def wholePred (d : BitVec 6) (v : Pred) : Result := .pred d.toNat allTrue v

/-- A predicate from its bits. -/
def predOfBits (f : Nat → Bool) : Pred := BitVec.ofNat 512 (pack 1 512 fun k => bit (f k))

/-- A predicate written from the elements of width `w` of a beat. R270 does not say in which beat of a folded compare the bits from E upward
become 0: it is the last one (DESIGN CHOICE, log 77). -/
def finishCompare (lat w : Nat) (fold : BitVec 2) (d : BitVec 6) (f : Nat → Bool) (s : State) : StepResult :=
  onTile s fun t =>
    let n := elemCount w
    let on := fun k => if k < n then elemInBeat w (beatsOf fold) s.cur.beat k else lastBeat s fold
    .next (deliver lat t [.pred d.toNat (predOfBits on) (predOfBits fun k => k < n && on k && f k)] s)

end Sys2Proof.Machine
end

