-- ==== Sys2Proof/Machine/Flags.lean ====
section
/-! DEFINITION. Status words: `STATUS` of a compute tile (R306) and of a sequencer (R355), and the system registers that
`mfsr` reads (R77, R112, R125, R142, R363). -/

namespace Sys2Proof.Machine

/-- `STATUS` of a compute tile: MODERR in bit 0, every other bit 0 (R306). -/
def tileStatus (x : Tile) : Word := if x.moderr then 1 else 0

/-- Does another trap wait for a sequencer (PEND, R355)? -/
def Seq.pend (q : Seq) : Bool := !q.queue.isEmpty || !q.refused.isEmpty

/-- `STATUS` of a sequencer (R355). -/
def seqStatus (q : Seq) : Word :=
  BitVec.ofNat 64 (bit q.fwd * 128 + bit q.dbl * 64 + bit q.cmpl * 32 + bit q.skip * 16 + bit q.pend * 4 + bit q.trap * 2)

/-- Bits [18:3] of an address (R125). -/
def loopAddrBits (a : Word) : Word := BitVec.ofNat 64 (bitsOf a.toNat 3 16)

/-- A loop register of a tile: `lb`, `le` or `lc` by the IMM16 value (R126, R127). -/
def tileLoopReg (x : Tile) (sr : Nat) : Word :=
  BitVec.ofNat 64 <|
    if sr < 0x14 then mget 0 x.lb (sr - 0x10) else if sr < 0x18 then mget 0 x.le (sr - 0x14) else mget 0 x.lc (sr - 0x18)

/-- A loop register of a sequencer (R125). -/
def seqLoopReg (q : Seq) (sr : Nat) : Word :=
  if sr < 0x14 then loopAddrBits (mget {} q.loops (sr - 0x10)).first
  else if sr < 0x18 then loopAddrBits (mget {} q.loops (sr - 0x14)).final
  else BitVec.ofNat 64 (mget {} q.loops (sr - 0x18)).count

/-- The mode in force of the graph of the entry or of the sequencer's quad; 0 in die controllers and the dispatcher. -/
def modeInForce (s : State) : Word :=
  match s.cur.unit with
  | .tile _ => BitVec.ofNat 64 (((s.graph? s.cur.ctx s.cur.slot).map Graph.mode).getD 0)
  | .seq n =>
    if isQuadSeq n then
      match slotOfQuad s n with
      | some g => BitVec.ofNat 64 (((s.graph? (s.seq n).ctxid g).map Graph.mode).getD 0)
      | none => 0
    else 0

/-- A system register as an entry of a timed list reads it (R112, R142). `SEED` is the value that the graph latched, with
which the tile draws (R347). -/
def tileSysReg (s : State) (t sr : Nat) : Word :=
  let x := s.tile t
  match sr with
  | 0 => BitVec.ofNat 64 s.cur.stamp
  | 1 => BitVec.ofNat 64 s.cur.seg
  | 2 => modeInForce s
  | 3 => BitVec.ofNat 64 (s.actor (curActor s)).fires
  | 4 => ((s.graph? s.cur.ctx s.cur.slot).map Graph.seed).getD 0
  | 5 => BitVec.ofNat 64 s.cur.ctx
  | 6 => BitVec.ofNat 64 (s.actor (curActor s)).colour
  | 7 => BitVec.ofNat 64 (s.ctx s.cur.ctx).snapid
  | 0xD => tileStatus x
  | _ => if 0x10 ≤ sr ∧ sr < 0x1C then tileLoopReg x sr else 0

/-- A system register as a sequencer reads it. -/
def seqSysReg (s : State) (n sr : Nat) : Word :=
  let q := s.seq n
  match sr with
  | 2 => modeInForce s
  | 4 => (s.ctx q.ctxid).seed
  | 5 => BitVec.ofNat 64 q.ctxid
  | 7 => BitVec.ofNat 64 (s.ctx q.ctxid).snapid
  | 8 => q.tvec
  | 9 => BitVec.ofNat 64 q.tcause
  | 0xA => q.tinfo
  | 0xB => q.twhere
  | 0xC => q.tepc
  | 0xD => seqStatus q
  | 0xE => q.sqn
  | _ => if 0x10 ≤ sr ∧ sr < 0x1C then seqLoopReg q sr else 0

/-- A system register as the issuing unit reads it (R77). -/
def readSysReg (s : State) (sr : BitVec 16) : Word :=
  match s.cur.unit with
  | .tile t => tileSysReg s t sr.toNat
  | .seq n => seqSysReg s n sr.toNat

end Sys2Proof.Machine
end

