-- ==== Sys2Proof/Machine/Arcs.lean ====
section
/-! DEFINITION. Arcs: windows, credits and the way of a token; `pop`, `popd`, `peek`, `push` (R168 to R170), `punct`,
`punctall` (R224, R225), `cret` (R256), and the events of the scheduled and the dynamic plane (R153, R154, R158 to R163). -/

namespace Sys2Proof.Machine

/-! ## Routes (R38, R197) -/

/-- Package coordinate X of a tile position. -/
def pkgX (t : Nat) : Nat := 16 * (dieOfPos t % 3) + colOfPos t
/-- Package coordinate Y of a tile position. -/
def pkgY (t : Nat) : Nat := 16 * (dieOfPos t / 3) + rowOfPos t
/-- Distance of two coordinates. -/
def gap (a b : Nat) : Nat := (a - b) + (b - a)
/-- Die boundaries between two positions. -/
def crossings (t u : Nat) : Nat := gap (pkgX t / 16) (pkgX u / 16) + gap (pkgY t / 16) (pkgY u / 16)
/-- Mesh hops between two positions: a crossing is no hop. -/
def hops (t u : Nat) : Nat := gap (pkgX t) (pkgX u) + gap (pkgY t) (pkgY u) - crossings t u
/-- The route time of R38: inject and eject, hops, crossings. -/
def routeTime (t u : Nat) : Nat := 4 + 2 * hops t u + 24 * crossings t u

/-- Where a sequencer stands for routing (R213). -/
def seqPos (n : Nat) : Nat := if isQuadSeq n then computeOfQuad n 0 else posOf (dieOfSeq n) 0 0

/-- The position of the memory-actor engine of an arc's other end: its peer's tile stands for it. -/
def PlacedEnd.pos : PlacedEnd → Option Nat
  | .tile t _ => some t
  | .tileCx t _ => some t
  | .seq n _ => some (seqPos n)
  | _ => Option.none

/-- The port of a package link, at its router (R431). -/
def linkPort (n : Nat) : Nat :=
  let d := [0, 2, 3, 5, 6, 8, 9, 11].getD (n / 2) 0
  posOf d (if n / 2 % 2 = 0 then 0 else 15) (if n % 2 = 0 then 4 else 11)

/-- Cycles of a link of the mesh, named by the router that it enters and the side on which it does: a die boundary takes 24, a hop
2 (R38). -/
def linkTime (lk : Nat) : Nat :=
  let t := lk / 5
  let crosses : Bool := match lk % 5 with
    | 0 => colOfPos t == 15
    | 1 => colOfPos t == 0
    | 2 => rowOfPos t == 15
    | _ => rowOfPos t == 0
  bif crosses then 24 else 2

/-- Route time of an arc, also that of its publications back (R38, R160). The spec gives an engine no tile and no position: where an end is a
memory-actor or copy engine it is the 4 cycles of a route without a hop (DESIGN CHOICE, log 73). -/
def Arc.route (a : Arc) : Nat :=
  match a.src.pos, a.dst.pos with
  | some t, some u => routeTime t u
  | _, _ => 4

/-! ## Windows and credits (R160, R162) -/

/-- Chunks that an arc has borrowed (R162). -/
def Arc.chunks (a : Arc) : Nat := a.chunkEnds.length

/-- Slots of a window with its borrowed chunks. -/
def Arc.slots (a : Arc) : Nat := a.cap + 64 * a.chunks

/-- The credit count of the producer (R160). -/
def Arc.credits (a : Arc) : Nat := a.slots - (a.sent - a.seen)

/-- Slots of the window that hold no token. -/
def Arc.free (a : Arc) : Nat := a.slots - (a.window.length + a.fresh.length)

/-- Does a token spend a credit? MODE, DRAIN and SNAP markers spend none, and so return none (R251, log 17). -/
def Token.spends (t : Token) : Bool := t.kind == .data || t.kind == .punct || t.kind == .ctrl

/-- Is a token of the kind that channel state and overdraw count (R410)? -/
def Token.counts (t : Token) : Bool := t.kind == .data || t.kind == .punct

/-- A token or marker leaves the head: the read pointer (R160), and what an open snapshot records of the port (R410). -/
def Arc.leave (a : Arc) (t : Token) : Arc :=
  { a with read := a.read + bit t.spends
           recorded := if a.recording && t.counts then a.recorded ++ [t] else a.recorded
           recording := a.recording && !(t.kind == .snap && t.payload.toNat = a.snapId)
           after := if a.snapped && t.counts then a.after + 1 else a.after
           snapped := a.snapped || (t.kind == .snap && t.payload.toNat = a.snapId && !a.recording) }

/-- The head tokens of a list leave the window. -/
def Arc.leaveAll (a : Arc) (ts : List Token) (rest : List Token) : Arc := { ts.foldl Arc.leave a with window := rest }

/-- Markers that a beat passes at the head, and what stands behind them (R152). -/
def passMarkers (w : List Token) : List Token × List Token := (w.takeWhile Token.isPassing, w.dropWhile Token.isPassing)

/-- The tokens of a window that `pop` would take, ahead of a MODE or DRAIN marker (R169). -/
def itemsAhead (w : List Token) : List Token := (w.takeWhile fun t => !t.isStopping).filter Token.isItem

/-- Does a MODE or DRAIN marker stand in the window? -/
def hasStop (w : List Token) : Bool := w.any Token.isStopping

/-! ## Freezes and reports -/

/-- Is `v` reported before `w` (R208): lowest WHY, then lowest port of the lowest tile address? -/
def Waiting.before (v w : Waiting) : Bool :=
  v.why.code < w.why.code || (v.why.code == w.why.code && (v.tile < w.tile || (v.tile == w.tile && v.port ≤ w.port)))

/-- A region freezes on data (R29): the entry has no other effect. -/
def freeze (why : FreezeWhy) (port tag : Nat) (s : State) : StepResult :=
  match s.cur.unit with
  | .seq _ => .next s
  | .tile t =>
    let k := ((s.tile t).region).getD 0
    let r := s.regionAt k
    let w : Waiting := { why := why, port := port, tag := tag, tile := t, seg := s.cur.seg, entry := s.cur.entry, stamp := s.cur.stamp }
    let w' := match r.waiting with
      | some v => if v.before w then v else w
      | none => w
    .next (s.setRegion k { r with rstate := 2, waiting := some w' })

/-- `TINFO` of RATE (R167). -/
def rateInfo (out : Bool) (p : Nat) (x : Port) (phase : Nat) : Word :=
  BitVec.ofNat 64 (bit out * 2 ^ 31 + p % 16 * 2 ^ 27 + phase % 16 * 2 ^ 23 + x.first.getD 0 % 64 * 2 ^ 17 + bit x.mix * 2 ^ 16
    + x.rate.getD phase 0 % 256 * 2 ^ 8 + x.same % 256)

/-- `TINFO` of FORMAT (R167). -/
def formatInfo (p fmt tag : Nat) : Word := BitVec.ofNat 64 (p % 16 * 2 ^ 20 + fmt % 8 * 2 ^ 17 + tag % 4096)

/-- `TINFO` of PUNCT (R226). -/
def punctInfo (why ports : Nat) : Word := BitVec.ofNat 64 (why % 4 * 2 ^ 18 + ports % 2 ^ 16)

/-- The monitor of a port counts a token (R164). -/
def Port.move (x : Port) (colour : Nat) : Port :=
  let first := x.first.getD colour
  { x with count := x.count + 1
           first := some first
           mix := x.mix || first != colour
           same := if first = colour then min 255 (x.same + 1) else x.same }

/-- Input port of the issuing tile. -/
def inPort (s : State) (t p : Nat) : Port := mget {} (s.tile t).inPorts p
/-- Output port of the issuing tile. -/
def outPort (s : State) (t p : Nat) : Port := mget {} (s.tile t).outPorts p
/-- An input port replaced. -/
def setInPort (s : State) (t p : Nat) (x : Port) : State :=
  s.setTile t { s.tile t with inPorts := mset (s.tile t).inPorts p x }
/-- An output port replaced. -/
def setOutPort (s : State) (t p : Nat) (x : Port) : State :=
  s.setTile t { s.tile t with outPorts := mset (s.tile t).outPorts p x }

/-! ## Taking tokens -/

/-- The region of a tile. -/
def regionOfTile (s : State) (t : Nat) : Region := s.regionAt (((s.tile t).region).getD 0)

/-- Removed PUNCT markers set the PS bit of the port; a second one is a fault (R223). -/
def takePuncts (ps : Bool) (ts : List Token) : Bool × Bool :=
  ts.foldl (fun r t => if t.kind == .punct then (true, r.2 || r.1) else r) (ps, false)

/-- The markers `ms` at the head of input port `p` of tile `t` are removed; the second part says that PUNCT WHY 1 is raised. -/
def removeMarkers (t p k : Nat) (ms rest : List Token) (s : State) : State × Bool :=
  match s.arc? k with
  | none => (s, false)
  | some a =>
    let x := inPort s t p
    let r := takePuncts x.ps ms
    (setInPort (s.setArc k (a.leaveAll ms rest)) t p { x with ps := r.1 }, r.2)

/-- A PUNCT report with WHY 1 at input port `p` of tile `t` (R223, class R). -/
def raisePunct2 (t p : Nat) (s : State) : State :=
  tileReport t { code := Code.punct, info := punctInfo 1 (2 ^ p), loc := s.curLoc } s

/-- RATE of a beat (R165, R166): `TWHERE` holds the cycle of the beat (R167). -/
def raiseRate (t p : Nat) (x : Port) (s : State) : StepResult :=
  .next (tileReport t { code := Code.rate, info := rateInfo false p x (regionOfTile s t).phase, entry := some s.cur.entry
                        loc := s.tileLoc t s.cur.seg s.cur.entry (s.cur.stamp + s.cur.beat) } s)

/-- A beat of `pop` or `popd` (R168): `k` acts on the state and the token taken. -/
def popBeat (p : Nat) (s : State) (k : Nat → Token → State → State) : StepResult :=
  onTile s fun t =>
    let x := inPort s t p
    match x.arc with
    | none => freeze .popWait p 0 s
    | some tag =>
      let key := State.arcKey s.cur.ctx tag
      match s.arc? key with
      | none => freeze .popWait p tag s
      | some a =>
        let m := passMarkers a.window
        match m.2 with
        | [] => freeze .popWait p tag s
        | tok :: rest =>
          if tok.isStopping then raiseRate t p x s
          else
            let r := removeMarkers t p key m.1 m.2 s
            if r.2 then .next (raisePunct2 t p r.1)
            else
              let s' := r.1.setArc key (((r.1.arc? key).getD a).leaveAll [tok] rest)
              let s' := setInPort s' t p ((inPort s' t p).move tok.colour)
              .next (k t tok (deliver 1 t [.colour (curActor s) tok.colour] s'))

/-- The slots of group `b` of a vector register with a payload in them. -/
def payloadResult (d : BitVec 6) (b : Nat) (pl : Payload) : Result :=
  .vector d.toNat (BitVec.ofNat 2048 ((2 ^ 512 - 1) * 2 ^ (512 * b))) (BitVec.ofNat 2048 (pl.toNat * 2 ^ (512 * b)))

/-- `pop` (R168). -/
def execPop (_fold : BitVec 2) (d a : BitVec 6) (s : State) : StepResult :=
  popBeat a.toNat s fun t tok s' => deliver 2 t [payloadResult d s.cur.beat tok.payload] s'

/-- `popd` (R168). -/
def execPopd (_fold : BitVec 2) (a : BitVec 6) (s : State) : StepResult := popBeat a.toNat s fun _ _ s' => s'

/-- `peek` (R169): beat b reads the b-th token behind the head. A beat that reaches a MODE or DRAIN marker raises RATE. -/
def execPeek (_fold : BitVec 2) (d a : BitVec 6) (s : State) : StepResult :=
  onTile s fun t =>
    let p := a.toNat
    let x := inPort s t p
    match x.arc with
    | none => freeze .popWait p 0 s
    | some tag =>
      let w := ((s.arc? (State.arcKey s.cur.ctx tag)).getD {}).window
      match (itemsAhead w)[s.cur.beat]? with
      | some tok => .next (deliver 2 t [payloadResult d s.cur.beat tok.payload] (deliver 1 t [.colour (curActor s) tok.colour] s))
      | none => if hasStop w then raiseRate t p x s else freeze .popWait p tag s

/-! ## Sending tokens -/

/-- The package link that carries an arc (R433), if one does. -/
def linkOfArc (s : State) (key : Nat) : Option Nat :=
  (s.links.find? fun e => (e.2.owners ++ e.2.ownersIn).any fun o => o.2 = key).map Prod.fst

/-- Cycles between a unit and a link's port: half of the 4 of R37 (R435). -/
def portTime (t n : Nat) : Nat := routeTime t (linkPort n) - 2

/-- Cycles from the departure of a token of a slot-scheduled arc to the first router of its route, or to the consumer (R38). -/
def Arc.firstLeg (a : Arc) : Nat :=
  match a.lanes with
  | l :: _ => 2 + linkTime l.1
  | [] => a.route

/-- Cycles from a router to the next one, or to the consumer. -/
def Arc.nextLeg (a : Arc) (leg : Nat) : Nat :=
  match a.lanes[leg + 1]? with
  | some l => linkTime l.1
  | none => 2

/-- A token leaves for the consumer of its arc: on the scheduled plane with its route time (R38), on the dynamic plane with no
fixed latency (R39, R159), over a package link in its slot (R433, R436). -/
def sendToken (key : Nat) (tok : Token) (s : State) : State :=
  match s.arc? key with
  | none => s
  | some a =>
    let c := key / 4096
    let tag := key % 4096
    let a := { a with sent := a.sent + bit tok.spends }
    match a.dst with
    | .remote _ =>
      let s' := s.setArc key { a with lseqOut := (a.lseqOut + 1) % 256 }
      match linkOfArc s key with
      | some n => s'.setLink n { s'.link n with out := (s'.link n).out ++
          [(key, s.pcyc + portTime (a.src.pos.getD (linkPort n)) n, { tok with lseq := a.lseqOut })] }
      | none => s'
    | _ =>
      let a := { a with transit := a.transit ++ [tok] }
      if a.kind == .slot then
        let due := a.firstLeg
        (s.setArc key { a with flights := a.flights ++ [{ leg := 0, due := s.pcyc + due }] }).after due (.scheduledTokenArrival c tag)
      else (s.setArc key a).later (.ringWindowWrite c tag)

/-- May the producer of an arc send a token that spends a credit? On a slot-scheduled arc always (R158). -/
def Arc.canSend (a : Arc) : Bool := a.kind == .slot || 0 < a.credits

/-- The colour of the owning actor (R141). -/
def curColour (s : State) : Nat := (s.actor (curActor s)).colour

/-- One token or PUNCT marker on output port `p` of the issuing tile, or a freeze with WHY 3 (R29). -/
def sendOnPort (p : Nat) (counted : Bool) (tok : Token) (s : State) : StepResult :=
  onTile s fun t =>
    let x := outPort s t p
    match x.arc with
    | none => .next s
    | some tag =>
      let key := State.arcKey s.cur.ctx tag
      let a := (s.arc? key).getD {}
      if a.canSend then
        let s' := sendToken key { tok with tag := tag } s
        .next (if counted then setOutPort s' t p (x.move tok.colour) else s')
      else freeze .pushWait p tag s

/-- `push` (R170): the payload of beat b is slots 16b to 16b + 15. -/
def execPush (_fold : BitVec 2) (d a : BitVec 6) (ft : BitVec 3) (s : State) : StepResult :=
  let pl : Payload := BitVec.ofNat 512 ((readV s a).toNat / 2 ^ (512 * s.cur.beat))
  sendOnPort d.toNat true { kind := .data, colour := curColour s, fmt := ft.toNat, payload := pl } s

/-- `punct` (R224): a PUNCT marker takes a slot of the window and a credit (R222). -/
def execPunct (d : BitVec 6) (s : State) : StepResult :=
  sendOnPort d.toNat false { kind := .punct, colour := curColour s } s

/-- The ports of a map that belong to an actor. -/
def portsOf (m : Map Port) (actor : Nat) : List (Nat × Port) := m.filter fun e => e.2.owner = actor

/-- `punctall` (R225): nothing is sent while an input of the actor has PS = 0, or while an output has no free slot. -/
def execPunctall (s : State) : StepResult :=
  onTile s fun t =>
    let ins := portsOf (s.tile t).inPorts s.cur.actor
    let outs := portsOf (s.tile t).outPorts s.cur.actor
    let missing := ins.filter fun e => !e.2.ps
    match missing with
    | _ :: _ => raise Code.punct (punctInfo 0 ((missing.map fun e => 2 ^ e.1).sum)) s
    | [] =>
      let full := outs.filter fun e =>
        match e.2.arc with
        | some tag => !((s.arc? (State.arcKey s.cur.ctx tag)).getD {}).canSend
        | none => false
      match full with
      | e :: _ => freeze .pushWait e.1 (e.2.arc.getD 0) s
      | [] =>
        let s' := outs.foldl (fun s e =>
          match e.2.arc with
          | some tag => sendToken (State.arcKey s.cur.ctx tag) { kind := .punct, tag := tag, colour := curColour s } s
          | none => s) s
        let x := s'.tile t
        .next (s'.setTile t { x with inPorts := x.inPorts.map fun e =>
          (e.1, if e.2.owner = s.cur.actor then { e.2 with ps := false } else e.2) })

/-- Is a colour drawn, and not returned in this cycle (R254)? -/
def Ctx.isDrawn (x : Ctx) (c : Nat) : Bool := x.drawn.contains c && !x.returned.contains c

/-- The snapshot that is not yet SEALED or FAILED (R404). -/
def Ctx.busySnap (x : Ctx) : Option Snap := x.snaps.find? fun p => p.state == .requested || p.state == .opened || p.state == .sealing
/-- An open snapshot of a context. -/
def Ctx.openSnap (x : Ctx) : Option Snap := x.snaps.find? fun p => p.state == .opened || p.state == .sealing

/-- The context with its open snapshot changed. -/
def Ctx.updOpen (x : Ctx) (f : Snap → Snap) : Ctx :=
  { x with snaps := x.snaps.map fun p => if p.state == .opened || p.state == .sealing then f p else p }

/-- A draw (+1) or a return (-1) of a colour, counted by an open snapshot unless its actor has passed its marker point (R411). -/
def countColour (ctx : Nat) (passed : Bool) (c : Nat) (n : Int) (s : State) : State :=
  if passed then s
  else s.setCtx ctx ((s.ctx ctx).updOpen fun p => { p with colours := mset p.colours c (mget 0 p.colours c + n) })

/-- `cret` (R256). -/
def execCret (d : BitVec 6) (s : State) : StepResult :=
  onTile s fun t =>
    let c := curColour s
    let ctx := s.cur.ctx
    if c ≠ 0 && !(s.ctx ctx).isDrawn c then raise Code.colour (BitVec.ofNat 64 c) s
    else
      let tag := (outPort s t d.toNat).arc.getD 0
      let a := (s.arc? (State.arcKey ctx tag)).getD {}
      if a.canSend then
        let s' := if c = 0 then s else
          countColour ctx (s.actor (curActor s)).recorded c (-1)
            (s.setCtx ctx { s.ctx ctx with returned := (s.ctx ctx).returned ++ [c] })
        sendOnPort d.toNat true { kind := .data, colour := c, payload := BitVec.ofNat 512 c } s'
      else freeze .pushWait d.toNat tag s

/-! ## Arrival (R153, R154, R158, R159) -/

/-- Format tags that the consumer end of an arc accepts, and its detour arc: a list port as declared (R92), a memory actor by
its kind (R190, R191, R193). -/
def acceptance (s : State) (key : Nat) (a : Arc) : List Nat × Option Nat :=
  let c := key / 4096 % 64
  let all : List Nat := [0, 1, 2, 3, 4, 5, 6, 7]
  match a.dst with
  | .tile t p =>
    let x := inPort s t p
    match ((s.graph? c a.slot).bind fun g => g.image.kernels[x.owner]?).bind fun k => k.ins.find? fun d => d.num = x.own with
    | some d => (d.tags, d.detour.bind fun i => (s.graph? c a.slot).bind fun g => g.tags[i]?)
    | none => (all, none)
  | .mem m p =>
    match (s.graph? c a.slot).bind fun g => g.image.mems[m]? with
    | some d =>
      match d.kind with
      | .sink => ([d.fmt], none)
      | .gather => ([0], none)
      | .scatterAdd => (if p = 0 then [0] else [d.op], none)
      | .source => (all, none)
    | none => (all, none)
  | _ => (all, none)

/-- The tile that a FORMAT at the consumer of an arc names: the consuming list's; for a memory actor the producer's. -/
def Arc.faultTile (a : Arc) : Option (Nat × Nat) :=
  match a.dst with
  | .tile t p => some (t, p)
  | .mem _ p =>
    match a.src with
    | .tile t _ => some (t, p)
    | _ => none
  | _ => none

/-- A tile report of the position at which a region stands. -/
def reportAt (t code : Nat) (info : Word) (s : State) : State :=
  let r := regionOfTile s t
  tileReport t { code := code, info := info, loc := s.tileLoc t r.phase (s.tile t).pos r.cyc } s

/-- A token or marker is written into the window of an arc: at once into staging (R158), into a ring window or a queue so that
it is visible from the next cycle (R159). A MODE or DRAIN marker makes the arc MARKED (R156). -/
def writeWindow (key : Nat) (tok : Token) (s : State) : State :=
  match s.arc? key with
  | none => s
  | some a =>
    let a := if tok.isStopping then { a with state := .marked } else a
    s.setArc key (if a.kind == .slot then { a with window := a.window ++ [tok] } else { a with fresh := a.fresh ++ [tok] })

/-- The die of whose attic pool a ring window borrows: the consumer's, or the producer's where an engine consumes (R159). -/
def Arc.die (a : Arc) : Nat :=
  match a.dst.pos with
  | some t => dieOfPos t
  | none =>
    match a.src.pos with
    | some t => dieOfPos t
    | none => 0

/-- Attic chunks that a context holds of a die (R163). -/
def chunksHeld (s : State) (ctx d : Nat) : Nat :=
  ((s.arcs.filter fun e => e.1 / 4096 = ctx && e.2.die = d).map fun e => e.2.chunks).sum

/-- Can `n` chunks be granted to an arc (R163)? -/
def canGrant (s : State) (key n : Nat) (a : Arc) : Bool :=
  a.chunks + n ≤ 16 && chunksHeld s (key / 4096) a.die + n ≤ 256 && n ≤ (s.die a.die).attic

/-- `n` chunks are granted to an arc: each extends the window at its write end (R162). -/
def grantChunks (key n : Nat) (s : State) : State :=
  match s.arc? key with
  | none => s
  | some a =>
    let ends := (List.range n).map fun i => a.seen + a.slots + 64 * (i + 1)
    let s' := s.setArc key { a with chunkEnds := a.chunkEnds ++ ends, asked := a.asked - n }
    s'.setDie a.die { s'.die a.die with attic := (s'.die a.die).attic - n }

/-- A detoured token goes to the detour window, or nothing where it finds it full (R154). -/
def detourTo (key : Nat) (tok : Token) (s : State) : Option State :=
  match s.arc? key with
  | none => none
  | some d =>
    if 0 < d.free then some (writeWindow key { tok with tag := key % 4096 } (s.setArc key { d with sent := d.sent + 1, asked := 0 }))
    else none

/-- A detour window that a token finds full asks for a chunk, which its die grants in its turn (R154, R163). -/
def askDetour (key : Nat) (s : State) : State :=
  match s.arc? key with
  | none => s
  | some a =>
    match (acceptance s key a).2 with
    | none => s
    | some d =>
      let dk := State.arcKey (key / 4096 % 64) d
      match s.arc? dk with
      | some w => if w.free = 0 then s.setArc dk { w with asked := 1 } else s
      | none => s

/-- One token at the entry of an arc's window: discarded as overdraw (R428), refused or detoured (R153), or written. None
where it has to wait at the entry (R154). -/
def enterWindow (key : Nat) (tok : Token) (s : State) : Option State :=
  match s.arc? key with
  | none => some s
  | some a =>
    if 0 < a.overdraw && tok.counts then some (s.setArc key { a with overdraw := a.overdraw - 1, read := a.read + 1 })
    else
      let acc := acceptance s key a
      if tok.kind == .data && !acc.1.contains tok.fmt then
        let refused := { a with read := a.read + 1 }
        match acc.2 with
        | some d => (detourTo (State.arcKey (key / 4096 % 64) d) tok s).map fun s' => s'.setArc key { (s'.arc? key).getD a with read := a.read + 1 }
        | none =>
          match a.faultTile with
          | some (t, p) => some (reportAt t Code.format (formatInfo p tok.fmt (key % 4096)) (s.setArc key refused))
          | none => some (s.setArc key refused)
      else
        let s' := writeWindow key tok (if tok.kind == .snap && tok.payload.toNat = a.snapId then s.setArc key { a with overdrawAt := a.overdraw } else s)
        -- a MODE, DRAIN or SNAP marker also enters the detour arc of the port (R250, R407)
        match acc.2 with
        | some d => if tok.isStopping || tok.kind == .snap then
            some (writeWindow (State.arcKey (key / 4096 % 64) d) { tok with tag := d } s') else some s'
        | none => some s'

/-- The tokens that wait at an arc's entry go in, as far as there is room (R154). -/
def drainEntry (key : Nat) (s : State) : Nat → State
  | 0 => s
  | n + 1 =>
    match s.arc? key with
    | none => s
    | some a =>
      match a.entry with
      | [] => s
      | tok :: rest =>
        match enterWindow key tok (s.setArc key { a with entry := rest }) with
        | some s' => drainEntry key s' n
        | none => askDetour key s

/-- A token reaches the consumer end of an arc: behind the ones that wait at the entry, if any. -/
def arriveAt (key : Nat) (tok : Token) (s : State) : State :=
  match s.arc? key with
  | none => s
  | some a =>
    let s' := s.setArc key { a with entry := a.entry ++ [tok] }
    drainEntry key s' (a.entry.length + 1)

/-- The oldest token on its way arrives. -/
def landOldest (key : Nat) (s : State) : State :=
  match s.arc? key with
  | none => s
  | some a =>
    match a.transit with
    | [] => s
    | tok :: rest => arriveAt key tok (s.setArc key { a with transit := rest })

/-- Do both ends of an arc stand in the mode in force (R156)? -/
def Arc.live (a : Arc) : Bool := a.state == .active || a.state == .marked

/-- Has a MODE or DRAIN marker been sent on an arc that holds back later tokens: it stands in the window or is on its way there
(R156)? -/
def Arc.stopping (a : Arc) : Bool := a.state == .marked || (a.transit ++ a.entry).any Token.isStopping

/-- The region of the producer of an arc. -/
def Arc.srcRegion (s : State) (a : Arc) : Option Nat :=
  match a.src with
  | .tile t _ => (s.tile t).region
  | _ => none

/-- `TINFO` of SLOT (R205). -/
def slotInfo (lk lane owner tag why : Nat) : Word :=
  BitVec.ofNat 64 (lk % 5 % 8 * 2 ^ 48 + tileAddr (lk / 5) % 2 ^ 16 * 2 ^ 32 + why * 2 ^ 30 + lane % 64 * 2 ^ 24
    + owner % 4096 * 2 ^ 12 + tag % 4096)

/-- The tile that a fault of a region names: the one of the lowest address (R356). -/
def lowestTile (r : Region) : Nat := r.tiles.foldl min 4095

/-- Is a token that waits at a lane entry held there: the producer's region reloads its configuration, or its SLOT is not
released (R205)? -/
def laneHeld (s : State) (k : Nat) : Bool :=
  let r := s.regionAt k
  r.reloading || r.tiles.any fun t => (s.tile t).reports.any fun x => x.code = Code.slot

/-- `TINFO` of SLOT for a token at the entry of lane `l` of a router (R205). -/
def laneInfo (s : State) (tag why : Nat) (l : Nat × Nat) : Word :=
  slotInfo l.1 l.2 (mget 0 s.lanes (l.1 * 8 + l.2) % 4096) tag why

/-- SLOT of the region `k` of a producer (R205). -/
def slotReport (k : Nat) (info : Word) (s : State) : State :=
  let r := s.regionAt k
  let low := lowestTile r
  tileReport low { code := Code.slot, info := info, loc := s.tileLoc low r.phase 0 0 } s

/-- A token on a lane or slot that its table gives to another arc freezes the producer's region: the first one starts a reload of
the region's configuration, a later one raises SLOT (R205). -/
def laneMismatch (k : Nat) (info : Word) (s : State) : State :=
  let r := s.regionAt k
  let g := k / 2048
  if laneHeld s k then s
  else if r.reloads = 0 then
    (s.setRegion k { r with reloads := 1, reloading := true, rstate := if r.rstate = 3 then 3 else 4, wcnt := 0 }).later
      (.configReloadComplete (g / 256) (g % 256) (k % 2048) 0)
  else slotReport k info s

/-- A token on its way changed. -/
def setFlight (key i : Nat) (f : Flight) (s : State) : State :=
  match s.arc? key with
  | none => s
  | some a => s.setArc key { a with flights := a.flights.set i f }

/-- The oldest token on its way reaches the consumer. -/
def landFlight (key : Nat) (s : State) : State :=
  match s.arc? key with
  | none => s
  | some a => landOldest key (s.setArc key { a with flights := a.flights.drop 1 })

/-- The tokens of a slot-scheduled arc from the `i`-th on that are due in this cycle, oldest first: each is checked at the router
that it has reached and passes to the next one, or to the consumer. One that finds another arc's lane waits there with those
behind it; two in one slot raise SLOT with WHY 1 (R39, R204, R205). `used` are the links passed in this cycle. -/
def flyFrom (key : Nat) : Nat → Nat → List Nat → State → State
  | 0, _, _, s => s
  | n + 1, i, used, s =>
    match s.arc? key with
    | none => s
    | some a =>
      match a.flights[i]? with
      | none => s
      | some f =>
        let k := (a.srcRegion s).getD 0
        let behind := match (if i = 0 then none else a.flights[i - 1]?) with
          | some o => o.waits && o.leg = f.leg
          | none => false
        if s.pcyc < f.due || (f.waits && laneHeld s k) then flyFrom key n (i + 1) used s
        else
          match a.lanes[f.leg]? with
          | none => if i = 0 then flyFrom key n 0 used (landFlight key s) else s
          | some l =>
            let stays := setFlight key i { f with waits := true } s
            if mfind s.lanes (l.1 * 8 + l.2) != some key then flyFrom key n (i + 1) used (laneMismatch k (laneInfo s (key % 4096) 0 l) stays)
            else if behind || (used.contains f.leg && f.waits) then
              flyFrom key n (i + 1) used (stays.after 1 (.scheduledTokenArrival (key / 4096) (key % 4096)))
            else if used.contains f.leg then flyFrom key n (i + 1) used (slotReport k (laneInfo s (key % 4096) 1 l) stays)
            else
              let t := a.nextLeg f.leg
              flyFrom key n (i + 1) (f.leg :: used) ((setFlight key i { leg := f.leg + 1, due := s.pcyc + t } s).after t
                (.scheduledTokenArrival (key / 4096) (key % 4096)))

/-- SCHEDULED_TOKEN_ARRIVAL (R38, R158, R204): the tokens of the arc that reach a router or the consumer in this cycle. -/
def execScheduledTokenArrival (ctx tag : Nat) (s : State) : StepResult :=
  let key := State.arcKey ctx tag
  .next (flyFrom key (2 * (((s.arc? key).map fun a => a.flights.length).getD 0)) 0 [] s)

/-- The tokens of an arc that wait at a lane entry go on, where the table is right again (R205). -/
def resumeFlights (key : Nat) (s : State) : State :=
  if (s.arc? key).any fun a => a.flights.any Flight.waits then s.soon (.scheduledTokenArrival (key / 4096) (key % 4096)) else s

/-- The own slot of a window that holds the `p`-th token of its arc; none where a chunk at the write end holds it (R162). -/
def Arc.ownSlot (a : Arc) (p : Nat) : Option Nat :=
  if a.chunkEnds.any fun e => e ≤ p + 64 && p < e then none
  else some ((p - a.lent - 64 * (a.chunkEnds.filter fun e => e ≤ p).length) % a.cap)

/-- Where the `p`-th token of an arc lies in the memory tile of its window. R172 and R176 give a chunk of the attic pool no memory tile:
one lies in none (DESIGN CHOICE, log 74). -/
def Arc.placeOf (a : Arc) (p : Nat) : Option Nat := a.home.bind fun _ => (a.ownSlot p).map fun i => a.base + 64 * i

/-- The banks of the slot of a ring window that takes the next token (R159, R176). -/
def Arc.banks (a : Arc) : List Nat :=
  match a.placeOf (a.read + ((a.window ++ a.fresh).filter Token.spends).length) with
  | some p => (List.range 8).map fun i => bankOf (p + 8 * i)
  | none => []

/-- RING_WINDOW_WRITE (R159): the oldest token on its way is written, in the next cycle where a bank is busy (R176). -/
def execRingWindowWrite (ctx tag : Nat) (s : State) : StepResult :=
  let key := State.arcKey ctx tag
  match s.arc? key with
  | none => .next s
  | some a =>
    let mt := a.home.getD 0
    if a.banks.any (busyBanks s mt).contains then
      .next ((s.setArc key { a with blocked := some (a.blocked.getD s.pcyc) }).after 1 (.ringWindowWrite ctx tag))
    else
      let s := s.setArc key { a with blocked := none }
      .next (landOldest key (if a.banks.isEmpty then s else useBanks mt a.banks s))

/-! ## Publications and chunks (R160 to R163) -/

/-- The consumer of an arc publishes its read pointer: it is seen from the cycle after the route time (R160). -/
def publish (key : Nat) (s : State) : State :=
  match s.arc? key with
  | none => s
  | some a =>
    if a.kind == .slot then s
    else
      match a.src with
      | .remote _ =>
        match linkOfArc s key with
        | some n => s.setLink n { s.link n with pubsOut := (s.link n).pubsOut ++
            [(key, s.pcyc + portTime (a.dst.pos.getD (linkPort n)) n, a.read)] }
        | none => s
      | _ => (s.setArc key { a with pubs := a.pubs ++ [a.read] }).after (a.route + 1) (.creditArrival (key / 4096) (key % 4096))

/-- The chunks that an arc keeps of some, oldest first: one goes back when the read pointer shows its slots consumed and the
tokens not read fit without it. -/
def keptChunks (seen out cap : Nat) : List Nat → List Nat
  | [] => []
  | e :: l => if e ≤ seen && out ≤ cap + 64 * l.length then keptChunks seen out cap l else e :: l

/-- Chunks whose every slot the published read pointer shows consumed go back to the pool (R162). -/
def returnChunks (key : Nat) (s : State) : State :=
  match s.arc? key with
  | none => s
  | some a =>
    let kept := keptChunks a.seen (a.sent - a.seen) a.cap a.chunkEnds
    let s' := s.setArc key { a with chunkEnds := kept, lent := a.lent + 64 * (a.chunks - kept.length) }
    s'.setDie a.die { s'.die a.die with attic := (s'.die a.die).attic + (a.chunks - kept.length) }

/-- The producer sees a published read pointer. -/
def seePointer (key p : Nat) (s : State) : State :=
  match s.arc? key with
  | none => s
  | some a => returnChunks key (s.setArc key { a with seen := max a.seen p })

/-- CREDIT_ARRIVAL (R160): the oldest publication on its way reaches the producer. -/
def execCreditArrival (ctx tag : Nat) (s : State) : StepResult :=
  let key := State.arcKey ctx tag
  match s.arc? key with
  | none => .next s
  | some a =>
    match a.pubs with
    | [] => .next s
    | p :: ps => .next (seePointer key p (s.setArc key { a with pubs := ps }))

/-- CHUNK_GRANT (R162, R163): the chunks that an arc asks for are granted, or none of them. -/
def execChunkGrant (ctx tag : Nat) (s : State) : StepResult :=
  let key := State.arcKey ctx tag
  match s.arc? key with
  | none => .next s
  | some a => .next (if 0 < a.asked && canGrant s key a.asked a then grantChunks key a.asked s else s)

end Sys2Proof.Machine
end

