-- ==== Sys2Proof/Machine/Control.lean ====
section
/-! DEFINITION. Control ports, join elements and order channels: `csig`, `cwait`, `ctest`, `ordj` (R211 to R221, R227 to R229),
and the events of the control network. -/

namespace Sys2Proof.Machine

/-! ## Units -/

/-- The number under which an order token names a unit: a tile by its position, a control unit behind the positions. -/
def UnitId.code : UnitId → Nat
  | .tile t => t
  | .seq n => 4096 + n
/-- The unit of a number. -/
def unitOf (u : Nat) : UnitId := if u < 4096 then .tile u else .seq (u - 4096)
/-- Where a unit stands for routing (R213). -/
def UnitId.pos : UnitId → Nat
  | .tile t => t
  | .seq n => seqPos n
/-- The context that a unit works for. -/
def unitCtx (s : State) : UnitId → Nat
  | .tile t => (((s.tile t).region).getD 0) / 2048 / 256
  | .seq n => (s.seq n).ctxid
/-- The control ports of a unit. -/
def unitCx (s : State) : UnitId → Map CtrlPort
  | .tile t => (s.tile t).cx
  | .seq n => (s.seq n).cx
/-- A control port of a unit replaced. -/
def setCx (u : UnitId) (p : Nat) (x : CtrlPort) (s : State) : State :=
  match u with
  | .tile t => s.setTile t { s.tile t with cx := mset (s.tile t).cx p x }
  | .seq n => s.updSeq n fun q => { q with cx := mset q.cx p x }
/-- An order channel of a unit. -/
def chanOf (s : State) (u : UnitId) (c : Nat) : OrdChan :=
  match u with
  | .tile t => mget {} (s.tile t).oc c
  | .seq n => mget {} (s.seq n).oc c
/-- An order channel of a unit replaced. -/
def setChan (u : UnitId) (c : Nat) (x : OrdChan) (s : State) : State :=
  match u with
  | .tile t => s.setTile t { s.tile t with oc := mset (s.tile t).oc c x }
  | .seq n => s.updSeq n fun q => { q with oc := mset q.oc c x }

/-! ## Joins -/

/-- A join of a graph. -/
def joinAt (s : State) (c g j : Nat) : Join := (((s.graph? c g).map fun x => x.joins).getD [])[j]?.getD {}
/-- A join of a graph replaced. -/
def setJoin (c g j : Nat) (x : Join) (s : State) : State :=
  match s.graph? c g with
  | none => s
  | some y => s.setGraph c g { y with joins := y.joins.set j x }
/-- The unit and port that are member `m` of a join. -/
def memberOf (s : State) (c g j m : Nat) : Option (UnitId × Nat) :=
  let is := fun e : Nat × CtrlPort => e.2.link == .join g j m
  let ts := s.tiles.findSome? fun e =>
    if unitCtx s (.tile e.1) = c then (e.2.cx.find? is).map fun p => (UnitId.tile e.1, p.1) else none
  let qs := s.seqs.findSome? fun e => if e.2.ctxid = c then (e.2.cx.find? is).map fun p => (UnitId.seq e.1, p.1) else none
  ts.orElse fun _ => qs
/-- An entry of a list of numbers, 0 where there is none. -/
def nth (l : List Nat) (i : Nat) : Nat := l.getD i 0
/-- An entry changed. -/
def bump (l : List Nat) (i : Nat) (f : Nat → Nat) : List Nat := l.set i (f (nth l i))

/-- A signal or a control token departs from a control port (R213, R219). -/
def sendSignal (u : UnitId) (p colour : Nat) (s : State) : State :=
  let c := unitCtx s u
  match (mget {} (unitCx s u) p).link with
  | .join g j m =>
    let x := joinAt s c g j
    (setJoin c g j { x with sent := bump x.sent m (· + 1) } s).after (routeTime u.pos x.elem + 1) (.joinSignalArrival c g j m)
  | .prod tag =>
    let key := State.arcKey c tag
    match s.arc? key with
    | none => s
    | some a =>
      let tok : Token := { kind := .ctrl, tag := tag, colour := colour }
      match a.dst with
      | .remote _ => sendToken key tok s
      | _ => (s.setArc key { a with sent := a.sent + 1, transit := a.transit ++ [tok] }).after
          (routeTime u.pos (a.dst.pos.getD 0) + 1) (.controlTokenArrival c tag)
  | _ => s

/-- A release or token is in the window of a sequencer's control port: `idle` and `cwait` end (R220, R364). The delay of the next instruction
counts from the issue of the `idle` (R21). -/
def wakeOnToken (n p : Nat) (s : State) : State :=
  match (s.seq n).run with
  | .idle => s.updSeq n fun q => { q.advance q.last with run := .run, ready := s.pcyc }
  | .cwait w => if w = p then s.updSeq n fun q => { q with run := .run } else s
  | _ => s

/-- A release or a control token reaches the control port of a unit: a sequencer's window holds 255 and more wait (R213).
The first ones after a rollback may be discarded (R411). -/
def depositAt (u : UnitId) (p : Nat) (s : State) : State :=
  let x := mget {} (unitCx s u) p
  if 0 < x.skip then setCx u p { x with skip := x.skip - 1 } s else
  match u with
  | .tile _ => setCx u p { x with held := x.held + 1 } s
  | .seq n =>
    wakeOnToken n p (setCx u p (if x.held < 255 then { x with held := x.held + 1 } else { x with waiting := x.waiting + 1 }) s)

/-- One of the releases or tokens of a control port is removed. -/
def CtrlPort.take (x : CtrlPort) : CtrlPort :=
  if 0 < x.waiting then { x with waiting := x.waiting - 1 } else { x with held := x.held - 1 }

/-- The join fires (R215): every count falls by 1, held signals are counted where there is room again (R216), and one release
departs to every member. -/
def fireJoin (c g j : Nat) (s : State) : State :=
  let x := joinAt s c g j
  let n := x.counts.length
  let fallen := x.counts.map (· - 1)
  let counts := (List.range n).map fun i => if 0 < nth x.heldSigs i && nth fallen i < 255 then nth fallen i + 1 else nth fallen i
  let heldSigs := (List.range n).map fun i => if 0 < nth x.heldSigs i && nth fallen i < 255 then nth x.heldSigs i - 1 else nth x.heldSigs i
  let s := setJoin c g j { x with counts := counts, heldSigs := heldSigs, firedAt := some s.pcyc } s
  (List.range n).foldl (fun s m =>
    match memberOf s c g j m with
    | some (u, _) => s.after (routeTime x.elem u.pos + 1) (.releaseArrival c g j m)
    | none => s) s

/-- The firing condition of R215, tested once in a cycle. -/
def tryJoin (c g j : Nat) (s : State) : State :=
  let x := joinAt s c g j
  if x.state == .armed && !x.counts.isEmpty && x.counts.all (0 < ·) && x.firedAt != some s.pcyc then fireJoin c g j s else s

/-- JOIN is raised at the signaller of member `m` (R216, class R). -/
def raiseJoin (c g j m : Nat) (s : State) : State :=
  let info : Word := BitVec.ofNat 64 (nth (joinAt s c g j).tags m % 4096)
  match memberOf s c g j m with
  | some (.tile t, _) => reportAt t Code.join info s
  | some (.seq n, _) => passTrap n { cause := Code.join, info := info, loc := s.seqLoc n, kind := .raised } s
  | none => s

/-- Does another signal of this join arrive in this cycle? All are counted before the condition is tested (R215). -/
def moreSignals (c g j : Nat) (ts : List Task) : Bool :=
  ts.any fun t =>
    match t with
    | .event (.joinSignalArrival c' g' j' _) => c' == c && g' == g && j' == j
    | _ => false

/-- JOIN_SIGNAL_ARRIVAL (R216, R215). A signal that finds the join not ARMED is lost, and counts as not sent (R411, log 51). -/
def execJoinSignalArrival (ctx slot join member : Nat) (s : State) : StepResult :=
  let x := joinAt s ctx slot join
  if x.state != .armed then .next (setJoin ctx slot join { x with sent := bump x.sent member (· - 1) } s)
  else
    let s :=
      if nth x.counts member < 255 then setJoin ctx slot join { x with counts := bump x.counts member (· + 1) } s
      else raiseJoin ctx slot join member (setJoin ctx slot join { x with heldSigs := bump x.heldSigs member (· + 1) } s)
    .next (if moreSignals ctx slot join s.todo then s else tryJoin ctx slot join s)

/-- RELEASE_ARRIVAL (R213). -/
def execReleaseArrival (ctx slot join member : Nat) (s : State) : StepResult :=
  match memberOf s ctx slot join member with
  | some (u, p) => .next (depositAt u p s)
  | none => .next s

/-- CONTROL_TOKEN_ARRIVAL (R213). -/
def execControlTokenArrival (ctx tag : Nat) (s : State) : StepResult :=
  let key := State.arcKey ctx tag
  match s.arc? key with
  | none => .next s
  | some a =>
    let s := s.setArc key { a with transit := a.transit.drop 1, read := a.read + 1 }
    match a.dst with
    | .seq n p => .next (depositAt (.seq n) p s)
    | _ => .next s

/-- May a unit send a signal from a control port (R219)? -/
def canSignal : CtrlLink → Bool
  | .join _ _ _ => true
  | .prod _ => true
  | _ => false

/-- May a sequencer wait at a control port (R219)? -/
def canWait : CtrlLink → Bool
  | .join _ _ _ => true
  | .cons _ => true
  | _ => false

/-- The link of a control port of the issuing unit. -/
def curLink (s : State) (p : Nat) : CtrlLink := (mget {} (unitCx s s.cur.unit) p).link

/-- The colour that the issuing unit's tokens carry: the actor's, 0 from a sequencer (R212). -/
def sendColour (s : State) : Nat :=
  match s.cur.unit with
  | .tile _ => curColour s
  | .seq _ => 0

/-- In sequencer code, an instruction whose control port is of the wrong kind raises ILLEGAL with check 5 (R219). -/
def checkPort (ok : Bool) (s : State) (k : StepResult) : StepResult :=
  match s.cur.unit with
  | .seq n => if ok then k else .next (ownFault n Code.illegal 5 s)
  | .tile _ => k

/-- `csig` (R219). -/
def execCsig (d : BitVec 6) (s : State) : StepResult :=
  checkPort (canSignal (curLink s d.toNat)) s (finish (sendSignal s.cur.unit d.toNat (sendColour s) s))

/-- `cwait` (R220): the wait ends when a release or token arrives, and the instruction is tried again. -/
def execCwait (a : BitVec 6) (s : State) : StepResult :=
  onSeq s fun n =>
    checkPort (canWait (curLink s a.toNat)) s <|
      let x := mget {} (s.seq n).cx a.toNat
      if x.held = 0 then .next (s.updSeq n fun q => { q with run := .cwait a.toNat, ready := s.pcyc + 1 })
      else
        match memberOrNone (curLink s a.toNat) with
        | some (g, j, m) =>
          let c := (s.seq n).ctxid
          let y := joinAt s c g j
          finish (setJoin c g j { y with removed := bump y.removed m (· + 1) } (setCx (.seq n) a.toNat x.take s))
        | none => finish (setCx (.seq n) a.toNat x.take s)
where
  /-- The join member behind a port. -/
  memberOrNone : CtrlLink → Option (Nat × Nat × Nat)
    | .join g j m => some (g, j, m)
    | _ => none

/-- `ctest` (R221). -/
def execCtest (d a : BitVec 6) (s : State) : StepResult :=
  onSeq s fun n =>
    checkPort (canWait (curLink s a.toNat)) s (finishScalar 1 d (BitVec.ofNat 64 (min 255 (mget {} (s.seq n).cx a.toNat).held)) s)

/-! ## Order channels (R227 to R229) -/

/-- Tagged operations of a channel that are not complete. -/
def OrdChan.open (x : OrdChan) : Nat := x.issued - x.upto - x.done.length

/-- The completed prefix with the operations beyond it that have completed (R227). -/
def OrdChan.settle (x : OrdChan) : Nat → OrdChan
  | 0 => x
  | n + 1 =>
    if x.done.contains (x.upto + 1) then { x with upto := x.upto + 1, done := x.done.filter (· != x.upto + 1) }.settle n else x

/-- A tagged operation of the issuing unit is counted on channel `c` - 1, none where `c` = 0; `k` goes on with its number.
ORDER is raised while 65,535 are incomplete (R227). -/
def tagOp (c : Nat) (s : State) (k : Nat → State → StepResult) : StepResult :=
  if c = 0 then k 0 s
  else
    let x := chanOf s s.cur.unit (c - 1)
    if 65535 ≤ x.open then raise Code.order (BitVec.ofNat 64 (c - 1)) s
    else k (x.issued + 1) (setChan s.cur.unit (c - 1) { x with issued := x.issued + 1 } s)

/-- A tagged operation has completed: its ORDER token travels back on the dynamic plane (R228). -/
def orderDone (u : UnitId) (c seqn : Nat) (s : State) : State :=
  if c = 0 then s else s.later (.orderTokenArrival u.code (c - 1) seqn)

/-- ORDER_TOKEN_ARRIVAL (R228, R229): C advances, and the signals of the captures that it reaches depart in issue order. -/
def execOrderTokenArrival (unit chan seqn : Nat) (s : State) : StepResult :=
  let u := unitOf unit
  let x := chanOf s u chan
  let y := { x with done := x.done ++ [seqn] }.settle (x.done.length + 1)
  let due := y.joins.filter fun j => j.1 ≤ y.upto
  let s := setChan u chan { y with joins := y.joins.filter fun j => y.upto < j.1 } s
  .next (due.foldl (fun s j => sendSignal u j.2.1 j.2.2 s) s)

/-- `ordj` (R229): it captures I, and its actor's `COLOUR` for a control token (R212), and does not wait; where C has reached I, the
signal departs at once. -/
def execOrdj (d a : BitVec 6) (s : State) : StepResult :=
  checkPort (canSignal (curLink s d.toNat)) s <|
    let u := s.cur.unit
    let x := chanOf s u a.toNat
    if x.issued ≤ x.upto then finish (sendSignal u d.toNat (sendColour s) s)
    else finish (setChan u a.toNat { x with joins := x.joins ++ [(x.issued, d.toNat, sendColour s)] } s)

end Sys2Proof.Machine
end

