-- ==== Sys2Proof/Machine/Near.lean ====
section
/-! DEFINITION. Near space: the accesses under way and how they end, near loads and stores, presence words and address
generators (R172 to R183), and the events at the banks. -/

namespace Sys2Proof.Machine

/-! ## Accesses under way -/

/-- `TWHERE` of the entry or instruction that issued an access. -/
def Op.loc (s : State) (o : Op) : Word :=
  match o.cur.unit with
  | .tile t => s.tileLoc t o.cur.seg o.cur.entry o.cur.stamp
  | .seq n => s.seqLoc n

/-- An access. -/
def opAt (s : State) (id : Nat) : Option Op := mfind s.ops id
/-- An access replaced. -/
def setOp (id : Nat) (o : Op) (s : State) : State := { s with ops := mset s.ops id o }

/-- The access of the entry or instruction being executed, with the fields that every access has. -/
def mkOp (s : State) (kind : OpKind) (mtile addr words : Nat) : Op :=
  { kind := kind, cur := s.cur, ctx := curCtx s, mtile := mtile, addr := addr, words := words, left := List.range words
    issued := s.pcyc
    stream := match s.cur.unit with
      | .seq n => .seq n
      | .tile _ => .seq 396
    inTrap := match s.cur.unit with
      | .seq n => (s.seq n).trap
      | .tile _ => false }

/-- A sequencer waits for an access before it reads register `r` (R102). -/
def waitFor (n r id : Nat) (s : State) : State :=
  if r = 0 then s else s.updSeq n fun q => { q with waits := (r, id) :: q.waits.filter fun w => w.1 != r }

/-- An access is issued that answers into a register: in a tile its result is due after `lat` advancing cycles, in a sequencer
the register is interlocked (R102, R175). -/
def issueLoad (o : Op) (lat : Nat) (res : Result) (s : State) : State :=
  let id := s.opCount
  let s' := s.newOp o
  match o.cur.unit with
  | .tile t => s'.setTile t (addPending (s'.tile t) lat res (some id))
  | .seq n =>
    match o.dst with
    | some r => waitFor n r id s'
    | none => s'

/-- The value of an access is there, and its register may be read from the cycle `ready` on, or later by the cycles of a repeated
read (R374). -/
def answer (id : Nat) (o : Op) (v : Vec) (ready : Nat) (s : State) : State :=
  let usable := ready + o.slow
  let s' := setOp id { o with got := v, left := [], served := true, usable := usable } s
  match o.cur.unit, o.dst with
  | .seq n, some r =>
    if (s'.seq n).waits.contains (r, id) then s'.updSeq n fun q => q.write r (BitVec.ofNat 64 v.toNat) usable else s'
  | _, _ => s'

/-- An access without an answer is complete: its order token departs (R228). -/
def complete (id : Nat) (o : Op) (s : State) : State := (orderDone o.cur.unit o.chan o.seqn s).dropOp id

/-- A refusal that is found after the issue: a report of class C in a tile (R352); in a sequencer a completion fault, or a
double fault where the access was issued in a handler (R500). -/
def completionFault (id code : Nat) (info : Word) (s : State) : State :=
  match opAt s id with
  | none => s
  | some o =>
    let s := setOp id { o with refused := true } s
    match o.cur.unit with
    | .tile t => tileReport t { code := code, info := info, loc := o.loc s, op := some id } s
    | .seq n =>
      let r : TrapReq := { cause := code, info := info, loc := s.seqLoc n, kind := .completion id }
      if o.inTrap then
        let d := { r with dbl := true, loc := s.seqLoc n }
        if isQuadSeq n then forwardTrap n d (s.seq n).pc s else fatal n d s
      else (s.updSeq n fun q => { q with refused := q.refused ++ [r] }).soon (.seqCompletionFault n)

/-- DONE of an accumulator advances, and closes it at CH (R326). -/
def Acc.oneDone (a : Acc) : Acc := { a with done := a.done + 1, state := if a.done + 1 = a.ch then .closed else a.state }

/-- A firing that is dropped counts as done and adds nothing (R359, R375, log 58). -/
def Tensor.dropped (x : Tensor) : OpKind → Tensor
  | .firing f _ _ => { x with accs := mset x.accs f.acc (mget {} x.accs f.acc).oneDone }
  | _ => x

/-- A refused access is dropped (R359, R500): it counts as completed on its order channel, and its register keeps its value. -/
def dropRefused (id : Nat) (s : State) : State :=
  match opAt s id with
  | none => s
  | some o =>
    let s := complete id o s
    match o.cur.unit with
    | .tile t =>
      let x := s.tile t
      s.setTile t { x with pend := x.pend.filter fun p => p.op != some id, tensor := x.tensor.dropped o.kind }
    | .seq n => s.updSeq n fun q => { q with waits := q.waits.filter fun w => w.2 != id }

/-! ## Addresses (R172, R173) -/

/-- The quad of the issuing unit; die controllers and the dispatcher have none (R174). -/
def curQuad (s : State) : Option Nat :=
  match s.cur.unit with
  | .tile t => some (quadOfPos t)
  | .seq n => if isQuadSeq n then some n else none

/-- The partition that holds an offset of a memory tile. -/
def partAt (s : State) (mt o : Nat) : Option Partition :=
  (s.mtile mt).parts.find? fun p => p.base ≤ o && o < p.base + p.granules * 65536

/-- The mode of the partition that holds an offset: a granule outside every partition is ordinary memory. -/
def modeAt (s : State) (mt o : Nat) : PartMode := ((partAt s mt o).map fun p => p.mode).getD .ordinary

/-- Offset of word `k` of an access at offset `o`: in a line buffer it runs on at the partition's start (R172), and an offset
is taken modulo the tile (R183). -/
def wordOffset (s : State) (mt o k : Nat) : Nat :=
  match partAt s mt o with
  | some p => if p.mode == .lineBuffer then p.base + (o - p.base + 8 * k) % (p.granules * 65536) else (o + 8 * k) % 2 ^ 21
  | none => (o + 8 * k) % 2 ^ 21

/-- Does a near instruction of the plain kind, or of the presence kind, reach this mode (R172)? -/
def modeServes (presence : Bool) (m : PartMode) : Bool :=
  if presence then m == .presence else m != .fifo && m != .presence

/-- The checks of R173 in their order; `k` goes on with the memory tile and the offset. The 32 bytes of an `agset` descriptor that run past
the end of the memory tile raise ALIGN, as a span of 256 bytes does: R173 names no other span (DESIGN CHOICE, log 49). -/
def nearCheck (ea : Word) (words : Nat) (presence : Bool) (s : State) (k : Nat → Nat → StepResult) : StepResult :=
  match curQuad s with
  | none => raise Code.nearRange ea s
  | some q =>
    if ea.toNat / 2 ^ 23 ≠ 0 then raise Code.nearRange ea s
    else
      let mt := memoryOfQuad q (ea.toNat / 2 ^ 21)
      let o := ea.toNat % 2 ^ 21
      if o % 8 ≠ 0 || (2 ^ 21 < o + 8 * words && modeAt s mt o != .lineBuffer) then raise Code.align ea s
      else if (List.range words).all fun i => modeServes presence (modeAt s mt (wordOffset s mt o i)) then k mt o
      else raise Code.part ea s

/-- Key of a byte of near memory. -/
def nearKey (mt o : Nat) : Nat := mt * 2 ^ 21 + o
/-- Key of a presence bit. -/
def presKey (mt o : Nat) : Nat := mt * 2 ^ 18 + o / 8
/-- Is the presence bit of the word at an offset set? -/
def isPresent (s : State) (mt o : Nat) : Bool := mget false s.present (presKey mt o)
/-- The presence bit of the word at an offset written. -/
def setPresent (mt o : Nat) (b : Bool) (s : State) : State := { s with present := mput false s.present (presKey mt o) b }
/-- A near word read (R174). -/
def nearWord (s : State) (mt o : Nat) : Nat := readLE s.near (nearKey mt o) 8
/-- A near word written. -/
def setNearWord (mt o v : Nat) (s : State) : State := { s with near := writeLE s.near (nearKey mt o) 8 v }

/-! ## Banks (R175, R176) -/

/-- A near access with `X` or order code is issued: it reaches its banks 6 cycles later. -/
def toBanks (o : Op) (s : State) : State := (s.newOp o).after 6 (.bankAccess s.opCount)

/-- Is the access of a unit that stands outside the quad of the target? -/
def Op.far (o : Op) : Bool :=
  match o.cur.unit with
  | .tile t => quadOfPos t != quadOfPos o.mtile
  | .seq n => !isQuadSeq n || n != quadOfPos o.mtile

/-- Is an access an atomic at a memory tile? -/
def Op.isAtomic (o : Op) : Bool :=
  match o.kind with
  | .atomic _ _ _ _ => true
  | _ => false

/-- The input channel of a memory tile's atomic pipeline, or the local place of a plain access (R176, R234). -/
def Op.channel (o : Op) : Nat :=
  match o.cur.unit with
  | .tile t => if o.isAtomic && o.far then 5 else localOfPos t
  | .seq _ => if o.isAtomic && o.far then 5 else 4

/-- The cycle that counts as an access's issue at its banks: a far atomic counts from its entry into the pipeline (log 25). -/
def Op.since (s : State) (o : Op) : Nat := if o.isAtomic && o.far then o.entered.getD s.pcyc - 6 else o.issued

/-- The class of an access, or of a `ttag` (R331), among those issued in one cycle (R176). -/
def Op.rank (o : Op) : Nat :=
  if o.isAtomic then 0
  else if o.gen then 3
  else match o.cur.unit with
    | .tile _ => 1
    | .seq _ => 2

/-- An atomic that waits in an input channel of a memory tile's pipeline. -/
def Op.queued (o : Op) (mt : Nat) : Bool := o.isAtomic && o.mtile = mt && !o.left.isEmpty && !o.refused

/-- Banks at which an access is not served in this cycle: those that have served one, and those of earlier atomics of its tile
that the pipeline has not taken, for the accesses of one tile take effect in issue order (R176, R234). -/
def closedBanks (s : State) (id : Nat) (o : Op) : List Nat :=
  busyBanks s o.mtile ++ (s.ops.filter fun e => e.1 < id && e.2.queued o.mtile && !e.2.far && e.2.cur.unit == o.cur.unit).map
    fun e => bankOf e.2.addr

/-- The words of an access that its banks serve now, in order. -/
def servable (s : State) (id : Nat) (o : Op) : List Nat :=
  (o.left.foldl (fun r k =>
    let b := bankOf (wordOffset s o.mtile o.addr k)
    if r.2.contains b then r else (r.1 ++ [k], r.2 ++ [b])) ([], closedBanks s id o)).1

/-- A value of 64-bit words with word `k` replaced in a blank place. -/
def putWord (v : Vec) (k x : Nat) : Vec := v ||| BitVec.ofNat 2048 (x % 2 ^ 64 * 2 ^ (64 * k))

/-- A presence read that has reached its bank and waits is served in the cycle after its last word was written (R178). -/
def wakeReaders (mt : Nat) (s : State) : State :=
  s.ops.foldl (fun s e =>
    let o := e.2
    if o.kind == .presLoad && o.mtile = mt && o.left.isEmpty && !o.served &&
      (List.range o.words).all fun k => isPresent s mt (o.addr + 8 * k)
    then s.after 1 (.presenceReadServed e.1) else s) s

/-- The value that a presence read returns. -/
def readPresence (s : State) (o : Op) : Vec :=
  (List.range o.words).foldl (fun v k => putWord v k (nearWord s o.mtile (o.addr + 8 * k))) 0

/-- One word of a near access at its bank. -/
def serveWord (o : Op) (k : Nat) (s : State) (got : Vec) : State × Vec :=
  let a := wordOffset s o.mtile o.addr k
  match o.kind with
  | .nearStore v => (setNearWord o.mtile a (elem 64 v.toNat k) s, got)
  | _ => (s, putWord got k (nearWord s o.mtile a))

/-- The near address of a word: local index and offset. -/
def nearAddress (mt o : Nat) : Word := BitVec.ofNat 64 (localOfPos mt * 2 ^ 21 + o)

/-- A presence access keeps the banks of its words while one of them is not free: no later access passes it (R176). -/
def keepBanks (id : Nat) (o : Op) (words : List Nat) (s : State) : State :=
  useBanks o.mtile ((words.map bankOf).filter fun b => !(closedBanks s id o).contains b) s

/-- BANK_ACCESS (R175, R176): the words whose banks are free are served, the others in the next cycle. A load's data is usable
8 cycles after its last word is served. `pclr` clears 256 words in a cycle (R180). -/
def execBankAccess (op : Nat) (s : State) : StepResult :=
  match opAt s op with
  | none => .next s
  | some o =>
    let words := (List.range o.words).map fun k => o.addr + 8 * k
    let free := words.all fun a => !(closedBanks s op o).contains (bankOf a)
    let again := fun s : State => s.after 1 (.bankAccess op)
    match o.kind with
    | .presLoad =>
      if words.all fun a => isPresent s o.mtile a then
        if free then .next (answer op o (readPresence s o) (s.pcyc + 8) (useBanks o.mtile (words.map bankOf) s))
        else .next (again (keepBanks op o words s))
      else .next (setOp op { o with left := [] } s)
    | .presStore v =>
      if !free then .next (again (keepBanks op o words s))
      else
        match words.find? fun a => isPresent s o.mtile a with
        | some a => .next (completionFault op Code.writeTwice (nearAddress o.mtile a) s)
        | none =>
          let s := (List.range o.words).foldl (fun s k =>
            setPresent o.mtile (o.addr + 8 * k) true (setNearWord o.mtile (o.addr + 8 * k) (elem 64 v.toNat k) s)) s
          .next (wakeReaders o.mtile (complete op o (useBanks o.mtile (words.map bankOf) s)))
    | .presClear =>
      let now := servable s op o
      let s := now.foldl (fun s k => setPresent o.mtile (o.addr + 8 * k) false s)
        (useBanks o.mtile (now.map fun k => bankOf (o.addr + 8 * k)) s)
      let left := o.left.filter fun k => !now.contains k
      if !left.isEmpty then .next (again (setOp op { o with left := left } s))
      else if o.words ≤ 256 then .next (complete op o s)
      else .next (again (setOp op { o with addr := o.addr + 2048, words := o.words - 256, left := List.range (min 256 (o.words - 256)) } s))
    | _ =>
      let now := servable s op o
      let r := now.foldl (fun r k => serveWord o k r.1 r.2) (s, o.got)
      let s := useBanks o.mtile (now.map fun k => bankOf (wordOffset s o.mtile o.addr k)) r.1
      let left := o.left.filter fun k => !now.contains k
      let o := { o with got := r.2, left := left }
      if left.isEmpty then
        match o.kind with
        | .nearStore _ => .next (complete op o s)
        | _ => .next (answer op o o.got (s.pcyc + 8) s)
      else .next (again (setOp op o s))

/-- PRESENCE_READ_SERVED (R178): the banks of its words serve the read. One whose word was cleared again keeps waiting (R180). -/
def execPresenceReadServed (op : Nat) (s : State) : StepResult :=
  match opAt s op with
  | none => .next s
  | some o =>
    let words := (List.range o.words).map fun k => o.addr + 8 * k
    if o.served || !(words.all fun a => isPresent s o.mtile a) then .next s
    else if words.all fun a => !(closedBanks s op o).contains (bankOf a) then
      .next (answer op o (readPresence s o) (s.pcyc + 8) (useBanks o.mtile (words.map bankOf) s))
    else .next ((keepBanks op o words s).after 1 (.presenceReadServed op))

/-! ## Near loads and stores (R174) -/

/-- A load of `words` near words into register `d`. -/
def nearLoad (kind : OpKind) (ea : Word) (words : Nat) (presence vec : Bool) (d : BitVec 6) (s : State) : StepResult :=
  nearCheck ea words presence s fun mt o =>
    let res : Result := if vec then wholeVec d 0 else .scalar d.toNat 0
    let op := { mkOp s kind mt o words with dst := some d.toNat }
    finish ((issueLoad op 14 res s).after 6 (.bankAccess s.opCount))

/-- The order channel that field X names, plus 1; 0 for none. -/
def chanOfX (ocx : BitVec 4) : Nat := if ocx.toNat < 8 then 0 else ocx.toNat % 4 + 1
/-- The order channel that field P names, plus 1; 0 for none. -/
def chanOfP (oc : BitVec 3) : Nat := if oc.toNat < 4 then 0 else oc.toNat % 4 + 1

/-- A store of `words` near words on a channel. -/
def nearStore (kind : OpKind) (ea : Word) (words : Nat) (presence : Bool) (ch : Nat) (s : State) : StepResult :=
  nearCheck ea words presence s fun mt o =>
    tagOp ch s fun seqn s => finish (toBanks { mkOp s kind mt o words with chan := ch, seqn := seqn } s)

/-- A scalar as the first word of a store. -/
def wordVec (w : Word) : Vec := w.setWidth 2048

/-- `nld` (R174): timed lists only (R177). -/
def execNld (d a : BitVec 6) (imm : BitVec 26) (s : State) : StepResult :=
  onTile s fun _ => nearLoad .nearLoad (readS s a + simm26 imm) 32 false true d s
/-- `nlds` (R174). -/
def execNlds (d a : BitVec 6) (imm : BitVec 26) (s : State) : StepResult :=
  nearLoad .nearLoad (readS s a + simm26 imm) 1 false false d s
/-- `nst` (R174): timed lists only (R177). -/
def execNst (d a b : BitVec 6) (ocx : BitVec 4) (s : State) : StepResult :=
  onTile s fun _ => nearStore (.nearStore (readV s d)) (readS s a + readS s b) 32 false (chanOfX ocx) s
/-- `nsts` (R174). -/
def execNsts (d a b : BitVec 6) (ocx : BitVec 4) (s : State) : StepResult :=
  nearStore (.nearStore (wordVec (readS s d))) (readS s a + readS s b) 1 false (chanOfX ocx) s

/-! ## Presence (R178 to R180) -/

/-- `pld` (R178). -/
def execPld (d a b : BitVec 6) (s : State) : StepResult := nearLoad .presLoad (readS s a + readS s b) 1 true false d s
/-- `pldv` (R178): timed lists only (R177). -/
def execPldv (d a b : BitVec 6) (s : State) : StepResult :=
  onTile s fun _ => nearLoad .presLoad (readS s a + readS s b) 32 true true d s
/-- `pst` (R179). -/
def execPst (d a b : BitVec 6) (ocx : BitVec 4) (s : State) : StepResult :=
  nearStore (.presStore (wordVec (readS s d))) (readS s a + readS s b) 1 true (chanOfX ocx) s
/-- `pstv` (R179): timed lists only (R177). -/
def execPstv (d a b : BitVec 6) (ocx : BitVec 4) (s : State) : StepResult :=
  onTile s fun _ => nearStore (.presStore (readV s d)) (readS s a + readS s b) 32 true (chanOfX ocx) s

/-- The root group that holds a quad: context, slot, group (R197). -/
def groupOfQuad (s : State) (q : Nat) : Option (Nat × Nat × Nat) :=
  s.graphs.findSome? fun e =>
    (e.2.groups.findIdx? fun g => g.quads.contains q).map fun i => (e.1 / 256, e.1 % 256, i)

/-- Does the partition belong to the root group that holds the issuer's quad (R180)? -/
def ownsPart (s : State) (p : Partition) : Bool :=
  match (curQuad s).bind (groupOfQuad s) with
  | some (c, g, i) => p.ctx = c && p.slot = g && p.grp = i
  | none => false

/-- `pclr` (R180). A count of 0 does nothing and raises nothing, from whatever unit (R243, log 26). -/
def execPclr (a b : BitVec 6) (s : State) : StepResult :=
  let ea := readS s a
  let n := (readS s b).toNat
  if n = 0 then finish s
  else
    nearCheck ea 1 true s fun mt o =>
      match partAt s mt o with
      | some p =>
        if 262144 < n || p.base + p.granules * 65536 < o + 8 * n || !ownsPart s p then raise Code.part ea s
        else finish (toBanks { mkOp s .presClear mt o n with left := List.range (min 256 n) } s)
      | none => raise Code.part ea s

/-! ## Address generators (R181 to R183) -/

/-- The memory tile and the number of generator `ag` of the issuer's quad: `ag`(4m + g) (R75). -/
def genPlace (s : State) (ag : BitVec 6) : Nat × Nat :=
  (memoryOfQuad ((curQuad s).getD 0) (ag.toNat / 4 % 4), ag.toNat % 4)

/-- A generator. -/
def genAt (s : State) (mt g : Nat) : Generator := mget {} (s.mtile mt).gens g
/-- A generator replaced. -/
def setGen (mt g : Nat) (x : Generator) (s : State) : State :=
  s.setMtile mt { s.mtile mt with gens := mset (s.mtile mt).gens g x }

/-- A signed stride of a descriptor, with its bits [2:0] read as 0 (R181). -/
def genStride (d : BitVec 256) (lo : Nat) : Int := signedOf 32 (bitsOf d.toNat lo 32 / 8 * 8)
/-- An extent of a descriptor: 0 is read as 65,536 (R181). -/
def genCount (d : BitVec 256) (lo : Nat) : Nat := if bitsOf d.toNat lo 16 = 0 then 65536 else bitsOf d.toNat lo 16

/-- The offset O of R183. -/
def Generator.offset (g : Generator) : Nat :=
  let base : Int := (bitsOf g.desc.toNat 0 21 / 8 * 8 : Nat)
  ((base + g.j0 * genStride g.desc 128 + g.j1 * genStride g.desc 160 + g.j2 * genStride g.desc 192) % 2097152).toNat

/-- The advance of R183. -/
def Generator.step (g : Generator) : Generator :=
  let j0 := g.j0 + 1
  let c0 := j0 == genCount g.desc 64
  let j1 := if c0 then g.j1 + 1 else g.j1
  let c1 := j1 == genCount g.desc 80
  let j2 := if c1 then g.j2 + 1 else g.j2
  let c2 := j2 == genCount g.desc 96
  { g with j0 := if c0 then 0 else j0, j1 := if c1 then 0 else j1, j2 := if c2 then 0 else j2 }

/-- `agset` (R182): the descriptor is read at its banks, and the generator takes it 14 advancing cycles after the issue. -/
def execAgset (d a : BitVec 6) (s : State) : StepResult :=
  onTile s fun _ =>
    nearCheck (readS s a) 4 false s fun mt o =>
      let p := genPlace s d
      finish ((issueLoad (mkOp s (.takePattern p.2) mt o 4) 14 (.pattern p.1 p.2 0) s).after 6 (.bankAccess s.opCount))

/-- GENERATOR_TAKE_PATTERN (R182). -/
def execGeneratorTakePattern (mtile gen : Nat) (s : State) : StepResult :=
  let g := genAt s mtile gen
  match g.next with
  | [] => .next s
  | d :: rest => .next (setGen mtile gen { desc := d, next := rest } s)

/-- The generator as it stood before the issues of this cycle, with none of them taken. -/
def Generator.opened (g : Generator) (now : Nat) : Generator :=
  if g.at_ = now then { g with j0 := g.from_.1, j1 := g.from_.2.1, j2 := g.from_.2.2 }
  else { g with at_ := now, takers := [], from_ := (g.j0, g.j1, g.j2) }

/-- A tile joins those that use a generator in this cycle, in local index order. -/
def insertTaker (l id : Nat) : List (Nat × Nat) → List (Nat × Nat)
  | [] => [(l, id)]
  | x :: r => if l < x.1 then (l, id) :: x :: r else x :: insertTaker l id r

/-- The accesses of a cycle take their offsets from a generator one after the other, and each advances it (R183). -/
def giveOffsets (mt : Nat) : List (Nat × Nat) → State × Generator → State × Generator
  | [], r => r
  | t :: l, r =>
    let s := match opAt r.1 t.2 with
      | some o => setOp t.2 { o with addr := r.2.offset } r.1
      | none => r.1
    giveOffsets mt l (s, r.2.step)

/-- Does every word at an offset of a memory tile lie where a plain near access reaches it (R172)? -/
def plainAt (s : State) (mt o : Nat) : Bool := (List.range 32).all fun i => modeServes false (modeAt s mt (wordOffset s mt o i))

/-- The number of the generator's issues of this cycle that stand before the issuing tile's. -/
def takersBefore (g : Generator) (now l : Nat) : Nat := if g.at_ = now then (g.takers.filter fun x => x.1 < l).length else 0

/-- The generator after some advances. -/
def Generator.steps (g : Generator) : Nat → Generator
  | 0 => g
  | n + 1 => g.step.steps n

/-- An access at the offset of a generator, which advances (R183): `k` makes the access at an offset. The issues of one cycle take
their offsets in the order of R176, whatever region issues first. -/
def genAccess (ag : BitVec 6) (s : State) (k : Nat → Nat → State → State) : StepResult :=
  let p := genPlace s ag
  let l := match s.cur.unit with
    | .tile t => localOfPos t
    | .seq _ => 4
  let g := genAt s p.1 p.2
  let n := takersBefore g s.pcyc l
  let open_ := g.opened s.pcyc
  let o := (open_.steps n).offset
  if plainAt s p.1 o then
    let takers := insertTaker l s.opCount open_.takers
    let r := giveOffsets p.1 takers (k p.1 o s, open_)
    finish (setGen p.1 p.2 { r.2 with takers := takers } r.1)
  else raise Code.part (nearAddress p.1 o) s

/-- `agld` (R183). -/
def execAgld (d a : BitVec 6) (s : State) : StepResult :=
  onTile s fun _ => genAccess a s fun mt o s =>
    (issueLoad { mkOp s .nearLoad mt o 32 with dst := some d.toNat, gen := true } 14 (wholeVec d 0) s).after 6 (.bankAccess s.opCount)

/-- `agst` (R183). -/
def execAgst (d a : BitVec 6) (s : State) : StepResult :=
  onTile s fun _ => genAccess d s fun mt o s => toBanks { mkOp s (.nearStore (readV s a)) mt o 32 with gen := true } s

end Sys2Proof.Machine
end

