-- ==== Sys2Proof/Machine/Pages.lean ====
section
/-! DEFINITION. Physical memory, page tables, translation engines and the capture of pages by a snapshot (R378 to R390, R402,
R403, R412 to R414, R502). -/

namespace Sys2Proof.Machine

/-! ## Physical addresses (R378, R379) -/

/-- Regions of the physical space. -/
inductive PhysRegion where
  | hbm (die : Nat)
  | tier
  | host
  | unbacked
  deriving DecidableEq, Repr

/-- The region of a physical address; stacks and a tier that failed bring-up are unbacked (R492). -/
def regionOfPa (s : State) (pa : Nat) : PhysRegion :=
  if 2 ^ 52 ≤ pa then .unbacked
  else if 2 ^ 51 ≤ pa then .host
  else if pa / 2 ^ 40 = 0 then
    let d := pa / 2 ^ 36
    if d ≤ 11 && !s.badStacks.contains d then .hbm d else .unbacked
  else if pa / 2 ^ 42 = 1 then if s.badTier then .unbacked else .tier
  else .unbacked

/-- The die behind a physical address: its stack, or the channel of its granule (R379). -/
def dieOfPa (s : State) (pa : Nat) : Option Nat :=
  match regionOfPa s pa with
  | .hbm d => some d
  | .tier => some (pa % 2 ^ 42 / 4096 % 48 / 4)
  | _ => none

/-- Is a page of `n` bytes backed? -/
def backed (s : State) (pa n : Nat) : Bool := regionOfPa s pa != .unbacked && regionOfPa s pa == regionOfPa s (pa + n - 1)

/-- A write of memory sets the dirty bits of its lines in the migrations whose source page it reaches (R393). -/
def markDirty (pa n : Nat) (s : State) : State :=
  { s with xlats := s.xlats.map fun e =>
      (e.1, { e.2 with running := e.2.running.map fun m =>
        let src := bitsOf m.leaf.toNat 16 36 * 65536
        if src < pa + n && pa < src + 2 ^ 30 && 0 < n then
          { m with dirty := ((List.range ((pa + n - 1) / 64 + 1 - pa / 64)).map fun i => pa / 64 + i) ++ m.dirty } else m }) }

/-- Bytes of physical memory written, least significant first. -/
def writePhys (pa n v : Nat) (s : State) : State := markDirty pa n { s with mem := writeLE s.mem pa n v }

/-- Cells of a memory in a range. -/
def cellsIn (m : Memory) (a n : Nat) : Memory := m.filter fun c => a ≤ c.1 && c.1 < a + n
/-- A memory with the `n` bytes at `dst` replaced by those of `src` at `a`. -/
def copyInto (src : Memory) (a : Nat) (m : Memory) (dst n : Nat) : Memory :=
  (cellsIn src a n).foldl (fun m c => writeByte m (c.1 - a + dst) c.2) (m.filter fun c => c.1 < dst || dst + n ≤ c.1)

/-! ## Banks under test (R396) -/

/-- The die of the bank of a physical address, where that bank is under test. -/
def underTest (s : State) (pa : Nat) : Option Nat :=
  match regionOfPa s pa with
  | .hbm d => if (s.die d).testing.contains (pa % 2 ^ 36 / 2 ^ 30) then some d else none
  | _ => none

/-- A request is held at the controllers of a die until the test ends: `w` is what it does then. -/
def holdRequest (d : Nat) (w : Task) (s : State) : State :=
  let x := s.die d
  if x.held.contains w then s else s.setDie d { x with held := x.held ++ [w] }

/-! ## Leaf entries (R382) -/

namespace Leaf

/-- STATE. -/
def state (e : Word) : Nat := bitsOf e.toNat 60 4
/-- SIZE. -/
def size (e : Word) : Nat := bitsOf e.toNat 58 2
/-- PIN. -/
def pin (e : Word) : Bool := bitOf e.toNat 57
/-- D. -/
def d (e : Word) : Bool := bitOf e.toNat 56
/-- S. -/
def s (e : Word) : Bool := bitOf e.toNat 55
/-- W. -/
def w (e : Word) : Bool := bitOf e.toNat 54
/-- RD. -/
def rd (e : Word) : Bool := bitOf e.toNat 53
/-- XE. -/
def xe (e : Word) : Bool := bitOf e.toNat 52
/-- CMT. -/
def cmt (e : Word) : Bool := bitOf e.toNat 15
/-- PA of the page. -/
def pa (e : Word) : Nat := bitsOf e.toNat 16 36 * 65536
/-- Bytes of a page of a size code. -/
def bytesOf (n : Nat) : Nat := if n = 0 then 2 ^ 16 else if n = 1 then 2 ^ 21 else 2 ^ 30
/-- Bytes of the page. -/
def bytes (e : Word) : Nat := bytesOf (size e)
/-- A bit of an entry replaced. -/
def setBit (e : Word) (k : Nat) (b : Bool) : Word :=
  if b then e ||| BitVec.ofNat 64 (2 ^ k) else e &&& ~~~(BitVec.ofNat 64 (2 ^ k))
/-- A field of an entry replaced. -/
def setField (e : Word) (lo n v : Nat) : Word :=
  (e &&& ~~~(BitVec.ofNat 64 ((2 ^ n - 1) * 2 ^ lo))) ||| BitVec.ofNat 64 (v % 2 ^ n * 2 ^ lo)
/-- Is it a RESIDENT or PARKED leaf (R415, R428)? -/
def isHome (e : Word) : Bool := (1 ≤ state e && state e ≤ 3) || state e == 5
/-- Is it pinned (R397)? -/
def pinned (e : Word) : Bool := pin e && rd e && w e && isHome e
/-- Is it malformed (R384)? -/
def malformed (e : Word) : Bool :=
  bitsOf e.toNat 0 15 != 0 || 6 < state e || size e == 3 || (state e == 3 && size e != 0) || pa e % bytes e != 0

end Leaf

/-- Does STATE match the region of the page (R384)? -/
def leafMatches (s : State) (e : Word) : Bool :=
  backed s (Leaf.pa e) (Leaf.bytes e) &&
    match Leaf.state e, regionOfPa s (Leaf.pa e) with
    | 1, .hbm _ => true
    | 2, .tier => true
    | 3, .host => true
    | 4, .hbm _ => true
    | 4, .tier => true
    | 5, .hbm _ => true
    | 5, .tier => true
    | _, _ => false

/-! ## The walk (R381) -/

/-- How a walk ends. -/
inductive WalkEnd where
  /-- A well-formed, backed leaf, the physical address of its entry, and the level. -/
  | leaf (e : Word) (at_ level : Nat)
  /-- NOMAP, BADPTE or UNBACKED, with the entry and the level at which it ended. -/
  | noMap (e : Word) (level : Nat)
  | badPte (e : Word) (level : Nat)
  | unbackedPage (e : Word) (level : Nat)
  deriving DecidableEq, Repr

/-- An entry of a table. -/
def readEntry (s : State) (pa : Nat) : Word := BitVec.ofNat 64 (readLE s.mem pa 8)

/-- The check of a leaf by R384. -/
def checkLeaf (s : State) (e : Word) (place level size : Nat) : WalkEnd :=
  if Leaf.state e = 0 then .noMap e level
  else if Leaf.malformed e || Leaf.state e == 6 || Leaf.size e != size then .badPte e level
  else if leafMatches s e then .leaf e place level
  else .unbackedPage e level

/-- Levels `n` - 1 down to 0 of the walk. A TABLE entry with a reserved bit set is malformed (log 18). -/
def walkFrom (s : State) (va : Nat) (node : Nat) : Nat → WalkEnd
  | 0 => .noMap 0 0
  | n + 1 =>
    let i := bitsOf va (16 + 10 * n) 10
    let e := readEntry s (node + 8 * i)
    if Leaf.state e = 0 then .noMap e n
    else if Leaf.state e = 6 then
      if n = 0 || bitsOf e.toNat 52 8 != 0 || bitsOf e.toNat 0 13 != 0 then .badPte e n
      else
        let next := bitsOf e.toNat 13 39 * 8192
        match regionOfPa s next with
        | .hbm _ => walkFrom s va next n
        | .tier => walkFrom s va next n
        | _ => .unbackedPage e n
    else
      let g := if Leaf.size e = 0 && n = 0 then 1 else if Leaf.size e = 1 && n = 0 then 32
        else if Leaf.size e = 2 && n = 1 then 16 else 0
      if g = 0 then .badPte e n
      else
        let base := node + 8 * (i - i % g)
        checkLeaf s (readEntry s base) base n (Leaf.size e)

/-- The walk of a virtual address in a context. -/
def walk (s : State) (ctx va : Nat) : WalkEnd := walkFrom s va (s.ctx ctx).ptroot 4

/-- The table entries that levels `n` - 1 down to 0 of a walk read. -/
def walkPath (s : State) (va : Nat) (node : Nat) : Nat → List Nat
  | 0 => []
  | n + 1 =>
    let place := node + 8 * bitsOf va (16 + 10 * n) 10
    let e := readEntry s place
    place :: if Leaf.state e = 6 then walkPath s va (bitsOf e.toNat 13 39 * 8192) n else []

/-- The die that tests a bank from which a walk reads an entry, if there is one (R396). -/
def walkTested (s : State) (ctx va : Nat) : Option Nat := (walkPath s va (s.ctx ctx).ptroot 4).findSome? (underTest s)

/-- Does a walk end at an entry with CMT = 1, well-formed or not (R387)? Bit 15 of a TABLE entry is none. -/
def WalkEnd.committing : WalkEnd → Bool
  | .leaf e _ _ => Leaf.cmt e
  | .badPte e _ => Leaf.state e != 6 && Leaf.cmt e
  | .unbackedPage e _ => Leaf.state e != 6 && Leaf.cmt e
  | .noMap _ _ => false

/-! ## The TLB of a die (R385, R386) -/

/-- The TLB entry of a die for an address. -/
def tlbFind (s : State) (die ctx va : Nat) : Option TlbEntry :=
  (s.xlat die).tlb.find? fun e => e.ctx = ctx && e.va ≤ va && va < e.va + e.size

/-- A TLB changed. -/
def updTlb (die : Nat) (f : List TlbEntry → List TlbEntry) (s : State) : State :=
  s.setXlat die { s.xlat die with tlb := f (s.xlat die).tlb }

/-- A leaf enters the TLB of a die: 4,096 entries, the oldest leaves (log 18). -/
def tlbFill (die ctx va : Nat) (e : Word) (place : Nat) (s : State) : State :=
  let n := Leaf.bytes e
  updTlb die (fun l => (({ ctx := ctx, va := va - va % n, size := n, leaf := e, leafAt := place } : TlbEntry)
    :: l.filter fun x => !(x.ctx = ctx && x.va = va - va % n)).take 4096) s

/-- Translations of a range of a context leave the TLBs of the dies for which `d` holds (R399). -/
def tlbDrop (d : Nat → Bool) (ctx lo hi : Nat) (s : State) : State :=
  { s with xlats := s.xlats.map fun e =>
      (e.1, if d e.1 then { e.2 with tlb := e.2.tlb.filter fun x => !(x.ctx = ctx && x.va < hi && lo < x.va + x.size) } else e.2) }

/-- The update of a leaf entry by the part: one 8-byte read-modify-write (R383). -/
def updLeaf (place : Nat) (f : Word → Word) (s : State) : State := writePhys place 8 (f (readEntry s place)).toNat s

/-- Is the access one of a sequencer to DRAM or host memory? -/
def Op.isSeqDram (o : Op) : Bool :=
  match o.kind with
  | .dramLoad _ _ => true
  | .dramStore _ _ => true
  | _ => false

/-- What an access needs (R384). -/
inductive Need where
  | read | write | fetch | both
  deriving DecidableEq, Repr

/-- Does a leaf allow it? -/
def Need.allowed (n : Need) (e : Word) : Bool :=
  match n with
  | .read => Leaf.rd e
  | .write => Leaf.w e
  | .fetch => Leaf.xe e
  | .both => Leaf.rd e && Leaf.w e

/-- Does it write? -/
def Need.writes : Need → Bool
  | .write => true
  | .both => true
  | _ => false

/-! ## Accesses of the part itself (R385 to R388) -/

/-- How an access of the loader, of a save or restore, of the sweeper or of a cellar copy ends: with an answer; at a page of a context
whose entry has CMT = 1, which holds its stream (R387); or in a fault. The time that it takes is not seen (log 57). -/
inductive PartEnd (α : Type) where
  | ok (a : α) (s : State)
  | hold (ctx va : Nat)
  | fault (s : State)

/-- An access, and what follows it. -/
def PartEnd.bind {α β : Type} (e : PartEnd α) (k : α → State → PartEnd β) : PartEnd β :=
  match e with
  | .ok a s => k a s
  | .hold c va => .hold c va
  | .fault s => .fault s

/-- The die on which the part acts for a page of memory: that of its stack or channel. The spec does not say on which die it acts for a page
of host memory: die 0, which holds the host port (R385, log 57). -/
def homeDie (s : State) (pa : Nat) : Nat := (dieOfPa s pa).getD 0

/-- The page that holds an access is the first to be copied back (R428). -/
def copyFirst (ctx va : Nat) (s : State) : State :=
  let x := s.ctx ctx
  let first := x.copyBack.filter fun r => r.vpn * 65536 ≤ va && va < r.vpn * 65536 + Leaf.bytesOf r.size
  if first.isEmpty then s else s.setCtx ctx { x with copyBack := first ++ x.copyBack.filter fun r => !first.contains r }

/-- Is a leaf still what a TLB entry holds of it, D, S and CMT apart (R386)? -/
def sameLeaf (s : State) (t : TlbEntry) : Bool :=
  let e := readEntry s t.leafAt
  bitsOf e.toNat 57 7 == bitsOf t.leaf.toNat 57 7 && bitsOf e.toNat 16 36 == bitsOf t.leaf.toNat 16 36

/-- D is set in a leaf and in the TLB entry under which a write is translated (R386). -/
def setDirty (die : Nat) (t : TlbEntry) (s : State) : State :=
  updTlb die (fun l => l.map fun x => if x == t then { t with leaf := Leaf.setBit t.leaf 56 true } else x)
    (updLeaf t.leafAt (fun e => Leaf.setBit e 56 true) s)

/-- A walk of die `die`'s engine for a stream of the part: its leaf enters the TLB. -/
def partWalk (die ctx va : Nat) (s : State) : PartEnd TlbEntry :=
  let x := s.xlat die
  let w := walk s ctx va
  if x.nodeBad then .fault (s.setXlat die { x with nodeBad := false })
  else if w.committing || (walkTested s ctx va).isSome then .hold ctx va
  else
    match w with
    | .leaf e place _ =>
      let n := Leaf.bytes e
      .ok { ctx := ctx, va := va - va % n, size := n, leaf := e, leafAt := place } (tlbFill die ctx va e place s)
    | _ => .fault s

/-- The translation of an access of the part on a die: from the TLB, or by a walk. -/
def partLeaf (die ctx va : Nat) (need : Need) (s : State) : PartEnd TlbEntry :=
  if 2 ^ 56 ≤ va then .fault s
  else
    let found := match tlbFind s die ctx va with
      | some t => if need.writes && !Leaf.d t.leaf && !sameLeaf s t then partWalk die ctx va s else .ok t s
      | none => partWalk die ctx va s
    found.bind fun t s => if need.allowed t.leaf then .ok t s else .fault s

/-- The physical address of an access of the part; a write sets D (R386). A bank under test holds it (R396). -/
def partPa (die ctx va : Nat) (need : Need) (s : State) : PartEnd Nat :=
  (partLeaf die ctx va need s).bind fun t s =>
    if (underTest s (Leaf.pa t.leaf + (va - t.va))).isSome then .hold ctx va
    else .ok (Leaf.pa t.leaf + (va - t.va)) (if need.writes && !Leaf.d t.leaf then setDirty die t s else s)

/-- `n` accesses of the part, one for each chunk of 64 KiB that a range reaches, by the engine of its die; `k` acts on each chunk's index and
physical address. -/
def partChunks (die : Nat → Nat) (ctx va : Nat) (need : Need) (k : Nat → Nat → State → State) : Nat → Nat → State → PartEnd Unit
  | 0, _, s => .ok () s
  | n + 1, i, s => (partPa (die i) ctx (va + 65536 * i) need s).bind fun pa s => partChunks die ctx va need k n (i + 1) (k i pa s)

/-! ## Other packages (R437, R446) -/

/-- Is an entry of the rank table live (R446)? -/
def liveEntry (w : Word) : Bool := bitsOf w.toNat 62 2 == 1
/-- The links by which an entry of the rank table reaches its package (R446). -/
def rankLinks (s : State) (r : Nat) : List Nat := (List.range 16).filter fun n => bitOf (mget 0 s.ranks r).toNat n
/-- Those of them that are UP. -/
def upLinks (s : State) (r : Nat) : List Nat := (rankLinks s r).filter fun n => (s.link n).state == .up

/-- `n` dynamic items of a class for a rank wait for the lowest-numbered UP link to it (R437); their layout is the part's own
(R501). -/
def sendItems (cls ctx r n : Nat) (s : State) : State :=
  match (upLinks s r).head? with
  | none => s
  | some l => s.setLink l { s.link l with itemsOut := (s.link l).itemsOut ++ List.replicate n { cls := cls, ctx := ctx, rank := s.rank } }

/-- A management request for every other package of a context (R437). -/
def tellPeers (ctx : Nat) (s : State) : State :=
  (((s.graphs.filter fun e => e.1 / 256 = ctx).flatMap fun e => e.2.image.ranks.map Prod.snd).eraseDups).foldl (fun s r => sendItems 0 ctx r 1 s) s

/-! ## The cellar (R402, R403) -/

/-- The physical address of a cellar offset under PLACE 0. -/
def cellarPa (die ctx off : Nat) (w : Bool) (s : State) : PartEnd Nat :=
  partPa die ctx ((s.ctx ctx).cellar.cbase + off) (if w then .both else .read) s

/-- Key in `peerMem` of a cellar offset under PLACE 1. -/
def cellarPeer (s : State) (ctx off : Nat) : Nat :=
  let c := (s.ctx ctx).cellar
  c.peer * 2 ^ 52 + c.cbase + off

/-- Do the links reach the peer package of a cellar: is its rank's entry live, and is a link of its mask UP (R403, R446)? -/
def peerReached (s : State) (ctx : Nat) : Bool :=
  let r := (s.ctx ctx).cellar.peer
  liveEntry (mget 0 s.ranks r) && !(upLinks s r).isEmpty

/-- Cellar traffic of `n` bytes for the peer package of PLACE 1 goes on the links, a line of 64 bytes in each item (R403, R437; log 12). -/
def sendCellar (ctx n : Nat) (s : State) : State := sendItems 3 ctx (s.ctx ctx).cellar.peer ((n + 63) / 64) s

/-- An access of `n` bytes of a cellar fails where its read or write and the retry do, or where the peer that holds it is out of reach; else
`near` or `far` is done, by PLACE. -/
def cellarAccess {α : Type} (ctx n : Nat) (s : State) (near far : State → PartEnd α) : PartEnd α :=
  let x := s.ctx ctx
  if x.cellarBad then .fault (s.setCtx ctx { x with cellarBad := false })
  else if x.cellar.place ≠ 1 then near s
  else if peerReached s ctx then far (sendCellar ctx n s)
  else .fault s

/-- `n` chunks of 64 KiB are copied from physical memory at `pa` into the cellar at `off`, by the engine of die `die`. -/
def toCellar (die ctx pa off : Nat) (s : State) : Nat → PartEnd Unit
  | 0 => .ok () s
  | n + 1 =>
    (cellarAccess ctx 65536 s
      (fun s => (cellarPa die ctx off true s).bind fun q s => .ok () (markDirty q 65536 { s with mem := copyInto s.mem pa s.mem q 65536 }))
      (fun s => .ok () { s with peerMem := copyInto s.mem pa s.peerMem (cellarPeer s ctx off) 65536 })).bind fun _ s =>
        toCellar die ctx (pa + 65536) (off + 65536) s n

/-- The other way: from the cellar to physical memory. -/
def fromCellar (die ctx off pa : Nat) (s : State) : Nat → PartEnd Unit
  | 0 => .ok () s
  | n + 1 =>
    (cellarAccess ctx 65536 s
      (fun s => (cellarPa die ctx off false s).bind fun q s => .ok () (markDirty pa 65536 { s with mem := copyInto s.mem q s.mem pa 65536 }))
      (fun s => .ok () (markDirty pa 65536 { s with mem := copyInto s.peerMem (cellarPeer s ctx off) s.mem pa 65536 }))).bind fun _ s =>
        fromCellar die ctx (off + 65536) (pa + 65536) s n

/-- From one cellar offset to another. -/
def withinCellar (die ctx src dst : Nat) (s : State) : Nat → PartEnd Unit
  | 0 => .ok () s
  | n + 1 =>
    (cellarAccess ctx 65536 s
      (fun s => (cellarPa die ctx src false s).bind fun p s => (cellarPa die ctx dst true s).bind fun q s =>
        .ok () (markDirty q 65536 { s with mem := copyInto s.mem p s.mem q 65536 }))
      (fun s => .ok () { s with peerMem := copyInto s.peerMem (cellarPeer s ctx src) s.peerMem (cellarPeer s ctx dst) 65536 })).bind fun _ s =>
        withinCellar die ctx (src + 65536) (dst + 65536) s n

/-- A byte string written at a cellar offset. -/
def cellarBytes (die ctx off : Nat) (bs : List Byte) (s : State) : PartEnd Unit :=
  cellarAccess ctx bs.length s
    (fun s => (cellarPa die ctx off true s).bind fun q s => .ok () (markDirty q bs.length { s with mem := writeBytes s.mem q bs }))
    (fun s => .ok () { s with peerMem := writeBytes s.peerMem (cellarPeer s ctx off) bs })

/-- `n` chunks of 64 KiB of the cellar are read, from an offset on: the records of the part (R403, R427). -/
def readCellar (die ctx off : Nat) (s : State) : Nat → PartEnd Unit
  | 0 => .ok () s
  | n + 1 => (cellarAccess ctx 65536 s (fun s => (cellarPa die ctx off false s).bind fun _ s => .ok () s) (.ok ())).bind fun _ s =>
      readCellar die ctx (off + 65536) s n

/-- Do two ranges meet? -/
def meets (a n b m : Nat) : Bool := a < b + m && b < a + n

/-- The lowest free cellar location of `n` bytes at a multiple of `n` (R403). -/
def cellarSlot (x : Ctx) (n : Nat) : Option Nat :=
  let ups := 0 :: x.cellarUsed.map fun u => (u.1 + u.2 + n - 1) / n * n
  (ups.filter fun o => o + n ≤ x.cellar.csize && x.cellarUsed.all fun u => !meets o n u.1 u.2).min?

/-- A location of the cellar is taken. -/
def takeCellar (ctx off n : Nat) (s : State) : State :=
  s.setCtx ctx { s.ctx ctx with cellarUsed := (s.ctx ctx).cellarUsed ++ [(off, n)] }

/-! ## Capture (R412 to R415) -/

/-- Is a page of the save area or of the cellar: these are never captured (R403)? -/
def neverCaptured (x : Ctx) (va n : Nat) : Bool :=
  meets va n x.saveBase x.saveSize || (x.cellar.place = 0 && meets va n x.cellar.cbase x.cellar.csize)

/-- The open snapshot of a context, in state OPEN. -/
def Ctx.snapOpen (x : Ctx) : Option Snap := x.snaps.find? fun p => p.state == .opened

/-- The context with its OPEN snapshot changed. -/
def Ctx.updSnap (x : Ctx) (f : Snap → Snap) : Ctx :=
  { x with snaps := x.snaps.map fun p => if p.state == .opened then f p else p }

/-- The page record of a virtual page in the newest kept snapshot that holds one (R413). -/
def keptCopy (x : Ctx) (va : Nat) : Option PageRec :=
  let kept := (x.snaps.filter fun p => p.state == .sealed).reverse
  let newer := kept.filter fun p => p.epoch = x.epoch
  let order := newer ++ (kept.filter fun p => p.epoch != x.epoch && p.id = x.base) ++ kept.filter fun p => p.epoch != x.epoch && p.id != x.base
  order.findSome? fun p => p.pages.find? fun r => r.vpn * 65536 = va

/-- A page enters the list of captured pages, in increasing VA. -/
def insertPage (r : PageRec) : List PageRec → List PageRec
  | [] => [r]
  | q :: l => if r.vpn < q.vpn then r :: q :: l else if r.vpn = q.vpn then r :: l else q :: insertPage r l

/-- The snapshot fails in this cycle (R419). -/
def failSnap (ctx reason : Nat) (s : State) : State := s.soon (.snapshotFail ctx reason)

/-- D of a leaf that a capture clears is clear in every TLB that holds the leaf, so that the next write sets it again (R386, R413,
log 18). -/
def clearDirty (place : Nat) (s : State) : State :=
  { s with xlats := s.xlats.map fun e => (e.1, { e.2 with tlb := e.2.tlb.map fun t =>
      if t.leafAt = place then { t with leaf := Leaf.setBit t.leaf 56 false } else t }) }

/-- A capture of the page at `va` with leaf `e` at `place`: a NEW copy where D = 1 or no kept snapshot holds a copy, else a
reference; then S := polarity and D := 0 (R413). Where a page of the cellar is being committed, nothing happens yet (R387). -/
def capture (ctx va : Nat) (e : Word) (place : Nat) (s : State) : PartEnd Unit :=
  let x := s.ctx ctx
  match x.snapOpen with
  | none => .ok () s
  | some p =>
    let n := Leaf.bytes e
    let done := fun (r : PageRec) (fresh : Nat) (s : State) =>
      clearDirty place (updLeaf place (fun e => Leaf.setBit (Leaf.setBit e 55 x.pol) 56 false)
        (s.setCtx ctx ((s.ctx ctx).updSnap fun p => { p with pages := insertPage r p.pages, newCopies := p.newCopies + fresh })))
    match (if Leaf.d e then none else keptCopy x va) with
    | some r => .ok () (done { r with vpn := va / 65536, size := Leaf.size e } 0 s)
    | none =>
      match cellarSlot x n with
      | none => .ok () (failSnap ctx 1 s)
      | some off =>
        let die := homeDie s (Leaf.pa e)
        if (underTest s (Leaf.pa e)).isSome then .hold ctx va
        else if (s.xlat die).nodeBad then .ok () (failSnap ctx 3 (s.setXlat die { s.xlat die with nodeBad := false })) else
        match toCellar die ctx (Leaf.pa e) off (takeCellar ctx off n s) (n / 65536) with
        | .ok _ s' => .ok () (done { vpn := va / 65536, size := Leaf.size e, holder := p.id, coff := off } 1 s')
        | .hold c v => .hold c v
        | .fault s' => .ok () (failSnap ctx 2 s')

/-- Before a write with M = 1 to the page of a leaf: an uncaptured page of an OPEN snapshot is captured (R413). -/
def captureFor (ctx va : Nat) (place : Nat) (s : State) : PartEnd Unit :=
  let x := s.ctx ctx
  let e := readEntry s place
  let page := va - va % Leaf.bytes e
  if x.snapOpen.isSome && Leaf.s e != x.pol && !neverCaptured x page (Leaf.bytes e) then capture ctx page e place s else .ok () s

/-- Before a write with M = 0 at offset `off` of the page at `page`: it is written in the page's NEW copy too, which is made from the
referenced copy where there is none yet (R413). Where a page of the cellar is being committed, nothing happens yet (R387). -/
def mirrorOld (die ctx page off n v : Nat) (s : State) : PartEnd Unit :=
  let x := s.ctx ctx
  match x.snapOpen with
  | none => .ok () s
  | some p =>
    match p.pages.find? fun r => r.vpn * 65536 = page with
    | none => .ok () s
    | some r =>
      let bytes := Leaf.bytesOf r.size
      let failed := fun (reason : Nat) (e : PartEnd Unit) => match e with
        | .fault s' => PartEnd.ok () (failSnap ctx reason s')
        | e => e
      let put := fun (coff : Nat) (s : State) => cellarBytes die ctx (coff + off) (readBytes (writeLE [] 0 n v) 0 n) s
      if r.holder = p.id then failed 2 (put r.coff s)
      else
        match cellarSlot x bytes with
        | none => .ok () (failSnap ctx 1 s)
        | some o => failed 2 ((withinCellar die ctx r.coff o (takeCellar ctx o bytes s) (bytes / 65536)).bind fun _ s =>
            put o (s.setCtx ctx ((s.ctx ctx).updSnap fun p =>
              { p with pages := insertPage { r with holder := p.id, coff := o } p.pages, newCopies := p.newCopies + 1 })))

/-! ## Translated accesses -/

/-- What a translation under a TLB answers. -/
inductive Xlation where
  /-- The physical address, and the start of the virtual page. -/
  | ok (pa page : Nat) (s : State)
  | miss (s : State)
  | denied

/-- An access at `va` through the TLB of a die. A write under an entry with D = 0 sets D in the leaf if it still is as the TLB
holds it, and is else translated again; under an entry with D = 1 it leaves the leaf alone (R386). With `m`, a page not yet
captured is captured first (R413, R414); while that is held, the stream waits as behind a miss. -/
def translate (die ctx va : Nat) (need : Need) (m : Bool) (s : State) : Xlation :=
  match tlbFind s die ctx va with
  | none => .miss s
  | some t =>
    if !need.allowed t.leaf then .denied
    else
      let pa := Leaf.pa t.leaf + (va - t.va)
      if !need.writes then .ok pa t.va s
      else
        let same := sameLeaf s t
        let rest := fun s : State =>
          match tlbFind s die ctx va with
          | none => .miss s
          | some u =>
            if Leaf.d u.leaf then .ok pa t.va s
            else if !same || (underTest s u.leafAt).isSome then .miss (updTlb die (fun l => l.filter (· != u)) s)
            else .ok pa t.va (setDirty die u s)
        if m && same then
          match captureFor ctx va t.leafAt s with
          | .ok _ s => rest s
          | .fault s => rest s
          | .hold c v => .miss (copyFirst c v s)
        else rest s

/-- The physical address of a write of the loader: a page not yet captured by an open snapshot is captured first (R413). -/
def partWrite (die ctx va : Nat) (s : State) : PartEnd Nat :=
  (partLeaf die ctx va .write s).bind fun _ s =>
    match translate die ctx va .write true s with
    | .ok pa _ s => .ok pa s
    | .miss _ => .hold ctx va
    | .denied => .fault s

/-- Bytes written by the loader from a virtual address on, up to `n` pages of 64 KiB. -/
def partBytes (die ctx : Nat) : Nat → Nat → List Byte → State → PartEnd Unit
  | 0, _, _, s => .ok () s
  | n + 1, va, bs, s =>
    if bs.isEmpty then .ok () s
    else
      let k := 65536 - va % 65536
      (partWrite die ctx va s).bind fun pa s =>
        partBytes die ctx n (va + k) (bs.drop k) (markDirty pa (min k bs.length) { s with mem := writeBytes s.mem pa (bs.take k) })

/-- A walk starts for a stream: it ends after a time that the spec leaves open (R386). -/
def startWalk (die ctx va : Nat) (st : Stream) (dst : Option Nat) (s : State) : State :=
  let o : Op := { kind := .walk, cur := { s.cur with unit := match st with | .seq n => .seq n | _ => s.cur.unit }, stream := st
                  ctx := ctx, mtile := die, va := va, issued := s.pcyc, dst := dst }
  (s.newOp o).later (.walkComplete s.opCount)

/-- Is the open snapshot's cut after the issue of this access: the marker bit M (R412)? -/
def Op.marker (s : State) (o : Op) : Bool := o.pol == (s.ctx o.ctx).pol

/-- The walk for a `pgstat` of a sequencer that has not ended: the later requests of its stream wait (R386, R401). -/
def walkAhead (s : State) (n : Nat) : Option Nat :=
  (s.ops.find? fun e => e.2.kind == .walk && e.2.stream == .seq n && e.2.dst.isSome).map Prod.fst

/-- The stream of a request that a test bank holds, with its context (R386, R396). -/
def heldStream (s : State) (w : Task) : Option (Nat × Stream) :=
  let ofOp := fun id : Nat => (opAt s id).map fun o => (o.ctx, match o.cur.unit, o.isSeqDram with
    | .seq n, true => Stream.seq n
    | _, _ => o.stream)
  match w with
  | .event (.dramAccessPerformed id) => ofOp id
  | .event (.dramReply id) => ofOp id
  | .event (.walkComplete id) => ofOp id
  | .event (.scatterAddUpdate c g m) => some (c, .memActor g m)
  | .memActor c g m => some (c, .memActor g m)
  | .copy c g t => some (c, .copy g t)
  | .seq n => some ((s.seq n).ctxid, .seq n)
  | _ => none

/-- Does a test bank hold a request of a stream: then its later requests wait, as on a miss (R396)? -/
def streamHeld (s : State) (c : Nat) (st : Stream) : Bool := s.dies.any fun e => e.2.held.any fun w => heldStream s w == some (c, st)

/-- A sequencer's translated access: PAGE for a fault, a wait for a walk, or `k` (R115, R386, R388). -/
def seqAccess (n va : Nat) (need : Need) (s : State) (k : Nat → Nat → State → StepResult) : StepResult :=
  let c := (s.seq n).ctxid
  let die := dieOfSeq n
  if 2 ^ 56 ≤ va then .next (ownFault n Code.page (BitVec.ofNat 64 va) s)
  else if streamHeld s c (.seq n) then .next (s.updSeq n fun q => { q with ready := s.pcyc + 1 })
  else if let some id := walkAhead s n then .next (s.updSeq n fun q => { q with run := .xlat id, ready := s.pcyc + 1 })
  else
    match translate die c va need true s with
    | .ok pa page s' => k pa page s'
    | .denied => .next (ownFault n Code.page (BitVec.ofNat 64 va) s)
    | .miss s' => .next ((startWalk die c va (.seq n) none s').updSeq n fun q => { q with run := .xlat s'.opCount, ready := s.pcyc + 1 })

/-! ## Reports of engines (R187, R375, R388) -/

/-- The tile of the list with which an engine works: the peer list's of a memory actor, the bound actor's of a template. A gather or a
scatter-add with arcs to two lists works with the list at its arc of the lowest tag: R188 names one peer list and does not say which
(DESIGN CHOICE, log 44). -/
def Stream.tileOf (s : State) (ctx : Nat) : Stream → Option Nat
  | .seq _ => none
  | .ring => none
  | .memActor slot ma =>
    s.arcs.findSome? fun e =>
      if e.1 / 4096 = ctx && e.2.slot = slot then
        match e.2.src, e.2.dst with
        | .mem m _, .tile t _ => if m = ma then some t else none
        | .tile t _, .mem m _ => if m = ma then some t else none
        | _, _ => none
      else none
  | .copy slot tpl =>
    s.arcs.findSome? fun e =>
      if e.1 / 4096 = ctx + 64 && e.2.slot = slot then
        match e.2.src, e.2.dst with
        | .copy c, .tile t _ => if c = tpl then some t else none
        | _, _ => none
      else none

/-- The engine of a stream changed: a memory actor, or a copy template. -/
def updEngine (ctx : Nat) (st : Stream) (f : MemActor → MemActor) (h : Template → Template) (s : State) : State :=
  match st with
  | .seq _ => s
  | .ring => s
  | .memActor slot ma =>
    match s.graph? ctx slot with
    | none => s
    | some g => s.setGraph ctx slot { g with mems := g.mems.set ma (f (g.mems.getD ma {})) }
  | .copy slot tpl =>
    match s.graph? ctx slot with
    | none => s
    | some g => s.setGraph ctx slot { g with copies := g.copies.set tpl (h (g.copies.getD tpl {})) }

/-- Is an engine waiting on a report: PAGEWAIT of R260? -/
def setPagewait (ctx : Nat) (st : Stream) (b : Bool) (s : State) : State :=
  updEngine ctx st (fun m => { m with pagewait := b }) (fun t => { t with pagewait := b }) s

/-- An engine stops at a read that ended in MEMERR, or goes on (R375). -/
def setHeld (ctx : Nat) (st : Stream) (b : Bool) (s : State) : State :=
  updEngine ctx st (fun m => { m with held := b }) (fun t => { t with held := b }) s

/-- The address of the request at which an engine stops, if it waits on a report (R388). -/
def faultOf (s : State) (ctx : Nat) : Stream → Option Nat
  | .memActor slot ma => (s.graph? ctx slot).bind fun g => (g.mems[ma]?).bind fun m => if m.pagewait then some m.faultVa else none
  | .copy slot tpl => (s.graph? ctx slot).bind fun g => (g.copies[tpl]?).bind fun t => if t.pagewait then some t.faultVa else none
  | _ => none

/-- A fault of an engine is reported to the quad sequencer of its peer list (R375, R388). `TWHERE` names the list's tile; the spec gives it no
SEG, ENTRY or CYC, which are 0 (DESIGN CHOICE, log 78). -/
def passEngine (ctx : Nat) (st : Stream) (code : Nat) (info : Word) (s : State) : State :=
  match st.tileOf s ctx with
  | none => s
  | some t => passTrap (quadOfPos t) { cause := code, info := info, loc := s.tileLoc t 0 0 0, kind := .engine st } s

/-- A translation fault of an engine (R388): its report, and PAGEWAIT. -/
def engineReport (ctx : Nat) (st : Stream) (code : Nat) (info : Word) (s : State) : State :=
  match st.tileOf s ctx with
  | none => s
  | some _ => updEngine ctx st (fun m => { m with pagewait := true, faultVa := info.toNat }) (fun t => { t with pagewait := true, faultVa := info.toNat })
      (passEngine ctx st code info s)

/-- Does an engine wait for the end of a walk (R386)? -/
def isWalking (s : State) (ctx : Nat) (st : Stream) : Bool :=
  s.ops.any fun e => e.2.kind == .walk && e.2.stream == st && e.2.ctx = ctx

/-- Does an engine wait for a `tret` (R375, R388)? -/
def awaitsTret (s : State) (ctx : Nat) : Stream → Bool
  | .memActor slot ma => (s.graph? ctx slot).any fun g => (g.mems[ma]?).any fun m => m.pagewait || m.held
  | .copy slot tpl => (s.graph? ctx slot).any fun g => (g.copies[tpl]?).any fun t => t.pagewait || t.held
  | _ => false

/-- Does an engine wait for the `tret` of a read that ended in MEMERR (R375)? -/
def awaitsReread (s : State) (ctx : Nat) (st : Stream) : Bool := s.ops.any fun e => e.2.refused && e.2.ctx = ctx && e.2.stream == st

/-- An engine's translated access: `k`, or a wait for a walk, or a report (R388). The engine tries again by itself. -/
def engineAccess (ctx : Nat) (st : Stream) (va : Nat) (need : Need) (m : Bool) (s : State)
    (k : Nat → Nat → State → State) : State :=
  let die := dieOfPos ((st.tileOf s ctx).getD 0)
  if isWalking s ctx st then s
  else if 2 ^ 56 ≤ va then engineReport ctx st Code.nomap (BitVec.ofNat 64 va) s
  else
    match translate die ctx va need m s with
    | .ok pa page s' => k pa page s'
    | .denied => engineReport ctx st (Code.nomap + 1) (BitVec.ofNat 64 va) s
    | .miss s' => startWalk die ctx va st none s'

/-! ## `pgstat` (R401) and the end of a walk (R385 to R388) -/

/-- The pass in progress for a MIGRATING page whose entry stands at `place`; else 0. -/
def passOf (s : State) (e : Word) (place : Nat) : Nat :=
  if Leaf.state e = 4 then
    (s.xlats.findSome? fun x => (x.2.running.find? fun m => m.entry = place).map fun m => m.pass).getD 0
  else 0

/-- The word of R401. -/
def pgstatWord (e : Word) (why level : Nat) (hit : Bool) (pass : Nat) : Word :=
  BitVec.ofNat 64 (e.toNat / 2 ^ 15 * 2 ^ 15 + why % 8 * 2 ^ 12 + level % 4 * 2 ^ 10 + bit hit * 2 ^ 9 + pass % 8 * 2 ^ 6)

/-- The word of R401 for the end of a walk. -/
def WalkEnd.word (s : State) (hit : Bool) : WalkEnd → Word
  | .leaf e place level => pgstatWord e 0 level hit (passOf s e place)
  | .noMap e level => pgstatWord e 1 level hit 0
  | .badPte e level => pgstatWord e 3 level hit 0
  | .unbackedPage e level => pgstatWord e 4 level hit 0

/-- The level at which a walk ends. -/
def WalkEnd.level : WalkEnd → Nat
  | .leaf _ _ l => l
  | .noMap _ l => l
  | .badPte _ l => l
  | .unbackedPage _ l => l

/-- The fault code of the end of a walk for an engine (R388). -/
def WalkEnd.code : WalkEnd → Nat
  | .leaf _ _ _ => 0
  | .noMap _ _ => Code.nomap
  | .badPte _ _ => Code.nomap + 2
  | .unbackedPage _ _ => Code.nomap + 3

/-- The dispatcher stops reading a submission ring at the record at `va`: a LAUNCH record tells the host (R263). -/
def stopRing (ctx va : Nat) (s : State) : State :=
  (s.setCtx ctx { s.ctx ctx with ringStop := true, ringBad := false }).tellOpen ctx Code.launch 0xFFFF (some (BitVec.ofNat 64 va))

/-- A sequencer whose stream waits for the walk of its `pgstat` goes on (R386). -/
def streamGoesOn (op : Nat) (o : Op) (s : State) : State :=
  match o.stream with
  | .seq n => if (s.seq n).run == .xlat op then s.updSeq n fun q => { q with run := .run } else s
  | _ => s

/-- A stream's walk has ended in a fault. -/
def walkFault (o : Op) (code : Nat) (s : State) : State :=
  match o.stream with
  | .seq n => ownFault n Code.page (BitVec.ofNat 64 o.va) (s.updSeq n fun q => { q with run := .run })
  | .ring => stopRing o.ctx o.va s
  | st => engineReport o.ctx st code (BitVec.ofNat 64 o.va) s

/-- WALK_COMPLETE (R386): a good leaf enters the TLB and the stream replays; an entry with CMT = 1 holds it (R387), and its page is copied back first (R428); anything
else is the fault of R388, or the answer of `pgstat`. -/
def execWalkComplete (op : Nat) (s : State) : StepResult :=
  match opAt s op with
  | none => .next s
  | some o =>
    let w := walk s o.ctx o.va
    let fill := fun s : State =>
      match w with
      | .leaf e place _ => tlbFill o.mtile o.ctx o.va e place s
      | _ => s
    if let some d := walkTested s o.ctx o.va then .next (holdRequest d (.event (.walkComplete op)) s)
    else if w.committing then .next ((copyFirst o.ctx o.va s).later (.walkComplete op))
    else
      match o.dst with
      | some _ => .next (streamGoesOn op o ((answer op o (wordVec (w.word s false)) s.pcyc (fill s)).dropOp op))
      | none =>
        match w with
        | .leaf _ _ _ =>
          let s := (fill s).dropOp op
          match o.stream with
          | .seq n => .next (s.updSeq n fun q => { q with run := .run })
          | _ => .next s
        | _ => .next (walkFault o w.code (s.dropOp op))

/-! ## The leaves of a context, as the sweepers visit them (R415, R419) -/

/-- The leaves of a table, in increasing VA: address, place of the entry, entry. -/
def leavesFrom (s : State) (node base : Nat) : Nat → List (Nat × Nat × Word)
  | 0 => []
  | n + 1 =>
    (List.range 1024).flatMap fun i =>
      let e := readEntry s (node + 8 * i)
      let va := base + i * 2 ^ (16 + 10 * n)
      if Leaf.state e = 0 then []
      else if Leaf.state e = 6 then if n = 0 then [] else leavesFrom s (bitsOf e.toNat 13 39 * 8192) va n
      else
        let g := if Leaf.size e = 0 && n = 0 then 1 else if Leaf.size e = 1 && n = 0 then 32 else if Leaf.size e = 2 && n = 1 then 16 else 0
        if g ≠ 0 && i % g = 0 && !Leaf.malformed e then [(va, node + 8 * i, e)] else []

/-- The leaves of a context. -/
def leaves (s : State) (c : Nat) : List (Nat × Nat × Word) := leavesFrom s (s.ctx c).ptroot 0 4

end Sys2Proof.Machine
end

