-- ==== Sys2Proof/Machine/Dram.lean ====
section
/-! DEFINITION. Accesses of sequencers to DRAM and host memory (R113 to R116), `fence` (R236), `pginv`, `pgfence`, `pgstat`
(R398 to R401), migration and parking (R391 to R396), and reads that fail (R373 to R376). -/

namespace Sys2Proof.Machine

/-! ## Loads and stores (R114 to R116) -/

/-- A load of `bytes` bytes. -/
def dramLoad (bytes : Nat) (signed : Bool) (d a : BitVec 6) (imm : BitVec 26) (s : State) : StepResult :=
  onSeq s fun n =>
    let va := (readS s a + simm26 imm).toNat
    if va % bytes ≠ 0 then .next (ownFault n Code.align (BitVec.ofNat 64 va) s)
    else seqAccess n va .read s fun pa _ s =>
      let o := { mkOp s (.dramLoad bytes signed) 0 pa 1 with va := va, dst := some d.toNat, pol := (s.ctx (curCtx s)).pol }
      finish ((issueLoad o 0 .moderr s).later (.dramAccessPerformed s.opCount))

/-- A store of `bytes` bytes. -/
def dramStore (bytes : Nat) (d a : BitVec 6) (imm : BitVec 26) (s : State) : StepResult :=
  onSeq s fun n =>
    let va := (readS s a + simm26 imm).toNat
    if va % bytes ≠ 0 then .next (ownFault n Code.align (BitVec.ofNat 64 va) s)
    else seqAccess n va .write s fun pa page s =>
      let o := { mkOp s (.dramStore bytes (readS s d)) 0 pa 1 with va := va, usable := page, pol := (s.ctx (curCtx s)).pol }
      finish ((s.newOp o).later (.dramAccessPerformed s.opCount))

/-- `ld` (R114). -/
def execLd (d a : BitVec 6) (imm : BitVec 26) (s : State) : StepResult := dramLoad 8 false d a imm s
/-- `ld.i8` (R114). -/
def execLdI8 (d a : BitVec 6) (imm : BitVec 26) (s : State) : StepResult := dramLoad 1 true d a imm s
/-- `ld.ui8` (R114). -/
def execLdUi8 (d a : BitVec 6) (imm : BitVec 26) (s : State) : StepResult := dramLoad 1 false d a imm s
/-- `ld.i16` (R114). -/
def execLdI16 (d a : BitVec 6) (imm : BitVec 26) (s : State) : StepResult := dramLoad 2 true d a imm s
/-- `ld.ui16` (R114). -/
def execLdUi16 (d a : BitVec 6) (imm : BitVec 26) (s : State) : StepResult := dramLoad 2 false d a imm s
/-- `ld.i32` (R114). -/
def execLdI32 (d a : BitVec 6) (imm : BitVec 26) (s : State) : StepResult := dramLoad 4 true d a imm s
/-- `ld.ui32` (R114). -/
def execLdUi32 (d a : BitVec 6) (imm : BitVec 26) (s : State) : StepResult := dramLoad 4 false d a imm s
/-- `st` (R114). -/
def execSt (d a : BitVec 6) (imm : BitVec 26) (s : State) : StepResult := dramStore 8 d a imm s
/-- `st.i8` (R114). -/
def execStI8 (d a : BitVec 6) (imm : BitVec 26) (s : State) : StepResult := dramStore 1 d a imm s
/-- `st.i16` (R114). -/
def execStI16 (d a : BitVec 6) (imm : BitVec 26) (s : State) : StepResult := dramStore 2 d a imm s
/-- `st.i32` (R114). -/
def execStI32 (d a : BitVec 6) (imm : BitVec 26) (s : State) : StepResult := dramStore 4 d a imm s

/-- The number of bytes of a sequencer's DRAM access; 0 for any other. -/
def OpKind.dramBytes : OpKind → Nat
  | .dramLoad n _ => n
  | .dramStore n _ => n
  | _ => 0

/-- Is the access one of a sequencer to DRAM or host memory? -/
def Op.isDram (o : Op) : Bool := o.kind.dramBytes != 0

/-- Has the same sequencer an earlier access to the same line, not yet performed (R116, R380)? -/
def blockedByEarlier (s : State) (id : Nat) (o : Op) : Bool :=
  s.ops.any fun e => e.1 < id && e.2.isDram && e.2.cur.unit == o.cur.unit && e.2.addr / 64 = o.addr / 64 && !e.2.refused

/-- The value of a load. -/
def loadValue (bytes : Nat) (signed : Bool) (v : Nat) : Word :=
  if signed then BitVec.ofInt 64 (signedOf (8 * bytes) v) else BitVec.ofNat 64 v

/-- DRAM_ACCESS_PERFORMED (R116): accesses of a sequencer to one line are performed in its order; a bank under test holds them
(R396); a write with M = 0 also reaches the NEW copy (R413). -/
def execDramAccessPerformed (op : Nat) (s : State) : StepResult :=
  match opAt s op with
  | none => .next s
  | some o =>
    if o.refused then .next s
    else
      match underTest s o.addr with
      | some d => .next (holdRequest d (.event (.dramAccessPerformed op)) s)
      | none =>
        if blockedByEarlier s op o then .next (s.later (.dramAccessPerformed op))
        else
          match o.kind with
          | .dramLoad n sg => .next (complete op o (answer op o (wordVec (loadValue n sg (readLE s.mem o.addr n))) s.pcyc s))
          | .dramStore n v =>
            match (if o.marker s then .ok () s else mirrorOld (homeDie s o.addr) o.ctx o.usable (o.va - o.usable) n v.toNat s) with
            | .ok _ s => .next (complete op o (writePhys o.addr n v.toNat s))
            | .hold c va => .next ((copyFirst c va s).later (.dramAccessPerformed op))
            | .fault s => .next (complete op o (writePhys o.addr n v.toNat s))
          | _ => .next s

/-! ## Waiting instructions: `fence`, `pginv`, `pgfence` (R236, R399, R400) -/

/-- Does the target of an access lie in the reach of a fence scope of unit `n` (R236)? -/
def inReach (s : State) (n scope : Nat) (o : Op) : Bool :=
  let near := match o.kind with
    | .nearLoad => true
    | .nearStore _ => true
    | .presLoad => true
    | .presStore _ => true
    | .presClear => true
    | .atomic _ _ _ _ => true
    | _ => false
  if near then
    4 ≤ scope || (scope = 3 && dieOfPos o.mtile = dieOfSeq n) || (isQuadSeq n && quadOfPos o.mtile = n)
  else
    match o.kind with
    | .remote _ _ _ _ _ => scope = 5
    | _ => o.isDram && (4 ≤ scope || (scope = 3 && dieOfPa s o.addr == some (dieOfSeq n)))

/-- Accesses of unit `n` that are not complete. -/
def openOps (s : State) (n : Nat) (f : Op → Bool) : Bool := s.ops.any fun e => e.2.cur.unit == .seq n && f e.2

/-- A sequencer stays at an instruction that waits: it is tried again in every cycle, and a trap entry comes back to it. -/
def stay (n : Nat) (r : RunState) (s : State) : StepResult := .next (s.updSeq n fun q => { q with run := r, ready := s.pcyc + 1 })

/-- The wait is over: the sequencer goes on behind the instruction. -/
def passOn (n : Nat) (s : State) : StepResult := .next (s.updSeq n fun q => { q.advance s.pcyc with run := .run })

/-- An instruction issues and the unit waits in it: the delay of the next one counts from here (R21). -/
def issueAndStay (n : Nat) (r : RunState) (s : State) : StepResult :=
  .next (s.updSeq n fun q => { q with run := r, last := s.pcyc, ready := s.pcyc + 1 })

/-- The wait of an instruction that has issued is over. -/
def passIssued (n : Nat) (s : State) : StepResult := .next (s.updSeq n fun q => { q.advance q.last with run := .run, ready := s.pcyc + 1 })

/-- Does a `fence` that has issued still hold the later instructions of unit `n` (R236)? -/
def fenceHolds (s : State) (n scope : Nat) : Bool := openOps s n (inReach s n scope)

/-- `fence` (R236): it issues at once; the later instructions wait until the earlier accesses in its reach are complete. -/
def execFence (scope : BitVec 3) (s : State) : StepResult :=
  onSeq s fun n => .next (s.updSeq n fun q =>
    { q.advance s.pcyc with run := if fenceHolds s n scope.toNat then .fence scope.toNat else .run })

/-- Is a die in the reach of a scope of `pginv` or `pgfence` (R398)? -/
def dieInReach (n scope d : Nat) : Bool := 4 ≤ scope || d = dieOfSeq n

/-- Is one of some accesses still under way? -/
def anyOpen (s : State) (ids : List Nat) : Bool := ids.any fun id => (opAt s id).isSome

/-- The die whose engine translates for a stream: that of its unit. -/
def dieOfStream (s : State) (o : Op) : Nat :=
  match o.stream with
  | .seq m => dieOfSeq m
  | .ring => 0
  | st => dieOfPos ((st.tileOf s o.ctx).getD 0)

/-- The accesses of a context that the engines in reach translated under an entry that meets a range (R399). -/
def underRange (s : State) (n scope c lo hi : Nat) : List Nat :=
  let spans := fun (die va : Nat) => (lo ≤ va && va < hi) || (s.xlat die).tlb.any fun t =>
    t.ctx = c && t.va < hi && lo < t.va + t.size && t.va ≤ va && va < t.va + t.size
  s.ops.filterMap fun e =>
    let moves := match e.2.kind with
      | .engineRead _ _ => true
      | _ => e.2.isDram
    let die := dieOfStream s e.2
    if moves && !e.2.served && !e.2.refused && e.2.ctx = c && dieInReach n scope die && spans die e.2.va then some e.1 else none

/-- The other packages that scope 5 reaches from a context: those that hold a group of it, and whose rank's entry is live (R398, R446). -/
def scopeRanks (s : State) (c scope : Nat) : List Nat :=
  if scope ≠ 5 then []
  else (((s.graphs.filter fun e => e.1 / 256 = c).flatMap fun e => e.2.image.ranks.map Prod.snd).filter fun r => liveEntry (mget 0 s.ranks r)).eraseDups

/-- Unit `n` asks the packages in reach of a scope to do their part, and awaits their answers. -/
def askPackages (n c scope : Nat) (s : State) : State :=
  let rs := scopeRanks s c scope
  if rs.isEmpty then s
  else
    let s := rs.foldl (fun s r => sendItems 0 c r 1 s) s
    s.setCtx c { s.ctx c with awaited := (s.ctx c).awaited.filter (fun e => e.1 != n) ++ rs.map fun r => (n, r) }

/-- Has a package in reach not yet answered unit `n`? -/
def awaitsPackages (s : State) (n c : Nat) : Bool := (s.ctx c).awaited.any fun e => e.1 = n

/-- `pginv` (R399): earlier `ld` and `st` are performed first; translations of the range leave the TLBs in reach; it completes when the
requests translated under one of them have left their egress queues, and every package in reach has done the same. -/
def execPginv (a b : BitVec 6) (scope : BitVec 4) (s : State) : StepResult :=
  onSeq s fun n =>
    let c := (s.seq n).ctxid
    match (s.seq n).run with
    | .pginv (some ids) => if anyOpen s ids || awaitsPackages s n c then stay n (.pginv (some ids)) s else passOn n s
    | _ =>
      if openOps s n Op.isDram then stay n (.pginv none) s
      else
        let lo := (readS s a).toNat
        let hi := min (lo + (readS s b).toNat) (2 ^ 56)
        if readS s b = 0 || 2 ^ 56 ≤ lo then passOn n s
        else
          let ids := underRange s n scope.toNat c lo hi
          let s := askPackages n c scope.toNat (tlbDrop (dieInReach n scope.toNat) c lo hi s)
          if ids.isEmpty && !awaitsPackages s n c then passOn n s else stay n (.pginv (some ids)) s

/-- The walks of a context on the dies for which `d` holds. -/
def walksOn (s : State) (d : Nat → Bool) (c : Nat) : List Nat :=
  s.ops.filterMap fun e => if e.2.kind == .walk && e.2.ctx = c && d e.2.mtile then some e.1 else none

/-- `pgfence` (R400): earlier `ld` and `st` are performed, and the walks in reach that began before it have ended, in every package in
reach. D, S and commit updates are written when they are decided. -/
def execPgfence (scope : BitVec 4) (s : State) : StepResult :=
  onSeq s fun n =>
    let c := (s.seq n).ctxid
    match (s.seq n).run with
    | .pgfence (some ids) =>
      let walks := ids.filter fun id => (opAt s id).isSome
      if openOps s n Op.isDram || !walks.isEmpty || awaitsPackages s n c then stay n (.pgfence (some walks)) s else passOn n s
    | _ =>
      let walks := walksOn s (dieInReach n scope.toNat) c
      let s := askPackages n c scope.toNat s
      if openOps s n Op.isDram || !walks.isEmpty || awaitsPackages s n c then stay n (.pgfence (some walks)) s else passOn n s

/-- `pgstat` (R401). -/
def execPgstat (d a : BitVec 6) (s : State) : StepResult :=
  onSeq s fun n =>
    let c := (s.seq n).ctxid
    let va := (readS s a).toNat
    if 2 ^ 56 ≤ va then finishOpen n d (pgstatWord 0 2 0 false 0) s
    else
      match tlbFind s (dieOfSeq n) c va with
      | some t => finishOpen n d (pgstatWord t.leaf 0 (if Leaf.size t.leaf = 2 then 1 else 0) true (passOf s t.leaf t.leafAt)) s
      | none =>
        match walkAhead s n with
        | some id => stay n (.xlat id) s
        | none => finish (waitFor n d.toNat s.opCount (startWalk (dieOfSeq n) c va (.seq n) (some d.toNat) s))

/-! ## Migration and parking (R391 to R396) -/

/-- MIGRATION_REQUEST (R392, R493): a request, four words, least significant first, enters the queue of a die's engine. -/
def execMigrationRequest (die w0 w1 w2 w3 : Nat) (s : State) : StepResult :=
  let x := s.xlat die
  .next ((s.setXlat die { x with queue := x.queue ++ [(w0, w1, w2, w3)] }).soon (.migrationAccept die))

/-- The refusal of a request with captured leaf `e`, as its code; 0 for none (R392). -/
def migrationRefusal (s : State) (kind : Nat) (dest : Nat) (reserved : Bool) (e : Word) : Nat :=
  if kind = 3 || reserved then 7
  else if (kind ≤ 1 && Leaf.state e != 1 && Leaf.state e != 2) || (kind = 2 && Leaf.state e != 5) then 2
  else if kind = 0 && Leaf.pin e then 3
  else
    let from_ := regionOfPa s (Leaf.pa e)
    let to_ := regionOfPa s dest
    let hbm := fun r : PhysRegion => match r with
      | .hbm _ => true
      | _ => false
    let bad := !backed s dest (Leaf.bytes e) || dest % Leaf.bytes e != 0
    let same := kind = 0 && ((hbm from_ && hbm to_) || from_ == to_)
    if bad || same || (kind != 0 && to_ == .host) then 4 else 0

/-- The result word of a request (R394). -/
def writeResult (pa code : Nat) (s : State) : State := writePhys pa 8 code s

/-- The end of the pass of the engine's first request is set; the requests behind it end their passes after it. -/
def laterPass (die : Nat) (s : State) : State := s.later (.migrationPassEnd die)

/-- MIGRATION_ACCEPT (R392): the oldest queued request is refused with a code, or its pass 1 starts; an engine runs 16. -/
def execMigrationAccept (die : Nat) (s : State) : StepResult :=
  let x := s.xlat die
  if (s.die die).clockStopped then .next s
  else match x.queue with
  | [] => .next s
  | (w0, entry, dest, result) :: rest =>
    if 16 ≤ x.running.length then .next s
    else
      let e := readEntry s entry
      let kind := bitsOf w0 6 2
      let s := s.setXlat die { x with queue := rest }
      match migrationRefusal s kind dest (bitsOf w0 8 56 != 0) e with
      | 0 =>
        let m : Migration := { ctx := w0 % 64, kind := kind, entry := entry, dest := dest, result := result, leaf := e, pass := 1 }
        let s := updLeaf entry (fun e => Leaf.setBit (Leaf.setField e 60 4 4) 15 false) s
        let s' := s.setXlat die { s.xlat die with running := (s.xlat die).running ++ [m] }
        .next (if (s.xlat die).running.isEmpty then laterPass die s' else s')
      | c => .next ((writeResult result c s).soon (.migrationAccept die))

/-- Has software changed the entry of a running request: bits other than STATE, D, S and CMT differ from the captured ones,
or STATE is no longer MIGRATING (R391)? -/
def entryChanged (e captured : Word) : Bool :=
  Leaf.state e != 4 || Leaf.setField (Leaf.setField (Leaf.setBit e 15 false) 60 4 0) 55 2 0 !=
    Leaf.setField (Leaf.setField (Leaf.setBit captured 15 false) 60 4 0) 55 2 0

/-- The first running request leaves the engine with a result, and the queue goes on. -/
def endMigration (die : Nat) (m : Migration) (code : Nat) (s : State) : State :=
  let rest := (s.xlat die).running.drop 1
  let s := (writeResult m.result code (s.setXlat die { s.xlat die with running := rest })).soon (.migrationAccept die)
  if rest.isEmpty then s else laterPass die s

/-- MIGRATION_PASS_END (R393, steps 1 to 4): the lines have been copied; CMT is set and the page leaves every TLB. -/
def execMigrationPassEnd (die : Nat) (s : State) : StepResult :=
  if (s.die die).clockStopped then .next s
  else match (s.xlat die).running with
  | [] => .next s
  | m :: _ =>
    let e := readEntry s m.entry
    if entryChanged e m.leaf then .next (endMigration die m 5 s)
    else
      let n := Leaf.bytes m.leaf
      match (underTest s (Leaf.pa m.leaf)).orElse fun _ => underTest s m.dest with
      | some d => .next (holdRequest d (.event (.migrationPassEnd die)) s)
      | none =>
      let s := markDirty m.dest n { s with mem := copyInto s.mem (Leaf.pa m.leaf) s.mem m.dest n }
      let s := updLeaf m.entry (fun e => Leaf.setBit e 15 true) s
      let s := { s with xlats := s.xlats.map fun x : Nat × Xlat => (x.1, { x.2 with tlb := x.2.tlb.filter fun t => t.leafAt != m.entry }) }
      .next (s.later (.migrationCommit die))

/-- Requests translated under the old entry that have not left their egress queues (R393, step 4). -/
def oldRequests (s : State) (m : Migration) : Bool :=
  let moves := fun o : Op => match o.kind with
    | .engineRead _ _ => !o.served
    | _ => o.isDram
  s.ops.any fun e => moves e.2 && Leaf.pa m.leaf ≤ e.2.addr && e.2.addr < Leaf.pa m.leaf + Leaf.bytes m.leaf && !e.2.refused

/-- The prior state of a page that stays in place: the RESIDENT state that matches its PA, PARKED for an unpark (R391). -/
def priorState (s : State) (m : Migration) : Nat :=
  if m.kind = 2 then 5
  else
    match regionOfPa s (Leaf.pa m.leaf) with
    | .hbm _ => 1
    | .tier => 2
    | .host => 3
    | .unbacked => Leaf.state m.leaf

/-- The state that a commit gives: RESIDENT of the destination's tier, PARKED for a park (R391). -/
def committedState (s : State) (m : Migration) : Nat :=
  if m.kind = 1 then 5
  else
    match regionOfPa s m.dest with
    | .hbm _ => 1
    | .tier => 2
    | .host => 3
    | .unbacked => 1

/-- MIGRATION_COMMIT (R393, step 5): once the requests under the old translation have left, a clean filter commits, a dirty
one starts the next pass, or ends the request after pass 4. -/
def execMigrationCommit (die : Nat) (s : State) : StepResult :=
  if (s.die die).clockStopped then .next s
  else match (s.xlat die).running with
  | [] => .next s
  | m :: rest =>
    let e := readEntry s m.entry
    if entryChanged e m.leaf then .next (endMigration die m 5 s)
    else if oldRequests s m then .next (s.later (.migrationCommit die))
    else if m.dirty.all fun l => !(Leaf.pa m.leaf ≤ 64 * l && 64 * l < Leaf.pa m.leaf + Leaf.bytes m.leaf) then
      .next (endMigration die m 0 (updLeaf m.entry (fun e =>
        Leaf.setField (Leaf.setField (Leaf.setBit e 15 false) 60 4 (committedState s m)) 16 36 (m.dest / 65536)) s))
    else if m.pass < 4 then
      let s := updLeaf m.entry (fun e => Leaf.setBit e 15 false) s
      .next (laterPass die (s.setXlat die { s.xlat die with running := { m with pass := m.pass + 1, dirty := [] } :: rest }))
    else .next (endMigration die m 1 (updLeaf m.entry (fun e => Leaf.setField (Leaf.setBit e 15 false) 60 4 (priorState s m)) s))

/-- A lasting memory error during a pass ends the oldest request that a die's engine runs with result 6; the page is left in place (R393,
R394). -/
def failPass (die : Nat) (s : State) : State :=
  match (s.xlat die).running with
  | [] => s
  | m :: _ =>
    let at_ := Leaf.pa m.leaf
    let s := (s.logError ((dieOfPa s at_).getD die) 2 2 at_).cancel (.migrationPassEnd die) |>.cancel (.migrationCommit die)
    endMigration die m 6 (updLeaf m.entry (fun e => Leaf.setField (Leaf.setBit e 15 false) 60 4 (priorState s m)) s)

/-- TEST_BANK_START (R395, R396). -/
def execTestBankStart (die bank : Nat) (s : State) : StepResult :=
  .next (s.setDie die { s.die die with testing := bank :: (s.die die).testing.filter (· != bank) })

/-- TEST_BANK_END (R396): every word of the bank is 0, and the held requests are performed in arrival order. `failed` is the
die controller's finding, which no rule gives a further effect. -/
def execTestBankEnd (die bank failed : Nat) (s : State) : StepResult :=
  let _ := failed
  let lo := die * 2 ^ 36 + bank * 2 ^ 30
  let x := s.die die
  let s := { s with mem := s.mem.filter fun c => c.1 < lo || lo + 2 ^ 30 ≤ c.1 }
  let s := s.setDie die { x with testing := x.testing.filter (· != bank), held := [] }
  .next { s with todo := s.todo ++ x.held }

/-! ## Reads that fail (R374 to R376) -/

/-- `TINFO` of MEMERR (R376). -/
def memerrInfo (src addr : Nat) : Word := BitVec.ofNat 64 (src % 16 * 2 ^ 60 + addr % 2 ^ 56)

/-- SRC and ADDR of an access whose read fails. -/
def Op.memerr (o : Op) : Nat × Nat :=
  match o.kind with
  | .dramLoad _ _ => (1, o.va)
  | .walk => (1, o.va)
  | .engineRead _ _ => (1, o.va)
  | .tensorRead acc _ => (3, acc)
  | .tstore acc _ _ => (3, acc)
  | .entry _ src a _ => (src, a)
  | .firing _ src a => (src, a)
  | .loading _ a => (0, a)
  | _ => (0, localOfPos o.mtile * 2 ^ 21 + o.addr)

/-- SRC and WHERE of the log entry of an error of an access, and the die that logs it (R496, R497). -/
def Op.logged (s : State) (o : Op) : Nat × Nat × Nat :=
  let tile := match o.cur.unit with
    | .tile t => t
    | .seq n => seqPos n
  let dram := fun pa => (2, pa, (dieOfPa s pa).getD 0)
  match o.kind with
  | .dramLoad _ _ => dram o.addr
  | .engineRead _ _ => dram o.addr
  | .walk => dram (s.ctx o.ctx).ptroot
  | .tensorRead _ _ => (4, tileAddr tile, dieOfPos tile)
  | .tstore _ _ _ => (4, tileAddr tile, dieOfPos tile)
  | .entry _ src a _ => (if src = 2 then 3 else 1, a, dieOfPos tile)
  | .firing _ src a => if src = 3 then (4, tileAddr tile, dieOfPos tile) else (1, a, dieOfPos tile)
  | .loading _ a => (1, a, dieOfPos tile)
  | _ => (1, localOfPos o.mtile * 2 ^ 21 + o.addr, dieOfPos o.mtile)

end Sys2Proof.Machine
end

