-- ==== Sys2Proof/Machine/Float.lean ====
section
/-! DEFINITION. Number formats and rounding (R45 to R57, R59 to R70): exact values, `RoundTo` with its overflow and special
results, exact arithmetic with the signs of zeros, conversions to integers, scales, the LQ2 codebook, Philox draws and the
special functions of R290. -/

namespace Sys2Proof.Machine

/-! ## Formats (R48) -/

/-- A floating format. -/
inductive Flt where
  | f32 | f16 | bf16 | e4m3 | e5m2 | e2m1 | fa40
  deriving DecidableEq, Repr

namespace Flt

/-- Width in bits. -/
def width : Flt → Nat
  | f32 => 32 | f16 => 16 | bf16 => 16 | e4m3 => 8 | e5m2 => 8 | e2m1 => 4 | fa40 => 40
/-- Fraction bits M. -/
def frac : Flt → Nat
  | f32 => 23 | f16 => 10 | bf16 => 7 | e4m3 => 3 | e5m2 => 2 | e2m1 => 1 | fa40 => 31
/-- Exponent bias. -/
def bias : Flt → Nat
  | f32 => 127 | f16 => 15 | bf16 => 127 | e4m3 => 7 | e5m2 => 15 | e2m1 => 1 | fa40 => 127
/-- The largest finite magnitude as an encoding without its sign. -/
def maxCode : Flt → Nat
  | f32 => 0x7F7FFFFF | f16 => 0x7BFF | bf16 => 0x7F7F | e4m3 => 0x7E | e5m2 => 0x7B | e2m1 => 0x7 | fa40 => 0x7F7FFFFFFF
/-- Does the format hold infinities? They stand one above the largest finite encoding. -/
def hasInf : Flt → Bool
  | e4m3 => false | e2m1 => false | _ => true
/-- The canonical NaN (R49); E2M1 has none and gives +0 (R62). -/
def nan : Flt → Nat
  | f32 => 0x7FC00000 | f16 => 0x7E00 | bf16 => 0x7FC0 | e4m3 => 0x7F | e5m2 => 0x7E | e2m1 => 0 | fa40 => 0x7FC0000000
/-- The sign bit in place. -/
def signed (f : Flt) (s : Bool) (code : Nat) : Nat := bit s * 2 ^ (f.width - 1) + code
/-- Infinity of a format that has one. -/
def inf (f : Flt) (s : Bool) : Nat := f.signed s (f.maxCode + 1)
/-- The format that a float tag of R43 names; rows that read one accept 001, 010 and 011 alone. -/
def ofTag (ft : BitVec 3) : Flt :=
  match ft.toNat with
  | 1 => f32 | 2 => bf16 | 3 => f16 | 4 => e4m3 | 5 => e5m2 | 7 => e2m1 | _ => f32
/-- The format of an element type number 6 to 11 (R79). -/
def ofType (n : Nat) : Flt :=
  match n with
  | 6 => f32 | 7 => bf16 | 8 => f16 | 9 => e4m3 | 10 => e5m2 | _ => e2m1

end Flt

/-! ## Exact values -/

/-- An exact value: NaN, an infinity, or (-1)^neg * num / den; a zero has its sign. -/
inductive Exact where
  | nan
  | inf (neg : Bool)
  | fin (neg : Bool) (num den : Nat)
  deriving DecidableEq, Repr

namespace Exact

/-- (-1)^neg * n * 2^e. -/
def dyadic (neg : Bool) (n : Nat) (e : Int) : Exact :=
  if 0 ≤ e then .fin neg (n * 2 ^ e.toNat) 1 else .fin neg n (2 ^ (-e).toNat)

/-- An integer; zero is +0. -/
def ofInt (x : Int) : Exact := .fin (decide (x < 0)) x.natAbs 1

/-- The value of an encoding (R47, R48). -/
def decode (f : Flt) (enc : Nat) : Exact :=
  let s := bitOf enc (f.width - 1)
  let c := enc % 2 ^ (f.width - 1)
  if f.hasInf && c == f.maxCode + 1 then .inf s
  else if f.maxCode < c then .nan
  else
    let e := c / 2 ^ f.frac
    let m := c % 2 ^ f.frac
    if e = 0 then dyadic s m (1 - (f.bias : Int) - f.frac)
    else dyadic s (2 ^ f.frac + m) ((e : Int) - f.bias - f.frac)

/-- The value with the opposite sign. -/
def neg : Exact → Exact
  | nan => nan
  | inf s => inf (!s)
  | fin s n d => fin (!s) n d

/-- Numerator with its sign. -/
def signedNum (s : Bool) (n : Nat) : Int := if s then -(n : Int) else n

/-- An exact sum (R51); `rdn` says whether the rounding mode is RDN, which gives a cancelled sum the sign -. -/
def add (rdn : Bool) : Exact → Exact → Exact
  | nan, _ => nan
  | _, nan => nan
  | inf s, inf t => if s = t then inf s else nan
  | inf s, _ => inf s
  | _, inf t => inf t
  | fin s n d, fin t m e =>
    let x := signedNum s n * e + signedNum t m * d
    if x = 0 then fin (if n = 0 ∧ m = 0 ∧ s = t then s else rdn) 0 1
    else fin (decide (x < 0)) x.natAbs (d * e)

/-- An exact product (R51). -/
def mul : Exact → Exact → Exact
  | nan, _ => nan
  | _, nan => nan
  | inf s, inf t => inf (s != t)
  | inf s, fin t m _ => if m = 0 then nan else inf (s != t)
  | fin s n _, inf t => if n = 0 then nan else inf (s != t)
  | fin s n d, fin t m e => fin (s != t) (n * m) (d * e)

/-- An exact quotient (R288). -/
def div : Exact → Exact → Exact
  | nan, _ => nan
  | _, nan => nan
  | inf _, inf _ => nan
  | inf s, fin t _ _ => inf (s != t)
  | fin s _ _, inf t => fin (s != t) 0 1
  | fin s n d, fin t m e =>
    if m = 0 then (if n = 0 then nan else inf (s != t)) else fin (s != t) (n * e) (d * m)

/-- Is it NaN? -/
def isNan : Exact → Bool
  | nan => true
  | _ => false

/-- Is it an infinity? -/
def isInf : Exact → Bool
  | inf _ => true
  | _ => false

/-- The order of two values that are no NaN: -0 equals +0 (R289). -/
def lt : Exact → Exact → Bool
  | inf s, inf t => s && !t
  | inf s, fin _ _ _ => s
  | fin _ _ _, inf t => !t
  | fin s n d, fin t m e => decide (signedNum s n * e < signedNum t m * d)
  | _, _ => false

/-- The sign; NaN has none. -/
def isNeg : Exact → Bool
  | nan => false
  | inf s => s
  | fin s _ _ => s

end Exact

/-! ## Rounding (R59 to R62) -/

/-- Floor of log2 of n / d, both positive. -/
def floorLog2 (n d : Nat) : Int :=
  let e : Int := (log2 n : Int) - log2 d
  let below := if 0 ≤ e then n < d * 2 ^ e.toNat else n * 2 ^ (-e).toNat < d
  if below then e - 1 else e

/-- The integer to which the magnitude tn / td of sign `s` rounds under the mode `rm` (R60). -/
def roundInt (s : Bool) (tn td rm stoch : Nat) : Nat :=
  let fl := tn / td
  let r := tn % td
  let up := if r = 0 then fl else fl + 1
  match rm % 8 with
  | 0 => if 2 * r < td then fl else if td < 2 * r then fl + 1 else fl + fl % 2
  | 1 => fl
  | 2 => if s then fl else up
  | 3 => if s then up else fl
  | 4 => if 2 * r < td then fl else fl + 1
  | _ => (tn * 2 ^ 16 / td + stoch) / 2 ^ 16

/-- `Overflow` (R61). -/
def overflowOut (f : Flt) (s : Bool) (rm : Nat) : Nat :=
  let big := match f with
    | .e4m3 => f.nan
    | .e2m1 => f.signed s f.maxCode
    | _ => f.inf s
  let top := f.signed s f.maxCode
  if f = .fa40 then big
  else if 8 ≤ rm then top
  else match rm with
    | 1 => top
    | 2 => if s then top else big
    | 3 => if s then big else top
    | _ => big

/-- `SpecialOut` for an infinity (R62). -/
def infOut (f : Flt) (s : Bool) (rm : Nat) : Nat :=
  match f with
  | .e4m3 => if 8 ≤ rm then f.signed s f.maxCode else f.nan
  | .e2m1 => f.signed s f.maxCode
  | _ => f.inf s

/-- `RoundTo` (R60): the encoding to which an exact value rounds. -/
def roundTo (f : Flt) (x : Exact) (rm : Nat) (stoch : Nat := 0) : Nat :=
  match x with
  | .nan => f.nan
  | .inf s => infOut f s rm
  | .fin s n d =>
    if n = 0 then f.signed s 0
    else
      let emin : Int := 1 - f.bias
      let e := max (floorLog2 n d) emin
      let k := e - f.frac
      let m := if 0 ≤ k then roundInt s n (d * 2 ^ k.toNat) rm stoch else roundInt s (n * 2 ^ (-k).toNat) d rm stoch
      let code := (e - emin).toNat * 2 ^ f.frac + m
      if f.maxCode < code then overflowOut f s rm else f.signed s code

/-- `Sat` of an integer type of `w` bits (R45), as a pattern. -/
def satPattern (w : Nat) (signed : Bool) (x : Int) : Nat :=
  patternOf w (if signed then satSigned w x else satUnsigned w x)

/-- A floating value into an integer type (R46). -/
def toIntType (w : Nat) (signed : Bool) (x : Exact) (rm : Nat) (stoch : Nat := 0) : Nat :=
  match x with
  | .nan => 0
  | .inf s => satPattern w signed (if s then -(2 ^ w : Nat) else (2 ^ w : Nat))
  | .fin s n d => satPattern w signed (Exact.signedNum s (roundInt s n d rm stoch))

/-! ## Scales and LQ2 (R52, R57) -/

/-- The value of an E8M0 scale (R52). -/
def scaleValue (e : Nat) : Exact := if e = 255 then .nan else .dyadic false 1 ((e : Int) - 127)

/-- `LQ2Decode` in quarters (R57). -/
def lq2Quarters (i j : Nat) : Int :=
  let mag : Int := if bitOf i (8 + j) then 6 else 2
  let odd := (bit (bitOf i 1) + bit (bitOf i 2) + bit (bitOf i 3) + bit (bitOf i 4) + bit (bitOf i 5) + bit (bitOf i 6)
    + bit (bitOf i 7)) % 2 == 1
  let n := if j < 7 then bitOf i (1 + j) else odd
  (if n then -mag else mag) + (if bitOf i 0 then 1 else -1)

/-- `LQ2Decode` (R57). -/
def lq2Value (i j : Nat) : Exact :=
  let q := lq2Quarters i j
  .fin (decide (q < 0)) q.natAbs 4

/-! ## Random bits (R63, R64) -/

/-- A Philox4x32-10 state after `n` rounds. -/
def philoxRounds : Nat → Nat → Nat → Nat → Nat → Nat → Nat → Nat × Nat × Nat × Nat
  | 0, c0, c1, c2, c3, _, _ => (c0, c1, c2, c3)
  | n + 1, c0, c1, c2, c3, k0, k1 =>
    let p0 := 0xD2511F53 * c0
    let p1 := 0xCD9E8D57 * c2
    philoxRounds n (p1 / 2 ^ 32 ^^^ c1 ^^^ k0) (p1 % 2 ^ 32) (p0 / 2 ^ 32 ^^^ c3 ^^^ k1) (p0 % 2 ^ 32)
      ((k0 + 0x9E3779B9) % 2 ^ 32) ((k1 + 0xBB67AE85) % 2 ^ 32)

/-- `Philox4x32_10` (R64). -/
def philox (c0 c1 c2 c3 k0 k1 : Nat) : Nat × Nat × Nat × Nat := philoxRounds 10 c0 c1 c2 c3 k0 k1

/-- Word `i` of four. -/
def pickWord (w : Nat × Nat × Nat × Nat) (i : Nat) : Nat :=
  match i with
  | 0 => w.1
  | 1 => w.2.1
  | 2 => w.2.2.1
  | _ => w.2.2.2

/-- The Philox words of block `blk` under what beat 0 captured (R63, R65). -/
def drawWords (c : Capture) (blk : Nat) : Nat × Nat × Nat × Nat :=
  philox c.ctr0 c.ctr1 c.ctr2 (blk % 64) (c.key % 2 ^ 32) (c.key / 2 ^ 32 % 2 ^ 32)

/-- `StochBits` for element `e` (R64). -/
def stochBits (c : Capture) (e : Nat) : Nat :=
  let w := pickWord (drawWords c (e / 8)) (e % 8 / 2)
  if e % 2 = 0 then w % 2 ^ 16 else w / 2 ^ 16

/-- The random bits that a rounding under `rm` of element `e` takes: none are drawn unless the mode is STOCH. -/
def stochFor (c : Capture) (rm e : Nat) : Nat := if rm % 8 = 5 then stochBits c e else 0

/-! ## Square roots (R288, R290) -/

/-- The square root of n / d, exact where it is rational, else a rational in the same cell of width 2^-300: no rounding
boundary of a format lies in it, so it rounds as the root does. -/
def sqrtRat (n d : Nat) : Nat × Nat :=
  let r := Nat.sqrt (n * d)
  if r * r = n * d then (r, d) else (2 * Nat.sqrt (n * 2 ^ 600 / d) + 1, 2 ^ 301)

/-- √x (R288). -/
def sqrtExact : Exact → Exact
  | .nan => .nan
  | .inf s => if s then .nan else .inf false
  | .fin s n d =>
    if n = 0 then .fin s 0 1 else if s then .nan
    else let r := sqrtRat n d; .fin false r.1 r.2

/-! ## Special functions (R290): values between two rounding boundaries, computed with 256 fraction bits (log 15) -/

/-- Working precision. -/
abbrev wp : Nat := 256

/-- The sum of z^(2i+1) / (2i+1) from term `i` on, `n` terms, with p = z^(2i+1), all times 2^wp. -/
def atanhSum (z2 : Nat) : Nat → Nat → Nat → Nat
  | _, _, 0 => 0
  | i, p, n + 1 => p / (2 * i + 1) + atanhSum z2 (i + 1) (p * z2 / 2 ^ wp) n

/-- ln of a ratio (1 + z) / (1 - z), times 2^wp, for z (times 2^wp) at most 1/3. -/
def lnOf (z : Nat) : Nat := 2 * atanhSum (z * z / 2 ^ wp) 0 z 90

/-- ln 2 times 2^wp. -/
def ln2W : Nat := lnOf (2 ^ wp / 3)

/-- The sum of r^i / i! from term `i` on, `n` terms, with p the term before division by i, all times 2^wp. -/
def expSum (r : Nat) : Nat → Nat → Nat → Nat
  | _, _, 0 => 0
  | i, p, n + 1 => p + expSum r (i + 1) (p * r / 2 ^ wp / (i + 1)) n

/-- e^r times 2^wp, for 0 ≤ r < 1 given times 2^wp. -/
def expFrac (r : Nat) : Nat := expSum r 0 (2 ^ wp) 70

/-- e^(n/d) as mantissa and exponent: mantissa * 2^(exponent - wp). -/
def expRat (n d : Nat) : Nat × Nat :=
  let y := n * 2 ^ wp / d
  (expFrac (y % ln2W), y / ln2W)

/-- 2^x for finite nonzero x. -/
def exp2Fin (s : Bool) (n d : Nat) : Exact :=
  if d * 160 ≤ n then .dyadic false 1 (if s then -160 else 160)
  else if n * 2 ^ 60 < d then .fin false (if s then 2 * d - n else 2 * d + n) (2 * d)
  else
    let q := n / d
    let r := n % d
    if r = 0 then .dyadic false 1 (if s then -(q : Int) else q)
    else if s then .dyadic false (expFrac ((d - r) * ln2W / d)) (-(q : Int) - 1 - wp)
    else .dyadic false (expFrac (r * ln2W / d)) ((q : Int) - wp)

/-- log2 x for finite x > 0. -/
def log2Fin (n d : Nat) : Exact :=
  let e := floorLog2 n d
  -- the ratio x / 2^e is mn / md, at least 1 and below 2
  let mn := if 0 ≤ e then n else n * 2 ^ (-e).toNat
  let md := if 0 ≤ e then d * 2 ^ e.toNat else d
  if mn = md then .ofInt e
  else
    let l := lnOf ((mn - md) * 2 ^ wp / (mn + md)) * 2 ^ wp / ln2W
    let x := e * (2 ^ wp : Nat) + l
    .fin (decide (x < 0)) x.natAbs (2 ^ wp)

/-- tanh x for finite nonzero x. -/
def tanhFin (s : Bool) (n d : Nat) : Exact :=
  if d * 24 ≤ n then .fin s (2 ^ 60 - 1) (2 ^ 60)
  else if n * 2 ^ 30 < d then .fin s (3 * n * d * d - n * n * n) (3 * d * d * d)
  else
    let r := expRat (2 * n) d
    .fin s (r.1 * 2 ^ r.2 - 2 ^ wp) (r.1 * 2 ^ r.2 + 2 ^ wp)

/-- 1 / (1 + e^-x) for finite nonzero x. -/
def sigmFin (s : Bool) (n d : Nat) : Exact :=
  if d * 128 ≤ n then (if s then .dyadic false 1 (-160) else .fin false (2 ^ 60 - 1) (2 ^ 60))
  else if n * 2 ^ 60 < d then .fin false (if s then 2 * d - n else 2 * d + n) (4 * d)
  else
    let r := expRat n d
    let e := r.1 * 2 ^ r.2
    if s then .fin false (2 ^ wp) (2 ^ wp + e) else .fin false e (e + 2 ^ wp)

/-- The exact value of a special function with its special inputs (R290). -/
def exp2Exact : Exact → Exact
  | .nan => .nan
  | .inf s => if s then .fin false 0 1 else .inf false
  | .fin s n d => if n = 0 then .fin false 1 1 else exp2Fin s n d

/-- log2 (R290): exactly 1 gives +0. -/
def log2Exact : Exact → Exact
  | .nan => .nan
  | .inf s => if s then .nan else .inf false
  | .fin s n d => if n = 0 then .inf true else if s then .nan else log2Fin n d

/-- 1 / x (R290). -/
def rcpExact : Exact → Exact
  | .nan => .nan
  | .inf s => .fin s 0 1
  | .fin s n d => if n = 0 then .inf s else .fin s d n

/-- 1 / √x (R290). -/
def rsqrtExact : Exact → Exact
  | .nan => .nan
  | .inf s => if s then .nan else .fin false 0 1
  | .fin s n d => if n = 0 then .inf s else if s then .nan else let r := sqrtRat d n; .fin false r.1 r.2

/-- tanh (R290). -/
def tanhExact : Exact → Exact
  | .nan => .nan
  | .inf s => .fin s 1 1
  | .fin s n d => if n = 0 then .fin s 0 1 else tanhFin s n d

/-- The logistic function (R290). -/
def sigmExact : Exact → Exact
  | .nan => .nan
  | .inf s => if s then .fin false 0 1 else .fin false 1 1
  | .fin s n d => if n = 0 then .fin false 1 2 else sigmFin s n d

/-! ## Operations on encodings -/

/-- Is the mode RDN? -/
def isRdn (rm : Nat) : Bool := rm % 8 == 3

/-- The rounded sum of two encodings. -/
def fadd (f : Flt) (rm stoch x y : Nat) : Nat := roundTo f (.add (isRdn rm) (.decode f x) (.decode f y)) rm stoch

/-- The smaller of two encodings; -0 counts as less than +0 (R287). -/
def fmin (f : Flt) (x y : Nat) : Nat :=
  let a := Exact.decode f x
  let b := Exact.decode f y
  if a.isNan || b.isNan then f.nan
  else if a.lt b then x else if b.lt a then y else if a.isNeg then x else y

/-- The larger of two encodings; -0 counts as less than +0 (R287). -/
def fmax (f : Flt) (x y : Nat) : Nat :=
  let a := Exact.decode f x
  let b := Exact.decode f y
  if a.isNan || b.isNan then f.nan
  else if a.lt b then y else if b.lt a then x else if a.isNeg then y else x

/-- `vabs` (R287). -/
def fabs (f : Flt) (x : Nat) : Nat := if (Exact.decode f x).isNan then f.nan else x % 2 ^ (f.width - 1)

/-- `vneg` (R287). -/
def fneg (f : Flt) (x : Nat) : Nat :=
  if (Exact.decode f x).isNan then f.nan else f.signed (!bitOf x (f.width - 1)) (x % 2 ^ (f.width - 1))

end Sys2Proof.Machine
end

