-- ==== Sys2Proof/Machine/Atomic.lean ====
section
/-! DEFINITION. Atomics (R230 to R235): `amo` and `red`, the atomic pipeline, and the replies of far atomics. -/

namespace Sys2Proof.Machine

/-- The new value of a word (R233). -/
def atomicNew (sub : Nat) (w b c : BitVec 32) : BitVec 32 :=
  match sub with
  | 0 => w + b
  | 1 => if w.toInt ≤ b.toInt then w else b
  | 2 => if w.toInt ≤ b.toInt then b else w
  | 3 => w &&& b
  | 4 => w ||| b
  | 5 => w ^^^ b
  | 6 => b
  | 7 => if w = b then c else w
  | 8 => BitVec.ofNat 32 (fadd .f32 0 0 w.toNat b.toNat)
  | 9 => if w.toNat ≤ b.toNat then w else b
  | _ => if w.toNat ≤ b.toNat then b else w

/-- What `amo` returns: the old word, sign-extended for `.add`, `.min` and `.max` (R233). -/
def atomicOld (sub : Nat) (w : BitVec 32) : Word := if sub ≤ 2 then w.signExtend 64 else w.setWidth 64

/-- The memory tile and offset of an atomic address: the near form of the issuer's quad, or the far form (R230). -/
def atomicTarget (s : State) (a : Word) : Option (Nat × Nat) :=
  let n := a.toNat
  if n / 2 ^ 23 = 0 then (curQuad s).map fun q => (memoryOfQuad q (n / 2 ^ 21), n % 2 ^ 21)
  else if bitsOf n 21 27 = 0 then
    match posOfAddr? (n / 2 ^ 48) with
    | some t => if isMemoryPos t then some (t, n % 2 ^ 21) else none
    | none => none
  else none

/-- The die of the issuing unit. -/
def curDie (s : State) : Nat :=
  match s.cur.unit with
  | .tile t => dieOfPos t
  | .seq n => dieOfSeq n

/-- Does the target lie in the scope (R231), in a quad of a group of the issuing context (R230)? -/
def inScope (s : State) (scope mt : Nat) : Bool :=
  let own := match groupOfQuad s (quadOfPos mt) with
    | some (c, _, _) => c = curCtx s
    | none => false
  let near := match curQuad s with
    | some q => quadOfPos mt = q
    | none => false
  own && (if scope ≤ 2 then near else if scope = 3 then dieOfPos mt = curDie s else true)

/-- May an atomic act on the word at an offset (R230, R172)? -/
def atomicServes (s : State) (mt o : Nat) : Bool := modeServes false (modeAt s mt o)

/-- Cycles after which the result of an `amo` in a timed list is due (R235). -/
def amoLatency (scope : Nat) : Nat := if scope ≤ 2 then 20 else if scope = 3 then 160 else 1024

/-- Is the target outside the issuer's quad (R234)? -/
def isFar (s : State) (mt : Nat) : Bool :=
  match curQuad s with
  | some q => quadOfPos mt != q
  | none => true

/-- The checks of R230 in their order; `k` goes on with the memory tile and the offset. -/
def atomicCheck (a : Word) (scope : Nat) (s : State) (k : Nat → Nat → StepResult) : StepResult :=
  match atomicTarget s a with
  | none => raise Code.nearRange a s
  | some (mt, o) =>
    if o % 4 ≠ 0 then raise Code.align a s
    else if !inScope s scope mt then raise Code.scope a s
    else if !isFar s mt && !atomicServes s mt o then raise Code.part a s
    else k mt o

/-- The way to the pipeline of the target: 6 cycles near, no fixed latency far (R234). -/
def toPipeline (id : Nat) (far : Bool) (s : State) : State :=
  if far then s.later (.atomicPipelineTake id) else s.after 6 (.atomicPipelineTake id)

/-- `amo` with its destination, or `red` without one. -/
def atomic (sub : Nat) (d : Option (BitVec 6)) (a b c : BitVec 6) (oc scope : BitVec 3) (s : State) : StepResult :=
  atomicCheck (readS s a) scope.toNat s fun mt o =>
    tagOp (chanOfP oc) s fun seqn s =>
      let kind : OpKind := .atomic sub ((readS s b).setWidth 32) ((readS s c).setWidth 32) d.isSome
      let op := { mkOp s kind mt o 1 with va := (readS s a).toNat, chan := chanOfP oc, seqn := seqn, dst := d.map BitVec.toNat }
      let s' := match d with
        | some r => issueLoad op (amoLatency scope.toNat) (.scalar r.toNat 0) s
        | none => s.newOp op
      finish (toPipeline s.opCount (isFar s mt) s')

/-- The number that stands for the package itself where a `ramo` names its own rank (R444). -/
def ownLink : Nat := 16

/-- The memory tile of the target of R443. -/
def remoteTile (a : Word) : Option Nat :=
  match posOfAddr? (a.toNat / 2 ^ 48) with
  | some t => if isMemoryPos t then some t else none
  | none => none

/-- Is an access a `ramo` to the package's own rank that is still to be performed? -/
def Op.invoked (o : Op) : Bool :=
  (match o.kind with
    | .remote _ _ _ _ l => l = ownLink
    | _ => false) && !o.left.isEmpty

/-- The invocations of `ramo` that wait in channel 5 of a memory tile's pipeline (R444): the cycles in which they entered it. -/
def invocationsAt (s : State) (mt : Nat) : List Nat :=
  (s.links.filterMap fun e => e.2.itemsIn.head?.bind fun i => if remoteTile i.a = some mt then i.entered else none) ++
    s.ops.filterMap fun e => if e.2.invoked && e.2.mtile = mt then e.2.entered else none

/-- An earlier atomic of the same input channel that the pipeline has not taken: the channel stalls behind it (R234). The dynamic
plane's channel takes far atomics and invocations of `ramo` in the order in which they have come. -/
def channelStalled (s : State) (id : Nat) (o : Op) : Bool :=
  (s.ops.any fun e => e.1 ≠ id && e.2.queued o.mtile && e.2.channel = o.channel &&
    if o.far then e.2.entered.any fun t => o.entered.all fun u => t < u || (t = u && e.1 < id)
    else e.1 < id) ||
  (o.far && (invocationsAt s o.mtile).any fun t => o.entered.all fun u => t < u)

/-- The update at the bank: the aligned 32-bit word, and nothing else of its near word (R233). -/
def atomicUpdate (sub : Nat) (b c : BitVec 32) (mt o : Nat) (s : State) : State × BitVec 32 :=
  let w := BitVec.ofNat 32 (readLE s.near (nearKey mt o) 4)
  ({ s with near := writeLE s.near (nearKey mt o) 4 (atomicNew sub w b c).toNat }, w)

/-- ATOMIC_PIPELINE_TAKE (R234): one atomic for each bank in a cycle; one that is not taken waits a cycle. A far target in a FIFO
or presence partition is refused, and the refusal returns (R230). -/
def execAtomicPipelineTake (op : Nat) (s : State) : StepResult :=
  match opAt s op with
  | none => .next s
  | some o =>
    match o.kind with
    | .atomic sub b c answers =>
      let o := { o with entered := some (o.entered.getD s.pcyc) }
      if o.refused || o.left.isEmpty then .next s
      else if o.far && !atomicServes s o.mtile o.addr then .next ((setOp op { o with left := [], refused := true } s).later (.farAtomicReply op))
      else if (busyBanks s o.mtile).contains (bankOf o.addr) || channelStalled s op o then
        .next ((setOp op o s).after 1 (.atomicPipelineTake op))
      else
        let r := atomicUpdate sub b c o.mtile o.addr (useBanks o.mtile [bankOf o.addr] s)
        let s := orderDone o.cur.unit o.chan o.seqn r.1
        let o := { o with chan := 0, left := [], got := wordVec (atomicOld sub r.2) }
        if !answers then .next (s.dropOp op)
        else if o.far then .next ((setOp op o s).later (.farAtomicReply op))
        else .next (answer op o o.got (s.pcyc + 14) s)
    | _ => .next s

/-- FAR_ATOMIC_REPLY (R234): the old word, or the refusal of R230, reaches the issuer. -/
def execFarAtomicReply (op : Nat) (s : State) : StepResult :=
  match opAt s op with
  | none => .next s
  | some o =>
    if o.refused then .next (completionFault op Code.part (BitVec.ofNat 64 o.va) s)
    else .next (answer op o o.got s.pcyc s)

/-- `amo.add` (R233). -/
def execAmoAdd (d a b : BitVec 6) (oc scope : BitVec 3) (s : State) : StepResult := atomic 0 (some d) a b 0 oc scope s
/-- `amo.min` (R233). -/
def execAmoMin (d a b : BitVec 6) (oc scope : BitVec 3) (s : State) : StepResult := atomic 1 (some d) a b 0 oc scope s
/-- `amo.max` (R233). -/
def execAmoMax (d a b : BitVec 6) (oc scope : BitVec 3) (s : State) : StepResult := atomic 2 (some d) a b 0 oc scope s
/-- `amo.and` (R233). -/
def execAmoAnd (d a b : BitVec 6) (oc scope : BitVec 3) (s : State) : StepResult := atomic 3 (some d) a b 0 oc scope s
/-- `amo.or` (R233). -/
def execAmoOr (d a b : BitVec 6) (oc scope : BitVec 3) (s : State) : StepResult := atomic 4 (some d) a b 0 oc scope s
/-- `amo.xor` (R233). -/
def execAmoXor (d a b : BitVec 6) (oc scope : BitVec 3) (s : State) : StepResult := atomic 5 (some d) a b 0 oc scope s
/-- `amo.swap` (R233). -/
def execAmoSwap (d a b : BitVec 6) (oc scope : BitVec 3) (s : State) : StepResult := atomic 6 (some d) a b 0 oc scope s
/-- `amo.cas` (R233). -/
def execAmoCas (d a b c : BitVec 6) (oc scope : BitVec 3) (s : State) : StepResult := atomic 7 (some d) a b c oc scope s
/-- `amo.fadd` (R233). -/
def execAmoFadd (d a b : BitVec 6) (oc scope : BitVec 3) (s : State) : StepResult := atomic 8 (some d) a b 0 oc scope s
/-- `amo.minu` (R233). -/
def execAmoMinu (d a b : BitVec 6) (oc scope : BitVec 3) (s : State) : StepResult := atomic 9 (some d) a b 0 oc scope s
/-- `amo.maxu` (R233). -/
def execAmoMaxu (d a b : BitVec 6) (oc scope : BitVec 3) (s : State) : StepResult := atomic 10 (some d) a b 0 oc scope s
/-- `red.add` (R233). -/
def execRedAdd (a b : BitVec 6) (oc scope : BitVec 3) (s : State) : StepResult := atomic 0 none a b 0 oc scope s
/-- `red.min` (R233). -/
def execRedMin (a b : BitVec 6) (oc scope : BitVec 3) (s : State) : StepResult := atomic 1 none a b 0 oc scope s
/-- `red.max` (R233). -/
def execRedMax (a b : BitVec 6) (oc scope : BitVec 3) (s : State) : StepResult := atomic 2 none a b 0 oc scope s
/-- `red.and` (R233). -/
def execRedAnd (a b : BitVec 6) (oc scope : BitVec 3) (s : State) : StepResult := atomic 3 none a b 0 oc scope s
/-- `red.or` (R233). -/
def execRedOr (a b : BitVec 6) (oc scope : BitVec 3) (s : State) : StepResult := atomic 4 none a b 0 oc scope s
/-- `red.xor` (R233). -/
def execRedXor (a b : BitVec 6) (oc scope : BitVec 3) (s : State) : StepResult := atomic 5 none a b 0 oc scope s
/-- `red.fadd` (R233). -/
def execRedFadd (a b : BitVec 6) (oc scope : BitVec 3) (s : State) : StepResult := atomic 8 none a b 0 oc scope s
/-- `red.minu` (R233). -/
def execRedMinu (a b : BitVec 6) (oc scope : BitVec 3) (s : State) : StepResult := atomic 9 none a b 0 oc scope s
/-- `red.maxu` (R233). -/
def execRedMaxu (a b : BitVec 6) (oc scope : BitVec 3) (s : State) : StepResult := atomic 10 none a b 0 oc scope s

end Sys2Proof.Machine
end

