-- ==== Sys2Proof/Machine/Lists.lean ====
section
/-! DEFINITION. Timed lists: the placed stamps of a segment with its `tloop` iterations (R126 to R128), the tokens that a
phase moves on a port (R144), and the issue units of R134. -/

namespace Sys2Proof.Machine

/-- One placed issue of an entry: its placed stamp, its index in the segment, the loop counts set before it issues and after
it has issued (R127). -/
structure Placement where
  stamp : Nat
  entry : Nat
  before : List (Nat × Nat) := []
  after : List (Nat × Nat) := []
  deriving DecidableEq, Repr

/-- Is a list word a `tloop`? -/
def isTloop (w : Word) : Bool := (opOf w).toNat == 0x06 && (subOf w).toNat == 0
/-- Loop number of a `tloop` word. -/
def tloopNum (w : Word) : Nat := (dOf w).toNat
/-- STRIDE of a `tloop` word. -/
def tloopStride (w : Word) : Nat := bitsOf w.toNat 20 12
/-- COUNT of a `tloop` word. -/
def tloopCount (w : Word) : Nat := bitsOf w.toNat 10 10
/-- SPAN of a `tloop` word. -/
def tloopSpan (w : Word) : Nat := bitsOf w.toNat 0 10

/-- The first placement of a list sets a loop count before it issues. -/
def setFirst (v : Nat × Nat) : List Placement → List Placement
  | [] => []
  | p :: l => { p with before := v :: p.before } :: l

/-- The last placement of a list sets a loop count after it has issued. -/
def setLast (v : Nat × Nat) : List Placement → List Placement
  | [] => []
  | [p] => [{ p with after := p.after ++ [v] }]
  | p :: l => p :: setLast v l

/-- The placements of entries `lo` to `hi` - 1 of a segment, shifted by `off` (R126, R127). `fuel` is at least the number of
entries. -/
def placeFrom (ws : List Word) (hi : Nat) : Nat → Nat → Nat → List Placement
  | 0, _, _ => []
  | fuel + 1, lo, off =>
    if hi ≤ lo then []
    else
      let w := ws.getD lo 0
      let head : Placement := { stamp := (stampOf w).toNat + off, entry := lo }
      if isTloop w then
        let stop := min hi (lo + 1 + tloopSpan w)
        let n := tloopNum w
        let c := tloopCount w
        let its := (List.range c).map fun k =>
          setFirst (n, c - k) (placeFrom ws stop fuel (lo + 1) (off + k * tloopStride w))
        head :: setLast (n, 0) its.flatten ++ placeFrom ws hi fuel stop off
      else head :: placeFrom ws hi fuel (lo + 1) off

/-- The placements of a segment, in issue order. -/
def placements (ws : List Word) : List Placement := placeFrom ws ws.length (ws.length + 1) 0 0

/-- Number of beats of a list word: FOLD 00, 01 or 10 (R71). -/
def beatsOfWord (w : Word) : Nat := beatsOf (foldOf w)

/-- The issue unit of a word (R134): Scalar 0, Vector 1, Arc 2, Near 3, Tensor 4, Control 5. -/
def issueUnit (w : Word) : Nat :=
  let op := (opOf w).toNat
  if op < 0x40 then 0
  else if op < 0xA0 then 1
  else if op < 0xB0 then 4
  else if op < 0xB3 then 2
  else if op < 0xB7 then 3
  else 5

/-- Does a word consume tokens: `pop` or `popd`, on which port (R144)? -/
def popPort (w : Word) : Option Nat :=
  if (opOf w).toNat == 0xB0 && (subOf w).toNat < 2 then some (aOf w).toNat else none

/-- Does a word produce counted tokens: `push`, or `cret`, on which port (R144)? -/
def pushPort (w : Word) : Option Nat :=
  if (opOf w).toNat == 0xB1 && (subOf w).toNat == 0 then some (dOf w).toNat
  else if (opOf w).toNat == 0xD2 then some (dOf w).toNat
  else none

/-- Does a word read tokens, on which port: `pop`, `popd` or `peek`? -/
def readPort (w : Word) : Option Nat := if (opOf w).toNat == 0xB0 || (opOf w).toNat == 0xB2 then some (aOf w).toNat else none

/-- The stamps of the beats of a segment whose words move tokens on port `p` by `f`, in issue order. -/
def beatStamps (f : Word → Option Nat) (p : Nat) (ws : List Word) : List Nat :=
  (placements ws).flatMap fun x =>
    let w := ws.getD x.entry 0
    if f w == some p then (List.range (beatsOfWord w)).map (x.stamp + ·) else []

/-- The words of a segment of a stored list (R132). -/
def ListStore.segment (l : ListStore) (seg : Nat) : List Word :=
  match l.table[seg]? with
  | some (first, n) => ((l.entries.drop first).take n).map Entry.word
  | none => []

/-- An entry of a segment of a stored list. -/
def ListStore.entry? (l : ListStore) (seg e : Nat) : Option Entry :=
  match l.table[seg]? with
  | some (first, n) => if e < n then l.entries[first + e]? else none
  | none => none

/-- The length of a period: the sum of its phase lengths (R23). -/
def periodOf (phases : List Nat) : Nat := phases.sum

/-- Advancing cycles that a region has completed in its period. -/
def Region.position (r : Region) : Nat := (r.phases.take r.phase).sum + r.cyc

/-- The cycles of a period in which a tile's list pops tokens of port `p`, in order. -/
def popSchedule (l : ListStore) (phases : List Nat) (p : Nat) : List Nat :=
  (List.range phases.length).flatMap fun ph => (beatStamps popPort p (l.segment ph)).map ((phases.take ph).sum + ·)

/-- Tokens that have left an input port in this period. -/
def poppedThisPeriod (x : Port) (r : Region) : Nat := (x.rate.take r.phase).sum + x.count

end Sys2Proof.Machine
end

