-- ==== Sys2Proof/Machine/Engines.lean ====
section
/-! DEFINITION. Memory actors (R188 to R193), copy templates with `ckick` (R184 to R187, R257), and their
quiescence (R252) and marker points (R409). -/

namespace Sys2Proof.Machine

/-! ## Who is alive, and who has passed its marker point -/

/-- Do the units of a context run: not from the cycle of a halt on (R366, R427), nor outside ACTIVE and DRAINING (R349)? -/
def ctxRuns (s : State) (c : Nat) : Bool :=
  match (s.ctx c).state with
  | .active => true
  | .draining => true
  | .halting => (s.ctx c).haltAt.any fun h => s.pcyc < h
  | .rolling => (s.ctx c).haltAt.any fun h => s.pcyc < h
  | _ => false

/-- Do the engines of a graph work? -/
def graphRuns (s : State) (c g : Nat) : Bool :=
  ctxRuns s c && ((s.graph? c g).any fun x => x.state == .running || x.state == .changing || x.state == .draining)

/-- The number under which a snapshot lists an actor. -/
def agentActor (slot k : Nat) : Nat := slot * 2 ^ 20 + k
/-- The number under which a snapshot lists a memory actor. -/
def agentMem (slot m : Nat) : Nat := slot * 2 ^ 20 + 2 ^ 17 + m
/-- The number under which a snapshot lists a copy template. -/
def agentCopy (slot t : Nat) : Nat := slot * 2 ^ 20 + 2 ^ 18 + t

/-- Is an agent's marker point in the open snapshot still to come? -/
def agentPending (s : State) (c a : Nat) : Bool := ((s.ctx c).openSnap).any fun p => p.pending.contains a

/-- An agent passes its marker point. -/
def passAgent (c a : Nat) (s : State) : State :=
  if agentPending s c a then
    s.setCtx c ((s.ctx c).updOpen fun p => { p with pending := p.pending.filter (· != a) })
  else s

/-! ## Engines of a graph -/

/-- A memory actor. -/
def memAt (s : State) (c g m : Nat) : MemActor := (((s.graph? c g).map fun x => x.mems).getD [])[m]?.getD {}
/-- A memory actor changed. -/
def updMem (c g m : Nat) (f : MemActor → MemActor) (s : State) : State :=
  match s.graph? c g with
  | none => s
  | some x => s.setGraph c g { x with mems := x.mems.set m (f (x.mems.getD m {})) }
/-- The declaration of a memory actor. -/
def memDecl (s : State) (c g m : Nat) : Option MADecl := (s.graph? c g).bind fun x => x.image.mems[m]?
/-- A copy template. -/
def copyAt (s : State) (c g t : Nat) : Template := (((s.graph? c g).map fun x => x.copies).getD [])[t]?.getD {}
/-- A copy template changed. -/
def updCopy (c g t : Nat) (f : Template → Template) (s : State) : State :=
  match s.graph? c g with
  | none => s
  | some x => s.setGraph c g { x with copies := x.copies.set t (f (x.copies.getD t {})) }
/-- The arc that leaves a memory actor. -/
def memOut (s : State) (c g m : Nat) : Option Nat :=
  (s.arcs.find? fun e => e.1 / 4096 = c && e.2.slot = g && e.2.src == .mem m 0).map Prod.fst
/-- The arc that enters port `p` of a memory actor. -/
def memIn (s : State) (c g m p : Nat) : Option Nat :=
  (s.arcs.find? fun e => e.1 / 4096 = c && e.2.slot = g && e.2.dst == .mem m p).map Prod.fst
/-- The marker that a graph's mode change or drain sends (R250, R252). -/
def stopMarker (s : State) (c g : Nat) : Token := { kind := if (s.graph? c g).any Graph.draining then .drain else .mode }

/-- A MODE or DRAIN marker is injected into a graph: its RUNNING groups are DRAINING (R200). -/
def markInjected (c g : Nat) (s : State) : State :=
  match s.graph? c g with
  | none => s
  | some x => s.setGraph c g { x with groups := x.groups.map fun y => if y.state == .running then { y with state := .draining } else y }

/-- The markers at the head of an arc's window, and what stands behind them. -/
def headOf (s : State) (key : Nat) : List Token × List Token := passMarkers (((s.arc? key).map Arc.window).getD [])
/-- Does a SNAP marker stand among the markers at the head? -/
def snapAtHead (s : State) (key : Nat) : Bool :=
  (headOf s key).1.any fun t => t.kind == .snap && (s.arc? key).any fun a => t.payload.toNat = a.snapId
/-- The SNAP marker of the snapshot in progress of a context. -/
def snapToken (s : State) (c : Nat) : Token :=
  { kind := .snap, payload := BitVec.ofNat 512 ((((s.ctx c).openSnap).map Snap.id).getD 0) }
/-- Does a MODE or DRAIN marker stand at the head? -/
def stopAtHead (s : State) (key : Nat) : Bool := ((headOf s key).2.head?).any Token.isStopping
/-- The token that an engine would take. -/
def itemAtHead (s : State) (key : Nat) : Option Token :=
  match (headOf s key).2 with
  | t :: _ => if t.isItem then some t else none
  | [] => none

/-- An engine takes the token behind the markers at the head (R152), and publishes (R160). -/
def takeHead (key : Nat) (s : State) : State :=
  match s.arc? key with
  | none => s
  | some a =>
    let m := passMarkers a.window
    match m.2 with
    | t :: rest => publish key (s.setArc key (a.leaveAll (m.1 ++ [t]) rest))
    | [] => s

/-- A token of an engine goes to the window that it fills: it is written in this cycle where its banks are free (R159, R176). -/
def engineSend (key : Nat) (tok : Token) (s : State) : State :=
  match s.arc? key with
  | none => s
  | some a => (s.setArc key { a with sent := a.sent + bit tok.spends, transit := a.transit ++ [{ tok with tag := key % 4096 }] }).soon
      (.ringWindowWrite (key / 4096) (key % 4096))

/-! ## Sources and gathers (R189, R190) -/

/-- Byte offset of token `n` of a pattern (R189). -/
def patternOffset : List Nat → List Int → Nat → Int
  | c :: cs, d :: ds, n => (n % c : Nat) * d + patternOffset cs ds (n / c)
  | _, _, _ => 0

/-- Address of token `n` of a source or sink. -/
def MemActor.address (m : MemActor) (d : MADecl) (n : Nat) : Nat :=
  patternOf 64 ((m.base : Int) + patternOffset d.counts d.strides (n % d.counts.prod))

/-- Address of row token `r` of the index `x`, where the index is in range (R190). -/
def MemActor.rowAddress (m : MemActor) (d : MADecl) (x : Int) (r : Nat) : Option Nat :=
  if 0 ≤ x ∧ x < d.rows then some (m.base + x.toNat * d.rowbytes + 64 * r) else none

/-- DATA tokens between an engine and the beat that pops: those of the window, and those requested. -/
def tokensAhead (a : Arc) (m : MemActor) : Nat :=
  ((a.window ++ a.fresh ++ a.entry ++ a.transit).filter Token.isItem).length + m.fetching.length

/-- Has the advancing cycle of R189 come for the next token of an engine, counted back from the beat that pops it? -/
def requestDue (s : State) (a : Arc) (m : MemActor) (lead : Nat) : Bool :=
  match a.dst with
  | .tile t p =>
    match (s.tile t).active with
    | none => false
    | some l =>
      let r := regionOfTile s t
      let sched := popSchedule l r.phases p
      let j := poppedThisPeriod (inPort s t p) r + tokensAhead a m
      if sched.isEmpty then false
      else j / sched.length * periodOf r.phases + sched.getD (j % sched.length) 0 < r.position + lead
  | _ => true

/-- Tokens of the consumer's current and later periods that complete the last period of which a token was requested (R250). -/
def tokensToPeriodEnd (s : State) (a : Arc) (m : MemActor) : Nat :=
  match a.dst with
  | .tile t p =>
    let r := regionOfTile s t
    let n := (inPort s t p).rate.sum
    let j := poppedThisPeriod (inPort s t p) r + tokensAhead a m
    if n = 0 || m.next = m.startAt then 0 else (n - j % n) % n
  | _ => 0

/-- May a memory actor take tokens and issue requests: its graph runs, it is not quiescent, and it waits for no walk and no `tret`
(R252, R386, R388)? -/
def engineWorks (s : State) (c g m : Nat) : Bool :=
  let x := memAt s c g m
  graphRuns s c g && x.bound && !x.pagewait && !x.held && x.pause ≤ s.pcyc && !x.quiescent && !isWalking s c (.memActor g m) && !streamHeld s c (.memActor g m)

/-- Do both ends of an input of a memory actor stand in the mode in force? -/
def isLive (s : State) (key : Nat) : Bool := (s.arc? key).any Arc.live

/-- May a source or gather issue its next request now (R189)? -/
def wantsRequest (s : State) (c g m : Nat) : Bool :=
  let x := memAt s c g m
  match memDecl s c g m, memOut s c g m with
  | some d, some key =>
    let a := (s.arc? key).getD {}
    let more := match d.kind with
      | .source => x.lastToken.all fun n => x.next < n
      | .gather => !x.indices.isEmpty
      | _ => false
    engineWorks s c g m && a.live && !awaitsReread s c (.memActor g m) && more && x.fetching.length < a.credits && requestDue s a x d.lead
  | _, _ => false

/-- Tokens whose replies are there enter the window in token order; a SNAP marker goes in at its place (R407). -/
def deliverReady (c g m : Nat) (s : State) : Nat → State
  | 0 => s
  | n + 1 =>
    match memOut s c g m with
    | none => s
    | some key =>
      let x := memAt s c g m
      match x.fetching with
      | (k, col, some pl) :: rest =>
        if x.snapAt = some k then
          deliverReady c g m (passAgent c (agentMem g m) (updMem c g m (fun x => { x with snapAt := none, snapPos := some k })
            (engineSend key (snapToken s c) s))) n
        else
          let fmt := match memDecl s c g m with
            | some d => d.fmt
            | none => 0
          deliverReady c g m (updMem c g m (fun x => { x with fetching := rest, tokens := x.tokens + 1 })
            (engineSend key { kind := .data, colour := col, fmt := fmt, payload := pl } s)) n
      | _ => s

/-- Everything of an engine's that is due goes into its window: tokens, then a SNAP marker, then the MODE or DRAIN marker behind
the last token (R250, R252, R409). -/
def settleEngine (c g m : Nat) (s : State) : State :=
  let s := deliverReady c g m s (2 * (memAt s c g m).fetching.length + 1)
  let x := memAt s c g m
  match memDecl s c g m, memOut s c g m with
  | some d, some key =>
    if !x.fetching.isEmpty then s
    else
      match d.kind with
      | .source =>
        let s := if x.snapAt = some x.next then
            passAgent c (agentMem g m) (updMem c g m (fun x => { x with snapAt := none, snapPos := some x.next }) (engineSend key (snapToken s c) s))
          else s
        if x.lastToken = some x.next && !x.marked then
          updMem c g m (fun x => { x with marked := true }) (engineSend key (stopMarker s c g) (markInjected c g s))
        else s
      | .gather =>
        if !x.indices.isEmpty then s
        else
          let s := if x.snapPos.isSome then updMem c g m (fun x => { x with snapPos := none }) (engineSend key (snapToken s c) s) else s
          match memIn s c g m 0 with
          | some i => if stopAtHead s i && !x.marked then
              updMem c g m (fun x => { x with marked := true }) (engineSend key (stopMarker s c g) s) else s
          | none => s
      | _ => s
  | _, _ => s

/-- The engine's position behind a request. -/
def MemActor.requested (x : MemActor) (d : MADecl) (col : Nat) (v : Option Payload) : MemActor :=
  let x := { x with next := x.next + 1, fetching := x.fetching ++ [(x.next, col, v)] }
  match d.kind with
  | .gather => if x.row + 1 < d.rowbytes / 64 then { x with row := x.row + 1 } else { x with row := 0, indices := x.indices.drop 1 }
  | _ => x

/-- SOURCE_REQUEST (R189, R190): the request of the next token of a source, or of the next row token of a gather. A row of an
index outside the table is zero and asks for nothing. -/
def execSourceRequest (ctx slot ma : Nat) (s : State) : StepResult :=
  let x := memAt s ctx slot ma
  match memDecl s ctx slot ma with
  | none => .next s
  | some d =>
    let col := match d.kind with
      | .gather => x.colour
      | _ => 0
    let fetch := fun (va : Nat) =>
      engineAccess ctx (.memActor slot ma) va .read false s fun pa _ s =>
        let o : Op := { mkOp s (.engineRead ma x.next) 0 pa 8 with stream := .memActor slot ma, ctx := ctx, va := va }
        (updMem ctx slot ma (fun x => x.requested d col none) (s.newOp o)).later (.dramReply s.opCount)
    match d.kind with
    | .source => .next (fetch (x.address d x.next))
    | .gather =>
      match x.indices with
      | [] => .next s
      | i :: _ =>
        match x.rowAddress d i x.row with
        | some va => .next (fetch va)
        | none => .next (settleEngine ctx slot ma (updMem ctx slot ma
            (fun x => { x.requested d col (some 0) with range := x.range || i != -1 }) s))
    | _ => .next s

/-- The 64 bytes at a physical address as a payload. -/
def readLine (s : State) (pa : Nat) : Payload := BitVec.ofNat 512 (readLE s.mem pa 64)

/-- DRAM_REPLY (R189): the line as it stands now reaches the engine, which fills its window in token order. A read that ended in
MEMERR waits for its `tret` (R375). -/
def execDramReply (op : Nat) (s : State) : StepResult :=
  match opAt s op with
  | none => .next s
  | some o =>
    match o.kind, o.stream with
    | .engineRead ma n, .memActor slot _ =>
      if o.refused then .next s
      else if let some d := underTest s o.addr then .next (holdRequest d (.event (.dramReply op)) s)
      else
        let fill := fun e : Nat × Nat × Option Payload => if e.1 = n then (e.1, e.2.1, some (readLine s o.addr)) else e
        .next (settleEngine o.ctx slot ma (updMem o.ctx slot ma (fun x => { x with fetching := x.fetching.map fill }) (s.dropOp op)))
    | _, _ => .next s

/-- The 16 row indices of an index token (R190). -/
def indicesOf (p : Payload) : List Int := (List.range 16).map fun i => signedOf 32 (elem 32 p.toNat i)

/-- May a gather or scatter-add take an index token: none in hand, and no marker of a snapshot to forward or to wait at? -/
def wantsIndex (s : State) (c g m : Nat) : Bool :=
  let x := memAt s c g m
  match memIn s c g m 0, memDecl s c g m with
  | some key, some d =>
    engineWorks s c g m && isLive s key && x.indices.isEmpty && (itemAtHead s key).isSome &&
      (match d.kind with
      | .gather => x.snapPos.isNone
      | .scatterAdd => !(snapAtHead s key && agentPending s c (agentMem g m))
      | _ => false)
  | _, _ => false

/-- GATHER_INDEX_TAKE (R190, R191): a gather or a scatter-add takes an index token with its colour. -/
def execGatherIndexTake (ctx slot ma : Nat) (s : State) : StepResult :=
  match memIn s ctx slot ma 0 with
  | none => .next s
  | some key =>
    match itemAtHead s key with
    | none => .next s
    | some t => .next (updMem ctx slot ma
        (fun x => { x with indices := indicesOf t.payload, colour := t.colour, row := 0, tokens := x.tokens + 1 }) (takeHead key s))

/-! ## Sinks and scatter-adds (R191 to R193) -/

/-- Bytes that a writer with marker bit `mark` writes at a translated address, with M = 0 also into the page's NEW copy (R413); `k` goes on
behind the write. A bank under test holds it: `w` is what is done then (R396). While a page of the cellar is being committed, nothing
happens (R387). -/
def writeMarked (c : Nat) (mark : Bool) (va page pa n v : Nat) (w : Task) (s : State) (k : State → State) : State :=
  match underTest s pa with
  | some d => holdRequest d w s
  | none =>
    match (if mark then .ok () s else mirrorOld (homeDie s pa) c page (va - page) n v s) with
    | .ok _ s => k (writePhys pa n v s)
    | .hold c va => copyFirst c va s
    | .fault s => k (writePhys pa n v s)

/-- May a sink take its next token? -/
def wantsSink (s : State) (c g m : Nat) : Bool :=
  match memIn s c g m 0, memDecl s c g m with
  | some key, some d => d.kind == .sink && engineWorks s c g m && isLive s key && (itemAtHead s key).isSome
  | _, _ => false

/-- SINK_WRITE (R193): a token is taken and written whole at its pattern address. -/
def execSinkWrite (ctx slot ma : Nat) (s : State) : StepResult :=
  let x := memAt s ctx slot ma
  match memIn s ctx slot ma 0, memDecl s ctx slot ma with
  | some key, some d =>
    match itemAtHead s key with
    | none => .next s
    | some t =>
      let va := x.address d x.next
      let mark := !agentPending s ctx (agentMem slot ma)
      .next (engineAccess ctx (.memActor slot ma) va .write mark s fun pa page s =>
        writeMarked ctx mark va page pa 64 t.payload.toNat (.memActor ctx slot ma) s fun s =>
          updMem ctx slot ma (fun x => { x with next := x.next + 1, tokens := x.tokens + 1 }) (takeHead key s))
  | _, _ => .next s

/-- May a scatter-add take a row token: an index in hand, and no marker to wait at (R409)? -/
def wantsRow (s : State) (c g m : Nat) : Bool :=
  let x := memAt s c g m
  match memIn s c g m 1, memDecl s c g m with
  | some key, some d =>
    d.kind == .scatterAdd && engineWorks s c g m && isLive s key && !x.indices.isEmpty && (itemAtHead s key).isSome &&
      !(snapAtHead s key && agentPending s c (agentMem g m))
  | _, _ => false

/-- A scatter-add takes a row token: its addition follows, unless the index is -1 or out of range (R191). -/
def acceptRow (c g m : Nat) (s : State) : State :=
  let x := memAt s c g m
  match memIn s c g m 1, memDecl s c g m, x.indices with
  | some key, some d, i :: is =>
    match itemAtHead s key with
    | none => s
    | some t =>
      let mark := !agentPending s c (agentMem g m)
      let last := d.rowbytes / 64 ≤ x.row + 1
      let s := updMem c g m (fun x => { x with tokens := x.tokens + 1, row := if last then 0 else x.row + 1
                                               indices := if last then is else x.indices }) (takeHead key s)
      match x.rowAddress d i x.row with
      | some va => (updMem c g m (fun x => { x with updates := x.updates ++ [(va, t.payload, mark)] }) s).later (.scatterAddUpdate c g m)
      | none => updMem c g m (fun x => { x with range := x.range || i != -1 }) s
  | _, _, _ => s

/-- The sum of two lines, element by element (R191): I32 wraps, F32 and BF16 round to nearest even. -/
def addLine (op : Nat) (old row : Nat) : Nat :=
  match op with
  | 0 => pack 32 16 fun k => elem 32 old k + elem 32 row k
  | 1 => pack 32 16 fun k => fadd .f32 0 0 (elem 32 old k) (elem 32 row k)
  | _ => pack 16 32 fun k => fadd .bf16 0 0 (elem 16 old k) (elem 16 row k)

/-- An element of a list moved to its front. -/
def toFront {α : Type} (l : List α) (i : Nat) : List α :=
  match l[i]? with
  | some x => x :: l.eraseIdx i
  | none => l

/-- The steps of the row additions of a scatter-add are set, one for each. -/
def startUpdates (c g m : Nat) (s : State) : State :=
  let step : Instr := .scatterAddUpdate c g m
  (memAt s c g m).updates.foldl (fun s _ => s.later step) (s.cancel step)

/-- Do accesses that engines of a context have issued go on: also behind a HALT point, until they have ended (R368, R427)? -/
def ctxMoves (s : State) (c : Nat) : Bool :=
  match (s.ctx c).state with
  | .active => true
  | .draining => true
  | .halting => true
  | .rolling => true
  | _ => false

/-- SCATTER_ADD_UPDATE (R191, R192): one accepted row is added beside the DRAM controller: the oldest with `ordered`, else one
that the spec leaves open (log 2). One whose translation waits or faults is tried again before any other (R386, R388); an engine that waits
on a report does nothing, and its `tret` sets its steps again. -/
def execScatterAddUpdate (ctx slot ma : Nat) (s : State) : StepResult :=
  let x := memAt s ctx slot ma
  match memDecl s ctx slot ma with
  | none => .next s
  | some d =>
    if x.pagewait || x.held then .next s
    else if s.pcyc < x.pause then .next (s.after (x.pause - s.pcyc) (.scatterAddUpdate ctx slot ma)) else
    let i := if d.ordered || x.retry then 0 else Config.freeDelay s.freeCount % x.updates.length
    let s := { s with freeCount := s.freeCount + 1 }
    match x.updates[i]? with
    | none => .next s
    | some (va, row, mark) =>
      let first := updMem ctx slot ma (fun x => { x with updates := toFront x.updates i, retry := true })
      let again : Instr := .scatterAddUpdate ctx slot ma
      let s' := if !ctxMoves s ctx then s else
        engineAccess ctx (.memActor slot ma) va .both mark (first s) fun pa page s =>
          writeMarked ctx mark va page pa 64 (addLine d.op (readLine s pa).toNat row.toNat) (.event again) s
            (updMem ctx slot ma fun x => { x with updates := x.updates.drop 1, retry := false })
      let held := s'.dies.any fun e => e.2.held.contains (.event again)
      .next (if (memAt s' ctx slot ma).updates.length = x.updates.length && !held then s'.later again else s')

/-- Markers that have reached the heads of an engine's inputs: its marker point (R409). -/
def engineMarkers (c g m : Nat) (s : State) : State :=
  let a := agentMem g m
  if !agentPending s c a then s
  else
    let shows := fun p => match memIn s c g m p with
      | some key => snapAtHead s key
      | none => false
    match (memDecl s c g m).map MADecl.kind with
    | some .gather => if shows 0 then updMem c g m (fun x => { x with snapPos := some x.next }) (passAgent c a s) else s
    | some .sink => if shows 0 then updMem c g m (fun x => { x with snapPos := some x.next }) (passAgent c a s) else s
    | some .scatterAdd => if shows 0 && shows 1 then passAgent c a s else s
    | _ => s

/-- The last condition of R252 for a memory actor in a mode change or a drain. An end whose list does not stand in the mode in
force moves no token and gets no marker: nothing is waited for there (log 36). -/
def engineQuiet (s : State) (c g m : Nat) : Bool :=
  let x := memAt s c g m
  let ends := (s.graph? c g).any fun g => g.state == .changing || g.state == .draining
  let stop := fun p => match memIn s c g m p with
    | some key => !isLive s key || stopAtHead s key
    | none => true
  let told := match memOut s c g m with
    | some key => x.marked || !isLive s key
    | none => true
  ends && match (memDecl s c g m).map MADecl.kind with
  | some .source => told && x.fetching.isEmpty
  | some .gather => told && stop 0 && x.fetching.isEmpty && x.indices.isEmpty
  | some .sink => stop 0
  | some .scatterAdd => stop 0 && stop 1 && x.updates.isEmpty
  | none => false

/-- MEMORY_ACTOR_QUIESCENT (R252): from now on it takes no token and issues no request. A marker point still to come is passed
with it. -/
def execMemoryActorQuiescent (ctx slot ma : Nat) (s : State) : StepResult :=
  let due := agentPending s ctx (agentMem slot ma)
  .next (passAgent ctx (agentMem slot ma) (updMem ctx slot ma
    (fun x => { x with quiescent := true, snapPos := if due then some x.next else x.snapPos, snapAt := none }) s))

/-! ## Copy templates (R185 to R187, R390) -/

/-- The key of the window of the port bound to the template of a queue. -/
def boundKey (queueKey : Nat) : Nat := queueKey + 64 * 4096
/-- The queue of a template. -/
def copyQueue (s : State) (c g t : Nat) : Option Nat :=
  (s.arcs.find? fun e => e.1 / 4096 = c && e.2.slot = g && e.2.kind == .queue && e.2.dst == .copy t).map Prod.fst
/-- The template that a queue feeds: slot and number. -/
def templateOf (a : Arc) : Option (Nat × Nat) :=
  match a.dst with
  | .copy t => some (a.slot, t)
  | _ => none

/-- An endpoint with the cupboard address of R146. -/
def withState (g : Graph) (e : Nat) (k : Option Nat) : Nat :=
  match k with
  | some i => e + g.cupboards.getD i 0
  | none => e

/-- The endpoints and the length that the image declares for a template, armed (R258). -/
def declaredTemplate (g : Graph) (t : Nat) (x : Template) : Template :=
  match g.image.copies[t]? with
  | some d => { x with armed := true, src := withState g d.src d.srcState, dst := withState g d.dst d.dstState, words := d.words }
  | none => x

/-- Is an endpoint a near address (R185)? -/
def isNearEnd (e : Nat) : Bool := bitOf e 63
/-- Does the span of `n` words at offset `o` of a near endpoint stay in the quad's 8 MiB? -/
def nearSpanOk (e o n : Nat) : Bool := !isNearEnd e || e % 2 ^ 63 + o + 8 * n ≤ 2 ^ 23
/-- `TINFO` of COPY (R187). -/
def copyInfo (why tag off : Nat) : Word := BitVec.ofNat 64 (why * 2 ^ 62 + tag % 4096 * 2 ^ 50 + off % 2 ^ 50)

/-- A record becomes FAILED (R264): LAUNCH at the host, with its identifier. -/
def failRecord (c id : Nat) (s : State) : State :=
  let s := s.setCtx c { s.ctx c with records := (s.ctx c).records.map fun r => if r.id = id then { r with failed := true } else r }
  s.tellOpen c Code.launch id none

/-- A firing of the queue `tag` has ended: the KICK record behind its token finishes, or fails (R264). -/
def kickDone (c tag n : Nat) (ok : Bool) (s : State) : State :=
  match (s.ctx c).records.find? fun r => r.kind = 1 && r.acting && !r.failed && r.handle % 4096 = tag && r.place = n with
  | some r => if ok then s.soon (.recordFinish c r.id) else failRecord c r.id s
  | none => s

/-- A MODE or DRAIN marker enters the window of a template's bound port (R250). -/
def markTemplate (c g t : Nat) (s : State) : State :=
  match copyQueue s c g t with
  | none => s
  | some key => updCopy c g t (fun x => { x with marked := true, quiescent := true })
      (passAgent c (agentCopy g t) (arriveAt (boundKey key) { stopMarker s c g with tag := key % 4096 } (markInjected c g s)))

/-- A SNAP marker at the head of a template's queue: its marker point; the marker goes into the bound window when no firing is
in progress (R409). -/
def copyMarkers (c g t : Nat) (s : State) : State :=
  match copyQueue s c g t with
  | none => s
  | some key =>
    let s := if agentPending s c (agentCopy g t) && snapAtHead s key then
        updCopy c g t (fun x => { x with snapDue := true }) (passAgent c (agentCopy g t) s) else s
    let x := copyAt s c g t
    if x.snapDue && x.firing.isNone then
      updCopy c g t (fun x => { x with snapDue := false }) (arriveAt (boundKey key) { snapToken s c with tag := key % 4096 } s)
    else s

/-- May a template fire (R185)? -/
def wantsFiring (s : State) (c g t : Nat) : Bool :=
  let x := copyAt s c g t
  match copyQueue s c g t with
  | some key => graphRuns s c g && x.armed && x.firing.isNone && !x.stopped && !x.marked && !x.pagewait && !x.held && (itemAtHead s key).isSome
  | none => false

/-- COPY_FIRING (R185, R187): the token at the head of the queue is taken; an offset that is refused raises COPY and copies
nothing. An offset that fails both checks reports WHY 0: R187 names no order (DESIGN CHOICE, log 37). -/
def execCopyFiring (ctx slot tpl : Nat) (s : State) : StepResult :=
  let x := copyAt s ctx slot tpl
  match copyQueue s ctx slot tpl with
  | none => .next s
  | some key =>
    match itemAtHead s key with
    | none => .next s
    | some t =>
      let o := t.payload.toNat % 2 ^ 64
      let s := takeHead key s
      let n := ((s.arc? key).map Arc.read).getD 0
      let st : Stream := .copy slot tpl
      let refuse := fun why => kickDone ctx (key % 4096) n false
        (setHeld ctx st true (passEngine ctx st Code.copy (copyInfo why (key % 4096) o) s))
      if o % 8 ≠ 0 then .next (refuse 0)
      else if !nearSpanOk x.src o x.words || !nearSpanOk x.dst 0 x.words then .next (refuse 1)
      else .next (updCopy ctx slot tpl (fun x =>
        { x with firing := some (t.colour, o, 0), span := 0, unread := [], hand := [], fsrc := x.src, fdst := x.dst, fwords := x.words, ftoken := n
                 fmark := !agentPending s ctx (agentCopy slot tpl) }) s)

/-- The memory tile and the offset of a near address of a quad. -/
def nearPlace (quad a : Nat) : Nat × Nat := (memoryOfQuad quad (a / 2 ^ 21 % 4), a % 2 ^ 21)

/-- Is the bank of a near address free in this cycle? -/
def bankFree (s : State) (p : Nat × Nat) : Bool := !(busyBanks s p.1).contains (bankOf p.2)

/-- The quad of the list of a template's bound actor. -/
def copyQuad (s : State) (c g t : Nat) : Nat := quadOfPos (((Stream.copy g t).tileOf s c).getD 0)

/-- The address of word `k` of a firing at its source. -/
def Template.srcAt (x : Template) (k : Nat) : Nat := (x.fsrc + (x.firing.map fun f => f.2.1).getD 0 + 8 * k) % 2 ^ 64
/-- The address of word `k` of a firing at its destination. -/
def Template.dstAt (x : Template) (k : Nat) : Nat := (x.fdst + 8 * k) % 2 ^ 64

/-- Words from a virtual address to the end of the page that holds it, in the TLB of a die. -/
def wordsOfPage (s : State) (die c va : Nat) : Nat :=
  match tlbFind s die c va with
  | some t => (t.va + t.size - va) / 8
  | none => 1

/-- The words `k` to `n` - 1 of a firing in runs that lie in one 64-byte line of the source (R242). -/
def lineRuns (x : Template) (n : Nat) : Nat → Nat → List (Nat × Nat)
  | 0, _ => []
  | fuel + 1, k =>
    if n ≤ k then []
    else
      let m := if isNearEnd x.fsrc then 1 else min (n - k) (8 - x.srcAt k / 8 % 8)
      (k, m) :: lineRuns x n fuel (k + m)

/-- An endpoint of a firing is translated, where it is a virtual address: `k` goes on with the number of words to the end of its
page. -/
def translateEnd (c g t e va : Nat) (need : Need) (m : Bool) (s : State) (k : Nat → State → State) : State :=
  if isNearEnd e then k (2 ^ 24) s
  else engineAccess c (.copy g t) va need m s fun _ _ s => k (wordsOfPage s (dieOfPos (((Stream.copy g t).tileOf s c).getD 0)) c va) s

/-- The next page span of a firing: both endpoints are translated before any word of it is read (R390). -/
def startSpan (c g t : Nat) (s : State) : State :=
  let x := copyAt s c g t
  match x.firing with
  | none => s
  | some (_, _, n) =>
    translateEnd c g t x.fsrc (x.srcAt n) .read false s fun a s =>
      translateEnd c g t x.fdst (x.dstAt n) .write x.fmark s fun b s =>
        let stop := min x.fwords (n + max 1 (min a b))
        updCopy c g t (fun x => { x with span := stop, unread := lineRuns x stop (stop - n) n }) s

/-- A run of words of a firing is read, whole (R242). -/
def readRun (c g t i : Nat) (s : State) : State :=
  let x := copyAt s c g t
  match x.unread[i]? with
  | none => s
  | some (k, m) =>
    let take := fun (f : Nat → Nat) (s : State) =>
      updCopy c g t (fun x => { x with unread := x.unread.eraseIdx i, hand := x.hand ++ (List.range m).map fun j => (k + j, f j) }) s
    if isNearEnd x.fsrc then
      let p := nearPlace (copyQuad s c g t) (x.srcAt k % 2 ^ 63)
      if bankFree s p then take (fun _ => nearWord s p.1 p.2) (useBanks p.1 [bankOf p.2] s) else s
    else
      engineAccess c (.copy g t) (x.srcAt k) .read false s fun pa _ s =>
        match underTest s pa with
        | some d => holdRequest d (.copy c g t) s
        | none => take (fun j => readLE s.mem (pa + 8 * j) 8) s

/-- A word of a firing that has been read lands (R185). -/
def landWord (c g t i : Nat) (s : State) : State :=
  let x := copyAt s c g t
  match x.hand[i]? with
  | none => s
  | some (k, v) =>
    let done := updCopy c g t (fun x => { x with hand := x.hand.eraseIdx i })
    if isNearEnd x.fdst then
      let p := nearPlace (copyQuad s c g t) (x.dstAt k % 2 ^ 63)
      if bankFree s p then done (setNearWord p.1 p.2 v (useBanks p.1 [bankOf p.2] s)) else s
    else
      engineAccess c (.copy g t) (x.dstAt k) .write x.fmark s fun pa page s =>
        writeMarked c x.fmark (x.dstAt k) page pa 8 v (.copy c g t) s done

/-- Some steps of a firing: the reads and the words in hand in any order (R185, log 2); a span that is behind gives way to the next. -/
def copySteps (c g t : Nat) : Nat → State → State
  | 0, s => s
  | n + 1, s =>
    let x := copyAt s c g t
    let u := x.unread.length
    let all := u + x.hand.length
    if all = 0 then
      match x.firing with
      | none => s
      | some (col, o, k) =>
        let k := if k < x.span then x.span else k
        let s := updCopy c g t (fun x => { x with firing := some (col, o, k) }) s
        if x.fwords ≤ k then s else startSpan c g t s
    else
      let i := Config.freeDelay s.freeCount % all
      let s : State := { s with freeCount := s.freeCount + 1 }
      copySteps c g t n (if i < u then readRun c g t i s else landWord c g t (i - u) s)

/-- Does a template do nothing for its firing in this cycle? -/
def copyRests (s : State) (c g t : Nat) : Bool :=
  let x := copyAt s c g t
  x.firing.isNone || x.pagewait || x.held || s.pcyc < x.pause || isWalking s c (.copy g t) || streamHeld s c (.copy g t) || !ctxRuns s c

/-- The words in hand of a firing land behind a HALT point too (R368). -/
def landInHand (c g t : Nat) (s : State) : State :=
  let x := copyAt s c g t
  if x.firing.isNone || x.pagewait || x.held || isWalking s c (.copy g t) || streamHeld s c (.copy g t) then s
  else (List.range x.hand.length).foldl (fun s _ => if (copyAt s c g t).pagewait then s else landWord c g t 0 s) s

/-- A firing in a cycle: how many words move is open (log 2). The completion is set when the last one has landed. -/
def copyProgress (c g t : Nat) (s : State) : State :=
  if copyRests s c g t then s
  else
    let s' := copySteps c g t (Config.freeDelay s.freeCount + 1) { s with freeCount := s.freeCount + 1 }
    let x := copyAt s' c g t
    if x.unread.isEmpty && x.hand.isEmpty && x.firing.any fun f => x.fwords ≤ f.2.2 then s'.soon (.copyCompletion c g t) else s'

/-- COPY_COMPLETION (R186): the CTRL token enters the window of the bound port; markers that waited for it follow. -/
def execCopyCompletion (ctx slot tpl : Nat) (s : State) : StepResult :=
  let x := copyAt s ctx slot tpl
  match copyQueue s ctx slot tpl, x.firing with
  | some key, some (col, o, _) =>
    let pl : Payload := BitVec.ofNat 512 (x.fwords + (x.fsrc + o) % 2 ^ 64 * 2 ^ 64)
    let s := writeWindow (boundKey key) { kind := .ctrl, tag := key % 4096, colour := col, payload := pl } s
    let s := copyMarkers ctx slot tpl (updCopy ctx slot tpl (fun x => { x with firing := none }) s)
    let s := if x.stopped && !x.marked then markTemplate ctx slot tpl s else s
    .next (kickDone ctx (key % 4096) x.ftoken true s)
  | _, _ => .next s

/-! ## `ckick` (R257) -/

/-- GRAPH with a reason (R261). -/
def graphFault (n reason : Nat) (s : State) : StepResult := .next (ownFault n Code.graph (BitVec.ofNat 64 reason) s)

/-- The DATA token of a kick: bytes 0 to 7 hold the offset. -/
def kickToken (s : State) (v : Word) : Token := { kind := .data, colour := sendColour s, payload := v.setWidth 512 }

/-- `ckick` (R257). The host arc is the named queue of tag 4,095 (R263). -/
def execCkick (a : BitVec 6) (tag : BitVec 12) (s : State) : StepResult :=
  let c := curCtx s
  let key := State.arcKey c tag.toNat
  let arc := (s.arc? key).getD {}
  match s.cur.unit with
  | .tile _ => if arc.canSend then .next (sendToken key { kickToken s (readS s a) with tag := tag.toNat } s) else freeze .pushWait 0 tag.toNat s
  | .seq n =>
    if tag.toNat = 4095 then (
      if (s.ctx c).hostArc.length < 64 then
        passOn n (s.setCtx c { s.ctx c with hostArc := (s.ctx c).hostArc ++ [(readS s a).toNat % 2 ^ 32] })
      else stay n .ckick s)
    else if arc.kind != .queue || (s.arc? key).isNone then graphFault n 4 s
    else if arc.canSend then passOn n (sendToken key { kickToken s (readS s a) with tag := tag.toNat } s)
    else stay n .ckick s

end Sys2Proof.Machine
end

