-- ==== Sys2Proof/Machine/Loader.lean ====
section
/-! DEFINITION. The loader: the layout of near memory, the assignment of arc tags, and the checks of an image in the passes of
R247 (R22, R83, R84, R128, R136, R143, R144, R146, R158, R159, R194 to R196, R202, R211, R212, R274). -/

namespace Sys2Proof.Machine

/-- The fields of the load status word (R246). -/
structure LoadFault where
  code : Nat
  check : Nat := 0
  seg : Nat := 0
  mode : Nat := 0
  entry : Nat := 0
  obj : Nat := 0
  port : Nat := 0
  deriving DecidableEq, Repr

/-- The load status word (R246). -/
def LoadFault.word (f : LoadFault) : Word :=
  BitVec.ofNat 64 (f.code % 256 * 2 ^ 56 + f.check % 16 * 2 ^ 52 + f.seg % 16 * 2 ^ 48 + f.mode % 8 * 2 ^ 45
    + f.entry % 8192 * 2 ^ 32 + f.obj % 65536 * 2 ^ 16 + f.port % 16 * 2 ^ 12)

/-- The first finding of a list of checks. -/
def firstFault {α : Type} (l : List α) (f : α → Option LoadFault) : Option LoadFault := l.findSome? f
/-- A check: the fault where the condition holds. -/
def failsIf (b : Bool) (f : LoadFault) : Option LoadFault := if b then some f else none

/-- Where a declaration stands in the source (R247). -/
def Image.rank (im : Image) (d : Decl) : Nat := if im.order.contains d then im.order.idxOf d + 1 else 0
/-- Of some findings of a pass, that at the declaration that stands first in the image; of those at one declaration, the first (R247). -/
def Image.firstOf (im : Image) (l : List (Decl × LoadFault)) : Option LoadFault :=
  (l.foldl (fun (b : Option (Nat × LoadFault)) e =>
    let r := im.rank e.1
    match b with
    | some x => if r < x.1 then some (r, e.2) else b
    | none => some (r, e.2)) none).map Prod.snd

/-! ## Reading an image -/

/-- The modes that an image declares, with their numbers. -/
def Image.modeList (im : Image) : List (Nat × ModeDecl) :=
  (im.modes.zipIdx.filterMap fun e => e.1.map fun m => (e.2, m))
/-- A declared mode. -/
def Image.mode? (im : Image) (n : Nat) : Option ModeDecl := (im.modes[n]?).join
/-- The list of a mode on which a kernel stands. -/
def ModeDecl.listOf (m : ModeDecl) (k : Nat) : Option ListDecl := m.lists.find? fun l => l.actors.contains k
/-- The number of the region of a mode that holds a logical tile. -/
def ModeDecl.regionOf (m : ModeDecl) (t : Nat) : Option Nat := m.regions.findIdx? fun r => r.lists.contains t
/-- The words of a segment. -/
def ListDecl.words (l : ListDecl) (seg : Nat) : List Word := (l.segs.getD seg []).map WordDecl.word
/-- The declaration of a kernel. -/
def Image.kernel (im : Image) (k : Nat) : KernelDecl := im.kernels.getD k {}
/-- The offset of a logical tile. -/
def Image.place (im : Image) (t : Nat) : Int × Int := ((im.places[t]?).join).getD (0, 0)
/-- The quad of a logical tile, relative to the origin's (R17, R197). -/
def Image.relQuad (im : Image) (t : Nat) : Int × Int := ((im.place t).1 / 4, (im.place t).2 / 2)
/-- The logical tile on which a kernel stands in the first mode in which it stands. Where the lists of an actor lie in different
quads, this one's holds its cupboard and its windows: R146 names the quad of "the actor's list" (DESIGN CHOICE, log 45). -/
def Image.tileOf (im : Image) (k : Nat) : Option Nat := im.modeList.findSome? fun m => (m.2.listOf k).map ListDecl.tile
/-- The root group that holds a logical tile. -/
def Image.rootOf (im : Image) (t : Nat) : Option Nat := im.groups.findIdx? fun g => g.parent.isNone && g.lists.contains t
/-- The quad of a logical tile: its root group, and the quad relative to that group's origin. -/
def Image.quadOf (im : Image) (t : Nat) : Nat × Int × Int := ((im.rootOf t).getD 0, im.relQuad t)
/-- The package of a root group, where it is not this one (R449). -/
def Image.rankOf (im : Image) (grp : Nat) : Option Nat := (im.ranks.find? fun e => e.1 = grp).map Prod.snd
/-- The package of a kernel, where it is not this one. -/
def Image.kernelRank (im : Image) (k : Nat) : Option Nat := ((im.tileOf k).bind im.rootOf).bind im.rankOf

/-- The tile's number of the first data port of a kernel on a list, in or out (R76). -/
def portBase (im : Image) (l : ListDecl) (out : Bool) (k : Nat) : Nat :=
  ((l.actors.takeWhile (· != k)).map fun j => if out then (im.kernel j).outs.length else (im.kernel j).ins.length).sum
/-- The tile's number of the first control port of a kernel on a list (R76). -/
def cxBase (im : Image) (l : ListDecl) (k : Nat) : Nat :=
  ((l.actors.takeWhile (· != k)).map fun j => (im.kernel j).cxs.length).sum
/-- The position of port `p` among a kernel's declared ports in increasing number. -/
def portIndex (nums : List Nat) (p : Nat) : Nat := (nums.filter (· < p)).length
/-- The tile's number of a kernel's data port (R76). -/
def tilePort (im : Image) (l : ListDecl) (out : Bool) (k p : Nat) : Nat :=
  portBase im l out k + portIndex ((if out then (im.kernel k).outs else (im.kernel k).ins).map PortDecl.num) p
/-- The tile's number of a kernel's control port (R76). -/
def tileCxPort (im : Image) (l : ListDecl) (k p : Nat) : Nat := cxBase im l k + portIndex (im.kernel k).cxs p

/-- The kind of a declared arc (R27, R93, R155): slot-scheduled where the lists of both ends lie in one region of some mode. R93 fixes
one kind at load; for two lists that share a region in one mode and not in another the spec names none, and the model takes the
slot-scheduled kind for all modes (DESIGN CHOICE, log 39). -/
def Image.arcKind (im : Image) (a : ArcDecl) : ArcKind :=
  if a.queue then .queue
  else if a.control then .control
  else
    match a.src, a.dst with
    | .actor j _, .actor k _ =>
      if (im.modeList.any fun m => match m.2.listOf j, m.2.listOf k with
        | some l, some r => (m.2.regionOf l.tile).isSome && m.2.regionOf l.tile == m.2.regionOf r.tile
        | _, _ => false) then .slot else .ring
    | _, _ => .ring

/-! ## Arc tags (R93) -/

/-- The lowest tag that is not in a list. -/
def lowestTag (used : List Nat) : Nat → Nat → Option Nat
  | 0, _ => none
  | n + 1, t => if used.contains t then lowestTag used n (t + 1) else some t

/-- Tags for the declarations that fix none, in order; `used` holds the tags that are taken. None where they run out. -/
def giveTags : List (Option Nat) → List Nat → Option (List Nat)
  | [], _ => some []
  | some t :: l, used => (giveTags l used).map (t :: ·)
  | none :: l, used =>
    match lowestTag used 4095 0 with
    | none => none
    | some t => (giveTags l (t :: used)).map (t :: ·)

/-- The tags of an image's arcs, and behind them those of its joins' member links. -/
def assignTags (im : Image) (used : List Nat) : Option (List Nat) :=
  let want := im.arcs.map ArcDecl.tag ++ (im.joins.flatMap fun j => j.map fun _ => none)
  giveTags want (im.arcs.filterMap ArcDecl.tag ++ used)

/-! ## Positions of a placed graph (R197, R198) -/

/-- The tile position of package coordinates. -/
def posOfPkg (x y : Int) : Nat := posOf (y.toNat / 16 * 3 + x.toNat / 16) (x.toNat % 16) (y.toNat % 16)
/-- The quad of the package at quad coordinates. -/
def quadOfPkg (q : Int × Int) : Nat := (q.2.toNat / 8 * 3 + q.1.toNat / 4) * 32 + q.2.toNat % 8 * 4 + q.1.toNat % 4
/-- Positions of the logical tiles with a root group `i` at an origin; the others as they are. -/
def placeTiles (im : Image) (i : Nat) (o : Nat × Nat) (placed : List Nat) : List Nat :=
  (List.range im.tiles).map fun t =>
    if im.rootOf t == some i then posOfPkg ((im.place t).1 + Int.ofNat o.1) ((im.place t).2 + Int.ofNat o.2) else placed.getD t 0
/-- The logical tiles of a root group with their offsets, its quads relative to the origin with the origin's own. -/
def rootQuads (im : Image) (g : Nat) : List (Int × Int) :=
  ((0, 0) :: (((im.groups[g]?).map GroupDecl.lists).getD []).map im.relQuad).eraseDups

/-- The quads of a root group at an origin. -/
def quadsAt (im : Image) (i : Nat) (o : Nat × Nat) : List Nat :=
  (rootQuads im i).map fun q => quadOfPkg (q.1 + Int.ofNat (o.1 / 4), q.2 + Int.ofNat (o.2 / 2))
/-- The root group of a group. -/
def rootGroup (im : Image) : Nat → Nat → Nat
  | 0, g => g
  | n + 1, g =>
    match (im.groups[g]?).bind GroupDecl.parent with
    | some p => rootGroup im n p
    | none => g
/-- The quad of a relative quad in a placed group. -/
def relToQuad (x : Group) (q : Int × Int) : Nat := quadOfPkg (q.1 + x.dx / 4, q.2 + x.dy / 2)
/-- The sequencer of a `.seq` block: of the origin's quad for a root group, of the first list's quad for a subgroup (R92). -/
def seqOfBlock (g : Graph) (q : Nat) : Nat :=
  match g.image.seqs[q]? with
  | none => 0
  | some d =>
    let root := rootGroup g.image 8 d.grp
    let x := g.groups.getD root {}
    match g.image.groups[d.grp]? with
    | some e => if e.parent.isNone then relToQuad x (0, 0) else
        match e.lists.head? with
        | some t => quadOfPos (g.placed.getD t 0)
        | none => relToQuad x (0, 0)
    | none => relToQuad x (0, 0)
/-- Positions of the members of a join, where they are placed; `done` are the root groups placed. A member that stands on different lists in
different modes counts with its list of the first: R214 gives a join one element and names no mode (DESIGN CHOICE, log 76). -/
def joinPlaces (g : Graph) (done : List Nat) (j : List End) : Option (List Nat) :=
  let ps := j.map fun e => match e with
    | .actorCx k _ => (g.image.tileOf k).bind fun t => if ((g.image.rootOf t).any done.contains) then some (g.placed.getD t 0) else none
    | .seqCx q _ => match g.image.seqs[q]? with
      | some d => if done.contains (rootGroup g.image 8 d.grp) then some (seqPos (seqOfBlock g q)) else none
      | none => none
    | _ => none
  if ps.all Option.isSome then some (ps.filterMap id) else none

/-- The dies of the elements of the joins that lie in the groups placed (R214). -/
def joinDies (g : Graph) (done : List Nat) : List Nat :=
  g.image.joins.filterMap fun j => (joinPlaces g done j).map fun ps => dieOfPos (ps.foldl min 4095)

/-! ## Layout of near memory (R146, R159, R172, R467) -/

/-- Reservations of an image, in one list: quad relative to the origin of the partition's group, local memory tile, partition. -/
abbrev Layout := List (Int × Int × Nat × Partition)

/-- The reservations in a memory tile of a quad. -/
def inTile (l : Layout) (q : Nat × Int × Int) (m : Nat) : List Partition :=
  l.filterMap fun e => if e.2.2.2.grp = q.1 && e.1 = q.2.1 && e.2.1 = q.2.2 && e.2.2.1 = m then some e.2.2.2 else none

/-- Granules of the near data blocks of an image, as reservations: they keep partitions away and are none themselves. -/
def dataBlocks (im : Image) : Layout :=
  im.data.flatMap fun d => match d.near with
    | none => []
    | some t =>
      let q := im.quadOf t
      (List.range 4).filterMap fun m =>
        let lo := max d.addr (m * 2 ^ 21)
        let hi := min (d.addr + d.bytes.length) ((m + 1) * 2 ^ 21)
        let base := lo % 2 ^ 21 / 65536 * 65536
        if lo < hi then some (q.2.1, q.2.2, m, { base := base, granules := (hi - m * 2 ^ 21 - base + 65535) / 65536, mode := .ordinary, grp := q.1 })
        else none

/-- A free run of `n` granules of a memory tile, given what is taken there: the lowest, or the first from the middle of the tile up, then
from the middle down. -/
def freeRun (taken : List Partition) (n : Nat) (middle : Bool) : Option Nat :=
  (if middle then (List.range 16).map (· + 16) ++ (List.range 16).reverse else List.range 32).find? fun b =>
    b + n ≤ 32 && taken.all fun u => !meets b n (u.base / 65536) u.granules

/-- A partition of `n` granules in a memory tile of a quad that has room for it and fewer than 16 partitions: FIFO partitions from
the last memory tile on, in its middle, the others from the bottom up (log 19). -/
def reserve (blocks l : Layout) (q : Nat × Int × Int) (n : Nat) (mode : PartMode) : Option (Layout × Nat) :=
  (if mode == .fifo then [3, 2, 1, 0] else [0, 1, 2, 3]).findSome? fun m =>
    if 16 ≤ (inTile l q m).length then none
    else (freeRun (inTile l q m ++ inTile blocks q m) n (mode == .fifo)).map fun b =>
      (l ++ [(q.2.1, q.2.2, m, { base := b * 65536, granules := n, mode := mode, grp := q.1 })], m * 2 ^ 21 + b * 65536)

/-- The partition table of an image as reservations: each row in the quad of the list that it names (R467). -/
def fixedLayout (im : Image) : Layout :=
  im.parts.map fun p =>
    let q := im.quadOf p.tile
    (q.2.1, q.2.2, p.addr / 2 ^ 21, { base := p.addr % 2 ^ 21, granules := p.granules, mode := p.mode, buffers := p.buffers
                                      full := List.replicate p.buffers false, grp := q.1 })

/-- The quads on which lists of an image stand, without repeats. -/
def Image.quads (im : Image) : List (Nat × Int × Int) := ((List.range im.tiles).map im.quadOf).eraseDups

/-- The quad in which an arc's window lies: the consumer's, or the producer's where an engine consumes (R159). -/
def windowQuad (im : Image) (a : ArcDecl) : Option (Nat × Int × Int) :=
  match a.dst, a.src with
  | .actor k _, _ => (im.tileOf k).map im.quadOf
  | .mem _ _, .actor k _ => (im.tileOf k).map im.quadOf
  | _, _ => none

/-- The ring windows of a quad: arcs with their bytes, 64 for each slot (R159). -/
def windowsOf (im : Image) (q : Nat × Int × Int) : List (Nat × Nat) :=
  im.arcs.zipIdx.filterMap fun e =>
    if im.arcKind e.1 == .ring && windowQuad im e.1 == some q then some (e.2, 64 * e.1.cap) else none

/-- The cupboards of a quad: kernels with their sizes, rounded to 64 bytes. -/
def cupboardsOf (im : Image) (q : Nat × Int × Int) : List (Nat × Nat) :=
  (List.range im.kernels.length).filterMap fun k =>
    let n := ((im.kernel k).cupboard + 63) / 64 * 64
    if 0 < n && (im.tileOf k).map im.quadOf == some q then some (k, n) else none

/-- Near addresses of consecutive objects from `a`. -/
def consecutive : List (Nat × Nat) → Nat → List (Nat × Nat)
  | [], _ => []
  | (k, n) :: l, a => (k, a) :: consecutive l (a + n)

/-- Consecutive groups of objects of at most `cap` bytes each; a larger object makes a group of its own. -/
def bins (cap : Nat) (l : List (Nat × Nat)) : List (List (Nat × Nat)) :=
  l.foldr (fun x r =>
    match r with
    | b :: bs => if x.2 + (b.map Prod.snd).sum ≤ cap then (x :: b) :: bs else [x] :: r
    | [] => [[x]]) []

/-- One partition for each group of objects, and the near address of each object. -/
def placeBins (blocks : Layout) (q : Nat × Int × Int) (mode : PartMode) (bs : List (List (Nat × Nat))) (l : Layout) :
    Option (Layout × List (Nat × Nat)) :=
  bs.foldl (fun r b => r.bind fun (l, as) =>
    (reserve blocks l q (((b.map Prod.snd).sum + 65535) / 65536) mode).map fun (l, a) => (l, as ++ consecutive b a)) (some (l, []))

/-- The objects of a quad in as few partitions as fit: all together, else in smaller and smaller groups (log 19). -/
def placeObjects (blocks : Layout) (q : Nat × Int × Int) (mode : PartMode) (xs : List (Nat × Nat)) (l : Layout) :
    Option (Layout × List (Nat × Nat)) :=
  [2 ^ 21, 2 ^ 20, 2 ^ 19, 2 ^ 18, 2 ^ 17, 2 ^ 16, 0].findSome? fun cap => placeBins blocks q mode (bins cap xs) l

/-- The near memory that an image takes: its partitions, the near addresses of its cupboards by kernel, and those of its windows
by arc. -/
abbrev NearPlan := Layout × List (Nat × Nat) × List (Nat × Nat)

/-- The layout of an image: the windows of its quads in FIFO partitions, its cupboards in ordinary ones (log 19). The number in
the failure is that of the root group that does not fit. -/
def layoutOf (im : Image) : Except Nat NearPlan :=
  let blocks := dataBlocks im
  let step := fun (r : Except Nat NearPlan) (q : Nat × Int × Int) =>
    r.bind fun (l, cs, ws) =>
      match placeObjects blocks q .fifo (windowsOf im q) l with
      | none => .error q.1
      | some (l, w) =>
        match placeObjects blocks q .ordinary (cupboardsOf im q) l with
        | none => .error q.1
        | some (l, c) => .ok (l, cs ++ c, ws ++ w)
  im.quads.foldl step (.ok (fixedLayout im, [], []))

/-! ## Pass 2: limits (R22, R130) -/

/-- Does a list carry no actor or more than 16, or more ports than a tile has (R76, R129, R211)? The spec names no code for such a
list; the model reports IMAGE_LIMIT (log 38). -/
def listTooLarge (im : Image) (l : ListDecl) : Bool :=
  let total := fun f : KernelDecl → Nat => (l.actors.map fun k => f (im.kernel k)).sum
  l.actors.isEmpty || 16 < l.actors.length || 16 < total (·.ins.length) || 16 < total (·.outs.length) || 8 < total (·.cxs.length)

/-- Does an actor stand on two lists of a mode, or twice on one, or have an entry on a list that is not its own? The image's actor record
names one list for each mode (R129): such an image has no form, and is one that the loader cannot parse (log 38). -/
def actorSplit (m : ModeDecl) : Bool :=
  let ks := m.lists.flatMap ListDecl.actors
  ks.eraseDups.length != ks.length || m.lists.any fun l => l.segs.any fun g => g.any fun w => !l.actors.contains w.owner

/-- The declaration for which arc tags run out: an arc, or the join of a member link. -/
def tagsShort (im : Image) (used : List Nat) : Option Decl :=
  let want := im.arcs.map (fun a => (a.tag, (0 : Nat))) ++ im.joins.zipIdx.flatMap fun j => j.1.map fun _ => (none, j.2)
  let fixed := im.arcs.filterMap ArcDecl.tag ++ used
  ((List.range want.length).find? fun i => (giveTags ((want.take (i + 1)).map Prod.fst) fixed).isNone).map fun i =>
    if i < im.arcs.length then .arc i else .join ((want.getD i (none, 0)).2)

/-- IMAGE_LIMIT: OBJ is the index of the declaration that exceeds a limit. -/
def limitFault (im : Image) (used : List Nat) : Option LoadFault :=
  let f : LoadFault := { code := 5 }
  im.firstOf (
    (if 65535 < im.kernels.length then [(.kernel 65535, { f with obj := 65535 })] else []) ++
    (if 8 < im.modes.length then [(.mode 8, { f with obj := 8 })] else []) ++
    (im.modeList.flatMap fun (n, m) =>
      (if m.phases.isEmpty || 16 < m.phases.length || m.phases.any (fun l => l = 0 || 4096 < l) then [(Decl.mode n, { f with mode := n, obj := n })] else []) ++
      m.lists.zipIdx.filterMap fun (l, i) =>
        if 8192 < (l.segs.map List.length).sum || listTooLarge im l then some (Decl.list n i, { f with mode := n, obj := i }) else none) ++
    match tagsShort im used with
    | some (.arc i) => [(.arc i, { f with obj := i })]
    | some (.join j) => [(.join j, { f with obj := j })]
    | _ => [])

/-! ## Pass 3: groups, places, regions, partitions and cupboards -/

/-- The nesting depth of a group, up to `n`. -/
def groupDepth (im : Image) : Nat → Nat → Nat
  | 0, _ => 0
  | n + 1, g =>
    match (im.groups[g]?).bind GroupDecl.parent with
    | some p => 1 + groupDepth im n p
    | none => 1

/-- May an origin at package coordinates (x, y) hold a root group: every quad in the package, within one die where the nominal
placement lies within die 0, else a move by whole dies (R198)? -/
def originFits (im : Image) (g : Nat) (x y : Nat) : Bool :=
  let qs := rootQuads im g
  let local_ := qs.all fun q => 0 ≤ q.1 && q.1 < 4 && 0 ≤ q.2 && q.2 < 8
  let at_ := qs.map fun q => (q.1 + Int.ofNat (x / 4), q.2 + Int.ofNat (y / 2))
  if local_ then
    x % 4 = 0 && y % 2 = 0 && at_.all fun q => q.1 / 4 == Int.ofNat (x / 16) && q.2 / 8 == Int.ofNat (y / 16)
  else x % 16 = 0 && y % 16 = 0 && at_.all fun q => 0 ≤ q.1 && q.1 < 12 && 0 ≤ q.2 && q.2 < 32

/-- The origins of a package in increasing tile address: compute tiles of local index 0, as package coordinates (R17, R197). -/
def allOrigins : List (Nat × Nat) :=
  (List.range 12).flatMap fun d => (List.range 8).flatMap fun r => (List.range 4).map fun c => (16 * (d % 3) + 4 * c, 16 * (d / 3) + 2 * r)

/-- The links of the mesh that a route crosses, X first, as pairs of package coordinates (R38). -/
def routeLinks (a b : Int × Int) : List (Int × Int × Int × Int) :=
  let sx : Int := if a.1 ≤ b.1 then 1 else -1
  let sy : Int := if a.2 ≤ b.2 then 1 else -1
  ((List.range (b.1 - a.1).natAbs).map fun i => (a.1 + sx * i, a.2, a.1 + sx * (i + 1), a.2)) ++
    (List.range (b.2 - a.2).natAbs).map fun i => (b.1, a.2 + sy * i, b.1, a.2 + sy * (i + 1))

/-- The links of a declared arc's route in a mode. -/
def arcLinks (im : Image) (m : ModeDecl) (a : ArcDecl) : List (Int × Int × Int × Int) :=
  match a.src, a.dst with
  | .actor j _, .actor k _ =>
    match m.listOf j, m.listOf k with
    | some l, some r => routeLinks (im.place l.tile) (im.place r.tile)
    | _, _ => []
  | _, _ => []

/-- Does some link of some mode carry more slot-scheduled arcs of a root group than it has slot lanes (R204)? -/
def lanesShort (im : Image) (grp : Nat) : Bool :=
  im.modeList.any fun m =>
    let routes := im.arcs.filterMap fun a =>
      match a.src with
      | .actor k _ => if im.arcKind a == .slot && (im.tileOf k).bind im.rootOf == some grp then some (arcLinks im m.2 a) else none
      | _ => none
    routes.any fun r => r.any fun x => 8 < (routes.filter fun q => q.contains x).length

/-- Are there join elements enough for the joins whose members all lie in a root group, on an empty package (R198, R214)? -/
def joinsFitAt (im : Image) (i : Nat) (o : Nat × Nat) : Bool :=
  let x : Group := { dx := Int.ofNat o.1, dy := Int.ofNat o.2, quads := quadsAt im i o }
  let g : Graph := { image := im, placed := placeTiles im i o [], groups := im.groups.zipIdx.map fun e => if e.2 = i then x else {} }
  let dies := joinDies g [i]
  dies.all fun d => (dies.filter (· == d)).length ≤ 512

/-- Does some origin of an empty package hold a root group (R198)? -/
def fitsEmpty (im : Image) (i : Nat) : Bool :=
  !lanesShort im i && allOrigins.any fun o => originFits im i o.1 o.2 && joinsFitAt im i o

/-- The dies that a list touches in the nominal placement, in die coordinates (R197). -/
def nominalDie (im : Image) (t : Nat) : Int × Int := ((im.place t).1 / 16, (im.place t).2 / 16)

/-- Does a root group have more than 128 regions of a mode on some die of its nominal placement (R202)? -/
def crowdedDie (im : Image) (i : Nat) (m : ModeDecl) : Bool :=
  let mine := m.regions.filter fun r => (r.lists.head?).bind im.rootOf == some i
  let touched := mine.flatMap fun r => (r.lists.map (nominalDie im)).eraseDups
  touched.any fun d => 128 < (touched.filter (· == d)).length

/-- Is a row of the partition table refused: its address, size or buffers, or a granule that an earlier row takes, or one row too many
for its memory tile (R172, R320, R467)? -/
def badPart (im : Image) (p : PartDecl) (i : Nat) : Bool :=
  let before := (im.parts.take i).filter fun q => im.quadOf q.tile == im.quadOf p.tile && q.addr / 2 ^ 21 = p.addr / 2 ^ 21
  p.addr % 65536 != 0 || 2 ^ 23 ≤ p.addr || p.granules = 0 || 2 ^ 21 < p.addr % 2 ^ 21 + p.granules * 65536
    || (p.mode == .tileStore && p.buffers != 2 && p.buffers != 4)
    || 16 ≤ before.length || before.any fun q => meets q.addr (q.granules * 65536) p.addr (p.granules * 65536)

/-- GROUP_DECL at a declared group (R146, R196, R198, R202, R467), or at one on a rank that does not take it (R478). -/
def oneGroupFault (im : Image) (lay : Except Nat NearPlan) (refused : Nat → Bool) (g : GroupDecl) (i : Nat) : Option LoadFault :=
  let f : LoadFault := { code := 4, obj := i }
  let before := im.groups.take i
  let root := g.parent.isNone && !g.badParent
  let badParent := g.badParent || g.parent.any fun p => im.groups.length ≤ p
  let notIn := match g.parent.bind fun p => im.groups[p]? with
    | some p => g.lists.any fun t => !p.lists.contains t
    | none => false
  let noPlace := g.lists.any fun t => ((im.places[t]?).join).isNone || ((im.place t).1 + (im.place t).2) % 2 != 0
  let twice := root && g.lists.any fun t => before.any fun r => r.parent.isNone && r.lists.contains t
  (failsIf (256 ≤ i || badParent || 8 < groupDepth im 10 i || notIn || noPlace || twice || (im.rankOf i).any refused) f).orElse fun _ =>
  if !root then none
  else
    (firstFault im.modeList fun (n, m) =>
      (firstFault m.regions fun r =>
        failsIf ((r.lists.head?).bind im.rootOf == some i && (r.wdog = 0 || 1 < ((r.lists.map im.rootOf).eraseDups).length)) { f with mode := n }).orElse fun _ =>
      (failsIf (crowdedDie im i m) { f with mode := n }).orElse fun _ =>
      firstFault m.lists fun l =>
        failsIf (im.rootOf l.tile == some i && (m.regions.filter fun r => r.lists.contains l.tile).length != 1) { f with mode := n }).orElse fun _ =>
    (firstFault im.parts.zipIdx fun (p, j) => failsIf (im.rootOf p.tile == some i && badPart im p j) f).orElse fun _ =>
    (firstFault (List.range im.kernels.length) fun k =>
      failsIf (65536 < (im.kernel k).cupboard && ((im.tileOf k).bind im.rootOf).getD 0 = i) f).orElse fun _ =>
    failsIf ((match lay with
      | .error e => e = i
      | .ok _ => false) || !fitsEmpty im i) f

/-- GROUP_DECL: by group in declaration order; last a list that stands in no root group, which names no group: OBJ is 0 (log 38). -/
def groupFault (im : Image) (refused : Nat → Bool) : Option LoadFault :=
  let lay := layoutOf im
  (firstFault im.groups.zipIdx fun (g, i) => oneGroupFault im lay refused g i).orElse fun _ =>
  failsIf ((List.range im.tiles).any fun t => (im.rootOf t).isNone) { code := 4 }

/-! ## Pass 4: words of the lists (R83, R84) -/

/-- The occupancy of a vector-unit word (R273, R310). -/
def occupancy (w : Word) : Nat :=
  let op := (opOf w).toNat
  let sub := (subOf w).toNat
  if op = 0x48 && 10 ≤ sub then 16
  else if op = 0x81 then 8
  else if op = 0x85 then 16
  else if op = 0x88 then 1
  else if op = 0x90 && sub = 8 then 8
  else if op = 0x94 && sub = 0 then 16
  else 4

/-- The stamps for which a word holds its issue unit (R136, R274). -/
def holds (w : Word) : Nat := if issueUnit w == 1 then max (beatsOfWord w) (occupancy w) else beatsOfWord w

/-- The data port that a word names: out or in, and its number. -/
def portField (w : Word) : Option (Bool × Nat) :=
  let op := (opOf w).toNat
  if op = 0xB0 || op = 0xB2 then some (false, (aOf w).toNat)
  else if op = 0xB1 || op = 0xD2 || (op = 0xC3 && (subOf w).toNat = 0) then some (true, (dOf w).toNat)
  else none

/-- The control port that a list word names. -/
def cxField (w : Word) : Option Nat :=
  let op := (opOf w).toNat
  if (op = 0xC2 && (subOf w).toNat = 0) || op = 0xC4 then some (dOf w).toNat else none

/-- The order channel that a list word names. -/
def chanField (w : Word) : Option Nat :=
  let op := (opOf w).toNat
  let ofX := if 8 ≤ (xOf w).toNat then some ((xOf w).toNat % 4) else none
  let ofP := if 4 ≤ (pOf w).toNat then some ((pOf w).toNat % 4) else none
  if op = 0xB4 || (op = 0xB5 && ((subOf w).toNat = 2 || (subOf w).toNat = 3)) then ofX
  else if op = 0xC0 || op = 0xC1 || op = 0xC6 then ofP
  else if op = 0xC4 then some (aOf w).toNat
  else none

/-- A list word with the tile's number of its owner's port, where the image leaves that to the loader (R76, R248): a port that the
owner does not declare becomes 63, which no check passes. -/
def numberPorts (im : Image) (l : ListDecl) (w : WordDecl) : Word :=
  let put := fun lo v => (w.word &&& ~~~(BitVec.ofNat 64 (63 * 2 ^ lo))) ||| BitVec.ofNat 64 (v % 64 * 2 ^ lo)
  let k := im.kernel w.owner
  match w.reloc with
  | .port p =>
    if (cxField w.word).isSome then put 32 (if k.cxs.contains p then tileCxPort im l w.owner p else 63)
    else
      match portField w.word with
      | some (out, _) =>
        let known := (if out then k.outs else k.ins).any fun d => d.num = p
        put (if out then 32 else 26) (if known then tilePort im l out w.owner p else 63)
      | none => w.word
  | _ => w.word

/-- The image with the port numbers in its words. -/
def Image.numbered (im : Image) : Image :=
  { im with modes := im.modes.map fun m => m.map fun m => { m with lists := m.lists.map fun l =>
      { l with segs := l.segs.map fun s => s.map fun w => { w with word := numberPorts im l w } } } }

/-- Check 5 beyond the ranges: ports and control ports that the owner declares, and an order channel of its own (R83, R227). -/
def badName (im : Image) (l : ListDecl) (w : WordDecl) : Bool :=
  let k := im.kernel w.owner
  let inRange := fun b n p => b ≤ p && p < b + n
  (match portField w.word with
    | some (out, p) => !inRange (portBase im l out w.owner) (if out then k.outs.length else k.ins.length) p
    | none => false) ||
  (match cxField w.word with
    | some p => !inRange (cxBase im l w.owner) k.cxs.length p
    | none => false) ||
  (match chanField w.word with
    | some c => l.segs.any fun g => g.any fun v => v.owner != w.owner && chanField v.word == some c
    | none => false)

/-- Does the body of the `tloop` at entry `e` leave its segment, leave an enclosing body, or name an enclosing loop (R128)? -/
def badLoop (ws : List Word) (e : Nat) : Bool :=
  let w := ws.getD e 0
  isTloop w && (ws.length < e + 1 + tloopSpan w ||
    (List.range e).any fun o =>
      let v := ws.getD o 0
      isTloop v && e ≤ o + tloopSpan v && (o + tloopSpan v < e + tloopSpan w || tloopNum v = tloopNum w))

/-- Entries whose placements break the stamp rules of R24 and R136: `prev` are the placements before, latest first. -/
def stampFaults (ws : List Word) (len : Nat) : List Placement → List Placement → List Nat
  | [], _ => []
  | p :: l, prev =>
    let w := ws.getD p.entry 0
    let order := match prev with
      | q :: _ => p.stamp ≤ q.stamp
      | [] => false
    let late := len < p.stamp + beatsOfWord w
    let clash := prev.any fun q => issueUnit (ws.getD q.entry 0) == issueUnit w && p.stamp < q.stamp + holds (ws.getD q.entry 0)
    if order || late || clash then p.entry :: stampFaults ws len l (p :: prev) else stampFaults ws len l (p :: prev)

/-- Entries of segment `seg` that stand at a stamp for which the vector unit is still held from an earlier phase: the range runs on
across phase ends and across the wrap (R274). A word holds at most 16 stamps, and each phase takes at least one. -/
def wrapFaults (l : ListDecl) (phases : List Nat) (seg : Nat) : List Nat :=
  let n := phases.length
  let held := (List.range 16).flatMap fun d =>
    let back := (seg + 16 * n - d - 1) % n
    let gone := ((List.range (d + 1)).map fun e => phases.getD ((seg + 16 * n - e - 1) % n) 0).sum
    let before := l.words back
    ((placements before).filter fun p => issueUnit (before.getD p.entry 0) == 1).map fun p => p.stamp + holds (before.getD p.entry 0) - gone
  let until_ := held.foldl max 0
  let ws := l.words seg
  ((placements ws).filter fun p => issueUnit (ws.getD p.entry 0) == 1 && p.stamp < until_).map Placement.entry

/-- LIST_ILLEGAL in one list of a mode. -/
noncomputable def listFault (im : Image) (n : Nat) (m : ModeDecl) (l : ListDecl) (obj : Nat) : Option LoadFault :=
  let phases := m.phases
  firstFault (List.range (max l.segs.length phases.length)) fun seg =>
    let ws := l.words seg
    let len := phases.getD seg 0
    let bad := stampFaults ws len (placements ws) [] ++ wrapFaults l phases seg
    firstFault (l.segs.getD seg []).zipIdx fun (w, e) =>
      let f : LoadFault := { code := 1, seg := seg, mode := n, entry := e, obj := obj }
      match decode .list w.word with
      | .error d => if d.check ≤ 5 || !badName im l w then some { f with check := d.check } else some { f with check := 5 }
      | .ok _ =>
        if badName im l w then some { f with check := 5 }
        else failsIf (badLoop ws e || bad.contains e) { f with check := 9 }

/-- LIST_ILLEGAL: by mode, list, segment and entry (R247). OBJ counts the lists of a mode from 0: R246 gives "declaration index of the
failing list" and MODE beside it, and does not say whether the count runs over the whole image (DESIGN CHOICE, log 40). -/
noncomputable def wordFault (im : Image) : Option LoadFault :=
  firstFault im.modeList fun (n, m) => firstFault m.lists.zipIdx fun (l, i) => listFault im n m l i

/-! ## Pass 5: rates (R143, R144, R194) -/

/-- The rate vector declared for a port of a kernel or a memory actor. -/
def rateOf (m : ModeDecl) (mem : Bool) (k : Nat) (out : Bool) (p : Nat) : List RateDecl :=
  m.rates.filter fun r => r.mem = mem && r.actor = k && r.out = out && r.port = p && !r.ctrl

/-- The vectors declared for an arc's end in a mode. -/
def endRates (m : ModeDecl) (e : End) (out : Bool) : List (List Nat) :=
  match e with
  | .actor k p => (rateOf m false k out p).map RateDecl.vals
  | .mem k p => (rateOf m true k out p).map RateDecl.vals
  | _ => []
/-- The vector of an arc's end in a mode. -/
def endRate (m : ModeDecl) (e : End) (out : Bool) : Option (List Nat) := (endRates m e out).head?

/-- Does the vector of a memory actor's port differ from the one at the other end of an arc (R143, R194): a value differs, a port has
two lines, or one has none where the other end has its own? In a mode in which the actor at the other end does not stand, that port
has no vector to compare with. -/
def ratesDiffer (m : ModeDecl) (a : ArcDecl) : Bool :=
  let stands := fun e : End => match e with
    | .actor k _ => (m.listOf k).isSome
    | _ => true
  stands a.src && stands a.dst && match endRates m a.src true, endRates m a.dst false with
  | [], [] => false
  | [x], [y] => x != y
  | _, _ => true

/-- RATE_DECL at one port of a kernel. -/
def portRateFault (im : Image) (n : Nat) (m : ModeDecl) (l : ListDecl) (k : Nat) (out : Bool) (p : Nat) : Option LoadFault :=
  let f : LoadFault := { code := 2, mode := n, obj := k, port := p }
  match rateOf m false k out p with
  | [r] =>
    if r.vals.length != m.phases.length || r.vals.any (255 < ·) then some f
    else
      firstFault (List.range m.phases.length) fun seg =>
        let moved := (beatStamps (if out then pushPort else popPort) (tilePort im l out k p) (l.words seg)).length
        failsIf (moved != r.vals.getD seg 0) { f with seg := seg }
  | _ => some f

/-- RATE_DECL at a memory actor: OBJ is its own declaration index among the memory actors (R246 says "actor": DESIGN CHOICE, log
43). -/
def memRateFault (im : Image) (n : Nat) (m : ModeDecl) (d : MADecl) (k : Nat) : Option LoadFault :=
  let f : LoadFault := { code := 2, mode := n, obj := k }
  let total := fun out p => ((rateOf m true k out p).map fun r => r.vals.sum).sum
  let rows := 16 * (d.rowbytes / 64)
  (firstFault (m.rates.filter fun r => r.ctrl && r.mem && r.actor = k) fun r => some { f with port := r.port }).orElse fun _ =>
  (firstFault im.arcs fun a =>
    match a.src, a.dst with
    | .mem _ _, .none => none
    | .mem j p, .mem i q => (failsIf (j = k && ratesDiffer m a) { f with port := p }).orElse fun _ => failsIf (i = k && ratesDiffer m a) { f with port := q }
    | .mem j p, _ => failsIf (j = k && ratesDiffer m a) { f with port := p }
    | .none, .mem _ _ => none
    | _, .mem j p => failsIf (j = k && ratesDiffer m a) { f with port := p }
    | _, _ => none).orElse fun _ =>
  match d.kind with
  | .gather => failsIf (total true 0 != rows * total false 0) f
  | .scatterAdd => failsIf (total false 1 != rows * total false 0) { f with port := 1 }
  | _ => none

/-- RATE_DECL at a kernel in a mode. -/
def kernelRateFault (im : Image) (n : Nat) (m : ModeDecl) (k : Nat) : Option LoadFault :=
  let d := im.kernel k
  (firstFault (m.rates.filter fun r => r.ctrl && !r.mem && r.actor = k) fun r => some { code := 2, mode := n, obj := k, port := r.port }).orElse fun _ =>
  match m.listOf k with
  | none => none
  | some l =>
    (firstFault d.ins fun p => portRateFault im n m l k false p.num).orElse fun _ =>
    firstFault d.outs fun p => portRateFault im n m l k true p.num

/-- RATE_DECL (R143, R144, R194): by mode, then at the actor or memory actor that stands first in the image. -/
def rateFault (im : Image) : Option LoadFault :=
  firstFault im.modeList fun (n, m) => im.firstOf (
    ((List.range im.kernels.length).filterMap fun k => (kernelRateFault im n m k).map fun f => (.kernel k, f)) ++
    im.mems.zipIdx.filterMap fun (d, k) => (memRateFault im n m d k).map fun f => (.mem k, f))

/-! ## Pass 6: arcs, joins, memory actors and copy templates (R195, R212) -/

/-- The nominal position of a logical tile in the package, for route times: the translation keeps them (R198). -/
def nominalRoute (im : Image) (t u : Nat) : Nat :=
  let a := im.place t
  let b := im.place u
  let span := fun x y : Int => (x - y).natAbs
  let cross := span (a.1 / 16) (b.1 / 16) + span (a.2 / 16) (b.2 / 16)
  4 + 2 * (span a.1 b.1 + span a.2 b.2 - cross) + 24 * cross

/-- The cycles of a period in which the words of a list move tokens on a port by `f`. -/
def periodStamps (m : ModeDecl) (l : ListDecl) (f : Word → Option Nat) (p : Nat) : List Nat :=
  (List.range m.phases.length).flatMap fun seg => (beatStamps f p (l.words seg)).map ((m.phases.take seg).sum + ·)

/-- The cycle, over all periods, of move `i` of a period's moves. -/
def moveAt (sched : List Nat) (period i : Nat) : Nat := i / sched.length * period + sched.getD (i % sched.length) 0

/-- The cycles of a segment in which the entries of actor `j` put a PUNCT marker on the tile's output port `p`: its `punct` of the
port, and its `punctall` (R222, R224, R225). -/
def markStamps (l : ListDecl) (j p seg : Nat) : List Nat :=
  let ws := l.segs.getD seg []
  (placements (ws.map WordDecl.word)).flatMap fun x =>
    match ws[x.entry]? with
    | some w =>
      if w.owner = j && (opOf w.word).toNat == 0xC3 && ((subOf w.word).toNat == 1 || (dOf w.word).toNat == p) then
        (List.range (beatsOfWord w.word)).map (x.stamp + ·)
      else []
    | none => []

/-- The same over a period. -/
def periodMarks (m : ModeDecl) (l : ListDecl) (j p : Nat) : List Nat :=
  (List.range m.phases.length).flatMap fun seg => (markStamps l j p seg).map ((m.phases.take seg).sum + ·)

/-- What the staging of a slot-scheduled arc holds (R38, R152, R158): pairs of the cycle from which and the cycle up to which it holds a
token or a PUNCT marker, over so many periods that the last ones show the steady state; and whether a consuming beat stands before the
arrival of its token. A marker goes with the `pop` or `popd` beat that takes the token behind it, or at the first period end that
finds it at the head. Where a period brings more tokens than it takes, or markers behind a token that nothing takes, no staging holds
them. -/
def slotSpans (im : Image) (m : ModeDecl) (a : ArcDecl) : List (Nat × Nat) × Bool :=
  match a.src, a.dst with
  | .actor j p, .actor k q =>
    match m.listOf j, m.listOf k with
    | some l, some r =>
      let period := m.phases.sum
      let out := tilePort im l true j p
      let pushes := periodStamps m l pushPort out
      let pops := periodStamps m r popPort (tilePort im r false k q)
      let route := nominalRoute im l.tile r.tile
      let n := 3 + route / max 1 period + (a.init + pushes.length) / max 1 pushes.length
      let take := fun i => if pops.isEmpty then n * period else moveAt pops period i
      let first := (List.range a.init).map fun i => (0, take i)
      let data := (List.range (n * pushes.length)).map fun i => (moveAt pushes period i + route, take (i + a.init))
      let puncts := (List.range n).flatMap fun x => (periodMarks m l j out).map fun t =>
        let ahead := a.init + x * pushes.length + (pushes.filter (· < t)).length
        let here := x * period + t + route
        let head := max here (if ahead = 0 then 0 else take (ahead - 1))
        let stop := head / max 1 period * period + period - 1
        (here, if pops.isEmpty then stop else min stop (take ahead))
      let stuck := pops.isEmpty && 0 < a.init && !(periodMarks m l j out).isEmpty
      let flood := if pops.length < pushes.length || stuck then List.replicate 65 (0, 0) else []
      (flood ++ first ++ data ++ puncts, pushes.length < pops.length || data.any fun e => e.2 < e.1)
    | _, _ => ([], false)
  | _, _ => ([], false)

/-- Do two tokens of a slot-scheduled arc depart in one cycle, a `push` beat or `cret` and a marker (R39, R195)? They take one slot of the
first mesh link of the route, where it has one. -/
def slotClash (im : Image) (m : ModeDecl) (a : ArcDecl) : Bool :=
  !(arcLinks im m a).isEmpty && match a.src with
  | .actor j p => match m.listOf j with
    | some l =>
      let out := tilePort im l true j p
      let all := periodStamps m l pushPort out ++ periodMarks m l j out
      all.eraseDups.length != all.length
    | none => false
  | _ => false

/-- The largest number of spans open at an arrival. -/
def mostHeld (spans : List (Nat × Nat)) : Nat :=
  (spans.map fun e => (spans.filter fun u => u.1 ≤ e.1 && e.1 ≤ u.2).length).foldl max 0

/-- Tokens and PUNCT markers that one phase puts on an arc, at most, or tokens that one takes from it (R195, R222). -/
def phaseMoves (im : Image) (m : ModeDecl) (a : ArcDecl) : Nat :=
  let produced := match a.src with
    | .actor j p => match m.listOf j with
      | some l => (List.range m.phases.length).map fun seg =>
          let out := tilePort im l true j p
          (beatStamps pushPort out (l.words seg)).length + (markStamps l j out seg).length
      | none => []
    | _ => (endRate m a.src true).getD []
  let consumed := (endRate m a.dst false).getD []
  max (produced.foldl max 0) (consumed.foldl max 0)

/-- The declaration of a data port. -/
def portDecl (im : Image) (k : Nat) (out : Bool) (p : Nat) : Option PortDecl :=
  (if out then (im.kernel k).outs else (im.kernel k).ins).find? fun d => d.num = p

/-- Is a memory actor's declaration refused (R94, R195)? -/
def badMem (d : MADecl) : Bool :=
  let stream := d.kind == .source || d.kind == .sink
  !d.keysOk || d.base % 64 != 0 || d.lead = 0 || 4095 < d.lead || 7 < d.fmt
    || (stream && (d.counts.isEmpty || 4 < d.counts.length || d.strides.isEmpty || 4 < d.strides.length
        || d.counts.any (· == 0) || d.strides.any (fun x => x % 64 != 0)))
    || (!stream && (d.rows = 0 || d.rowbytes < 64 || 4096 < d.rowbytes || d.rowbytes % 64 != 0))
    || (d.kind == .scatterAdd && 2 < d.op)

/-- The declared port at an end of an arc. -/
def End.port : End → Nat
  | .actor _ p => p
  | .mem _ p => p
  | .actorCx _ p => p
  | .seqCx _ p => p
  | _ => 0

/-- Is an end a port: two arcs may not have it, nor a join and an arc (R164, R211)? -/
def End.isPort : End → Bool
  | .none => false
  | .template _ => false
  | .dispatcher => false
  | _ => true

/-- Is the detour of an input port refused (R154): one on a slot-scheduled port, or to an arc that lacks `elastic` or has a producer? -/
def badDetour (im : Image) (k p : Nat) (slot : Bool) : Bool :=
  ((portDecl im k false p).bind PortDecl.detour).any fun d =>
    slot || (match im.arcs[d]? with
      | some b => !b.elastic || b.src != .none
      | none => true)

/-- Has a declaration that stands before arc `i` the port that is its producer (`out`) or consumer end (R164, R211, R247)? An input and an
output port of one number are two ports; a control port may stand at either end. -/
def hadBefore (im : Image) (i : Nat) (out : Bool) (e : End) : Bool :=
  e.isPort && ((im.arcs.take i).any (fun b => match e with
      | .actorCx _ _ => b.src == e || b.dst == e
      | .seqCx _ _ => b.src == e || b.dst == e
      | _ => (if out then b.src else b.dst) == e) ||
    im.joins.zipIdx.any fun j => j.1.contains e && im.rank (.join j.2) < im.rank (.arc i))

/-- ARC_DECL at a declared arc (R38, R39, R93, R154, R159, R186, R195, R212, R222). PORT is the declared port at the end that the check is
about, and MODE the mode that shows the failure, 0 where no mode does. A detour that R154 refuses is reported at the arc that enters the
detouring port, also where the detour arc stands later: the declaration at fault is that of the port, which names the detour, and R195 and
R247 do not say which arc "the arc" is (DESIGN CHOICE, log 75). -/
def oneArcFault (im : Image) (used : List Nat) (a : ArcDecl) (i : Nat) : Option LoadFault :=
  let f : LoadFault := { code := 3, obj := i }
  let atSrc := { f with port := a.src.port }
  let atDst := { f with port := a.dst.port }
  let kind := im.arcKind a
  let tagBad := match a.tag with
    | some t => t = 4095 || used.contains t || (im.arcs.take i).any fun b => b.tag == some t
    | none => false
  let detourBad := match a.dst with
    | .actor k p => badDetour im k p (kind == .slot)
    | _ => false
  let ctlBad := kind == .control && (match a.dst with
    | .seqCx _ _ => false
    | _ => true)
  (failsIf tagBad f).orElse fun _ =>
  (failsIf (hadBefore im i true a.src) atSrc).orElse fun _ =>
  (failsIf (hadBefore im i false a.dst || ctlBad || detourBad) atDst).orElse fun _ =>
  (failsIf (kind == .ring && (a.cap = 0 || 4096 < a.cap || a.cap < a.init)) atDst).orElse fun _ =>
  firstFault im.modeList fun (n, m) =>
    (failsIf (kind == .slot && slotClash im m a) { atSrc with mode := n }).orElse fun _ =>
    failsIf ((kind == .slot && (slotSpans im m a).2) || (kind == .ring && a.cap < phaseMoves im m a)) { atDst with mode := n }

/-- The arc that leaves a kernel's port. -/
def outArc (im : Image) (k p : Nat) : Option Nat := im.arcs.findIdx? fun a => a.src == .actor k p

/-- Does the consumer of a declared arc accept FMT 000 (R170, R190, R191, R193)? -/
def acceptsZero (im : Image) (a : ArcDecl) : Bool :=
  match a.dst with
  | .actor k p => (portDecl im k false p).any fun d => d.tags.contains 0
  | .mem m p => (im.mems[m]?).any fun d => match d.kind with
    | .sink => d.fmt = 0
    | .gather => true
    | .scatterAdd => p = 0 || d.op = 0
    | .source => false
  | _ => true

/-- The arc that a list word names by its tag, where it is not of the kind that `spawn` or `ckick` needs (R261), with the port at fault: a
spawn arc has no producer, is no detour (R250), and its consumer accepts FMT 000. -/
def badTagWord (im : Image) (w : WordDecl) : Option (Nat × Nat) :=
  let op := (opOf w.word).toNat
  match w.reloc with
  | .tag i =>
    match im.arcs[i]? with
    | some a =>
      let detour := im.kernels.any fun k => k.ins.any fun d => d.detour == some i
      let spawns := a.src == .none && !a.queue && !a.control && !detour
      if op = 0xD1 && spawns && !acceptsZero im a then some (i, a.dst.port)
      else if (op = 0xD1 && !spawns) || (op = 0xD3 && !a.queue) then some (i, 0)
      else none
    | none => some (i, 0)
  | _ => none

/-- ARC_DECL at a list word: a format its port does not list, a `cret` on a port that lists no FMT 000 at either end, a `csig` or `ordj`
at a consumer end, or a tag of the wrong kind (R170, R195, R212, R261). -/
def arcWordFault (im : Image) (l : ListDecl) (w : WordDecl) : Option LoadFault :=
  let op := (opOf w.word).toNat
  let k := w.owner
  let port := (im.kernel k).outs.find? fun d => tilePort im l true k d.num = (dOf w.word).toNat
  let arc := (port.bind fun d => outArc im k d.num).getD 0
  let f : LoadFault := { code := 3, obj := arc, port := (port.map PortDecl.num).getD 0 }
  let peer := (im.arcs[arc]?).any fun a => !acceptsZero im a
  if op = 0xB1 && (port.any fun d => !d.tags.contains (ftOf w.word).toNat) then some f
  else if op = 0xD2 && (peer || port.any fun d => !d.tags.contains 0) then some f
  else
    match cxField w.word with
    | some p =>
      ((im.kernel k).cxs.find? fun c => tileCxPort im l k c = p).bind fun c =>
        (im.arcs.findIdx? fun a => a.dst == .actorCx k c).map fun i => { code := 3, obj := i, port := c }
    | none => (badTagWord im w).map fun i => { code := 3, obj := i.1, port := i.2 }

/-- Is a copy endpoint refused (R195): its alignment, its span in the quad, or a FIFO or presence partition of the quad that it reaches? -/
def badEndpoint (l : Layout) (quad : Option (Nat × Int × Int)) (e words : Nat) : Bool :=
  e % 8 != 0 || (isNearEnd e && (bitsOf e 23 40 != 0 || !nearSpanOk e 0 words || l.any fun p =>
    (p.2.2.2.mode == .fifo || p.2.2.2.mode == .presence) && some (p.2.2.2.grp, p.1, p.2.1) == quad &&
      meets (p.2.2.1 * 2 ^ 21 + p.2.2.2.base) (p.2.2.2.granules * 65536) (e % 2 ^ 63) (8 * words)))

/-- ARC_DECL at a copy template, reported as its queue (R185, R186, R195): an endpoint, whose place is its near address with the
cupboard that it names, or the tags or the detour of the bound port. -/
def copyFault (im : Image) (plan : NearPlan) (c : CopyDecl) : Option LoadFault :=
  let quad := (im.tileOf c.actor).map im.quadOf
  let place := fun (e : Nat) (st : Option Nat) => e + match st with
    | some k => ((plan.2.1.find? fun x => x.1 = k).map Prod.snd).getD 0
    | none => 0
  let badEnd := fun e => badEndpoint plan.1 quad e c.words
  let tagsBad := (portDecl im c.actor false c.port).any fun d => !d.tags.contains 0
  let had := im.arcs.any fun a => a.dst == .actor c.actor c.port
  failsIf (badEnd (place c.src c.srcState) || badEnd (place c.dst c.dstState) || tagsBad || had || badDetour im c.actor c.port false || c.words = 0 || 16777216 < c.words)
    { code := 3, obj := c.queue, port := c.port }

/-- Members of a join refused: their number, their packages, or a port that something declared before has (R211, R212, R247); the answer is
the port at fault, 0 where none is. -/
def badJoin (im : Image) (j : List End) (i : Nat) : Option Nat :=
  let packages := (j.map fun e => match e with
    | .actorCx k _ => im.kernelRank k
    | .seqCx q _ => ((im.seqs[q]?).map fun (d : SeqDecl) => rootGroup im 8 d.grp).bind im.rankOf
    | _ => none).eraseDups
  let arcHas := fun e => im.arcs.zipIdx.any fun a => (a.1.src == e || a.1.dst == e) && !(im.rank (.join i) < im.rank (.arc a.2))
  if j.length < 2 || 32 < j.length || 1 < packages.length then some 0
  else (j.find? fun e => (im.joins.take i).any (·.contains e) || (j.filter (· == e)).length != 1 || arcHas e).map End.port

/-- Is a memory actor's `fmt` not among the tags of its peer port (R195): of the port that a source or gather feeds, or of the one that
feeds tokens or rows to a sink or scatter-add? The answer is that port. -/
def badFormat (im : Image) (d : MADecl) (k : Nat) : Option Nat :=
  im.arcs.findSome? fun a => match a.src, a.dst with
    | .mem m _, .actor j p => if m = k && !((portDecl im j false p).any fun x => x.tags.contains d.fmt) then some p else none
    | .actor j p, .mem m q =>
      let takes := d.kind == .sink || (d.kind == .scatterAdd && q = 1)
      if m = k && takes && !((portDecl im j true p).any fun x => x.tags.contains d.fmt) then some p else none
    | _, _ => none

/-- The faults of pass 6 that stand at a memory actor, a list word, a tile's staging or a copy template, and name an arc. A memory actor
names the first declared arc at it (R195); a tile whose 64 staging entries are exceeded (R158) names the first declared arc into one of
its list's actors: the spec says "the arc", and not which of the arcs that share the staging (DESIGN CHOICE, log 42). A memory actor
that no arc names is reported with OBJ 0 (log 38). -/
def arcFaultsElse (im : Image) : List (Decl × LoadFault) :=
  let plan : NearPlan := match layoutOf im with
    | .ok p => p
    | .error _ => ([], [], [])
  let mems := im.mems.zipIdx.filterMap fun (d, k) =>
    let at_ := fun e : End => match e with
      | .mem j _ => j = k
      | _ => false
    let first : LoadFault := match im.arcs.zipIdx.find? fun e => at_ e.1.src || at_ e.1.dst with
      | some e => { code := 3, obj := e.2, port := if at_ e.1.src then e.1.src.port else e.1.dst.port }
      | none => { code := 3 }
    if badMem d then some (Decl.mem k, first) else (badFormat im d k).map fun p => (Decl.mem k, { first with port := p })
  let lists := im.modeList.flatMap fun (n, m) => m.lists.zipIdx.flatMap fun (l, li) =>
    let into := fun a : ArcDecl => match a.dst with
      | .actor k _ => l.actors.contains k
      | _ => false
    let held := ((im.arcs.filter fun a => im.arcKind a == .slot && into a).map fun a => mostHeld (slotSpans im m a).1).sum
    let first := (im.arcs.zipIdx.find? fun e => into e.1).map fun e => (Decl.arc e.2, ({ code := 3, mode := n, obj := e.2, port := e.1.dst.port } : LoadFault))
    (if 64 < held then first.toList else []) ++
      l.segs.flatMap fun s => s.filterMap fun w => (arcWordFault im l w).map fun f => (Decl.list n li, { f with mode := n })
  mems ++ lists ++ im.copies.zipIdx.filterMap fun (c, i) => (copyFault im plan c).map fun f => (Decl.copy i, f)

/-- ARC_DECL, at the declaration that stands first in the image: an arc, memory actor, list, copy template or join (R247). -/
def arcFault (im : Image) (used : List Nat) : Option LoadFault :=
  im.firstOf ((im.arcs.zipIdx.filterMap fun (a, i) => (oneArcFault im used a i).map fun f => (Decl.arc i, f)) ++ arcFaultsElse im ++
    im.joins.zipIdx.filterMap fun (j, i) => (badJoin im j i).map fun p => (Decl.join i, { code := 3, obj := i, port := p }))

/-- The first failure of an image, in the passes of R247; `used` are the arc tags taken in its context, `refused` the ranks that do not take
their groups (R478). -/
noncomputable def loadFault (im : Image) (used : List Nat) (refused : Nat → Bool) : Option LoadFault :=
  let im := im.numbered
  (failsIf (!im.parses || im.modeList.any fun m => actorSplit m.2) { code := 6 }).orElse fun _ =>
  (limitFault im used).orElse fun _ =>
  (groupFault im refused).orElse fun _ =>
  (wordFault im).orElse fun _ =>
  (rateFault im).orElse fun _ =>
  arcFault im used

end Sys2Proof.Machine
end

