-- ==== Sys2Proof/Machine/Graph.lean ====
section
/-! DEFINITION. Graphs: handles and life cycle (R244 to R248), placement (R197 to R199, R265, R267), staging, mode changes and
start pulses (R249 to R253), drains (R245), spawn and the colour pool (R254, R255), and the graph-control instructions (R257 to
R261). -/

namespace Sys2Proof.Machine

/-! ## Handles (R244) -/

/-- The use count of a graph slot. -/
def useCount (x : Ctx) (g : Nat) : Nat := mget 1 x.uses g
/-- The slot that a handle names, if it is not stale. -/
def slotOf (s : State) (c : Nat) (h : Word) : Option Nat :=
  let g := h.toNat % 256
  if h.toNat < 65536 && h.toNat / 256 = useCount (s.ctx c) g && (s.graph? c g).isSome then some g else none
/-- A graph changed. -/
def updGraph (c g : Nat) (f : Graph → Graph) (s : State) : State :=
  match s.graph? c g with
  | none => s
  | some x => s.setGraph c g (f x)
/-- A graph, or an empty one. -/
def graphAt (s : State) (c g : Nat) : Graph := (s.graph? c g).getD {}
/-- Key of a list of a graph: mode and logical tile. -/
def listKey (m t : Nat) : Nat := m * 2048 + t
/-- The state of a list. -/
def listState (g : Graph) (m t : Nat) : ListState := mget .loaded g.lists (listKey m t)
/-- A list's state changed. -/
def setListState (c g m t : Nat) (st : ListState) (s : State) : State :=
  updGraph c g (fun x => { x with lists := mset x.lists (listKey m t) st }) s
/-- The declaration of the mode in force. -/
def Graph.modeNow (g : Graph) : ModeDecl := (g.image.mode? g.mode).getD { phases := [], rates := [], regions := [], lists := [] }

/-- The detour arcs of an image. -/
def Image.detours (im : Image) : List Nat := im.kernels.flatMap fun k => k.ins.filterMap PortDecl.detour

/-! ## Positions of a placed graph (R197, R198) -/

/-- Where an end of a declared arc stands in a mode. -/
def placeEnd (g : Graph) (m : ModeDecl) : End → PlacedEnd
  | .none => .none
  | .template c => .copy c
  | .dispatcher => .dispatcher
  | .mem k p => .mem k p
  | .seqCx q p => .seq (seqOfBlock g q) p
  | .actor k p =>
    match g.image.kernelRank k, m.listOf k with
    | some r, _ => .remote r
    | none, some l => .tile (g.placed.getD l.tile 0) p
    | none, none => .none
  | .actorCx k p =>
    match g.image.kernelRank k, m.listOf k with
    | some r, _ => .remote r
    | none, some l => .tileCx (g.placed.getD l.tile 0) (tileCxPort g.image l k p)
    | none, none => .none
/-- The same with a data port as the tile numbers it (R76). -/
def placeData (g : Graph) (m : ModeDecl) (out : Bool) (e : End) : PlacedEnd :=
  match placeEnd g m e, e with
  | .tile t _, .actor k p =>
    match m.listOf k with
    | some l => .tile t (tilePort g.image l out k p)
    | none => .none
  | x, _ => x
/-- Does an end stand in a mode: its list is one of the mode's, or it is no list (R156)? -/
def standsIn (g : Graph) (m : ModeDecl) : End → Bool
  | .actor k _ => (m.listOf k).isSome || (g.image.kernelRank k).isSome
  | .actorCx k _ => (m.listOf k).isSome || (g.image.kernelRank k).isSome
  | _ => true
/-- Does a logical tile stand on this package (R449)? -/
def Graph.isHere (g : Graph) (t : Nat) : Bool := ((g.image.rootOf t).bind g.image.rankOf).isNone
/-- The near address of a kernel's cupboard as a place in a memory tile, where it stands on this package. -/
def cupboardPlace (g : Graph) (k : Nat) : Option (Nat × Nat) :=
  (g.image.tileOf k).bind fun t => if !g.isHere t then none else some <| nearPlace (quadOfPos (g.placed.getD t 0)) (g.cupboards.getD k 0)

/-! ## Power (R266, R267) -/

/-- The power in watts of `e` microjoules a period of `n` cycles of 1.25 ns. -/
def powerOf (e : Rat) (n : Nat) : Rat := if n = 0 then 0 else 800 * e / (n : Nat)
/-- The energy that counts: the larger of the declared and the mean of the last 64 measured periods (R266). -/
def countedEnergy (declared : Nat) (measured : List Nat) : Rat :=
  max (declared : Rat) (if measured.isEmpty then 0 else (measured.sum : Nat) / (measured.length : Nat))
/-- The energy that counts for a resident region. -/
def Region.counted (r : Region) : Rat := countedEnergy r.energy r.measured
/-- The share of a die in something spread over tiles. -/
def dieShare (tiles : List Nat) (d : Nat) : Rat :=
  if tiles.isEmpty then 0 else ((tiles.filter fun t => dieOfPos t = d).length : Nat) / (tiles.length : Nat)
/-- The power of a resident region, its stretch included. -/
def Region.power (r : Region) : Rat := powerOf r.counted (periodOf r.phases + r.stretch * r.phases.length)
/-- The resident power on a die, of the graphs for which `f` holds, given their keys. -/
def residentPower (s : State) (d : Nat) (f : Nat → Graph → Bool) : Rat :=
  (s.regions.map fun e =>
    match mfind s.graphs (e.1 / 2048) with
    | some g => if f (e.1 / 2048) g then e.2.power * dieShare e.2.tiles d else 0
    | none => 0).sum
/-- Key of the measured energy of a region of a mode. -/
def energyKey (m i : Nat) : Nat := m * 2048 + i
/-- The power on a die of the regions of a mode of a graph, unstretched, with tiles placed. -/
def modePower (g : Graph) (m : Nat) (placed : List Nat) (d : Nat) (f : Nat → Bool) : Rat :=
  match g.image.mode? m with
  | none => 0
  | some x => (x.regions.zipIdx.map fun r =>
      if r.1.lists.all f then
        powerOf (countedEnergy r.1.energy (mget [] g.measured (energyKey m r.2))) (periodOf x.phases) * dieShare (r.1.lists.map fun t => placed.getD t 0) d
      else 0).sum
/-- Do both limits of R267 hold on a die with `add` watts beside the graphs of some keys? -/
def powerFits (s : State) (d : Nat) (lat : Bool) (count : Nat → Bool) (add : Rat) : Bool :=
  let a : Rat := ((s.die d).allow : Nat)
  decide (residentPower s d (fun k _ => count k) + add ≤ a) &&
    (lat || decide (residentPower s d (fun k g => count k && !g.lat) + add ≤ 7 * a / 8))

/-! ## Slot lanes (R204) -/

/-- The link by which a token enters a router, as the position of the router and the direction it came from (R205). -/
def linkKey (l : Int × Int × Int × Int) : Nat :=
  let dir := if l.1 < l.2.2.1 then 1 else if l.2.2.1 < l.1 then 0 else if l.2.1 < l.2.2.2 then 3 else 2
  posOfPkg l.2.2.1 l.2.2.2 * 5 + dir
/-- The router from which a link of a key comes. -/
def linkFrom (lk : Nat) : Nat :=
  let x := Int.ofNat (pkgX (lk / 5))
  let y := Int.ofNat (pkgY (lk / 5))
  match lk % 5 with
  | 0 => posOfPkg (x + 1) y
  | 1 => posOfPkg (x - 1) y
  | 2 => posOfPkg x (y + 1)
  | _ => posOfPkg x (y - 1)
/-- Does a link run inside some quads: from one of their routers to another (R209)? -/
def linkInside (quads : List Nat) (lk : Nat) : Bool := quads.contains (quadOfPos (lk / 5)) && quads.contains (quadOfPos (linkFrom lk))
/-- Is a lane of a link taken: by an arc of another graph in one of its modes (log 53), or by a systolic array (R209)? -/
def laneTaken (s : State) (c g lk lane : Nat) : Bool :=
  (s.graphs.any fun e => e.1 != State.graphKey c g && e.2.lanePlan.any fun p => p.2.2.contains (lk, lane)) ||
    (6 ≤ lane && s.graphs.any fun e => e.2.groups.any fun x => x.systolic && linkInside x.quads lk)
/-- The lanes of one arc over a route: on every link the lowest that is free, given the lanes that arcs of its mode have. -/
def giveRoute (s : State) (c g : Nat) (used : List (Nat × Nat)) (links : List (Int × Int × Int × Int)) : Option (List (Nat × Nat)) :=
  links.foldl (fun acc l => acc.bind fun got =>
    ((List.range 8).find? fun n => !laneTaken s c g (linkKey l) n && !used.contains (linkKey l, n)).map fun n => got ++ [(linkKey l, n)]) (some [])
/-- Lanes for the slot-scheduled arcs of a root group in every mode, in declaration order, beside those that `plan` holds (R204). -/
def giveLanes (s : State) (c g : Nat) (im : Image) (grp : Nat) (placed : List Nat) (plan : List (Nat × Nat × List (Nat × Nat))) :
    Option (List (Nat × Nat × List (Nat × Nat))) :=
  let at_ : Nat → Int × Int := fun i => (Int.ofNat (pkgX (placed.getD i 0)), Int.ofNat (pkgY (placed.getD i 0)))
  im.modeList.foldl (fun acc m => im.arcs.zipIdx.foldl (fun acc e =>
    acc.bind fun plan =>
      let ends := match e.1.src, e.1.dst with
        | .actor j _, .actor k _ => (m.2.listOf j).bind fun (t : ListDecl) => (m.2.listOf k).map fun (u : ListDecl) => (t.tile, u.tile)
        | _, _ => none
      match im.arcKind e.1, ends with
      | .slot, some (t, u) =>
        if im.rootOf t != some grp then some plan
        else
          let used := (plan.filter fun (x : Nat × Nat × List (Nat × Nat)) => x.2.1 = m.1).flatMap fun x => x.2.2
          (giveRoute s c g used (routeLinks (at_ t) (at_ u))).map fun ls => plan ++ [(e.2, m.1, ls)]
      | _, _ => some plan) acc) (some plan)
/-- The lanes of an arc of a graph in a mode. -/
def Graph.lanesOf (g : Graph) (decl m : Nat) : List (Nat × Nat) := ((g.lanePlan.find? fun p => p.1 = decl && p.2.1 = m).map fun p => p.2.2).getD []
/-- Are lanes 6 and 7 of the links inside a systolic group's quads free of other graphs' arcs (R210)? -/
def arrayFree (s : State) (c g : Nat) (x : Group) (quads : List Nat) : Bool :=
  !x.systolic || s.graphs.all fun e => e.1 = State.graphKey c g || e.2.lanePlan.all fun p => p.2.2.all fun l => l.2 < 6 || !linkInside quads l.1

/-! ## Engines (R15, R188) -/

/-- The logical tile of the list with which a memory actor works: at the other end of its arc of the lowest tag (log 44). -/
def memPeer (g : Graph) (m : Nat) : Option Nat :=
  let peers := g.image.arcs.zipIdx.filterMap fun e => match e.1.src, e.1.dst with
    | .mem i _, .actor k _ => if i = m then (g.image.tileOf k).map fun t => (g.tags.getD e.2 0, t) else none
    | .actor k _, .mem i _ => if i = m then (g.image.tileOf k).map fun t => (g.tags.getD e.2 0, t) else none
    | _, _ => none
  (peers.foldl (fun (b : Option (Nat × Nat)) p => match b with
    | some q => if p.1 < q.1 then some p else b
    | none => some p) none).map Prod.snd
/-- The memory-actor engines that are held. -/
def enginesHeld (s : State) : List Nat := s.graphs.flatMap fun e => e.2.mems.filterMap MemActor.engine
/-- An engine for each memory actor of a graph whose peer list stands in a root group: the lowest free one on its die (R188). None
where one finds none. -/
def giveEngines (s : State) (g : Graph) (grp : Nat) (placed : List Nat) (got : List (Nat × Nat)) : Option (List (Nat × Nat)) :=
  (List.range g.image.mems.length).foldl (fun acc m => acc.bind fun got =>
    match memPeer g m with
    | none => some got
    | some t =>
      if g.image.rootOf t != some grp then some got
      else
        let d := dieOfPos (placed.getD t 0)
        ((List.range 24).find? fun n => !(enginesHeld s).contains (d * 24 + n) && !(got.map Prod.snd).contains (d * 24 + n)).map fun n =>
          got ++ [(m, d * 24 + n)]) (some got)
/-- A copy engine of a die for a template: the one that the fewest templates share (log 50). -/
def copyEngine (held : List Nat) (d : Nat) : Nat :=
  let load := fun n => (held.filter (· == d * 4 + n)).length
  d * 4 + (List.range 4).foldl (fun b n => if load n < load b then n else b) 0

/-! ## Slots of package links (R433) -/

/-- The rank of the package of an end of an arc, none for this one: a memory actor stands with its peer list (R188), a `.seq` block with its
root group (R92). -/
def endRank (im : Image) (other : End) : End → Option Nat
  | .actor k _ => im.kernelRank k
  | .actorCx k _ => im.kernelRank k
  | .seqCx q _ => (im.seqs[q]?).bind fun d => im.rankOf (rootGroup im 8 d.grp)
  | .mem _ _ => match other with
    | .actor k _ => im.kernelRank k
    | _ => none
  | _ => none
/-- Links and traffic slots for the arcs that cross packages, in declaration order: arc, link, outgoing?, slots. None while no
link has them free. -/
def giveSlots (s : State) (im : Image) : Option (List (Nat × Nat × Bool × List Nat)) :=
  im.arcs.zipIdx.foldl (fun acc e =>
    acc.bind fun got =>
      let peer := match endRank im e.1.dst e.1.src, endRank im e.1.src e.1.dst with
        | none, some r => some (r, true)
        | some r, none => some (r, false)
        | _, _ => none
      match peer with
      | none => some got
      | some (r, out) =>
        let free := fun n => (List.range 49).filter fun k =>
          (mfind (if out then (s.link n).owners else (s.link n).ownersIn) k).isNone && !(got.any fun x => x.2.1 = n && x.2.2.1 = out && x.2.2.2.contains k)
        ((upLinks s r).find? fun n => e.1.slots ≤ (free n).length).map fun n => got ++ [(e.2, n, out, (free n).take e.1.slots)]) (some [])

/-- The slots are entered in the tables of their links. -/
def takeSlots (c : Nat) (g : Graph) (l : List (Nat × Nat × Bool × List Nat)) (s : State) : State :=
  l.foldl (fun s x =>
    let key := State.arcKey c (g.tags.getD x.1 0)
    x.2.2.2.foldl (fun s k =>
      let y := s.link x.2.1
      s.setLink x.2.1 (if x.2.2.1 then { y with owners := mset y.owners k key } else { y with ownersIn := mset y.ownersIn k key })) s) s

/-! ## Placement (R198) -/

/-- What a placement has taken so far. -/
structure Trial where
  placed : List Nat
  groups : List (Nat × Nat × Nat) := []
  quads : List Nat := []
  lanes : List (Nat × Nat × List (Nat × Nat)) := []
  engines : List (Nat × Nat) := []
  slots : List (Nat × Nat × Bool × List Nat) := []
  deriving Repr

/-- The graph with what a trial has placed. -/
def Trial.onGraph (t : Trial) (g : Graph) : Graph :=
  { g with placed := t.placed
           groups := g.groups.zipIdx.map fun e => match t.groups.find? fun x => x.1 = e.2 with
             | some x => { e.1 with dx := Int.ofNat x.2.1, dy := Int.ofNat x.2.2, quads := quadsAt g.image e.2 (x.2.1, x.2.2) }
             | none => e.1 }

/-- Does no route between the placed ends of a graph's arcs and joins pass a die that is OFF (R492)? A memory actor stands with its peer
list, and an arc that crosses packages goes to the port of its link, of those in `slots`. -/
def routesClear (s : State) (g : Graph) (done : List Nat) (slots : List (Nat × Nat × Bool × List Nat)) : Bool :=
  s.badDies.isEmpty ||
    let im := g.image
    let at_ := fun t : Nat => if (im.rootOf t).any done.contains then some (g.placed.getD t 0) else none
    let place : End → Option Nat := fun e => match e with
      | .actor k _ => (im.tileOf k).bind at_
      | .actorCx k _ => (im.tileOf k).bind at_
      | .mem m _ => (memPeer g m).bind at_
      | .seqCx q _ => (im.seqs[q]?).bind fun d => if done.contains (rootGroup im 8 d.grp) then some (seqPos (seqOfBlock g q)) else none
      | _ => none
    let clear := fun a b => (routeLinks (Int.ofNat (pkgX a), Int.ofNat (pkgY a)) (Int.ofNat (pkgX b), Int.ofNat (pkgY b))).all fun l =>
      !s.badDies.contains (dieOfPos (linkKey l / 5))
    (im.arcs.all fun a => match place a.src, place a.dst with
      | some t, some u => clear t u
      | _, _ => true) &&
    (slots.all fun x => match im.arcs[x.1]? with
      | none => true
      | some a => match place (if x.2.2.1 then a.src else a.dst) with
        | some t => if x.2.2.1 then clear t (linkPort x.2.1) else clear (linkPort x.2.1) t
        | none => true) &&
    im.joins.all fun j => match joinPlaces g done j with
      | some ps => ps.all fun p => clear p (ps.foldl min 4095) && clear (ps.foldl min 4095) p
      | none => true

/-- May root group `i` stand at an origin, behind the groups of a trial: the four conditions of R198, an engine for each of its memory
actors (R188), and the links of its systolic array (R210)? -/
def placeOne (s : State) (c slot : Nat) (g : Graph) (t : Trial) (i : Nat) (o : Nat × Nat) : Option Trial :=
  let im := g.image
  let qs := quadsAt im i o
  let busy := fun q => t.quads.contains q || (groupOfQuad s q).isSome || s.badDies.contains (q / 32) || (s.die (q / 32)).clockStopped
  if !originFits im i o.1 o.2 || qs.any busy || !arrayFree s c slot (g.groups.getD i {}) qs then none
  else
    let placed := placeTiles im i o t.placed
    (giveLanes s c slot im i placed t.lanes).bind fun lanes =>
      (giveEngines s g i placed t.engines).bind fun engines =>
        let t' : Trial := { t with placed := placed, groups := t.groups ++ [(i, o.1, o.2)], quads := t.quads ++ qs, lanes := lanes, engines := engines }
        let g' := t'.onGraph g
        let dies := joinDies g' (t'.groups.map Prod.fst)
        let joinsFit := dies.all fun d => (s.die d).joins + (dies.filter (· == d)).length ≤ 512
        let inDone := fun u => (im.rootOf u).any (t'.groups.map Prod.fst).contains
        let powerOk := (List.range 12).all fun d =>
          let add := modePower g g.target placed d inDone
          !(t'.quads.any fun q => q / 32 = d) || powerFits s d g.lat (fun _ => true) add
        if joinsFit && powerOk && routesClear s g' (t'.groups.map Prod.fst) t.slots then some t' else none

/-- The placement of every root group of a graph that stands on this package, in declaration order. -/
def placeAll (s : State) (c slot : Nat) (g : Graph) : Option Trial :=
  let roots := (g.image.groups.zipIdx.filter fun e => e.1.parent.isNone && (g.image.rankOf e.2).isNone).map Prod.snd
  (giveSlots s g.image).bind fun sl =>
    roots.foldl (fun acc i => acc.bind fun t => allOrigins.findSome? fun o => placeOne s c slot g t i o) (some { placed := g.placed, slots := sl })

/-- Effective priority (R265). -/
def Graph.effective (g : Graph) (now : Nat) : Nat := min 7 (g.prio + (now - g.since) / 40000)
/-- Has a record held priority 7 for 320,000 cycles (R265)? -/
def Graph.isRipe (g : Graph) (now : Nat) : Bool := g.since + (7 - min 7 g.prio) * 40000 + 320000 ≤ now
/-- Is a waiting graph tried before another (R265)? -/
def Graph.precedes (g h : Graph) (now : Nat) : Bool :=
  if g.isRipe now && !h.isRipe now && !h.lat then true
  else if h.isRipe now && !g.isRipe now && !g.lat then false
  else if g.isRipe now && h.isRipe now then g.since + (7 - g.prio) * 40000 < h.since + (7 - h.prio) * 40000
  else g.effective now > h.effective now || (g.effective now = h.effective now && g.since < h.since)

/-- Bytes of the save area that a context needs with `n` quads (R369). -/
def saveBytes (n : Nat) : Nat := 1048576 + n * 10485760

/-- Quads that a context holds. -/
def quadsHeld (s : State) (c : Nat) : Nat :=
  ((s.graphs.filter fun e => e.1 / 256 = c).map fun e => (e.2.groups.map fun g => g.quads.length).sum).sum

/-- Does the context of a graph take launches (R348)? -/
def ctxOpen (s : State) (c : Nat) : Bool := (s.ctx c).state == .ready || (s.ctx c).state == .active

/-- Would the placement keep the context within its save area (R369)? -/
def saveFits (s : State) (c : Nat) (t : Trial) : Bool := saveBytes (quadsHeld s c + t.quads.length) ≤ (s.ctx c).saveSize

/-- Must a graph wait for another: one tried before it that can be admitted, or a ripe one that it may not pass (R265)? -/
def mustWait (s : State) (c slot : Nat) (g : Graph) : Bool :=
  s.graphs.any fun e => e.1 != State.graphKey c slot && e.2.state == .waiting && e.2.precedes g s.pcyc &&
    ((e.2.isRipe s.pcyc && !g.lat) || (ctxOpen s (e.1 / 256) && (placeAll s (e.1 / 256) (e.1 % 256) e.2).any (saveFits s (e.1 / 256))))

/-- A relocated list or sequencer word (R248, R199): an arc tag, a scope code, or a near address added to IMM26 or IMM32. -/
def relocate (g : Graph) (w : Word) (r : Reloc) : Word :=
  let put := fun lo n v => (w &&& ~~~(BitVec.ofNat 64 ((2 ^ n - 1) * 2 ^ lo))) ||| BitVec.ofNat 64 (v % 2 ^ n * 2 ^ lo)
  let add := fun a => let n := if hasImm32 w then 32 else 26; put 0 n (bitsOf w.toNat 0 n + a)
  match r with
  | .none => w
  | .port _ => w
  | .tag i => put 14 12 (g.tags.getD i 0)
  | .near k => add (g.cupboards.getD k 0)
  | .window i => add (mget 0 g.windows i)
  | .part n => add ((g.image.parts[n]?).map PartDecl.addr |>.getD 0)
  | .scope grp =>
    let tiles := match grp with
      | some i => ((g.image.groups[i]?).map GroupDecl.lists).getD []
      | none => List.range g.image.tiles
    let ps := tiles.map fun t => g.placed.getD t 0
    let one := fun f : Nat → Nat => (ps.map f).eraseDups.length ≤ 1
    let code := if grp.isNone && !g.image.ranks.isEmpty then 5 else if one id then 1 else if one quadOfPos then 2 else if one dieOfPos then 3 else 4
    put 0 3 code
where
  /-- Does the word carry an IMM32 (format TL)? -/
  hasImm32 (w : Word) : Bool :=
    let op := (opOf w).toNat
    op == 0x05 || op == 0x06 || op == 0x27 || op == 0x4A || op == 0xA0

/-- The counts of a join that `restore` leaves, with as many signals sent and releases removed as give them (R411): signals as counted,
and releases pending or to be discarded as owed. -/
def Join.counted (j : Join) (counts : List Nat) (owed : List Int) : Join :=
  let least := owed.foldl max 0
  { j with counts := counts, heldSigs := counts.map fun _ => 0, sent := counts.map fun n => least.toNat + n
           removed := owed.map fun r => (least - r).toNat }

/-- Code words of a sequencer block written where its code stands; a word whose page the loader cannot write keeps what it holds. -/
def writeCode (die c va : Nat) (ws : List Word) (s : State) : PartEnd Unit :=
  ws.zipIdx.foldl (fun r e => r.bind fun _ s =>
    match partWrite die c (va + 8 * e.2) s with
    | .ok pa s => .ok () (writePhys pa 8 e.1.toNat s)
    | .hold c v => .hold c v
    | .fault s => .ok () s) (.ok () s)

/-- Does a `.seq` block run on this package: does its root group stand here (R92, R449)? -/
def seqHere (g : Graph) (d : SeqDecl) : Bool := (g.image.rankOf (rootGroup g.image 8 d.grp)).isNone

/-- The control ports of the sequencers of a graph are bound (R211): from placement on, when their code runs. -/
def bindSeqPorts (c slot : Nat) (g : Graph) (s : State) : State :=
  let put := fun (s : State) (q p : Nat) (l : CtrlLink) => if !(g.image.seqs[q]?).any (seqHere g) then s else
    s.updSeq (seqOfBlock g q) fun x => { x with ctxid := c, cx := mset x.cx p { mget {} x.cx p with link := l } }
  let s := g.image.joins.zipIdx.foldl (fun s e => e.1.zipIdx.foldl (fun s m => match m.1 with
    | .seqCx q p => put s q p (.join slot e.2 m.2)
    | _ => s) s) s
  g.image.arcs.zipIdx.foldl (fun s e =>
    let s := match e.1.src with
      | .seqCx q p => put s q p (.prod (g.tags.getD e.2 0))
      | _ => s
    match e.1.dst with
    | .seqCx q p => put s q p (.cons (g.tags.getD e.2 0))
    | _ => s) s

/-- The quads of a graph are bound: tiles and sequencers read 0 (R95, R272, R317), the code of `.seq` blocks is relocated, joins take
their elements (R216), memory actors and copy templates their engines (R188). It waits where a page of that code is being committed
(R387). -/
def bindGraph (c slot : Nat) (t : Trial) (s : State) : PartEnd Unit :=
  let g := t.onGraph (graphAt s c slot)
  let g := { g with groups := g.groups.map fun x => { x with state := .bound }
                    lists := g.lists.map fun e => (e.1, if e.2 == .loaded then .placed else e.2)
                    mems := g.mems.zipIdx.map fun m => { m.1 with bound := true, engine := (t.engines.find? fun e => e.1 = m.2).map Prod.snd }
                    lanePlan := t.lanes
                    joins := g.joins.zipIdx.map fun e =>
                      match joinPlaces g (t.groups.map Prod.fst) (g.image.joins.getD e.2 []) with
                      | some ps =>
                        let r := e.1.restore.getD (ps.map fun _ => 0, ps.map fun _ => 0)
                        { e.1 with state := .bound, elem := ps.foldl min 4095 }.counted r.1 r.2
                      | none => e.1 }
  let copies := g.image.copies.zipIdx.foldl (fun (cs : List Template) e =>
    match (g.image.tileOf e.1.actor) with
    | some l =>
      if (g.image.kernelRank e.1.actor).isSome then cs
      else
        let held := (s.graphs.flatMap fun x => x.2.copies.filterMap Template.engine) ++ cs.filterMap Template.engine
        cs.set e.2 { cs.getD e.2 {} with engine := some (copyEngine held (dieOfPos (g.placed.getD l 0))) }
    | none => cs) g.copies
  let s := s.setGraph c slot { g with copies := copies }
  let s := takeSlots c g t.slots s
  let s := (joinDies g (t.groups.map Prod.fst)).foldl (fun s d => s.setDie d { s.die d with joins := (s.die d).joins + 1 }) s
  let s := t.quads.foldl (fun s q =>
    let s := (List.range 4).foldl (fun s i => { s with tiles := mdel s.tiles (computeOfQuad q i), mtiles := mdel s.mtiles (memoryOfQuad q i) }) s
    s.setSeq q { ctxid := c, tvec := (s.ctx c).tvec }) s
  let s := g.groups.zipIdx.foldl (fun s x => x.1.quads.zipIdx.foldl (fun s q =>
    let s := s.updSeq q.1 fun y => { y with sqn := mget 0 g.sqns (x.2 * 1024 + q.2) }
    (List.range 4).foldl (fun s i =>
      let mt := memoryOfQuad q.1 i
      s.setMtile mt { s.mtile mt with gens := mget [] g.keptGens (x.2 * 4096 + q.2 * 4 + i) }) s) s) s
  let s := g.loops.foldl (fun s e =>
    let t := g.placed.getD e.1 0
    if g.isHere e.1 then s.setTile t { s.tile t with lb := e.2.1, le := e.2.2.1, lc := e.2.2.2 } else s) s
  let s := updGraph c slot (fun g => { g with sqns := [], keptGens := [], loops := [] }) s
  let s := bindSeqPorts c slot g s
  g.image.seqs.foldl (fun r d => r.bind fun _ s => if !seqHere g d then .ok () s else
    writeCode (dieOfSeq (((g.groups.getD d.grp {}).quads.head?).getD 0)) c d.va (d.code.zipIdx.map fun w => relocate g w.1 (((d.relocs.find? fun r => r.1 = w.2).map Prod.snd).getD .none)) s) (.ok () s)

/-- The sequencers of a graph start at the first word of their `.seq` code, in the cycle of a start pulse that follows a placement (R479;
log 20). -/
def startSeqs (g : Graph) (s : State) : State :=
  g.image.seqs.zipIdx.foldl (fun s e => if !seqHere g e.1 then s else
    let n := seqOfBlock g e.2
    let s := s.updSeq n fun q => { q with pc := BitVec.ofNat 64 e.1.va, run := .run, last := s.pcyc, ready := s.pcyc }
    { s with todo := (s.todo.filter (· != Task.seq n)) ++ [.seq n] }) s

/-- GRAPH_PLACEMENT (R198, R245, R267): a waiting graph is admitted and placed, or is tried again. -/
def execGraphPlacement (ctx slot : Nat) (s : State) : StepResult :=
  match s.graph? ctx slot with
  | none => .next s
  | some g =>
    if g.state != .waiting then .next s
    else if !ctxOpen s ctx || mustWait s ctx slot g then .next (s.later (.graphPlacement ctx slot))
    else
      match placeAll s ctx slot g with
      | none => .next (s.later (.graphPlacement ctx slot))
      | some t =>
        if !saveFits s ctx t then
          let s := if g.saveAreaTold then s else
            (updGraph ctx slot (fun g => { g with saveAreaTold := true }) s).tellOpen ctx Code.saveArea 0 none
          .next (s.later (.graphPlacement ctx slot))
        else
        match bindGraph ctx slot t s with
        | .ok _ s =>
          let s := updGraph ctx slot (fun g => { g with state := .staging }) s
          .next ((s.setCtx ctx { s.ctx ctx with state := .active }).later (.stagingComplete ctx slot))
        | .hold c v => .next ((copyFirst c v s).later (.graphPlacement ctx slot))
        | .fault s => .next (s.later (.graphPlacement ctx slot))

/-! ## Staging (R131, R146, R148, R156, R157, R200) -/

/-- A list as it stands in a tile's store. -/
def storeOf (g : Graph) (c slot m : Nat) (l : ListDecl) : ListStore :=
  let entries := l.segs.flatMap fun seg => seg.map fun w => ({ word := relocate g (numberPorts g.image l w) w.reloc, owner := w.owner } : Entry)
  let table := l.segs.foldl (fun (r : List (Nat × Nat) × Nat) seg => (r.1 ++ [(r.2, seg.length)], r.2 + seg.length)) ([], 0)
  { ctx := c, slot := slot, mode := m, list := l.tile, entries := entries, table := table.1 }

/-- A list is written into the shadow half of its tile; another mode's list that stood there is PLACED again. -/
def stageList (c slot m : Nat) (l : ListDecl) (s : State) : State :=
  let g := graphAt s c slot
  let t := g.placed.getD l.tile 0
  let x := s.tile t
  let inActive := x.active.any fun a => a.mode = m
  if inActive then s
  else
    let s := match x.shadow with
      | some old => if old.mode != m then setListState c slot old.mode old.list .placed s else s
      | none => s
    setListState c slot m l.tile .shadowed (s.setTile t { x with shadow := some (storeOf g c slot m l) })

/-- Partitions of a graph in the memory tiles of its groups (R172, R320), its near data, and its cupboards: zero when first
staged (R146), or as the drain kept them. -/
def stageNear (c slot : Nat) (s : State) : State :=
  let g := graphAt s c slot
  let s := g.layout.foldl (fun s e =>
    let p := { e.2.2.2 with ctx := c, slot := slot, full := List.replicate e.2.2.2.buffers false }
    let mt := memoryOfQuad (relToQuad (g.groups.getD p.grp {}) (e.1, e.2.1)) e.2.2.1
    if (g.image.rankOf p.grp).isSome then s
    else
      let s := s.setMtile mt { s.mtile mt with parts := (s.mtile mt).parts ++ [p] }
      if p.mode == .presence then
        { s with present := s.present.filter fun b => !(presKey mt p.base ≤ b.1 && b.1 < presKey mt p.base + p.granules * 8192) }
      else s) s
  let s := g.image.data.foldl (fun s d =>
    match d.near.filter g.isHere with
    | some t => { s with near := d.bytes.zipIdx.foldl (fun m b =>
        let p := nearPlace (quadOfPos (g.placed.getD t 0)) (d.addr + b.2)
        writeByte m (nearKey p.1 p.2) b.1) s.near }
    | none => s) s
  let s := (List.range g.image.kernels.length).foldl (fun s k =>
    match cupboardPlace g k with
    | none => s
    | some p =>
      let n := (g.image.kernel k).cupboard
      let s := if g.cupZero then { s with near := s.near.filter fun e => !(nearKey p.1 p.2 ≤ e.1 && e.1 < nearKey p.1 p.2 + n) } else s
      match mfind g.kept k with
      | some bs => { s with near := writeBytes s.near (nearKey p.1 p.2) bs }
      | none => s) s
  updGraph c slot (fun g => { g with cupZero := false, kept := [] }) s

/-- The lowest-numbered format tag that the consumer of a declared arc accepts (R157). -/
def initTag (g : Graph) (a : ArcDecl) : Nat :=
  match a.dst with
  | .actor k p => (((portDecl g.image k false p).map PortDecl.tags).getD []).foldl min 7
  | .mem m p => (g.image.mems[m]?.map fun d => match d.kind with
      | .sink => d.fmt
      | .scatterAdd => if p = 0 then 0 else d.op
      | _ => 0).getD 0
  | _ => 0

/-- The memory tile that holds the window of a declared arc, where it stands on this package (R159). -/
def windowTile (g : Graph) (i : Nat) (d : ArcDecl) : Option Nat :=
  (mfind g.windows i).bind fun a => (windowQuad g.image d).bind fun q =>
    if (g.image.rankOf q.1).isSome then none else some (memoryOfQuad (relToQuad (g.groups.getD q.1 {}) q.2) (a / 2 ^ 21))

/-- An arc is bound for a mode in which both of its ends stand, with its initial tokens at the first time (R156, R157). -/
def bindArc (g : Graph) (m : ModeDecl) (tag : Nat) (a : Arc) : Arc :=
  match a.decl.bind fun i => g.image.arcs[i]? with
  | none => a
  | some d =>
    if !(standsIn g m d.src && standsIn g m d.dst) then a
    else
      let home := a.decl.bind fun i => windowTile g i d
      let placed := { a with src := placeData g m true d.src, dst := placeData g m false d.dst, kind := g.image.arcKind d, cap := if d.queue then 64 else d.cap
                             home := home, base := mget 0 g.windows (a.decl.getD 0) % 2 ^ 21 }
      if a.state == .declared then
        { placed with state := .bound, sent := d.init, window := List.replicate d.init { kind := .data, tag := tag, fmt := initTag g d } }
      else placed

/-- The templates whose bound actor stands in a mode are armed as declared, at the first staging of such a mode (R258). -/
def armStaged (g : Graph) (m : ModeDecl) : List Template :=
  g.copies.zipIdx.map fun e =>
    let bound := ((g.image.copies[e.2]?).bind fun d => m.listOf d.actor).isSome
    if bound && !e.1.staged then { declaredTemplate g e.2 e.1 with staged := true } else e.1

/-- STAGING_COMPLETE (R200, R245, R148): the target mode's lists stand in the shadow halves, and its arcs are bound; behind a placement
partitions, cupboards and windows too, and the groups are STAGED. -/
def execStagingComplete (ctx slot : Nat) (s : State) : StepResult :=
  match s.graph? ctx slot with
  | none => .next s
  | some g =>
    match g.image.mode? g.target with
    | none => .next s
    | some m =>
      if g.state == .staging || g.state == .changing then
        let first := g.state == .staging && g.stagedMode.isNone
        let s := if first then stageNear ctx slot s else s
        let s := m.lists.foldl (fun s l => if g.isHere l.tile then stageList ctx slot g.target l s else s) s
        let s := { s with arcs := s.arcs.map fun e =>
          (e.1, if e.1 / 4096 = ctx && e.2.slot = slot && (first || e.2.state == .declared) then bindArc g m (e.1 % 4096) e.2 else e.2) }
        .next (updGraph ctx slot (fun g => { g with
          stagedMode := some g.target, everStaged := true, copies := armStaged g m
          groups := if first then g.groups.map fun x => { x with state := .staged } else g.groups }) s)
      else .next s

/-! ## Start pulse (R145, R148, R201, R223, R253, R339) -/

/-- Data tokens that an arc holds. -/
def Arc.held (a : Arc) : Nat := ((a.window ++ a.fresh ++ a.entry ++ a.transit).filter fun t => t.kind == .data).length

/-- Is every list of a graph on this package QUIESCENT, with its markers forwarded (R251)? -/
def listsQuiet (s : State) (c slot : Nat) : Bool :=
  let g := graphAt s c slot
  (g.modeNow.lists.all fun l => listState g g.mode l.tile == .quiescent || !g.isHere l.tile) && g.forwarding.isEmpty

/-- Is every list, memory actor and template of a graph quiescent (R251 to R253)? -/
def allQuiet (s : State) (c slot : Nat) : Bool :=
  let g := graphAt s c slot
  listsQuiet s c slot && g.mems.all MemActor.quiescent && g.copies.all fun t => t.marked && t.firing.isNone

/-- Is an end of an arc at rest: a list's, an engine that is quiescent, or a package that has found its conditions met? -/
def restsAt (g : Graph) : PlacedEnd → Bool
  | .mem m _ => (g.mems[m]?).all MemActor.quiescent
  | .copy t => (g.copies[t]?).all fun x => x.marked && x.firing.isNone
  | .remote r => (mfind g.peersReady r).isSome
  | _ => true

/-- The first arc between ends at rest that holds another number of data tokens than it declares: tag, declared, held (R253). -/
def residueArc (s : State) (c slot : Nat) : Option (Nat × Nat × Nat) :=
  let g := graphAt s c slot
  s.arcs.findSome? fun e =>
    if e.1 / 4096 = c && e.2.slot = slot && e.2.kind != .queue && e.2.kind != .control && restsAt g e.2.src && restsAt g e.2.dst then
      match e.2.decl.bind fun i => g.image.arcs[i]? with
      | some d => if e.2.held != d.init && (e.2.state != .declared) then some (e.1 % 4096, d.init, e.2.held) else none
      | none => none
    else none

/-- Is an access an atomic that a pipeline of some quads has accepted and not performed (R234, R240): of any unit, or a `ramo`? -/
def Op.atomicAt (o : Op) (quads : List Nat) : Bool :=
  !o.left.isEmpty && quads.contains (quadOfPos o.mtile) && match o.kind with
    | .atomic _ _ _ _ => o.entered.isSome || !o.far
    | .remote _ _ _ _ l => l = ownLink && o.entered.isSome
    | _ => false

/-- Has an access of a graph's tiles or of an engine of it, or one that an atomic pipeline of its quads has accepted, not been performed
(R240)? An atomic that a sequencer of its quads has issued is waited for like one of a tile. -/
def openWork (s : State) (c slot : Nat) : Bool :=
  let quads := (graphAt s c slot).groups.flatMap Group.quads
  (s.ops.any fun e => !e.2.served && (e.2.atomicAt quads || match e.2.cur.unit, e.2.stream with
    | _, .memActor g _ => e.2.ctx = c && g = slot
    | _, .copy g _ => e.2.ctx = c && g = slot
    | .tile t, _ => quads.contains (quadOfPos t)
    | .seq n, _ => quads.contains n && !e.2.left.isEmpty && match e.2.kind with
        | .atomic _ _ _ _ => true
        | _ => false)) ||
  s.links.any fun l => l.2.itemsIn.head?.any fun i => i.entered.isSome && (remoteTile i.a).any fun t => quads.contains (quadOfPos t)

/-- Has every agent of a graph passed its marker point (R420)? -/
def pastMarkers (s : State) (c slot : Nat) : Bool :=
  match (s.ctx c).openSnap with
  | some p => p.pending.all fun a => a / 2 ^ 20 != slot
  | none => true

/-- Are markers of the snapshot in progress in flight in a graph: is a marker point still to come, or does a marker stand in a window or on
its way (R419)? -/
def markersInFlight (s : State) (c slot : Nat) : Bool :=
  (s.ctx c).openSnap.isSome && (!pastMarkers s c slot ||
    s.arcs.any fun e => (e.1 / 4096 = c || e.1 / 4096 = c + 64) && e.2.slot = slot &&
      ((e.2.window ++ e.2.fresh ++ e.2.entry ++ e.2.transit ++ (s.links.flatMap fun l => (l.2.out.filter fun o => o.1 = e.1).map fun o => o.2.2)).any
        fun t => t.kind == .snap && t.payload.toNat = e.2.snapId))

/-- Do the lists of the target stand ready in their tiles (R149)? -/
def targetStaged (s : State) (c slot : Nat) : Bool :=
  let g := graphAt s c slot
  match g.image.mode? g.target with
  | none => false
  | some m => m.lists.all fun l =>
      let x := s.tile (g.placed.getD l.tile 0)
      !g.isHere l.tile || (x.shadow.any fun a => a.mode = g.target) || (x.active.any fun a => a.mode = g.target)

/-- Does the target mode keep both limits, where it takes more power than the mode in force (R267)? R267 does not say how two modes are
compared: each die is, and a die on which the target takes no more is not asked (DESIGN CHOICE, log 67). -/
def targetFits (s : State) (c slot : Nat) : Bool :=
  let g := graphAt s c slot
  (List.range 12).all fun d =>
    let old := modePower g g.mode g.placed d g.isHere
    let new := modePower g g.target g.placed d g.isHere
    decide (new ≤ old) || powerFits s d g.lat (fun k => k != State.graphKey c slot) new

/-- The conditions of R253 for a CHANGING graph: none after RESIDUE. -/
def pulseReady (s : State) (c slot : Nat) : Bool :=
  let g := graphAt s c slot
  g.state == .changing && !g.residue && allQuiet s c slot && (residueArc s c slot).isNone && targetStaged s c slot && !openWork s c slot &&
    pastMarkers s c slot && targetFits s c slot

/-- Is a graph ready for its next start pulse: STAGING with every group STAGED and the target's lists in their tiles (R245, R149), or
CHANGING by R253? -/
def startReady (s : State) (c slot : Nat) : Bool :=
  let g := graphAt s c slot
  (g.state == .staging && g.stagedMode.isSome && targetStaged s c slot) || pulseReady s c slot

/-- The halves of a tile's store swap where the target's list is in the shadow (R148), and the tile starts the mode: position,
ports, rate vectors (R145), `MODERR` (R306). PS bits are cleared, but for those that a drain or a rollback has kept for a pulse in the
mode in force (R223, R371, R427, log 66). Its loop registers keep their values (R127). -/
def startTile (slot : Nat) (g : Graph) (m : ModeDecl) (l : ListDecl) (region : Nat) (s : State) : State :=
  let t := g.placed.getD l.tile 0
  let x := s.tile t
  let swap := x.active.all fun a => a.mode != g.target
  let ports := fun out : Bool => l.actors.flatMap fun k =>
    let d := g.image.kernel k
    let rate := fun p : PortDecl => ((rateOf m false k out p.num).head?.map RateDecl.vals).getD []
    let ps := fun p : PortDecl => !out && g.mode = g.target && bitOf (mget 0 g.ps k) p.num
    (if out then d.outs else d.ins).map fun p =>
      let arc := (g.image.arcs.zipIdx.find? fun e => (if out then e.1.src else e.1.dst) == .actor k p.num).map fun e => g.tags.getD e.2 0
      let cp := if out then none else (g.image.copies.find? fun cd => cd.actor = k && cd.port = p.num).map fun cd => 64 * 4096 + g.tags.getD cd.queue 0
      let arc := arc.orElse fun _ => cp
      (tilePort g.image l out k p.num, ({ arc := arc, owner := k, own := p.num, rate := rate p, ps := ps p } : Port))
  let cxs := l.actors.flatMap fun k => (g.image.kernel k).cxs.map fun p =>
    let jn := g.image.joins.zipIdx.findSome? fun e => (e.1.findIdx? (· == .actorCx k p)).map fun i => CtrlLink.join slot e.2 i
    let arc := (g.image.arcs.zipIdx.find? fun e => e.1.src == .actorCx k p).map fun e => CtrlLink.prod (g.tags.getD e.2 0)
    let old := mget {} x.cx (tileCxPort g.image l k p)
    (tileCxPort g.image l k p, ({ old with link := (jn.orElse fun _ => arc).getD .none } : CtrlPort))
  let sorted := fun {α : Type} (ps : List (Nat × α)) => ps.foldl (fun (m : Map α) e => mset m e.1 e.2) []
  s.setTile t { x with
    active := if swap then x.shadow else x.active
    shadow := if swap then x.active else x.shadow
    pos := 0, counts := [], between := []
    inPorts := sorted (ports false), outPorts := sorted (ports true), cx := sorted cxs
    moderr := false
    region := some region }

/-- The tensor units of every compute tile of a graph at a start pulse (R339, R323, R326): `CFG` 0, slots FREE, accumulators EMPTY. R339 does
not speak of a firing in flight there, which an ARMED slot may have started once its list was QUIESCENT: it stays in flight, and completes
into its accumulator (DESIGN CHOICE, log 68). -/
def resetTensors (g : Graph) (s : State) : State :=
  let mine := fun t => isComputePos t && g.groups.any fun x => x.quads.contains (quadOfPos t)
  { s with tiles := s.tiles.map fun e => (e.1, if mine e.1 then
      { e.2 with tensor := { e.2.tensor with cfg := 0, slots := [], accs := [], settings := [], zeroing := [] } } else e.2) }

/-- Markers that a start pulse or a drain removes from an arc (R152, R420), and the credits of R160. -/
def Arc.cleared (a : Arc) : Arc :=
  let stays := fun t : Token => !t.isStopping && t.kind != .snap
  let w := (a.window ++ a.fresh ++ a.entry).filter stays
  let way := a.transit.filter stays
  { a with recording := false, window := w, fresh := [], entry := [], seen := a.read, sent := a.read + (w.filter Token.spends).length + way.length
           transit := way, flights := ((a.transit.zip a.flights).filter fun e => stays e.1).map Prod.snd, pubs := [], asked := 0, blocked := none }

/-- Is an arc one of a graph: declared, or a window of a port bound to a copy template? -/
def isArcOf (s : State) (c slot key : Nat) : Bool := (key / 4096 = c || key / 4096 = c + 64) && (s.arc? key).any fun a => a.slot = slot

/-- Steps set for the cleared arcs of a graph that have nothing left to carry: publications, and arrivals where nothing is on the way. -/
def dropArrivals (c slot : Nat) (s : State) : State :=
  let idle := fun tag => isArcOf s c slot (State.arcKey c tag) && (s.arc? (State.arcKey c tag)).any fun a => a.transit.isEmpty
  { s with agenda := s.agenda.filter fun e => match e.2 with
      | .creditArrival c' tag => !(c' = c && isArcOf s c slot (State.arcKey c tag))
      | .ringWindowWrite c' tag => !(c' = c && idle tag)
      | .scheduledTokenArrival c' tag => !(c' = c && idle tag)
      | _ => true }

/-- An arc at the start pulse of a mode. -/
def Arc.pulsed (g : Graph) (m : ModeDecl) (tag : Nat) (a : Arc) : Arc :=
  let a := (bindArc g m tag a).cleared
  match a.decl.bind fun i => g.image.arcs[i]? with
  | some d => { a with lanes := g.lanesOf (a.decl.getD 0) g.target
                       state := if standsIn g m d.src && standsIn g m d.dst then .active else if a.state == .declared then .declared else .bound }
  | none => a

/-- Presence bits of the presence partitions, and tags of the buffered tile stores, of a graph (R180, R320). -/
def clearStores (c slot : Nat) (s : State) : State :=
  s.mtiles.foldl (fun s e =>
    let mine := fun p : Partition => p.ctx = c && p.slot = slot
    let s := (e.2.parts.filter fun p => mine p && p.mode == .presence).foldl (fun s p =>
      { s with present := s.present.filter fun b => !(presKey e.1 p.base ≤ b.1 && b.1 < presKey e.1 p.base + p.granules * 8192) }) s
    s.setMtile e.1 { s.mtile e.1 with parts := (s.mtile e.1).parts.map fun p => if mine p then { p with full := p.full.map fun _ => false } else p }) s

/-- Does a region touch a die whose allowance is 0: it then has the largest stretch (R268, R487)? -/
def unpowered (s : State) (r : Region) : Bool := r.tiles.any fun t => (s.die (dieOfPos t)).allow = 0

/-- A region of a mode at its start pulse (R207, R253), with the stretch that an allowance of 0 gives every region of its die (R487), from
its first phase end on (R268). -/
def newRegion (s : State) (g : Graph) (m : ModeDecl) (i : Nat) (r : RegionDecl) : Region :=
  let x : Region :=
    { rstate := 1, wdog := mget r.wdog g.wdogs (energyKey g.target i), mode := g.target, tiles := r.lists.map fun t => g.placed.getD t 0
      phases := m.phases, energy := r.energy, measured := mget [] g.measured (energyKey g.target i) }
  if unpowered s x then { x with stretch := 65535 } else x

/-- The releases that a rollback left owing to members of joins that are armed are in their windows, or are to be discarded
(R411). -/
def oweReleases (c slot : Nat) (s : State) : State :=
  (graphAt s c slot).joins.zipIdx.foldl (fun s e =>
    match e.1.restore with
    | some r =>
      if e.1.state == .armed then
        let s := setJoin c slot e.2 { e.1 with restore := none } s
        r.2.zipIdx.foldl (fun (s : State) (n : Int × Nat) =>
          match memberOf s c slot e.2 n.2 with
          | some (u, p) =>
            if n.1 < (0 : Int) then setCx u p { mget {} (unitCx s u) p with skip := n.1.natAbs } s
            else (List.range n.1.toNat).foldl (fun s _ => depositAt u p s) s
          | none => s) s
      else s
    | none => s) s

/-- The regions of a graph act in this cycle: they have just been placed or restored. -/
def runRegions (c slot : Nat) (s : State) : State :=
  let keys := (s.regions.filter fun e => e.1 / 2048 = State.graphKey c slot).map fun e => Task.region e.1
  { s with todo := (s.todo.filter fun t => !keys.contains t) ++ keys }

/-- The lane tables of the links that a graph's arcs use: their entries of the mode in force in the place of those of the mode before
(R204). -/
def enterLanes (c slot : Nat) (s : State) : State :=
  let others := s.lanes.filter fun l => !isArcOf s c slot l.2
  { s with lanes := s.arcs.foldl (fun ls (e : Nat × Arc) =>
      if e.1 / 4096 = c && e.2.slot = slot && e.2.state == .active then e.2.lanes.foldl (fun ls l => mset ls (l.1 * 8 + l.2) e.1) ls else ls) others }

/-- The next position of a memory actor at a start pulse, with its patched base (R248). -/
def MemActor.pulsed (x : MemActor) : MemActor :=
  { x with base := x.patched.getD x.base, patched := none, range := false, quiescent := false, marked := false, lastToken := none, startAt := x.next }

/-- The memory actors of a graph act behind its regions in this cycle: requests that are due at a start pulse issue at it (R189). -/
def runEngines (c slot : Nat) (s : State) : State :=
  let ts := (List.range (graphAt s c slot).mems.length).map fun m => Task.memActor c slot m
  { s with todo := (s.todo.filter fun t => !ts.contains t) ++ ts }

/-- The lists at a start pulse (R131, R148): a list that leaves the active half of a tile is SHADOWED, those of the target are ACTIVE. -/
def pulsedLists (s : State) (g : Graph) (m : ModeDecl) : Map ListState :=
  let out := m.lists.filterMap fun l => if !g.isHere l.tile then none else
    ((s.tile (g.placed.getD l.tile 0)).active.filter fun a => a.mode != g.target).map fun a => listKey a.mode a.list
  m.lists.foldl (fun ls l => mset ls (listKey g.target l.tile) .active) (out.foldl (fun ls k => mset ls k .shadowed) g.lists)

/-- START_PULSE (R253, R201): the target mode starts, in the cycle of this step; behind a placement the sequencers start too (R479). A
SEED that a rollback has left is kept for one pulse (R66, R427, log 52). -/
def execStartPulse (ctx slot : Nat) (s : State) : StepResult :=
  match s.graph? ctx slot with
  | none => .next s
  | some g0 =>
    match g0.image.mode? g0.target with
    | none => .next s
    | some m =>
      if !startReady s ctx slot then .next s
      else
        let g : Graph := { g0 with seed := if g0.keepSeed then g0.seed else (s.ctx ctx).seed, keepSeed := false }
        let lists := pulsedLists s g m
        let s : State := { s with regions := s.regions.filter fun e => e.1 / 2048 != State.graphKey ctx slot }
        let s : State := g.modeNow.lists.foldl (fun s l => let t := g.placed.getD l.tile 0; s.setTile t { s.tile t with region := none }) s
        let s : State := m.regions.zipIdx.foldl (fun s e =>
          if e.1.lists.all g.isHere then s.setRegion (State.regionKey ctx slot e.2) (newRegion s g m e.2 e.1) else s) s
        let s : State := m.lists.foldl (fun s l =>
          if !g.isHere l.tile then s
          else startTile slot g m l (State.regionKey ctx slot ((m.regionOf l.tile).getD 0)) s) s
        let s : State := clearStores ctx slot (resetTensors g s)
        let s : State := { s with arcs := s.arcs.map fun (e : Nat × Arc) =>
          if e.1 / 4096 = ctx && e.2.slot = slot then (e.1, Arc.pulsed g m (e.1 % 4096) e.2)
          else if e.1 / 4096 = ctx + 64 && e.2.slot = slot then (e.1, e.2.cleared) else e }
        let s : State := g.image.copies.zipIdx.foldl (fun s e =>
          let key := boundKey (State.arcKey ctx (g.tags.getD e.1.queue 0))
          let dst := placeData g m false (.actor e.1.actor e.1.port)
          s.setArc key { (s.arc? key).getD {} with kind := .ring, slot := slot, src := .copy e.2, dst := dst, state := .active }) s
        let s : State := enterLanes ctx slot (dropArrivals ctx slot s)
        let stands := fun j : List End => j.any fun e => match e with
          | .actorCx k _ => (m.listOf k).isSome
          | .seqCx _ _ => true
          | _ => false
        let g : Graph := { g with
          state := .running, mode := g.target, periods := 0, draining := false, residue := false, points := [], closing := [], finished := [], forwarding := []
          lists := lists, ps := []
          groups := g.groups.map fun x => { x with state := .running }
          mems := g.mems.map MemActor.pulsed, peersReady := [], noticed := none, owed := []
          copies := g.copies.map fun t => { t with marked := false, stopped := false, quiescent := false }
          joins := g.joins.zipIdx.map fun e => if e.1.state == .bound && stands (g.image.joins.getD e.2 []) then { e.1 with state := .armed } else e.1 }
        let s : State := runEngines ctx slot (runRegions ctx slot (oweReleases ctx slot (s.setGraph ctx slot g)))
        let s : State := if g0.state == .staging then startSeqs g s else s
        .next (((s.ctx ctx).records.filter fun r => r.kind = 2 && r.acting && !r.failed && r.handle = g.handle).foldl
          (fun s r => s.soon (.recordFinish ctx r.id)) s)

/-! ## Mode and drain requests (R249, R250) -/

/-- Injection points: 0 source, 1 template, 2 arc without a producer, 3 list without data inputs; each with its number. -/
def pointOf (kind n : Nat) : Nat := kind * 4096 + n

/-- Does a list have no data input? -/
def noInputs (im : Image) (l : ListDecl) : Bool := l.actors.all fun k => (im.kernel k).ins.isEmpty

/-- The injection points of a graph in its mode (R250). -/
def injectionPoints (g : Graph) : List Nat :=
  let im := g.image
  (im.mems.zipIdx.filterMap fun e => if e.1.kind == .source then some (pointOf 0 e.2) else none) ++
    ((List.range im.copies.length).map (pointOf 1)) ++
    (im.arcs.zipIdx.filterMap fun e =>
      if e.1.src == .none && !e.1.queue && !e.1.control && !im.detours.contains e.2 then some (pointOf 2 e.2) else none) ++
    (g.modeNow.lists.filterMap fun l => if noInputs im l then some (pointOf 3 l.tile) else none)

/-- Accesses of sequencer `spawn` instructions on arcs of a graph that have not yet placed their tokens. -/
def owedSpawns (s : State) (c : Nat) (g : Graph) : List Nat :=
  s.ops.filterMap fun e => match e.2.kind, e.2.cur.unit with
    | .colour a _, .seq _ => if e.2.ctx = c && g.tags.contains a && !e.2.served then some e.1 else none
    | _, _ => none

/-- The request goes to every injection point (R250). -/
def inject (c slot : Nat) (s : State) : State :=
  let s := updGraph c slot (fun g => { g with owed := owedSpawns s c g }) s
  (injectionPoints (graphAt s c slot)).foldl (fun s p => s.later (.modeRequestArrival c slot p)) s

/-- MODE_REQUEST_ARRIVAL (R250, R252): the point acts, or waits for its condition. A source whose consumer stands in no list of the mode in
force has issued nothing, and its window gets no marker (log 36). -/
def execModeRequestArrival (ctx slot point : Nat) (s : State) : StepResult :=
  let n := point % 4096
  match point / 4096 with
  | 0 =>
    let x := memAt s ctx slot n
    match (memOut s ctx slot n).filter (isLive s) with
    | some key =>
      let more := tokensToPeriodEnd s ((s.arc? key).getD {}) x
      .next (settleEngine ctx slot n (updMem ctx slot n (fun x => { x with lastToken := some (x.next + more) }) s))
    | none => .next s
  | 1 =>
    let x := copyAt s ctx slot n
    .next (if x.firing.isNone then markTemplate ctx slot n s else updCopy ctx slot n (fun x => { x with stopped := true }) s)
  | _ => .next (updGraph ctx slot (fun g => { g with points := g.points ++ [point] }) s)

/-- A spawn arc gets its marker once every list that spawns on it is QUIESCENT and every `spawn` of a sequencer that issued before the
request has placed its token (R250). -/
def spawnPointReady (s : State) (c slot i : Nat) : Bool :=
  let g := graphAt s c slot
  let spawns := fun l : ListDecl => l.segs.any fun seg => seg.any fun w => (opOf w.word).toNat == 0xD1 && w.reloc == .tag i
  (g.modeNow.lists.all fun l => !spawns l || listState g g.mode l.tile == .quiescent) &&
    !(s.ops.any fun e => g.owed.contains e.1 && !e.2.served && match e.2.kind with
      | .colour a _ => a = g.tags.getD i 0
      | _ => false)

/-- A request for a mode of a graph in state RUNNING or CHANGING, or one that has not started (R249). -/
def requestMode (c slot m : Nat) (s : State) : State :=
  let g := graphAt s c slot
  let s := updGraph c slot (fun g => { g with target := m }) s
  if g.state == .running then
    let s := inject c slot (updGraph c slot (fun g => { g with state := .changing }) s)
    if targetStaged s c slot then s else s.later (.stagingComplete c slot)
  else if g.state == .changing && !targetStaged s c slot then s.later (.stagingComplete c slot)
  else s

/-- May a mode be requested in this state (R249)? -/
def GraphState.takesMode : GraphState → Bool
  | .loaded => true
  | .waiting => true
  | .staging => true
  | .idle => true
  | .running => true
  | .changing => true
  | _ => false

/-- What an operation asks of a graph it asks on every package that the graph's invocation names (R478). -/
def tellRanks (c slot : Nat) (s : State) : State :=
  ((graphAt s c slot).image.ranks.map Prod.snd).eraseDups.foldl (fun s r => sendItems 0 c r 1 s) s

/-- `setmode` (R249). -/
def execSetmode (a : BitVec 6) (mode : BitVec 3) (s : State) : StepResult :=
  onSeq s fun n =>
    let c := curCtx s
    match slotOf s c (readS s a) with
    | none => graphFault n 1 s
    | some g =>
      let x := graphAt s c g
      if !x.state.takesMode then graphFault n 2 s
      else if (x.image.mode? mode.toNat).isNone then graphFault n 3 s
      else finish (requestMode c g mode.toNat (tellRanks c g s))

/-- A graph becomes WAITING (R245, R259). -/
def activate (c g prio : Nat) (lat : Bool) (since : Nat) (record : Option Nat) (count : Nat) (s : State) : State :=
  (updGraph c g (fun x => { x with state := .waiting, prior := x.state, prio := prio, lat := lat, since := since, record := record, count := count, ran := 0 }) s).later
    (.graphPlacement c g)

/-- `gact` (R259): priority 0, not of the latency class. -/
def execGact (a : BitVec 6) (s : State) : StepResult :=
  onSeq s fun n =>
    let c := curCtx s
    match slotOf s c (readS s a) with
    | none => graphFault n 1 s
    | some g =>
      let st := (graphAt s c g).state
      if st == .loaded || st == .idle then finish (activate c g 0 false s.pcyc none 0 (tellRanks c g s)) else graphFault n 2 s

/-- A graph starts to drain (R245): DRAIN markers go to the points that have not acted. -/
def startDrain (c g : Nat) (s : State) : State :=
  let was := (graphAt s c g).state
  let s := updGraph c g (fun x => { x with state := .draining, draining := true }) s
  if was == .running then inject c g s else s

/-- `gdrain` (R259). -/
def execGdrain (a : BitVec 6) (s : State) : StepResult :=
  onSeq s fun n =>
    let c := curCtx s
    match slotOf s c (readS s a) with
    | none => graphFault n 1 s
    | some g =>
      let st := (graphAt s c g).state
      if st == .running || st == .changing then finish (startDrain c g (tellRanks c g s)) else graphFault n 2 s

/-! ## Release (R200, R245) -/

/-- Is a step set for a tile, or for the sequencer, of some quads? -/
def eventAt (quads : List Nat) : Instr → Bool
  | .tensorFiringStart t _ => quads.contains (quadOfPos t)
  | .tensorFiringComplete t _ => quads.contains (quadOfPos t)
  | .tacczEffect t _ => quads.contains (quadOfPos t)
  | .tstoreStart t => quads.contains (quadOfPos t)
  | .tstoreComplete t => quads.contains (quadOfPos t)
  | .twloadValid t => quads.contains (quadOfPos t)
  | .tileFaultReport t => quads.contains (quadOfPos t)
  | .resultWriteback t => quads.contains (quadOfPos t)
  | .orderTokenArrival u _ _ => if u < 4096 then quads.contains (quadOfPos u) else quads.contains (u - 4096)
  | _ => false

/-- A link without the slots of some arcs and what it holds of them. -/
def Link.without (mine : Nat → Bool) (x : Link) : Link :=
  { x with owners := x.owners.filter fun o => !mine o.2, ownersIn := x.ownersIn.filter fun o => !mine o.2
           out := x.out.filter fun t => !mine t.1, pubsOut := x.pubsOut.filter fun p => !mine p.1
           strays := x.strays.filter fun t => !(mfind x.ownersIn t.1).any mine }

/-- An arc of a graph whose groups are released: a queue stays where it is, outside the quads. What crosses a link is counted from 0 when
the arc is bound again (R436). -/
def Arc.unplaced (a : Arc) : Arc :=
  let a := { a with lanes := [], chunkEnds := [], lent := 0, asked := 0, home := none, blocked := none, lseqOut := 0, lseqIn := 0, farWay := none }
  if a.kind == .queue then a else { a with src := .none, dst := .none }

/-- An access under way when its unit is released: one of a tile ends; what a sequencer has issued and memory has still to take is performed,
an atomic among it (R240), and no register or order channel waits for it any more. -/
def Op.outlives (o : Op) (quads : List Nat) : Option Op :=
  let gone : Option Op := if o.served || o.refused then none else match o.kind with
    | .nearStore _ => some { o with dst := none, chan := 0 }
    | .atomic _ _ _ _ => some { o with dst := none, chan := 0 }
    | .dramStore _ _ => some { o with dst := none, chan := 0 }
    | _ => none
  match o.cur.unit with
  | .tile t => if quads.contains (quadOfPos t) then none else some o
  | .seq n => if quads.contains n then gone else some o

/-- Everything that a graph's groups hold is released: quads with their tiles and sequencers, lanes, chunks, join elements, engines, and
the steps set for them. -/
def releaseGroups (c slot : Nat) (s : State) : State :=
  let g := graphAt s c slot
  let quads := g.groups.flatMap Group.quads
  let mine := fun key => isArcOf s c slot key
  let s' := s.arcs.foldl (fun s e =>
    if e.1 / 4096 = c && e.2.slot = slot && 0 < e.2.chunks then s.setDie e.2.die { s.die e.2.die with attic := (s.die e.2.die).attic + e.2.chunks } else s) s
  let s' := g.joins.foldl (fun s j =>
    if !g.placed.isEmpty && (j.state == .bound || j.state == .armed) then let d := dieOfPos j.elem; s.setDie d { s.die d with joins := (s.die d).joins - 1 } else s) s'
  let s' : State := { s' with
    arcs := s'.arcs.map fun e => (e.1, if mine e.1 then e.2.unplaced else e.2)
    lanes := s'.lanes.filter fun l => !mine l.2
    regions := s'.regions.filter fun e => e.1 / 2048 != State.graphKey c slot
    ops := s'.ops.filterMap fun e => (e.2.outlives quads).map fun o => (e.1, o)
    agenda := s'.agenda.filter fun e => !eventAt quads e.2
    links := s'.links.map fun l => (l.1, l.2.without mine) }
  let s' := quads.foldl (fun s q =>
    let s := (List.range 4).foldl (fun s i => { s with tiles := mdel s.tiles (computeOfQuad q i), mtiles := mdel s.mtiles (memoryOfQuad q i) }) s
    { s with seqs := mdel s.seqs q }) s'
  updGraph c slot (fun g => { g with
    placed := [], wdogs := [], stagedMode := none, points := [], owed := [], closing := [], finished := [], forwarding := [], lanePlan := [], peersReady := [], noticed := none
    groups := g.groups.map fun x => { x with state := .unbound, quads := [], systolic := false, passes := [], starting := none, sincePass := none }
    mems := g.mems.map fun m => { m with bound := false, engine := none, fetching := [], indices := [], updates := [], pagewait := false, retry := false }
    copies := g.copies.map fun t => { t with engine := none }
    joins := g.joins.map fun j => { j with state := .declared, counts := [], heldSigs := [], sent := [], removed := [] } }) s'

/-- An ACTIVE context that holds no group is READY (R349). -/
def settleCtx (c : Nat) (s : State) : State :=
  let holds := s.graphs.any fun e => e.1 / 256 = c && e.2.groups.any fun g => !g.quads.isEmpty
  if (s.ctx c).state == .active && !holds then s.setCtx c { s.ctx c with state := .ready } else s

/-- The input ports of a kernel that have seen a PUNCT marker, a bit for each by its number (R223). -/
def psOf (x : Tile) (k : Nat) : Nat := ((portsOf x.inPorts k).map fun p => bit p.2.ps * 2 ^ p.2.own).sum

/-- The cupboards, PS bits and address generators of a graph as they stand (R245, R371). -/
def keepCupboards (c slot : Nat) (s : State) : State :=
  let g := graphAt s c slot
  let kept := (List.range g.image.kernels.length).filterMap fun k =>
    (cupboardPlace g k).map fun p => (k, readBytes s.near (nearKey p.1 p.2) (g.image.kernel k).cupboard)
  let gens := g.groups.zipIdx.flatMap fun x => x.1.quads.zipIdx.flatMap fun q => (List.range 4).map fun i =>
    (x.2 * 4096 + q.2 * 4 + i, (s.mtile (memoryOfQuad q.1 i)).gens)
  let ps := (List.range g.image.kernels.length).filterMap fun k =>
    (g.modeNow.listOf k).bind fun l => if g.isHere l.tile then some (k, psOf (s.tile (g.placed.getD l.tile 0)) k) else none
  updGraph c slot (fun g => { g with kept := kept, keptGens := gens, ps := ps }) s

/-- A drain completes when everything is quiescent and past its marker points (R245, R420): the state is kept, the groups are
released, and the graph is IDLE in the mode in force. -/
def completeDrain (c slot : Nat) (s : State) : State :=
  let g := graphAt s c slot
  if g.state == .draining && allQuiet s c slot && !openWork s c slot && pastMarkers s c slot then
    let s := keepCupboards c slot s
    let clear := fun e : Nat × Arc =>
      if isArcOf s c slot e.1 then (e.1, { e.2.cleared with state := if e.2.state == .declared then .declared else .bound }) else e
    let s := dropArrivals c slot { s with arcs := s.arcs.map clear }
    let s := settleCtx c (releaseGroups c slot s)
    let s := updGraph c slot (fun g => { g with
      state := .idle, draining := false, target := g.mode
      lists := g.lists.map fun l => (l.1, .loaded), copies := g.copies.map fun t => { t with marked := false, stopped := false, quiescent := false } }) s
    match g.record with
    | some id => s.soon (.recordFinish c id)
    | none => s
  else s

/-- Steps set for a graph that are void once it is gone. -/
def eventOf (c slot : Nat) (tags : List Nat) : Instr → Bool
  | .graphLoadComplete c' g => c' = c && g = slot
  | .systolicPassStart c' g _ => c' = c && g = slot
  | .systolicPassComplete c' g _ => c' = c && g = slot
  | .graphPlacement c' g => c' = c && g = slot
  | .stagingComplete c' g => c' = c && g = slot
  | .startPulse c' g => c' = c && g = slot
  | .modeRequestArrival c' g _ => c' = c && g = slot
  | .scatterAddUpdate c' g _ => c' = c && g = slot
  | .copyCompletion c' g _ => c' = c && g = slot
  | .joinSignalArrival c' g _ _ => c' = c && g = slot
  | .releaseArrival c' g _ _ => c' = c && g = slot
  | .configReloadComplete c' g _ _ => c' = c && g = slot
  | .scheduledTokenArrival c' t => c' = c && tags.contains t
  | .ringWindowWrite c' t => c' = c && tags.contains t
  | .creditArrival c' t => c' = c && tags.contains t
  | .controlTokenArrival c' t => c' = c && tags.contains t
  | _ => false

/-- A graph is unloaded: everything is released and discarded, the slot is free and its use count advances (R244, R245). -/
def unload (c slot : Nat) (s : State) : State :=
  let g := graphAt s c slot
  let s := if markersInFlight s c slot then failSnap c 6 s else s
  let s := settleCtx c (releaseGroups c slot s)
  let s := { s with arcs := s.arcs.filter fun e => !((e.1 / 4096 = c || e.1 / 4096 = c + 64) && e.2.slot = slot)
                    actors := s.actors.filter fun e => e.1 / 65536 != State.graphKey c slot
                    agenda := s.agenda.filter fun e => !eventOf c slot g.tags e.2
                    graphs := mdel s.graphs (State.graphKey c slot) }
  let x := s.ctx c
  let n := useCount x slot
  s.setCtx c { x with uses := mset x.uses slot (if n = 255 then 1 else n + 1) }

/-- `gunld` (R259). -/
def execGunld (a : BitVec 6) (s : State) : StepResult :=
  onSeq s fun n =>
    let c := curCtx s
    match slotOf s c (readS s a) with
    | none => graphFault n 1 s
    | some g => finish (unload c g (tellRanks c g s))

/-! ## Loading (R246, R247, R259) -/

/-- A slot is taken, with its use count, and the image at an address is validated after a time that the spec leaves open (R259). -/
def takeSlot (c slot use va : Nat) (s : State) : State :=
  let s := s.setCtx c { s.ctx c with uses := mset (s.ctx c).uses slot use }
  (s.setGraph c slot { handle := use * 256 + slot, va := va }).later (.graphLoadComplete c slot)

/-- `gld` (R259): a slot is taken and its handle returned. -/
def execGld (d a b : BitVec 6) (s : State) : StepResult :=
  onSeq s fun n =>
    let c := curCtx s
    let h := (readS s b).toNat
    let free := fun g => (s.graph? c g).isNone
    let take := fun (g use : Nat) (s : State) => finishOpen n d (BitVec.ofNat 64 (use * 256 + g))
      (updGraph c g (fun x => { x with issued := true }) (takeSlot c g use (readS s a).toNat s))
    if 65536 ≤ h then graphFault n 7 s
    else if h ≠ 0 then
      if free (h % 256) && h / 256 ≠ 0 then take (h % 256) (h / 256) s else graphFault n 5 s
    else
      match (List.range 256).find? free with
      | some g => take g (useCount (s.ctx c) g) s
      | none => graphFault n 5 s

/-- Arc tags that are taken in a context: by arcs, and by the member links of joins. -/
def takenTags (s : State) (c : Nat) : List Nat :=
  (s.arcs.filterMap fun e => if e.1 / 4096 = c then some (e.1 % 4096) else none) ++
    (s.graphs.flatMap fun e => if e.1 / 256 = c then e.2.joins.flatMap Join.tags else [])

/-- Consecutive parts of a list of tags, one for each join. -/
def splitTags : List (List End) → List Nat → List (List Nat)
  | [], _ => []
  | j :: js, l => l.take j.length :: splitTags js (l.drop j.length)

/-- A loaded graph: tags, declared arcs and joins, layout (R93, R131, R156, R200, R216). -/
def loadedGraph (g : Graph) (im : Image) (tags : List Nat) : Graph :=
  let lay := match layoutOf im with
    | .ok r => r
    | .error _ => ([], [], [])
  { g with state := .loaded, image := im, load := 0, mode := 0, target := 0
           tags := tags.take im.arcs.length
           layout := lay.1
           cupboards := (List.range im.kernels.length).map fun k => ((lay.2.1.find? fun e => e.1 = k).map Prod.snd).getD 0
           windows := lay.2.2
           groups := im.groups.map fun _ => {}
           mems := im.mems.map fun d => { base := d.base }
           copies := im.copies.map fun _ => {}
           joins := (splitTags im.joins (tags.drop im.arcs.length)).map fun ts => { tags := ts }
           lists := im.modeList.foldl (fun ls m => m.2.lists.foldl (fun ls l => mset ls (listKey m.1 l.tile) .loaded) ls) [] }

/-- Every page of a range is reached by the loader. -/
def loaderReaches (c va n : Nat) (need : Need) (s : State) : PartEnd Unit :=
  partChunks (fun _ => 0) c va need (fun _ _ s => s) ((va % 65536 + n + 65535) / 65536) 0 s

/-- Pass 1 (R247): the pages of an image, of the sequencer code that it holds and of its data in DRAM. -/
def readImage (c va : Nat) (im : Image) (s : State) : PartEnd Unit :=
  let code := im.seqs.foldl (fun r d => r.bind fun _ s => loaderReaches c d.va (8 * d.code.length) .both s) (loaderReaches c va im.bytes .read s)
  im.data.foldl (fun r d => r.bind fun _ s => if d.near.isSome then .ok () s else loaderReaches c d.addr d.bytes.length .write s) code

/-- The check of an image (R246, R247): the load status word, 0 where it passes. The step gives it to the graph when the check
ends, before GRAPH_LOAD_COMPLETE. -/
noncomputable def loadVerdict (c slot : Nat) (s : State) : PartEnd Word :=
  let g := graphAt s c slot
  let unread := ({ code := 6 } : LoadFault).word
  match s.images.find? fun e => e.1 = c && e.2.1 = g.va with
  | none => .ok unread s
  | some e =>
    match readImage c g.va e.2.2 s with
    | .hold c v => .hold c v
    | .fault s => .ok unread s
    | .ok _ s =>
      match loadFault e.2.2 (takenTags s c) (fun r => !liveEntry (mget 0 s.ranks r) || g.peersRefuse.contains r) with
      | some f => .ok f.word s
      | none => .ok 0 s

/-- The data that an image places in DRAM is written there (R92). -/
def writeData (c : Nat) (im : Image) (s : State) : PartEnd Unit :=
  im.data.foldl (fun r d => r.bind fun _ s =>
    if d.near.isSome then .ok () s else partBytes 0 c ((d.addr % 65536 + d.bytes.length + 65535) / 65536) d.addr d.bytes s) (.ok () s)

/-- A declared arc after `gld` (R156): a named queue already stands at its template or at the dispatcher (R184). -/
def loadedArc (slot : Nat) (im : Image) (a : ArcDecl) (i : Nat) : Arc :=
  let x : Arc := { slot := slot, decl := some i, kind := im.arcKind a }
  if a.queue then
    { x with cap := 64, dst := match a.dst with
        | .template c => .copy c
        | .dispatcher => .dispatcher
        | _ => .none }
  else x

/-- GRAPH_LOAD_COMPLETE (R245 to R247): the image passes every check and is LOADED, with its arc tags assigned, or the graph is
FAILED with the status of the first failure. While a page of it is being committed, the loader waits (R387); so does the package that
issued the `gld` until every other package that the invocation names has taken its part (R478). -/
def execGraphLoadComplete (ctx slot : Nat) (s : State) : StepResult :=
  let again : StepResult := .next (s.later (.graphLoadComplete ctx slot))
  match s.graph? ctx slot with
  | none => .next s
  | some g =>
    if g.state != .loading then .next s
    else
      match g.verdict, s.images.find? fun e => e.1 = ctx && e.2.1 = g.va with
      | some 0, some e =>
        let others := (e.2.2.ranks.map Prod.snd).eraseDups
        if g.issued && !g.told then .next ((others.foldl (fun s r => sendItems 0 ctx r 1 s) (updGraph ctx slot (fun g => { g with told := true }) s)).soon (.graphLoadComplete ctx slot))
        else if g.issued && !(others.all g.peersTook.contains) then .next (s.after 1 (.graphLoadComplete ctx slot))
        else
        match writeData ctx e.2.2 s with
        | .hold c v => .next ((copyFirst c v s).later (.graphLoadComplete ctx slot))
        | .fault s => .next (s.setGraph ctx slot { g with state := .failed, load := ({ code := 6 } : LoadFault).word })
        | .ok _ s =>
          let im := e.2.2
          let tags := (assignTags im (takenTags s ctx)).getD []
          let s := s.setGraph ctx slot (loadedGraph g im tags)
          .next (im.arcs.zipIdx.foldl (fun s e => s.setArc (State.arcKey ctx (tags.getD e.2 0)) (loadedArc slot im e.1 e.2)) s)
      | some w, _ => .next (s.setGraph ctx slot { g with state := .failed, load := w })
      | none, _ => again

/-! ## Status (R207, R260) -/

/-- The graph status word. -/
def graphStatus (s : State) (c slot : Nat) (g : Graph) : Word :=
  let stretch := (s.regions.map fun e => if e.1 / 2048 = State.graphKey c slot then e.2.stretch else 0).foldl max 0
  BitVec.ofNat 64 (g.state.code * 2 ^ 60 + g.mode % 8 * 2 ^ 57 + g.target % 8 * 2 ^ 54 + min stretch 65535 * 2 ^ 32 + min g.periods (2 ^ 32 - 1))

/-- Has an engine bound to a region a translation report that is not released: the region's held and frozen cycles count as RSTATE 3
(R389)? -/
def engineHeld (s : State) (k : Nat) (r : Region) : Bool :=
  let c := k / 2048 / 256
  let slot := k / 2048 % 256
  let g := graphAt s c slot
  let bound := fun st : Stream => (st.tileOf s c).any r.tiles.contains
  (g.mems.zipIdx.any fun m => m.1.pagewait && bound (.memActor slot m.2)) || g.copies.zipIdx.any fun t => t.1.pagewait && bound (.copy slot t.2)

/-- Has the halt cycle of a context's HALT or rollback come (R366, R427)? -/
def isHalted (s : State) (c : Nat) : Bool :=
  ((s.ctx c).state == .halting || (s.ctx c).state == .rolling) && (s.ctx c).haltAt.any (· ≤ s.pcyc)

/-- RSTATE as the status word shows it: 4 behind a HALT point (R200), 3 for a cycle of R389. -/
def shownState (s : State) (k : Nat) (r : Region) : Nat :=
  if isHalted s (k / 2048 / 256) then 4 else if (r.rstate = 1 || r.rstate = 2) && engineHeld s k r then 3 else r.rstate

/-- The status word of a region (R207). -/
def regionStatus (s : State) (c slot i : Nat) (g : Graph) : Word :=
  match mfind s.regions (State.regionKey c slot i) with
  | some r => BitVec.ofNat 64 (r.wdog % 65536 * 2 ^ 48 + c % 64 * 2 ^ 42 + g.mode % 8 * 2 ^ 39 + r.phase % 16 * 2 ^ 35 + shownState s (State.regionKey c slot i) r % 8 * 2 ^ 32
      + min r.wcnt (2 ^ 24 - 1) * 2 ^ 8)
  | none =>
    let w := mget (((g.modeNow.regions[i]?).map RegionDecl.wdog).getD 0) g.wdogs (energyKey g.mode i)
    BitVec.ofNat 64 (w % 65536 * 2 ^ 48 + c % 64 * 2 ^ 42 + g.mode % 8 * 2 ^ 39 + 7 * 2 ^ 32)

/-- `gstat` (R260). -/
def execGstat (d a : BitVec 6) (s : State) : StepResult :=
  onSeq s fun n =>
    let c := curCtx s
    let v := (readS s a).toNat
    let sel := bitsOf v 16 16
    if 2 ^ 32 ≤ v then graphFault n 7 s
    else
      match slotOf s c (BitVec.ofNat 64 (v % 65536)) with
      | none => graphFault n 1 s
      | some g =>
        let x := graphAt s c g
        if sel = 0xFFFF then finishOpen n d (graphStatus s c g x) s
        else if sel = 0xFFFE then finishOpen n d x.load s
        else if sel < 256 && sel < x.modeNow.regions.length then finishOpen n d (regionStatus s c g sel x) s
        else graphFault n 7 s

/-- `mstat` (R260). -/
def execMstat (d a : BitVec 6) (s : State) : StepResult :=
  onSeq s fun n =>
    let c := curCtx s
    let v := (readS s a).toNat
    if 2 ^ 32 ≤ v then graphFault n 7 s
    else
      match slotOf s c (BitVec.ofNat 64 (v % 65536)) with
      | none => graphFault n 1 s
      | some g =>
        match (graphAt s c g).mems[bitsOf v 16 16]? with
        | none => graphFault n 7 s
        | some m => finishOpen n d (BitVec.ofNat 64 (m.tokens % 2 ^ 32 * 2 ^ 32 + bit m.pagewait * 4 + bit m.range * 2 + bit m.bound)) s

/-- `gpatch` (R248). -/
def execGpatch (d a : BitVec 6) (tag : BitVec 12) (s : State) : StepResult :=
  onSeq s fun n =>
    let c := curCtx s
    match slotOf s c (readS s a) with
    | none => graphFault n 1 s
    | some g =>
      let x := graphAt s c g
      let ma := match (x.tags.findIdx? (· == tag.toNat)).bind fun i => x.image.arcs[i]? with
        | some e => match e.src, e.dst with
          | .mem m _, _ => some m
          | _, .mem m _ => some m
          | _, _ => none
        | none => none
      match ma with
      | none => graphFault n 4 s
      | some m =>
        if (readS s d).toNat % 64 ≠ 0 then graphFault n 6 s
        else finish (updMem c g m (fun y => { y with patched := some (readS s d).toNat }) s)

/-! ## Spawn (R254, R255) -/

/-- Draws in the order in which the dispatcher serves them: by arrival, then by tile address, then by sequencer number. -/
def insertDraw (s : State) (id : Nat) : List Nat → List Nat
  | [] => [id]
  | x :: l =>
    let key := fun i => match opAt s i with
      | some o => (o.usable, o.cur.unit.code)
      | none => (0, 0)
    let a := key id
    let b := key x
    if a.1 < b.1 || (a.1 = b.1 && a.2 < b.2) then id :: x :: l else x :: insertDraw s id l

/-- A draw is asked for: it reaches the dispatcher after a time that the spec leaves open. -/
def askColour (o : Op) (s : State) : State :=
  let id := s.opCount
  let o := { o with usable := s.pcyc + 1 + Config.freeDelay s.freeCount }
  let s := { s.newOp o with freeCount := s.freeCount + 1 }
  s.setCtx o.ctx { s.ctx o.ctx with draws := insertDraw s id (s.ctx o.ctx).draws }

/-- Is an arc a spawn arc: without a producer, and neither a queue nor a detour (R250)? -/
def isSpawnArc (s : State) (key : Nat) : Bool := (s.arc? key).any fun a =>
  a.kind == .ring && a.decl.any fun i => (s.graph? (key / 4096) a.slot).any fun g =>
    (g.image.arcs[i]?).any (fun d => d.src == .none) && !g.image.detours.contains i

/-- `spawn` (R255). -/
def execSpawn (d a : BitVec 6) (tag : BitVec 12) (s : State) : StepResult :=
  let c := curCtx s
  let key := State.arcKey c tag.toNat
  let arc := (s.arc? key).getD {}
  match s.cur.unit with
  | .tile t =>
    if !arc.canSend then freeze .pushWait 0 tag.toNat s
    else
      let id := s.opCount
      let o := { mkOp s (.colour tag.toNat (BitVec.ofNat 512 (readV s a).toNat)) 0 0 1 with dst := some d.toNat, left := [] }
      let s := askColour o s
      .next (s.setTile t (addPending (s.tile t) 32 (.scalar d.toNat 0) (some id)))
  | .seq n =>
    match (s.seq n).run with
    | .spawn id =>
      match opAt s id with
      | some o =>
        if o.served then passOn n ((s.dropOp id).updSeq n fun q => q.write d.toNat (BitVec.ofNat 64 o.got.toNat) s.pcyc)
        else stay n (.spawn id) s
      | none => passOn n s
    | _ =>
      if !isSpawnArc s key then graphFault n 4 s
      else
        let id := s.opCount
        stay n (.spawn id) (askColour { mkOp s (.colour tag.toNat ((readS s a).setWidth 512)) 0 0 1 with left := [] } s)

/-- The lowest free colour (R254): one returned in this cycle is not yet free. -/
def freeColour (x : Ctx) : Option Nat := (List.range 64).find? fun k => 0 < k && !x.drawn.contains k

/-- Can the dispatcher serve a draw now: it has arrived, a colour is free, and the window takes its token, with no marker before it? -/
def canDraw (s : State) (id : Nat) : Bool :=
  match opAt s id with
  | none => false
  | some o =>
    match o.kind with
    | .colour arc _ =>
      let a := (s.arc? (State.arcKey o.ctx arc)).getD {}
      o.usable ≤ s.pcyc && (freeColour (s.ctx o.ctx)).isSome && a.canSend && !a.stopping
    | _ => false

/-- COLOUR_DRAW (R254, R255): the colour is drawn, its token departs, and the issuer gets the number. -/
def execColourDraw (op : Nat) (s : State) : StepResult :=
  match opAt s op with
  | none => .next s
  | some o =>
    match o.kind, (if canDraw s op then freeColour (s.ctx o.ctx) else none) with
    | .colour arc v, some k =>
      let x := s.ctx o.ctx
      let s := s.setCtx o.ctx { x with drawn := k :: x.drawn, draws := x.draws.filter (· != op) }
      let passed := match o.cur.unit with
        | .tile _ => (s.actor (State.actorKey o.cur.ctx o.cur.slot o.cur.actor)).recorded
        | .seq _ => true
      let s := countColour o.ctx passed k 1 s
      let s := sendToken (State.arcKey o.ctx arc) { kind := .data, tag := arc, colour := k, payload := v } s
      .next (answer op o (wordVec (BitVec.ofNat 64 k)) s.pcyc s)
    | _, _ => .next s

/-! ## `carm` (R258) -/

/-- `carm` (R258). It reads its descriptor behind the sequencer's earlier accesses (R116). -/
def execCarm (a : BitVec 6) (tag : BitVec 12) (s : State) : StepResult :=
  onSeq s fun n =>
    let c := curCtx s
    let key := State.arcKey c tag.toNat
    match (s.arc? key).bind templateOf with
    | none => graphFault n 4 s
    | some (slot, t) =>
      let g := graphAt s c slot
      let va := (readS s a).toNat
      if va = 0 then finish (updCopy c slot t (declaredTemplate g t) s)
      else if va % 32 ≠ 0 then .next (ownFault n Code.align (BitVec.ofNat 64 va) s)
      else if openOps s n Op.isDram then stay n .carm s
      else seqAccess n va .read s fun pa _ s =>
        if let some die := underTest s pa then .next (holdRequest die (.seq n) (s.updSeq n fun q => { q with run := .carm, ready := s.pcyc + 1 }))
        else
        let d := readLE s.mem pa 32
        let src := bitsOf d 0 64
        let dst := bitsOf d 64 64
        let words := bitsOf d 128 32
        let quad := ((g.image.copies[t]?).bind fun x => g.image.tileOf x.actor).map g.image.quadOf
        if badEndpoint g.layout quad src words || badEndpoint g.layout quad dst words || 16777216 < words then graphFault n 6 s
        else passOn n (updCopy c slot t (fun x => { x with armed := words != 0, src := src, dst := dst, words := words }) s)

/-! ## The state of a group (R200) -/

/-- The state of a root group: FROZEN from the halt cycle of a HALT and while a configuration is reloaded, FAULTED while a tile of it
has a report that no `tret` has released, QUIESCENT when it drains and all of it is at rest; else the state that it keeps. -/
def groupState (s : State) (c slot i : Nat) : GroupState :=
  let g := graphAt s c slot
  let x := g.groups.getD i {}
  let rs := s.regions.filter fun e => e.1 / 2048 = State.graphKey c slot && e.2.tiles.any fun t => x.quads.contains (quadOfPos t)
  if !(x.state == .running || x.state == .draining) then x.state
  else if isHalted s c || rs.any (fun e => e.2.reloading) then .frozen
  else if rs.any fun e => e.2.tiles.any fun t => !(s.tile t).reports.isEmpty then .faulted
  else if x.state == .draining && allQuiet s c slot && (residueArc s c slot).isNone then .quiescent
  else x.state

end Sys2Proof.Machine
end

