-- ==== Sys2Proof/Machine/Launch.lean ====
section
/-! DEFINITION. Launch records and the dependence walk (R263, R264), and the energy allowance (R266 to R268, R486, R487). -/

namespace Sys2Proof.Machine

/-! ## Reading records (R263) -/

/-- Number of records of a submission ring (R348). -/
def Ctx.ringSize (x : Ctx) : Nat := 2 ^ (x.rlog + 6)
/-- The virtual address of the next record to read. -/
def Ctx.recordVa (x : Ctx) : Nat := x.ringBase + x.readPtr % x.ringSize * 64
/-- Tokens of the host arc give the new tail; a doorbell also lets a stopped ring go on (R263). -/
def takeTail (c : Nat) (s : State) : State :=
  let x := s.ctx c
  match x.hostArc.getLast? with
  | some v => s.setCtx c { x with hostArc := [], tail := v % 2 ^ 32, ringStop := false }
  | none => s

/-- May the dispatcher read a record of a context: one is there, fewer than 4,096 are unfinished, and the context is one whose
launches are admitted (R263, R264, R349)? -/
def Ctx.canRead (x : Ctx) : Bool :=
  x.readPtr != x.tail && !x.ringStop && x.records.length < 4096 && (x.state == .ready || x.state == .active)

/-- A record from its 64 bytes (R263). -/
def parseRecord (w now : Nat) : LaunchRec :=
  { id := bitsOf w 48 16, kind := bitsOf w 0 4, irq := bitOf w 8, lat := bitOf w 7, prio := bitsOf w 4 3, mode := bitsOf w 32 3
    preds := bitsOf w 40 8, handle := bitsOf w 64 64, count := bitsOf w 128 64, arg := BitVec.ofNat 64 (bitsOf w 192 64)
    succ := (List.range 8).map fun n => bitsOf w (256 + 16 * n) 16, readySince := now }

/-- Is a record FAILED as read: reserved bits, a reserved kind, an identifier in use or 0xFFFF, or a latency class that the
context may not use (R264, R348)? -/
def recordBad (x : Ctx) (w : Nat) (r : LaunchRec) : Bool :=
  bitsOf w 384 128 != 0 || bitsOf w 35 5 != 0 || bitsOf w 9 23 != 0 || 5 ≤ r.kind || r.id = 0xFFFF
    || x.records.any (fun q => q.id = r.id) || (r.lat && !x.latok)

/-- A record that has been read, with the decrements kept for it (R264). -/
def takeRecord (c w : Nat) (s : State) : State :=
  let x := s.ctx c
  let r := parseRecord w s.pcyc
  let bad := recordBad x w r
  let r := { r with preds := r.preds - mget 0 x.kept r.id, failed := bad }
  let s := s.setCtx c { x with readPtr := (x.readPtr + 1) % 2 ^ 32, records := x.records ++ [r], kept := if bad then x.kept else mdel x.kept r.id }
  if bad then s.tellOpen c Code.launch r.id none else s

/-- LAUNCH_RECORD_READ (R263, R264): one record is read, the only one of the package in its cycle, through the engine of die 0 as the
context's own stream; a translation fault or an error that its retry does not mend stops the ring. -/
def execLaunchRecordRead (ctx : Nat) (s : State) : StepResult :=
  let x := s.ctx ctx
  let va := x.recordVa
  if !x.canRead || isWalking s ctx .ring then .next s
  else if s.recordAt = some s.pcyc then .next (s.after 1 (.launchRecordRead ctx))
  else if 2 ^ 56 ≤ va then .next (stopRing ctx va s)
  else
    match translate 0 ctx va .read false s with
    | .miss s => .next (startWalk 0 ctx va .ring none s)
    | .denied => .next (stopRing ctx va s)
    | .ok pa _ s =>
      if let some d := underTest s pa then .next (holdRequest d (.event (.launchRecordRead ctx)) s)
      else if x.ringBad then .next (stopRing ctx va (s.logError ((dieOfPa s pa).getD 0) 2 2 pa))
      else .next { takeRecord ctx (readLE s.mem pa 64) s with recordAt := some s.pcyc }

/-! ## Records that act and finish (R264) -/

/-- An unfinished record that has not failed. -/
def recordAt (s : State) (c id : Nat) : Option LaunchRec := (s.ctx c).records.find? fun r => r.id = id && !r.failed
/-- A record changed. -/
def updRecord (c id : Nat) (f : LaunchRec → LaunchRec) (s : State) : State :=
  s.setCtx c { s.ctx c with records := (s.ctx c).records.map fun r => if r.id = id && !r.failed then f r else r }

/-- Is a record ready, and its graph not LOADING (R264)? -/
def recordReady (s : State) (c : Nat) (r : LaunchRec) : Bool :=
  r.preds = 0 && !r.acting && !r.failed &&
    (if r.kind = 0 || r.kind = 2 then
      match slotOf s c (BitVec.ofNat 64 r.handle) with
      | some g => (graphAt s c g).state != .loading
      | none => true
    else true)

/-- The step by which a ready record acts. -/
def recordStep (c : Nat) (r : LaunchRec) : Instr :=
  match r.kind with
  | 0 => .recordRun c r.id
  | 1 => .recordKick c r.id
  | 2 => .recordMode c r.id
  | 3 => .recordNote c r.id
  | _ => .recordUnload c r.id

/-- A ready record as the dispatcher orders it: by its priority, class and age, as a waiting graph (R265). -/
def LaunchRec.asGraph (r : LaunchRec) : Graph := { prio := r.prio, lat := r.lat, since := r.readySince }

/-- A record in its place among the ready ones, behind its equals. -/
def putReady (now : Nat) (b : Nat × LaunchRec) : List (Nat × LaunchRec) → List (Nat × LaunchRec)
  | [] => [b]
  | c :: l => if b.2.asGraph.precedes c.2.asGraph now then b :: c :: l else c :: putReady now b l

/-- The ready list of the package: contexts with their ready records, in decreasing effective priority, older ones first (R265). -/
def readyList (s : State) : List (Nat × LaunchRec) :=
  (s.ctxs.flatMap fun e =>
    if ctxOpen s e.1 then (e.2.records.filter (recordReady s e.1)).map fun r => (e.1, r) else []).foldl (fun l b => putReady s.pcyc b l) []

/-- RECORD_RUN (R264): `setmode`, then `gact`; what GRAPH would refuse makes the record FAILED: a `gact` refused takes nothing of the
`setmode` before it back. -/
def execRecordRun (ctx id : Nat) (s : State) : StepResult :=
  match recordAt s ctx id with
  | none => .next s
  | some r =>
    match slotOf s ctx (BitVec.ofNat 64 r.handle) with
    | none => .next (failRecord ctx id s)
    | some g =>
      let x := graphAt s ctx g
      if !x.state.takesMode || (x.image.mode? r.mode).isNone then .next (failRecord ctx id s)
      else if !(x.state == .loaded || x.state == .idle) then .next (failRecord ctx id (requestMode ctx g r.mode s))
      else .next (activate ctx g r.prio r.lat r.readySince (some id) r.count
        (requestMode ctx g r.mode (updRecord ctx id (fun r => { r with acting := true }) s)))

/-- RECORD_KICK (R264): `ckick` with ARG; a full window makes it wait. On the host arc (tag 4,095) it is a doorbell as `ckick` there is, and the
record never finishes, since no firing answers it. -/
def execRecordKick (ctx id : Nat) (s : State) : StepResult :=
  match recordAt s ctx id with
  | none => .next s
  | some r =>
    let tag := r.handle % 4096
    let key := State.arcKey ctx tag
    if tag = 4095 then
      if (s.ctx ctx).hostArc.length < 64 then
        .next (updRecord ctx id (fun r => { r with acting := true, place := 0 }) (s.setCtx ctx { s.ctx ctx with hostArc := (s.ctx ctx).hostArc ++ [r.arg.toNat % 2 ^ 32] }))
      else .next s
    else
    match s.arc? key with
    | none => .next (failRecord ctx id s)
    | some a =>
      if a.kind != .queue then .next (failRecord ctx id s)
      else if !a.canSend then .next s
      else
        let s := sendToken key { kind := .data, tag := tag, payload := r.arg.setWidth 512 } s
        .next (updRecord ctx id (fun r => { r with acting := true, place := a.sent + 1 }) s)

/-- RECORD_MODE (R264): `setmode`; it finishes at the start pulse. -/
def execRecordMode (ctx id : Nat) (s : State) : StepResult :=
  match recordAt s ctx id with
  | none => .next s
  | some r =>
    match slotOf s ctx (BitVec.ofNat 64 r.handle) with
    | none => .next (failRecord ctx id s)
    | some g =>
      let x := graphAt s ctx g
      if !x.state.takesMode || (x.image.mode? r.mode).isNone then .next (failRecord ctx id s)
      else .next (requestMode ctx g r.mode (updRecord ctx id (fun r => { r with acting := true }) s))

/-- RECORD_NOTE (R264): it finishes at once. -/
def execRecordNote (ctx id : Nat) (s : State) : StepResult :=
  match recordAt s ctx id with
  | none => .next s
  | some _ => .next ((updRecord ctx id (fun r => { r with acting := true }) s).soon (.recordFinish ctx id))

/-- RECORD_UNLOAD (R264): `gunld`; it finishes at once. -/
def execRecordUnload (ctx id : Nat) (s : State) : StepResult :=
  match recordAt s ctx id with
  | none => .next s
  | some r =>
    match slotOf s ctx (BitVec.ofNat 64 r.handle) with
    | none => .next (failRecord ctx id s)
    | some g => .next ((unload ctx g (updRecord ctx id (fun r => { r with acting := true }) s)).soon (.recordFinish ctx id))

/-- One predecessor less for a successor: in its record, or kept for it (R264). -/
def countDown (c id : Nat) (s : State) : State :=
  let x := s.ctx c
  if id = 0xFFFF then s
  else if x.records.any fun r => r.id = id && !r.failed then
    updRecord c id (fun r => { r with preds := r.preds - 1, readySince := if r.preds = 1 then s.pcyc else r.readySince }) s
  else s.setCtx c { x with kept := mset x.kept id (mget 0 x.kept id + 1) }

/-- RECORD_FINISH (R264): the successors are counted down, and a record with IRQ tells the host. -/
def execRecordFinish (ctx id : Nat) (s : State) : StepResult :=
  match recordAt s ctx id with
  | none => .next s
  | some r =>
    let x := s.ctx ctx
    let s := s.setCtx ctx { x with records := x.records.filter fun q => q.id != id || q.failed }
    let s := r.succ.foldl (fun s i => countDown ctx i s) s
    .next (if r.irq then s.tellOpen ctx Code.done id (some 0) else s)

/-! ## The allowance (R268) -/

/-- The graphs with a region on a die, of a class. -/
def graphsOn (s : State) (d : Nat) (lat : Bool) : List (Nat × Graph) :=
  s.graphs.filter fun e => e.2.lat = lat && s.regions.any fun r => r.1 / 2048 = e.1 && r.2.tiles.any fun t => dieOfPos t = d

/-- A non-negative rational rounded up. -/
def ceilRat (x : Rat) : Nat := x.ceil.toNat

/-- The stretch of R268 for a region, given f. -/
def stretchFor (f : Rat) (r : Region) : Nat :=
  if f ≤ 1 || r.phases.isEmpty then 0 else min 65535 (ceilRat ((f - 1) * (periodOf r.phases : Nat) / (r.phases.length : Nat)))

/-- Power on a die without stretch, of one class. -/
def classPower (s : State) (d : Nat) (lat : Bool) : Rat :=
  (s.regions.map fun e =>
    match mfind s.graphs (e.1 / 2048) with
    | some g => if g.lat = lat then powerOf e.2.counted (periodOf e.2.phases) * dieShare e.2.tiles d else 0
    | none => 0).sum

/-- The stretch that a die asks of a region of a class (R268): none while its resident power keeps the allowance, the
largest with no allowance at all (R487). -/
def dieStretch (s : State) (d : Nat) (lat : Bool) (r : Region) : Nat :=
  let a : Rat := ((s.die d).allow : Nat)
  let lp := classPower s d true
  let np := classPower s d false
  if !(r.tiles.any fun t => dieOfPos t = d) then 0
  else if a = 0 then 65535
  else if lp + np ≤ a then 0
  else if lat then
    if lp ≤ a then 0 else stretchFor (lp / a) r
  else if a - lp ≤ 0 then 65535
  else stretchFor (np / (a - lp)) r

/-- The dispatcher's answer to an allowance (R268): fallback modes where the power exceeds it, then the stretch of every region,
the largest of what its dies ask. -/
def applyAllowance (d : Nat) (s : State) : State :=
  let a : Rat := ((s.die d).allow : Nat)
  let above := decide (a < classPower s d true + classPower s d false)
  let s := if above then (graphsOn s d false).foldl (fun s e =>
      match e.2.modeNow.fallback with
      | some m => if e.2.mode != m && e.2.target != m && (e.2.state == .running || e.2.state == .changing) then requestMode (e.1 / 256) (e.1 % 256) m s else s
      | none => s) s else s
  { s with regions := s.regions.map fun e =>
      (e.1, match mfind s.graphs (e.1 / 2048) with
        | some g => { e.2 with stretch := ((List.range 12).map fun k => dieStretch s k g.lat e.2).foldl max 0 }
        | none => e.2) }

end Sys2Proof.Machine
end

