-- ==== Sys2Proof/Machine/Link.lean ====
section
/-! DEFINITION. Die boundaries (R430), package links and their frames (R431 to R441, R501), remote atomics (R443 to R445), and
the rank table with lost packages (R446 to R448). -/

namespace Sys2Proof.Machine

/-! ## Reports of links (R441) -/

/-- `TINFO` of LINK. -/
def linkInfo (rank n why : Nat) : Word := BitVec.ofNat 64 (rank % 64 * 2 ^ 17 + n % 32 * 2 ^ 12 + why % 16)

/-- The rank that a link reaches. -/
def rankOfLink (s : State) (n : Nat) : Nat :=
  ((s.ranks.find? fun e => liveEntry e.2 && bitOf e.2.toNat n).map Prod.fst).getD 0

/-- A report of class R of a region, at its lowest tile address (R356). -/
def regionReport (k code : Nat) (info : Word) (s : State) : State :=
  match mfind s.regions k with
  | none => s
  | some r =>
    let t := r.tiles.foldl min 4095
    tileReport t { code := code, info := info, loc := s.tileLoc t r.phase (s.tile t).pos r.cyc } s

/-- The region of this package that holds an end of an arc. -/
def Arc.localRegion (s : State) (a : Arc) : Option Nat :=
  match a.src, a.dst with
  | .tile t _, _ => (s.tile t).region
  | _, .tile t _ => (s.tile t).region
  | .tileCx t _, _ => (s.tile t).region
  | _, .tileCx t _ => (s.tile t).region
  | _, _ => none

/-- Regions that own a slot on a link. -/
def regionsOnLink (s : State) (n : Nat) : List Nat :=
  (((s.link n).owners ++ (s.link n).ownersIn).filterMap fun o => (s.arc? o.2).bind (Arc.localRegion s)).eraseDups

/-- LINK for a `ramo` in flight (R439, R441): in a region it is a report; a sequencer takes it as its own fault, with `TEPC` at the `ramo`,
which its `tret` reissues. One that has gone on behind the `ramo` takes it at its next boundary (`atRamo`). -/
def ramoFault (id : Nat) (o : Op) (info : Word) (s : State) : State :=
  match o.cur.unit with
  | .tile t =>
    match (s.tile t).region with
    | some k => regionReport k Code.link info s
    | none => s
  | .seq n =>
    if (s.seq n).pc = o.pc + 8 && (s.seq n).waits.any fun w => w.2 = id then
      ownFault n Code.link info ((s.dropOp id).updSeq n fun q =>
        { q with pc := o.pc, run := .run, waits := q.waits.filter fun w => w.2 != id })
    else completionFault id Code.link info s

/-- The `ramo` in flight over the links for which `f` holds. -/
def ramosOver (s : State) (f : Nat → Nat → Bool) : List (Nat × Op) :=
  s.ops.filter fun e => match e.2.kind with
    | .remote _ _ _ r l => l != ownLink && f r l && !e.2.served && !e.2.refused
    | _ => false

/-- A package event of a link (R455). -/
def linkEvent (n : Nat) (info : Option Word) (s : State) : State := s.tellPackageOpen Code.link n info

/-- A lasting failure of an UP link (R439). -/
def degrade (n why : Nat) (s : State) : State :=
  let x := s.link n
  if x.state != .up then s
  else
    let info := linkInfo (rankOfLink s n) n why
    let s := s.setLink n { x with state := .degraded, last := min 65535 (x.last + 1) }
    let s := s.logError (dieOfPos (linkPort n)) 7 2 n
    let s := (regionsOnLink s n).foldl (fun s k => regionReport k Code.link info s) s
    let s := (ramosOver s fun _ l => l = n).foldl (fun s e => ramoFault e.1 e.2 info s) s
    linkEvent n (some info) s

/-! ## Frames out (R432, R433, R437, R438) -/

/-- Frame of the round that begins in this cycle, if one does (R432). -/
def frameNow (s : State) : Option Nat := if s.pcyc % 4 = 0 then some (s.pcyc / 4 % 8) else none

/-- The place of a frame in its round, where frame `base` begins one (R432). -/
def frameIndex (base fseq : Nat) : Nat := (fseq + 65536 - base % 65536) % 8

/-- Does the die of a link's port run: is it powered, with its clock (R488, R492)? -/
def portRuns (s : State) (n : Nat) : Bool :=
  let d := s.die (dieOfPos (linkPort n))
  !d.clockStopped && !d.dieOff

/-- May a link send a frame now: it is UP, its first frame has started a round, and a frame begins? -/
def wantsFrame (s : State) (n : Nat) : Bool :=
  let x := s.link n
  x.state == .up && portRuns s n && decide (x.startAt ≤ s.pcyc) && (frameNow s == some (frameIndex x.baseOut x.fseqOut))

/-- The tokens of the owned slots of frame `k` (R433): each slot takes the oldest token of its arc that has reached the port. -/
def fillSlots (now k : Nat) (x : Link) : Link × List (Nat × Token) :=
  (List.range 7).foldl (fun r j =>
    match mfind r.1.owners (7 * k + j) with
    | none => r
    | some key =>
      match r.1.out.find? fun t => t.1 = key with
      | some t => if t.2.1 ≤ now then ({ r.1 with out := r.1.out.erase t }, r.2 ++ [(j, t.2.2)]) else r
      | none => r) (x, [])

/-- The class by which dynamic items are served: management, `ramo`, the rest (R437). -/
def DynItem.group (i : DynItem) : Nat := if i.cls = 0 then 0 else if i.cls ≤ 2 then 1 else 2

/-- The next dynamic item: of the first class that has one, the oldest of the context next in turn (R437). -/
def nextItem (x : Link) : Option DynItem :=
  (List.range 3).findSome? fun g =>
    let mine := x.itemsOut.filter fun i => i.group = g
    let turn := mget 63 x.served g
    (List.range 64).findSome? fun d => mine.find? fun i => i.ctx = (turn + 1 + d) % 64

/-- Up to `m` dynamic items leave the queue. -/
def takeItems (x : Link) : Nat → Link × List DynItem
  | 0 => (x, [])
  | m + 1 =>
    match nextItem x with
    | none => (x, [])
    | some i =>
      let r := takeItems { x with itemsOut := x.itemsOut.erase i, served := mset x.served i.group i.ctx } m
      (r.1, i :: r.2)

/-- Slots of frame `k` that no arc owns; all of them in an idle retry frame. -/
def openSlots (k : Nat) (x : Link) : List Nat :=
  if k = 7 then List.range 7 else (List.range 7).filter fun j => (mfind x.owners (7 * k + j)).isNone

/-! ### The bytes of a frame (R150, R432, R501) -/

/-- The number of a kind of token (R151). -/
def TokKind.code : TokKind → Nat
  | .data => 0
  | .punct => 1
  | .mode => 2
  | .snap => 3
  | .drain => 4
  | .order => 5
  | .ctrl => 6

/-- The 68 bytes of a token: its header, then its payload. -/
def Token.slot (t : Token) : Nat :=
  t.tag % 4096 * 2 ^ 20 + t.colour % 64 * 2 ^ 14 + t.fmt % 8 * 2 ^ 11 + t.kind.code * 2 ^ 8 + t.lseq % 256 + t.payload.toNat * 2 ^ 32

/-- The 68 bytes of a dynamic item. Classes 0 and 3 have a layout of the part's own behind the header, which is left open (log 9). -/
def DynItem.slot (i : DynItem) (k : Nat) : Nat :=
  i.cls % 16 * 2 ^ 28 + i.ctx % 64 * 2 ^ 22 + i.rank % 64 * 2 ^ 16 + i.itag % 65536 +
    (if i.cls = 1 ∨ i.cls = 2 then
      i.a.toNat * 2 ^ 32 + i.b.toNat * 2 ^ 96 + i.c.toNat * 2 ^ 128 + i.sub % 256 * 2 ^ 160 + i.ft % 8 * 2 ^ 168
    else (Config.freeItem k).toNat * 2 ^ 32)

/-- `m` bits from bit `k` on enter a CRC-64. -/
def crcBits (n : Nat) : Nat → Nat → Nat → Nat
  | 0, _, c => c
  | m + 1, k, c =>
    let shifted := c % 2 ^ 63 * 2
    bif bitOf n (k / 8 * 8 + (7 - k % 8)) == bitOf c 63 then crcBits n m (k + 1) shifted
    else crcBits n m (k + 1) (shifted ^^^ 0x42F0E1EBA9EA3693)

/-- CRC-64 of the low `bytes` bytes of a number, each taken from its most significant bit. R432 gives the polynomial; the initial value
0, the order of the bits, and no inversion at the end are those of ECMA-182 (PRESUMED, log 79). -/
def crc64 (bytes n : Nat) : Nat := crcBits n (8 * bytes) 0 0

/-- The bytes that the CRC of a frame covers. -/
def Frame.covered (f : Frame) (k : Nat) : Nat :=
  f.fseq % 65536 * 2 ^ 48 + (match f.nak with
      | some g => g % 65536 * 2 ^ 32 + 2 ^ 31
      | none => 0) +
    (f.tokens.map fun t => 2 ^ (24 + t.1) + t.2.slot * 2 ^ (64 + 544 * t.1)).sum +
    (f.items.map fun i => 2 ^ (24 + i.1) + 2 ^ (17 + i.1) + i.2.slot k * 2 ^ (64 + 544 * i.1)).sum +
    (f.pubs.zipIdx.map fun p => (2 ^ 31 + p.1.1 % 4096 * 2 ^ 16 + p.1.2 % 65536) * 2 ^ (3872 + 32 * p.2)).sum

/-- The 500 bytes of a frame. -/
def Frame.bytes (f : Frame) (k : Nat) : Nat := f.covered k + crc64 492 (f.covered k) * 2 ^ 3936

/-- Does a frame pass its check (R438)? -/
def frameChecks (body : Nat) : Bool := crc64 492 body = bitsOf body 3936 64

/-- A frame departs: its bytes stand on the link, and the NAK that it carries awaits the resend that it asks for. -/
def sendFrame (n : Nat) (f : Frame) (s : State) : State :=
  let x := s.link n
  let s := s.setLink n { x with
    wire := f.bytes s.freeCount, fseqOut := (x.fseqOut + 1) % 65536, naksDue := x.naksDue.drop 1, nakked := x.nakked ++ x.naksDue.take 1 }
  { s with freeCount := s.freeCount + 1 }

/-- FRAME_SEND (R432, R433, R437): tokens in their slots, dynamic items in the others, two publications, one NAK; dynamic items alone in an
idle retry frame; they fill the lowest open slots (log 79). -/
def execFrameSend (link : Nat) (s : State) : StepResult :=
  if !wantsFrame s link then .next s
  else
    let x := s.link link
    let k := frameIndex x.baseOut x.fseqOut
    let r := if k = 7 then (x, []) else fillSlots s.pcyc k x
    let d := takeItems r.1 (openSlots k x).length
    let pubs := if k = 7 then [] else (d.1.pubsOut.filter fun p => p.2.1 ≤ s.pcyc).take 2
    let f : Frame := { fseq := x.fseqOut, tokens := r.2, items := (openSlots k x).zip d.2, pubs := pubs.map fun p => (p.1 % 4096, p.2.2 % 65536)
                       nak := x.naksDue.head? }
    .next (sendFrame link f (s.setLink link { d.1 with
      pubsOut := pubs.foldl (fun l p => l.erase p) d.1.pubsOut
      sent := (d.1.sent ++ [f]).drop (d.1.sent.length + 1 - 1024) }))

/-- FRAME_RESEND (R438): the retry frame carries the oldest frame named by a NAK, and the NAK that is due. -/
def execFrameResend (link : Nat) (s : State) : StepResult :=
  let x := s.link link
  match x.resends with
  | [] => .next s
  | f :: rest =>
    if wantsFrame s link && frameIndex x.baseOut x.fseqOut = 7 then
      match x.sent.find? fun g => g.fseq = f with
      | none => .next (s.setLink link { x with resends := rest, fseqOut := (x.fseqOut + 1) % 65536 })
      | some g => .next (sendFrame link { g with nak := x.naksDue.head? } (s.setLink link { x with resends := rest }))
    else .next s

/-! ## Frames in (R434, R436 to R438) -/

/-- A kind of token by its number (R151); ORDER stands for the reserved one too. -/
def kindOf (n : Nat) : TokKind :=
  match n with
  | 0 => .data
  | 1 => .punct
  | 2 => .mode
  | 3 => .snap
  | 4 => .drain
  | 6 => .ctrl
  | _ => .order

/-- The token in the 68 bytes of a slot (R150, R432). -/
def tokenOf (n : Nat) : Token :=
  { tag := bitsOf n 20 12, colour := bitsOf n 14 6, fmt := bitsOf n 11 3, kind := kindOf (bitsOf n 8 3), lseq := bitsOf n 0 8
    payload := BitVec.ofNat 512 (bitsOf n 32 512) }

/-- The dynamic item in the 68 bytes of a slot (R501). -/
def itemOf (n : Nat) : DynItem :=
  { cls := bitsOf n 28 4, ctx := bitsOf n 22 6, rank := bitsOf n 16 6, itag := bitsOf n 0 16, a := BitVec.ofNat 64 (bitsOf n 32 64)
    b := BitVec.ofNat 32 (bitsOf n 96 32), c := BitVec.ofNat 32 (bitsOf n 128 32), sub := bitsOf n 160 8, ft := bitsOf n 168 3 }

/-- A frame from its 500 bytes (R432). -/
def frameOf (n : Nat) : Frame :=
  let slot := fun j => bitsOf n (64 + 544 * j) 544
  let occ := fun j => bitOf n (24 + j)
  let dyn := fun j => bitOf n (17 + j)
  { fseq := bitsOf n 48 16
    tokens := (List.range 7).filterMap fun j => if occ j && !dyn j then some (j, tokenOf (slot j)) else none
    items := (List.range 7).filterMap fun j => if dyn j then some (j, itemOf (slot j)) else none
    pubs := (List.range 2).filterMap fun j =>
      let p := bitsOf n (3872 + 32 * j) 32
      if bitOf p 31 then some (bitsOf p 16 12, bitsOf p 0 16) else none
    nak := if bitOf n 31 then some (bitsOf n 32 16) else none }

/-- `TINFO` of SLOT for a token of slot `j` of a round on package link `n` (R205). -/
def linkSlotInfo (n j owner tag : Nat) : Word :=
  BitVec.ofNat 64 (4 * 2 ^ 48 + n * 2 ^ 32 + j * 2 ^ 24 + owner % 4096 * 2 ^ 12 + tag % 4096)

/-- A token of slot `j` of a round, at the receiving port: one with its owner's tag goes on to its window, or degrades the link where
its LSEQ does not follow; one with another tag waits and freezes the region that holds the arc's end (R205, R433, R436). -/
def acceptToken (n j : Nat) (tok : Token) (s : State) : State :=
  match (mfind (s.link n).ownersIn j).bind fun key => (s.arc? key).map fun a => (key, a) with
  | none => s
  | some (key, a) =>
    if (s.link n).strays.any (fun e => e.1 = j) || tok.tag ≠ key % 4096 then
      let s := s.setLink n { s.link n with strays := (s.link n).strays ++ [(j, tok)] }
      match a.localRegion s with
      | some k => if tok.tag = key % 4096 then s else laneMismatch k (linkSlotInfo n j key tok.tag) s
      | none => s
    else if tok.lseq ≠ a.lseqIn then degrade n 1 s
    else
      let s := s.setArc key { a with lseqIn := (a.lseqIn + 1) % 256, transit := a.transit ++ [{ tok with lseq := 0 }], sent := a.sent + bit tok.spends }
      let d := portTime ((a.home.orElse fun _ => a.dst.pos).getD (linkPort n)) n
      match a.dst with
      | .seq _ _ => s.after d (.controlTokenArrival (key / 4096) (key % 4096))
      | _ => s.after d (.ringWindowWrite (key / 4096) (key % 4096))

/-- The tokens that wait at the ports of package links are tried again (R205). -/
def retryStrays (s : State) : State :=
  s.links.foldl (fun s e =>
    e.2.strays.foldl (fun s t => acceptToken e.1 t.1 t.2 s) (s.setLink e.1 { s.link e.1 with strays := [] })) s

/-- A delivered publication (R437): the pointer of the arc with that tag that owns a slot of the link. -/
def acceptPointer (n tag p : Nat) (s : State) : State :=
  match (s.link n).owners.find? fun o => o.2 % 4096 = tag with
  | none => s
  | some o =>
    match s.arc? o.2 with
    | none => s
    | some a =>
      let base := (a.pubs.getLast?).getD a.seen
      let full := base + (p + 65536 - base % 65536) % 65536
      (s.setArc o.2 { a with pubs := a.pubs ++ [full] }).after (portTime (a.src.pos.getD (linkPort n)) n + 1) (.creditArrival (o.2 / 4096) tag)

/-- A reply to a `ramo` of this package: its value or its refusal is there, and travels on to the issuer (R444). -/
def acceptReply (n : Nat) (i : DynItem) (s : State) : State :=
  match (s.link n).inFlight.find? fun e => e.1 = i.itag with
  | none => s
  | some e =>
    let s := s.setLink n { s.link n with inFlight := (s.link n).inFlight.erase e }
    match opAt s e.2 with
    | none => s
    | some o =>
      match o.kind with
      | .remote sub _ _ _ _ =>
        (setOp e.2 { o with got := wordVec (atomicOld sub (i.a.setWidth 32)), refused := i.b.toNat % 2 = 1, left := [] } s).later (.ramoReply e.2)
      | _ => s

/-- A dynamic item (R437, R501). Those of classes 0 and 3 are the part's own (log 9). -/
def acceptItem (n : Nat) (s : State) (i : DynItem) : State :=
  if i.cls = 1 then (s.setLink n { s.link n with itemsIn := (s.link n).itemsIn ++ [i] }).later (.ramoInvocationArrival n)
  else if i.cls = 2 then acceptReply n i s
  else s

/-- The age of a frame number before `next`, as a sending order. -/
def frameAge (next f : Nat) : Nat := (next + 65536 - f) % 65536

/-- A frame number enters the resends, oldest first (R438). -/
def insertResend (next f : Nat) : List Nat → List Nat
  | [] => [f]
  | g :: l => if frameAge next g < frameAge next f then f :: g :: l else g :: insertResend next f l

/-- A frame is delivered: NAK, publications, dynamic items and tokens. -/
def deliverFrame (n : Nat) (f : Frame) (s : State) : State :=
  let s := s.setLink n { s.link n with fseqIn := (f.fseq + 1) % 65536 }
  let s := match f.nak with
    | some g => s.setLink n { s.link n with resends := insertResend (s.link n).fseqOut g (s.link n).resends }
    | none => s
  let s := f.pubs.foldl (fun s p => acceptPointer n p.1 p.2 s) s
  let s := f.items.foldl (fun s i => acceptItem n s i.2) s
  f.tokens.foldl (fun s t => acceptToken n (7 * frameIndex (s.link n).baseIn f.fseq + t.1) t.2 s) s

/-- A held frame in its place (R438). -/
def insertFrame (base : Nat) (f : Frame) : List Frame → List Frame
  | [] => [f]
  | g :: l => if frameAge f.fseq base < frameAge g.fseq base then f :: g :: l else g :: insertFrame base f l

/-- A port learns from the place of a frame in its round, F cycles ago, which numbers begin a round there (R432, R434). A retry frame may be
a resend, and tells nothing. -/
def Link.placed (now fseq : Nat) (x : Link) : Link :=
  let k := (now + 31 * x.f) / 4 % 8
  if k = 7 then x else { x with baseIn := (fseq + 8 - k) % 8 }

/-- The bytes of a frame as they come in: `flip` counts from 1 a bit that the way has inverted; 0 is none. -/
def arrived (flip body : Nat) : Nat := if flip = 0 then body else body ^^^ 2 ^ (flip - 1)

/-- FRAME_DELIVERY (R434, R438): the 500 bytes of a frame come in, F cycles after its first cycle; `fseq` is the number that its time gives
it, by which a frame that fails its check is named. It is held for and named by a NAK; a failing resend is a lasting failure. -/
def execFrameDelivery (link fseq flip sent : Nat) (s : State) : StepResult :=
  let x := s.link link
  let body := arrived flip sent
  if x.state != .up || !portRuns s link then .next s
  else if s.pcyc % 4 ≠ x.f % 4 then .next (s.after 1 (.frameDelivery link fseq flip sent))
  else if !frameChecks body then
    if x.nakked.contains fseq then .next (degrade link 0 s)
    else .next (s.setLink link { x with failedNums := x.failedNums ++ [fseq], naksDue := x.naksDue ++ [fseq] })
  else
    let f := { frameOf body with since := s.pcyc }
    let x := x.placed s.pcyc f.fseq
    if x.failedNums.contains f.fseq then
      let y := { x with failedNums := x.failedNums.filter (· != f.fseq), nakked := x.nakked.filter (· != f.fseq)
                        trans := min 65535 (x.trans + 1), heldFrames := insertFrame x.fseqIn f x.heldFrames }
      .next ((s.setLink link y).logError (dieOfPos (linkPort link)) 7 1 link)
    else if x.failedNums.isEmpty && x.heldFrames.isEmpty then .next (deliverFrame link f (s.setLink link x))
    else .next (s.setLink link { x with heldFrames := insertFrame x.fseqIn f x.heldFrames })

/-- The held frame that may be delivered in this cycle: the oldest, where every failed one is newer. -/
def releasable (x : Link) : Option Frame :=
  match x.heldFrames with
  | [] => none
  | f :: _ => if x.failedNums.all fun g => frameAge f.fseq x.fseqIn < frameAge g x.fseqIn then some f else none

/-- One held frame is delivered (R438). -/
def releaseFrame (n : Nat) (s : State) : State :=
  let x := s.link n
  match releasable x with
  | some f => if x.state == .up then deliverFrame n f (s.setLink n { x with heldFrames := x.heldFrames.drop 1 }) else s
  | none => s

/-- Has a frame been held longer than 4F + 256 cycles? -/
def heldTooLong (s : State) (n : Nat) : Bool :=
  let x := s.link n
  x.state == .up && x.heldFrames.any fun f => f.since + 4 * x.f + 256 < s.pcyc

/-- FRAME_HOLD_TIMEOUT (R438): a lasting failure. -/
def execFrameHoldTimeout (link : Nat) (s : State) : StepResult := .next (if heldTooLong s link then degrade link 0 s else s)

/-! ## Link states (R439, R440, R490) -/

/-- A link in TRAINING (R439): what it held, and the `ramo` items of units that have taken LINK are gone; its counts stay, and its frame
numbers where it comes from DEGRADED. -/
def Link.train (now : Nat) (x : Link) : Link :=
  let fresh := x.state != .degraded
  { x with state := .training, attempts := 0, trainAt := now, fseqOut := if fresh then 0 else x.fseqOut, fseqIn := if fresh then 0 else x.fseqIn
           sent := [], heldFrames := [], failedNums := [], naksDue := []
           resends := [], nakked := [], strays := [], out := [], pubsOut := [], itemsOut := [], inFlight := [] }

/-- Is the package settled: has it an UP link, or a context with a placed group (R490)? -/
def settled (s : State) : Bool :=
  (s.links.any fun e => e.2.state == .up) || s.graphs.any fun e => e.2.groups.any fun g => !g.quads.isEmpty

/-- Does the package adopt the master number of the peer of a link (R490): the peer is settled, or its number is lower? -/
def Link.offers (s : State) (x : Link) : Bool := x.state == .aligned && (x.peerSettled || decide (x.peerMaster < s.master))

/-- What the ports exchange at ALIGNED (R490): the peer's master number, whether it is settled, and its `PCYC` as it left the peer, in bits
[27:22], [28] and [93:30]. A peer that adopts this package's number and `PCYC` is then in step (log 9). -/
def Link.exchange (s : State) (ok : Nat) (x : Link) : Link :=
  let m := bitsOf ok 22 6
  let p := bitsOf ok 28 1 = 1
  if !p && (settled s || decide (s.master < m)) then { x with peerMaster := s.master, peerSettled := false, peerAhead := 0, inStep := true }
  else
    let ahead := (bitsOf ok 30 64 + x.f + 2 ^ 64 - s.pcyc % 2 ^ 64) % 2 ^ 64
    { x with peerMaster := m, peerSettled := p, peerAhead := ahead, inStep := decide (ahead = 0) }

/-- LINK_TRAINING_DONE (R439, R490): an attempt ends; `ok` is 0 where it fails, else F, PEER and PEERLINK in bits [11:0], [17:12] and
[21:18], and the exchange of R490 above them. An unsettled package adopts what the peer offers at the next round boundary. -/
def execLinkTrainingDone (link ok : Nat) (s : State) : StepResult :=
  let x := s.link link
  let f := ok % 4096
  if x.state != .training then .next s
  else if ok ≠ 0 && 24 ≤ f && f ≤ 256 && !s.badLinks.contains link then
    let y := Link.exchange s ok { x with state := .aligned, f := f, peer := bitsOf ok 12 6, peerLink := bitsOf ok 18 4, attempts := 0 }
    let s := s.setLink link y
    .next (if !settled s && y.offers s then s.after (32 - s.pcyc % 32) (.pcycAdopt link y.peerMaster) else s)
  else if x.attempts < 2 then .next (s.setLink link { x with attempts := x.attempts + 1, trainAt := s.pcyc })
  else .next (linkEvent link none (s.setLink link { x with state := .down, attempts := 0 }))

/-- Has an attempt of a link's training lasted 2^20 cycles (R439)? It then fails. -/
def trainedTooLong (s : State) (n : Nat) : Bool := (s.link n).state == .training && decide ((s.link n).trainAt + 2 ^ 20 ≤ s.pcyc)

/-- LINK_ENABLE (R439, R490): the die controller enables an aligned link whose peer reports the same master number and a `PCYC`
that differs by exactly F, and frames start at the next round; else the link stays ALIGNED, with a package event. -/
def execLinkEnable (link : Nat) (s : State) : StepResult :=
  let x := s.link link
  if x.state != .aligned then .next s
  else if x.peerMaster = s.master && x.inStep then
    .next (s.setLink link { x with state := .up, startAt := (s.pcyc / 32 + 1) * 32, baseOut := x.fseqOut, baseIn := x.fseqIn })
  else .next (linkEvent link none s)

/-- CARRIER_LOSS (R439). -/
def execCarrierLoss (link : Nat) (s : State) : StepResult := .next (degrade link 2 s)

/-- A command that is ignored is logged by the die of the port (R440, R496). -/
def ignoreLcmd (link : Nat) (s : State) : State := s.logError (dieOfPos (linkPort link)) 10 0 (0x50008 + 256 * link)

/-- Does a placed arc own a slot of a link? -/
def ownsSlot (s : State) (n : Nat) : Bool := !(s.link n).owners.isEmpty || !(s.link n).ownersIn.isEmpty

/-- LINK_RETRAIN (R439, R440). -/
def execLinkRetrain (link : Nat) (s : State) : StepResult :=
  let x := s.link link
  if x.state == .down || (x.state == .degraded && !ownsSlot s link) then .next (s.setLink link (x.train s.pcyc))
  else .next (ignoreLcmd link s)

/-- LINK_RESET (R439, R440). -/
def execLinkReset (link : Nat) (s : State) : StepResult :=
  let x := s.link link
  if x.state == .down then .next (s.setLink link (x.train s.pcyc))
  else if x.state == .repointed then .next (s.setLink link { x with state := .down })
  else .next (ignoreLcmd link s)

/-- A cycle number as far ahead of, or behind, `new` as it was of `old`. -/
def moveCycle (old new n : Nat) : Nat := if old ≤ n then new + (n - old) else new - (old - n)

/-- The units' own cycle counts keep their distance to `PCYC`. -/
def Seq.moved (old new : Nat) (q : Seq) : Seq :=
  { q with last := moveCycle old new q.last, ready := moveCycle old new q.ready, busy := q.busy.map fun e => (e.1, moveCycle old new e.2) }

/-- A link when the package adopts `ahead` cycles and a master number. -/
def Link.moved (old new ahead master : Nat) (x : Link) : Link :=
  let left := (x.peerAhead + 2 ^ 64 - ahead) % 2 ^ 64
  { x with trainAt := moveCycle old new x.trainAt, peerAhead := left, inStep := x.inStep || (x.peerMaster == master && decide (left = 0)) }

/-- PCYC_ADOPT (R490): at a round boundary (R432) an unsettled package takes the master number that the peer of a link offers, and its
`PCYC` + F; what is due later stays as far ahead. -/
def execPcycAdopt (link master : Nat) (s : State) : StepResult :=
  let x := s.link link
  if settled s || !x.offers s || x.peerMaster ≠ master then .next s
  else if s.pcyc % 32 ≠ 0 then .next (s.after (32 - s.pcyc % 32) (.pcycAdopt link master))
  else
    let v := (s.pcyc + x.peerAhead) % 2 ^ 64
    .next { s with pcyc := v, master := master
                   links := s.links.map fun e => (e.1, e.2.moved s.pcyc v x.peerAhead master)
                   agenda := s.agenda.map fun e => (moveCycle s.pcyc v e.1, e.2)
                   seqs := s.seqs.map fun e => (e.1, e.2.moved s.pcyc v)
                   rankDown := s.rankDown.map fun e => (e.1, moveCycle s.pcyc v e.2) }

/-! ## Die boundaries (R430) -/

/-- The two dies of a boundary: 0 to 7 horizontal, 8 to 16 vertical, by rows (log 21). -/
def boundaryDies (b : Nat) : Nat × Nat :=
  if b < 8 then (b / 2 * 3 + b % 2, b / 2 * 3 + b % 2 + 1) else ((b - 8) / 3 * 3 + (b - 8) % 3, ((b - 8) / 3 + 1) * 3 + (b - 8) % 3)

/-- The link by which a flit enters the next die over a boundary, at place `i` of 16, forwards or back. -/
def boundaryLink (b i : Nat) (back : Bool) : Nat :=
  let d := boundaryDies b
  if b < 8 then (if back then posOf d.1 15 i * 5 + 0 else posOf d.2 0 i * 5 + 1)
  else if back then posOf d.1 i 15 * 5 + 2 else posOf d.2 i 0 * 5 + 3

/-- The token of an arc that crosses a link is never delivered (R237, R430): the oldest of those on that link. -/
def loseFlight (key lk : Nat) (s : State) : State :=
  match s.arc? key with
  | none => s
  | some a =>
    match a.flights.findIdx? fun f => !f.waits && (a.lanes[f.leg]?).any fun l => l.1 = lk with
    | none => s
    | some i => s.setArc key { a with flights := a.flights.eraseIdx i, transit := a.transit.eraseIdx i }

/-- Does the way from one position to another, X first, cross the boundary between two dies (R38)? -/
def overBoundary (t u : Nat) (d : Nat × Nat) : Bool :=
  let within := fun a b m => decide (min a b ≤ m) && decide (m < max a b)
  if d.2 = d.1 + 1 then pkgY t / 16 = d.1 / 3 && within (pkgX t / 16) (pkgX u / 16) (d.1 % 3)
  else pkgX u / 16 = d.1 % 3 && within (pkgY t / 16) (pkgY u / 16) (d.1 / 3)

/-- The token of an arc of a unit that a lasting flit of the dynamic plane carried is never delivered (R237, R430): the oldest one
on the way of the first such arc whose way crosses the boundary (log 21). -/
def loseDynamic (u b : Nat) (s : State) : State :=
  let d := boundaryDies b
  let crosses := fun (a : Arc) => match a.src.pos, (a.home.orElse fun _ => a.dst.pos) with
    | some t, some h => (match a.src with | .tile v _ => v = u | _ => false) && a.kind == .ring && !a.transit.isEmpty && overBoundary t h d
    | _, _ => false
  match s.arcs.find? fun e => crosses e.2 with
  | none => s
  | some e => s.setArc e.1 { e.2 with transit := e.2.transit.drop 1 }

/-- A publication that an uncorrectable flit of the pointer lane carried is lost (R160, R430): the oldest on its way of the first arc whose way
back crosses the boundary (log 21). The credits come with the next one. -/
def losePointer (b : Nat) (s : State) : State :=
  match s.arcs.find? fun e => !e.2.pubs.isEmpty && match e.2.src.pos, e.2.dst.pos with
      | some t, some u => overBoundary u t (boundaryDies b)
      | _, _ => false with
  | none => s
  | some e => s.setArc e.1 { e.2 with pubs := e.2.seen :: e.2.pubs.drop 1 }

/-- Do the two dies of a boundary run (R488, R492)? -/
def boundaryRuns (s : State) (b : Nat) : Bool :=
  let runs := fun d => !(s.die d).clockStopped && !(s.die d).dieOff
  runs (boundaryDies b).1 && runs (boundaryDies b).2

/-- A flit of the scheduled plane that cannot be corrected (R430): bits [8:0] of `w` name the slot lanes and the pointer lane that it carried,
the bits above its place of 16 and its direction. What it carried is lost, and every region that owns a lane raises LINK. -/
def loseFlit (b w : Nat) (s : State) : State :=
  let lk := boundaryLink b (bitsOf w 9 4) (bitOf w 13)
  let keys := ((List.range 8).filter (bitOf w)).filterMap fun l => mfind s.lanes (lk * 8 + l)
  let s := s.logError (boundaryDies b).1 6 2 b
  let s := if bitOf w 8 then losePointer b s else s
  let hit := (keys.filterMap fun key => (s.arc? key).bind (Arc.localRegion s)).eraseDups
  hit.foldl (fun s k => regionReport k Code.link (linkInfo s.rank b 4) s) (keys.foldl (fun s key => loseFlight key lk s) s)

/-- BOUNDARY_FLIT_CROSSING (R430): bits [1:0] of `errors` are 0 for a clean flit, 1 for a corrected error, 2 for an uncorrectable flit of the
dynamic plane, whose resend meets what the bits above say, and 3 for one of the scheduled plane, of which they say what it carried. -/
def execBoundaryFlitCrossing (boundary errors : Nat) (s : State) : StepResult :=
  if !boundaryRuns s boundary then .next s
  else match errors % 4 with
    | 0 => .next s
    | 1 => .next (s.logError (boundaryDies boundary).1 6 0 boundary)
    | 2 => .next (s.after 48 (.boundaryFlitResend boundary (errors / 4)))
    | _ => .next (loseFlit boundary (errors / 4) s)

/-- BOUNDARY_FLIT_RESEND (R430): `fails` is 0 where the resend succeeds, else the unit whose request the flit carried, plus 1. -/
def execBoundaryFlitResend (boundary fails : Nat) (s : State) : StepResult :=
  let die := (boundaryDies boundary).1
  if !boundaryRuns s boundary then .next s
  else match fails with
  | 0 => .next (s.logError die 6 1 boundary)
  | n + 1 =>
    let s := s.logError die 6 2 boundary
    let info := linkInfo s.rank boundary 4
    match unitOf n with
    | .tile t =>
      let s := loseDynamic t boundary s
      match (s.tile t).region with
      | some k => .next (regionReport k Code.link info s)
      | none => .next s
    | .seq m => .next (passTrap m { cause := Code.link, info := info, loc := s.seqLoc m, kind := .raised } s)

/-! ## Remote atomics (R443 to R445) -/

/-- The pc of the issuing sequencer; 0 in a tile. -/
def curPc (s : State) : Word :=
  match s.cur.unit with
  | .seq n => (s.seq n).pc
  | .tile _ => 0

/-- `ramo` (R443, R444): the checks in their order, then the invocation leaves on the lowest-numbered UP link to its rank, or
stays in the package where the rank is its own. -/
def ramo (sub : Nat) (d a b c : BitVec 6) (oc : BitVec 3) (s : State) : StepResult :=
  let x := readS s a
  let r := bitsOf x.toNat 42 6
  let live := liveEntry (mget 0 s.ranks r)
  let link := if r = s.rank then some ownLink else if live then (upLinks s r).head? else none
  if bitsOf x.toNat 21 21 ≠ 0 || (remoteTile x).isNone then raise Code.nearRange x s
  else if x.toNat % 4 ≠ 0 then raise Code.align x s
  else
    match link with
    | none => raise Code.scope x s
    | some l =>
      tagOp (chanOfP oc) s fun seqn s =>
        let id := s.opCount
        let vb := (readS s b).setWidth 32
        let vc : BitVec 32 := if sub = 7 then (readS s c).setWidth 32 else 0
        let o : Op := { mkOp s (.remote sub vb vc r l) ((remoteTile x).getD 0) (x.toNat % 2 ^ 21) 1 with
          va := x.toNat, chan := chanOfP oc, seqn := seqn, dst := some d.toNat, pc := curPc s }
        let s := issueLoad o 2048 (.scalar d.toNat 0) s
        if l = ownLink then finish (s.later (.ramoInvocationArrival l))
        else
          let item : DynItem := { cls := 1, ctx := curCtx s, rank := s.rank, itag := id % 65536, a := x, b := vb, c := vc, sub := sub
                                  ft := if sub = 8 then 1 else 0 }
          let y := s.link l
          finish (s.setLink l { y with itemsOut := y.itemsOut ++ [item], inFlight := y.inFlight ++ [(id % 65536, id)] })

/-- May a remote atomic of a context act on a word of this package (R443)? -/
def remoteServes (s : State) (c mt o : Nat) : Bool :=
  isMemoryPos mt && atomicServes s mt o && match groupOfQuad s (quadOfPos mt) with
    | some (c', _, _) => c' = c
    | none => false

/-- Does an invocation that entered channel 5 of a memory tile's pipeline in a cycle wait there: for the bank, or behind what entered it
before (R234, R444)? -/
def invocationWaits (s : State) (mt off entry : Nat) : Bool :=
  (busyBanks s mt).contains (bankOf off) || (invocationsAt s mt).any (· < entry) ||
    s.ops.any fun e => e.2.queued mt && e.2.far && e.2.entered.any (· < entry)

/-- RAMO_INVOCATION_ARRIVAL (R444): the oldest invocation of a link, or of the package itself, enters channel 5 of the atomic pipeline of
its target and is performed there, or is refused; its reply goes back the same way. -/
def execRamoInvocationArrival (link : Nat) (s : State) : StepResult :=
  let again := fun s : State => s.after 1 (.ramoInvocationArrival link)
  if link = ownLink then
    match s.ops.find? fun e => e.2.invoked with
    | none => .next s
    | some (id, o) =>
      match o.kind with
      | .remote sub b c _ _ =>
        let entry := o.entered.getD s.pcyc
        if !remoteServes s o.ctx o.mtile o.addr then .next ((setOp id { o with refused := true, left := [] } s).later (.ramoReply id))
        else if invocationWaits s o.mtile o.addr entry then .next (again (setOp id { o with entered := some entry } s))
        else
          let r := atomicUpdate sub b c o.mtile o.addr (useBanks o.mtile [bankOf o.addr] s)
          .next ((setOp id { o with got := wordVec (atomicOld sub r.2), left := [] } r.1).later (.ramoReply id))
      | _ => .next s
  else
    match (s.link link).itemsIn with
    | [] => .next s
    | i :: rest =>
      let mt := (remoteTile i.a).getD 0
      let off := i.a.toNat % 2 ^ 21
      let entry := i.entered.getD s.pcyc
      let reply := fun (v : Word) (refused : Nat) (s : State) =>
        let y := s.link link
        s.setLink link { y with itemsIn := rest, itemsOut := y.itemsOut ++
          [{ cls := 2, ctx := i.ctx, rank := s.rank, itag := i.itag, a := v, b := BitVec.ofNat 32 refused }] }
      if (remoteTile i.a).isNone || !remoteServes s i.ctx mt off then .next (reply 0 1 s)
      else if invocationWaits s mt off entry then
        .next (again (s.setLink link { s.link link with itemsIn := { i with entered := some entry } :: rest }))
      else
        let r := atomicUpdate i.sub i.b i.c mt off (useBanks mt [bankOf off] s)
        .next (reply (r.2.setWidth 64) 0 r.1)

/-- RAMO_REPLY (R444): the value reaches the issuer, and the `ramo` completes for its order channel; or its refusal does. -/
def execRamoReply (op : Nat) (s : State) : StepResult :=
  match opAt s op with
  | none => .next s
  | some o =>
    if o.refused then .next (completionFault op Code.part (BitVec.ofNat 64 o.va) s)
    else .next (answer op { o with chan := 0 } o.got s.pcyc (orderDone o.cur.unit o.chan o.seqn s))

/-- `ramo.add` (R444). -/
def execRamoAdd (d a b : BitVec 6) (oc : BitVec 3) (s : State) : StepResult := ramo 0 d a b 0 oc s
/-- `ramo.min` (R444). -/
def execRamoMin (d a b : BitVec 6) (oc : BitVec 3) (s : State) : StepResult := ramo 1 d a b 0 oc s
/-- `ramo.max` (R444). -/
def execRamoMax (d a b : BitVec 6) (oc : BitVec 3) (s : State) : StepResult := ramo 2 d a b 0 oc s
/-- `ramo.and` (R444). -/
def execRamoAnd (d a b : BitVec 6) (oc : BitVec 3) (s : State) : StepResult := ramo 3 d a b 0 oc s
/-- `ramo.or` (R444). -/
def execRamoOr (d a b : BitVec 6) (oc : BitVec 3) (s : State) : StepResult := ramo 4 d a b 0 oc s
/-- `ramo.xor` (R444). -/
def execRamoXor (d a b : BitVec 6) (oc : BitVec 3) (s : State) : StepResult := ramo 5 d a b 0 oc s
/-- `ramo.swap` (R444). -/
def execRamoSwap (d a b : BitVec 6) (oc : BitVec 3) (s : State) : StepResult := ramo 6 d a b 0 oc s
/-- `ramo.cas` (R444). -/
def execRamoCas (d a b c : BitVec 6) (oc : BitVec 3) (s : State) : StepResult := ramo 7 d a b c oc s
/-- `ramo.fadd` (R444). -/
def execRamoFadd (d a b : BitVec 6) (oc : BitVec 3) (s : State) : StepResult := ramo 8 d a b 0 oc s
/-- `ramo.minu` (R444). -/
def execRamoMinu (d a b : BitVec 6) (oc : BitVec 3) (s : State) : StepResult := ramo 9 d a b 0 oc s
/-- `ramo.maxu` (R444). -/
def execRamoMaxu (d a b : BitVec 6) (oc : BitVec 3) (s : State) : StepResult := ramo 10 d a b 0 oc s

/-! ## The rank table (R446 to R448) -/

/-- The sequencer of this package at which a control arc ends (R447). -/
def Arc.localSeq (a : Arc) : Option Nat :=
  match a.src, a.dst with
  | .seq n _, _ => some n
  | _, .seq n _ => some n
  | _, _ => none

/-- Of pairs with one first part, the first. -/
def firstOfEach (l : List (Nat × Nat)) : List (Nat × Nat) := (l.filter fun e => (l.find? fun f => f.1 = e.1) == some e).eraseDups

/-- Every arc and every `ramo` that crosses to a rank is severed, with LINK and a reason in its region or sequencer (R447, R448). A severed arc
has no slot any more, and nothing of it crosses. -/
def sever (r why : Nat) (s : State) : State :=
  let hit := s.arcs.filter fun e => e.2.src == .remote r || e.2.dst == .remote r
  let ends := fun (f : Arc → Option Nat) => firstOfEach (hit.filterMap fun e => (f e.2).map fun k => (k, (linkOfArc s e.1).getD 0))
  let regions := ends (Arc.localRegion s)
  let seqs := ends Arc.localSeq
  let keys := hit.map Prod.fst
  let s : State := { s with links := s.links.map fun l => (l.1, l.2.without keys.contains) }
  let s := regions.foldl (fun s e => regionReport e.1 Code.link (linkInfo r e.2 why) s) s
  let s := seqs.foldl (fun s e => passTrap e.1 { cause := Code.link, info := linkInfo r e.2 why, loc := s.seqLoc e.1, kind := .raised } s) s
  (ramosOver s fun q _ => q = r).foldl (fun s e =>
    match e.2.kind with
    | .remote _ _ _ _ l => ramoFault e.1 e.2 (linkInfo r l why) s
    | _ => s) s

/-- A link becomes REPOINTED: its slots are free, with a package event (R439). -/
def repoint (r why n : Nat) (s : State) : State :=
  let x := s.link n
  if x.state == .repointed then s
  else linkEvent n (some (linkInfo r n why)) (s.setLink n { x with state := .repointed, owners := [], ownersIn := [] })

/-- Does the open or sealing snapshot of a context need the package of a rank: a domain snapshot, or one whose cellar lies there (R419)? -/
def Ctx.needsRank (x : Ctx) (rank : Nat) : Bool :=
  x.snaps.any fun p => (p.state == .requested || p.state == .opened || p.state == .sealing) &&
    (p.dom || (x.cellar.place = 1 && x.cellar.peer = rank))

/-- RANK_LOST (R448). What waited for an answer of that package waits for it no more. -/
def execRankLost (rank : Nat) (s : State) : StepResult :=
  let e := mget 0 s.ranks rank
  if !liveEntry e || bitOf e.toNat 61 then .next s
  else
    let mask := rankLinks s rank
    let s := { s with ranks := mset s.ranks rank (BitVec.ofNat 64 (e.toNat % 2 ^ 62 + 2 * 2 ^ 62)) }
    let s := mask.foldl (fun s n => repoint rank 3 n s) (sever rank 3 s)
    let s : State := { s with ctxs := s.ctxs.map fun e => (e.1, { e.2 with awaited := e.2.awaited.filter fun w => w.2 != rank }) }
    let s := (s.ctxs.filter fun e => e.2.needsRank rank).foldl (fun s e => failSnap e.1 5 s) s
    .next (s.tellPackageOpen Code.link rank (some (linkInfo rank (mask.headD 0) 3)))

/-- RANK with a reason (R447). -/
def rankFault (n reason : Nat) (s : State) : StepResult := .next (ownFault n Code.rank (BitVec.ofNat 64 reason) s)

/-- The reason for which `rkset` is refused; 0 for none (R447). -/
def rksetRefusal (s : State) (n : Nat) (i v : Word) : Nat :=
  let self := bitOf v.toNat 61
  if 63 < i.toNat || bitsOf v.toNat 22 39 ≠ 0 || bitsOf v.toNat 62 2 = 3 then 1
  else if isQuadSeq n then 2
  else if !self && bitOf (mget 0 s.ranks i.toNat).toNat 61 then 3
  else if self && s.rank ≠ i.toNat && (s.graphs.any fun e => e.2.groups.any fun g => !g.quads.isEmpty) then 4
  else 0

/-- The rank table with an entry written: an entry with SELF takes it from every other. -/
def putRank (i : Nat) (v : Word) (m : Map Word) : Map Word :=
  let m := if bitOf v.toNat 61 then m.map fun e => (e.1, if bitOf e.2.toNat 61 then e.2 - BitVec.ofNat 64 (2 ^ 61) else e.2) else m
  mset m i v

/-- `rkset` (R447). -/
def execRkset (a b : BitVec 6) (s : State) : StepResult :=
  onSeq s fun n =>
    let i := readS s a
    let v := readS s b
    match rksetRefusal s n i v with
    | 0 =>
      let r := i.toNat
      let old := mget 0 s.ranks r
      let gone := (List.range 16).filter fun l => bitOf old.toNat l && !bitOf v.toNat l
      let moved := bitsOf old.toNat 16 6 ≠ bitsOf v.toNat 16 6 || !gone.isEmpty
      let s := if moved then sever r 5 s else s
      let s := { s with ranks := putRank r v s.ranks }
      let unused := if moved then (List.range 16).filter fun l => bitOf old.toNat l && !(s.ranks.any fun e => liveEntry e.2 && bitOf e.2.toNat l) else []
      finishFree n (unused.foldl (fun s l => repoint r 5 l s) s)
    | reason => rankFault n reason s

/-- `rkget` (R447): interlocked. -/
def execRkget (d a : BitVec 6) (s : State) : StepResult :=
  onSeq s fun n =>
    let i := readS s a
    if 63 < i.toNat then rankFault n 1 s
    else finishOpen n d (mget 0 s.ranks i.toNat) s

/-! ## The delay check of R435 -/

/-- L of R435 for an arc of this package's end. The far part of the way, 2hB + 24bB, is what the other package has told of it; it is left
open where none has (log 9). -/
def requiredDelay (s : State) (key : Nat) (a : Arc) : Option Nat :=
  (linkOfArc s key).map fun n =>
    let here := match a.src.pos, a.home, a.dst.pos with
      | some t, _, _ => t
      | _, some t, _ => t
      | _, _, some t => t
      | _, _, _ => linkPort n
    (s.link n).f + 37 + (routeTime here (linkPort n) - 4) + a.farWay.getD (Config.freeDelay s.freeCount)

/-- What another package tells of the ways on its side (R435): 2hB + 24bB by tag. -/
def tellWays (c : Nat) (ways : List (Nat × Nat)) (s : State) : State :=
  ways.foldl (fun s w => match s.arc? (State.arcKey c w.1) with
    | some a => s.setArc (State.arcKey c w.1) { a with farWay := some w.2 }
    | none => s) s

/-- The first arc of a region whose declared delay is too small: tag, d, L. -/
def shortDelay (s : State) (k : Nat) : Option (Nat × Nat × Nat) :=
  let g := k / 2048
  s.arcs.findSome? fun e =>
    if e.2.localRegion s = some k && e.2.slot = g % 256 && e.1 / 4096 = g / 256 then
      match e.2.decl.bind fun i => ((s.graph? (g / 256) e.2.slot).bind fun x => x.image.arcs[i]?), requiredDelay s e.1 e.2 with
      | some d, some l => if d.delay < l then some (e.1 % 4096, d.delay, l) else none
      | _, _ => none
    else none

/-- `TINFO` of DELAY (R441). -/
def delayInfo (d l tag : Nat) : Word := BitVec.ofNat 64 (d % 65536 * 2 ^ 32 + l % 65536 * 2 ^ 16 + tag % 4096)

end Sys2Proof.Machine
end

