-- ==== Sys2Proof/Machine/Modular.lean ====
section
/-! DEFINITION. Modular arithmetic and the butterfly network (R303 to R315). -/

namespace Sys2Proof.Machine

/-! ## Moduli and their constants (R304) -/

/-- Is a modulus valid? -/
def validMod (q : Nat) : Bool := q % 2 == 1 && decide (3 ≤ q) && decide (q < 2 ^ 62)

/-- Newton steps for an inverse modulo 2^64. -/
def inv64Steps (q : Nat) : Nat → Nat → Nat
  | 0, x => x
  | n + 1, x => inv64Steps q n (x * (2 ^ 64 + 2 - q * x % 2 ^ 64) % 2 ^ 64)

/-- The Montgomery constant k = -q^-1 mod 2^64 of a valid modulus, else 0. -/
def montK (q : Nat) : Nat := if validMod q then (2 ^ 64 - inv64Steps q 5 q) % 2 ^ 64 else 0

/-- The conversion constant w = 2^128 mod q of a valid modulus, else 0. -/
def montW (q : Nat) : Nat := if validMod q then 2 ^ 128 % q else 0

/-- Half of a residue modulo an odd q. -/
def halfMod (q x : Nat) : Nat := if x % 2 = 0 then x / 2 else (x + q) / 2

/-- x halved `n` times modulo q: x * Inv(2^n, q). -/
def halveMod (q : Nat) : Nat → Nat → Nat
  | 0, x => x
  | n + 1, x => halveMod q n (halfMod q x)

/-- Mod(x * Inv(2^64, q), q) (R312). -/
def mont (q x : Nat) : Nat := halveMod q 64 (x % q)

/-- The difference of two numbers modulo q. -/
def subMod (q x y : Nat) : Nat := ((x : Int) - y) % q |>.toNat

/-- Modulus of lane `l` of a set. -/
def ModSet.modulus (m : ModSet) (l : Nat) : Nat := elem 64 m.q.toNat l

/-! ## Results: pairs (R309), with MODERR (R306) -/

/-- A pair as its elements. -/
def readPair (s : State) (r : BitVec 6) : Nat → Nat :=
  let lo := (readV s r).toNat
  let hi := (readV s (r + 1)).toNat
  fun e => elem 32 lo e + 2 ^ 32 * elem 32 hi e

/-- Results that write the elements of a pair for which `on` holds, and MODERR where `bad` holds of some. -/
def pairResults (d : BitVec 6) (on bad : Nat → Bool) (f : Nat → Nat) : List Result :=
  let m := maskOf 32 on
  [.vector d.toNat m (vecOfElems 32 fun e => if on e then f e % 2 ^ 32 else 0),
   .vector (d.toNat + 1) m (vecOfElems 32 fun e => if on e then f e / 2 ^ 32 else 0)]
    ++ if (List.range 64).any fun e => on e && bad e then [.moderr] else []

/-- An element-wise modular row of OP 0x90 (R312): `f q a b c` is the value under a valid modulus. -/
def modRow (f : Nat → Nat → Nat → Nat → Nat) (lat : Nat) (fold : BitVec 2) (d a b c : BitVec 6) (p : BitVec 3)
    (qset : BitVec 2) (s : State) : StepResult :=
  onTile s fun t =>
    let cap := grab s a b c p.toNat
    let x := readPair s a
    let y := readPair s b
    let z := readPair s c
    let q := fun e => (mget {} cap.sets qset.toNat).modulus (e % 16)
    let on := fun e => elemInBeat 32 (beatsOf fold) s.cur.beat e && cap.pred.getLsbD e
    .next (deliver lat t
      (pairResults d on (fun e => !validMod (q e)) fun e => if validMod (q e) then f (q e) (x e) (y e) (z e) else 0) s)

/-- `madd` (R312). -/
def execMadd (fold : BitVec 2) (d a b : BitVec 6) (p : BitVec 3) (qset : BitVec 2) (s : State) : StepResult :=
  modRow (fun q x y _ => (x + y) % q) 4 fold d a b 0 p qset s
/-- `msub` (R312). -/
def execMsub (fold : BitVec 2) (d a b : BitVec 6) (p : BitVec 3) (qset : BitVec 2) (s : State) : StepResult :=
  modRow (fun q x y _ => subMod q x y) 4 fold d a b 0 p qset s
/-- `mneg` (R312). -/
def execMneg (fold : BitVec 2) (d a : BitVec 6) (p : BitVec 3) (qset : BitVec 2) (s : State) : StepResult :=
  modRow (fun q x _ _ => subMod q 0 x) 4 fold d a 0 0 p qset s
/-- `mmulq` (R312). -/
def execMmulq (fold : BitVec 2) (d a b : BitVec 6) (p : BitVec 3) (qset : BitVec 2) (s : State) : StepResult :=
  modRow (fun q x y _ => mont q (x * y)) 8 fold d a b 0 p qset s
/-- `mmac` (R312). -/
def execMmac (fold : BitVec 2) (d a b c : BitVec 6) (p : BitVec 3) (qset : BitVec 2) (s : State) : StepResult :=
  modRow (fun q x y z => (mont q (x * y) + z) % q) 8 fold d a b c p qset s
/-- `mtomont` (R312). -/
def execMtomont (fold : BitVec 2) (d a : BitVec 6) (p : BitVec 3) (qset : BitVec 2) (s : State) : StepResult :=
  modRow (fun q x _ _ => x * 2 ^ 64 % q) 8 fold d a 0 0 p qset s
/-- `mfrmont` (R312). -/
def execMfrmont (fold : BitVec 2) (d a : BitVec 6) (p : BitVec 3) (qset : BitVec 2) (s : State) : StepResult :=
  modRow (fun q x _ _ => mont q x) 8 fold d a 0 0 p qset s
/-- `mred` (R312). -/
def execMred (fold : BitVec 2) (d a : BitVec 6) (p : BitVec 3) (qset : BitVec 2) (s : State) : StepResult :=
  modRow (fun q x _ _ => x % q) 4 fold d a 0 0 p qset s
/-- `mmul` (R312). -/
def execMmul (fold : BitVec 2) (d a b : BitVec 6) (p : BitVec 3) (qset : BitVec 2) (s : State) : StepResult :=
  modRow (fun q x y _ => x * y % q) 12 fold d a b 0 p qset s

/-! ## Butterflies (R313) -/

/-- A whole-register modular row: element `k` is formed under the modulus of lane `lane k`. -/
def modWhole (lat : Nat) (fold : BitVec 2) (d : BitVec 6) (q : Nat → Nat) (lane : Nat → Nat) (f : Nat → Nat → Nat) (s : State) :
    StepResult :=
  finishWhole lat fold
    (pairResults d (fun _ => true) (fun k => !validMod (q (lane k)))
      fun k => if validMod (q (lane k)) then f (q (lane k)) k else 0) s

/-- The lower element of the pair of element `k` in stage `st`. -/
def lowOfPair (st k : Nat) : Nat := if bitOf k st then k - 2 ^ st else k

/-- `bflyct` (R313). -/
def execBflyct (fold : BitVec 2) (d a b : BitVec 6) (stage : BitVec 3) (qset : BitVec 2) (s : State) : StepResult :=
  let cap := grab s a b 0 0
  let x := readPair s a
  let y := readPair s b
  let st := stage.toNat
  modWhole 10 fold d (fun l => (mget {} cap.sets qset.toNat).modulus (l % 16)) (fun k => lowOfPair st k)
    (fun q k =>
      let i := lowOfPair st k
      let m := mont q (x (i + 2 ^ st) * y i)
      if k = i then (x i + m) % q else subMod q (x i) m) s

/-- `bflygs` (R313). -/
def execBflygs (fold : BitVec 2) (d a b : BitVec 6) (stage : BitVec 3) (qset : BitVec 2) (s : State) : StepResult :=
  let cap := grab s a b 0 0
  let x := readPair s a
  let y := readPair s b
  let st := stage.toNat
  modWhole 10 fold d (fun l => (mget {} cap.sets qset.toNat).modulus (l % 16)) (fun k => lowOfPair st k)
    (fun q k =>
      let i := lowOfPair st k
      let j := i + 2 ^ st
      if k = i then (x i + x j) % q else mont q (subMod q (x i) (x j) * y i)) s

/-! ## Permutations and automorphisms (R314, R315) -/

/-- The low 6 bits reversed. -/
def brev6 (k : Nat) : Nat :=
  bit (bitOf k 0) * 32 + bit (bitOf k 1) * 16 + bit (bitOf k 2) * 8 + bit (bitOf k 3) * 4 + bit (bitOf k 4) * 2 + bit (bitOf k 5)

/-- The low 6 bits rotated right by one. -/
def rotr6 (k : Nat) : Nat := k / 2 + k % 2 * 32

/-- A permutation of the elements of a pair. -/
def permPair (f : Nat → Nat) (fold : BitVec 2) (d a : BitVec 6) (s : State) : StepResult :=
  finishWhole 4 fold (pairResults d (fun _ => true) (fun _ => false) fun k => readPair s a (f k)) s

/-- `bfperm.rev` (R314). -/
def execBfpermRev (fold : BitVec 2) (d a : BitVec 6) (s : State) : StepResult := permPair brev6 fold d a s
/-- `bfperm.shuf` (R314). -/
def execBfpermShuf (fold : BitVec 2) (d a : BitVec 6) (s : State) : StepResult := permPair rotr6 fold d a s
/-- `bfperm.strd` (R314). -/
def execBfpermStrd (fold : BitVec 2) (d a stride : BitVec 6) (s : State) : StepResult :=
  let t := stride.toNat
  permPair (fun k => 2 ^ t * (k % 2 ^ (6 - t)) + k / 2 ^ (6 - t)) fold d a s

/-- The coefficient j of `mauto` before reduction: the terms of i below `n`. -/
def autoSum (x : Nat → Nat) (kappa j : Nat) : Nat → Int
  | 0 => 0
  | n + 1 =>
    let p := n * kappa % 128
    let r := autoSum x kappa j n
    if p = j then r + x n else if p = j + 64 then r - x n else r

/-- `mauto` (R315). -/
def execMauto (fold : BitVec 2) (d a b : BitVec 6) (qset : BitVec 2) (s : State) : StepResult :=
  let cap := grab s a b 0 0
  let x := readPair s a
  modWhole 6 fold d (fun l => (mget {} cap.sets qset.toNat).modulus (l % 16)) (fun k => k)
    (fun q k => (autoSum x (cap.scalar2.toNat % 128) k 64 % q).toNat) s

/-! ## Modulus sets (R307, R308) -/

/-- `mqset` (R307). -/
def execMqset (fold : BitVec 2) (d a : BitVec 6) (s : State) : StepResult :=
  let x := readPair s a
  let m : ModSet :=
    { q := BitVec.ofNat 1024 (pack 64 16 x)
      k := BitVec.ofNat 1024 (pack 64 16 fun l => montK (x l))
      w := BitVec.ofNat 1024 (pack 64 16 fun l => montW (x l)) }
  finishWhole 40 fold [.modset d.toNat m] s

/-- `mqget` (R308): the set as beat 0 read it. -/
def execMqget (fold : BitVec 2) (d a : BitVec 6) (s : State) : StepResult :=
  let m := mget {} (grab s a 0 0 0).sets a.toNat
  finishWhole 4 fold
    (pairResults d (fun _ => true) (fun _ => false) fun e =>
      if e < 16 then elem 64 m.q.toNat e
      else if e < 32 then elem 64 m.k.toNat (e - 16)
      else if e < 48 then elem 64 m.w.toNat (e - 32)
      else bit (validMod (elem 64 m.q.toNat (e - 48)))) s

end Sys2Proof.Machine
end

