-- ==== Sys2Proof/Machine/Scalar.lean ====
section
/-! DEFINITION. Scalar, address and control instructions (R95 to R128). A result has the latency of R97: in a timed list it
is pending for that many advancing cycles, in sequencer code its register is interlocked. -/

namespace Sys2Proof.Machine

/-! ## Functions of R104 to R111 on 64-bit patterns -/

/-- A truth value as a register value. -/
def flagWord (b : Bool) : Word := if b then 1 else 0

/-- `sll` (R104): bits [63:6] of the count are ignored. -/
def sllW (x y : Word) : Word := x <<< (y.toNat % 64)
/-- `srl` (R104). -/
def srlW (x y : Word) : Word := x >>> (y.toNat % 64)
/-- `sra` (R104). -/
def sraW (x y : Word) : Word := x.sshiftRight (y.toNat % 64)
/-- `mulh` (R104): floor of the signed product over 2^64. -/
def mulhW (x y : Word) : Word := BitVec.ofInt 64 (x.toInt * y.toInt / 2 ^ 64)
/-- `mulhu` (R104). -/
def mulhuW (x y : Word) : Word := BitVec.ofNat 64 (x.toNat * y.toNat / 2 ^ 64)
/-- `min` (R104). -/
def minW (x y : Word) : Word := if x.toInt ≤ y.toInt then x else y
/-- `max` (R104). -/
def maxW (x y : Word) : Word := if x.toInt ≤ y.toInt then y else x
/-- `minu` (R104). -/
def minuW (x y : Word) : Word := if x.toNat ≤ y.toNat then x else y
/-- `maxu` (R104). -/
def maxuW (x y : Word) : Word := if x.toNat ≤ y.toNat then y else x

/-- `div` (R106): truncates; -1 for a divisor of 0, and the most negative number over -1 is itself. -/
def divW (x y : Word) : Word := if y = 0 then BitVec.allOnes 64 else BitVec.ofInt 64 (x.toInt.tdiv y.toInt)
/-- `divu` (R106). -/
def divuW (x y : Word) : Word := if y = 0 then BitVec.allOnes 64 else BitVec.ofNat 64 (x.toNat / y.toNat)
/-- `rem` (R106): the sign of the dividend. -/
def remW (x y : Word) : Word := if y = 0 then x else BitVec.ofInt 64 (x.toInt.tmod y.toInt)
/-- `remu` (R106). -/
def remuW (x y : Word) : Word := if y = 0 then x else BitVec.ofNat 64 (x.toNat % y.toNat)

/-- `bfx` (R108), with the field `lenm1` = len - 1. -/
def bfxW (x : Word) (pos lenm1 : Nat) : Word := BitVec.ofInt 64 (signedOf (lenm1 + 1) (bitsOf x.toNat pos (lenm1 + 1)))
/-- `bfxu` (R108). -/
def bfxuW (x : Word) (pos lenm1 : Nat) : Word := BitVec.ofNat 64 (bitsOf x.toNat pos (lenm1 + 1))
/-- `bfi` (R108): the low bits of `x` in place of a field of `t`. -/
def bfiW (t x : Word) (pos lenm1 : Nat) : Word :=
  let m : Word := BitVec.ofNat 64 ((2 ^ (lenm1 + 1) - 1) * 2 ^ pos)
  (t &&& ~~~m) ||| (BitVec.ofNat 64 (x.toNat * 2 ^ pos) &&& m)

/-- The number of leading 0 bits of the low `n` bits (R109). -/
def clzN (x : Nat) : Nat → Nat
  | 0 => 0
  | n + 1 => if bitOf x n then 0 else 1 + clzN x n
/-- The number of trailing 0 bits among `n` bits (R109). -/
def ctzN : Nat → Nat → Nat
  | _, 0 => 0
  | x, n + 1 => if x % 2 = 1 then 0 else 1 + ctzN (x / 2) n
/-- The number of 1 bits among `n` bits (R109). -/
def popN : Nat → Nat → Nat
  | _, 0 => 0
  | x, n + 1 => x % 2 + popN (x / 2) n
/-- The low `n` bits in reverse order (R109). -/
def brevN : Nat → Nat → Nat
  | _, 0 => 0
  | x, n + 1 => x % 2 * 2 ^ n + brevN (x / 2) n
/-- The low `n` bytes in reverse order (R109). -/
def bswapN : Nat → Nat → Nat
  | _, 0 => 0
  | x, n + 1 => x % 256 * 256 ^ n + bswapN (x / 256) n

/-- `lea` (R111). -/
def leaW (x y : Word) (sh : Nat) : Word := x + (y <<< sh)

/-! ## Register and immediate forms -/

/-- `sD := f(sA, sB)` with a result latency (R97, R104). -/
def opReg (f : Word → Word → Word) (lat : Nat) (d a b : BitVec 6) (s : State) : StepResult :=
  finishScalar lat d (f (readS s a) (readS s b)) s

/-- `sD := f(sA, imm)` (R105). -/
def opImm (f : Word → Word → Word) (lat : Nat) (d a : BitVec 6) (imm : BitVec 26) (s : State) : StepResult :=
  finishScalar lat d (f (readS s a) (simm26 imm)) s

/-- `sD := f(sA)`. -/
def opUn (f : Word → Word) (d a : BitVec 6) (s : State) : StepResult := finishScalar 1 d (f (readS s a)) s

/-- `nop` (R103): it takes its cycle and changes no state. -/
def execNop (s : State) : StepResult := finish s

/-- `add` (R104). -/
def execAdd (d a b : BitVec 6) (s : State) : StepResult := opReg (fun x y => x + y) 1 d a b s
/-- `sub` (R104). -/
def execSub (d a b : BitVec 6) (s : State) : StepResult := opReg (fun x y => x - y) 1 d a b s
/-- `and` (R104). -/
def execAnd (d a b : BitVec 6) (s : State) : StepResult := opReg (fun x y => x &&& y) 1 d a b s
/-- `or` (R104). -/
def execOr (d a b : BitVec 6) (s : State) : StepResult := opReg (fun x y => x ||| y) 1 d a b s
/-- `xor` (R104). -/
def execXor (d a b : BitVec 6) (s : State) : StepResult := opReg (fun x y => x ^^^ y) 1 d a b s
/-- `sll` (R104). -/
def execSll (d a b : BitVec 6) (s : State) : StepResult := opReg sllW 1 d a b s
/-- `srl` (R104). -/
def execSrl (d a b : BitVec 6) (s : State) : StepResult := opReg srlW 1 d a b s
/-- `sra` (R104). -/
def execSra (d a b : BitVec 6) (s : State) : StepResult := opReg sraW 1 d a b s
/-- `mul` (R104). -/
def execMul (d a b : BitVec 6) (s : State) : StepResult := opReg (fun x y => x * y) 3 d a b s
/-- `mulh` (R104). -/
def execMulh (d a b : BitVec 6) (s : State) : StepResult := opReg mulhW 3 d a b s
/-- `mulhu` (R104). -/
def execMulhu (d a b : BitVec 6) (s : State) : StepResult := opReg mulhuW 3 d a b s
/-- `min` (R104). -/
def execMin (d a b : BitVec 6) (s : State) : StepResult := opReg minW 1 d a b s
/-- `max` (R104). -/
def execMax (d a b : BitVec 6) (s : State) : StepResult := opReg maxW 1 d a b s
/-- `minu` (R104). -/
def execMinu (d a b : BitVec 6) (s : State) : StepResult := opReg minuW 1 d a b s
/-- `maxu` (R104). -/
def execMaxu (d a b : BitVec 6) (s : State) : StepResult := opReg maxuW 1 d a b s
/-- `addi` (R105). -/
def execAddi (d a : BitVec 6) (imm : BitVec 26) (s : State) : StepResult := opImm (fun x y => x + y) 1 d a imm s
/-- `andi` (R105). -/
def execAndi (d a : BitVec 6) (imm : BitVec 26) (s : State) : StepResult := opImm (fun x y => x &&& y) 1 d a imm s
/-- `ori` (R105). -/
def execOri (d a : BitVec 6) (imm : BitVec 26) (s : State) : StepResult := opImm (fun x y => x ||| y) 1 d a imm s
/-- `xori` (R105). -/
def execXori (d a : BitVec 6) (imm : BitVec 26) (s : State) : StepResult := opImm (fun x y => x ^^^ y) 1 d a imm s
/-- `slli` (R105). -/
def execSlli (d a : BitVec 6) (imm : BitVec 26) (s : State) : StepResult := opImm sllW 1 d a imm s
/-- `srli` (R105). -/
def execSrli (d a : BitVec 6) (imm : BitVec 26) (s : State) : StepResult := opImm srlW 1 d a imm s
/-- `srai` (R105). -/
def execSrai (d a : BitVec 6) (imm : BitVec 26) (s : State) : StepResult := opImm sraW 1 d a imm s
/-- `muli` (R105). -/
def execMuli (d a : BitVec 6) (imm : BitVec 26) (s : State) : StepResult := opImm (fun x y => x * y) 3 d a imm s
/-- `mini` (R105). -/
def execMini (d a : BitVec 6) (imm : BitVec 26) (s : State) : StepResult := opImm minW 1 d a imm s
/-- `maxi` (R105). -/
def execMaxi (d a : BitVec 6) (imm : BitVec 26) (s : State) : StepResult := opImm maxW 1 d a imm s
/-- `div` (R106): 20 cycles in every case. -/
def execDiv (d a b : BitVec 6) (s : State) : StepResult := opReg divW 20 d a b s
/-- `divu` (R106): 20 cycles in every case. -/
def execDivu (d a b : BitVec 6) (s : State) : StepResult := opReg divuW 20 d a b s
/-- `rem` (R106): 20 cycles in every case. -/
def execRem (d a b : BitVec 6) (s : State) : StepResult := opReg remW 20 d a b s
/-- `remu` (R106): 20 cycles in every case. -/
def execRemu (d a b : BitVec 6) (s : State) : StepResult := opReg remuW 20 d a b s

/-! ## Relations (R107, R117) -/

/-- The relation of `seq`. -/
def relSeq (x y : Word) : Bool := x == y
/-- The relation of `sne`. -/
def relSne (x y : Word) : Bool := x != y
/-- The relation of `slt`. -/
def relSlt (x y : Word) : Bool := decide (x.toInt < y.toInt)
/-- The relation of `sge`. -/
def relSge (x y : Word) : Bool := decide (y.toInt ≤ x.toInt)
/-- The relation of `sltu`. -/
def relSltu (x y : Word) : Bool := decide (x.toNat < y.toNat)
/-- The relation of `sgeu`. -/
def relSgeu (x y : Word) : Bool := decide (y.toNat ≤ x.toNat)
/-- `seq` (R107). -/
def execSeq (d a b : BitVec 6) (s : State) : StepResult := opReg (fun x y => flagWord (relSeq x y)) 1 d a b s
/-- `sne` (R107). -/
def execSne (d a b : BitVec 6) (s : State) : StepResult := opReg (fun x y => flagWord (relSne x y)) 1 d a b s
/-- `slt` (R107). -/
def execSlt (d a b : BitVec 6) (s : State) : StepResult := opReg (fun x y => flagWord (relSlt x y)) 1 d a b s
/-- `sge` (R107). -/
def execSge (d a b : BitVec 6) (s : State) : StepResult := opReg (fun x y => flagWord (relSge x y)) 1 d a b s
/-- `sltu` (R107). -/
def execSltu (d a b : BitVec 6) (s : State) : StepResult := opReg (fun x y => flagWord (relSltu x y)) 1 d a b s
/-- `sgeu` (R107). -/
def execSgeu (d a b : BitVec 6) (s : State) : StepResult := opReg (fun x y => flagWord (relSgeu x y)) 1 d a b s
/-- `seqi` (R107). -/
def execSeqi (d a : BitVec 6) (imm : BitVec 26) (s : State) : StepResult := opImm (fun x y => flagWord (relSeq x y)) 1 d a imm s
/-- `snei` (R107). -/
def execSnei (d a : BitVec 6) (imm : BitVec 26) (s : State) : StepResult := opImm (fun x y => flagWord (relSne x y)) 1 d a imm s
/-- `slti` (R107). -/
def execSlti (d a : BitVec 6) (imm : BitVec 26) (s : State) : StepResult := opImm (fun x y => flagWord (relSlt x y)) 1 d a imm s
/-- `sgei` (R107). -/
def execSgei (d a : BitVec 6) (imm : BitVec 26) (s : State) : StepResult := opImm (fun x y => flagWord (relSge x y)) 1 d a imm s
/-- `sltui` (R107). -/
def execSltui (d a : BitVec 6) (imm : BitVec 26) (s : State) : StepResult := opImm (fun x y => flagWord (relSltu x y)) 1 d a imm s
/-- `sgeui` (R107). -/
def execSgeui (d a : BitVec 6) (imm : BitVec 26) (s : State) : StepResult := opImm (fun x y => flagWord (relSgeu x y)) 1 d a imm s

/-! ## Bit fields, unary rows, constants, moves (R108 to R111) -/

/-- `bfx` (R108). -/
def execBfx (d a pos len : BitVec 6) (s : State) : StepResult := opUn (fun x => bfxW x pos.toNat len.toNat) d a s
/-- `bfxu` (R108). -/
def execBfxu (d a pos len : BitVec 6) (s : State) : StepResult := opUn (fun x => bfxuW x pos.toNat len.toNat) d a s
/-- `bfi` (R108): the destination is also a source. -/
def execBfi (d a pos len : BitVec 6) (s : State) : StepResult :=
  finishScalar 1 d (bfiW (readS s d) (readS s a) pos.toNat len.toNat) s
/-- `clz` (R109). -/
def execClz (d a : BitVec 6) (s : State) : StepResult := opUn (fun x => BitVec.ofNat 64 (clzN x.toNat 64)) d a s
/-- `ctz` (R109). -/
def execCtz (d a : BitVec 6) (s : State) : StepResult := opUn (fun x => BitVec.ofNat 64 (ctzN x.toNat 64)) d a s
/-- `popc` (R109). -/
def execPopc (d a : BitVec 6) (s : State) : StepResult := opUn (fun x => BitVec.ofNat 64 (popN x.toNat 64)) d a s
/-- `brev` (R109). -/
def execBrev (d a : BitVec 6) (s : State) : StepResult := opUn (fun x => BitVec.ofNat 64 (brevN x.toNat 64)) d a s
/-- `bswap` (R109). -/
def execBswap (d a : BitVec 6) (s : State) : StepResult := opUn (fun x => BitVec.ofNat 64 (bswapN x.toNat 8)) d a s
/-- `li` (R110). -/
def execLi (d : BitVec 6) (imm : BitVec 32) (s : State) : StepResult := finishScalar 1 d (simm32 imm) s
/-- `lih` (R110): the low half is kept. -/
def execLih (d : BitVec 6) (imm : BitVec 32) (s : State) : StepResult :=
  finishScalar 1 d (imm ++ (readS s d).setWidth 32) s
/-- `mov` (R111). -/
def execMov (d a : BitVec 6) (s : State) : StepResult := finishScalar 1 d (readS s a) s
/-- `lea` (R111). -/
def execLea (d a b : BitVec 6) (x : BitVec 4) (s : State) : StepResult :=
  finishScalar 1 d (leaW (readS s a) (readS s b) x.toNat) s
/-- `mfsr` (R112). -/
def execMfsr (d : BitVec 6) (sr : BitVec 16) (s : State) : StepResult := finishScalar 1 d (readSysReg s sr) s

/-! ## Branches, calls and jumps (R117 to R119) -/

/-- A sequencer goes to `target`. -/
def jumpTo (n : Nat) (target : Word) (s : State) : State := s.updSeq n fun q => q.jump s.pcyc target

/-- `br` (R117). -/
def execBr (target : BitVec 26) (s : State) : StepResult :=
  onSeq s fun n => .next (jumpTo n (targetOf (s.seq n).pc target) s)

/-- A conditional branch (R117): it compares `sD` with `sA` and writes no register. -/
def branchIf (rel : Word → Word → Bool) (d a : BitVec 6) (target : BitVec 26) (s : State) : StepResult :=
  onSeq s fun n =>
    if rel (readS s d) (readS s a) then .next (jumpTo n (targetOf (s.seq n).pc target) s) else finish s

/-- `beq` (R117). -/
def execBeq (d a : BitVec 6) (target : BitVec 26) (s : State) : StepResult := branchIf relSeq d a target s
/-- `bne` (R117). -/
def execBne (d a : BitVec 6) (target : BitVec 26) (s : State) : StepResult := branchIf relSne d a target s
/-- `blt` (R117). -/
def execBlt (d a : BitVec 6) (target : BitVec 26) (s : State) : StepResult := branchIf relSlt d a target s
/-- `bge` (R117). -/
def execBge (d a : BitVec 6) (target : BitVec 26) (s : State) : StepResult := branchIf relSge d a target s
/-- `bltu` (R117). -/
def execBltu (d a : BitVec 6) (target : BitVec 26) (s : State) : StepResult := branchIf relSltu d a target s
/-- `bgeu` (R117). -/
def execBgeu (d a : BitVec 6) (target : BitVec 26) (s : State) : StepResult := branchIf relSgeu d a target s

/-- `call` (R118). -/
def execCall (d : BitVec 6) (target : BitVec 26) (s : State) : StepResult :=
  onSeq s fun n =>
    let pc := (s.seq n).pc
    .next (s.updSeq n fun q => (q.write d.toNat (pc + 8) (s.pcyc + 1)).jump s.pcyc (targetOf pc target))

/-- The end of a call of DCCALL: the firmware's registers come back and the die controller returns to it; no register of it waits for an
access of the code (R495). -/
def endCall (n : Nat) (fault : Bool) (s : State) : State :=
  let d := n - 384
  let x := s.die d
  let s := s.setDie d { x with busy := false, inCall := false, done := true, callFault := fault }
  s.updSeq n fun q =>
    let f := x.firmware
    { q with s := f.s, pc := f.pc, ctxid := f.ctxid, tvec := f.tvec, run := f.run, loops := f.loops, shadow := f.shadow
             tepc := f.tepc, tcause := f.tcause, tinfo := f.tinfo, twhere := f.twhere, skip := f.skip, cmpl := f.cmpl, fwd := f.fwd, dbl := f.dbl
             behind := f.behind, waits := f.waits, busy := f.busy
             trap := false, handling := .none, last := s.pcyc, ready := s.pcyc + 3 }

/-- The address to which called code returns: the firmware's, a value of the model (log 8). -/
def firmwareReturn : Word := 0xFFFFFFFFFFFFFFF8

/-- A jump to a register value (R118, R119): a value that is no multiple of 8 raises ALIGN at the jump. In a die controller
that runs called code, a jump to the firmware's return address ends the call (R495). -/
def jumpReg (n : Nat) (t : Word) (s : State) (link : Seq → Seq) : StepResult :=
  if t.toNat % 8 ≠ 0 then .next (ownFault n Code.align t s)
  else if isDieCtl n && (s.die (n - 384)).inCall && t == firmwareReturn then .next (endCall n false s)
  else .next (s.updSeq n fun q => (link q).jump s.pcyc t)

/-- `jr` (R118). -/
def execJr (a : BitVec 6) (s : State) : StepResult := onSeq s fun n => jumpReg n (readS s a) s id

/-- `jalr` (R118): `sA` is read before `sD` is written. -/
def execJalr (d a : BitVec 6) (s : State) : StepResult :=
  onSeq s fun n =>
    let pc := (s.seq n).pc
    jumpReg n (readS s a) s fun q => q.write d.toNat (pc + 8) (s.pcyc + 1)

/-! ## Hardware loops (R121 to R123) and timed loops (R126) -/

/-- Loop `l` of a sequencer armed at the pc (R121); execution goes on at its begin. Where the `loop` itself stands at the end address of an
active loop, R121 sends execution to its begin and R123 evaluates that end: the end is evaluated first, which may return the pc to the
other loop's begin, and then the loop is armed (DESIGN CHOICE, log 46). -/
def armLoop (n : Nat) (l count span : Nat) (s : State) : State :=
  s.updSeq n fun q =>
    let pc := q.pc
    let armed : SeqLoop := { first := pc + 8, final := pc + BitVec.ofNat 64 (8 * span), count := count, active := true }
    let adv := q.advance s.pcyc
    { adv with loops := mset adv.loops l armed }

/-- `loop` (R121). -/
def execLoop (d : BitVec 6) (count span : BitVec 16) (s : State) : StepResult :=
  onSeq s fun n => .next (armLoop n d.toNat count.toNat span.toNat s)

/-- `loopr` (R122). With a count of 0 it skips the body: R122 does not say how. The skip is a taken transfer, which evaluates no loop end and
leaves loops by R124, a loop of this number that was active is inactive, and the next instruction may issue in the next cycle (DESIGN
CHOICE, log 47). -/
def execLoopr (d a : BitVec 6) (span : BitVec 16) (s : State) : StepResult :=
  onSeq s fun n =>
    let v := readS s a
    if v = 0 then
      .next (s.updSeq n fun q =>
        let q := q.jump s.pcyc (q.pc + BitVec.ofNat 64 (8 * (span.toNat + 1)))
        { q with ready := s.pcyc + 1, loops := mset q.loops d.toNat { mget {} q.loops d.toNat with count := 0, active := false } })
    else if 65535 < v.toNat then .next (ownFault n Code.loop v s)
    else .next (armLoop n d.toNat v.toNat span.toNat s)

/-- `tloop` (R126): the loop registers of the tile are set; the placements follow from them (R127). -/
def execTloop (d : BitVec 6) (_stride : BitVec 12) (count span : BitVec 10) (s : State) : StepResult :=
  onTile s fun t =>
    let x := s.tile t
    .next (s.setTile t { x with lb := mput 0 x.lb d.toNat (s.cur.entry + 1)
                                le := mput 0 x.le d.toNat (s.cur.entry + span.toNat)
                                lc := mput 0 x.lc d.toNat count.toNat })

end Sys2Proof.Machine
end

