-- ==== Sys2Proof/Machine/VectorFp.lean ====
section
/-! DEFINITION. Floating arithmetic, compares, special functions, conversions, quantisation and decoding of the vector unit
(R286 to R295). -/

namespace Sys2Proof.Machine

/-! ## Arithmetic (R286, R288) -/

/-- A rounding row of OP 0x48: `g` gives the exact value from the mode and the operands. -/
def fpRow (g : Bool → Exact → Exact → Exact → Exact) (lat : Nat) (fold : BitVec 2) (d a b c : BitVec 6) (p ft : BitVec 3)
    (rm : BitVec 4) (s : State) : StepResult :=
  let f := Flt.ofTag ft
  let w := f.width
  let cap := grab s a b c p.toNat
  let x := (readV s a).toNat
  let y := (readV s b).toNat
  let z := (readV s c).toNat
  let r := rm.toNat
  finishElems lat w fold d (fun k => cap.pred.getLsbD k)
    (fun k => roundTo f (g (isRdn r) (.decode f (elem w x k)) (.decode f (elem w y k)) (.decode f (elem w z k))) r
      (stochFor cap r k)) s

/-- `vadd` of floats (R286). -/
def execVaddFp (fold : BitVec 2) (d a b : BitVec 6) (p ft : BitVec 3) (rm : BitVec 4) (s : State) : StepResult :=
  fpRow (fun rdn x y _ => .add rdn x y) 4 fold d a b 0 p ft rm s
/-- `vsub` of floats (R286). -/
def execVsubFp (fold : BitVec 2) (d a b : BitVec 6) (p ft : BitVec 3) (rm : BitVec 4) (s : State) : StepResult :=
  fpRow (fun rdn x y _ => .add rdn x y.neg) 4 fold d a b 0 p ft rm s
/-- `vmul` of floats (R286). -/
def execVmulFp (fold : BitVec 2) (d a b : BitVec 6) (p ft : BitVec 3) (rm : BitVec 4) (s : State) : StepResult :=
  fpRow (fun _ x y _ => .mul x y) 4 fold d a b 0 p ft rm s
/-- `vfma` of floats (R286). -/
def execVfma (fold : BitVec 2) (d a b c : BitVec 6) (p ft : BitVec 3) (rm : BitVec 4) (s : State) : StepResult :=
  fpRow (fun rdn x y z => .add rdn (.mul x y) z) 4 fold d a b c p ft rm s
/-- `vfms` of floats (R286). -/
def execVfms (fold : BitVec 2) (d a b c : BitVec 6) (p ft : BitVec 3) (rm : BitVec 4) (s : State) : StepResult :=
  fpRow (fun rdn x y z => .add rdn (.mul x y) z.neg) 4 fold d a b c p ft rm s
/-- `vfnma` of floats (R286). -/
def execVfnma (fold : BitVec 2) (d a b c : BitVec 6) (p ft : BitVec 3) (rm : BitVec 4) (s : State) : StepResult :=
  fpRow (fun rdn x y z => .add rdn z (Exact.mul x y).neg) 4 fold d a b c p ft rm s
/-- `vdiv` of floats (R286, R288). -/
def execVdiv (fold : BitVec 2) (d a b : BitVec 6) (p ft : BitVec 3) (rm : BitVec 4) (s : State) : StepResult :=
  fpRow (fun _ x y _ => .div x y) 16 fold d a b 0 p ft rm s
/-- `vsqrt` of floats (R286, R288). -/
def execVsqrt (fold : BitVec 2) (d a : BitVec 6) (p ft : BitVec 3) (rm : BitVec 4) (s : State) : StepResult :=
  fpRow (fun _ x _ _ => sqrtExact x) 16 fold d a 0 0 p ft rm s

/-! ## Minimum, maximum, absolute value, negation (R287): no rounding -/

/-- A row on encodings. -/
def fpPick (g : Flt → Nat → Nat → Nat) (fold : BitVec 2) (d a b : BitVec 6) (p ft : BitVec 3) (s : State) : StepResult :=
  let f := Flt.ofTag ft
  let w := f.width
  let cap := grab s a b 0 p.toNat
  let x := (readV s a).toNat
  let y := (readV s b).toNat
  finishElems 4 w fold d (fun k => cap.pred.getLsbD k) (fun k => g f (elem w x k) (elem w y k)) s

/-- `vmin` of floats (R287). -/
def execVminFp (fold : BitVec 2) (d a b : BitVec 6) (p ft : BitVec 3) (s : State) : StepResult :=
  fpPick fmin fold d a b p ft s
/-- `vmax` of floats (R287). -/
def execVmaxFp (fold : BitVec 2) (d a b : BitVec 6) (p ft : BitVec 3) (s : State) : StepResult :=
  fpPick fmax fold d a b p ft s
/-- `vabs` of floats (R287). -/
def execVabsFp (fold : BitVec 2) (d a : BitVec 6) (p ft : BitVec 3) (s : State) : StepResult :=
  fpPick (fun f x _ => fabs f x) fold d a 0 p ft s
/-- `vneg` of floats (R287). -/
def execVnegFp (fold : BitVec 2) (d a : BitVec 6) (p ft : BitVec 3) (s : State) : StepResult :=
  fpPick (fun f x _ => fneg f x) fold d a 0 p ft s

/-! ## Compares (R289) -/

/-- A compare of floats: `nan` where either operand is NaN. -/
def fpCompare (nan : Bool) (rel : Exact → Exact → Bool) (fold : BitVec 2) (d a b : BitVec 6) (p ft : BitVec 3) (s : State) :
    StepResult :=
  let f := Flt.ofTag ft
  let w := f.width
  let cap := grab s a b 0 p.toNat
  let x := (readV s a).toNat
  let y := (readV s b).toNat
  finishCompare 4 w fold d
    (fun k =>
      let u := Exact.decode f (elem w x k)
      let v := Exact.decode f (elem w y k)
      cap.pred.getLsbD k && (if u.isNan || v.isNan then nan else rel u v)) s

/-- `vcmpeq` of floats (R289). -/
def execVcmpeqFp (fold : BitVec 2) (d a b : BitVec 6) (p ft : BitVec 3) (s : State) : StepResult :=
  fpCompare false (fun x y => !x.lt y && !y.lt x) fold d a b p ft s
/-- `vcmpne` of floats (R289). -/
def execVcmpneFp (fold : BitVec 2) (d a b : BitVec 6) (p ft : BitVec 3) (s : State) : StepResult :=
  fpCompare true (fun x y => x.lt y || y.lt x) fold d a b p ft s
/-- `vcmplt` of floats (R289). -/
def execVcmpltFp (fold : BitVec 2) (d a b : BitVec 6) (p ft : BitVec 3) (s : State) : StepResult :=
  fpCompare false (fun x y => x.lt y) fold d a b p ft s
/-- `vcmple` of floats (R289). -/
def execVcmpleFp (fold : BitVec 2) (d a b : BitVec 6) (p ft : BitVec 3) (s : State) : StepResult :=
  fpCompare false (fun x y => !y.lt x) fold d a b p ft s
/-- `vcmpgt` of floats (R289). -/
def execVcmpgtFp (fold : BitVec 2) (d a b : BitVec 6) (p ft : BitVec 3) (s : State) : StepResult :=
  fpCompare false (fun x y => y.lt x) fold d a b p ft s
/-- `vcmpge` of floats (R289). -/
def execVcmpgeFp (fold : BitVec 2) (d a b : BitVec 6) (p ft : BitVec 3) (s : State) : StepResult :=
  fpCompare false (fun x y => !x.lt y) fold d a b p ft s
/-- `vcmpun` of floats (R289). -/
def execVcmpun (fold : BitVec 2) (d a b : BitVec 6) (p ft : BitVec 3) (s : State) : StepResult :=
  fpCompare true (fun _ _ => false) fold d a b p ft s

/-! ## Special functions (R290) -/

/-- `vexp2` (R290). -/
def execVexp2 (fold : BitVec 2) (d a : BitVec 6) (p ft : BitVec 3) (rm : BitVec 4) (s : State) : StepResult :=
  fpRow (fun _ x _ _ => exp2Exact x) 12 fold d a 0 0 p ft rm s
/-- `vlog2` (R290). -/
def execVlog2 (fold : BitVec 2) (d a : BitVec 6) (p ft : BitVec 3) (rm : BitVec 4) (s : State) : StepResult :=
  fpRow (fun _ x _ _ => log2Exact x) 12 fold d a 0 0 p ft rm s
/-- `vrcp` (R290). -/
def execVrcp (fold : BitVec 2) (d a : BitVec 6) (p ft : BitVec 3) (rm : BitVec 4) (s : State) : StepResult :=
  fpRow (fun _ x _ _ => rcpExact x) 12 fold d a 0 0 p ft rm s
/-- `vrsqrt` (R290). -/
def execVrsqrt (fold : BitVec 2) (d a : BitVec 6) (p ft : BitVec 3) (rm : BitVec 4) (s : State) : StepResult :=
  fpRow (fun _ x _ _ => rsqrtExact x) 12 fold d a 0 0 p ft rm s
/-- `vtanh` (R290). -/
def execVtanh (fold : BitVec 2) (d a : BitVec 6) (p ft : BitVec 3) (rm : BitVec 4) (s : State) : StepResult :=
  fpRow (fun _ x _ _ => tanhExact x) 12 fold d a 0 0 p ft rm s
/-- `vsigm` (R290). -/
def execVsigm (fold : BitVec 2) (d a : BitVec 6) (p ft : BitVec 3) (rm : BitVec 4) (s : State) : StepResult :=
  fpRow (fun _ x _ _ => sigmExact x) 12 fold d a 0 0 p ft rm s

/-! ## Conversions (R291, R292) -/

/-- Width of an element type number (R79). -/
def widthOfType (n : Nat) : Nat :=
  match n with
  | 0 => 32 | 1 => 32 | 2 => 16 | 3 => 16 | 4 => 8 | 5 => 8 | 6 => 32 | 7 => 16 | 8 => 16 | 9 => 8 | 10 => 8 | 11 => 4
  | 12 => 8 | _ => 16

/-- Is an element type number signed? -/
def signedType (n : Nat) : Bool := n == 0 || n == 2 || n == 4

/-- The exact value of an element of a floating or E8M0 type. -/
def floatOfType (t x : Nat) : Exact := if t = 12 then scaleValue x else .decode (Flt.ofType t) x

/-- One element of `vcvt` (R292). -/
def convert (src dst x rm stoch : Nat) : Nat :=
  if src < 6 then
    let v : Int := if signedType src then signedOf (widthOfType src) x else (x : Int)
    if dst < 6 then
      if widthOfType src ≤ widthOfType dst then patternOf (widthOfType dst) v
      else satPattern (widthOfType dst) (signedType dst) v
    else roundTo (Flt.ofType dst) (.ofInt v) rm stoch
  else if dst < 6 then toIntType (widthOfType dst) (signedType dst) (floatOfType src x) rm stoch
  else roundTo (Flt.ofType dst) (floatOfType src x) rm stoch

/-- A converting row that is whole-register: the enabled elements of the low part of `d`, and zeros above (R291, R275). -/
def convertWhole (n wd : Nat) (fold : BitVec 2) (d : BitVec 6) (en : Nat → Bool) (f : Nat → Nat) (s : State) : StepResult :=
  let on := fun k => if k < n then en k else true
  finishWhole 4 fold [.vector d.toNat (maskOf wd on) (vecOfElems wd fun k => if k < n ∧ on k = true then f k else 0)] s

/-- `vcvt` (R292): element-wise between equal widths, else whole-register. -/
def execVcvt (fold : BitVec 2) (d a src : BitVec 6) (p : BitVec 3) (rm dst : BitVec 4) (s : State) : StepResult :=
  let ws := widthOfType src.toNat
  let wd := widthOfType dst.toNat
  let cap := grab s a src 0 p.toNat
  let x := (readV s a).toNat
  let r := rm.toNat
  let f := fun k => convert src.toNat dst.toNat (elem ws x k) r (stochFor cap r k)
  if ws = wd then finishElems 4 wd fold d (fun k => cap.pred.getLsbD k) f s
  else convertWhole (min (elemCount ws) (elemCount wd)) wd fold d (fun k => cap.pred.getLsbD k) f s

/-- EMAX of a quantised format (R293). -/
def emaxOf (f : Flt) : Nat :=
  match f with
  | .e4m3 => 8 | .e5m2 => 15 | _ => 2

/-- The larger of two magnitudes, as ratios. -/
def maxMag (x y : Nat × Nat) : Nat × Nat := if x.1 * y.2 < y.1 * x.2 then y else x

/-- The largest magnitude of the finite values of a block. -/
def blockMax : List Exact → Nat × Nat
  | [] => (0, 1)
  | .fin _ n d :: xs => maxMag (n, d) (blockMax xs)
  | _ :: xs => blockMax xs

/-- The scale that `vquant` chooses for the enabled values of a block (R293). -/
def chooseScale (f : Flt) (blk : List Exact) : Nat :=
  if blk.any Exact.isNan || (f != .e5m2 && blk.any Exact.isInf) then 255
  else
    let m := blockMax blk
    if m.1 = 0 then 127
    else (min 254 (max 0 (floorLog2 m.1 m.2 - emaxOf f + 127))).toNat

/-- One element of `vquant` under its block's scale (R293): always saturating. -/
def quantElem (f : Flt) (sc : Nat) (x : Exact) (rm stoch : Nat) : Nat :=
  if sc = 255 then 0 else roundTo f (.mul x (.dyadic false 1 (127 - (sc : Int)))) (rm % 8 + 8) stoch

/-- `vquant` (R293). Where `vC` is `vD`, the results follow the order of R293's text: byte 0 of the scales, then the
elements, then the rest of the scales. -/
def execVquant (fold : BitVec 2) (d a src c : BitVec 6) (p : BitVec 3) (rm dst : BitVec 4) (s : State) : StepResult :=
  let sf := Flt.ofType src.toNat
  let df := Flt.ofType dst.toNat
  let ws := sf.width
  let wd := df.width
  let n := elemCount ws
  let cap := grab s a src c p.toNat
  let en := fun k => cap.pred.getLsbD k
  let x := (readV s a).toNat
  let val := fun k => Exact.decode sf (elem ws x k)
  let scales := (List.range (n / 32)).map fun g =>
    chooseScale df (((List.range 32).filter fun j => en (32 * g + j)).map fun j => val (32 * g + j))
  let sc := fun g => scales.getD g 0
  let on := fun k => if k < n then en k else true
  finishWhole 4 fold
    [.vector c.toNat (BitVec.ofNat 2048 255) (BitVec.ofNat 2048 (sc 0)),
     .vector d.toNat (maskOf wd on)
       (vecOfElems wd fun k => if k < n ∧ en k = true then quantElem df (sc (k / 32)) (val k) rm.toNat (stochFor cap rm.toNat k) else 0),
     .vector c.toNat (maskOf 8 fun j => j != 0) (vecOfElems 8 fun j => if j = 0 then 0 else sc j)] s

/-- The scale byte of element `k` (R294, R295). -/
def scaleOf (v : Nat) (k : Nat) : Exact := scaleValue (elem 8 v (k / 32))

/-- `vdequant` and `vscale` (R294). -/
def scaleRow (fold : BitVec 2) (d a src c : BitVec 6) (p : BitVec 3) (rm dst : BitVec 4) (s : State) : StepResult :=
  let sf := Flt.ofType src.toNat
  let df := Flt.ofType dst.toNat
  let cap := grab s a src c p.toNat
  let x := (readV s a).toNat
  let y := (readV s c).toNat
  convertWhole (min (elemCount sf.width) (elemCount df.width)) df.width fold d (fun k => cap.pred.getLsbD k)
    (fun k => roundTo df (.mul (.decode sf (elem sf.width x k)) (scaleOf y k)) rm.toNat (stochFor cap rm.toNat k)) s

/-- `vdequant` (R294). -/
def execVdequant (fold : BitVec 2) (d a src c : BitVec 6) (p : BitVec 3) (rm dst : BitVec 4) (s : State) : StepResult :=
  scaleRow fold d a src c p rm dst s

/-- `vscale` (R294). -/
def execVscale (fold : BitVec 2) (d a src c : BitVec 6) (p : BitVec 3) (rm dst : BitVec 4) (s : State) : StepResult :=
  scaleRow fold d a src c p rm dst s

/-- `vlq2` (R295). -/
def execVlq2 (fold : BitVec 2) (d a src c : BitVec 6) (p : BitVec 3) (rm dst : BitVec 4) (s : State) : StepResult :=
  let df := Flt.ofType dst.toNat
  let cap := grab s a src c p.toNat
  let x := (readV s a).toNat
  let y := (readV s c).toNat
  convertWhole (elemCount df.width) df.width fold d (fun k => cap.pred.getLsbD k)
    (fun k => roundTo df (.mul (lq2Value (elem 16 x (k / 8)) (k % 8)) (scaleOf y k)) rm.toNat (stochFor cap rm.toNat k)) s

end Sys2Proof.Machine
end

