-- ==== Sys2Proof/Machine/Tensor.lean ====
section
/-! DEFINITION. The tensor unit: configuration, operand buffers, operation slots, firings, accumulators and systolic passes
(R209, R210, R316 to R346). -/

namespace Sys2Proof.Machine

/-! ## The configuration word (R317, R318) -/

namespace Cfg

/-- Operand code of A. -/
def afmt (c : BitVec 32) : Nat := bitsOf c.toNat 29 3
/-- Operand code of B. -/
def bfmt (c : BitVec 32) : Nat := bitsOf c.toNat 26 3
/-- 0 FA40, 1 I40. -/
def kind (c : BitVec 32) : Nat := bitsOf c.toNat 25 1
/-- M. -/
def m (c : BitVec 32) : Nat := bitsOf c.toNat 19 6 + 1
/-- N. -/
def n (c : BitVec 32) : Nat := bitsOf c.toNat 13 6 + 1
/-- K. -/
def k (c : BitVec 32) : Nat := 16 * (bitsOf c.toNat 5 8 + 1)
/-- Firings per result. -/
def ch (c : BitVec 32) : Nat := bitsOf c.toNat 0 5 + 1
/-- G, the scale blocks of a row (R321). -/
def groups (c : BitVec 32) : Nat := (k c + 31) / 32
/-- D, the cycles of a firing (R318). -/
def cycles (c : BitVec 32) : Nat :=
  if afmt c < 2 then 2 * k c else if afmt c = 4 && bfmt c = 4 then k c / 2 else k c

end Cfg

/-- Element width of an operand code; LQ2 counts 2 bits a weight (R321). -/
def opWidth (code : Nat) : Nat := if code < 2 then 16 else if code = 4 then 4 else if code = 6 then 2 else 8
/-- Does an operand code carry block scales (R318)? -/
def opScaled (code : Nat) : Bool := code == 2 || code == 3 || code == 4 || code == 6
/-- Ceiling of a quotient. -/
def ceilDiv (a b : Nat) : Nat := (a + b - 1) / b

/-! ## Operand buffers (R320, R321) -/

/-- The memory tile, the partition's place in its table, and the buffer that starts at a near address of a quad. -/
def bufferAt (s : State) (q a : Nat) : Option (Nat × Nat × Nat) :=
  if 2 ^ 23 ≤ a then none
  else
    let mt := memoryOfQuad q (a / 2 ^ 21)
    let o := a % 2 ^ 21
    let ps := (s.mtile mt).parts
    match ps.findIdx? fun p => p.mode == .tileStore && p.base ≤ o && o < p.base + p.granules * 65536 with
    | none => none
    | some i =>
      let p := ps.getD i { base := 0, granules := 0, mode := .ordinary }
      let z := p.granules * 65536 / p.buffers
      if p.buffers ≠ 0 && (o - p.base) % z = 0 then some (mt, i, (o - p.base) / z) else none

/-- Bytes of a buffer of a partition. -/
def bufferBytes (s : State) (mt i : Nat) : Nat :=
  match (s.mtile mt).parts[i]? with
  | some p => p.granules * 65536 / p.buffers
  | none => 0

/-- Near address of buffer `n` of a partition. -/
def bufferAddr (s : State) (mt i n : Nat) : Nat :=
  match (s.mtile mt).parts[i]? with
  | some p => localOfPos mt * 2 ^ 21 + p.base + n * (p.granules * 65536 / p.buffers)
  | none => 0

/-- The tag of a buffer: FULL? -/
def bufferFull (s : State) (mt i n : Nat) : Bool :=
  match (s.mtile mt).parts[i]? with
  | some p => p.full.getD n false
  | none => false

/-- The tag of a buffer written. -/
def setBuffer (mt i n : Nat) (full : Bool) (s : State) : State :=
  let x := s.mtile mt
  match x.parts[i]? with
  | some p => s.setMtile mt { x with parts := x.parts.set i { p with full := p.full.set n full } }
  | none => s

/-- Row length in bytes for `n` elements of width `w`. -/
def rowBytes (n w : Nat) : Nat := 64 * ceilDiv (n * w) 512

/-- Bytes that an operand of V rows occupies (R321). -/
def operandBytes (code v k : Nat) (col : Bool) : Nat :=
  let w := opWidth code
  (if col then k * rowBytes v w else v * rowBytes k w) + (if opScaled code then 64 * ceilDiv (v * ceilDiv k 32) 64 else 0)

/-- The raw bits of element (v, k) of an operand at near-memory key `base`: for LQ2 the 16-bit index that holds it. -/
def operandRaw (near : Memory) (base code vs ks : Nat) (col : Bool) (v k : Nat) : Nat :=
  let w := opWidth code
  let row := if col then k else v
  let i := if col then v else k
  let start := base + row * rowBytes (if col then vs else ks) w
  if code = 6 then readLE near (start + 2 * (i / 8)) 2
  else if w = 4 then bitsOf (readByte near (start + i / 2)).toNat (4 * (i % 2)) 4
  else readLE near (start + i * (w / 8)) (w / 8)

/-- The scale byte (v, g) of an operand (R321). -/
def operandScale (near : Memory) (base code vs ks : Nat) (col : Bool) (v g : Nat) : Nat :=
  let w := opWidth code
  let at_ := if col then ks * rowBytes vs w + g * vs + v else vs * rowBytes ks w + v * ceilDiv ks 32 + g
  (readByte near (base + at_)).toNat

/-- The value of an element's bits without its scale; `k` tells the coordinate of an LQ2 index (R57). -/
def operandValue (code raw k : Nat) : Exact :=
  match code with
  | 0 => .decode .bf16 raw
  | 1 => .decode .f16 raw
  | 2 => .decode .e4m3 raw
  | 3 => .decode .e5m2 raw
  | 4 => .decode .e2m1 raw
  | 5 => .ofInt (signedOf 8 raw)
  | _ => lq2Value raw (k % 8)

/-! ## Sums (R54, R55, R67, R68) -/

/-- An operand as the unit reads it: the value of element (v, k) and the scale of block (v, g). -/
structure Operand where
  value : Nat → Nat → Exact
  scale : Nat → Nat → Exact

/-- Near-memory key of a near address of a quad. -/
def quadKey (q a : Nat) : Nat := nearKey (memoryOfQuad q (a / 2 ^ 21)) (a % 2 ^ 21)

/-- An operand in near memory. -/
def nearOperand (near : Memory) (q addr code vs ks : Nat) (col : Bool) : Operand :=
  let base := quadKey q addr
  { value := fun v k => operandValue code (operandRaw near base code vs ks col v k) k
    scale := fun v g => if opScaled code then scaleValue (operandScale near base code vs ks col v g) else .fin false 1 1 }

/-- The keys of the near words of an operand. -/
def operandKeys (q addr code vs ks : Nat) (col : Bool) : List Nat :=
  (List.range (ceilDiv (operandBytes code vs ks col) 8)).map fun i => quadKey q addr + 8 * i

/-- Near words that the operand port reads in a cycle: which of those not yet read is open (R329, log 2). `n` is the counter of free
values. -/
def readSome (near : Memory) (n : Nat) (keys : List Nat) (got : Map Nat) : Map Nat :=
  keys.zipIdx.foldl (fun g e =>
    if (mfind g e.1).isNone && Config.freeChoice (n + e.2) then mset g e.1 (readLE near e.1 8) else g) got

/-- Near memory with some words as they were read. -/
def asRead (near : Memory) (got : Map Nat) : Memory := got.foldl (fun m e => writeLE m e.1 8 e.2) near

/-- The near words of a firing's operands. -/
def Firing.keys (q : Nat) (f : Firing) : List Nat :=
  operandKeys q f.a (Cfg.afmt f.cfg) (Cfg.m f.cfg) (Cfg.k f.cfg) (bitOf f.flags 0) ++
    operandKeys q f.b (Cfg.bfmt f.cfg) (Cfg.n f.cfg) (Cfg.k f.cfg) (bitOf f.flags 1)

/-- The near words of a `twload`. -/
def Loading.keys (q : Nat) (l : Loading) : List Nat := operandKeys q l.addr (Cfg.bfmt l.cfg) 64 64 false

/-- The weight store of a tile as the B operand (R343). -/
def storedWeights (x : Weights) : Operand :=
  { value := fun j k => operandValue x.fmt (mget 0 x.cells (64 * k + j)).toNat k
    scale := fun j g => if opScaled x.fmt then scaleValue (mget 0 x.scales (64 * g + j)).toNat else .fin false 1 1 }

/-- S of R67: the exact sum of the products of group `g`, with its scales. -/
def groupSum (a b : Operand) (i j ks g : Nat) : Exact :=
  let prods := (List.range (min 32 (ks - 32 * g))).foldl
    (fun x d => Exact.add false x (Exact.mul (a.value i (32 * g + d)) (b.value j (32 * g + d)))) (.fin false 0 1)
  .mul (.mul prods (a.scale i g)) (b.scale j g)

/-- The integer behind an exact value that is one. -/
def Exact.toInt : Exact → Int
  | .fin s n d => Exact.signedNum s (n / d)
  | _ => 0

/-- An accumulator word with a group sum added: one rounding under RNE in FA40 (R54), saturation in I40 (R55). -/
def accAdd (kind : Nat) (c : BitVec 40) (x : Exact) : BitVec 40 :=
  if kind = 0 then BitVec.ofNat 40 (roundTo .fa40 (.add false (.decode .fa40 c.toNat) x) 0)
  else BitVec.ofNat 40 (patternOf 40 (satSigned 40 (c.toInt + Exact.toInt x)))

/-- Element (i, j) after a firing: the groups in increasing K (R67). -/
def firedCell (kind : Nat) (a b : Operand) (ks i j : Nat) (c : BitVec 40) : BitVec 40 :=
  (List.range (ceilDiv ks 32)).foldl (fun c g => accAdd kind c (groupSum a b i j ks g)) c

/-- The words of an accumulator after each element has been changed. -/
def mapCells (m n : Nat) (f : Nat → Nat → BitVec 40 → BitVec 40) (cells : Map (BitVec 40)) : Map (BitVec 40) :=
  (List.range (m * n)).map fun e => (64 * (e / n) + e % n, f (e / n) (e % n) (mget 0 cells (64 * (e / n) + e % n)))

/-! ## Objects -/

/-- The tensor unit of a tile. -/
def tensorAt (s : State) (t : Nat) : Tensor := (s.tile t).tensor
/-- The tensor unit of a tile replaced. -/
def setTensor (t : Nat) (x : Tensor) (s : State) : State := s.setTile t { s.tile t with tensor := x }
/-- An operation slot. -/
def Tensor.slot (x : Tensor) (n : Nat) : TSlot := mget {} x.slots n
/-- An accumulator. -/
def Tensor.acc (x : Tensor) (n : Nat) : Acc := mget {} x.accs n
/-- An accumulator replaced. -/
def Tensor.setAcc (x : Tensor) (n : Nat) (a : Acc) : Tensor := { x with accs := mset x.accs n a }
/-- A slot replaced. -/
def Tensor.setSlot (x : Tensor) (n : Nat) (a : TSlot) : Tensor := { x with slots := mset x.slots n a }
/-- Firings in flight of a slot. -/
def Tensor.inFlight (x : Tensor) (ts : Nat) : Nat := (x.firings.filter fun f => f.ts = ts).length

/-- `TINFO` of TENSOR (R336). -/
def tensorInfo (why slot acc addr : Nat) : Word :=
  BitVec.ofNat 64 (why % 16 * 2 ^ 32 + slot % 8 * 2 ^ 29 + acc % 8 * 2 ^ 26 + addr % 2 ^ 23)

/-- TENSOR as an issue fault (class I). -/
def raiseTensor (why slot acc addr : Nat) (s : State) : StepResult := raise Code.tensor (tensorInfo why slot acc addr) s

/-- TENSOR as a completion fault (class C) with the place of the entry. -/
def reportTensor (t why slot acc addr seg entry stamp : Nat) (op : Option Nat) (s : State) : State :=
  tileReport t { code := Code.tensor, info := tensorInfo why slot acc addr, loc := s.tileLoc t seg entry stamp, op := op } s

/-- A setting that takes effect in the next package cycle (R325). -/
def putSetting (x : TSetting) (s : State) : StepResult :=
  onTile s fun t =>
    let u := tensorAt s t
    .next (setTensor t { u with settings := u.settings ++ [x] } s)

/-- The settings take effect, in issue order (R325). -/
def Tensor.apply (x : Tensor) : TSetting → Tensor
  | .cfg w => { x with cfg := w }
  | .define ts y => x.setSlot ts y
  | .arm ts seg entry stamp => x.setSlot ts { x.slot ts with state := .armed, armedBy := (seg, entry, stamp) }
  | .disarm ts => if (x.slot ts).state == .armed then x.setSlot ts { x.slot ts with state := .defined } else x

/-- All settings take effect. -/
def Tensor.settle (x : Tensor) : Tensor := x.settings.foldl Tensor.apply { x with settings := [] }

/-! ## The systolic grid (R209, R342) -/

/-- The root group of a tile's quad. -/
def groupOfTile (s : State) (t : Nat) : Option (Nat × Nat × Nat) := groupOfQuad s (quadOfPos t)
/-- A root group. -/
def groupAt (s : State) (c g i : Nat) : Group := (((s.graph? c g).map fun x => x.groups).getD []).getD i {}
/-- A root group replaced. -/
def setGroup (c g i : Nat) (x : Group) (s : State) : State :=
  match s.graph? c g with
  | none => s
  | some y => s.setGraph c g { y with groups := y.groups.set i x }
/-- Is the tile in a group whose systolic bit is set? -/
def inSystolic (s : State) (t : Nat) : Bool :=
  match groupOfTile s t with
  | some (c, g, i) => (groupAt s c g i).systolic
  | none => false

/-- Columns and rows of quads that a list of quads covers, with its lowest quad: the rectangle of R209. -/
def quadRect (qs : List Nat) : Option (Nat × Nat × Nat) :=
  match qs with
  | [] => none
  | q :: _ =>
    let d := q / 32
    let xs := qs.map fun q => q % 32 % 4
    let ys := qs.map fun q => q % 32 / 4
    let x0 := xs.foldl min 3
    let y0 := ys.foldl min 7
    let a := xs.foldl max 0 - x0 + 1
    let b := ys.foldl max 0 - y0 + 1
    if qs.all (fun q => q / 32 = d) && qs.eraseDups.length = a * b then some (d * 32 + y0 * 4 + x0, a, b) else none

/-- The tile at row ρ and column γ of the grid whose lowest quad is `q0` (R342). -/
def gridTile (q0 r c : Nat) : Nat :=
  let d := q0 / 32
  posOf d (4 * (q0 % 32 % 4) + 2 * c + r % 2) (2 * (q0 % 32 / 4) + r)

/-- Do the compute tiles of a placed group lie in one region in every mode (R209)? -/
def oneRegion (g : Graph) (i : Nat) : Bool :=
  let tiles := (g.groups.getD i {}).quads.flatMap fun q => (List.range 4).map (computeOfQuad q)
  g.image.modes.all fun m =>
    match m with
    | none => true
    | some m => m.regions.any fun r => tiles.all fun t => r.lists.any fun l => g.placed.getD l 0 = t

/-- The first router of a rectangle from which a link inside it has lane 6 or 7 owned (R209). -/
def meshLaneTaken (s : State) (q0 a b : Nat) : Option Nat :=
  let d := q0 / 32
  let x0 := 4 * (q0 % 32 % 4)
  let y0 := 2 * (q0 % 32 / 4)
  let inside := fun (x y : Nat) (dir : Nat) =>
    match dir with
    | 0 => x + 1 < x0 + 4 * a
    | 1 => x0 < x
    | 2 => y + 1 < y0 + 2 * b
    | _ => y0 < y
  ((List.range (8 * a * b)).map fun i => (x0 + i % (4 * a), y0 + i / (4 * a))).findSome? fun p =>
    if (List.range 4).any fun dir => inside p.1 p.2 dir &&
      ((mfind s.lanes ((posOf d p.1 p.2 * 5 + dir) * 8 + 6)).isSome || (mfind s.lanes ((posOf d p.1 p.2 * 5 + dir) * 8 + 7)).isSome)
    then some (posOf d p.1 p.2) else none

/-- The condition of R209 that fails first, as `TINFO`; none where all hold. -/
def systolicRefusal (s : State) (c g i : Nat) : Option Word :=
  match quadRect (groupAt s c g i).quads with
  | none => some 1
  | some (q0, a, b) =>
    match s.graph? c g with
    | none => some 1
    | some x =>
      if !oneRegion x i then some 2
      else (meshLaneTaken s q0 a b).map fun t => BitVec.ofNat 64 (tileAddr t * 2 ^ 16 + 3)

/-- `tsysto` (R342): the sequencer waits until no firing and no pass is in flight in its group. A die controller and the dispatcher have no
quad and no root group, and no rule says what `tsysto` does there: SYSTOLIC with condition 1, there being no rectangle (DESIGN CHOICE,
log 71). -/
def execTsysto (on : BitVec 1) (s : State) : StepResult :=
  onSeq s fun n =>
    match (if isQuadSeq n then groupOfQuad s n else none) with
    | none => .next (ownFault n Code.systolic 1 s)
    | some (c, g, i) =>
      let x := groupAt s c g i
      match (if on = 1 then systolicRefusal s c g i else none) with
      | some info => .next (ownFault n Code.systolic info s)
      | none =>
        let busy := !x.passes.isEmpty || x.starting.isSome || s.tiles.any fun e => x.quads.contains (quadOfPos e.1) && !e.2.tensor.firings.isEmpty
        if busy then stay n (.tsysto g i (on = 1)) s else passOn n (setGroup c g i { x with systolic := on = 1 } s)

/-! ## Slots (R319, R323 to R325) -/

/-- `tcfg` (R319). -/
def execTcfg (imm : BitVec 32) (s : State) : StepResult := putSetting (.cfg imm) s

/-- `tdef` (R324): the checks in their order. -/
def execTdef (d a b c : BitVec 6) (flags : BitVec 4) (s : State) : StepResult :=
  onTile s fun t =>
    let u := tensorAt s t
    let ts := d.toNat
    let q := quadOfPos t
    let fa := (readS s a).toNat
    let fb := (readS s b).toNat
    let f := flags.toNat
    let cfg := u.cfg
    if (u.slot ts).state == .armed then raiseTensor 3 ts c.toNat 0 s
    else
      match bufferAt s q fa, bufferAt s q fb with
      | none, _ => raiseTensor 0 ts c.toNat fa s
      | _, none => raiseTensor 0 ts c.toNat fb s
      | some (ma, ia, na), some (mb, ib, nb) =>
        if bufferBytes s ma ia < operandBytes (Cfg.afmt cfg) (Cfg.m cfg) (Cfg.k cfg) (bitOf f 0) then raiseTensor 1 ts c.toNat fa s
        else if bufferBytes s mb ib < operandBytes (Cfg.bfmt cfg) (Cfg.n cfg) (Cfg.k cfg) (bitOf f 1) then raiseTensor 1 ts c.toNat fb s
        else if (bitOf f 0 && Cfg.afmt cfg = 6) || (bitOf f 1 && Cfg.bfmt cfg = 6) then raiseTensor 2 ts c.toNat 0 s
        else putSetting (.define ts { state := .defined, cfg := cfg, aAddr := fa, bAddr := fb, acc := c.toNat, flags := f, curA := na, curB := nb }) s

/-- Near address of a slot's current A buffer (R324). -/
def currentA (s : State) (q : Nat) (x : TSlot) : Option (Nat × Nat) :=
  (bufferAt s q x.aAddr).map fun p => (bufferAddr s p.1 p.2.1 x.curA, bit (bufferFull s p.1 p.2.1 x.curA))
/-- Near address of a slot's current B buffer, and its tag. -/
def currentB (s : State) (q : Nat) (x : TSlot) : Option (Nat × Nat) :=
  (bufferAt s q x.bAddr).map fun p => (bufferAddr s p.1 p.2.1 x.curB, bit (bufferFull s p.1 p.2.1 x.curB))
/-- The number of buffers of the partition at a near address. -/
def buffersAt (s : State) (q a : Nat) : Nat :=
  match bufferAt s q a with
  | some (mt, i, _) => (((s.mtile mt).parts[i]?).map fun p => p.buffers).getD 1
  | none => 1

/-- Consumed operands move to the next buffer of their partition (R324). -/
def TSlot.rotate (s : State) (q : Nat) (x : TSlot) : TSlot :=
  { x with curA := if bitOf x.flags 2 then (x.curA + 1) % buffersAt s q x.aAddr else x.curA
           curB := if bitOf x.flags 3 then (x.curB + 1) % buffersAt s q x.bAddr else x.curB }

/-- Can an accumulator take a firing (R326, R327)? -/
def Acc.open? (a : Acc) : Bool := a.state == .empty || (a.state == .open && a.started < a.ch)
/-- Do its KIND, M, N and CH match a configuration (R326)? -/
def Acc.fits (a : Acc) (cfg : BitVec 32) : Bool :=
  a.state == .empty || (a.kind = Cfg.kind cfg && a.m = Cfg.m cfg && a.n = Cfg.n cfg && a.ch = Cfg.ch cfg)

/-- The tile is the corner of a grid: its slot `ts` starts a pass, the pass waits, or is refused with WHY 8 (R344). -/
inductive PassCheck where
  | start (p : Pass)
  | wait
  | misuse

/-- The conditions of R344 for slot `ts` of the group whose lowest quad is `q0`. -/
def passCheck (s : State) (x : Group) (q0 a b ts : Nat) : PassCheck :=
  let h := 2 * b
  let j := 2 * a
  let cfg := ((tensorAt s (gridTile q0 0 0)).slot ts).cfg
  let col := (List.range h).map fun r => gridTile q0 r 0
  let bottom := (List.range j).map fun c => gridTile q0 (h - 1) c
  let all := (List.range (h * j)).map fun i => gridTile q0 (i / j) (i % j)
  let slotOf := fun t => (tensorAt s t).slot ts
  if Cfg.k cfg ≠ 64 || Cfg.n cfg ≠ 64 || (col ++ bottom).any (fun t => (slotOf t).state == .free) then .misuse
  else
    let bufs := col.map fun t => currentA s (quadOfPos t) (slotOf t)
    let ready := bufs.all (fun p => p.map Prod.snd == some 1) &&
      bottom.all (fun t => let u := tensorAt s t
                           let acc := u.acc (slotOf t).acc
                           acc.open? && acc.fits cfg && u.zeroing.all fun z => z.1 ≠ (slotOf t).acc) &&
      all.all (fun t => (tensorAt s t).weights.valid && (tensorAt s t).weights.fmt = Cfg.bfmt cfg) &&
      (match x.sincePass with
       | some n => 5 * Cfg.m cfg ≤ n
       | none => true)
    if ready && x.starting.isNone then
      .start { ts := ts, cfg := cfg, bufs := bufs.map fun p => (p.map Prod.fst).getD 0, flags := col.map fun t => (slotOf t).flags
               accs := bottom.map fun t => (slotOf t).acc }
    else .wait

/-- `tarm` (R323, R344). -/
def execTarm (d : BitVec 6) (s : State) : StepResult :=
  onTile s fun t =>
    let ts := d.toNat
    let arm := putSetting (.arm ts s.cur.seg s.cur.entry s.cur.stamp) s
    match groupOfTile s t with
    | some (c, g, i) =>
      let x := groupAt s c g i
      if x.systolic then
        match quadRect x.quads with
        | some (q0, a, b) =>
          if gridTile q0 0 0 ≠ t then raiseTensor 8 ts 0 0 s
          else
            match passCheck s x q0 a b ts with
            | .misuse => raiseTensor 8 ts 0 0 s
            | .wait => freeze .nearLate 0 0 s
            | .start p => .next ((setGroup c g i { x with starting := some p } s).soon (.systolicPassStart c g i))
        | none => raiseTensor 8 ts 0 0 s
      else if ((tensorAt s t).slot ts).state == .free then raiseTensor 7 ts 0 0 s else arm
    | none => if ((tensorAt s t).slot ts).state == .free then raiseTensor 7 ts 0 0 s else arm

/-- `tdisarm` (R323). -/
def execTdisarm (d : BitVec 6) (s : State) : StepResult := putSetting (.disarm d.toNat) s

/-! ## Firings (R327, R328) -/

/-- Can slot `ts` of a tile fire, by R327 and the limit of four in flight? -/
def canFire (s : State) (t ts : Nat) : Bool :=
  let u := tensorAt s t
  let x := u.slot ts
  let acc := u.acc x.acc
  x.state == .armed && ((currentA s (quadOfPos t) x).map Prod.snd == some 1) && ((currentB s (quadOfPos t) x).map Prod.snd == some 1) &&
    acc.open? && u.zeroing.all (fun z => z.1 ≠ x.acc) && u.busyUntil ≤ s.pcyc && !inSystolic s t && u.firings.length < 4

/-- TENSOR_FIRING_START (R323, R326 to R328): where the slot cannot fire, nothing changes; where its configuration does not
match the accumulator's, the slot becomes DEFINED and WHY 4 is raised. -/
def execTensorFiringStart (tile ts : Nat) (s : State) : StepResult :=
  let u := tensorAt s tile
  let x := u.slot ts
  let acc := u.acc x.acc
  let q := quadOfPos tile
  if !canFire s tile ts then .next s
  else if !acc.fits x.cfg then
    .next (reportTensor tile 4 ts x.acc 0 x.armedBy.1 x.armedBy.2.1 x.armedBy.2.2 none
      (setTensor tile (u.setSlot ts { x with state := .defined }) s))
  else
    let f : Firing := { ts := ts, cfg := x.cfg, flags := x.flags, acc := x.acc, a := ((currentA s q x).map Prod.fst).getD 0
                        b := ((currentB s q x).map Prod.fst).getD 0 }
    let acc' : Acc := if acc.state == .empty then
        { state := .open, started := 1, done := 0, kind := Cfg.kind x.cfg, m := Cfg.m x.cfg, n := Cfg.n x.cfg, ch := Cfg.ch x.cfg, cells := [] }
      else { acc with started := acc.started + 1 }
    let d := Cfg.cycles x.cfg
    let u := { (u.setSlot ts (x.rotate s q)).setAcc x.acc acc' with busyUntil := s.pcyc + d, firings := u.firings ++ [f] }
    .next ((setTensor tile u s).after (d + 20) (.tensorFiringComplete tile ts))

/-- The buffer at a near address becomes EMPTY. -/
def emptyBuffer (q a : Nat) (s : State) : State :=
  match bufferAt s q a with
  | some (mt, i, n) => setBuffer mt i n false s
  | none => s

/-- The oldest firing of an operation slot of a tile. -/
def Tensor.firingOf (x : Tensor) (ts : Nat) : Option Firing := x.firings.find? fun f => f.ts = ts

/-- TENSOR_FIRING_COMPLETE (R328): the oldest firing of the slot adds its groups, advances DONE and empties its consumed
buffers. -/
def execTensorFiringComplete (tile ts : Nat) (s : State) : StepResult :=
  let u := tensorAt s tile
  match u.firingOf ts with
  | none => .next s
  | some f =>
    let q := quadOfPos tile
    let near := asRead s.near f.got
    let a := nearOperand near q f.a (Cfg.afmt f.cfg) (Cfg.m f.cfg) (Cfg.k f.cfg) (bitOf f.flags 0)
    let b := nearOperand near q f.b (Cfg.bfmt f.cfg) (Cfg.n f.cfg) (Cfg.k f.cfg) (bitOf f.flags 1)
    let acc := u.acc f.acc
    let cells := mapCells acc.m acc.n (fun i j c => firedCell acc.kind a b (Cfg.k f.cfg) i j c) acc.cells
    let s := setTensor tile ({ u with firings := u.firings.erase f }.setAcc f.acc ({ acc with cells := cells }.oneDone)) s
    let s := if bitOf f.flags 2 then emptyBuffer q f.a s else s
    .next (if bitOf f.flags 3 then emptyBuffer q f.b s else s)

/-! ## Tags (R331) -/

/-- A `ttag` is sent: it reaches the memory tile 6 cycles later. -/
def sendTag (full : Bool) (a : BitVec 6) (s : State) : StepResult :=
  onTile s fun _ => .next ((s.newOp (mkOp s (.tag full) 0 (readS s a).toNat 1)).after 6 (.ttagArrival s.opCount))

/-- `ttag.empty` (R331). -/
def execTtagEmpty (a : BitVec 6) (s : State) : StepResult := sendTag false a s
/-- `ttag.full` (R331). -/
def execTtagFull (a : BitVec 6) (s : State) : StepResult := sendTag true a s

/-- Does an earlier near store of the same tile still wait at a bank for a word of a buffer: the `ttag` follows it (R176, R331)? -/
def storeAhead (s : State) (id : Nat) (o : Op) (mt i n : Nat) : Bool :=
  let lo := bufferAddr s mt i n % 2 ^ 21
  s.ops.any fun e => e.1 < id && e.2.mtile = mt && e.2.cur.unit == o.cur.unit && !e.2.refused && (match e.2.kind with
      | .nearStore _ => true
      | .atomic _ _ _ _ => true
      | _ => false) && e.2.left.any fun k => meets lo (bufferBytes s mt i) (wordOffset s mt e.2.addr k) 8

/-- TTAG_ARRIVAL (R331), in the order of R176. -/
def execTtagArrival (op : Nat) (s : State) : StepResult :=
  match opAt s op with
  | none => .next s
  | some o =>
    match o.kind, o.cur.unit with
    | .tag full, .tile t =>
      match bufferAt s (quadOfPos t) o.addr with
      | none => .next (completionFault op Code.tensor (tensorInfo 0 0 0 o.addr) s)
      | some (mt, i, n) =>
        if storeAhead s op o mt i n then .next (s.after 1 (.ttagArrival op))
        else if full && bufferFull s mt i n then .next (completionFault op Code.tensor (tensorInfo 5 0 0 0) s)
        else .next ((setBuffer mt i n full s).dropOp op)
    | _, _ => .next s

/-! ## Taking results out (R332 to R335) -/

/-- `tread` (R332): due after 8 advancing cycles. -/
def execTread (d a b : BitVec 6) (s : State) : StepResult :=
  onTile s fun _ =>
    let o := { mkOp s (.tensorRead a.toNat ((readS s b).toNat % 64)) 0 0 1 with dst := some d.toNat }
    .next (issueLoad o 8 (wholeVec d 0) s)

/-- One slot of a row that `tread` reads (R332). -/
def treadSlot (a : Acc) (r j : Nat) : Nat :=
  if r < a.m && j < a.n then
    let c := mget 0 a.cells (64 * r + j)
    if a.kind = 0 then roundTo .f32 (.decode .fa40 c.toNat) 0 else patternOf 32 (satSigned 32 c.toInt)
  else 0

/-- TREAD_READ (R332): where the accumulator is not CLOSED, or an earlier `tstore` or `taccz` of it is pending, nothing happens
yet. -/
def execTreadRead (op : Nat) (s : State) : StepResult :=
  match opAt s op with
  | none => .next s
  | some o =>
    match o.kind, o.cur.unit with
    | .tensorRead n r, .tile t =>
      let u := tensorAt s t
      let a := u.acc n
      let early := u.queue.any (fun x => x.acc = n && x.issued < o.issued) || u.zeroing.any (fun z => z.1 = n && z.2 < o.issued)
      if a.state == .closed && !early && o.issued < s.pcyc && !o.served then
        .next (answer op o (vecOfElems 32 fun j => treadSlot a r j) (s.pcyc + 7) s)
      else .next s
    | _, _ => .next s

/-- `tstore` (R333): at most 4 are queued; one more freezes the region. -/
def execTstore (a b : BitVec 6) (ft : BitVec 3) (rm : BitVec 4) (s : State) : StepResult :=
  onTile s fun t =>
    let u := tensorAt s t
    if 4 ≤ u.queue.length then freeze .nearLate 0 0 s
    else
      let x : TStore := { addr := (readS s a).toNat, acc := b.toNat, ft := ft.toNat, rm := rm.toNat, issued := s.pcyc
                          seg := s.cur.seg, entry := s.cur.entry, stamp := s.cur.stamp }
      .next (setTensor t { u with queue := u.queue ++ [x] } s)

/-- Element width of a format tag or type of `tstore` (R43). -/
def storeWidth (ft : Nat) : Nat := if ft < 2 then 32 else if ft < 4 then 16 else if ft = 7 then 4 else 8
/-- Does a format of `tstore` carry block scales (R333)? -/
def storeScaled (ft : Nat) : Bool := ft == 4 || ft == 5 || ft == 7
/-- Bytes of the scale area of a stored result (R321). -/
def storeScaleBytes (a : Acc) (ft : Nat) : Nat := if storeScaled ft then 64 * ceilDiv (a.m * ceilDiv a.n 32) 64 else 0
/-- Bytes of a stored result. -/
def storeBytes (a : Acc) (ft : Nat) : Nat := a.m * rowBytes a.n (storeWidth ft) + storeScaleBytes a ft

/-- The value of element (i, j) of an accumulator in FA40. -/
def accValue (a : Acc) (i j : Nat) : Exact := .decode .fa40 (mget 0 a.cells (64 * i + j)).toNat

/-- The scale of block `g` of row `i`, chosen as `vquant` chooses it (R333, R293). -/
def storeScale (a : Acc) (ft i g : Nat) : Nat :=
  chooseScale (.ofTag (BitVec.ofNat 3 ft)) ((List.range (min 32 (a.n - 32 * g))).map fun j => accValue a i (32 * g + j))

/-- The bits of element (i, j) as stored (R333). -/
def storeElem (a : Acc) (ft rm i j : Nat) : Nat :=
  let f := Flt.ofTag (BitVec.ofNat 3 ft)
  let c := mget 0 a.cells (64 * i + j)
  if a.kind = 1 then patternOf (storeWidth ft) (satSigned (storeWidth ft) c.toInt)
  else if storeScaled ft then quantElem f (storeScale a ft i (j / 32)) (accValue a i j) rm 0
  else roundTo f (accValue a i j) rm

/-- Row `i` of a stored result, with its padding, as a number. -/
def storeRow (a : Acc) (ft rm i : Nat) : Nat := pack (storeWidth ft) a.n fun j => storeElem a ft rm i j
/-- The scale area, as a number. -/
def storeScales (a : Acc) (ft : Nat) : Nat :=
  let g := ceilDiv a.n 32
  pack 8 (a.m * g) fun e => storeScale a ft (e / g) (e % g)

/-- What a started `tstore` writes in the cycle `n` after its start: row n - 6, then spans of the scale area (R333). -/
def storeSpan (q : Nat) (x : TStore) (a : Acc) (n : Nat) (s : State) : State :=
  let rb := rowBytes a.n (storeWidth x.ft)
  if n < 6 then s
  else if n - 6 < a.m then
    { s with near := writeLE s.near (quadKey q x.addr + (n - 6) * rb) rb (storeRow a x.ft x.rm (n - 6)) }
  else
    let o := (n - 6 - a.m) * 256
    let bytes := min 256 (storeScaleBytes a x.ft - o)
    { s with near := writeLE s.near (quadKey q x.addr + a.m * rb + o) bytes (storeScales a x.ft / 256 ^ o) }

/-- All that a `tstore` writes of an accumulator (R333). -/
def storeAll (q : Nat) (x : TStore) (a : Acc) (s : State) : State :=
  (List.range (a.m + ceilDiv (storeScaleBytes a x.ft) 256)).foldl (fun s i => storeSpan q x a (6 + i) s) s

/-- Does the FT of a `tstore` suit an accumulator's KIND (R333)? -/
def storeSuits (kind ft : Nat) : Bool := if kind = 1 then ft == 0 || ft == 6 else ft != 0 && ft != 6

/-- The refusal of a `tstore` at its start, as WHY; none where it may run (R333). -/
def storeRefusal (s : State) (q : Nat) (x : TStore) (a : Acc) : Option Nat :=
  if !storeSuits a.kind x.ft then some 6
  else if 2 ^ 23 ≤ x.addr || x.addr % 64 ≠ 0 then some 0
  else
    let room := match bufferAt s q x.addr with
      | some (mt, i, _) => bufferBytes s mt i
      | none => 2 ^ 21 - x.addr % 2 ^ 21
    if room < storeBytes a x.ft then some 1 else none

/-- May the head of the queue start (R333)? -/
def canStore (s : State) (t : Nat) : Bool :=
  let u := tensorAt s t
  match u.queue with
  | [] => false
  | x :: _ =>
    x.started.isNone && x.issued < s.pcyc && (u.acc x.acc).state == .closed &&
      match bufferAt s (quadOfPos t) x.addr with
      | some (mt, i, n) => !bufferFull s mt i n
      | none => true

/-- TSTORE_START (R333): a refused one leaves the queue with nothing written, and a `tret` queues it again. -/
def execTstoreStart (tile : Nat) (s : State) : StepResult :=
  let u := tensorAt s tile
  let q := quadOfPos tile
  match u.queue with
  | [] => .next s
  | x :: rest =>
    if !canStore s tile then .next s
    else
      let a := u.acc x.acc
      match storeRefusal s q x a with
      | some why =>
        let addr := if why = 6 then 0 else x.addr
        let o : Op := { kind := .tstore x.acc x.ft x.rm, addr := x.addr, refused := true, issued := x.issued
                        cur := { s.cur with unit := .tile tile, seg := x.seg, entry := x.entry, stamp := x.stamp } }
        .next (reportTensor tile why 0 x.acc addr x.seg x.entry x.stamp (some s.opCount)
          ((setTensor tile { u with queue := rest } s).newOp o))
      | none =>
        .next ((setTensor tile { u with queue := { x with started := some s.pcyc } :: rest } s).after
          (6 + a.m + ceilDiv (storeScaleBytes a x.ft) 256) (.tstoreComplete tile))

/-- TSTORE_COMPLETE (R333). The accumulator that becomes EMPTY keeps no KIND, M, N and CH, and `tstat.acc` reads 0 there, as behind a `taccz`:
R326 says only that the counts become 0 (DESIGN CHOICE, log 72). -/
def execTstoreComplete (tile : Nat) (s : State) : StepResult :=
  let u := tensorAt s tile
  match u.queue with
  | [] => .next s
  | x :: rest =>
    if x.started.isNone then .next s
    else
      let s := setTensor tile ({ u with queue := rest }.setAcc x.acc {}) s
      match bufferAt s (quadOfPos tile) x.addr with
      | some (mt, i, n) => .next (setBuffer mt i n true s)
      | none => .next s

/-- `taccz` (R334). -/
def execTaccz (d : BitVec 6) (s : State) : StepResult :=
  onTile s fun t =>
    let u := tensorAt s t
    .next (setTensor t { u with zeroing := u.zeroing ++ [(d.toNat, s.pcyc)] } s)

/-- Has earlier work on an accumulator completed, so that a `taccz` issued in cycle `w` takes effect (R334)? -/
def canClear (s : State) (t acc w : Nat) : Bool :=
  let u := tensorAt s t
  w < s.pcyc && u.firings.all (fun f => f.acc ≠ acc) && u.queue.all (fun x => x.acc ≠ acc || w < x.issued) &&
    s.ops.all fun e =>
      match e.2.kind with
      | .tensorRead n _ => !(n = acc && e.2.cur.unit == .tile t && e.2.issued < w && !e.2.served)
      | _ => true

/-- TACCZ_EFFECT (R334). What the accumulator no longer records is that of log 72. -/
def execTacczEffect (tile acc : Nat) (s : State) : StepResult :=
  let u := tensorAt s tile
  match u.zeroing.find? fun z => z.1 = acc with
  | none => .next s
  | some z =>
    if canClear s tile acc z.2 then .next (setTensor tile ({ u with zeroing := u.zeroing.erase z }.setAcc acc {}) s) else .next s

/-- The word of `tstat.slot` (R335): a FREE slot has no current buffers. -/
def slotStatus (s : State) (t ts : Nat) : Word :=
  let u := tensorAt s t
  let x := u.slot ts
  let q := quadOfPos t
  let st := match x.state with
    | .free => 0
    | .defined => 1
    | .armed => 2
  if x.state == .free then BitVec.ofNat 64 (u.inFlight ts % 16 * 2 ^ 12)
  else BitVec.ofNat 64 (u.inFlight ts % 16 * 2 ^ 12 + x.curA % 4 * 2 ^ 10 + x.curB % 4 * 2 ^ 8
    + ((currentA s q x).map Prod.snd).getD 0 * 2 ^ 7 + ((currentB s q x).map Prod.snd).getD 0 * 2 ^ 6 + x.acc % 8 * 2 ^ 3 + st)

/-- The word of `tstat.acc` (R335). -/
def accStatus (a : Acc) : Word :=
  let st := match a.state with
    | .empty => 0
    | .open => 1
    | .closed => 2
  BitVec.ofNat 64 ((a.m - 1) % 64 * 2 ^ 34 + (a.n - 1) % 64 * 2 ^ 28 + (a.ch - 1) % 32 * 2 ^ 23 + a.started % 64 * 2 ^ 17
    + a.done % 64 * 2 ^ 11 + a.kind % 2 * 2 ^ 10 + st)

/-- `tstat` reads in the cycle after its issue, and its result is visible from the second one (R335). -/
def tensorStat (slot : Bool) (d a : BitVec 6) (s : State) : StepResult :=
  onTile s fun _ =>
    .next (issueLoad { mkOp s (.tensorStat slot a.toNat) 0 0 1 with dst := some d.toNat } 2 (.scalar d.toNat 0) s)

/-- `tstat.slot` (R335). -/
def execTstatSlot (d a : BitVec 6) (s : State) : StepResult := tensorStat true d a s
/-- `tstat.acc` (R335). -/
def execTstatAcc (d a : BitVec 6) (s : State) : StepResult := tensorStat false d a s

/-! ## Weights and passes (R343 to R346) -/

/-- `twload` (R343). -/
def execTwload (a : BitVec 6) (s : State) : StepResult :=
  onTile s fun t =>
    let u := tensorAt s t
    let x := (readS s a).toNat
    let code := Cfg.bfmt u.cfg
    if !inSystolic s t then raiseTensor 8 0 0 0 s
    else if x % 64 ≠ 0 || 2 ^ 23 ≤ x || 2 ^ 21 < x % 2 ^ 21 + operandBytes code 64 64 false then raiseTensor 0 0 0 x s
    else .next ((setTensor t { u with loading := u.loading ++ [{ addr := x, cfg := u.cfg }] } s).after 80 (.twloadValid t))

/-- The weights that a `twload` brings. -/
def loadedWeights (near : Memory) (q : Nat) (l : Loading) : Weights :=
  let near := asRead near l.got
  let code := Cfg.bfmt l.cfg
  let base := quadKey q l.addr
  { valid := true, fmt := code
    cells := (List.range 4096).map fun e => (e, BitVec.ofNat 16 (operandRaw near base code 64 64 false (e % 64) (e / 64)))
    scales := (List.range 128).map fun e => (e, BitVec.ofNat 8 (operandScale near base code 64 64 false (e % 64) (e / 64))) }

/-- A `twload` whose 80 cycles have passed has read every word. -/
def Loading.full (near : Memory) (q : Nat) (l : Loading) : Loading :=
  { l with complete := true, got := (l.keys q).foldl (fun g k => if (mfind g k).isNone then mset g k (readLE near k 8) else g) l.got }

/-- Is a pass in flight in the group of a tile? -/
def passInFlight (s : State) (t : Nat) : Bool :=
  match groupOfTile s t with
  | some (c, g, i) => !(groupAt s c g i).passes.isEmpty || (groupAt s c g i).starting.isSome
  | none => false

/-- The weights of the `twload` instructions whose 80 cycles have passed take effect in their order, once no pass is in flight in the group
(R343). -/
def settleWeights (t : Nat) (s : State) : State :=
  let u := tensorAt s t
  if passInFlight s t then s
  else
    match (u.loading.filter Loading.complete).getLast? with
    | none => s
    | some l => setTensor t { u with loading := u.loading.filter fun x => !x.complete, weights := loadedWeights s.near (quadOfPos t) l } s

/-- The oldest of some `twload` instructions whose 80 cycles are not over is changed. -/
def updLoading (f : Loading → Loading) : List Loading → List Loading
  | [] => []
  | l :: rest => if l.complete then l :: updLoading f rest else f l :: rest

/-- TWLOAD_VALID (R343): the 80 cycles of the oldest `twload` under way are over. -/
def execTwloadValid (tile : Nat) (s : State) : StepResult :=
  let u := tensorAt s tile
  .next (settleWeights tile (setTensor tile { u with loading := updLoading (Loading.full s.near (quadOfPos tile)) u.loading } s))

/-- Advancing cycles from the start of a pass to its completion, in a grid of H rows and J columns (R345). -/
def passLength (m h j : Nat) : Nat := 5 * (m - 1) + 8 * (j - 1) + 12 * (h - 1) + 5

/-- Row `m` of the A operand of row ρ of the grid, as it stands in near memory: raw elements and scale bytes (R345). -/
def passRow (near : Memory) (q0 : Nat) (p : Pass) (r m : Nat) : List Nat × List Nat :=
  let base := quadKey (quadOfPos (gridTile q0 r 0)) (p.bufs.getD r 0)
  let code := Cfg.afmt p.cfg
  let col := bitOf (p.flags.getD r 0) 0
  ((List.range 64).map fun k => operandRaw near base code (Cfg.m p.cfg) 64 col m k,
   (List.range 2).map fun g => operandScale near base code (Cfg.m p.cfg) 64 col m g)

/-- The rows of A that enter column 0 in the advancing cycle `age` of a pass (R345). -/
def Pass.enter (near : Memory) (q0 h : Nat) (p : Pass) : Pass :=
  { p with rows := (List.range h).foldl (fun rows r =>
      (List.range (Cfg.m p.cfg)).foldl (fun rows m =>
        if 5 * m + 12 * r = p.age then mset rows (64 * r + m) (passRow near q0 p r m) else rows) rows) p.rows }

/-- An accumulator as a pass takes it: one that is EMPTY becomes OPEN with its contents 0 (R326). -/
def Acc.forPass (a : Acc) (cfg : BitVec 32) : Acc :=
  if a.state == .empty then { state := .open, kind := Cfg.kind cfg, m := Cfg.m cfg, n := 64, ch := Cfg.ch cfg } else a

/-- SYSTOLIC_PASS_START (R344): the pass that the corner's `tarm` found ready starts in the cycle of its issue, whose end
stands before this step. The bottom accumulators are taken, and the A operands rotate. -/
def execSystolicPassStart (ctx slot grp : Nat) (s : State) : StepResult :=
  let x := groupAt s ctx slot grp
  match x.starting, quadRect x.quads with
  | some p, some (q0, a, b) =>
    let p := { p.enter s.near q0 (2 * b) with age := 1 }
    let s := setGroup ctx slot grp { x with passes := x.passes ++ [p], starting := none, sincePass := some 1 } s
    let s := (List.range (2 * a)).foldl (fun s c =>
      let t := gridTile q0 (2 * b - 1) c
      let u := tensorAt s t
      let n := p.accs.getD c 0
      setTensor t (u.setAcc n ((u.acc n).forPass p.cfg)) s) s
    .next ((List.range (2 * b)).foldl (fun s r =>
      let t := gridTile q0 r 0
      let u := tensorAt s t
      setTensor t (u.setSlot p.ts ((u.slot p.ts).rotate s (quadOfPos t))) s) s)
  | _, _ => .next s

/-- P of R346 with a group sum added. -/
def passAdd (kind : Nat) (p : Exact) (x : Exact) : Exact :=
  if kind = 0 then .decode .fa40 (roundTo .fa40 (.add false p x) 0) else .ofInt (satSigned 40 (Exact.toInt p + Exact.toInt x))

/-- An entered row as the A operand of a group sum. -/
def rowOperand (code : Nat) (x : List Nat × List Nat) : Operand :=
  { value := fun _ k => operandValue code (x.1.getD k 0) k
    scale := fun _ g => if opScaled code then scaleValue (x.2.getD g 0) else .fin false 1 1 }

/-- P for output element (m, 64 γ + j): rows of the grid from the top, two groups each (R346). -/
def passSum (s : State) (p : Pass) (q0 h c m j : Nat) : Exact :=
  (List.range h).foldl (fun x r =>
    let a := rowOperand (Cfg.afmt p.cfg) (mget ([], []) p.rows (64 * r + m))
    let b := storedWeights (tensorAt s (gridTile q0 r c)).weights
    (List.range 2).foldl (fun x g => passAdd (Cfg.kind p.cfg) x (groupSum a b 0 j 64 g)) x) (.fin false 0 1)

/-- The rows that the bottom tiles add into their accumulators in the advancing cycle `age` of a pass (R345, R346). -/
def addRows (p : Pass) (q0 h j : Nat) (s : State) : State :=
  (List.range j).foldl (fun s c =>
    (List.range (Cfg.m p.cfg)).foldl (fun s m =>
      if 5 * m + 8 * c + 12 * (h - 1) + 4 = p.age then
        let t := gridTile q0 (h - 1) c
        let u := tensorAt s t
        let n := p.accs.getD c 0
        let acc := (u.acc n).forPass p.cfg
        let cells := (List.range 64).foldl (fun cs e =>
          mset cs (64 * m + e) (accAdd acc.kind (mget 0 cs (64 * m + e)) (passSum s p q0 h c m e))) acc.cells
        setTensor t (u.setAcc n { acc with cells := cells }) s
      else s) s) s

/-- An advancing cycle of the passes of a systolic group (R345): rows enter, rows are added, and the counts advance. How many passes
complete in it is the second part. -/
def stepPasses (c slot i : Nat) (s : State) : State × Nat :=
  let x := groupAt s c slot i
  match quadRect x.quads with
  | none => (s, 0)
  | some (q0, a, b) =>
    let h := 2 * b
    let j := 2 * a
    let passes := x.passes.map (Pass.enter s.near q0 h)
    let s := passes.foldl (fun s p => addRows p q0 h j s) s
    let due := (passes.filter fun p => passLength (Cfg.m p.cfg) h j ≤ p.age).length
    (setGroup c slot i { groupAt s c slot i with passes := passes.map fun p => { p with age := p.age + 1 }
                                                 sincePass := x.sincePass.map (· + 1) } s, due)

/-- SYSTOLIC_PASS_COMPLETE (R345): a pass whose last advancing cycle has ended, the oldest of them, completes: STARTED and DONE of every
bottom accumulator advance, consumed A buffers become EMPTY, and weights that waited for it take effect (R343). -/
def execSystolicPassComplete (ctx slot grp : Nat) (s : State) : StepResult :=
  let x := groupAt s ctx slot grp
  match quadRect x.quads with
  | none => .next s
  | some (q0, a, b) =>
    let h := 2 * b
    let j := 2 * a
    match x.passes.findIdx? fun p => passLength (Cfg.m p.cfg) h j < p.age with
    | none => .next s
    | some k =>
      let p := x.passes.getD k { ts := 0, cfg := 0 }
      let counted := (List.range j).foldl (fun s c =>
        let t := gridTile q0 (h - 1) c
        let u := tensorAt s t
        let n := p.accs.getD c 0
        let acc := u.acc n
        setTensor t (u.setAcc n ({ acc with started := acc.started + 1 }.oneDone)) s) s
      let emptied := (List.range h).foldl (fun s r =>
        if bitOf (p.flags.getD r 0) 2 then emptyBuffer (quadOfPos (gridTile q0 r 0)) (p.bufs.getD r 0) s else s) counted
      let s := setGroup ctx slot grp { groupAt emptied ctx slot grp with passes := x.passes.eraseIdx k } emptied
      .next ((List.range (h * j)).foldl (fun s i => settleWeights (gridTile q0 (i / j) (i % j)) s) s)

end Sys2Proof.Machine
end

