-- ==== Sys2Proof/Machine/Traps.lean ====
section
/-! DEFINITION. The trap path: reports of tiles, trap entries, `trap`, `tret`, `mtsr` and `idle` (R352, R356 to R365, R500). -/

namespace Sys2Proof.Machine

/-! ## Reissue of refused accesses (R352, R500) -/

/-- A refused access goes its way again, with the operand values captured at its first issue. The operation of an entry is executed
again by the region (`reissueEntry`). -/
def reissue (id : Nat) (s : State) : State :=
  match opAt s id with
  | none => s
  | some o =>
    let all := { o with refused := false, served := false, got := 0, left := List.range o.words, issued := s.pcyc, entered := none }
    let again := setOp id all s
    match o.kind with
    | .atomic _ _ _ _ => toPipeline id o.far again
    | .tag _ => again.after 6 (.ttagArrival id)
    | .dramLoad _ _ => again.later (.dramAccessPerformed id)
    | .dramStore _ _ => again.later (.dramAccessPerformed id)
    | .tensorRead _ _ => setOp id { o with refused := false } s
    | .tstore acc ft rm =>
      match o.cur.unit with
      | .tile t =>
        let u := tensorAt s t
        let x : TStore := { addr := o.addr, acc := acc, ft := ft, rm := rm, issued := s.pcyc, seg := o.cur.seg, entry := o.cur.entry, stamp := o.cur.stamp }
        (setTensor t { u with queue := u.queue ++ [x] } s).dropOp id
      | .seq _ => s
    | .remote sub b c r l =>
      if l = ownLink then again.later (.ramoInvocationArrival l)
      else
        match (upLinks s r).head? with
        | none => completionFault id Code.scope (BitVec.ofNat 64 o.va) s
        | some l' =>
          let item : DynItem := { cls := 1, ctx := o.ctx, rank := s.rank, itag := id % 65536, a := BitVec.ofNat 64 o.va, b := b, c := c, sub := sub
                                  ft := if sub = 8 then 1 else 0 }
          let y := s.link l'
          (setOp id { all with kind := .remote sub b c r l' } s).setLink l'
            { y with itemsOut := y.itemsOut ++ [item], inFlight := y.inFlight ++ [(id % 65536, id)] }
    | .firing f _ _ =>
      match o.cur.unit with
      | .tile t =>
        let u := tensorAt s t
        let d := Cfg.cycles f.cfg
        let u := { u with busyUntil := max u.busyUntil (s.pcyc + d), firings := u.firings ++ [{ f with got := [] }] }
        ((setTensor t u s).after (d + 20) (.tensorFiringComplete t f.ts)).dropOp id
      | .seq _ => s
    | .loading l _ =>
      match o.cur.unit with
      | .tile t =>
        let u := tensorAt s t
        ((setTensor t { u with loading := u.loading ++ [{ l with got := [], complete := false }] } s).after 80 (.twloadValid t)).dropOp id
      | .seq _ => s
    | .entry _ _ _ _ => s
    | .colour _ _ => s
    | .tensorStat _ _ => s
    | .walk => s
    | .engineRead _ _ => s
    | _ => again.after 6 (.bankAccess id)

/-! ## Release of a report (R359) -/

/-- Is a code one of a class R fault whose report ends in a reload of the configuration (R205, R377)? -/
def reloads (code : Nat) : Bool := code == Code.slot || code == Code.config

/-- What the release of a report does to its region, by class: I drops the entry with SKIP, C reissues or drops the access, R
resumes by its own rule (R165, R205, R208, R377). -/
def resumeRegion (t k : Nat) (r : Report) (skip : Bool) (s : State) : State :=
  let x := s.regionAt k
  match r.op with
  | some id => if skip then dropRefused id s else s.setRegion k { x with reissue := x.reissue ++ [id] }
  | none =>
    if r.code = Code.rate then (if r.entry.isNone then s.setRegion k { x with rateDone := true } else s)
    else if r.code = Code.stall then s.setRegion k { x with wcnt := 0 }
    else if reloads r.code then
      let g := k / 2048
      (s.setRegion k { x with reloading := true }).later (.configReloadComplete (g / 256) (g % 256) (k % 2048) 0)
    else
      match r.entry with
      | some e => if skip then s.setRegion k { x with dropped := x.dropped ++ [(t, e)] } else s
      | none => s

/-- The regions of the root group that holds a region, by key. -/
def regionsOfGroup (s : State) (k : Nat) : List Nat :=
  let g := k / 2048
  match ((s.regionAt k).tiles.head?).bind fun t => groupOfQuad s (quadOfPos t) with
  | none => [k]
  | some (_, _, i) => (s.regions.filter fun e => e.1 / 2048 = g && e.2.tiles.any fun t => (groupOfQuad s (quadOfPos t)).any fun x => x.2.2 = i).map Prod.fst

/-- Does no tile of a region hold a report? -/
def noReports (s : State) (r : Region) : Bool := r.tiles.all fun t => (s.tile t).reports.isEmpty

/-- A report is released to its tile: the tile passes its next one, and the region leaves RSTATE 3 when none is left. While the
configuration of a region of its group is being reloaded it stays stopped (R377). -/
def releaseReport (t : Nat) (skip : Bool) (s : State) : State :=
  let x := s.tile t
  match x.reports with
  | [] => s
  | r :: rest =>
    let s := s.setTile t { x with reports := rest }
    let s := if rest.isEmpty then s else s.soon (.tileFaultReport t)
    match x.region with
    | none =>
      match r.op with
      | some id => if skip then dropRefused id s else reissue id s
      | none => s
    | some k =>
      let s := resumeRegion t k r skip s
      let y := s.regionAt k
      if noReports s y && y.rstate = 3 then
        s.setRegion k { y with rstate := if (regionsOfGroup s k).any fun j => (s.regionAt j).reloading then 4 else if y.inPhase then 2 else 1, waiting := none }
      else s

/-! ## Release of a trap (R359, R360, R500) -/

/-- The die whose translation engine serves an engine: that of its peer list. -/
def dieOfEngine (s : State) (c : Nat) (st : Stream) : Nat := dieOfPos ((st.tileOf s c).getD 0)

/-- An engine whose report is released goes on: it walks again for the request at which it stopped, and it reads again what ended in MEMERR
(R375, R388). -/
def releaseEngine (c : Nat) (st : Stream) (s : State) : State :=
  let s := match faultOf s c st with
    | some va => updTlb (dieOfEngine s c st) (fun l => l.filter fun t => !(t.ctx = c && t.va ≤ va && va < t.va + t.size)) s
    | none => s
  let s := (s.ops.filter fun e => e.2.refused && e.2.ctx = c && e.2.stream == st).foldl (fun s e =>
    (setOp e.1 { e.2 with refused := false } s).later (.dramReply e.1)) (setHeld c st false (setPagewait c st false s))
  match st with
  | .memActor g m => startUpdates c g m s
  | _ => s

/-- What the end of the handling of a trap by unit `n` releases, where no other unit forwarded it. -/
def releaseOwn (n : Nat) (k : TrapKind) (skip : Bool) (s : State) : State :=
  match k with
  | .completion id => if skip then dropRefused id s else reissue id s
  | .report t => releaseReport t skip s
  | .engine st => releaseEngine (s.seq n).ctxid st s
  | _ => s

/-- A quad sequencer that forwarded goes on (R360): behind its `trap`, at its faulting instruction again, or behind it with
SKIP; the report or the access behind its trap is released with it. -/
def resumeForward (m : Nat) (skip : Bool) (s : State) : State :=
  match (s.seq m).run with
  | .forwarded k _ =>
    let own := match k with
      | .own => true
      | _ => false
    releaseOwn m k skip (s.updSeq m fun q =>
      { q with pc := if own && skip then q.pc + 8 else q.pc, run := if q.trap then .run else q.back, last := s.pcyc, ready := s.pcyc + 1 })
  | _ => s

/-- Has a unit forwarded a trap that is not released? -/
def Seq.hasForwarded (q : Seq) : Bool :=
  match q.run with
  | .forwarded _ _ => true
  | _ => false

/-- The quad sequencer `m` of context `c` is released; one that a HALT has saved meanwhile goes on when it is restored (R360, R370). -/
def releaseForward (m c : Nat) (skip : Bool) (s : State) : State :=
  if (s.seq m).ctxid = c && (s.seq m).hasForwarded then resumeForward m skip s
  else
    match (s.ctx c).saved with
    | none => s
    | some v => s.setCtx c { s.ctx c with saved := some { v with seqs := v.seqs.map fun e =>
        (e.1, if e.1 = m && e.2.hasForwarded then { e.2 with freed := some skip } else e.2) } }

/-- The end of the handling of a trap by unit `n`. -/
def releaseTrap (n : Nat) (k : TrapKind) (skip : Bool) (s : State) : State :=
  match k with
  | .forwarded m c => releaseForward m c skip s
  | _ => releaseOwn n k skip s

/-! ## Events -/

/-- TILE_FAULT_REPORT (R356): the tile's first report reaches the sequencer of its quad. -/
def execTileFaultReport (tile : Nat) (s : State) : StepResult :=
  match (s.tile tile).reports with
  | [] => .next s
  | r :: _ => .next (passTrap (quadOfPos tile) { cause := r.code, info := r.info, loc := r.loc, kind := .report tile } s)

/-- Is a unit at an instruction boundary at which a waiting trap may enter (R357): before its next instruction, which may be held by
a `fence` or wait to issue, in `idle`, or without code to run? A `spawn` whose colour is there issues first. -/
def atBoundary (s : State) (n : Nat) : Bool :=
  let q := s.seq n
  !q.trap && match q.run with
    | .off => true
    | .run => q.ready ≤ s.pcyc
    | .cwait _ => true
    | .snapw _ => true
    | .idle => true
    | .fence _ => true
    | .ckick => true
    | .carm => true
    | .pginv _ => true
    | .pgfence _ => true
    | .tsysto _ _ _ => true
    | .spawn id => !((opAt s id).any Op.served)
    | _ => false

/-- The colour that an instruction which has not issued asks for is asked for no more: it asks again (R255, log 33). -/
def withdrawDraw (n : Nat) (s : State) : State :=
  match (s.seq n).run with
  | .spawn id =>
    let c := (s.seq n).ctxid
    (s.setCtx c { s.ctx c with draws := (s.ctx c).draws.filter (· != id) }).dropOp id
  | _ => s

/-- Where a unit comes back to from a trap that enters between its instructions (R357, R220, R364). An `idle` at the end address of an active
loop that a trap entry leaves evaluates no loop: R123 would evaluate it where the instruction issues, R364 gives `TEPC` as the address
+ 8 (DESIGN CHOICE, log 69). -/
def resumeAt (q : Seq) : Word :=
  match q.run with
  | .idle => q.pc + 8
  | _ => q.pc

/-- `TEPC` of a LINK for a `ramo` names the `ramo`, and `tret` reissues it alone: a unit that has gone on behind it goes on where it stood
(R441, R500; DEDUCED, log 80). -/
def atRamo (n : Nat) (r : TrapReq) (s : State) : State :=
  match r.kind with
  | .completion id =>
    match opAt s id with
    | some o => if r.cause = Code.link && (s.seq n).trap then s.updSeq n fun q => { q with tepc := o.pc, behind := some (o.pc, q.tepc), cmpl := false } else s
    | none => s
  | _ => s

/-- TRAP_ENTRY (R357, R500): completion faults enter before reports; each in its order. -/
def execTrapEntry (seq : Nat) (s : State) : StepResult :=
  let q := s.seq seq
  if !atBoundary s seq then .next s
  else
    match q.refused, q.queue with
    | r :: rest, _ => .next (atRamo seq r (takeTrap seq r (resumeAt q) ((withdrawDraw seq s).setSeq seq { q with refused := rest })))
    | [], r :: rest => .next (takeTrap seq r (resumeAt q) ((withdrawDraw seq s).setSeq seq { q with queue := rest }))
    | [], [] => .next s

/-- SEQ_COMPLETION_FAULT (R500): the refusal has returned; it enters at the next boundary outside a handler. -/
def execSeqCompletionFault (seq : Nat) (s : State) : StepResult :=
  if atBoundary s seq then execTrapEntry seq s else .next s

/-! ## Instructions (R362 to R364) -/

/-- `trap` (R362, R360). At the end address of an active loop it evaluates no loop: R123 would, R362 gives `TEPC` as the address + 8
(DESIGN CHOICE, log 69). -/
def execTrap (code : BitVec 16) (s : State) : StepResult :=
  onSeq s fun n =>
    let q := s.seq n
    let r : TrapReq := { cause := Code.trap, info := BitVec.ofNat 64 code.toNat, loc := s.seqLoc n, kind := .raised }
    if !q.trap then .next (takeTrap n r (q.pc + 8) s)
    else
      let f : TrapReq := { cause := q.tcause % 256 + code.toNat % 256 * 256, info := q.tinfo, loc := q.twhere, kind := q.handling }
      if isQuadSeq n then .next (forwardTrap n { f with kind := .raised } (q.pc + 8) s)
      else .next ((forwardTrap n f (q.pc + 8) s).updSeq n fun q => { q.advance s.pcyc with handling := .none })

/-- `tret` (R359). -/
def execTret (s : State) : StepResult :=
  onSeq s fun n =>
    let q := s.seq n
    if !q.trap then .next (ownFault n Code.illegal 3 s)
    else .next (trapReturn n (releaseTrap n q.handling q.skip s))

/-- The context SEED written (R347). -/
def setSeed (c : Nat) (v : Word) (s : State) : State := s.setCtx c { s.ctx c with seed := v }

/-- `mtsr` (R363). A loop that ends at the `mtsr` of its own count is evaluated with the count before: the write acts from the cycle after
the issue. `TINFO` of the ALIGN that refuses `TVEC` or `TEPC` holds the refused value: R363 states none (DESIGN CHOICE, log 70). -/
def execMtsr (a : BitVec 6) (sr : BitVec 16) (s : State) : StepResult :=
  onSeq s fun n =>
    let v := readS s a
    let put := fun (f : Seq → Seq) => finish (s.updSeq n f)
    match sr.toNat with
    | 4 => finish (setSeed (s.seq n).ctxid v s)
    | 5 => if isQuadSeq n then .next (ownFault n Code.priv (BitVec.ofNat 64 sr.toNat) s) else put fun q => { q with ctxid := v.toNat % 64 }
    | 8 => if v.toNat % 8 ≠ 0 then .next (ownFault n Code.align v s) else put fun q => { q with tvec := v }
    | 0xC => if v.toNat % 8 ≠ 0 then .next (ownFault n Code.align v s) else put fun q => { q with tepc := v }
    | 0xD => put fun q => { q with skip := bitOf v.toNat 4 }
    | r =>
      if 0x18 ≤ r ∧ r < 0x1C then
        .next (s.updSeq n fun q =>
          let q := q.advance s.pcyc
          { q with loops := mset q.loops (r - 0x18) { mget {} q.loops (r - 0x18) with count := v.toNat % 65536 } })
      else .next (ownFault n Code.illegal 6 s)

/-- `idle` (R364): it waits at its own address until a wake moves it on. -/
def execIdle (s : State) : StepResult :=
  onSeq s fun n => .next (s.updSeq n fun q => { q with run := .idle, last := s.pcyc, ready := s.pcyc + 1 })

/-- A unit in `idle` goes on behind it (R364). The delay of the next instruction counts from the issue of the `idle` (R21). -/
def wakeIdle (n : Nat) (s : State) : State :=
  match (s.seq n).run with
  | .idle => s.updSeq n fun q => { q.advance q.last with run := .run, ready := s.pcyc + 1 }
  | _ => s

end Sys2Proof.Machine
end

