-- ==== Sys2Proof/Machine/Preempt.lean ====
section
/-! DEFINITION. Pre-emption: `csave`, `cload`, the HALT point, saves and restores (R366 to R371), LOST (R372), and errors of
configuration stores (R377). -/

namespace Sys2Proof.Machine

/-! ## LOST (R372, R245) -/

/-- Accesses of a context's engines and draws are forgotten. -/
def dropEngineOps (c : Nat) (s : State) : State :=
  { s with ops := s.ops.filter fun e => !(e.2.ctx = c && (match e.2.stream with
      | .seq n => (match e.2.kind with | .colour _ _ => !isQuadSeq n | _ => false)
      | _ => true)) }

/-- A graph as `gld` left it, without its run state (R245, last row but one). -/
def Graph.asLoaded (g : Graph) : Graph :=
  { loadedGraph g g.image (g.tags ++ g.joins.flatMap Join.tags) with
    seed := 0, keepSeed := false, periods := 0, ran := 0, count := 0, measured := [], everStaged := false, stagedMode := none, cupZero := true
    kept := [], ps := [], loops := [], keptGens := [], sqns := [], placed := [], points := [], closing := [], finished := [], forwarding := [], snapForward := []
    draining := false, residue := false, record := none, wdogs := [] }

/-- An arc or member link of a graph as `gld` left it. -/
def Graph.freshArc (g : Graph) (slot : Nat) (a : Arc) : Arc :=
  match a.decl.bind fun i => (g.image.arcs[i]?).map fun d => (d, i) with
  | some (d, i) => loadedArc slot g.image d i
  | none => { slot := slot, kind := a.kind }

/-- A graph of a LOST context: its groups are released, and lists, arcs and joins are as after `gld`. -/
def loseGraph (c slot : Nat) (s : State) : State :=
  match s.graph? c slot with
  | none => s
  | some g =>
    if g.state == .loading || g.state == .failed then s
    else
      let s := releaseGroups c slot s
      let s : State := { s with
        agenda := s.agenda.filter fun e => !eventOf c slot g.tags e.2
        actors := s.actors.filter fun e => e.1 / 65536 != State.graphKey c slot
        arcs := (s.arcs.filter fun e => !(e.1 / 4096 = c + 64 && e.2.slot = slot)).map fun e =>
          (e.1, if e.1 / 4096 = c && e.2.slot = slot then g.freshArc slot e.2 else e.2) }
      updGraph c slot Graph.asLoaded s

/-- A context becomes LOST: an open snapshot fails, groups are released, and the host is told. -/
def loseCtx (c : Nat) (s : State) : State :=
  let slots := (s.graphs.filter fun e => e.1 / 256 = c).map fun e => e.1 % 256
  let s := slots.foldl (fun s g => loseGraph c g s) (dropEngineOps c s)
  let s := if ((s.ctx c).busySnap).isSome then s.soon (.snapshotFail c 4) else s
  let s := s.setCtx c { s.ctx c with
    state := .lost, saved := none, haltAt := none, drainSave := false, drained := [], draws := [], copyBack := [], rolling := none
    saveBad := false, placedAt := none, pulseAt := none, awaited := [] }
  s.tellOpen c Code.lost 0 none

/-! ## The save area (R56, R369, R372)

The first 1 MiB of a quad area holds the accumulators as raw words; the layout beyond the header is the part's own, and every other
word of the record and of the quad areas is a free value (log 11). -/

/-- A 40-bit accumulator word in the 8 bytes of a raw word: the bits above are copies of bit 39 for I40, and 0 for FA40 (R56). -/
def rawWord (kind : Nat) (x : BitVec 40) : Word := if kind = 1 then x.signExtend 64 else x.setWidth 64

/-- The accumulator word that a raw word gives back (R56). -/
def ofRawWord (w : Word) : BitVec 40 := w.setWidth 40

/-- Words of the context record, and of a quad area. -/
def recordWords : Nat := 122880
def areaWords : Nat := 1310720

/-- Word `i` of what a save writes from byte 65,536 on, with `f` the counter of free values: words of the accumulators of tile `w / 32768`
of a quad lie in the first 131,072 words of its area. -/
def saveWord (v : Saved) (f i : Nat) : Word :=
  let w := (i - recordWords) % areaWords
  match v.quads[(i - recordWords) / areaWords]? with
  | none => Config.freeWord (f + i)
  | some (_, _, q) =>
    if i < recordWords || 131072 ≤ w then Config.freeWord (f + i)
    else
      let a := ((mget {} v.tiles (computeOfQuad q (w / 32768))).tensor).acc (w / 4096 % 8)
      rawWord a.kind (mget 0 a.cells (w % 4096))

/-- The bytes of a chunk of 64 KiB of words. -/
def chunkBytes (word : Nat → Word) (k : Nat) : List Byte :=
  (List.range 65536).map fun j => BitVec.ofNat 8 ((word (8192 * k + j / 8)).toNat / 256 ^ (j % 8))

/-- Bytes that a save of `n` quads writes from byte 65,536 on: the record and the quad areas (R369). -/
def savedBytes (n : Nat) : Nat := 8 * (recordWords + n * areaWords)

/-- The header of the context record as a number. -/
def recordHeader (c pcyc bytes : Nat) (valid drain : Bool) : Nat :=
  c % 64 + bit drain * 256 + bit valid * 1024 + bytes % 2 ^ 64 * 2 ^ 64 + pcyc % 2 ^ 64 * 2 ^ 128

/-- Virtual address of the context record. -/
def recordVa (s : State) (c : Nat) : Nat := (s.ctx c).saveBase + 65536

/-- An access of a save or restore fails where its write and the retry do (R372). -/
def saveAccess (c : Nat) (s : State) (k : State → PartEnd Unit) : PartEnd Unit :=
  if (s.ctx c).saveBad then .fault (s.setCtx c { s.ctx c with saveBad := false }) else k s

/-- The die on which the save path acts for chunk `i` behind the header: that of the quad whose area it is; die 0 for the record (R385,
log 57). -/
def Saved.dieOfChunk (v : Saved) (i : Nat) : Nat :=
  if i < recordWords / 8192 then 0
  else
    match v.quads[(i - recordWords / 8192) / (areaWords / 8192)]? with
    | some q => dieOfSeq q.2.2
    | none => 0

/-- A save writes the record and the quad areas, then the header (R369). -/
def writeArea (c pcyc : Nat) (v : Saved) (s : State) : PartEnd Unit :=
  saveAccess c s fun s =>
    let n := v.quads.length
    let f := s.freeCount
    let put := fun (k pa : Nat) (s : State) => markDirty pa 65536 { s with mem := writeBytes s.mem pa (chunkBytes (saveWord v f) k) }
    (partChunks v.dieOfChunk c (recordVa s c) .write put (savedBytes n / 65536) 0 { s with freeCount := f + savedBytes n / 8 }).bind fun _ s =>
      (partPa 0 c (recordVa s c) .write s).bind fun pa s => .ok () (writePhys pa 64 (recordHeader c pcyc (savedBytes n) true v.drain) s)

/-- VALID is cleared: a save starts, or a restore has completed (R369). -/
def clearValid (c : Nat) (s : State) : PartEnd Unit :=
  saveAccess c s fun s => (partPa 0 c (recordVa s c) .write s).bind fun pa s =>
    .ok () (writePhys pa 8 (readLE s.mem pa 8 / 2048 * 2048 + readLE s.mem pa 8 % 1024) s)

/-- The words of an accumulator, read at `pa` (R56). -/
def readCells (m : Memory) (pa : Nat) : Map (BitVec 40) :=
  (List.range 4096).filterMap fun i =>
    let x := ofRawWord (BitVec.ofNat 64 (readLE m (pa + 8 * i) 8))
    if x = 0 then none else some (i, x)

/-- An accumulator of a save takes the words that its area holds. -/
def Saved.withCells (v : Saved) (t a : Nat) (cells : Map (BitVec 40)) : Saved :=
  match mfind v.tiles t with
  | none => v
  | some x =>
    match mfind x.tensor.accs a with
    | none => v
    | some acc => { v with tiles := mset v.tiles t { x with tensor := x.tensor.setAcc a { acc with cells := cells } } }

/-- The accumulators of a save, as tile, accumulator and byte of the save area behind byte 65,536. -/
def Saved.accPlaces (v : Saved) : List (Nat × Nat × Nat) :=
  v.quads.zipIdx.flatMap fun q => (List.range 32).map fun i =>
    (computeOfQuad q.1.2.2 (i / 8), i % 8, 8 * (recordWords + q.2 * areaWords + 4096 * i))

/-- They are read back. -/
def readAccs (c : Nat) : List (Nat × Nat × Nat) → Saved → State → PartEnd Saved
  | [], v, s => .ok v s
  | (t, a, o) :: l, v, s => (partPa (dieOfPos t) c (recordVa s c + o) .read s).bind fun pa s => readAccs c l (v.withCells t a (readCells s.mem pa)) s

/-- A restore reads the record and the quad areas, and clears VALID (R369, R370). -/
def readArea (c : Nat) (v : Saved) (s : State) : PartEnd Saved :=
  (partChunks v.dieOfChunk c (recordVa s c) .read (fun _ _ s => s) (savedBytes v.quads.length / 65536) 0 s).bind fun _ s =>
    (readAccs c v.accPlaces v s).bind fun v s => (clearValid c s).bind fun _ s => .ok v s

/-- The end of an access to the save area: the context is LOST where it fails (R372); where a page is being committed, nothing has
happened yet, and `s` is the state in which it is tried again (R387). -/
def endAccess {α : Type} (c : Nat) (e : PartEnd α) (s : State) (k : α → State → State) : State :=
  match e with
  | .ok x s' => k x s'
  | .fault s' => loseCtx c s'
  | .hold p va => copyFirst p va s

/-- The save of a context has ended: the record is written, and the context is SAVED. -/
def endSave (c pcyc : Nat) (v : Saved) (s : State) : PartEnd Unit :=
  (writeArea c pcyc v s).bind fun _ s =>
    .ok () (s.setCtx c { s.ctx c with state := .saved, saved := some v, drainSave := false, drained := [] })

/-! ## `csave` (R366, R371) -/

/-- CTX with a reason. -/
def ctxFault (n reason : Nat) (s : State) : StepResult := .next (ownFault n Code.ctx (BitVec.ofNat 64 reason) s)

/-- Do the groups of a context span packages? -/
def spansPackages (s : State) (c : Nat) : Bool :=
  s.graphs.any fun e => e.1 / 256 = c && !e.2.image.ranks.isEmpty && e.2.groups.any fun g => !g.quads.isEmpty

/-- Cycles from a request to its common instant: HALT point or open point (R366, R406). -/
def commonDelay (s : State) (c : Nat) : Nat := if spansPackages s c then 760 else 400

/-- A WAITING or STAGING graph goes back to the state that it left (R371). -/
def withdraw (c slot : Nat) (s : State) : State :=
  let s := settleCtx c (releaseGroups c slot s)
  updGraph c slot (fun g => { g with state := g.prior, lists := g.lists.map fun l => (l.1, .loaded) }) s

/-- A DRAIN starts: running graphs drain, waiting ones are withdrawn. -/
def startDrainSave (c : Nat) (s : State) : State :=
  let mine := s.graphs.filter fun e => e.1 / 256 = c
  let run := mine.filter fun e => e.2.state == .running || e.2.state == .changing
  let wait := mine.filter fun e => e.2.state == .waiting || e.2.state == .staging
  let s := s.setCtx c { s.ctx c with state := .draining, drainSave := true, drained := (run ++ wait).map fun e => e.1 % 256 }
  let s := run.foldl (fun s e => startDrain c (e.1 % 256) s) s
  wait.foldl (fun s e => withdraw c (e.1 % 256) s) s

/-- The operand of `csave`: context, DRAIN, and whether another bit is set. -/
def saveOperand (v : Word) : Nat × Bool × Bool := (v.toNat % 64, bitOf v.toNat 8, v.toNat / 512 ≠ 0 || bitsOf v.toNat 6 2 ≠ 0)

/-- A save is accepted (R366): VALID is cleared; a READY context is SAVED at once, others drain, or stop at the HALT point `h`. -/
def beginSave (c : Nat) (drain : Bool) (h : Nat) (s : State) : PartEnd Unit :=
  (clearValid c s).bind fun _ s =>
    if (s.ctx c).state == .ready then endSave c s.pcyc { drain := drain } s
    else if drain then .ok () (startDrainSave c s)
    else
      let x := s.ctx c
      .ok () ((s.setCtx c { x with state := .halting, haltAt := some h, drainSave := false, drained := [] }).after (h - s.pcyc) (.haltPoint c))

/-- May a save begin in this state of a context (R366)? -/
def takesSave (st : CtxState) (drain : Bool) : Bool := st == .active || st == .ready || (st == .draining && !drain)

/-- `csave` (R366). It waits until the context is SAVED or LOST. A save starts by clearing VALID (R369), and where the header
cannot be written it fails at once (R372). -/
def execCsave (a : BitVec 6) (s : State) : StepResult :=
  onSeq s fun n =>
    let p := saveOperand (readS s a)
    let c := p.1
    let drain := p.2.1
    let st := (s.ctx c).state
    match (s.seq n).run with
    | .csave w => if (s.ctx w).state == .saved || (s.ctx w).state == .lost || (s.ctx w).state == .free then passIssued n s else stay n (.csave w) s
    | _ =>
      if p.2.2 then ctxFault n 1 s
      else if isQuadSeq n then ctxFault n 3 s
      else if !takesSave st drain then ctxFault n 2 s
      else
        match beginSave c drain (s.pcyc + commonDelay s c) s with
        | .ok _ s' => issueAndStay n (.csave c) (if spansPackages s c then tellPeers c s' else s')
        | .fault s' => issueAndStay n (.csave c) (loseCtx c s')
        | .hold p va => stay n .carm (copyFirst p va s)

/-- Every graph is IDLE, LOADED or FAILED (R371). -/
def allDrained (s : State) (c : Nat) : Bool :=
  (s.ctx c).state == .draining && (s.ctx c).drainSave &&
    s.graphs.all fun e => e.1 / 256 != c || e.2.state == .idle || e.2.state == .loaded || e.2.state == .failed

/-- DRAIN_COMPLETE (R371). -/
def execDrainComplete (ctx : Nat) (s : State) : StepResult :=
  .next (if allDrained s ctx then endAccess ctx (endSave ctx s.pcyc { drain := true, again := (s.ctx ctx).drained } s) s fun _ s => s else s)

/-! ## HALT (R366 to R369) -/

/-- HALT_POINT (R366): from this cycle on no unit of the context works (R361, step 1), and its regions are in RSTATE 4 (R200, R208); the
next cycles perform the beats of R367. -/
def execHaltPoint (ctx : Nat) (s : State) : StepResult :=
  if !((s.ctx ctx).state == .halting || (s.ctx ctx).state == .rolling) then .next s
  else .next { s with regions := s.regions.map fun e => (e.1, if e.1 / 2048 / 256 = ctx then { e.2 with waiting := none, wcnt := 0 } else e.2) }

/-- Quads of a graph. -/
def Graph.quadList (g : Graph) : List Nat := g.groups.flatMap Group.quads

/-- Does an access end before a HALT save ends (R368): not one that waits for a `tret`, for a word of a presence partition, for
an accumulator, or for a colour? -/
def Op.endsAtHalt (o : Op) : Bool :=
  !o.served && !o.refused && match o.kind with
    | .presLoad => !o.left.isEmpty
    | .tensorRead _ _ => false
    | .colour _ _ => false
    | _ => true

/-- Is an access one of a unit of the quads, or of an engine of the context? -/
def ofHalted (c : Nat) (quads : List Nat) (o : Op) : Bool :=
  match o.cur.unit, o.stream with
  | .tile t, _ => quads.contains (quadOfPos t)
  | .seq n, .seq _ => quads.contains n
  | _, _ => o.ctx = c

/-- Is a step due that carries something of the context to its end (R368)? -/
def stillMoving (s : State) (c : Nat) (quads : List Nat) : Bool :=
  s.agenda.any fun e =>
    match e.2 with
    | .graphLoadComplete _ _ => false
    | .graphPlacement _ _ => false
    | .stagingComplete _ _ => false
    | .startPulse _ _ => false
    | .orderTokenArrival u _ _ => if u < 4096 then quads.contains (quadOfPos u) else quads.contains (u - 4096)
    | .tensorFiringComplete t _ => quads.contains (quadOfPos t)
    | .tstoreComplete t => quads.contains (quadOfPos t)
    | .twloadValid t => quads.contains (quadOfPos t)
    | i => s.graphs.any fun g => g.1 / 256 = c && eventOf c (g.1 % 256) g.2.tags i

/-- Has a firing of the context words in hand that land before a save ends (R368)? One that waits on a report keeps them. -/
def landsWords (s : State) (c : Nat) : Bool :=
  s.graphs.any fun e => e.1 / 256 = c && e.2.copies.any fun t => t.firing.isSome && !t.hand.isEmpty && !t.pagewait && !t.held

/-- Does a token or publication of the context wait at the port of a link that still sends (R433)? -/
def waitsAtPort (s : State) (c : Nat) : Bool :=
  s.links.any fun l => l.2.state == .up && (l.2.out.any (fun t => t.1 / 4096 = c) || l.2.pubsOut.any fun p => p.1 / 4096 = c)

/-- Has the work in flight at a HALT point ended, that of a save or of a rollback (R367, R368, R427)? -/
def haltSettled (s : State) (c : Nat) : Bool :=
  let mine := s.graphs.filter fun e => e.1 / 256 = c
  let quads := mine.flatMap fun e => e.2.quadList
  ((s.ctx c).state == .halting || (s.ctx c).state == .rolling) && (s.ctx c).haltAt.any (fun h => h + 3 ≤ s.pcyc) &&
    !(s.ops.any fun e => ofHalted c quads e.2 && e.2.endsAtHalt) && !stillMoving s c quads && !landsWords s c && !waitsAtPort s c &&
    quads.all fun q => (List.range 4).all fun i =>
      let u := (s.tile (computeOfQuad q i)).tensor
      u.firings.isEmpty && u.loading.all Loading.complete && u.queue.all fun x => x.started.isNone

/-- What a HALT saves of the graphs in `slots`. -/
def saveObjects (c : Nat) (slots : List Nat) (s : State) : Saved :=
  let gs := (s.graphs.filter fun e => e.1 / 256 = c && slots.contains (e.1 % 256)).map fun e => (e.1 % 256, e.2)
  let quads := gs.flatMap fun e => e.2.groups.zipIdx.flatMap fun g => g.1.quads.map fun q => (e.1, g.2, q)
  let qs := quads.map fun q => q.2.2
  let isIn := fun t => qs.contains (quadOfPos t)
  { graphs := gs, quads := quads
    tiles := s.tiles.filter fun e => isIn e.1
    mtiles := s.mtiles.filter fun e => isIn e.1
    near := s.near.filter fun e => isIn (e.1 / 2 ^ 21)
    present := s.present.filter fun e => isIn (e.1 / 2 ^ 18)
    seqs := s.seqs.filter fun e => qs.contains e.1
    arcs := s.arcs.filter fun e => (e.1 / 4096 = c || e.1 / 4096 = c + 64) && slots.contains e.2.slot
    regions := s.regions.filter fun e => e.1 / 2048 / 256 = c && slots.contains (e.1 / 2048 % 256)
    ops := s.ops.filter fun e => ofHalted c qs e.2 }

/-- A graph that a HALT has saved: its groups are released, its lists are LOADED, its arcs and joins BOUND (R131, R156, R200, R216,
R245). -/
def parkGraph (c slot : Nat) (s : State) : State :=
  let old := graphAt s c slot
  let s := releaseGroups c slot s
  let s : State := { s with arcs := s.arcs.map fun e =>
    if e.1 / 4096 = c && e.2.slot = slot then (e.1, { e.2 with state := if e.2.state == .declared then .declared else .bound }) else e }
  updGraph c slot (fun g => { g with
    state := .saved, prior := old.state, groups := g.groups.map fun x => { x with state := .saved }
    lists := g.lists.map fun l => (l.1, .loaded)
    joins := g.joins.zipIdx.map fun j => { j.1 with state := if ((old.joins[j.2]?).map Join.state).getD .declared == .declared then .declared else .bound } }) s

/-- SAVE_COMPLETE (R368, R369): the save of a HALT ends. A graph that was still being staged waits for its placement again. -/
def execSaveComplete (ctx : Nat) (s : State) : StepResult :=
  let old := s
  if !haltSettled s ctx then .next s
  else
    let mine := s.graphs.filter fun e => e.1 / 256 = ctx
    let run := (mine.filter fun e => e.2.state == .running || e.2.state == .changing || e.2.state == .draining).map fun e => e.1 % 256
    let staging := (mine.filter fun e => e.2.state == .staging).map fun e => e.1 % 256
    let v := saveObjects ctx run s
    let s := run.foldl (fun s g => parkGraph ctx g s) (dropEngineOps ctx s)
    let s := staging.foldl (fun s g => (updGraph ctx g (fun x => { x with state := .waiting, lists := x.lists.map fun l => (l.1, .loaded) })
      (releaseGroups ctx g s)).later (.graphPlacement ctx g)) s
    .next (endAccess ctx (endSave ctx ((s.ctx ctx).haltAt.getD s.pcyc) v s) old fun _ s => s)

/-! ## Restore (R370) -/

/-- Quads as saved and as placed again. -/
abbrev Moves := List (Nat × Nat)
/-- A quad after the move. -/
def Moves.quad (m : Moves) (q : Nat) : Nat := ((m.find? fun e => e.1 = q).map Prod.snd).getD q
/-- A tile position after the move: local indexes stay (R198). -/
def Moves.pos (m : Moves) (t : Nat) : Nat :=
  let q := m.quad (quadOfPos t)
  if isComputePos t then computeOfQuad q (localOfPos t) else memoryOfQuad q (localOfPos t)
/-- A control unit after the move. -/
def Moves.seq (m : Moves) (n : Nat) : Nat := if isQuadSeq n then m.quad n else n
/-- A unit after the move. -/
def Moves.unit (m : Moves) : UnitId → UnitId
  | .tile t => .tile (m.pos t)
  | .seq n => .seq (m.seq n)
/-- The end of an arc after the move. -/
def Moves.placedEnd (m : Moves) : PlacedEnd → PlacedEnd
  | .tile t p => .tile (m.pos t) p
  | .tileCx t p => .tileCx (m.pos t) p
  | .seq n p => .seq (m.seq n) p
  | e => e
/-- An access after the move. -/
def Moves.op (m : Moves) (o : Op) : Op :=
  { o with cur := { o.cur with unit := m.unit o.cur.unit }
           mtile := match o.kind with
             | .walk => o.mtile
             | _ => m.pos o.mtile
           stream := match o.stream with
             | .seq n => .seq (m.seq n)
             | x => x }
/-- A kind of trap after the move of the quads of context `c`. -/
def Moves.trap (m : Moves) (c : Nat) : TrapKind → TrapKind
  | .report t => .report (m.pos t)
  | .forwarded n c' => .forwarded (if c' = c then m.seq n else n) c'
  | k => k
/-- A waiting trap after the move. -/
def Moves.req (m : Moves) (c : Nat) (r : TrapReq) : TrapReq := { r with kind := m.trap c r.kind }
/-- A control unit's own state after the move. -/
def Moves.unitState (m : Moves) (c : Nat) (q : Seq) : Seq :=
  { q with queue := q.queue.map (m.req c), refused := q.refused.map (m.req c), handling := m.trap c q.handling
           run := match q.run with
             | .forwarded k d => .forwarded (m.trap c k) d
             | r => r }
/-- A tile after the move. -/
def Moves.tile (m : Moves) (x : Tile) : Tile :=
  { x with between := x.between.map fun b => { b with cur := { b.cur with unit := m.unit b.cur.unit } }
           pend := x.pend.map fun p => match p.res with
             | .pattern mt g d => { p with res := .pattern (m.pos mt) g d }
             | _ => p }
/-- A region after the move. -/
def Moves.region (m : Moves) (r : Region) : Region :=
  { r with tiles := r.tiles.map m.pos, waiting := none, wcnt := 0, checked := false, dropped := r.dropped.map fun d => (m.pos d.1, d.2) }

/-- The groups of a saved graph are placed again, with the systolic bits that they had (R210); none where they cannot be yet. -/
def placeSaved (c slot : Nat) (v : Graph) (s : State) : Option State :=
  match s.graph? c slot with
  | none => some s
  | some g =>
    if g.state != .saved || g.handle != v.handle then some s
    else
      let bits := fun g : Graph => g.groups.zipIdx.map fun x => { x.1 with systolic := (v.groups.getD x.2 {}).systolic }
      let s := updGraph c slot (fun g => { g with groups := bits g }) s
      (placeAll s c slot { g with target := v.mode, groups := bits g }).bind fun t =>
      match bindGraph c slot t s with
      | .ok _ s => some s
      | _ => none

/-- All of them, in slot order. -/
def placeAllSaved (c : Nat) : List (Nat × Graph) → State → Option State
  | [], s => some s
  | e :: l, s => (placeSaved c e.1 e.2 s).bind (placeAllSaved c l)

/-- The moves of the quads of a save, the graphs being placed. -/
def movesOf (c : Nat) (v : Saved) (s : State) : Moves :=
  v.graphs.flatMap fun e => (graphAt s c e.1).groups.zipIdx.flatMap fun g =>
    ((v.quads.filter fun q => q.1 = e.1 && q.2.1 = g.2).map fun q => q.2.2).zip g.1.quads

/-- A store of a tile written again for the new placement (R199). -/
def restoreStore (g : Graph) (l : ListStore) : ListStore :=
  match (g.image.mode? l.mode).bind fun m => m.lists.find? fun d => d.tile = l.list with
  | some d => storeOf g l.ctx l.slot l.mode d
  | none => l

/-- A graph goes on at its saved state, at its new place, with the context's SEED latched (R347, R370). -/
def restoreGraph (c slot : Nat) (old : Graph) (s : State) : State :=
  updGraph c slot (fun g => { g with
    state := old.state, seed := (s.ctx c).seed, wdogs := old.wdogs, stagedMode := old.stagedMode, points := old.points, owed := old.owed
    peersReady := old.peersReady, closing := old.closing, finished := old.finished, forwarding := old.forwarding
    snapForward := old.snapForward, lists := old.lists
    groups := g.groups.zipIdx.map fun x =>
      let w := old.groups.getD x.2 {}
      { w with dx := x.1.dx, dy := x.1.dy, quads := x.1.quads }
    mems := g.mems.zipIdx.map fun x => { old.mems.getD x.2 {} with patched := x.1.patched, bound := true, engine := x.1.engine }
    joins := g.joins.zipIdx.map fun x => { old.joins.getD x.2 {} with elem := x.1.elem } }) s

/-- Near memory and presence bits of the quads of a save, at their new place. -/
def restoreNear (m : Moves) (v : Saved) (s : State) : State :=
  let isNew := fun t => (m.map Prod.snd).contains (quadOfPos t)
  let near := v.near.foldl (fun n e => writeByte n (m.pos (e.1 / 2 ^ 21) * 2 ^ 21 + e.1 % 2 ^ 21) e.2) (s.near.filter fun e => !isNew (e.1 / 2 ^ 21))
  let pres := v.present.foldl (fun n e => mput false n (m.pos (e.1 / 2 ^ 18) * 2 ^ 18 + e.1 % 2 ^ 18) e.2) (s.present.filter fun e => !isNew (e.1 / 2 ^ 18))
  { s with near := near, present := pres }

/-- An arc as saved, at its new place: its window lies where it lay in its memory tile (R159), and its lanes are those of the new placement in
the mode in force. -/
def restoreArc (m : Moves) (s : State) (e : Nat × Arc) : Nat × Arc :=
  let g := graphAt s (e.1 / 4096) e.2.slot
  (e.1, { e.2 with src := m.placedEnd e.2.src, dst := m.placedEnd e.2.dst, home := e.2.home.map m.pos, lseqOut := 0, lseqIn := 0
                   lanes := match e.2.decl with
                     | some i => g.lanesOf i g.mode
                     | none => [] })

/-- A list store of a saved tile, written again by the graph that owns it. -/
def restoreStores (c : Nat) (s : State) (x : Tile) : Tile :=
  let again := fun l : ListStore => restoreStore (graphAt s c l.slot) l
  { x with active := x.active.map again, shadow := x.shadow.map again }

/-- Every saved object is written back (R370). -/
def writeBack (c : Nat) (v : Saved) (s : State) : State :=
  let m := movesOf c v s
  let live := v.graphs.filter fun e => (s.graph? c e.1).any fun g => g.handle = e.2.handle
  let slots := live.map Prod.fst
  let mine := fun q => (m.map Prod.fst).contains q
  let s := live.foldl (fun s e => restoreGraph c e.1 e.2 s) s
  let s := live.foldl (fun s e => (List.range e.2.mems.length).foldl (fun s m => startUpdates c e.1 m s) s) s
  let s := restoreNear m v s
  let s := v.tiles.foldl (fun s e => if !mine (quadOfPos e.1) then s else
    s.setTile (m.pos e.1) (restoreStores c s (m.tile e.2))) s
  let s := v.mtiles.foldl (fun s e => if mine (quadOfPos e.1) then s.setMtile (m.pos e.1) { e.2 with busyBanks := [] } else s) s
  let s := v.seqs.foldl (fun s e => if mine e.1 then s.setSeq (m.quad e.1) (m.unitState c e.2) else s) s
  let s : State := { s with
    seqs := s.seqs.map fun e => (e.1, if isQuadSeq e.1 then e.2 else m.unitState c e.2)
    hostTraps := s.hostTraps.map fun e => (e.1, e.2.1, m.trap c e.2.2) }
  let s := v.ops.foldl (fun s e => { s with ops := mset s.ops e.1 (m.op e.2) }) s
  let s := v.arcs.foldl (fun s e => if slots.contains e.2.slot then
    let r := restoreArc m s e
    let s := s.setArc r.1 r.2
    s.setDie r.2.die { s.die r.2.die with attic := (s.die r.2.die).attic - r.2.chunks } else s) s
  let s := slots.foldl (fun s g => enterLanes c g s) s
  let s := v.regions.foldl (fun s e => if slots.contains (e.1 / 2048 % 256) then
    let r := m.region e.2
    s.setRegion e.1 (if unpowered s r then { r with stretch := 65535 } else r) else s) s
  m.foldl (fun s e => match (s.seq e.2).freed with
    | some skip => resumeForward e.2 skip (s.updSeq e.2 fun q => { q with freed := none })
    | none => s) s

/-- The cycle of a start or restore pulse of graphs on several packages, where the last package found its conditions met in cycle `c` (R442):
the first multiple of 32 that is at least 512 cycles ahead. -/
def commonPulse (c : Nat) : Nat := (c + 512 + 31) / 32 * 32
/-- The last of the cycles in which the packages found their conditions met: here, and as they tell. -/
def lastMet (here : Option Nat) (peers : Map Nat) : Nat := peers.foldl (fun m e => max m e.2) (here.getD 0)
/-- The common pulse as it is set in cycle `now`; a notice that comes too late for it gives the next multiple of 32 (log 9). -/
def pulseFrom (c now : Nat) : Nat := max (commonPulse c) ((now / 32 + 1) * 32)

/-- Does a save hold a graph with groups on several packages? -/
def Saved.spans (v : Saved) : Bool := v.graphs.any fun e => !e.2.image.ranks.isEmpty

/-- Does a context that has been restored wait for a group: the restore of a DRAIN makes it ACTIVE by the admission of a graph (R349, R370)? -/
def awaitsGroup (s : State) (c : Nat) : Bool :=
  (s.ctx c).state == .ready && s.graphs.any fun e => e.1 / 256 = c && (e.2.state == .waiting || e.2.state == .staging)

/-- The restore of a SAVED context begins (R370). -/
def beginRestore (c : Nat) (s : State) : State :=
  (s.setCtx c { s.ctx c with state := .restoring, placedAt := none, pulseAt := none }).later (.restorePulse c)

/-- `cload` (R370). It waits until the context is ACTIVE, READY with no graph on the way to a group (R349), or LOST. -/
def execCload (a : BitVec 6) (s : State) : StepResult :=
  onSeq s fun n =>
    let v := readS s a
    let c := v.toNat % 64
    match (s.seq n).run with
    | .cload w => if (s.ctx w).state == .restoring || awaitsGroup s w then stay n (.cload w) s else passIssued n s
    | _ =>
      if v.toNat / 64 ≠ 0 then ctxFault n 1 s
      else if isQuadSeq n then ctxFault n 3 s
      else if (s.ctx c).state != .saved then ctxFault n 2 s
      else issueAndStay n (.cload c) (beginRestore c s)

/-- After the restore of a DRAIN, `gact` is applied to the graphs that it made IDLE or withdrew (R259, R370). -/
def actAgain (c : Nat) (v : Saved) (s : State) : State :=
  v.again.foldl (fun s g =>
    let st := (graphAt s c g).state
    if st == .idle || st == .loaded then activate c g 0 false s.pcyc none 0 s else s) s

/-- The saved objects are read and written back, and every region goes on; while a page of the save area is being committed, `again` is
the state in which it is tried again. -/
def finishRestore (c : Nat) (v : Saved) (again s : State) : State :=
  endAccess c (readArea c v s) again fun v s =>
    let s := v.graphs.foldl (fun s e => runRegions c e.1 s) (writeBack c v s)
    settleCtx c (s.setCtx c { s.ctx c with state := .active, saved := none, haltAt := none, placedAt := none, peersPlaced := [], pulseAt := none })

/-- RESTORE_PULSE (R370, R442): every group is placed and written back, and every region goes on, in the cycle of this step; while no
placement is found, or a page of the save area is being committed, it is tried again. Where groups stand on several packages, the saved
graphs are placed, the other packages are told, and the pulse falls in the common cycle behind the last notice. -/
def execRestorePulse (ctx : Nat) (s : State) : StepResult :=
  let x := s.ctx ctx
  let v := x.saved.getD {}
  let step : Instr := .restorePulse ctx
  if x.state != .restoring then .next s
  else if v.drain then .next (endAccess ctx (readArea ctx v s) (s.later step) fun v s =>
    actAgain ctx v (s.setCtx ctx { s.ctx ctx with state := .ready, saved := none, haltAt := none }))
  else if x.placedAt.isNone then
    match placeAllSaved ctx v.graphs s with
    | none => .next (s.later step)
    | some s' =>
      if v.spans then .next ((tellPeers ctx (s'.setCtx ctx { s'.ctx ctx with placedAt := some s'.pcyc })).after 1 step)
      else .next (finishRestore ctx v (s.later step) s')
  else
    match x.pulseAt with
    | some h => if h ≤ s.pcyc then .next (finishRestore ctx v (s.after 32 step) s) else .next (s.after (h - s.pcyc) step)
    | none =>
      if (v.graphs.flatMap fun e => e.2.image.ranks.map Prod.snd).all fun r => (mfind x.peersPlaced r).isSome then
        let h := pulseFrom (lastMet x.placedAt x.peersPlaced) s.pcyc
        .next ((s.setCtx ctx { x with pulseAt := some h }).after (h - s.pcyc) step)
      else .next (s.after 1 step)

/-! ## Reads that fail (R374 to R376) -/

/-- The step that brings an access to DRAM to its end. -/
def Op.endStep (id : Nat) (o : Op) : Option Instr :=
  match o.kind with
  | .dramLoad _ _ => some (.dramAccessPerformed id)
  | .engineRead _ _ => some (.dramReply id)
  | .walk => some (.walkComplete id)
  | _ => none

/-- A repeated read makes an access late: by 8 cycles on a die, by a time that the spec leaves open from DRAM (R374, log 2). -/
def slowAccess (id : Nat) (o : Op) (s : State) : State :=
  match o.endStep id with
  | some i => { s.delay (1 + Config.freeDelay s.freeCount) i with freeCount := s.freeCount + 1 }
  | none =>
    let late := fun q : Seq => { q with busy := q.busy.map fun b => if o.dst == some b.1 && b.2 = o.usable then (b.1, b.2 + 8) else b }
    if !o.served then setOp id { o with slow := o.slow + 8 } s
    else
      let s := setOp id { o with usable := o.usable + 8 } s
      match o.cur.unit with
      | .seq n => s.updSeq n late
      | .tile _ => s

/-- An access whose read fails: a retry that succeeds makes it late; a lasting error raises MEMERR, or ends a walk as WALKERR, and the
read that failed brings nothing (R374, R375, R385). -/
def retryAccess (op lasting : Nat) (o : Op) (s : State) : State :=
  let i := o.memerr
  let l := o.logged s
  let s := s.logError l.2.2 l.1 (if lasting = 0 then 1 else 2) l.2.1
  if lasting = 0 then slowAccess op o s
  else
    let s := ((o.endStep op).map s.cancel).getD s
    match o.kind with
    | .walk =>
      match o.dst with
      | some _ =>
        let level := (walk s o.ctx o.va).level + Config.freeDelay s.freeCount % (4 - (walk s o.ctx o.va).level)
        streamGoesOn op o ((answer op o (wordVec (pgstatWord 0 5 level false 0)) s.pcyc { s with freeCount := s.freeCount + 1 }).dropOp op)
      | none => walkFault o (Code.nomap + 4) (s.dropOp op)
    | .engineRead _ _ => passEngine o.ctx o.stream Code.memerr (memerrInfo i.1 i.2) (setOp op { o with refused := true } s)
    | _ => completionFault op Code.memerr (memerrInfo i.1 i.2) (setOp op { o with served := false } s)

/-- The physical address that a walk of a context's tables gives, 0 where it gives none. -/
def paOf (s : State) (c va : Nat) : Nat :=
  match walk s c va with
  | .leaf e _ _ => Leaf.pa e + va % Leaf.bytes e
  | _ => 0

/-- The next words that a firing reads: SRC and ADDR of MEMERR, SRC and WHERE of the log entry, and the die that logs it. -/
def copySource (s : State) (c g t : Nat) (x : Template) (k : Nat) : Nat × Nat × Nat × Nat × Nat :=
  if isNearEnd x.fsrc then
    let a := x.srcAt k % 2 ^ 63
    (0, a, 1, a, dieOfPos (((Stream.copy g t).tileOf s c).getD 0))
  else
    let pa := paOf s c (x.srcAt k)
    (1, x.srcAt k, 2, pa, (dieOfPa s pa).getD 0)

/-- An operation of the tensor unit of a tile meets an error: `late` where the retry succeeds; else `gone` takes it from the unit, and it is
a refused operation (R352, R374, R375). -/
def retryTensor (o : Op) (lasting : Nat) (late gone : State → State) (s : State) : State :=
  if lasting = 0 then
    let l := o.logged s
    late (s.logError l.2.2 l.1 1 l.2.1)
  else
    let s := gone s
    retryAccess s.opCount lasting o (s.newOp o)

/-- The operation that `o` names in the tensor unit of a tile: its context and the place of its entry. -/
def tensorOp (s : State) (t : Nat) (kind : OpKind) (addr seg entry stamp : Nat) : Op :=
  { kind := kind, addr := addr, ctx := ((groupOfTile s t).map Prod.fst).getD 0, issued := s.pcyc
    cur := { unit := .tile t, seg := seg, entry := entry, stamp := stamp } }

/-- An engine stops at a read with a lasting error, or is late by `d` cycles (R374, R375). -/
def retryEngine (c : Nat) (st : Stream) (lasting d : Nat) (src addr : Nat) (s : State) : State :=
  if lasting ≠ 0 then (if awaitsTret s c st then s else setHeld c st true (passEngine c st Code.memerr (memerrInfo src addr) s))
  else updEngine c st (fun m => { m with pause := s.pcyc + d }) (fun t => { t with pause := s.pcyc + d }) s

/-- The token at the head of a ring window cannot be read at once: the next entry of the consumer's tile stops or is late, or its engine
does (R374, R375). -/
def retryToken (c tag lasting : Nat) (s : State) : State :=
  match s.arc? (State.arcKey c tag) with
  | none => s
  | some a =>
    match a.placeOf a.read, a.home with
    | some p, some mt =>
      let addr := localOfPos mt * 2 ^ 21 + p
      let s' := s.logError (dieOfPos mt) 1 (if lasting = 0 then 1 else 2) addr
      match a.dst with
      | .tile t _ =>
        let x := s.tile t
        if lasting = 0 then s'.setTile t { x with slow := x.slow + 8 } else s.setTile t { x with badReg := some (0, addr) }
      | .mem m _ => retryEngine c (.memActor a.slot m) lasting 8 0 addr s'
      | _ => s
    | _, _ => s

/-- READ_RETRY (R374): a transient error is logged and costs time alone; a lasting one raises MEMERR where it was read (R375): a copy
engine stops at its position, an operation of a tile is refused, the instruction of a sequencer does not issue. -/
def execReadRetry (site : ReadSite) (lasting : Nat) (s : State) : StepResult :=
  let kind := if lasting = 0 then 1 else 2
  match site with
  | .access op =>
    match opAt s op with
    | none => .next s
    | some o => .next (retryAccess op lasting o s)
  | .copyWord c g t =>
    let x := copyAt s c g t
    match x.unread with
    | [] => .next s
    | (k, _) :: _ =>
      let e := copySource s c g t x k
      let s := s.logError e.2.2.2.2 e.2.2.1 kind e.2.2.2.1
      if lasting ≠ 0 then
        .next (if x.held then s else setHeld c (.copy g t) true (passEngine c (.copy g t) Code.memerr (memerrInfo e.1 e.2.1) s))
      else
        let d := if isNearEnd x.fsrc then 8 else 1 + Config.freeDelay s.freeCount
        .next { updCopy c g t (fun x => { x with pause := s.pcyc + d }) s with freeCount := s.freeCount + 1 }
  | .tileRegister t reg =>
    let x := s.tile t
    if lasting ≠ 0 then .next (s.setTile t { x with badReg := some (2, reg) })
    else .next ((s.logError (dieOfPos t) 3 kind reg).setTile t { x with slow := x.slow + 8 })
  | .seqRegister n reg =>
    let s := s.logError (dieOfSeq n) 3 kind reg
    if lasting = 0 then .next (s.updSeq n fun q => { q with ready := max q.ready s.pcyc + 8 })
    else .next (if (s.seq n).run == .run then ownFault n Code.memerr (memerrInfo 2 reg) s else s)
  | .firing t ts near =>
    let u := tensorAt s t
    match u.firingOf ts with
    | none => .next s
    | some f =>
      let by_ := (u.slot ts).armedBy
      let src := if near.isSome then 0 else 3
      let o := tensorOp s t (.firing f src (near.getD f.acc)) 0 by_.1 by_.2.1 by_.2.2
      let done : Instr := .tensorFiringComplete t ts
      .next (retryTensor o lasting (fun s => s.delay 8 done)
        (fun s => (setTensor t { u with firings := u.firings.erase f } s).cancel done) s)
  | .tstore t =>
    let u := tensorAt s t
    match u.queue with
    | [] => .next s
    | x :: rest =>
      let o := tensorOp s t (.tstore x.acc x.ft x.rm) x.addr x.seg x.entry x.stamp
      let done : Instr := .tstoreComplete t
      if x.started.isNone then .next s
      else .next (retryTensor o lasting
        (fun s => (setTensor t { u with queue := { x with started := x.started.map (· + 8) } :: rest } s).delay 8 done)
        (fun s => (setTensor t { u with queue := rest } s).cancel done) s)
  | .twload t near =>
    let u := tensorAt s t
    match u.loading.find? fun l => !l.complete with
    | none => .next s
    | some l =>
      let done : Instr := .twloadValid t
      .next (retryTensor (tensorOp s t (.loading l near) 0 0 0 0) lasting (fun s => s.delay 8 done)
        (fun s => (setTensor t { u with loading := u.loading.erase l } s).cancel done) s)
  | .ringToken c tag => .next (retryToken c tag lasting s)
  | .fetch n =>
    let q := s.seq n
    let pa := paOf s q.ctxid q.pc.toNat
    let s := s.logError (homeDie s pa) 2 kind pa
    if lasting = 0 then .next { s.updSeq n fun q => { q with ready := max q.ready s.pcyc + 1 + Config.freeDelay s.freeCount } with freeCount := s.freeCount + 1 }
    else .next (if q.run == .run then ownFault n Code.memerr (memerrInfo 1 q.pc.toNat) s else s)
  | .scatterAdd c g m =>
    match (memAt s c g m).updates with
    | [] => .next s
    | (va, _, _) :: _ =>
      let pa := paOf s c va
      let s := updMem c g m (fun x => { x with retry := true }) (s.logError (homeDie s pa) 2 kind pa)
      .next { retryEngine c (.memActor g m) lasting (1 + Config.freeDelay s.freeCount) 1 va s with freeCount := s.freeCount + 1 }
  | .sweep c =>
    match (s.ctx c).sweep.bind fun va => (leaves s c).find? fun l => va ≤ l.1 with
    | none => .next s
    | some (_, _, e) =>
      let s := s.logError (homeDie s (Leaf.pa e)) 2 kind (Leaf.pa e)
      if lasting = 0 then .next { s.delay (1 + Config.freeDelay s.freeCount) (.sweeperVisit c) with freeCount := s.freeCount + 1 }
      else .next (failSnap c 3 s)
  | .cellar c off =>
    let x := s.ctx c
    let pa := paOf s c (x.cellar.cbase + off)
    let s := if x.cellar.place = 1 then s else s.logError (homeDie s pa) 2 kind pa
    .next (if lasting = 0 then s else s.setCtx c { s.ctx c with cellarBad := true })

/-! ## Configuration stores (R377, R200) -/

/-- CONFIG_STORE_ERROR (R374, R377): a transient error is logged, and makes the next entry of the tile late; a lasting one stops the
group and reloads the region's configuration. -/
def execConfigStoreError (ctx slot reg lasting : Nat) (s : State) : StepResult :=
  let k := State.regionKey ctx slot reg
  match mfind s.regions k with
  | none => .next s
  | some r =>
    let t := lowestTile r
    let s := s.logError (dieOfPos t) 5 (if lasting = 0 then 1 else 2) (tileAddr t)
    if lasting = 0 then .next (s.setTile t { s.tile t with slow := (s.tile t).slow + 8 })
    else
      let s := (regionsOfGroup s k).foldl (fun s j =>
        let x := s.regionAt j
        s.setRegion j { x with rstate := if x.rstate = 3 then 3 else 4, wcnt := 0, reloading := x.reloading || j = k }) s
      .next (s.later (.configReloadComplete ctx slot reg 0))

/-- The regions of a group that a reload has stopped go on, once none of them reloads. -/
def resumeReloaded (k : Nat) (s : State) : State :=
  let js := regionsOfGroup s k
  if js.any fun j => (s.regionAt j).reloading then s
  else js.foldl (fun s j =>
    let r := s.regionAt j
    if r.rstate = 4 then s.setRegion j { r with rstate := if r.inPhase then 2 else 1, waiting := none } else s) s

/-- CONFIG_RELOAD_COMPLETE (R377, R205): the configuration is that of the image again, tokens that wait at lane entries and ports are
tried again, and the group goes on; `failed` is 0, or the store whose reload failed again, plus 1: CONFIG. -/
def execConfigReloadComplete (ctx slot reg failed : Nat) (s : State) : StepResult :=
  let k := State.regionKey ctx slot reg
  match mfind s.regions k with
  | none => .next s
  | some r =>
    let s := resumeReloaded k (s.setRegion k { r with reloading := false })
    if failed ≠ 0 then .next (regionReport k Code.config (BitVec.ofNat 64 ((failed - 1) % 16)) s)
    else
      let mine := (s.arcs.filter fun e => e.1 / 4096 = ctx && e.2.kind == .slot && e.2.srcRegion s = some k).map Prod.fst
      .next (retryStrays (mine.foldl (fun s key => resumeFlights key s) (enterLanes ctx slot s)))

end Sys2Proof.Machine
end

