-- ==== Sys2Proof/Machine/Snapshot.lean ====
section
/-! DEFINITION. Snapshots: opening, markers and records (R404 to R411), the sweeper, sealing, retention and failure (R415 to R421),
the snapshot instructions (R422 to R426) and rollback (R427 to R429). -/

namespace Sys2Proof.Machine

/-! ## The cellar descriptor (R402, R403) -/

/-- The 64 bytes of the descriptor are read, none where they cannot be; an instruction waits while their page is being committed
(R387, R402). -/
def readDescriptor (n c : Nat) (s : State) (k : Option Nat → State → StepResult) : StepResult :=
  match partPa (dieOfSeq n) c (s.ctx c).saveBase .read s with
  | .ok pa s => k (some (readLE s.mem pa 64)) s
  | .fault s => k none s
  | .hold p va => stay n .carm (copyFirst p va s)

/-- The descriptor as the part reads it. -/
def cellarOf (w : Nat) : Cellar :=
  { csize := bitsOf w 128 64, cbase := bitsOf w 64 64, keep := bitsOf w 12 4, place := bitsOf w 8 2, peer := bitsOf w 0 6 }

/-- Is every 64 KiB of a range of a context's space in a pinned page (R397)? -/
def pinnedRange (s : State) (c va n : Nat) : Bool :=
  (List.range ((n + 65535) / 65536)).all fun i =>
    va + 65536 * i < 2 ^ 56 && match walk s c (va + 65536 * i) with
      | .leaf e _ _ => Leaf.pinned e
      | _ => false

/-- Does a descriptor keep R402 and R403? -/
def cellarOk (s : State) (c w : Nat) : Bool :=
  let x := cellarOf w
  bitsOf w 192 320 == 0 && bitsOf w 16 48 == 0 && bitsOf w 10 2 == 0 && bitsOf w 6 2 == 0 && x.csize % 2 ^ 21 == 0 && 2 ^ 26 ≤ x.csize &&
    x.cbase % 2 ^ 21 == 0 && 1 ≤ x.keep && x.keep ≤ 8 && x.place ≤ 1 &&
    (if x.place = 0 then x.peer == 0 && pinnedRange s c x.cbase x.csize else true)

/-! ## Snapshots of a context -/

/-- The newest SEALED snapshot. -/
def Ctx.newestSealed (x : Ctx) : Option Snap := (x.snaps.filter fun p => p.state == .sealed).getLast?
/-- The snapshot that an identifier names (R425). -/
def Ctx.named (x : Ctx) (id : Nat) : Option Snap :=
  if id = 0 then (match x.busySnap with
    | some p => some p
    | none => x.newestSealed)
  else x.snaps.find? fun p => p.id = id
/-- A snapshot changed. -/
def updSnapId (c id : Nat) (f : Snap → Snap) (s : State) : State :=
  s.setCtx c { s.ctx c with snaps := (s.ctx c).snaps.map fun p => if p.id = id then f p else p }

/-! ## Records (R407 to R411) -/

/-- The key of a member of a join in a snapshot. -/
def memberKey (slot j m : Nat) : Nat := slot * 65536 + j * 64 + m
/-- The key of a sequencer in a snapshot: by graph, group and quad of the group. -/
def seqKey (slot grp i : Nat) : Nat := slot * 2 ^ 26 + grp * 1024 + i

/-- The members of joins for which `f` holds are recorded: signals sent and releases removed (R411). -/
def recordMembers (c slot : Nat) (f : End → Bool) (s : State) : State :=
  let g := graphAt s c slot
  g.image.joins.zipIdx.foldl (fun s j => j.1.zipIdx.foldl (fun s m =>
    if f m.1 then
      let y := joinAt s c slot j.2
      let x := match y.restore with
        | some r => y.counted r.1 r.2
        | none => y
      s.setCtx c ((s.ctx c).updOpen fun p => { p with sigs := mset p.sigs (memberKey slot j.2 m.2) (nth x.sent m.2)
                                                      rels := mset p.rels (memberKey slot j.2 m.2) (nth x.removed m.2) })
    else s) s) s

/-- Is an end a control port of a kernel? -/
def isCxOf (k : Nat) : End → Bool
  | .actorCx j _ => j == k
  | _ => false
/-- Is an end a control port of a `.seq`? -/
def isSeqCx : End → Bool
  | .seqCx _ _ => true
  | _ => false

/-- The record of an actor is added. -/
def addRecord (c : Nat) (r : ActorRec) (s : State) : State :=
  passAgent c (agentActor r.slot r.kernel) (s.setCtx c ((s.ctx c).updOpen fun p => { p with actors := p.actors ++ [r] }))

/-- The key of the arc of a port. -/
def portKey (c : Nat) (x : Port) : Option Nat := x.arc.map fun tag => State.arcKey c tag

/-- The `tstore` instructions of an actor that its tile has queued and that start without waiting for any other work, as if they had written
(R147, R333): in their order, each from an accumulator that is CLOSED. -/
def storesBehind (t k : Nat) (s : State) : State :=
  let u := tensorAt s t
  let owned := fun x : TStore => ((s.tile t).active.bind fun l => l.entry? x.seg x.entry).any fun e => e.owner = k
  (u.queue.foldl (fun r x =>
    let a := u.acc x.acc
    if r.2.contains x.acc || a.state != .closed || (storeRefusal s (quadOfPos t) x a).isSome then r
    else (if owned x then storeAll (quadOfPos t) x a r.1 else r.1, x.acc :: r.2)) (s, [])).1

/-- Near memory with the accesses of an actor that have issued and are not yet performed (R147): its stores and atomics, in their order, and
its `tstore` rows. -/
def nearBehind (c slot t k : Nat) (s : State) : State :=
  storesBehind t k (s.ops.foldl (fun s e =>
    let o := e.2
    if o.refused || o.cur.unit != .tile t || o.cur.actor != k || o.ctx != c || o.cur.slot != slot then s
    else
      match o.kind with
      | .nearStore _ => o.left.foldl (fun s w => (serveWord o w s 0).1) s
      | .atomic sub b d _ => if o.served then s else (atomicUpdate sub b d o.mtile o.addr s).1
      | _ => s) s)

/-- The colour of an actor at a period end: the one that its last beat has set, though entries read it from the next cycle (R141). -/
def colourBehind (key : Nat) (a : Actor) (x : Tile) : Nat :=
  x.pend.foldl (fun c p => match p.res with
    | .colour k v => if k = key then v else c
    | _ => c) a.colour

/-- An actor passes its marker point (R408): its record, and of each input the overdraw, or the start of its channel state (R410);
none of the latter in a list that is quiescent (R420). -/
def recordActor (c slot k : Nat) (quiet : Bool) (s : State) : State :=
  let g := graphAt s c slot
  let a := s.actor (State.actorKey c slot k)
  let list := (g.modeNow.listOf k).map ListDecl.tile
  let t := (list.map fun l => g.placed.getD l 0).getD 4095
  let ports := portsOf (s.tile t).inPorts k
  let cup := match cupboardPlace g k with
    | some p => readBytes (nearBehind c slot t k s).near (nearKey p.1 p.2) (g.image.kernel k).cupboard
    | none => []
  let x := s.tile t
  let r : ActorRec := { slot := slot, kernel := k, fires := a.fires, colour := colourBehind (State.actorKey c slot k) a x, mode := g.mode, seed := g.seed
                        cupboard := cup, tile := list, loops := (x.lb, x.le, x.lc), ps := psOf x k }
  let s := recordMembers c slot (isCxOf k) (s.setActor (State.actorKey c slot k) { a with recorded := true })
  let s := ports.foldl (fun s p =>
    match portKey c p.2 with
    | none => s
    | some key =>
      match s.arc? key with
      | none => s
      | some b =>
        if b.snapped then s.setCtx c ((s.ctx c).updOpen fun q => { q with overdraw := mput 0 q.overdraw key b.after })
        else s.setArc key { b with recording := !quiet, recorded := [] }) s
  addRecord c r s

/-- The cupboard of a kernel of a graph that does not run: as a drain kept it, or in near memory once it is staged. -/
def restCupboard (s : State) (g : Graph) (k : Nat) : List Byte :=
  match mfind g.kept k, cupboardPlace g k with
  | some bs, _ => bs
  | none, some p => if g.stagedMode.isSome then readBytes s.near (nearKey p.1 p.2) (g.image.kernel k).cupboard else []
  | none, none => []

/-- Tokens of a window that are channel state (R407): markers are none. -/
def Token.isState (t : Token) : Bool := t.counts || t.kind == .ctrl

/-- The saved state of a graph that does not run is recorded at once (R407): cupboards, PS bits, loop registers, window contents, positions,
and what a rollback has left to be done in its arcs and joins (R411, R428). -/
def recordIdle (c slot : Nat) (s : State) : State :=
  let g := graphAt s c slot
  let isMine := fun e : Nat × Arc => (e.1 / 4096 = c || e.1 / 4096 = c + 64) && e.2.slot = slot
  let s := (List.range g.image.kernels.length).foldl (fun s k =>
    let a := s.actor (State.actorKey c slot k)
    let list := (g.modeNow.listOf k).map ListDecl.tile
    addRecord c { slot := slot, kernel := k, fires := a.fires, colour := a.colour, ps := mget 0 g.ps k, mode := g.mode, seed := g.seed
                  cupboard := restCupboard s g k, tile := list
                  loops := (list.bind (mfind g.loops)).getD ([], [], []) } (s.setActor (State.actorKey c slot k) { a with recorded := true })) s
  let s := recordMembers c slot (fun _ => true) s
  let s : State := { s with arcs := s.arcs.map fun e => (e.1, if isMine e then { e.2 with overdrawAt := e.2.overdraw } else e.2) }
  s.setCtx c ((s.ctx c).updOpen fun p =>
    { p with channels := s.arcs.foldl (fun m e =>
        let w := (e.2.window ++ e.2.fresh ++ e.2.entry ++ e.2.transit).filter Token.isState
        if isMine e && !w.isEmpty then mset m e.1 w else m) p.channels })

/-- SNAP markers enter a graph (R407), and the agents that have no marker point to come pass theirs: actors without a list in the
mode in force, and those of lists, engines and templates that are quiescent (R420). -/
def injectSnap (c slot : Nat) (s : State) : State :=
  let g := graphAt s c slot
  let im := g.image
  let tok := snapToken s c
  -- sources, and engines at rest
  let s := im.mems.zipIdx.foldl (fun s d =>
    let x := memAt s c slot d.2
    let quiet := x.quiescent || !x.bound
    match d.1.kind, memOut s c slot d.2 with
    | .source, some key =>
      if quiet then passAgent c (agentMem slot d.2) (updMem c slot d.2 (fun x => { x with snapPos := some x.next }) (engineSend key tok s))
      else updMem c slot d.2 (fun x => { x with snapAt := some (x.next + tokensToPeriodEnd s ((s.arc? key).getD {}) x) }) s
    | .gather, some key => if quiet then passAgent c (agentMem slot d.2) (engineSend key tok s) else s
    | _, _ => if quiet then passAgent c (agentMem slot d.2) (updMem c slot d.2 (fun x => { x with snapPos := some x.next }) s) else s) s
  -- templates
  let s := (List.range im.copies.length).foldl (fun s t =>
    let x := copyAt s c slot t
    match copyQueue s c slot t with
    | some key =>
      if x.marked then passAgent c (agentCopy slot t) (writeWindow (boundKey key) { tok with tag := key % 4096 } s)
      else writeWindow key { tok with tag := key % 4096 } s
    | none => passAgent c (agentCopy slot t) s) s
  -- spawn arcs
  let s := im.arcs.zipIdx.foldl (fun s e =>
    if e.1.src == .none && !e.1.queue && !e.1.control && !im.detours.contains e.2 then
      let tag := g.tags.getD e.2 0
      sendToken (State.arcKey c tag) { tok with tag := tag } s
    else s) s
  -- actors
  (List.range im.kernels.length).foldl (fun s k =>
    if (im.kernelRank k).isSome then passAgent c (agentActor slot k) s
    else
      match g.modeNow.listOf k with
      | none => recordActor c slot k true s
      | some l =>
        if listState g g.mode l.tile == .quiescent then
          updGraph c slot (fun g => { g with snapForward := g.snapForward ++ [(k, s.pcyc)] }) (recordActor c slot k true s)
        else s) s

/-- The agents of a graph. -/
def agentsOf (slot : Nat) (g : Graph) : List Nat :=
  (List.range g.image.kernels.length).map (agentActor slot) ++ (List.range g.image.mems.length).map (agentMem slot) ++
    (List.range g.image.copies.length).map (agentCopy slot)

/-- Does a graph's flow take part in a snapshot that opens: does it run? -/
def Graph.flows (g : Graph) : Bool := g.state == .running || g.state == .changing || g.state == .draining
/-- Is a graph at rest with a state to record (R407)? -/
def Graph.rests (g : Graph) : Bool := g.state == .loaded || g.state == .waiting || g.state == .staging || g.state == .idle

/-- An arc without the marks of an earlier snapshot, for snapshot `id`. -/
def Arc.unmarked (id : Nat) (a : Arc) : Arc :=
  { a with snapId := id, snapped := false, after := 0, recording := false, recorded := [], overdrawAt := 0 }
/-- A graph without the marks of an earlier snapshot. -/
def Graph.unmarked (g : Graph) : Graph :=
  { g with snapForward := [], mems := g.mems.map fun m => { m with snapAt := none, snapPos := none }
           copies := g.copies.map fun t => { t with snapDue := false } }

/-- Nothing of an earlier snapshot is left in the graphs and arcs of a context, the saved ones too (R420). -/
def clearMarks (c id : Nat) (s : State) : State :=
  let s : State := { s with
    arcs := s.arcs.map fun e => (e.1, if e.1 / 4096 = c || e.1 / 4096 = c + 64 then e.2.unmarked id else e.2)
    actors := s.actors.map fun e => (e.1, if e.1 / 65536 / 256 = c then { e.2 with recorded := false } else e.2)
    graphs := s.graphs.map fun e => (e.1, if e.1 / 256 = c then e.2.unmarked else e.2) }
  match (s.ctx c).saved with
  | none => s
  | some v => s.setCtx c { s.ctx c with saved := some { v with
      arcs := v.arcs.map fun e => (e.1, e.2.unmarked id), graphs := v.graphs.map fun e => (e.1, e.2.unmarked) } }

/-- The `SQN` of the sequencers of a context: of those that are placed, of those that a HALT has saved, and those that a rollback keeps for
a placement (R409, R427). -/
def seqNumbers (s : State) (c : Nat) : Map Word :=
  let live := s.graphs.foldl (fun m e =>
    if e.1 / 256 = c then
      let m := e.2.sqns.foldl (fun m q => mset m (seqKey (e.1 % 256) 0 0 + q.1) q.2) m
      e.2.groups.zipIdx.foldl (fun m g => g.1.quads.zipIdx.foldl (fun m q => mset m (seqKey (e.1 % 256) g.2 q.2) (s.seq q.1).sqn) m) m
    else m) []
  match (s.ctx c).saved with
  | none => live
  | some v => v.quads.foldl (fun m q =>
      let i := (v.quads.filter fun r => r.1 = q.1 && r.2.1 = q.2.1).idxOf q
      mset m (seqKey q.1 q.2.1 i) ((mfind v.seqs q.2.2).getD {}).sqn) live

/-- SNAP_OPEN_POINT (R406, R407). -/
def execSnapOpenPoint (ctx : Nat) (s : State) : StepResult :=
  let x := s.ctx ctx
  match x.snaps.find? fun p => p.state == .requested with
  | none => .next s
  | some p =>
    let mine := s.graphs.filter fun e => e.1 / 256 = ctx
    let flow := mine.filter fun e => e.2.flows
    let held := mine.filter fun e => e.2.state == .saved
    let recs := mine.map fun e => { slot := e.1 % 256, handle := e.2.handle, mode := e.2.mode, seed := e.2.seed
                                    positions := e.2.mems.map MemActor.next, unstaged := !e.2.everStaged
                                    latched := e.2.flows || e.2.state == .saved || e.2.keepSeed : GraphRec }
    let q := { p with state := .opened, pol := !x.pol, seed := x.seed, prev := (x.newestSealed.map Snap.id).getD 0, graphs := recs, epoch := x.epoch
                      pending := (flow ++ held).flatMap fun e => agentsOf (e.1 % 256) e.2
                      colours := x.drawn.foldl (fun m k => if x.returned.contains k then m else mset m k 1) []
                      sqns := seqNumbers s ctx, deferred := held.map fun e => e.1 % 256 }
    let s := s.setCtx ctx { x with pol := !x.pol, sweep := some 0, stored := none, snaps := x.snaps.map fun r => if r.id = p.id then q else r }
    let s := clearMarks ctx p.id s
    let s := mine.foldl (fun s e => recordMembers ctx (e.1 % 256) isSeqCx s) s
    let s := (mine.filter fun e => e.2.rests).foldl (fun s e => recordIdle ctx (e.1 % 256) s) s
    let s := flow.foldl (fun s e => injectSnap ctx (e.1 % 256) s) s
    .next (s.later (.sweeperVisit ctx))

/-! ## The sweeper (R415) -/

/-- SWEEPER_VISIT (R415): the next leaf with W = 1 is captured if it is uncaptured; one that is migrating or being committed is
visited again. The page is reached through the translation engine of the die that holds it (R385). -/
def execSweeperVisit (ctx : Nat) (s : State) : StepResult :=
  let x := s.ctx ctx
  let again : State → StepResult := fun s => .next (s.later (.sweeperVisit ctx))
  match x.sweep, x.snapOpen with
  | some va, some _ =>
    match (leaves s ctx).find? fun l => va ≤ l.1 with
    | none => .next (s.setCtx ctx { x with sweep := none })
    | some (v, place, e) =>
      let due := Leaf.w e && Leaf.s e != x.pol && !neverCaptured x v (Leaf.bytes e)
      let passed : State → StepResult := fun s => again (s.setCtx ctx { s.ctx ctx with sweep := some (v + Leaf.bytes e) })
      if due && (Leaf.state e = 4 || Leaf.cmt e) then again s
      else if due && Leaf.isHome e then
        if !leafMatches s e then .next (failSnap ctx 3 s)
        else
          match partLeaf (homeDie s (Leaf.pa e)) ctx v .write s with
          | .fault s => .next (failSnap ctx 3 s)
          | .hold c p => again (copyFirst c p s)
          | .ok t s =>
            match capture ctx v (Leaf.setField e 16 36 (bitsOf t.leaf.toNat 16 36)) place s with
            | .ok _ s => passed s
            | .fault s => passed s
            | .hold c p => again (copyFirst c p s)
      else passed s
  | _, _ => .next s

/-! ## Sealing (R416 to R418) -/

/-- Is a write with M = 0 of a context still to be performed? -/
def oldWrites (s : State) (c : Nat) : Bool :=
  (s.ops.any fun e => e.2.ctx = c && !e.2.marker s && match e.2.kind with
    | .dramStore _ _ => true
    | _ => false) ||
  s.graphs.any fun e => e.1 / 256 = c && (e.2.mems.any (fun m => m.updates.any fun u => !u.2.2) || e.2.copies.any fun t => t.firing.isSome && !t.fmark)

/-- The other packages of a context, by rank. -/
def peerRanks (s : State) (c : Nat) : List Nat := (s.graphs.filter fun e => e.1 / 256 = c).flatMap fun e => e.2.image.ranks.map Prod.snd

/-- The conditions of R416, those of every package for a domain snapshot (R421). -/
def canSeal (s : State) (c : Nat) : Bool :=
  let x := s.ctx c
  match x.snapOpen with
  | none => false
  | some p => p.pending.isEmpty && p.deferred.isEmpty && x.sweep.isNone && !oldWrites s c &&
      (!p.dom || (peerRanks s c).all p.peersDone.contains) &&
      !(s.arcs.any fun e => (e.1 / 4096 = c || e.1 / 4096 = c + 64) && e.2.recording)

/-- SNAPSHOT_SEALING (R416): channel states and positions join the record. -/
def execSnapshotSealing (ctx : Nat) (s : State) : StepResult :=
  if !canSeal s ctx then .next s
  else
    let s := s.setCtx ctx ((s.ctx ctx).updSnap fun p =>
      { p with state := .sealing
               channels := s.arcs.foldl (fun m e =>
                 if (e.1 / 4096 = ctx || e.1 / 4096 = ctx + 64) && !e.2.recorded.isEmpty then mset m e.1 e.2.recorded else m) p.channels
               overdraw := s.arcs.foldl (fun m e =>
                 if (e.1 / 4096 = ctx || e.1 / 4096 = ctx + 64) && 0 < e.2.overdrawAt then mset m e.1 (mget 0 m e.1 + e.2.overdrawAt) else m) p.overdraw
               graphs := p.graphs.map fun r =>
                 match s.graph? ctx r.slot with
                 | some g => { r with positions := g.mems.zipIdx.map fun m => m.1.snapPos.getD (r.positions.getD m.2 0) }
                 | none => r })
    .next (s.later (.sealComplete ctx))

/-- The header of the inventory (R417). -/
def inventoryHeader (c : Nat) (p : Snap) (actoff : Nat) : Nat :=
  c % 64 + bit p.pol * 64 + bit p.dom * 128 + p.id % 65536 * 2 ^ 32 + p.prev % 65536 * 2 ^ 48 + p.seed.toNat * 2 ^ 64
    + p.pages.length * 2 ^ 128 + p.actors.length * 2 ^ 160 + actoff * 2 ^ 192
/-- An entry of the inventory. -/
def inventoryEntry (r : PageRec) : Nat := r.vpn % 2 ^ 40 + r.size % 4 * 2 ^ 46 + r.holder % 65536 * 2 ^ 48 + r.coff * 2 ^ 64

/-- Bytes of the inventory of a snapshot, and those that its actor records and channel states take (the part's own layout, log 12). -/
def inventoryBytes (p : Snap) : Nat := 64 + 16 * p.pages.length
def privateBytes (p : Snap) : Nat := (p.actors.map fun a => 64 + a.cupboard.length).sum + (p.channels.map fun e => 68 * e.2.length).sum
/-- Their sum in whole chunks of 64 KiB. -/
def sealBytes (p : Snap) : Nat := (inventoryBytes p + privateBytes p + 65535) / 65536 * 65536

/-- Entries written from an offset on. -/
def writeEntries (c : Nat) : Nat → List PageRec → State → PartEnd Unit
  | _, [], s => .ok () s
  | off, r :: l, s => (cellarBytes 0 c off (bytesLE (inventoryEntry r) 16) s).bind fun _ s => writeEntries c (off + 16) l s

/-- `n` words of the part's own layout written from an offset on: free values, of which `k` is the first (log 12). -/
def writePrivate (c k : Nat) : Nat → Nat → State → PartEnd Unit
  | _, 0, s => .ok () s
  | off, n + 1, s => (cellarBytes 0 c off (bytesLE (Config.freeWord (k + n)).toNat 8) s).bind fun _ s => writePrivate c k (off + 8) n s

/-- A cellar location is kept while a snapshot names it. -/
def freeCopies (c : Nat) (s : State) : State :=
  let x := s.ctx c
  let live := x.snaps.filter fun p => p.state != .failed
  s.setCtx c { x with cellarUsed := x.cellarUsed.filter fun u => live.any fun p => (p.state == .sealed && p.inventory = u.1) || p.pages.any fun r => r.coff = u.1 }

/-- Does a rollback read a snapshot: is it under way, or are pages of it still to be copied back? -/
def Ctx.reads (x : Ctx) (p : Snap) : Bool := x.rolling = some p.id || (x.base = p.id && !x.copyBack.isEmpty)

/-- Retention (R418): while more than KEEP snapshots are SEALED, the oldest is discarded; one that a rollback reads is discarded once that
has ended, and holds back those behind it. -/
def retain (c : Nat) : Nat → State → State
  | 0, s => s
  | n + 1, s =>
    let x := s.ctx c
    let kept := x.snaps.filter fun p => p.state == .sealed
    match kept with
    | old :: _ =>
      if kept.length ≤ x.cellar.keep || x.reads old then s
      else retain c n (freeCopies c (s.setCtx c { x with snaps := x.snaps.filter fun p => p.id != old.id }))
    | [] => s

/-- SEAL_COMPLETE (R417, R418): the inventory is written, and the snapshot is SEALED. -/
def execSealComplete (ctx : Nat) (s : State) : StepResult :=
  let x := s.ctx ctx
  match x.snaps.find? fun p => p.state == .sealing with
  | none => .next s
  | some p =>
    let n := sealBytes p
    match (cellarSlot x 65536).bind fun _ => ((List.range (x.cellar.csize / 65536)).map (· * 65536)).find? fun o =>
        o + n ≤ x.cellar.csize && x.cellarUsed.all fun u => !meets o n u.1 u.2 with
    | none => .next (failSnap ctx 1 s)
    | some off =>
      let act := off + inventoryBytes p
      let words := (privateBytes p + 7) / 8
      match (cellarBytes 0 ctx off (bytesLE (inventoryHeader ctx p act) 64) (takeCellar ctx off n s)).bind fun _ s =>
          (writeEntries ctx (off + 64) p.pages s).bind fun _ s => writePrivate ctx s.freeCount act words { s with freeCount := s.freeCount + words } with
      | .hold c va => .next ((copyFirst c va s).later (.sealComplete ctx))
      | .fault s => .next (failSnap ctx 2 s)
      | .ok _ s =>
        let s := updSnapId ctx p.id (fun p => { p with state := .sealed, inventory := off }) s
        .next (retain ctx 8 (s.setCtx ctx { s.ctx ctx with snapid := p.id }))

/-! ## Failure (R419) -/

/-- SNAPSHOT_FAIL (R419): the failed snapshot's copies are freed, and the failure sweep runs. -/
def execSnapshotFail (ctx reason : Nat) (s : State) : StepResult :=
  let x := s.ctx ctx
  match x.busySnap with
  | none => .next s
  | some p =>
    let s := updSnapId ctx p.id (fun p => { p with state := .failed, reason := reason, pending := [], deferred := [] }) s
    let s := freeCopies ctx ((s.cancel (.snapOpenPoint ctx)).setCtx ctx { s.ctx ctx with sweep := none, failSweep := true })
    .next ((clearMarks ctx 0 s).later (.failureSweepEnd ctx))

/-- FAILURE_SWEEP_END (R419): every uncaptured leaf is captured, and every leaf that the failed snapshot captured is dirty. -/
def execFailureSweepEnd (ctx : Nat) (s : State) : StepResult :=
  let x := s.ctx ctx
  let pages := (x.snaps.filter fun p => p.state == .failed).flatMap Snap.pages
  let s := (leaves s ctx).foldl (fun s l =>
    let taken := pages.any fun r => r.vpn * 65536 = l.1
    if Leaf.s l.2.2 != x.pol || taken then
      updLeaf l.2.1 (fun e => (if taken then Leaf.setBit (Leaf.setBit e 55 x.pol) 56 true else Leaf.setBit e 55 x.pol)) s
    else s) s
  .next (s.setCtx ctx { s.ctx ctx with failSweep := false, snaps := (s.ctx ctx).snaps.map fun p => if p.state == .failed then { p with pages := [] } else p })

/-! ## `snap`, `snapq`, `snapw` (R422 to R426) -/

/-- SNAP with a reason (R423). -/
def snapFault (n reason : Nat) (s : State) : StepResult := .next (ownFault n Code.snap (BitVec.ofNat 64 reason) s)

/-- Do a context's stored snapshots lie in the cellar that a descriptor names (R498)? -/
def sameCellar (old : Cellar) (w : Option Nat) : Bool :=
  w.any fun w => old.cbase = (cellarOf w).cbase && old.place = (cellarOf w).place && old.peer = (cellarOf w).peer

/-- Is an identifier that of a stored snapshot of the cellar that a descriptor names (R404)? -/
def storedHere (x : Ctx) (w : Option Nat) (id : Nat) : Bool := x.stored.any fun t => sameCellar t.1 w && t.2.2.any fun p => p.id = id

/-- The reason for which `snap` is refused, where the descriptor reads `w`; 0 for none (R423). -/
def snapRefusal (s : State) (c id scope : Nat) (w : Option Nat) : Nat :=
  let x := s.ctx c
  if id = 0 then 1
  else if x.busySnap.isSome || x.failSweep || !(x.state == .ready || x.state == .active || x.state == .saved) then 2
  else if !(w.any fun w => cellarOk s c w) then 7
  else if (x.snaps.any fun p => p.id = id && p.state != .failed) || storedHere x w id then 3
  else if scope = 4 && spansPackages s c then 6
  else 0

/-- A snapshot is accepted, with its open point `d` cycles ahead (R405, R406). -/
def requestSnap (c id : Nat) (dom : Bool) (w : Option Nat) (d : Nat) (s : State) : State :=
  let x := s.ctx c
  let p : Snap := { id := id, dom := dom }
  (s.setCtx c { x with cellar := (w.map cellarOf).getD {}, snaps := (x.snaps.filter fun p => p.state != .failed) ++ [p] }).after d (.snapOpenPoint c)

/-- `snap` (R424, R406). -/
def execSnap (ident : BitVec 16) (scope : BitVec 4) (s : State) : StepResult :=
  onSeq s fun n =>
    let c := (s.seq n).ctxid
    readDescriptor n c s fun w s =>
    match snapRefusal s c ident.toNat scope.toNat w with
    | 0 => finish ((if spansPackages s c then tellPeers c else id) (requestSnap c ident.toNat (scope.toNat = 5) w (if scope.toNat = 5 || spansPackages s c then 760 else 400) s))
    | r => snapFault n r s

/-- The number of STATE in R425. -/
def SnapState.code : SnapState → Nat
  | .requested => 1
  | .opened => 1
  | .sealing => 2
  | .sealed => 3
  | .failed => 4

/-- The agents not yet past their marker point (R425): before the open point all of them, the context's sequencers too, which pass theirs
there (R409). -/
def Snap.waiting (s : State) (c : Nat) (p : Snap) : Nat :=
  if p.state == .requested then
    let mine := s.graphs.filter fun e => e.1 / 256 = c
    (mine.map fun e => (agentsOf (e.1 % 256) e.2).length + (e.2.groups.map fun g => g.quads.length).sum).sum
  else p.pending.length

/-- The word of selector 0 (R425). -/
def snapWord (s : State) (c id : Nat) : Word :=
  let x := s.ctx c
  match x.named id with
  | none => BitVec.ofNat 64 (bit x.pol * 2 ^ 56 + id % 65536 * 2 ^ 39)
  | some p =>
    BitVec.ofNat 64 (p.state.code * 2 ^ 61 + (if p.state == .failed then p.reason % 16 else 0) * 2 ^ 57 + bit x.pol * 2 ^ 56 + bit p.dom * 2 ^ 55
      + p.id % 65536 * 2 ^ 39 + min (p.waiting s c) 32767 * 2 ^ 24 + min p.newCopies (2 ^ 24 - 1))

/-- `snapq` (R425). -/
def execSnapq (d a : BitVec 6) (s : State) : StepResult :=
  onSeq s fun n =>
    let v := (readS s a).toNat
    let x := s.ctx (s.seq n).ctxid
    if 2 ^ 17 ≤ v then snapFault n 1 s
    else if v / 65536 = 0 then finishOpen n d (snapWord s (s.seq n).ctxid (v % 65536)) s
    else finishOpen n d (match x.named (v % 65536) with
      | some p => if p.state == .sealed then BitVec.ofNat 64 p.inventory else 0
      | none => 0) s

/-- `snapw` (R426): it waits for the snapshot that its operand names when it is reached. -/
def execSnapw (a : BitVec 6) (s : State) : StepResult :=
  onSeq s fun n =>
    let v := (readS s a).toNat
    let x := s.ctx (s.seq n).ctxid
    let named := match (s.seq n).run with
      | .snapw id => x.snaps.find? fun (p : Snap) => p.id = id
      | _ => x.named v
    if 65536 ≤ v then snapFault n 1 s
    else
      match named with
      | some p => if p.state == .sealed || p.state == .failed then passOn n s else stay n (.snapw p.id) s
      | none => passOn n s

/-! ## Rollback (R427 to R429) -/

/-- The reason for which `rollb` is refused, where the descriptor reads `w`; 0 for none (R423, R429). -/
def rollbRefusal (s : State) (n c v : Nat) (w : Option Nat) : Nat :=
  let x := s.ctx c
  if 65536 ≤ v || v = 0 then 1
  else if isQuadSeq n then 4
  else if !(x.state == .ready || x.state == .active || x.state == .saved || x.state == .lost) then 2
  else if !(w.any fun w => cellarOk s c w) then 7
  else
    match x.snaps.find? fun p => p.id = v && p.state == .sealed with
    | none => 3
    | some p => if p.graphs.all fun r => (s.graph? c r.slot).any fun g => g.handle = r.handle then 0 else 5

/-- What R411 leaves of a join: its signal counts, and the releases owed to its members. -/
def joinRestore (p : Snap) (slot j n : Nat) : List Nat × List Int :=
  let sg := (List.range n).map fun m => mget 0 p.sigs (memberKey slot j m)
  let least := match sg with
    | [] => 0
    | a :: l => l.foldl min a
  (sg.map (· - least), (List.range n).map fun m => (least : Int) - (mget 0 p.rels (memberKey slot j m) : Nat))

/-- An arc as a rollback leaves it: its channel state in its window, its overdraw still to be discarded (R427, R428). -/
def rollArc (g : Graph) (p : Snap) (unstaged : Bool) (key : Nat) (a : Arc) : Arc :=
  let w := mget [] p.channels key
  { g.freshArc a.slot a with
    cap := a.cap, window := w, sent := (w.filter Token.spends).length, overdraw := mget 0 p.overdraw key
    state := if unstaged then .declared else .bound }

/-- A graph of the snapshot becomes IDLE in its recorded mode (R427, step 4). -/
def rollGraph (c : Nat) (p : Snap) (r : GraphRec) (s : State) : State :=
  match s.graph? c r.slot with
  | none => s
  | some g =>
    if g.state == .loading || g.state == .failed then s
    else
      let s := releaseGroups c r.slot s
      let mine := p.actors.filter fun a => a.slot = r.slot
      let s : State := { s with
        agenda := s.agenda.filter fun e => !eventOf c r.slot g.tags e.2
        actors := mine.foldl (fun m a => mset m (State.actorKey c r.slot a.kernel) { fires := a.fires, colour := a.colour })
          (s.actors.filter fun e => e.1 / 65536 != State.graphKey c r.slot)
        arcs := s.arcs.map fun e => (e.1, if (e.1 / 4096 = c || e.1 / 4096 = c + 64) && e.2.slot = r.slot then rollArc g p r.unstaged e.1 e.2 else e.2) }
      let bound := g.image.copies.zipIdx.map fun e => (boundKey (State.arcKey c (g.tags.getD e.1.queue 0)), e.2)
      let s := bound.foldl (fun s k => if (s.arc? k.1).isNone && (mfind p.channels k.1).isSome then
        s.setArc k.1 { rollArc g p false k.1 { slot := r.slot } with src := .copy k.2 } else s) s
      updGraph c r.slot (fun g =>
        let y := g.asLoaded
        { y with
          state := .idle, mode := r.mode, target := r.mode, seed := r.seed, everStaged := !r.unstaged, cupZero := true
          kept := (mine.map fun a => (a.kernel, a.cupboard)).foldl (fun m e => mset m e.1 e.2) []
          loops := mine.foldl (fun m a => match a.tile with
            | some l => mset m l a.loops
            | none => m) []
          ps := mine.foldl (fun m a => mput 0 m a.kernel a.ps) []
          keepSeed := r.latched
          mems := y.mems.zipIdx.map fun m => { m.1 with base := (g.mems.getD m.2 {}).base, patched := (g.mems.getD m.2 {}).patched
                                                        tokens := (g.mems.getD m.2 {}).tokens, next := r.positions.getD m.2 0 }
          copies := g.copies.map fun t => { t with
            firing := none, span := 0, unread := [], hand := [], pause := 0, marked := false, stopped := false, quiescent := false
            pagewait := false, held := false, snapDue := false }
          sqns := (p.sqns.filter fun e => e.1 / 2 ^ 26 = r.slot).map fun e => (e.1 % 2 ^ 26, e.2)
          joins := y.joins.zipIdx.map fun j => { j.1 with restore := some (joinRestore p r.slot j.2 j.1.tags.length) } }) s

/-- The pages of a snapshot that a rollback restores: those whose live leaf is RESIDENT or PARKED, with W = 1 and the same SIZE
(R428). -/
def rollPages (s : State) (c : Nat) (p : Snap) : List PageRec :=
  p.pages.filter fun r => match walk s c (r.vpn * 65536) with
    | .leaf e _ _ => Leaf.isHome e && Leaf.w e && Leaf.size e = r.size
    | _ => false

/-- Steps 3 to 6 of R427, and `SNAPID`. -/
def rollContext (c : Nat) (p : Snap) (s : State) : State :=
  let slots := (s.graphs.filter fun e => e.1 / 256 = c).map fun e => e.1 % 256
  let s := dropEngineOps c s
  let s := (slots.filter fun g => !(p.graphs.any fun r => r.slot = g)).foldl (fun s g => unload c g s) s
  let s := p.graphs.foldl (fun s r => rollGraph c p r s) s
  let pages := rollPages s c p
  let s := pages.foldl (fun s r =>
    match walk s c (r.vpn * 65536) with
    | .leaf _ place _ => updLeaf place (fun e => Leaf.setBit e 15 true) s
    | _ => s) s
  let x := s.ctx c
  let s := s.setCtx c { x with
    state := .ready, rolling := none, haltAt := none, saved := none, drainSave := false, drained := [], draws := [], returned := [], saveBad := false
    drawn := (p.colours.filter fun e => e.2 = 1).map Prod.fst
    seed := p.seed, snapid := p.id, copyBack := pages, base := p.id, epoch := x.epoch + 1 }
  if pages.isEmpty then s else s.later (.copyBackPage c)

/-- The end of a `rollb`: its sequencer goes on at RBVEC (R427, step 7). -/
def rollBack (n c : Nat) (p : Snap) (s : State) : State :=
  (rollContext c p s).updSeq n fun q => { q.jump s.pcyc (s.ctx c).rbvec with run := .run, last := q.last }

/-- A rollback is accepted (R427, steps 1 and 2): an open snapshot fails, and the context stops at the HALT point `h` where it has
groups. -/
def beginRollback (c id h : Nat) (w : Option Nat) (s : State) : State :=
  let x := s.ctx c
  let held := s.graphs.any fun e => e.1 / 256 = c && !e.2.quadList.isEmpty
  let s := if x.busySnap.isSome then s.soon (.snapshotFail c 4) else s
  let s := if held then s.after (h - s.pcyc) (.haltPoint c) else s
  s.setCtx c { x with state := .rolling, haltAt := if held then some h else none, rolling := some id, cellar := (w.map cellarOf).getD {} }

/-- The sealed snapshots that an earlier context of this number left in the cellar that the descriptor names (R498), or that another
package left in a peer's (R449). -/
def adoptStored (c : Nat) (w : Option Nat) (s : State) : State :=
  let x := s.ctx c
  match x.stored with
  | some (old, used, snaps) =>
    if sameCellar old w then
      s.setCtx c { x with stored := none, cellar := old, cellarUsed := used
                          snaps := (snaps.filter fun p => x.snaps.all fun q => q.id != p.id) ++ x.snaps }
    else s
  | none => s

/-- The records of a snapshot are read in the cellar (R427). -/
def readRecords (c : Nat) (p : Snap) (s : State) : PartEnd Unit := readCellar 0 c p.inventory s (sealBytes p / 65536)

/-- Is a write that a unit issued in a context still to be performed (R427)? A refused one waits for its `tret`. -/
def writesOut (s : State) (c : Nat) : Bool :=
  s.ops.any fun e => e.2.ctx = c && !e.2.served && !e.2.refused &&
    match e.2.kind with
    | .dramStore _ _ => true
    | .nearStore _ => true
    | .presStore _ => true
    | .atomic _ _ _ _ => true
    | _ => false

/-- The snapshot to which a context rolls back, once the context has stopped and every write issued in it is performed. -/
def rollsTo (s : State) (c : Nat) : Option Snap :=
  let x := s.ctx c
  if (x.haltAt.isSome && !haltSettled s c) || writesOut s c then none else x.rolling.bind fun id => x.snaps.find? fun p => p.id = id

/-- `rollb` (R427). It waits until the context has stopped and its state is restored; where the cellar cannot be read, the context is LOST
(R429). -/
def execRollb (a : BitVec 6) (s : State) : StepResult :=
  onSeq s fun n =>
    let v := (readS s a).toNat
    match (s.seq n).run with
    | .rollb c =>
      if (s.ctx c).state != .rolling then passIssued n s
      else
        match rollsTo s c with
        | none => stay n (.rollb c) s
        | some p =>
          match readRecords c p s with
          | .ok _ s => .next (rollBack n c p s)
          | .hold x va => stay n (.rollb c) (copyFirst x va s)
          | .fault s => passIssued n (loseCtx c s)
    | _ =>
      let c := (s.seq n).ctxid
      readDescriptor n c s fun w s =>
      match rollbRefusal (adoptStored c w s) n c v w with
      | 0 =>
        let s := adoptStored c w s
        let s := if (s.ctx c).snaps.any fun p => p.id = v && p.dom then tellPeers c s else s
        issueAndStay n (.rollb c) (beginRollback c v (s.pcyc + commonDelay s c) w s)
      | r => snapFault n r s

/-- COPY_BACK_PAGE (R428): the first page still to come is copied home; where the cellar cannot be read, the context is LOST. -/
def execCopyBackPage (ctx : Nat) (s : State) : StepResult :=
  let x := s.ctx ctx
  match x.copyBack with
  | [] => .next s
  | r :: rest =>
    let va := r.vpn * 65536
    let next := fun s : State =>
      let s := s.setCtx ctx { s.ctx ctx with copyBack := rest }
      if rest.isEmpty then retain ctx 8 s else s.later (.copyBackPage ctx)
    match walk s ctx va with
    | .leaf e place _ =>
      match fromCellar (homeDie s (Leaf.pa e)) ctx r.coff (Leaf.pa e) s (Leaf.bytes e / 65536) with
      | .hold c p => .next ((copyFirst c p s).later (.copyBackPage ctx))
      | .fault s => .next (loseCtx ctx s)
      | .ok _ s =>
        let s := tlbDrop (fun _ => true) ctx va (va + Leaf.bytes e) s
        .next (next (updLeaf place (fun e => Leaf.setBit (Leaf.setBit (Leaf.setBit e 56 false) 55 x.pol) 15 false) s))
    | _ => .next (next s)

end Sys2Proof.Machine
end

