-- ==== Sys2Proof/Machine/Platform.lean ====
section
/-! DEFINITION. The package and its host: bring-up and reset (R491, R492, R498), heat and the allowance (R486 to R488), contexts made
and destroyed (R348, R349), host registers, doorbells, event FIFOs, device memory (R451 to R456, R493 to R497, R502), and code called
on a die controller (R495). -/

namespace Sys2Proof.Machine

/-! ## Bring-up (R491, R492) -/

/-- The twelve dies changed. -/
def allDies (f : Nat → Die → Die) (s : State) : State := (List.range 12).foldl (fun s d => s.setDie d (f d (s.die d))) s

/-- The rank table of a package on its own (R491, step 6): entry 0 is live and names this package. -/
def firstRanks (pkgid : Nat) : Map Word := [(0, BitVec.ofNat 64 (2 ^ 62 + 2 ^ 61 + pkgid % 64 * 2 ^ 16))]

/-- What step `k` of R491 does; step 9 stands for the end of step 8. A unit that fails is left as R492 says. -/
def bringUpStep (k : Nat) (s : State) : State :=
  match k with
  | 1 => { s with pcyc := 0, master := s.pkgid }
  | 2 => s
  | 3 => allDies (fun d x => { x with dieOff := s.badDies.contains d, hbmOff := s.badStacks.contains d, tierOff := s.badTier }) s
  | 4 => { allDies (fun _ x => { x with log := [], lost := 0, joins := 0, attic := 1024 }) s with xlats := s.xlats.map fun e => (e.1, { e.2 with tlb := [] }) }
  | 5 => s
  | 6 => { s with ranks := firstRanks s.pkgid }
  | 7 => (List.range 16).foldl (fun s n => if s.badLinks.contains n then s else s.setLink n ((s.link n).train s.pcyc)) s
  | 8 => s
  | _ => { allDies (fun _ x => { x with ready := true }) s with up := true }

/-- POWER_GOOD (R491): bring-up takes its next step; each takes a time within its limit. A package whose die 0 fails its test, or whose
dispatcher fails, does not leave reset (R492). -/
def execPowerGood (s : State) : StepResult :=
  if s.up then .next s
  else
    let k := (s.die 0).step
    if (3 ≤ k && s.badDies.contains 0) || (5 ≤ k && s.badDispatcher) then .next s
    else
      let s := allDies (fun _ x => { x with step := min 8 (k + 1) }) (bringUpStep (if (s.die 0).step = 8 then 9 else k + 1) s)
      .next (if s.up then s else s.later .powerGood)

/-- PKGRESET (R498): the package is as at power-good; what stands in device memory, the straps, and the units that fail stay. A context
leaves its sealed snapshots in its cellar. -/
def execPkgreset (s : State) : StepResult :=
  .next { State.reset with
    pkgid := s.pkgid, badDies := s.badDies, badStacks := s.badStacks, badTier := s.badTier, badDispatcher := s.badDispatcher, badLinks := s.badLinks
    mem := s.mem, peerMem := s.peerMem, images := s.images, msix := s.msix, hostRead := s.hostRead
    inputs := s.inputs, freeCount := s.freeCount, opCount := s.opCount
    ctxs := s.ctxs.filterMap fun e =>
      let kept := e.2.snaps.filter fun p => p.state == .sealed
      if kept.isEmpty then e.2.stored.map fun x => (e.1, ({ stored := some x } : Ctx))
      else some (e.1, ({ stored := some (e.2.cellar, e.2.cellarUsed, kept) } : Ctx)) }

/-- Contexts with a group on a die. -/
def ctxsOnDie (s : State) (d : Nat) : List Nat :=
  ((s.graphs.filter fun e => e.2.groups.any fun g => g.quads.any fun q => q / 32 = d).map fun e => e.1 / 256).eraseDups

/-- A command in the window of a die, or in the package registers or context pages, that is ignored, at its BAR0 offset (R496). -/
def ignoreCommand (d addr : Nat) (s : State) : State := s.logError d 10 0 addr

/-- The BAR0 offset of a register of a die's management window (R452). -/
def windowOf (d off : Nat) : Nat := 0x100000 + 0x100000 * d + off

/-- DCRESTART (R498): a controller stopped by a double fault starts again, and every context with a group on its die is LOST. A die whose
clock has stopped stays stopped (R488). -/
def execDcrestart (die : Nat) (s : State) : StepResult :=
  let x := s.die die
  if !x.stopped || x.clockStopped then .next (ignoreCommand die (windowOf die 0x200) s)
  else
    let s := (ctxsOnDie s die).foldl (fun s c => loseCtx c s) s
    let s : State := { s with hostTraps := s.hostTraps.filter fun e => e.2.1 != 384 + die }
    let s := s.setDie die { s.die die with stopped := false, log := [], lost := 0, joins := 0, attic := 1024, busy := false, inCall := false }
    .next ((s.setSeq (384 + die) {}).setXlat die { s.xlat die with tlb := [] })

/-! ## Heat (R486 to R488) -/

/-- A die whose sensor reads 125 °C or more: its clock stops, its contexts are LOST, and the host is told (R488). -/
def thermalTrip (d : Nat) (s : State) : State :=
  let s := s.setDie d { s.die d with clockStopped := true }
  let s := (ctxsOnDie s d).foldl (fun s c => loseCtx c s) s
  let s := s.updSeq (384 + d) fun q => { q with run := .stopped }
  s.tellPackage Code.fatal 0 0 (BitVec.ofNat 64 (d + 16)) 0

/-- The highest of a die's readings, in whole degrees rounded down (R486). -/
def Die.reading (x : Die) : Nat := x.sensors.foldl max 0 / 10

/-- THERMAL_SAMPLE (R486, R488): the highest of the 17 readings of a die; the last five samples are kept. Samples are taken in the cycles that are
multiples of 8,000 (R486 gives no phase: DESIGN CHOICE, log 13); a reading that comes between waits for the next one, and one that comes
twice is one sample. -/
def execThermalSample (die degrees : Nat) (s : State) : StepResult :=
  let x := s.die die
  if s.pcyc % 8000 ≠ 0 then .next (s.after (8000 - s.pcyc % 8000) (.thermalSample die degrees))
  else
  let samples := if x.sampledAt = some s.pcyc then max degrees (x.samples.headD 0) :: x.samples.drop 1 else (degrees :: x.samples).take 5
  let s := s.setDie die { x with samples := samples, sampledAt := some s.pcyc }
  .next (if 125 ≤ degrees && !x.clockStopped then thermalTrip die s else s)

/-- The allowance of R486 for the highest of the samples. -/
def allowanceOf (acap t : Nat) : Nat := min acap (if t ≤ 85 then 300 else 300 - 10 * (t - 85))

/-- ALLOWANCE_UPDATE (R486, R487): in the cycles that are multiples of 40,000, the controller of a die writes T, A and TRIPS. The
dispatcher's answer (R268) is of the next cycle. -/
def execAllowanceUpdate (die : Nat) (s : State) : StepResult :=
  let x := s.die die
  if s.pcyc % 40000 ≠ 0 || x.stopped || x.clockStopped || x.dieOff then .next s
  else
    let t := x.samples.foldl max 0
    .next (s.setDie die { x with temp := t, allow := allowanceOf x.acap t, trips := if 85 < t then min 65535 (x.trips + 1) else x.trips })

/-! ## Contexts (R348, R349) -/

/-- Is every page of `n` bytes at `va` mapped by a table, and pinned (R397)? -/
def allPinned (s : State) (root va n : Nat) : Bool :=
  (List.range ((va % 65536 + n + 65535) / 65536)).all fun i =>
    let a := va / 65536 * 65536 + 65536 * i
    decide (a < 2 ^ 56) && match walkFrom s a root 4 with
      | .leaf e _ _ => Leaf.pinned e
      | _ => false

/-- The context that a descriptor makes. -/
def ctxOf (w : Nat) : Ctx :=
  { state := .ready, seed := BitVec.ofNat 64 (bitsOf w 448 64), msiv := bitsOf w 400 8, latok := bitOf w 384
    rbvec := BitVec.ofNat 64 (bitsOf w 320 64), tvec := BitVec.ofNat 64 (bitsOf w 256 64), saveSize := bitsOf w 192 64
    saveBase := bitsOf w 128 64, ringBase := bitsOf w 76 52 * 4096, rlog := bitsOf w 64 4, ptroot := bitsOf w 0 64 }

/-- The `CTXID` that a descriptor gets: REQID, or the lowest that is FREE (R348, R349). -/
def ctxidFor (s : State) (w : Nat) : Nat :=
  if bitOf w 415 then bitsOf w 408 6 else ((List.range 64).find? fun c => (s.ctx c).state == .free).getD 0

/-- Does REASON `r` of R453 apply to a descriptor? -/
def createRefused (s : State) (w r : Nat) : Bool :=
  let x := ctxOf w
  match r with
  | 1 => bitsOf w 416 32 ≠ 0 || bitOf w 414 || bitsOf w 385 15 ≠ 0 || bitsOf w 68 8 ≠ 0
  | 2 => x.rbvec.toNat % 8 ≠ 0 || x.tvec.toNat % 8 ≠ 0 || x.saveBase % 65536 ≠ 0 || x.ptroot % 8192 ≠ 0
  | 3 => [x.rbvec.toNat, x.tvec.toNat, x.saveBase, x.ringBase].any fun v => decide (2 ^ 56 ≤ v)
  | 4 => decide (10 < x.rlog)
  | 5 => !allPinned s x.ptroot x.saveBase x.saveSize || !allPinned s x.ptroot x.ringBase (x.ringSize * 64)
  | 6 => (List.range 64).all fun c => (s.ctx c).state != .free
  | 7 => bitOf w 415 && (s.ctx (bitsOf w 408 6)).state != .free
  | 8 => x.saveSize % 65536 ≠ 0 || decide (x.saveSize < 1048576)
  | _ => false

/-- CTXCREATE (R348, R349, R453): the descriptor at a physical address makes a context READY, or CTXRESULT holds the lowest REASON. It is
ignored until bring-up has ended (R491). -/
def execCtxcreate (va : Nat) (s : State) : StepResult :=
  if !s.up then .next s
  else
    let w := readLE s.mem va 64
    match (List.range 9).find? fun r => createRefused s w r with
    | some r => .next { s with ctxresult := BitVec.ofNat 64 (2 ^ 63 + r * 2 ^ 56) }
    | none =>
      let c := ctxidFor s w
      .next { s.setCtx c { ctxOf w with stored := (s.ctx c).stored } with ctxresult := BitVec.ofNat 64 (2 ^ 63 + c) }

/-- Steps set for a context that are void once it is gone. -/
def ofContext (c : Nat) : Instr → Bool
  | .launchRecordRead d => d = c
  | .haltPoint d => d = c
  | .saveComplete d => d = c
  | .restorePulse d => d = c
  | .drainComplete d => d = c
  | .snapOpenPoint d => d = c
  | .sweeperVisit d => d = c
  | .snapshotSealing d => d = c
  | .sealComplete d => d = c
  | .snapshotFail d _ => d = c
  | .failureSweepEnd d => d = c
  | .copyBackPage d => d = c
  | _ => false

/-- CONTEXT_DESTROY (R349): everything of the context is released, its graphs are unloaded and it is FREE; a FREE context makes the
command an ignored one (R496). Its sealed snapshots stay in their cellar. -/
def execContextDestroy (ctx : Nat) (s : State) : StepResult :=
  let x := s.ctx ctx
  if x.state == .free then .next (ignoreCommand 0 0x10 s)
  else
    let slots := (s.graphs.filter fun e => e.1 / 256 = ctx).map fun e => e.1 % 256
    let s := slots.foldl (fun s g => unload ctx g s) s
    let kept := x.snaps.filter fun p => p.state == .sealed
    let s := s.setCtx ctx { stored := if kept.isEmpty then x.stored else some (x.cellar, x.cellarUsed, kept) }
    let s : State := { s with
      ops := s.ops.filter fun e => !(e.2.ctx = ctx)
      agenda := s.agenda.filter fun e => !ofContext ctx e.2
      hostTraps := s.hostTraps.filter fun e => e.1 != ctx
      images := s.images.filter fun e => e.1 != ctx }
    .next (tlbDrop (fun _ => true) ctx 0 (2 ^ 56) s)

/-- What an access of the host does, which BAR0 and BAR2 answer once bring-up has ended (R491). -/
def answered (s : State) (r : StepResult) : StepResult := if s.up then r else .next s

/-! ## Forwarded traps and doorbells (R360, R453, R454) -/

/-- HOST_RESUME (R453, R360, R495): the oldest trap of the context in bits [5:0] that was forwarded to the host is released; with none,
the command is ignored and logged. -/
def execHostResume (value : Nat) (s : State) : StepResult :=
  let c := value % 64
  match s.hostTraps.find? fun e => e.1 = c with
  | none => .next (ignoreCommand 0 0x10 s)
  | some e =>
    let n := e.2.1
    let s := releaseTrap n e.2.2 false { s with hostTraps := s.hostTraps.erase e }
    .next (if faultOfCall s n e.2.2 then endCall n true s else s)

/-- HOST_DOORBELL (R454, R263, R364): 8 bytes push a token on the context's host arc, or replace the newest where 64 wait; `idle` ends in
the dispatcher and in die controllers that serve the context. Another size, or a FREE context, is logged. -/
def execHostDoorbell (ctx size value : Nat) (s : State) : StepResult :=
  let x := s.ctx ctx
  answered s <| if size ≠ 8 || x.state == .free then .next (ignoreCommand 0 (0x10000 + 0x1000 * ctx) s)
  else
    let arc := if 64 ≤ x.hostArc.length then x.hostArc.dropLast ++ [value] else x.hostArc ++ [value]
    let s := wakeIdle 396 (s.setCtx ctx { x with hostArc := arc })
    .next ((List.range 12).foldl (fun s d => if (s.seq (384 + d)).ctxid = ctx then wakeIdle (384 + d) s else s) s)

/-! ## Registers read by the host (R440, R452, R453, R455, R493 to R496) -/

/-- The host has read a register of 8 bytes. -/
def hostReads (v : Word) (s : State) : State := { s with hostRead := bytesLE v.toNat 8 }

/-- CAUSE_FIFO_READ (R455): word 0 of the oldest record, which is removed; 0 where there is none. -/
def execCauseFifoRead (ctx : Nat) (s : State) : StepResult :=
  let x := s.ctx ctx
  answered s <| match x.causes with
  | [] => .next (hostReads 0 s)
  | r :: rest => .next (hostReads r.w0 (s.setCtx ctx { x with causes := rest, lastCause := r }))

/-- PACKAGE_EVENT_READ (R453, R455). -/
def execPackageEventRead (s : State) : StepResult :=
  answered s <| match s.events with
  | [] => .next (hostReads 0 s)
  | r :: rest => .next (hostReads r.w0 { s with events := rest, lastEvent := r })

/-- ERROR_LOG_READ (R496): word 0 of the oldest entry, which is removed; 0 where the log is empty. -/
def execErrorLogRead (die : Nat) (s : State) : StepResult :=
  let x := s.die die
  answered s <| match x.log with
  | [] => .next (hostReads 0 s)
  | r :: rest => .next (hostReads r.w0 (s.setDie die { x with log := rest, lastLog := r.w1 }))

/-- DSTAT (R494). -/
def dstat (x : Die) : Word :=
  BitVec.ofNat 64 (x.step % 16 * 256 + bit x.ready * 128 + bit (x.stopped || x.clockStopped) * 64 + bit x.tierOff * 32 + bit x.hbmOff * 16 + bit x.dieOff * 8)

/-- THERM (R494). -/
def therm (x : Die) : Word :=
  BitVec.ofNat 64 (x.acap % 512 * 2 ^ 32 + x.allow % 512 * 2 ^ 23 + x.temp % 128 * 2 ^ 16 + x.trips % 65536)

/-- DCSTAT (R495). -/
def dcstat (x : Die) : Word := BitVec.ofNat 64 (bit x.callFault * 4 + bit x.done * 2 + bit x.busy)

/-- LSTAT (R440). -/
def lstat (x : Link) : Word :=
  BitVec.ofNat 64 (x.state.code * 2 ^ 61 + x.peer % 64 * 2 ^ 48 + x.peerLink % 16 * 2 ^ 44 + x.f % 4096 * 2 ^ 32 + x.trans % 65536 * 65536 + x.last % 65536)

/-- What stands at a BAR0 offset whose read has no side effect (R440, R452, R453, R455, R493): 0 where nothing is listed. -/
def registerValue (s : State) (addr : Nat) : Word :=
  if addr < 0x10000 then
    match addr with
    | 0x08 => s.ctxresult
    | 0x18 => BitVec.ofNat 64 (s.pkgvec % 256)
    | 0x28 => s.lastEvent.w1
    | 0x30 => s.lastEvent.w2
    | 0x38 => s.lastEvent.w3
    | _ => 0
  else if addr < 0x50000 then
    let x := s.ctx ((addr - 0x10000) / 0x1000)
    match addr % 0x1000 with
    | 0x18 => x.lastCause.w1
    | 0x20 => x.lastCause.w2
    | 0x28 => x.lastCause.w3
    | _ => 0
  else if addr < 0x51000 then (if addr % 0x100 = 0 then lstat (s.link ((addr - 0x50000) / 0x100)) else 0)
  else if 0x100000 ≤ addr && addr < 0xD00000 then
    let x := s.die ((addr - 0x100000) / 0x100000)
    match addr % 0x100000 with
    | 0x00 => dstat x
    | 0x08 => therm x
    | 0x10 => BitVec.ofNat 64 x.energy
    | 0x28 => x.lastLog
    | 0x310 => dcstat x
    | _ => 0
  else 0

/-- The host reads such an offset: BAR0 answers once bring-up has ended (R491). -/
def readRegister (addr : Nat) (s : State) : State := if s.up then hostReads (registerValue s addr) s else s

/-! ## Device memory (R451, R502) -/

/-- Is a byte of device memory behind BAR2 backed? -/
def byteBacked (s : State) (pa : Nat) : Bool := decide (pa < 2 ^ 43) && backed s pa 1

/-- BAR2_READ (R451): bytes of device memory; unbacked ones are 0xFF, and the access is logged. A bank under test holds it (R396). -/
def execBar2Read (pa len : Nat) (s : State) : StepResult :=
  let places := (List.range len).map (pa + ·)
  let got := places.map fun a => if byteBacked s a then readByte s.mem a else 0xFF
  answered s <| if let some d := places.findSome? (underTest s) then .next (holdRequest d (.event (.bar2Read pa len)) s) else (.next { if places.all (byteBacked s) then s else s.logError 0 9 0 pa with hostRead := got })

/-- BAR2_WRITE (R451, R502): bytes are written where they are backed; they take no part in capture, and set no bit of a leaf. -/
def execBar2Write (pa : Nat) (bytes : List (BitVec 8)) (s : State) : StepResult :=
  let places := (List.range bytes.length).map (pa + ·)
  answered s <| if bytes.isEmpty then .next s
  else if let some d := places.findSome? (underTest s) then .next (holdRequest d (.event (.bar2Write pa bytes)) s)
  else if places.all (byteBacked s) then .next (markDirty pa bytes.length { s with mem := writeBytes s.mem pa bytes })
  else
    let s := (places.zip bytes).foldl (fun s (e : Nat × Byte) => if byteBacked s e.1 then writePhys e.1 1 e.2.toNat s else s) s
    .next (s.logError 0 9 0 pa)

/-! ## Called code (R495) -/

/-- DCCALL (R495): the target is taken and the call waits, unless it is ignored and logged. -/
def execDccall (die value : Nat) (s : State) : StepResult :=
  let x := s.die die
  if value % 8 ≠ 0 || x.busy || (s.ctx x.callCtxIn).state == .free then .next (ignoreCommand die (windowOf die 0x300) s)
  else .next (s.setDie die { x with callVa := BitVec.ofNat 64 value, callCtx := x.callCtxIn, busy := true, done := false })

/-- May a waiting call enter: the controller is at an instruction boundary outside a handler? Its firmware stands still between the steps
that the spec gives it (log 8). -/
def callReady (s : State) (d : Nat) : Bool :=
  let x := s.die d
  x.busy && !x.inCall && !x.stopped && !x.clockStopped && !x.dieOff && ((s.seq (384 + d)).run == .off || atBoundary s (384 + d))

/-- DCCALL_ENTRY (R495): the firmware's registers are saved, every register is 0 but for `s31`, and the code begins. -/
def execDccallEntry (die : Nat) (s : State) : StepResult :=
  if !callReady s die then .next s
  else
    let x := s.die die
    let q := s.seq (384 + die)
    let s := s.setDie die { x with inCall := true, firmware := q }
    .next (s.setSeq (384 + die) { q with s := setRegOf [] 31 firmwareReturn, pc := x.callVa, ctxid := x.callCtx, run := .run
                                         loops := leaveLoops q.loops x.callVa, waits := [], busy := [], last := s.pcyc, ready := s.pcyc + 3 })

/-! ## Register writes (R440, R452 to R454, R493 to R498) -/

/-- A write in the management window of a die. -/
def windowWrite (d off value : Nat) (s : State) : State :=
  let x := s.die d
  match off with
  | 0x08 => s.setDie d { x with acap := min 300 (bitsOf value 32 9) }
  | 0x100 => s.setDie d { x with mreq := x.mreq.set 0 (BitVec.ofNat 64 value) }
  | 0x108 => s.setDie d { x with mreq := x.mreq.set 1 (BitVec.ofNat 64 value) }
  | 0x110 => s.setDie d { x with mreq := x.mreq.set 2 (BitVec.ofNat 64 value) }
  | 0x118 =>
    let m := x.mreq.set 3 (BitVec.ofNat 64 value)
    let w := fun i => (m.getD i 0).toNat
    (s.setDie d { x with mreq := m }).soon (.migrationRequest d (w 0) (w 1) (w 2) (w 3))
  | 0x200 =>
    if bitOf value 1 then (if d = 0 then s.soon .pkgreset else ignoreCommand d (windowOf d off) s)
    else if bitOf value 0 then s.soon (.dcrestart d)
    else s
  | 0x300 => s.soon (.dccall d value)
  | 0x308 => s.setDie d { x with callCtxIn := value % 64 }
  | _ => s

/-- A command of CMD (R453). -/
def command (value : Nat) (s : State) : State :=
  match bitsOf value 6 2 with
  | 1 => s.soon (.contextDestroy (value % 64))
  | 2 => s.soon (.hostResume (value % 64))
  | _ => ignoreCommand 0 0x10 s

/-- A command of LCMD (R440). -/
def linkCommand (n value : Nat) (s : State) : State :=
  match value % 4 with
  | 1 => s.soon (.linkRetrain n)
  | 2 => s.soon (.linkReset n)
  | _ => ignoreLcmd n s

/-- REGISTER_WRITE (R452): an 8-byte write at a BAR0 offset; one to an unlisted offset is discarded. BAR0 answers once bring-up has
ended (R491). -/
def execRegisterWrite (addr value : Nat) (s : State) : StepResult :=
  let value := value % 2 ^ 64
  if !s.up then .next s
  else if addr < 0x10000 then
    match addr with
    | 0x00 => .next ({ s with ctxresult := BitVec.ofNat 64 (s.ctxresult.toNat % 2 ^ 63) }.later (.ctxcreate value))
    | 0x10 => .next (command value s)
    | 0x18 => .next { s with pkgvec := value % 256 }
    | _ => .next s
  else if addr < 0x50000 then
    .next (if addr % 0x1000 = 0 then s.soon (.hostDoorbell ((addr - 0x10000) / 0x1000) 8 value) else s)
  else if addr < 0x51000 then
    .next (if addr % 0x100 = 8 then linkCommand ((addr - 0x50000) / 0x100) value s else s)
  else if 0x100000 ≤ addr && addr < 0xD00000 then .next (windowWrite ((addr - 0x100000) / 0x100000) (addr % 0x100000) value s)
  else .next s

/-- PCIE_ERROR (R496): an error of the port, logged by die 0 with KIND in bits [1:0] and WHERE above. -/
def execPcieError (value : Nat) (s : State) : StepResult := .next (s.logError 0 8 (min 2 (value % 4)) (value / 4))

end Sys2Proof.Machine
end

