-- ==== Sys2Proof/Machine/Regions.lean ====
section
/-! DEFINITION. Regions in time: register results that become due (R98 to R100, R175), holds and phase starts (R28, R161, R162,
R217), phase and period ends (R139, R165, R203, R251, R408), freezes and the watchdog (R29, R30, R207, R208). -/

namespace Sys2Proof.Machine

/-! ## Results that are due (R98 to R100, R175, R276) -/

/-- A result with the value that its access has brought. -/
def Result.filled (r : Result) (v : Vec) : Result :=
  match r with
  | .scalar d _ => .scalar d (v.setWidth 64)
  | .vector d m _ => .vector d m v
  | .pattern mt g _ => .pattern mt g (v.setWidth 256)
  | .pred d m x => .pred d m x
  | .modset n x => .modset n x
  | .moderr => .moderr
  | .colour a c => .colour a c

/-- Is the value of a result there: no access has to bring it, or it is usable, or it has been dropped? -/
def Pending.here (s : State) (p : Pending) : Bool :=
  match p.op with
  | none => p.ready ≤ s.pcyc
  | some id => (opAt s id).all fun o => o.served && o.usable ≤ s.pcyc

/-- The results of a tile that are due in this cycle, in issue order, and there. -/
def dueResults (s : State) (t : Nat) : List Pending := (s.tile t).pend.filter fun p => p.left = 0 && p.here s

/-- What a due result writes: a register of its tile, its actor's colour, or the next pattern of a generator. A dropped access
writes nothing. -/
def putDue (t : Nat) (s : State) (p : Pending) : State :=
  let put := fun (r : Result) (s : State) =>
    match r with
    | .colour a v => s.setActor a { s.actor a with colour := v }
    | .pattern mt g d => setGen mt g { genAt s mt g with next := (genAt s mt g).next ++ [d] } s
    | r => s.setTile t (applyResult (s.tile t) r)
  match p.op with
  | none => put p.res s
  | some id =>
    match opAt s id with
    | some o => put (p.res.filled o.got) (s.dropOp id)
    | none => s

/-- The generators whose pattern is among the due results. -/
def duePatterns (ps : List Pending) : List (Nat × Nat) :=
  ps.filterMap fun p => match p.res with
    | .pattern mt g _ => some (mt, g)
    | _ => none

/-- The due results of a tile are written. -/
def writeDue (t : Nat) (s : State) : State :=
  let due := dueResults s t
  let s := s.setTile t { s.tile t with pend := (s.tile t).pend.filter fun p => !(p.left = 0 && p.here s) }
  due.foldl (putDue t) s

/-- RESULT_WRITEBACK (R98, R99): a generator whose pattern is due takes it before the entries of this cycle issue (R182). -/
def execResultWriteback (tile : Nat) (s : State) : StepResult :=
  let takes := (duePatterns (dueResults s tile)).map fun p => Task.event (.generatorTakePattern p.1 p.2)
  let s := writeDue tile s
  .next { s with todo := takes ++ s.todo }

/-- A result that is due and not there freezes its region (R175, R178): what the region waits for. -/
def lateAt (s : State) (t : Nat) : Option Waiting :=
  ((s.tile t).pend.find? fun p => p.left = 0 && !p.here s).map fun p =>
    match p.op.bind (opAt s) with
    | none => { why := .nearLate, tile := t }
    | some o =>
      { why := match o.kind with
          | .presLoad => .presenceWait
          | _ => .nearLate
        tile := t, seg := o.cur.seg, entry := o.cur.entry, stamp := o.cur.stamp }

/-- The first of two things that a region may wait for (R208). -/
def firstWaiting (a b : Option Waiting) : Option Waiting :=
  match a, b with
  | some v, some w => if v.before w then some v else some w
  | some v, none => some v
  | none, w => w

/-- What a region waits for among the results that are due. -/
def lateIn (s : State) (r : Region) : Option Waiting := r.tiles.foldl (fun w t => firstWaiting w (lateAt s t)) none

/-- NEAR_RESULT_LATE (R175): the region freezes on a result that is due and not usable. -/
def execNearResultLate (ctx slot reg : Nat) (s : State) : StepResult :=
  let k := State.regionKey ctx slot reg
  let r := s.regionAt k
  match lateIn s r with
  | none => .next s
  | some w => .next (s.setRegion k { r with rstate := 2, waiting := firstWaiting r.waiting (some w) })

/-- REGION_RESUME (R30): the examination of this cycle has found nothing that the region waits for. -/
def execRegionResume (ctx slot reg : Nat) (s : State) : StepResult :=
  let k := State.regionKey ctx slot reg
  let r := s.regionAt k
  if r.rstate = 2 && r.waiting.isNone then .next (s.setRegion k { r with rstate := 0, wcnt := 0 }) else .next s

/-! ## Phase starts (R28, R161, R162, R217) -/

/-- The list of a tile, where its actors still have periods to run. -/
def runningList (s : State) (t : Nat) : Option ListStore :=
  (s.tile t).active.filter fun l => !((s.graph? l.ctx l.slot).any fun g => g.closing.contains l.list || listState g l.mode l.list != .active)

/-- Has an actor of a list completed its last period (R251)? -/
def actorDone (s : State) (l : ListStore) (k : Nat) : Bool := (s.graph? l.ctx l.slot).any fun g => g.finished.contains k

/-- Does the window of an arc take part in the conditions of R28 (R161)? -/
def Arc.holds (a : Arc) : Bool :=
  a.kind == .ring && match a.src with
    | .mem _ _ => false
    | .copy _ => false
    | _ => true

/-- The ports of a list that move tokens in a phase, with their arcs that take part in R28. -/
def holdPorts (s : State) (l : ListStore) (ph : Nat) (m : Map Port) : List (Nat × Nat × Nat × Arc) :=
  m.filterMap fun e =>
    if actorDone s l e.2.owner then none
    else e.2.arc.bind fun tag => (s.arc? (State.arcKey l.ctx tag)).bind fun a =>
      if a.holds && tag < 4096 then some (e.1, tag, e.2.rate.getD ph 0, a) else none

/-- Is the arc of a tag declared elastic? -/
def isElastic (s : State) (c : Nat) (a : Arc) : Bool :=
  (a.decl.bind fun i => (s.graph? c a.slot).bind fun g => g.image.arcs[i]?).any ArcDecl.elastic

/-- The first input window of a list that is short of its declared tokens. -/
def shortInput (s : State) (t : Nat) (l : ListStore) (ph : Nat) : Option Waiting :=
  ((holdPorts s l ph (s.tile t).inPorts).find? fun e => (e.2.2.2.window.filter Token.isItem).length < e.2.2.1).map fun e =>
    { why := .inputShort, port := e.1, tag := e.2.1, tile := t }

/-- The output windows of a list that are short of credits: port, tag, and the chunks that an elastic one asks for (R162). -/
def shortOutputs (s : State) (t : Nat) (l : ListStore) (ph : Nat) : List (Nat × Nat × Option Nat) :=
  (holdPorts s l ph (s.tile t).outPorts).filterMap fun e =>
    if e.2.2.2.credits < e.2.2.1 then
      some (e.1, e.2.1, if isElastic s l.ctx e.2.2.2 then some ((e.2.2.1 - e.2.2.2.credits + 63) / 64) else none)
    else none

/-- Does a word signal on control port `p`: `csig` or `ordj`? -/
def signalsOn (p : Nat) (w : Word) : Bool :=
  ((opOf w).toNat == 0xC2 || (opOf w).toNat == 0xC4) && (subOf w).toNat == 0 && (dOf w).toNat == p

/-- The releases that control port `p` declares for the phase to start: none for the first phase after a start pulse (R217). -/
def declaredReleases (l : ListStore) (r : Region) (p : Nat) : Nat :=
  if r.ended = 0 then 0
  else
    let ws := l.segment ((r.phase + r.phases.length - 1) % r.phases.length)
    ((placements ws).filter fun x => signalsOn p (ws.getD x.entry 0)).length

/-- The control ports of a tile that are members of joins, with what they declare: port, join, member, releases. -/
def memberPorts (s : State) (t : Nat) (l : ListStore) (r : Region) : List (Nat × Nat × Nat × Nat) :=
  (s.tile t).cx.filterMap fun e => match e.2.link with
    | .join _ j m => some (e.1, j, m, declaredReleases l r e.1)
    | _ => none

/-- The first control port of a list that is short of releases. -/
def shortReleases (s : State) (t : Nat) (l : ListStore) (r : Region) : Option Waiting :=
  ((memberPorts s t l r).find? fun e => (mget {} (s.tile t).cx e.1).held < e.2.2.2).map fun e =>
    { why := .inputShort, port := e.1, tag := nth (joinAt s l.ctx l.slot e.2.1).tags e.2.2.1, tile := t }

/-- What a list lacks to start a phase. -/
def shortList (s : State) (r : Region) (t : Nat) : Option Waiting :=
  match runningList s t with
  | none => none
  | some l =>
    let outs := (shortOutputs s t l r.phase).map fun e =>
      ({ why := if e.2.2.isSome then .chunkRefused else .outputShort, port := if e.2.2.isSome then 0 else e.1, tag := e.2.1, tile := t } : Waiting)
    outs.foldl (fun w v => firstWaiting w (some v)) (firstWaiting (shortInput s t l r.phase) (shortReleases s t l r))

/-- What a held region waits for; none where the conditions of R28 hold. -/
def phaseShort (s : State) (r : Region) : Option Waiting :=
  let low := r.tiles.foldl min 4095
  (r.tiles.foldl (fun w t => firstWaiting w (shortList s r t)) none).map fun w => { w with tile := low, seg := r.phase }

/-- The elastic outputs of a region that has not started its phase ask for the chunks that make up their shortfall, and for none where
they have the credits (R162). -/
def askChunks (r : Region) (s : State) : State :=
  r.tiles.foldl (fun s t =>
    match runningList s t with
    | none => s
    | some l => (holdPorts s l r.phase (s.tile t).outPorts).foldl (fun s e =>
        let key := State.arcKey l.ctx e.2.1
        match s.arc? key with
        | some a => if isElastic s l.ctx a then s.setArc key { a with asked := (e.2.2.1 - a.credits + 63) / 64 } else s
        | none => s) s) s

/-- The releases that a phase start removes (R217). -/
def takeReleases (r : Region) (s : State) : State :=
  r.tiles.foldl (fun s t =>
    match runningList s t with
    | none => s
    | some l => (memberPorts s t l r).foldl (fun s e =>
        let j := joinAt s l.ctx l.slot e.2.1
        let s := setCx (.tile t) e.1 ((List.range e.2.2.2).foldl (fun x _ => x.take) (mget {} (s.tile t).cx e.1)) s
        setJoin l.ctx l.slot e.2.1 { j with removed := bump j.removed e.2.2.1 (· + e.2.2.2) } s) s) s

/-- PHASE_START (R28, R203): the stretch is spent and both conditions hold. The watchdog count of the held cycles stays until the region
advances (R32). -/
def execPhaseStart (ctx slot reg : Nat) (s : State) : StepResult :=
  let k := State.regionKey ctx slot reg
  let r := s.regionAt k
  if r.inPhase || r.stretchLeft ≠ 0 || !(r.rstate = 1 || r.rstate = 5) || !r.checked || (phaseShort s r).isSome then .next s
  else .next ((takeReleases r (askChunks r s)).setRegion k { r with rstate := 0, inPhase := true, waiting := none })

/-! ## SNAP markers of actors past their marker points (R408) -/

/-- The data outputs of an actor, or of every actor of a tile: the tags of their arcs. -/
def outputTags (s : State) (t : Nat) (k : Option Nat) : List Nat :=
  (s.tile t).outPorts.filterMap fun e => if k.all (· = e.2.owner) then e.2.arc else none

/-- A marker departs on every one of some arcs. -/
def sendMarkers (c : Nat) (tok : Token) (tags : List Nat) (s : State) : State :=
  tags.foldl (fun s tag => sendToken (State.arcKey c tag) { tok with tag := tag } s) s

/-- Actors past their marker points forward their SNAP markers, before an entry of the cycle issues (R408). -/
def forwardSnaps (c slot : Nat) (s : State) : State :=
  let g := graphAt s c slot
  let due := g.snapForward.filter fun f => f.2 < s.pcyc
  if due.isEmpty then s else
  let s := due.foldl (fun s f => match g.modeNow.listOf f.1 with
    | some l => sendMarkers c (snapToken s c) (outputTags s (g.placed.getD l.tile 0) (some f.1)) s
    | none => s) s
  updGraph c slot (fun g => { g with snapForward := g.snapForward.filter fun f => !due.contains f }) s

/-! ## Phase ends (R139, R160, R165, R203) -/

/-- The RATE reports of a tile at a phase end (R165, R167): input ports before output ports, in increasing number. -/
def rateReports (s : State) (t : Nat) (r : Region) : List Report :=
  match runningList s t with
  | none => []
  | some l =>
    let loc := s.tileLoc t r.phase (s.tile t).pos (r.cyc - 1)
    let wrong := fun (out : Bool) (m : Map Port) => m.filterMap fun e =>
      if !actorDone s l e.2.owner && (e.2.count != e.2.rate.getD r.phase 0 || e.2.mix) then
        some ({ code := Code.rate, info := rateInfo out e.1 e.2 r.phase, loc := loc, since := s.pcyc + 1 } : Report)
      else none
    wrong false (s.tile t).inPorts ++ wrong true (s.tile t).outPorts

/-- The read pointer of an arc is published in the next cycle (R160). -/
def publishNext (key : Nat) (s : State) : State :=
  match s.arc? key with
  | none => s
  | some a =>
    if a.kind == .slot then s
    else
      match a.src with
      | .remote _ =>
        match linkOfArc s key with
        | some n => s.setLink n { s.link n with pubsOut := (s.link n).pubsOut ++
            [(key, s.pcyc + 1 + portTime (a.dst.pos.getD (linkPort n)) n, a.read)] }
        | none => s
      | _ => (s.setArc key { a with pubs := a.pubs ++ [a.read] }).after (a.route + 2) (.creditArrival (key / 4096) (key % 4096))

/-- Every ring window that the tiles of a region read publishes its read pointer. -/
def publishAll (r : Region) (s : State) : State :=
  r.tiles.foldl (fun s t =>
    match (s.tile t).active with
    | none => s
    | some l => (s.tile t).inPorts.foldl (fun s e =>
        match e.2.arc with
        | some tag => if tag < 4096 then publishNext (State.arcKey l.ctx tag) s else s
        | none => s) s) s

/-- The monitors of a tile restart, and the issue counts (R63, R165). -/
def restartTile (t : Nat) (s : State) : State :=
  let x := s.tile t
  let fresh := fun m : Map Port => m.map fun e => (e.1, { e.2 with count := 0, first := none, mix := false, same := 0 })
  s.setTile t { x with inPorts := fresh x.inPorts, outPorts := fresh x.outPorts, counts := [], pos := 0 }

/-- `FIRES` of the actors of the active lists of a region (R139). -/
def countFires (r : Region) (s : State) : State :=
  r.tiles.foldl (fun s t =>
    match runningList s t with
    | none => s
    | some l =>
      let ks := (((graphAt s l.ctx l.slot).image.mode? l.mode).bind fun m => (m.lists.find? fun d => d.tile = l.list).map ListDecl.actors).getD []
      ks.foldl (fun s k =>
        let key := State.actorKey l.ctx l.slot k
        s.setActor key { s.actor key with fires := ((s.actor key).fires + 1) % 2 ^ 64 }) s) s

/-! ## Period ends (R251, R264, R408) -/

/-- Input ports of a tile, with their arcs. -/
def inputArcs (s : State) (t : Nat) : List (Nat × Port × Nat) :=
  match (s.tile t).active with
  | none => []
  | some l => (s.tile t).inPorts.filterMap fun e => e.2.arc.map fun tag => (e.1, e.2, State.arcKey l.ctx tag)

/-- The PUNCT and SNAP markers at the heads of a tile's inputs are removed (R152). -/
def examineHeads (t : Nat) (s : State) : State :=
  (inputArcs s t).foldl (fun s e =>
    let w := headOf s e.2.2
    if w.1.isEmpty then s
    else
      let r := removeMarkers t e.1 e.2.2 w.1 w.2 s
      if r.2 then reportAt t Code.punct (punctInfo 1 (2 ^ e.1)) r.1 else r.1) s

/-- The kernels of the list of a tile. -/
def kernelsOf (s : State) (l : ListStore) : List Nat :=
  (((graphAt s l.ctx l.slot).image.mode? l.mode).bind fun m => (m.lists.find? fun d => d.tile = l.list).map ListDecl.actors).getD []

/-- The actors of a tile that pass their marker point at this period end (R408). -/
def markerActors (s : State) (t : Nat) : List Nat :=
  match (s.tile t).active with
  | none => []
  | some l => (kernelsOf s l).filter fun k =>
      agentPending s l.ctx (agentActor l.slot k) &&
        let mine := (inputArcs s t).filter fun e => e.2.1.owner = k
        mine.isEmpty || mine.any fun e => ((s.arc? e.2.2).map Arc.snapped).getD false

/-- The marker points of a tile (R408): the records, the SNAP markers that the next cycle forwards, and the held cycles. -/
def passMarkerPoints (t k : Nat) (s : State) : State :=
  match (s.tile t).active with
  | none => s
  | some l =>
    let as_ := markerActors s t
    if as_.isEmpty then s
    else
      let s := as_.foldl (fun s a => updGraph l.ctx l.slot (fun g => { g with snapForward := g.snapForward ++ [(a, s.pcyc)] })
        (recordActor l.ctx l.slot a false s)) s
      let c := (as_.map fun a => ((graphAt s l.ctx l.slot).image.kernel a).cupboard).foldl max 0
      let r := s.regionAt k
      { s.setRegion k { r with stretchLeft := max r.stretchLeft (r.stretch + (c + 255) / 256 + Config.freeDelay s.freeCount) } with
        freeCount := s.freeCount + 1 }

/-- Actors of a list with a MODE or DRAIN marker at the head of every data input (R251). -/
def doneActors (s : State) (t : Nat) (ks : List Nat) : List Nat :=
  ks.filter fun k =>
    let mine := (inputArcs s t).filter fun e => e.2.1.owner = k
    !mine.isEmpty && mine.all fun e => stopAtHead s e.2.2

/-- The actors and the list of a tile that complete their last period here (R250, R251): an actor without data inputs with the
others of its list, a list without any by its own request. -/
def closeLists (t : Nat) (s : State) : State :=
  match runningList s t with
  | none => s
  | some l =>
    let ks := kernelsOf s l
    let g := graphAt s l.ctx l.slot
    let done := doneActors s t ks
    let withInputs := ks.filter fun k => (inputArcs s t).any fun e => e.2.1.owner = k
    let all := if withInputs.isEmpty then g.points.contains (pointOf 3 l.list) else withInputs.all fun k => done.contains k || g.finished.contains k
    let s := if all && withInputs.isEmpty then markInjected l.ctx l.slot s else s
    updGraph l.ctx l.slot (fun g =>
      { g with finished := g.finished ++ done.filter fun k => !g.finished.contains k
               closing := if all then g.closing ++ [l.list] else g.closing
               forwarding := if all then g.forwarding ++ [(l.list, s.pcyc)] else g.forwarding }) s

/-- A region without a list that runs is quiescent (R207), unless a fault holds it. -/
def restRegion (k : Nat) (s : State) : State :=
  let r := s.regionAt k
  if !(r.rstate = 3 || r.rstate = 4) && r.tiles.all fun t => (runningList s t).isNone then s.setRegion k { r with rstate := 6, wcnt := 0 } else s

/-- The end of a period: measured energy, the periods of region 0 and a RUN record's count, markers and lists that close. -/
def endPeriod (c slot k : Nat) (s : State) : State :=
  let r := s.regionAt k
  let measured := (r.measured ++ [Config.freeMeasure s.freeCount]).drop (r.measured.length - 63)
  let s := { s.setRegion k { r with measured := measured } with freeCount := s.freeCount + 1 }
  let s := updGraph c slot (fun g => { g with measured := mset g.measured (energyKey r.mode (k % 2048)) measured }) s
  let s :=
    if k % 2048 = 0 then
      let s := updGraph c slot (fun g => { g with periods := g.periods + 1, ran := g.ran + 1 }) s
      let g := graphAt s c slot
      if g.count ≠ 0 && g.ran = g.count && (g.state == .running || g.state == .changing) then startDrain c slot s else s
    else s
  let s := r.tiles.foldl (fun s t => closeLists t (passMarkerPoints t k (examineHeads t s))) s
  restRegion k s

/-- The phase ends (R23, R139, R203): `FIRES`, the monitors, the next phase and its stretch, and the end of the period where it is the last. -/
def nextPhase (c slot k : Nat) (r : Region) (s : State) : State :=
  let s := countFires r s
  let s := r.tiles.foldl (fun s t => restartTile t s) s
  let last := r.phase + 1 = r.phases.length
  let s := s.setRegion k { r with cyc := 0, phase := if last then 0 else r.phase + 1, inPhase := false, rateDone := false, ended := r.ended + 1
                                  stretchLeft := r.stretch, wcnt := 0, waiting := none
                                  rstate := if r.rstate = 3 || r.rstate = 4 then r.rstate else 1 }
  let s := if last then endPeriod c slot k s else s
  let y := s.regionAt k
  if y.rstate = 1 && y.stretchLeft ≠ 0 then s.setRegion k { y with rstate := 5 } else s

/-- PHASE_END (R23, R139, R160, R165, R203): the rate check, unless `tret` has released it; then the end of the phase. The read pointers
are published whatever the check finds, with the markers that the end of a period removes. -/
def execPhaseEnd (ctx slot reg : Nat) (s : State) : StepResult :=
  let k := State.regionKey ctx slot reg
  let r := s.regionAt k
  if !(r.inPhase && r.phases.getD r.phase 0 ≤ r.cyc) then .next s
  else
    let bad := if r.rateDone then [] else r.tiles.flatMap fun t => (rateReports s t r).map fun x => (t, x)
    let s := if bad.isEmpty then nextPhase ctx slot k r s else bad.foldl (fun s b => tileReport b.1 b.2 s) s
    .next (if r.rateDone then s else publishAll r s)

/-! ## The watchdog (R32, R207, R208) -/

/-- `TINFO` of STALL. -/
def stallInfo (w : Waiting) : Word :=
  let ported := w.why.code ≤ 3
  BitVec.ofNat 64 (w.why.code * 2 ^ 36 + (if ported then w.port % 16 * 2 ^ 32 else 0) + if ported || w.why.code = 6 then w.tag % 4096 else 0)

/-- STALL (R208): the count of held and frozen cycles has passed its limit, and stands in the status word for this cycle. -/
def execStall (ctx slot reg : Nat) (s : State) : StepResult :=
  let k := State.regionKey ctx slot reg
  let r := s.regionAt k
  match r.waiting with
  | some w =>
    if (r.rstate = 1 || r.rstate = 2) && 256 * r.wdog + 1 ≤ r.wcnt then
      let s := tileReport w.tile { code := Code.stall, info := stallInfo w, loc := s.tileLoc w.tile w.seg w.entry w.stamp } s
      .next (s.setRegion k { s.regionAt k with wcnt := r.wcnt })
    else .next s
  | none => .next s

/-! ## The end of an advancing cycle -/

/-- The passes of the systolic group of a region in an advancing cycle (R345); those that complete do so in it. -/
def advancePasses (k : Nat) (s : State) : State :=
  let c := k / 2048 / 256
  let slot := k / 2048 % 256
  match ((s.regionAt k).tiles.head?).bind (groupOfTile s) with
  | some (_, _, i) =>
    if (groupAt s c slot i).systolic then
      let r := stepPasses c slot i s
      (List.range r.2).foldl (fun s _ => s.soon (.systolicPassComplete c slot i)) r.1
    else s
  | none => s

/-- An advancing cycle of a region has ended: `CYC` and the counts of R99; at the phase length the phase ends. -/
def endCycle (k : Nat) (s : State) : State :=
  let r := s.regionAt k
  let s := r.tiles.foldl (fun s t => s.setTile t { s.tile t with pend := (s.tile t).pend.map fun p => { p with left := p.left - 1 } }) s
  let s := advancePasses k (s.setRegion k { r with cyc := r.cyc + 1, dropped := [] })
  if r.phases.getD r.phase 0 ≤ r.cyc + 1 then
    { s with todo := .event (.phaseEnd (k / 2048 / 256) (k / 2048 % 256) (k % 2048)) :: s.todo }
  else s

end Sys2Proof.Machine
end

