-- ==== Sys2Proof/Machine/VectorInt.lean ====
section
/-! DEFINITION. Integer, logic, shift, compare, selection and movement instructions of the vector unit (R280 to R285). -/

namespace Sys2Proof.Machine

/-! ## Functions of two and three integers, on patterns of width w -/

/-- Element `k` of `v` as the value of its type. -/
def intOf (w : Nat) (sg : Bool) (x : Nat) : Int := if sg then signedOf w x else (x % 2 ^ w : Nat)

/-- Functions of R280 on the values of the type; each result is written at width w. -/
def iAdd (w : Nat) (_ : Bool) (a b _c : Int) : Nat := patternOf w (a + b)
/-- `vsub`. -/
def iSub (w : Nat) (_ : Bool) (a b _c : Int) : Nat := patternOf w (a - b)
/-- `vmul`. -/
def iMul (w : Nat) (_ : Bool) (a b _c : Int) : Nat := patternOf w (a * b)
/-- `vmulh`. -/
def iMulh (w : Nat) (_ : Bool) (a b _c : Int) : Nat := patternOf w (a * b / (2 ^ w : Nat))
/-- `vmin`. -/
def iMin (w : Nat) (_ : Bool) (a b _c : Int) : Nat := patternOf w (min a b)
/-- `vmax`. -/
def iMax (w : Nat) (_ : Bool) (a b _c : Int) : Nat := patternOf w (max a b)
/-- `vabs`. -/
def iAbs (w : Nat) (_ : Bool) (a _b _c : Int) : Nat := patternOf w a.natAbs
/-- `vneg`. -/
def iNeg (w : Nat) (_ : Bool) (a _b _c : Int) : Nat := patternOf w (-a)
/-- `vadds`. -/
def iAdds (w : Nat) (sg : Bool) (a b _c : Int) : Nat := patternOf w (if sg then satSigned w (a + b) else satUnsigned w (a + b))
/-- `vsubs`. -/
def iSubs (w : Nat) (sg : Bool) (a b _c : Int) : Nat := patternOf w (if sg then satSigned w (a - b) else satUnsigned w (a - b))
/-- `vavg`. -/
def iAvg (w : Nat) (_ : Bool) (a b _c : Int) : Nat := patternOf w ((a + b + 1) / 2)
/-- `vmad`. -/
def iMad (w : Nat) (_ : Bool) (a b c : Int) : Nat := patternOf w (a * b + c)

/-- An integer row of OP 0x40 (R280). -/
def intRow (f : Nat → Bool → Int → Int → Int → Nat) (lat : Nat) (fold : BitVec 2) (d a b c : BitVec 6) (p ft : BitVec 3)
    (s : State) : StepResult :=
  let w := widthOfCode ft
  let sg := signedCode ft
  let cap := grab s a b c p.toNat
  let x := (readV s a).toNat
  let y := (readV s b).toNat
  let z := (readV s c).toNat
  finishElems lat w fold d (fun k => cap.pred.getLsbD k)
    (fun k => f w sg (intOf w sg (elem w x k)) (intOf w sg (elem w y k)) (intOf w sg (elem w z k))) s

/-- `vadd` of integers (R280). -/
def execVaddInt (fold : BitVec 2) (d a b : BitVec 6) (p ft : BitVec 3) (s : State) : StepResult :=
  intRow iAdd 2 fold d a b 0 p ft s
/-- `vsub` of integers (R280). -/
def execVsubInt (fold : BitVec 2) (d a b : BitVec 6) (p ft : BitVec 3) (s : State) : StepResult :=
  intRow iSub 2 fold d a b 0 p ft s
/-- `vmul` of integers (R280). -/
def execVmulInt (fold : BitVec 2) (d a b : BitVec 6) (p ft : BitVec 3) (s : State) : StepResult :=
  intRow iMul 4 fold d a b 0 p ft s
/-- `vmulh` of integers (R280). -/
def execVmulh (fold : BitVec 2) (d a b : BitVec 6) (p ft : BitVec 3) (s : State) : StepResult :=
  intRow iMulh 4 fold d a b 0 p ft s
/-- `vmin` of integers (R280). -/
def execVminInt (fold : BitVec 2) (d a b : BitVec 6) (p ft : BitVec 3) (s : State) : StepResult :=
  intRow iMin 2 fold d a b 0 p ft s
/-- `vmax` of integers (R280). -/
def execVmaxInt (fold : BitVec 2) (d a b : BitVec 6) (p ft : BitVec 3) (s : State) : StepResult :=
  intRow iMax 2 fold d a b 0 p ft s
/-- `vabs` of integers (R280). -/
def execVabsInt (fold : BitVec 2) (d a : BitVec 6) (p ft : BitVec 3) (s : State) : StepResult :=
  intRow iAbs 2 fold d a 0 0 p ft s
/-- `vneg` of integers (R280). -/
def execVnegInt (fold : BitVec 2) (d a : BitVec 6) (p ft : BitVec 3) (s : State) : StepResult :=
  intRow iNeg 2 fold d a 0 0 p ft s
/-- `vadds` of integers (R280). -/
def execVadds (fold : BitVec 2) (d a b : BitVec 6) (p ft : BitVec 3) (s : State) : StepResult :=
  intRow iAdds 2 fold d a b 0 p ft s
/-- `vsubs` of integers (R280). -/
def execVsubs (fold : BitVec 2) (d a b : BitVec 6) (p ft : BitVec 3) (s : State) : StepResult :=
  intRow iSubs 2 fold d a b 0 p ft s
/-- `vavg` of integers (R280). -/
def execVavg (fold : BitVec 2) (d a b : BitVec 6) (p ft : BitVec 3) (s : State) : StepResult :=
  intRow iAvg 2 fold d a b 0 p ft s
/-- `vmad` of integers (R280). -/
def execVmad (fold : BitVec 2) (d a b c : BitVec 6) (p ft : BitVec 3) (s : State) : StepResult :=
  intRow iMad 4 fold d a b c p ft s

/-! ## Logic (R281): 32-bit elements -/

/-- A logic row of OP 0x42. -/
def logicRow (f : Nat → Nat → Nat) (fold : BitVec 2) (d a b : BitVec 6) (p : BitVec 3) (s : State) : StepResult :=
  let cap := grab s a b 0 p.toNat
  let x := (readV s a).toNat
  let y := (readV s b).toNat
  finishElems 2 32 fold d (fun k => cap.pred.getLsbD k) (fun k => f (elem 32 x k) (elem 32 y k)) s

/-- The complement of a slot. -/
def notSlot (x : Nat) : Nat := 2 ^ 32 - 1 - x

/-- `vand` (R281). -/
def execVand (fold : BitVec 2) (d a b : BitVec 6) (p : BitVec 3) (s : State) : StepResult :=
  logicRow (fun x y => x &&& y) fold d a b p s
/-- `vor` (R281). -/
def execVor (fold : BitVec 2) (d a b : BitVec 6) (p : BitVec 3) (s : State) : StepResult :=
  logicRow (fun x y => x ||| y) fold d a b p s
/-- `vxor` (R281). -/
def execVxor (fold : BitVec 2) (d a b : BitVec 6) (p : BitVec 3) (s : State) : StepResult :=
  logicRow (fun x y => x ^^^ y) fold d a b p s
/-- `vandn` (R281). -/
def execVandn (fold : BitVec 2) (d a b : BitVec 6) (p : BitVec 3) (s : State) : StepResult :=
  logicRow (fun x y => x &&& notSlot y) fold d a b p s
/-- `vnot` (R281). -/
def execVnot (fold : BitVec 2) (d a : BitVec 6) (p : BitVec 3) (s : State) : StepResult :=
  logicRow (fun x _ => notSlot x) fold d a 0 p s
/-- `vmov` (R281). -/
def execVmov (fold : BitVec 2) (d a : BitVec 6) (p : BitVec 3) (s : State) : StepResult :=
  logicRow (fun x _ => x) fold d a 0 p s

/-! ## Shifts (R282): the count is taken modulo the width -/

/-- Left shift of a pattern. -/
def shLeft (w x n : Nat) : Nat := x * 2 ^ n % 2 ^ w
/-- Logical right shift of a pattern. -/
def shRight (_ x n : Nat) : Nat := x / 2 ^ n
/-- Arithmetic right shift of a pattern. -/
def shArith (w x n : Nat) : Nat := patternOf w (signedOf w x / (2 ^ n : Nat))
/-- Left rotation of a pattern. -/
def rotLeft (w x n : Nat) : Nat := x * 2 ^ n % 2 ^ w + x / 2 ^ (w - n)

/-- A shift row with a count per element. -/
def shiftRow (f : Nat → Nat → Nat → Nat) (fold : BitVec 2) (d a b : BitVec 6) (p ft : BitVec 3) (s : State) : StepResult :=
  let w := widthOfCode ft
  let cap := grab s a b 0 p.toNat
  let x := (readV s a).toNat
  let y := (readV s b).toNat
  finishElems 2 w fold d (fun k => cap.pred.getLsbD k) (fun k => f w (elem w x k) (elem w y k % w)) s

/-- A shift row with a scalar count, read in beat 0. -/
def shiftRowS (f : Nat → Nat → Nat → Nat) (fold : BitVec 2) (d a b : BitVec 6) (p ft : BitVec 3) (s : State) : StepResult :=
  let w := widthOfCode ft
  let cap := grab s a b 0 p.toNat
  let x := (readV s a).toNat
  finishElems 2 w fold d (fun k => cap.pred.getLsbD k) (fun k => f w (elem w x k) (cap.scalar2.toNat % w)) s

/-- `vsll` (R282). -/
def execVsll (fold : BitVec 2) (d a b : BitVec 6) (p ft : BitVec 3) (s : State) : StepResult :=
  shiftRow shLeft fold d a b p ft s
/-- `vsrl` (R282). -/
def execVsrl (fold : BitVec 2) (d a b : BitVec 6) (p ft : BitVec 3) (s : State) : StepResult :=
  shiftRow shRight fold d a b p ft s
/-- `vsra` (R282). -/
def execVsra (fold : BitVec 2) (d a b : BitVec 6) (p ft : BitVec 3) (s : State) : StepResult :=
  shiftRow shArith fold d a b p ft s
/-- `vrol` (R282). -/
def execVrol (fold : BitVec 2) (d a b : BitVec 6) (p ft : BitVec 3) (s : State) : StepResult :=
  shiftRow rotLeft fold d a b p ft s
/-- `vslls` (R282). -/
def execVslls (fold : BitVec 2) (d a b : BitVec 6) (p ft : BitVec 3) (s : State) : StepResult :=
  shiftRowS shLeft fold d a b p ft s
/-- `vsrls` (R282). -/
def execVsrls (fold : BitVec 2) (d a b : BitVec 6) (p ft : BitVec 3) (s : State) : StepResult :=
  shiftRowS shRight fold d a b p ft s
/-- `vsras` (R282). -/
def execVsras (fold : BitVec 2) (d a b : BitVec 6) (p ft : BitVec 3) (s : State) : StepResult :=
  shiftRowS shArith fold d a b p ft s

/-! ## Compares (R283) -/

/-- A compare of integers: a disabled element gives 0. -/
def intCompare (rel : Int → Int → Bool) (fold : BitVec 2) (d a b : BitVec 6) (p ft : BitVec 3) (s : State) : StepResult :=
  let w := widthOfCode ft
  let sg := signedCode ft
  let cap := grab s a b 0 p.toNat
  let x := (readV s a).toNat
  let y := (readV s b).toNat
  finishCompare 2 w fold d
    (fun k => cap.pred.getLsbD k && rel (intOf w sg (elem w x k)) (intOf w sg (elem w y k))) s

/-- `vcmpeq` of integers (R283). -/
def execVcmpeqInt (fold : BitVec 2) (d a b : BitVec 6) (p ft : BitVec 3) (s : State) : StepResult :=
  intCompare (fun x y => x == y) fold d a b p ft s
/-- `vcmpne` of integers (R283). -/
def execVcmpneInt (fold : BitVec 2) (d a b : BitVec 6) (p ft : BitVec 3) (s : State) : StepResult :=
  intCompare (fun x y => x != y) fold d a b p ft s
/-- `vcmplt` of integers (R283). -/
def execVcmpltInt (fold : BitVec 2) (d a b : BitVec 6) (p ft : BitVec 3) (s : State) : StepResult :=
  intCompare (fun x y => decide (x < y)) fold d a b p ft s
/-- `vcmple` of integers (R283). -/
def execVcmpleInt (fold : BitVec 2) (d a b : BitVec 6) (p ft : BitVec 3) (s : State) : StepResult :=
  intCompare (fun x y => decide (x ≤ y)) fold d a b p ft s
/-- `vcmpgt` of integers (R283). -/
def execVcmpgtInt (fold : BitVec 2) (d a b : BitVec 6) (p ft : BitVec 3) (s : State) : StepResult :=
  intCompare (fun x y => decide (y < x)) fold d a b p ft s
/-- `vcmpge` of integers (R283). -/
def execVcmpgeInt (fold : BitVec 2) (d a b : BitVec 6) (p ft : BitVec 3) (s : State) : StepResult :=
  intCompare (fun x y => decide (y ≤ x)) fold d a b p ft s

/-! ## Selection and movement (R284, R285) -/

/-- `vsel` (R284): the predicate is a selector. -/
def execVsel (fold : BitVec 2) (d a b : BitVec 6) (p ft : BitVec 3) (s : State) : StepResult :=
  let w := widthOfCode ft
  let cap := grab s a b 0 p.toNat
  let x := (readV s a).toNat
  let y := (readV s b).toNat
  finishElems 2 w fold d (fun _ => true) (fun k => if cap.pred.getLsbD k then elem w x k else elem w y k) s

/-- `vsplat` (R284). -/
def execVsplat (fold : BitVec 2) (d a : BitVec 6) (ft : BitVec 3) (s : State) : StepResult :=
  let w := widthOfCode ft
  let cap := grab s a 0 0 0
  finishElems 2 w fold d (fun _ => true) (fun _ => cap.scalar.toNat % 2 ^ w) s

/-- `vext` (R284): sign-extended for I32, I16 and I8. -/
def execVext (fold : BitVec 2) (d a b : BitVec 6) (ft : BitVec 3) (s : State) : StepResult :=
  let w := widthOfCode ft
  let cap := grab s a b 0 0
  let x := elem w (readV s a).toNat (cap.scalar2.toNat % elemCount w)
  finishWhole 3 fold [.scalar d.toNat (BitVec.ofInt 64 (intOf w (signedCode ft) x))] s

/-- `vins` (R284): every other element is unchanged. -/
def execVins (fold : BitVec 2) (d a b : BitVec 6) (ft : BitVec 3) (s : State) : StepResult :=
  let w := widthOfCode ft
  let cap := grab s a b 0 0
  finishElems 2 w fold d (fun k => k == cap.scalar2.toNat % elemCount w) (fun _ => cap.scalar.toNat % 2 ^ w) s

/-- `viota` (R284). -/
def execViota (fold : BitVec 2) (d : BitVec 6) (ft : BitVec 3) (s : State) : StepResult :=
  finishElems 2 (widthOfCode ft) fold d (fun _ => true) (fun k => k) s

/-- `vli` (R285). -/
def execVli (fold : BitVec 2) (d : BitVec 6) (imm : BitVec 32) (s : State) : StepResult :=
  finishElems 2 32 fold d (fun _ => true) (fun _ => imm.toNat) s

end Sys2Proof.Machine
end

