-- ==== Sys2Proof/Machine/VectorPerm.lean ====
section
/-! DEFINITION. Reductions, scans, permutes, sort, compress, expand, random numbers and predicate instructions (R296 to
R302). -/

namespace Sys2Proof.Machine

/-! ## Reductions (R69, R296) -/

/-- The tree of R69 over the 2^m elements from `lo`: a node draws with the last element of its left half (R63). -/
def redTree (node : Nat → Nat → Nat → Nat) (x : Nat → Nat) (lo : Nat) : Nat → Nat
  | 0 => x lo
  | m + 1 => node (lo + 2 ^ m - 1) (redTree node x lo m) (redTree node x (lo + 2 ^ m) m)

/-- Width of a reduction: 32 for FT 000, else that of the tag. -/
def redWidth (ft : BitVec 3) : Nat := if ft = 0 then 32 else widthOfTag ft

/-- The node of a sum: modulo 2^32 for FT 000, else rounded (R296). -/
def sumNode (cap : Capture) (ft : BitVec 3) (rm : Nat) (e x y : Nat) : Nat :=
  if ft = 0 then (x + y) % 2 ^ 32 else fadd (Flt.ofTag ft) rm (stochFor cap rm e) x y

/-- The node of a minimum. -/
def minNode (ft : BitVec 3) (x y : Nat) : Nat :=
  if ft = 0 then (if signedOf 32 x ≤ signedOf 32 y then x else y) else fmin (Flt.ofTag ft) x y

/-- The node of a maximum. -/
def maxNode (ft : BitVec 3) (x y : Nat) : Nat :=
  if ft = 0 then (if signedOf 32 x ≤ signedOf 32 y then y else x) else fmax (Flt.ofTag ft) x y

/-- The identity of a sum: 0, or -0 of a float. -/
def sumIdent (ft : BitVec 3) : Nat := if ft = 0 then 0 else (Flt.ofTag ft).signed true 0
/-- The identity of a minimum. -/
def minIdent (ft : BitVec 3) : Nat := if ft = 0 then 2 ^ 31 - 1 else (Flt.ofTag ft).inf false
/-- The identity of a maximum. -/
def maxIdent (ft : BitVec 3) : Nat := if ft = 0 then 2 ^ 31 else (Flt.ofTag ft).inf true

/-- A reduction of all elements of width `w` into `sD`: disabled elements enter as the identity. -/
def reduceRow (w : Nat) (sx : Bool) (ident : Nat) (node : Capture → Nat → Nat → Nat → Nat) (fold : BitVec 2) (d a : BitVec 6)
    (p : BitVec 3) (s : State) : StepResult :=
  let cap := grab s a 0 0 p.toNat
  let v := (readV s a).toNat
  let x := fun k => if cap.pred.getLsbD k then elem w v k else ident
  let r := redTree (node cap) x 0 (log2 (elemCount w))
  finishWhole 8 fold [.scalar d.toNat (if sx then BitVec.ofInt 64 (signedOf w r) else BitVec.ofNat 64 r)] s

/-- `vredsum` (R296). -/
def execVredsum (fold : BitVec 2) (d a : BitVec 6) (p ft : BitVec 3) (rm : BitVec 4) (s : State) : StepResult :=
  reduceRow (redWidth ft) (ft == 0) (sumIdent ft) (fun cap e x y => sumNode cap ft rm.toNat e x y) fold d a p s
/-- `vredmin` (R296). -/
def execVredmin (fold : BitVec 2) (d a : BitVec 6) (p ft : BitVec 3) (s : State) : StepResult :=
  reduceRow (redWidth ft) (ft == 0) (minIdent ft) (fun _ _ x y => minNode ft x y) fold d a p s
/-- `vredmax` (R296). -/
def execVredmax (fold : BitVec 2) (d a : BitVec 6) (p ft : BitVec 3) (s : State) : StepResult :=
  reduceRow (redWidth ft) (ft == 0) (maxIdent ft) (fun _ _ x y => maxNode ft x y) fold d a p s
/-- `vredminu` (R296). -/
def execVredminu (fold : BitVec 2) (d a : BitVec 6) (p : BitVec 3) (s : State) : StepResult :=
  reduceRow 32 false (2 ^ 32 - 1) (fun _ _ x y => Nat.min x y) fold d a p s
/-- `vredmaxu` (R296). -/
def execVredmaxu (fold : BitVec 2) (d a : BitVec 6) (p : BitVec 3) (s : State) : StepResult :=
  reduceRow 32 false 0 (fun _ _ x y => Nat.max x y) fold d a p s
/-- `vredand` (R296). -/
def execVredand (fold : BitVec 2) (d a : BitVec 6) (p : BitVec 3) (s : State) : StepResult :=
  reduceRow 32 false (2 ^ 32 - 1) (fun _ _ x y => x &&& y) fold d a p s
/-- `vredor` (R296). -/
def execVredor (fold : BitVec 2) (d a : BitVec 6) (p : BitVec 3) (s : State) : StepResult :=
  reduceRow 32 false 0 (fun _ _ x y => x ||| y) fold d a p s

/-! ## Scans (R297) -/

/-- The values of a scan from element `k` on: y is the value so far. -/
def scanFrom (node : Nat → Nat → Nat → Nat) (x : Nat → Nat) (excl : Bool) : Nat → Nat → Nat → List Nat
  | _, _, 0 => []
  | k, y, n + 1 =>
    let y' := node k y (x k)
    (if excl then y else y') :: scanFrom node x excl (k + 1) y' n

/-- Elements of width `w` from a list, element 0 first. -/
def packList (w : Nat) : List Nat → Nat
  | [] => 0
  | x :: xs => x % 2 ^ w + 2 ^ w * packList w xs

/-- A scan: every element of `vD` is written. -/
def scanRow (w : Nat) (ident : Nat) (node : Capture → Nat → Nat → Nat → Nat) (excl : Bool) (fold : BitVec 2) (d a : BitVec 6)
    (p : BitVec 3) (s : State) : StepResult :=
  let cap := grab s a 0 0 p.toNat
  let v := (readV s a).toNat
  let x := fun k => if cap.pred.getLsbD k then elem w v k else ident
  finishWhole 8 fold [wholeVec d (BitVec.ofNat 2048 (packList w (scanFrom (node cap) x excl 0 ident (elemCount w))))] s

/-- `vscan` (R297). -/
def execVscan (fold : BitVec 2) (d a : BitVec 6) (p ft : BitVec 3) (rm : BitVec 4) (s : State) : StepResult :=
  scanRow (redWidth ft) (sumIdent ft) (fun cap e x y => sumNode cap ft rm.toNat e x y) false fold d a p s
/-- `vscanx` (R297). -/
def execVscanx (fold : BitVec 2) (d a : BitVec 6) (p ft : BitVec 3) (rm : BitVec 4) (s : State) : StepResult :=
  scanRow (redWidth ft) (sumIdent ft) (fun cap e x y => sumNode cap ft rm.toNat e x y) true fold d a p s
/-- `vscanmax` (R297). -/
def execVscanmax (fold : BitVec 2) (d a : BitVec 6) (p ft : BitVec 3) (s : State) : StepResult :=
  scanRow (redWidth ft) (maxIdent ft) (fun _ _ x y => maxNode ft x y) false fold d a p s

/-! ## Permutes (R298) -/

/-- A permute: element `k` of `vD` is `f w E A B scalar k`, where A and B give elements. -/
def permRow (f : Nat → Nat → (Nat → Nat) → (Nat → Nat) → Nat → Nat → Nat) (fold : BitVec 2) (d a b : BitVec 6) (ft : BitVec 3)
    (s : State) : StepResult :=
  let w := widthOfCode ft
  let cap := grab s a b 0 0
  let x := (readV s a).toNat
  let y := (readV s b).toNat
  finishWhole 4 fold [wholeVec d (vecOfElems w (f w (elemCount w) (elem w x) (elem w y) cap.scalar2.toNat))] s

/-- `vperm` (R298): 4-bit elements permute within groups of 16. -/
def execVperm (fold : BitVec 2) (d a b : BitVec 6) (ft : BitVec 3) (s : State) : StepResult :=
  permRow (fun w n x y _ k => let g := Nat.min n (2 ^ w); x (g * (k / g) + y k % g)) fold d a b ft s
/-- `vrot` (R298). -/
def execVrot (fold : BitVec 2) (d a b : BitVec 6) (ft : BitVec 3) (s : State) : StepResult :=
  permRow (fun _ n x _ c k => x ((k + c) % n)) fold d a b ft s
/-- `vrev` (R298). -/
def execVrev (fold : BitVec 2) (d a : BitVec 6) (ft : BitVec 3) (s : State) : StepResult :=
  permRow (fun _ n x _ _ k => x (n - 1 - k)) fold d a 0 ft s
/-- `vzip` (R298). -/
def execVzip (fold : BitVec 2) (d a b : BitVec 6) (ft : BitVec 3) (s : State) : StepResult :=
  permRow (fun _ _ x y _ k => if k % 2 = 0 then x (k / 2) else y (k / 2)) fold d a b ft s
/-- `vunzip` (R298). -/
def execVunzip (fold : BitVec 2) (d a b : BitVec 6) (ft : BitVec 3) (s : State) : StepResult :=
  permRow (fun _ n x y _ k => if 2 * k < n then x (2 * k) else y (2 * k - n)) fold d a b ft s
/-- `vbcast` (R298). -/
def execVbcast (fold : BitVec 2) (d a b : BitVec 6) (ft : BitVec 3) (s : State) : StepResult :=
  permRow (fun _ n x _ c _ => x (c % n)) fold d a b ft s

/-! ## Sort, compress, expand (R299, R300) -/

/-- The rank of a key: I32, or F32 with NaN below everything and -0 equal to +0 (R299). -/
def sortRank (ft : BitVec 3) (x : Nat) : Int :=
  if ft = 0 then signedOf 32 x
  else if (Exact.decode .f32 x).isNan then -(2 ^ 32 : Nat)
  else if bitOf x 31 then -(x % 2 ^ 31 : Nat) else (x % 2 ^ 31 : Nat)

/-- A key and its value inserted behind every entry whose rank is not lower. -/
def insertKey (rank : Nat → Int) (e : Nat × Nat) : List (Nat × Nat) → List (Nat × Nat)
  | [] => [e]
  | x :: xs => if rank x.1 < rank e.1 then e :: x :: xs else x :: insertKey rank e xs

/-- Keys in decreasing order; equal keys keep their slot order. -/
def sortKeys (rank : Nat → Int) (l : List (Nat × Nat)) : List (Nat × Nat) :=
  l.foldl (fun acc e => insertKey rank e acc) []

/-- A key as `vsortn` writes it: a NaN is canonical. -/
def sortKeyOut (ft : BitVec 3) (x : Nat) : Nat :=
  if ft != 0 && (Exact.decode .f32 x).isNan then Flt.nan .f32 else x

/-- `vsortn` (R299). -/
def execVsortn (fold : BitVec 2) (d a b c : BitVec 6) (ft : BitVec 3) (s : State) : StepResult :=
  let cap := grab s a b c 0
  let x := (readV s a).toNat
  let y := (readV s b).toNat
  let sorted := (sortKeys (sortRank ft) ((List.range 64).map fun k => (elem 32 x k, elem 32 y k))).take (Nat.min cap.scalar3.toNat 64)
  finishWhole 20 fold
    [wholeVec d (BitVec.ofNat 2048 (packList 32 (sorted.map fun e => sortKeyOut ft e.1))),
     .vector (d.toNat + 1) (BitVec.allOnes 2048) (BitVec.ofNat 2048 (packList 32 (sorted.map fun e => e.2)))] s

/-- `vcompress` (R300): the count goes to `sB`. -/
def execVcompress (fold : BitVec 2) (d a b : BitVec 6) (p ft : BitVec 3) (s : State) : StepResult :=
  let w := widthOfCode ft
  let cap := grab s a b 0 p.toNat
  let x := (readV s a).toNat
  let picked := (List.range (elemCount w)).filter fun k => cap.pred.getLsbD k
  finishWhole 4 fold
    [wholeVec d (BitVec.ofNat 2048 (packList w (picked.map fun k => elem w x k))),
     .scalar b.toNat (BitVec.ofNat 64 picked.length)] s

/-- The elements of `vexpand` from position `k` on, with `j` elements taken so far. -/
def expandFrom (on : Nat → Bool) (x : Nat → Nat) : Nat → Nat → Nat → List Nat
  | _, _, 0 => []
  | k, j, n + 1 => if on k then x j :: expandFrom on x (k + 1) (j + 1) n else 0 :: expandFrom on x (k + 1) j n

/-- `vexpand` (R300). -/
def execVexpand (fold : BitVec 2) (d a : BitVec 6) (p ft : BitVec 3) (s : State) : StepResult :=
  let w := widthOfCode ft
  let cap := grab s a 0 0 p.toNat
  let x := (readV s a).toNat
  finishWhole 4 fold
    [wholeVec d (BitVec.ofNat 2048 (packList w (expandFrom (fun k => cap.pred.getLsbD k) (elem w x) 0 0 (elemCount w))))] s

/-! ## Random numbers (R301) -/

/-- The random word of a slot. -/
def rngWord (cap : Capture) (slot : Nat) : Nat := pickWord (drawWords cap (slot / 4)) (slot % 4)

/-- `vrng` (R301). -/
def execVrng (fold : BitVec 2) (d : BitVec 6) (p : BitVec 3) (s : State) : StepResult :=
  let cap := grab s 0 0 0 p.toNat
  finishElems 6 32 fold d (fun k => cap.pred.getLsbD k) (fun k => rngWord cap k) s

/-- A uniform float in [0, 1) from the word or half word of its element (R301). -/
def uniformFloat (ft : BitVec 3) (cap : Capture) (k : Nat) : Nat :=
  match ft.toNat with
  | 1 => roundTo .f32 (.dyadic false (rngWord cap k / 2 ^ 8) (-24)) 0
  | 2 => roundTo .bf16 (.dyadic false (elem 16 (rngWord cap (k / 2)) (k % 2) / 2 ^ 8) (-8)) 0
  | _ => roundTo .f16 (.dyadic false (elem 16 (rngWord cap (k / 2)) (k % 2) / 2 ^ 5) (-11)) 0

/-- `vrngf` (R301). -/
def execVrngf (fold : BitVec 2) (d : BitVec 6) (p ft : BitVec 3) (s : State) : StepResult :=
  let cap := grab s 0 0 0 p.toNat
  finishElems 6 (widthOfTag ft) fold d (fun k => cap.pred.getLsbD k) (uniformFloat ft cap) s

/-! ## Predicates (R302): read in beat 0, written in the last beat -/

/-- A predicate operand as beat 0 read it. -/
def predRow (fold : BitVec 2) (d : BitVec 6) (v : Pred) (s : State) : StepResult := finishWhole 1 fold [wholePred d v] s

/-- The two predicate operands A and B of an entry, as read in beat 0. -/
def predPair (s : State) (a b : BitVec 6) : Pred × Pred :=
  let cap := grab s a b 0 0
  (cap.predA, cap.predB)

/-- `pand` (R302). -/
def execPand (fold : BitVec 2) (d a b : BitVec 6) (s : State) : StepResult :=
  predRow fold d ((predPair s a b).1 &&& (predPair s a b).2) s
/-- `por` (R302). -/
def execPor (fold : BitVec 2) (d a b : BitVec 6) (s : State) : StepResult :=
  predRow fold d ((predPair s a b).1 ||| (predPair s a b).2) s
/-- `pxor` (R302). -/
def execPxor (fold : BitVec 2) (d a b : BitVec 6) (s : State) : StepResult :=
  predRow fold d ((predPair s a b).1 ^^^ (predPair s a b).2) s
/-- `pnot` (R302). -/
def execPnot (fold : BitVec 2) (d a : BitVec 6) (s : State) : StepResult := predRow fold d (~~~(predPair s a 0).1) s
/-- `pmov` (R302). -/
def execPmov (fold : BitVec 2) (d a : BitVec 6) (s : State) : StepResult := predRow fold d (predPair s a 0).1 s
/-- `pall` (R302). -/
def execPall (fold : BitVec 2) (d : BitVec 6) (s : State) : StepResult := predRow fold d allTrue s
/-- `pnone` (R302). -/
def execPnone (fold : BitVec 2) (d : BitVec 6) (s : State) : StepResult := predRow fold d 0 s
/-- `pcnt` (R302). -/
def execPcnt (fold : BitVec 2) (d a : BitVec 6) (s : State) : StepResult :=
  let p := (predPair s a 0).1
  finishWhole 1 fold [.scalar d.toNat (BitVec.ofNat 64 ((List.range 512).countP fun k => p.getLsbD k))] s
/-- `pfirst` (R302): 512 if no bit is set. -/
def execPfirst (fold : BitVec 2) (d a : BitVec 6) (s : State) : StepResult :=
  let p := (predPair s a 0).1
  finishWhole 1 fold [.scalar d.toNat (BitVec.ofNat 64 (((List.range 512).find? fun k => p.getLsbD k).getD 512))] s
/-- `pwlt` (R302). -/
def execPwlt (fold : BitVec 2) (d a : BitVec 6) (s : State) : StepResult :=
  let n := (grab s a 0 0 0).scalar.toNat
  predRow fold d (predOfBits fun k => k < n) s

end Sys2Proof.Machine
end

