-- ==== Sys2Proof/Machine/Dispatch.lean ====
section
/-! DEFINITION. The dispatch: one arm per constructor of `Instr`, each one call of the meaning of its step. -/

namespace Sys2Proof.Machine

def exec (i : Instr) (s : State) : Host.Outcome State Fault Refusal :=
  match i with
  | .nop => Sys2Proof.Machine.execNop s
  | .br target => Sys2Proof.Machine.execBr target s
  | .beq d a target => Sys2Proof.Machine.execBeq d a target s
  | .bne d a target => Sys2Proof.Machine.execBne d a target s
  | .blt d a target => Sys2Proof.Machine.execBlt d a target s
  | .bge d a target => Sys2Proof.Machine.execBge d a target s
  | .bltu d a target => Sys2Proof.Machine.execBltu d a target s
  | .bgeu d a target => Sys2Proof.Machine.execBgeu d a target s
  | .call d target => Sys2Proof.Machine.execCall d target s
  | .jr a => Sys2Proof.Machine.execJr a s
  | .jalr d a => Sys2Proof.Machine.execJalr d a s
  | .loop d count span => Sys2Proof.Machine.execLoop d count span s
  | .loopr d a span => Sys2Proof.Machine.execLoopr d a span s
  | .tloop d stride count span => Sys2Proof.Machine.execTloop d stride count span s
  | .add d a b => Sys2Proof.Machine.execAdd d a b s
  | .sub d a b => Sys2Proof.Machine.execSub d a b s
  | .and d a b => Sys2Proof.Machine.execAnd d a b s
  | .or d a b => Sys2Proof.Machine.execOr d a b s
  | .xor d a b => Sys2Proof.Machine.execXor d a b s
  | .sll d a b => Sys2Proof.Machine.execSll d a b s
  | .srl d a b => Sys2Proof.Machine.execSrl d a b s
  | .sra d a b => Sys2Proof.Machine.execSra d a b s
  | .mul d a b => Sys2Proof.Machine.execMul d a b s
  | .mulh d a b => Sys2Proof.Machine.execMulh d a b s
  | .mulhu d a b => Sys2Proof.Machine.execMulhu d a b s
  | .min d a b => Sys2Proof.Machine.execMin d a b s
  | .max d a b => Sys2Proof.Machine.execMax d a b s
  | .minu d a b => Sys2Proof.Machine.execMinu d a b s
  | .maxu d a b => Sys2Proof.Machine.execMaxu d a b s
  | .addi d a imm => Sys2Proof.Machine.execAddi d a imm s
  | .andi d a imm => Sys2Proof.Machine.execAndi d a imm s
  | .ori d a imm => Sys2Proof.Machine.execOri d a imm s
  | .xori d a imm => Sys2Proof.Machine.execXori d a imm s
  | .slli d a imm => Sys2Proof.Machine.execSlli d a imm s
  | .srli d a imm => Sys2Proof.Machine.execSrli d a imm s
  | .srai d a imm => Sys2Proof.Machine.execSrai d a imm s
  | .muli d a imm => Sys2Proof.Machine.execMuli d a imm s
  | .mini d a imm => Sys2Proof.Machine.execMini d a imm s
  | .maxi d a imm => Sys2Proof.Machine.execMaxi d a imm s
  | .div d a b => Sys2Proof.Machine.execDiv d a b s
  | .divu d a b => Sys2Proof.Machine.execDivu d a b s
  | .rem d a b => Sys2Proof.Machine.execRem d a b s
  | .remu d a b => Sys2Proof.Machine.execRemu d a b s
  | .seq d a b => Sys2Proof.Machine.execSeq d a b s
  | .sne d a b => Sys2Proof.Machine.execSne d a b s
  | .slt d a b => Sys2Proof.Machine.execSlt d a b s
  | .sge d a b => Sys2Proof.Machine.execSge d a b s
  | .sltu d a b => Sys2Proof.Machine.execSltu d a b s
  | .sgeu d a b => Sys2Proof.Machine.execSgeu d a b s
  | .seqi d a imm => Sys2Proof.Machine.execSeqi d a imm s
  | .snei d a imm => Sys2Proof.Machine.execSnei d a imm s
  | .slti d a imm => Sys2Proof.Machine.execSlti d a imm s
  | .sgei d a imm => Sys2Proof.Machine.execSgei d a imm s
  | .sltui d a imm => Sys2Proof.Machine.execSltui d a imm s
  | .sgeui d a imm => Sys2Proof.Machine.execSgeui d a imm s
  | .bfx d a pos len => Sys2Proof.Machine.execBfx d a pos len s
  | .bfxu d a pos len => Sys2Proof.Machine.execBfxu d a pos len s
  | .bfi d a pos len => Sys2Proof.Machine.execBfi d a pos len s
  | .clz d a => Sys2Proof.Machine.execClz d a s
  | .ctz d a => Sys2Proof.Machine.execCtz d a s
  | .popc d a => Sys2Proof.Machine.execPopc d a s
  | .brev d a => Sys2Proof.Machine.execBrev d a s
  | .bswap d a => Sys2Proof.Machine.execBswap d a s
  | .li d imm => Sys2Proof.Machine.execLi d imm s
  | .lih d imm => Sys2Proof.Machine.execLih d imm s
  | .mov d a => Sys2Proof.Machine.execMov d a s
  | .lea d a b x => Sys2Proof.Machine.execLea d a b x s
  | .ld d a imm => Sys2Proof.Machine.execLd d a imm s
  | .ldI8 d a imm => Sys2Proof.Machine.execLdI8 d a imm s
  | .ldUi8 d a imm => Sys2Proof.Machine.execLdUi8 d a imm s
  | .ldI16 d a imm => Sys2Proof.Machine.execLdI16 d a imm s
  | .ldUi16 d a imm => Sys2Proof.Machine.execLdUi16 d a imm s
  | .ldI32 d a imm => Sys2Proof.Machine.execLdI32 d a imm s
  | .ldUi32 d a imm => Sys2Proof.Machine.execLdUi32 d a imm s
  | .st d a imm => Sys2Proof.Machine.execSt d a imm s
  | .stI8 d a imm => Sys2Proof.Machine.execStI8 d a imm s
  | .stI16 d a imm => Sys2Proof.Machine.execStI16 d a imm s
  | .stI32 d a imm => Sys2Proof.Machine.execStI32 d a imm s
  | .mfsr d sr => Sys2Proof.Machine.execMfsr d sr s
  | .vaddInt fold d a b p ft => Sys2Proof.Machine.execVaddInt fold d a b p ft s
  | .vsubInt fold d a b p ft => Sys2Proof.Machine.execVsubInt fold d a b p ft s
  | .vmulInt fold d a b p ft => Sys2Proof.Machine.execVmulInt fold d a b p ft s
  | .vmulh fold d a b p ft => Sys2Proof.Machine.execVmulh fold d a b p ft s
  | .vminInt fold d a b p ft => Sys2Proof.Machine.execVminInt fold d a b p ft s
  | .vmaxInt fold d a b p ft => Sys2Proof.Machine.execVmaxInt fold d a b p ft s
  | .vabsInt fold d a p ft => Sys2Proof.Machine.execVabsInt fold d a p ft s
  | .vnegInt fold d a p ft => Sys2Proof.Machine.execVnegInt fold d a p ft s
  | .vadds fold d a b p ft => Sys2Proof.Machine.execVadds fold d a b p ft s
  | .vsubs fold d a b p ft => Sys2Proof.Machine.execVsubs fold d a b p ft s
  | .vavg fold d a b p ft => Sys2Proof.Machine.execVavg fold d a b p ft s
  | .vmad fold d a b c p ft => Sys2Proof.Machine.execVmad fold d a b c p ft s
  | .vand fold d a b p => Sys2Proof.Machine.execVand fold d a b p s
  | .vor fold d a b p => Sys2Proof.Machine.execVor fold d a b p s
  | .vxor fold d a b p => Sys2Proof.Machine.execVxor fold d a b p s
  | .vandn fold d a b p => Sys2Proof.Machine.execVandn fold d a b p s
  | .vnot fold d a p => Sys2Proof.Machine.execVnot fold d a p s
  | .vmov fold d a p => Sys2Proof.Machine.execVmov fold d a p s
  | .vsll fold d a b p ft => Sys2Proof.Machine.execVsll fold d a b p ft s
  | .vsrl fold d a b p ft => Sys2Proof.Machine.execVsrl fold d a b p ft s
  | .vsra fold d a b p ft => Sys2Proof.Machine.execVsra fold d a b p ft s
  | .vrol fold d a b p ft => Sys2Proof.Machine.execVrol fold d a b p ft s
  | .vslls fold d a b p ft => Sys2Proof.Machine.execVslls fold d a b p ft s
  | .vsrls fold d a b p ft => Sys2Proof.Machine.execVsrls fold d a b p ft s
  | .vsras fold d a b p ft => Sys2Proof.Machine.execVsras fold d a b p ft s
  | .vcmpeqInt fold d a b p ft => Sys2Proof.Machine.execVcmpeqInt fold d a b p ft s
  | .vcmpneInt fold d a b p ft => Sys2Proof.Machine.execVcmpneInt fold d a b p ft s
  | .vcmpltInt fold d a b p ft => Sys2Proof.Machine.execVcmpltInt fold d a b p ft s
  | .vcmpleInt fold d a b p ft => Sys2Proof.Machine.execVcmpleInt fold d a b p ft s
  | .vcmpgtInt fold d a b p ft => Sys2Proof.Machine.execVcmpgtInt fold d a b p ft s
  | .vcmpgeInt fold d a b p ft => Sys2Proof.Machine.execVcmpgeInt fold d a b p ft s
  | .vsel fold d a b p ft => Sys2Proof.Machine.execVsel fold d a b p ft s
  | .vsplat fold d a ft => Sys2Proof.Machine.execVsplat fold d a ft s
  | .vext fold d a b ft => Sys2Proof.Machine.execVext fold d a b ft s
  | .vins fold d a b ft => Sys2Proof.Machine.execVins fold d a b ft s
  | .viota fold d ft => Sys2Proof.Machine.execViota fold d ft s
  | .vaddFp fold d a b p ft rm => Sys2Proof.Machine.execVaddFp fold d a b p ft rm s
  | .vsubFp fold d a b p ft rm => Sys2Proof.Machine.execVsubFp fold d a b p ft rm s
  | .vmulFp fold d a b p ft rm => Sys2Proof.Machine.execVmulFp fold d a b p ft rm s
  | .vfma fold d a b c p ft rm => Sys2Proof.Machine.execVfma fold d a b c p ft rm s
  | .vfms fold d a b c p ft rm => Sys2Proof.Machine.execVfms fold d a b c p ft rm s
  | .vfnma fold d a b c p ft rm => Sys2Proof.Machine.execVfnma fold d a b c p ft rm s
  | .vminFp fold d a b p ft => Sys2Proof.Machine.execVminFp fold d a b p ft s
  | .vmaxFp fold d a b p ft => Sys2Proof.Machine.execVmaxFp fold d a b p ft s
  | .vabsFp fold d a p ft => Sys2Proof.Machine.execVabsFp fold d a p ft s
  | .vnegFp fold d a p ft => Sys2Proof.Machine.execVnegFp fold d a p ft s
  | .vdiv fold d a b p ft rm => Sys2Proof.Machine.execVdiv fold d a b p ft rm s
  | .vsqrt fold d a p ft rm => Sys2Proof.Machine.execVsqrt fold d a p ft rm s
  | .vcmpeqFp fold d a b p ft => Sys2Proof.Machine.execVcmpeqFp fold d a b p ft s
  | .vcmpneFp fold d a b p ft => Sys2Proof.Machine.execVcmpneFp fold d a b p ft s
  | .vcmpltFp fold d a b p ft => Sys2Proof.Machine.execVcmpltFp fold d a b p ft s
  | .vcmpleFp fold d a b p ft => Sys2Proof.Machine.execVcmpleFp fold d a b p ft s
  | .vcmpgtFp fold d a b p ft => Sys2Proof.Machine.execVcmpgtFp fold d a b p ft s
  | .vcmpgeFp fold d a b p ft => Sys2Proof.Machine.execVcmpgeFp fold d a b p ft s
  | .vcmpun fold d a b p ft => Sys2Proof.Machine.execVcmpun fold d a b p ft s
  | .vli fold d imm => Sys2Proof.Machine.execVli fold d imm s
  | .vcvt fold d a src p rm dst => Sys2Proof.Machine.execVcvt fold d a src p rm dst s
  | .vquant fold d a src c p rm dst => Sys2Proof.Machine.execVquant fold d a src c p rm dst s
  | .vdequant fold d a src c p rm dst => Sys2Proof.Machine.execVdequant fold d a src c p rm dst s
  | .vlq2 fold d a src c p rm dst => Sys2Proof.Machine.execVlq2 fold d a src c p rm dst s
  | .vscale fold d a src c p rm dst => Sys2Proof.Machine.execVscale fold d a src c p rm dst s
  | .vexp2 fold d a p ft rm => Sys2Proof.Machine.execVexp2 fold d a p ft rm s
  | .vlog2 fold d a p ft rm => Sys2Proof.Machine.execVlog2 fold d a p ft rm s
  | .vrcp fold d a p ft rm => Sys2Proof.Machine.execVrcp fold d a p ft rm s
  | .vrsqrt fold d a p ft rm => Sys2Proof.Machine.execVrsqrt fold d a p ft rm s
  | .vtanh fold d a p ft rm => Sys2Proof.Machine.execVtanh fold d a p ft rm s
  | .vsigm fold d a p ft rm => Sys2Proof.Machine.execVsigm fold d a p ft rm s
  | .vredsum fold d a p ft rm => Sys2Proof.Machine.execVredsum fold d a p ft rm s
  | .vredmin fold d a p ft => Sys2Proof.Machine.execVredmin fold d a p ft s
  | .vredmax fold d a p ft => Sys2Proof.Machine.execVredmax fold d a p ft s
  | .vredminu fold d a p => Sys2Proof.Machine.execVredminu fold d a p s
  | .vredmaxu fold d a p => Sys2Proof.Machine.execVredmaxu fold d a p s
  | .vredand fold d a p => Sys2Proof.Machine.execVredand fold d a p s
  | .vredor fold d a p => Sys2Proof.Machine.execVredor fold d a p s
  | .vscan fold d a p ft rm => Sys2Proof.Machine.execVscan fold d a p ft rm s
  | .vscanx fold d a p ft rm => Sys2Proof.Machine.execVscanx fold d a p ft rm s
  | .vscanmax fold d a p ft => Sys2Proof.Machine.execVscanmax fold d a p ft s
  | .vperm fold d a b ft => Sys2Proof.Machine.execVperm fold d a b ft s
  | .vrot fold d a b ft => Sys2Proof.Machine.execVrot fold d a b ft s
  | .vrev fold d a ft => Sys2Proof.Machine.execVrev fold d a ft s
  | .vzip fold d a b ft => Sys2Proof.Machine.execVzip fold d a b ft s
  | .vunzip fold d a b ft => Sys2Proof.Machine.execVunzip fold d a b ft s
  | .vbcast fold d a b ft => Sys2Proof.Machine.execVbcast fold d a b ft s
  | .vsortn fold d a b c ft => Sys2Proof.Machine.execVsortn fold d a b c ft s
  | .vcompress fold d a b p ft => Sys2Proof.Machine.execVcompress fold d a b p ft s
  | .vexpand fold d a p ft => Sys2Proof.Machine.execVexpand fold d a p ft s
  | .vrng fold d p => Sys2Proof.Machine.execVrng fold d p s
  | .vrngf fold d p ft => Sys2Proof.Machine.execVrngf fold d p ft s
  | .pand fold d a b => Sys2Proof.Machine.execPand fold d a b s
  | .por fold d a b => Sys2Proof.Machine.execPor fold d a b s
  | .pxor fold d a b => Sys2Proof.Machine.execPxor fold d a b s
  | .pnot fold d a => Sys2Proof.Machine.execPnot fold d a s
  | .pmov fold d a => Sys2Proof.Machine.execPmov fold d a s
  | .pall fold d => Sys2Proof.Machine.execPall fold d s
  | .pnone fold d => Sys2Proof.Machine.execPnone fold d s
  | .pcnt fold d a => Sys2Proof.Machine.execPcnt fold d a s
  | .pfirst fold d a => Sys2Proof.Machine.execPfirst fold d a s
  | .pwlt fold d a => Sys2Proof.Machine.execPwlt fold d a s
  | .madd fold d a b p qset => Sys2Proof.Machine.execMadd fold d a b p qset s
  | .msub fold d a b p qset => Sys2Proof.Machine.execMsub fold d a b p qset s
  | .mneg fold d a p qset => Sys2Proof.Machine.execMneg fold d a p qset s
  | .mmulq fold d a b p qset => Sys2Proof.Machine.execMmulq fold d a b p qset s
  | .mmac fold d a b c p qset => Sys2Proof.Machine.execMmac fold d a b c p qset s
  | .mtomont fold d a p qset => Sys2Proof.Machine.execMtomont fold d a p qset s
  | .mfrmont fold d a p qset => Sys2Proof.Machine.execMfrmont fold d a p qset s
  | .mred fold d a p qset => Sys2Proof.Machine.execMred fold d a p qset s
  | .mmul fold d a b p qset => Sys2Proof.Machine.execMmul fold d a b p qset s
  | .bflyct fold d a b stage qset => Sys2Proof.Machine.execBflyct fold d a b stage qset s
  | .bflygs fold d a b stage qset => Sys2Proof.Machine.execBflygs fold d a b stage qset s
  | .bfpermRev fold d a => Sys2Proof.Machine.execBfpermRev fold d a s
  | .bfpermShuf fold d a => Sys2Proof.Machine.execBfpermShuf fold d a s
  | .bfpermStrd fold d a stride => Sys2Proof.Machine.execBfpermStrd fold d a stride s
  | .mauto fold d a b qset => Sys2Proof.Machine.execMauto fold d a b qset s
  | .mqset fold d a => Sys2Proof.Machine.execMqset fold d a s
  | .mqget fold d a => Sys2Proof.Machine.execMqget fold d a s
  | .tcfg imm => Sys2Proof.Machine.execTcfg imm s
  | .tdef d a b c flags => Sys2Proof.Machine.execTdef d a b c flags s
  | .tarm d => Sys2Proof.Machine.execTarm d s
  | .tdisarm d => Sys2Proof.Machine.execTdisarm d s
  | .ttagEmpty a => Sys2Proof.Machine.execTtagEmpty a s
  | .ttagFull a => Sys2Proof.Machine.execTtagFull a s
  | .twload a => Sys2Proof.Machine.execTwload a s
  | .tread d a b => Sys2Proof.Machine.execTread d a b s
  | .tstore a b ft rm => Sys2Proof.Machine.execTstore a b ft rm s
  | .taccz d => Sys2Proof.Machine.execTaccz d s
  | .tsysto on => Sys2Proof.Machine.execTsysto on s
  | .tstatSlot d a => Sys2Proof.Machine.execTstatSlot d a s
  | .tstatAcc d a => Sys2Proof.Machine.execTstatAcc d a s
  | .pop fold d a => Sys2Proof.Machine.execPop fold d a s
  | .popd fold a => Sys2Proof.Machine.execPopd fold a s
  | .push fold d a ft => Sys2Proof.Machine.execPush fold d a ft s
  | .peek fold d a => Sys2Proof.Machine.execPeek fold d a s
  | .nld d a imm => Sys2Proof.Machine.execNld d a imm s
  | .nlds d a imm => Sys2Proof.Machine.execNlds d a imm s
  | .nst d a b ocx => Sys2Proof.Machine.execNst d a b ocx s
  | .nsts d a b ocx => Sys2Proof.Machine.execNsts d a b ocx s
  | .pld d a b => Sys2Proof.Machine.execPld d a b s
  | .pldv d a b => Sys2Proof.Machine.execPldv d a b s
  | .pst d a b ocx => Sys2Proof.Machine.execPst d a b ocx s
  | .pstv d a b ocx => Sys2Proof.Machine.execPstv d a b ocx s
  | .pclr a b => Sys2Proof.Machine.execPclr a b s
  | .agset d a => Sys2Proof.Machine.execAgset d a s
  | .agld d a => Sys2Proof.Machine.execAgld d a s
  | .agst d a => Sys2Proof.Machine.execAgst d a s
  | .amoAdd d a b oc scope => Sys2Proof.Machine.execAmoAdd d a b oc scope s
  | .amoMin d a b oc scope => Sys2Proof.Machine.execAmoMin d a b oc scope s
  | .amoMax d a b oc scope => Sys2Proof.Machine.execAmoMax d a b oc scope s
  | .amoAnd d a b oc scope => Sys2Proof.Machine.execAmoAnd d a b oc scope s
  | .amoOr d a b oc scope => Sys2Proof.Machine.execAmoOr d a b oc scope s
  | .amoXor d a b oc scope => Sys2Proof.Machine.execAmoXor d a b oc scope s
  | .amoSwap d a b oc scope => Sys2Proof.Machine.execAmoSwap d a b oc scope s
  | .amoCas d a b c oc scope => Sys2Proof.Machine.execAmoCas d a b c oc scope s
  | .amoFadd d a b oc scope => Sys2Proof.Machine.execAmoFadd d a b oc scope s
  | .amoMinu d a b oc scope => Sys2Proof.Machine.execAmoMinu d a b oc scope s
  | .amoMaxu d a b oc scope => Sys2Proof.Machine.execAmoMaxu d a b oc scope s
  | .redAdd a b oc scope => Sys2Proof.Machine.execRedAdd a b oc scope s
  | .redMin a b oc scope => Sys2Proof.Machine.execRedMin a b oc scope s
  | .redMax a b oc scope => Sys2Proof.Machine.execRedMax a b oc scope s
  | .redAnd a b oc scope => Sys2Proof.Machine.execRedAnd a b oc scope s
  | .redOr a b oc scope => Sys2Proof.Machine.execRedOr a b oc scope s
  | .redXor a b oc scope => Sys2Proof.Machine.execRedXor a b oc scope s
  | .redFadd a b oc scope => Sys2Proof.Machine.execRedFadd a b oc scope s
  | .redMinu a b oc scope => Sys2Proof.Machine.execRedMinu a b oc scope s
  | .redMaxu a b oc scope => Sys2Proof.Machine.execRedMaxu a b oc scope s
  | .csig d => Sys2Proof.Machine.execCsig d s
  | .cwait a => Sys2Proof.Machine.execCwait a s
  | .ctest d a => Sys2Proof.Machine.execCtest d a s
  | .punct d => Sys2Proof.Machine.execPunct d s
  | .punctall => Sys2Proof.Machine.execPunctall s
  | .ordj d a => Sys2Proof.Machine.execOrdj d a s
  | .fence scope => Sys2Proof.Machine.execFence scope s
  | .ramoAdd d a b oc => Sys2Proof.Machine.execRamoAdd d a b oc s
  | .ramoMin d a b oc => Sys2Proof.Machine.execRamoMin d a b oc s
  | .ramoMax d a b oc => Sys2Proof.Machine.execRamoMax d a b oc s
  | .ramoAnd d a b oc => Sys2Proof.Machine.execRamoAnd d a b oc s
  | .ramoOr d a b oc => Sys2Proof.Machine.execRamoOr d a b oc s
  | .ramoXor d a b oc => Sys2Proof.Machine.execRamoXor d a b oc s
  | .ramoSwap d a b oc => Sys2Proof.Machine.execRamoSwap d a b oc s
  | .ramoCas d a b c oc => Sys2Proof.Machine.execRamoCas d a b c oc s
  | .ramoFadd d a b oc => Sys2Proof.Machine.execRamoFadd d a b oc s
  | .ramoMinu d a b oc => Sys2Proof.Machine.execRamoMinu d a b oc s
  | .ramoMaxu d a b oc => Sys2Proof.Machine.execRamoMaxu d a b oc s
  | .setmode a mode => Sys2Proof.Machine.execSetmode a mode s
  | .spawn d a tag => Sys2Proof.Machine.execSpawn d a tag s
  | .cret d => Sys2Proof.Machine.execCret d s
  | .ckick a tag => Sys2Proof.Machine.execCkick a tag s
  | .carm a tag => Sys2Proof.Machine.execCarm a tag s
  | .gld d a b => Sys2Proof.Machine.execGld d a b s
  | .gact a => Sys2Proof.Machine.execGact a s
  | .gdrain a => Sys2Proof.Machine.execGdrain a s
  | .gunld a => Sys2Proof.Machine.execGunld a s
  | .gstat d a => Sys2Proof.Machine.execGstat d a s
  | .mstat d a => Sys2Proof.Machine.execMstat d a s
  | .gpatch d a tag => Sys2Proof.Machine.execGpatch d a tag s
  | .trap code => Sys2Proof.Machine.execTrap code s
  | .tret => Sys2Proof.Machine.execTret s
  | .mtsr a sr => Sys2Proof.Machine.execMtsr a sr s
  | .idle => Sys2Proof.Machine.execIdle s
  | .csave a => Sys2Proof.Machine.execCsave a s
  | .cload a => Sys2Proof.Machine.execCload a s
  | .pginv a b scope => Sys2Proof.Machine.execPginv a b scope s
  | .pgfence scope => Sys2Proof.Machine.execPgfence scope s
  | .pgstat d a => Sys2Proof.Machine.execPgstat d a s
  | .snap ident scope => Sys2Proof.Machine.execSnap ident scope s
  | .snapq d a => Sys2Proof.Machine.execSnapq d a s
  | .snapw a => Sys2Proof.Machine.execSnapw a s
  | .rollb a => Sys2Proof.Machine.execRollb a s
  | .rkset a b => Sys2Proof.Machine.execRkset a b s
  | .rkget d a => Sys2Proof.Machine.execRkget d a s
  | .resultWriteback tile => Sys2Proof.Machine.execResultWriteback tile s
  | .regionResume ctx slot reg => Sys2Proof.Machine.execRegionResume ctx slot reg s
  | .phaseStart ctx slot reg => Sys2Proof.Machine.execPhaseStart ctx slot reg s
  | .phaseEnd ctx slot reg => Sys2Proof.Machine.execPhaseEnd ctx slot reg s
  | .stall ctx slot reg => Sys2Proof.Machine.execStall ctx slot reg s
  | .scheduledTokenArrival ctx tag => Sys2Proof.Machine.execScheduledTokenArrival ctx tag s
  | .ringWindowWrite ctx tag => Sys2Proof.Machine.execRingWindowWrite ctx tag s
  | .creditArrival ctx tag => Sys2Proof.Machine.execCreditArrival ctx tag s
  | .chunkGrant ctx tag => Sys2Proof.Machine.execChunkGrant ctx tag s
  | .sourceRequest ctx slot ma => Sys2Proof.Machine.execSourceRequest ctx slot ma s
  | .dramReply op => Sys2Proof.Machine.execDramReply op s
  | .gatherIndexTake ctx slot ma => Sys2Proof.Machine.execGatherIndexTake ctx slot ma s
  | .scatterAddUpdate ctx slot ma => Sys2Proof.Machine.execScatterAddUpdate ctx slot ma s
  | .sinkWrite ctx slot ma => Sys2Proof.Machine.execSinkWrite ctx slot ma s
  | .modeRequestArrival ctx slot point => Sys2Proof.Machine.execModeRequestArrival ctx slot point s
  | .memoryActorQuiescent ctx slot ma => Sys2Proof.Machine.execMemoryActorQuiescent ctx slot ma s
  | .startPulse ctx slot => Sys2Proof.Machine.execStartPulse ctx slot s
  | .copyFiring ctx slot tpl => Sys2Proof.Machine.execCopyFiring ctx slot tpl s
  | .copyCompletion ctx slot tpl => Sys2Proof.Machine.execCopyCompletion ctx slot tpl s
  | .bankAccess op => Sys2Proof.Machine.execBankAccess op s
  | .presenceReadServed op => Sys2Proof.Machine.execPresenceReadServed op s
  | .generatorTakePattern mtile gen => Sys2Proof.Machine.execGeneratorTakePattern mtile gen s
  | .joinSignalArrival ctx slot join member => Sys2Proof.Machine.execJoinSignalArrival ctx slot join member s
  | .releaseArrival ctx slot join member => Sys2Proof.Machine.execReleaseArrival ctx slot join member s
  | .controlTokenArrival ctx tag => Sys2Proof.Machine.execControlTokenArrival ctx tag s
  | .orderTokenArrival unit chan seqn => Sys2Proof.Machine.execOrderTokenArrival unit chan seqn s
  | .atomicPipelineTake op => Sys2Proof.Machine.execAtomicPipelineTake op s
  | .farAtomicReply op => Sys2Proof.Machine.execFarAtomicReply op s
  | .ramoInvocationArrival link => Sys2Proof.Machine.execRamoInvocationArrival link s
  | .ramoReply op => Sys2Proof.Machine.execRamoReply op s
  | .colourDraw op => Sys2Proof.Machine.execColourDraw op s
  | .tensorFiringStart tile ts => Sys2Proof.Machine.execTensorFiringStart tile ts s
  | .tensorFiringComplete tile ts => Sys2Proof.Machine.execTensorFiringComplete tile ts s
  | .ttagArrival op => Sys2Proof.Machine.execTtagArrival op s
  | .treadRead op => Sys2Proof.Machine.execTreadRead op s
  | .tstoreStart tile => Sys2Proof.Machine.execTstoreStart tile s
  | .tstoreComplete tile => Sys2Proof.Machine.execTstoreComplete tile s
  | .tacczEffect tile acc => Sys2Proof.Machine.execTacczEffect tile acc s
  | .twloadValid tile => Sys2Proof.Machine.execTwloadValid tile s
  | .systolicPassStart ctx slot grp => Sys2Proof.Machine.execSystolicPassStart ctx slot grp s
  | .systolicPassComplete ctx slot grp => Sys2Proof.Machine.execSystolicPassComplete ctx slot grp s
  | .tileFaultReport tile => Sys2Proof.Machine.execTileFaultReport tile s
  | .trapEntry seq => Sys2Proof.Machine.execTrapEntry seq s
  | .seqCompletionFault seq => Sys2Proof.Machine.execSeqCompletionFault seq s
  | .haltPoint ctx => Sys2Proof.Machine.execHaltPoint ctx s
  | .saveComplete ctx => Sys2Proof.Machine.execSaveComplete ctx s
  | .restorePulse ctx => Sys2Proof.Machine.execRestorePulse ctx s
  | .drainComplete ctx => Sys2Proof.Machine.execDrainComplete ctx s
  | .graphLoadComplete ctx slot => Sys2Proof.Machine.execGraphLoadComplete ctx slot s
  | .graphPlacement ctx slot => Sys2Proof.Machine.execGraphPlacement ctx slot s
  | .stagingComplete ctx slot => Sys2Proof.Machine.execStagingComplete ctx slot s
  | .launchRecordRead ctx => Sys2Proof.Machine.execLaunchRecordRead ctx s
  | .recordRun ctx id => Sys2Proof.Machine.execRecordRun ctx id s
  | .recordKick ctx id => Sys2Proof.Machine.execRecordKick ctx id s
  | .recordMode ctx id => Sys2Proof.Machine.execRecordMode ctx id s
  | .recordNote ctx id => Sys2Proof.Machine.execRecordNote ctx id s
  | .recordUnload ctx id => Sys2Proof.Machine.execRecordUnload ctx id s
  | .recordFinish ctx id => Sys2Proof.Machine.execRecordFinish ctx id s
  | .thermalSample die degrees => Sys2Proof.Machine.execThermalSample die degrees s
  | .allowanceUpdate die => Sys2Proof.Machine.execAllowanceUpdate die s
  | .migrationRequest die w0 w1 w2 w3 => Sys2Proof.Machine.execMigrationRequest die w0 w1 w2 w3 s
  | .migrationAccept die => Sys2Proof.Machine.execMigrationAccept die s
  | .migrationPassEnd die => Sys2Proof.Machine.execMigrationPassEnd die s
  | .migrationCommit die => Sys2Proof.Machine.execMigrationCommit die s
  | .walkComplete op => Sys2Proof.Machine.execWalkComplete op s
  | .testBankEnd die bank failed => Sys2Proof.Machine.execTestBankEnd die bank failed s
  | .readRetry site lasting => Sys2Proof.Machine.execReadRetry site lasting s
  | .configStoreError ctx slot reg lasting => Sys2Proof.Machine.execConfigStoreError ctx slot reg lasting s
  | .configReloadComplete ctx slot reg failed => Sys2Proof.Machine.execConfigReloadComplete ctx slot reg failed s
  | .snapOpenPoint ctx => Sys2Proof.Machine.execSnapOpenPoint ctx s
  | .sweeperVisit ctx => Sys2Proof.Machine.execSweeperVisit ctx s
  | .snapshotSealing ctx => Sys2Proof.Machine.execSnapshotSealing ctx s
  | .sealComplete ctx => Sys2Proof.Machine.execSealComplete ctx s
  | .snapshotFail ctx reason => Sys2Proof.Machine.execSnapshotFail ctx reason s
  | .failureSweepEnd ctx => Sys2Proof.Machine.execFailureSweepEnd ctx s
  | .copyBackPage ctx => Sys2Proof.Machine.execCopyBackPage ctx s
  | .frameSend link => Sys2Proof.Machine.execFrameSend link s
  | .frameDelivery link fseq flip body => Sys2Proof.Machine.execFrameDelivery link fseq flip body s
  | .frameResend link => Sys2Proof.Machine.execFrameResend link s
  | .frameHoldTimeout link => Sys2Proof.Machine.execFrameHoldTimeout link s
  | .boundaryFlitResend boundary fails => Sys2Proof.Machine.execBoundaryFlitResend boundary fails s
  | .linkTrainingDone link ok => Sys2Proof.Machine.execLinkTrainingDone link ok s
  | .linkEnable link => Sys2Proof.Machine.execLinkEnable link s
  | .carrierLoss link => Sys2Proof.Machine.execCarrierLoss link s
  | .rankLost rank => Sys2Proof.Machine.execRankLost rank s
  | .pcycAdopt link master => Sys2Proof.Machine.execPcycAdopt link master s
  | .linkRetrain link => Sys2Proof.Machine.execLinkRetrain link s
  | .linkReset link => Sys2Proof.Machine.execLinkReset link s
  | .ctxcreate va => Sys2Proof.Machine.execCtxcreate va s
  | .contextDestroy ctx => Sys2Proof.Machine.execContextDestroy ctx s
  | .hostResume value => Sys2Proof.Machine.execHostResume value s
  | .hostDoorbell ctx size value => Sys2Proof.Machine.execHostDoorbell ctx size value s
  | .causeFifoRead ctx => Sys2Proof.Machine.execCauseFifoRead ctx s
  | .packageEventRead => Sys2Proof.Machine.execPackageEventRead s
  | .errorLogRead die => Sys2Proof.Machine.execErrorLogRead die s
  | .bar2Read pa len => Sys2Proof.Machine.execBar2Read pa len s
  | .bar2Write pa bytes => Sys2Proof.Machine.execBar2Write pa bytes s
  | .dccall die value => Sys2Proof.Machine.execDccall die value s
  | .dccallEntry die => Sys2Proof.Machine.execDccallEntry die s
  | .pkgreset => Sys2Proof.Machine.execPkgreset s
  | .dcrestart die => Sys2Proof.Machine.execDcrestart die s
  | .registerWrite addr value => Sys2Proof.Machine.execRegisterWrite addr value s
  | .powerGood => Sys2Proof.Machine.execPowerGood s
  | .nearResultLate ctx slot reg => Sys2Proof.Machine.execNearResultLate ctx slot reg s
  | .testBankStart die bank => Sys2Proof.Machine.execTestBankStart die bank s
  | .pcieError value => Sys2Proof.Machine.execPcieError value s
  | .dramAccessPerformed op => Sys2Proof.Machine.execDramAccessPerformed op s
  | .boundaryFlitCrossing boundary errors => Sys2Proof.Machine.execBoundaryFlitCrossing boundary errors s

end Sys2Proof.Machine
end

