-- ==== Sys2Proof/Machine/Sources.lean ====
section
/-! DEFINITION. The scalar registers that an instruction of sequencer code reads: its interlock (R102). -/

namespace Sys2Proof

/-- Numbers of the scalar registers that an instruction reads as operands; none for a step, or for an instruction that stands in
timed lists only. -/
def Instr.scalarSources : Instr → List Nat
  | .beq d a _ => [d.toNat, a.toNat]
  | .bne d a _ => [d.toNat, a.toNat]
  | .blt d a _ => [d.toNat, a.toNat]
  | .bge d a _ => [d.toNat, a.toNat]
  | .bltu d a _ => [d.toNat, a.toNat]
  | .bgeu d a _ => [d.toNat, a.toNat]
  | .jr a => [a.toNat]
  | .jalr _ a => [a.toNat]
  | .loopr _ a _ => [a.toNat]
  | .add _ a b => [a.toNat, b.toNat]
  | .sub _ a b => [a.toNat, b.toNat]
  | .and _ a b => [a.toNat, b.toNat]
  | .or _ a b => [a.toNat, b.toNat]
  | .xor _ a b => [a.toNat, b.toNat]
  | .sll _ a b => [a.toNat, b.toNat]
  | .srl _ a b => [a.toNat, b.toNat]
  | .sra _ a b => [a.toNat, b.toNat]
  | .mul _ a b => [a.toNat, b.toNat]
  | .mulh _ a b => [a.toNat, b.toNat]
  | .mulhu _ a b => [a.toNat, b.toNat]
  | .min _ a b => [a.toNat, b.toNat]
  | .max _ a b => [a.toNat, b.toNat]
  | .minu _ a b => [a.toNat, b.toNat]
  | .maxu _ a b => [a.toNat, b.toNat]
  | .addi _ a _ => [a.toNat]
  | .andi _ a _ => [a.toNat]
  | .ori _ a _ => [a.toNat]
  | .xori _ a _ => [a.toNat]
  | .slli _ a _ => [a.toNat]
  | .srli _ a _ => [a.toNat]
  | .srai _ a _ => [a.toNat]
  | .muli _ a _ => [a.toNat]
  | .mini _ a _ => [a.toNat]
  | .maxi _ a _ => [a.toNat]
  | .div _ a b => [a.toNat, b.toNat]
  | .divu _ a b => [a.toNat, b.toNat]
  | .rem _ a b => [a.toNat, b.toNat]
  | .remu _ a b => [a.toNat, b.toNat]
  | .seq _ a b => [a.toNat, b.toNat]
  | .sne _ a b => [a.toNat, b.toNat]
  | .slt _ a b => [a.toNat, b.toNat]
  | .sge _ a b => [a.toNat, b.toNat]
  | .sltu _ a b => [a.toNat, b.toNat]
  | .sgeu _ a b => [a.toNat, b.toNat]
  | .seqi _ a _ => [a.toNat]
  | .snei _ a _ => [a.toNat]
  | .slti _ a _ => [a.toNat]
  | .sgei _ a _ => [a.toNat]
  | .sltui _ a _ => [a.toNat]
  | .sgeui _ a _ => [a.toNat]
  | .bfx _ a _ _ => [a.toNat]
  | .bfxu _ a _ _ => [a.toNat]
  | .bfi d a _ _ => [d.toNat, a.toNat]
  | .clz _ a => [a.toNat]
  | .ctz _ a => [a.toNat]
  | .popc _ a => [a.toNat]
  | .brev _ a => [a.toNat]
  | .bswap _ a => [a.toNat]
  | .lih d _ => [d.toNat]
  | .mov _ a => [a.toNat]
  | .lea _ a b _ => [a.toNat, b.toNat]
  | .ld _ a _ => [a.toNat]
  | .ldI8 _ a _ => [a.toNat]
  | .ldUi8 _ a _ => [a.toNat]
  | .ldI16 _ a _ => [a.toNat]
  | .ldUi16 _ a _ => [a.toNat]
  | .ldI32 _ a _ => [a.toNat]
  | .ldUi32 _ a _ => [a.toNat]
  | .st d a _ => [d.toNat, a.toNat]
  | .stI8 d a _ => [d.toNat, a.toNat]
  | .stI16 d a _ => [d.toNat, a.toNat]
  | .stI32 d a _ => [d.toNat, a.toNat]
  | .nlds _ a _ => [a.toNat]
  | .nsts d a b _ => [d.toNat, a.toNat, b.toNat]
  | .pld _ a b => [a.toNat, b.toNat]
  | .pst d a b _ => [d.toNat, a.toNat, b.toNat]
  | .pclr a b => [a.toNat, b.toNat]
  | .amoAdd _ a b _ _ => [a.toNat, b.toNat]
  | .amoMin _ a b _ _ => [a.toNat, b.toNat]
  | .amoMax _ a b _ _ => [a.toNat, b.toNat]
  | .amoAnd _ a b _ _ => [a.toNat, b.toNat]
  | .amoOr _ a b _ _ => [a.toNat, b.toNat]
  | .amoXor _ a b _ _ => [a.toNat, b.toNat]
  | .amoSwap _ a b _ _ => [a.toNat, b.toNat]
  | .amoCas _ a b c _ _ => [a.toNat, b.toNat, c.toNat]
  | .amoFadd _ a b _ _ => [a.toNat, b.toNat]
  | .amoMinu _ a b _ _ => [a.toNat, b.toNat]
  | .amoMaxu _ a b _ _ => [a.toNat, b.toNat]
  | .redAdd a b _ _ => [a.toNat, b.toNat]
  | .redMin a b _ _ => [a.toNat, b.toNat]
  | .redMax a b _ _ => [a.toNat, b.toNat]
  | .redAnd a b _ _ => [a.toNat, b.toNat]
  | .redOr a b _ _ => [a.toNat, b.toNat]
  | .redXor a b _ _ => [a.toNat, b.toNat]
  | .redFadd a b _ _ => [a.toNat, b.toNat]
  | .redMinu a b _ _ => [a.toNat, b.toNat]
  | .redMaxu a b _ _ => [a.toNat, b.toNat]
  | .ramoAdd _ a b _ => [a.toNat, b.toNat]
  | .ramoMin _ a b _ => [a.toNat, b.toNat]
  | .ramoMax _ a b _ => [a.toNat, b.toNat]
  | .ramoAnd _ a b _ => [a.toNat, b.toNat]
  | .ramoOr _ a b _ => [a.toNat, b.toNat]
  | .ramoXor _ a b _ => [a.toNat, b.toNat]
  | .ramoSwap _ a b _ => [a.toNat, b.toNat]
  | .ramoCas _ a b c _ => [a.toNat, b.toNat, c.toNat]
  | .ramoFadd _ a b _ => [a.toNat, b.toNat]
  | .ramoMinu _ a b _ => [a.toNat, b.toNat]
  | .ramoMaxu _ a b _ => [a.toNat, b.toNat]
  | .setmode a _ => [a.toNat]
  | .spawn _ a _ => [a.toNat]
  | .ckick a _ => [a.toNat]
  | .carm a _ => [a.toNat]
  | .gld _ a b => [a.toNat, b.toNat]
  | .gact a => [a.toNat]
  | .gdrain a => [a.toNat]
  | .gunld a => [a.toNat]
  | .gstat _ a => [a.toNat]
  | .mstat _ a => [a.toNat]
  | .gpatch d a _ => [d.toNat, a.toNat]
  | .mtsr a _ => [a.toNat]
  | .csave a => [a.toNat]
  | .cload a => [a.toNat]
  | .pginv a b _ => [a.toNat, b.toNat]
  | .pgstat _ a => [a.toNat]
  | .snapq _ a => [a.toNat]
  | .snapw a => [a.toNat]
  | .rollb a => [a.toNat]
  | .rkset a b => [a.toNat, b.toNat]
  | .rkget _ a => [a.toNat]
  | _ => []

end Sys2Proof
end

