-- ==== Sys2Proof/Machine/Issue.lean ====
section
/-! DEFINITION. Issue: the entries and beats of a region's cycle with the examination that precedes them (R24, R29, R30, R134, R361,
R499), the beats behind a HALT point (R367), and the instructions of a control unit (R21, R83, R102, R115). -/

namespace Sys2Proof.Machine

/-- Tasks that are done next, before what is left of the cycle. -/
def State.first (s : State) (ts : List Task) : State := { s with todo := ts ++ s.todo }

/-! ## The entries of a tile at `CYC` -/

/-- The region of a tile with its key. -/
def tileRegion (s : State) (t : Nat) : Nat × Region :=
  let k := ((s.tile t).region).getD 0
  (k, s.regionAt k)

/-- The placed issue of a tile's list at the region's `CYC` (R24, R126), with its stored entry. -/
def entryNow (s : State) (t : Nat) : Option (ListStore × Placement × Entry) :=
  let r := (tileRegion s t).2
  (runningList s t).bind fun l => ((placements (l.segment r.phase)).find? fun p => p.stamp = r.cyc).bind fun p =>
    (l.entry? r.phase p.entry).map fun e => (l, p, e)

/-- Does the entry issue: it is not one that `tret` with SKIP dropped (R359), nor of an actor that has completed its last period
(R251)? -/
def entryIssues (s : State) (t : Nat) (l : ListStore) (p : Placement) (e : Entry) : Bool :=
  !(tileRegion s t).2.dropped.contains (t, p.entry) && !actorDone s l e.owner

/-- The entry being executed. -/
def entryCur (s : State) (t : Nat) (l : ListStore) (p : Placement) (e : Entry) : Cur :=
  let k := tileRegion s t
  { unit := .tile t, ctx := l.ctx, slot := l.slot, actor := e.owner, seg := k.2.phase, entry := p.entry, stamp := p.stamp
    beat := 0, count := mget 0 (s.tile t).counts p.entry, cap := none, order := (s.tile t).order }

/-- Loop counts of a tile set (R127). -/
def setLoops (t : Nat) (vs : List (Nat × Nat)) (s : State) : State :=
  s.setTile t { s.tile t with lc := vs.foldl (fun m v => mput 0 m v.1 v.2) (s.tile t).lc }

/-- What an issue counts: its number (R63), the resumable position (R26), and the beats still to come (R135). -/
def afterEntry (t : Nat) (l : ListStore) (p : Placement) (e : Entry) (i : Instr) (cur : Cur) (s : State) : State :=
  let x := s.tile t
  let n := beatsOfWord e.word
  let s0 : State := { s with cur := cur }
  let cap := grab s0 (aOf e.word) (bOf e.word) (cOf e.word) (pOf e.word).toNat
  let later := (placements (l.segment cur.seg)).filter fun q => p.stamp < q.stamp
  let x := { x with
    counts := mset x.counts p.entry (cur.count + 1), order := cur.order + 1, issuing := cur.order
    pos := ((later.head?).map Placement.entry).getD (l.segment cur.seg).length
    between := if 1 < n then x.between ++ [{ instr := i, cur := { cur with beat := 1, cap := some cap } }] else x.between }
  s.setTile t x

/-- The outcome of a step with its next state changed. -/
def onNext (f : State → State) : StepResult → StepResult
  | .next s => .next (f s)
  | .fault x => .fault x
  | .refused x => .refused x

/-- The results that an entry has set in a tile since `old`. -/
def newResults (t : Nat) (old s : State) : List Pending := (s.tile t).pend.filter fun p => !(old.tile t).pend.contains p

/-- What an entry has set since `old` is late by the cycles of a repeated read (R374): its results, its accesses and its tokens. -/
def lateBy (t : Nat) (old s : State) : State :=
  let x := s.tile t
  let d := x.slow
  let new := newResults t old s
  let late := fun p : Pending => if new.contains p && p.op.isNone then { p with ready := s.pcyc + p.left + d } else p
  let before := fun key => ((old.arc? key).map fun a => a.flights.length).getD 0
  let lateFlights := fun (key : Nat) (fs : List Flight) => fs.take (before key) ++ (fs.drop (before key)).map fun f => { f with due := f.due + d }
  let agenda := s.agenda.take old.agenda.length ++ (s.agenda.drop old.agenda.length).map fun e => (e.1 + d, e.2)
  { s.setTile t { x with slow := 0, pend := x.pend.map late } with
    agenda := agenda, arcs := s.arcs.map fun e => (e.1, { e.2 with flights := lateFlights e.1 e.2.flights }) }

/-- The beats of the entry of a tile that is between beats in `x`, and what its first beat has read. -/
def beatsLeft (x : Tile) (entry : Nat) : Nat × Option Capture :=
  match x.between.find? fun b => b.cur.entry = entry with
  | none => (1, none)
  | some b => ((((x.active).bind fun l => l.entry? b.cur.seg b.cur.entry).map fun w => beatsOfWord w.word).getD 1, b.cur.cap)

/-- Beats `b` to `b` + `m` - 1 of an entry at once: the results of each are due as if it issued in its own cycle. -/
noncomputable def execBeats (t : Nat) (i : Instr) (cur : Cur) (cap : Option Capture) : Nat → Nat → State → StepResult
  | 0, _, s => .next s
  | m + 1, b, s =>
    let before : State := { s with cur := { cur with beat := b, cap := if b = 0 then none else cap } }
    match exec i before with
    | .next s' =>
      let x := s'.tile t
      let new := newResults t before s'
      execBeats t i cur cap m (b + 1) (s'.setTile t { x with pend := x.pend.map fun p => if new.contains p then { p with left := p.left + b } else p })
    | r => r

/-- The operation of an entry, all its beats, stops at what it reads with a lasting error (R375): it is refused once its retry has failed,
and nothing of it happens but that its results are due. `s` is the state at its issue, `done` that behind it. -/
def stopEntry (t : Nat) (i : Instr) (bad : Nat × Nat) (s done : State) : State :=
  let id := s.opCount
  let x := s.tile t
  if (tileRegion done t).2.waiting.isSome then done
  else
    let due := (newResults t s done).map fun p => { p with op := some id }
    let o : Op := { kind := .entry i bad.1 bad.2 x, cur := s.cur, ctx := curCtx s, issued := s.pcyc, left := [0] }
    let y := { x with badReg := none, pend := due.foldl (fun l p => putPending p l) x.pend
                      between := x.between.filter fun b => b.cur.entry != s.cur.entry }
    ((s.setTile t y).newOp o).after 8 (.readRetry (.access id) 1)

/-- The instruction of an entry is executed, with what a failing read does to it (R374, R375). -/
noncomputable def execEntry (t : Nat) (i : Instr) (s : State) : StepResult :=
  match (s.tile t).badReg with
  | some bad =>
    let n := beatsLeft (s.tile t) s.cur.entry
    onNext (stopEntry t i bad s) (execBeats t i s.cur n.2 n.1 0 s)
  | none => if (s.tile t).slow = 0 then exec i s else onNext (lateBy t s) (exec i s)

/-- The operation of an entry, all its beats, is executed again with the registers of its first issue (R352): its results are due when they
were, and late where they cannot be there. One that a window stops is tried again. -/
noncomputable def reissueEntry (k t id : Nat) (o : Op) (i : Instr) (regs : Tile) (s : State) : State :=
  let x := s.tile t
  let due := x.pend.filter fun p => p.op == some id
  let before := s.setTile t { x with s := regs.s, v := regs.v, p := regs.p, q := regs.q, issuing := o.cur.order, pend := x.pend.filter fun p => p.op != some id }
  let n := beatsLeft regs o.cur.entry
  match execBeats t i o.cur n.2 n.1 0 before with
  | .next s' =>
    let r := s'.regionAt k
    if r.waiting.isSome then s.setRegion k { s.regionAt k with reissue := (s.regionAt k).reissue ++ [id] }
    else
      let y := s'.tile t
      let new := newResults t before s'
      let old := y.pend.filter fun p => !new.contains p
      let again := (new.zip due).map fun e => { e.1 with left := e.2.left, ready := if e.1.op.isNone then s.pcyc + e.2.left else 0 }
      (s'.setTile t { y with s := x.s, v := x.v, p := x.p, q := x.q, pend := again.foldl (fun l p => putPending p l) old }).dropOp id
  | _ => s

/-- A refused access of a region's tile is reissued. -/
noncomputable def reissueAny (k id : Nat) (s : State) : State :=
  match opAt s id with
  | none => s
  | some o =>
    match o.kind, o.cur.unit with
    | .entry i _ _ regs, .tile t => reissueEntry k t id o i regs s
    | _, _ => reissue id s

/-- The refused accesses of a region are reissued (R352). -/
noncomputable def reissueAll (k : Nat) (s : State) : State :=
  let r := s.regionAt k
  r.reissue.foldl (fun s id => reissueAny k id s) (s.setRegion k { r with reissue := [] })

/-- The entry of a tile at `CYC` issues. What it captures for its later beats is what it reads in this one. -/
noncomputable def issueEntry (t : Nat) (s : State) : StepResult :=
  match entryNow s t with
  | none => .next s
  | some (l, p, e) =>
    let s := setLoops t p.before s
    let cur := entryCur s t l p e
    if !entryIssues s t l p e then .next (setLoops t p.after s)
    else
      match decode .list e.word with
      | .error _ => .fault .notWellFormed
      | .ok i => onNext (setLoops t p.after) (execEntry t i (afterEntry t l p e i cur { s with cur := cur }))

/-- The stored entry of an entry between beats. -/
def betweenEntry (s : State) (t : Nat) (b : Between) : Option Entry := ((s.tile t).active).bind fun l => l.entry? b.cur.seg b.cur.entry

/-- A beat is behind: the next one, or none. -/
def nextBeat (t e : Nat) (s : State) : State :=
  let x := s.tile t
  s.setTile t { x with between := x.between.filterMap fun b =>
    let n := ((betweenEntry s t b).map fun w => beatsOfWord w.word).getD 1
    let more : Between := { b with cur := { b.cur with beat := b.cur.beat + 1 } }
    if b.cur.entry ≠ e then some b else if b.cur.beat + 1 < n then some more else none }

/-- A beat of an entry between beats. -/
noncomputable def issueBeat (t e : Nat) (s : State) : StepResult :=
  match (s.tile t).between.find? fun b => b.cur.entry = e with
  | none => .next s
  | some b =>
    let s := s.setTile t { s.tile t with issuing := b.cur.order }
    exec b.instr (nextBeat t e { s with cur := b.cur })

/-! ## The works of a region's cycle (R134, R499) -/

/-- A work: an entry or a beat. -/
noncomputable def runWork (w : Task) (s : State) : StepResult :=
  match w with
  | .entry t => issueEntry t s
  | .beat t e => issueBeat t e s
  | _ => .next s

/-- The works of a tile in a cycle `cyc` of its region: the beats due, and the entry where `entries` says so, in the order of the
issue units. -/
def tileWorks (s : State) (t cyc : Nat) (entries : Bool) : List Task :=
  let x := s.tile t
  let bs := x.between.filterMap fun b =>
    if b.cur.stamp + b.cur.beat = cyc then (betweenEntry s t b).map fun e => (issueUnit e.word, Task.beat t b.cur.entry) else none
  let es := if entries then ((entryNow s t).map fun e => (issueUnit e.2.2.word, Task.entry t)).toList else []
  (List.range 6).flatMap fun u => ((bs ++ es).filter fun w => w.1 = u).map Prod.snd

/-- The works of a region at its `CYC`, tile by tile in increasing address. -/
def regionWorks (s : State) (r : Region) : List Task := (sortTiles r.tiles).flatMap fun t => tileWorks s t r.cyc true
where
  /-- Tile positions in increasing order. -/
  sortTiles (l : List Nat) : List Nat := l.foldl insertTile []
  /-- A position in its place. -/
  insertTile : List Nat → Nat → List Nat
    | [], t => [t]
    | u :: l, t => if t < u then t :: u :: l else u :: insertTile l t

/-! ## The examination of a cycle (R29, R175, R361) -/

/-- What an outcome leaves of a state: a stop leaves it as it was. -/
def Outcome.leaves (s : State) : StepResult → State
  | .next t => t
  | .fault _ => s
  | .refused _ => s

/-- The state with the results of this cycle written, in which the works are tried. -/
def examined (k : Nat) (s : State) : State :=
  let r := s.regionAt k
  let s := s.setRegion k { r with waiting := none }
  r.tiles.foldl (fun s t =>
    let takes := duePatterns (dueResults s t)
    takes.foldl (fun s p => Outcome.leaves s (execGeneratorTakePattern p.1 p.2 s)) (writeDue t s)) s

/-- Reports that the tiles of a region hold. -/
def reportsOf (s : State) (r : Region) : List (Nat × Report) := r.tiles.flatMap fun t => (s.tile t).reports.map fun x => (t, x)

/-- Each work tried in turn: the works that raise a report, with the reports, and the state behind them all. -/
noncomputable def tryWorks (r : Region) (ws : List Task) (s : State) : List (Task × List (Nat × Report)) × State :=
  ws.foldl (fun a w =>
    let t := Outcome.leaves a.2 (runWork w a.2)
    let new := (reportsOf t r).filter fun x => !(reportsOf a.2 r).contains x && x.2.op.isNone
    (if new.isEmpty then a.1 else a.1 ++ [(w, new)], t)) ([], s)

/-- The instruction of a work alone, without the count of its issue: what a second PUNCT marker leaves of a beat (R223). -/
noncomputable def bareWork (w : Task) (s : State) : State :=
  match w with
  | .entry t =>
    match entryNow s t with
    | none => s
    | some (l, p, e) =>
      match decode .list e.word with
      | .error _ => s
      | .ok i => let s' : State := { s with cur := entryCur s t l p e }
                 Outcome.leaves s' (exec i s')
  | .beat t e =>
    match (s.tile t).between.find? fun b => b.cur.entry = e with
    | none => s
    | some b => let s' : State := { s with cur := b.cur }
                Outcome.leaves s' (exec b.instr s')
  | _ => s

/-- The reports of a cycle whose issue checks fail (R361, step 7): no entry issues. A PUNCT with WHY 1 has removed its markers. -/
noncomputable def takeReports (bad : List (Task × List (Nat × Report))) (s : State) : State :=
  bad.foldl (fun s b =>
    if b.2.any fun x => x.2.entry.isNone then bareWork b.1 s else b.2.foldl (fun s x => tileReport x.1 x.2 s) s) s

/-- A cycle in which a region does not advance: RSTATE `st`, what it waits for, its watchdog count (R208), and STALL when the
count passes its limit. While it waits for an engine whose report is not released, the cycle counts as RSTATE 3 (R389). -/
def holdRegion (k st : Nat) (w : Waiting) (pre : List Task) (s : State) : State :=
  let r := s.regionAt k
  let n := if engineHeld s k r then 0 else r.wcnt + 1
  let s := s.setRegion k { r with rstate := st, waiting := some w, wcnt := n }
  s.first (pre ++ if 256 * r.wdog + 1 ≤ n then [.event (.stall (k / 2048 / 256) (k / 2048 % 256) (k % 2048))] else [])

/-- A cycle of a region in its phase (R361, steps 6 and 7): it freezes, or its checks fail, or it advances. Refused accesses are
reissued in the first cycle that no window stops (R352). -/
noncomputable def phaseCycle (k : Nat) (s : State) : StepResult :=
  let r := s.regionAt k
  let c := k / 2048 / 256
  let slot := k / 2048 % 256
  let works := regionWorks s r
  let t := tryWorks r works (examined k s)
  match (t.2.regionAt k).waiting with
  | some w => .next (holdRegion k 2 w (if (lateIn s r).isSome then [.event (.nearResultLate c slot (k % 2048))] else []) s)
  | none =>
    let s := reissueAll k s
    match lateIn s r with
    | some w => .next (holdRegion k 2 w [.event (.nearResultLate c slot (k % 2048))] s)
    | none =>
      if !t.1.isEmpty then .next (takeReports t.1 s)
      else
        let s := s.setRegion k { s.regionAt k with waiting := none, wcnt := 0 }
        let resume := if r.rstate = 2 then [Task.event (.regionResume c slot (k % 2048))] else []
        let due := r.tiles.filter fun t => !(dueResults s t).isEmpty
        .next (s.first (resume ++ due.map (fun t => Task.event (.resultWriteback t)) ++ works ++ [.advance k]))

/-- DELAY where a declared delay is too small (R435, R441); the region does not start. -/
def delayCheck (k : Nat) (s : State) : State :=
  let s' : State := { s with freeCount := s.freeCount + 1 }
  match shortDelay s k with
  | some d => regionReport k Code.delay (delayInfo d.2.1 d.2.2 d.1) s'
  | none => s'.setRegion k { s'.regionAt k with checked := true }

/-- Results of a quiescent region become due with the package's cycles: R99 counts advancing cycles, and a region whose lists have all ended
(RSTATE 6) has none; the spec names no other count (DESIGN CHOICE, log 41). -/
def ageResults (r : Region) (s : State) : State :=
  let due := r.tiles.filter fun t => !(dueResults s t).isEmpty
  let s := r.tiles.foldl (fun s t => if (s.tile t).pend.isEmpty then s else
    s.setTile t { s.tile t with pend := (s.tile t).pend.map fun p => { p with left := p.left - 1 } }) (due.foldl (fun s t => writeDue t s) s)
  s

/-! ## Beats behind a HALT point (R367) -/

/-- A tile as it would stand `v` advancing cycles later: the results due by then are applied, cycle by cycle, those of one cycle in issue
order (R276). -/
def aheadTile (v : Nat) (s : State) (t : Nat) : State :=
  ((List.range (v + 1)).flatMap fun i => (s.tile t).pend.filter fun p => p.left = i && p.here s).foldl (fun s p =>
    let res := match p.op with
      | none => p.res
      | some id => p.res.filled (((opAt s id).map Op.got).getD 0)
    match res with
    | .colour a c => s.setActor a { s.actor a with colour := c }
    | res => s.setTile t (applyResult (s.tile t) res)) s

/-- One beat is performed early: its results are due when they would be, and registers and colours stay; one that finds its window
empty or full stays pending. -/
noncomputable def earlyBeat (k v : Nat) (t e : Nat) (s : State) : State :=
  let old := s.tile t
  let s' := Outcome.leaves s (issueBeat t e (aheadTile v s t))
  if (s'.regionAt k).waiting.isSome then s
  else
    let x := s'.tile t
    let pend := x.pend.map fun p => if old.pend.contains p then p else { p with left := p.left + v }
    let s' := s'.setTile t { x with s := old.s, v := old.v, p := old.p, q := old.q, moderr := old.moderr, pend := pend }
    { s' with actors := s.actors }

/-- The beats of a region that are due `v` cycles behind the HALT point. -/
noncomputable def earlyBeats (k v : Nat) (s : State) : State :=
  let r := s.regionAt k
  (r.tiles.flatMap fun t => tileWorks s t (r.cyc + v) false).foldl (fun s w => match w with
    | .beat t e => earlyBeat k v t e s
    | _ => s) s

/-! ## A region's chance to act (R361) -/

/-- A region at a cycle boundary. -/
noncomputable def regionTask (k : Nat) (s : State) : StepResult :=
  let c := k / 2048 / 256
  let slot := k / 2048 % 256
  let s := if graphRuns s c slot then forwardSnaps c slot s else s
  let r := s.regionAt k
  if !graphRuns s c slot then
    match (s.ctx c).haltAt with
    | some h => .next (if h ≤ s.pcyc && s.pcyc < h + 3 && r.inPhase then earlyBeats k (s.pcyc - h) s else s)
    | none => .next s
  else if r.rstate = 3 || r.rstate = 4 then .next (s.setRegion k { r with wcnt := 0 })
  else if r.rstate = 6 then .next (ageResults r (reissueAll k s))
  else if r.rstate = 7 then .next s
  else if !r.checked then .next ((delayCheck k s).first (if (shortDelay s k).isNone then [.region k] else []))
  else if r.inPhase then
    if r.phases.getD r.phase 0 ≤ r.cyc then .next (s.first [.event (.phaseEnd c slot (k % 2048)), .region k]) else phaseCycle k s
  else if r.tiles.all fun t => (runningList s t).isNone then .next (restRegion k s)
  else if r.stretchLeft ≠ 0 then .next (s.setRegion k { r with rstate := 5, wcnt := 0, stretchLeft := r.stretchLeft - 1 })
  else
    match phaseShort s r with
    | none => .next ((s.setRegion k { r with rstate := 1 }).first [.event (.phaseStart c slot (k % 2048)), .region k])
    | some w => .next (holdRegion k 1 w [] (askChunks r s))

/-! ## Control units (R21, R83, R85, R102, R115) -/

/-- Has the issue delay of a word passed (R21)? -/
def delayPassed (s : State) (q : Seq) (w : Word) : Bool := stampOf w = 0 || q.last + (stampOf w).toNat ≤ s.pcyc

/-- May an instruction issue now: its issue delay has passed, and every register that it reads holds its final value (R102)? -/
def canIssue (s : State) (q : Seq) (w : Word) (i : Instr) : Bool :=
  delayPassed s q w &&
    i.scalarSources.all fun r => r = 0 || ((q.waits.all fun x => x.1 ≠ r) && q.busy.all fun x => x.1 ≠ r || x.2 ≤ s.pcyc)

/-- The instruction that a control unit executes. -/
def seqCur (s : State) (n : Nat) (w : Word) : Cur := { unit := .seq n, ctx := (s.seq n).ctxid, stamp := (stampOf w).toNat }

/-- Does a word name a control port that its row cannot use (R219)? That is check 5 of R83, and stands before the checks 6 to 8. -/
def badControlPort (s : State) (w : Word) : Bool :=
  let sub := (subOf w).toNat
  if (opOf w).toNat = 0xC2 then
    if sub = 0 then !canSignal (curLink s (dOf w).toNat) else (sub = 1 || sub = 2) && !canWait (curLink s (aOf w).toNat)
  else (opOf w).toNat = 0xC4 && sub = 0 && !canSignal (curLink s (dOf w).toNat)

/-- The number of the check that a word of sequencer code fails first (R83). -/
def failedCheck (s : State) (w : Word) (check : Nat) : Nat := if 5 < check && badControlPort s w then 5 else check

/-- A word in sequencer code issues once it may (R21, R102): ILLEGAL with the check that it fails (R85), or its instruction. -/
noncomputable def issueWord (n : Nat) (w : Word) (s : State) : StepResult :=
  let s : State := { s with cur := seqCur s n w }
  match decode .seq w with
  | .error d =>
    if delayPassed s (s.seq n) w then .next (ownFault n Code.illegal (BitVec.ofNat 64 (failedCheck s w d.check)) s) else .next s
  | .ok i => if canIssue s (s.seq n) w i then exec i (s.updSeq n fun q => { q with word := w }) else .next s

/-- The instruction at the pc of a unit is fetched, which may wait for a walk (R115), and issues. -/
noncomputable def fetchAndIssue (n : Nat) (s : State) : StepResult :=
  let s : State := { s with cur := seqCur s n 0 }
  seqAccess n (s.seq n).pc.toNat .fetch s fun pa _ s =>
    match underTest s pa with
    | some d => .next (holdRequest d (.seq n) s)
    | none => issueWord n (BitVec.ofNat 64 (readLE s.mem pa 8)) s

/-- The instruction of a unit that waits in it is tried again. -/
noncomputable def tryAgain (n : Nat) (s : State) : StepResult :=
  let w := (s.seq n).word
  match decode .seq w with
  | .error _ => .fault .notWellFormed
  | .ok i => exec i { s with cur := seqCur s n w }

/-- Does a control unit work now? -/
def seqWorks (s : State) (n : Nat) : Bool :=
  !(s.die (dieOfSeq n)).clockStopped && !(isDieCtl n && (s.die (n - 384)).stopped) && (!isQuadSeq n || ctxRuns s (s.seq n).ctxid)

/-- A control unit's chance to act. -/
noncomputable def seqTask (n : Nat) (s : State) : StepResult :=
  let q := s.seq n
  if !seqWorks s n then .next s
  else if atBoundary s n && (!q.refused.isEmpty || !q.queue.isEmpty) then .next (s.first [.event (.trapEntry n)])
  else
    match q.run with
    | .off => .next s
    | .stopped => .next s
    | .forwarded _ _ => .next s
    | .xlat _ => .next s
    | .idle => .next s
    | .cwait _ => .next s
    | .run => if q.ready ≤ s.pcyc then fetchAndIssue n s else .next s
    | .fence scope =>
      if fenceHolds s n scope || s.pcyc < q.ready then .next s else fetchAndIssue n (s.updSeq n fun q => { q with run := .run })
    | _ => if q.ready ≤ s.pcyc then tryAgain n s else .next s

end Sys2Proof.Machine
end

