-- ==== Sys2Proof/Machine/Peers.lean ====
section
/-! DEFINITION. What the other packages of a context ask of this one (R437): operations on a graph with groups on several ranks (R478), saves
and restores (R366, R370), domain snapshots and rollbacks (R421, R427). -/

namespace Sys2Proof.Machine

/-- `gld` on another rank takes the slot of its handle here too, where the context exists and the slot is free (R259, R478); whether it does is
the answer that goes back. -/
def peerLoad (c rank handle va : Nat) (s : State) : State :=
  let s := sendItems 0 c rank 1 s
  let slot := handle % 256
  let use := handle / 256 % 256
  if (s.ctx c).state == .free || use = 0 || (s.graph? c slot).isSome then s else takeSlot c slot use va s

/-- An operation on a graph acts here in the states in which R245 gives it a row. -/
def onPeerGraph (c slot : Nat) (ok : GraphState → Bool) (f : State → State) (s : State) : State :=
  if (s.graph? c slot).isSome && ok (graphAt s c slot).state then f s else s

/-- A cycle that a peer names, or the next where it is past. -/
def laterCycle (s : State) (h : Nat) : Nat := max h (s.pcyc + 1)

/-- The end of an access of the part for a request: where a page is being committed, the request `i` waits (R387). -/
def endRequest (c : Nat) (i : Input) (s : State) : PartEnd Unit → State
  | .ok _ s' => s'
  | .fault s' => loseCtx c s'
  | .hold x va => { copyFirst x va s with inputs := i :: s.inputs }

/-- The descriptor of a context's cellar for a request, as an instruction reads it (R402). -/
def peerDescriptor (c : Nat) (i : Input) (s : State) (k : Option Nat → State → State) : State :=
  match partPa 0 c (s.ctx c).saveBase .read s with
  | .ok pa s => k (some (readLE s.mem pa 64)) s
  | .fault s => k none s
  | .hold x va => { copyFirst x va s with inputs := i :: s.inputs }

/-- The part of a `pginv` or `pgfence` of sequencer `n` of a rank here: it waits for accesses, then it is answered (R399, R400). -/
def waitHere (c rank n : Nat) (ids : List Nat) (s : State) : State :=
  if ids.isEmpty then sendItems 0 c rank 1 s else { s with inputs := s.inputs ++ [.peer c (.pgWait rank n ids)] }

/-- A request of another package for a context. One that this package's part of the context does not take has no effect here. -/
def peerRequest (c : Nat) (r : PeerRequest) (s : State) : State :=
  let i := Input.peer c r
  match r with
  | .load rank handle va => peerLoad c rank handle va s
  | .refuse slot rank => onPeerGraph c slot (· == .loading) (updGraph c slot fun g => { g with peersRefuse := rank :: g.peersRefuse }) s
  | .took slot rank => onPeerGraph c slot (· == .loading) (updGraph c slot fun g => { g with peersTook := rank :: g.peersTook.filter (· != rank) }) s
  | .activate slot => onPeerGraph c slot (fun g => g == .loaded || g == .idle) (fun s => activate c slot 0 false s.pcyc none 0 s) s
  | .drain slot => onPeerGraph c slot (fun g => g == .running || g == .changing) (startDrain c slot) s
  | .unload slot => onPeerGraph c slot (fun _ => true) (unload c slot) s
  | .mode slot m =>
    if ((graphAt s c slot).image.mode? m).isNone then s else onPeerGraph c slot GraphState.takesMode (requestMode c slot m) s
  | .save drain h => if takesSave (s.ctx c).state drain then endRequest c i s (beginSave c drain (laterCycle s h) s) else s
  | .restore => if (s.ctx c).state == .saved then beginRestore c s else s
  | .snap ident h => peerDescriptor c i s fun w s =>
      if ident < 65536 && snapRefusal s c ident 5 w = 0 then requestSnap c ident true w (laterCycle s h - s.pcyc) s else s
  | .rollBack ident h => peerDescriptor c i s fun w s =>
      if rollbRefusal (adoptStored c w s) 396 c ident w = 0 then beginRollback c ident (laterCycle s h) w (adoptStored c w s) else s
  | .pginv rank n lo hi =>
    let ids := underRange s 0 5 c lo hi
    waitHere c rank n ids (tlbDrop (fun _ => true) c lo hi s)
  | .pgfence rank n => waitHere c rank n (walksOn s (fun _ => true) c) s
  | .pgWait rank n ids => if anyOpen s ids then { s with inputs := s.inputs ++ [i] } else waitHere c rank n [] s
  | .pgDone rank n => s.setCtx c { s.ctx c with awaited := (s.ctx c).awaited.filter (· != (n, rank)) }
  | .cellarWrite pa bytes => markDirty pa bytes.length { s with mem := writeBytes s.mem pa bytes }

/-- A rollback that another package began ends here once the context has stopped; one of this package ends at its `rollb` (R427). -/
def endPeerRollback (c : Nat) (s : State) : State :=
  if (s.ctx c).state == .rolling && !(s.seqs.any fun e => e.2.run == .rollb c) then
    match rollsTo s c with
    | none => s
    | some p =>
      match readRecords c p s with
      | .ok _ s => rollContext c p s
      | .hold x va => copyFirst x va s
      | .fault s => loseCtx c s
  else s

end Sys2Proof.Machine
end

