-- ==== Sys2Proof/Machine/Sched.lean ====
section
/-! DEFINITION. The order of work within a cycle (log 3): what each unit that acts on its own does in a cycle, the tasks of a cycle,
and the end of a cycle. -/

namespace Sys2Proof.Machine

/-! ## Memory actors and copy templates (R188 to R193, R184 to R187, R252) -/

/-- A memory actor in a cycle: markers and tokens that are due; every request whose cycle has come (R189), the index token that a
further one needs first; one row and one token of a sink. -/
def memActorTask (c g m : Nat) (s : State) : StepResult :=
  if !graphRuns s c g then .next s
  else
    let s := settleEngine c g m (engineMarkers c g m s)
    let again := Task.memActor c g m
    if wantsIndex s c g m then .next (s.first [.event (.gatherIndexTake c g m), again])
    else if wantsRequest s c g m then .next (s.first [.event (.sourceRequest c g m), again])
    else
      let s := if wantsRow s c g m then acceptRow c g m s else s
      let quiet := engineQuiet s c g m && !(memAt s c g m).quiescent
      .next (s.first
        ((if quiet then [.event (.memoryActorQuiescent c g m)] else []) ++ if wantsSink s c g m then [.event (.sinkWrite c g m)] else []))

/-- A copy template in a cycle: markers, the words that land, and the next firing. -/
def copyTask (c g t : Nat) (s : State) : StepResult :=
  if !graphRuns s c g then .next (if ctxMoves s c then landInHand c g t s else s)
  else
    let s := copyProgress c g t (copyMarkers c g t s)
    .next (s.first (if wantsFiring s c g t then [.event (.copyFiring c g t)] else []))

/-! ## Tensor units (R325 to R335) -/

/-- `tstat` reads in the cycle after its issue (R335). -/
def answerStats (t : Nat) (s : State) : State :=
  s.ops.foldl (fun s e =>
    match e.2.kind with
    | .tensorStat slot n =>
      if e.2.cur.unit == .tile t && e.2.issued < s.pcyc && !e.2.served then
        answer e.1 e.2 (wordVec (if slot then slotStatus s t n else accStatus ((tensorAt s t).acc n))) (s.pcyc + 1) s
      else s
    | _ => s) s

/-- The rows that `tread` instructions of a tile may read now. -/
def treadEvents (s : State) (t : Nat) : List Task :=
  s.ops.filterMap fun e =>
    match e.2.kind with
    | .tensorRead _ _ => if e.2.cur.unit == .tile t && e.2.issued < s.pcyc && !e.2.served && !e.2.refused then some (.event (.treadRead e.1)) else none
    | _ => none

/-- What a `tstore` that has started writes in this cycle. -/
def storeNow (t : Nat) (s : State) : State :=
  let u := tensorAt s t
  match u.queue with
  | x :: _ =>
    match x.started with
    | some c => if c < s.pcyc then storeSpan (quadOfPos t) x (u.acc x.acc) (s.pcyc - c) s else s
    | none => s
  | [] => s

/-- Is a task what a started `tstore` writes? -/
def Task.isStore : Task → Bool
  | .store _ => true
  | _ => false

/-- A started `tstore` writes behind everything else of a cycle: a bank access that reaches a word in the same cycle takes effect first
(R329). -/
def storeTask (t : Nat) (s : State) : State :=
  if s.todo.all Task.isStore then storeNow t s else { s with todo := s.todo ++ [.store t] }

/-- The lowest slot of a tile that can fire (R327). -/
def firingSlot (s : State) (t : Nat) : Option Nat := (List.range 8).find? fun ts => canFire s t ts

/-- Firings and `twload` instructions of a tile read some of their words in each cycle (R329, R343). -/
def readOperands (t : Nat) (s : State) : State :=
  let u := tensorAt s t
  let q := quadOfPos t
  let s := u.firings.zipIdx.foldl (fun s e =>
    let keys := e.1.keys q
    let v := tensorAt s t
    { setTensor t { v with firings := v.firings.set e.2 { e.1 with got := readSome s.near s.freeCount keys e.1.got } } s with
      freeCount := s.freeCount + keys.length }) s
  (u.loading.zipIdx.filter fun e => !e.1.complete).foldl (fun s e =>
    let keys := e.1.keys q
    let v := tensorAt s t
    { setTensor t { v with loading := v.loading.set e.2 { e.1 with got := readSome s.near s.freeCount keys e.1.got } } s with
      freeCount := s.freeCount + keys.length }) s

/-- Does the tensor unit of a tile start new work: not behind a HALT point (R366, R368)? -/
def tensorRuns (s : State) (t : Nat) : Bool :=
  match (s.tile t).region with
  | some k => ctxRuns s (k / 2048 / 256)
  | none => false

/-- A tensor unit in a cycle: settings, reads, accumulators that empty, a `tstore` that starts, and then the firing rule, which sees
what took effect in this cycle (R325). -/
def tensorTask (t : Nat) (s : State) : StepResult :=
  let s := readOperands t (answerStats t (setTensor t (tensorAt s t).settle s))
  .next (s.first (treadEvents s t ++
    ((tensorAt s t).zeroing.filter fun z => canClear s t z.1 z.2).map (fun z => Task.event (.tacczEffect t z.1)) ++
    (if tensorRuns s t && canStore s t then [.event (.tstoreStart t)] else []) ++ [.fire t]))

/-- The firing rule of a tile (R327): the lowest slot that can fire does. -/
def fireTask (t : Nat) (s : State) : StepResult :=
  .next (match firingSlot s t with
    | some ts => if tensorRuns s t then s.first [.event (.tensorFiringStart t ts)] else s
    | none => s)

/-- Has a tile work for its tensor unit? -/
def tensorBusy (s : State) (e : Nat × Tile) : Bool :=
  let u := e.2.tensor
  !u.settings.isEmpty || !u.queue.isEmpty || !u.zeroing.isEmpty || !u.firings.isEmpty || !u.loading.isEmpty || (u.slots.any fun x => x.2.state == .armed) ||
    s.ops.any fun o => o.2.cur.unit == .tile e.1 && !o.2.served && match o.2.kind with
      | .tensorRead _ _ => true
      | .tensorStat _ _ => true
      | _ => false

/-! ## Graphs (R245, R250 to R253, R408, R420) -/

/-- Lists whose period ended in an earlier cycle forward their MODE or DRAIN markers (R251). -/
def forwardStops (c slot : Nat) (s : State) : State :=
  let g := graphAt s c slot
  let due := g.forwarding.filter fun f => f.2 < s.pcyc
  let s := due.foldl (fun s f => sendMarkers c (stopMarker s c slot) (outputTags s (g.placed.getD f.1 0) none) s) s
  updGraph c slot (fun g => { g with forwarding := g.forwarding.filter fun f => !due.contains f }) s

/-- Arcs without a producer whose request has come get their marker (R250). -/
def markSpawnArcs (c slot : Nat) (s : State) : State :=
  let g := graphAt s c slot
  let due := g.points.filter fun p => p / 4096 = 2 && spawnPointReady s c slot (p % 4096)
  let s := if due.isEmpty then s else markInjected c slot s
  let s := sendMarkers c (stopMarker s c slot) (due.map fun p => g.tags.getD (p % 4096) 0) s
  updGraph c slot (fun g => { g with points := g.points.filter fun p => !due.contains p }) s

/-- Has a tile nothing left that keeps its list from being QUIESCENT: results (R99), tensor work (R338)? -/
def tileIdle (s : State) (t : Nat) : Bool :=
  let x := s.tile t
  x.pend.isEmpty && x.tensor.firings.isEmpty && x.tensor.queue.isEmpty && x.tensor.loading.isEmpty

/-- Is a step a signal or a release on its way for join `j`? -/
def isJoinStep (c slot j : Nat) : Instr → Bool
  | .joinSignalArrival c' g k _ => c' = c && g = slot && k = j
  | .releaseArrival c' g k _ => c' = c && g = slot && k = j
  | _ => false

/-- The lists that are members of a join and stand in a mode. -/
def memberLists (m : ModeDecl) (js : List End) : List Nat := js.filterMap fun e => match e with
  | .actorCx k _ => (m.listOf k).map ListDecl.tile
  | _ => none

/-- The control port of a member of a join that comes to rest (R216): undelivered releases are gone, which at a list are those that no phase
start has removed, at a sequencer those that wait for room in its window (log 51). -/
def CtrlPort.rested (u : UnitId) (x : CtrlPort) : CtrlPort :=
  match u with
  | .tile _ => { x with held := 0, waiting := 0 }
  | .seq _ => { x with waiting := 0 }

/-- The undelivered releases of the members of a join are dropped. -/
def dropReleases (c slot j : Nat) (s : State) : State :=
  (List.range (joinAt s c slot j).counts.length).foldl (fun s m => match memberOf s c slot j m with
    | some (u, p) => setCx u p ((mget {} (unitCx s u) p).rested u) s
    | none => s) s

/-- The releases that stand in the windows of the members of a join, by member. -/
def releasesHeld (s : State) (c slot j n : Nat) : List Int :=
  (List.range n).map fun m => match memberOf s c slot j m with
    | some (u, p) => (((mget {} (unitCx s u) p).held : Nat) : Int)
    | none => 0

/-- A join whose list members are all QUIESCENT is BOUND: its counts are 0, and what is on its way is gone (R216, log 51). -/
def restJoins (c slot : Nat) (s : State) : State :=
  let g := graphAt s c slot
  g.joins.zipIdx.foldl (fun s e =>
    let ls := (memberLists g.modeNow (g.image.joins.getD e.2 [])).filter g.isHere
    if e.1.state == .armed && !ls.isEmpty && ls.all fun l => listState g g.mode l == .quiescent then
      let s := dropReleases c slot e.2 s
      let s := setJoin c slot e.2 ({ e.1 with state := .bound }.counted (e.1.counts.map fun _ => 0) (releasesHeld s c slot e.2 e.1.counts.length)) s
      { s with agenda := s.agenda.filter fun x => !isJoinStep c slot e.2 x.2 }
    else s) s

/-- Lists become QUIESCENT (R131, R251); a marker point still to come of one of their actors is passed with it (R420). -/
def closeQuiet (c slot : Nat) (s : State) : State :=
  let g := graphAt s c slot
  let due := g.closing.filter fun l => tileIdle s (g.placed.getD l 0)
  let s := due.foldl (fun s l =>
    let ks := ((g.modeNow.lists.find? fun d => d.tile = l).map ListDecl.actors).getD []
    let s := (ks.filter fun k => agentPending s c (agentActor slot k)).foldl (fun s k =>
      updGraph c slot (fun g => { g with snapForward := g.snapForward ++ [(k, s.pcyc)] }) (recordActor c slot k true s)) s
    setListState c slot g.mode l .quiescent (updGraph c slot (fun g => { g with closing := g.closing.filter (· != l) }) s)) s
  if due.isEmpty then s else restJoins c slot s

/-- RESIDUE at the host (R253): every list is quiescent, and an arc holds another number of tokens than it declares. -/
def tellResidue (c slot : Nat) (s : State) : State :=
  let g := graphAt s c slot
  if g.state == .changing && !g.residue && listsQuiet s c slot then
    match residueArc s c slot with
    | some r => (updGraph c slot (fun g => { g with residue := true }) s).tellOpen c Code.residue 0
        (some (BitVec.ofNat 64 (r.1 % 4096 + min r.2.1 255 * 2 ^ 12 + min r.2.2 255 * 2 ^ 20)))
    | none => s
  else s

/-- The markers of a snapshot enter a graph that was saved when it opened and runs again (R420). -/
def injectDeferred (c slot : Nat) (s : State) : State :=
  if ((s.ctx c).openSnap.any fun p => p.deferred.contains slot) && (graphAt s c slot).flows then
    injectSnap c slot (s.setCtx c ((s.ctx c).updOpen fun p => { p with deferred := p.deferred.filter (· != slot) }))
  else s

/-- The other packages on which root groups of a graph stand have found their conditions met too (R201, R442). -/
def peersReady (g : Graph) : Bool := g.image.ranks.all fun r => (mfind g.peersReady r.2).isSome

/-- The start pulse of a graph that is ready for it: now, or for several packages at the common cycle (R253, R442). -/
def pulseTasks (s : State) (c slot : Nat) : State × List Task :=
  let g := graphAt s c slot
  if !startReady s c slot then (s, [])
  else if g.image.ranks.isEmpty then (s, [.event (.startPulse c slot)])
  else if g.noticed.isNone then (g.image.ranks.foldl (fun s r => sendItems 0 c r.2 1 s) (updGraph c slot (fun g => { g with noticed := some s.pcyc }) s), [])
  else if !peersReady g || s.agenda.any fun e => e.2 == .startPulse c slot then (s, [])
  else (s.after (pulseFrom (lastMet g.noticed g.peersReady) s.pcyc - s.pcyc) (.startPulse c slot), [])

/-- A STAGING graph whose target has changed since its lists were staged stages those of the new one (R149, R249). -/
def restage (c slot : Nat) (s : State) : State :=
  let g := graphAt s c slot
  if g.state == .staging && g.stagedMode.isSome && !targetStaged s c slot && !(s.agenda.any fun e => e.2 == .stagingComplete c slot) then
    s.later (.stagingComplete c slot)
  else s

/-- A graph in a cycle. -/
def graphTask (c slot : Nat) (s : State) : StepResult :=
  if !ctxRuns s c then .next s
  else
    let p := pulseTasks (restage c slot s) c slot
    if !p.2.isEmpty then .next (p.1.first p.2)
    else if !graphRuns s c slot then .next p.1
    else
      let s := injectDeferred c slot p.1
      let s := markSpawnArcs c slot (forwardSnaps c slot (forwardStops c slot s))
      .next (completeDrain c slot (tellResidue c slot (closeQuiet c slot s)))

/-! ## Contexts (R254, R263, R264, R366 to R371, R416) -/

/-- A context in a cycle: the host arc, the next record, the colours that can be drawn, in their order, and the ends of saves, drains
and snapshots. -/
def contextTask (c : Nat) (s : State) : StepResult :=
  let s := endPeerRollback c (takeTail c s)
  let x := s.ctx c
  let s := s.setCtx c { x with draws := x.draws.filter fun id => (opAt s id).isSome }
  let reads := x.canRead && !isWalking s c .ring && !(s.agenda.any fun e => e.2 == .launchRecordRead c)
  let s := if reads then s.later (.launchRecordRead c) else s
  let draws := if ctxRuns s c then (s.ctx c).draws.filter (canDraw s) else []
  .next (s.first (draws.map (fun id => Task.event (.colourDraw id)) ++
    (if allDrained s c then [.event (.drainComplete c)] else []) ++
    (if x.state == .halting && haltSettled s c then [.event (.saveComplete c)] else []) ++
    (if canSeal s c then [.event (.snapshotSealing c)] else [])))

/-- The ready records of the package act, in the order of its ready list (R264, R265). -/
def dispatchTask (s : State) : StepResult := .next (s.first ((readyList s).map fun r => Task.event (recordStep r.1 r.2)))

/-! ## Chunks, joins, links and dies -/

/-- The arc to which a die grants chunks next: of the context whose turn it is (R163). -/
def chunkTurn (s : State) (d : Nat) : Option Nat :=
  let want := s.arcs.filter fun e => 0 < e.2.asked && e.2.die = d && e.1 / 4096 < 64 && canGrant s e.1 e.2.asked e.2
  (List.range 64).findSome? fun i => (want.find? fun e => e.1 / 4096 = ((s.die d).turn + 1 + i) % 64).map Prod.fst

/-- A die in a cycle: the sample and the allowance that are due (R486, R487), a call, and every grant of chunks: each context in turn, as long
as there are chunks. -/
def dieTask (d : Nat) (s : State) : StepResult :=
  let s := if s.pcyc % 40000 = 1 && (s.die d).ready then applyAllowance d s else s
  let base := (if callReady s d then [Task.event (.dccallEntry d)] else []) ++
    (if s.pcyc % 8000 = 0 && (s.die d).ready && !(s.die d).sensors.isEmpty then [.event (.thermalSample d (s.die d).reading)] else []) ++
    (if s.pcyc % 40000 = 0 && (s.die d).ready then [.event (.allowanceUpdate d)] else [])
  match chunkTurn s d with
  | some key => .next ((s.setDie d { s.die d with turn := key / 4096 }).first
      (base ++ [.event (.chunkGrant (key / 4096) (key % 4096))]))
  | none => .next (s.first base)

/-- A link in a cycle: a held frame, the frame that is due, and the limits of R438 and R439. Nothing of it acts while the clock of its
port's die stands (R488). -/
def linkTask (n : Nat) (s : State) : StepResult :=
  if !portRuns s n then .next s
  else
    let s := releaseFrame n s
    let x := s.link n
    let send := if wantsFrame s n then
        (if frameIndex x.baseOut x.fseqOut = 7 && !x.resends.isEmpty then [Task.event (.frameResend n)] else [.event (.frameSend n)]) else []
    .next (s.first (send ++ (if heldTooLong s n then [.event (.frameHoldTimeout n)] else []) ++
      if trainedTooLong s n then [.event (.linkTrainingDone n 0)] else []))

/-- The die controller's handler writes WDOG of a region whose group is placed (R207); 0 is ignored. -/
def writeWdog (c slot reg limit : Nat) (s : State) : State :=
  let g := graphAt s c slot
  let w := limit % 65536
  if w = 0 || g.placed.isEmpty then s
  else
    let k := State.regionKey c slot reg
    let s := updGraph c slot (fun g => { g with wdogs := mset g.wdogs (energyKey g.mode reg) w }) s
    match mfind s.regions k with
    | some r => s.setRegion k { r with wdog := w }
    | none => s

/-- A context without snapshots of its own finds those that another package left in a peer's cellar (R449). -/
def foundCellar (c : Nat) (cellar : Cellar) (used : List (Nat × Nat)) (snaps : List Snap) (cells : Memory) (s : State) : State :=
  let s : State := { s with peerMem := cells.foldl (fun m b => writeByte m (cellar.peer * 2 ^ 52 + b.1 % 2 ^ 52) b.2) s.peerMem }
  s.setCtx c { s.ctx c with stored := some (cellar, used, snaps) }

/-- What an input does. -/
def takeInput (i : Input) (s : State) : State :=
  match i with
  | .event i => s.first [.event i]
  | .wdog c slot reg limit => writeWdog c slot reg limit s
  | .corrected die src loc => s.logError die src 0 loc
  | .saveFails c => s.setCtx c { s.ctx c with saveBad := true }
  | .sensors die tenths => s.setDie die { s.die die with sensors := tenths }
  | .register addr => readRegister addr s
  | .laneUpset link lane owner => { s with lanes := mset s.lanes (link * 8 + lane) owner }
  | .peerReady c slot rank cycle ways => updGraph c slot (fun g => { g with peersReady := mset g.peersReady rank cycle }) (tellWays c ways s)
  | .peerPlaced c rank cycle ways =>
    let s := tellWays c ways s
    s.setCtx c { s.ctx c with peersPlaced := mset (s.ctx c).peersPlaced rank cycle }
  | .peer c r => peerRequest c r s
  | .shareDone c rank => s.setCtx c ((s.ctx c).updOpen fun p => { p with peersDone := rank :: p.peersDone.filter (· != rank) })
  | .recordUnread c => s.setCtx c { s.ctx c with ringBad := true }
  | .nodeFails die => s.setXlat die { s.xlat die with nodeBad := true }
  | .passFails die => failPass die s
  | .peerCellar c cellar used snaps cells => foundCellar c cellar used snaps cells s

/-- The oldest input from outside is taken in this cycle or later: which is open (log 3). -/
def inputTask (s : State) : StepResult :=
  match s.inputs with
  | [] => .next s
  | i :: rest =>
    let take := Config.freeChoice s.freeCount
    let s : State := { s with freeCount := s.freeCount + 1 }
    .next (if take then takeInput i { s with inputs := rest } else s)

/-! ## Tasks -/

/-- A graph whose image has been checked holds the finding (R246, R247) when GRAPH_LOAD_COMPLETE comes. -/
noncomputable def beforeEvent (i : Instr) (s : State) : State :=
  match i with
  | .graphLoadComplete c g =>
    match loadVerdict c g s with
    | .ok w s => updGraph c g (fun x => { x with verdict := some w }) s
    | .fault s => updGraph c g (fun x => { x with verdict := some ({ code := 6 } : LoadFault).word }) s
    | .hold c v => copyFirst c v s
  | _ => s

/-- One task. -/
noncomputable def runTask (t : Task) (s : State) : StepResult :=
  match t with
  | .event i => exec i (beforeEvent i s)
  | .region k => regionTask k s
  | .beat t e => issueBeat t e s
  | .entry t => issueEntry t s
  | .advance k => .next (endCycle k s)
  | .seq n => seqTask n s
  | .memActor c g m => memActorTask c g m s
  | .copy c g t => copyTask c g t s
  | .tensor t => tensorTask t s
  | .fire t => fireTask t s
  | .store t => .next (storeTask t s)
  | .graph c g => graphTask c g s
  | .context c => contextTask c s
  | .dispatch => dispatchTask s
  | .arc k => .next (drainEntry k s (((s.arc? k).map fun a => a.entry.length).getD 0))
  | .join c g j => .next (tryJoin c g j s)
  | .link n => linkTask n s
  | .die d => dieTask d s
  | .input => inputTask s

/-! ## The end of a cycle -/

/-- Tokens written in a cycle are visible in the next (R29, R159). -/
def Arc.refresh (a : Arc) : Arc := if a.fresh.isEmpty then a else { a with window := a.window ++ a.fresh, fresh := [] }

/-- Colours returned in a cycle are free in the next (R254). -/
def Ctx.refresh (x : Ctx) : Ctx :=
  if x.returned.isEmpty then x else { x with drawn := x.drawn.filter fun k => !x.returned.contains k, returned := [] }

/-- Accesses of control units that have answered are forgotten; a colour goes with its `spawn`. -/
def settledOp (now : Nat) (o : Op) : Bool :=
  o.served && o.usable ≤ now && match o.cur.unit, o.kind with
    | .seq _, .colour _ _ => false
    | .seq _, _ => true
    | .tile _, _ => false

/-- Since when each live rank but this one has had no link UP (R448). -/
def watchRanks (s : State) : Map Nat :=
  s.ranks.foldl (fun m e =>
    if liveEntry e.2 && !bitOf e.2.toNat 61 && (upLinks s e.1).isEmpty then mset m e.1 (mget s.pcyc s.rankDown e.1) else m) []

/-- The lost ranks of a cycle (R448). -/
def lostRanks (s : State) : List Task :=
  s.rankDown.filterMap fun e => if e.2 + 80000 ≤ s.pcyc then some (.event (.rankLost e.1)) else none

/-- The measured energy of the dies (log 14). -/
def measureDies (s : State) : State :=
  (s.dies.filter fun e => e.2.ready).foldl (fun s e =>
    { s.setDie e.1 { s.die e.1 with energy := (s.die e.1).energy + Config.freeMeasure s.freeCount } with freeCount := s.freeCount + 1 }) s

/-- The place of a step at the banks of near memory among those of a cycle (R176): the cycle of issue, the class, the channel or local
index, and the access; none for any other step. The writes of windows and engines count from 6 cycles before they reach their
banks (log 25). -/
def bankPlace (s : State) (i : Instr) : Option (Nat × Nat × Nat × Nat) :=
  let access := fun id => match opAt s id with
    | some o => some (o.since s, o.rank, o.channel, id)
    | none => none
  match i with
  | .bankAccess id => access id
  | .ttagArrival id => access id
  | .atomicPipelineTake id => access id
  | .presenceReadServed id => access id
  | .ramoInvocationArrival link =>
    let entry := if link = ownLink then (s.ops.find? fun e => e.2.invoked).bind fun e => e.2.entered else (s.link link).itemsIn.head?.bind DynItem.entered
    some (entry.getD s.pcyc - 6, 0, 5, 0)
  | .ringWindowWrite c tag => some ((((s.arc? (State.arcKey c tag)).bind Arc.blocked).getD s.pcyc) - 6, 3, 4, 0)
  | .dramReply id => some (s.pcyc - 6, 3, 4, id)
  | _ => none

/-- Does a place stand before another one or in it? -/
def placedBefore (a b : Nat × Nat × Nat × Nat) : Bool :=
  a.1 < b.1 || (a.1 = b.1 && (a.2.1 < b.2.1 || (a.2.1 = b.2.1 && (a.2.2.1 < b.2.2.1 || (a.2.2.1 = b.2.2.1 && a.2.2.2 ≤ b.2.2.2)))))

/-- A step in its place among others, behind its equals. -/
def putPlaced (b : (Nat × Nat × Nat × Nat) × Instr) : List ((Nat × Nat × Nat × Nat) × Instr) → List ((Nat × Nat × Nat × Nat) × Instr)
  | [] => [b]
  | c :: l => if placedBefore c.1 b.1 then c :: putPlaced b l else b :: c :: l

/-- Is a step a tile's report to its sequencer? It follows everything that is reported at the same boundary (R361). -/
def isReport : Instr → Bool
  | .tileFaultReport _ => true
  | _ => false

/-- The steps due in a cycle: in the order in which they were set; behind them those at the banks in the order of R176; the reports
of tiles last. -/
def dueEvents (s : State) : List Instr :=
  let due := (s.agenda.filter fun e => e.1 ≤ s.pcyc).map Prod.snd
  let banks := due.filterMap fun i => (bankPlace s i).map fun p => (p, i)
  (due.filter fun i => (bankPlace s i).isNone && !isReport i) ++ (banks.foldl (fun l b => putPlaced b l) []).map Prod.snd ++ due.filter isReport

/-- The tasks of a graph's own units. -/
def graphTasks (e : Nat × Graph) : List Task :=
  let c := e.1 / 256
  let g := e.1 % 256
  (List.range e.2.mems.length).map (fun m => Task.memActor c g m) ++ (List.range e.2.copies.length).map (fun t => Task.copy c g t) ++
    (e.2.joins.zipIdx.filterMap fun j =>
      if j.1.state == .armed && !j.1.counts.isEmpty && j.1.counts.all (0 < ·) then some (Task.join c g j.2) else none) ++ [.graph c g]

/-- The tasks of a cycle (log 3). -/
def cycleTasks (s : State) (due : List Instr) : List Task :=
  (s.tiles.filter fun e => tensorBusy s e).map (fun e => Task.tensor e.1) ++ due.map .event ++
    s.regions.map (fun e => Task.region e.1) ++ s.seqs.map (fun e => Task.seq e.1) ++
    (s.arcs.filter fun e => !e.2.entry.isEmpty).map (fun e => Task.arc e.1) ++ s.graphs.flatMap graphTasks ++
    s.ctxs.map (fun e => Task.context e.1) ++ [.dispatch] ++ s.links.map (fun e => Task.link e.1) ++ s.dies.map (fun e => Task.die e.1) ++ lostRanks s ++ (if s.inputs.isEmpty then [] else [.input]) ++
    (s.tiles.filter fun e => e.2.tensor.queue.any fun x => x.started.isSome).map (fun e => Task.store e.1)

/-- The end of a cycle: `PCYC` counts (R489), what was written in it is visible, and the tasks of the next are drawn up. -/
def tick (s : State) : State :=
  let s : State := { s with
    pcyc := (s.pcyc + 1) % 2 ^ 64
    arcs := s.arcs.map fun e => (e.1, e.2.refresh)
    ctxs := s.ctxs.map fun e => (e.1, e.2.refresh) }
  let s : State := { s with ops := s.ops.filter fun e => !settledOp s.pcyc e.2, rankDown := watchRanks s }
  let s := measureDies s
  let due := dueEvents s
  { s with agenda := s.agenda.filter fun e => s.pcyc < e.1, todo := cycleTasks s due }

/-- The next task of this cycle, or the end of the cycle. -/
noncomputable def stepOnce (s : State) : StepResult :=
  match s.todo with
  | [] => .next (tick s)
  | t :: ts => runTask t { s with todo := ts }

end Sys2Proof.Machine
end

