-- ==== Sys2Proof/Machine/Step.lean ====
section
/-! DEFINITION. The step of the machine, and a state whose next step runs a given instruction (log 24). -/

namespace Sys2Proof.Machine

/-- One step: the next task of this cycle, or the end of the cycle. -/
noncomputable def step (s : State) : Host.Outcome State Fault Refusal := stepOnce s

/-- A word as code of quad sequencer 0 at virtual address 0 of context 0, whose page stands at physical address 0. -/
def State.withCode (s : State) (w : Word) : State :=
  let leaf : Word := BitVec.ofNat 64 (2 ^ 60 + 2 ^ 53 + 2 ^ 52)
  { s with
    mem := writeLE s.mem 0 8 w.toNat
    ctxs := mset s.ctxs 0 { s.ctx 0 with state := .active }
    xlats := mset s.xlats 0 { s.xlat 0 with tlb := [{ ctx := 0, va := 0, size := 65536, leaf := leaf, leafAt := 65536 }] }
    seqs := mset s.seqs 0 { s.seq 0 with ctxid := 0, pc := 0, run := .run, ready := s.pcyc, waits := [], busy := [] }
    todo := [.seq 0] }

/-- A word as the one entry of the list of compute tile 0, in region 0 of slot 0 of context 0, whose `CYC` is the entry's stamp. -/
def State.withEntry (s : State) (w : Word) : State :=
  let list : ListStore := { ctx := 0, slot := 0, mode := 0, list := 0, entries := [{ word := w, owner := 0 }], table := [(0, 1)] }
  { s with
    tiles := mset s.tiles 0 { s.tile 0 with active := some list, region := some 0 }
    regions := mset s.regions 0 { s.regionAt 0 with cyc := (stampOf w).toNat, phase := 0, rstate := 0, inPhase := true, checked := true
                                                    tiles := [0], phases := [4096] }
    todo := [.entry 0] }

/-- The state with an instruction where the next step takes it: in sequencer code where it may stand there, else in a timed
list. Its bits are those of one 64-bit word. -/
noncomputable def State.withFetchWord (s : State) (nbits w : Nat) : State :=
  let word : Word := BitVec.ofNat 64 (w % 2 ^ nbits)
  if (decode? .seq word).isSome then s.withCode word else s.withEntry word

end Sys2Proof.Machine
end

