-- ==== Sys2Proof/Certificates/Slice0/Obligations.lean ====
section
/-! DEFINITION. The statements about the model: what its decoder, its step and its instructions do, by the rules of the spec. -/

open Sys2Proof Sys2Proof.Machine

namespace Sys2Proof.Claims

/-! ## Words of the statements -/

/-- The state after an instruction with a scalar result: in a compute tile the result is pending for `lat` advancing cycles; a
control unit holds it, readable from `lat` cycles on, and goes on to its next instruction. -/
def scalarDone (lat : Nat) (d : BitVec 6) (v : Word) (s : State) : State :=
  match s.cur.unit with
  | .tile t => s.setTile t (addPending (s.tile t) lat (.scalar d.toNat v))
  | .seq n => s.updSeq n fun q => (q.write d.toNat v (s.pcyc + lat)).advance s.pcyc

/-- The state after an instruction without a result. -/
def done (s : State) : State :=
  match s.cur.unit with
  | .tile _ => s
  | .seq n => s.updSeq n fun q => q.advance s.pcyc

/-- A loop after control goes to `target` (R124). -/
def leftBy (target : Word) (l : SeqLoop) : SeqLoop :=
  { l with active := l.active && decide (l.first.toNat ≤ target.toNat ∧ target.toNat ≤ l.final.toNat) }

/-- 1 where a relation holds, else 0. -/
def oneIf (p : Prop) [Decidable p] : Word := if p then 1 else 0

end Sys2Proof.Claims

open Sys2Proof.Claims

/-! ## Encoding (R71 to R85) -/

/-- R71 to R83: decoding what encoding wrote gives the instruction back, with every operand at every value that its field and the
checks of R83 admit, at every stamp, in timed lists and in sequencer code. -/
def Obligations.DecodeOfEncode : Prop :=
  ∀ (place : Place) (stamp : BitVec 12) (i : Instr), i.WellFormed place = true →
    ∃ w, encode stamp i = some w ∧ stampOf w = stamp ∧ decode place w = .ok i

/-- R83: a word that the decoder takes for an instruction passes its checks, and is the only word of that instruction and stamp: no
bit of it is dropped. -/
def Obligations.DecodedIsWellFormed : Prop :=
  ∀ (place : Place) (w : Word) (i : Instr), decode place w = .ok i →
    i.WellFormed place = true ∧ encode (stampOf w) i = some w

/-- The worked encodings of R85 and R103, and the words of R85's table that are no instructions with the checks that they fail. -/
def Obligations.WorkedWords : Prop :=
  decode .seq 0x0002_1002_0BFF_FFFF = .ok (.addi 2 2 (-1)) ∧
  decode .seq 0x0002_5003_1000_020B = .ok (.bfx 3 4 8 11) ∧
  decode .list 0x0002_9005_1870_0003 = .ok (.lea 5 6 7 3) ∧
  decode .seq 0x0002_A409_7800_0018 = .ok (.ldUi16 9 30 24) ∧
  decode .seq 0x0000_5001_000A_0003 = .ok (.loop 1 10 3) ∧
  decode .list 0x00A0_6002_0080_1002 = .ok (.tloop 2 8 4 2) ∧
  decode .list 0x0284_8345_0421_5A00 = .ok (.vfma 1 5 1 2 5 3 2 0) ∧
  decode .seq 0x0020_2004_03FF_FFFB = .ok (.beq 4 0 (-5)) ∧
  decode .list 0x0002_C007_0000_0700 = .ok (.mfsr 7 7) ∧
  decode .list 0 = .ok .nop ∧
  decode .list 0x0020_2004_03FF_FFFB = .error .placeRefused ∧
  decode .seq 0x000F_3000_0000_0000 = .error .opUnassigned ∧
  decode .seq 0x0002_0F00_0000_0060 = .error .subUnassigned

/-! ## The step -/

/-- The step runs the decoded instruction. A control unit at its turn whose pc the TLB of its die translates executes the instruction
that its word in physical memory decodes to, once the word may issue (R21, R102). Where the word is no instruction, it takes the ILLEGAL
trap with the number of the failing check at the end of the word's issue delay (R83, R85). A fetch waits behind an earlier request of its stream
that a test bank holds, and at a bank under test (R386, R396). -/
def Obligations.StepRunsSequencerWord : Prop :=
  ∀ (s : State) (n : Nat) (rest : List Task) (x : TlbEntry),
    s.todo = .seq n :: rest → seqWorks s n = true → (s.seq n).run = .run → (s.seq n).ready ≤ s.pcyc →
    (s.seq n).trap = true ∨ ((s.seq n).refused = [] ∧ (s.seq n).queue = []) →
    (s.seq n).pc.toNat < 2 ^ 56 → tlbFind s (dieOfSeq n) (s.seq n).ctxid (s.seq n).pc.toNat = some x → Need.fetch.allowed x.leaf = true →
    let pa := Leaf.pa x.leaf + ((s.seq n).pc.toNat - x.va)
    let w : Word := BitVec.ofNat 64 (readLE s.mem pa 8)
    let u : State := { s with todo := rest, cur := seqCur s n w }
    let fetching : State := { s with todo := rest, cur := seqCur s n 0 }
    (streamHeld s (s.seq n).ctxid (.seq n) = true → step s = .next (fetching.updSeq n fun q => { q with ready := s.pcyc + 1 })) ∧
    (streamHeld s (s.seq n).ctxid (.seq n) = false → walkAhead s n = none →
      (∀ d, underTest s pa = some d → step s = .next (holdRequest d (.seq n) fetching)) ∧
      (underTest s pa = none →
        (∀ i, decode .seq w = .ok i → canIssue u (u.seq n) w i = true →
          step s = exec i (u.updSeq n fun q => { q with word := w })) ∧
        (∀ i, decode .seq w = .ok i → canIssue u (u.seq n) w i = false → step s = .next u) ∧
        (∀ e, decode .seq w = .error e → stampOf w = 0 ∨ (s.seq n).last + (stampOf w).toNat ≤ s.pcyc →
          step s = .next (ownFault n 0x01 (BitVec.ofNat 64 (if 5 < e.check ∧ badControlPort u w = true then 5 else e.check)) u)) ∧
        (∀ e, decode .seq w = .error e → ¬ (stampOf w = 0 ∨ (s.seq n).last + (stampOf w).toNat ≤ s.pcyc) → step s = .next u)))

/-- The step runs the decoded instruction. The entry of a timed list at the region's `CYC` (R24) executes the instruction that its
stored word decodes to, with the loop counts of its `tloop`s set before and after (R127), and is counted as issued (R63). It has no
effect where it does not issue: `tret` has dropped it (R359), or its actor has completed its last period (R251). The two fields of the
tile that stand for a failing read of a register (R374, R375, log 13) are at rest. -/
def Obligations.StepRunsEntry : Prop :=
  ∀ (s : State) (t : Nat) (rest : List Task) (l : ListStore) (p : Placement) (e : Entry) (i : Instr),
    s.todo = .entry t :: rest →
    let u : State := { s with todo := rest }
    entryNow u t = some (l, p, e) →
    let v := setLoops t p.before u
    let c := entryCur v t l p e
    (entryIssues v t l p e = true → (s.tile t).slow = 0 → (s.tile t).badReg = none → decode .list e.word = .ok i →
      step s = (match exec i (afterEntry t l p e i c { v with cur := c }) with
        | .next r => .next (setLoops t p.after r)
        | .fault f => .fault f
        | .refused f => .refused f)) ∧
    (entryIssues v t l p e = false → step s = .next (setLoops t p.after v))

/-- The other tasks of a cycle: a step of the table runs as that row of the table, a beat runs the instruction of its entry between
beats, and the cycle ends when no task is left: `PCYC` counts (R489). -/
def Obligations.StepRunsTask : Prop :=
  (∀ (s : State) (i : Instr) (rest : List Task), s.todo = .event i :: rest →
    step s = exec i (beforeEvent i { s with todo := rest })) ∧
  (∀ (s : State) (t e : Nat) (rest : List Task) (b : Between), s.todo = .beat t e :: rest →
    (s.tile t).between.find? (fun b => b.cur.entry = e) = some b →
    let u : State := { s with todo := rest, cur := b.cur }
    step s = exec b.instr (nextBeat t e (u.setTile t { s.tile t with issuing := b.cur.order }))) ∧
  (∀ s : State, s.todo = [] → ∃ r, step s = .next r ∧ r.pcyc = (s.pcyc + 1) % 2 ^ 64)

/-! ## Scalar instructions (R95 to R112) -/

/-- R104 and R106: the functions of OP 0x20 and OP 0x22, in timed lists and in sequencer code, with the latencies of R97. Each of these
instructions completes in every state. -/
def Obligations.ScalarArithmetic : Prop :=
  ∀ (d a b : BitVec 6) (s : State),
    let x := readS s a
    let y := readS s b
    let xs := x.toInt
    let ys := y.toInt
    let xu := x.toNat
    let yu := y.toNat
    let sh := y.toNat % 64
    let gives := fun (i : Instr) (lat : Nat) (v : Word) => exec i s = .next (scalarDone lat d v s)
    gives (.add d a b) 1 (BitVec.ofInt 64 (xs + ys)) ∧
    gives (.sub d a b) 1 (BitVec.ofInt 64 (xs - ys)) ∧
    gives (.and d a b) 1 (x &&& y) ∧
    gives (.or d a b) 1 (x ||| y) ∧
    gives (.xor d a b) 1 (x ^^^ y) ∧
    gives (.sll d a b) 1 (BitVec.ofNat 64 (xu * 2 ^ sh)) ∧
    gives (.srl d a b) 1 (BitVec.ofNat 64 (xu / 2 ^ sh)) ∧
    gives (.sra d a b) 1 (BitVec.ofInt 64 (xs / 2 ^ sh)) ∧
    gives (.mul d a b) 3 (BitVec.ofInt 64 (xs * ys)) ∧
    gives (.mulh d a b) 3 (BitVec.ofInt 64 (xs * ys / 2 ^ 64)) ∧
    gives (.mulhu d a b) 3 (BitVec.ofNat 64 (xu * yu / 2 ^ 64)) ∧
    gives (.min d a b) 1 (BitVec.ofInt 64 (min xs ys)) ∧
    gives (.max d a b) 1 (BitVec.ofInt 64 (max xs ys)) ∧
    gives (.minu d a b) 1 (BitVec.ofNat 64 (min xu yu)) ∧
    gives (.maxu d a b) 1 (BitVec.ofNat 64 (max xu yu)) ∧
    gives (.div d a b) 20 (if y = 0 then BitVec.ofInt 64 (-1) else BitVec.ofInt 64 (xs.tdiv ys)) ∧
    gives (.rem d a b) 20 (if y = 0 then x else BitVec.ofInt 64 (xs - ys * xs.tdiv ys)) ∧
    gives (.divu d a b) 20 (if y = 0 then BitVec.ofNat 64 (2 ^ 64 - 1) else BitVec.ofNat 64 (xu / yu)) ∧
    gives (.remu d a b) 20 (if y = 0 then x else BitVec.ofNat 64 (xu - yu * (xu / yu)))

/-- R107: the twelve compares. Each completes in every state. -/
def Obligations.ScalarCompares : Prop :=
  ∀ (d a b : BitVec 6) (imm : BitVec 26) (s : State),
    let x := readS s a
    let y := readS s b
    let z : Word := imm.signExtend 64
    let gives := fun (i : Instr) (v : Word) => exec i s = .next (scalarDone 1 d v s)
    gives (.seq d a b) (oneIf (x = y)) ∧
    gives (.sne d a b) (oneIf (x ≠ y)) ∧
    gives (.slt d a b) (oneIf (x.toInt < y.toInt)) ∧
    gives (.sge d a b) (oneIf (x.toInt ≥ y.toInt)) ∧
    gives (.sltu d a b) (oneIf (x.toNat < y.toNat)) ∧
    gives (.sgeu d a b) (oneIf (x.toNat ≥ y.toNat)) ∧
    gives (.seqi d a imm) (oneIf (x = z)) ∧
    gives (.snei d a imm) (oneIf (x ≠ z)) ∧
    gives (.slti d a imm) (oneIf (x.toInt < z.toInt)) ∧
    gives (.sgei d a imm) (oneIf (x.toInt ≥ z.toInt)) ∧
    gives (.sltui d a imm) (oneIf (x.toNat < z.toNat)) ∧
    gives (.sgeui d a imm) (oneIf (x.toNat ≥ z.toNat))

/-- R105, R108 to R111: immediates, bit fields, unary rows, constants and moves. Bits are counted by `BitVec.getLsbD`; the loader
admits a bit field only with pos + len ≤ 64 (R108). Each of these instructions completes in every state. -/
def Obligations.ScalarImmediates : Prop :=
  ∀ (d a b pos lenm1 : BitVec 6) (imm : BitVec 26) (imm32 : BitVec 32) (sh4 : BitVec 4) (s : State),
    let x := readS s a
    let z : Word := imm.signExtend 64
    let zs := z.toInt
    let sh := z.toNat % 64
    let len := lenm1.toNat + 1
    let does := fun (i : Instr) (lat : Nat) (v : Word) => exec i s = .next (scalarDone lat d v s)
    let gives := fun (i : Instr) (p : Word → Prop) => ∃ v, does i 1 v ∧ p v
    does (.addi d a imm) 1 (BitVec.ofInt 64 (x.toInt + zs)) ∧
    does (.andi d a imm) 1 (x &&& z) ∧
    does (.ori d a imm) 1 (x ||| z) ∧
    does (.xori d a imm) 1 (x ^^^ z) ∧
    does (.slli d a imm) 1 (BitVec.ofNat 64 (x.toNat * 2 ^ sh)) ∧
    does (.srli d a imm) 1 (BitVec.ofNat 64 (x.toNat / 2 ^ sh)) ∧
    does (.srai d a imm) 1 (BitVec.ofInt 64 (x.toInt / 2 ^ sh)) ∧
    does (.muli d a imm) 3 (BitVec.ofInt 64 (x.toInt * zs)) ∧
    does (.mini d a imm) 1 (BitVec.ofInt 64 (min x.toInt zs)) ∧
    does (.maxi d a imm) 1 (BitVec.ofInt 64 (max x.toInt zs)) ∧
    gives (.bfx d a pos lenm1) (fun v => ∀ k, k < 64 → v.getLsbD k = (x >>> pos.toNat).getLsbD (min k (len - 1))) ∧
    gives (.bfxu d a pos lenm1) (fun v => ∀ k, k < 64 → v.getLsbD k = (decide (k < len) && (x >>> pos.toNat).getLsbD k)) ∧
    gives (.bfi d a pos lenm1) (fun v => ∀ k, k < 64 → v.getLsbD k =
      if pos.toNat ≤ k ∧ k < pos.toNat + len then x.getLsbD (k - pos.toNat) else (readS s d).getLsbD k) ∧
    gives (.clz d a) (fun v => v.toNat ≤ 64 ∧ (∀ k, 64 - v.toNat ≤ k → x.getLsbD k = false) ∧
      (v.toNat < 64 → x.getLsbD (63 - v.toNat) = true)) ∧
    gives (.ctz d a) (fun v => v.toNat ≤ 64 ∧ (∀ k, k < v.toNat → x.getLsbD k = false) ∧ (v.toNat < 64 → x.getLsbD v.toNat = true)) ∧
    gives (.popc d a) (fun v => v.toNat = ((List.range 64).filter fun k => x.getLsbD k).length) ∧
    gives (.brev d a) (fun v => ∀ k, k < 64 → v.getLsbD k = x.getLsbD (63 - k)) ∧
    gives (.bswap d a) (fun v => ∀ i k, i < 8 → k < 8 → v.getLsbD (8 * i + k) = x.getLsbD (8 * (7 - i) + k)) ∧
    does (.li d imm32) 1 (imm32.signExtend 64) ∧
    does (.lih d imm32) 1 (imm32 ++ (readS s d).extractLsb' 0 32) ∧
    does (.mov d a) 1 x ∧
    does (.lea d a b sh4) 1 (x + readS s b * BitVec.ofNat 64 (2 ^ sh4.toNat))

/-- R112 with R77: `mfsr` in a timed list and in sequencer code; the register it reads is zero-extended. It completes for every number. -/
def Obligations.SystemRegisterReads : Prop :=
  ∀ (d : BitVec 6) (s : State),
    let reads := fun (sr : Nat) (v : Word) => exec (.mfsr d (BitVec.ofNat 16 sr)) s = .next (scalarDone 1 d v s)
    let num := fun (k : Nat) => BitVec.ofNat 64 k
    (∀ sr : BitVec 16, ∃ v, exec (.mfsr d sr) s = .next (scalarDone 1 d v s)) ∧
    (∀ t, s.cur.unit = .tile t →
      let x := s.tile t
      let a := s.actor (State.actorKey s.cur.ctx s.cur.slot s.cur.actor)
      reads 0x0 (num s.cur.stamp) ∧ reads 0x1 (num s.cur.seg) ∧ reads 0x3 (num a.fires) ∧ reads 0x5 (num s.cur.ctx) ∧
      reads 0x6 (num a.colour) ∧ reads 0x7 (num (s.ctx s.cur.ctx).snapid) ∧ reads 0xD (if x.moderr then 1 else 0) ∧
      (∀ g, s.graph? s.cur.ctx s.cur.slot = some g → reads 0x2 (num g.mode) ∧ reads 0x4 g.seed) ∧
      (∀ k, k < 4 → reads (0x10 + k) (num (mget 0 x.lb k)) ∧ reads (0x14 + k) (num (mget 0 x.le k)) ∧
        reads (0x18 + k) (num (mget 0 x.lc k)))) ∧
    (∀ n, s.cur.unit = .seq n →
      let q := s.seq n
      reads 0x4 (s.ctx q.ctxid).seed ∧ reads 0x5 (num q.ctxid) ∧ reads 0x7 (num (s.ctx q.ctxid).snapid) ∧ reads 0x8 q.tvec ∧
      reads 0x9 (num q.tcause) ∧ reads 0xA q.tinfo ∧ reads 0xB q.twhere ∧ reads 0xC q.tepc ∧ reads 0xD (seqStatus q) ∧ reads 0xE q.sqn ∧
      (∀ k, k < 4 → reads (0x10 + k) (num ((mget {} q.loops k).first.toNat / 8 % 2 ^ 16)) ∧
        reads (0x14 + k) (num ((mget {} q.loops k).final.toNat / 8 % 2 ^ 16)) ∧ reads (0x18 + k) (num (mget {} q.loops k).count)))

/-- R75, R95 and R102 for a scalar result in sequencer code: the destination reads the new value, `s0` reads 0 and discards it, every
other register of the unit and every other unit stays. -/
def Obligations.ScalarResultIsRead : Prop :=
  ∀ (lat : Nat) (d : BitVec 6) (v : Word) (s : State) (n : Nat), s.cur.unit = .seq n →
    let t := scalarDone lat d v s
    regOf (t.seq n).s 0 = 0 ∧
    (d.toNat ≠ 0 → regOf (t.seq n).s d.toNat = v ∧ (d.toNat, s.pcyc + lat) ∈ (t.seq n).busy) ∧
    (∀ r, r ≠ d.toNat → regOf (t.seq n).s r = regOf (s.seq n).s r) ∧
    (∀ m, m ≠ n → t.seq m = s.seq m)

/-! ## Control transfer and loops (R117 to R127) -/

/-- R117, R118 and R102: branches, calls and jumps; a taken transfer costs 3 cycles and leaves the loops of R124 behind. `jr` and `jalr`
complete on a value that is a multiple of 8, unless it is the return address of a call of DCCALL (R495), and raise ALIGN on any other (R119). -/
def Obligations.ControlTransfers : Prop :=
  ∀ (d a : BitVec 6) (target : BitVec 26) (s : State) (n : Nat), s.cur.unit = .seq n →
    let pc := (s.seq n).pc
    let there := pc + 8 * target.signExtend 64
    let x := readS s d
    let y := readS s a
    let go := fun (dst : Word) (q : Seq) => { q with pc := dst, loops := leaveLoops q.loops dst, last := s.pcyc, ready := s.pcyc + 3 }
    let branches := fun (i : Instr) (p : Bool) => exec i s = .next (if p then s.updSeq n (go there) else done s)
    branches (.br target) true ∧
    branches (.beq d a target) (x = y) ∧
    branches (.bne d a target) (x ≠ y) ∧
    branches (.blt d a target) (x.toInt < y.toInt) ∧
    branches (.bge d a target) (x.toInt ≥ y.toInt) ∧
    branches (.bltu d a target) (x.toNat < y.toNat) ∧
    branches (.bgeu d a target) (x.toNat ≥ y.toNat) ∧
    exec (.call d target) s = .next (s.updSeq n fun q => go there (q.write d.toNat (pc + 8) (s.pcyc + 1))) ∧
    (y.toNat % 8 = 0 → ¬ (384 ≤ n ∧ n < 396 ∧ (s.die (n - 384)).inCall = true ∧ y = 0xFFFFFFFFFFFFFFF8) →
      exec (.jr a) s = .next (s.updSeq n (go y)) ∧
      exec (.jalr d a) s = .next (s.updSeq n fun q => go y (q.write d.toNat (pc + 8) (s.pcyc + 1)))) ∧
    (y.toNat % 8 ≠ 0 → exec (.jr a) s = .next (ownFault n 0x02 y s) ∧ exec (.jalr d a) s = .next (ownFault n 0x02 y s))

/-- R124: a taken transfer makes exactly the active loops inactive whose begin … end does not hold its target; counts stay. -/
def Obligations.TransferLeavesLoops : Prop :=
  ∀ (ls : Map SeqLoop) (target : Word) (k : Nat), mget {} (leaveLoops ls target) k = leftBy target (mget {} ls k)

/-- R123: the loops at an instruction that is no taken transfer (here `nop`, R103). Of the active loops that end at its address, the
first in decreasing number with a count above 1 counts down and gives the next pc, its begin; those above it end with count 0; every
other loop changes only as R124 says. Where there is no such loop, all of them end and the pc advances by 8. -/
def Obligations.LoopsAtTheirEnd : Prop :=
  ∀ (s : State) (n : Nat), s.cur.unit = .seq n →
    let q := s.seq n
    let loop := fun (k : Nat) => mget {} q.loops k
    let ends := fun (k : Nat) => k < 4 ∧ (loop k).active = true ∧ (loop k).final = q.pc
    let ended := fun (k : Nat) => { loop k with count := 0, active := false }
    ∃ t, exec .nop s = .next t ∧ (t.seq n).last = s.pcyc ∧ (t.seq n).ready = s.pcyc + 1 ∧ (t.seq n).s = q.s ∧
      (∀ k, ends k → 1 < (loop k).count → (∀ j, k < j → ends j → (loop j).count ≤ 1) →
        let back := (loop k).first
        (t.seq n).pc = back ∧
        (∀ j, k < j → ends j → mget {} (t.seq n).loops j = ended j) ∧
        mget {} (t.seq n).loops k = leftBy back { loop k with count := (loop k).count - 1 } ∧
        (∀ j, j ≠ k → ¬ (k < j ∧ ends j) → mget {} (t.seq n).loops j = leftBy back (loop j))) ∧
      ((∀ k, ends k → (loop k).count ≤ 1) →
        (t.seq n).pc = q.pc + 8 ∧ (∀ j, ends j → mget {} (t.seq n).loops j = ended j) ∧
        (∀ j, ¬ ends j → mget {} (t.seq n).loops j = loop j))

/-- R121 and R122: `loop` and `loopr` arm a loop; `loopr` with 0 goes past the body without arming it, and with more than 65,535 raises
LOOP. R126: `tloop` sets the loop registers of its tile. -/
def Obligations.LoopsAreArmed : Prop :=
  ∀ (d a : BitVec 6) (count span : BitVec 16) (stride : BitVec 12) (c10 s10 : BitVec 10) (s : State),
    (∀ n, s.cur.unit = .seq n →
      let q := s.seq n
      let pc := q.pc
      let x := readS s a
      let armed := fun (k : Nat) =>
        s.updSeq n fun q => { q.advance s.pcyc with
          loops := mset (q.advance s.pcyc).loops d.toNat { first := pc + 8, final := pc + 8 * span.zeroExtend 64, count := k, active := true } }
      exec (.loop d count span) s = .next (armed count.toNat) ∧
      (1 ≤ x.toNat → x.toNat ≤ 65535 → exec (.loopr d a span) s = .next (armed x.toNat)) ∧
      (65535 < x.toNat → exec (.loopr d a span) s = .next (ownFault n 0x05 x s)) ∧
      (x = 0 → ∃ t, exec (.loopr d a span) s = .next t ∧ (t.seq n).pc = pc + 8 * (span.zeroExtend 64 + 1) ∧
        (mget {} (t.seq n).loops d.toNat).active = false ∧ (mget {} (t.seq n).loops d.toNat).count = 0 ∧ (t.seq n).s = q.s ∧
        (∀ m, m ≠ n → t.seq m = s.seq m) ∧ t.mem = s.mem ∧ t.near = s.near)) ∧
    (∀ k, s.cur.unit = .tile k →
      let x := s.tile k
      let e := s.cur.entry
      exec (.tloop d stride c10 s10) s = .next (s.setTile k
        { x with lb := mput 0 x.lb d.toNat (e + 1), le := mput 0 x.le d.toNat (e + s10.toNat), lc := mput 0 x.lc d.toNat c10.toNat }))

/-! ## The vector unit (R269 to R302) and the modular unit (R303 to R315) -/

namespace Sys2Proof.Claims

/-- The state after results of an entry of tile `t`, each visible after `lat` advancing cycles (R98, R276). -/
def delivered (lat t : Nat) (rs : List Result) (s : State) : State :=
  s.setTile t (rs.foldl (fun x r => addPending x lat r) (s.tile t))

/-- The enabled elements, of width `w`, of the slots of this beat (R135): what an element-wise instruction writes. -/
def elemsDone (lat w : Nat) (fold : BitVec 2) (d : BitVec 6) (en : Nat → Bool) (f : Nat → Nat) (t : Nat) (s : State) : State :=
  let on := fun k => elemInBeat w (beatsOf fold) s.cur.beat k && en k
  delivered lat t [.vector d.toNat (maskOf w on) (vecOfElems w fun k => if on k then f k else 0)] s

/-- The bits of a predicate for the elements of this beat; the last beat also clears the bits from E upward (R270). -/
def bitsDone (lat w : Nat) (fold : BitVec 2) (d : BitVec 6) (f : Nat → Bool) (t : Nat) (s : State) : State :=
  let on := fun k => if k < elemCount w then elemInBeat w (beatsOf fold) s.cur.beat k else s.cur.beat + 1 == beatsOf fold
  delivered lat t [.pred d.toNat (predOfBits on) (predOfBits fun k => decide (k < elemCount w) && on k && f k)] s

/-- The state after a beat of a whole-register instruction (R275): its results come with the last beat, and no other beat writes. -/
def wholeDone (lat : Nat) (fold : BitVec 2) (rs : List Result) (t : Nat) (s : State) : State :=
  if s.cur.beat + 1 = beatsOf fold then delivered lat t rs s else s

/-- All elements, of width `w`, of a vector register. -/
def allElems (w : Nat) (d : BitVec 6) (f : Nat → Nat) : Result := .vector d.toNat (BitVec.allOnes 2048) (vecOfElems w f)

/-- The predicate P of an entry: what beat 0 read holds for all its beats (R135). -/
def enabled (s : State) (p : BitVec 3) (k : Nat) : Bool :=
  (match s.cur.cap with
   | none => readP s p.toNat
   | some c => c.pred).getLsbD k

/-- The scalar operand in field A, as beat 0 read it. -/
def scalarA (s : State) (r : BitVec 6) : Word :=
  match s.cur.cap with
  | none => readS s r
  | some c => c.scalar

/-- The scalar operand in field B, as beat 0 read it. -/
def scalarB (s : State) (r : BitVec 6) : Word :=
  match s.cur.cap with
  | none => readS s r
  | some c => c.scalar2

/-- The scalar operand in field C, as beat 0 read it. -/
def scalarC (s : State) (r : BitVec 6) : Word :=
  match s.cur.cap with
  | none => readS s r
  | some c => c.scalar3

/-- A value between two bounds. -/
def clamp (lo hi x : Int) : Int := max lo (min x hi)

end Sys2Proof.Claims

/-- R42, R75, R270, R276: a due vector result writes the elements of its mask and no other, a due predicate result the bits of its
mask, a due scalar result its register; every other register of the tile stays. `p0` and `s0` discard. -/
def Obligations.DueResultsWrite : Prop :=
  ∀ (x : Tile) (w r : Nat) (on : Nat → Bool) (f : Nat → Nat) (m v : Pred) (u : Word), w ∈ [4, 8, 16, 32] →
    let y := applyResult x (.vector r (maskOf w on) (vecOfElems w f))
    let z := applyResult x (.pred r m v)
    let c := applyResult x (.scalar r u)
    (∀ k, k < elemCount w → elem w (vecOf y r).toNat k = if on k then f k % 2 ^ w else elem w (vecOf x r).toNat k) ∧
    (∀ q, q ≠ r → vecOf y q = vecOf x q) ∧ y.s = x.s ∧ y.p = x.p ∧ y.q = x.q ∧
    (∀ k, k < 512 → (predOf z r).getLsbD k = if r ≠ 0 ∧ m.getLsbD k = true then v.getLsbD k else (predOf x r).getLsbD k) ∧
    (∀ q, q ≠ r → predOf z q = predOf x q) ∧ z.s = x.s ∧ z.v = x.v ∧ z.q = x.q ∧
    (∀ q, regOf c.s q = if q = r ∧ r ≠ 0 then u else regOf x.s q) ∧ c.v = x.v ∧ c.p = x.p ∧ c.q = x.q

/-- R280, R281, R282: the integer, logic and shift rows, element by element, under their predicate. Each completes on every tile. -/
def Obligations.VectorIntegers : Prop :=
  ∀ (fold : BitVec 2) (d a b c : BitVec 6) (p ft : BitVec 3) (s : State) (t : Nat), s.cur.unit = .tile t →
    let w := widthOfCode ft
    let sg := signedCode ft
    let raw := fun (r : BitVec 6) (k : Nat) => elem w (readV s r).toNat k
    let slot := fun (r : BitVec 6) (k : Nat) => elem 32 (readV s r).toNat k
    let val := fun (r : BitVec 6) (k : Nat) => if sg then signedOf w (raw r k) else (raw r k : Int)
    let sat := if sg then clamp (-2 ^ (w - 1)) (2 ^ (w - 1) - 1) else clamp 0 (2 ^ w - 1)
    let ints := fun (i : Instr) (lat : Nat) (f : Nat → Int) =>
      exec i s = .next (elemsDone lat w fold d (enabled s p) (fun k => (f k % 2 ^ w).toNat) t s)
    let bits := fun (i : Instr) (v : Nat) (f : Nat → Nat) => exec i s = .next (elemsDone 2 v fold d (enabled s p) f t s)
    let n := fun (k : Nat) => raw b k % w
    let m := (scalarB s b).toNat % w
    ints (.vaddInt fold d a b p ft) 2 (fun k => val a k + val b k) ∧
    ints (.vsubInt fold d a b p ft) 2 (fun k => val a k - val b k) ∧
    ints (.vmulInt fold d a b p ft) 4 (fun k => val a k * val b k) ∧
    ints (.vmulh fold d a b p ft) 4 (fun k => val a k * val b k / 2 ^ w) ∧
    ints (.vminInt fold d a b p ft) 2 (fun k => min (val a k) (val b k)) ∧
    ints (.vmaxInt fold d a b p ft) 2 (fun k => max (val a k) (val b k)) ∧
    ints (.vabsInt fold d a p ft) 2 (fun k => |val a k|) ∧
    ints (.vnegInt fold d a p ft) 2 (fun k => -val a k) ∧
    ints (.vadds fold d a b p ft) 2 (fun k => sat (val a k + val b k)) ∧
    ints (.vsubs fold d a b p ft) 2 (fun k => sat (val a k - val b k)) ∧
    ints (.vavg fold d a b p ft) 2 (fun k => (val a k + val b k + 1) / 2) ∧
    ints (.vmad fold d a b c p ft) 4 (fun k => val a k * val b k + val c k) ∧
    bits (.vand fold d a b p) 32 (fun k => slot a k &&& slot b k) ∧
    bits (.vor fold d a b p) 32 (fun k => slot a k ||| slot b k) ∧
    bits (.vxor fold d a b p) 32 (fun k => slot a k ^^^ slot b k) ∧
    bits (.vandn fold d a b p) 32 (fun k => slot a k &&& (2 ^ 32 - 1 - slot b k)) ∧
    bits (.vnot fold d a p) 32 (fun k => 2 ^ 32 - 1 - slot a k) ∧
    bits (.vmov fold d a p) 32 (fun k => slot a k) ∧
    bits (.vsll fold d a b p ft) w (fun k => raw a k * 2 ^ n k % 2 ^ w) ∧
    bits (.vsrl fold d a b p ft) w (fun k => raw a k / 2 ^ n k) ∧
    bits (.vsra fold d a b p ft) w (fun k => (signedOf w (raw a k) / 2 ^ n k % 2 ^ w).toNat) ∧
    bits (.vrol fold d a b p ft) w (fun k => raw a k * 2 ^ n k % 2 ^ w + raw a k / 2 ^ (w - n k)) ∧
    bits (.vslls fold d a b p ft) w (fun k => raw a k * 2 ^ m % 2 ^ w) ∧
    bits (.vsrls fold d a b p ft) w (fun k => raw a k / 2 ^ m) ∧
    bits (.vsras fold d a b p ft) w (fun k => (signedOf w (raw a k) / 2 ^ m % 2 ^ w).toNat)

/-- R283 and R289: the compares of integers and of floats. A disabled element gives 0, and so do the bits from E upward. Each
completes on every tile. -/
def Obligations.VectorCompares : Prop :=
  ∀ (fold : BitVec 2) (d a b : BitVec 6) (p ft : BitVec 3) (s : State) (t : Nat), s.cur.unit = .tile t →
    let w := widthOfCode ft
    let val := fun (r : BitVec 6) (k : Nat) =>
      if signedCode ft then signedOf w (elem w (readV s r).toNat k) else (elem w (readV s r).toNat k : Int)
    let ints := fun (i : Instr) (rel : Int → Int → Bool) =>
      exec i s = .next (bitsDone 2 w fold d (fun k => enabled s p k && rel (val a k) (val b k)) t s)
    let f := Flt.ofTag ft
    let flo := fun (r : BitVec 6) (k : Nat) => Exact.decode f (elem f.width (readV s r).toNat k)
    let nan := fun (k : Nat) => (flo a k).isNan || (flo b k).isNan
    let floats := fun (i : Instr) (onNan : Bool) (rel : Exact → Exact → Bool) =>
      exec i s = .next (bitsDone 4 f.width fold d
        (fun k => enabled s p k && if nan k then onNan else rel (flo a k) (flo b k)) t s)
    ints (.vcmpeqInt fold d a b p ft) (fun x y => x = y) ∧
    ints (.vcmpneInt fold d a b p ft) (fun x y => x ≠ y) ∧
    ints (.vcmpltInt fold d a b p ft) (fun x y => x < y) ∧
    ints (.vcmpleInt fold d a b p ft) (fun x y => x ≤ y) ∧
    ints (.vcmpgtInt fold d a b p ft) (fun x y => x > y) ∧
    ints (.vcmpgeInt fold d a b p ft) (fun x y => x ≥ y) ∧
    floats (.vcmpeqFp fold d a b p ft) false (fun x y => !x.lt y && !y.lt x) ∧
    floats (.vcmpneFp fold d a b p ft) true (fun x y => x.lt y || y.lt x) ∧
    floats (.vcmpltFp fold d a b p ft) false (fun x y => x.lt y) ∧
    floats (.vcmpleFp fold d a b p ft) false (fun x y => !y.lt x) ∧
    floats (.vcmpgtFp fold d a b p ft) false (fun x y => y.lt x) ∧
    floats (.vcmpgeFp fold d a b p ft) false (fun x y => !x.lt y) ∧
    floats (.vcmpun fold d a b p ft) true (fun _ _ => false)

/-- R284, R285, R298, R300, R302: selection, movement, permutes, compress, expand and the predicate rows. Each completes on every
tile. -/
def Obligations.VectorMovement : Prop :=
  ∀ (fold : BitVec 2) (d a b : BitVec 6) (p ft : BitVec 3) (imm : BitVec 32) (s : State) (t : Nat), s.cur.unit = .tile t →
    let w := widthOfCode ft
    let n := elemCount w
    let x := fun (k : Nat) => elem w (readV s a).toNat k
    let y := fun (k : Nat) => elem w (readV s b).toNat k
    let cb := (scalarB s b).toNat
    let ca := (scalarA s a).toNat
    let pa := match s.cur.cap with
      | none => readP s a.toNat
      | some c => c.predA
    let pb := match s.cur.cap with
      | none => readP s b.toNat
      | some c => c.predB
    let elems := fun (i : Instr) (v : Nat) (en : Nat → Bool) (f : Nat → Nat) => exec i s = .next (elemsDone 2 v fold d en f t s)
    let whole := fun (i : Instr) (lat : Nat) (rs : List Result) => exec i s = .next (wholeDone lat fold rs t s)
    let perm := fun (i : Instr) (f : Nat → Nat) => whole i 4 [allElems w d f]
    let preds := fun (i : Instr) (v : Pred) => whole i 1 [.pred d.toNat allTrue v]
    let picked := (List.range n).filter fun k => enabled s p k
    elems (.vsel fold d a b p ft) w (fun _ => true) (fun k => if enabled s p k then x k else y k) ∧
    elems (.vsplat fold d a ft) w (fun _ => true) (fun _ => ca % 2 ^ w) ∧
    elems (.viota fold d ft) w (fun _ => true) (fun k => k) ∧
    elems (.vins fold d a b ft) w (fun k => k == cb % n) (fun _ => ca % 2 ^ w) ∧
    whole (.vext fold d a b ft) 3
      [.scalar d.toNat (BitVec.ofInt 64 (if signedCode ft then signedOf w (x (cb % n)) else (x (cb % n) : Int)))] ∧
    elems (.vli fold d imm) 32 (fun _ => true) (fun _ => imm.toNat) ∧
    perm (.vperm fold d a b ft) (fun k => x (min n (2 ^ w) * (k / min n (2 ^ w)) + y k % min n (2 ^ w))) ∧
    perm (.vrot fold d a b ft) (fun k => x ((k + cb) % n)) ∧
    perm (.vrev fold d a ft) (fun k => x (n - 1 - k)) ∧
    perm (.vzip fold d a b ft) (fun k => if k % 2 = 0 then x (k / 2) else y ((k - 1) / 2)) ∧
    perm (.vunzip fold d a b ft) (fun k => if 2 * k < n then x (2 * k) else y (2 * k - n)) ∧
    perm (.vbcast fold d a b ft) (fun _ => x (cb % n)) ∧
    whole (.vcompress fold d a b p ft) 4
      [allElems w d (fun j => ((picked.map x)[j]?).getD 0), .scalar b.toNat (BitVec.ofNat 64 picked.length)] ∧
    perm (.vexpand fold d a p ft) (fun k => if enabled s p k then x (((List.range k).filter fun j => enabled s p j).length) else 0) ∧
    preds (.pand fold d a b) (pa &&& pb) ∧
    preds (.por fold d a b) (pa ||| pb) ∧
    preds (.pxor fold d a b) (pa ^^^ pb) ∧
    preds (.pnot fold d a) (~~~pa) ∧
    preds (.pmov fold d a) pa ∧
    preds (.pall fold d) allTrue ∧
    preds (.pnone fold d) 0 ∧
    (∃ v, whole (.pcnt fold d a) 1 [.scalar d.toNat v] ∧ v.toNat = ((List.range 512).filter fun k => pa.getLsbD k).length) ∧
    (∃ v, whole (.pfirst fold d a) 1 [.scalar d.toNat v] ∧ (∀ k, k < v.toNat → pa.getLsbD k = false) ∧
      (v.toNat < 512 → pa.getLsbD v.toNat = true) ∧ v.toNat ≤ 512) ∧
    (∃ v : Pred, preds (.pwlt fold d a) v ∧ ∀ k, k < 512 → v.getLsbD k = decide (k < ca))

/-- R286, R287, R288, R290: the rounding rows, the picking rows and the special functions of the float unit. `RoundTo` takes the exact
value and the mode; the random bits of STOCH are those of the element (R64). Each completes on every tile. -/
def Obligations.VectorFloats : Prop :=
  ∀ (fold : BitVec 2) (d a b c : BitVec 6) (p ft : BitVec 3) (rm : BitVec 4) (s : State) (t : Nat), s.cur.unit = .tile t →
    let f := Flt.ofTag ft
    let enc := fun (r : BitVec 6) (k : Nat) => elem f.width (readV s r).toNat k
    let val := fun (r : BitVec 6) (k : Nat) => Exact.decode f (enc r k)
    let rdn := isRdn rm.toNat
    let rounds := fun (i : Instr) (lat : Nat) (g : Nat → Exact) =>
      exec i s = .next (elemsDone lat f.width fold d (enabled s p)
        (fun k => roundTo f (g k) rm.toNat (if rm.toNat % 8 = 5 then stochBits (grab s a b c p.toNat) k else 0)) t s)
    let picks := fun (i : Instr) (g : Nat → Nat) => exec i s = .next (elemsDone 4 f.width fold d (enabled s p) g t s)
    rounds (.vaddFp fold d a b p ft rm) 4 (fun k => .add rdn (val a k) (val b k)) ∧
    rounds (.vsubFp fold d a b p ft rm) 4 (fun k => .add rdn (val a k) (val b k).neg) ∧
    rounds (.vmulFp fold d a b p ft rm) 4 (fun k => .mul (val a k) (val b k)) ∧
    rounds (.vfma fold d a b c p ft rm) 4 (fun k => .add rdn (.mul (val a k) (val b k)) (val c k)) ∧
    rounds (.vfms fold d a b c p ft rm) 4 (fun k => .add rdn (.mul (val a k) (val b k)) (val c k).neg) ∧
    rounds (.vfnma fold d a b c p ft rm) 4 (fun k => .add rdn (val c k) (Exact.mul (val a k) (val b k)).neg) ∧
    rounds (.vdiv fold d a b p ft rm) 16 (fun k => .div (val a k) (val b k)) ∧
    rounds (.vsqrt fold d a p ft rm) 16 (fun k => sqrtExact (val a k)) ∧
    rounds (.vexp2 fold d a p ft rm) 12 (fun k => exp2Exact (val a k)) ∧
    rounds (.vlog2 fold d a p ft rm) 12 (fun k => log2Exact (val a k)) ∧
    rounds (.vrcp fold d a p ft rm) 12 (fun k => rcpExact (val a k)) ∧
    rounds (.vrsqrt fold d a p ft rm) 12 (fun k => rsqrtExact (val a k)) ∧
    rounds (.vtanh fold d a p ft rm) 12 (fun k => tanhExact (val a k)) ∧
    rounds (.vsigm fold d a p ft rm) 12 (fun k => sigmExact (val a k)) ∧
    picks (.vminFp fold d a b p ft) (fun k => fmin f (enc a k) (enc b k)) ∧
    picks (.vmaxFp fold d a b p ft) (fun k => fmax f (enc a k) (enc b k)) ∧
    picks (.vabsFp fold d a p ft) (fun k => if (val a k).isNan then f.nan else enc a k % 2 ^ (f.width - 1)) ∧
    picks (.vnegFp fold d a p ft) (fun k => if (val a k).isNan then f.nan else enc a k ^^^ 2 ^ (f.width - 1))

/-- R291 to R295: the conversions. A row of equal widths is element-wise; every other delivers E elements in its last beat, the
enabled ones converted and everything above them zero, and a disabled element stays. `vquant` also writes its scales whole, byte 0 before
the elements and the rest behind them, which shows only where `vC` is `vD`. Each completes on every tile. -/
def Obligations.VectorConversions : Prop :=
  ∀ (fold : BitVec 2) (d a src c : BitVec 6) (p : BitVec 3) (rm dst : BitVec 4) (s : State) (t : Nat), s.cur.unit = .tile t →
    let ws := widthOfType src.toNat
    let wd := widthOfType dst.toNat
    let sf := Flt.ofType src.toNat
    let df := Flt.ofType dst.toNat
    let r := rm.toNat
    let draw := fun (k : Nat) => if r % 8 = 5 then stochBits (grab s a src c p.toNat) k else 0
    let x := fun (w k : Nat) => elem w (readV s a).toNat k
    let scale := fun (k : Nat) => scaleValue (elem 8 (readV s c).toNat (k / 32))
    let on := enabled s p
    let converts := fun (i : Instr) (n w : Nat) (f : Nat → Nat) => exec i s = .next (wholeDone 4 fold
      [.vector d.toNat (maskOf w fun k => if k < n then on k else true)
        (vecOfElems w fun k => if k < n ∧ on k = true then f k else 0)] t s)
    let e := elemCount sf.width
    let block := fun (g : Nat) => ((List.range 32).filter fun j => on (32 * g + j)).map fun j => Exact.decode sf (x sf.width (32 * g + j))
    let sc := fun (g : Nat) => if g < e / 32 then chooseScale df (block g) else 0
    (ws = wd → exec (.vcvt fold d a src p rm dst) s =
      .next (elemsDone 4 wd fold d on (fun k => convert src.toNat dst.toNat (x ws k) r (draw k)) t s)) ∧
    (ws ≠ wd → converts (.vcvt fold d a src p rm dst) (min (elemCount ws) (elemCount wd)) wd
      (fun k => convert src.toNat dst.toNat (x ws k) r (draw k))) ∧
    (∃ u, exec (.vquant fold d a src c p rm dst) s = .next u ∧
      (s.cur.beat + 1 ≠ beatsOf fold → u = s) ∧
      (s.cur.beat + 1 = beatsOf fold → ∃ m v m' v', m = BitVec.ofNat 2048 255 ∧ u = delivered 4 t
        [.vector c.toNat m v,
         .vector d.toNat (maskOf df.width fun k => if k < e then on k else true) (vecOfElems df.width fun k =>
           if k < e ∧ on k = true then quantElem df (sc (k / 32)) (Exact.decode sf (x sf.width k)) r (draw k) else 0),
         .vector c.toNat m' v'] s ∧
        m ||| m' = BitVec.allOnes 2048 ∧ m &&& m' = 0 ∧ (m &&& v) ||| (m' &&& v') = vecOfElems 8 sc)) ∧
    converts (.vdequant fold d a src c p rm dst) (min e (elemCount df.width)) df.width
      (fun k => roundTo df (.mul (.decode sf (x sf.width k)) (scale k)) r (draw k)) ∧
    converts (.vscale fold d a src c p rm dst) (min e (elemCount df.width)) df.width
      (fun k => roundTo df (.mul (.decode sf (x sf.width k)) (scale k)) r (draw k)) ∧
    converts (.vlq2 fold d a src c p rm dst) (elemCount df.width) df.width
      (fun k => roundTo df (.mul (lq2Value (x 16 (k / 8)) (k % 8)) (scale k)) r (draw k))

/-- R296, R297, R299, R301: reductions by the tree of R69, sequential scans, the sort, and random numbers. Disabled elements enter a
reduction or a scan as its identity. Each completes on every tile. -/
def Obligations.VectorReductions : Prop :=
  ∀ (fold : BitVec 2) (d a b c : BitVec 6) (p ft : BitVec 3) (rm : BitVec 4) (s : State) (t : Nat), s.cur.unit = .tile t →
    let int := ft = 0
    let f := Flt.ofTag ft
    let w := if int then 32 else widthOfTag ft
    let cap := grab s a b c p.toNat
    let x := fun (v ident k : Nat) => if enabled s p k then elem v (readV s a).toNat k else ident
    let draw := fun (k : Nat) => if rm.toNat % 8 = 5 then stochBits cap k else 0
    let add := fun (k y z : Nat) => if int then (y + z) % 2 ^ 32 else roundTo f (.add (isRdn rm.toNat) (.decode f y) (.decode f z)) rm.toNat (draw k)
    let lesser := fun (_ y z : Nat) => if int then (if signedOf 32 y ≤ signedOf 32 z then y else z) else fmin f y z
    let larger := fun (_ y z : Nat) => if int then (if signedOf 32 y ≤ signedOf 32 z then z else y) else fmax f y z
    let none0 := if int then 0 else 2 ^ (f.width - 1)
    let top := if int then 2 ^ 31 - 1 else f.maxCode + 1
    let bottom := if int then 2 ^ 31 else 2 ^ (f.width - 1) + (f.maxCode + 1)
    let reduces := fun (i : Instr) (v : Nat) (signed : Prop) [Decidable signed] (ident : Nat) (node : Nat → Nat → Nat → Nat) =>
      let r := redTree node (x v ident) 0 (Nat.log2 (elemCount v))
      exec i s = .next (wholeDone 8 fold [.scalar d.toNat (if signed then BitVec.ofInt 64 (signedOf v r) else BitVec.ofNat 64 r)] t s)
    let scans := fun (i : Instr) (excl : Bool) (ident : Nat) (node : Nat → Nat → Nat → Nat) => ∃ y : Nat → Nat,
      y 0 = ident ∧ (∀ k, k < elemCount w → y (k + 1) = node k (y k) (x w ident k)) ∧
      exec i s = .next (wholeDone 8 fold [allElems w d fun k => if excl then y k else y (k + 1)] t s)
    let n := min (scalarC s c).toNat 64
    let sorted := (sortKeys (sortRank ft) ((List.range 64).map fun k => (elem 32 (readV s a).toNat k, elem 32 (readV s b).toNat k))).take n
    let word := fun (k : Nat) => pickWord (drawWords cap (k / 4)) (k % 4)
    let draws := fun (i : Instr) (v : Nat) (g : Nat → Nat) => exec i s = .next (elemsDone 6 v fold d (enabled s p) g t s)
    reduces (.vredsum fold d a p ft rm) w int none0 add ∧
    reduces (.vredmin fold d a p ft) w int top lesser ∧
    reduces (.vredmax fold d a p ft) w int bottom larger ∧
    reduces (.vredminu fold d a p) 32 False (2 ^ 32 - 1) (fun _ y z => min y z) ∧
    reduces (.vredmaxu fold d a p) 32 False 0 (fun _ y z => max y z) ∧
    reduces (.vredand fold d a p) 32 False (2 ^ 32 - 1) (fun _ y z => y &&& z) ∧
    reduces (.vredor fold d a p) 32 False 0 (fun _ y z => y ||| z) ∧
    scans (.vscan fold d a p ft rm) false none0 add ∧
    scans (.vscanx fold d a p ft rm) true none0 add ∧
    scans (.vscanmax fold d a p ft) false bottom larger ∧
    exec (.vsortn fold d a b c ft) s = .next (wholeDone 20 fold
      [allElems 32 d fun k => ((sorted[k]?).map fun e => sortKeyOut ft e.1).getD 0,
       .vector (d.toNat + 1) (BitVec.allOnes 2048) (vecOfElems 32 fun k => ((sorted[k]?).map Prod.snd).getD 0)] t s) ∧
    draws (.vrng fold d p) 32 word ∧
    (ft = 1 → draws (.vrngf fold d p ft) 32 (fun k => roundTo .f32 (.dyadic false (word k / 2 ^ 8) (-24)) 0)) ∧
    (ft = 2 → draws (.vrngf fold d p ft) 16 (fun k => roundTo .bf16 (.dyadic false (elem 16 (word (k / 2)) (k % 2) / 2 ^ 8) (-8)) 0)) ∧
    (ft ≠ 1 → ft ≠ 2 → draws (.vrngf fold d p ft) 16
      (fun k => roundTo .f16 (.dyadic false (elem 16 (word (k / 2)) (k % 2) / 2 ^ 5) (-11)) 0))

/-- R299: the order of `vsortn`: its list of keys with values is a reordering of the 64 slots with ranks that never rise, and equal
ranks keep their order. -/
def Obligations.SortOrders : Prop :=
  ∀ (rank : Nat → Int) (l : List (Nat × Nat)),
    (sortKeys rank l).Perm l ∧ (sortKeys rank l).Pairwise (fun e g => rank g.1 ≤ rank e.1) ∧
    ∀ r, (sortKeys rank l).filter (fun e => rank e.1 = r) = l.filter (fun e => rank e.1 = r)

/-- R304: which moduli are valid, the Montgomery constants of each modulus, and R312's product for a valid one: k q ≡ -1 mod 2^64, w = 2^128 mod q, and
Mont(x) 2^64 ≡ x mod q with Mont(x) below q. -/
def Obligations.MontgomeryConstants : Prop :=
  ∀ (q x : Nat), (validMod q = true ↔ q % 2 = 1 ∧ 3 ≤ q ∧ q < 2 ^ 62) ∧ (validMod q = false → montK q = 0 ∧ montW q = 0) ∧
    (validMod q = true →
      montK q < 2 ^ 64 ∧ (montK q * q + 1) % 2 ^ 64 = 0 ∧ montW q = 2 ^ 128 % q ∧ mont q x < q ∧ mont q x * 2 ^ 64 % q = x % q)

/-- R306 to R315: the modular rows. Element e of a row works under the modulus of lane e mod 16 (a butterfly: of the lower element
of its pair), writes 0 and sets MODERR where that modulus is invalid. Each completes on every tile. -/
def Obligations.ModularRows : Prop :=
  ∀ (fold : BitVec 2) (d a b c stride : BitVec 6) (p stage : BitVec 3) (qset : BitVec 2) (s : State) (t : Nat), s.cur.unit = .tile t →
    let sets := match s.cur.cap with
      | none => (s.tile t).q
      | some c => c.sets
    let set := fun (n : Nat) => mget {} sets n
    let q := fun (e : Nat) => elem 64 (set qset.toNat).q.toNat (e % 16)
    let pair := fun (r : BitVec 6) (e : Nat) => elem 32 (readV s r).toNat e + 2 ^ 32 * elem 32 (readV s (r + 1)).toNat e
    let on := fun (e : Nat) => elemInBeat 32 (beatsOf fold) s.cur.beat e && enabled s p e
    let x := pair a
    let y := pair b
    let z := pair c
    let rows := fun (i : Instr) (lat : Nat) (f : Nat → Nat → Nat) => exec i s = .next (delivered lat t
      (pairResults d on (fun e => !validMod (q e)) fun e => if validMod (q e) then f (q e) e else 0) s)
    let wholes := fun (i : Instr) (lat : Nat) (lane : Nat → Nat) (f : Nat → Nat → Nat) => exec i s = .next (wholeDone lat fold
      (pairResults d (fun _ => true) (fun e => !validMod (q (lane e))) fun e => if validMod (q (lane e)) then f (q (lane e)) e else 0) t s)
    let moves := fun (i : Instr) (f : Nat → Nat) => exec i s = .next (wholeDone 4 fold
      (pairResults d (fun _ => true) (fun _ => false) f) t s)
    let sub := fun (q u v : Nat) => (((u : Int) - v) % q).toNat
    let h := 2 ^ stage.toNat
    let low := fun (k : Nat) => if bitOf k stage.toNat then k - h else k
    rows (.madd fold d a b p qset) 4 (fun q e => (x e + y e) % q) ∧
    rows (.msub fold d a b p qset) 4 (fun q e => sub q (x e) (y e)) ∧
    rows (.mneg fold d a p qset) 4 (fun q e => sub q 0 (x e)) ∧
    rows (.mmulq fold d a b p qset) 8 (fun q e => mont q (x e * y e)) ∧
    rows (.mmac fold d a b c p qset) 8 (fun q e => (mont q (x e * y e) + z e) % q) ∧
    rows (.mtomont fold d a p qset) 8 (fun q e => x e * 2 ^ 64 % q) ∧
    rows (.mfrmont fold d a p qset) 8 (fun q e => mont q (x e)) ∧
    rows (.mred fold d a p qset) 4 (fun q e => x e % q) ∧
    rows (.mmul fold d a b p qset) 12 (fun q e => x e * y e % q) ∧
    wholes (.bflyct fold d a b stage qset) 10 low (fun q k =>
      let m := mont q (x (low k + h) * y (low k))
      if k = low k then (x (low k) + m) % q else sub q (x (low k)) m) ∧
    wholes (.bflygs fold d a b stage qset) 10 low (fun q k =>
      if k = low k then (x (low k) + x (low k + h)) % q else mont q (sub q (x (low k)) (x (low k + h)) * y (low k))) ∧
    wholes (.mauto fold d a b qset) 6 id (fun q k => (autoSum x ((scalarB s b).toNat % 128) k 64 % q).toNat) ∧
    moves (.bfpermRev fold d a) (fun k => x (brev6 k)) ∧
    moves (.bfpermShuf fold d a) (fun k => x (k / 2 + k % 2 * 32)) ∧
    moves (.bfpermStrd fold d a stride) (fun k => x (2 ^ stride.toNat * (k % 2 ^ (6 - stride.toNat)) + k / 2 ^ (6 - stride.toNat))) ∧
    exec (.mqset fold d a) s = .next (wholeDone 40 fold [.modset d.toNat
      { q := BitVec.ofNat 1024 (pack 64 16 x), k := BitVec.ofNat 1024 (pack 64 16 fun l => montK (x l))
        w := BitVec.ofNat 1024 (pack 64 16 fun l => montW (x l)) }] t s) ∧
    moves (.mqget fold d a) (fun e =>
      let m := set a.toNat
      if e < 16 then elem 64 m.q.toNat e else if e < 32 then elem 64 m.k.toNat (e - 16)
      else if e < 48 then elem 64 m.w.toNat (e - 32) else if validMod (elem 64 m.q.toNat (e - 48)) then 1 else 0)

/-! ## Memory accesses of instructions (R113 to R116, R172 to R183, R230 to R235, R441) -/

namespace Sys2Proof.Claims

/-- The access that the issuing unit begins in `s`, as `u` lists it under the next identifier. -/
def begun (s u : State) (o : Op) : Prop :=
  mfind u.ops s.opCount = some o ∧ u.opCount = s.opCount + 1 ∧ o.cur = s.cur ∧ o.issued = s.pcyc ∧ o.served = false ∧ o.refused = false

/-- Register `d` of the issuing unit waits for the access that begins in `s`: in a tile a result due after `lat` advancing cycles
(R175), in a control unit an interlock (R102). -/
def awaited (s u : State) (d : BitVec 6) (lat : Nat) (res : Result) : Prop :=
  match s.cur.unit with
  | .tile t => (u.tile t).pend = (addPending (s.tile t) lat res (some s.opCount)).pend
  | .seq n => d.toNat ≠ 0 → (d.toNat, s.opCount) ∈ (u.seq n).waits

/-- An instruction that writes no memory. -/
def keepsMemory (s u : State) : Prop := u.mem = s.mem ∧ u.peerMem = s.peerMem ∧ u.near = s.near ∧ u.present = s.present

/-- A control unit goes on behind its instruction, and keeps its registers. -/
def goesOn (s u : State) : Prop :=
  ∀ n, s.cur.unit = .seq n → (u.seq n).pc = (Seq.advance (s.seq n) s.pcyc).pc ∧ (u.seq n).s = (s.seq n).s ∧ (u.seq n).ready = s.pcyc + 1

/-- An order channel takes one more operation: none for channel 0 here (R227). -/
def channelFree (s : State) (ch : Nat) : Prop := ch = 0 ∨ (chanOf s s.cur.unit (ch - 1)).open < 65535

/-- The checks of R173 pass for `words` near words at `ea`, issued in quad `q`: in the quad, aligned, within the memory tile or in
a line buffer, and every word in a partition that serves the instruction. -/
def nearGood (s : State) (q : Nat) (ea : Word) (words : Nat) (presence : Bool) : Prop :=
  curQuad s = some q ∧ ea.toNat < 2 ^ 23 ∧ ea.toNat % 8 = 0 ∧
    let mt := memoryOfQuad q (ea.toNat / 2 ^ 21)
    let o := ea.toNat % 2 ^ 21
    (o + 8 * words ≤ 2 ^ 21 ∨ modeAt s mt o = .lineBuffer) ∧
      ∀ k, k < words → modeServes presence (modeAt s mt (wordOffset s mt o k)) = true

end Sys2Proof.Claims

/-- R113 to R115, R386: `ld` and `st` of a control unit, aligned and translated by an entry of its die's TLB that allows them.
A load's register waits for the access; a store sets D of the leaf entry and holds the value of its register. Where a test bank holds an
earlier request of the sequencer's stream the access is tried again in the next cycle, and behind the walk of its `pgstat` it waits for that
walk (R386, R396). -/
def Obligations.DramAccessesBegin : Prop :=
  ∀ (d a : BitVec 6) (imm : BitVec 26) (s : State) (n : Nat) (x : TlbEntry), s.cur.unit = .seq n →
    let va := (readS s a + imm.signExtend 64).toNat
    let pa := Leaf.pa x.leaf + (va - x.va)
    let held := streamHeld s (s.seq n).ctxid (.seq n)
    let free := held = false ∧ walkAhead s n = none
    va < 2 ^ 56 → tlbFind s (dieOfSeq n) (s.seq n).ctxid va = some x →
    let waits := fun (i : Instr) (bytes : Nat) => va % bytes = 0 →
      (held = true → exec i s = .next (s.updSeq n fun q => { q with ready := s.pcyc + 1 })) ∧
      (∀ id, held = false → walkAhead s n = some id → exec i s = .next (s.updSeq n fun q => { q with run := .xlat id, ready := s.pcyc + 1 }))
    let loads := fun (i : Instr) (bytes : Nat) (signed : Bool) => waits i bytes ∧ (free → va % bytes = 0 → Leaf.rd x.leaf = true →
      ∃ u o, exec i s = .next u ∧ begun s u o ∧ o.kind = .dramLoad bytes signed ∧ o.addr = pa ∧ o.va = va ∧ o.dst = some d.toNat ∧
        awaited s u d 0 .moderr ∧ goesOn s u ∧ keepsMemory s u)
    let stores := fun (i : Instr) (bytes : Nat) => waits i bytes ∧ (free → va % bytes = 0 → Leaf.w x.leaf = true →
      readEntry s x.leafAt = x.leaf → Leaf.d x.leaf = true ∨ underTest s x.leafAt = none → (s.ctx (s.seq n).ctxid).snapOpen = none →
      ∃ u o, exec i s = .next u ∧ begun s u o ∧ o.kind = .dramStore bytes (readS s d) ∧ o.addr = pa ∧ o.va = va ∧ o.dst = none ∧
        goesOn s u ∧ Leaf.d (readEntry u x.leafAt) = true ∧ u.near = s.near ∧ u.peerMem = s.peerMem ∧
        (∀ b, b < x.leafAt ∨ x.leafAt + 8 ≤ b → readByte u.mem b = readByte s.mem b))
    loads (.ld d a imm) 8 false ∧
    loads (.ldI8 d a imm) 1 true ∧
    loads (.ldUi8 d a imm) 1 false ∧
    loads (.ldI16 d a imm) 2 true ∧
    loads (.ldUi16 d a imm) 2 false ∧
    loads (.ldI32 d a imm) 4 true ∧
    loads (.ldUi32 d a imm) 4 false ∧
    stores (.st d a imm) 8 ∧
    stores (.stI8 d a imm) 1 ∧
    stores (.stI16 d a imm) 2 ∧
    stores (.stI32 d a imm) 4

/-- R114, R116: DRAM_ACCESS_PERFORMED of a `ld` or `st` that is not refused, with no earlier access of its unit to the same 64-byte
line under way and outside a bank under test. A load's register gets the bytes of memory, extended by the instruction's type, and may
be read; a store writes its bytes and no other. -/
def Obligations.DramAccessesPerformed : Prop :=
  ∀ (s : State) (id n : Nat) (o : Op), mfind s.ops id = some o → o.cur.unit = .seq n → o.refused = false →
    underTest s o.addr = none → blockedByEarlier s id o = false →
    (∀ bytes signed d, o.kind = .dramLoad bytes signed → o.dst = some d → (d, id) ∈ (s.seq n).waits → d ≠ 0 →
      let v := readLE s.mem o.addr bytes
      ∃ u, exec (.dramAccessPerformed id) s = .next u ∧
        regOf (u.seq n).s d = (if signed then BitVec.ofInt 64 (signedOf (8 * bytes) v) else BitVec.ofNat 64 v) ∧
        (∀ r, r ≠ d → regOf (u.seq n).s r = regOf (s.seq n).s r) ∧ (d, id) ∉ (u.seq n).waits ∧
        (u.seq n).pc = (s.seq n).pc ∧ keepsMemory s u ∧ mfind u.ops id = none) ∧
    (∀ bytes v, o.kind = .dramStore bytes v → (s.ctx o.ctx).snapOpen = none →
      ∃ u, exec (.dramAccessPerformed id) s = .next u ∧
        (∀ k, k < bytes → readByte u.mem (o.addr + k) = BitVec.ofNat 8 (v.toNat / 256 ^ k)) ∧
        (∀ b, b < o.addr ∨ o.addr + bytes ≤ b → readByte u.mem b = readByte s.mem b) ∧
        u.near = s.near ∧ u.peerMem = s.peerMem ∧ u.seqs = s.seqs ∧ mfind u.ops id = none)

/-- R114, R115, R358: a misaligned `ld` or `st` raises ALIGN with its address, and one beyond 2^56 or that the entry of the TLB does
not allow raises PAGE, with nothing read or written. -/
def Obligations.DramAccessesFault : Prop :=
  ∀ (d a : BitVec 6) (imm : BitVec 26) (s : State) (n : Nat), s.cur.unit = .seq n →
    let va := (readS s a + imm.signExtend 64).toNat
    let align : Host.Outcome State Fault Refusal := .next (ownFault n 0x02 (BitVec.ofNat 64 va) s)
    let page : Host.Outcome State Fault Refusal := .next (ownFault n 0x03 (BitVec.ofNat 64 va) s)
    let faults := fun (i : Instr) (bytes : Nat) (allows : Word → Bool) =>
      (va % bytes ≠ 0 → exec i s = align) ∧
      (va % bytes = 0 → 2 ^ 56 ≤ va → exec i s = page) ∧
      (va % bytes = 0 → va < 2 ^ 56 → streamHeld s (s.seq n).ctxid (.seq n) = false → walkAhead s n = none → ∀ x, tlbFind s (dieOfSeq n) (s.seq n).ctxid va = some x → allows x.leaf = false → exec i s = page)
    faults (.ld d a imm) 8 Leaf.rd ∧
    faults (.ldI8 d a imm) 1 Leaf.rd ∧
    faults (.ldUi8 d a imm) 1 Leaf.rd ∧
    faults (.ldI16 d a imm) 2 Leaf.rd ∧
    faults (.ldUi16 d a imm) 2 Leaf.rd ∧
    faults (.ldI32 d a imm) 4 Leaf.rd ∧
    faults (.ldUi32 d a imm) 4 Leaf.rd ∧
    faults (.st d a imm) 8 Leaf.w ∧
    faults (.stI8 d a imm) 1 Leaf.w ∧
    faults (.stI16 d a imm) 2 Leaf.w ∧
    faults (.stI32 d a imm) 4 Leaf.w

/-- R174, R175, R178 to R180, R182, R183: near loads and stores, presence words and address generators begin: the access reaches the
banks of its memory tile 6 cycles later, a load's result is due in a tile after 14 advancing cycles. A generator's access is at the
offset that it has behind the accesses of this cycle by tiles of a lower local index (R176), and the generator advances once more. -/
def Obligations.NearAccessesBegin : Prop :=
  ∀ (d a b : BitVec 6) (imm : BitVec 26) (ocx : BitVec 4) (s : State) (q : Nat),
    let sum := readS s a + readS s b
    let at_ := readS s a + imm.signExtend 64
    let toBank := fun (u : State) => u.agenda = s.agenda ++ [(s.pcyc + 6, .bankAccess s.opCount)] ∧ keepsMemory s u ∧ goesOn s u
    let place := fun (o : Op) (ea : Word) (words : Nat) =>
      o.mtile = memoryOfQuad q (ea.toNat / 2 ^ 21) ∧ o.addr = ea.toNat % 2 ^ 21 ∧ o.words = words ∧ o.left = List.range words
    let loads := fun (i : Instr) (kind : OpKind) (ea : Word) (words : Nat) (presence vec : Bool) => nearGood s q ea words presence →
      ∃ u o, exec i s = .next u ∧ begun s u o ∧ o.kind = kind ∧ place o ea words ∧ o.dst = some d.toNat ∧
        awaited s u d 14 (if vec then .vector d.toNat (BitVec.allOnes 2048) 0 else .scalar d.toNat 0) ∧ toBank u
    let ch := if ocx.toNat < 8 then 0 else ocx.toNat % 4 + 1
    let stores := fun (i : Instr) (kind : OpKind) (words : Nat) (presence : Bool) => nearGood s q sum words presence → channelFree s ch →
      ∃ u o, exec i s = .next u ∧ begun s u o ∧ o.kind = kind ∧ place o sum words ∧ o.dst = none ∧ o.chan = ch ∧
        (ch ≠ 0 → o.seqn = (chanOf s s.cur.unit (ch - 1)).issued + 1 ∧ (chanOf u s.cur.unit (ch - 1)).issued = o.seqn) ∧ toBank u
    let isTile := ∃ t, s.cur.unit = .tile t
    let gen := fun (r : BitVec 6) => (memoryOfQuad q (r.toNat / 4 % 4), r.toNat % 4)
    let genOf := fun (u : State) (r : BitVec 6) => mget {} (u.mtile (gen r).1).gens (gen r).2
    let opened := fun (r : BitVec 6) => (genOf s r).opened s.pcyc
    let offset := fun (r : BitVec 6) (t : Nat) => ((opened r).steps ((opened r).takers.filter fun x => x.1 < localOfPos t).length).offset
    let genGood := fun (r : BitVec 6) (t : Nat) => s.cur.unit = .tile t ∧ curQuad s = some q ∧
      ((opened r).takers.map Prod.fst).Pairwise (· < ·) ∧ (∀ x, x ∈ (opened r).takers → x.1 ≠ localOfPos t ∧ x.2 < s.opCount) ∧
      ∀ k, k < 32 → modeServes false (modeAt s (gen r).1 (wordOffset s (gen r).1 (offset r t) k)) = true
    let genPlaced := fun (u : State) (o : Op) (r : BitVec 6) (t : Nat) => o.mtile = (gen r).1 ∧ o.addr = offset r t ∧ o.words = 32 ∧
      o.left = List.range 32 ∧
      let x := (opened r).steps ((opened r).takers.length + 1)
      (genOf u r).desc = x.desc ∧ (genOf u r).j0 = x.j0 ∧ (genOf u r).j1 = x.j1 ∧ (genOf u r).j2 = x.j2
    (isTile → loads (.nld d a imm) .nearLoad at_ 32 false true) ∧
    loads (.nlds d a imm) .nearLoad at_ 1 false false ∧
    (isTile → stores (.nst d a b ocx) (.nearStore (readV s d)) 32 false) ∧
    stores (.nsts d a b ocx) (.nearStore ((readS s d).setWidth 2048)) 1 false ∧
    loads (.pld d a b) .presLoad sum 1 true false ∧
    (isTile → loads (.pldv d a b) .presLoad sum 32 true true) ∧
    stores (.pst d a b ocx) (.presStore ((readS s d).setWidth 2048)) 1 true ∧
    (isTile → stores (.pstv d a b ocx) (.presStore (readV s d)) 32 true) ∧
    (∀ p, nearGood s q (readS s a) 1 true → (readS s b).toNat ≠ 0 → (readS s b).toNat ≤ 262144 →
      partAt s (memoryOfQuad q ((readS s a).toNat / 2 ^ 21)) ((readS s a).toNat % 2 ^ 21) = some p →
      (readS s a).toNat % 2 ^ 21 + 8 * (readS s b).toNat ≤ p.base + p.granules * 65536 → ownsPart s p = true →
      ∃ u o, exec (.pclr a b) s = .next u ∧ begun s u o ∧ o.kind = .presClear ∧
        o.mtile = memoryOfQuad q ((readS s a).toNat / 2 ^ 21) ∧ o.addr = (readS s a).toNat % 2 ^ 21 ∧ o.words = (readS s b).toNat ∧ toBank u) ∧
    (readS s b = 0 → exec (.pclr a b) s = .next (done s)) ∧
    (isTile → nearGood s q (readS s a) 4 false → ∃ u o, exec (.agset d a) s = .next u ∧ begun s u o ∧ o.kind = .takePattern (gen d).2 ∧
      place o (readS s a) 4 ∧ awaited s u 0 14 (.pattern (gen d).1 (gen d).2 0) ∧ toBank u) ∧
    (∀ t, genGood a t → ∃ u o, exec (.agld d a) s = .next u ∧ begun s u o ∧ o.kind = .nearLoad ∧ genPlaced u o a t ∧
      o.dst = some d.toNat ∧ awaited s u d 14 (.vector d.toNat (BitVec.allOnes 2048) 0) ∧ toBank u) ∧
    (∀ t, genGood d t → ∃ u o, exec (.agst d a) s = .next u ∧ begun s u o ∧ o.kind = .nearStore (readV s a) ∧ genPlaced u o d t ∧
      o.dst = none ∧ toBank u)

/-- R175, R176, R178 to R182: an access at its banks, with the banks of all its words free (they have served no access in this cycle, and
no earlier atomic of its unit waits there) and the words in different banks. A store writes its words and no other byte, a load's value
is usable 8 cycles later (and the 8 of R374 where a read was repeated), a presence store sets the bits of words that were empty,
a presence load is answered where its words are present (and else waits for them), `pclr` clears its bits (256 a cycle), a generator
takes its next pattern. -/
def Obligations.NearAccessesServed : Prop :=
  ∀ (s : State) (id : Nat) (o : Op), mfind s.ops id = some o → o.addr % 8 = 0 →
    let w := fun (k : Nat) => wordOffset s o.mtile o.addr k
    let free := (∀ k, k < o.words → w k / 8 % 256 ∉ closedBanks s id o) ∧ ((List.range o.words).map fun k => w k / 8 % 256).Nodup
    let pw := fun (k : Nat) => o.addr + 8 * k
    let pfree := ∀ k, k < o.words → pw k / 8 % 256 ∉ closedBanks s id o
    let outside := fun (b : Nat) (f : Nat → Nat) => ∀ k, k < o.words → b < nearKey o.mtile (f k) ∨ nearKey o.mtile (f k) + 8 ≤ b
    let served := fun (u : State) (f : Nat → Nat) => u.near = s.near ∧ u.present = s.present ∧ u.mem = s.mem ∧
      ∃ p, mfind u.ops id = some p ∧ p.served = true ∧ p.usable = s.pcyc + 8 + o.slow ∧
        ∀ k, k < o.words → k < 32 → elem 64 p.got.toNat k = nearWord s o.mtile (f k)
    (o.kind = .nearLoad → o.left = List.range o.words → o.got = 0 → o.words ≠ 0 → free →
      ∃ u, exec (.bankAccess id) s = .next u ∧ served u w) ∧
    (∀ g, o.kind = .takePattern g → o.left = List.range o.words → o.got = 0 → o.words ≠ 0 → free →
      ∃ u, exec (.bankAccess id) s = .next u ∧ served u w) ∧
    (∀ v, o.kind = .nearStore v → o.left = List.range o.words → o.words ≤ 32 → o.words ≠ 0 → free →
      ∃ u, exec (.bankAccess id) s = .next u ∧ mfind u.ops id = none ∧ u.present = s.present ∧ u.mem = s.mem ∧
        (∀ k, k < o.words → nearWord u o.mtile (w k) = elem 64 v.toNat k) ∧
        (∀ b, outside b w → readByte u.near b = readByte s.near b)) ∧
    (o.kind = .presLoad → (∀ k, k < o.words → isPresent s o.mtile (pw k) = true) → pfree →
      ∃ u, exec (.bankAccess id) s = .next u ∧ served u pw) ∧
    (o.kind = .presLoad → (∃ k, k < o.words ∧ isPresent s o.mtile (pw k) = false) →
      exec (.bankAccess id) s = .next (setOp id { o with left := [] } s)) ∧
    (o.kind = .presLoad → o.served = false → (∀ k, k < o.words → isPresent s o.mtile (pw k) = true) → pfree →
      ∃ u, exec (.presenceReadServed id) s = .next u ∧ served u pw) ∧
    (∀ v, o.kind = .presStore v → o.words ≤ 32 → (∀ k, k < o.words → isPresent s o.mtile (pw k) = false) → pfree →
      ∃ u, exec (.bankAccess id) s = .next u ∧ mfind u.ops id = none ∧ u.mem = s.mem ∧
        (∀ k, k < o.words → nearWord u o.mtile (pw k) = elem 64 v.toNat k ∧ isPresent u o.mtile (pw k) = true) ∧
        (∀ b, outside b pw → readByte u.near b = readByte s.near b) ∧
        (∀ m p, (∀ k, k < o.words → presKey m p ≠ presKey o.mtile (pw k)) → isPresent u m p = isPresent s m p)) ∧
    (o.kind = .presClear → o.left = List.range o.words → o.words ≤ 256 → free →
      ∃ u, exec (.bankAccess id) s = .next u ∧ mfind u.ops id = none ∧ u.near = s.near ∧ u.mem = s.mem ∧
        (∀ k, k < o.words → isPresent u o.mtile (pw k) = false) ∧
        (∀ m p, (∀ k, k < o.words → presKey m p ≠ presKey o.mtile (pw k)) → isPresent u m p = isPresent s m p)) ∧
    (∀ mt g x rest, (mget {} (s.mtile mt).gens g).next = x :: rest →
      ∃ u, exec (.generatorTakePattern mt g) s = .next u ∧
        mget {} (u.mtile mt).gens g = { desc := x, j0 := 0, j1 := 0, j2 := 0, next := rest } ∧ keepsMemory s u)

namespace Sys2Proof.Claims

/-- The new word of R233, by SUB. -/
def atomicResult (sub : Nat) (w b c : BitVec 32) : BitVec 32 :=
  if sub = 0 then BitVec.ofInt 32 (w.toInt + b.toInt)
  else if sub = 1 then BitVec.ofInt 32 (min w.toInt b.toInt)
  else if sub = 2 then BitVec.ofInt 32 (max w.toInt b.toInt)
  else if sub = 3 then w &&& b
  else if sub = 4 then w ||| b
  else if sub = 5 then w ^^^ b
  else if sub = 6 then b
  else if sub = 7 then (if w = b then c else w)
  else if sub = 8 then BitVec.ofNat 32 (roundTo .f32 (.add false (.decode .f32 w.toNat) (.decode .f32 b.toNat)) 0)
  else if sub = 9 then BitVec.ofNat 32 (min w.toNat b.toNat)
  else BitVec.ofNat 32 (max w.toNat b.toNat)

/-- The old word as an instruction returns it (R233). -/
def oldWord (sub : Nat) (w : BitVec 32) : Word := if sub ≤ 2 then BitVec.ofInt 64 w.toInt else BitVec.ofNat 64 w.toNat

/-- The aligned 32-bit word of a memory tile. -/
def word32 (s : State) (mt o : Nat) : BitVec 32 := BitVec.ofNat 32 (readLE s.near (nearKey mt o) 4)

/-- Near memory changes in the four bytes of a word only. -/
def changesWord (s u : State) (mt o : Nat) : Prop :=
  ∀ b, b < nearKey mt o ∨ nearKey mt o + 4 ≤ b → readByte u.near b = readByte s.near b

end Sys2Proof.Claims

/-- R230, R231, R233 to R235: `amo` and `red` on a word that their scope reaches: the access carries SUB and its operands, leaves for
the atomic pipeline of its memory tile (6 cycles near; far, a time that the model leaves open), and a result is due in a timed list after
20, 160 or 1,024 advancing cycles. -/
def Obligations.AtomicsBegin : Prop :=
  ∀ (d a b c : BitVec 6) (oc scope : BitVec 3) (s : State) (mt o : Nat),
    let ch := if oc.toNat < 4 then 0 else oc.toNat % 4 + 1
    let lat := if scope.toNat ≤ 2 then 20 else if scope.toNat = 3 then 160 else 1024
    atomicTarget s (readS s a) = some (mt, o) → o % 4 = 0 → inScope s scope.toNat mt = true →
    (isFar s mt = true ∨ atomicServes s mt o = true) → channelFree s ch →
    let begins := fun (i : Instr) (sub : Nat) (third : BitVec 32) (dst : Option (BitVec 6)) =>
      ∃ u p, exec i s = .next u ∧ begun s u p ∧ p.kind = .atomic sub ((readS s b).setWidth 32) third dst.isSome ∧ p.mtile = mt ∧ p.addr = o ∧
        p.chan = ch ∧ p.dst = dst.map BitVec.toNat ∧ (∀ r, dst = some r → awaited s u r lat (.scalar r.toNat 0)) ∧
        (ch ≠ 0 → p.seqn = (chanOf s s.cur.unit (ch - 1)).issued + 1) ∧
        (isFar s mt = false → u.agenda = s.agenda ++ [(s.pcyc + 6, .atomicPipelineTake s.opCount)]) ∧
        (isFar s mt = true → ∃ n, s.pcyc < n ∧ u.agenda = s.agenda ++ [(n, .atomicPipelineTake s.opCount)]) ∧ keepsMemory s u ∧ goesOn s u
    let zeroReg := (readS s 0).setWidth 32
    begins (.amoAdd d a b oc scope) 0 zeroReg (some d) ∧
    begins (.amoMin d a b oc scope) 1 zeroReg (some d) ∧
    begins (.amoMax d a b oc scope) 2 zeroReg (some d) ∧
    begins (.amoAnd d a b oc scope) 3 zeroReg (some d) ∧
    begins (.amoOr d a b oc scope) 4 zeroReg (some d) ∧
    begins (.amoXor d a b oc scope) 5 zeroReg (some d) ∧
    begins (.amoSwap d a b oc scope) 6 zeroReg (some d) ∧
    begins (.amoCas d a b c oc scope) 7 ((readS s c).setWidth 32) (some d) ∧
    begins (.amoFadd d a b oc scope) 8 zeroReg (some d) ∧
    begins (.amoMinu d a b oc scope) 9 zeroReg (some d) ∧
    begins (.amoMaxu d a b oc scope) 10 zeroReg (some d) ∧
    begins (.redAdd a b oc scope) 0 zeroReg none ∧
    begins (.redMin a b oc scope) 1 zeroReg none ∧
    begins (.redMax a b oc scope) 2 zeroReg none ∧
    begins (.redAnd a b oc scope) 3 zeroReg none ∧
    begins (.redOr a b oc scope) 4 zeroReg none ∧
    begins (.redXor a b oc scope) 5 zeroReg none ∧
    begins (.redFadd a b oc scope) 8 zeroReg none ∧
    begins (.redMinu a b oc scope) 9 zeroReg none ∧
    begins (.redMaxu a b oc scope) 10 zeroReg none

/-- R443, R444: `ramo` to a live rank with an UP link leaves on the lowest-numbered one; to the package's own rank it stays in the
package. -/
def Obligations.RemoteAtomicsBegin : Prop :=
  ∀ (d a b c : BitVec 6) (oc : BitVec 3) (s : State) (mt l : Nat),
    let x := readS s a
    let r := bitsOf x.toNat 42 6
    let ch := if oc.toNat < 4 then 0 else oc.toNat % 4 + 1
    bitsOf x.toNat 21 21 = 0 → remoteTile x = some mt → x.toNat % 4 = 0 → channelFree s ch →
    let begins := fun (i : Instr) (sub : Nat) (third : BitVec 32) =>
      (r = s.rank → ∃ u p n, exec i s = .next u ∧ begun s u p ∧
        p.kind = .remote sub ((readS s b).setWidth 32) third r 16 ∧ p.mtile = mt ∧ p.addr = x.toNat % 2 ^ 21 ∧ p.chan = ch ∧
        awaited s u d 2048 (.scalar d.toNat 0) ∧ s.pcyc < n ∧ u.agenda = s.agenda ++ [(n, .ramoInvocationArrival 16)] ∧
        keepsMemory s u ∧ goesOn s u) ∧
      (r ≠ s.rank → liveEntry (mget 0 s.ranks r) = true → (upLinks s r).head? = some l → ∃ u p, exec i s = .next u ∧ begun s u p ∧
        p.kind = .remote sub ((readS s b).setWidth 32) third r l ∧ p.chan = ch ∧ awaited s u d 2048 (.scalar d.toNat 0) ∧
        (u.link l).itemsOut = (s.link l).itemsOut ++ [{ cls := 1, ctx := curCtx s, rank := s.rank, itag := s.opCount % 65536, a := x
                                                        b := (readS s b).setWidth 32, c := third, sub := sub
                                                        ft := if sub = 8 then 1 else 0 }] ∧
        (u.link l).inFlight = (s.link l).inFlight ++ [(s.opCount % 65536, s.opCount)] ∧ keepsMemory s u ∧ goesOn s u)
    begins (.ramoAdd d a b oc) 0 0 ∧
    begins (.ramoMin d a b oc) 1 0 ∧
    begins (.ramoMax d a b oc) 2 0 ∧
    begins (.ramoAnd d a b oc) 3 0 ∧
    begins (.ramoOr d a b oc) 4 0 ∧
    begins (.ramoXor d a b oc) 5 0 ∧
    begins (.ramoSwap d a b oc) 6 0 ∧
    begins (.ramoCas d a b c oc) 7 ((readS s c).setWidth 32) ∧
    begins (.ramoFadd d a b oc) 8 0 ∧
    begins (.ramoMinu d a b oc) 9 0 ∧
    begins (.ramoMaxu d a b oc) 10 0

/-- R230, R233, R234, R443, R444: the atomic at its bank, with the bank free and no earlier atomic
in its input channel. The word gets the new value of R233 and no other byte
changes; the old word goes back to the issuer, and a `red` is complete. A far or remote target that no atomic may act on changes
nothing, and the refusal returns as PART. -/
def Obligations.AtomicsPerformed : Prop :=
  ∀ (s : State) (id : Nat) (o : Op), mfind s.ops id = some o →
    let free := o.addr / 8 % 256 ∉ busyBanks s o.mtile
    let old := word32 s o.mtile o.addr
    let updates := fun (u : State) (sub : Nat) (b c : BitVec 32) =>
      word32 u o.mtile o.addr = atomicResult sub old b c ∧ changesWord s u o.mtile o.addr ∧ u.present = s.present ∧ u.mem = s.mem
    (∀ sub b c answers, sub ≤ 10 → o.kind = .atomic sub b c answers → o.refused = false → o.left ≠ [] → free → atomicServes s o.mtile o.addr = true →
      channelStalled s id { o with entered := some (o.entered.getD s.pcyc) } = false →
      ∃ u, exec (.atomicPipelineTake id) s = .next u ∧ updates u sub b c ∧ (answers = false → mfind u.ops id = none) ∧
        (answers = true → ∃ p, mfind u.ops id = some p ∧ p.got.setWidth 64 = oldWord sub old ∧ p.left = [] ∧
          (o.far = false → p.served = true ∧ p.usable = s.pcyc + 14 + o.slow) ∧ (o.far = true → p.served = o.served))) ∧
    (∀ sub b c answers, o.kind = .atomic sub b c answers → o.refused = false → o.left ≠ [] → o.far = true →
      atomicServes s o.mtile o.addr = false →
      ∃ u, exec (.atomicPipelineTake id) s = .next u ∧ keepsMemory s u ∧ ∃ p, mfind u.ops id = some p ∧ p.refused = true) ∧
    (∀ n d, o.refused = false → o.cur.unit = .seq n → o.dst = some d → d ≠ 0 → (d, id) ∈ (s.seq n).waits →
      (∃ u, exec (.farAtomicReply id) s = .next u ∧ regOf (u.seq n).s d = o.got.setWidth 64 ∧ (d, id) ∉ (u.seq n).waits ∧ keepsMemory s u) ∧
      (∃ u, exec (.ramoReply id) s = .next u ∧ regOf (u.seq n).s d = o.got.setWidth 64 ∧ (d, id) ∉ (u.seq n).waits ∧ keepsMemory s u)) ∧
    (o.refused = true → exec (.farAtomicReply id) s = .next (completionFault id 0x21 (BitVec.ofNat 64 o.va) s) ∧
      exec (.ramoReply id) s = .next (completionFault id 0x21 (BitVec.ofNat 64 o.va) s)) ∧
    (∀ (l : Nat) (i : DynItem) (rest : List DynItem), l < 16 → (s.link l).itemsIn = i :: rest → i.sub ≤ 10 →
      remoteTile i.a = some o.mtile → o.addr = i.a.toNat % 2 ^ 21 → remoteServes s i.ctx o.mtile o.addr = true →
      invocationWaits s o.mtile o.addr (i.entered.getD s.pcyc) = false →
      ∃ u, exec (.ramoInvocationArrival l) s = .next u ∧ updates u i.sub i.b i.c ∧ (u.link l).itemsIn = rest ∧
        (u.link l).itemsOut = (s.link l).itemsOut ++
          [{ cls := 2, ctx := i.ctx, rank := s.rank, itag := i.itag, a := BitVec.ofNat 64 old.toNat }]) ∧
    (∀ sub b c r, sub ≤ 10 → s.ops = [(id, o)] → o.kind = .remote sub b c r 16 → o.left ≠ [] → remoteServes s o.ctx o.mtile o.addr = true →
      invocationWaits s o.mtile o.addr (o.entered.getD s.pcyc) = false →
      ∃ u, exec (.ramoInvocationArrival 16) s = .next u ∧ updates u sub b c ∧
        ∃ p, mfind u.ops id = some p ∧ p.got.setWidth 64 = oldWord sub old ∧ p.left = [])

/-! ## Control network, order channels and waits (R211 to R221, R227 to R229, R236, R364) -/

/-- R213, R219 to R221, R227, R229, R236, R364: `csig` and `ordj` send a signal or a control token from a bound port, `ordj` at once, or
when the operations issued so far are complete; `cwait` takes a release or waits for one; `ctest` counts the window; `fence` issues, and
the later instructions wait for the accesses in its reach; `idle` waits for a wake. In sequencer code a port of the wrong kind raises ILLEGAL. -/
def Obligations.ControlInstructions : Prop :=
  ∀ (d a : BitVec 6) (scope : BitVec 3) (s : State),
    let u0 := s.cur.unit
    let ctx := unitCtx s u0
    let port := fun (r : BitVec 6) => mget {} (unitCx s u0) r.toNat
    let colour := match u0 with
      | .tile _ => (s.actor (State.actorKey s.cur.ctx s.cur.slot s.cur.actor)).colour
      | .seq _ => 0
    let token := fun (tag : Nat) => ({ kind := .ctrl, tag := tag, colour := colour } : Token)
    let chan := chanOf s u0 a.toNat
    let isTile := ∃ t, u0 = .tile t
    let sends := fun (i : Instr) =>
      (∀ g j m, (port d).link = .join g j m → ∃ u, exec i s = .next u ∧
        u.agenda = s.agenda ++ [(s.pcyc + (routeTime u0.pos (joinAt s ctx g j).elem + 1), .joinSignalArrival ctx g j m)] ∧
        keepsMemory s u ∧ goesOn s u) ∧
      (∀ tag x, (port d).link = .prod tag → s.arc? (State.arcKey ctx tag) = some x →
        ((∀ r, x.dst ≠ .remote r) → ∃ u y, exec i s = .next u ∧ u.arc? (State.arcKey ctx tag) = some y ∧
          y.transit = x.transit ++ [token tag] ∧ y.sent = x.sent + 1 ∧
          u.agenda = s.agenda ++ [(s.pcyc + (routeTime u0.pos (x.dst.pos.getD 0) + 1), .controlTokenArrival ctx tag)] ∧
          keepsMemory s u ∧ goesOn s u) ∧
        (∀ r, x.dst = .remote r → exec i s = .next (done (sendToken (State.arcKey ctx tag) (token tag) s)))) ∧
      (∀ tag, (port d).link = .prod tag → s.arc? (State.arcKey ctx tag) = none → exec i s = .next (done s)) ∧
      (isTile → canSignal (port d).link = false → exec i s = .next s)
    sends (.csig d) ∧
    (chan.issued ≤ chan.upto → sends (.ordj d a)) ∧
    (chan.upto < chan.issued → isTile ∨ canSignal (port d).link = true →
      ∃ u, exec (.ordj d a) s = .next u ∧ (chanOf u u0 a.toNat).joins = chan.joins ++ [(chan.issued, d.toNat, colour)] ∧
        u.agenda = s.agenda ∧ keepsMemory s u ∧ goesOn s u) ∧
    (∀ n, u0 = .seq n →
      let q := s.seq n
      (canWait (port a).link = true → 0 < (port a).held → ∃ u, exec (.cwait a) s = .next u ∧
        ((mget {} (u.seq n).cx a.toNat).held + (mget {} (u.seq n).cx a.toNat).waiting + 1 = (port a).held + (port a).waiting) ∧
        keepsMemory s u ∧ goesOn s u) ∧
      (canWait (port a).link = true → (port a).held = 0 →
        exec (.cwait a) s = .next (s.updSeq n fun q => { q with run := .cwait a.toNat, ready := s.pcyc + 1 })) ∧
      (canWait (port a).link = true → exec (.ctest d a) s = .next (scalarDone 1 d (BitVec.ofNat 64 (min 255 (port a).held)) s)) ∧
      (let waits := fun (k : Nat) => ∃ e, e ∈ s.ops ∧ e.2.cur.unit = .seq n ∧ inReach s n k e.2 = true
       (¬ waits scope.toNat → exec (.fence scope) s = .next (s.updSeq n fun q => { q.advance s.pcyc with run := .run })) ∧
       (waits scope.toNat → exec (.fence scope) s = .next (s.updSeq n fun q => { q.advance s.pcyc with run := .fence scope.toNat })) ∧
       (∀ k rest, s.todo = .seq n :: rest → q.run = .fence k → q.trap = true ∨ (q.refused = [] ∧ q.queue = []) → waits k →
         step s = .next { s with todo := rest })) ∧
      exec .idle s = .next (s.updSeq n fun q => { q with run := .idle, last := s.pcyc, ready := s.pcyc + 1 }) ∧
      (canSignal (port d).link = false → exec (.csig d) s = .next (ownFault n 0x01 5 s) ∧ exec (.ordj d a) s = .next (ownFault n 0x01 5 s)) ∧
      (canWait (port a).link = false → exec (.cwait a) s = .next (ownFault n 0x01 5 s) ∧ exec (.ctest d a) s = .next (ownFault n 0x01 5 s)))

/-- R213, R215, R216, R227 to R229: signals, releases, control tokens and order tokens arrive. A join counts its signal, and fires when
every member has one; a release and a control token enter the window of their port; an order token moves C of its channel on. -/
def Obligations.ControlArrivals : Prop :=
  ∀ (s : State) (ctx slot j m : Nat) (g : Graph), s.graph? ctx slot = some g → j < g.joins.length →
    let x := joinAt s ctx slot j
    let others := moreSignals ctx slot j s.todo
    (x.state = .armed → m < x.counts.length → x.counts.getD m 0 < 255 → x.firedAt ≠ some s.pcyc →
      ∃ u, exec (.joinSignalArrival ctx slot j m) s = .next u ∧
        let y := joinAt u ctx slot j
        let risen := fun (k : Nat) => x.counts.getD k 0 + bit (k = m)
        ((others = true ∨ ∃ k, k < x.counts.length ∧ risen k = 0) →
          y.counts.length = x.counts.length ∧ (∀ k, k < x.counts.length → y.counts.getD k 0 = risen k) ∧ u.agenda = s.agenda) ∧
        (others = false → (∀ k, k < x.counts.length → 0 < risen k) → x.heldSigs = [] →
          (∀ k, k < x.counts.length → y.counts.getD k 0 = risen k - 1) ∧ y.firedAt = some s.pcyc ∧
          ∀ k v p, k < x.counts.length → memberOf s ctx slot j k = some (v, p) →
            (s.pcyc + (routeTime x.elem v.pos + 1), .releaseArrival ctx slot j k) ∈ u.agenda)) ∧
    (∀ t p, memberOf s ctx slot j m = some (.tile t, p) → (mget {} (s.tile t).cx p).skip = 0 →
      ∃ u, exec (.releaseArrival ctx slot j m) s = .next u ∧
        mget {} (u.tile t).cx p = { mget {} (s.tile t).cx p with held := (mget {} (s.tile t).cx p).held + 1 }) ∧
    (∀ tag a n p, s.arc? (State.arcKey ctx tag) = some a → a.dst = .seq n p → (mget {} (s.seq n).cx p).skip = 0 →
      (mget {} (s.seq n).cx p).held < 255 →
      ∃ u, exec (.controlTokenArrival ctx tag) s = .next u ∧
        mget {} (u.seq n).cx p = { mget {} (s.seq n).cx p with held := (mget {} (s.seq n).cx p).held + 1 } ∧
        ((s.seq n).run = .cwait p → (u.seq n).run = .run) ∧ ((s.seq n).run = .idle → (u.seq n).run = .run ∧ (u.seq n).pc = (Seq.advance (s.seq n) s.pcyc).pc)) ∧
    (∀ t c k, t < 4096 → (mget {} (s.tile t).oc c).done = [] → (mget {} (s.tile t).oc c).joins = [] →
      (k = (mget {} (s.tile t).oc c).upto + 1 → ∃ u, exec (.orderTokenArrival t c k) s = .next u ∧
        mget {} (u.tile t).oc c = { mget {} (s.tile t).oc c with upto := k, done := [] }) ∧
      (k ≠ (mget {} (s.tile t).oc c).upto + 1 → ∃ u, exec (.orderTokenArrival t c k) s = .next u ∧
        mget {} (u.tile t).oc c = { mget {} (s.tile t).oc c with done := [k] }))

/-! ## Arcs (R150 to R170, R222 to R226, R256) -/

namespace Sys2Proof.Claims

/-- The passing markers at the head of a window, and what follows them (R152). -/
def headMarkers (w : List Token) : List Token := w.takeWhile fun t => decide (t.kind = .punct ∨ t.kind = .snap)

/-- A token leaves the producer of an arc that stands in this package: on the scheduled plane it flies to the first router of its route
with a fixed time (R38, R158, R204), and on the dynamic one it arrives in a later cycle that the model leaves open (R39, R159). -/
def departs (s u : State) (ctx tag : Nat) (x : Arc) (tok : Token) : Prop :=
  (∃ y, u.arc? (State.arcKey ctx tag) = some y ∧ y.transit = x.transit ++ [tok] ∧ y.sent = x.sent + 1 ∧ y.window = x.window) ∧
  (x.kind = .slot → u.agenda = s.agenda ++ [(s.pcyc + x.firstLeg, .scheduledTokenArrival ctx tag)] ∧
    ∃ y, u.arc? (State.arcKey ctx tag) = some y ∧ y.flights = x.flights ++ [{ leg := 0, due := s.pcyc + x.firstLeg }]) ∧
  (x.kind ≠ .slot → ∃ n, s.pcyc < n ∧ u.agenda = s.agenda ++ [(n, .ringWindowWrite ctx tag)])

end Sys2Proof.Claims

/-- R168 to R170, R224, R225, R256: `pop`, `popd` and `peek` on a window with a token for them, `push`, `punct`, `punctall` and `cret`
on ports whose arcs take a token. `pop` removes the markers ahead of its token, gives the actor its colour after one advancing cycle and
its payload to the register after two; `peek` leaves the window as it is. -/
def Obligations.ArcInstructions : Prop :=
  ∀ (fold : BitVec 2) (d a : BitVec 6) (ft : BitVec 3) (s : State) (t : Nat) (x : Arc) (tag : Nat), s.cur.unit = .tile t → tag < 4096 →
    let ctx := s.cur.ctx
    let key := State.arcKey ctx tag
    let me := State.actorKey ctx s.cur.slot s.cur.actor
    let colour := (s.actor me).colour
    let inp := mget {} (s.tile t).inPorts a.toNat
    let out := mget {} (s.tile t).outPorts d.toNat
    let marks := headMarkers x.window
    s.arc? key = some x →
    let pops := fun (i : Instr) (tok : Token) (rs : List Result) => ∃ u y, exec i s = .next u ∧ u.arc? key = some y ∧
      y.read = x.read + ((marks ++ [tok]).filter Token.spends).length ∧ y.window = x.window.drop (marks.length + 1) ∧
      (mget {} (u.tile t).inPorts a.toNat).count = inp.count + 1 ∧
      (mget {} (u.tile t).inPorts a.toNat).ps = (inp.ps || marks.any fun m => m.kind == .punct) ∧
      (u.tile t).pend = ((delivered 2 t rs (delivered 1 t [.colour me tok.colour] s)).tile t).pend ∧ keepsMemory s u
    let items := (x.window.takeWhile fun m => decide (m.kind ≠ .mode ∧ m.kind ≠ .drain)).filter Token.isItem
    let open_ := x.kind = .slot ∨ x.sent - x.seen < x.cap + 64 * x.chunks
    let sends := fun (i : Instr) (tok : Token) (counted : Prop) => out.arc = some tag → open_ → (∀ r, x.dst ≠ .remote r) →
      ∃ u, exec i s = .next u ∧ departs s u ctx tag x { tok with tag := tag } ∧
        (counted → (mget {} (u.tile t).outPorts d.toNat).count = out.count + 1) ∧ (¬ counted → u.tiles = s.tiles) ∧ keepsMemory s u
    (inp.arc = some tag → ∀ tok, x.window[marks.length]? = some tok → tok.kind ≠ .mode → tok.kind ≠ .drain →
      (marks.filter fun m => m.kind == .punct).length + bit inp.ps ≤ 1 →
      pops (.pop fold d a) tok [payloadResult d s.cur.beat tok.payload] ∧ pops (.popd fold a) tok []) ∧
    (inp.arc = some tag → ∀ tok, items[s.cur.beat]? = some tok →
      exec (.peek fold d a) s = .next (delivered 2 t [payloadResult d s.cur.beat tok.payload] (delivered 1 t [.colour me tok.colour] s))) ∧
    sends (.push fold d a ft)
      { kind := .data, colour := colour, fmt := ft.toNat, payload := BitVec.ofNat 512 ((readV s a).toNat / 2 ^ (512 * s.cur.beat)) } True ∧
    sends (.punct d) { kind := .punct, colour := colour } False ∧
    (colour = 0 ∨ (colour ∈ (s.ctx ctx).drawn ∧ colour ∉ (s.ctx ctx).returned) →
      sends (.cret d) { kind := .data, colour := colour, payload := BitVec.ofNat 512 colour } True ∧
      (colour ≠ 0 → out.arc = some tag → open_ → ∃ u, exec (.cret d) s = .next u ∧ (u.ctx ctx).returned = (s.ctx ctx).returned ++ [colour])) ∧
    ((∀ e, e ∈ (s.tile t).inPorts → e.2.owner = s.cur.actor → e.2.ps = true) →
      (∀ e, e ∈ (s.tile t).outPorts → e.2.owner = s.cur.actor → ∃ v y, e.2.arc = some v ∧ s.arc? (State.arcKey ctx v) = some y ∧
        (y.kind = .slot ∨ y.sent - y.seen < y.cap + 64 * y.chunks) ∧ ∀ r, y.dst ≠ .remote r) →
      ∃ u, exec .punctall s = .next u ∧
        (∀ e, e ∈ (u.tile t).inPorts → e.2.owner = s.cur.actor → e.2.ps = false) ∧
        (∀ e, e ∈ (s.tile t).outPorts → e.2.owner = s.cur.actor → ∀ v, e.2.arc = some v → ∃ y, u.arc? (State.arcKey ctx v) = some y ∧
          { kind := .punct, tag := v, colour := colour } ∈ y.transit) ∧ keepsMemory s u)

/-- R29, R165, R168, R170, R222, R226: a `pop` whose window holds no token, and a `push` whose window has no room, freeze their region
with WHY 2 and 3; a `pop` that meets a MODE or DRAIN marker raises RATE; `punctall` with an input port without its PUNCT raises PUNCT. -/
def Obligations.ArcInstructionsStop : Prop :=
  ∀ (fold : BitVec 2) (d a : BitVec 6) (ft : BitVec 3) (s : State) (t k : Nat) (x : Arc) (tag : Nat),
    s.cur.unit = .tile t → (s.tile t).region = some k → s.arc? (State.arcKey s.cur.ctx tag) = some x → (s.regionAt k).waiting = none →
    let inp := mget {} (s.tile t).inPorts a.toNat
    let out := mget {} (s.tile t).outPorts d.toNat
    let freezes := fun (i : Instr) (why : FreezeWhy) (port : Nat) => exec i s = .next (s.setRegion k { s.regionAt k with
      rstate := 2, waiting := some { why := why, port := port, tag := tag, tile := t, seg := s.cur.seg, entry := s.cur.entry, stamp := s.cur.stamp } })
    (inp.arc = some tag → (∀ m, m ∈ x.window → m.kind = .punct ∨ m.kind = .snap) →
      freezes (.pop fold d a) .popWait a.toNat ∧ freezes (.popd fold a) .popWait a.toNat) ∧
    (inp.arc = some tag → (x.window.filter Token.isItem).length ≤ s.cur.beat → (∀ m, m ∈ x.window → m.kind ≠ .mode ∧ m.kind ≠ .drain) →
      freezes (.peek fold d a) .popWait a.toNat) ∧
    (out.arc = some tag → x.kind ≠ .slot → x.cap + 64 * x.chunks ≤ x.sent - x.seen →
      freezes (.push fold d a ft) .pushWait d.toNat ∧ freezes (.punct d) .pushWait d.toNat) ∧
    (inp.arc = some tag → ∀ m rest, x.window = m :: rest → (m.kind = .mode ∨ m.kind = .drain) →
      ∃ info, let rate := tileReport t { code := 0x10, info := info, entry := some s.cur.entry
                                         loc := s.tileLoc t s.cur.seg s.cur.entry (s.cur.stamp + s.cur.beat) } s
        exec (.pop fold d a) s = .next rate ∧ exec (.popd fold a) s = .next rate) ∧
    (∀ e, e ∈ (s.tile t).inPorts → e.2.owner = s.cur.actor → e.2.ps = false →
      ∃ info, exec .punctall s = raise 0x14 info s)

/-- R38, R39, R153, R156, R158 to R163, R204, R205: a token of a slot-scheduled arc goes from router to router on its own lane and enters
staging at once; one that finds another arc's lane waits there and its producer's region reloads; two in one slot raise SLOT. The oldest
token of a ring arc enters its window, to be seen from the next cycle, where its banks are free. One of a format that the consumer does
not accept raises FORMAT and enters nothing. A published read pointer reaches the producer, and chunks go back to and come from the die's
attic pool. -/
def Obligations.ArcEvents : Prop :=
  ∀ (s : State) (ctx tag : Nat) (x : Arc), s.arc? (State.arcKey ctx tag) = some x → tag < 4096 →
    let key := State.arcKey ctx tag
    let d := x.die
    let accepts := fun (tok : Token) => tok.kind ≠ .data ∨ tok.fmt ∈ (acceptance s key x).1
    let lands := fun (i : Instr) (y : Arc) => ∀ tok rest, x.transit = tok :: rest → x.entry = [] → x.overdraw = 0 → (acceptance s key x).2 = none →
      (accepts tok → ∃ u, exec i s = .next u ∧ u.arc? key = some { y with
        transit := rest
        window := if x.kind = .slot then x.window ++ [tok] else x.window
        fresh := if x.kind = .slot then x.fresh else x.fresh ++ [tok]
        overdrawAt := if tok.kind = .snap ∧ tok.payload.toNat = x.snapId then 0 else x.overdrawAt
        state := if tok.kind = .mode ∨ tok.kind = .drain then .marked else x.state } ∧ keepsMemory s u ∧ u.tiles = s.tiles) ∧
      (¬ accepts tok → ∀ t p, x.faultTile = some (t, p) → ∃ u r, exec i s = .next u ∧ u.arc? key = some { y with transit := rest, read := x.read + 1 } ∧
        (u.tile t).reports = insertReport r (s.tile t).reports ∧ r.code = 0x11)
    let k := (x.srcRegion s).getD 0
    let low := lowestTile (s.regionAt k)
    let arrives := fun (f : Flight) => f.due ≤ s.pcyc ∧ f.waits = false
    (∀ f, x.flights = [f] → arrives f → x.lanes[f.leg]? = none → lands (.scheduledTokenArrival ctx tag) { x with flights := [] }) ∧
    (∀ f l, x.flights = [f] → arrives f → x.lanes[f.leg]? = some l →
      (mfind s.lanes (l.1 * 8 + l.2) = some key → ∃ u, exec (.scheduledTokenArrival ctx tag) s = .next u ∧
        u.arc? key = some { x with flights := [{ leg := f.leg + 1, due := s.pcyc + x.nextLeg f.leg }] } ∧
        u.agenda = s.agenda ++ [(s.pcyc + x.nextLeg f.leg, .scheduledTokenArrival ctx tag)] ∧ u.tiles = s.tiles ∧ keepsMemory s u) ∧
      (mfind s.lanes (l.1 * 8 + l.2) ≠ some key → laneHeld s k = false → (s.regionAt k).reloads = 0 → (s.regionAt k).rstate ≠ 3 →
        ∃ u, exec (.scheduledTokenArrival ctx tag) s = .next u ∧ u.arc? key = some { x with flights := [{ f with waits := true }] } ∧
          (u.regionAt k).rstate = 4 ∧ (u.regionAt k).reloads = 1 ∧ (u.regionAt k).reloading = true ∧ u.tiles = s.tiles)) ∧
    (∀ f g l, x.flights = [f, g] → arrives f → arrives g → f.leg = g.leg → x.lanes[f.leg]? = some l →
      mfind s.lanes (l.1 * 8 + l.2) = some key → ∃ u r, exec (.scheduledTokenArrival ctx tag) s = .next u ∧
        (u.tile low).reports = insertReport r (s.tile low).reports ∧ r.code = 0x13 ∧
        u.arc? key = some { x with flights := [{ leg := f.leg + 1, due := s.pcyc + x.nextLeg f.leg }, { g with waits := true }] }) ∧
    ((∀ b, b ∈ x.banks → b ∉ busyBanks s (x.home.getD 0)) → lands (.ringWindowWrite ctx tag) { x with blocked := none }) ∧
    ((∃ b, b ∈ x.banks ∧ b ∈ busyBanks s (x.home.getD 0)) → ∃ u y, exec (.ringWindowWrite ctx tag) s = .next u ∧ u.arc? key = some y ∧
      y.transit = x.transit ∧ y.window = x.window ∧ y.fresh = x.fresh ∧ u.agenda = s.agenda ++ [(s.pcyc + 1, .ringWindowWrite ctx tag)]) ∧
    (∀ p ps, x.pubs = p :: ps → ∃ u y, exec (.creditArrival ctx tag) s = .next u ∧ u.arc? key = some y ∧
      y.seen = max x.seen p ∧ y.pubs = ps ∧ y.window = x.window ∧ y.sent = x.sent ∧ y.chunks ≤ x.chunks ∧
      (u.die d).attic + y.chunks = (s.die d).attic + x.chunks ∧ keepsMemory s u) ∧
    (0 < x.asked → x.chunks + x.asked ≤ 16 → chunksHeld s ctx d + x.asked ≤ 256 → x.asked ≤ (s.die d).attic →
      ∃ u y, exec (.chunkGrant ctx tag) s = .next u ∧ u.arc? key = some y ∧ y.chunks = x.chunks + x.asked ∧ y.asked = 0 ∧
        y.window = x.window ∧ y.sent = x.sent ∧ y.seen = x.seen ∧ (u.die d).attic + x.asked = (s.die d).attic ∧ keepsMemory s u)

/-! ## The tensor unit (R209, R210, R316 to R346) -/

/-- R319, R323 to R325, R331 to R335, R342 to R344: the tensor instructions of a timed list, each where its checks pass. Settings take
effect in the next package cycle; a tag travels 6 cycles; a `twload` ends after 80; `tread` is due after 8 advancing cycles, `tstat`
after 2; the corner's `tarm` of a systolic group starts a pass; `tsysto` sets the systolic bit of its group once nothing is in flight. -/
def Obligations.TensorInstructions : Prop :=
  ∀ (d a b c : BitVec 6) (imm : BitVec 32) (ft : BitVec 3) (flags rm : BitVec 4) (on : BitVec 1) (s : State) (t : Nat), s.cur.unit = .tile t →
    let u := (s.tile t).tensor
    let q := quadOfPos t
    let with_ := fun (x : Tensor) => s.setTile t { s.tile t with tensor := x }
    let set := fun (x : TSetting) => with_ { u with settings := u.settings ++ [x] }
    let slot := u.slot d.toNat
    let x := (readS s a).toNat
    let y := (readS s b).toNat
    let room := fun (code v k : Nat) (col : Bool) => operandBytes code v k col
    let k := 16 * (bitsOf u.cfg.toNat 5 8 + 1)
    let m := bitsOf u.cfg.toNat 19 6 + 1
    let n := bitsOf u.cfg.toNat 13 6 + 1
    let afmt := bitsOf u.cfg.toNat 29 3
    let bfmt := bitsOf u.cfg.toNat 26 3
    exec (.tcfg imm) s = .next (set (.cfg imm)) ∧
    (∀ ma ia na mb ib nb, slot.state ≠ .armed → bufferAt s q x = some (ma, ia, na) → bufferAt s q y = some (mb, ib, nb) →
      room afmt m k (flags.getLsbD 0) ≤ bufferBytes s ma ia → room bfmt n k (flags.getLsbD 1) ≤ bufferBytes s mb ib →
      ¬ (flags.getLsbD 0 = true ∧ afmt = 6) → ¬ (flags.getLsbD 1 = true ∧ bfmt = 6) →
      exec (.tdef d a b c flags) s = .next (set (.define d.toNat
        { state := .defined, cfg := u.cfg, aAddr := x, bAddr := y, acc := c.toNat, flags := flags.toNat, curA := na, curB := nb }))) ∧
    (inSystolic s t = false → slot.state ≠ .free →
      exec (.tarm d) s = .next (set (.arm d.toNat s.cur.seg s.cur.entry s.cur.stamp))) ∧
    (∀ cx g i q0 a' b' p, groupOfTile s t = some (cx, g, i) → (groupAt s cx g i).systolic = true →
      quadRect (groupAt s cx g i).quads = some (q0, a', b') → gridTile q0 0 0 = t → passCheck s (groupAt s cx g i) q0 a' b' d.toNat = .start p →
      exec (.tarm d) s = .next ((setGroup cx g i { groupAt s cx g i with starting := some p } s).soon (.systolicPassStart cx g i))) ∧
    exec (.tdisarm d) s = .next (set (.disarm d.toNat)) ∧
    (∀ full : Bool, ∃ v o, exec (if full then .ttagFull a else .ttagEmpty a) s = .next v ∧ begun s v o ∧ o.kind = .tag full ∧ o.addr = x ∧
      v.agenda = s.agenda ++ [(s.pcyc + 6, .ttagArrival s.opCount)] ∧ keepsMemory s v ∧ v.tiles = s.tiles) ∧
    (inSystolic s t = true → x % 64 = 0 → x < 2 ^ 23 → x % 2 ^ 21 + room bfmt 64 64 false ≤ 2 ^ 21 →
      exec (.twload a) s = .next { with_ { u with loading := u.loading ++ [{ addr := x, cfg := u.cfg }] } with
        agenda := s.agenda ++ [(s.pcyc + 80, .twloadValid t)] }) ∧
    (∃ v o, exec (.tread d a b) s = .next v ∧ begun s v o ∧ o.kind = .tensorRead a.toNat (y % 64) ∧
      awaited s v d 8 (.vector d.toNat (BitVec.allOnes 2048) 0) ∧ keepsMemory s v) ∧
    (u.queue.length < 4 → exec (.tstore a b ft rm) s = .next (with_ { u with queue := u.queue ++
      [{ addr := x, acc := b.toNat, ft := ft.toNat, rm := rm.toNat, issued := s.pcyc, seg := s.cur.seg, entry := s.cur.entry, stamp := s.cur.stamp }] })) ∧
    exec (.taccz d) s = .next (with_ { u with zeroing := u.zeroing ++ [(d.toNat, s.pcyc)] }) ∧
    (∀ isSlot : Bool, ∃ v o, exec (if isSlot then .tstatSlot d a else .tstatAcc d a) s = .next v ∧ begun s v o ∧
      o.kind = .tensorStat isSlot a.toNat ∧ awaited s v d 2 (.scalar d.toNat 0) ∧ keepsMemory s v) ∧
    (∀ r n' cx g i y', r.cur.unit = .seq n' → n' < 384 → groupOfQuad r n' = some (cx, g, i) → r.graph? cx g = some y' → i < y'.groups.length →
      (on = 1 → systolicRefusal r cx g i = none) → (groupAt r cx g i).passes = [] → (groupAt r cx g i).starting = none →
      (∀ e, e ∈ r.tiles → quadOfPos e.1 ∈ (groupAt r cx g i).quads → e.2.tensor.firings = []) →
      ∃ v, exec (.tsysto on) r = .next v ∧ groupAt v cx g i = { groupAt r cx g i with systolic := decide (on = 1) } ∧ goesOn r v)

/-- R320, R323, R326 to R328, R331 to R334, R343 to R346: the steps of the tensor unit, each where its condition holds: a firing starts
and, after D + 20 cycles, adds its products to its accumulator; tags change; a row is read; a `tstore` starts and ends; an accumulator is
cleared; weights become valid; settings do what R325 says; a systolic pass starts, each of its rows is added into the bottom accumulators
in the cycle of R345, and its end counts. -/
def Obligations.TensorSteps : Prop :=
  (∀ (u : Tensor) (w : BitVec 32) (ts : Nat) (y : TSlot) (seg entry stamp : Nat),
    let one := fun (x : TSetting) => Tensor.settle { u with settings := [x] }
    (one (.cfg w)).cfg = w ∧ (∀ k, (one (.cfg w)).slot k = u.slot k) ∧
    (∀ k, (one (.define ts y)).slot k = if k = ts then y else u.slot k) ∧
    (∀ k, (one (.arm ts seg entry stamp)).slot k = if k = ts then { u.slot ts with state := .armed, armedBy := (seg, entry, stamp) } else u.slot k) ∧
    (∀ k, (one (.disarm ts)).slot k = if k = ts ∧ (u.slot ts).state = .armed then { u.slot ts with state := .defined } else u.slot k) ∧
    (∀ x y, Tensor.settle { u with settings := [x, y] } = Tensor.settle { one x with settings := [y] })) ∧
  ∀ (s : State) (t ts id : Nat),
    let u := (s.tile t).tensor
    let slot := u.slot ts
    let q := quadOfPos t
    (canFire s t ts = true → (u.acc slot.acc).fits slot.cfg = true → ∃ v f, exec (.tensorFiringStart t ts) s = .next v ∧
      let w := (v.tile t).tensor
      w.firings = u.firings ++ [f] ∧ f.ts = ts ∧ f.cfg = slot.cfg ∧ f.acc = slot.acc ∧ f.flags = slot.flags ∧
      w.busyUntil = s.pcyc + Cfg.cycles slot.cfg ∧ (w.acc slot.acc).state = .open ∧
      (w.acc slot.acc).started = (if (u.acc slot.acc).state = .empty then 0 else (u.acc slot.acc).started) + 1 ∧
      v.agenda = s.agenda ++ [(s.pcyc + (Cfg.cycles slot.cfg + 20), .tensorFiringComplete t ts)] ∧ keepsMemory s v) ∧
    (∀ f rest, u.firings = f :: rest → f.ts = ts → (u.acc f.acc).n ≤ 64 → ∃ v, exec (.tensorFiringComplete t ts) s = .next v ∧
      let w := (v.tile t).tensor
      let acc := u.acc f.acc
      let near := asRead s.near f.got
      let A := nearOperand near q f.a (Cfg.afmt f.cfg) (Cfg.m f.cfg) (Cfg.k f.cfg) (bitOf f.flags 0)
      let B := nearOperand near q f.b (Cfg.bfmt f.cfg) (Cfg.n f.cfg) (Cfg.k f.cfg) (bitOf f.flags 1)
      w.firings = rest ∧ (w.acc f.acc).done = acc.done + 1 ∧ (acc.done + 1 = acc.ch → (w.acc f.acc).state = .closed) ∧
      (∀ i j, i < acc.m → j < acc.n → mget 0 (w.acc f.acc).cells (64 * i + j) =
        (List.range ((Cfg.k f.cfg + 31) / 32)).foldl (fun e g => accAdd acc.kind e (groupSum A B i j (Cfg.k f.cfg) g)) (mget 0 acc.cells (64 * i + j))) ∧
      (∀ n, n ≠ f.acc → w.acc n = u.acc n) ∧ keepsMemory s v) ∧
    (∀ o full mt i n p, mfind s.ops id = some o → o.kind = .tag full → o.cur.unit = .tile t → bufferAt s q o.addr = some (mt, i, n) →
      (s.mtile mt).parts[i]? = some p → n < p.full.length → (full = true → bufferFull s mt i n = false) →
      storeAhead s id o mt i n = false → ∃ v, exec (.ttagArrival id) s = .next v ∧ bufferFull v mt i n = full ∧ mfind v.ops id = none ∧ keepsMemory s v) ∧
    (∀ o n r, mfind s.ops id = some o → o.kind = .tensorRead n r → o.cur.unit = .tile t → o.served = false → o.issued < s.pcyc →
      (u.acc n).state = .closed → (∀ x, x ∈ u.queue → x.acc = n → o.issued ≤ x.issued) → (∀ z, z ∈ u.zeroing → z.1 = n → o.issued ≤ z.2) →
      ∃ v p, exec (.treadRead id) s = .next v ∧ mfind v.ops id = some p ∧ p.served = true ∧ p.usable = s.pcyc + 7 + o.slow ∧
        ∀ j, j < 64 → elem 32 p.got.toNat j = treadSlot (u.acc n) r j % 2 ^ 32) ∧
    (∀ x rest, u.queue = x :: rest → canStore s t = true → storeRefusal s q x (u.acc x.acc) = none → ∃ v, exec (.tstoreStart t) s = .next v ∧
      (v.tile t).tensor.queue = { x with started := some s.pcyc } :: rest ∧
      v.agenda = s.agenda ++ [(s.pcyc + (6 + (u.acc x.acc).m + ceilDiv (storeScaleBytes (u.acc x.acc) x.ft) 256), .tstoreComplete t)] ∧ keepsMemory s v) ∧
    (∀ x rest, u.queue = x :: rest → x.started ≠ none → ∃ v, exec (.tstoreComplete t) s = .next v ∧
      (v.tile t).tensor.queue = rest ∧ (v.tile t).tensor.acc x.acc = {} ∧ keepsMemory s v) ∧
    (∀ acc z, u.zeroing.find? (fun z => decide (z.1 = acc)) = some z → canClear s t acc z.2 = true → ∃ v, exec (.tacczEffect t acc) s = .next v ∧
      (v.tile t).tensor.acc acc = {} ∧ (v.tile t).tensor.zeroing = u.zeroing.erase z ∧ keepsMemory s v) ∧
    (∀ before l rest, u.loading = before ++ l :: rest → (∀ z, z ∈ before → z.complete = true) → (∀ z, z ∈ l :: rest → z.complete = false) →
      let full := l.full s.near q
      (passInFlight s t = false → ∃ v, exec (.twloadValid t) s = .next v ∧
        let w := (v.tile t).tensor.weights
        let code := bitsOf l.cfg.toNat 26 3
        w.valid = true ∧ w.fmt = code ∧ (v.tile t).tensor.loading = rest ∧ keepsMemory s v ∧
        ∀ j k, j < 64 → k < 64 → (mget 0 w.cells (64 * k + j)).toNat =
          operandRaw (asRead s.near full.got) (quadKey q l.addr) code 64 64 false j k % 2 ^ 16) ∧
      (passInFlight s t = true → exec (.twloadValid t) s = .next (s.setTile t { s.tile t with tensor :=
        { u with loading := before ++ full :: rest } }))) ∧
    (∀ c g i y q0 m n p, s.graph? c g = some y → i < y.groups.length → quadRect (groupAt s c g i).quads = some (q0, m, n) →
      (groupAt s c g i).starting = some p → ∃ v, exec (.systolicPassStart c g i) s = .next v ∧ keepsMemory s v ∧
        groupAt v c g i = { groupAt s c g i with
          passes := (groupAt s c g i).passes ++ [{ p.enter s.near q0 (2 * n) with age := 1 }], starting := none, sincePass := some 1 } ∧
        ∀ k, k < 2 * m → let tile := gridTile q0 (2 * n - 1) k
          (tensorAt v tile).acc (p.accs.getD k 0) = ((tensorAt s tile).acc (p.accs.getD k 0)).forPass p.cfg) ∧
    (∀ (p : Pass) (q0 h j r c e : Nat), c < j → r < Cfg.m p.cfg → e < 64 → 5 * r + 8 * c + 12 * (h - 1) + 4 = p.age →
      let tile := gridTile q0 (h - 1) c
      let old := ((tensorAt s tile).acc (p.accs.getD c 0)).forPass p.cfg
      mget 0 ((tensorAt (addRows p q0 h j s) tile).acc (p.accs.getD c 0)).cells (64 * r + e) =
        accAdd old.kind (mget 0 old.cells (64 * r + e)) (passSum s p q0 h c r e)) ∧
    (∀ c g i y q0 m n before p rest, s.graph? c g = some y → i < y.groups.length → quadRect (groupAt s c g i).quads = some (q0, m, n) →
      (groupAt s c g i).passes = before ++ p :: rest → (∀ z, z ∈ before → z.age ≤ passLength (Cfg.m z.cfg) (2 * n) (2 * m)) →
      passLength (Cfg.m p.cfg) (2 * n) (2 * m) < p.age → ∃ v, exec (.systolicPassComplete c g i) s = .next v ∧
        groupAt v c g i = { groupAt s c g i with passes := before ++ rest } ∧ keepsMemory s v ∧
        ∀ k, k < 2 * m →
          let tile := gridTile q0 (2 * n - 1) k
          let old := (tensorAt s tile).acc (p.accs.getD k 0)
          let new := (tensorAt v tile).acc (p.accs.getD k 0)
          new.started = old.started + 1 ∧ new.done = old.done + 1 ∧ new.cells = old.cells ∧
          new.state = (if old.done + 1 = old.ch then .closed else old.state))

/-! ## Graphs and the launch path (R244 to R264) -/

namespace Sys2Proof.Claims

/-- GRAPH with a reason, in control unit `n` (R261). -/
def graphRefused (n reason : Nat) (s : State) : Host.Outcome State Fault Refusal := .next (ownFault n 0x40 (BitVec.ofNat 64 reason) s)

/-- The state after an instruction that gives register `d` of control unit `n` a value, readable after a time that the model leaves open
(log 2); the next instruction may issue in the next cycle. -/
def openDone (n : Nat) (d : BitVec 6) (v : Word) (s : State) : State :=
  { s.updSeq n (fun q => (q.write d.toNat v (s.pcyc + 1 + Config.freeDelay s.freeCount)).advance s.pcyc) with freeCount := s.freeCount + 1 }

/-- A step is set for a later cycle, which the model leaves open (log 2). -/
def setLater (s u : State) (i : Instr) : Prop := ∃ n, s.pcyc < n ∧ (n, i) ∈ u.agenda

/-- The cellar descriptor of context `c` as control unit `n` reads it (R402), with the state after the read: no word where its page cannot
be read, and nothing while that page is being committed (R387). -/
def descriptorRead (n : Nat) (s : State) (c : Nat) : Option (Option Nat × State) :=
  match partPa (dieOfSeq n) c (s.ctx c).saveBase .read s with
  | .ok pa u => some (some (readLE u.mem pa 64), u)
  | .fault u => some (none, u)
  | .hold _ _ => none

end Sys2Proof.Claims

/-- R244, R245, R248, R249, R257 to R261: the graph instructions of a control unit on a handle that is not stale. -/
def Obligations.GraphInstructions : Prop :=
  ∀ (d a b : BitVec 6) (mode : BitVec 3) (tag : BitVec 12) (s : State) (n g : Nat) (x : Graph), s.cur.unit = .seq n →
    let c := (s.seq n).ctxid
    let h := readS s a
    let uses := useCount (s.ctx c) g
    s.graph? c g = some x → g < 256 →
    (h.toNat = g + 256 * uses → uses < 256 →
      let setsMode := (x.image.mode? mode.toNat).isSome = true
      (setsMode → x.state ∈ [.loaded, .waiting, .staging, .idle] →
        ∃ u, exec (.setmode a mode) s = .next u ∧ u.graph? c g = some { x with target := mode.toNat } ∧ goesOn s u) ∧
      (setsMode → x.state = .running →
        ∃ u y, exec (.setmode a mode) s = .next u ∧ u.graph? c g = some y ∧ y.state = .changing ∧ y.target = mode.toNat ∧ y.mode = x.mode ∧
          (∀ p, p ∈ injectionPoints x → setLater s u (.modeRequestArrival c g p)) ∧
          (targetStaged (s.setGraph c g { x with target := mode.toNat }) c g = false → setLater s u (.stagingComplete c g)) ∧ goesOn s u) ∧
      (setsMode → x.state = .changing →
        ∃ u, exec (.setmode a mode) s = .next u ∧ u.graph? c g = some { x with target := mode.toNat } ∧
          (targetStaged (s.setGraph c g { x with target := mode.toNat }) c g = false → setLater s u (.stagingComplete c g)) ∧ goesOn s u) ∧
      (x.state ∈ [.loaded, .idle] →
        ∃ u, exec (.gact a) s = .next u ∧ u.graph? c g = some { x with
            state := .waiting, prior := x.state, prio := 0, lat := false, since := s.pcyc, record := none, count := 0, ran := 0 } ∧
          setLater s u (.graphPlacement c g) ∧ goesOn s u) ∧
      (x.state = .running →
        ∃ u y, exec (.gdrain a) s = .next u ∧ u.graph? c g = some y ∧ y.state = .draining ∧ y.draining = true ∧
          (∀ p, p ∈ injectionPoints x → setLater s u (.modeRequestArrival c g p)) ∧ goesOn s u) ∧
      (x.state = .changing → ∃ u, exec (.gdrain a) s = .next u ∧ u.graph? c g = some { x with state := .draining, draining := true } ∧
        u.agenda = s.agenda ∧ goesOn s u) ∧
      (∃ u, exec (.gunld a) s = .next u ∧ u.graph? c g = none ∧
        useCount (u.ctx c) g = (if uses = 255 then 1 else uses + 1) ∧
        (∀ k y, u.arc? k = some y → k / 4096 = c → y.slot ≠ g)) ∧
      (¬ setsMode → x.state ∈ [.loaded, .waiting, .staging, .idle, .running, .changing] → exec (.setmode a mode) s = graphRefused n 3 s) ∧
      (x.state ∈ [.loading, .failed, .draining, .saved] → exec (.setmode a mode) s = graphRefused n 2 s ∧ exec (.gact a) s = graphRefused n 2 s) ∧
      (∀ (m i : Nat) (e : ArcDecl), x.tags[i]? = some tag.toNat → (∀ j, j < i → x.tags[j]? ≠ some tag.toNat) → x.image.arcs[i]? = some e →
        ((∃ p, e.src = .mem m p) ∨ ((∀ k p, e.src ≠ .mem k p) ∧ ∃ p, e.dst = .mem m p)) → m < x.mems.length →
        ((readS s d).toNat % 64 = 0 → ∃ u, exec (.gpatch d a tag) s = .next u ∧
          memAt u c g m = { memAt s c g m with patched := some (readS s d).toNat } ∧ goesOn s u) ∧
        ((readS s d).toNat % 64 ≠ 0 → exec (.gpatch d a tag) s = graphRefused n 6 s))) ∧
    (h.toNat < 65536 → h.toNat / 256 ≠ useCount (s.ctx c) (h.toNat % 256) → ∀ i, i ∈ [.setmode a mode, .gact a, .gdrain a, .gunld a, .gpatch d a tag] →
      exec i s = graphRefused n 1 s) ∧
    (∀ r, readS s b = 0 → r < 256 → s.graph? c r = none → (∀ k, k < r → s.graph? c k ≠ none) → ∃ u, exec (.gld d a b) s = .next u ∧
      let w := useCount (s.ctx c) r * 256 + r
      u.graph? c r = some { state := .loading, handle := w, va := h.toNat, issued := true } ∧ useCount (u.ctx c) r = useCount (s.ctx c) r ∧
      (d.toNat ≠ 0 → regOf (u.seq n).s d.toNat = BitVec.ofNat 64 w) ∧ setLater s u (.graphLoadComplete c r)) ∧
    (∀ sel, sel < 65536 → h.toNat = g + 256 * uses + 65536 * sel → uses < 256 →
      (sel = 0xFFFF → exec (.gstat d a) s = .next (openDone n d (graphStatus s c g x) s)) ∧
      (sel = 0xFFFE → exec (.gstat d a) s = .next (openDone n d x.load s)) ∧
      (sel < 256 → sel < x.modeNow.regions.length → exec (.gstat d a) s = .next (openDone n d (regionStatus s c g sel x) s)) ∧
      (∀ m, x.mems[sel]? = some m → exec (.mstat d a) s = .next (openDone n d
        (BitVec.ofNat 64 (m.tokens % 2 ^ 32 * 2 ^ 32 + bit m.pagewait * 4 + bit m.range * 2 + bit m.bound)) s))) ∧
    (2 ^ 32 ≤ h.toNat → exec (.gstat d a) s = graphRefused n 7 s ∧ exec (.mstat d a) s = graphRefused n 7 s)

/-- R254, R255, R257, R258, R263: `spawn`, `ckick` and `carm`. A control unit waits in `spawn` until its colour is drawn, and a tile's
result is due after 32 advancing cycles; `ckick` sends its operand on its queue; `carm` arms a template as its descriptor says, or as the
image does. COLOUR_DRAW gives the lowest free colour and sends the token. -/
def Obligations.SpawnsAndKicks : Prop :=
  ∀ (d a : BitVec 6) (tag : BitVec 12) (s : State) (x : Arc),
    let c := curCtx s
    let key := State.arcKey c tag.toNat
    let open_ := x.kind = .slot ∨ x.sent - x.seen < x.cap + 64 * x.chunks
    let colour := match s.cur.unit with
      | .tile _ => (s.actor (State.actorKey s.cur.ctx s.cur.slot s.cur.actor)).colour
      | .seq _ => 0
    s.arc? key = some x →
    (∀ t, s.cur.unit = .tile t → open_ → ∃ u o, exec (.spawn d a tag) s = .next u ∧ mfind u.ops s.opCount = some o ∧
      o.kind = .colour tag.toNat (BitVec.ofNat 512 (readV s a).toNat) ∧ awaited s u d 32 (.scalar d.toNat 0) ∧
      s.opCount ∈ (u.ctx c).draws ∧ s.pcyc < o.usable ∧ keepsMemory s u) ∧
    (∀ n, s.cur.unit = .seq n → (s.seq n).run = .run → isSpawnArc s key = true → ∃ u o, exec (.spawn d a tag) s = .next u ∧
      mfind u.ops s.opCount = some o ∧ o.kind = .colour tag.toNat ((readS s a).setWidth 512) ∧ (u.seq n).run = .spawn s.opCount ∧
      (u.seq n).pc = (s.seq n).pc ∧ s.opCount ∈ (u.ctx c).draws) ∧
    (∀ n id o, s.cur.unit = .seq n → (s.seq n).run = .spawn id → mfind s.ops id = some o → o.served = true → d.toNat ≠ 0 →
      ∃ u, exec (.spawn d a tag) s = .next u ∧ regOf (u.seq n).s d.toNat = o.got.setWidth 64 ∧ (u.seq n).run = .run ∧
        (u.seq n).pc = (Seq.advance (s.seq n) s.pcyc).pc ∧ mfind u.ops id = none) ∧
    (∀ id o v k, mfind s.ops id = some o → o.kind = .colour tag.toNat v → o.ctx = c → 0 < k → k < 64 → k ∉ (s.ctx c).drawn →
      (∀ j, 0 < j → j < k → j ∈ (s.ctx c).drawn) → o.usable ≤ s.pcyc → open_ → x.stopping = false → (∀ r, x.dst ≠ .remote r) →
      ∃ u p y, exec (.colourDraw id) s = .next u ∧ (u.ctx c).drawn = k :: (s.ctx c).drawn ∧ id ∉ (u.ctx c).draws ∧
        mfind u.ops id = some p ∧ p.served = true ∧ p.got = BitVec.ofNat 2048 k ∧ u.arc? key = some y ∧
        y.transit = x.transit ++ [{ kind := .data, tag := tag.toNat, colour := k, payload := v }] ∧ keepsMemory s u) ∧
    ((∀ n, s.cur.unit = .seq n → tag.toNat ≠ 4095 ∧ x.kind = .queue) → open_ → (∀ r, x.dst ≠ .remote r) →
      ∃ u, exec (.ckick a tag) s = .next u ∧
        departs s u c tag.toNat x { kind := .data, tag := tag.toNat, colour := colour, payload := (readS s a).setWidth 512 } ∧ keepsMemory s u ∧ goesOn s u) ∧
    (∀ n, s.cur.unit = .seq n → tag.toNat = 4095 → (s.ctx c).hostArc.length < 64 → ∃ u, exec (.ckick a tag) s = .next u ∧
      (u.ctx c).hostArc = (s.ctx c).hostArc ++ [(readS s a).toNat % 2 ^ 32] ∧ goesOn s u) ∧
    (∀ n t y, s.cur.unit = .seq n → x.dst = .copy t → s.graph? c x.slot = some y → t < y.copies.length →
      let quad := ((y.image.copies[t]?).bind fun z => y.image.tileOf z.actor).map y.image.quadOf
      (readS s a = 0 → ∃ u, exec (.carm a tag) s = .next u ∧ copyAt u c x.slot t = declaredTemplate y t (copyAt s c x.slot t) ∧ goesOn s u) ∧
      (∀ e, readS s a ≠ 0 → (readS s a).toNat % 32 = 0 → (readS s a).toNat < 2 ^ 56 → (∀ o, o ∈ s.ops → o.2.cur.unit = .seq n → o.2.isDram = false) →
        streamHeld s c (.seq n) = false → walkAhead s n = none → tlbFind s (dieOfSeq n) c (readS s a).toNat = some e → Leaf.rd e.leaf = true →
        let pa := Leaf.pa e.leaf + ((readS s a).toNat - e.va)
        (∀ die, underTest s pa = some die →
          exec (.carm a tag) s = .next (holdRequest die (.seq n) (s.updSeq n fun q => { q with run := .carm, ready := s.pcyc + 1 }))) ∧
        (underTest s pa = none →
        let w := readLE s.mem pa 32
        let bad := badEndpoint y.layout quad (bitsOf w 0 64) (bitsOf w 128 32) = true ∨ badEndpoint y.layout quad (bitsOf w 64 64) (bitsOf w 128 32) = true ∨
          2 ^ 24 < bitsOf w 128 32
        (¬ bad → ∃ u, exec (.carm a tag) s = .next u ∧ goesOn s u ∧
          copyAt u c x.slot t = { copyAt s c x.slot t with
            armed := decide (bitsOf w 128 32 ≠ 0), src := bitsOf w 0 64, dst := bitsOf w 64 64, words := bitsOf w 128 32 }) ∧
        (bad → exec (.carm a tag) s = graphRefused n 6 s))))

/-! ## Traps (R351 to R365, R500) -/

namespace Sys2Proof.Claims

/-- Where a unit goes on at a `tret` that does not skip: at `TEPC`, or, where a LINK entered behind a `ramo` and its handler has left `TEPC`
there, where the unit stood (R441). -/
def leftAt (q : Seq) : Word :=
  match q.behind with
  | some b => if q.tepc = b.1 then b.2 else q.tepc
  | none => q.tepc

end Sys2Proof.Claims

/-- R357 to R360, R362, R363: `trap` outside a handler enters the handler, to return behind itself; in a handler of a quad sequencer it
forwards the cause; `tret` leaves the handler; `mtsr` writes the register that it names. -/
def Obligations.TrapInstructions : Prop :=
  ∀ (code : BitVec 16) (a : BitVec 6) (s : State) (n : Nat), s.cur.unit = .seq n →
    let q := s.seq n
    let v := readS s a
    let others := fun (u : State) => ∀ m, m ≠ n → u.seq m = s.seq m
    let puts := fun (sr : Nat) (f : Seq → Seq) => ∃ u, exec (.mtsr a (BitVec.ofNat 16 sr)) s = .next u ∧ u.seq n = (f q).advance s.pcyc ∧
      others u ∧ keepsMemory s u ∧ u.ctxs = s.ctxs
    (q.trap = false → q.tvec ≠ 0 → ∃ u, exec (.trap code) s = .next u ∧ others u ∧ keepsMemory s u ∧ u.seq n = { q with
      tepc := q.pc + 8, shadow := q.loops, loops := [], tcause := 7, tinfo := code.zeroExtend 64, twhere := s.seqLoc n, trap := true
      skip := false, fwd := false, dbl := false, cmpl := false, handling := .raised, behind := none, back := q.run.kept, pc := q.tvec, run := .run, last := s.pcyc, ready := s.pcyc + 3 }) ∧
    (q.trap = false → q.tvec = 0 → n < 384 → ∃ u, exec (.trap code) s = .next u ∧ (u.seq n).pc = q.pc + 8 ∧ (u.seq n).run = .forwarded .raised false ∧
      ∃ r, r ∈ (u.seq (384 + n / 32)).queue ∧ r.cause = 7 ∧ r.info = code.zeroExtend 64 ∧ r.loc = s.seqLoc n ∧ r.kind = .forwarded n q.ctxid) ∧
    (q.trap = true → 384 ≤ n → ∃ u, exec (.trap code) s = .next u ∧ (u.seq n).pc = (q.advance s.pcyc).pc ∧ (u.seq n).trap = true ∧
      u.hostTraps = s.hostTraps ++ [(trapCtx n q.handling s, n, q.handling)]) ∧
    (q.trap = true → n < 384 → ∃ u, exec (.trap code) s = .next u ∧ (u.seq n).pc = q.pc + 8 ∧ (u.seq n).run = .forwarded .raised false ∧
      ∃ r, r ∈ (u.seq (384 + n / 32)).queue ∧ r.cause = q.tcause % 256 + code.toNat % 256 * 256 ∧ r.info = q.tinfo ∧ r.loc = q.twhere ∧
        r.kind = .forwarded n q.ctxid) ∧
    (q.trap = true → q.handling ∈ [.own, .raised, .none] → exec .tret s = .next (s.updSeq n fun q => { q with
      pc := if q.handling = .own ∧ q.skip = true then q.tepc + 8 else leftAt q, behind := none
      loops := q.shadow, shadow := [], trap := false, cmpl := false, fwd := false, dbl := false, handling := .none, run := q.back
      last := s.pcyc, ready := s.pcyc + 1 })) ∧
    (q.trap = false → exec .tret s = .next (ownFault n 0x01 3 s)) ∧
    (∃ u, exec (.mtsr a 4) s = .next u ∧ u.ctx q.ctxid = { s.ctx q.ctxid with seed := v } ∧ u.seq n = q.advance s.pcyc ∧ others u) ∧
    (384 ≤ n → puts 5 fun q => { q with ctxid := v.toNat % 64 }) ∧
    (n < 384 → exec (.mtsr a 5) s = .next (ownFault n 0x06 5 s)) ∧
    (v.toNat % 8 = 0 → puts 8 (fun q => { q with tvec := v }) ∧ puts 0xC fun q => { q with tepc := v }) ∧
    (v.toNat % 8 ≠ 0 → exec (.mtsr a 8) s = .next (ownFault n 0x02 v s) ∧ exec (.mtsr a 0xC) s = .next (ownFault n 0x02 v s)) ∧
    puts 0xD (fun q => { q with skip := v.getLsbD 4 }) ∧
    (∀ k, k < 4 → ∃ u, exec (.mtsr a (BitVec.ofNat 16 (0x18 + k))) s = .next u ∧ others u ∧ keepsMemory s u ∧ u.ctxs = s.ctxs ∧
      let w := q.advance s.pcyc
      u.seq n = { w with loops := mset w.loops k { mget {} w.loops k with count := v.toNat % 65536 } })

/-- R357, R358: an own fault outside a handler is taken at the next instruction: the registers of the trap hold what R357 says and the
handler runs 3 cycles later. A unit without a handler (`TVEC` 0) forwards it: a quad sequencer stops, and its die controller gets it. In a
handler it is a double fault: a quad sequencer forwards it with DBL, a die controller or the dispatcher stops with FATAL at the host. -/
def Obligations.OwnFaults : Prop :=
  ∀ (s : State) (n code : Nat) (info : Word),
    let q := s.seq n
    let u := ownFault n code info s
    let die := 384 + n / 32
    (∀ m, m ≠ n → (n < 384 → m ≠ die) → u.seq m = s.seq m) ∧ u.mem = s.mem ∧ u.near = s.near ∧ (u.seq n).s = q.s ∧
    (q.trap = false → q.tvec ≠ 0 → u.seq n = { q with
      tepc := q.pc, shadow := q.loops, loops := [], tcause := code, tinfo := info, twhere := s.seqLoc n, trap := true, skip := false
      fwd := false, dbl := false, cmpl := false, handling := .own, behind := none, back := q.run.kept, pc := q.tvec, run := .run, last := s.pcyc, ready := s.pcyc + 3 }) ∧
    (q.trap = false → q.tvec = 0 → n < 384 → (u.seq n).run = .forwarded .own false ∧ (u.seq n).pc = q.pc ∧
      ∃ r, r ∈ (u.seq die).queue ∧ r.cause = code ∧ r.info = info ∧ r.loc = s.seqLoc n ∧ r.dbl = false ∧ r.kind = .forwarded n q.ctxid) ∧
    (q.trap = false → q.tvec = 0 → 384 ≤ n → (u.seq n).pc = q.pc + 8 ∧ u.hostTraps = s.hostTraps ++ [(q.ctxid, n, .own)] ∧
      (n = 396 ∨ (s.die (n - 384)).inCall = false → (u.seq n).run = q.run.kept)) ∧
    (q.trap = true → n < 384 → (u.seq n).run = .forwarded .own true ∧ (u.seq n).pc = q.pc ∧
      ∃ r, r ∈ (u.seq die).queue ∧ r.cause = code ∧ r.info = info ∧ r.dbl = true ∧ r.kind = .forwarded n q.ctxid) ∧
    (q.trap = true → 384 ≤ n → (u.seq n).run = .stopped ∧ (s.events.length < 256 → ∃ e, u.events = s.events ++ [e] ∧ e.w0.toNat / 2 ^ 56 = 0x84 ∧ e.w1 = info))

/-- R352, R356, R357, R359, R360, R500: the report of a tile freezes its region and reaches the sequencer of its quad, which takes it at
an instruction boundary outside a handler, completion faults first; `tret` with SKIP = 0 releases the report and the region leaves RSTATE 3
when no tile of it holds one, to RSTATE 4 where a configuration store of its group is being loaded again (R377). -/
def Obligations.ReportsAndTraps : Prop :=
  ∀ (s : State) (t n k : Nat) (r : Report) (rest : List Report),
    let q := s.seq n
    (∀ (x : Report), (s.tile t).region = some k → (s.tile t).reports = [] → x.since ≤ s.pcyc →
      let u := tileReport t x s
      (u.tile t).reports = [{ x with since := s.pcyc }] ∧ (u.regionAt k).rstate = 3 ∧ (u.regionAt k).wcnt = 0 ∧
      u.todo = s.todo ++ [Task.event (.tileFaultReport t)] ∧
      (∀ j, j ≠ k → u.regionAt j = s.regionAt j)) ∧
    ((s.tile t).reports = r :: rest → ∃ u, exec (.tileFaultReport t) s = .next u ∧
      (∃ p, p ∈ (u.seq (quadOfPos t)).queue ∧ p.cause = r.code ∧ p.info = r.info ∧ p.loc = r.loc ∧ p.kind = .report t) ∧ u.tiles = s.tiles) ∧
    (q.trap = false → q.tvec ≠ 0 → (q.run = .run ∧ q.ready ≤ s.pcyc) ∨ q.run = .off ∨ q.run = .idle ∨
        q.run = .ckick ∨ q.run = .carm ∨ (∃ p, q.run = .cwait p) ∨ (∃ i, q.run = .snapw i) ∨ (∃ i, q.run = .fence i) ∨ (∃ l, q.run = .pginv l) ∨
        (∃ l, q.run = .pgfence l) ∨ (∃ i, q.run = .spawn i ∧ ∀ o, mfind s.ops i = some o → o.served = false) →
      let back := if q.run = .idle then q.pc + 8 else q.pc
      let enters := fun (u : State) (p : TrapReq) (ramo : Option Word) (q' : Seq) => u.seq n = { q' with
        tepc := ramo.getD back, behind := ramo.map fun w => (w, back)
        shadow := q.loops, loops := [], tcause := p.cause, tinfo := p.info, twhere := p.loc, trap := true, skip := false
        fwd := (match p.kind with | .forwarded _ _ => true | _ => false), dbl := p.dbl
        cmpl := (match p.kind with | .completion _ => ramo.isNone | _ => false)
        handling := p.kind, back := q.run.kept, pc := q.tvec, run := .run, last := s.pcyc, ready := s.pcyc + 3 }
      let ramo := fun (p : TrapReq) => match p.kind with
        | .completion i => if p.cause = 0x70 ∧ q.run ≠ .spawn i then (mfind s.ops i).map Op.pc else none
        | _ => none
      (∀ p l, q.refused = p :: l → (∃ u, exec (.trapEntry n) s = .next u ∧ enters u p (ramo p) { q with refused := l }) ∧
        (∃ u, exec (.seqCompletionFault n) s = .next u ∧ enters u p (ramo p) { q with refused := l })) ∧
      (∀ p l, q.refused = [] → q.queue = p :: l → ∃ u, exec (.trapEntry n) s = .next u ∧ enters u p none { q with queue := l })) ∧
    (s.cur.unit = .seq n → q.trap = true → q.handling = .report t → q.skip = false → (s.tile t).reports = [r] → (s.tile t).region = some k →
      r.op = none → r.entry ≠ none → r.code ≠ 0x10 → r.code ≠ 0x12 → r.code ≠ 0x13 → r.code ≠ 0x16 → (s.regionAt k).rstate = 3 →
      (∀ m, m ∈ (s.regionAt k).tiles → m ≠ t → (s.tile m).reports = []) →
      ∃ u, exec .tret s = .next u ∧ (u.tile t).reports = [] ∧ (u.regionAt k).rstate =
          (if ∃ j, j ∈ regionsOfGroup s k ∧ (s.regionAt j).reloading = true then 4 else if (s.regionAt k).inPhase = true then 2 else 1) ∧
        (u.seq n).trap = false ∧ (u.seq n).pc = leftAt q ∧ (u.seq n).loops = q.shadow)

/-! ## Contexts: pre-emption, translation, snapshots, ranks (R366 to R372, R397 to R429, R446, R447) -/

/-- R366, R370, R371, R398 to R401, R422 to R427, R447: the privileged and context instructions of a control unit, each where its
checks pass. -/
def Obligations.ContextInstructions : Prop :=
  ∀ (d a b : BitVec 6) (ident : BitVec 16) (scope : BitVec 4) (s : State) (n : Nat), s.cur.unit = .seq n →
    let q := s.seq n
    let c := q.ctxid
    let v := readS s a
    let x := s.ctx c
    let past := s.updSeq n fun q => { q.advance s.pcyc with run := .run }
    let ended := s.updSeq n fun q => { q.advance q.last with run := .run, ready := s.pcyc + 1 }
    let asked := scopeRanks s c scope.toNat ≠ [] ∨ ∃ e, e ∈ x.awaited ∧ e.1 = n
    let waits := fun (u : State) (r : RunState) => (u.seq n).run = r ∧ (u.seq n).pc = q.pc ∧ (u.seq n).ready = s.pcyc + 1
    let quiet := ∀ e, e ∈ s.ops → e.2.cur.unit = .seq n → e.2.isDram = false
    let delay := fun (u : State) (c : Nat) => if spansPackages u c = true then 760 else 400
    (∀ z drain u', 384 ≤ n → q.run = .run → v.toNat = z + 256 * bit drain → z < 64 → (s.ctx z).state = .active → clearValid z s = .ok () u' →
      ∃ u, exec (.csave a) s = .next u ∧ (u.seq n).run = .csave z ∧
        (drain = false → (u.seq n).pc = q.pc ∧ (u.ctx z).state = .halting ∧ (u.ctx z).haltAt = some (u'.pcyc + delay u' z) ∧
          u.agenda = u'.agenda ++ [(u'.pcyc + delay u' z, .haltPoint z)]) ∧
        (drain = true → (u.ctx z).state = .draining ∧ (u.ctx z).drainSave = true)) ∧
    (∀ z drain u', 384 ≤ n → q.run = .run → v.toNat = z + 256 * bit drain → z < 64 → (s.ctx z).state = .ready →
      ((clearValid z s).bind fun _ y => endSave z s.pcyc { drain := drain } y) = .ok () u' → ∃ u, exec (.csave a) s = .next u ∧
        (u.seq n).run = .csave z ∧ (u.seq n).pc = q.pc ∧ (u.ctx z).state = .saved ∧ u.mem = u'.mem) ∧
    (∀ z, q.run = .csave z → (s.ctx z).state ∈ [.saved, .lost, .free] → exec (.csave a) s = .next ended) ∧
    (∀ z, 384 ≤ n → q.run = .run → v.toNat = z → z < 64 → (s.ctx z).state = .saved →
      ∃ u, exec (.cload a) s = .next u ∧ waits u (.cload z) ∧ (u.ctx z).state = .restoring ∧ setLater s u (.restorePulse z)) ∧
    (∀ z, q.run = .cload z → (s.ctx z).state ≠ .restoring → awaitsGroup s z = false → exec (.cload a) s = .next ended) ∧
    (n < 384 → q.run = .run → v.toNat < 64 →
      exec (.csave a) s = .next (ownFault n 0x08 3 s) ∧ exec (.cload a) s = .next (ownFault n 0x08 3 s)) ∧
    (quiet → q.run = .run → readS s b = 0 → exec (.pginv a b scope) s = .next past) ∧
    (quiet → q.run = .run → v.toNat < 2 ^ 56 → readS s b ≠ 0 → let hi := min (v.toNat + (readS s b).toNat) (2 ^ 56)
      let ids := underRange s n scope.toNat c v.toNat hi
      ∃ u, exec (.pginv a b scope) s = .next u ∧ keepsMemory s u ∧ (ids = [] → ¬ asked → u.seqs = past.seqs) ∧
        (ids ≠ [] ∨ asked → waits u (.pginv (some ids))) ∧ (∀ r, r ∈ scopeRanks s c scope.toNat → (n, r) ∈ (u.ctx c).awaited) ∧
        ∀ m y, mfind s.xlats m = some y → ∃ z, mfind u.xlats m = some z ∧
          (4 ≤ scope.toNat ∨ m = dieOfSeq n → ∀ e, e ∈ z.tlb ↔ e ∈ y.tlb ∧ ¬ (e.ctx = c ∧ e.va < hi ∧ v.toNat < e.va + e.size)) ∧
          (¬ (4 ≤ scope.toNat ∨ m = dieOfSeq n) → z.tlb = y.tlb)) ∧
    (∀ ids, q.run = .pginv (some ids) → (∀ i, i ∈ ids → mfind s.ops i = none) → (∀ e, e ∈ x.awaited → e.1 ≠ n) → exec (.pginv a b scope) s = .next past) ∧
    (quiet → q.run = .run → (∀ e, e ∈ s.ops → e.2.kind = .walk → e.2.ctx = c → dieInReach n scope.toNat e.2.mtile = false) →
      (¬ asked → exec (.pgfence scope) s = .next past) ∧
      (asked → ∃ u, exec (.pgfence scope) s = .next u ∧ waits u (.pgfence (some [])) ∧ keepsMemory s u ∧
        ∀ r, r ∈ scopeRanks s c scope.toNat → (n, r) ∈ (u.ctx c).awaited)) ∧
    (∀ ids, quiet → q.run = .pgfence (some ids) → (∀ i, i ∈ ids → mfind s.ops i = none) → (∀ e, e ∈ x.awaited → e.1 ≠ n) → exec (.pgfence scope) s = .next past) ∧
    (2 ^ 56 ≤ v.toNat → exec (.pgstat d a) s = .next (openDone n d (BitVec.ofNat 64 (2 * 2 ^ 12)) s)) ∧
    (∀ e, v.toNat < 2 ^ 56 → tlbFind s (dieOfSeq n) c v.toNat = some e → exec (.pgstat d a) s = .next (openDone n d
      (pgstatWord e.leaf 0 (if Leaf.size e.leaf = 2 then 1 else 0) true (passOf s e.leaf e.leafAt)) s)) ∧
    (∀ id, v.toNat < 2 ^ 56 → tlbFind s (dieOfSeq n) c v.toNat = none → walkAhead s n = some id →
      exec (.pgstat d a) s = .next (s.updSeq n fun q => { q with run := .xlat id, ready := s.pcyc + 1 })) ∧
    (v.toNat < 2 ^ 56 → tlbFind s (dieOfSeq n) c v.toNat = none → walkAhead s n = none → ∃ u o, exec (.pgstat d a) s = .next u ∧ begun s u o ∧ o.kind = .walk ∧
      o.va = v.toNat ∧ (d.toNat ≠ 0 → (d.toNat, s.opCount) ∈ (u.seq n).waits) ∧ (u.seq n).pc = (Seq.advance q s.pcyc).pc) ∧
    (∀ w u', descriptorRead n s c = some (w, u') →
      (snapRefusal u' c ident.toNat scope.toNat w = 0 → ∃ u, exec (.snap ident scope) s = .next u ∧ goesOn s u ∧
        (∃ p, p ∈ (u.ctx c).snaps ∧ p.id = ident.toNat ∧ p.state = .requested ∧ p.dom = decide (scope.toNat = 5)) ∧
        u.agenda = u'.agenda ++ [(u'.pcyc + (if scope.toNat = 5 then 760 else delay u' c), .snapOpenPoint c)]) ∧
      (∀ r, snapRefusal u' c ident.toNat scope.toNat w = r → r ≠ 0 → exec (.snap ident scope) s = .next (ownFault n 0x60 (BitVec.ofNat 64 r) u'))) ∧
    (v.toNat < 65536 → exec (.snapq d a) s = .next (openDone n d (snapWord s c v.toNat) s)) ∧
    (65536 ≤ v.toNat → v.toNat < 2 ^ 17 →
      (∀ p, x.named (v.toNat % 65536) = some p → p.state = .sealed → exec (.snapq d a) s = .next (openDone n d (BitVec.ofNat 64 p.inventory) s)) ∧
      ((∀ p, x.named (v.toNat % 65536) = some p → p.state ≠ .sealed) → exec (.snapq d a) s = .next (openDone n d 0 s))) ∧
    (∀ p, q.run = .run → v.toNat < 65536 → x.named v.toNat = some p →
      (p.state ∈ [.sealed, .failed] → exec (.snapw a) s = .next past) ∧
      (p.state ∈ [.requested, .opened, .sealing] →
        exec (.snapw a) s = .next (s.updSeq n fun q => { q with run := .snapw p.id, ready := s.pcyc + 1 }))) ∧
    (∀ w u', q.run = .run → descriptorRead n s c = some (w, u') → let y := adoptStored c w u'
      (rollbRefusal y n c v.toNat w = 0 → ∃ u, exec (.rollb a) s = .next u ∧ waits u (.rollb c) ∧
        (u.ctx c).state = .rolling ∧ (u.ctx c).rolling = some v.toNat) ∧
      (∀ r, rollbRefusal y n c v.toNat w = r → r ≠ 0 → exec (.rollb a) s = .next (ownFault n 0x60 (BitVec.ofNat 64 r) u'))) ∧
    (∀ p, q.run = .rollb c → x.state = .rolling → x.haltAt = none ∨ haltSettled s c = true → x.rolling = some p.id →
      x.snaps.find? (fun y => decide (y.id = p.id)) = some p → ∀ y,
        (readRecords c p s = .ok () y → ∃ u, exec (.rollb a) s = .next u ∧ (u.seq n).pc = (y.ctx c).rbvec ∧ (u.seq n).run = .run ∧
          (u.ctx c).state = .ready ∧ (u.ctx c).seed = p.seed ∧ (u.ctx c).snapid = p.id) ∧
        (readRecords c p s = .fault y → ∃ u, exec (.rollb a) s = .next u ∧ (u.ctx c).state = .lost ∧ (u.seq n).run = .run)) ∧
    (rksetRefusal s n v (readS s b) = 0 → ∃ u, exec (.rkset a b) s = .next u ∧ mget 0 u.ranks v.toNat = readS s b ∧
      (∀ j y, j ≠ v.toNat → mfind s.ranks j = some y → mfind u.ranks j = some
        (if bitOf (readS s b).toNat 61 && bitOf y.toNat 61 then y - BitVec.ofNat 64 (2 ^ 61) else y))) ∧
    (∀ r, rksetRefusal s n v (readS s b) = r → r ≠ 0 → exec (.rkset a b) s = .next (ownFault n 0x72 (BitVec.ofNat 64 r) s)) ∧
    (v.toNat < 64 → exec (.rkget d a) s = .next (openDone n d (mget 0 s.ranks v.toNat) s))

/-! ## Regions in time (R23, R28 to R30, R98, R99, R139, R160, R165, R175, R203, R207, R208) -/

/-- R23, R28, R30, R98, R139, R165, R175, R203, R208, R217: due results are written in issue order; a region freezes on a result that is
late and goes on once nothing is missing; a held region starts its phase exactly where every declared token, slot and release is there; a
phase ends into the next one, or in the RATE reports of its ports; a watchdog count past its limit is a STALL report. -/
def Obligations.RegionsInTime : Prop :=
  ∀ (s : State) (c g i t : Nat),
    let k := State.regionKey c g i
    let r := s.regionAt k
    let x := s.tile t
    let becomes := fun (j : Instr) (y : Region) => exec j s = .next (s.setRegion k y)
    ((∀ p : Pending, p ∈ x.pend → p.op = none ∧ ((∃ d v, p.res = .scalar d v) ∨ (∃ d m v, p.res = .vector d m v) ∨ ∃ d m v, p.res = .pred d m v)) →
      ∃ u, exec (.resultWriteback t) s = .next u ∧ keepsMemory s u ∧ u.tile t =
        ((x.pend.filter fun p => p.left = 0 ∧ p.ready ≤ s.pcyc).map Pending.res).foldl applyResult
          { x with pend := x.pend.filter fun p => ¬ (p.left = 0 ∧ p.ready ≤ s.pcyc) }) ∧
    (∀ (p : Pending) (id : Nat) (o : Op) (d : Nat) (v : Word), x.pend = [p] → p.left = 0 → p.op = some id → mfind s.ops id = some o → o.served = true → o.usable ≤ s.pcyc →
      p.res = .scalar d v → ∃ u, exec (.resultWriteback t) s = .next u ∧
        u.tile t = { x with pend := [], s := setRegOf x.s d (o.got.setWidth 64) } ∧ mfind u.ops id = none) ∧
    (∀ (p : Pending) (id : Nat) (o : Op), r.tiles = [t] → x.pend = [p] → p.left = 0 → p.op = some id → mfind s.ops id = some o → o.served = false → r.waiting = none →
      becomes (.nearResultLate c g i) { r with rstate := 2, waiting := some {
        why := (match o.kind with | .presLoad => .presenceWait | _ => .nearLate)
        tile := t, seg := o.cur.seg, entry := o.cur.entry, stamp := o.cur.stamp } }) ∧
    (r.rstate = 2 → r.waiting = none → becomes (.regionResume c g i) { r with rstate := 0, wcnt := 0 }) ∧
    (r.inPhase = false → r.stretchLeft = 0 → (r.rstate = 1 ∨ r.rstate = 5) → r.checked = true → ∃ u, exec (.phaseStart c g i) s = .next u ∧
      let there := ∀ (n : Nat) (l : ListStore), n ∈ r.tiles → runningList s n = some l →
        (∀ e, e ∈ holdPorts s l r.phase (s.tile n).inPorts → e.2.2.1 ≤ (e.2.2.2.window.filter Token.isItem).length) ∧
        (∀ e, e ∈ holdPorts s l r.phase (s.tile n).outPorts → e.2.2.1 ≤ e.2.2.2.credits) ∧
        ∀ e, e ∈ memberPorts s n l r → e.2.2.2 ≤ (mget {} (s.tile n).cx e.1).held
      (there → u.regionAt k = { r with rstate := 0, inPhase := true, waiting := none }) ∧ (¬ there → u = s)) ∧
    (r.inPhase = true → r.phases.getD r.phase 0 ≤ r.cyc → r.phase + 1 ≠ r.phases.length →
      (r.rateDone = false → ∀ (n : Nat) (l : ListStore) (e : Nat × Port), n ∈ r.tiles → runningList s n = some l → e ∈ (s.tile n).inPorts ++ (s.tile n).outPorts →
        actorDone s l e.2.owner = false → e.2.count = e.2.rate.getD r.phase 0 ∧ e.2.mix = false) →
      ∃ u, exec (.phaseEnd c g i) s = .next u ∧ u.regionAt k = { r with
          cyc := 0, phase := r.phase + 1, inPhase := false, rateDone := false, ended := r.ended + 1, stretchLeft := r.stretch
          wcnt := 0, waiting := none
          rstate := if r.rstate = 3 ∨ r.rstate = 4 then r.rstate else if r.stretch = 0 then 1 else 5 } ∧
        (∀ n, n ∈ r.tiles → (u.tile n).counts = [] ∧ (u.tile n).pos = 0 ∧
          ∀ e, e ∈ (u.tile n).inPorts ++ (u.tile n).outPorts → e.2.count = 0 ∧ e.2.mix = false) ∧ keepsMemory s u) ∧
    (∀ (l : ListStore) (e : Nat × Port), r.inPhase = true → r.phases.getD r.phase 0 ≤ r.cyc → r.rateDone = false → r.tiles = [t] → x.region = some k → x.reports = [] →
      runningList s t = some l → e ∈ x.inPorts → actorDone s l e.2.owner = false → e.2.count ≠ e.2.rate.getD r.phase 0 →
      ∃ u, exec (.phaseEnd c g i) s = .next u ∧ (u.regionAt k).rstate = 3 ∧ (u.regionAt k).cyc = r.cyc ∧ (u.regionAt k).inPhase = true ∧
        ∃ y, y ∈ (u.tile t).reports ∧ y.code = 0x10 ∧ y.entry = none ∧ y.info = rateInfo false e.1 e.2 r.phase) ∧
    (∀ w : Waiting, r.waiting = some w → (r.rstate = 1 ∨ r.rstate = 2) → 256 * r.wdog + 1 ≤ r.wcnt → w.tile = t → x.region = some k →
      ∃ u y, exec (.stall c g i) s = .next u ∧ y ∈ (u.tile t).reports ∧ y.code = 0x12 ∧ y.entry = none ∧ y.op = none ∧
        y.loc = s.tileLoc t w.seg w.entry w.stamp ∧ (u.regionAt k) = { r with rstate := 3 })

/-! ## Engines (R184 to R195, R250, R252, R386) -/

namespace Sys2Proof.Claims

/-- No snapshot of a context is open or being sealed. -/
def calm (s : State) (c : Nat) : Prop := ∀ p, p ∈ (s.ctx c).snaps → p.state ≠ .opened ∧ p.state ≠ .sealing

/-- An engine of a context finds the translation of `va` in the TLB of the die on which it works, and no walk is under way. -/
def engineHit (s : State) (c : Nat) (st : Stream) (va : Nat) (e : TlbEntry) : Prop :=
  va < 2 ^ 56 ∧ (∀ o, o ∈ s.ops → o.2.kind ≠ .walk) ∧ tlbFind s (dieOfPos ((st.tileOf s c).getD 0)) c va = some e

/-- The same for a write, to a page of which no snapshot wants a copy, and whose leaf entry still stands as the TLB holds it, in a bank that
is not under test where its D is to be set. -/
def engineStores (s : State) (c : Nat) (st : Stream) (va : Nat) (e : TlbEntry) : Prop :=
  engineHit s c st va e ∧ Leaf.w e.leaf = true ∧ readEntry s e.leafAt = e.leaf ∧ calm s c ∧
    (Leaf.d e.leaf = true ∨ underTest s e.leafAt = none)

end Sys2Proof.Claims

/-- R185, R186, R189 to R193, R252: sources and gathers request and deliver lines; gathers take indices; a sink writes its token whole; a
scatter-add adds a row element by element; a template fires, and completes with a CTRL token in its bound window. -/
def Obligations.EngineSteps : Prop :=
  ∀ (s : State) (c g m : Nat) (y : Graph) (e : TlbEntry), s.graph? c g = some y →
    let x := memAt s c g m
    let f := copyAt s c g m
    let head := fun (key : Nat) (a : Arc) (tok : Token) => s.arc? key = some a ∧ tok.isItem = true ∧
      ∃ rest, headOf s key = (headMarkers a.window, tok :: rest)
    let taken := fun (u : State) (key : Nat) (a : Arc) => ∃ b, u.arc? key = some b ∧ b.window = (a.window.drop (headMarkers a.window).length).tail
    (∀ d : MADecl, m < y.mems.length → memDecl s c g m = some d →
      (d.kind = .source → let va := x.address d x.next
        engineHit s c (.memActor g m) va e → Leaf.rd e.leaf = true → ∃ u o, exec (.sourceRequest c g m) s = .next u ∧
          mfind u.ops s.opCount = some o ∧ o.kind = .engineRead m x.next ∧ o.addr = Leaf.pa e.leaf + (va - e.va) ∧
          o.stream = .memActor g m ∧ o.ctx = c ∧ memAt u c g m = { x with next := x.next + 1, fetching := x.fetching ++ [(x.next, 0, none)] } ∧
          setLater s u (.dramReply s.opCount) ∧ keepsMemory s u) ∧
      (∀ (j : Int) (js : List Int), d.kind = .gather → x.indices = j :: js → 0 ≤ j → j < d.rows → let va := x.base + j.toNat * d.rowbytes + 64 * x.row
        engineHit s c (.memActor g m) va e → Leaf.rd e.leaf = true → ∃ u o, exec (.sourceRequest c g m) s = .next u ∧
          mfind u.ops s.opCount = some o ∧ o.kind = .engineRead m x.next ∧ o.addr = Leaf.pa e.leaf + (va - e.va) ∧
          memAt u c g m = { x with
            next := x.next + 1, fetching := x.fetching ++ [(x.next, x.colour, none)]
            row := if x.row + 1 < d.rowbytes / 64 then x.row + 1 else 0
            indices := if x.row + 1 < d.rowbytes / 64 then j :: js else js } ∧ setLater s u (.dramReply s.opCount) ∧ keepsMemory s u) ∧
      (∀ (id : Nat) (o : Op) (n col key : Nat) (a : Arc), mfind s.ops id = some o → o.kind = .engineRead m n → o.stream = .memActor g m → o.ctx = c → o.refused = false → d.kind = .source →
        underTest s o.addr = none → x.fetching = [(n, col, none)] → x.snapAt = none → x.lastToken = none → memOut s c g m = some key →
        s.arc? key = some a →
        let tok : Token := { kind := .data, tag := key % 4096, colour := col, fmt := d.fmt, payload := BitVec.ofNat 512 (readLE s.mem o.addr 64) }
        ∃ u, exec (.dramReply id) s = .next u ∧ mfind u.ops id = none ∧ memAt u c g m = { x with fetching := [], tokens := x.tokens + 1 } ∧
          u.arc? key = some { a with sent := a.sent + 1, transit := a.transit ++ [tok] } ∧
          Task.event (.ringWindowWrite (key / 4096) (key % 4096)) ∈ u.todo ∧ keepsMemory s u) ∧
      (∀ (id : Nat) (o : Op) (n die : Nat), mfind s.ops id = some o → o.kind = .engineRead m n → o.stream = .memActor g m → o.refused = false →
        underTest s o.addr = some die → exec (.dramReply id) s = .next (holdRequest die (.event (.dramReply id)) s)) ∧
      (∀ (key : Nat) (a : Arc) (tok : Token), d.kind = .sink → memIn s c g m 0 = some key → head key a tok → let va := x.address d x.next
        let pa := Leaf.pa e.leaf + (va - e.va)
        engineStores s c (.memActor g m) va e →
        (∀ die, underTest s pa = some die → ∃ u, exec (.sinkWrite c g m) s = .next u ∧ Task.memActor c g m ∈ (u.die die).held ∧
          memAt u c g m = x ∧ u.arc? key = some a) ∧
        (underTest s pa = none → (pa + 64 ≤ e.leafAt ∨ e.leafAt + 8 ≤ pa) →
        ∃ u, exec (.sinkWrite c g m) s = .next u ∧ memAt u c g m = { x with next := x.next + 1, tokens := x.tokens + 1 } ∧ taken u key a ∧
          readLE u.mem pa 64 = tok.payload.toNat ∧ u.near = s.near ∧ u.peerMem = s.peerMem ∧
          ∀ b : Nat, (b < pa ∨ pa + 64 ≤ b) → (b < e.leafAt ∨ e.leafAt + 8 ≤ b) → readByte u.mem b = readByte s.mem b)) ∧
      (∀ (va : Nat) (row : Payload) (rest : List (Nat × Payload × Bool)), d.ordered = true → x.updates = (va, row, true) :: rest → x.pagewait = false → x.held = false → x.pause ≤ s.pcyc →
        ctxMoves s c = true →
        let pa := Leaf.pa e.leaf + (va - e.va)
        engineStores s c (.memActor g m) va e → Leaf.rd e.leaf = true → underTest s pa = none → (pa + 64 ≤ e.leafAt ∨ e.leafAt + 8 ≤ pa) →
        let old := readLE s.mem pa 64
        ∃ u, exec (.scatterAddUpdate c g m) s = .next u ∧ memAt u c g m = { x with updates := rest, retry := false } ∧
          (d.op = 0 → ∀ j : Nat, j < 16 → elem 32 (readLE u.mem pa 64) j = (elem 32 old j + elem 32 row.toNat j) % 2 ^ 32) ∧
          (d.op = 1 → ∀ j : Nat, j < 16 → elem 32 (readLE u.mem pa 64) j = fadd .f32 0 0 (elem 32 old j) (elem 32 row.toNat j) % 2 ^ 32) ∧
          (d.op = 2 → ∀ j : Nat, j < 32 → elem 16 (readLE u.mem pa 64) j = fadd .bf16 0 0 (elem 16 old j) (elem 16 row.toNat j) % 2 ^ 16) ∧
          ∀ b : Nat, (b < pa ∨ pa + 64 ≤ b) → (b < e.leafAt ∨ e.leafAt + 8 ≤ b) → readByte u.mem b = readByte s.mem b)) ∧
    (∀ (key : Nat) (a : Arc) (tok : Token), m < y.mems.length → memIn s c g m 0 = some key → head key a tok → ∃ u z, exec (.gatherIndexTake c g m) s = .next u ∧
      memAt u c g m = { x with indices := z, colour := tok.colour, row := 0, tokens := x.tokens + 1 } ∧ z.length = 16 ∧
      (∀ j : Nat, j < 16 → z[j]? = some (BitVec.ofNat 32 (elem 32 tok.payload.toNat j)).toInt) ∧ taken u key a ∧ keepsMemory s u) ∧
    (m < y.mems.length → ∃ u, exec (.memoryActorQuiescent c g m) s = .next u ∧ (memAt u c g m).quiescent = true ∧
      (memAt u c g m).next = x.next ∧ (memAt u c g m).tokens = x.tokens ∧ keepsMemory s u) ∧
    (∀ (key : Nat) (a : Arc) (tok : Token), m < y.copies.length → copyQueue s c g m = some key → head key a tok →
      let off := tok.payload.toNat % 2 ^ 64
      let within := fun (p o : Nat) => p / 2 ^ 63 % 2 = 0 ∨ p % 2 ^ 63 + o + 8 * f.words ≤ 2 ^ 23
      ∃ u, exec (.copyFiring c g m) s = .next u ∧ taken u key a ∧ keepsMemory s u ∧
        let z := copyAt u c g m
        (off % 8 = 0 → within f.src off → within f.dst 0 →
          z.firing = some (tok.colour, off, 0) ∧ z.fsrc = f.src ∧ z.fdst = f.dst ∧ z.fwords = f.words) ∧
        (∀ t : Nat, ¬ (off % 8 = 0 ∧ within f.src off ∧ within f.dst 0) → (Stream.copy g m).tileOf s c = some t →
          z.firing = f.firing ∧ z.held = true ∧ ∃ p, p ∈ (u.seq (quadOfPos t)).queue ∧ p.cause = 0x41 ∧ p.kind = .engine (.copy g m))) ∧
    (∀ (key : Nat) (b : Arc) (col off n : Nat), m < y.copies.length → copyQueue s c g m = some key → f.firing = some (col, off, n) → f.snapDue = false → f.stopped = false →
      calm s c → s.arc? (boundKey key) = some b → b.kind ≠ .slot → ∃ u tok, exec (.copyCompletion c g m) s = .next u ∧
        copyAt u c g m = { f with firing := none } ∧ u.arc? (boundKey key) = some { b with fresh := b.fresh ++ [tok] } ∧ tok.kind = .ctrl ∧
        tok.colour = col ∧ tok.payload = BitVec.ofNat 512 (f.fwords + (f.fsrc + off) % 2 ^ 64 * 2 ^ 64) ∧ keepsMemory s u)

/-! ## The steps of graphs and launch records (R198, R245 to R253, R263 to R265) -/

/-- R198, R245 to R247, R249, R250, R253: a checked image is LOADED, on the package that issued the load once those of its ranks hold the
graph too (R478), a bad one FAILED with its status; a WAITING graph whose placement fits is bound to its quads, which read 0, and is staged;
the start pulse starts the regions of the target mode whose lists stand here, and at the first one a sequencer's code (R479); a request that
reaches an injection point is noted there. -/
def Obligations.GraphSteps : Prop :=
  ∀ (s : State) (c g : Nat) (x : Graph), s.graph? c g = some x →
    (∀ (va : Nat) (im : Image) (u' : State), x.state = .loading → x.verdict = some 0 →
      s.images.find? (fun e => decide (e.1 = c) && decide (e.2.1 = x.va)) = some (c, va, im) →
      let took := ∀ r, r ∈ im.ranks → r.2 ∈ x.peersTook
      (x.issued = true → x.told = false → ∃ u, exec (.graphLoadComplete c g) s = .next u ∧ u.graph? c g = some { x with told := true } ∧
        Task.event (.graphLoadComplete c g) ∈ u.todo ∧ keepsMemory s u) ∧
      (x.issued = true → x.told = true → ¬ took → exec (.graphLoadComplete c g) s = .next (s.after 1 (.graphLoadComplete c g))) ∧
      (x.issued = false ∨ (x.told = true ∧ took) → writeData c im s = .ok () u' → ∃ u y, exec (.graphLoadComplete c g) s = .next u ∧
        u.graph? c g = some y ∧ y.state = .loaded ∧ y.image = im ∧ y.load = 0 ∧
        y.mode = 0 ∧ y.target = 0 ∧ y.handle = x.handle ∧ keepsMemory u' u)) ∧
    (∀ w : Word, x.state = .loading → x.verdict = some w → w ≠ 0 →
      ∃ u, exec (.graphLoadComplete c g) s = .next u ∧ u.graph? c g = some { x with state := .failed, load := w } ∧ keepsMemory s u) ∧
    (∀ (t : Trial) (u' : State), x.state = .waiting → (s.ctx c).state ∈ [.ready, .active] → mustWait s c g x = false → placeAll s c g x = some t →
      saveBytes (quadsHeld s c + t.quads.length) ≤ (s.ctx c).saveSize → bindGraph c g t s = .ok () u' → ∃ u y, exec (.graphPlacement c g) s = .next u ∧
        u.graph? c g = some y ∧ y.state = .staging ∧ y.placed = t.placed ∧ (u.ctx c).state = .active ∧ setLater s u (.stagingComplete c g) ∧
        (∀ q : Nat, q ∈ t.quads → (u.seq q).s = [] ∧
          ∀ j : Nat, j < 4 → (u.tile (computeOfQuad q j)).s = [] ∧ (u.tile (computeOfQuad q j)).v = [] ∧ (u.tile (computeOfQuad q j)).p = [])) ∧
    (∀ t : Trial, x.state = .waiting → (s.ctx c).state ∈ [.ready, .active] → mustWait s c g x = false → placeAll s c g x = some t →
      (s.ctx c).saveSize < saveBytes (quadsHeld s c + t.quads.length) → ∃ u, exec (.graphPlacement c g) s = .next u ∧
        u.graph? c g = some { x with saveAreaTold := true } ∧ setLater s u (.graphPlacement c g)) ∧
    (x.state = .waiting → (s.ctx c).state ∈ [.ready, .active] → placeAll s c g x = none →
      ∃ u, exec (.graphPlacement c g) s = .next u ∧ u.graph? c g = some x ∧ setLater s u (.graphPlacement c g) ∧ keepsMemory s u) ∧
    (∀ m : ModeDecl, x.state ∈ [.staging, .changing] → x.image.mode? x.target = some m → ∃ u y, exec (.stagingComplete c g) s = .next u ∧
      u.graph? c g = some y ∧ y.state = x.state ∧ y.stagedMode = some x.target ∧ y.everStaged = true ∧
      (x.state = .staging → x.stagedMode = none → ∀ e, e ∈ y.groups → e.state = .staged) ∧ u.mem = s.mem) ∧
    (∀ m : ModeDecl, startReady s c g = true → x.image.mode? x.target = some m → ∃ u y, exec (.startPulse c g) s = .next u ∧
      u.graph? c g = some y ∧ y.state = .running ∧ y.mode = x.target ∧ y.periods = 0 ∧ y.draining = false ∧
      y.seed = (if x.keepSeed = true then x.seed else (s.ctx c).seed) ∧ y.keepSeed = false ∧
      (∀ (i : Nat) (r : RegionDecl), m.regions[i]? = some r → i < 2048 →
        ((∀ t, t ∈ r.lists → x.isHere t = true) → mfind u.regions (State.regionKey c g i) = some {
          rstate := 1, wdog := mget r.wdog x.wdogs (energyKey x.target i), mode := x.target, tiles := r.lists.map fun t => x.placed.getD t 0
          stretch := if ∃ t, t ∈ r.lists ∧ (s.die (dieOfPos (x.placed.getD t 0))).allow = 0 then 65535 else 0
          phases := m.phases, energy := r.energy, measured := mget [] x.measured (energyKey x.target i) }) ∧
        ((∃ t, t ∈ r.lists ∧ x.isHere t = false) → mfind u.regions (State.regionKey c g i) = none)) ∧
      (∀ d : SeqDecl, x.state = .staging → x.image.seqs = [d] → seqHere x d = true → (u.seq (seqOfBlock x 0)).run = .run ∧
        (u.seq (seqOfBlock x 0)).pc = BitVec.ofNat 64 d.va ∧ (u.seq (seqOfBlock x 0)).ready = s.pcyc) ∧ u.mem = s.mem ∧ u.near = s.near) ∧
    (∀ p : Nat, 2 ≤ p / 4096 → ∃ u, exec (.modeRequestArrival c g p) s = .next u ∧ u.graph? c g = some { x with points := x.points ++ [p] } ∧
      keepsMemory s u) ∧
    (∀ (n key : Nat) (a : Arc) (k col : Nat) (rest : List (Nat × Nat × Option Payload)), n < x.mems.length → n < 4096 → memOut s c g n = some key → s.arc? key = some a → isLive s key = true → (memAt s c g n).fetching = (k, col, none) :: rest →
      ∃ u, exec (.modeRequestArrival c g (pointOf 0 n)) s = .next u ∧ keepsMemory s u ∧
        memAt u c g n = { memAt s c g n with lastToken := some ((memAt s c g n).next + tokensToPeriodEnd s a (memAt s c g n)) }) ∧
    (∀ n : Nat, n < x.copies.length → n < 4096 → (copyAt s c g n).firing ≠ none → ∃ u, exec (.modeRequestArrival c g (pointOf 1 n)) s = .next u ∧
      copyAt u c g n = { copyAt s c g n with stopped := true } ∧ keepsMemory s u)

/-- R263, R264: the dispatcher reads a record; a record acts as its kind says, once it is ready; a record that finishes counts its
successors down. One that GRAPH would refuse is FAILED; a KICK on the host arc gives it a token. -/
def Obligations.LaunchSteps : Prop :=
  ∀ (s : State) (c id : Nat),
    let x := s.ctx c
    let acts := fun (u : State) (r : LaunchRec) => recordAt u c id = some { r with acting := true }
    let fails := fun (i : Instr) => ∃ u, exec i s = .next u ∧ recordAt u c id = none ∧ u.graphs = s.graphs ∧ u.arcs = s.arcs
    (x.readPtr ≠ x.tail → x.ringStop = false → x.records.length < 4096 → x.state ∈ [.ready, .active] →
      (∀ o, o ∈ s.ops → ¬ (o.2.kind = .walk ∧ o.2.stream = .ring ∧ o.2.ctx = c)) →
      let va := x.ringBase + x.readPtr % 2 ^ (x.rlog + 6) * 64
      let stops := ∃ u, exec (.launchRecordRead c) s = .next u ∧ (u.ctx c).ringStop = true ∧ (u.ctx c).readPtr = x.readPtr ∧
        (u.ctx c).records = x.records
      (s.recordAt = some s.pcyc → exec (.launchRecordRead c) s = .next (s.after 1 (.launchRecordRead c))) ∧
      (s.recordAt ≠ some s.pcyc → 2 ^ 56 ≤ va → stops) ∧
      (s.recordAt ≠ some s.pcyc → va < 2 ^ 56 → tlbFind s 0 c va = none → ∃ u o, exec (.launchRecordRead c) s = .next u ∧
        mfind u.ops s.opCount = some o ∧ o.kind = .walk ∧ o.va = va ∧ o.ctx = c ∧ o.stream = .ring ∧ u.ctxs = s.ctxs) ∧
      (∀ e : TlbEntry, s.recordAt ≠ some s.pcyc → va < 2 ^ 56 → tlbFind s 0 c va = some e →
        (Leaf.rd e.leaf = false → stops) ∧
        (Leaf.rd e.leaf = true →
          let pa := Leaf.pa e.leaf + (va - e.va)
          let w := readLE s.mem pa 64
          (∀ die, underTest s pa = some die → exec (.launchRecordRead c) s = .next (holdRequest die (.event (.launchRecordRead c)) s)) ∧
          (underTest s pa = none → x.ringBad = true → stops) ∧
          (underTest s pa = none → x.ringBad = false →
            ∃ u r, exec (.launchRecordRead c) s = .next u ∧ (u.ctx c).records = x.records ++ [r] ∧ (u.ctx c).readPtr = (x.readPtr + 1) % 2 ^ 32 ∧
              u.recordAt = some s.pcyc ∧ r.id = w / 2 ^ 48 % 2 ^ 16 ∧ r.kind = w % 16 ∧ r.prio = w / 16 % 8 ∧ r.mode = w / 2 ^ 32 % 8 ∧
              r.handle = w / 2 ^ 64 % 2 ^ 64 ∧ r.count = w / 2 ^ 128 % 2 ^ 64 ∧ r.arg = BitVec.ofNat 64 (w / 2 ^ 192) ∧
              r.preds = w / 2 ^ 40 % 256 - mget 0 x.kept r.id ∧ (∀ n : Nat, n < 8 → r.succ[n]? = some (w / 2 ^ (256 + 16 * n) % 2 ^ 16)) ∧
              (5 ≤ r.kind ∨ r.id = 0xFFFF ∨ (∃ q, q ∈ x.records ∧ q.id = r.id) → r.failed = true) ∧ keepsMemory s u)))) ∧
    (∀ r : LaunchRec, recordAt s c id = some r →
      (∀ (g : Nat) (y : Graph), slotOf s c (BitVec.ofNat 64 r.handle) = some g → s.graph? c g = some y →
        let known := (y.image.mode? r.mode).isSome = true
        (known → y.state ∈ [.loaded, .idle] → ∃ u, exec (.recordRun c id) s = .next u ∧ acts u r ∧ setLater s u (.graphPlacement c g) ∧
          u.graph? c g = some { y with target := r.mode, state := .waiting, prior := y.state, prio := r.prio, lat := r.lat, since := r.readySince
                                       record := some id, count := r.count, ran := 0 }) ∧
        (known → y.state ∈ [.loaded, .waiting, .staging, .idle] → ∃ u, exec (.recordMode c id) s = .next u ∧ acts u r ∧
          u.graph? c g = some { y with target := r.mode }) ∧
        (known → y.state = .running → ∃ u z, exec (.recordMode c id) s = .next u ∧ acts u r ∧ u.graph? c g = some z ∧
          z.state = .changing ∧ z.target = r.mode ∧ z.mode = y.mode) ∧
        (known → y.state = .changing → ∃ u, exec (.recordMode c id) s = .next u ∧ acts u r ∧ u.graph? c g = some { y with target := r.mode }) ∧
        (¬ known → fails (.recordRun c id) ∧ fails (.recordMode c id)) ∧
        (known → y.state ∈ [.waiting, .staging, .changing] → ∃ u, exec (.recordRun c id) s = .next u ∧ recordAt u c id = none ∧
          u.graph? c g = some { y with target := r.mode }) ∧
        (known → y.state = .running → ∃ u z, exec (.recordRun c id) s = .next u ∧ recordAt u c id = none ∧ u.graph? c g = some z ∧
          z.state = .changing ∧ z.target = r.mode ∧ z.mode = y.mode) ∧
        (y.state ∉ [.loaded, .waiting, .staging, .idle, .running, .changing] → fails (.recordRun c id) ∧ fails (.recordMode c id)) ∧
        (∃ u, exec (.recordUnload c id) s = .next u ∧ u.graph? c g = none ∧ Task.event (.recordFinish c id) ∈ u.todo)) ∧
      (slotOf s c (BitVec.ofNat 64 r.handle) = none → fails (.recordRun c id) ∧ fails (.recordMode c id) ∧ fails (.recordUnload c id)) ∧
      (r.handle % 4096 = 4095 →
        (x.hostArc.length < 64 → ∃ u, exec (.recordKick c id) s = .next u ∧ recordAt u c id = some { r with acting := true, place := 0 } ∧
          (u.ctx c).hostArc = x.hostArc ++ [r.arg.toNat % 2 ^ 32] ∧ u.arcs = s.arcs ∧ keepsMemory s u) ∧
        (64 ≤ x.hostArc.length → exec (.recordKick c id) s = .next s)) ∧
      (r.handle % 4096 ≠ 4095 →
      (∀ a : Arc, s.arc? (State.arcKey c (r.handle % 4096)) = some a → a.kind = .queue → a.sent - a.seen < a.cap + 64 * a.chunks →
        (∀ n, a.dst ≠ .remote n) → ∃ u, exec (.recordKick c id) s = .next u ∧
          departs s u c (r.handle % 4096) a { kind := .data, tag := r.handle % 4096, payload := r.arg.setWidth 512 } ∧
          recordAt u c id = some { r with acting := true, place := a.sent + 1 } ∧ keepsMemory s u) ∧
      (∀ a : Arc, s.arc? (State.arcKey c (r.handle % 4096)) = some a → a.kind ≠ .queue → fails (.recordKick c id)) ∧
      (s.arc? (State.arcKey c (r.handle % 4096)) = none → fails (.recordKick c id)) ∧
      (∀ a : Arc, s.arc? (State.arcKey c (r.handle % 4096)) = some a → a.kind = .queue → a.cap + 64 * a.chunks ≤ a.sent - a.seen →
        exec (.recordKick c id) s = .next s)) ∧
      (∃ u, exec (.recordNote c id) s = .next u ∧ acts u r ∧ u.todo = s.todo ++ [Task.event (.recordFinish c id)]) ∧
      (∃ u, exec (.recordFinish c id) s = .next u ∧ recordAt u c id = none ∧ (∀ n, (u.ctx n).state = (s.ctx n).state) ∧ keepsMemory s u) ∧
      (∀ j : Nat, r.succ.filter (fun n => n ≠ 0xFFFF) = [j] → j ≠ id → ∃ u, exec (.recordFinish c id) s = .next u ∧ recordAt u c id = none ∧
        (∀ q : LaunchRec, recordAt s c j = some q → recordAt u c j = some { q with
          preds := q.preds - 1, readySince := if q.preds = 1 then s.pcyc else q.readySince }) ∧
        (recordAt s c j = none → mget 0 (u.ctx c).kept j = mget 0 x.kept j + 1) ∧ keepsMemory s u))

/-! ## The steps of pre-emption and of configuration stores (R200, R205, R366 to R371, R377) -/

/-- R366 to R371, R377: a HALT point ends what regions wait for; a HALT save, once all has settled, leaves its graphs SAVED; a DRAIN save
ends when every graph rests; a restore brings a context back, over several packages at the pulse that they agree on once each has placed its
saved graphs (R442); a lasting error of a configuration store reloads it. -/
def Obligations.PreemptionSteps : Prop :=
  ∀ (s : State) (c g i : Nat),
    let x := s.ctx c
    let k := State.regionKey c g i
    (x.state ∈ [.halting, .rolling] → ∃ u, exec (.haltPoint c) s = .next u ∧ keepsMemory s u ∧ ∀ (j : Nat) (r : Region), mfind s.regions j = some r →
      mfind u.regions j = some (if j / 2048 / 256 = c then { r with waiting := none, wcnt := 0 } else r)) ∧
    (haltSettled s c = true → (∀ e, e ∈ s.graphs → e.1 / 256 = c → e.2.state ≠ .staging) →
      let slots := ((s.graphs.filter fun e => decide (e.1 / 256 = c)).filter fun e =>
        e.2.state = .running ∨ e.2.state = .changing ∨ e.2.state = .draining).map fun e => e.1 % 256
      let parked := slots.foldl (fun s g => parkGraph c g s) (dropEngineOps c s)
      ∀ u : State, endSave c (x.haltAt.getD s.pcyc) (saveObjects c slots s) parked = .ok () u →
        exec (.saveComplete c) s = .next u ∧ (u.ctx c).state = .saved ∧ (u.ctx c).saved = some (saveObjects c slots s) ∧
        ∀ (n : Nat) (y : Graph), n < 256 → s.graph? c n = some y → y.state ∈ [.running, .changing, .draining] → ∃ z, u.graph? c n = some z ∧ z.state = .saved) ∧
    (x.state = .draining → x.drainSave = true →
      (∀ e, e ∈ s.graphs → e.1 / 256 = c → e.2.state ∈ [.idle, .loaded, .failed]) →
      (∀ u : State, endSave c s.pcyc { drain := true, again := x.drained } s = .ok () u → exec (.drainComplete c) s = .next u ∧
        (u.ctx c).state = .saved ∧ (u.ctx c).saved = some { drain := true, again := x.drained }) ∧
      (∀ u : State, endSave c s.pcyc { drain := true, again := x.drained } s = .fault u → ∃ w, exec (.drainComplete c) s = .next w ∧
        (w.ctx c).state = .lost)) ∧
    (∀ v : Saved, x.state = .restoring → x.saved = some v →
      (∀ (w : Saved) (p : State), v.drain = true → readArea c v s = .ok w p →
        ∃ u, exec (.restorePulse c) s = .next u ∧ (u.ctx c).state = .ready ∧ (u.ctx c).saved = none) ∧
      let goesOn' := ∃ u, exec (.restorePulse c) s = .next u ∧ (u.ctx c).state ∈ [.active, .ready] ∧ (u.ctx c).saved = none
      let placed := ∀ e, e ∈ v.graphs → ∀ r, r ∈ e.2.image.ranks → mfind x.peersPlaced r.2 ≠ none
      (v.drain = false → x.placedAt = none →
        (placeAllSaved c v.graphs s = none →
          ∃ u, exec (.restorePulse c) s = .next u ∧ u.ctxs = s.ctxs ∧ u.regions = s.regions ∧ setLater s u (.restorePulse c)) ∧
        ∀ q : State, placeAllSaved c v.graphs s = some q →
          (∀ (w : Saved) (p : State), v.spans = false → readArea c v q = .ok w p → goesOn') ∧
          (v.spans = true → ∃ u, exec (.restorePulse c) s = .next u ∧ (u.ctx c).placedAt = some q.pcyc ∧
            u.agenda = q.agenda ++ [(q.pcyc + 1, .restorePulse c)])) ∧
      (v.drain = false → x.placedAt ≠ none →
        (x.pulseAt = none → ¬ placed → exec (.restorePulse c) s = .next (s.after 1 (.restorePulse c))) ∧
        (x.pulseAt = none → placed → ∃ u, exec (.restorePulse c) s = .next u ∧ let h := pulseFrom (lastMet x.placedAt x.peersPlaced) s.pcyc
          u.ctx c = { x with pulseAt := some h } ∧ u.agenda = s.agenda ++ [(h, .restorePulse c)]) ∧
        ∀ h, x.pulseAt = some h →
          (s.pcyc < h → exec (.restorePulse c) s = .next (s.after (h - s.pcyc) (.restorePulse c))) ∧
          (∀ (w : Saved) (p : State), h ≤ s.pcyc → readArea c v s = .ok w p → goesOn'))) ∧
    (∀ r : Region, mfind s.regions k = some r →
      let t := r.tiles.foldl min 4095
      (∃ u, exec (.configStoreError c g i 0) s = .next u ∧ u.regions = s.regions ∧ keepsMemory s u ∧ (u.tile t).slow = (s.tile t).slow + 8 ∧
        ((s.die (t / 256)).log.length < 1024 → ∃ e, (u.die (t / 256)).log = (s.die (t / 256)).log ++ [e] ∧ e.w0.toNat / 2 ^ 58 = 5 * 4 + 1)) ∧
      (∃ u, exec (.configStoreError c g i 1) s = .next u ∧ (u.regionAt k).rstate = (if r.rstate = 3 then 3 else 4) ∧ (u.regionAt k).wcnt = 0 ∧
        (u.regionAt k).reloading = true ∧ setLater s u (.configReloadComplete c g i 0) ∧ keepsMemory s u) ∧
      ((∀ l, l ∈ s.links → l.2.strays = []) → ∃ u, exec (.configReloadComplete c g i 0) s = .next u ∧ keepsMemory s u ∧ (u.regionAt k).reloading = false ∧
        ((∀ j, j ∈ regionsOfGroup s k → j ≠ k → (s.regionAt j).reloading = false) →
          (u.regionAt k).rstate = (if r.rstate = 4 then if r.inPhase = true then 2 else 1 else r.rstate))) ∧
      (∀ n : Nat, ∃ u y, exec (.configReloadComplete c g i (n + 1)) s = .next u ∧ y ∈ (u.tile t).reports ∧ y.code = 0x16 ∧
        y.info = BitVec.ofNat 64 (n % 16) ∧ keepsMemory s u))

/-! ## The steps of snapshots and rollbacks (R404 to R421, R428) -/

/-- R406, R407, R413 to R419, R428: an open point turns the polarity and starts the sweeper, which captures leaf after leaf; a snapshot
whose conditions hold is sealed and then SEALED with its inventory; one that fails is FAILED, and a sweep leaves every leaf captured; a
rollback copies its pages home, and a cellar that cannot be reached makes the context LOST. -/
def Obligations.SnapshotSteps : Prop :=
  ∀ (s : State) (c : Nat),
    let x := s.ctx c
    let next := fun (i : Instr) (f : State → Prop) => ∃ u, exec i s = .next u ∧ f u
    (∀ p : Snap, x.snaps.find? (fun p => decide (p.state = .requested)) = some p → next (.snapOpenPoint c) fun u =>
      (u.ctx c).pol = !x.pol ∧ (u.ctx c).sweep = some 0 ∧ setLater s u (.sweeperVisit c) ∧
      ∃ q : Snap, q ∈ (u.ctx c).snaps ∧ q.id = p.id ∧ q.state = .opened ∧ q.prev = (x.newestSealed.map Snap.id).getD 0 ∧ q.seed = x.seed ∧ q.pol = !x.pol) ∧
    (∀ (va : Nat) (p : Snap), x.sweep = some va → x.snapOpen = some p →
      ((leaves s c).find? (fun l => decide (va ≤ l.1)) = none → next (.sweeperVisit c) fun u => u.ctx c = { x with sweep := none } ∧ keepsMemory s u) ∧
      (∀ (v place : Nat) (e : Word), (leaves s c).find? (fun l => decide (va ≤ l.1)) = some (v, place, e) →
        let due := Leaf.w e = true ∧ Leaf.s e ≠ x.pol ∧ neverCaptured x v (Leaf.bytes e) = false
        let waits := Leaf.state e = 4 ∨ Leaf.cmt e = true
        (due → waits → next (.sweeperVisit c) fun u => u.ctxs = s.ctxs ∧ keepsMemory s u ∧ setLater s u (.sweeperVisit c)) ∧
        (¬ due → next (.sweeperVisit c) fun u => u.ctx c = { x with sweep := some (v + Leaf.bytes e) } ∧ keepsMemory s u ∧ setLater s u (.sweeperVisit c)) ∧
        (due → ¬ waits → Leaf.isHome e = false → next (.sweeperVisit c) fun u => u.ctx c = { x with sweep := some (v + Leaf.bytes e) } ∧
          keepsMemory s u ∧ setLater s u (.sweeperVisit c)) ∧
        (due → ¬ waits → Leaf.isHome e = true → leafMatches s e = false → exec (.sweeperVisit c) s = .next (s.soon (.snapshotFail c 3))) ∧
        (due → ¬ waits → Leaf.isHome e = true → leafMatches s e = true →
          let die := homeDie s (Leaf.pa e)
          (∀ y, partLeaf die c v .write s = .fault y → exec (.sweeperVisit c) s = .next (y.soon (.snapshotFail c 3))) ∧
          (∀ k w, partLeaf die c v .write s = .hold k w → exec (.sweeperVisit c) s = .next ((copyFirst k w s).later (.sweeperVisit c))) ∧
          ∀ (t : TlbEntry) (y : State), partLeaf die c v .write s = .ok t y → bitsOf t.leaf.toNat 16 36 = bitsOf e.toNat 16 36 →
          ((Leaf.d e = false ∧ keptCopy x v ≠ none) ∨ (x.cellar.place = 1 ∧ cellarSlot x (Leaf.bytes e) ≠ none ∧ underTest s (Leaf.pa e) = none ∧
            (y.xlat die).nodeBad = false ∧ x.cellarBad = false ∧ peerReached s c = true)) → next (.sweeperVisit c) fun u =>
            (u.ctx c).sweep = some (v + Leaf.bytes e) ∧ Leaf.s (readEntry u place) = x.pol ∧ Leaf.d (readEntry u place) = false ∧
            setLater s u (.sweeperVisit c) ∧ ∃ (q : Snap) (r : PageRec), q ∈ (u.ctx c).snaps ∧ q.id = p.id ∧ r ∈ q.pages ∧ r.vpn = v / 65536 ∧ r.size = Leaf.size e))) ∧
    (∀ p : Snap, x.snapOpen = some p → canSeal s c = true → next (.snapshotSealing c) fun u =>
      (∃ q : Snap, q ∈ (u.ctx c).snaps ∧ q.id = p.id ∧ q.state = .sealing ∧ q.pages = p.pages ∧ q.actors = p.actors) ∧
      setLater s u (.sealComplete c) ∧ keepsMemory s u) ∧
    (∀ (p : Snap) (off : Nat), x.snaps.find? (fun p => decide (p.state = .sealing)) = some p → x.cellar.place = 1 → peerReached s c = true → x.cellarBad = false →
      cellarSlot x 65536 ≠ none →
      ((List.range (x.cellar.csize / 65536)).map (· * 65536)).find? (fun o =>
        decide (o + sealBytes p ≤ x.cellar.csize) && x.cellarUsed.all fun u => !meets o (sealBytes p) u.1 u.2) = some off →
      (x.snaps.filter fun q => q.state = .sealed ∨ q.id = p.id).length ≤ x.cellar.keep → next (.sealComplete c) fun u =>
        (u.ctx c).snapid = p.id ∧ (∃ q : Snap, q ∈ (u.ctx c).snaps ∧ q.id = p.id ∧ q.state = .sealed ∧ q.inventory = off) ∧ u.mem = s.mem ∧
        (off, sealBytes p) ∈ (u.ctx c).cellarUsed) ∧
    (∀ p : Snap, x.snaps.find? (fun p => decide (p.state = .sealing)) = some p → cellarSlot x 65536 = none →
      exec (.sealComplete c) s = .next (s.soon (.snapshotFail c 1))) ∧
    (∀ (p : Snap) (why : Nat), x.busySnap = some p → next (.snapshotFail c why) fun u =>
      (∃ q : Snap, q ∈ (u.ctx c).snaps ∧ q.id = p.id ∧ q.state = .failed ∧ q.reason = why) ∧ (u.ctx c).sweep = none ∧ (u.ctx c).failSweep = true ∧
      setLater s u (.failureSweepEnd c) ∧ keepsMemory s u) ∧
    (next (.failureSweepEnd c) fun u => (u.ctx c).failSweep = false ∧ (∀ q : Snap, q ∈ (u.ctx c).snaps → q.state = .failed → q.pages = []) ∧
      ∀ (va place : Nat) (e : Word), leaves s c = [(va, place, e)] → Leaf.s (readEntry u place) = x.pol) ∧
    (∀ (r : PageRec) (rest : List PageRec) (e : Word) (place lvl : Nat), x.copyBack = r :: rest → walk s c (r.vpn * 65536) = .leaf e place lvl → x.cellar.place = 1 →
      (65536 ≤ Leaf.bytes e → x.cellarBad = true ∨ peerReached s c = false → next (.copyBackPage c) fun u => (u.ctx c).state = .lost) ∧
      (x.cellarBad = false → peerReached s c = true → s.peerMem.wf = true →
      next (.copyBackPage c) fun u => (u.ctx c).copyBack = rest ∧ Leaf.cmt (readEntry u place) = false ∧ Leaf.d (readEntry u place) = false ∧
        Leaf.s (readEntry u place) = x.pol ∧ ∀ j : Nat, j < Leaf.bytes e → (Leaf.pa e + j < place ∨ place + 8 ≤ Leaf.pa e + j) →
          readByte u.mem (Leaf.pa e + j) = readByte s.peerMem (x.cellar.peer * 2 ^ 52 + x.cellar.cbase + r.coff + j))) ∧
    (∀ (r : PageRec) (rest : List PageRec), x.copyBack = r :: rest → (∀ (e : Word) (place lvl : Nat), walk s c (r.vpn * 65536) ≠ .leaf e place lvl) →
      next (.copyBackPage c) fun u => (u.ctx c).copyBack = rest ∧ keepsMemory s u)

/-! ## The steps of translation, migration and memory tests (R374 to R376, R385 to R396) -/

/-- R376, R386, R388, R391 to R396, R401: a walk that finds a leaf fills the TLB and its unit goes on, else it faults with PAGE or answers
`pgstat`; a migration request is accepted or refused with its code, its passes copy the page and commit the entry, or end it; a bank test
holds accesses and leaves the bank 0; a read that fails is logged, and a lasting failure raises MEMERR. -/
def Obligations.TranslationSteps : Prop :=
  ∀ (s : State) (die id n : Nat),
    let x := s.xlat die
    let q := s.seq n
    let next := fun (i : Instr) (f : State → Prop) => ∃ u, exec i s = .next u ∧ f u
    let apart := fun (m : Migration) => m.result + 8 ≤ m.entry ∨ m.entry + 8 ≤ m.result
    let ends := fun (u : State) (m : Migration) (code : Nat) => readLE u.mem m.result 8 = code ∧
      (u.xlat die).running.length + 1 = x.running.length ∧ Task.event (.migrationAccept die) ∈ u.todo
    (∀ (o : Op) (d : Nat), mfind s.ops id = some o → o.kind = .walk → walkTested s o.ctx o.va = some d →
      exec (.walkComplete id) s = .next (holdRequest d (.event (.walkComplete id)) s)) ∧
    (∀ o : Op, mfind s.ops id = some o → o.kind = .walk → o.stream = .seq n → o.cur.unit = .seq n → walkTested s o.ctx o.va = none →
      (∀ (e : Word) (place lvl : Nat), walk s o.ctx o.va = .leaf e place lvl → Leaf.cmt e = false → o.dst = none → next (.walkComplete id) fun u =>
        (u.seq n).run = .run ∧ (u.seq n).pc = q.pc ∧ mfind u.ops id = none ∧ keepsMemory s u ∧
        ∃ t, tlbFind u o.mtile o.ctx o.va = some t ∧ t.leaf = e ∧ t.leafAt = place) ∧
      (∀ (e : Word) (place lvl : Nat), walk s o.ctx o.va = .leaf e place lvl → Leaf.cmt e = true → next (.walkComplete id) fun u =>
        u.ops = s.ops ∧ u.seqs = s.seqs ∧ setLater s u (.walkComplete id) ∧ keepsMemory s u) ∧
      ((∀ (e : Word) (place lvl : Nat), walk s o.ctx o.va ≠ .leaf e place lvl) → (walk s o.ctx o.va).committing = false → o.dst = none → q.trap = false → q.tvec ≠ 0 → next (.walkComplete id) fun u =>
        (u.seq n).pc = q.tvec ∧ (u.seq n).tepc = q.pc ∧ (u.seq n).tcause = 0x03 ∧ (u.seq n).tinfo = BitVec.ofNat 64 o.va ∧ (u.seq n).trap = true ∧
        mfind u.ops id = none ∧ keepsMemory s u) ∧
      (∀ (e : Word) (lvl r : Nat), walk s o.ctx o.va = .noMap e lvl → o.dst = some r → r ≠ 0 → (r, id) ∈ q.waits → next (.walkComplete id) fun u =>
        regOf (u.seq n).s r = pgstatWord e 1 lvl false 0 ∧ mfind u.ops id = none ∧ keepsMemory s u)) ∧
    (∀ w0 w1 w2 w3 : Nat, next (.migrationRequest die w0 w1 w2 w3) fun u => (u.xlat die).queue = x.queue ++ [(w0, w1, w2, w3)] ∧
      u.todo = s.todo ++ [Task.event (.migrationAccept die)] ∧ keepsMemory s u) ∧
    (∀ (w0 entry dest result : Nat) (rest : List (Nat × Nat × Nat × Nat)), x.queue = (w0, entry, dest, result) :: rest → x.running.length < 16 →
      (s.die die).clockStopped = false →
      let kind := w0 / 64 % 4
      let why := migrationRefusal s kind dest (decide (w0 / 2 ^ 8 % 2 ^ 56 ≠ 0)) (readEntry s entry)
      (why = 0 → next (.migrationAccept die) fun u => (u.xlat die).queue = rest ∧ Leaf.state (readEntry u entry) = 4 ∧
        Leaf.cmt (readEntry u entry) = false ∧ (x.running = [] → setLater s u (.migrationPassEnd die)) ∧
        (∃ l, (u.xlat die).running = l ++ [{ ctx := w0 % 64, kind := kind, entry := entry, dest := dest, result := result
                                             leaf := readEntry s entry, pass := 1, dirty := [] }] ∧ l.length = x.running.length) ∧
        ∀ b : Nat, (b < entry ∨ entry + 8 ≤ b) → readByte u.mem b = readByte s.mem b) ∧
      (why ≠ 0 → next (.migrationAccept die) fun u => (u.xlat die).queue = rest ∧ Task.event (.migrationAccept die) ∈ u.todo ∧ readLE u.mem result 8 = why ∧
        (u.xlat die).running.length = x.running.length ∧ ∀ b : Nat, (b < result ∨ result + 8 ≤ b) → readByte u.mem b = readByte s.mem b)) ∧
    ((s.die die).clockStopped = true →
      ∀ i : Instr, i ∈ [.migrationAccept die, .migrationPassEnd die, .migrationCommit die] → exec i s = .next s) ∧
    (∀ (m : Migration) (ms : List Migration), x.running = m :: ms → (s.die die).clockStopped = false →
      let e := readEntry s m.entry
      (entryChanged e m.leaf = true → (next (.migrationPassEnd die) fun u => ends u m 5) ∧ next (.migrationCommit die) fun u => ends u m 5) ∧
      (∀ d, entryChanged e m.leaf = false → underTest s (Leaf.pa m.leaf) = some d →
        exec (.migrationPassEnd die) s = .next (holdRequest d (.event (.migrationPassEnd die)) s)) ∧
      (entryChanged e m.leaf = false → s.mem.wf = true → underTest s (Leaf.pa m.leaf) = none → underTest s m.dest = none →
        next (.migrationPassEnd die) fun u =>
        (∀ j : Nat, j < Leaf.bytes m.leaf → (m.dest + j < m.entry ∨ m.entry + 8 ≤ m.dest + j) →
          readByte u.mem (m.dest + j) = readByte s.mem (Leaf.pa m.leaf + j)) ∧
        Leaf.cmt (readEntry u m.entry) = true ∧ (∀ (k : Nat) (t : TlbEntry), t ∈ (u.xlat k).tlb → t.leafAt ≠ m.entry) ∧ setLater s u (.migrationCommit die)) ∧
      (entryChanged e m.leaf = false → oldRequests s m = false →
        let clean := ∀ l : Nat, l ∈ m.dirty → 64 * l < Leaf.pa m.leaf ∨ Leaf.pa m.leaf + Leaf.bytes m.leaf ≤ 64 * l
        (clean → apart m → next (.migrationCommit die) fun u => ends u m 0 ∧ Leaf.cmt (readEntry u m.entry) = false ∧
          Leaf.pa (readEntry u m.entry) = m.dest / 65536 % 2 ^ 36 * 65536 ∧ (m.kind = 1 → Leaf.state (readEntry u m.entry) = 5) ∧
          (m.kind ≠ 1 → regionOfPa s m.dest = .tier → Leaf.state (readEntry u m.entry) = 2) ∧
          (∀ d : Nat, m.kind ≠ 1 → regionOfPa s m.dest = .hbm d → Leaf.state (readEntry u m.entry) = 1)) ∧
        (¬ clean → m.pass < 4 → next (.migrationCommit die) fun u => (u.xlat die).running = { m with pass := m.pass + 1, dirty := [] } :: ms ∧
          Leaf.cmt (readEntry u m.entry) = false ∧ setLater s u (.migrationPassEnd die)) ∧
        (¬ clean → 4 ≤ m.pass → apart m → next (.migrationCommit die) fun u => ends u m 1 ∧ Leaf.cmt (readEntry u m.entry) = false ∧
          (m.kind = 2 → Leaf.state (readEntry u m.entry) = 5) ∧
          (m.kind ≠ 2 → regionOfPa s (Leaf.pa m.leaf) = .tier → Leaf.state (readEntry u m.entry) = 2) ∧
          (m.kind ≠ 2 → regionOfPa s (Leaf.pa m.leaf) = .host → Leaf.state (readEntry u m.entry) = 3) ∧
          (∀ d : Nat, m.kind ≠ 2 → regionOfPa s (Leaf.pa m.leaf) = .hbm d → Leaf.state (readEntry u m.entry) = 1)))) ∧
    (∀ bank failed : Nat,
      let lo := die * 2 ^ 36 + bank * 2 ^ 30
      (next (.testBankStart die bank) fun u => bank ∈ (u.die die).testing ∧ (∀ b : Nat, b ≠ bank → (b ∈ (u.die die).testing ↔ b ∈ (s.die die).testing)) ∧
        keepsMemory s u) ∧
      next (.testBankEnd die bank failed) fun u => (∀ b : Nat, lo ≤ b → b < lo + 2 ^ 30 → readByte u.mem b = 0) ∧
        (∀ b : Nat, (b < lo ∨ lo + 2 ^ 30 ≤ b) → readByte u.mem b = readByte s.mem b) ∧ bank ∉ (u.die die).testing ∧ (u.die die).held = [] ∧
        u.todo = s.todo ++ (s.die die).held) ∧
    (∀ o : Op, mfind s.ops id = some o →
      (o.isDram = false → o.kind ≠ .walk → (∀ m k, o.kind ≠ .engineRead m k) → next (.readRetry (.access id) 0) fun u => keepsMemory s u ∧
        mfind u.ops id = some (if o.served = true then { o with usable := o.usable + 8 } else { o with slow := o.slow + 8 })) ∧
      (∀ (bytes : Nat) (sg : Bool), o.kind = .dramLoad bytes sg → o.cur.unit = .seq n → o.inTrap = false → next (.readRetry (.access id) 1) fun u =>
        (∃ r, (u.seq n).refused = q.refused ++ [r] ∧ r.cause = 0x04 ∧ r.info = BitVec.ofNat 64 (2 ^ 60 + o.va % 2 ^ 56) ∧ r.kind = .completion id) ∧
        mfind u.ops id = some { o with served := false, refused := true } ∧ Task.event (.seqCompletionFault n) ∈ u.todo ∧ keepsMemory s u))

/-! ## Package links and die boundaries (R430 to R448, R490) -/

namespace Sys2Proof.Claims

/-- The error log of die `d` gets an entry of source `src` and kind `kind` with the cycle, unless it is full (R496, R497). -/
def logs (s u : State) (d src kind : Nat) : Prop :=
  (s.die d).log.length < 1024 → ∃ e, (u.die d).log = (s.die d).log ++ [e] ∧ e.w0.toNat / 2 ^ 58 = src * 4 + kind ∧ e.w1 = BitVec.ofNat 64 s.pcyc

end Sys2Proof.Claims

/-- R432 to R440: frames leave in their places of the round with the tokens of their slots and dynamic items in free ones, and a retry frame
carries a resend; a frame that passes its check is delivered, one that fails is held for and named by a NAK, and a lasting failure degrades
the link; links train, come up, and are reset as R439 says. -/
def Obligations.LinkSteps : Prop :=
  ∀ (s : State) (n : Nat),
    let x := s.link n
    let next := fun (i : Instr) (f : State → Prop) => ∃ u, exec i s = .next u ∧ f u
    let degrades := fun (u : State) => (u.link n).state = .degraded ∧ (u.link n).last = min 65535 (x.last + 1) ∧ keepsMemory s u
    let k := frameIndex x.baseOut x.fseqOut
    let sends := x.state = .up ∧ portRuns s n = true ∧ x.startAt ≤ s.pcyc ∧ s.pcyc % 4 = 0 ∧ s.pcyc / 4 % 8 = k
    (sends → next (.frameSend n) fun u => (u.link n).fseqOut = (x.fseqOut + 1) % 65536 ∧ (u.link n).naksDue = x.naksDue.drop 1 ∧ keepsMemory s u ∧
      ∃ f : Frame, (u.link n).sent.getLast? = some f ∧ (u.link n).wire = f.bytes s.freeCount ∧ f.fseq = x.fseqOut ∧ f.nak = x.naksDue.head? ∧
        (∀ (j key t : Nat) (tok : Token), k < 7 → j < 7 → x.owners = [(7 * k + j, key)] → x.out = [(key, t, tok)] → t ≤ s.pcyc →
          f.tokens = [(j, tok)] ∧ (u.link n).out = []) ∧
        (∀ i : DynItem, k = 7 → x.itemsOut = [i] → i.ctx < 64 → f.items = [(0, i)] ∧ f.tokens = [] ∧ (u.link n).itemsOut = [])) ∧
    (∀ (f : Nat) (rest : List Nat), sends → k = 7 → x.resends = f :: rest → next (.frameResend n) fun u => (u.link n).resends = rest ∧
      (u.link n).fseqOut = (x.fseqOut + 1) % 65536 ∧ keepsMemory s u ∧
      ∀ g : Frame, x.sent.find? (fun g => decide (g.fseq = f)) = some g →
        (u.link n).wire = Frame.bytes { g with nak := x.naksDue.head? } s.freeCount ∧ (u.link n).naksDue = x.naksDue.drop 1) ∧
    (∀ fseq flip sent : Nat, x.state = .up →
      let body := arrived flip sent
      let g := frameOf body
      let y := x.placed s.pcyc g.fseq
      (portRuns s n = false → exec (.frameDelivery n fseq flip sent) s = .next s) ∧
      (portRuns s n = true → s.pcyc % 4 ≠ x.f % 4 → exec (.frameDelivery n fseq flip sent) s = .next (s.after 1 (.frameDelivery n fseq flip sent))) ∧
      (portRuns s n = true → s.pcyc % 4 = x.f % 4 →
        (frameChecks body = false → fseq ∉ x.nakked → next (.frameDelivery n fseq flip sent) fun u => (u.link n).failedNums = x.failedNums ++ [fseq] ∧
          (u.link n).naksDue = x.naksDue ++ [fseq] ∧ (u.link n).fseqIn = x.fseqIn ∧ u.arcs = s.arcs) ∧
        (frameChecks body = false → fseq ∈ x.nakked → next (.frameDelivery n fseq flip sent) degrades) ∧
        (frameChecks body = true → x.failedNums = [] → x.heldFrames = [] → x.strays = [] → g.items = [] → g.pubs = [] → g.nak = none →
          (g.tokens = [] → next (.frameDelivery n fseq flip sent) fun u => u.link n = { y with fseqIn := (g.fseq + 1) % 65536 } ∧ u.arcs = s.arcs ∧
            keepsMemory s u) ∧
          (∀ (j key : Nat) (a : Arc) (tok : Token), g.tokens = [(j, tok)] →
            let at_ := 7 * frameIndex y.baseIn g.fseq + j
            mfind x.ownersIn at_ = some key → s.arc? key = some a →
            (tok.tag ≠ key % 4096 → next (.frameDelivery n fseq flip sent) fun u => u.arc? key = some a ∧ (u.link n).strays = [(at_, tok)]) ∧
            (tok.tag = key % 4096 → tok.lseq = a.lseqIn → next (.frameDelivery n fseq flip sent) fun u => u.arc? key = some { a with
                lseqIn := (a.lseqIn + 1) % 256, transit := a.transit ++ [{ tok with lseq := 0 }], sent := a.sent + bit tok.spends } ∧
              (u.link n).fseqIn = (g.fseq + 1) % 65536 ∧ keepsMemory s u) ∧
            (tok.tag = key % 4096 → tok.lseq ≠ a.lseqIn → next (.frameDelivery n fseq flip sent) fun u => degrades u ∧ u.arc? key = some a))) ∧
        (frameChecks body = true → g.fseq ∈ x.failedNums → next (.frameDelivery n fseq flip sent) fun u => g.fseq ∉ (u.link n).failedNums ∧
          (u.link n).trans = min 65535 (x.trans + 1) ∧ (u.link n).heldFrames.length = x.heldFrames.length + 1 ∧ logs s u (linkPort n / 256) 7 1) ∧
        (frameChecks body = true → x.failedNums ≠ [] → g.fseq ∉ x.failedNums → next (.frameDelivery n fseq flip sent) fun u =>
          (u.link n).heldFrames.length = x.heldFrames.length + 1 ∧ (u.link n).fseqIn = x.fseqIn ∧ u.arcs = s.arcs))) ∧
    (∀ body j : Nat, (frameOf body).fseq = body / 2 ^ 48 % 65536 ∧
      (j < 7 → body / 2 ^ (24 + j) % 2 = 1 → body / 2 ^ (17 + j) % 2 = 0 → ∃ tok : Token, (j, tok) ∈ (frameOf body).tokens ∧
        let at_ := body / 2 ^ (64 + 544 * j)
        tok.tag = at_ / 2 ^ 20 % 4096 ∧ tok.colour = at_ / 2 ^ 14 % 64 ∧ tok.fmt = at_ / 2 ^ 11 % 8 ∧ tok.lseq = at_ % 256 ∧
        tok.payload = BitVec.ofNat 512 (at_ / 2 ^ 32))) ∧
    (x.state = .up → (∃ f, f ∈ x.heldFrames ∧ f.since + 4 * x.f + 256 < s.pcyc) → next (.frameHoldTimeout n) degrades) ∧
    (x.state = .up → next (.carrierLoss n) degrades) ∧
    (x.state = .training →
      (∀ ok : Nat, ok ≠ 0 → 24 ≤ ok % 4096 → ok % 4096 ≤ 256 → n ∉ s.badLinks → next (.linkTrainingDone n ok) fun u => keepsMemory s u ∧
        let ahead := (ok / 2 ^ 30 % 2 ^ 64 + ok % 4096 + 2 ^ 64 - s.pcyc % 2 ^ 64) % 2 ^ 64
        (ok / 2 ^ 28 % 2 = 1 → (settled s = false → (s.pcyc + (32 - s.pcyc % 32), .pcycAdopt n (ok / 2 ^ 22 % 64)) ∈ u.agenda) ∧
          u.link n = { x with
            state := .aligned, f := ok % 4096, peer := ok / 2 ^ 12 % 64, peerLink := ok / 2 ^ 18 % 16, attempts := 0
            peerMaster := ok / 2 ^ 22 % 64, peerSettled := true, peerAhead := ahead, inStep := decide (ahead = 0) })) ∧
      (x.attempts < 2 → exec (.linkTrainingDone n 0) s = .next (s.setLink n { x with attempts := x.attempts + 1, trainAt := s.pcyc })) ∧
      (2 ≤ x.attempts → next (.linkTrainingDone n 0) fun u => u.link n = { x with state := .down, attempts := 0 } ∧ keepsMemory s u)) ∧
    (x.state = .aligned →
      (x.peerMaster = s.master → x.inStep = true → exec (.linkEnable n) s = .next (s.setLink n { x with
        state := .up, startAt := (s.pcyc / 32 + 1) * 32, baseOut := x.fseqOut, baseIn := x.fseqIn })) ∧
      (x.peerMaster ≠ s.master ∨ x.inStep = false → next (.linkEnable n) fun u => u.links = s.links ∧ keepsMemory s u)) ∧
    (x.state = .down → next (.linkRetrain n) fun u => (u.link n).state = .training ∧ (u.link n).attempts = 0 ∧ (u.link n).trainAt = s.pcyc ∧
      (u.link n).fseqOut = 0 ∧ (u.link n).fseqIn = 0 ∧ keepsMemory s u) ∧
    (x.state = .degraded → x.owners = [] → x.ownersIn = [] → next (.linkRetrain n) fun u => (u.link n).state = .training ∧ (u.link n).attempts = 0 ∧
      (u.link n).trainAt = s.pcyc ∧ (u.link n).fseqOut = x.fseqOut ∧ (u.link n).fseqIn = x.fseqIn ∧ keepsMemory s u) ∧
    (x.state ∈ [.training, .aligned, .up, .repointed] → next (.linkRetrain n) fun u => u.links = s.links ∧ logs s u (linkPort n / 256) 10 0) ∧
    (x.state = .down → next (.linkReset n) fun u => (u.link n).state = .training ∧ (u.link n).fseqOut = 0 ∧ (u.link n).fseqIn = 0) ∧
    (x.state = .repointed → exec (.linkReset n) s = .next (s.setLink n { x with state := .down })) ∧
    (x.state ∈ [.training, .aligned, .up, .degraded] → next (.linkReset n) fun u => u.links = s.links ∧ logs s u (linkPort n / 256) 10 0) ∧
    (∀ e : Word, e = mget 0 s.ranks n → e.toNat / 2 ^ 62 = 1 → e.toNat / 2 ^ 61 % 2 = 0 → next (.rankLost n) fun u =>
        mget 0 u.ranks n = BitVec.ofNat 64 (e.toNat % 2 ^ 62 + 2 ^ 63) ∧ (∀ j : Nat, j ≠ n → mget 0 u.ranks j = mget 0 s.ranks j) ∧
        (∀ l : Nat, l < 16 → e.toNat / 2 ^ l % 2 = 1 → (u.link l).state = .repointed) ∧ keepsMemory s u) ∧
    (settled s = false → x.state = .aligned → (x.peerSettled = true ∨ x.peerMaster < s.master) →
      (s.pcyc % 32 = 0 → next (.pcycAdopt n x.peerMaster) fun u => let now := (s.pcyc + x.peerAhead) % 2 ^ 64
        u.pcyc = now ∧ u.master = x.peerMaster ∧ (u.link n).inStep = true ∧ keepsMemory s u ∧
        ∀ (t : Nat) (i : Instr), (t, i) ∈ s.agenda → s.pcyc ≤ t → (now + (t - s.pcyc), i) ∈ u.agenda) ∧
      (s.pcyc % 32 ≠ 0 → exec (.pcycAdopt n x.peerMaster) s = .next (s.after (32 - s.pcyc % 32) (.pcycAdopt n x.peerMaster)))) ∧
    (∀ m : Nat, settled s = true ∨ m ≠ x.peerMaster → exec (.pcycAdopt n m) s = .next s) ∧
    (boundaryRuns s n = false → ∀ w : Nat, exec (.boundaryFlitCrossing n w) s = .next s ∧ exec (.boundaryFlitResend n w) s = .next s) ∧
    (exec (.boundaryFlitCrossing n 0) s = .next s) ∧
    (boundaryRuns s n = true →
      (next (.boundaryFlitCrossing n 1) fun u => logs s u (boundaryDies n).1 6 0 ∧ keepsMemory s u) ∧
      (∀ w : Nat, exec (.boundaryFlitCrossing n (4 * w + 2)) s = .next (s.after 48 (.boundaryFlitResend n w))) ∧
      (∀ w : Nat, next (.boundaryFlitCrossing n (4 * w + 3)) fun u => logs s u (boundaryDies n).1 6 2 ∧ keepsMemory s u) ∧
      (∀ (lane place key : Nat) (a : Arc) (r t : Nat), lane < 8 → place < 16 → mfind s.lanes (boundaryLink n place false * 8 + lane) = some key →
        s.arc? key = some a → a.src = .tile t 0 → (s.tile t).region = some r → (∃ y : Region, mfind s.regions r = some y) →
        next (.boundaryFlitCrossing n (4 * (2 ^ lane + 512 * place) + 3)) fun u => ∃ (p : Nat) (y : Report), y ∈ (u.tile p).reports ∧ y.code = 0x70) ∧
      (next (.boundaryFlitResend n 0) fun u => logs s u (boundaryDies n).1 6 1 ∧ keepsMemory s u) ∧
      (∀ m : Nat, next (.boundaryFlitResend n (4096 + m + 1)) fun u => logs s u (boundaryDies n).1 6 2 ∧ keepsMemory s u ∧
        ∃ r : TrapReq, r ∈ (u.seq m).queue ∧ r.cause = 0x70))

/-! ## The package and its host (R348, R349, R451 to R456, R484 to R498, R502) -/

/-- R486 to R488, R491, R492, R495, R498: bring-up takes its steps; a reset leaves the package as at power-good; a stopped controller starts
again with its contexts LOST; samples, trips and the allowance; code called on a die controller. -/
def Obligations.PackageSteps : Prop :=
  ∀ (s : State) (d : Nat),
    let x := s.die d
    let next := fun (i : Instr) (f : State → Prop) => ∃ u, exec i s = .next u ∧ f u
    (s.up = true → exec .powerGood s = .next s) ∧
    (∀ k : Nat, s.up = false → (s.die 0).step = k → k ≤ 8 → (3 ≤ k → 0 ∉ s.badDies) → (5 ≤ k → s.badDispatcher = false) → next .powerGood fun u =>
      (∀ j : Nat, j < 12 → (u.die j).step = min 8 (k + 1)) ∧ u.mem = s.mem ∧
      (k = 0 → u.pcyc = 0 ∧ u.master = s.pkgid) ∧
      (k = 5 → mget 0 u.ranks 0 = BitVec.ofNat 64 (2 ^ 62 + 2 ^ 61 + s.pkgid % 64 * 2 ^ 16)) ∧
      (k = 8 → u.up = true ∧ ∀ j : Nat, j < 12 → (u.die j).ready = true) ∧
      (k < 8 → u.up = false ∧ ∃ n, u.pcyc < n ∧ (n, .powerGood) ∈ u.agenda)) ∧
    (∀ k : Nat, s.up = false → (s.die 0).step = k → (3 ≤ k ∧ 0 ∈ s.badDies) ∨ (5 ≤ k ∧ s.badDispatcher = true) → exec .powerGood s = .next s) ∧
    (next .pkgreset fun u => u.up = false ∧ u.mem = s.mem ∧ u.near = [] ∧ u.tiles = [] ∧ u.seqs = State.reset.seqs ∧ u.graphs = [] ∧
      u.regions = [] ∧ u.arcs = [] ∧ u.pkgid = s.pkgid ∧ u.badDies = s.badDies ∧ u.badDispatcher = s.badDispatcher ∧ ∀ c, (u.ctx c).state = .free) ∧
    (x.stopped = true → x.clockStopped = false → next (.dcrestart d) fun u => (u.die d).stopped = false ∧ (u.die d).log = [] ∧
      (u.die d).attic = 1024 ∧ u.seq (384 + d) = {} ∧ (u.xlat d).tlb = [] ∧ (∀ c, c ∈ ctxsOnDie s d → (u.ctx c).state = .lost) ∧ u.mem = s.mem) ∧
    (x.stopped = false ∨ x.clockStopped = true → next (.dcrestart d) fun u => logs s u d 10 0 ∧ u.seqs = s.seqs ∧ u.ctxs = s.ctxs ∧ keepsMemory s u) ∧
    (∀ t : Nat, s.pcyc % 8000 ≠ 0 → exec (.thermalSample d t) s = .next (s.after (8000 - s.pcyc % 8000) (.thermalSample d t))) ∧
    (∀ t : Nat, s.pcyc % 8000 = 0 → t < 125 →
      (x.sampledAt ≠ some s.pcyc → exec (.thermalSample d t) s = .next (s.setDie d { x with
        samples := (t :: x.samples).take 5, sampledAt := some s.pcyc })) ∧
      (∀ (m : Nat) (ms : List Nat), x.sampledAt = some s.pcyc → x.samples = m :: ms → exec (.thermalSample d t) s = .next (s.setDie d { x with
        samples := max t m :: ms }))) ∧
    (∀ t : Nat, s.pcyc % 8000 = 0 → 125 ≤ t → x.clockStopped = false → next (.thermalSample d t) fun u => (u.die d).clockStopped = true ∧ (u.seq (384 + d)).run = .stopped ∧
      (∀ c, c ∈ ctxsOnDie s d → (u.ctx c).state = .lost) ∧
      (s.events.length < 256 → ∃ e, u.events = s.events ++ [e] ∧ e.w0.toNat / 2 ^ 56 = 0x84 ∧ e.w1 = BitVec.ofNat 64 (d + 16))) ∧
    (s.pcyc % 40000 = 0 → x.stopped = false → x.clockStopped = false → x.dieOff = false →
      let t := x.samples.foldl max 0
      exec (.allowanceUpdate d) s = .next (s.setDie d { x with
        temp := t, allow := min x.acap (if t ≤ 85 then 300 else 300 - 10 * (t - 85)), trips := if 85 < t then min 65535 (x.trips + 1) else x.trips })) ∧
    (∀ value : Nat, (value % 8 = 0 → x.busy = false → (s.ctx x.callCtxIn).state ≠ .free → exec (.dccall d value) s = .next (s.setDie d { x with
        callVa := BitVec.ofNat 64 value, callCtx := x.callCtxIn, busy := true, done := false })) ∧
      (value % 8 ≠ 0 ∨ x.busy = true ∨ (s.ctx x.callCtxIn).state = .free → next (.dccall d value) fun u => logs s u d 10 0 ∧ u.seqs = s.seqs)) ∧
    (callReady s d = true → next (.dccallEntry d) fun u => (u.seq (384 + d)).pc = x.callVa ∧ (u.seq (384 + d)).ctxid = x.callCtx ∧
      (u.seq (384 + d)).run = .run ∧ (∀ r : Nat, r ≠ 31 → regOf (u.seq (384 + d)).s r = 0) ∧ (u.seq (384 + d)).ready = s.pcyc + 3 ∧
      regOf (u.seq (384 + d)).s 31 = 0xFFFFFFFFFFFFFFF8 ∧ (u.die d).inCall = true ∧ (u.die d).firmware = s.seq (384 + d) ∧
      (u.seq (384 + d)).waits = [] ∧ (u.seq (384 + d)).busy = [] ∧ keepsMemory s u)

/-- R348, R349, R360, R440, R451 to R455, R493 to R496, R502: what the host does to the package: contexts made and destroyed, traps
released, doorbells, registers, event FIFOs, error logs, device memory. -/
def Obligations.HostSteps : Prop :=
  ∀ (s : State) (c d : Nat),
    let x := s.ctx c
    let y := s.die d
    let next := fun (i : Instr) (f : State → Prop) => ∃ u, exec i s = .next u ∧ f u
    let reads := fun (u : State) (w : Word) => u.hostRead.length = 8 ∧ ∀ i : Nat, i < 8 → u.hostRead[i]? = some (BitVec.ofNat 8 (w.toNat / 256 ^ i))
    let ignored := fun (i : Instr) => next i fun u => logs s u 0 10 0 ∧ u.ctxs = s.ctxs ∧ u.seqs = s.seqs ∧ keepsMemory s u
    (∀ va : Nat, s.up = true →
      let w := readLE s.mem va 64
      (∀ r : Nat, r < 9 → createRefused s w r = true → (∀ q : Nat, q < r → createRefused s w q = false) →
        exec (.ctxcreate va) s = .next { s with ctxresult := BitVec.ofNat 64 (2 ^ 63 + r * 2 ^ 56) }) ∧
      ((∀ r : Nat, r < 9 → createRefused s w r = false) → next (.ctxcreate va) fun u => ∃ k : Nat, u.ctxresult = BitVec.ofNat 64 (2 ^ 63 + k) ∧
        (w / 2 ^ 415 % 2 = 1 → k = w / 2 ^ 408 % 64) ∧
        (w / 2 ^ 415 % 2 = 0 → (s.ctx k).state = .free ∧ ∀ j : Nat, j < k → (s.ctx j).state ≠ .free) ∧
        (u.ctx k).state = .ready ∧ (u.ctx k).ptroot = w % 2 ^ 64 ∧ (u.ctx k).ringBase = w / 2 ^ 76 % 2 ^ 52 * 2 ^ 12 ∧
        (u.ctx k).saveBase = w / 2 ^ 128 % 2 ^ 64 ∧ (u.ctx k).saveSize = w / 2 ^ 192 % 2 ^ 64 ∧ (u.ctx k).tvec = BitVec.ofNat 64 (w / 2 ^ 256) ∧
        (u.ctx k).rbvec = BitVec.ofNat 64 (w / 2 ^ 320) ∧ (u.ctx k).seed = BitVec.ofNat 64 (w / 2 ^ 448) ∧
        (∀ j : Nat, j ≠ k → u.ctx j = s.ctx j) ∧ keepsMemory s u)) ∧
    (s.up = false → ∀ va : Nat, exec (.ctxcreate va) s = .next s) ∧
    (x.state ≠ .free → next (.contextDestroy c) fun u => (u.ctx c).state = .free ∧ (u.ctx c).records = [] ∧ (u.ctx c).causes = [] ∧
      (∀ g : Nat, g < 256 → u.graph? c g = none) ∧ (∀ (k : Nat) (t : TlbEntry), t ∈ (u.xlat k).tlb → t.ctx = c → 2 ^ 56 ≤ t.va ∨ t.va + t.size = 0) ∧ u.mem = s.mem) ∧
    (x.state = .free → ignored (.contextDestroy c)) ∧
    (∀ value n : Nat, c = value % 64 → s.hostTraps.find? (fun e => decide (e.1 = c)) = some (c, n, .raised) →
      (384 ≤ n → n < 396 → (s.die (n - 384)).inCall = false) →
      exec (.hostResume value) s = .next { s with hostTraps := s.hostTraps.erase (c, n, .raised) }) ∧
    (∀ value : Nat, c = value % 64 → s.hostTraps.find? (fun e => decide (e.1 = c)) = none → ignored (.hostResume value)) ∧
    (s.up = false → ∀ (value n : Nat) (bytes : List (BitVec 8)), ∀ i ∈ [Instr.hostDoorbell c n value, .causeFifoRead c, .packageEventRead, .errorLogRead d,
      .bar2Read value n, .bar2Write value bytes], exec i s = .next s) ∧
    (∀ value : Nat, s.up = true → x.state ≠ .free → next (.hostDoorbell c 8 value) fun u =>
      (x.hostArc.length < 64 → (u.ctx c).hostArc = x.hostArc ++ [value]) ∧
      (64 ≤ x.hostArc.length → (u.ctx c).hostArc = x.hostArc.dropLast ++ [value]) ∧
      ((s.seq 396).run = .idle → (u.seq 396).run = .run ∧ (u.seq 396).pc = (Seq.advance (s.seq 396) s.pcyc).pc) ∧ keepsMemory s u) ∧
    (∀ value size : Nat, s.up = true → (size ≠ 8 ∨ x.state = .free) → ignored (.hostDoorbell c size value)) ∧
    (∀ (e : EventRec) (es : List EventRec), s.up = true → x.causes = e :: es → next (.causeFifoRead c) fun u => reads u e.w0 ∧ u.ctx c = { x with causes := es, lastCause := e }) ∧
    (s.up = true → x.causes = [] → next (.causeFifoRead c) fun u => reads u 0 ∧ u.ctxs = s.ctxs) ∧
    (∀ (e : EventRec) (es : List EventRec), s.up = true → s.events = e :: es → next .packageEventRead fun u => reads u e.w0 ∧ u.events = es ∧ u.lastEvent = e) ∧
    (∀ (e : LogEntry) (es : List LogEntry), s.up = true → y.log = e :: es → next (.errorLogRead d) fun u => reads u e.w0 ∧ u.die d = { y with log := es, lastLog := e.w1 }) ∧
    (∀ pa len : Nat, s.up = true → (∀ i : Nat, i < len → byteBacked s (pa + i) = true ∧ underTest s (pa + i) = none) → next (.bar2Read pa len) fun u =>
      u.hostRead.length = len ∧ keepsMemory s u ∧ ∀ i : Nat, i < len → u.hostRead[i]? = some (readByte s.mem (pa + i))) ∧
    (∀ (pa die : Nat) (b : BitVec 8), s.up = true → underTest s pa = some die →
      exec (.bar2Read pa 1) s = .next (holdRequest die (.event (.bar2Read pa 1)) s) ∧
      exec (.bar2Write pa [b]) s = .next (holdRequest die (.event (.bar2Write pa [b])) s)) ∧
    (∀ pa, s.up = true → byteBacked s pa = false → underTest s pa = none → next (.bar2Read pa 1) fun u => u.hostRead = [0xFF] ∧ logs s u 0 9 0) ∧
    (∀ (pa : Nat) (bytes : List (BitVec 8)), s.up = true → (∀ i : Nat, i < bytes.length → byteBacked s (pa + i) = true ∧ underTest s (pa + i) = none) → next (.bar2Write pa bytes) fun u =>
      (∀ (i : Nat) (b : BitVec 8), bytes[i]? = some b → readByte u.mem (pa + i) = b) ∧ u.near = s.near ∧ u.ctxs = s.ctxs ∧
      ∀ a : Nat, (a < pa ∨ pa + bytes.length ≤ a) → readByte u.mem a = readByte s.mem a) ∧
    (∀ (pa : Nat) (b : BitVec 8), s.up = true → byteBacked s pa = false → underTest s pa = none → next (.bar2Write pa [b]) fun u => u.mem = s.mem ∧ logs s u 0 9 0) ∧
    (s.up = true → ∀ value : Nat, value < 2 ^ 64 →
      let soon := fun (addr : Nat) (i : Instr) => exec (.registerWrite addr value) s = .next (s.soon i)
      (next (.registerWrite 0x00 value) fun u => u.ctxresult.toNat < 2 ^ 63 ∧ setLater s u (.ctxcreate value)) ∧
      (value / 64 % 4 = 1 → soon 0x10 (.contextDestroy (value % 64))) ∧
      (value / 64 % 4 = 2 → soon 0x10 (.hostResume (value % 64))) ∧
      (next (.registerWrite 0x18 value) fun u => u.pkgvec = value % 256) ∧
      (c < 64 → soon (0x10000 + 0x1000 * c) (.hostDoorbell c 8 value)) ∧
      (∀ n : Nat, n < 16 → (value % 4 = 1 → soon (0x50008 + 256 * n) (.linkRetrain n)) ∧ (value % 4 = 2 → soon (0x50008 + 256 * n) (.linkReset n))) ∧
      (d < 12 → let at_ := fun off : Nat => 0x100000 + 0x100000 * d + off
        (next (.registerWrite (at_ 0x08) value) fun u => (u.die d).acap = min 300 (value / 2 ^ 32 % 512)) ∧
        (next (.registerWrite (at_ 0x118) value) fun u => Task.event (.migrationRequest d (y.mreq.getD 0 0).toNat (y.mreq.getD 1 0).toNat
          (y.mreq.getD 2 0).toNat (if 3 < y.mreq.length then value else 0)) ∈ u.todo) ∧
        (value / 2 % 2 = 0 → value % 2 = 1 → soon (at_ 0x200) (.dcrestart d)) ∧
        (d = 0 → value / 2 % 2 = 1 → soon (at_ 0x200) .pkgreset) ∧
        soon (at_ 0x300) (.dccall d value))) ∧
    (∀ value : Nat, value % 4 < 3 → next (.pcieError value) fun u => logs s u 0 8 (value % 4) ∧ keepsMemory s u)

/-! ## The whole machine -/

namespace Sys2Proof.Claims

/-- A memory in canonical form: device memory, that of peers as written from here, and near memory. -/
def memoriesCanonical (s : State) : Prop := s.mem.wf = true ∧ s.peerMem.wf = true ∧ s.near.wf = true

end Sys2Proof.Claims

/-- R71, R83 to R85: an instruction of sequencer code alone is refused in a timed list (no such word reaches issue there), and an
instruction of timed lists alone raises ILLEGAL with check 3 in sequencer code. -/
def Obligations.UnitsOfInstructions : Prop :=
  ∀ (i : Instr) (x : Shape) (s : State), i.shape = some x →
    (∀ t, x.place = .seqOnly → s.cur.unit = .tile t → exec i s = .refused .sequencerOnlyInList) ∧
    (∀ n, x.place = .listOnly → s.cur.unit = .seq n → exec i s = .next (ownFault n 0x01 3 s))

/-- R42, R95, R98, R115, R176, R276: the frame of the instructions. In a compute tile no instruction writes a register of any tile or of a
control unit, nor a byte of any memory: results are written when they are due, and stores when their access is performed. In a control unit
no instruction but a store writes near memory or a peer's, and none but a store, `csave` and `rollb` writes device memory. -/
def Obligations.InstructionsKeep : Prop :=
  ∀ (i : Instr) (s u : State), i.isInstruction = true → exec i s = .next u →
    let isStore := (∃ d a m, i = .st d a m) ∨ (∃ d a m, i = .stI8 d a m) ∨ (∃ d a m, i = .stI16 d a m) ∨ ∃ d a m, i = .stI32 d a m
    (∀ t, s.cur.unit = .tile t → keepsMemory s u ∧ u.seqs = s.seqs ∧ u.pcyc = s.pcyc ∧
      ∀ n, (u.tile n).s = (s.tile n).s ∧ (u.tile n).v = (s.tile n).v ∧ (u.tile n).p = (s.tile n).p ∧ (u.tile n).q = (s.tile n).q) ∧
    (∀ n, s.cur.unit = .seq n → u.pcyc = s.pcyc ∧
      (¬ isStore → u.near = s.near ∧ u.peerMem = s.peerMem) ∧
      (¬ isStore → (∀ a, i ≠ .csave a) → (∀ a, i ≠ .rollb a) → u.mem = s.mem))

/-- R349, R446, R489, R491, R498: the state after reset. Bring-up has not ended, every context is FREE, no unit holds anything, the first
step takes the first step of bring-up; the memories are canonical. That RAM reads 0 is the model's choice (log 1), as are the registers that
the spec gives no reset value (log 6). -/
def Obligations.ResetState : Prop :=
  let s := State.reset
  memoriesCanonical s ∧ s.up = false ∧ s.pcyc = 0 ∧ (∀ c, (s.ctx c).state = .free) ∧ (∀ n, (s.link n).state = .down) ∧
  (∀ t, (s.tile t).s = [] ∧ (s.tile t).v = [] ∧ (s.tile t).p = [] ∧ (s.tile t).q = []) ∧ (∀ n, (s.seq n).run = .off ∧ (s.seq n).s = []) ∧
  (∀ d, (s.die d).step = 0 ∧ (s.die d).ready = false ∧ (s.die d).log = [] ∧ (s.die d).acap = 300) ∧ s.graphs = [] ∧ s.regions = [] ∧ s.arcs = [] ∧
  (∃ u, step s = .next u ∧ exec .powerGood { s with todo := [] } = .next u ∧ (u.die 0).step = 1)

/-- R5, R378, R403: every step keeps the memories in canonical form: equal memories are equal lists. -/
def Obligations.MemoryStaysCanonical : Prop :=
  ∀ s u : State, memoriesCanonical s → step s = .next u → memoriesCanonical u
end

