-- ==== Sys2Proof/Laws/Fields.lean ====
section
/-! SUPPORT. The fields of a word that the encoder builds are the fields it was given (R71, R72). -/

namespace Sys2Proof

section Common
variable (st : BitVec 12) (op : BitVec 8) (su : BitVec 4) (f : BitVec 2) (d : BitVec 6) (l : BitVec 32)

@[simp] theorem stampOf_mkWord : stampOf (mkWord st op su f d l) = st := by
  simp only [stampOf, mkWord, BitVec.extractLsb'_append_eq_ite]
  simp
@[simp] theorem opOf_mkWord : opOf (mkWord st op su f d l) = op := by
  simp only [opOf, mkWord, BitVec.extractLsb'_append_eq_ite]
  simp
@[simp] theorem subOf_mkWord : subOf (mkWord st op su f d l) = su := by
  simp only [subOf, mkWord, BitVec.extractLsb'_append_eq_ite]
  simp
@[simp] theorem foldOf_mkWord : foldOf (mkWord st op su f d l) = f := by
  simp only [foldOf, mkWord, BitVec.extractLsb'_append_eq_ite]
  simp
@[simp] theorem dOf_mkWord : dOf (mkWord st op su f d l) = d := by
  simp only [dOf, mkWord, BitVec.extractLsb'_append_eq_ite]
  simp
@[simp] theorem lowOf_mkWord : lowOf (mkWord st op su f d l) = l := by
  simp only [lowOf, mkWord, BitVec.extractLsb'_append_eq_ite]
  simp
/-- A field of the low half. -/
theorem low_mkWord (lo n : Nat) (h : lo + n ≤ 32) : (mkWord st op su f d l).extractLsb' lo n = l.extractLsb' lo n := by
  have e : mkWord st op su f d l = (st ++ op ++ su ++ f ++ d) ++ l := rfl
  rw [e, BitVec.extractLsb'_append_eq_of_add_le h]

end Common

section Formats
variable (st : BitVec 12) (op : BitVec 8) (su : BitVec 4) (f : BitVec 2) (d : BitVec 6)
variable (a b c : BitVec 6) (p ft : BitVec 3) (rm x : BitVec 4) (imm26 : BitVec 26) (tag : BitVec 12) (imm16 : BitVec 16)

@[simp] theorem aOf_T3 : aOf (mkWord st op su f d (lowT3 a b c p ft rm x)) = a := by
  rw [aOf, low_mkWord _ _ _ _ _ _ _ _ (by decide)]
  simp only [lowT3, BitVec.extractLsb'_append_eq_ite]
  simp
@[simp] theorem bOf_T3 : bOf (mkWord st op su f d (lowT3 a b c p ft rm x)) = b := by
  rw [bOf, low_mkWord _ _ _ _ _ _ _ _ (by decide)]
  simp only [lowT3, BitVec.extractLsb'_append_eq_ite]
  simp
@[simp] theorem cOf_T3 : cOf (mkWord st op su f d (lowT3 a b c p ft rm x)) = c := by
  rw [cOf, low_mkWord _ _ _ _ _ _ _ _ (by decide)]
  simp only [lowT3, BitVec.extractLsb'_append_eq_ite]
  simp
@[simp] theorem pOf_T3 : pOf (mkWord st op su f d (lowT3 a b c p ft rm x)) = p := by
  rw [pOf, low_mkWord _ _ _ _ _ _ _ _ (by decide)]
  simp only [lowT3, BitVec.extractLsb'_append_eq_ite]
  simp
@[simp] theorem ftOf_T3 : ftOf (mkWord st op su f d (lowT3 a b c p ft rm x)) = ft := by
  rw [ftOf, low_mkWord _ _ _ _ _ _ _ _ (by decide)]
  simp only [lowT3, BitVec.extractLsb'_append_eq_ite]
  simp
@[simp] theorem rmOf_T3 : rmOf (mkWord st op su f d (lowT3 a b c p ft rm x)) = rm := by
  rw [rmOf, low_mkWord _ _ _ _ _ _ _ _ (by decide)]
  simp only [lowT3, BitVec.extractLsb'_append_eq_ite]
  simp
@[simp] theorem xOf_T3 : xOf (mkWord st op su f d (lowT3 a b c p ft rm x)) = x := by
  rw [xOf, low_mkWord _ _ _ _ _ _ _ _ (by decide)]
  simp only [lowT3, BitVec.extractLsb'_append_eq_ite]
  simp
@[simp] theorem aOf_TI : aOf (mkWord st op su f d (lowTI a imm26)) = a := by
  rw [aOf, low_mkWord _ _ _ _ _ _ _ _ (by decide)]
  simp only [lowTI, BitVec.extractLsb'_append_eq_ite]
  simp
@[simp] theorem imm26Of_TI : imm26Of (mkWord st op su f d (lowTI a imm26)) = imm26 := by
  rw [imm26Of, low_mkWord _ _ _ _ _ _ _ _ (by decide)]
  simp only [lowTI, BitVec.extractLsb'_append_eq_ite]
  simp
@[simp] theorem aOf_TA : aOf (mkWord st op su f d (lowTA a tag p ft rm x)) = a := by
  rw [aOf, low_mkWord _ _ _ _ _ _ _ _ (by decide)]
  simp only [lowTA, BitVec.extractLsb'_append_eq_ite]
  simp
@[simp] theorem tagOf_TA : tagOf (mkWord st op su f d (lowTA a tag p ft rm x)) = tag := by
  rw [tagOf, low_mkWord _ _ _ _ _ _ _ _ (by decide)]
  simp only [lowTA, BitVec.extractLsb'_append_eq_ite]
  simp
@[simp] theorem pOf_TA : pOf (mkWord st op su f d (lowTA a tag p ft rm x)) = p := by
  rw [pOf, low_mkWord _ _ _ _ _ _ _ _ (by decide)]
  simp only [lowTA, BitVec.extractLsb'_append_eq_ite]
  simp
@[simp] theorem ftOf_TA : ftOf (mkWord st op su f d (lowTA a tag p ft rm x)) = ft := by
  rw [ftOf, low_mkWord _ _ _ _ _ _ _ _ (by decide)]
  simp only [lowTA, BitVec.extractLsb'_append_eq_ite]
  simp
@[simp] theorem rmOf_TA : rmOf (mkWord st op su f d (lowTA a tag p ft rm x)) = rm := by
  rw [rmOf, low_mkWord _ _ _ _ _ _ _ _ (by decide)]
  simp only [lowTA, BitVec.extractLsb'_append_eq_ite]
  simp
@[simp] theorem xOf_TA : xOf (mkWord st op su f d (lowTA a tag p ft rm x)) = x := by
  rw [xOf, low_mkWord _ _ _ _ _ _ _ _ (by decide)]
  simp only [lowTA, BitVec.extractLsb'_append_eq_ite]
  simp
@[simp] theorem aOf_TS : aOf (mkWord st op su f d (lowTS a imm16 x)) = a := by
  rw [aOf, low_mkWord _ _ _ _ _ _ _ _ (by decide)]
  simp only [lowTS, BitVec.extractLsb'_append_eq_ite]
  simp
@[simp] theorem imm16Of_TS : imm16Of (mkWord st op su f d (lowTS a imm16 x)) = imm16 := by
  rw [imm16Of, low_mkWord _ _ _ _ _ _ _ _ (by decide)]
  simp only [lowTS, BitVec.extractLsb'_append_eq_ite]
  simp
@[simp] theorem xOf_TS : xOf (mkWord st op su f d (lowTS a imm16 x)) = x := by
  rw [xOf, low_mkWord _ _ _ _ _ _ _ _ (by decide)]
  simp only [lowTS, BitVec.extractLsb'_append_eq_ite]
  simp

@[simp] theorem scopeOf_T3 (y : BitVec 3) : scopeOf (mkWord st op su f d (lowT3 a b c p ft rm (0#1 ++ y))) = y := by
  rw [scopeOf, low_mkWord _ _ _ _ _ _ _ _ (by decide)]
  simp only [lowT3, BitVec.extractLsb'_append_eq_ite]
  simp
@[simp] theorem setOf_T3 (y : BitVec 2) : setOf (mkWord st op su f d (lowT3 a b c p ft rm (0#2 ++ y))) = y := by
  rw [setOf, low_mkWord _ _ _ _ _ _ _ _ (by decide)]
  simp only [lowT3, BitVec.extractLsb'_append_eq_ite]
  simp
@[simp] theorem pos_TI (y z : BitVec 6) : (mkWord st op su f d (lowTI a (0#14 ++ y ++ z))).extractLsb' 6 6 = y := by
  rw [low_mkWord _ _ _ _ _ _ _ _ (by decide)]
  simp only [lowTI, BitVec.extractLsb'_append_eq_ite]
  simp
@[simp] theorem len_TI (y z : BitVec 6) : (mkWord st op su f d (lowTI a (0#14 ++ y ++ z))).extractLsb' 0 6 = z := by
  rw [low_mkWord _ _ _ _ _ _ _ _ (by decide)]
  simp only [lowTI, BitVec.extractLsb'_append_eq_ite]
  simp
@[simp] theorem span_TI (y : BitVec 16) : (mkWord st op su f d (lowTI a (0#10 ++ y))).extractLsb' 0 16 = y := by
  rw [low_mkWord _ _ _ _ _ _ _ _ (by decide)]
  simp only [lowTI, BitVec.extractLsb'_append_eq_ite]
  simp
@[simp] theorem mode_TI (y : BitVec 3) : (mkWord st op su f d (lowTI a (0#23 ++ y))).extractLsb' 0 3 = y := by
  rw [low_mkWord _ _ _ _ _ _ _ _ (by decide)]
  simp only [lowTI, BitVec.extractLsb'_append_eq_ite]
  simp
@[simp] theorem on_TI (y : BitVec 1) : (mkWord st op su f d (lowTI a (0#25 ++ y))).extractLsb' 0 1 = y := by
  rw [low_mkWord _ _ _ _ _ _ _ _ (by decide)]
  simp only [lowTI, BitVec.extractLsb'_append_eq_ite]
  simp
@[simp] theorem count_TL (y z : BitVec 16) : (mkWord st op su f d (y ++ z)).extractLsb' 16 16 = y := by
  rw [low_mkWord _ _ _ _ _ _ _ _ (by decide)]
  simp only [BitVec.extractLsb'_append_eq_ite]
  simp
@[simp] theorem span_TL (y z : BitVec 16) : (mkWord st op su f d (y ++ z)).extractLsb' 0 16 = z := by
  rw [low_mkWord _ _ _ _ _ _ _ _ (by decide)]
  simp only [BitVec.extractLsb'_append_eq_ite]
  simp
@[simp] theorem tloop_stride (u : BitVec 12) (y z : BitVec 10) : (mkWord st op su f d (u ++ y ++ z)).extractLsb' 20 12 = u := by
  rw [low_mkWord _ _ _ _ _ _ _ _ (by decide)]
  simp only [BitVec.extractLsb'_append_eq_ite]
  simp
@[simp] theorem tloop_count (u : BitVec 12) (y z : BitVec 10) : (mkWord st op su f d (u ++ y ++ z)).extractLsb' 10 10 = y := by
  rw [low_mkWord _ _ _ _ _ _ _ _ (by decide)]
  simp only [BitVec.extractLsb'_append_eq_ite]
  simp
@[simp] theorem tloop_span (u : BitVec 12) (y z : BitVec 10) : (mkWord st op su f d (u ++ y ++ z)).extractLsb' 0 10 = z := by
  rw [low_mkWord _ _ _ _ _ _ _ _ (by decide)]
  simp only [BitVec.extractLsb'_append_eq_ite]
  simp

end Formats

end Sys2Proof
end

