-- ==== Sys2Proof/Laws/Maps.lean ====
section
/-! SUPPORT. Sparse tables and memories: what a read gives after a write, and that every memory operation keeps the canonical
form. -/

namespace Sys2Proof.Machine

section Tables

variable {α : Type}

@[simp] theorem mfind_nil (i : Nat) : mfind ([] : Map α) i = none := rfl

@[simp] theorem mget_nil (d : α) (i : Nat) : mget d [] i = d := rfl

@[simp] theorem mfind_mset_self (m : Map α) (i : Nat) (v : α) : mfind (mset m i v) i = some v := by
  induction m with
  | nil => simp [mset, mfind]
  | cons e m ih =>
    obtain ⟨k, u⟩ := e
    simp only [mset]
    split
    · simp [mfind]
    · split
      · simp [mfind]
      · rename_i h
        simp [mfind, Ne.symm h, ih]

theorem mfind_mset_of_ne (m : Map α) {i j : Nat} (v : α) (h : j ≠ i) : mfind (mset m i v) j = mfind m j := by
  induction m with
  | nil => simp [mset, mfind, Ne.symm h]
  | cons e m ih =>
    obtain ⟨k, u⟩ := e
    simp only [mset]
    split
    · simp [mfind, Ne.symm h]
    · split
      · subst_vars
        simp [mfind, Ne.symm h]
      · simp [mfind, ih]

@[simp] theorem mfind_mdel_self (m : Map α) (i : Nat) : mfind (mdel m i) i = none := by
  induction m with
  | nil => rfl
  | cons e m ih =>
    obtain ⟨k, u⟩ := e
    simp only [mdel]
    split
    · exact ih
    · simp [mfind, *]

theorem mfind_mdel_of_ne (m : Map α) {i j : Nat} (h : j ≠ i) : mfind (mdel m i) j = mfind m j := by
  induction m with
  | nil => rfl
  | cons e m ih =>
    obtain ⟨k, u⟩ := e
    simp only [mdel]
    split
    · subst_vars
      simp [mfind, Ne.symm h, ih]
    · simp [mfind, ih]

@[simp] theorem mget_mset_self (d : α) (m : Map α) (i : Nat) (v : α) : mget d (mset m i v) i = v := by simp [mget]

theorem mget_mset_of_ne (d : α) (m : Map α) {i j : Nat} (v : α) (h : j ≠ i) : mget d (mset m i v) j = mget d m j := by
  simp [mget, mfind_mset_of_ne m v h]

@[simp] theorem mget_mdel_self (d : α) (m : Map α) (i : Nat) : mget d (mdel m i) i = d := by simp [mget]

theorem mget_mdel_of_ne (d : α) (m : Map α) {i j : Nat} (h : j ≠ i) : mget d (mdel m i) j = mget d m j := by
  simp [mget, mfind_mdel_of_ne m h]

@[simp] theorem mget_mput_self [DecidableEq α] (d : α) (m : Map α) (i : Nat) (v : α) : mget d (mput d m i v) i = v := by
  unfold mput
  split <;> simp [*]

theorem mget_mput_of_ne [DecidableEq α] (d : α) (m : Map α) {i j : Nat} (v : α) (h : j ≠ i) :
    mget d (mput d m i v) j = mget d m j := by
  unfold mput
  split
  · exact mget_mdel_of_ne d m h
  · exact mget_mset_of_ne d m v h

theorem mget_mset (d : α) (m : Map α) (i j : Nat) (v : α) : mget d (mset m i v) j = if j = i then v else mget d m j := by
  split
  · simp [*]
  · exact mget_mset_of_ne d m v ‹_›

theorem mget_mput [DecidableEq α] (d : α) (m : Map α) (i j : Nat) (v : α) :
    mget d (mput d m i v) j = if j = i then v else mget d m j := by
  split
  · simp [*]
  · exact mget_mput_of_ne d m v ‹_›

/-! ## Rising keys -/

theorem mrising_mono {lo hi : Nat} {m : Map α} (h : mrising hi m = true) (hl : lo ≤ hi) : mrising lo m = true := by
  cases m with
  | nil => rfl
  | cons e m =>
    obtain ⟨k, u⟩ := e
    simp only [mrising, Bool.and_eq_true, decide_eq_true_eq] at h ⊢
    exact ⟨by omega, h.2⟩

theorem mrising_mset {lo : Nat} {m : Map α} (h : mrising lo m = true) {i : Nat} (hi : lo ≤ i) (v : α) :
    mrising lo (mset m i v) = true := by
  induction m generalizing lo with
  | nil => simp [mset, mrising, hi]
  | cons e m ih =>
    obtain ⟨k, u⟩ := e
    simp only [mrising, Bool.and_eq_true, decide_eq_true_eq] at h
    simp only [mset]
    split
    · simp only [mrising, Bool.and_eq_true, decide_eq_true_eq]
      exact ⟨hi, by omega, h.2⟩
    · split
      · subst_vars
        simp [mrising, h.1, h.2]
      · simp only [mrising, Bool.and_eq_true, decide_eq_true_eq]
        exact ⟨h.1, ih h.2 (by omega)⟩

theorem mrising_filter {lo : Nat} {m : Map α} (h : mrising lo m = true) (p : Nat × α → Bool) :
    mrising lo (m.filter p) = true := by
  induction m generalizing lo with
  | nil => rfl
  | cons e m ih =>
    obtain ⟨k, u⟩ := e
    simp only [mrising, Bool.and_eq_true, decide_eq_true_eq] at h
    simp only [List.filter_cons]
    split
    · simp only [mrising, Bool.and_eq_true, decide_eq_true_eq]
      exact ⟨h.1, ih h.2⟩
    · exact mrising_mono (ih h.2) (by omega)

theorem mdel_eq_filter (m : Map α) (i : Nat) : mdel m i = m.filter fun e => e.1 != i := by
  induction m with
  | nil => rfl
  | cons e m ih =>
    obtain ⟨k, u⟩ := e
    by_cases h : k = i <;> simp [mdel, h, ih]

theorem mem_mset {m : Map α} {i : Nat} {v : α} {e : Nat × α} (h : e ∈ mset m i v) : e = (i, v) ∨ e ∈ m := by
  induction m with
  | nil => simpa [mset] using h
  | cons x m ih =>
    obtain ⟨k, u⟩ := x
    simp only [mset] at h
    split at h
    · simpa using h
    · split at h
      · rcases List.mem_cons.1 h with h | h <;> simp [h]
      · rcases List.mem_cons.1 h with h | h
        · simp [h]
        · rcases ih h with h | h <;> simp [h]

end Tables

/-! ## The canonical form of a memory -/

theorem Memory.wf_iff (m : Memory) : Memory.wf m = true ↔ mrising 0 m = true ∧ ∀ c ∈ m, c.2 ≠ blankByte := by
  simp [Memory.wf]

theorem Memory.wf_nil : Memory.wf [] = true := rfl

theorem Memory.wf_filter {m : Memory} (h : m.wf = true) (p : Host.Cell → Bool) : Memory.wf (m.filter p) = true := by
  rw [Memory.wf_iff] at h ⊢
  exact ⟨mrising_filter h.1 p, fun c hc => h.2 c (List.mem_of_mem_filter hc)⟩

theorem Memory.wf_writeByte {m : Memory} (h : m.wf = true) (a : Nat) (b : Byte) : Memory.wf (writeByte m a b) = true := by
  unfold writeByte mput
  split
  · rw [mdel_eq_filter]
    exact Memory.wf_filter h _
  · rw [Memory.wf_iff] at h ⊢
    refine ⟨mrising_mset h.1 (Nat.zero_le _) b, fun c hc => ?_⟩
    rcases mem_mset hc with hc | hc
    · simpa [hc] using ‹¬b = blankByte›
    · exact h.2 c hc

theorem Memory.wf_writeLE {m : Memory} (h : m.wf = true) (a n v : Nat) : Memory.wf (writeLE m a n v) = true := by
  induction n generalizing m a v with
  | zero => exact h
  | succ n ih => exact ih (Memory.wf_writeByte h _ _) _ _

theorem Memory.wf_writeBytes {m : Memory} (h : m.wf = true) (a : Nat) (bs : List Byte) :
    Memory.wf (writeBytes m a bs) = true := by
  induction bs generalizing m a with
  | nil => exact h
  | cons b bs ih => exact ih (Memory.wf_writeByte h _ _) _

theorem Memory.wf_foldl {β : Type} (f : β → Nat) (g : β → Byte) (l : List β) {m : Memory} (h : m.wf = true) :
    Memory.wf (l.foldl (fun m x => writeByte m (f x) (g x)) m) = true := by
  induction l generalizing m with
  | nil => exact h
  | cons x l ih => exact ih (Memory.wf_writeByte h _ _)

/-! ## Reads after writes -/

@[simp] theorem readByte_writeByte_self (m : Memory) (a : Nat) (b : Byte) : readByte (writeByte m a b) a = b :=
  mget_mput_self _ _ _ _

theorem readByte_writeByte_of_ne (m : Memory) {a c : Nat} (b : Byte) (h : c ≠ a) :
    readByte (writeByte m a b) c = readByte m c :=
  mget_mput_of_ne _ _ _ h

/-- A store leaves every byte outside it alone. -/
theorem readByte_writeLE_outside (m : Memory) (a n v c : Nat) (h : c < a ∨ a + n ≤ c) :
    readByte (writeLE m a n v) c = readByte m c := by
  induction n generalizing m a v with
  | zero => rfl
  | succ n ih =>
    rw [writeLE, ih _ _ _ (by omega), readByte_writeByte_of_ne _ _ (by omega)]

/-- The bytes of a store are the bytes of its value, least significant first (R5). -/
theorem readLE_writeLE (m : Memory) (a n v : Nat) : readLE (writeLE m a n v) a n = v % 256 ^ n := by
  induction n generalizing m a v with
  | zero => simp [readLE, Nat.mod_one]
  | succ n ih =>
    have hb : readByte (writeLE m a (n + 1) v) a = BitVec.ofNat 8 v := by
      rw [writeLE, readByte_writeLE_outside _ _ _ _ _ (by omega), readByte_writeByte_self]
    have hr : readLE (writeLE m a (n + 1) v) (a + 1) n = v / 256 % 256 ^ n := ih _ _ _
    have hp : 256 ^ (n + 1) = 256 * 256 ^ n := by rw [pow_succ, mul_comm]
    rw [readLE, hb, hr, BitVec.toNat_ofNat, hp, Nat.mod_mul]

theorem readByte_writeBytes_outside (m : Memory) (a c : Nat) (bs : List Byte) (h : c < a ∨ a + bs.length ≤ c) :
    readByte (writeBytes m a bs) c = readByte m c := by
  induction bs generalizing m a with
  | nil => rfl
  | cons b bs ih =>
    simp only [List.length_cons] at h
    rw [writeBytes, ih _ _ (by omega), readByte_writeByte_of_ne _ _ (by omega)]

/-! ## Scalar registers: `s0` reads 0 and discards writes (R75, R95) -/

@[simp] theorem regOf_zero (m : Map Word) : regOf m 0 = 0 := rfl

theorem regOf_setRegOf_self (m : Map Word) {r : Nat} (v : Word) (h : r ≠ 0) : regOf (setRegOf m r v) r = v := by
  simp [regOf, setRegOf, h]

theorem regOf_setRegOf_of_ne (m : Map Word) {r q : Nat} (v : Word) (h : q ≠ r) :
    regOf (setRegOf m r v) q = regOf m q := by
  unfold regOf setRegOf
  split
  · rfl
  · split
    · rfl
    · exact mget_mput_of_ne _ _ _ h

theorem regOf_setRegOf (m : Map Word) (r q : Nat) (v : Word) :
    regOf (setRegOf m r v) q = if q = r ∧ r ≠ 0 then v else regOf m q := by
  by_cases h : q = r
  · subst h
    by_cases hz : q = 0
    · simp [hz]
    · simp [hz, regOf_setRegOf_self]
  · simp [h, regOf_setRegOf_of_ne m v h]

end Sys2Proof.Machine
end

