-- ==== Sys2Proof/Laws/State.lean ====
section
/-! SUPPORT. The state after each named update: one lemma for each field and each update, and what every accessor reads after it. -/

namespace Sys2Proof.Machine.State

/-! ## `setTile` -/

@[simp] theorem setTile_pcyc (s : State) (t : Nat) (x : Tile) : (s.setTile t x).pcyc = s.pcyc := rfl
@[simp] theorem setTile_master (s : State) (t : Nat) (x : Tile) : (s.setTile t x).master = s.master := rfl
@[simp] theorem setTile_pkgid (s : State) (t : Nat) (x : Tile) : (s.setTile t x).pkgid = s.pkgid := rfl
@[simp] theorem setTile_badDies (s : State) (t : Nat) (x : Tile) : (s.setTile t x).badDies = s.badDies := rfl
@[simp] theorem setTile_badStacks (s : State) (t : Nat) (x : Tile) : (s.setTile t x).badStacks = s.badStacks := rfl
@[simp] theorem setTile_badTier (s : State) (t : Nat) (x : Tile) : (s.setTile t x).badTier = s.badTier := rfl
@[simp] theorem setTile_badDispatcher (s : State) (t : Nat) (x : Tile) : (s.setTile t x).badDispatcher = s.badDispatcher := rfl
@[simp] theorem setTile_badLinks (s : State) (t : Nat) (x : Tile) : (s.setTile t x).badLinks = s.badLinks := rfl
@[simp] theorem setTile_up (s : State) (t : Nat) (x : Tile) : (s.setTile t x).up = s.up := rfl
@[simp] theorem setTile_mem (s : State) (t : Nat) (x : Tile) : (s.setTile t x).mem = s.mem := rfl
@[simp] theorem setTile_peerMem (s : State) (t : Nat) (x : Tile) : (s.setTile t x).peerMem = s.peerMem := rfl
@[simp] theorem setTile_near (s : State) (t : Nat) (x : Tile) : (s.setTile t x).near = s.near := rfl
@[simp] theorem setTile_present (s : State) (t : Nat) (x : Tile) : (s.setTile t x).present = s.present := rfl
@[simp] theorem setTile_tiles (s : State) (t : Nat) (x : Tile) : (s.setTile t x).tiles = mset s.tiles t x := rfl
@[simp] theorem setTile_mtiles (s : State) (t : Nat) (x : Tile) : (s.setTile t x).mtiles = s.mtiles := rfl
@[simp] theorem setTile_seqs (s : State) (t : Nat) (x : Tile) : (s.setTile t x).seqs = s.seqs := rfl
@[simp] theorem setTile_ctxs (s : State) (t : Nat) (x : Tile) : (s.setTile t x).ctxs = s.ctxs := rfl
@[simp] theorem setTile_graphs (s : State) (t : Nat) (x : Tile) : (s.setTile t x).graphs = s.graphs := rfl
@[simp] theorem setTile_actors (s : State) (t : Nat) (x : Tile) : (s.setTile t x).actors = s.actors := rfl
@[simp] theorem setTile_regions (s : State) (t : Nat) (x : Tile) : (s.setTile t x).regions = s.regions := rfl
@[simp] theorem setTile_arcs (s : State) (t : Nat) (x : Tile) : (s.setTile t x).arcs = s.arcs := rfl
@[simp] theorem setTile_ops (s : State) (t : Nat) (x : Tile) : (s.setTile t x).ops = s.ops := rfl
@[simp] theorem setTile_lanes (s : State) (t : Nat) (x : Tile) : (s.setTile t x).lanes = s.lanes := rfl
@[simp] theorem setTile_xlats (s : State) (t : Nat) (x : Tile) : (s.setTile t x).xlats = s.xlats := rfl
@[simp] theorem setTile_dies (s : State) (t : Nat) (x : Tile) : (s.setTile t x).dies = s.dies := rfl
@[simp] theorem setTile_links (s : State) (t : Nat) (x : Tile) : (s.setTile t x).links = s.links := rfl
@[simp] theorem setTile_ranks (s : State) (t : Nat) (x : Tile) : (s.setTile t x).ranks = s.ranks := rfl
@[simp] theorem setTile_rankDown (s : State) (t : Nat) (x : Tile) : (s.setTile t x).rankDown = s.rankDown := rfl
@[simp] theorem setTile_ctxresult (s : State) (t : Nat) (x : Tile) : (s.setTile t x).ctxresult = s.ctxresult := rfl
@[simp] theorem setTile_pkgvec (s : State) (t : Nat) (x : Tile) : (s.setTile t x).pkgvec = s.pkgvec := rfl
@[simp] theorem setTile_events (s : State) (t : Nat) (x : Tile) : (s.setTile t x).events = s.events := rfl
@[simp] theorem setTile_eventsOvf (s : State) (t : Nat) (x : Tile) : (s.setTile t x).eventsOvf = s.eventsOvf := rfl
@[simp] theorem setTile_lastEvent (s : State) (t : Nat) (x : Tile) : (s.setTile t x).lastEvent = s.lastEvent := rfl
@[simp] theorem setTile_msix (s : State) (t : Nat) (x : Tile) : (s.setTile t x).msix = s.msix := rfl
@[simp] theorem setTile_hostRead (s : State) (t : Nat) (x : Tile) : (s.setTile t x).hostRead = s.hostRead := rfl
@[simp] theorem setTile_hostTraps (s : State) (t : Nat) (x : Tile) : (s.setTile t x).hostTraps = s.hostTraps := rfl
@[simp] theorem setTile_images (s : State) (t : Nat) (x : Tile) : (s.setTile t x).images = s.images := rfl
@[simp] theorem setTile_cur (s : State) (t : Nat) (x : Tile) : (s.setTile t x).cur = s.cur := rfl
@[simp] theorem setTile_agenda (s : State) (t : Nat) (x : Tile) : (s.setTile t x).agenda = s.agenda := rfl
@[simp] theorem setTile_todo (s : State) (t : Nat) (x : Tile) : (s.setTile t x).todo = s.todo := rfl
@[simp] theorem setTile_inputs (s : State) (t : Nat) (x : Tile) : (s.setTile t x).inputs = s.inputs := rfl
@[simp] theorem setTile_recordAt (s : State) (t : Nat) (x : Tile) : (s.setTile t x).recordAt = s.recordAt := rfl
@[simp] theorem setTile_freeCount (s : State) (t : Nat) (x : Tile) : (s.setTile t x).freeCount = s.freeCount := rfl
@[simp] theorem setTile_opCount (s : State) (t : Nat) (x : Tile) : (s.setTile t x).opCount = s.opCount := rfl
@[simp] theorem setTile_read_mtile (s : State) (t : Nat) (x : Tile) (u : Nat) : (s.setTile t x).mtile u = s.mtile u := rfl
@[simp] theorem setTile_read_seq (s : State) (t : Nat) (x : Tile) (u : Nat) : (s.setTile t x).seq u = s.seq u := rfl
@[simp] theorem setTile_read_ctx (s : State) (t : Nat) (x : Tile) (u : Nat) : (s.setTile t x).ctx u = s.ctx u := rfl
@[simp] theorem setTile_read_graph (s : State) (t : Nat) (x : Tile) (u v : Nat) : (s.setTile t x).graph? u v = s.graph? u v :=
  rfl
@[simp] theorem setTile_read_regionAt (s : State) (t : Nat) (x : Tile) (u : Nat) : (s.setTile t x).regionAt u = s.regionAt u :=
  rfl
@[simp] theorem setTile_read_actor (s : State) (t : Nat) (x : Tile) (u : Nat) : (s.setTile t x).actor u = s.actor u := rfl
@[simp] theorem setTile_read_arc (s : State) (t : Nat) (x : Tile) (u : Nat) : (s.setTile t x).arc? u = s.arc? u := rfl
@[simp] theorem setTile_read_die (s : State) (t : Nat) (x : Tile) (u : Nat) : (s.setTile t x).die u = s.die u := rfl
@[simp] theorem setTile_read_xlat (s : State) (t : Nat) (x : Tile) (u : Nat) : (s.setTile t x).xlat u = s.xlat u := rfl
@[simp] theorem setTile_read_link (s : State) (t : Nat) (x : Tile) (u : Nat) : (s.setTile t x).link u = s.link u := rfl

/-! ## `setMtile` -/

@[simp] theorem setMtile_pcyc (s : State) (t : Nat) (x : MemTile) : (s.setMtile t x).pcyc = s.pcyc := rfl
@[simp] theorem setMtile_master (s : State) (t : Nat) (x : MemTile) : (s.setMtile t x).master = s.master := rfl
@[simp] theorem setMtile_pkgid (s : State) (t : Nat) (x : MemTile) : (s.setMtile t x).pkgid = s.pkgid := rfl
@[simp] theorem setMtile_badDies (s : State) (t : Nat) (x : MemTile) : (s.setMtile t x).badDies = s.badDies := rfl
@[simp] theorem setMtile_badStacks (s : State) (t : Nat) (x : MemTile) : (s.setMtile t x).badStacks = s.badStacks := rfl
@[simp] theorem setMtile_badTier (s : State) (t : Nat) (x : MemTile) : (s.setMtile t x).badTier = s.badTier := rfl
@[simp] theorem setMtile_badDispatcher (s : State) (t : Nat) (x : MemTile) : (s.setMtile t x).badDispatcher = s.badDispatcher :=
  rfl
@[simp] theorem setMtile_badLinks (s : State) (t : Nat) (x : MemTile) : (s.setMtile t x).badLinks = s.badLinks := rfl
@[simp] theorem setMtile_up (s : State) (t : Nat) (x : MemTile) : (s.setMtile t x).up = s.up := rfl
@[simp] theorem setMtile_mem (s : State) (t : Nat) (x : MemTile) : (s.setMtile t x).mem = s.mem := rfl
@[simp] theorem setMtile_peerMem (s : State) (t : Nat) (x : MemTile) : (s.setMtile t x).peerMem = s.peerMem := rfl
@[simp] theorem setMtile_near (s : State) (t : Nat) (x : MemTile) : (s.setMtile t x).near = s.near := rfl
@[simp] theorem setMtile_present (s : State) (t : Nat) (x : MemTile) : (s.setMtile t x).present = s.present := rfl
@[simp] theorem setMtile_tiles (s : State) (t : Nat) (x : MemTile) : (s.setMtile t x).tiles = s.tiles := rfl
@[simp] theorem setMtile_mtiles (s : State) (t : Nat) (x : MemTile) : (s.setMtile t x).mtiles = mset s.mtiles t x := rfl
@[simp] theorem setMtile_seqs (s : State) (t : Nat) (x : MemTile) : (s.setMtile t x).seqs = s.seqs := rfl
@[simp] theorem setMtile_ctxs (s : State) (t : Nat) (x : MemTile) : (s.setMtile t x).ctxs = s.ctxs := rfl
@[simp] theorem setMtile_graphs (s : State) (t : Nat) (x : MemTile) : (s.setMtile t x).graphs = s.graphs := rfl
@[simp] theorem setMtile_actors (s : State) (t : Nat) (x : MemTile) : (s.setMtile t x).actors = s.actors := rfl
@[simp] theorem setMtile_regions (s : State) (t : Nat) (x : MemTile) : (s.setMtile t x).regions = s.regions := rfl
@[simp] theorem setMtile_arcs (s : State) (t : Nat) (x : MemTile) : (s.setMtile t x).arcs = s.arcs := rfl
@[simp] theorem setMtile_ops (s : State) (t : Nat) (x : MemTile) : (s.setMtile t x).ops = s.ops := rfl
@[simp] theorem setMtile_lanes (s : State) (t : Nat) (x : MemTile) : (s.setMtile t x).lanes = s.lanes := rfl
@[simp] theorem setMtile_xlats (s : State) (t : Nat) (x : MemTile) : (s.setMtile t x).xlats = s.xlats := rfl
@[simp] theorem setMtile_dies (s : State) (t : Nat) (x : MemTile) : (s.setMtile t x).dies = s.dies := rfl
@[simp] theorem setMtile_links (s : State) (t : Nat) (x : MemTile) : (s.setMtile t x).links = s.links := rfl
@[simp] theorem setMtile_ranks (s : State) (t : Nat) (x : MemTile) : (s.setMtile t x).ranks = s.ranks := rfl
@[simp] theorem setMtile_rankDown (s : State) (t : Nat) (x : MemTile) : (s.setMtile t x).rankDown = s.rankDown := rfl
@[simp] theorem setMtile_ctxresult (s : State) (t : Nat) (x : MemTile) : (s.setMtile t x).ctxresult = s.ctxresult := rfl
@[simp] theorem setMtile_pkgvec (s : State) (t : Nat) (x : MemTile) : (s.setMtile t x).pkgvec = s.pkgvec := rfl
@[simp] theorem setMtile_events (s : State) (t : Nat) (x : MemTile) : (s.setMtile t x).events = s.events := rfl
@[simp] theorem setMtile_eventsOvf (s : State) (t : Nat) (x : MemTile) : (s.setMtile t x).eventsOvf = s.eventsOvf := rfl
@[simp] theorem setMtile_lastEvent (s : State) (t : Nat) (x : MemTile) : (s.setMtile t x).lastEvent = s.lastEvent := rfl
@[simp] theorem setMtile_msix (s : State) (t : Nat) (x : MemTile) : (s.setMtile t x).msix = s.msix := rfl
@[simp] theorem setMtile_hostRead (s : State) (t : Nat) (x : MemTile) : (s.setMtile t x).hostRead = s.hostRead := rfl
@[simp] theorem setMtile_hostTraps (s : State) (t : Nat) (x : MemTile) : (s.setMtile t x).hostTraps = s.hostTraps := rfl
@[simp] theorem setMtile_images (s : State) (t : Nat) (x : MemTile) : (s.setMtile t x).images = s.images := rfl
@[simp] theorem setMtile_cur (s : State) (t : Nat) (x : MemTile) : (s.setMtile t x).cur = s.cur := rfl
@[simp] theorem setMtile_agenda (s : State) (t : Nat) (x : MemTile) : (s.setMtile t x).agenda = s.agenda := rfl
@[simp] theorem setMtile_todo (s : State) (t : Nat) (x : MemTile) : (s.setMtile t x).todo = s.todo := rfl
@[simp] theorem setMtile_inputs (s : State) (t : Nat) (x : MemTile) : (s.setMtile t x).inputs = s.inputs := rfl
@[simp] theorem setMtile_recordAt (s : State) (t : Nat) (x : MemTile) : (s.setMtile t x).recordAt = s.recordAt := rfl
@[simp] theorem setMtile_freeCount (s : State) (t : Nat) (x : MemTile) : (s.setMtile t x).freeCount = s.freeCount := rfl
@[simp] theorem setMtile_opCount (s : State) (t : Nat) (x : MemTile) : (s.setMtile t x).opCount = s.opCount := rfl
@[simp] theorem setMtile_read_tile (s : State) (t : Nat) (x : MemTile) (u : Nat) : (s.setMtile t x).tile u = s.tile u := rfl
@[simp] theorem setMtile_read_seq (s : State) (t : Nat) (x : MemTile) (u : Nat) : (s.setMtile t x).seq u = s.seq u := rfl
@[simp] theorem setMtile_read_ctx (s : State) (t : Nat) (x : MemTile) (u : Nat) : (s.setMtile t x).ctx u = s.ctx u := rfl
@[simp] theorem setMtile_read_graph (s : State) (t : Nat) (x : MemTile) (u v : Nat) : (s.setMtile t x).graph? u v = s.graph? u v :=
  rfl
@[simp] theorem setMtile_read_regionAt (s : State) (t : Nat) (x : MemTile) (u : Nat) : (s.setMtile t x).regionAt u = s.regionAt u :=
  rfl
@[simp] theorem setMtile_read_actor (s : State) (t : Nat) (x : MemTile) (u : Nat) : (s.setMtile t x).actor u = s.actor u := rfl
@[simp] theorem setMtile_read_arc (s : State) (t : Nat) (x : MemTile) (u : Nat) : (s.setMtile t x).arc? u = s.arc? u := rfl
@[simp] theorem setMtile_read_die (s : State) (t : Nat) (x : MemTile) (u : Nat) : (s.setMtile t x).die u = s.die u := rfl
@[simp] theorem setMtile_read_xlat (s : State) (t : Nat) (x : MemTile) (u : Nat) : (s.setMtile t x).xlat u = s.xlat u := rfl
@[simp] theorem setMtile_read_link (s : State) (t : Nat) (x : MemTile) (u : Nat) : (s.setMtile t x).link u = s.link u := rfl

/-! ## `setSeq` -/

@[simp] theorem setSeq_pcyc (s : State) (n : Nat) (x : Seq) : (s.setSeq n x).pcyc = s.pcyc := rfl
@[simp] theorem setSeq_master (s : State) (n : Nat) (x : Seq) : (s.setSeq n x).master = s.master := rfl
@[simp] theorem setSeq_pkgid (s : State) (n : Nat) (x : Seq) : (s.setSeq n x).pkgid = s.pkgid := rfl
@[simp] theorem setSeq_badDies (s : State) (n : Nat) (x : Seq) : (s.setSeq n x).badDies = s.badDies := rfl
@[simp] theorem setSeq_badStacks (s : State) (n : Nat) (x : Seq) : (s.setSeq n x).badStacks = s.badStacks := rfl
@[simp] theorem setSeq_badTier (s : State) (n : Nat) (x : Seq) : (s.setSeq n x).badTier = s.badTier := rfl
@[simp] theorem setSeq_badDispatcher (s : State) (n : Nat) (x : Seq) : (s.setSeq n x).badDispatcher = s.badDispatcher := rfl
@[simp] theorem setSeq_badLinks (s : State) (n : Nat) (x : Seq) : (s.setSeq n x).badLinks = s.badLinks := rfl
@[simp] theorem setSeq_up (s : State) (n : Nat) (x : Seq) : (s.setSeq n x).up = s.up := rfl
@[simp] theorem setSeq_mem (s : State) (n : Nat) (x : Seq) : (s.setSeq n x).mem = s.mem := rfl
@[simp] theorem setSeq_peerMem (s : State) (n : Nat) (x : Seq) : (s.setSeq n x).peerMem = s.peerMem := rfl
@[simp] theorem setSeq_near (s : State) (n : Nat) (x : Seq) : (s.setSeq n x).near = s.near := rfl
@[simp] theorem setSeq_present (s : State) (n : Nat) (x : Seq) : (s.setSeq n x).present = s.present := rfl
@[simp] theorem setSeq_tiles (s : State) (n : Nat) (x : Seq) : (s.setSeq n x).tiles = s.tiles := rfl
@[simp] theorem setSeq_mtiles (s : State) (n : Nat) (x : Seq) : (s.setSeq n x).mtiles = s.mtiles := rfl
@[simp] theorem setSeq_seqs (s : State) (n : Nat) (x : Seq) : (s.setSeq n x).seqs = mset s.seqs n x := rfl
@[simp] theorem setSeq_ctxs (s : State) (n : Nat) (x : Seq) : (s.setSeq n x).ctxs = s.ctxs := rfl
@[simp] theorem setSeq_graphs (s : State) (n : Nat) (x : Seq) : (s.setSeq n x).graphs = s.graphs := rfl
@[simp] theorem setSeq_actors (s : State) (n : Nat) (x : Seq) : (s.setSeq n x).actors = s.actors := rfl
@[simp] theorem setSeq_regions (s : State) (n : Nat) (x : Seq) : (s.setSeq n x).regions = s.regions := rfl
@[simp] theorem setSeq_arcs (s : State) (n : Nat) (x : Seq) : (s.setSeq n x).arcs = s.arcs := rfl
@[simp] theorem setSeq_ops (s : State) (n : Nat) (x : Seq) : (s.setSeq n x).ops = s.ops := rfl
@[simp] theorem setSeq_lanes (s : State) (n : Nat) (x : Seq) : (s.setSeq n x).lanes = s.lanes := rfl
@[simp] theorem setSeq_xlats (s : State) (n : Nat) (x : Seq) : (s.setSeq n x).xlats = s.xlats := rfl
@[simp] theorem setSeq_dies (s : State) (n : Nat) (x : Seq) : (s.setSeq n x).dies = s.dies := rfl
@[simp] theorem setSeq_links (s : State) (n : Nat) (x : Seq) : (s.setSeq n x).links = s.links := rfl
@[simp] theorem setSeq_ranks (s : State) (n : Nat) (x : Seq) : (s.setSeq n x).ranks = s.ranks := rfl
@[simp] theorem setSeq_rankDown (s : State) (n : Nat) (x : Seq) : (s.setSeq n x).rankDown = s.rankDown := rfl
@[simp] theorem setSeq_ctxresult (s : State) (n : Nat) (x : Seq) : (s.setSeq n x).ctxresult = s.ctxresult := rfl
@[simp] theorem setSeq_pkgvec (s : State) (n : Nat) (x : Seq) : (s.setSeq n x).pkgvec = s.pkgvec := rfl
@[simp] theorem setSeq_events (s : State) (n : Nat) (x : Seq) : (s.setSeq n x).events = s.events := rfl
@[simp] theorem setSeq_eventsOvf (s : State) (n : Nat) (x : Seq) : (s.setSeq n x).eventsOvf = s.eventsOvf := rfl
@[simp] theorem setSeq_lastEvent (s : State) (n : Nat) (x : Seq) : (s.setSeq n x).lastEvent = s.lastEvent := rfl
@[simp] theorem setSeq_msix (s : State) (n : Nat) (x : Seq) : (s.setSeq n x).msix = s.msix := rfl
@[simp] theorem setSeq_hostRead (s : State) (n : Nat) (x : Seq) : (s.setSeq n x).hostRead = s.hostRead := rfl
@[simp] theorem setSeq_hostTraps (s : State) (n : Nat) (x : Seq) : (s.setSeq n x).hostTraps = s.hostTraps := rfl
@[simp] theorem setSeq_images (s : State) (n : Nat) (x : Seq) : (s.setSeq n x).images = s.images := rfl
@[simp] theorem setSeq_cur (s : State) (n : Nat) (x : Seq) : (s.setSeq n x).cur = s.cur := rfl
@[simp] theorem setSeq_agenda (s : State) (n : Nat) (x : Seq) : (s.setSeq n x).agenda = s.agenda := rfl
@[simp] theorem setSeq_todo (s : State) (n : Nat) (x : Seq) : (s.setSeq n x).todo = s.todo := rfl
@[simp] theorem setSeq_inputs (s : State) (n : Nat) (x : Seq) : (s.setSeq n x).inputs = s.inputs := rfl
@[simp] theorem setSeq_recordAt (s : State) (n : Nat) (x : Seq) : (s.setSeq n x).recordAt = s.recordAt := rfl
@[simp] theorem setSeq_freeCount (s : State) (n : Nat) (x : Seq) : (s.setSeq n x).freeCount = s.freeCount := rfl
@[simp] theorem setSeq_opCount (s : State) (n : Nat) (x : Seq) : (s.setSeq n x).opCount = s.opCount := rfl
@[simp] theorem setSeq_read_tile (s : State) (n : Nat) (x : Seq) (u : Nat) : (s.setSeq n x).tile u = s.tile u := rfl
@[simp] theorem setSeq_read_mtile (s : State) (n : Nat) (x : Seq) (u : Nat) : (s.setSeq n x).mtile u = s.mtile u := rfl
@[simp] theorem setSeq_read_ctx (s : State) (n : Nat) (x : Seq) (u : Nat) : (s.setSeq n x).ctx u = s.ctx u := rfl
@[simp] theorem setSeq_read_graph (s : State) (n : Nat) (x : Seq) (u v : Nat) : (s.setSeq n x).graph? u v = s.graph? u v := rfl
@[simp] theorem setSeq_read_regionAt (s : State) (n : Nat) (x : Seq) (u : Nat) : (s.setSeq n x).regionAt u = s.regionAt u := rfl
@[simp] theorem setSeq_read_actor (s : State) (n : Nat) (x : Seq) (u : Nat) : (s.setSeq n x).actor u = s.actor u := rfl
@[simp] theorem setSeq_read_arc (s : State) (n : Nat) (x : Seq) (u : Nat) : (s.setSeq n x).arc? u = s.arc? u := rfl
@[simp] theorem setSeq_read_die (s : State) (n : Nat) (x : Seq) (u : Nat) : (s.setSeq n x).die u = s.die u := rfl
@[simp] theorem setSeq_read_xlat (s : State) (n : Nat) (x : Seq) (u : Nat) : (s.setSeq n x).xlat u = s.xlat u := rfl
@[simp] theorem setSeq_read_link (s : State) (n : Nat) (x : Seq) (u : Nat) : (s.setSeq n x).link u = s.link u := rfl

/-! ## `setCtx` -/

@[simp] theorem setCtx_pcyc (s : State) (c : Nat) (x : Ctx) : (s.setCtx c x).pcyc = s.pcyc := rfl
@[simp] theorem setCtx_master (s : State) (c : Nat) (x : Ctx) : (s.setCtx c x).master = s.master := rfl
@[simp] theorem setCtx_pkgid (s : State) (c : Nat) (x : Ctx) : (s.setCtx c x).pkgid = s.pkgid := rfl
@[simp] theorem setCtx_badDies (s : State) (c : Nat) (x : Ctx) : (s.setCtx c x).badDies = s.badDies := rfl
@[simp] theorem setCtx_badStacks (s : State) (c : Nat) (x : Ctx) : (s.setCtx c x).badStacks = s.badStacks := rfl
@[simp] theorem setCtx_badTier (s : State) (c : Nat) (x : Ctx) : (s.setCtx c x).badTier = s.badTier := rfl
@[simp] theorem setCtx_badDispatcher (s : State) (c : Nat) (x : Ctx) : (s.setCtx c x).badDispatcher = s.badDispatcher := rfl
@[simp] theorem setCtx_badLinks (s : State) (c : Nat) (x : Ctx) : (s.setCtx c x).badLinks = s.badLinks := rfl
@[simp] theorem setCtx_up (s : State) (c : Nat) (x : Ctx) : (s.setCtx c x).up = s.up := rfl
@[simp] theorem setCtx_mem (s : State) (c : Nat) (x : Ctx) : (s.setCtx c x).mem = s.mem := rfl
@[simp] theorem setCtx_peerMem (s : State) (c : Nat) (x : Ctx) : (s.setCtx c x).peerMem = s.peerMem := rfl
@[simp] theorem setCtx_near (s : State) (c : Nat) (x : Ctx) : (s.setCtx c x).near = s.near := rfl
@[simp] theorem setCtx_present (s : State) (c : Nat) (x : Ctx) : (s.setCtx c x).present = s.present := rfl
@[simp] theorem setCtx_tiles (s : State) (c : Nat) (x : Ctx) : (s.setCtx c x).tiles = s.tiles := rfl
@[simp] theorem setCtx_mtiles (s : State) (c : Nat) (x : Ctx) : (s.setCtx c x).mtiles = s.mtiles := rfl
@[simp] theorem setCtx_seqs (s : State) (c : Nat) (x : Ctx) : (s.setCtx c x).seqs = s.seqs := rfl
@[simp] theorem setCtx_ctxs (s : State) (c : Nat) (x : Ctx) : (s.setCtx c x).ctxs = mset s.ctxs c x := rfl
@[simp] theorem setCtx_graphs (s : State) (c : Nat) (x : Ctx) : (s.setCtx c x).graphs = s.graphs := rfl
@[simp] theorem setCtx_actors (s : State) (c : Nat) (x : Ctx) : (s.setCtx c x).actors = s.actors := rfl
@[simp] theorem setCtx_regions (s : State) (c : Nat) (x : Ctx) : (s.setCtx c x).regions = s.regions := rfl
@[simp] theorem setCtx_arcs (s : State) (c : Nat) (x : Ctx) : (s.setCtx c x).arcs = s.arcs := rfl
@[simp] theorem setCtx_ops (s : State) (c : Nat) (x : Ctx) : (s.setCtx c x).ops = s.ops := rfl
@[simp] theorem setCtx_lanes (s : State) (c : Nat) (x : Ctx) : (s.setCtx c x).lanes = s.lanes := rfl
@[simp] theorem setCtx_xlats (s : State) (c : Nat) (x : Ctx) : (s.setCtx c x).xlats = s.xlats := rfl
@[simp] theorem setCtx_dies (s : State) (c : Nat) (x : Ctx) : (s.setCtx c x).dies = s.dies := rfl
@[simp] theorem setCtx_links (s : State) (c : Nat) (x : Ctx) : (s.setCtx c x).links = s.links := rfl
@[simp] theorem setCtx_ranks (s : State) (c : Nat) (x : Ctx) : (s.setCtx c x).ranks = s.ranks := rfl
@[simp] theorem setCtx_rankDown (s : State) (c : Nat) (x : Ctx) : (s.setCtx c x).rankDown = s.rankDown := rfl
@[simp] theorem setCtx_ctxresult (s : State) (c : Nat) (x : Ctx) : (s.setCtx c x).ctxresult = s.ctxresult := rfl
@[simp] theorem setCtx_pkgvec (s : State) (c : Nat) (x : Ctx) : (s.setCtx c x).pkgvec = s.pkgvec := rfl
@[simp] theorem setCtx_events (s : State) (c : Nat) (x : Ctx) : (s.setCtx c x).events = s.events := rfl
@[simp] theorem setCtx_eventsOvf (s : State) (c : Nat) (x : Ctx) : (s.setCtx c x).eventsOvf = s.eventsOvf := rfl
@[simp] theorem setCtx_lastEvent (s : State) (c : Nat) (x : Ctx) : (s.setCtx c x).lastEvent = s.lastEvent := rfl
@[simp] theorem setCtx_msix (s : State) (c : Nat) (x : Ctx) : (s.setCtx c x).msix = s.msix := rfl
@[simp] theorem setCtx_hostRead (s : State) (c : Nat) (x : Ctx) : (s.setCtx c x).hostRead = s.hostRead := rfl
@[simp] theorem setCtx_hostTraps (s : State) (c : Nat) (x : Ctx) : (s.setCtx c x).hostTraps = s.hostTraps := rfl
@[simp] theorem setCtx_images (s : State) (c : Nat) (x : Ctx) : (s.setCtx c x).images = s.images := rfl
@[simp] theorem setCtx_cur (s : State) (c : Nat) (x : Ctx) : (s.setCtx c x).cur = s.cur := rfl
@[simp] theorem setCtx_agenda (s : State) (c : Nat) (x : Ctx) : (s.setCtx c x).agenda = s.agenda := rfl
@[simp] theorem setCtx_todo (s : State) (c : Nat) (x : Ctx) : (s.setCtx c x).todo = s.todo := rfl
@[simp] theorem setCtx_inputs (s : State) (c : Nat) (x : Ctx) : (s.setCtx c x).inputs = s.inputs := rfl
@[simp] theorem setCtx_recordAt (s : State) (c : Nat) (x : Ctx) : (s.setCtx c x).recordAt = s.recordAt := rfl
@[simp] theorem setCtx_freeCount (s : State) (c : Nat) (x : Ctx) : (s.setCtx c x).freeCount = s.freeCount := rfl
@[simp] theorem setCtx_opCount (s : State) (c : Nat) (x : Ctx) : (s.setCtx c x).opCount = s.opCount := rfl
@[simp] theorem setCtx_read_tile (s : State) (c : Nat) (x : Ctx) (u : Nat) : (s.setCtx c x).tile u = s.tile u := rfl
@[simp] theorem setCtx_read_mtile (s : State) (c : Nat) (x : Ctx) (u : Nat) : (s.setCtx c x).mtile u = s.mtile u := rfl
@[simp] theorem setCtx_read_seq (s : State) (c : Nat) (x : Ctx) (u : Nat) : (s.setCtx c x).seq u = s.seq u := rfl
@[simp] theorem setCtx_read_graph (s : State) (c : Nat) (x : Ctx) (u v : Nat) : (s.setCtx c x).graph? u v = s.graph? u v := rfl
@[simp] theorem setCtx_read_regionAt (s : State) (c : Nat) (x : Ctx) (u : Nat) : (s.setCtx c x).regionAt u = s.regionAt u := rfl
@[simp] theorem setCtx_read_actor (s : State) (c : Nat) (x : Ctx) (u : Nat) : (s.setCtx c x).actor u = s.actor u := rfl
@[simp] theorem setCtx_read_arc (s : State) (c : Nat) (x : Ctx) (u : Nat) : (s.setCtx c x).arc? u = s.arc? u := rfl
@[simp] theorem setCtx_read_die (s : State) (c : Nat) (x : Ctx) (u : Nat) : (s.setCtx c x).die u = s.die u := rfl
@[simp] theorem setCtx_read_xlat (s : State) (c : Nat) (x : Ctx) (u : Nat) : (s.setCtx c x).xlat u = s.xlat u := rfl
@[simp] theorem setCtx_read_link (s : State) (c : Nat) (x : Ctx) (u : Nat) : (s.setCtx c x).link u = s.link u := rfl

/-! ## `setGraph` -/

@[simp] theorem setGraph_pcyc (s : State) (c g : Nat) (x : Graph) : (s.setGraph c g x).pcyc = s.pcyc := rfl
@[simp] theorem setGraph_master (s : State) (c g : Nat) (x : Graph) : (s.setGraph c g x).master = s.master := rfl
@[simp] theorem setGraph_pkgid (s : State) (c g : Nat) (x : Graph) : (s.setGraph c g x).pkgid = s.pkgid := rfl
@[simp] theorem setGraph_badDies (s : State) (c g : Nat) (x : Graph) : (s.setGraph c g x).badDies = s.badDies := rfl
@[simp] theorem setGraph_badStacks (s : State) (c g : Nat) (x : Graph) : (s.setGraph c g x).badStacks = s.badStacks := rfl
@[simp] theorem setGraph_badTier (s : State) (c g : Nat) (x : Graph) : (s.setGraph c g x).badTier = s.badTier := rfl
@[simp] theorem setGraph_badDispatcher (s : State) (c g : Nat) (x : Graph) : (s.setGraph c g x).badDispatcher = s.badDispatcher :=
  rfl
@[simp] theorem setGraph_badLinks (s : State) (c g : Nat) (x : Graph) : (s.setGraph c g x).badLinks = s.badLinks := rfl
@[simp] theorem setGraph_up (s : State) (c g : Nat) (x : Graph) : (s.setGraph c g x).up = s.up := rfl
@[simp] theorem setGraph_mem (s : State) (c g : Nat) (x : Graph) : (s.setGraph c g x).mem = s.mem := rfl
@[simp] theorem setGraph_peerMem (s : State) (c g : Nat) (x : Graph) : (s.setGraph c g x).peerMem = s.peerMem := rfl
@[simp] theorem setGraph_near (s : State) (c g : Nat) (x : Graph) : (s.setGraph c g x).near = s.near := rfl
@[simp] theorem setGraph_present (s : State) (c g : Nat) (x : Graph) : (s.setGraph c g x).present = s.present := rfl
@[simp] theorem setGraph_tiles (s : State) (c g : Nat) (x : Graph) : (s.setGraph c g x).tiles = s.tiles := rfl
@[simp] theorem setGraph_mtiles (s : State) (c g : Nat) (x : Graph) : (s.setGraph c g x).mtiles = s.mtiles := rfl
@[simp] theorem setGraph_seqs (s : State) (c g : Nat) (x : Graph) : (s.setGraph c g x).seqs = s.seqs := rfl
@[simp] theorem setGraph_ctxs (s : State) (c g : Nat) (x : Graph) : (s.setGraph c g x).ctxs = s.ctxs := rfl
@[simp] theorem setGraph_graphs (s : State) (c g : Nat) (x : Graph) : (s.setGraph c g x).graphs = mset s.graphs (graphKey c g) x :=
  rfl
@[simp] theorem setGraph_actors (s : State) (c g : Nat) (x : Graph) : (s.setGraph c g x).actors = s.actors := rfl
@[simp] theorem setGraph_regions (s : State) (c g : Nat) (x : Graph) : (s.setGraph c g x).regions = s.regions := rfl
@[simp] theorem setGraph_arcs (s : State) (c g : Nat) (x : Graph) : (s.setGraph c g x).arcs = s.arcs := rfl
@[simp] theorem setGraph_ops (s : State) (c g : Nat) (x : Graph) : (s.setGraph c g x).ops = s.ops := rfl
@[simp] theorem setGraph_lanes (s : State) (c g : Nat) (x : Graph) : (s.setGraph c g x).lanes = s.lanes := rfl
@[simp] theorem setGraph_xlats (s : State) (c g : Nat) (x : Graph) : (s.setGraph c g x).xlats = s.xlats := rfl
@[simp] theorem setGraph_dies (s : State) (c g : Nat) (x : Graph) : (s.setGraph c g x).dies = s.dies := rfl
@[simp] theorem setGraph_links (s : State) (c g : Nat) (x : Graph) : (s.setGraph c g x).links = s.links := rfl
@[simp] theorem setGraph_ranks (s : State) (c g : Nat) (x : Graph) : (s.setGraph c g x).ranks = s.ranks := rfl
@[simp] theorem setGraph_rankDown (s : State) (c g : Nat) (x : Graph) : (s.setGraph c g x).rankDown = s.rankDown := rfl
@[simp] theorem setGraph_ctxresult (s : State) (c g : Nat) (x : Graph) : (s.setGraph c g x).ctxresult = s.ctxresult := rfl
@[simp] theorem setGraph_pkgvec (s : State) (c g : Nat) (x : Graph) : (s.setGraph c g x).pkgvec = s.pkgvec := rfl
@[simp] theorem setGraph_events (s : State) (c g : Nat) (x : Graph) : (s.setGraph c g x).events = s.events := rfl
@[simp] theorem setGraph_eventsOvf (s : State) (c g : Nat) (x : Graph) : (s.setGraph c g x).eventsOvf = s.eventsOvf := rfl
@[simp] theorem setGraph_lastEvent (s : State) (c g : Nat) (x : Graph) : (s.setGraph c g x).lastEvent = s.lastEvent := rfl
@[simp] theorem setGraph_msix (s : State) (c g : Nat) (x : Graph) : (s.setGraph c g x).msix = s.msix := rfl
@[simp] theorem setGraph_hostRead (s : State) (c g : Nat) (x : Graph) : (s.setGraph c g x).hostRead = s.hostRead := rfl
@[simp] theorem setGraph_hostTraps (s : State) (c g : Nat) (x : Graph) : (s.setGraph c g x).hostTraps = s.hostTraps := rfl
@[simp] theorem setGraph_images (s : State) (c g : Nat) (x : Graph) : (s.setGraph c g x).images = s.images := rfl
@[simp] theorem setGraph_cur (s : State) (c g : Nat) (x : Graph) : (s.setGraph c g x).cur = s.cur := rfl
@[simp] theorem setGraph_agenda (s : State) (c g : Nat) (x : Graph) : (s.setGraph c g x).agenda = s.agenda := rfl
@[simp] theorem setGraph_todo (s : State) (c g : Nat) (x : Graph) : (s.setGraph c g x).todo = s.todo := rfl
@[simp] theorem setGraph_inputs (s : State) (c g : Nat) (x : Graph) : (s.setGraph c g x).inputs = s.inputs := rfl
@[simp] theorem setGraph_recordAt (s : State) (c g : Nat) (x : Graph) : (s.setGraph c g x).recordAt = s.recordAt := rfl
@[simp] theorem setGraph_freeCount (s : State) (c g : Nat) (x : Graph) : (s.setGraph c g x).freeCount = s.freeCount := rfl
@[simp] theorem setGraph_opCount (s : State) (c g : Nat) (x : Graph) : (s.setGraph c g x).opCount = s.opCount := rfl
@[simp] theorem setGraph_read_tile (s : State) (c g : Nat) (x : Graph) (u : Nat) : (s.setGraph c g x).tile u = s.tile u := rfl
@[simp] theorem setGraph_read_mtile (s : State) (c g : Nat) (x : Graph) (u : Nat) : (s.setGraph c g x).mtile u = s.mtile u :=
  rfl
@[simp] theorem setGraph_read_seq (s : State) (c g : Nat) (x : Graph) (u : Nat) : (s.setGraph c g x).seq u = s.seq u := rfl
@[simp] theorem setGraph_read_ctx (s : State) (c g : Nat) (x : Graph) (u : Nat) : (s.setGraph c g x).ctx u = s.ctx u := rfl
@[simp] theorem setGraph_read_regionAt (s : State) (c g : Nat) (x : Graph) (u : Nat) : (s.setGraph c g x).regionAt u = s.regionAt u :=
  rfl
@[simp] theorem setGraph_read_actor (s : State) (c g : Nat) (x : Graph) (u : Nat) : (s.setGraph c g x).actor u = s.actor u :=
  rfl
@[simp] theorem setGraph_read_arc (s : State) (c g : Nat) (x : Graph) (u : Nat) : (s.setGraph c g x).arc? u = s.arc? u := rfl
@[simp] theorem setGraph_read_die (s : State) (c g : Nat) (x : Graph) (u : Nat) : (s.setGraph c g x).die u = s.die u := rfl
@[simp] theorem setGraph_read_xlat (s : State) (c g : Nat) (x : Graph) (u : Nat) : (s.setGraph c g x).xlat u = s.xlat u := rfl
@[simp] theorem setGraph_read_link (s : State) (c g : Nat) (x : Graph) (u : Nat) : (s.setGraph c g x).link u = s.link u := rfl

/-! ## `setRegion` -/

@[simp] theorem setRegion_pcyc (s : State) (k : Nat) (x : Region) : (s.setRegion k x).pcyc = s.pcyc := rfl
@[simp] theorem setRegion_master (s : State) (k : Nat) (x : Region) : (s.setRegion k x).master = s.master := rfl
@[simp] theorem setRegion_pkgid (s : State) (k : Nat) (x : Region) : (s.setRegion k x).pkgid = s.pkgid := rfl
@[simp] theorem setRegion_badDies (s : State) (k : Nat) (x : Region) : (s.setRegion k x).badDies = s.badDies := rfl
@[simp] theorem setRegion_badStacks (s : State) (k : Nat) (x : Region) : (s.setRegion k x).badStacks = s.badStacks := rfl
@[simp] theorem setRegion_badTier (s : State) (k : Nat) (x : Region) : (s.setRegion k x).badTier = s.badTier := rfl
@[simp] theorem setRegion_badDispatcher (s : State) (k : Nat) (x : Region) : (s.setRegion k x).badDispatcher = s.badDispatcher :=
  rfl
@[simp] theorem setRegion_badLinks (s : State) (k : Nat) (x : Region) : (s.setRegion k x).badLinks = s.badLinks := rfl
@[simp] theorem setRegion_up (s : State) (k : Nat) (x : Region) : (s.setRegion k x).up = s.up := rfl
@[simp] theorem setRegion_mem (s : State) (k : Nat) (x : Region) : (s.setRegion k x).mem = s.mem := rfl
@[simp] theorem setRegion_peerMem (s : State) (k : Nat) (x : Region) : (s.setRegion k x).peerMem = s.peerMem := rfl
@[simp] theorem setRegion_near (s : State) (k : Nat) (x : Region) : (s.setRegion k x).near = s.near := rfl
@[simp] theorem setRegion_present (s : State) (k : Nat) (x : Region) : (s.setRegion k x).present = s.present := rfl
@[simp] theorem setRegion_tiles (s : State) (k : Nat) (x : Region) : (s.setRegion k x).tiles = s.tiles := rfl
@[simp] theorem setRegion_mtiles (s : State) (k : Nat) (x : Region) : (s.setRegion k x).mtiles = s.mtiles := rfl
@[simp] theorem setRegion_seqs (s : State) (k : Nat) (x : Region) : (s.setRegion k x).seqs = s.seqs := rfl
@[simp] theorem setRegion_ctxs (s : State) (k : Nat) (x : Region) : (s.setRegion k x).ctxs = s.ctxs := rfl
@[simp] theorem setRegion_graphs (s : State) (k : Nat) (x : Region) : (s.setRegion k x).graphs = s.graphs := rfl
@[simp] theorem setRegion_actors (s : State) (k : Nat) (x : Region) : (s.setRegion k x).actors = s.actors := rfl
@[simp] theorem setRegion_regions (s : State) (k : Nat) (x : Region) : (s.setRegion k x).regions = mset s.regions k x := rfl
@[simp] theorem setRegion_arcs (s : State) (k : Nat) (x : Region) : (s.setRegion k x).arcs = s.arcs := rfl
@[simp] theorem setRegion_ops (s : State) (k : Nat) (x : Region) : (s.setRegion k x).ops = s.ops := rfl
@[simp] theorem setRegion_lanes (s : State) (k : Nat) (x : Region) : (s.setRegion k x).lanes = s.lanes := rfl
@[simp] theorem setRegion_xlats (s : State) (k : Nat) (x : Region) : (s.setRegion k x).xlats = s.xlats := rfl
@[simp] theorem setRegion_dies (s : State) (k : Nat) (x : Region) : (s.setRegion k x).dies = s.dies := rfl
@[simp] theorem setRegion_links (s : State) (k : Nat) (x : Region) : (s.setRegion k x).links = s.links := rfl
@[simp] theorem setRegion_ranks (s : State) (k : Nat) (x : Region) : (s.setRegion k x).ranks = s.ranks := rfl
@[simp] theorem setRegion_rankDown (s : State) (k : Nat) (x : Region) : (s.setRegion k x).rankDown = s.rankDown := rfl
@[simp] theorem setRegion_ctxresult (s : State) (k : Nat) (x : Region) : (s.setRegion k x).ctxresult = s.ctxresult := rfl
@[simp] theorem setRegion_pkgvec (s : State) (k : Nat) (x : Region) : (s.setRegion k x).pkgvec = s.pkgvec := rfl
@[simp] theorem setRegion_events (s : State) (k : Nat) (x : Region) : (s.setRegion k x).events = s.events := rfl
@[simp] theorem setRegion_eventsOvf (s : State) (k : Nat) (x : Region) : (s.setRegion k x).eventsOvf = s.eventsOvf := rfl
@[simp] theorem setRegion_lastEvent (s : State) (k : Nat) (x : Region) : (s.setRegion k x).lastEvent = s.lastEvent := rfl
@[simp] theorem setRegion_msix (s : State) (k : Nat) (x : Region) : (s.setRegion k x).msix = s.msix := rfl
@[simp] theorem setRegion_hostRead (s : State) (k : Nat) (x : Region) : (s.setRegion k x).hostRead = s.hostRead := rfl
@[simp] theorem setRegion_hostTraps (s : State) (k : Nat) (x : Region) : (s.setRegion k x).hostTraps = s.hostTraps := rfl
@[simp] theorem setRegion_images (s : State) (k : Nat) (x : Region) : (s.setRegion k x).images = s.images := rfl
@[simp] theorem setRegion_cur (s : State) (k : Nat) (x : Region) : (s.setRegion k x).cur = s.cur := rfl
@[simp] theorem setRegion_agenda (s : State) (k : Nat) (x : Region) : (s.setRegion k x).agenda = s.agenda := rfl
@[simp] theorem setRegion_todo (s : State) (k : Nat) (x : Region) : (s.setRegion k x).todo = s.todo := rfl
@[simp] theorem setRegion_inputs (s : State) (k : Nat) (x : Region) : (s.setRegion k x).inputs = s.inputs := rfl
@[simp] theorem setRegion_recordAt (s : State) (k : Nat) (x : Region) : (s.setRegion k x).recordAt = s.recordAt := rfl
@[simp] theorem setRegion_freeCount (s : State) (k : Nat) (x : Region) : (s.setRegion k x).freeCount = s.freeCount := rfl
@[simp] theorem setRegion_opCount (s : State) (k : Nat) (x : Region) : (s.setRegion k x).opCount = s.opCount := rfl
@[simp] theorem setRegion_read_tile (s : State) (k : Nat) (x : Region) (u : Nat) : (s.setRegion k x).tile u = s.tile u := rfl
@[simp] theorem setRegion_read_mtile (s : State) (k : Nat) (x : Region) (u : Nat) : (s.setRegion k x).mtile u = s.mtile u := rfl
@[simp] theorem setRegion_read_seq (s : State) (k : Nat) (x : Region) (u : Nat) : (s.setRegion k x).seq u = s.seq u := rfl
@[simp] theorem setRegion_read_ctx (s : State) (k : Nat) (x : Region) (u : Nat) : (s.setRegion k x).ctx u = s.ctx u := rfl
@[simp] theorem setRegion_read_graph (s : State) (k : Nat) (x : Region) (u v : Nat) : (s.setRegion k x).graph? u v = s.graph? u v :=
  rfl
@[simp] theorem setRegion_read_actor (s : State) (k : Nat) (x : Region) (u : Nat) : (s.setRegion k x).actor u = s.actor u := rfl
@[simp] theorem setRegion_read_arc (s : State) (k : Nat) (x : Region) (u : Nat) : (s.setRegion k x).arc? u = s.arc? u := rfl
@[simp] theorem setRegion_read_die (s : State) (k : Nat) (x : Region) (u : Nat) : (s.setRegion k x).die u = s.die u := rfl
@[simp] theorem setRegion_read_xlat (s : State) (k : Nat) (x : Region) (u : Nat) : (s.setRegion k x).xlat u = s.xlat u := rfl
@[simp] theorem setRegion_read_link (s : State) (k : Nat) (x : Region) (u : Nat) : (s.setRegion k x).link u = s.link u := rfl

/-! ## `setActor` -/

@[simp] theorem setActor_pcyc (s : State) (k : Nat) (x : Actor) : (s.setActor k x).pcyc = s.pcyc := rfl
@[simp] theorem setActor_master (s : State) (k : Nat) (x : Actor) : (s.setActor k x).master = s.master := rfl
@[simp] theorem setActor_pkgid (s : State) (k : Nat) (x : Actor) : (s.setActor k x).pkgid = s.pkgid := rfl
@[simp] theorem setActor_badDies (s : State) (k : Nat) (x : Actor) : (s.setActor k x).badDies = s.badDies := rfl
@[simp] theorem setActor_badStacks (s : State) (k : Nat) (x : Actor) : (s.setActor k x).badStacks = s.badStacks := rfl
@[simp] theorem setActor_badTier (s : State) (k : Nat) (x : Actor) : (s.setActor k x).badTier = s.badTier := rfl
@[simp] theorem setActor_badDispatcher (s : State) (k : Nat) (x : Actor) : (s.setActor k x).badDispatcher = s.badDispatcher :=
  rfl
@[simp] theorem setActor_badLinks (s : State) (k : Nat) (x : Actor) : (s.setActor k x).badLinks = s.badLinks := rfl
@[simp] theorem setActor_up (s : State) (k : Nat) (x : Actor) : (s.setActor k x).up = s.up := rfl
@[simp] theorem setActor_mem (s : State) (k : Nat) (x : Actor) : (s.setActor k x).mem = s.mem := rfl
@[simp] theorem setActor_peerMem (s : State) (k : Nat) (x : Actor) : (s.setActor k x).peerMem = s.peerMem := rfl
@[simp] theorem setActor_near (s : State) (k : Nat) (x : Actor) : (s.setActor k x).near = s.near := rfl
@[simp] theorem setActor_present (s : State) (k : Nat) (x : Actor) : (s.setActor k x).present = s.present := rfl
@[simp] theorem setActor_tiles (s : State) (k : Nat) (x : Actor) : (s.setActor k x).tiles = s.tiles := rfl
@[simp] theorem setActor_mtiles (s : State) (k : Nat) (x : Actor) : (s.setActor k x).mtiles = s.mtiles := rfl
@[simp] theorem setActor_seqs (s : State) (k : Nat) (x : Actor) : (s.setActor k x).seqs = s.seqs := rfl
@[simp] theorem setActor_ctxs (s : State) (k : Nat) (x : Actor) : (s.setActor k x).ctxs = s.ctxs := rfl
@[simp] theorem setActor_graphs (s : State) (k : Nat) (x : Actor) : (s.setActor k x).graphs = s.graphs := rfl
@[simp] theorem setActor_actors (s : State) (k : Nat) (x : Actor) : (s.setActor k x).actors = mset s.actors k x := rfl
@[simp] theorem setActor_regions (s : State) (k : Nat) (x : Actor) : (s.setActor k x).regions = s.regions := rfl
@[simp] theorem setActor_arcs (s : State) (k : Nat) (x : Actor) : (s.setActor k x).arcs = s.arcs := rfl
@[simp] theorem setActor_ops (s : State) (k : Nat) (x : Actor) : (s.setActor k x).ops = s.ops := rfl
@[simp] theorem setActor_lanes (s : State) (k : Nat) (x : Actor) : (s.setActor k x).lanes = s.lanes := rfl
@[simp] theorem setActor_xlats (s : State) (k : Nat) (x : Actor) : (s.setActor k x).xlats = s.xlats := rfl
@[simp] theorem setActor_dies (s : State) (k : Nat) (x : Actor) : (s.setActor k x).dies = s.dies := rfl
@[simp] theorem setActor_links (s : State) (k : Nat) (x : Actor) : (s.setActor k x).links = s.links := rfl
@[simp] theorem setActor_ranks (s : State) (k : Nat) (x : Actor) : (s.setActor k x).ranks = s.ranks := rfl
@[simp] theorem setActor_rankDown (s : State) (k : Nat) (x : Actor) : (s.setActor k x).rankDown = s.rankDown := rfl
@[simp] theorem setActor_ctxresult (s : State) (k : Nat) (x : Actor) : (s.setActor k x).ctxresult = s.ctxresult := rfl
@[simp] theorem setActor_pkgvec (s : State) (k : Nat) (x : Actor) : (s.setActor k x).pkgvec = s.pkgvec := rfl
@[simp] theorem setActor_events (s : State) (k : Nat) (x : Actor) : (s.setActor k x).events = s.events := rfl
@[simp] theorem setActor_eventsOvf (s : State) (k : Nat) (x : Actor) : (s.setActor k x).eventsOvf = s.eventsOvf := rfl
@[simp] theorem setActor_lastEvent (s : State) (k : Nat) (x : Actor) : (s.setActor k x).lastEvent = s.lastEvent := rfl
@[simp] theorem setActor_msix (s : State) (k : Nat) (x : Actor) : (s.setActor k x).msix = s.msix := rfl
@[simp] theorem setActor_hostRead (s : State) (k : Nat) (x : Actor) : (s.setActor k x).hostRead = s.hostRead := rfl
@[simp] theorem setActor_hostTraps (s : State) (k : Nat) (x : Actor) : (s.setActor k x).hostTraps = s.hostTraps := rfl
@[simp] theorem setActor_images (s : State) (k : Nat) (x : Actor) : (s.setActor k x).images = s.images := rfl
@[simp] theorem setActor_cur (s : State) (k : Nat) (x : Actor) : (s.setActor k x).cur = s.cur := rfl
@[simp] theorem setActor_agenda (s : State) (k : Nat) (x : Actor) : (s.setActor k x).agenda = s.agenda := rfl
@[simp] theorem setActor_todo (s : State) (k : Nat) (x : Actor) : (s.setActor k x).todo = s.todo := rfl
@[simp] theorem setActor_inputs (s : State) (k : Nat) (x : Actor) : (s.setActor k x).inputs = s.inputs := rfl
@[simp] theorem setActor_recordAt (s : State) (k : Nat) (x : Actor) : (s.setActor k x).recordAt = s.recordAt := rfl
@[simp] theorem setActor_freeCount (s : State) (k : Nat) (x : Actor) : (s.setActor k x).freeCount = s.freeCount := rfl
@[simp] theorem setActor_opCount (s : State) (k : Nat) (x : Actor) : (s.setActor k x).opCount = s.opCount := rfl
@[simp] theorem setActor_read_tile (s : State) (k : Nat) (x : Actor) (u : Nat) : (s.setActor k x).tile u = s.tile u := rfl
@[simp] theorem setActor_read_mtile (s : State) (k : Nat) (x : Actor) (u : Nat) : (s.setActor k x).mtile u = s.mtile u := rfl
@[simp] theorem setActor_read_seq (s : State) (k : Nat) (x : Actor) (u : Nat) : (s.setActor k x).seq u = s.seq u := rfl
@[simp] theorem setActor_read_ctx (s : State) (k : Nat) (x : Actor) (u : Nat) : (s.setActor k x).ctx u = s.ctx u := rfl
@[simp] theorem setActor_read_graph (s : State) (k : Nat) (x : Actor) (u v : Nat) : (s.setActor k x).graph? u v = s.graph? u v :=
  rfl
@[simp] theorem setActor_read_regionAt (s : State) (k : Nat) (x : Actor) (u : Nat) : (s.setActor k x).regionAt u = s.regionAt u :=
  rfl
@[simp] theorem setActor_read_arc (s : State) (k : Nat) (x : Actor) (u : Nat) : (s.setActor k x).arc? u = s.arc? u := rfl
@[simp] theorem setActor_read_die (s : State) (k : Nat) (x : Actor) (u : Nat) : (s.setActor k x).die u = s.die u := rfl
@[simp] theorem setActor_read_xlat (s : State) (k : Nat) (x : Actor) (u : Nat) : (s.setActor k x).xlat u = s.xlat u := rfl
@[simp] theorem setActor_read_link (s : State) (k : Nat) (x : Actor) (u : Nat) : (s.setActor k x).link u = s.link u := rfl

/-! ## `setArc` -/

@[simp] theorem setArc_pcyc (s : State) (k : Nat) (x : Arc) : (s.setArc k x).pcyc = s.pcyc := rfl
@[simp] theorem setArc_master (s : State) (k : Nat) (x : Arc) : (s.setArc k x).master = s.master := rfl
@[simp] theorem setArc_pkgid (s : State) (k : Nat) (x : Arc) : (s.setArc k x).pkgid = s.pkgid := rfl
@[simp] theorem setArc_badDies (s : State) (k : Nat) (x : Arc) : (s.setArc k x).badDies = s.badDies := rfl
@[simp] theorem setArc_badStacks (s : State) (k : Nat) (x : Arc) : (s.setArc k x).badStacks = s.badStacks := rfl
@[simp] theorem setArc_badTier (s : State) (k : Nat) (x : Arc) : (s.setArc k x).badTier = s.badTier := rfl
@[simp] theorem setArc_badDispatcher (s : State) (k : Nat) (x : Arc) : (s.setArc k x).badDispatcher = s.badDispatcher := rfl
@[simp] theorem setArc_badLinks (s : State) (k : Nat) (x : Arc) : (s.setArc k x).badLinks = s.badLinks := rfl
@[simp] theorem setArc_up (s : State) (k : Nat) (x : Arc) : (s.setArc k x).up = s.up := rfl
@[simp] theorem setArc_mem (s : State) (k : Nat) (x : Arc) : (s.setArc k x).mem = s.mem := rfl
@[simp] theorem setArc_peerMem (s : State) (k : Nat) (x : Arc) : (s.setArc k x).peerMem = s.peerMem := rfl
@[simp] theorem setArc_near (s : State) (k : Nat) (x : Arc) : (s.setArc k x).near = s.near := rfl
@[simp] theorem setArc_present (s : State) (k : Nat) (x : Arc) : (s.setArc k x).present = s.present := rfl
@[simp] theorem setArc_tiles (s : State) (k : Nat) (x : Arc) : (s.setArc k x).tiles = s.tiles := rfl
@[simp] theorem setArc_mtiles (s : State) (k : Nat) (x : Arc) : (s.setArc k x).mtiles = s.mtiles := rfl
@[simp] theorem setArc_seqs (s : State) (k : Nat) (x : Arc) : (s.setArc k x).seqs = s.seqs := rfl
@[simp] theorem setArc_ctxs (s : State) (k : Nat) (x : Arc) : (s.setArc k x).ctxs = s.ctxs := rfl
@[simp] theorem setArc_graphs (s : State) (k : Nat) (x : Arc) : (s.setArc k x).graphs = s.graphs := rfl
@[simp] theorem setArc_actors (s : State) (k : Nat) (x : Arc) : (s.setArc k x).actors = s.actors := rfl
@[simp] theorem setArc_regions (s : State) (k : Nat) (x : Arc) : (s.setArc k x).regions = s.regions := rfl
@[simp] theorem setArc_arcs (s : State) (k : Nat) (x : Arc) : (s.setArc k x).arcs = mset s.arcs k x := rfl
@[simp] theorem setArc_ops (s : State) (k : Nat) (x : Arc) : (s.setArc k x).ops = s.ops := rfl
@[simp] theorem setArc_lanes (s : State) (k : Nat) (x : Arc) : (s.setArc k x).lanes = s.lanes := rfl
@[simp] theorem setArc_xlats (s : State) (k : Nat) (x : Arc) : (s.setArc k x).xlats = s.xlats := rfl
@[simp] theorem setArc_dies (s : State) (k : Nat) (x : Arc) : (s.setArc k x).dies = s.dies := rfl
@[simp] theorem setArc_links (s : State) (k : Nat) (x : Arc) : (s.setArc k x).links = s.links := rfl
@[simp] theorem setArc_ranks (s : State) (k : Nat) (x : Arc) : (s.setArc k x).ranks = s.ranks := rfl
@[simp] theorem setArc_rankDown (s : State) (k : Nat) (x : Arc) : (s.setArc k x).rankDown = s.rankDown := rfl
@[simp] theorem setArc_ctxresult (s : State) (k : Nat) (x : Arc) : (s.setArc k x).ctxresult = s.ctxresult := rfl
@[simp] theorem setArc_pkgvec (s : State) (k : Nat) (x : Arc) : (s.setArc k x).pkgvec = s.pkgvec := rfl
@[simp] theorem setArc_events (s : State) (k : Nat) (x : Arc) : (s.setArc k x).events = s.events := rfl
@[simp] theorem setArc_eventsOvf (s : State) (k : Nat) (x : Arc) : (s.setArc k x).eventsOvf = s.eventsOvf := rfl
@[simp] theorem setArc_lastEvent (s : State) (k : Nat) (x : Arc) : (s.setArc k x).lastEvent = s.lastEvent := rfl
@[simp] theorem setArc_msix (s : State) (k : Nat) (x : Arc) : (s.setArc k x).msix = s.msix := rfl
@[simp] theorem setArc_hostRead (s : State) (k : Nat) (x : Arc) : (s.setArc k x).hostRead = s.hostRead := rfl
@[simp] theorem setArc_hostTraps (s : State) (k : Nat) (x : Arc) : (s.setArc k x).hostTraps = s.hostTraps := rfl
@[simp] theorem setArc_images (s : State) (k : Nat) (x : Arc) : (s.setArc k x).images = s.images := rfl
@[simp] theorem setArc_cur (s : State) (k : Nat) (x : Arc) : (s.setArc k x).cur = s.cur := rfl
@[simp] theorem setArc_agenda (s : State) (k : Nat) (x : Arc) : (s.setArc k x).agenda = s.agenda := rfl
@[simp] theorem setArc_todo (s : State) (k : Nat) (x : Arc) : (s.setArc k x).todo = s.todo := rfl
@[simp] theorem setArc_inputs (s : State) (k : Nat) (x : Arc) : (s.setArc k x).inputs = s.inputs := rfl
@[simp] theorem setArc_recordAt (s : State) (k : Nat) (x : Arc) : (s.setArc k x).recordAt = s.recordAt := rfl
@[simp] theorem setArc_freeCount (s : State) (k : Nat) (x : Arc) : (s.setArc k x).freeCount = s.freeCount := rfl
@[simp] theorem setArc_opCount (s : State) (k : Nat) (x : Arc) : (s.setArc k x).opCount = s.opCount := rfl
@[simp] theorem setArc_read_tile (s : State) (k : Nat) (x : Arc) (u : Nat) : (s.setArc k x).tile u = s.tile u := rfl
@[simp] theorem setArc_read_mtile (s : State) (k : Nat) (x : Arc) (u : Nat) : (s.setArc k x).mtile u = s.mtile u := rfl
@[simp] theorem setArc_read_seq (s : State) (k : Nat) (x : Arc) (u : Nat) : (s.setArc k x).seq u = s.seq u := rfl
@[simp] theorem setArc_read_ctx (s : State) (k : Nat) (x : Arc) (u : Nat) : (s.setArc k x).ctx u = s.ctx u := rfl
@[simp] theorem setArc_read_graph (s : State) (k : Nat) (x : Arc) (u v : Nat) : (s.setArc k x).graph? u v = s.graph? u v := rfl
@[simp] theorem setArc_read_regionAt (s : State) (k : Nat) (x : Arc) (u : Nat) : (s.setArc k x).regionAt u = s.regionAt u := rfl
@[simp] theorem setArc_read_actor (s : State) (k : Nat) (x : Arc) (u : Nat) : (s.setArc k x).actor u = s.actor u := rfl
@[simp] theorem setArc_read_die (s : State) (k : Nat) (x : Arc) (u : Nat) : (s.setArc k x).die u = s.die u := rfl
@[simp] theorem setArc_read_xlat (s : State) (k : Nat) (x : Arc) (u : Nat) : (s.setArc k x).xlat u = s.xlat u := rfl
@[simp] theorem setArc_read_link (s : State) (k : Nat) (x : Arc) (u : Nat) : (s.setArc k x).link u = s.link u := rfl

/-! ## `setDie` -/

@[simp] theorem setDie_pcyc (s : State) (d : Nat) (x : Die) : (s.setDie d x).pcyc = s.pcyc := rfl
@[simp] theorem setDie_master (s : State) (d : Nat) (x : Die) : (s.setDie d x).master = s.master := rfl
@[simp] theorem setDie_pkgid (s : State) (d : Nat) (x : Die) : (s.setDie d x).pkgid = s.pkgid := rfl
@[simp] theorem setDie_badDies (s : State) (d : Nat) (x : Die) : (s.setDie d x).badDies = s.badDies := rfl
@[simp] theorem setDie_badStacks (s : State) (d : Nat) (x : Die) : (s.setDie d x).badStacks = s.badStacks := rfl
@[simp] theorem setDie_badTier (s : State) (d : Nat) (x : Die) : (s.setDie d x).badTier = s.badTier := rfl
@[simp] theorem setDie_badDispatcher (s : State) (d : Nat) (x : Die) : (s.setDie d x).badDispatcher = s.badDispatcher := rfl
@[simp] theorem setDie_badLinks (s : State) (d : Nat) (x : Die) : (s.setDie d x).badLinks = s.badLinks := rfl
@[simp] theorem setDie_up (s : State) (d : Nat) (x : Die) : (s.setDie d x).up = s.up := rfl
@[simp] theorem setDie_mem (s : State) (d : Nat) (x : Die) : (s.setDie d x).mem = s.mem := rfl
@[simp] theorem setDie_peerMem (s : State) (d : Nat) (x : Die) : (s.setDie d x).peerMem = s.peerMem := rfl
@[simp] theorem setDie_near (s : State) (d : Nat) (x : Die) : (s.setDie d x).near = s.near := rfl
@[simp] theorem setDie_present (s : State) (d : Nat) (x : Die) : (s.setDie d x).present = s.present := rfl
@[simp] theorem setDie_tiles (s : State) (d : Nat) (x : Die) : (s.setDie d x).tiles = s.tiles := rfl
@[simp] theorem setDie_mtiles (s : State) (d : Nat) (x : Die) : (s.setDie d x).mtiles = s.mtiles := rfl
@[simp] theorem setDie_seqs (s : State) (d : Nat) (x : Die) : (s.setDie d x).seqs = s.seqs := rfl
@[simp] theorem setDie_ctxs (s : State) (d : Nat) (x : Die) : (s.setDie d x).ctxs = s.ctxs := rfl
@[simp] theorem setDie_graphs (s : State) (d : Nat) (x : Die) : (s.setDie d x).graphs = s.graphs := rfl
@[simp] theorem setDie_actors (s : State) (d : Nat) (x : Die) : (s.setDie d x).actors = s.actors := rfl
@[simp] theorem setDie_regions (s : State) (d : Nat) (x : Die) : (s.setDie d x).regions = s.regions := rfl
@[simp] theorem setDie_arcs (s : State) (d : Nat) (x : Die) : (s.setDie d x).arcs = s.arcs := rfl
@[simp] theorem setDie_ops (s : State) (d : Nat) (x : Die) : (s.setDie d x).ops = s.ops := rfl
@[simp] theorem setDie_lanes (s : State) (d : Nat) (x : Die) : (s.setDie d x).lanes = s.lanes := rfl
@[simp] theorem setDie_xlats (s : State) (d : Nat) (x : Die) : (s.setDie d x).xlats = s.xlats := rfl
@[simp] theorem setDie_dies (s : State) (d : Nat) (x : Die) : (s.setDie d x).dies = mset s.dies d x := rfl
@[simp] theorem setDie_links (s : State) (d : Nat) (x : Die) : (s.setDie d x).links = s.links := rfl
@[simp] theorem setDie_ranks (s : State) (d : Nat) (x : Die) : (s.setDie d x).ranks = s.ranks := rfl
@[simp] theorem setDie_rankDown (s : State) (d : Nat) (x : Die) : (s.setDie d x).rankDown = s.rankDown := rfl
@[simp] theorem setDie_ctxresult (s : State) (d : Nat) (x : Die) : (s.setDie d x).ctxresult = s.ctxresult := rfl
@[simp] theorem setDie_pkgvec (s : State) (d : Nat) (x : Die) : (s.setDie d x).pkgvec = s.pkgvec := rfl
@[simp] theorem setDie_events (s : State) (d : Nat) (x : Die) : (s.setDie d x).events = s.events := rfl
@[simp] theorem setDie_eventsOvf (s : State) (d : Nat) (x : Die) : (s.setDie d x).eventsOvf = s.eventsOvf := rfl
@[simp] theorem setDie_lastEvent (s : State) (d : Nat) (x : Die) : (s.setDie d x).lastEvent = s.lastEvent := rfl
@[simp] theorem setDie_msix (s : State) (d : Nat) (x : Die) : (s.setDie d x).msix = s.msix := rfl
@[simp] theorem setDie_hostRead (s : State) (d : Nat) (x : Die) : (s.setDie d x).hostRead = s.hostRead := rfl
@[simp] theorem setDie_hostTraps (s : State) (d : Nat) (x : Die) : (s.setDie d x).hostTraps = s.hostTraps := rfl
@[simp] theorem setDie_images (s : State) (d : Nat) (x : Die) : (s.setDie d x).images = s.images := rfl
@[simp] theorem setDie_cur (s : State) (d : Nat) (x : Die) : (s.setDie d x).cur = s.cur := rfl
@[simp] theorem setDie_agenda (s : State) (d : Nat) (x : Die) : (s.setDie d x).agenda = s.agenda := rfl
@[simp] theorem setDie_todo (s : State) (d : Nat) (x : Die) : (s.setDie d x).todo = s.todo := rfl
@[simp] theorem setDie_inputs (s : State) (d : Nat) (x : Die) : (s.setDie d x).inputs = s.inputs := rfl
@[simp] theorem setDie_recordAt (s : State) (d : Nat) (x : Die) : (s.setDie d x).recordAt = s.recordAt := rfl
@[simp] theorem setDie_freeCount (s : State) (d : Nat) (x : Die) : (s.setDie d x).freeCount = s.freeCount := rfl
@[simp] theorem setDie_opCount (s : State) (d : Nat) (x : Die) : (s.setDie d x).opCount = s.opCount := rfl
@[simp] theorem setDie_read_tile (s : State) (d : Nat) (x : Die) (u : Nat) : (s.setDie d x).tile u = s.tile u := rfl
@[simp] theorem setDie_read_mtile (s : State) (d : Nat) (x : Die) (u : Nat) : (s.setDie d x).mtile u = s.mtile u := rfl
@[simp] theorem setDie_read_seq (s : State) (d : Nat) (x : Die) (u : Nat) : (s.setDie d x).seq u = s.seq u := rfl
@[simp] theorem setDie_read_ctx (s : State) (d : Nat) (x : Die) (u : Nat) : (s.setDie d x).ctx u = s.ctx u := rfl
@[simp] theorem setDie_read_graph (s : State) (d : Nat) (x : Die) (u v : Nat) : (s.setDie d x).graph? u v = s.graph? u v := rfl
@[simp] theorem setDie_read_regionAt (s : State) (d : Nat) (x : Die) (u : Nat) : (s.setDie d x).regionAt u = s.regionAt u := rfl
@[simp] theorem setDie_read_actor (s : State) (d : Nat) (x : Die) (u : Nat) : (s.setDie d x).actor u = s.actor u := rfl
@[simp] theorem setDie_read_arc (s : State) (d : Nat) (x : Die) (u : Nat) : (s.setDie d x).arc? u = s.arc? u := rfl
@[simp] theorem setDie_read_xlat (s : State) (d : Nat) (x : Die) (u : Nat) : (s.setDie d x).xlat u = s.xlat u := rfl
@[simp] theorem setDie_read_link (s : State) (d : Nat) (x : Die) (u : Nat) : (s.setDie d x).link u = s.link u := rfl

/-! ## `setXlat` -/

@[simp] theorem setXlat_pcyc (s : State) (d : Nat) (x : Xlat) : (s.setXlat d x).pcyc = s.pcyc := rfl
@[simp] theorem setXlat_master (s : State) (d : Nat) (x : Xlat) : (s.setXlat d x).master = s.master := rfl
@[simp] theorem setXlat_pkgid (s : State) (d : Nat) (x : Xlat) : (s.setXlat d x).pkgid = s.pkgid := rfl
@[simp] theorem setXlat_badDies (s : State) (d : Nat) (x : Xlat) : (s.setXlat d x).badDies = s.badDies := rfl
@[simp] theorem setXlat_badStacks (s : State) (d : Nat) (x : Xlat) : (s.setXlat d x).badStacks = s.badStacks := rfl
@[simp] theorem setXlat_badTier (s : State) (d : Nat) (x : Xlat) : (s.setXlat d x).badTier = s.badTier := rfl
@[simp] theorem setXlat_badDispatcher (s : State) (d : Nat) (x : Xlat) : (s.setXlat d x).badDispatcher = s.badDispatcher := rfl
@[simp] theorem setXlat_badLinks (s : State) (d : Nat) (x : Xlat) : (s.setXlat d x).badLinks = s.badLinks := rfl
@[simp] theorem setXlat_up (s : State) (d : Nat) (x : Xlat) : (s.setXlat d x).up = s.up := rfl
@[simp] theorem setXlat_mem (s : State) (d : Nat) (x : Xlat) : (s.setXlat d x).mem = s.mem := rfl
@[simp] theorem setXlat_peerMem (s : State) (d : Nat) (x : Xlat) : (s.setXlat d x).peerMem = s.peerMem := rfl
@[simp] theorem setXlat_near (s : State) (d : Nat) (x : Xlat) : (s.setXlat d x).near = s.near := rfl
@[simp] theorem setXlat_present (s : State) (d : Nat) (x : Xlat) : (s.setXlat d x).present = s.present := rfl
@[simp] theorem setXlat_tiles (s : State) (d : Nat) (x : Xlat) : (s.setXlat d x).tiles = s.tiles := rfl
@[simp] theorem setXlat_mtiles (s : State) (d : Nat) (x : Xlat) : (s.setXlat d x).mtiles = s.mtiles := rfl
@[simp] theorem setXlat_seqs (s : State) (d : Nat) (x : Xlat) : (s.setXlat d x).seqs = s.seqs := rfl
@[simp] theorem setXlat_ctxs (s : State) (d : Nat) (x : Xlat) : (s.setXlat d x).ctxs = s.ctxs := rfl
@[simp] theorem setXlat_graphs (s : State) (d : Nat) (x : Xlat) : (s.setXlat d x).graphs = s.graphs := rfl
@[simp] theorem setXlat_actors (s : State) (d : Nat) (x : Xlat) : (s.setXlat d x).actors = s.actors := rfl
@[simp] theorem setXlat_regions (s : State) (d : Nat) (x : Xlat) : (s.setXlat d x).regions = s.regions := rfl
@[simp] theorem setXlat_arcs (s : State) (d : Nat) (x : Xlat) : (s.setXlat d x).arcs = s.arcs := rfl
@[simp] theorem setXlat_ops (s : State) (d : Nat) (x : Xlat) : (s.setXlat d x).ops = s.ops := rfl
@[simp] theorem setXlat_lanes (s : State) (d : Nat) (x : Xlat) : (s.setXlat d x).lanes = s.lanes := rfl
@[simp] theorem setXlat_xlats (s : State) (d : Nat) (x : Xlat) : (s.setXlat d x).xlats = mset s.xlats d x := rfl
@[simp] theorem setXlat_dies (s : State) (d : Nat) (x : Xlat) : (s.setXlat d x).dies = s.dies := rfl
@[simp] theorem setXlat_links (s : State) (d : Nat) (x : Xlat) : (s.setXlat d x).links = s.links := rfl
@[simp] theorem setXlat_ranks (s : State) (d : Nat) (x : Xlat) : (s.setXlat d x).ranks = s.ranks := rfl
@[simp] theorem setXlat_rankDown (s : State) (d : Nat) (x : Xlat) : (s.setXlat d x).rankDown = s.rankDown := rfl
@[simp] theorem setXlat_ctxresult (s : State) (d : Nat) (x : Xlat) : (s.setXlat d x).ctxresult = s.ctxresult := rfl
@[simp] theorem setXlat_pkgvec (s : State) (d : Nat) (x : Xlat) : (s.setXlat d x).pkgvec = s.pkgvec := rfl
@[simp] theorem setXlat_events (s : State) (d : Nat) (x : Xlat) : (s.setXlat d x).events = s.events := rfl
@[simp] theorem setXlat_eventsOvf (s : State) (d : Nat) (x : Xlat) : (s.setXlat d x).eventsOvf = s.eventsOvf := rfl
@[simp] theorem setXlat_lastEvent (s : State) (d : Nat) (x : Xlat) : (s.setXlat d x).lastEvent = s.lastEvent := rfl
@[simp] theorem setXlat_msix (s : State) (d : Nat) (x : Xlat) : (s.setXlat d x).msix = s.msix := rfl
@[simp] theorem setXlat_hostRead (s : State) (d : Nat) (x : Xlat) : (s.setXlat d x).hostRead = s.hostRead := rfl
@[simp] theorem setXlat_hostTraps (s : State) (d : Nat) (x : Xlat) : (s.setXlat d x).hostTraps = s.hostTraps := rfl
@[simp] theorem setXlat_images (s : State) (d : Nat) (x : Xlat) : (s.setXlat d x).images = s.images := rfl
@[simp] theorem setXlat_cur (s : State) (d : Nat) (x : Xlat) : (s.setXlat d x).cur = s.cur := rfl
@[simp] theorem setXlat_agenda (s : State) (d : Nat) (x : Xlat) : (s.setXlat d x).agenda = s.agenda := rfl
@[simp] theorem setXlat_todo (s : State) (d : Nat) (x : Xlat) : (s.setXlat d x).todo = s.todo := rfl
@[simp] theorem setXlat_inputs (s : State) (d : Nat) (x : Xlat) : (s.setXlat d x).inputs = s.inputs := rfl
@[simp] theorem setXlat_recordAt (s : State) (d : Nat) (x : Xlat) : (s.setXlat d x).recordAt = s.recordAt := rfl
@[simp] theorem setXlat_freeCount (s : State) (d : Nat) (x : Xlat) : (s.setXlat d x).freeCount = s.freeCount := rfl
@[simp] theorem setXlat_opCount (s : State) (d : Nat) (x : Xlat) : (s.setXlat d x).opCount = s.opCount := rfl
@[simp] theorem setXlat_read_tile (s : State) (d : Nat) (x : Xlat) (u : Nat) : (s.setXlat d x).tile u = s.tile u := rfl
@[simp] theorem setXlat_read_mtile (s : State) (d : Nat) (x : Xlat) (u : Nat) : (s.setXlat d x).mtile u = s.mtile u := rfl
@[simp] theorem setXlat_read_seq (s : State) (d : Nat) (x : Xlat) (u : Nat) : (s.setXlat d x).seq u = s.seq u := rfl
@[simp] theorem setXlat_read_ctx (s : State) (d : Nat) (x : Xlat) (u : Nat) : (s.setXlat d x).ctx u = s.ctx u := rfl
@[simp] theorem setXlat_read_graph (s : State) (d : Nat) (x : Xlat) (u v : Nat) : (s.setXlat d x).graph? u v = s.graph? u v :=
  rfl
@[simp] theorem setXlat_read_regionAt (s : State) (d : Nat) (x : Xlat) (u : Nat) : (s.setXlat d x).regionAt u = s.regionAt u :=
  rfl
@[simp] theorem setXlat_read_actor (s : State) (d : Nat) (x : Xlat) (u : Nat) : (s.setXlat d x).actor u = s.actor u := rfl
@[simp] theorem setXlat_read_arc (s : State) (d : Nat) (x : Xlat) (u : Nat) : (s.setXlat d x).arc? u = s.arc? u := rfl
@[simp] theorem setXlat_read_die (s : State) (d : Nat) (x : Xlat) (u : Nat) : (s.setXlat d x).die u = s.die u := rfl
@[simp] theorem setXlat_read_link (s : State) (d : Nat) (x : Xlat) (u : Nat) : (s.setXlat d x).link u = s.link u := rfl

/-! ## `setLink` -/

@[simp] theorem setLink_pcyc (s : State) (n : Nat) (x : Link) : (s.setLink n x).pcyc = s.pcyc := rfl
@[simp] theorem setLink_master (s : State) (n : Nat) (x : Link) : (s.setLink n x).master = s.master := rfl
@[simp] theorem setLink_pkgid (s : State) (n : Nat) (x : Link) : (s.setLink n x).pkgid = s.pkgid := rfl
@[simp] theorem setLink_badDies (s : State) (n : Nat) (x : Link) : (s.setLink n x).badDies = s.badDies := rfl
@[simp] theorem setLink_badStacks (s : State) (n : Nat) (x : Link) : (s.setLink n x).badStacks = s.badStacks := rfl
@[simp] theorem setLink_badTier (s : State) (n : Nat) (x : Link) : (s.setLink n x).badTier = s.badTier := rfl
@[simp] theorem setLink_badDispatcher (s : State) (n : Nat) (x : Link) : (s.setLink n x).badDispatcher = s.badDispatcher := rfl
@[simp] theorem setLink_badLinks (s : State) (n : Nat) (x : Link) : (s.setLink n x).badLinks = s.badLinks := rfl
@[simp] theorem setLink_up (s : State) (n : Nat) (x : Link) : (s.setLink n x).up = s.up := rfl
@[simp] theorem setLink_mem (s : State) (n : Nat) (x : Link) : (s.setLink n x).mem = s.mem := rfl
@[simp] theorem setLink_peerMem (s : State) (n : Nat) (x : Link) : (s.setLink n x).peerMem = s.peerMem := rfl
@[simp] theorem setLink_near (s : State) (n : Nat) (x : Link) : (s.setLink n x).near = s.near := rfl
@[simp] theorem setLink_present (s : State) (n : Nat) (x : Link) : (s.setLink n x).present = s.present := rfl
@[simp] theorem setLink_tiles (s : State) (n : Nat) (x : Link) : (s.setLink n x).tiles = s.tiles := rfl
@[simp] theorem setLink_mtiles (s : State) (n : Nat) (x : Link) : (s.setLink n x).mtiles = s.mtiles := rfl
@[simp] theorem setLink_seqs (s : State) (n : Nat) (x : Link) : (s.setLink n x).seqs = s.seqs := rfl
@[simp] theorem setLink_ctxs (s : State) (n : Nat) (x : Link) : (s.setLink n x).ctxs = s.ctxs := rfl
@[simp] theorem setLink_graphs (s : State) (n : Nat) (x : Link) : (s.setLink n x).graphs = s.graphs := rfl
@[simp] theorem setLink_actors (s : State) (n : Nat) (x : Link) : (s.setLink n x).actors = s.actors := rfl
@[simp] theorem setLink_regions (s : State) (n : Nat) (x : Link) : (s.setLink n x).regions = s.regions := rfl
@[simp] theorem setLink_arcs (s : State) (n : Nat) (x : Link) : (s.setLink n x).arcs = s.arcs := rfl
@[simp] theorem setLink_ops (s : State) (n : Nat) (x : Link) : (s.setLink n x).ops = s.ops := rfl
@[simp] theorem setLink_lanes (s : State) (n : Nat) (x : Link) : (s.setLink n x).lanes = s.lanes := rfl
@[simp] theorem setLink_xlats (s : State) (n : Nat) (x : Link) : (s.setLink n x).xlats = s.xlats := rfl
@[simp] theorem setLink_dies (s : State) (n : Nat) (x : Link) : (s.setLink n x).dies = s.dies := rfl
@[simp] theorem setLink_links (s : State) (n : Nat) (x : Link) : (s.setLink n x).links = mset s.links n x := rfl
@[simp] theorem setLink_ranks (s : State) (n : Nat) (x : Link) : (s.setLink n x).ranks = s.ranks := rfl
@[simp] theorem setLink_rankDown (s : State) (n : Nat) (x : Link) : (s.setLink n x).rankDown = s.rankDown := rfl
@[simp] theorem setLink_ctxresult (s : State) (n : Nat) (x : Link) : (s.setLink n x).ctxresult = s.ctxresult := rfl
@[simp] theorem setLink_pkgvec (s : State) (n : Nat) (x : Link) : (s.setLink n x).pkgvec = s.pkgvec := rfl
@[simp] theorem setLink_events (s : State) (n : Nat) (x : Link) : (s.setLink n x).events = s.events := rfl
@[simp] theorem setLink_eventsOvf (s : State) (n : Nat) (x : Link) : (s.setLink n x).eventsOvf = s.eventsOvf := rfl
@[simp] theorem setLink_lastEvent (s : State) (n : Nat) (x : Link) : (s.setLink n x).lastEvent = s.lastEvent := rfl
@[simp] theorem setLink_msix (s : State) (n : Nat) (x : Link) : (s.setLink n x).msix = s.msix := rfl
@[simp] theorem setLink_hostRead (s : State) (n : Nat) (x : Link) : (s.setLink n x).hostRead = s.hostRead := rfl
@[simp] theorem setLink_hostTraps (s : State) (n : Nat) (x : Link) : (s.setLink n x).hostTraps = s.hostTraps := rfl
@[simp] theorem setLink_images (s : State) (n : Nat) (x : Link) : (s.setLink n x).images = s.images := rfl
@[simp] theorem setLink_cur (s : State) (n : Nat) (x : Link) : (s.setLink n x).cur = s.cur := rfl
@[simp] theorem setLink_agenda (s : State) (n : Nat) (x : Link) : (s.setLink n x).agenda = s.agenda := rfl
@[simp] theorem setLink_todo (s : State) (n : Nat) (x : Link) : (s.setLink n x).todo = s.todo := rfl
@[simp] theorem setLink_inputs (s : State) (n : Nat) (x : Link) : (s.setLink n x).inputs = s.inputs := rfl
@[simp] theorem setLink_recordAt (s : State) (n : Nat) (x : Link) : (s.setLink n x).recordAt = s.recordAt := rfl
@[simp] theorem setLink_freeCount (s : State) (n : Nat) (x : Link) : (s.setLink n x).freeCount = s.freeCount := rfl
@[simp] theorem setLink_opCount (s : State) (n : Nat) (x : Link) : (s.setLink n x).opCount = s.opCount := rfl
@[simp] theorem setLink_read_tile (s : State) (n : Nat) (x : Link) (u : Nat) : (s.setLink n x).tile u = s.tile u := rfl
@[simp] theorem setLink_read_mtile (s : State) (n : Nat) (x : Link) (u : Nat) : (s.setLink n x).mtile u = s.mtile u := rfl
@[simp] theorem setLink_read_seq (s : State) (n : Nat) (x : Link) (u : Nat) : (s.setLink n x).seq u = s.seq u := rfl
@[simp] theorem setLink_read_ctx (s : State) (n : Nat) (x : Link) (u : Nat) : (s.setLink n x).ctx u = s.ctx u := rfl
@[simp] theorem setLink_read_graph (s : State) (n : Nat) (x : Link) (u v : Nat) : (s.setLink n x).graph? u v = s.graph? u v :=
  rfl
@[simp] theorem setLink_read_regionAt (s : State) (n : Nat) (x : Link) (u : Nat) : (s.setLink n x).regionAt u = s.regionAt u :=
  rfl
@[simp] theorem setLink_read_actor (s : State) (n : Nat) (x : Link) (u : Nat) : (s.setLink n x).actor u = s.actor u := rfl
@[simp] theorem setLink_read_arc (s : State) (n : Nat) (x : Link) (u : Nat) : (s.setLink n x).arc? u = s.arc? u := rfl
@[simp] theorem setLink_read_die (s : State) (n : Nat) (x : Link) (u : Nat) : (s.setLink n x).die u = s.die u := rfl
@[simp] theorem setLink_read_xlat (s : State) (n : Nat) (x : Link) (u : Nat) : (s.setLink n x).xlat u = s.xlat u := rfl

/-! ## `updSeq` -/

@[simp] theorem updSeq_pcyc (s : State) (n : Nat) (f : Seq → Seq) : (s.updSeq n f).pcyc = s.pcyc := rfl
@[simp] theorem updSeq_master (s : State) (n : Nat) (f : Seq → Seq) : (s.updSeq n f).master = s.master := rfl
@[simp] theorem updSeq_pkgid (s : State) (n : Nat) (f : Seq → Seq) : (s.updSeq n f).pkgid = s.pkgid := rfl
@[simp] theorem updSeq_badDies (s : State) (n : Nat) (f : Seq → Seq) : (s.updSeq n f).badDies = s.badDies := rfl
@[simp] theorem updSeq_badStacks (s : State) (n : Nat) (f : Seq → Seq) : (s.updSeq n f).badStacks = s.badStacks := rfl
@[simp] theorem updSeq_badTier (s : State) (n : Nat) (f : Seq → Seq) : (s.updSeq n f).badTier = s.badTier := rfl
@[simp] theorem updSeq_badDispatcher (s : State) (n : Nat) (f : Seq → Seq) : (s.updSeq n f).badDispatcher = s.badDispatcher :=
  rfl
@[simp] theorem updSeq_badLinks (s : State) (n : Nat) (f : Seq → Seq) : (s.updSeq n f).badLinks = s.badLinks := rfl
@[simp] theorem updSeq_up (s : State) (n : Nat) (f : Seq → Seq) : (s.updSeq n f).up = s.up := rfl
@[simp] theorem updSeq_mem (s : State) (n : Nat) (f : Seq → Seq) : (s.updSeq n f).mem = s.mem := rfl
@[simp] theorem updSeq_peerMem (s : State) (n : Nat) (f : Seq → Seq) : (s.updSeq n f).peerMem = s.peerMem := rfl
@[simp] theorem updSeq_near (s : State) (n : Nat) (f : Seq → Seq) : (s.updSeq n f).near = s.near := rfl
@[simp] theorem updSeq_present (s : State) (n : Nat) (f : Seq → Seq) : (s.updSeq n f).present = s.present := rfl
@[simp] theorem updSeq_tiles (s : State) (n : Nat) (f : Seq → Seq) : (s.updSeq n f).tiles = s.tiles := rfl
@[simp] theorem updSeq_mtiles (s : State) (n : Nat) (f : Seq → Seq) : (s.updSeq n f).mtiles = s.mtiles := rfl
@[simp] theorem updSeq_seqs (s : State) (n : Nat) (f : Seq → Seq) : (s.updSeq n f).seqs = mset s.seqs n (f (s.seq n)) := rfl
@[simp] theorem updSeq_ctxs (s : State) (n : Nat) (f : Seq → Seq) : (s.updSeq n f).ctxs = s.ctxs := rfl
@[simp] theorem updSeq_graphs (s : State) (n : Nat) (f : Seq → Seq) : (s.updSeq n f).graphs = s.graphs := rfl
@[simp] theorem updSeq_actors (s : State) (n : Nat) (f : Seq → Seq) : (s.updSeq n f).actors = s.actors := rfl
@[simp] theorem updSeq_regions (s : State) (n : Nat) (f : Seq → Seq) : (s.updSeq n f).regions = s.regions := rfl
@[simp] theorem updSeq_arcs (s : State) (n : Nat) (f : Seq → Seq) : (s.updSeq n f).arcs = s.arcs := rfl
@[simp] theorem updSeq_ops (s : State) (n : Nat) (f : Seq → Seq) : (s.updSeq n f).ops = s.ops := rfl
@[simp] theorem updSeq_lanes (s : State) (n : Nat) (f : Seq → Seq) : (s.updSeq n f).lanes = s.lanes := rfl
@[simp] theorem updSeq_xlats (s : State) (n : Nat) (f : Seq → Seq) : (s.updSeq n f).xlats = s.xlats := rfl
@[simp] theorem updSeq_dies (s : State) (n : Nat) (f : Seq → Seq) : (s.updSeq n f).dies = s.dies := rfl
@[simp] theorem updSeq_links (s : State) (n : Nat) (f : Seq → Seq) : (s.updSeq n f).links = s.links := rfl
@[simp] theorem updSeq_ranks (s : State) (n : Nat) (f : Seq → Seq) : (s.updSeq n f).ranks = s.ranks := rfl
@[simp] theorem updSeq_rankDown (s : State) (n : Nat) (f : Seq → Seq) : (s.updSeq n f).rankDown = s.rankDown := rfl
@[simp] theorem updSeq_ctxresult (s : State) (n : Nat) (f : Seq → Seq) : (s.updSeq n f).ctxresult = s.ctxresult := rfl
@[simp] theorem updSeq_pkgvec (s : State) (n : Nat) (f : Seq → Seq) : (s.updSeq n f).pkgvec = s.pkgvec := rfl
@[simp] theorem updSeq_events (s : State) (n : Nat) (f : Seq → Seq) : (s.updSeq n f).events = s.events := rfl
@[simp] theorem updSeq_eventsOvf (s : State) (n : Nat) (f : Seq → Seq) : (s.updSeq n f).eventsOvf = s.eventsOvf := rfl
@[simp] theorem updSeq_lastEvent (s : State) (n : Nat) (f : Seq → Seq) : (s.updSeq n f).lastEvent = s.lastEvent := rfl
@[simp] theorem updSeq_msix (s : State) (n : Nat) (f : Seq → Seq) : (s.updSeq n f).msix = s.msix := rfl
@[simp] theorem updSeq_hostRead (s : State) (n : Nat) (f : Seq → Seq) : (s.updSeq n f).hostRead = s.hostRead := rfl
@[simp] theorem updSeq_hostTraps (s : State) (n : Nat) (f : Seq → Seq) : (s.updSeq n f).hostTraps = s.hostTraps := rfl
@[simp] theorem updSeq_images (s : State) (n : Nat) (f : Seq → Seq) : (s.updSeq n f).images = s.images := rfl
@[simp] theorem updSeq_cur (s : State) (n : Nat) (f : Seq → Seq) : (s.updSeq n f).cur = s.cur := rfl
@[simp] theorem updSeq_agenda (s : State) (n : Nat) (f : Seq → Seq) : (s.updSeq n f).agenda = s.agenda := rfl
@[simp] theorem updSeq_todo (s : State) (n : Nat) (f : Seq → Seq) : (s.updSeq n f).todo = s.todo := rfl
@[simp] theorem updSeq_inputs (s : State) (n : Nat) (f : Seq → Seq) : (s.updSeq n f).inputs = s.inputs := rfl
@[simp] theorem updSeq_recordAt (s : State) (n : Nat) (f : Seq → Seq) : (s.updSeq n f).recordAt = s.recordAt := rfl
@[simp] theorem updSeq_freeCount (s : State) (n : Nat) (f : Seq → Seq) : (s.updSeq n f).freeCount = s.freeCount := rfl
@[simp] theorem updSeq_opCount (s : State) (n : Nat) (f : Seq → Seq) : (s.updSeq n f).opCount = s.opCount := rfl
@[simp] theorem updSeq_read_tile (s : State) (n : Nat) (f : Seq → Seq) (u : Nat) : (s.updSeq n f).tile u = s.tile u := rfl
@[simp] theorem updSeq_read_mtile (s : State) (n : Nat) (f : Seq → Seq) (u : Nat) : (s.updSeq n f).mtile u = s.mtile u := rfl
@[simp] theorem updSeq_read_ctx (s : State) (n : Nat) (f : Seq → Seq) (u : Nat) : (s.updSeq n f).ctx u = s.ctx u := rfl
@[simp] theorem updSeq_read_graph (s : State) (n : Nat) (f : Seq → Seq) (u v : Nat) : (s.updSeq n f).graph? u v = s.graph? u v :=
  rfl
@[simp] theorem updSeq_read_regionAt (s : State) (n : Nat) (f : Seq → Seq) (u : Nat) : (s.updSeq n f).regionAt u = s.regionAt u :=
  rfl
@[simp] theorem updSeq_read_actor (s : State) (n : Nat) (f : Seq → Seq) (u : Nat) : (s.updSeq n f).actor u = s.actor u := rfl
@[simp] theorem updSeq_read_arc (s : State) (n : Nat) (f : Seq → Seq) (u : Nat) : (s.updSeq n f).arc? u = s.arc? u := rfl
@[simp] theorem updSeq_read_die (s : State) (n : Nat) (f : Seq → Seq) (u : Nat) : (s.updSeq n f).die u = s.die u := rfl
@[simp] theorem updSeq_read_xlat (s : State) (n : Nat) (f : Seq → Seq) (u : Nat) : (s.updSeq n f).xlat u = s.xlat u := rfl
@[simp] theorem updSeq_read_link (s : State) (n : Nat) (f : Seq → Seq) (u : Nat) : (s.updSeq n f).link u = s.link u := rfl

/-! ## `after` -/

@[simp] theorem after_pcyc (s : State) (delay : Nat) (i : Instr) : (s.after delay i).pcyc = s.pcyc := rfl
@[simp] theorem after_master (s : State) (delay : Nat) (i : Instr) : (s.after delay i).master = s.master := rfl
@[simp] theorem after_pkgid (s : State) (delay : Nat) (i : Instr) : (s.after delay i).pkgid = s.pkgid := rfl
@[simp] theorem after_badDies (s : State) (delay : Nat) (i : Instr) : (s.after delay i).badDies = s.badDies := rfl
@[simp] theorem after_badStacks (s : State) (delay : Nat) (i : Instr) : (s.after delay i).badStacks = s.badStacks := rfl
@[simp] theorem after_badTier (s : State) (delay : Nat) (i : Instr) : (s.after delay i).badTier = s.badTier := rfl
@[simp] theorem after_badDispatcher (s : State) (delay : Nat) (i : Instr) : (s.after delay i).badDispatcher = s.badDispatcher :=
  rfl
@[simp] theorem after_badLinks (s : State) (delay : Nat) (i : Instr) : (s.after delay i).badLinks = s.badLinks := rfl
@[simp] theorem after_up (s : State) (delay : Nat) (i : Instr) : (s.after delay i).up = s.up := rfl
@[simp] theorem after_mem (s : State) (delay : Nat) (i : Instr) : (s.after delay i).mem = s.mem := rfl
@[simp] theorem after_peerMem (s : State) (delay : Nat) (i : Instr) : (s.after delay i).peerMem = s.peerMem := rfl
@[simp] theorem after_near (s : State) (delay : Nat) (i : Instr) : (s.after delay i).near = s.near := rfl
@[simp] theorem after_present (s : State) (delay : Nat) (i : Instr) : (s.after delay i).present = s.present := rfl
@[simp] theorem after_tiles (s : State) (delay : Nat) (i : Instr) : (s.after delay i).tiles = s.tiles := rfl
@[simp] theorem after_mtiles (s : State) (delay : Nat) (i : Instr) : (s.after delay i).mtiles = s.mtiles := rfl
@[simp] theorem after_seqs (s : State) (delay : Nat) (i : Instr) : (s.after delay i).seqs = s.seqs := rfl
@[simp] theorem after_ctxs (s : State) (delay : Nat) (i : Instr) : (s.after delay i).ctxs = s.ctxs := rfl
@[simp] theorem after_graphs (s : State) (delay : Nat) (i : Instr) : (s.after delay i).graphs = s.graphs := rfl
@[simp] theorem after_actors (s : State) (delay : Nat) (i : Instr) : (s.after delay i).actors = s.actors := rfl
@[simp] theorem after_regions (s : State) (delay : Nat) (i : Instr) : (s.after delay i).regions = s.regions := rfl
@[simp] theorem after_arcs (s : State) (delay : Nat) (i : Instr) : (s.after delay i).arcs = s.arcs := rfl
@[simp] theorem after_ops (s : State) (delay : Nat) (i : Instr) : (s.after delay i).ops = s.ops := rfl
@[simp] theorem after_lanes (s : State) (delay : Nat) (i : Instr) : (s.after delay i).lanes = s.lanes := rfl
@[simp] theorem after_xlats (s : State) (delay : Nat) (i : Instr) : (s.after delay i).xlats = s.xlats := rfl
@[simp] theorem after_dies (s : State) (delay : Nat) (i : Instr) : (s.after delay i).dies = s.dies := rfl
@[simp] theorem after_links (s : State) (delay : Nat) (i : Instr) : (s.after delay i).links = s.links := rfl
@[simp] theorem after_ranks (s : State) (delay : Nat) (i : Instr) : (s.after delay i).ranks = s.ranks := rfl
@[simp] theorem after_rankDown (s : State) (delay : Nat) (i : Instr) : (s.after delay i).rankDown = s.rankDown := rfl
@[simp] theorem after_ctxresult (s : State) (delay : Nat) (i : Instr) : (s.after delay i).ctxresult = s.ctxresult := rfl
@[simp] theorem after_pkgvec (s : State) (delay : Nat) (i : Instr) : (s.after delay i).pkgvec = s.pkgvec := rfl
@[simp] theorem after_events (s : State) (delay : Nat) (i : Instr) : (s.after delay i).events = s.events := rfl
@[simp] theorem after_eventsOvf (s : State) (delay : Nat) (i : Instr) : (s.after delay i).eventsOvf = s.eventsOvf := rfl
@[simp] theorem after_lastEvent (s : State) (delay : Nat) (i : Instr) : (s.after delay i).lastEvent = s.lastEvent := rfl
@[simp] theorem after_msix (s : State) (delay : Nat) (i : Instr) : (s.after delay i).msix = s.msix := rfl
@[simp] theorem after_hostRead (s : State) (delay : Nat) (i : Instr) : (s.after delay i).hostRead = s.hostRead := rfl
@[simp] theorem after_hostTraps (s : State) (delay : Nat) (i : Instr) : (s.after delay i).hostTraps = s.hostTraps := rfl
@[simp] theorem after_images (s : State) (delay : Nat) (i : Instr) : (s.after delay i).images = s.images := rfl
@[simp] theorem after_cur (s : State) (delay : Nat) (i : Instr) : (s.after delay i).cur = s.cur := rfl
@[simp] theorem after_agenda (s : State) (delay : Nat) (i : Instr) : (s.after delay i).agenda = s.agenda ++ [(s.pcyc + delay, i)] :=
  rfl
@[simp] theorem after_todo (s : State) (delay : Nat) (i : Instr) : (s.after delay i).todo = s.todo := rfl
@[simp] theorem after_inputs (s : State) (delay : Nat) (i : Instr) : (s.after delay i).inputs = s.inputs := rfl
@[simp] theorem after_recordAt (s : State) (delay : Nat) (i : Instr) : (s.after delay i).recordAt = s.recordAt := rfl
@[simp] theorem after_freeCount (s : State) (delay : Nat) (i : Instr) : (s.after delay i).freeCount = s.freeCount := rfl
@[simp] theorem after_opCount (s : State) (delay : Nat) (i : Instr) : (s.after delay i).opCount = s.opCount := rfl
@[simp] theorem after_read_tile (s : State) (delay : Nat) (i : Instr) (u : Nat) : (s.after delay i).tile u = s.tile u := rfl
@[simp] theorem after_read_mtile (s : State) (delay : Nat) (i : Instr) (u : Nat) : (s.after delay i).mtile u = s.mtile u := rfl
@[simp] theorem after_read_seq (s : State) (delay : Nat) (i : Instr) (u : Nat) : (s.after delay i).seq u = s.seq u := rfl
@[simp] theorem after_read_ctx (s : State) (delay : Nat) (i : Instr) (u : Nat) : (s.after delay i).ctx u = s.ctx u := rfl
@[simp] theorem after_read_graph (s : State) (delay : Nat) (i : Instr) (u v : Nat) : (s.after delay i).graph? u v = s.graph? u v :=
  rfl
@[simp] theorem after_read_regionAt (s : State) (delay : Nat) (i : Instr) (u : Nat) : (s.after delay i).regionAt u = s.regionAt u :=
  rfl
@[simp] theorem after_read_actor (s : State) (delay : Nat) (i : Instr) (u : Nat) : (s.after delay i).actor u = s.actor u := rfl
@[simp] theorem after_read_arc (s : State) (delay : Nat) (i : Instr) (u : Nat) : (s.after delay i).arc? u = s.arc? u := rfl
@[simp] theorem after_read_die (s : State) (delay : Nat) (i : Instr) (u : Nat) : (s.after delay i).die u = s.die u := rfl
@[simp] theorem after_read_xlat (s : State) (delay : Nat) (i : Instr) (u : Nat) : (s.after delay i).xlat u = s.xlat u := rfl
@[simp] theorem after_read_link (s : State) (delay : Nat) (i : Instr) (u : Nat) : (s.after delay i).link u = s.link u := rfl

/-! ## `soon` -/

@[simp] theorem soon_pcyc (s : State) (i : Instr) : (s.soon i).pcyc = s.pcyc := rfl
@[simp] theorem soon_master (s : State) (i : Instr) : (s.soon i).master = s.master := rfl
@[simp] theorem soon_pkgid (s : State) (i : Instr) : (s.soon i).pkgid = s.pkgid := rfl
@[simp] theorem soon_badDies (s : State) (i : Instr) : (s.soon i).badDies = s.badDies := rfl
@[simp] theorem soon_badStacks (s : State) (i : Instr) : (s.soon i).badStacks = s.badStacks := rfl
@[simp] theorem soon_badTier (s : State) (i : Instr) : (s.soon i).badTier = s.badTier := rfl
@[simp] theorem soon_badDispatcher (s : State) (i : Instr) : (s.soon i).badDispatcher = s.badDispatcher := rfl
@[simp] theorem soon_badLinks (s : State) (i : Instr) : (s.soon i).badLinks = s.badLinks := rfl
@[simp] theorem soon_up (s : State) (i : Instr) : (s.soon i).up = s.up := rfl
@[simp] theorem soon_mem (s : State) (i : Instr) : (s.soon i).mem = s.mem := rfl
@[simp] theorem soon_peerMem (s : State) (i : Instr) : (s.soon i).peerMem = s.peerMem := rfl
@[simp] theorem soon_near (s : State) (i : Instr) : (s.soon i).near = s.near := rfl
@[simp] theorem soon_present (s : State) (i : Instr) : (s.soon i).present = s.present := rfl
@[simp] theorem soon_tiles (s : State) (i : Instr) : (s.soon i).tiles = s.tiles := rfl
@[simp] theorem soon_mtiles (s : State) (i : Instr) : (s.soon i).mtiles = s.mtiles := rfl
@[simp] theorem soon_seqs (s : State) (i : Instr) : (s.soon i).seqs = s.seqs := rfl
@[simp] theorem soon_ctxs (s : State) (i : Instr) : (s.soon i).ctxs = s.ctxs := rfl
@[simp] theorem soon_graphs (s : State) (i : Instr) : (s.soon i).graphs = s.graphs := rfl
@[simp] theorem soon_actors (s : State) (i : Instr) : (s.soon i).actors = s.actors := rfl
@[simp] theorem soon_regions (s : State) (i : Instr) : (s.soon i).regions = s.regions := rfl
@[simp] theorem soon_arcs (s : State) (i : Instr) : (s.soon i).arcs = s.arcs := rfl
@[simp] theorem soon_ops (s : State) (i : Instr) : (s.soon i).ops = s.ops := rfl
@[simp] theorem soon_lanes (s : State) (i : Instr) : (s.soon i).lanes = s.lanes := rfl
@[simp] theorem soon_xlats (s : State) (i : Instr) : (s.soon i).xlats = s.xlats := rfl
@[simp] theorem soon_dies (s : State) (i : Instr) : (s.soon i).dies = s.dies := rfl
@[simp] theorem soon_links (s : State) (i : Instr) : (s.soon i).links = s.links := rfl
@[simp] theorem soon_ranks (s : State) (i : Instr) : (s.soon i).ranks = s.ranks := rfl
@[simp] theorem soon_rankDown (s : State) (i : Instr) : (s.soon i).rankDown = s.rankDown := rfl
@[simp] theorem soon_ctxresult (s : State) (i : Instr) : (s.soon i).ctxresult = s.ctxresult := rfl
@[simp] theorem soon_pkgvec (s : State) (i : Instr) : (s.soon i).pkgvec = s.pkgvec := rfl
@[simp] theorem soon_events (s : State) (i : Instr) : (s.soon i).events = s.events := rfl
@[simp] theorem soon_eventsOvf (s : State) (i : Instr) : (s.soon i).eventsOvf = s.eventsOvf := rfl
@[simp] theorem soon_lastEvent (s : State) (i : Instr) : (s.soon i).lastEvent = s.lastEvent := rfl
@[simp] theorem soon_msix (s : State) (i : Instr) : (s.soon i).msix = s.msix := rfl
@[simp] theorem soon_hostRead (s : State) (i : Instr) : (s.soon i).hostRead = s.hostRead := rfl
@[simp] theorem soon_hostTraps (s : State) (i : Instr) : (s.soon i).hostTraps = s.hostTraps := rfl
@[simp] theorem soon_images (s : State) (i : Instr) : (s.soon i).images = s.images := rfl
@[simp] theorem soon_cur (s : State) (i : Instr) : (s.soon i).cur = s.cur := rfl
@[simp] theorem soon_agenda (s : State) (i : Instr) : (s.soon i).agenda = s.agenda := rfl
@[simp] theorem soon_todo (s : State) (i : Instr) : (s.soon i).todo = s.todo ++ [.event i] := rfl
@[simp] theorem soon_inputs (s : State) (i : Instr) : (s.soon i).inputs = s.inputs := rfl
@[simp] theorem soon_recordAt (s : State) (i : Instr) : (s.soon i).recordAt = s.recordAt := rfl
@[simp] theorem soon_freeCount (s : State) (i : Instr) : (s.soon i).freeCount = s.freeCount := rfl
@[simp] theorem soon_opCount (s : State) (i : Instr) : (s.soon i).opCount = s.opCount := rfl
@[simp] theorem soon_read_tile (s : State) (i : Instr) (u : Nat) : (s.soon i).tile u = s.tile u := rfl
@[simp] theorem soon_read_mtile (s : State) (i : Instr) (u : Nat) : (s.soon i).mtile u = s.mtile u := rfl
@[simp] theorem soon_read_seq (s : State) (i : Instr) (u : Nat) : (s.soon i).seq u = s.seq u := rfl
@[simp] theorem soon_read_ctx (s : State) (i : Instr) (u : Nat) : (s.soon i).ctx u = s.ctx u := rfl
@[simp] theorem soon_read_graph (s : State) (i : Instr) (u v : Nat) : (s.soon i).graph? u v = s.graph? u v := rfl
@[simp] theorem soon_read_regionAt (s : State) (i : Instr) (u : Nat) : (s.soon i).regionAt u = s.regionAt u := rfl
@[simp] theorem soon_read_actor (s : State) (i : Instr) (u : Nat) : (s.soon i).actor u = s.actor u := rfl
@[simp] theorem soon_read_arc (s : State) (i : Instr) (u : Nat) : (s.soon i).arc? u = s.arc? u := rfl
@[simp] theorem soon_read_die (s : State) (i : Instr) (u : Nat) : (s.soon i).die u = s.die u := rfl
@[simp] theorem soon_read_xlat (s : State) (i : Instr) (u : Nat) : (s.soon i).xlat u = s.xlat u := rfl
@[simp] theorem soon_read_link (s : State) (i : Instr) (u : Nat) : (s.soon i).link u = s.link u := rfl

/-! ## `later` -/

@[simp] theorem later_pcyc (s : State) (i : Instr) : (s.later i).pcyc = s.pcyc := rfl
@[simp] theorem later_master (s : State) (i : Instr) : (s.later i).master = s.master := rfl
@[simp] theorem later_pkgid (s : State) (i : Instr) : (s.later i).pkgid = s.pkgid := rfl
@[simp] theorem later_badDies (s : State) (i : Instr) : (s.later i).badDies = s.badDies := rfl
@[simp] theorem later_badStacks (s : State) (i : Instr) : (s.later i).badStacks = s.badStacks := rfl
@[simp] theorem later_badTier (s : State) (i : Instr) : (s.later i).badTier = s.badTier := rfl
@[simp] theorem later_badDispatcher (s : State) (i : Instr) : (s.later i).badDispatcher = s.badDispatcher := rfl
@[simp] theorem later_badLinks (s : State) (i : Instr) : (s.later i).badLinks = s.badLinks := rfl
@[simp] theorem later_up (s : State) (i : Instr) : (s.later i).up = s.up := rfl
@[simp] theorem later_mem (s : State) (i : Instr) : (s.later i).mem = s.mem := rfl
@[simp] theorem later_peerMem (s : State) (i : Instr) : (s.later i).peerMem = s.peerMem := rfl
@[simp] theorem later_near (s : State) (i : Instr) : (s.later i).near = s.near := rfl
@[simp] theorem later_present (s : State) (i : Instr) : (s.later i).present = s.present := rfl
@[simp] theorem later_tiles (s : State) (i : Instr) : (s.later i).tiles = s.tiles := rfl
@[simp] theorem later_mtiles (s : State) (i : Instr) : (s.later i).mtiles = s.mtiles := rfl
@[simp] theorem later_seqs (s : State) (i : Instr) : (s.later i).seqs = s.seqs := rfl
@[simp] theorem later_ctxs (s : State) (i : Instr) : (s.later i).ctxs = s.ctxs := rfl
@[simp] theorem later_graphs (s : State) (i : Instr) : (s.later i).graphs = s.graphs := rfl
@[simp] theorem later_actors (s : State) (i : Instr) : (s.later i).actors = s.actors := rfl
@[simp] theorem later_regions (s : State) (i : Instr) : (s.later i).regions = s.regions := rfl
@[simp] theorem later_arcs (s : State) (i : Instr) : (s.later i).arcs = s.arcs := rfl
@[simp] theorem later_ops (s : State) (i : Instr) : (s.later i).ops = s.ops := rfl
@[simp] theorem later_lanes (s : State) (i : Instr) : (s.later i).lanes = s.lanes := rfl
@[simp] theorem later_xlats (s : State) (i : Instr) : (s.later i).xlats = s.xlats := rfl
@[simp] theorem later_dies (s : State) (i : Instr) : (s.later i).dies = s.dies := rfl
@[simp] theorem later_links (s : State) (i : Instr) : (s.later i).links = s.links := rfl
@[simp] theorem later_ranks (s : State) (i : Instr) : (s.later i).ranks = s.ranks := rfl
@[simp] theorem later_rankDown (s : State) (i : Instr) : (s.later i).rankDown = s.rankDown := rfl
@[simp] theorem later_ctxresult (s : State) (i : Instr) : (s.later i).ctxresult = s.ctxresult := rfl
@[simp] theorem later_pkgvec (s : State) (i : Instr) : (s.later i).pkgvec = s.pkgvec := rfl
@[simp] theorem later_events (s : State) (i : Instr) : (s.later i).events = s.events := rfl
@[simp] theorem later_eventsOvf (s : State) (i : Instr) : (s.later i).eventsOvf = s.eventsOvf := rfl
@[simp] theorem later_lastEvent (s : State) (i : Instr) : (s.later i).lastEvent = s.lastEvent := rfl
@[simp] theorem later_msix (s : State) (i : Instr) : (s.later i).msix = s.msix := rfl
@[simp] theorem later_hostRead (s : State) (i : Instr) : (s.later i).hostRead = s.hostRead := rfl
@[simp] theorem later_hostTraps (s : State) (i : Instr) : (s.later i).hostTraps = s.hostTraps := rfl
@[simp] theorem later_images (s : State) (i : Instr) : (s.later i).images = s.images := rfl
@[simp] theorem later_cur (s : State) (i : Instr) : (s.later i).cur = s.cur := rfl
@[simp] theorem later_agenda (s : State) (i : Instr) : (s.later i).agenda = s.agenda ++ [(s.pcyc + 1 + Config.freeDelay s.freeCount, i)] :=
  rfl
@[simp] theorem later_todo (s : State) (i : Instr) : (s.later i).todo = s.todo := rfl
@[simp] theorem later_inputs (s : State) (i : Instr) : (s.later i).inputs = s.inputs := rfl
@[simp] theorem later_recordAt (s : State) (i : Instr) : (s.later i).recordAt = s.recordAt := rfl
@[simp] theorem later_freeCount (s : State) (i : Instr) : (s.later i).freeCount = s.freeCount + 1 := rfl
@[simp] theorem later_opCount (s : State) (i : Instr) : (s.later i).opCount = s.opCount := rfl
@[simp] theorem later_read_tile (s : State) (i : Instr) (u : Nat) : (s.later i).tile u = s.tile u := rfl
@[simp] theorem later_read_mtile (s : State) (i : Instr) (u : Nat) : (s.later i).mtile u = s.mtile u := rfl
@[simp] theorem later_read_seq (s : State) (i : Instr) (u : Nat) : (s.later i).seq u = s.seq u := rfl
@[simp] theorem later_read_ctx (s : State) (i : Instr) (u : Nat) : (s.later i).ctx u = s.ctx u := rfl
@[simp] theorem later_read_graph (s : State) (i : Instr) (u v : Nat) : (s.later i).graph? u v = s.graph? u v := rfl
@[simp] theorem later_read_regionAt (s : State) (i : Instr) (u : Nat) : (s.later i).regionAt u = s.regionAt u := rfl
@[simp] theorem later_read_actor (s : State) (i : Instr) (u : Nat) : (s.later i).actor u = s.actor u := rfl
@[simp] theorem later_read_arc (s : State) (i : Instr) (u : Nat) : (s.later i).arc? u = s.arc? u := rfl
@[simp] theorem later_read_die (s : State) (i : Instr) (u : Nat) : (s.later i).die u = s.die u := rfl
@[simp] theorem later_read_xlat (s : State) (i : Instr) (u : Nat) : (s.later i).xlat u = s.xlat u := rfl
@[simp] theorem later_read_link (s : State) (i : Instr) (u : Nat) : (s.later i).link u = s.link u := rfl

/-! ## `newOp` -/

@[simp] theorem newOp_pcyc (s : State) (o : Op) : (s.newOp o).pcyc = s.pcyc := rfl
@[simp] theorem newOp_master (s : State) (o : Op) : (s.newOp o).master = s.master := rfl
@[simp] theorem newOp_pkgid (s : State) (o : Op) : (s.newOp o).pkgid = s.pkgid := rfl
@[simp] theorem newOp_badDies (s : State) (o : Op) : (s.newOp o).badDies = s.badDies := rfl
@[simp] theorem newOp_badStacks (s : State) (o : Op) : (s.newOp o).badStacks = s.badStacks := rfl
@[simp] theorem newOp_badTier (s : State) (o : Op) : (s.newOp o).badTier = s.badTier := rfl
@[simp] theorem newOp_badDispatcher (s : State) (o : Op) : (s.newOp o).badDispatcher = s.badDispatcher := rfl
@[simp] theorem newOp_badLinks (s : State) (o : Op) : (s.newOp o).badLinks = s.badLinks := rfl
@[simp] theorem newOp_up (s : State) (o : Op) : (s.newOp o).up = s.up := rfl
@[simp] theorem newOp_mem (s : State) (o : Op) : (s.newOp o).mem = s.mem := rfl
@[simp] theorem newOp_peerMem (s : State) (o : Op) : (s.newOp o).peerMem = s.peerMem := rfl
@[simp] theorem newOp_near (s : State) (o : Op) : (s.newOp o).near = s.near := rfl
@[simp] theorem newOp_present (s : State) (o : Op) : (s.newOp o).present = s.present := rfl
@[simp] theorem newOp_tiles (s : State) (o : Op) : (s.newOp o).tiles = s.tiles := rfl
@[simp] theorem newOp_mtiles (s : State) (o : Op) : (s.newOp o).mtiles = s.mtiles := rfl
@[simp] theorem newOp_seqs (s : State) (o : Op) : (s.newOp o).seqs = s.seqs := rfl
@[simp] theorem newOp_ctxs (s : State) (o : Op) : (s.newOp o).ctxs = s.ctxs := rfl
@[simp] theorem newOp_graphs (s : State) (o : Op) : (s.newOp o).graphs = s.graphs := rfl
@[simp] theorem newOp_actors (s : State) (o : Op) : (s.newOp o).actors = s.actors := rfl
@[simp] theorem newOp_regions (s : State) (o : Op) : (s.newOp o).regions = s.regions := rfl
@[simp] theorem newOp_arcs (s : State) (o : Op) : (s.newOp o).arcs = s.arcs := rfl
@[simp] theorem newOp_ops (s : State) (o : Op) : (s.newOp o).ops = mset s.ops s.opCount o := rfl
@[simp] theorem newOp_lanes (s : State) (o : Op) : (s.newOp o).lanes = s.lanes := rfl
@[simp] theorem newOp_xlats (s : State) (o : Op) : (s.newOp o).xlats = s.xlats := rfl
@[simp] theorem newOp_dies (s : State) (o : Op) : (s.newOp o).dies = s.dies := rfl
@[simp] theorem newOp_links (s : State) (o : Op) : (s.newOp o).links = s.links := rfl
@[simp] theorem newOp_ranks (s : State) (o : Op) : (s.newOp o).ranks = s.ranks := rfl
@[simp] theorem newOp_rankDown (s : State) (o : Op) : (s.newOp o).rankDown = s.rankDown := rfl
@[simp] theorem newOp_ctxresult (s : State) (o : Op) : (s.newOp o).ctxresult = s.ctxresult := rfl
@[simp] theorem newOp_pkgvec (s : State) (o : Op) : (s.newOp o).pkgvec = s.pkgvec := rfl
@[simp] theorem newOp_events (s : State) (o : Op) : (s.newOp o).events = s.events := rfl
@[simp] theorem newOp_eventsOvf (s : State) (o : Op) : (s.newOp o).eventsOvf = s.eventsOvf := rfl
@[simp] theorem newOp_lastEvent (s : State) (o : Op) : (s.newOp o).lastEvent = s.lastEvent := rfl
@[simp] theorem newOp_msix (s : State) (o : Op) : (s.newOp o).msix = s.msix := rfl
@[simp] theorem newOp_hostRead (s : State) (o : Op) : (s.newOp o).hostRead = s.hostRead := rfl
@[simp] theorem newOp_hostTraps (s : State) (o : Op) : (s.newOp o).hostTraps = s.hostTraps := rfl
@[simp] theorem newOp_images (s : State) (o : Op) : (s.newOp o).images = s.images := rfl
@[simp] theorem newOp_cur (s : State) (o : Op) : (s.newOp o).cur = s.cur := rfl
@[simp] theorem newOp_agenda (s : State) (o : Op) : (s.newOp o).agenda = s.agenda := rfl
@[simp] theorem newOp_todo (s : State) (o : Op) : (s.newOp o).todo = s.todo := rfl
@[simp] theorem newOp_inputs (s : State) (o : Op) : (s.newOp o).inputs = s.inputs := rfl
@[simp] theorem newOp_recordAt (s : State) (o : Op) : (s.newOp o).recordAt = s.recordAt := rfl
@[simp] theorem newOp_freeCount (s : State) (o : Op) : (s.newOp o).freeCount = s.freeCount := rfl
@[simp] theorem newOp_opCount (s : State) (o : Op) : (s.newOp o).opCount = s.opCount + 1 := rfl
@[simp] theorem newOp_read_tile (s : State) (o : Op) (u : Nat) : (s.newOp o).tile u = s.tile u := rfl
@[simp] theorem newOp_read_mtile (s : State) (o : Op) (u : Nat) : (s.newOp o).mtile u = s.mtile u := rfl
@[simp] theorem newOp_read_seq (s : State) (o : Op) (u : Nat) : (s.newOp o).seq u = s.seq u := rfl
@[simp] theorem newOp_read_ctx (s : State) (o : Op) (u : Nat) : (s.newOp o).ctx u = s.ctx u := rfl
@[simp] theorem newOp_read_graph (s : State) (o : Op) (u v : Nat) : (s.newOp o).graph? u v = s.graph? u v := rfl
@[simp] theorem newOp_read_regionAt (s : State) (o : Op) (u : Nat) : (s.newOp o).regionAt u = s.regionAt u := rfl
@[simp] theorem newOp_read_actor (s : State) (o : Op) (u : Nat) : (s.newOp o).actor u = s.actor u := rfl
@[simp] theorem newOp_read_arc (s : State) (o : Op) (u : Nat) : (s.newOp o).arc? u = s.arc? u := rfl
@[simp] theorem newOp_read_die (s : State) (o : Op) (u : Nat) : (s.newOp o).die u = s.die u := rfl
@[simp] theorem newOp_read_xlat (s : State) (o : Op) (u : Nat) : (s.newOp o).xlat u = s.xlat u := rfl
@[simp] theorem newOp_read_link (s : State) (o : Op) (u : Nat) : (s.newOp o).link u = s.link u := rfl

/-! ## `dropOp` -/

@[simp] theorem dropOp_pcyc (s : State) (id : Nat) : (s.dropOp id).pcyc = s.pcyc := rfl
@[simp] theorem dropOp_master (s : State) (id : Nat) : (s.dropOp id).master = s.master := rfl
@[simp] theorem dropOp_pkgid (s : State) (id : Nat) : (s.dropOp id).pkgid = s.pkgid := rfl
@[simp] theorem dropOp_badDies (s : State) (id : Nat) : (s.dropOp id).badDies = s.badDies := rfl
@[simp] theorem dropOp_badStacks (s : State) (id : Nat) : (s.dropOp id).badStacks = s.badStacks := rfl
@[simp] theorem dropOp_badTier (s : State) (id : Nat) : (s.dropOp id).badTier = s.badTier := rfl
@[simp] theorem dropOp_badDispatcher (s : State) (id : Nat) : (s.dropOp id).badDispatcher = s.badDispatcher := rfl
@[simp] theorem dropOp_badLinks (s : State) (id : Nat) : (s.dropOp id).badLinks = s.badLinks := rfl
@[simp] theorem dropOp_up (s : State) (id : Nat) : (s.dropOp id).up = s.up := rfl
@[simp] theorem dropOp_mem (s : State) (id : Nat) : (s.dropOp id).mem = s.mem := rfl
@[simp] theorem dropOp_peerMem (s : State) (id : Nat) : (s.dropOp id).peerMem = s.peerMem := rfl
@[simp] theorem dropOp_near (s : State) (id : Nat) : (s.dropOp id).near = s.near := rfl
@[simp] theorem dropOp_present (s : State) (id : Nat) : (s.dropOp id).present = s.present := rfl
@[simp] theorem dropOp_tiles (s : State) (id : Nat) : (s.dropOp id).tiles = s.tiles := rfl
@[simp] theorem dropOp_mtiles (s : State) (id : Nat) : (s.dropOp id).mtiles = s.mtiles := rfl
@[simp] theorem dropOp_seqs (s : State) (id : Nat) : (s.dropOp id).seqs = s.seqs := rfl
@[simp] theorem dropOp_ctxs (s : State) (id : Nat) : (s.dropOp id).ctxs = s.ctxs := rfl
@[simp] theorem dropOp_graphs (s : State) (id : Nat) : (s.dropOp id).graphs = s.graphs := rfl
@[simp] theorem dropOp_actors (s : State) (id : Nat) : (s.dropOp id).actors = s.actors := rfl
@[simp] theorem dropOp_regions (s : State) (id : Nat) : (s.dropOp id).regions = s.regions := rfl
@[simp] theorem dropOp_arcs (s : State) (id : Nat) : (s.dropOp id).arcs = s.arcs := rfl
@[simp] theorem dropOp_ops (s : State) (id : Nat) : (s.dropOp id).ops = mdel s.ops id := rfl
@[simp] theorem dropOp_lanes (s : State) (id : Nat) : (s.dropOp id).lanes = s.lanes := rfl
@[simp] theorem dropOp_xlats (s : State) (id : Nat) : (s.dropOp id).xlats = s.xlats := rfl
@[simp] theorem dropOp_dies (s : State) (id : Nat) : (s.dropOp id).dies = s.dies := rfl
@[simp] theorem dropOp_links (s : State) (id : Nat) : (s.dropOp id).links = s.links := rfl
@[simp] theorem dropOp_ranks (s : State) (id : Nat) : (s.dropOp id).ranks = s.ranks := rfl
@[simp] theorem dropOp_rankDown (s : State) (id : Nat) : (s.dropOp id).rankDown = s.rankDown := rfl
@[simp] theorem dropOp_ctxresult (s : State) (id : Nat) : (s.dropOp id).ctxresult = s.ctxresult := rfl
@[simp] theorem dropOp_pkgvec (s : State) (id : Nat) : (s.dropOp id).pkgvec = s.pkgvec := rfl
@[simp] theorem dropOp_events (s : State) (id : Nat) : (s.dropOp id).events = s.events := rfl
@[simp] theorem dropOp_eventsOvf (s : State) (id : Nat) : (s.dropOp id).eventsOvf = s.eventsOvf := rfl
@[simp] theorem dropOp_lastEvent (s : State) (id : Nat) : (s.dropOp id).lastEvent = s.lastEvent := rfl
@[simp] theorem dropOp_msix (s : State) (id : Nat) : (s.dropOp id).msix = s.msix := rfl
@[simp] theorem dropOp_hostRead (s : State) (id : Nat) : (s.dropOp id).hostRead = s.hostRead := rfl
@[simp] theorem dropOp_hostTraps (s : State) (id : Nat) : (s.dropOp id).hostTraps = s.hostTraps := rfl
@[simp] theorem dropOp_images (s : State) (id : Nat) : (s.dropOp id).images = s.images := rfl
@[simp] theorem dropOp_cur (s : State) (id : Nat) : (s.dropOp id).cur = s.cur := rfl
@[simp] theorem dropOp_agenda (s : State) (id : Nat) : (s.dropOp id).agenda = s.agenda := rfl
@[simp] theorem dropOp_todo (s : State) (id : Nat) : (s.dropOp id).todo = s.todo := rfl
@[simp] theorem dropOp_inputs (s : State) (id : Nat) : (s.dropOp id).inputs = s.inputs := rfl
@[simp] theorem dropOp_recordAt (s : State) (id : Nat) : (s.dropOp id).recordAt = s.recordAt := rfl
@[simp] theorem dropOp_freeCount (s : State) (id : Nat) : (s.dropOp id).freeCount = s.freeCount := rfl
@[simp] theorem dropOp_opCount (s : State) (id : Nat) : (s.dropOp id).opCount = s.opCount := rfl
@[simp] theorem dropOp_read_tile (s : State) (id : Nat) (u : Nat) : (s.dropOp id).tile u = s.tile u := rfl
@[simp] theorem dropOp_read_mtile (s : State) (id : Nat) (u : Nat) : (s.dropOp id).mtile u = s.mtile u := rfl
@[simp] theorem dropOp_read_seq (s : State) (id : Nat) (u : Nat) : (s.dropOp id).seq u = s.seq u := rfl
@[simp] theorem dropOp_read_ctx (s : State) (id : Nat) (u : Nat) : (s.dropOp id).ctx u = s.ctx u := rfl
@[simp] theorem dropOp_read_graph (s : State) (id : Nat) (u v : Nat) : (s.dropOp id).graph? u v = s.graph? u v := rfl
@[simp] theorem dropOp_read_regionAt (s : State) (id : Nat) (u : Nat) : (s.dropOp id).regionAt u = s.regionAt u := rfl
@[simp] theorem dropOp_read_actor (s : State) (id : Nat) (u : Nat) : (s.dropOp id).actor u = s.actor u := rfl
@[simp] theorem dropOp_read_arc (s : State) (id : Nat) (u : Nat) : (s.dropOp id).arc? u = s.arc? u := rfl
@[simp] theorem dropOp_read_die (s : State) (id : Nat) (u : Nat) : (s.dropOp id).die u = s.die u := rfl
@[simp] theorem dropOp_read_xlat (s : State) (id : Nat) (u : Nat) : (s.dropOp id).xlat u = s.xlat u := rfl
@[simp] theorem dropOp_read_link (s : State) (id : Nat) (u : Nat) : (s.dropOp id).link u = s.link u := rfl

/-! ## An object read after it was written -/

@[simp] theorem setTile_tile_self (s : State) (t : Nat) (x : Tile) : (s.setTile t x).tile t = x := mget_mset_self _ _ _ _
theorem setTile_tile_of_ne (s : State) {t u : Nat} (x : Tile) (h : u ≠ t) : (s.setTile t x).tile u = s.tile u :=
  mget_mset_of_ne _ _ _ h
@[simp] theorem setMtile_mtile_self (s : State) (t : Nat) (x : MemTile) : (s.setMtile t x).mtile t = x := mget_mset_self _ _ _ _
theorem setMtile_mtile_of_ne (s : State) {t u : Nat} (x : MemTile) (h : u ≠ t) : (s.setMtile t x).mtile u = s.mtile u :=
  mget_mset_of_ne _ _ _ h
@[simp] theorem setSeq_seq_self (s : State) (n : Nat) (x : Seq) : (s.setSeq n x).seq n = x := mget_mset_self _ _ _ _
theorem setSeq_seq_of_ne (s : State) {n u : Nat} (x : Seq) (h : u ≠ n) : (s.setSeq n x).seq u = s.seq u :=
  mget_mset_of_ne _ _ _ h
@[simp] theorem setCtx_ctx_self (s : State) (c : Nat) (x : Ctx) : (s.setCtx c x).ctx c = x := mget_mset_self _ _ _ _
theorem setCtx_ctx_of_ne (s : State) {c u : Nat} (x : Ctx) (h : u ≠ c) : (s.setCtx c x).ctx u = s.ctx u :=
  mget_mset_of_ne _ _ _ h
@[simp] theorem setRegion_regionAt_self (s : State) (k : Nat) (x : Region) : (s.setRegion k x).regionAt k = x :=
  mget_mset_self _ _ _ _
theorem setRegion_regionAt_of_ne (s : State) {k u : Nat} (x : Region) (h : u ≠ k) : (s.setRegion k x).regionAt u = s.regionAt u :=
  mget_mset_of_ne _ _ _ h
@[simp] theorem setActor_actor_self (s : State) (k : Nat) (x : Actor) : (s.setActor k x).actor k = x := mget_mset_self _ _ _ _
theorem setActor_actor_of_ne (s : State) {k u : Nat} (x : Actor) (h : u ≠ k) : (s.setActor k x).actor u = s.actor u :=
  mget_mset_of_ne _ _ _ h
@[simp] theorem setDie_die_self (s : State) (d : Nat) (x : Die) : (s.setDie d x).die d = x := mget_mset_self _ _ _ _
theorem setDie_die_of_ne (s : State) {d u : Nat} (x : Die) (h : u ≠ d) : (s.setDie d x).die u = s.die u :=
  mget_mset_of_ne _ _ _ h
@[simp] theorem setXlat_xlat_self (s : State) (d : Nat) (x : Xlat) : (s.setXlat d x).xlat d = x := mget_mset_self _ _ _ _
theorem setXlat_xlat_of_ne (s : State) {d u : Nat} (x : Xlat) (h : u ≠ d) : (s.setXlat d x).xlat u = s.xlat u :=
  mget_mset_of_ne _ _ _ h
@[simp] theorem setLink_link_self (s : State) (n : Nat) (x : Link) : (s.setLink n x).link n = x := mget_mset_self _ _ _ _
theorem setLink_link_of_ne (s : State) {n u : Nat} (x : Link) (h : u ≠ n) : (s.setLink n x).link u = s.link u :=
  mget_mset_of_ne _ _ _ h
@[simp] theorem updSeq_seq_self (s : State) (n : Nat) (f : Seq → Seq) : (s.updSeq n f).seq n = f (s.seq n) :=
  mget_mset_self _ _ _ _
theorem updSeq_seq_of_ne (s : State) {n u : Nat} (f : Seq → Seq) (h : u ≠ n) : (s.updSeq n f).seq u = s.seq u :=
  mget_mset_of_ne _ _ _ h
@[simp] theorem setArc_arc_self (s : State) (k : Nat) (x : Arc) : (s.setArc k x).arc? k = some x := mfind_mset_self _ _ _
theorem setArc_arc_of_ne (s : State) {k u : Nat} (x : Arc) (h : u ≠ k) : (s.setArc k x).arc? u = s.arc? u :=
  mfind_mset_of_ne _ _ h
@[simp] theorem setGraph_graph_self (s : State) (c g : Nat) (x : Graph) : (s.setGraph c g x).graph? c g = some x :=
  mfind_mset_self _ _ _
theorem setGraph_graph_of_ne (s : State) {c g u v : Nat} (x : Graph) (h : graphKey u v ≠ graphKey c g) :
    (s.setGraph c g x).graph? u v = s.graph? u v := mfind_mset_of_ne _ _ h

end Sys2Proof.Machine.State
end

