-- ==== Sys2Proof/Laws/Ops.lean ====
section
/-! SUPPORT. What each shared operation can do, said once: where an instruction goes on, how its result is delivered, what taking
an exception saves and where it goes, and what a return brings back. -/

namespace Sys2Proof.Machine

/-! ## The memories as a whole -/

/-- The parts of the state that hold bytes and presence bits. -/
def State.memories (s : State) : Memory × Memory × Memory × Map Bool := (s.mem, s.peerMem, s.near, s.present)

@[simp] theorem State.memories_setTile (s : State) (t : Nat) (x : Tile) : (s.setTile t x).memories = s.memories := rfl
@[simp] theorem State.memories_setSeq (s : State) (n : Nat) (x : Seq) : (s.setSeq n x).memories = s.memories := rfl
@[simp] theorem State.memories_updSeq (s : State) (n : Nat) (f : Seq → Seq) : (s.updSeq n f).memories = s.memories := rfl
@[simp] theorem State.memories_setCtx (s : State) (c : Nat) (x : Ctx) : (s.setCtx c x).memories = s.memories := rfl
@[simp] theorem State.memories_setDie (s : State) (d : Nat) (x : Die) : (s.setDie d x).memories = s.memories := rfl
@[simp] theorem State.memories_setRegion (s : State) (k : Nat) (x : Region) : (s.setRegion k x).memories = s.memories := rfl
@[simp] theorem State.memories_after (s : State) (n : Nat) (i : Instr) : (s.after n i).memories = s.memories := rfl
@[simp] theorem State.memories_soon (s : State) (i : Instr) : (s.soon i).memories = s.memories := rfl
@[simp] theorem State.memories_later (s : State) (i : Instr) : (s.later i).memories = s.memories := rfl

@[simp] theorem State.memories_tellHost (s : State) (c code tc id : Nat) (info loc : Word) :
    (s.tellHost c code tc id info loc).memories = s.memories := by
  unfold State.tellHost; dsimp only; split <;> rfl

@[simp] theorem State.memories_tellPackage (s : State) (code tc id : Nat) (info loc : Word) :
    (s.tellPackage code tc id info loc).memories = s.memories := by
  unfold State.tellPackage; split <;> rfl

@[simp] theorem State.memories_logError (s : State) (d src kind place : Nat) : (s.logError d src kind place).memories = s.memories := by
  unfold State.logError; dsimp only; split <;> rfl

/-! ## A sequencer goes on (R102, R123, R124) -/

@[simp] theorem Seq.advance_s (q : Seq) (now : Nat) : (q.advance now).s = q.s := by unfold Seq.advance; dsimp only; split <;> rfl
@[simp] theorem Seq.advance_tvec (q : Seq) (now : Nat) : (q.advance now).tvec = q.tvec := by unfold Seq.advance; dsimp only; split <;> rfl
@[simp] theorem Seq.advance_tepc (q : Seq) (now : Nat) : (q.advance now).tepc = q.tepc := by unfold Seq.advance; dsimp only; split <;> rfl
@[simp] theorem Seq.advance_tcause (q : Seq) (now : Nat) : (q.advance now).tcause = q.tcause := by unfold Seq.advance; dsimp only; split <;> rfl
@[simp] theorem Seq.advance_tinfo (q : Seq) (now : Nat) : (q.advance now).tinfo = q.tinfo := by unfold Seq.advance; dsimp only; split <;> rfl
@[simp] theorem Seq.advance_trap (q : Seq) (now : Nat) : (q.advance now).trap = q.trap := by unfold Seq.advance; dsimp only; split <;> rfl
@[simp] theorem Seq.advance_ctxid (q : Seq) (now : Nat) : (q.advance now).ctxid = q.ctxid := by unfold Seq.advance; dsimp only; split <;> rfl
@[simp] theorem Seq.advance_ready (q : Seq) (now : Nat) : (q.advance now).ready = now + 1 := by unfold Seq.advance; dsimp only; split <;> rfl

/-- With no loop that ends at the instruction, the pc moves on by one word. -/
theorem evalLoops_none (ls : Map SeqLoop) (a : Word) (n : Nat)
    (h : ∀ k < n, ¬ ((mget {} ls k).active = true ∧ (mget {} ls k).final = a)) : evalLoops ls a n = (ls, none) := by
  induction n with
  | zero => rfl
  | succ n ih =>
    have hn := h n (Nat.lt_succ_self n)
    simp only [evalLoops]
    split
    · rename_i hc
      exact absurd (by simpa only [Bool.and_eq_true, beq_iff_eq] using hc) hn
    · exact ih fun k hk => h k (Nat.lt_succ_of_lt hk)

theorem Seq.advance_pc (q : Seq) (now : Nat)
    (h : ∀ k < 4, ¬ ((mget {} q.loops k).active = true ∧ (mget {} q.loops k).final = q.pc)) :
    q.advance now = { q with pc := q.pc + 8, last := now, ready := now + 1 } := by
  simp only [Seq.advance, evalLoops_none _ _ _ h]

@[simp] theorem Seq.jump_pc (q : Seq) (now : Nat) (a : Word) : (q.jump now a).pc = a := rfl
@[simp] theorem Seq.jump_ready (q : Seq) (now : Nat) (a : Word) : (q.jump now a).ready = now + 3 := rfl
@[simp] theorem Seq.jump_s (q : Seq) (now : Nat) (a : Word) : (q.jump now a).s = q.s := rfl

/-! ## Where an instruction may stand, and what it raises -/

section units
variable (s : State)

theorem onSeq_seq {n : Nat} (h : s.cur.unit = .seq n) (f : Nat → StepResult) : onSeq s f = f n := by simp [onSeq, h]
theorem onSeq_tile {t : Nat} (h : s.cur.unit = .tile t) (f : Nat → StepResult) : onSeq s f = .refused .sequencerOnlyInList := by
  simp [onSeq, h]
theorem onTile_tile {t : Nat} (h : s.cur.unit = .tile t) (f : Nat → StepResult) : onTile s f = f t := by simp [onTile, h]
theorem onTile_seq {n : Nat} (h : s.cur.unit = .seq n) (f : Nat → StepResult) : onTile s f = .next (ownFault n Code.illegal 3 s) := by
  simp [onTile, h]
theorem raise_tile {t : Nat} (h : s.cur.unit = .tile t) (code : Nat) (info : Word) :
    raise code info s = .next (tileReport t { code := code, info := info, loc := s.curLoc, entry := some s.cur.entry } s) := by
  simp [raise, h]
theorem raise_seq {n : Nat} (h : s.cur.unit = .seq n) (code : Nat) (info : Word) : raise code info s = .next (ownFault n code info s) := by
  simp [raise, h]
theorem finish_tile {t : Nat} (h : s.cur.unit = .tile t) : finish s = .next s := by simp [finish, h]
theorem finish_seq {n : Nat} (h : s.cur.unit = .seq n) : finish s = .next (s.updSeq n fun q => q.advance s.pcyc) := by simp [finish, h]
theorem finishScalar_tile {t : Nat} (h : s.cur.unit = .tile t) (lat : Nat) (d : BitVec 6) (v : Word) :
    finishScalar lat d v s = .next (s.setTile t (addPending (s.tile t) lat (.scalar d.toNat v))) := by simp [finishScalar, h]
theorem finishScalar_seq {n : Nat} (h : s.cur.unit = .seq n) (lat : Nat) (d : BitVec 6) (v : Word) :
    finishScalar lat d v s = .next (s.updSeq n fun q => (q.write d.toNat v (s.pcyc + lat)).advance s.pcyc) := by simp [finishScalar, h]

/-- A scalar result is never in the way: the instruction completes, and no byte changes. -/
theorem finishScalar_next (lat : Nat) (d : BitVec 6) (v : Word) : ∃ u, finishScalar lat d v s = .next u ∧ u.memories = s.memories := by
  unfold finishScalar; split <;> exact ⟨_, rfl, rfl⟩

theorem finish_next : ∃ u, finish s = .next u ∧ u.memories = s.memories := by
  unfold finish; split <;> exact ⟨_, rfl, rfl⟩

end units

/-! ## Results on their way (R99, R100) -/

@[simp] theorem addPending_s (x : Tile) (l : Nat) (r : Result) (o : Option Nat) : (addPending x l r o).s = x.s := rfl
@[simp] theorem addPending_v (x : Tile) (l : Nat) (r : Result) (o : Option Nat) : (addPending x l r o).v = x.v := rfl
@[simp] theorem addPending_p (x : Tile) (l : Nat) (r : Result) (o : Option Nat) : (addPending x l r o).p = x.p := rfl
@[simp] theorem addPending_q (x : Tile) (l : Nat) (r : Result) (o : Option Nat) : (addPending x l r o).q = x.q := rfl
@[simp] theorem addPending_region (x : Tile) (l : Nat) (r : Result) (o : Option Nat) : (addPending x l r o).region = x.region := rfl
@[simp] theorem addPending_reports (x : Tile) (l : Nat) (r : Result) (o : Option Nat) : (addPending x l r o).reports = x.reports := rfl

@[simp] theorem addPending_issuing (x : Tile) (l : Nat) (r : Result) (o : Option Nat) : (addPending x l r o).issuing = x.issuing := rfl
@[simp] theorem addPending_pend (x : Tile) (l : Nat) (r : Result) (o : Option Nat) :
    (addPending x l r o).pend = putPending { left := l, order := x.issuing, res := r, op := o } x.pend := rfl

/-- A result takes its place among the pending ones, and none is lost. -/
theorem mem_putPending (p q : Pending) (l : List Pending) : q ∈ putPending p l ↔ q = p ∨ q ∈ l := by
  induction l with
  | nil => simp [putPending]
  | cons a l ih => unfold putPending; split <;> simp [ih, or_left_comm]

/-- Results join the pending ones, each behind those of the entries that issued before it or with it. -/
theorem pend_addPendings (rs : List Result) (lat : Nat) (x : Tile) :
    (rs.foldl (fun x r => addPending x lat r) x).pend =
      rs.foldl (fun l r => putPending { left := lat, order := x.issuing, res := r } l) x.pend := by
  induction rs generalizing x with
  | nil => rfl
  | cons r rs ih => rw [List.foldl_cons, ih, List.foldl_cons, addPending_issuing, addPending_pend]

@[simp] theorem deliver_memories (lat t : Nat) (rs : List Result) (s : State) : (deliver lat t rs s).memories = s.memories := rfl
@[simp] theorem deliver_pend (lat t : Nat) (rs : List Result) (s : State) : ((deliver lat t rs s).tile t).pend =
    rs.foldl (fun l r => putPending { left := lat, order := (s.tile t).issuing, res := r } l) (s.tile t).pend := by
  simp only [deliver, State.setTile_tile_self, pend_addPendings]
theorem deliver_tile_of_ne (lat : Nat) {t u : Nat} (rs : List Result) (s : State) (h : u ≠ t) : (deliver lat t rs s).tile u = s.tile u :=
  State.setTile_tile_of_ne _ _ h

/-- A due result writes only the register that it names. -/
theorem applyResult_scalar (x : Tile) (r q : Nat) (v : Word) :
    regOf (applyResult x (.scalar r v)).s q = if q = r ∧ r ≠ 0 then v else regOf x.s q := by
  simp only [applyResult, regOf_setRegOf]

theorem applyResult_vector_self (x : Tile) (r : Nat) (mask v : Vec) :
    vecOf (applyResult x (.vector r mask v)) r = (vecOf x r &&& ~~~mask) ||| (v &&& mask) := by
  simp [applyResult, vecOf]

theorem applyResult_vector_of_ne (x : Tile) {r q : Nat} (mask v : Vec) (h : q ≠ r) :
    vecOf (applyResult x (.vector r mask v)) q = vecOf x q := by
  simp [applyResult, vecOf, mget_mput_of_ne _ _ _ h]

theorem predOf_zero (x : Tile) : predOf x 0 = allTrue := rfl

theorem applyResult_pred_zero (x : Tile) (mask v : Pred) : applyResult x (.pred 0 mask v) = x := rfl

/-! ## Faults of a tile (R352, R356) -/

theorem tileReport_memories (t : Nat) (r : Report) (s : State) : (tileReport t r s).memories = s.memories := by
  unfold tileReport; dsimp only; split <;> split <;> try split
  all_goals rfl

/-- A report is one of the tile's, as of the boundary at which it is raised. -/
theorem mem_insertReport (r q : Report) (l : List Report) : q ∈ insertReport r l ↔ q = r ∨ q ∈ l := by
  induction l with
  | nil => simp [insertReport]
  | cons a l ih => unfold insertReport; split <;> simp [ih, or_left_comm]

theorem tileReport_reports (t : Nat) (r : Report) (s : State) :
    ((tileReport t r s).tile t).reports = insertReport { r with since := max r.since s.pcyc } (s.tile t).reports := by
  unfold tileReport; dsimp only; split <;> split <;> try split
  all_goals simp

/-- The region freezes, with nothing left to wait for. -/
theorem tileReport_region (t k : Nat) (r : Report) (s : State) (h : (s.tile t).region = some k) :
    ((tileReport t r s).regionAt k).rstate = 3 ∧ ((tileReport t r s).regionAt k).wcnt = 0 := by
  unfold tileReport; simp only [h]; split <;> try split
  all_goals simp

/-! ## Taking an exception (R357 to R360) -/

section traps
variable (n : Nat) (r : TrapReq) (resume : Word) (s : State)

@[simp] theorem trapEntry_memories : (trapEntry n r resume s).memories = s.memories := rfl
@[simp] theorem trapEntry_pc : ((trapEntry n r resume s).seq n).pc = (s.seq n).tvec := by simp [trapEntry]
@[simp] theorem trapEntry_tepc : ((trapEntry n r resume s).seq n).tepc = resume := by simp [trapEntry]
@[simp] theorem trapEntry_tcause : ((trapEntry n r resume s).seq n).tcause = r.cause := by simp [trapEntry]
@[simp] theorem trapEntry_tinfo : ((trapEntry n r resume s).seq n).tinfo = r.info := by simp [trapEntry]
@[simp] theorem trapEntry_twhere : ((trapEntry n r resume s).seq n).twhere = r.loc := by simp [trapEntry]
@[simp] theorem trapEntry_trap : ((trapEntry n r resume s).seq n).trap = true := by simp [trapEntry]
@[simp] theorem trapEntry_skip : ((trapEntry n r resume s).seq n).skip = false := by simp [trapEntry]
@[simp] theorem trapEntry_loops : ((trapEntry n r resume s).seq n).loops = [] := by simp [trapEntry]
@[simp] theorem trapEntry_shadow : ((trapEntry n r resume s).seq n).shadow = (s.seq n).loops := by simp [trapEntry]
@[simp] theorem trapEntry_ready : ((trapEntry n r resume s).seq n).ready = s.pcyc + 3 := by simp [trapEntry]
@[simp] theorem trapEntry_s : ((trapEntry n r resume s).seq n).s = (s.seq n).s := by simp [trapEntry]
theorem trapEntry_of_ne {m : Nat} (h : m ≠ n) : (trapEntry n r resume s).seq m = s.seq m := by
  unfold trapEntry State.updSeq; exact State.setSeq_seq_of_ne _ _ h

/-- With a handler, a trap is an entry. -/
theorem takeTrap_handler (h : (s.seq n).tvec ≠ 0) : takeTrap n r resume s = trapEntry n r resume s := by rw [takeTrap, if_neg h]

/-- A unit's own fault outside a handler is an entry that comes back to the faulting instruction. -/
theorem ownFault_handler (code : Nat) (info : Word) (h : (s.seq n).trap = false) (hv : (s.seq n).tvec ≠ 0) :
    ownFault n code info s = trapEntry n { cause := code, info := info, loc := s.seqLoc n, kind := .own } (s.seq n).pc s := by
  simp only [ownFault, h, takeTrap, hv, Bool.false_eq_true, if_false]

@[simp] theorem passTrap_memories : (passTrap n r s).memories = s.memories := rfl

theorem forwardTrap_memories : (forwardTrap n r resume s).memories = s.memories := by
  unfold forwardTrap; split
  · simp
  · exact State.memories_tellHost ..

theorem fatal_memories : (fatal n r s).memories = s.memories := by
  unfold fatal; dsimp only; split <;> simp

theorem takeTrap_memories : (takeTrap n r resume s).memories = s.memories := by
  unfold takeTrap; split
  · dsimp only; split <;> simp [forwardTrap_memories]
  · rfl

theorem ownFault_memories (code : Nat) (info : Word) : (ownFault n code info s).memories = s.memories := by
  unfold ownFault; dsimp only; split
  · split
    · exact forwardTrap_memories ..
    · exact fatal_memories ..
  · exact takeTrap_memories ..

/-- Raising a fault is a next state that changes no byte. -/
theorem raise_next (code : Nat) (info : Word) : ∃ u, raise code info s = .next u ∧ u.memories = s.memories := by
  unfold raise; split
  · exact ⟨_, rfl, tileReport_memories ..⟩
  · exact ⟨_, rfl, ownFault_memories ..⟩

end traps

/-! ## The return (R359) -/

section trapReturn
variable (n : Nat) (s : State)

@[simp] theorem trapReturn_memories : (trapReturn n s).memories = s.memories := rfl
@[simp] theorem trapReturn_trap : ((trapReturn n s).seq n).trap = false := by simp [trapReturn]
@[simp] theorem trapReturn_loops : ((trapReturn n s).seq n).loops = (s.seq n).shadow := by simp [trapReturn]
@[simp] theorem trapReturn_s : ((trapReturn n s).seq n).s = (s.seq n).s := by simp [trapReturn]
@[simp] theorem trapReturn_tvec : ((trapReturn n s).seq n).tvec = (s.seq n).tvec := by simp [trapReturn]
theorem trapReturn_pc (h : (s.seq n).skip = false) (h' : (s.seq n).behind = none) : ((trapReturn n s).seq n).pc = (s.seq n).tepc := by
  simp [trapReturn, Seq.returnPc, h, h']
theorem trapReturn_of_ne {m : Nat} (h : m ≠ n) : (trapReturn n s).seq m = s.seq m := by
  unfold trapReturn State.updSeq; exact State.setSeq_seq_of_ne _ _ h

/-- Entry and return bring the loops and the pc back. -/
theorem trapReturn_trapEntry (r : TrapReq) (resume : Word) :
    ((trapReturn n (trapEntry n r resume s)).seq n).loops = (s.seq n).loops ∧
      ((trapReturn n (trapEntry n r resume s)).seq n).pc = resume :=
  ⟨by simp, by rw [trapReturn_pc _ _ (trapEntry_skip ..) (by simp [trapEntry]), trapEntry_tepc]⟩

end trapReturn

end Sys2Proof.Machine
end

