-- ==== Sys2Proof/Laws/PerInstr.lean ====
section
/-! SUPPORT. Facts about every instruction as syntax: decoding gives back what encoding wrote, one lemma per constructor. -/

namespace Sys2Proof

/-- A word that holds the encoding of a well-formed instruction, and no bit that the row does not use, decodes to it. -/
theorem decode_of_row {place : Place} {w : Word} {i : Instr} {sh : Shape} {rows : Nat → Option Instr}
    (hs : i.shape = some sh) (hr : rowsOf w (opOf w).toNat = some rows) (hi : rows (subOf w).toNat = some i)
    (he : encode (stampOf w) i = some w) (hf : i.fold = foldOf w)
    (hk : (!sh.folds && foldOf w != 0) = false)
    (ht : (sh.ftFixed.any fun v => (ftOf w).toNat != v) = false) (hx : (sh.xFixed.any fun v => (xOf w).toNat != v) = false)
    (hp : ((sh.fmt == .t3 || sh.fmt == .ta) && !sh.usesP && pOf w != 0) = false) (hm : (sh.rmZero && rmOf w != 0) = false)
    (h : i.WellFormed place = true) : decode place w = .ok i := by
  simp only [Instr.WellFormed, hs, Bool.and_eq_true, Instr.foldOk, hf, bne_iff_ne] at h
  obtain ⟨⟨⟨⟨h1, h2⟩, h3⟩, h4⟩, h5⟩ := h
  have hc : checkFields place w i sh = none := by
    unfold checkFields
    have e3 : (foldOf w == 3) = false := by simpa using h2
    simp only [h1, h3, h4, h5, hk, ht, hx, hp, hm, e3, he, Bool.not_true, Bool.false_eq_true, Bool.or_self, if_false, bne_self_eq_false]
  simp only [decode, hr, hi, hs, hc]

namespace Laws.Codec

/-- Decoding what encoding wrote gives the instruction back, at every stamp and wherever it is well-formed. -/
def Statement (i : Instr) : Prop :=
  ∀ (place : Place) (stamp : BitVec 12), i.WellFormed place = true →
    ∃ w, encode stamp i = some w ∧ stampOf w = stamp ∧ decode place w = .ok i

/-- An event has no word and is nowhere well-formed. -/
theorem event {i : Instr} (h : i.shape = none) : Statement i := fun place _ hw => by simp [Instr.WellFormed, h] at hw

theorem resultWriteback (tile : Nat) : Statement (.resultWriteback tile) := event rfl
theorem regionResume (ctx : Nat) (slot : Nat) (reg : Nat) : Statement (.regionResume ctx slot reg) := event rfl
theorem phaseStart (ctx : Nat) (slot : Nat) (reg : Nat) : Statement (.phaseStart ctx slot reg) := event rfl
theorem phaseEnd (ctx : Nat) (slot : Nat) (reg : Nat) : Statement (.phaseEnd ctx slot reg) := event rfl
theorem stall (ctx : Nat) (slot : Nat) (reg : Nat) : Statement (.stall ctx slot reg) := event rfl
theorem scheduledTokenArrival (ctx : Nat) (tag : Nat) : Statement (.scheduledTokenArrival ctx tag) := event rfl
theorem ringWindowWrite (ctx : Nat) (tag : Nat) : Statement (.ringWindowWrite ctx tag) := event rfl
theorem creditArrival (ctx : Nat) (tag : Nat) : Statement (.creditArrival ctx tag) := event rfl
theorem chunkGrant (ctx : Nat) (tag : Nat) : Statement (.chunkGrant ctx tag) := event rfl
theorem sourceRequest (ctx : Nat) (slot : Nat) (ma : Nat) : Statement (.sourceRequest ctx slot ma) := event rfl
theorem dramReply (op : Nat) : Statement (.dramReply op) := event rfl
theorem gatherIndexTake (ctx : Nat) (slot : Nat) (ma : Nat) : Statement (.gatherIndexTake ctx slot ma) := event rfl
theorem scatterAddUpdate (ctx : Nat) (slot : Nat) (ma : Nat) : Statement (.scatterAddUpdate ctx slot ma) := event rfl
theorem sinkWrite (ctx : Nat) (slot : Nat) (ma : Nat) : Statement (.sinkWrite ctx slot ma) := event rfl
theorem modeRequestArrival (ctx : Nat) (slot : Nat) (point : Nat) : Statement (.modeRequestArrival ctx slot point) := event rfl
theorem memoryActorQuiescent (ctx : Nat) (slot : Nat) (ma : Nat) : Statement (.memoryActorQuiescent ctx slot ma) := event rfl
theorem startPulse (ctx : Nat) (slot : Nat) : Statement (.startPulse ctx slot) := event rfl
theorem copyFiring (ctx : Nat) (slot : Nat) (tpl : Nat) : Statement (.copyFiring ctx slot tpl) := event rfl
theorem copyCompletion (ctx : Nat) (slot : Nat) (tpl : Nat) : Statement (.copyCompletion ctx slot tpl) := event rfl
theorem bankAccess (op : Nat) : Statement (.bankAccess op) := event rfl
theorem presenceReadServed (op : Nat) : Statement (.presenceReadServed op) := event rfl
theorem generatorTakePattern (mtile : Nat) (gen : Nat) : Statement (.generatorTakePattern mtile gen) := event rfl
theorem joinSignalArrival (ctx : Nat) (slot : Nat) (join : Nat) (member : Nat) :
    Statement (.joinSignalArrival ctx slot join member) := event rfl
theorem releaseArrival (ctx : Nat) (slot : Nat) (join : Nat) (member : Nat) :
    Statement (.releaseArrival ctx slot join member) := event rfl
theorem controlTokenArrival (ctx : Nat) (tag : Nat) : Statement (.controlTokenArrival ctx tag) := event rfl
theorem orderTokenArrival (unit : Nat) (chan : Nat) (seqn : Nat) : Statement (.orderTokenArrival unit chan seqn) := event rfl
theorem atomicPipelineTake (op : Nat) : Statement (.atomicPipelineTake op) := event rfl
theorem farAtomicReply (op : Nat) : Statement (.farAtomicReply op) := event rfl
theorem ramoInvocationArrival (link : Nat) : Statement (.ramoInvocationArrival link) := event rfl
theorem ramoReply (op : Nat) : Statement (.ramoReply op) := event rfl
theorem colourDraw (op : Nat) : Statement (.colourDraw op) := event rfl
theorem tensorFiringStart (tile : Nat) (ts : Nat) : Statement (.tensorFiringStart tile ts) := event rfl
theorem tensorFiringComplete (tile : Nat) (ts : Nat) : Statement (.tensorFiringComplete tile ts) := event rfl
theorem ttagArrival (op : Nat) : Statement (.ttagArrival op) := event rfl
theorem treadRead (op : Nat) : Statement (.treadRead op) := event rfl
theorem tstoreStart (tile : Nat) : Statement (.tstoreStart tile) := event rfl
theorem tstoreComplete (tile : Nat) : Statement (.tstoreComplete tile) := event rfl
theorem tacczEffect (tile : Nat) (acc : Nat) : Statement (.tacczEffect tile acc) := event rfl
theorem twloadValid (tile : Nat) : Statement (.twloadValid tile) := event rfl
theorem systolicPassStart (ctx : Nat) (slot : Nat) (grp : Nat) : Statement (.systolicPassStart ctx slot grp) := event rfl
theorem systolicPassComplete (ctx : Nat) (slot : Nat) (grp : Nat) : Statement (.systolicPassComplete ctx slot grp) := event rfl
theorem tileFaultReport (tile : Nat) : Statement (.tileFaultReport tile) := event rfl
theorem trapEntry (seq : Nat) : Statement (.trapEntry seq) := event rfl
theorem seqCompletionFault (seq : Nat) : Statement (.seqCompletionFault seq) := event rfl
theorem haltPoint (ctx : Nat) : Statement (.haltPoint ctx) := event rfl
theorem saveComplete (ctx : Nat) : Statement (.saveComplete ctx) := event rfl
theorem restorePulse (ctx : Nat) : Statement (.restorePulse ctx) := event rfl
theorem drainComplete (ctx : Nat) : Statement (.drainComplete ctx) := event rfl
theorem graphLoadComplete (ctx : Nat) (slot : Nat) : Statement (.graphLoadComplete ctx slot) := event rfl
theorem graphPlacement (ctx : Nat) (slot : Nat) : Statement (.graphPlacement ctx slot) := event rfl
theorem stagingComplete (ctx : Nat) (slot : Nat) : Statement (.stagingComplete ctx slot) := event rfl
theorem launchRecordRead (ctx : Nat) : Statement (.launchRecordRead ctx) := event rfl
theorem recordRun (ctx : Nat) (id : Nat) : Statement (.recordRun ctx id) := event rfl
theorem recordKick (ctx : Nat) (id : Nat) : Statement (.recordKick ctx id) := event rfl
theorem recordMode (ctx : Nat) (id : Nat) : Statement (.recordMode ctx id) := event rfl
theorem recordNote (ctx : Nat) (id : Nat) : Statement (.recordNote ctx id) := event rfl
theorem recordUnload (ctx : Nat) (id : Nat) : Statement (.recordUnload ctx id) := event rfl
theorem recordFinish (ctx : Nat) (id : Nat) : Statement (.recordFinish ctx id) := event rfl
theorem thermalSample (die : Nat) (degrees : Nat) : Statement (.thermalSample die degrees) := event rfl
theorem allowanceUpdate (die : Nat) : Statement (.allowanceUpdate die) := event rfl
theorem migrationRequest (die : Nat) (w0 : Nat) (w1 : Nat) (w2 : Nat) (w3 : Nat) :
    Statement (.migrationRequest die w0 w1 w2 w3) := event rfl
theorem migrationAccept (die : Nat) : Statement (.migrationAccept die) := event rfl
theorem migrationPassEnd (die : Nat) : Statement (.migrationPassEnd die) := event rfl
theorem migrationCommit (die : Nat) : Statement (.migrationCommit die) := event rfl
theorem walkComplete (op : Nat) : Statement (.walkComplete op) := event rfl
theorem testBankEnd (die : Nat) (bank : Nat) (failed : Nat) : Statement (.testBankEnd die bank failed) := event rfl
theorem readRetry (site : ReadSite) (lasting : Nat) : Statement (.readRetry site lasting) := event rfl
theorem configStoreError (ctx : Nat) (slot : Nat) (reg : Nat) (lasting : Nat) :
    Statement (.configStoreError ctx slot reg lasting) := event rfl
theorem configReloadComplete (ctx : Nat) (slot : Nat) (reg : Nat) (failed : Nat) :
    Statement (.configReloadComplete ctx slot reg failed) := event rfl
theorem snapOpenPoint (ctx : Nat) : Statement (.snapOpenPoint ctx) := event rfl
theorem sweeperVisit (ctx : Nat) : Statement (.sweeperVisit ctx) := event rfl
theorem snapshotSealing (ctx : Nat) : Statement (.snapshotSealing ctx) := event rfl
theorem sealComplete (ctx : Nat) : Statement (.sealComplete ctx) := event rfl
theorem snapshotFail (ctx : Nat) (reason : Nat) : Statement (.snapshotFail ctx reason) := event rfl
theorem failureSweepEnd (ctx : Nat) : Statement (.failureSweepEnd ctx) := event rfl
theorem copyBackPage (ctx : Nat) : Statement (.copyBackPage ctx) := event rfl
theorem frameSend (link : Nat) : Statement (.frameSend link) := event rfl
theorem frameDelivery (link : Nat) (fseq : Nat) (flip : Nat) (body : Nat) :
    Statement (.frameDelivery link fseq flip body) := event rfl
theorem frameResend (link : Nat) : Statement (.frameResend link) := event rfl
theorem frameHoldTimeout (link : Nat) : Statement (.frameHoldTimeout link) := event rfl
theorem boundaryFlitResend (boundary : Nat) (fails : Nat) : Statement (.boundaryFlitResend boundary fails) := event rfl
theorem linkTrainingDone (link : Nat) (ok : Nat) : Statement (.linkTrainingDone link ok) := event rfl
theorem linkEnable (link : Nat) : Statement (.linkEnable link) := event rfl
theorem carrierLoss (link : Nat) : Statement (.carrierLoss link) := event rfl
theorem rankLost (rank : Nat) : Statement (.rankLost rank) := event rfl
theorem pcycAdopt (link : Nat) (master : Nat) : Statement (.pcycAdopt link master) := event rfl
theorem linkRetrain (link : Nat) : Statement (.linkRetrain link) := event rfl
theorem linkReset (link : Nat) : Statement (.linkReset link) := event rfl
theorem ctxcreate (va : Nat) : Statement (.ctxcreate va) := event rfl
theorem contextDestroy (ctx : Nat) : Statement (.contextDestroy ctx) := event rfl
theorem hostResume (value : Nat) : Statement (.hostResume value) := event rfl
theorem hostDoorbell (ctx : Nat) (size : Nat) (value : Nat) : Statement (.hostDoorbell ctx size value) := event rfl
theorem causeFifoRead (ctx : Nat) : Statement (.causeFifoRead ctx) := event rfl
theorem packageEventRead : Statement (.packageEventRead) := event rfl
theorem errorLogRead (die : Nat) : Statement (.errorLogRead die) := event rfl
theorem bar2Read (pa : Nat) (len : Nat) : Statement (.bar2Read pa len) := event rfl
theorem bar2Write (pa : Nat) (bytes : List (BitVec 8)) : Statement (.bar2Write pa bytes) := event rfl
theorem dccall (die : Nat) (value : Nat) : Statement (.dccall die value) := event rfl
theorem dccallEntry (die : Nat) : Statement (.dccallEntry die) := event rfl
theorem pkgreset : Statement (.pkgreset) := event rfl
theorem dcrestart (die : Nat) : Statement (.dcrestart die) := event rfl
theorem registerWrite (addr : Nat) (value : Nat) : Statement (.registerWrite addr value) := event rfl
theorem powerGood : Statement (.powerGood) := event rfl
theorem nearResultLate (ctx : Nat) (slot : Nat) (reg : Nat) : Statement (.nearResultLate ctx slot reg) := event rfl
theorem testBankStart (die : Nat) (bank : Nat) : Statement (.testBankStart die bank) := event rfl
theorem pcieError (value : Nat) : Statement (.pcieError value) := event rfl
theorem dramAccessPerformed (op : Nat) : Statement (.dramAccessPerformed op) := event rfl
theorem boundaryFlitCrossing (boundary : Nat) (errors : Nat) : Statement (.boundaryFlitCrossing boundary errors) := event rfl
theorem nop : Statement (.nop) := fun _ _ h =>
  ⟨_, rfl, by simp, decode_of_row rfl (by rw [opOf_mkWord]; rfl) (by rw [subOf_mkWord]; exact congrArg some (rfl))
    (by rw [stampOf_mkWord]; rfl) (by rw [foldOf_mkWord]; rfl) (by simp) (by simp) (by simp) (by simp) (by simp) h⟩
theorem br (target : BitVec 26) : Statement (.br target) := fun _ _ h =>
  ⟨_, rfl, by simp, decode_of_row rfl (by rw [opOf_mkWord]; rfl) (by rw [subOf_mkWord]; exact congrArg some (by simp))
    (by rw [stampOf_mkWord]; rfl) (by rw [foldOf_mkWord]; rfl) (by simp) (by simp) (by simp) (by simp) (by simp) h⟩
theorem beq (d : BitVec 6) (a : BitVec 6) (target : BitVec 26) : Statement (.beq d a target) := fun _ _ h =>
  ⟨_, rfl, by simp, decode_of_row rfl (by rw [opOf_mkWord]; rfl) (by rw [subOf_mkWord]; exact congrArg some (by simp))
    (by rw [stampOf_mkWord]; rfl) (by rw [foldOf_mkWord]; rfl) (by simp) (by simp) (by simp) (by simp) (by simp) h⟩
theorem bne (d : BitVec 6) (a : BitVec 6) (target : BitVec 26) : Statement (.bne d a target) := fun _ _ h =>
  ⟨_, rfl, by simp, decode_of_row rfl (by rw [opOf_mkWord]; rfl) (by rw [subOf_mkWord]; exact congrArg some (by simp))
    (by rw [stampOf_mkWord]; rfl) (by rw [foldOf_mkWord]; rfl) (by simp) (by simp) (by simp) (by simp) (by simp) h⟩
theorem blt (d : BitVec 6) (a : BitVec 6) (target : BitVec 26) : Statement (.blt d a target) := fun _ _ h =>
  ⟨_, rfl, by simp, decode_of_row rfl (by rw [opOf_mkWord]; rfl) (by rw [subOf_mkWord]; exact congrArg some (by simp))
    (by rw [stampOf_mkWord]; rfl) (by rw [foldOf_mkWord]; rfl) (by simp) (by simp) (by simp) (by simp) (by simp) h⟩
theorem bge (d : BitVec 6) (a : BitVec 6) (target : BitVec 26) : Statement (.bge d a target) := fun _ _ h =>
  ⟨_, rfl, by simp, decode_of_row rfl (by rw [opOf_mkWord]; rfl) (by rw [subOf_mkWord]; exact congrArg some (by simp))
    (by rw [stampOf_mkWord]; rfl) (by rw [foldOf_mkWord]; rfl) (by simp) (by simp) (by simp) (by simp) (by simp) h⟩
theorem bltu (d : BitVec 6) (a : BitVec 6) (target : BitVec 26) : Statement (.bltu d a target) := fun _ _ h =>
  ⟨_, rfl, by simp, decode_of_row rfl (by rw [opOf_mkWord]; rfl) (by rw [subOf_mkWord]; exact congrArg some (by simp))
    (by rw [stampOf_mkWord]; rfl) (by rw [foldOf_mkWord]; rfl) (by simp) (by simp) (by simp) (by simp) (by simp) h⟩
theorem bgeu (d : BitVec 6) (a : BitVec 6) (target : BitVec 26) : Statement (.bgeu d a target) := fun _ _ h =>
  ⟨_, rfl, by simp, decode_of_row rfl (by rw [opOf_mkWord]; rfl) (by rw [subOf_mkWord]; exact congrArg some (by simp))
    (by rw [stampOf_mkWord]; rfl) (by rw [foldOf_mkWord]; rfl) (by simp) (by simp) (by simp) (by simp) (by simp) h⟩
theorem call (d : BitVec 6) (target : BitVec 26) : Statement (.call d target) := fun _ _ h =>
  ⟨_, rfl, by simp, decode_of_row rfl (by rw [opOf_mkWord]; rfl) (by rw [subOf_mkWord]; exact congrArg some (by simp))
    (by rw [stampOf_mkWord]; rfl) (by rw [foldOf_mkWord]; rfl) (by simp) (by simp) (by simp) (by simp) (by simp) h⟩
theorem jr (a : BitVec 6) : Statement (.jr a) := fun _ _ h =>
  ⟨_, rfl, by simp, decode_of_row rfl (by rw [opOf_mkWord]; rfl) (by rw [subOf_mkWord]; exact congrArg some (by simp))
    (by rw [stampOf_mkWord]; rfl) (by rw [foldOf_mkWord]; rfl) (by simp) (by simp) (by simp) (by simp) (by simp) h⟩
theorem jalr (d : BitVec 6) (a : BitVec 6) : Statement (.jalr d a) := fun _ _ h =>
  ⟨_, rfl, by simp, decode_of_row rfl (by rw [opOf_mkWord]; rfl) (by rw [subOf_mkWord]; exact congrArg some (by simp))
    (by rw [stampOf_mkWord]; rfl) (by rw [foldOf_mkWord]; rfl) (by simp) (by simp) (by simp) (by simp) (by simp) h⟩
theorem loop (d : BitVec 6) (count : BitVec 16) (span : BitVec 16) : Statement (.loop d count span) := fun _ _ h =>
  ⟨_, rfl, by simp, decode_of_row rfl (by rw [opOf_mkWord]; rfl) (by rw [subOf_mkWord]; exact congrArg some (by simp))
    (by rw [stampOf_mkWord]; rfl) (by rw [foldOf_mkWord]; rfl) (by simp) (by simp) (by simp) (by simp) (by simp) h⟩
theorem loopr (d : BitVec 6) (a : BitVec 6) (span : BitVec 16) : Statement (.loopr d a span) := fun _ _ h =>
  ⟨_, rfl, by simp, decode_of_row rfl (by rw [opOf_mkWord]; rfl) (by rw [subOf_mkWord]; exact congrArg some (by simp))
    (by rw [stampOf_mkWord]; rfl) (by rw [foldOf_mkWord]; rfl) (by simp) (by simp) (by simp) (by simp) (by simp) h⟩
theorem tloop (d : BitVec 6) (stride : BitVec 12) (count : BitVec 10) (span : BitVec 10) :
    Statement (.tloop d stride count span) := fun _ _ h =>
  ⟨_, rfl, by simp, decode_of_row rfl (by rw [opOf_mkWord]; rfl) (by rw [subOf_mkWord]; exact congrArg some (by simp))
    (by rw [stampOf_mkWord]; rfl) (by rw [foldOf_mkWord]; rfl) (by simp) (by simp) (by simp) (by simp) (by simp) h⟩
theorem add (d : BitVec 6) (a : BitVec 6) (b : BitVec 6) : Statement (.add d a b) := fun _ _ h =>
  ⟨_, rfl, by simp, decode_of_row rfl (by rw [opOf_mkWord]; rfl) (by rw [subOf_mkWord]; exact congrArg some (by simp))
    (by rw [stampOf_mkWord]; rfl) (by rw [foldOf_mkWord]; rfl) (by simp) (by simp) (by simp) (by simp) (by simp) h⟩
theorem sub (d : BitVec 6) (a : BitVec 6) (b : BitVec 6) : Statement (.sub d a b) := fun _ _ h =>
  ⟨_, rfl, by simp, decode_of_row rfl (by rw [opOf_mkWord]; rfl) (by rw [subOf_mkWord]; exact congrArg some (by simp))
    (by rw [stampOf_mkWord]; rfl) (by rw [foldOf_mkWord]; rfl) (by simp) (by simp) (by simp) (by simp) (by simp) h⟩
theorem and (d : BitVec 6) (a : BitVec 6) (b : BitVec 6) : Statement (.and d a b) := fun _ _ h =>
  ⟨_, rfl, by simp, decode_of_row rfl (by rw [opOf_mkWord]; rfl) (by rw [subOf_mkWord]; exact congrArg some (by simp))
    (by rw [stampOf_mkWord]; rfl) (by rw [foldOf_mkWord]; rfl) (by simp) (by simp) (by simp) (by simp) (by simp) h⟩
theorem or (d : BitVec 6) (a : BitVec 6) (b : BitVec 6) : Statement (.or d a b) := fun _ _ h =>
  ⟨_, rfl, by simp, decode_of_row rfl (by rw [opOf_mkWord]; rfl) (by rw [subOf_mkWord]; exact congrArg some (by simp))
    (by rw [stampOf_mkWord]; rfl) (by rw [foldOf_mkWord]; rfl) (by simp) (by simp) (by simp) (by simp) (by simp) h⟩
theorem xor (d : BitVec 6) (a : BitVec 6) (b : BitVec 6) : Statement (.xor d a b) := fun _ _ h =>
  ⟨_, rfl, by simp, decode_of_row rfl (by rw [opOf_mkWord]; rfl) (by rw [subOf_mkWord]; exact congrArg some (by simp))
    (by rw [stampOf_mkWord]; rfl) (by rw [foldOf_mkWord]; rfl) (by simp) (by simp) (by simp) (by simp) (by simp) h⟩
theorem sll (d : BitVec 6) (a : BitVec 6) (b : BitVec 6) : Statement (.sll d a b) := fun _ _ h =>
  ⟨_, rfl, by simp, decode_of_row rfl (by rw [opOf_mkWord]; rfl) (by rw [subOf_mkWord]; exact congrArg some (by simp))
    (by rw [stampOf_mkWord]; rfl) (by rw [foldOf_mkWord]; rfl) (by simp) (by simp) (by simp) (by simp) (by simp) h⟩
theorem srl (d : BitVec 6) (a : BitVec 6) (b : BitVec 6) : Statement (.srl d a b) := fun _ _ h =>
  ⟨_, rfl, by simp, decode_of_row rfl (by rw [opOf_mkWord]; rfl) (by rw [subOf_mkWord]; exact congrArg some (by simp))
    (by rw [stampOf_mkWord]; rfl) (by rw [foldOf_mkWord]; rfl) (by simp) (by simp) (by simp) (by simp) (by simp) h⟩
theorem sra (d : BitVec 6) (a : BitVec 6) (b : BitVec 6) : Statement (.sra d a b) := fun _ _ h =>
  ⟨_, rfl, by simp, decode_of_row rfl (by rw [opOf_mkWord]; rfl) (by rw [subOf_mkWord]; exact congrArg some (by simp))
    (by rw [stampOf_mkWord]; rfl) (by rw [foldOf_mkWord]; rfl) (by simp) (by simp) (by simp) (by simp) (by simp) h⟩
theorem mul (d : BitVec 6) (a : BitVec 6) (b : BitVec 6) : Statement (.mul d a b) := fun _ _ h =>
  ⟨_, rfl, by simp, decode_of_row rfl (by rw [opOf_mkWord]; rfl) (by rw [subOf_mkWord]; exact congrArg some (by simp))
    (by rw [stampOf_mkWord]; rfl) (by rw [foldOf_mkWord]; rfl) (by simp) (by simp) (by simp) (by simp) (by simp) h⟩
theorem mulh (d : BitVec 6) (a : BitVec 6) (b : BitVec 6) : Statement (.mulh d a b) := fun _ _ h =>
  ⟨_, rfl, by simp, decode_of_row rfl (by rw [opOf_mkWord]; rfl) (by rw [subOf_mkWord]; exact congrArg some (by simp))
    (by rw [stampOf_mkWord]; rfl) (by rw [foldOf_mkWord]; rfl) (by simp) (by simp) (by simp) (by simp) (by simp) h⟩
theorem mulhu (d : BitVec 6) (a : BitVec 6) (b : BitVec 6) : Statement (.mulhu d a b) := fun _ _ h =>
  ⟨_, rfl, by simp, decode_of_row rfl (by rw [opOf_mkWord]; rfl) (by rw [subOf_mkWord]; exact congrArg some (by simp))
    (by rw [stampOf_mkWord]; rfl) (by rw [foldOf_mkWord]; rfl) (by simp) (by simp) (by simp) (by simp) (by simp) h⟩
theorem min (d : BitVec 6) (a : BitVec 6) (b : BitVec 6) : Statement (.min d a b) := fun _ _ h =>
  ⟨_, rfl, by simp, decode_of_row rfl (by rw [opOf_mkWord]; rfl) (by rw [subOf_mkWord]; exact congrArg some (by simp))
    (by rw [stampOf_mkWord]; rfl) (by rw [foldOf_mkWord]; rfl) (by simp) (by simp) (by simp) (by simp) (by simp) h⟩
theorem max (d : BitVec 6) (a : BitVec 6) (b : BitVec 6) : Statement (.max d a b) := fun _ _ h =>
  ⟨_, rfl, by simp, decode_of_row rfl (by rw [opOf_mkWord]; rfl) (by rw [subOf_mkWord]; exact congrArg some (by simp))
    (by rw [stampOf_mkWord]; rfl) (by rw [foldOf_mkWord]; rfl) (by simp) (by simp) (by simp) (by simp) (by simp) h⟩
theorem minu (d : BitVec 6) (a : BitVec 6) (b : BitVec 6) : Statement (.minu d a b) := fun _ _ h =>
  ⟨_, rfl, by simp, decode_of_row rfl (by rw [opOf_mkWord]; rfl) (by rw [subOf_mkWord]; exact congrArg some (by simp))
    (by rw [stampOf_mkWord]; rfl) (by rw [foldOf_mkWord]; rfl) (by simp) (by simp) (by simp) (by simp) (by simp) h⟩
theorem maxu (d : BitVec 6) (a : BitVec 6) (b : BitVec 6) : Statement (.maxu d a b) := fun _ _ h =>
  ⟨_, rfl, by simp, decode_of_row rfl (by rw [opOf_mkWord]; rfl) (by rw [subOf_mkWord]; exact congrArg some (by simp))
    (by rw [stampOf_mkWord]; rfl) (by rw [foldOf_mkWord]; rfl) (by simp) (by simp) (by simp) (by simp) (by simp) h⟩
theorem addi (d : BitVec 6) (a : BitVec 6) (imm : BitVec 26) : Statement (.addi d a imm) := fun _ _ h =>
  ⟨_, rfl, by simp, decode_of_row rfl (by rw [opOf_mkWord]; rfl) (by rw [subOf_mkWord]; exact congrArg some (by simp))
    (by rw [stampOf_mkWord]; rfl) (by rw [foldOf_mkWord]; rfl) (by simp) (by simp) (by simp) (by simp) (by simp) h⟩
theorem andi (d : BitVec 6) (a : BitVec 6) (imm : BitVec 26) : Statement (.andi d a imm) := fun _ _ h =>
  ⟨_, rfl, by simp, decode_of_row rfl (by rw [opOf_mkWord]; rfl) (by rw [subOf_mkWord]; exact congrArg some (by simp))
    (by rw [stampOf_mkWord]; rfl) (by rw [foldOf_mkWord]; rfl) (by simp) (by simp) (by simp) (by simp) (by simp) h⟩
theorem ori (d : BitVec 6) (a : BitVec 6) (imm : BitVec 26) : Statement (.ori d a imm) := fun _ _ h =>
  ⟨_, rfl, by simp, decode_of_row rfl (by rw [opOf_mkWord]; rfl) (by rw [subOf_mkWord]; exact congrArg some (by simp))
    (by rw [stampOf_mkWord]; rfl) (by rw [foldOf_mkWord]; rfl) (by simp) (by simp) (by simp) (by simp) (by simp) h⟩
theorem xori (d : BitVec 6) (a : BitVec 6) (imm : BitVec 26) : Statement (.xori d a imm) := fun _ _ h =>
  ⟨_, rfl, by simp, decode_of_row rfl (by rw [opOf_mkWord]; rfl) (by rw [subOf_mkWord]; exact congrArg some (by simp))
    (by rw [stampOf_mkWord]; rfl) (by rw [foldOf_mkWord]; rfl) (by simp) (by simp) (by simp) (by simp) (by simp) h⟩
theorem slli (d : BitVec 6) (a : BitVec 6) (imm : BitVec 26) : Statement (.slli d a imm) := fun _ _ h =>
  ⟨_, rfl, by simp, decode_of_row rfl (by rw [opOf_mkWord]; rfl) (by rw [subOf_mkWord]; exact congrArg some (by simp))
    (by rw [stampOf_mkWord]; rfl) (by rw [foldOf_mkWord]; rfl) (by simp) (by simp) (by simp) (by simp) (by simp) h⟩
theorem srli (d : BitVec 6) (a : BitVec 6) (imm : BitVec 26) : Statement (.srli d a imm) := fun _ _ h =>
  ⟨_, rfl, by simp, decode_of_row rfl (by rw [opOf_mkWord]; rfl) (by rw [subOf_mkWord]; exact congrArg some (by simp))
    (by rw [stampOf_mkWord]; rfl) (by rw [foldOf_mkWord]; rfl) (by simp) (by simp) (by simp) (by simp) (by simp) h⟩
theorem srai (d : BitVec 6) (a : BitVec 6) (imm : BitVec 26) : Statement (.srai d a imm) := fun _ _ h =>
  ⟨_, rfl, by simp, decode_of_row rfl (by rw [opOf_mkWord]; rfl) (by rw [subOf_mkWord]; exact congrArg some (by simp))
    (by rw [stampOf_mkWord]; rfl) (by rw [foldOf_mkWord]; rfl) (by simp) (by simp) (by simp) (by simp) (by simp) h⟩
theorem muli (d : BitVec 6) (a : BitVec 6) (imm : BitVec 26) : Statement (.muli d a imm) := fun _ _ h =>
  ⟨_, rfl, by simp, decode_of_row rfl (by rw [opOf_mkWord]; rfl) (by rw [subOf_mkWord]; exact congrArg some (by simp))
    (by rw [stampOf_mkWord]; rfl) (by rw [foldOf_mkWord]; rfl) (by simp) (by simp) (by simp) (by simp) (by simp) h⟩
theorem mini (d : BitVec 6) (a : BitVec 6) (imm : BitVec 26) : Statement (.mini d a imm) := fun _ _ h =>
  ⟨_, rfl, by simp, decode_of_row rfl (by rw [opOf_mkWord]; rfl) (by rw [subOf_mkWord]; exact congrArg some (by simp))
    (by rw [stampOf_mkWord]; rfl) (by rw [foldOf_mkWord]; rfl) (by simp) (by simp) (by simp) (by simp) (by simp) h⟩
theorem maxi (d : BitVec 6) (a : BitVec 6) (imm : BitVec 26) : Statement (.maxi d a imm) := fun _ _ h =>
  ⟨_, rfl, by simp, decode_of_row rfl (by rw [opOf_mkWord]; rfl) (by rw [subOf_mkWord]; exact congrArg some (by simp))
    (by rw [stampOf_mkWord]; rfl) (by rw [foldOf_mkWord]; rfl) (by simp) (by simp) (by simp) (by simp) (by simp) h⟩
theorem div (d : BitVec 6) (a : BitVec 6) (b : BitVec 6) : Statement (.div d a b) := fun _ _ h =>
  ⟨_, rfl, by simp, decode_of_row rfl (by rw [opOf_mkWord]; rfl) (by rw [subOf_mkWord]; exact congrArg some (by simp))
    (by rw [stampOf_mkWord]; rfl) (by rw [foldOf_mkWord]; rfl) (by simp) (by simp) (by simp) (by simp) (by simp) h⟩
theorem divu (d : BitVec 6) (a : BitVec 6) (b : BitVec 6) : Statement (.divu d a b) := fun _ _ h =>
  ⟨_, rfl, by simp, decode_of_row rfl (by rw [opOf_mkWord]; rfl) (by rw [subOf_mkWord]; exact congrArg some (by simp))
    (by rw [stampOf_mkWord]; rfl) (by rw [foldOf_mkWord]; rfl) (by simp) (by simp) (by simp) (by simp) (by simp) h⟩
theorem rem (d : BitVec 6) (a : BitVec 6) (b : BitVec 6) : Statement (.rem d a b) := fun _ _ h =>
  ⟨_, rfl, by simp, decode_of_row rfl (by rw [opOf_mkWord]; rfl) (by rw [subOf_mkWord]; exact congrArg some (by simp))
    (by rw [stampOf_mkWord]; rfl) (by rw [foldOf_mkWord]; rfl) (by simp) (by simp) (by simp) (by simp) (by simp) h⟩
theorem remu (d : BitVec 6) (a : BitVec 6) (b : BitVec 6) : Statement (.remu d a b) := fun _ _ h =>
  ⟨_, rfl, by simp, decode_of_row rfl (by rw [opOf_mkWord]; rfl) (by rw [subOf_mkWord]; exact congrArg some (by simp))
    (by rw [stampOf_mkWord]; rfl) (by rw [foldOf_mkWord]; rfl) (by simp) (by simp) (by simp) (by simp) (by simp) h⟩
theorem seq (d : BitVec 6) (a : BitVec 6) (b : BitVec 6) : Statement (.seq d a b) := fun _ _ h =>
  ⟨_, rfl, by simp, decode_of_row rfl (by rw [opOf_mkWord]; rfl) (by rw [subOf_mkWord]; exact congrArg some (by simp))
    (by rw [stampOf_mkWord]; rfl) (by rw [foldOf_mkWord]; rfl) (by simp) (by simp) (by simp) (by simp) (by simp) h⟩
theorem sne (d : BitVec 6) (a : BitVec 6) (b : BitVec 6) : Statement (.sne d a b) := fun _ _ h =>
  ⟨_, rfl, by simp, decode_of_row rfl (by rw [opOf_mkWord]; rfl) (by rw [subOf_mkWord]; exact congrArg some (by simp))
    (by rw [stampOf_mkWord]; rfl) (by rw [foldOf_mkWord]; rfl) (by simp) (by simp) (by simp) (by simp) (by simp) h⟩
theorem slt (d : BitVec 6) (a : BitVec 6) (b : BitVec 6) : Statement (.slt d a b) := fun _ _ h =>
  ⟨_, rfl, by simp, decode_of_row rfl (by rw [opOf_mkWord]; rfl) (by rw [subOf_mkWord]; exact congrArg some (by simp))
    (by rw [stampOf_mkWord]; rfl) (by rw [foldOf_mkWord]; rfl) (by simp) (by simp) (by simp) (by simp) (by simp) h⟩
theorem sge (d : BitVec 6) (a : BitVec 6) (b : BitVec 6) : Statement (.sge d a b) := fun _ _ h =>
  ⟨_, rfl, by simp, decode_of_row rfl (by rw [opOf_mkWord]; rfl) (by rw [subOf_mkWord]; exact congrArg some (by simp))
    (by rw [stampOf_mkWord]; rfl) (by rw [foldOf_mkWord]; rfl) (by simp) (by simp) (by simp) (by simp) (by simp) h⟩
theorem sltu (d : BitVec 6) (a : BitVec 6) (b : BitVec 6) : Statement (.sltu d a b) := fun _ _ h =>
  ⟨_, rfl, by simp, decode_of_row rfl (by rw [opOf_mkWord]; rfl) (by rw [subOf_mkWord]; exact congrArg some (by simp))
    (by rw [stampOf_mkWord]; rfl) (by rw [foldOf_mkWord]; rfl) (by simp) (by simp) (by simp) (by simp) (by simp) h⟩
theorem sgeu (d : BitVec 6) (a : BitVec 6) (b : BitVec 6) : Statement (.sgeu d a b) := fun _ _ h =>
  ⟨_, rfl, by simp, decode_of_row rfl (by rw [opOf_mkWord]; rfl) (by rw [subOf_mkWord]; exact congrArg some (by simp))
    (by rw [stampOf_mkWord]; rfl) (by rw [foldOf_mkWord]; rfl) (by simp) (by simp) (by simp) (by simp) (by simp) h⟩
theorem seqi (d : BitVec 6) (a : BitVec 6) (imm : BitVec 26) : Statement (.seqi d a imm) := fun _ _ h =>
  ⟨_, rfl, by simp, decode_of_row rfl (by rw [opOf_mkWord]; rfl) (by rw [subOf_mkWord]; exact congrArg some (by simp))
    (by rw [stampOf_mkWord]; rfl) (by rw [foldOf_mkWord]; rfl) (by simp) (by simp) (by simp) (by simp) (by simp) h⟩
theorem snei (d : BitVec 6) (a : BitVec 6) (imm : BitVec 26) : Statement (.snei d a imm) := fun _ _ h =>
  ⟨_, rfl, by simp, decode_of_row rfl (by rw [opOf_mkWord]; rfl) (by rw [subOf_mkWord]; exact congrArg some (by simp))
    (by rw [stampOf_mkWord]; rfl) (by rw [foldOf_mkWord]; rfl) (by simp) (by simp) (by simp) (by simp) (by simp) h⟩
theorem slti (d : BitVec 6) (a : BitVec 6) (imm : BitVec 26) : Statement (.slti d a imm) := fun _ _ h =>
  ⟨_, rfl, by simp, decode_of_row rfl (by rw [opOf_mkWord]; rfl) (by rw [subOf_mkWord]; exact congrArg some (by simp))
    (by rw [stampOf_mkWord]; rfl) (by rw [foldOf_mkWord]; rfl) (by simp) (by simp) (by simp) (by simp) (by simp) h⟩
theorem sgei (d : BitVec 6) (a : BitVec 6) (imm : BitVec 26) : Statement (.sgei d a imm) := fun _ _ h =>
  ⟨_, rfl, by simp, decode_of_row rfl (by rw [opOf_mkWord]; rfl) (by rw [subOf_mkWord]; exact congrArg some (by simp))
    (by rw [stampOf_mkWord]; rfl) (by rw [foldOf_mkWord]; rfl) (by simp) (by simp) (by simp) (by simp) (by simp) h⟩
theorem sltui (d : BitVec 6) (a : BitVec 6) (imm : BitVec 26) : Statement (.sltui d a imm) := fun _ _ h =>
  ⟨_, rfl, by simp, decode_of_row rfl (by rw [opOf_mkWord]; rfl) (by rw [subOf_mkWord]; exact congrArg some (by simp))
    (by rw [stampOf_mkWord]; rfl) (by rw [foldOf_mkWord]; rfl) (by simp) (by simp) (by simp) (by simp) (by simp) h⟩
theorem sgeui (d : BitVec 6) (a : BitVec 6) (imm : BitVec 26) : Statement (.sgeui d a imm) := fun _ _ h =>
  ⟨_, rfl, by simp, decode_of_row rfl (by rw [opOf_mkWord]; rfl) (by rw [subOf_mkWord]; exact congrArg some (by simp))
    (by rw [stampOf_mkWord]; rfl) (by rw [foldOf_mkWord]; rfl) (by simp) (by simp) (by simp) (by simp) (by simp) h⟩
theorem bfx (d : BitVec 6) (a : BitVec 6) (pos : BitVec 6) (len : BitVec 6) : Statement (.bfx d a pos len) := fun _ _ h =>
  ⟨_, rfl, by simp, decode_of_row rfl (by rw [opOf_mkWord]; rfl) (by rw [subOf_mkWord]; exact congrArg some (by simp))
    (by rw [stampOf_mkWord]; rfl) (by rw [foldOf_mkWord]; rfl) (by simp) (by simp) (by simp) (by simp) (by simp) h⟩
theorem bfxu (d : BitVec 6) (a : BitVec 6) (pos : BitVec 6) (len : BitVec 6) : Statement (.bfxu d a pos len) := fun _ _ h =>
  ⟨_, rfl, by simp, decode_of_row rfl (by rw [opOf_mkWord]; rfl) (by rw [subOf_mkWord]; exact congrArg some (by simp))
    (by rw [stampOf_mkWord]; rfl) (by rw [foldOf_mkWord]; rfl) (by simp) (by simp) (by simp) (by simp) (by simp) h⟩
theorem bfi (d : BitVec 6) (a : BitVec 6) (pos : BitVec 6) (len : BitVec 6) : Statement (.bfi d a pos len) := fun _ _ h =>
  ⟨_, rfl, by simp, decode_of_row rfl (by rw [opOf_mkWord]; rfl) (by rw [subOf_mkWord]; exact congrArg some (by simp))
    (by rw [stampOf_mkWord]; rfl) (by rw [foldOf_mkWord]; rfl) (by simp) (by simp) (by simp) (by simp) (by simp) h⟩
theorem clz (d : BitVec 6) (a : BitVec 6) : Statement (.clz d a) := fun _ _ h =>
  ⟨_, rfl, by simp, decode_of_row rfl (by rw [opOf_mkWord]; rfl) (by rw [subOf_mkWord]; exact congrArg some (by simp))
    (by rw [stampOf_mkWord]; rfl) (by rw [foldOf_mkWord]; rfl) (by simp) (by simp) (by simp) (by simp) (by simp) h⟩
theorem ctz (d : BitVec 6) (a : BitVec 6) : Statement (.ctz d a) := fun _ _ h =>
  ⟨_, rfl, by simp, decode_of_row rfl (by rw [opOf_mkWord]; rfl) (by rw [subOf_mkWord]; exact congrArg some (by simp))
    (by rw [stampOf_mkWord]; rfl) (by rw [foldOf_mkWord]; rfl) (by simp) (by simp) (by simp) (by simp) (by simp) h⟩
theorem popc (d : BitVec 6) (a : BitVec 6) : Statement (.popc d a) := fun _ _ h =>
  ⟨_, rfl, by simp, decode_of_row rfl (by rw [opOf_mkWord]; rfl) (by rw [subOf_mkWord]; exact congrArg some (by simp))
    (by rw [stampOf_mkWord]; rfl) (by rw [foldOf_mkWord]; rfl) (by simp) (by simp) (by simp) (by simp) (by simp) h⟩
theorem brev (d : BitVec 6) (a : BitVec 6) : Statement (.brev d a) := fun _ _ h =>
  ⟨_, rfl, by simp, decode_of_row rfl (by rw [opOf_mkWord]; rfl) (by rw [subOf_mkWord]; exact congrArg some (by simp))
    (by rw [stampOf_mkWord]; rfl) (by rw [foldOf_mkWord]; rfl) (by simp) (by simp) (by simp) (by simp) (by simp) h⟩
theorem bswap (d : BitVec 6) (a : BitVec 6) : Statement (.bswap d a) := fun _ _ h =>
  ⟨_, rfl, by simp, decode_of_row rfl (by rw [opOf_mkWord]; rfl) (by rw [subOf_mkWord]; exact congrArg some (by simp))
    (by rw [stampOf_mkWord]; rfl) (by rw [foldOf_mkWord]; rfl) (by simp) (by simp) (by simp) (by simp) (by simp) h⟩
theorem li (d : BitVec 6) (imm : BitVec 32) : Statement (.li d imm) := fun _ _ h =>
  ⟨_, rfl, by simp, decode_of_row rfl (by rw [opOf_mkWord]; rfl) (by rw [subOf_mkWord]; exact congrArg some (by simp))
    (by rw [stampOf_mkWord]; rfl) (by rw [foldOf_mkWord]; rfl) (by simp) (by simp) (by simp) (by simp) (by simp) h⟩
theorem lih (d : BitVec 6) (imm : BitVec 32) : Statement (.lih d imm) := fun _ _ h =>
  ⟨_, rfl, by simp, decode_of_row rfl (by rw [opOf_mkWord]; rfl) (by rw [subOf_mkWord]; exact congrArg some (by simp))
    (by rw [stampOf_mkWord]; rfl) (by rw [foldOf_mkWord]; rfl) (by simp) (by simp) (by simp) (by simp) (by simp) h⟩
theorem mov (d : BitVec 6) (a : BitVec 6) : Statement (.mov d a) := fun _ _ h =>
  ⟨_, rfl, by simp, decode_of_row rfl (by rw [opOf_mkWord]; rfl) (by rw [subOf_mkWord]; exact congrArg some (by simp))
    (by rw [stampOf_mkWord]; rfl) (by rw [foldOf_mkWord]; rfl) (by simp) (by simp) (by simp) (by simp) (by simp) h⟩
theorem lea (d : BitVec 6) (a : BitVec 6) (b : BitVec 6) (x : BitVec 4) : Statement (.lea d a b x) := fun _ _ h =>
  ⟨_, rfl, by simp, decode_of_row rfl (by rw [opOf_mkWord]; rfl) (by rw [subOf_mkWord]; exact congrArg some (by simp))
    (by rw [stampOf_mkWord]; rfl) (by rw [foldOf_mkWord]; rfl) (by simp) (by simp) (by simp) (by simp) (by simp) h⟩
theorem ld (d : BitVec 6) (a : BitVec 6) (imm : BitVec 26) : Statement (.ld d a imm) := fun _ _ h =>
  ⟨_, rfl, by simp, decode_of_row rfl (by rw [opOf_mkWord]; rfl) (by rw [subOf_mkWord]; exact congrArg some (by simp))
    (by rw [stampOf_mkWord]; rfl) (by rw [foldOf_mkWord]; rfl) (by simp) (by simp) (by simp) (by simp) (by simp) h⟩
theorem ldI8 (d : BitVec 6) (a : BitVec 6) (imm : BitVec 26) : Statement (.ldI8 d a imm) := fun _ _ h =>
  ⟨_, rfl, by simp, decode_of_row rfl (by rw [opOf_mkWord]; rfl) (by rw [subOf_mkWord]; exact congrArg some (by simp))
    (by rw [stampOf_mkWord]; rfl) (by rw [foldOf_mkWord]; rfl) (by simp) (by simp) (by simp) (by simp) (by simp) h⟩
theorem ldUi8 (d : BitVec 6) (a : BitVec 6) (imm : BitVec 26) : Statement (.ldUi8 d a imm) := fun _ _ h =>
  ⟨_, rfl, by simp, decode_of_row rfl (by rw [opOf_mkWord]; rfl) (by rw [subOf_mkWord]; exact congrArg some (by simp))
    (by rw [stampOf_mkWord]; rfl) (by rw [foldOf_mkWord]; rfl) (by simp) (by simp) (by simp) (by simp) (by simp) h⟩
theorem ldI16 (d : BitVec 6) (a : BitVec 6) (imm : BitVec 26) : Statement (.ldI16 d a imm) := fun _ _ h =>
  ⟨_, rfl, by simp, decode_of_row rfl (by rw [opOf_mkWord]; rfl) (by rw [subOf_mkWord]; exact congrArg some (by simp))
    (by rw [stampOf_mkWord]; rfl) (by rw [foldOf_mkWord]; rfl) (by simp) (by simp) (by simp) (by simp) (by simp) h⟩
theorem ldUi16 (d : BitVec 6) (a : BitVec 6) (imm : BitVec 26) : Statement (.ldUi16 d a imm) := fun _ _ h =>
  ⟨_, rfl, by simp, decode_of_row rfl (by rw [opOf_mkWord]; rfl) (by rw [subOf_mkWord]; exact congrArg some (by simp))
    (by rw [stampOf_mkWord]; rfl) (by rw [foldOf_mkWord]; rfl) (by simp) (by simp) (by simp) (by simp) (by simp) h⟩
theorem ldI32 (d : BitVec 6) (a : BitVec 6) (imm : BitVec 26) : Statement (.ldI32 d a imm) := fun _ _ h =>
  ⟨_, rfl, by simp, decode_of_row rfl (by rw [opOf_mkWord]; rfl) (by rw [subOf_mkWord]; exact congrArg some (by simp))
    (by rw [stampOf_mkWord]; rfl) (by rw [foldOf_mkWord]; rfl) (by simp) (by simp) (by simp) (by simp) (by simp) h⟩
theorem ldUi32 (d : BitVec 6) (a : BitVec 6) (imm : BitVec 26) : Statement (.ldUi32 d a imm) := fun _ _ h =>
  ⟨_, rfl, by simp, decode_of_row rfl (by rw [opOf_mkWord]; rfl) (by rw [subOf_mkWord]; exact congrArg some (by simp))
    (by rw [stampOf_mkWord]; rfl) (by rw [foldOf_mkWord]; rfl) (by simp) (by simp) (by simp) (by simp) (by simp) h⟩
theorem st (d : BitVec 6) (a : BitVec 6) (imm : BitVec 26) : Statement (.st d a imm) := fun _ _ h =>
  ⟨_, rfl, by simp, decode_of_row rfl (by rw [opOf_mkWord]; rfl) (by rw [subOf_mkWord]; exact congrArg some (by simp))
    (by rw [stampOf_mkWord]; rfl) (by rw [foldOf_mkWord]; rfl) (by simp) (by simp) (by simp) (by simp) (by simp) h⟩
theorem stI8 (d : BitVec 6) (a : BitVec 6) (imm : BitVec 26) : Statement (.stI8 d a imm) := fun _ _ h =>
  ⟨_, rfl, by simp, decode_of_row rfl (by rw [opOf_mkWord]; rfl) (by rw [subOf_mkWord]; exact congrArg some (by simp))
    (by rw [stampOf_mkWord]; rfl) (by rw [foldOf_mkWord]; rfl) (by simp) (by simp) (by simp) (by simp) (by simp) h⟩
theorem stI16 (d : BitVec 6) (a : BitVec 6) (imm : BitVec 26) : Statement (.stI16 d a imm) := fun _ _ h =>
  ⟨_, rfl, by simp, decode_of_row rfl (by rw [opOf_mkWord]; rfl) (by rw [subOf_mkWord]; exact congrArg some (by simp))
    (by rw [stampOf_mkWord]; rfl) (by rw [foldOf_mkWord]; rfl) (by simp) (by simp) (by simp) (by simp) (by simp) h⟩
theorem stI32 (d : BitVec 6) (a : BitVec 6) (imm : BitVec 26) : Statement (.stI32 d a imm) := fun _ _ h =>
  ⟨_, rfl, by simp, decode_of_row rfl (by rw [opOf_mkWord]; rfl) (by rw [subOf_mkWord]; exact congrArg some (by simp))
    (by rw [stampOf_mkWord]; rfl) (by rw [foldOf_mkWord]; rfl) (by simp) (by simp) (by simp) (by simp) (by simp) h⟩
theorem mfsr (d : BitVec 6) (sr : BitVec 16) : Statement (.mfsr d sr) := fun _ _ h =>
  ⟨_, rfl, by simp, decode_of_row rfl (by rw [opOf_mkWord]; rfl) (by rw [subOf_mkWord]; exact congrArg some (by simp))
    (by rw [stampOf_mkWord]; rfl) (by rw [foldOf_mkWord]; rfl) (by simp) (by simp) (by simp) (by simp) (by simp) h⟩
theorem vaddInt (fold : BitVec 2) (d : BitVec 6) (a : BitVec 6) (b : BitVec 6) (p : BitVec 3) (ft : BitVec 3) :
    Statement (.vaddInt fold d a b p ft) := fun _ _ h =>
  ⟨_, rfl, by simp, decode_of_row rfl (by rw [opOf_mkWord]; rfl) (by rw [subOf_mkWord]; exact congrArg some (by simp))
    (by rw [stampOf_mkWord]; rfl) (by rw [foldOf_mkWord]; rfl) (by simp) (by simp) (by simp) (by simp) (by simp) h⟩
theorem vsubInt (fold : BitVec 2) (d : BitVec 6) (a : BitVec 6) (b : BitVec 6) (p : BitVec 3) (ft : BitVec 3) :
    Statement (.vsubInt fold d a b p ft) := fun _ _ h =>
  ⟨_, rfl, by simp, decode_of_row rfl (by rw [opOf_mkWord]; rfl) (by rw [subOf_mkWord]; exact congrArg some (by simp))
    (by rw [stampOf_mkWord]; rfl) (by rw [foldOf_mkWord]; rfl) (by simp) (by simp) (by simp) (by simp) (by simp) h⟩
theorem vmulInt (fold : BitVec 2) (d : BitVec 6) (a : BitVec 6) (b : BitVec 6) (p : BitVec 3) (ft : BitVec 3) :
    Statement (.vmulInt fold d a b p ft) := fun _ _ h =>
  ⟨_, rfl, by simp, decode_of_row rfl (by rw [opOf_mkWord]; rfl) (by rw [subOf_mkWord]; exact congrArg some (by simp))
    (by rw [stampOf_mkWord]; rfl) (by rw [foldOf_mkWord]; rfl) (by simp) (by simp) (by simp) (by simp) (by simp) h⟩
theorem vmulh (fold : BitVec 2) (d : BitVec 6) (a : BitVec 6) (b : BitVec 6) (p : BitVec 3) (ft : BitVec 3) :
    Statement (.vmulh fold d a b p ft) := fun _ _ h =>
  ⟨_, rfl, by simp, decode_of_row rfl (by rw [opOf_mkWord]; rfl) (by rw [subOf_mkWord]; exact congrArg some (by simp))
    (by rw [stampOf_mkWord]; rfl) (by rw [foldOf_mkWord]; rfl) (by simp) (by simp) (by simp) (by simp) (by simp) h⟩
theorem vminInt (fold : BitVec 2) (d : BitVec 6) (a : BitVec 6) (b : BitVec 6) (p : BitVec 3) (ft : BitVec 3) :
    Statement (.vminInt fold d a b p ft) := fun _ _ h =>
  ⟨_, rfl, by simp, decode_of_row rfl (by rw [opOf_mkWord]; rfl) (by rw [subOf_mkWord]; exact congrArg some (by simp))
    (by rw [stampOf_mkWord]; rfl) (by rw [foldOf_mkWord]; rfl) (by simp) (by simp) (by simp) (by simp) (by simp) h⟩
theorem vmaxInt (fold : BitVec 2) (d : BitVec 6) (a : BitVec 6) (b : BitVec 6) (p : BitVec 3) (ft : BitVec 3) :
    Statement (.vmaxInt fold d a b p ft) := fun _ _ h =>
  ⟨_, rfl, by simp, decode_of_row rfl (by rw [opOf_mkWord]; rfl) (by rw [subOf_mkWord]; exact congrArg some (by simp))
    (by rw [stampOf_mkWord]; rfl) (by rw [foldOf_mkWord]; rfl) (by simp) (by simp) (by simp) (by simp) (by simp) h⟩
theorem vabsInt (fold : BitVec 2) (d : BitVec 6) (a : BitVec 6) (p : BitVec 3) (ft : BitVec 3) :
    Statement (.vabsInt fold d a p ft) := fun _ _ h =>
  ⟨_, rfl, by simp, decode_of_row rfl (by rw [opOf_mkWord]; rfl) (by rw [subOf_mkWord]; exact congrArg some (by simp))
    (by rw [stampOf_mkWord]; rfl) (by rw [foldOf_mkWord]; rfl) (by simp) (by simp) (by simp) (by simp) (by simp) h⟩
theorem vnegInt (fold : BitVec 2) (d : BitVec 6) (a : BitVec 6) (p : BitVec 3) (ft : BitVec 3) :
    Statement (.vnegInt fold d a p ft) := fun _ _ h =>
  ⟨_, rfl, by simp, decode_of_row rfl (by rw [opOf_mkWord]; rfl) (by rw [subOf_mkWord]; exact congrArg some (by simp))
    (by rw [stampOf_mkWord]; rfl) (by rw [foldOf_mkWord]; rfl) (by simp) (by simp) (by simp) (by simp) (by simp) h⟩
theorem vadds (fold : BitVec 2) (d : BitVec 6) (a : BitVec 6) (b : BitVec 6) (p : BitVec 3) (ft : BitVec 3) :
    Statement (.vadds fold d a b p ft) := fun _ _ h =>
  ⟨_, rfl, by simp, decode_of_row rfl (by rw [opOf_mkWord]; rfl) (by rw [subOf_mkWord]; exact congrArg some (by simp))
    (by rw [stampOf_mkWord]; rfl) (by rw [foldOf_mkWord]; rfl) (by simp) (by simp) (by simp) (by simp) (by simp) h⟩
theorem vsubs (fold : BitVec 2) (d : BitVec 6) (a : BitVec 6) (b : BitVec 6) (p : BitVec 3) (ft : BitVec 3) :
    Statement (.vsubs fold d a b p ft) := fun _ _ h =>
  ⟨_, rfl, by simp, decode_of_row rfl (by rw [opOf_mkWord]; rfl) (by rw [subOf_mkWord]; exact congrArg some (by simp))
    (by rw [stampOf_mkWord]; rfl) (by rw [foldOf_mkWord]; rfl) (by simp) (by simp) (by simp) (by simp) (by simp) h⟩
theorem vavg (fold : BitVec 2) (d : BitVec 6) (a : BitVec 6) (b : BitVec 6) (p : BitVec 3) (ft : BitVec 3) :
    Statement (.vavg fold d a b p ft) := fun _ _ h =>
  ⟨_, rfl, by simp, decode_of_row rfl (by rw [opOf_mkWord]; rfl) (by rw [subOf_mkWord]; exact congrArg some (by simp))
    (by rw [stampOf_mkWord]; rfl) (by rw [foldOf_mkWord]; rfl) (by simp) (by simp) (by simp) (by simp) (by simp) h⟩
theorem vmad (fold : BitVec 2) (d : BitVec 6) (a : BitVec 6) (b : BitVec 6) (c : BitVec 6) (p : BitVec 3) (ft : BitVec 3) :
    Statement (.vmad fold d a b c p ft) := fun _ _ h =>
  ⟨_, rfl, by simp, decode_of_row rfl (by rw [opOf_mkWord]; rfl) (by rw [subOf_mkWord]; exact congrArg some (by simp))
    (by rw [stampOf_mkWord]; rfl) (by rw [foldOf_mkWord]; rfl) (by simp) (by simp) (by simp) (by simp) (by simp) h⟩
theorem vand (fold : BitVec 2) (d : BitVec 6) (a : BitVec 6) (b : BitVec 6) (p : BitVec 3) :
    Statement (.vand fold d a b p) := fun _ _ h =>
  ⟨_, rfl, by simp, decode_of_row rfl (by rw [opOf_mkWord]; rfl) (by rw [subOf_mkWord]; exact congrArg some (by simp))
    (by rw [stampOf_mkWord]; rfl) (by rw [foldOf_mkWord]; rfl) (by simp) (by simp) (by simp) (by simp) (by simp) h⟩
theorem vor (fold : BitVec 2) (d : BitVec 6) (a : BitVec 6) (b : BitVec 6) (p : BitVec 3) :
    Statement (.vor fold d a b p) := fun _ _ h =>
  ⟨_, rfl, by simp, decode_of_row rfl (by rw [opOf_mkWord]; rfl) (by rw [subOf_mkWord]; exact congrArg some (by simp))
    (by rw [stampOf_mkWord]; rfl) (by rw [foldOf_mkWord]; rfl) (by simp) (by simp) (by simp) (by simp) (by simp) h⟩
theorem vxor (fold : BitVec 2) (d : BitVec 6) (a : BitVec 6) (b : BitVec 6) (p : BitVec 3) :
    Statement (.vxor fold d a b p) := fun _ _ h =>
  ⟨_, rfl, by simp, decode_of_row rfl (by rw [opOf_mkWord]; rfl) (by rw [subOf_mkWord]; exact congrArg some (by simp))
    (by rw [stampOf_mkWord]; rfl) (by rw [foldOf_mkWord]; rfl) (by simp) (by simp) (by simp) (by simp) (by simp) h⟩
theorem vandn (fold : BitVec 2) (d : BitVec 6) (a : BitVec 6) (b : BitVec 6) (p : BitVec 3) :
    Statement (.vandn fold d a b p) := fun _ _ h =>
  ⟨_, rfl, by simp, decode_of_row rfl (by rw [opOf_mkWord]; rfl) (by rw [subOf_mkWord]; exact congrArg some (by simp))
    (by rw [stampOf_mkWord]; rfl) (by rw [foldOf_mkWord]; rfl) (by simp) (by simp) (by simp) (by simp) (by simp) h⟩
theorem vnot (fold : BitVec 2) (d : BitVec 6) (a : BitVec 6) (p : BitVec 3) : Statement (.vnot fold d a p) := fun _ _ h =>
  ⟨_, rfl, by simp, decode_of_row rfl (by rw [opOf_mkWord]; rfl) (by rw [subOf_mkWord]; exact congrArg some (by simp))
    (by rw [stampOf_mkWord]; rfl) (by rw [foldOf_mkWord]; rfl) (by simp) (by simp) (by simp) (by simp) (by simp) h⟩
theorem vmov (fold : BitVec 2) (d : BitVec 6) (a : BitVec 6) (p : BitVec 3) : Statement (.vmov fold d a p) := fun _ _ h =>
  ⟨_, rfl, by simp, decode_of_row rfl (by rw [opOf_mkWord]; rfl) (by rw [subOf_mkWord]; exact congrArg some (by simp))
    (by rw [stampOf_mkWord]; rfl) (by rw [foldOf_mkWord]; rfl) (by simp) (by simp) (by simp) (by simp) (by simp) h⟩
theorem vsll (fold : BitVec 2) (d : BitVec 6) (a : BitVec 6) (b : BitVec 6) (p : BitVec 3) (ft : BitVec 3) :
    Statement (.vsll fold d a b p ft) := fun _ _ h =>
  ⟨_, rfl, by simp, decode_of_row rfl (by rw [opOf_mkWord]; rfl) (by rw [subOf_mkWord]; exact congrArg some (by simp))
    (by rw [stampOf_mkWord]; rfl) (by rw [foldOf_mkWord]; rfl) (by simp) (by simp) (by simp) (by simp) (by simp) h⟩
theorem vsrl (fold : BitVec 2) (d : BitVec 6) (a : BitVec 6) (b : BitVec 6) (p : BitVec 3) (ft : BitVec 3) :
    Statement (.vsrl fold d a b p ft) := fun _ _ h =>
  ⟨_, rfl, by simp, decode_of_row rfl (by rw [opOf_mkWord]; rfl) (by rw [subOf_mkWord]; exact congrArg some (by simp))
    (by rw [stampOf_mkWord]; rfl) (by rw [foldOf_mkWord]; rfl) (by simp) (by simp) (by simp) (by simp) (by simp) h⟩
theorem vsra (fold : BitVec 2) (d : BitVec 6) (a : BitVec 6) (b : BitVec 6) (p : BitVec 3) (ft : BitVec 3) :
    Statement (.vsra fold d a b p ft) := fun _ _ h =>
  ⟨_, rfl, by simp, decode_of_row rfl (by rw [opOf_mkWord]; rfl) (by rw [subOf_mkWord]; exact congrArg some (by simp))
    (by rw [stampOf_mkWord]; rfl) (by rw [foldOf_mkWord]; rfl) (by simp) (by simp) (by simp) (by simp) (by simp) h⟩
theorem vrol (fold : BitVec 2) (d : BitVec 6) (a : BitVec 6) (b : BitVec 6) (p : BitVec 3) (ft : BitVec 3) :
    Statement (.vrol fold d a b p ft) := fun _ _ h =>
  ⟨_, rfl, by simp, decode_of_row rfl (by rw [opOf_mkWord]; rfl) (by rw [subOf_mkWord]; exact congrArg some (by simp))
    (by rw [stampOf_mkWord]; rfl) (by rw [foldOf_mkWord]; rfl) (by simp) (by simp) (by simp) (by simp) (by simp) h⟩
theorem vslls (fold : BitVec 2) (d : BitVec 6) (a : BitVec 6) (b : BitVec 6) (p : BitVec 3) (ft : BitVec 3) :
    Statement (.vslls fold d a b p ft) := fun _ _ h =>
  ⟨_, rfl, by simp, decode_of_row rfl (by rw [opOf_mkWord]; rfl) (by rw [subOf_mkWord]; exact congrArg some (by simp))
    (by rw [stampOf_mkWord]; rfl) (by rw [foldOf_mkWord]; rfl) (by simp) (by simp) (by simp) (by simp) (by simp) h⟩
theorem vsrls (fold : BitVec 2) (d : BitVec 6) (a : BitVec 6) (b : BitVec 6) (p : BitVec 3) (ft : BitVec 3) :
    Statement (.vsrls fold d a b p ft) := fun _ _ h =>
  ⟨_, rfl, by simp, decode_of_row rfl (by rw [opOf_mkWord]; rfl) (by rw [subOf_mkWord]; exact congrArg some (by simp))
    (by rw [stampOf_mkWord]; rfl) (by rw [foldOf_mkWord]; rfl) (by simp) (by simp) (by simp) (by simp) (by simp) h⟩
theorem vsras (fold : BitVec 2) (d : BitVec 6) (a : BitVec 6) (b : BitVec 6) (p : BitVec 3) (ft : BitVec 3) :
    Statement (.vsras fold d a b p ft) := fun _ _ h =>
  ⟨_, rfl, by simp, decode_of_row rfl (by rw [opOf_mkWord]; rfl) (by rw [subOf_mkWord]; exact congrArg some (by simp))
    (by rw [stampOf_mkWord]; rfl) (by rw [foldOf_mkWord]; rfl) (by simp) (by simp) (by simp) (by simp) (by simp) h⟩
theorem vcmpeqInt (fold : BitVec 2) (d : BitVec 6) (a : BitVec 6) (b : BitVec 6) (p : BitVec 3) (ft : BitVec 3) :
    Statement (.vcmpeqInt fold d a b p ft) := fun _ _ h =>
  ⟨_, rfl, by simp, decode_of_row rfl (by rw [opOf_mkWord]; rfl) (by rw [subOf_mkWord]; exact congrArg some (by simp))
    (by rw [stampOf_mkWord]; rfl) (by rw [foldOf_mkWord]; rfl) (by simp) (by simp) (by simp) (by simp) (by simp) h⟩
theorem vcmpneInt (fold : BitVec 2) (d : BitVec 6) (a : BitVec 6) (b : BitVec 6) (p : BitVec 3) (ft : BitVec 3) :
    Statement (.vcmpneInt fold d a b p ft) := fun _ _ h =>
  ⟨_, rfl, by simp, decode_of_row rfl (by rw [opOf_mkWord]; rfl) (by rw [subOf_mkWord]; exact congrArg some (by simp))
    (by rw [stampOf_mkWord]; rfl) (by rw [foldOf_mkWord]; rfl) (by simp) (by simp) (by simp) (by simp) (by simp) h⟩
theorem vcmpltInt (fold : BitVec 2) (d : BitVec 6) (a : BitVec 6) (b : BitVec 6) (p : BitVec 3) (ft : BitVec 3) :
    Statement (.vcmpltInt fold d a b p ft) := fun _ _ h =>
  ⟨_, rfl, by simp, decode_of_row rfl (by rw [opOf_mkWord]; rfl) (by rw [subOf_mkWord]; exact congrArg some (by simp))
    (by rw [stampOf_mkWord]; rfl) (by rw [foldOf_mkWord]; rfl) (by simp) (by simp) (by simp) (by simp) (by simp) h⟩
theorem vcmpleInt (fold : BitVec 2) (d : BitVec 6) (a : BitVec 6) (b : BitVec 6) (p : BitVec 3) (ft : BitVec 3) :
    Statement (.vcmpleInt fold d a b p ft) := fun _ _ h =>
  ⟨_, rfl, by simp, decode_of_row rfl (by rw [opOf_mkWord]; rfl) (by rw [subOf_mkWord]; exact congrArg some (by simp))
    (by rw [stampOf_mkWord]; rfl) (by rw [foldOf_mkWord]; rfl) (by simp) (by simp) (by simp) (by simp) (by simp) h⟩
theorem vcmpgtInt (fold : BitVec 2) (d : BitVec 6) (a : BitVec 6) (b : BitVec 6) (p : BitVec 3) (ft : BitVec 3) :
    Statement (.vcmpgtInt fold d a b p ft) := fun _ _ h =>
  ⟨_, rfl, by simp, decode_of_row rfl (by rw [opOf_mkWord]; rfl) (by rw [subOf_mkWord]; exact congrArg some (by simp))
    (by rw [stampOf_mkWord]; rfl) (by rw [foldOf_mkWord]; rfl) (by simp) (by simp) (by simp) (by simp) (by simp) h⟩
theorem vcmpgeInt (fold : BitVec 2) (d : BitVec 6) (a : BitVec 6) (b : BitVec 6) (p : BitVec 3) (ft : BitVec 3) :
    Statement (.vcmpgeInt fold d a b p ft) := fun _ _ h =>
  ⟨_, rfl, by simp, decode_of_row rfl (by rw [opOf_mkWord]; rfl) (by rw [subOf_mkWord]; exact congrArg some (by simp))
    (by rw [stampOf_mkWord]; rfl) (by rw [foldOf_mkWord]; rfl) (by simp) (by simp) (by simp) (by simp) (by simp) h⟩
theorem vsel (fold : BitVec 2) (d : BitVec 6) (a : BitVec 6) (b : BitVec 6) (p : BitVec 3) (ft : BitVec 3) :
    Statement (.vsel fold d a b p ft) := fun _ _ h =>
  ⟨_, rfl, by simp, decode_of_row rfl (by rw [opOf_mkWord]; rfl) (by rw [subOf_mkWord]; exact congrArg some (by simp))
    (by rw [stampOf_mkWord]; rfl) (by rw [foldOf_mkWord]; rfl) (by simp) (by simp) (by simp) (by simp) (by simp) h⟩
theorem vsplat (fold : BitVec 2) (d : BitVec 6) (a : BitVec 6) (ft : BitVec 3) : Statement (.vsplat fold d a ft) := fun _ _ h =>
  ⟨_, rfl, by simp, decode_of_row rfl (by rw [opOf_mkWord]; rfl) (by rw [subOf_mkWord]; exact congrArg some (by simp))
    (by rw [stampOf_mkWord]; rfl) (by rw [foldOf_mkWord]; rfl) (by simp) (by simp) (by simp) (by simp) (by simp) h⟩
theorem vext (fold : BitVec 2) (d : BitVec 6) (a : BitVec 6) (b : BitVec 6) (ft : BitVec 3) :
    Statement (.vext fold d a b ft) := fun _ _ h =>
  ⟨_, rfl, by simp, decode_of_row rfl (by rw [opOf_mkWord]; rfl) (by rw [subOf_mkWord]; exact congrArg some (by simp))
    (by rw [stampOf_mkWord]; rfl) (by rw [foldOf_mkWord]; rfl) (by simp) (by simp) (by simp) (by simp) (by simp) h⟩
theorem vins (fold : BitVec 2) (d : BitVec 6) (a : BitVec 6) (b : BitVec 6) (ft : BitVec 3) :
    Statement (.vins fold d a b ft) := fun _ _ h =>
  ⟨_, rfl, by simp, decode_of_row rfl (by rw [opOf_mkWord]; rfl) (by rw [subOf_mkWord]; exact congrArg some (by simp))
    (by rw [stampOf_mkWord]; rfl) (by rw [foldOf_mkWord]; rfl) (by simp) (by simp) (by simp) (by simp) (by simp) h⟩
theorem viota (fold : BitVec 2) (d : BitVec 6) (ft : BitVec 3) : Statement (.viota fold d ft) := fun _ _ h =>
  ⟨_, rfl, by simp, decode_of_row rfl (by rw [opOf_mkWord]; rfl) (by rw [subOf_mkWord]; exact congrArg some (by simp))
    (by rw [stampOf_mkWord]; rfl) (by rw [foldOf_mkWord]; rfl) (by simp) (by simp) (by simp) (by simp) (by simp) h⟩
theorem vaddFp (fold : BitVec 2) (d : BitVec 6) (a : BitVec 6) (b : BitVec 6) (p : BitVec 3) (ft : BitVec 3) (rm : BitVec 4) :
    Statement (.vaddFp fold d a b p ft rm) := fun _ _ h =>
  ⟨_, rfl, by simp, decode_of_row rfl (by rw [opOf_mkWord]; rfl) (by rw [subOf_mkWord]; exact congrArg some (by simp))
    (by rw [stampOf_mkWord]; rfl) (by rw [foldOf_mkWord]; rfl) (by simp) (by simp) (by simp) (by simp) (by simp) h⟩
theorem vsubFp (fold : BitVec 2) (d : BitVec 6) (a : BitVec 6) (b : BitVec 6) (p : BitVec 3) (ft : BitVec 3) (rm : BitVec 4) :
    Statement (.vsubFp fold d a b p ft rm) := fun _ _ h =>
  ⟨_, rfl, by simp, decode_of_row rfl (by rw [opOf_mkWord]; rfl) (by rw [subOf_mkWord]; exact congrArg some (by simp))
    (by rw [stampOf_mkWord]; rfl) (by rw [foldOf_mkWord]; rfl) (by simp) (by simp) (by simp) (by simp) (by simp) h⟩
theorem vmulFp (fold : BitVec 2) (d : BitVec 6) (a : BitVec 6) (b : BitVec 6) (p : BitVec 3) (ft : BitVec 3) (rm : BitVec 4) :
    Statement (.vmulFp fold d a b p ft rm) := fun _ _ h =>
  ⟨_, rfl, by simp, decode_of_row rfl (by rw [opOf_mkWord]; rfl) (by rw [subOf_mkWord]; exact congrArg some (by simp))
    (by rw [stampOf_mkWord]; rfl) (by rw [foldOf_mkWord]; rfl) (by simp) (by simp) (by simp) (by simp) (by simp) h⟩
theorem vfma (fold : BitVec 2) (d : BitVec 6) (a : BitVec 6) (b : BitVec 6) (c : BitVec 6) (p : BitVec 3) (ft : BitVec 3) (rm : BitVec 4) :
    Statement (.vfma fold d a b c p ft rm) := fun _ _ h =>
  ⟨_, rfl, by simp, decode_of_row rfl (by rw [opOf_mkWord]; rfl) (by rw [subOf_mkWord]; exact congrArg some (by simp))
    (by rw [stampOf_mkWord]; rfl) (by rw [foldOf_mkWord]; rfl) (by simp) (by simp) (by simp) (by simp) (by simp) h⟩
theorem vfms (fold : BitVec 2) (d : BitVec 6) (a : BitVec 6) (b : BitVec 6) (c : BitVec 6) (p : BitVec 3) (ft : BitVec 3) (rm : BitVec 4) :
    Statement (.vfms fold d a b c p ft rm) := fun _ _ h =>
  ⟨_, rfl, by simp, decode_of_row rfl (by rw [opOf_mkWord]; rfl) (by rw [subOf_mkWord]; exact congrArg some (by simp))
    (by rw [stampOf_mkWord]; rfl) (by rw [foldOf_mkWord]; rfl) (by simp) (by simp) (by simp) (by simp) (by simp) h⟩
theorem vfnma (fold : BitVec 2) (d : BitVec 6) (a : BitVec 6) (b : BitVec 6) (c : BitVec 6) (p : BitVec 3) (ft : BitVec 3) (rm : BitVec 4) :
    Statement (.vfnma fold d a b c p ft rm) := fun _ _ h =>
  ⟨_, rfl, by simp, decode_of_row rfl (by rw [opOf_mkWord]; rfl) (by rw [subOf_mkWord]; exact congrArg some (by simp))
    (by rw [stampOf_mkWord]; rfl) (by rw [foldOf_mkWord]; rfl) (by simp) (by simp) (by simp) (by simp) (by simp) h⟩
theorem vminFp (fold : BitVec 2) (d : BitVec 6) (a : BitVec 6) (b : BitVec 6) (p : BitVec 3) (ft : BitVec 3) :
    Statement (.vminFp fold d a b p ft) := fun _ _ h =>
  ⟨_, rfl, by simp, decode_of_row rfl (by rw [opOf_mkWord]; rfl) (by rw [subOf_mkWord]; exact congrArg some (by simp))
    (by rw [stampOf_mkWord]; rfl) (by rw [foldOf_mkWord]; rfl) (by simp) (by simp) (by simp) (by simp) (by simp) h⟩
theorem vmaxFp (fold : BitVec 2) (d : BitVec 6) (a : BitVec 6) (b : BitVec 6) (p : BitVec 3) (ft : BitVec 3) :
    Statement (.vmaxFp fold d a b p ft) := fun _ _ h =>
  ⟨_, rfl, by simp, decode_of_row rfl (by rw [opOf_mkWord]; rfl) (by rw [subOf_mkWord]; exact congrArg some (by simp))
    (by rw [stampOf_mkWord]; rfl) (by rw [foldOf_mkWord]; rfl) (by simp) (by simp) (by simp) (by simp) (by simp) h⟩
theorem vabsFp (fold : BitVec 2) (d : BitVec 6) (a : BitVec 6) (p : BitVec 3) (ft : BitVec 3) :
    Statement (.vabsFp fold d a p ft) := fun _ _ h =>
  ⟨_, rfl, by simp, decode_of_row rfl (by rw [opOf_mkWord]; rfl) (by rw [subOf_mkWord]; exact congrArg some (by simp))
    (by rw [stampOf_mkWord]; rfl) (by rw [foldOf_mkWord]; rfl) (by simp) (by simp) (by simp) (by simp) (by simp) h⟩
theorem vnegFp (fold : BitVec 2) (d : BitVec 6) (a : BitVec 6) (p : BitVec 3) (ft : BitVec 3) :
    Statement (.vnegFp fold d a p ft) := fun _ _ h =>
  ⟨_, rfl, by simp, decode_of_row rfl (by rw [opOf_mkWord]; rfl) (by rw [subOf_mkWord]; exact congrArg some (by simp))
    (by rw [stampOf_mkWord]; rfl) (by rw [foldOf_mkWord]; rfl) (by simp) (by simp) (by simp) (by simp) (by simp) h⟩
theorem vdiv (fold : BitVec 2) (d : BitVec 6) (a : BitVec 6) (b : BitVec 6) (p : BitVec 3) (ft : BitVec 3) (rm : BitVec 4) :
    Statement (.vdiv fold d a b p ft rm) := fun _ _ h =>
  ⟨_, rfl, by simp, decode_of_row rfl (by rw [opOf_mkWord]; rfl) (by rw [subOf_mkWord]; exact congrArg some (by simp))
    (by rw [stampOf_mkWord]; rfl) (by rw [foldOf_mkWord]; rfl) (by simp) (by simp) (by simp) (by simp) (by simp) h⟩
theorem vsqrt (fold : BitVec 2) (d : BitVec 6) (a : BitVec 6) (p : BitVec 3) (ft : BitVec 3) (rm : BitVec 4) :
    Statement (.vsqrt fold d a p ft rm) := fun _ _ h =>
  ⟨_, rfl, by simp, decode_of_row rfl (by rw [opOf_mkWord]; rfl) (by rw [subOf_mkWord]; exact congrArg some (by simp))
    (by rw [stampOf_mkWord]; rfl) (by rw [foldOf_mkWord]; rfl) (by simp) (by simp) (by simp) (by simp) (by simp) h⟩
theorem vcmpeqFp (fold : BitVec 2) (d : BitVec 6) (a : BitVec 6) (b : BitVec 6) (p : BitVec 3) (ft : BitVec 3) :
    Statement (.vcmpeqFp fold d a b p ft) := fun _ _ h =>
  ⟨_, rfl, by simp, decode_of_row rfl (by rw [opOf_mkWord]; rfl) (by rw [subOf_mkWord]; exact congrArg some (by simp))
    (by rw [stampOf_mkWord]; rfl) (by rw [foldOf_mkWord]; rfl) (by simp) (by simp) (by simp) (by simp) (by simp) h⟩
theorem vcmpneFp (fold : BitVec 2) (d : BitVec 6) (a : BitVec 6) (b : BitVec 6) (p : BitVec 3) (ft : BitVec 3) :
    Statement (.vcmpneFp fold d a b p ft) := fun _ _ h =>
  ⟨_, rfl, by simp, decode_of_row rfl (by rw [opOf_mkWord]; rfl) (by rw [subOf_mkWord]; exact congrArg some (by simp))
    (by rw [stampOf_mkWord]; rfl) (by rw [foldOf_mkWord]; rfl) (by simp) (by simp) (by simp) (by simp) (by simp) h⟩
theorem vcmpltFp (fold : BitVec 2) (d : BitVec 6) (a : BitVec 6) (b : BitVec 6) (p : BitVec 3) (ft : BitVec 3) :
    Statement (.vcmpltFp fold d a b p ft) := fun _ _ h =>
  ⟨_, rfl, by simp, decode_of_row rfl (by rw [opOf_mkWord]; rfl) (by rw [subOf_mkWord]; exact congrArg some (by simp))
    (by rw [stampOf_mkWord]; rfl) (by rw [foldOf_mkWord]; rfl) (by simp) (by simp) (by simp) (by simp) (by simp) h⟩
theorem vcmpleFp (fold : BitVec 2) (d : BitVec 6) (a : BitVec 6) (b : BitVec 6) (p : BitVec 3) (ft : BitVec 3) :
    Statement (.vcmpleFp fold d a b p ft) := fun _ _ h =>
  ⟨_, rfl, by simp, decode_of_row rfl (by rw [opOf_mkWord]; rfl) (by rw [subOf_mkWord]; exact congrArg some (by simp))
    (by rw [stampOf_mkWord]; rfl) (by rw [foldOf_mkWord]; rfl) (by simp) (by simp) (by simp) (by simp) (by simp) h⟩
theorem vcmpgtFp (fold : BitVec 2) (d : BitVec 6) (a : BitVec 6) (b : BitVec 6) (p : BitVec 3) (ft : BitVec 3) :
    Statement (.vcmpgtFp fold d a b p ft) := fun _ _ h =>
  ⟨_, rfl, by simp, decode_of_row rfl (by rw [opOf_mkWord]; rfl) (by rw [subOf_mkWord]; exact congrArg some (by simp))
    (by rw [stampOf_mkWord]; rfl) (by rw [foldOf_mkWord]; rfl) (by simp) (by simp) (by simp) (by simp) (by simp) h⟩
theorem vcmpgeFp (fold : BitVec 2) (d : BitVec 6) (a : BitVec 6) (b : BitVec 6) (p : BitVec 3) (ft : BitVec 3) :
    Statement (.vcmpgeFp fold d a b p ft) := fun _ _ h =>
  ⟨_, rfl, by simp, decode_of_row rfl (by rw [opOf_mkWord]; rfl) (by rw [subOf_mkWord]; exact congrArg some (by simp))
    (by rw [stampOf_mkWord]; rfl) (by rw [foldOf_mkWord]; rfl) (by simp) (by simp) (by simp) (by simp) (by simp) h⟩
theorem vcmpun (fold : BitVec 2) (d : BitVec 6) (a : BitVec 6) (b : BitVec 6) (p : BitVec 3) (ft : BitVec 3) :
    Statement (.vcmpun fold d a b p ft) := fun _ _ h =>
  ⟨_, rfl, by simp, decode_of_row rfl (by rw [opOf_mkWord]; rfl) (by rw [subOf_mkWord]; exact congrArg some (by simp))
    (by rw [stampOf_mkWord]; rfl) (by rw [foldOf_mkWord]; rfl) (by simp) (by simp) (by simp) (by simp) (by simp) h⟩
theorem vli (fold : BitVec 2) (d : BitVec 6) (imm : BitVec 32) : Statement (.vli fold d imm) := fun _ _ h =>
  ⟨_, rfl, by simp, decode_of_row rfl (by rw [opOf_mkWord]; rfl) (by rw [subOf_mkWord]; exact congrArg some (by simp))
    (by rw [stampOf_mkWord]; rfl) (by rw [foldOf_mkWord]; rfl) (by simp) (by simp) (by simp) (by simp) (by simp) h⟩
theorem vcvt (fold : BitVec 2) (d : BitVec 6) (a : BitVec 6) (src : BitVec 6) (p : BitVec 3) (rm : BitVec 4) (dst : BitVec 4) :
    Statement (.vcvt fold d a src p rm dst) := fun _ _ h =>
  ⟨_, rfl, by simp, decode_of_row rfl (by rw [opOf_mkWord]; rfl) (by rw [subOf_mkWord]; exact congrArg some (by simp))
    (by rw [stampOf_mkWord]; rfl) (by rw [foldOf_mkWord]; rfl) (by simp) (by simp) (by simp) (by simp) (by simp) h⟩
theorem vquant (fold : BitVec 2) (d : BitVec 6) (a : BitVec 6) (src : BitVec 6) (c : BitVec 6) (p : BitVec 3) (rm : BitVec 4) (dst : BitVec 4) :
    Statement (.vquant fold d a src c p rm dst) := fun _ _ h =>
  ⟨_, rfl, by simp, decode_of_row rfl (by rw [opOf_mkWord]; rfl) (by rw [subOf_mkWord]; exact congrArg some (by simp))
    (by rw [stampOf_mkWord]; rfl) (by rw [foldOf_mkWord]; rfl) (by simp) (by simp) (by simp) (by simp) (by simp) h⟩
theorem vdequant (fold : BitVec 2) (d : BitVec 6) (a : BitVec 6) (src : BitVec 6) (c : BitVec 6) (p : BitVec 3) (rm : BitVec 4) (dst : BitVec 4) :
    Statement (.vdequant fold d a src c p rm dst) := fun _ _ h =>
  ⟨_, rfl, by simp, decode_of_row rfl (by rw [opOf_mkWord]; rfl) (by rw [subOf_mkWord]; exact congrArg some (by simp))
    (by rw [stampOf_mkWord]; rfl) (by rw [foldOf_mkWord]; rfl) (by simp) (by simp) (by simp) (by simp) (by simp) h⟩
theorem vlq2 (fold : BitVec 2) (d : BitVec 6) (a : BitVec 6) (src : BitVec 6) (c : BitVec 6) (p : BitVec 3) (rm : BitVec 4) (dst : BitVec 4) :
    Statement (.vlq2 fold d a src c p rm dst) := fun _ _ h =>
  ⟨_, rfl, by simp, decode_of_row rfl (by rw [opOf_mkWord]; rfl) (by rw [subOf_mkWord]; exact congrArg some (by simp))
    (by rw [stampOf_mkWord]; rfl) (by rw [foldOf_mkWord]; rfl) (by simp) (by simp) (by simp) (by simp) (by simp) h⟩
theorem vscale (fold : BitVec 2) (d : BitVec 6) (a : BitVec 6) (src : BitVec 6) (c : BitVec 6) (p : BitVec 3) (rm : BitVec 4) (dst : BitVec 4) :
    Statement (.vscale fold d a src c p rm dst) := fun _ _ h =>
  ⟨_, rfl, by simp, decode_of_row rfl (by rw [opOf_mkWord]; rfl) (by rw [subOf_mkWord]; exact congrArg some (by simp))
    (by rw [stampOf_mkWord]; rfl) (by rw [foldOf_mkWord]; rfl) (by simp) (by simp) (by simp) (by simp) (by simp) h⟩
theorem vexp2 (fold : BitVec 2) (d : BitVec 6) (a : BitVec 6) (p : BitVec 3) (ft : BitVec 3) (rm : BitVec 4) :
    Statement (.vexp2 fold d a p ft rm) := fun _ _ h =>
  ⟨_, rfl, by simp, decode_of_row rfl (by rw [opOf_mkWord]; rfl) (by rw [subOf_mkWord]; exact congrArg some (by simp))
    (by rw [stampOf_mkWord]; rfl) (by rw [foldOf_mkWord]; rfl) (by simp) (by simp) (by simp) (by simp) (by simp) h⟩
theorem vlog2 (fold : BitVec 2) (d : BitVec 6) (a : BitVec 6) (p : BitVec 3) (ft : BitVec 3) (rm : BitVec 4) :
    Statement (.vlog2 fold d a p ft rm) := fun _ _ h =>
  ⟨_, rfl, by simp, decode_of_row rfl (by rw [opOf_mkWord]; rfl) (by rw [subOf_mkWord]; exact congrArg some (by simp))
    (by rw [stampOf_mkWord]; rfl) (by rw [foldOf_mkWord]; rfl) (by simp) (by simp) (by simp) (by simp) (by simp) h⟩
theorem vrcp (fold : BitVec 2) (d : BitVec 6) (a : BitVec 6) (p : BitVec 3) (ft : BitVec 3) (rm : BitVec 4) :
    Statement (.vrcp fold d a p ft rm) := fun _ _ h =>
  ⟨_, rfl, by simp, decode_of_row rfl (by rw [opOf_mkWord]; rfl) (by rw [subOf_mkWord]; exact congrArg some (by simp))
    (by rw [stampOf_mkWord]; rfl) (by rw [foldOf_mkWord]; rfl) (by simp) (by simp) (by simp) (by simp) (by simp) h⟩
theorem vrsqrt (fold : BitVec 2) (d : BitVec 6) (a : BitVec 6) (p : BitVec 3) (ft : BitVec 3) (rm : BitVec 4) :
    Statement (.vrsqrt fold d a p ft rm) := fun _ _ h =>
  ⟨_, rfl, by simp, decode_of_row rfl (by rw [opOf_mkWord]; rfl) (by rw [subOf_mkWord]; exact congrArg some (by simp))
    (by rw [stampOf_mkWord]; rfl) (by rw [foldOf_mkWord]; rfl) (by simp) (by simp) (by simp) (by simp) (by simp) h⟩
theorem vtanh (fold : BitVec 2) (d : BitVec 6) (a : BitVec 6) (p : BitVec 3) (ft : BitVec 3) (rm : BitVec 4) :
    Statement (.vtanh fold d a p ft rm) := fun _ _ h =>
  ⟨_, rfl, by simp, decode_of_row rfl (by rw [opOf_mkWord]; rfl) (by rw [subOf_mkWord]; exact congrArg some (by simp))
    (by rw [stampOf_mkWord]; rfl) (by rw [foldOf_mkWord]; rfl) (by simp) (by simp) (by simp) (by simp) (by simp) h⟩
theorem vsigm (fold : BitVec 2) (d : BitVec 6) (a : BitVec 6) (p : BitVec 3) (ft : BitVec 3) (rm : BitVec 4) :
    Statement (.vsigm fold d a p ft rm) := fun _ _ h =>
  ⟨_, rfl, by simp, decode_of_row rfl (by rw [opOf_mkWord]; rfl) (by rw [subOf_mkWord]; exact congrArg some (by simp))
    (by rw [stampOf_mkWord]; rfl) (by rw [foldOf_mkWord]; rfl) (by simp) (by simp) (by simp) (by simp) (by simp) h⟩
theorem vredsum (fold : BitVec 2) (d : BitVec 6) (a : BitVec 6) (p : BitVec 3) (ft : BitVec 3) (rm : BitVec 4) :
    Statement (.vredsum fold d a p ft rm) := fun _ _ h =>
  ⟨_, rfl, by simp, decode_of_row rfl (by rw [opOf_mkWord]; rfl) (by rw [subOf_mkWord]; exact congrArg some (by simp))
    (by rw [stampOf_mkWord]; rfl) (by rw [foldOf_mkWord]; rfl) (by simp) (by simp) (by simp) (by simp) (by simp) h⟩
theorem vredmin (fold : BitVec 2) (d : BitVec 6) (a : BitVec 6) (p : BitVec 3) (ft : BitVec 3) :
    Statement (.vredmin fold d a p ft) := fun _ _ h =>
  ⟨_, rfl, by simp, decode_of_row rfl (by rw [opOf_mkWord]; rfl) (by rw [subOf_mkWord]; exact congrArg some (by simp))
    (by rw [stampOf_mkWord]; rfl) (by rw [foldOf_mkWord]; rfl) (by simp) (by simp) (by simp) (by simp) (by simp) h⟩
theorem vredmax (fold : BitVec 2) (d : BitVec 6) (a : BitVec 6) (p : BitVec 3) (ft : BitVec 3) :
    Statement (.vredmax fold d a p ft) := fun _ _ h =>
  ⟨_, rfl, by simp, decode_of_row rfl (by rw [opOf_mkWord]; rfl) (by rw [subOf_mkWord]; exact congrArg some (by simp))
    (by rw [stampOf_mkWord]; rfl) (by rw [foldOf_mkWord]; rfl) (by simp) (by simp) (by simp) (by simp) (by simp) h⟩
theorem vredminu (fold : BitVec 2) (d : BitVec 6) (a : BitVec 6) (p : BitVec 3) : Statement (.vredminu fold d a p) := fun _ _ h =>
  ⟨_, rfl, by simp, decode_of_row rfl (by rw [opOf_mkWord]; rfl) (by rw [subOf_mkWord]; exact congrArg some (by simp))
    (by rw [stampOf_mkWord]; rfl) (by rw [foldOf_mkWord]; rfl) (by simp) (by simp) (by simp) (by simp) (by simp) h⟩
theorem vredmaxu (fold : BitVec 2) (d : BitVec 6) (a : BitVec 6) (p : BitVec 3) : Statement (.vredmaxu fold d a p) := fun _ _ h =>
  ⟨_, rfl, by simp, decode_of_row rfl (by rw [opOf_mkWord]; rfl) (by rw [subOf_mkWord]; exact congrArg some (by simp))
    (by rw [stampOf_mkWord]; rfl) (by rw [foldOf_mkWord]; rfl) (by simp) (by simp) (by simp) (by simp) (by simp) h⟩
theorem vredand (fold : BitVec 2) (d : BitVec 6) (a : BitVec 6) (p : BitVec 3) : Statement (.vredand fold d a p) := fun _ _ h =>
  ⟨_, rfl, by simp, decode_of_row rfl (by rw [opOf_mkWord]; rfl) (by rw [subOf_mkWord]; exact congrArg some (by simp))
    (by rw [stampOf_mkWord]; rfl) (by rw [foldOf_mkWord]; rfl) (by simp) (by simp) (by simp) (by simp) (by simp) h⟩
theorem vredor (fold : BitVec 2) (d : BitVec 6) (a : BitVec 6) (p : BitVec 3) : Statement (.vredor fold d a p) := fun _ _ h =>
  ⟨_, rfl, by simp, decode_of_row rfl (by rw [opOf_mkWord]; rfl) (by rw [subOf_mkWord]; exact congrArg some (by simp))
    (by rw [stampOf_mkWord]; rfl) (by rw [foldOf_mkWord]; rfl) (by simp) (by simp) (by simp) (by simp) (by simp) h⟩
theorem vscan (fold : BitVec 2) (d : BitVec 6) (a : BitVec 6) (p : BitVec 3) (ft : BitVec 3) (rm : BitVec 4) :
    Statement (.vscan fold d a p ft rm) := fun _ _ h =>
  ⟨_, rfl, by simp, decode_of_row rfl (by rw [opOf_mkWord]; rfl) (by rw [subOf_mkWord]; exact congrArg some (by simp))
    (by rw [stampOf_mkWord]; rfl) (by rw [foldOf_mkWord]; rfl) (by simp) (by simp) (by simp) (by simp) (by simp) h⟩
theorem vscanx (fold : BitVec 2) (d : BitVec 6) (a : BitVec 6) (p : BitVec 3) (ft : BitVec 3) (rm : BitVec 4) :
    Statement (.vscanx fold d a p ft rm) := fun _ _ h =>
  ⟨_, rfl, by simp, decode_of_row rfl (by rw [opOf_mkWord]; rfl) (by rw [subOf_mkWord]; exact congrArg some (by simp))
    (by rw [stampOf_mkWord]; rfl) (by rw [foldOf_mkWord]; rfl) (by simp) (by simp) (by simp) (by simp) (by simp) h⟩
theorem vscanmax (fold : BitVec 2) (d : BitVec 6) (a : BitVec 6) (p : BitVec 3) (ft : BitVec 3) :
    Statement (.vscanmax fold d a p ft) := fun _ _ h =>
  ⟨_, rfl, by simp, decode_of_row rfl (by rw [opOf_mkWord]; rfl) (by rw [subOf_mkWord]; exact congrArg some (by simp))
    (by rw [stampOf_mkWord]; rfl) (by rw [foldOf_mkWord]; rfl) (by simp) (by simp) (by simp) (by simp) (by simp) h⟩
theorem vperm (fold : BitVec 2) (d : BitVec 6) (a : BitVec 6) (b : BitVec 6) (ft : BitVec 3) :
    Statement (.vperm fold d a b ft) := fun _ _ h =>
  ⟨_, rfl, by simp, decode_of_row rfl (by rw [opOf_mkWord]; rfl) (by rw [subOf_mkWord]; exact congrArg some (by simp))
    (by rw [stampOf_mkWord]; rfl) (by rw [foldOf_mkWord]; rfl) (by simp) (by simp) (by simp) (by simp) (by simp) h⟩
theorem vrot (fold : BitVec 2) (d : BitVec 6) (a : BitVec 6) (b : BitVec 6) (ft : BitVec 3) :
    Statement (.vrot fold d a b ft) := fun _ _ h =>
  ⟨_, rfl, by simp, decode_of_row rfl (by rw [opOf_mkWord]; rfl) (by rw [subOf_mkWord]; exact congrArg some (by simp))
    (by rw [stampOf_mkWord]; rfl) (by rw [foldOf_mkWord]; rfl) (by simp) (by simp) (by simp) (by simp) (by simp) h⟩
theorem vrev (fold : BitVec 2) (d : BitVec 6) (a : BitVec 6) (ft : BitVec 3) : Statement (.vrev fold d a ft) := fun _ _ h =>
  ⟨_, rfl, by simp, decode_of_row rfl (by rw [opOf_mkWord]; rfl) (by rw [subOf_mkWord]; exact congrArg some (by simp))
    (by rw [stampOf_mkWord]; rfl) (by rw [foldOf_mkWord]; rfl) (by simp) (by simp) (by simp) (by simp) (by simp) h⟩
theorem vzip (fold : BitVec 2) (d : BitVec 6) (a : BitVec 6) (b : BitVec 6) (ft : BitVec 3) :
    Statement (.vzip fold d a b ft) := fun _ _ h =>
  ⟨_, rfl, by simp, decode_of_row rfl (by rw [opOf_mkWord]; rfl) (by rw [subOf_mkWord]; exact congrArg some (by simp))
    (by rw [stampOf_mkWord]; rfl) (by rw [foldOf_mkWord]; rfl) (by simp) (by simp) (by simp) (by simp) (by simp) h⟩
theorem vunzip (fold : BitVec 2) (d : BitVec 6) (a : BitVec 6) (b : BitVec 6) (ft : BitVec 3) :
    Statement (.vunzip fold d a b ft) := fun _ _ h =>
  ⟨_, rfl, by simp, decode_of_row rfl (by rw [opOf_mkWord]; rfl) (by rw [subOf_mkWord]; exact congrArg some (by simp))
    (by rw [stampOf_mkWord]; rfl) (by rw [foldOf_mkWord]; rfl) (by simp) (by simp) (by simp) (by simp) (by simp) h⟩
theorem vbcast (fold : BitVec 2) (d : BitVec 6) (a : BitVec 6) (b : BitVec 6) (ft : BitVec 3) :
    Statement (.vbcast fold d a b ft) := fun _ _ h =>
  ⟨_, rfl, by simp, decode_of_row rfl (by rw [opOf_mkWord]; rfl) (by rw [subOf_mkWord]; exact congrArg some (by simp))
    (by rw [stampOf_mkWord]; rfl) (by rw [foldOf_mkWord]; rfl) (by simp) (by simp) (by simp) (by simp) (by simp) h⟩
theorem vsortn (fold : BitVec 2) (d : BitVec 6) (a : BitVec 6) (b : BitVec 6) (c : BitVec 6) (ft : BitVec 3) :
    Statement (.vsortn fold d a b c ft) := fun _ _ h =>
  ⟨_, rfl, by simp, decode_of_row rfl (by rw [opOf_mkWord]; rfl) (by rw [subOf_mkWord]; exact congrArg some (by simp))
    (by rw [stampOf_mkWord]; rfl) (by rw [foldOf_mkWord]; rfl) (by simp) (by simp) (by simp) (by simp) (by simp) h⟩
theorem vcompress (fold : BitVec 2) (d : BitVec 6) (a : BitVec 6) (b : BitVec 6) (p : BitVec 3) (ft : BitVec 3) :
    Statement (.vcompress fold d a b p ft) := fun _ _ h =>
  ⟨_, rfl, by simp, decode_of_row rfl (by rw [opOf_mkWord]; rfl) (by rw [subOf_mkWord]; exact congrArg some (by simp))
    (by rw [stampOf_mkWord]; rfl) (by rw [foldOf_mkWord]; rfl) (by simp) (by simp) (by simp) (by simp) (by simp) h⟩
theorem vexpand (fold : BitVec 2) (d : BitVec 6) (a : BitVec 6) (p : BitVec 3) (ft : BitVec 3) :
    Statement (.vexpand fold d a p ft) := fun _ _ h =>
  ⟨_, rfl, by simp, decode_of_row rfl (by rw [opOf_mkWord]; rfl) (by rw [subOf_mkWord]; exact congrArg some (by simp))
    (by rw [stampOf_mkWord]; rfl) (by rw [foldOf_mkWord]; rfl) (by simp) (by simp) (by simp) (by simp) (by simp) h⟩
theorem vrng (fold : BitVec 2) (d : BitVec 6) (p : BitVec 3) : Statement (.vrng fold d p) := fun _ _ h =>
  ⟨_, rfl, by simp, decode_of_row rfl (by rw [opOf_mkWord]; rfl) (by rw [subOf_mkWord]; exact congrArg some (by simp))
    (by rw [stampOf_mkWord]; rfl) (by rw [foldOf_mkWord]; rfl) (by simp) (by simp) (by simp) (by simp) (by simp) h⟩
theorem vrngf (fold : BitVec 2) (d : BitVec 6) (p : BitVec 3) (ft : BitVec 3) : Statement (.vrngf fold d p ft) := fun _ _ h =>
  ⟨_, rfl, by simp, decode_of_row rfl (by rw [opOf_mkWord]; rfl) (by rw [subOf_mkWord]; exact congrArg some (by simp))
    (by rw [stampOf_mkWord]; rfl) (by rw [foldOf_mkWord]; rfl) (by simp) (by simp) (by simp) (by simp) (by simp) h⟩
theorem pand (fold : BitVec 2) (d : BitVec 6) (a : BitVec 6) (b : BitVec 6) : Statement (.pand fold d a b) := fun _ _ h =>
  ⟨_, rfl, by simp, decode_of_row rfl (by rw [opOf_mkWord]; rfl) (by rw [subOf_mkWord]; exact congrArg some (by simp))
    (by rw [stampOf_mkWord]; rfl) (by rw [foldOf_mkWord]; rfl) (by simp) (by simp) (by simp) (by simp) (by simp) h⟩
theorem por (fold : BitVec 2) (d : BitVec 6) (a : BitVec 6) (b : BitVec 6) : Statement (.por fold d a b) := fun _ _ h =>
  ⟨_, rfl, by simp, decode_of_row rfl (by rw [opOf_mkWord]; rfl) (by rw [subOf_mkWord]; exact congrArg some (by simp))
    (by rw [stampOf_mkWord]; rfl) (by rw [foldOf_mkWord]; rfl) (by simp) (by simp) (by simp) (by simp) (by simp) h⟩
theorem pxor (fold : BitVec 2) (d : BitVec 6) (a : BitVec 6) (b : BitVec 6) : Statement (.pxor fold d a b) := fun _ _ h =>
  ⟨_, rfl, by simp, decode_of_row rfl (by rw [opOf_mkWord]; rfl) (by rw [subOf_mkWord]; exact congrArg some (by simp))
    (by rw [stampOf_mkWord]; rfl) (by rw [foldOf_mkWord]; rfl) (by simp) (by simp) (by simp) (by simp) (by simp) h⟩
theorem pnot (fold : BitVec 2) (d : BitVec 6) (a : BitVec 6) : Statement (.pnot fold d a) := fun _ _ h =>
  ⟨_, rfl, by simp, decode_of_row rfl (by rw [opOf_mkWord]; rfl) (by rw [subOf_mkWord]; exact congrArg some (by simp))
    (by rw [stampOf_mkWord]; rfl) (by rw [foldOf_mkWord]; rfl) (by simp) (by simp) (by simp) (by simp) (by simp) h⟩
theorem pmov (fold : BitVec 2) (d : BitVec 6) (a : BitVec 6) : Statement (.pmov fold d a) := fun _ _ h =>
  ⟨_, rfl, by simp, decode_of_row rfl (by rw [opOf_mkWord]; rfl) (by rw [subOf_mkWord]; exact congrArg some (by simp))
    (by rw [stampOf_mkWord]; rfl) (by rw [foldOf_mkWord]; rfl) (by simp) (by simp) (by simp) (by simp) (by simp) h⟩
theorem pall (fold : BitVec 2) (d : BitVec 6) : Statement (.pall fold d) := fun _ _ h =>
  ⟨_, rfl, by simp, decode_of_row rfl (by rw [opOf_mkWord]; rfl) (by rw [subOf_mkWord]; exact congrArg some (by simp))
    (by rw [stampOf_mkWord]; rfl) (by rw [foldOf_mkWord]; rfl) (by simp) (by simp) (by simp) (by simp) (by simp) h⟩
theorem pnone (fold : BitVec 2) (d : BitVec 6) : Statement (.pnone fold d) := fun _ _ h =>
  ⟨_, rfl, by simp, decode_of_row rfl (by rw [opOf_mkWord]; rfl) (by rw [subOf_mkWord]; exact congrArg some (by simp))
    (by rw [stampOf_mkWord]; rfl) (by rw [foldOf_mkWord]; rfl) (by simp) (by simp) (by simp) (by simp) (by simp) h⟩
theorem pcnt (fold : BitVec 2) (d : BitVec 6) (a : BitVec 6) : Statement (.pcnt fold d a) := fun _ _ h =>
  ⟨_, rfl, by simp, decode_of_row rfl (by rw [opOf_mkWord]; rfl) (by rw [subOf_mkWord]; exact congrArg some (by simp))
    (by rw [stampOf_mkWord]; rfl) (by rw [foldOf_mkWord]; rfl) (by simp) (by simp) (by simp) (by simp) (by simp) h⟩
theorem pfirst (fold : BitVec 2) (d : BitVec 6) (a : BitVec 6) : Statement (.pfirst fold d a) := fun _ _ h =>
  ⟨_, rfl, by simp, decode_of_row rfl (by rw [opOf_mkWord]; rfl) (by rw [subOf_mkWord]; exact congrArg some (by simp))
    (by rw [stampOf_mkWord]; rfl) (by rw [foldOf_mkWord]; rfl) (by simp) (by simp) (by simp) (by simp) (by simp) h⟩
theorem pwlt (fold : BitVec 2) (d : BitVec 6) (a : BitVec 6) : Statement (.pwlt fold d a) := fun _ _ h =>
  ⟨_, rfl, by simp, decode_of_row rfl (by rw [opOf_mkWord]; rfl) (by rw [subOf_mkWord]; exact congrArg some (by simp))
    (by rw [stampOf_mkWord]; rfl) (by rw [foldOf_mkWord]; rfl) (by simp) (by simp) (by simp) (by simp) (by simp) h⟩
theorem madd (fold : BitVec 2) (d : BitVec 6) (a : BitVec 6) (b : BitVec 6) (p : BitVec 3) (qset : BitVec 2) :
    Statement (.madd fold d a b p qset) := fun _ _ h =>
  ⟨_, rfl, by simp, decode_of_row rfl (by rw [opOf_mkWord]; rfl) (by rw [subOf_mkWord]; exact congrArg some (by simp))
    (by rw [stampOf_mkWord]; rfl) (by rw [foldOf_mkWord]; rfl) (by simp) (by simp) (by simp) (by simp) (by simp) h⟩
theorem msub (fold : BitVec 2) (d : BitVec 6) (a : BitVec 6) (b : BitVec 6) (p : BitVec 3) (qset : BitVec 2) :
    Statement (.msub fold d a b p qset) := fun _ _ h =>
  ⟨_, rfl, by simp, decode_of_row rfl (by rw [opOf_mkWord]; rfl) (by rw [subOf_mkWord]; exact congrArg some (by simp))
    (by rw [stampOf_mkWord]; rfl) (by rw [foldOf_mkWord]; rfl) (by simp) (by simp) (by simp) (by simp) (by simp) h⟩
theorem mneg (fold : BitVec 2) (d : BitVec 6) (a : BitVec 6) (p : BitVec 3) (qset : BitVec 2) :
    Statement (.mneg fold d a p qset) := fun _ _ h =>
  ⟨_, rfl, by simp, decode_of_row rfl (by rw [opOf_mkWord]; rfl) (by rw [subOf_mkWord]; exact congrArg some (by simp))
    (by rw [stampOf_mkWord]; rfl) (by rw [foldOf_mkWord]; rfl) (by simp) (by simp) (by simp) (by simp) (by simp) h⟩
theorem mmulq (fold : BitVec 2) (d : BitVec 6) (a : BitVec 6) (b : BitVec 6) (p : BitVec 3) (qset : BitVec 2) :
    Statement (.mmulq fold d a b p qset) := fun _ _ h =>
  ⟨_, rfl, by simp, decode_of_row rfl (by rw [opOf_mkWord]; rfl) (by rw [subOf_mkWord]; exact congrArg some (by simp))
    (by rw [stampOf_mkWord]; rfl) (by rw [foldOf_mkWord]; rfl) (by simp) (by simp) (by simp) (by simp) (by simp) h⟩
theorem mmac (fold : BitVec 2) (d : BitVec 6) (a : BitVec 6) (b : BitVec 6) (c : BitVec 6) (p : BitVec 3) (qset : BitVec 2) :
    Statement (.mmac fold d a b c p qset) := fun _ _ h =>
  ⟨_, rfl, by simp, decode_of_row rfl (by rw [opOf_mkWord]; rfl) (by rw [subOf_mkWord]; exact congrArg some (by simp))
    (by rw [stampOf_mkWord]; rfl) (by rw [foldOf_mkWord]; rfl) (by simp) (by simp) (by simp) (by simp) (by simp) h⟩
theorem mtomont (fold : BitVec 2) (d : BitVec 6) (a : BitVec 6) (p : BitVec 3) (qset : BitVec 2) :
    Statement (.mtomont fold d a p qset) := fun _ _ h =>
  ⟨_, rfl, by simp, decode_of_row rfl (by rw [opOf_mkWord]; rfl) (by rw [subOf_mkWord]; exact congrArg some (by simp))
    (by rw [stampOf_mkWord]; rfl) (by rw [foldOf_mkWord]; rfl) (by simp) (by simp) (by simp) (by simp) (by simp) h⟩
theorem mfrmont (fold : BitVec 2) (d : BitVec 6) (a : BitVec 6) (p : BitVec 3) (qset : BitVec 2) :
    Statement (.mfrmont fold d a p qset) := fun _ _ h =>
  ⟨_, rfl, by simp, decode_of_row rfl (by rw [opOf_mkWord]; rfl) (by rw [subOf_mkWord]; exact congrArg some (by simp))
    (by rw [stampOf_mkWord]; rfl) (by rw [foldOf_mkWord]; rfl) (by simp) (by simp) (by simp) (by simp) (by simp) h⟩
theorem mred (fold : BitVec 2) (d : BitVec 6) (a : BitVec 6) (p : BitVec 3) (qset : BitVec 2) :
    Statement (.mred fold d a p qset) := fun _ _ h =>
  ⟨_, rfl, by simp, decode_of_row rfl (by rw [opOf_mkWord]; rfl) (by rw [subOf_mkWord]; exact congrArg some (by simp))
    (by rw [stampOf_mkWord]; rfl) (by rw [foldOf_mkWord]; rfl) (by simp) (by simp) (by simp) (by simp) (by simp) h⟩
theorem mmul (fold : BitVec 2) (d : BitVec 6) (a : BitVec 6) (b : BitVec 6) (p : BitVec 3) (qset : BitVec 2) :
    Statement (.mmul fold d a b p qset) := fun _ _ h =>
  ⟨_, rfl, by simp, decode_of_row rfl (by rw [opOf_mkWord]; rfl) (by rw [subOf_mkWord]; exact congrArg some (by simp))
    (by rw [stampOf_mkWord]; rfl) (by rw [foldOf_mkWord]; rfl) (by simp) (by simp) (by simp) (by simp) (by simp) h⟩
theorem bflyct (fold : BitVec 2) (d : BitVec 6) (a : BitVec 6) (b : BitVec 6) (stage : BitVec 3) (qset : BitVec 2) :
    Statement (.bflyct fold d a b stage qset) := fun _ _ h =>
  ⟨_, rfl, by simp, decode_of_row rfl (by rw [opOf_mkWord]; rfl) (by rw [subOf_mkWord]; exact congrArg some (by simp))
    (by rw [stampOf_mkWord]; rfl) (by rw [foldOf_mkWord]; rfl) (by simp) (by simp) (by simp) (by simp) (by simp) h⟩
theorem bflygs (fold : BitVec 2) (d : BitVec 6) (a : BitVec 6) (b : BitVec 6) (stage : BitVec 3) (qset : BitVec 2) :
    Statement (.bflygs fold d a b stage qset) := fun _ _ h =>
  ⟨_, rfl, by simp, decode_of_row rfl (by rw [opOf_mkWord]; rfl) (by rw [subOf_mkWord]; exact congrArg some (by simp))
    (by rw [stampOf_mkWord]; rfl) (by rw [foldOf_mkWord]; rfl) (by simp) (by simp) (by simp) (by simp) (by simp) h⟩
theorem bfpermRev (fold : BitVec 2) (d : BitVec 6) (a : BitVec 6) : Statement (.bfpermRev fold d a) := fun _ _ h =>
  ⟨_, rfl, by simp, decode_of_row rfl (by rw [opOf_mkWord]; rfl) (by rw [subOf_mkWord]; exact congrArg some (by simp))
    (by rw [stampOf_mkWord]; rfl) (by rw [foldOf_mkWord]; rfl) (by simp) (by simp) (by simp) (by simp) (by simp) h⟩
theorem bfpermShuf (fold : BitVec 2) (d : BitVec 6) (a : BitVec 6) : Statement (.bfpermShuf fold d a) := fun _ _ h =>
  ⟨_, rfl, by simp, decode_of_row rfl (by rw [opOf_mkWord]; rfl) (by rw [subOf_mkWord]; exact congrArg some (by simp))
    (by rw [stampOf_mkWord]; rfl) (by rw [foldOf_mkWord]; rfl) (by simp) (by simp) (by simp) (by simp) (by simp) h⟩
theorem bfpermStrd (fold : BitVec 2) (d : BitVec 6) (a : BitVec 6) (stride : BitVec 6) :
    Statement (.bfpermStrd fold d a stride) := fun _ _ h =>
  ⟨_, rfl, by simp, decode_of_row rfl (by rw [opOf_mkWord]; rfl) (by rw [subOf_mkWord]; exact congrArg some (by simp))
    (by rw [stampOf_mkWord]; rfl) (by rw [foldOf_mkWord]; rfl) (by simp) (by simp) (by simp) (by simp) (by simp) h⟩
theorem mauto (fold : BitVec 2) (d : BitVec 6) (a : BitVec 6) (b : BitVec 6) (qset : BitVec 2) :
    Statement (.mauto fold d a b qset) := fun _ _ h =>
  ⟨_, rfl, by simp, decode_of_row rfl (by rw [opOf_mkWord]; rfl) (by rw [subOf_mkWord]; exact congrArg some (by simp))
    (by rw [stampOf_mkWord]; rfl) (by rw [foldOf_mkWord]; rfl) (by simp) (by simp) (by simp) (by simp) (by simp) h⟩
theorem mqset (fold : BitVec 2) (d : BitVec 6) (a : BitVec 6) : Statement (.mqset fold d a) := fun _ _ h =>
  ⟨_, rfl, by simp, decode_of_row rfl (by rw [opOf_mkWord]; rfl) (by rw [subOf_mkWord]; exact congrArg some (by simp))
    (by rw [stampOf_mkWord]; rfl) (by rw [foldOf_mkWord]; rfl) (by simp) (by simp) (by simp) (by simp) (by simp) h⟩
theorem mqget (fold : BitVec 2) (d : BitVec 6) (a : BitVec 6) : Statement (.mqget fold d a) := fun _ _ h =>
  ⟨_, rfl, by simp, decode_of_row rfl (by rw [opOf_mkWord]; rfl) (by rw [subOf_mkWord]; exact congrArg some (by simp))
    (by rw [stampOf_mkWord]; rfl) (by rw [foldOf_mkWord]; rfl) (by simp) (by simp) (by simp) (by simp) (by simp) h⟩
theorem tcfg (imm : BitVec 32) : Statement (.tcfg imm) := fun _ _ h =>
  ⟨_, rfl, by simp, decode_of_row rfl (by rw [opOf_mkWord]; rfl) (by rw [subOf_mkWord]; exact congrArg some (by simp))
    (by rw [stampOf_mkWord]; rfl) (by rw [foldOf_mkWord]; rfl) (by simp) (by simp) (by simp) (by simp) (by simp) h⟩
theorem tdef (d : BitVec 6) (a : BitVec 6) (b : BitVec 6) (c : BitVec 6) (flags : BitVec 4) :
    Statement (.tdef d a b c flags) := fun _ _ h =>
  ⟨_, rfl, by simp, decode_of_row rfl (by rw [opOf_mkWord]; rfl) (by rw [subOf_mkWord]; exact congrArg some (by simp))
    (by rw [stampOf_mkWord]; rfl) (by rw [foldOf_mkWord]; rfl) (by simp) (by simp) (by simp) (by simp) (by simp) h⟩
theorem tarm (d : BitVec 6) : Statement (.tarm d) := fun _ _ h =>
  ⟨_, rfl, by simp, decode_of_row rfl (by rw [opOf_mkWord]; rfl) (by rw [subOf_mkWord]; exact congrArg some (by simp))
    (by rw [stampOf_mkWord]; rfl) (by rw [foldOf_mkWord]; rfl) (by simp) (by simp) (by simp) (by simp) (by simp) h⟩
theorem tdisarm (d : BitVec 6) : Statement (.tdisarm d) := fun _ _ h =>
  ⟨_, rfl, by simp, decode_of_row rfl (by rw [opOf_mkWord]; rfl) (by rw [subOf_mkWord]; exact congrArg some (by simp))
    (by rw [stampOf_mkWord]; rfl) (by rw [foldOf_mkWord]; rfl) (by simp) (by simp) (by simp) (by simp) (by simp) h⟩
theorem ttagEmpty (a : BitVec 6) : Statement (.ttagEmpty a) := fun _ _ h =>
  ⟨_, rfl, by simp, decode_of_row rfl (by rw [opOf_mkWord]; rfl) (by rw [subOf_mkWord]; exact congrArg some (by simp))
    (by rw [stampOf_mkWord]; rfl) (by rw [foldOf_mkWord]; rfl) (by simp) (by simp) (by simp) (by simp) (by simp) h⟩
theorem ttagFull (a : BitVec 6) : Statement (.ttagFull a) := fun _ _ h =>
  ⟨_, rfl, by simp, decode_of_row rfl (by rw [opOf_mkWord]; rfl) (by rw [subOf_mkWord]; exact congrArg some (by simp))
    (by rw [stampOf_mkWord]; rfl) (by rw [foldOf_mkWord]; rfl) (by simp) (by simp) (by simp) (by simp) (by simp) h⟩
theorem twload (a : BitVec 6) : Statement (.twload a) := fun _ _ h =>
  ⟨_, rfl, by simp, decode_of_row rfl (by rw [opOf_mkWord]; rfl) (by rw [subOf_mkWord]; exact congrArg some (by simp))
    (by rw [stampOf_mkWord]; rfl) (by rw [foldOf_mkWord]; rfl) (by simp) (by simp) (by simp) (by simp) (by simp) h⟩
theorem tread (d : BitVec 6) (a : BitVec 6) (b : BitVec 6) : Statement (.tread d a b) := fun _ _ h =>
  ⟨_, rfl, by simp, decode_of_row rfl (by rw [opOf_mkWord]; rfl) (by rw [subOf_mkWord]; exact congrArg some (by simp))
    (by rw [stampOf_mkWord]; rfl) (by rw [foldOf_mkWord]; rfl) (by simp) (by simp) (by simp) (by simp) (by simp) h⟩
theorem tstore (a : BitVec 6) (b : BitVec 6) (ft : BitVec 3) (rm : BitVec 4) : Statement (.tstore a b ft rm) := fun _ _ h =>
  ⟨_, rfl, by simp, decode_of_row rfl (by rw [opOf_mkWord]; rfl) (by rw [subOf_mkWord]; exact congrArg some (by simp))
    (by rw [stampOf_mkWord]; rfl) (by rw [foldOf_mkWord]; rfl) (by simp) (by simp) (by simp) (by simp) (by simp) h⟩
theorem taccz (d : BitVec 6) : Statement (.taccz d) := fun _ _ h =>
  ⟨_, rfl, by simp, decode_of_row rfl (by rw [opOf_mkWord]; rfl) (by rw [subOf_mkWord]; exact congrArg some (by simp))
    (by rw [stampOf_mkWord]; rfl) (by rw [foldOf_mkWord]; rfl) (by simp) (by simp) (by simp) (by simp) (by simp) h⟩
theorem tsysto (on : BitVec 1) : Statement (.tsysto on) := fun _ _ h =>
  ⟨_, rfl, by simp, decode_of_row rfl (by rw [opOf_mkWord]; rfl) (by rw [subOf_mkWord]; exact congrArg some (by simp))
    (by rw [stampOf_mkWord]; rfl) (by rw [foldOf_mkWord]; rfl) (by simp) (by simp) (by simp) (by simp) (by simp) h⟩
theorem tstatSlot (d : BitVec 6) (a : BitVec 6) : Statement (.tstatSlot d a) := fun _ _ h =>
  ⟨_, rfl, by simp, decode_of_row rfl (by rw [opOf_mkWord]; rfl) (by rw [subOf_mkWord]; exact congrArg some (by simp))
    (by rw [stampOf_mkWord]; rfl) (by rw [foldOf_mkWord]; rfl) (by simp) (by simp) (by simp) (by simp) (by simp) h⟩
theorem tstatAcc (d : BitVec 6) (a : BitVec 6) : Statement (.tstatAcc d a) := fun _ _ h =>
  ⟨_, rfl, by simp, decode_of_row rfl (by rw [opOf_mkWord]; rfl) (by rw [subOf_mkWord]; exact congrArg some (by simp))
    (by rw [stampOf_mkWord]; rfl) (by rw [foldOf_mkWord]; rfl) (by simp) (by simp) (by simp) (by simp) (by simp) h⟩
theorem pop (fold : BitVec 2) (d : BitVec 6) (a : BitVec 6) : Statement (.pop fold d a) := fun _ _ h =>
  ⟨_, rfl, by simp, decode_of_row rfl (by rw [opOf_mkWord]; rfl) (by rw [subOf_mkWord]; exact congrArg some (by simp))
    (by rw [stampOf_mkWord]; rfl) (by rw [foldOf_mkWord]; rfl) (by simp) (by simp) (by simp) (by simp) (by simp) h⟩
theorem popd (fold : BitVec 2) (a : BitVec 6) : Statement (.popd fold a) := fun _ _ h =>
  ⟨_, rfl, by simp, decode_of_row rfl (by rw [opOf_mkWord]; rfl) (by rw [subOf_mkWord]; exact congrArg some (by simp))
    (by rw [stampOf_mkWord]; rfl) (by rw [foldOf_mkWord]; rfl) (by simp) (by simp) (by simp) (by simp) (by simp) h⟩
theorem push (fold : BitVec 2) (d : BitVec 6) (a : BitVec 6) (ft : BitVec 3) : Statement (.push fold d a ft) := fun _ _ h =>
  ⟨_, rfl, by simp, decode_of_row rfl (by rw [opOf_mkWord]; rfl) (by rw [subOf_mkWord]; exact congrArg some (by simp))
    (by rw [stampOf_mkWord]; rfl) (by rw [foldOf_mkWord]; rfl) (by simp) (by simp) (by simp) (by simp) (by simp) h⟩
theorem peek (fold : BitVec 2) (d : BitVec 6) (a : BitVec 6) : Statement (.peek fold d a) := fun _ _ h =>
  ⟨_, rfl, by simp, decode_of_row rfl (by rw [opOf_mkWord]; rfl) (by rw [subOf_mkWord]; exact congrArg some (by simp))
    (by rw [stampOf_mkWord]; rfl) (by rw [foldOf_mkWord]; rfl) (by simp) (by simp) (by simp) (by simp) (by simp) h⟩
theorem nld (d : BitVec 6) (a : BitVec 6) (imm : BitVec 26) : Statement (.nld d a imm) := fun _ _ h =>
  ⟨_, rfl, by simp, decode_of_row rfl (by rw [opOf_mkWord]; rfl) (by rw [subOf_mkWord]; exact congrArg some (by simp))
    (by rw [stampOf_mkWord]; rfl) (by rw [foldOf_mkWord]; rfl) (by simp) (by simp) (by simp) (by simp) (by simp) h⟩
theorem nlds (d : BitVec 6) (a : BitVec 6) (imm : BitVec 26) : Statement (.nlds d a imm) := fun _ _ h =>
  ⟨_, rfl, by simp, decode_of_row rfl (by rw [opOf_mkWord]; rfl) (by rw [subOf_mkWord]; exact congrArg some (by simp))
    (by rw [stampOf_mkWord]; rfl) (by rw [foldOf_mkWord]; rfl) (by simp) (by simp) (by simp) (by simp) (by simp) h⟩
theorem nst (d : BitVec 6) (a : BitVec 6) (b : BitVec 6) (ocx : BitVec 4) : Statement (.nst d a b ocx) := fun _ _ h =>
  ⟨_, rfl, by simp, decode_of_row rfl (by rw [opOf_mkWord]; rfl) (by rw [subOf_mkWord]; exact congrArg some (by simp))
    (by rw [stampOf_mkWord]; rfl) (by rw [foldOf_mkWord]; rfl) (by simp) (by simp) (by simp) (by simp) (by simp) h⟩
theorem nsts (d : BitVec 6) (a : BitVec 6) (b : BitVec 6) (ocx : BitVec 4) : Statement (.nsts d a b ocx) := fun _ _ h =>
  ⟨_, rfl, by simp, decode_of_row rfl (by rw [opOf_mkWord]; rfl) (by rw [subOf_mkWord]; exact congrArg some (by simp))
    (by rw [stampOf_mkWord]; rfl) (by rw [foldOf_mkWord]; rfl) (by simp) (by simp) (by simp) (by simp) (by simp) h⟩
theorem pld (d : BitVec 6) (a : BitVec 6) (b : BitVec 6) : Statement (.pld d a b) := fun _ _ h =>
  ⟨_, rfl, by simp, decode_of_row rfl (by rw [opOf_mkWord]; rfl) (by rw [subOf_mkWord]; exact congrArg some (by simp))
    (by rw [stampOf_mkWord]; rfl) (by rw [foldOf_mkWord]; rfl) (by simp) (by simp) (by simp) (by simp) (by simp) h⟩
theorem pldv (d : BitVec 6) (a : BitVec 6) (b : BitVec 6) : Statement (.pldv d a b) := fun _ _ h =>
  ⟨_, rfl, by simp, decode_of_row rfl (by rw [opOf_mkWord]; rfl) (by rw [subOf_mkWord]; exact congrArg some (by simp))
    (by rw [stampOf_mkWord]; rfl) (by rw [foldOf_mkWord]; rfl) (by simp) (by simp) (by simp) (by simp) (by simp) h⟩
theorem pst (d : BitVec 6) (a : BitVec 6) (b : BitVec 6) (ocx : BitVec 4) : Statement (.pst d a b ocx) := fun _ _ h =>
  ⟨_, rfl, by simp, decode_of_row rfl (by rw [opOf_mkWord]; rfl) (by rw [subOf_mkWord]; exact congrArg some (by simp))
    (by rw [stampOf_mkWord]; rfl) (by rw [foldOf_mkWord]; rfl) (by simp) (by simp) (by simp) (by simp) (by simp) h⟩
theorem pstv (d : BitVec 6) (a : BitVec 6) (b : BitVec 6) (ocx : BitVec 4) : Statement (.pstv d a b ocx) := fun _ _ h =>
  ⟨_, rfl, by simp, decode_of_row rfl (by rw [opOf_mkWord]; rfl) (by rw [subOf_mkWord]; exact congrArg some (by simp))
    (by rw [stampOf_mkWord]; rfl) (by rw [foldOf_mkWord]; rfl) (by simp) (by simp) (by simp) (by simp) (by simp) h⟩
theorem pclr (a : BitVec 6) (b : BitVec 6) : Statement (.pclr a b) := fun _ _ h =>
  ⟨_, rfl, by simp, decode_of_row rfl (by rw [opOf_mkWord]; rfl) (by rw [subOf_mkWord]; exact congrArg some (by simp))
    (by rw [stampOf_mkWord]; rfl) (by rw [foldOf_mkWord]; rfl) (by simp) (by simp) (by simp) (by simp) (by simp) h⟩
theorem agset (d : BitVec 6) (a : BitVec 6) : Statement (.agset d a) := fun _ _ h =>
  ⟨_, rfl, by simp, decode_of_row rfl (by rw [opOf_mkWord]; rfl) (by rw [subOf_mkWord]; exact congrArg some (by simp))
    (by rw [stampOf_mkWord]; rfl) (by rw [foldOf_mkWord]; rfl) (by simp) (by simp) (by simp) (by simp) (by simp) h⟩
theorem agld (d : BitVec 6) (a : BitVec 6) : Statement (.agld d a) := fun _ _ h =>
  ⟨_, rfl, by simp, decode_of_row rfl (by rw [opOf_mkWord]; rfl) (by rw [subOf_mkWord]; exact congrArg some (by simp))
    (by rw [stampOf_mkWord]; rfl) (by rw [foldOf_mkWord]; rfl) (by simp) (by simp) (by simp) (by simp) (by simp) h⟩
theorem agst (d : BitVec 6) (a : BitVec 6) : Statement (.agst d a) := fun _ _ h =>
  ⟨_, rfl, by simp, decode_of_row rfl (by rw [opOf_mkWord]; rfl) (by rw [subOf_mkWord]; exact congrArg some (by simp))
    (by rw [stampOf_mkWord]; rfl) (by rw [foldOf_mkWord]; rfl) (by simp) (by simp) (by simp) (by simp) (by simp) h⟩
theorem amoAdd (d : BitVec 6) (a : BitVec 6) (b : BitVec 6) (oc : BitVec 3) (scope : BitVec 3) :
    Statement (.amoAdd d a b oc scope) := fun _ _ h =>
  ⟨_, rfl, by simp, decode_of_row rfl (by rw [opOf_mkWord]; rfl) (by rw [subOf_mkWord]; exact congrArg some (by simp))
    (by rw [stampOf_mkWord]; rfl) (by rw [foldOf_mkWord]; rfl) (by simp) (by simp) (by simp) (by simp) (by simp) h⟩
theorem amoMin (d : BitVec 6) (a : BitVec 6) (b : BitVec 6) (oc : BitVec 3) (scope : BitVec 3) :
    Statement (.amoMin d a b oc scope) := fun _ _ h =>
  ⟨_, rfl, by simp, decode_of_row rfl (by rw [opOf_mkWord]; rfl) (by rw [subOf_mkWord]; exact congrArg some (by simp))
    (by rw [stampOf_mkWord]; rfl) (by rw [foldOf_mkWord]; rfl) (by simp) (by simp) (by simp) (by simp) (by simp) h⟩
theorem amoMax (d : BitVec 6) (a : BitVec 6) (b : BitVec 6) (oc : BitVec 3) (scope : BitVec 3) :
    Statement (.amoMax d a b oc scope) := fun _ _ h =>
  ⟨_, rfl, by simp, decode_of_row rfl (by rw [opOf_mkWord]; rfl) (by rw [subOf_mkWord]; exact congrArg some (by simp))
    (by rw [stampOf_mkWord]; rfl) (by rw [foldOf_mkWord]; rfl) (by simp) (by simp) (by simp) (by simp) (by simp) h⟩
theorem amoAnd (d : BitVec 6) (a : BitVec 6) (b : BitVec 6) (oc : BitVec 3) (scope : BitVec 3) :
    Statement (.amoAnd d a b oc scope) := fun _ _ h =>
  ⟨_, rfl, by simp, decode_of_row rfl (by rw [opOf_mkWord]; rfl) (by rw [subOf_mkWord]; exact congrArg some (by simp))
    (by rw [stampOf_mkWord]; rfl) (by rw [foldOf_mkWord]; rfl) (by simp) (by simp) (by simp) (by simp) (by simp) h⟩
theorem amoOr (d : BitVec 6) (a : BitVec 6) (b : BitVec 6) (oc : BitVec 3) (scope : BitVec 3) :
    Statement (.amoOr d a b oc scope) := fun _ _ h =>
  ⟨_, rfl, by simp, decode_of_row rfl (by rw [opOf_mkWord]; rfl) (by rw [subOf_mkWord]; exact congrArg some (by simp))
    (by rw [stampOf_mkWord]; rfl) (by rw [foldOf_mkWord]; rfl) (by simp) (by simp) (by simp) (by simp) (by simp) h⟩
theorem amoXor (d : BitVec 6) (a : BitVec 6) (b : BitVec 6) (oc : BitVec 3) (scope : BitVec 3) :
    Statement (.amoXor d a b oc scope) := fun _ _ h =>
  ⟨_, rfl, by simp, decode_of_row rfl (by rw [opOf_mkWord]; rfl) (by rw [subOf_mkWord]; exact congrArg some (by simp))
    (by rw [stampOf_mkWord]; rfl) (by rw [foldOf_mkWord]; rfl) (by simp) (by simp) (by simp) (by simp) (by simp) h⟩
theorem amoSwap (d : BitVec 6) (a : BitVec 6) (b : BitVec 6) (oc : BitVec 3) (scope : BitVec 3) :
    Statement (.amoSwap d a b oc scope) := fun _ _ h =>
  ⟨_, rfl, by simp, decode_of_row rfl (by rw [opOf_mkWord]; rfl) (by rw [subOf_mkWord]; exact congrArg some (by simp))
    (by rw [stampOf_mkWord]; rfl) (by rw [foldOf_mkWord]; rfl) (by simp) (by simp) (by simp) (by simp) (by simp) h⟩
theorem amoCas (d : BitVec 6) (a : BitVec 6) (b : BitVec 6) (c : BitVec 6) (oc : BitVec 3) (scope : BitVec 3) :
    Statement (.amoCas d a b c oc scope) := fun _ _ h =>
  ⟨_, rfl, by simp, decode_of_row rfl (by rw [opOf_mkWord]; rfl) (by rw [subOf_mkWord]; exact congrArg some (by simp))
    (by rw [stampOf_mkWord]; rfl) (by rw [foldOf_mkWord]; rfl) (by simp) (by simp) (by simp) (by simp) (by simp) h⟩
theorem amoFadd (d : BitVec 6) (a : BitVec 6) (b : BitVec 6) (oc : BitVec 3) (scope : BitVec 3) :
    Statement (.amoFadd d a b oc scope) := fun _ _ h =>
  ⟨_, rfl, by simp, decode_of_row rfl (by rw [opOf_mkWord]; rfl) (by rw [subOf_mkWord]; exact congrArg some (by simp))
    (by rw [stampOf_mkWord]; rfl) (by rw [foldOf_mkWord]; rfl) (by simp) (by simp) (by simp) (by simp) (by simp) h⟩
theorem amoMinu (d : BitVec 6) (a : BitVec 6) (b : BitVec 6) (oc : BitVec 3) (scope : BitVec 3) :
    Statement (.amoMinu d a b oc scope) := fun _ _ h =>
  ⟨_, rfl, by simp, decode_of_row rfl (by rw [opOf_mkWord]; rfl) (by rw [subOf_mkWord]; exact congrArg some (by simp))
    (by rw [stampOf_mkWord]; rfl) (by rw [foldOf_mkWord]; rfl) (by simp) (by simp) (by simp) (by simp) (by simp) h⟩
theorem amoMaxu (d : BitVec 6) (a : BitVec 6) (b : BitVec 6) (oc : BitVec 3) (scope : BitVec 3) :
    Statement (.amoMaxu d a b oc scope) := fun _ _ h =>
  ⟨_, rfl, by simp, decode_of_row rfl (by rw [opOf_mkWord]; rfl) (by rw [subOf_mkWord]; exact congrArg some (by simp))
    (by rw [stampOf_mkWord]; rfl) (by rw [foldOf_mkWord]; rfl) (by simp) (by simp) (by simp) (by simp) (by simp) h⟩
theorem redAdd (a : BitVec 6) (b : BitVec 6) (oc : BitVec 3) (scope : BitVec 3) : Statement (.redAdd a b oc scope) := fun _ _ h =>
  ⟨_, rfl, by simp, decode_of_row rfl (by rw [opOf_mkWord]; rfl) (by rw [subOf_mkWord]; exact congrArg some (by simp))
    (by rw [stampOf_mkWord]; rfl) (by rw [foldOf_mkWord]; rfl) (by simp) (by simp) (by simp) (by simp) (by simp) h⟩
theorem redMin (a : BitVec 6) (b : BitVec 6) (oc : BitVec 3) (scope : BitVec 3) : Statement (.redMin a b oc scope) := fun _ _ h =>
  ⟨_, rfl, by simp, decode_of_row rfl (by rw [opOf_mkWord]; rfl) (by rw [subOf_mkWord]; exact congrArg some (by simp))
    (by rw [stampOf_mkWord]; rfl) (by rw [foldOf_mkWord]; rfl) (by simp) (by simp) (by simp) (by simp) (by simp) h⟩
theorem redMax (a : BitVec 6) (b : BitVec 6) (oc : BitVec 3) (scope : BitVec 3) : Statement (.redMax a b oc scope) := fun _ _ h =>
  ⟨_, rfl, by simp, decode_of_row rfl (by rw [opOf_mkWord]; rfl) (by rw [subOf_mkWord]; exact congrArg some (by simp))
    (by rw [stampOf_mkWord]; rfl) (by rw [foldOf_mkWord]; rfl) (by simp) (by simp) (by simp) (by simp) (by simp) h⟩
theorem redAnd (a : BitVec 6) (b : BitVec 6) (oc : BitVec 3) (scope : BitVec 3) : Statement (.redAnd a b oc scope) := fun _ _ h =>
  ⟨_, rfl, by simp, decode_of_row rfl (by rw [opOf_mkWord]; rfl) (by rw [subOf_mkWord]; exact congrArg some (by simp))
    (by rw [stampOf_mkWord]; rfl) (by rw [foldOf_mkWord]; rfl) (by simp) (by simp) (by simp) (by simp) (by simp) h⟩
theorem redOr (a : BitVec 6) (b : BitVec 6) (oc : BitVec 3) (scope : BitVec 3) : Statement (.redOr a b oc scope) := fun _ _ h =>
  ⟨_, rfl, by simp, decode_of_row rfl (by rw [opOf_mkWord]; rfl) (by rw [subOf_mkWord]; exact congrArg some (by simp))
    (by rw [stampOf_mkWord]; rfl) (by rw [foldOf_mkWord]; rfl) (by simp) (by simp) (by simp) (by simp) (by simp) h⟩
theorem redXor (a : BitVec 6) (b : BitVec 6) (oc : BitVec 3) (scope : BitVec 3) : Statement (.redXor a b oc scope) := fun _ _ h =>
  ⟨_, rfl, by simp, decode_of_row rfl (by rw [opOf_mkWord]; rfl) (by rw [subOf_mkWord]; exact congrArg some (by simp))
    (by rw [stampOf_mkWord]; rfl) (by rw [foldOf_mkWord]; rfl) (by simp) (by simp) (by simp) (by simp) (by simp) h⟩
theorem redFadd (a : BitVec 6) (b : BitVec 6) (oc : BitVec 3) (scope : BitVec 3) : Statement (.redFadd a b oc scope) := fun _ _ h =>
  ⟨_, rfl, by simp, decode_of_row rfl (by rw [opOf_mkWord]; rfl) (by rw [subOf_mkWord]; exact congrArg some (by simp))
    (by rw [stampOf_mkWord]; rfl) (by rw [foldOf_mkWord]; rfl) (by simp) (by simp) (by simp) (by simp) (by simp) h⟩
theorem redMinu (a : BitVec 6) (b : BitVec 6) (oc : BitVec 3) (scope : BitVec 3) : Statement (.redMinu a b oc scope) := fun _ _ h =>
  ⟨_, rfl, by simp, decode_of_row rfl (by rw [opOf_mkWord]; rfl) (by rw [subOf_mkWord]; exact congrArg some (by simp))
    (by rw [stampOf_mkWord]; rfl) (by rw [foldOf_mkWord]; rfl) (by simp) (by simp) (by simp) (by simp) (by simp) h⟩
theorem redMaxu (a : BitVec 6) (b : BitVec 6) (oc : BitVec 3) (scope : BitVec 3) : Statement (.redMaxu a b oc scope) := fun _ _ h =>
  ⟨_, rfl, by simp, decode_of_row rfl (by rw [opOf_mkWord]; rfl) (by rw [subOf_mkWord]; exact congrArg some (by simp))
    (by rw [stampOf_mkWord]; rfl) (by rw [foldOf_mkWord]; rfl) (by simp) (by simp) (by simp) (by simp) (by simp) h⟩
theorem csig (d : BitVec 6) : Statement (.csig d) := fun _ _ h =>
  ⟨_, rfl, by simp, decode_of_row rfl (by rw [opOf_mkWord]; rfl) (by rw [subOf_mkWord]; exact congrArg some (by simp))
    (by rw [stampOf_mkWord]; rfl) (by rw [foldOf_mkWord]; rfl) (by simp) (by simp) (by simp) (by simp) (by simp) h⟩
theorem cwait (a : BitVec 6) : Statement (.cwait a) := fun _ _ h =>
  ⟨_, rfl, by simp, decode_of_row rfl (by rw [opOf_mkWord]; rfl) (by rw [subOf_mkWord]; exact congrArg some (by simp))
    (by rw [stampOf_mkWord]; rfl) (by rw [foldOf_mkWord]; rfl) (by simp) (by simp) (by simp) (by simp) (by simp) h⟩
theorem ctest (d : BitVec 6) (a : BitVec 6) : Statement (.ctest d a) := fun _ _ h =>
  ⟨_, rfl, by simp, decode_of_row rfl (by rw [opOf_mkWord]; rfl) (by rw [subOf_mkWord]; exact congrArg some (by simp))
    (by rw [stampOf_mkWord]; rfl) (by rw [foldOf_mkWord]; rfl) (by simp) (by simp) (by simp) (by simp) (by simp) h⟩
theorem punct (d : BitVec 6) : Statement (.punct d) := fun _ _ h =>
  ⟨_, rfl, by simp, decode_of_row rfl (by rw [opOf_mkWord]; rfl) (by rw [subOf_mkWord]; exact congrArg some (by simp))
    (by rw [stampOf_mkWord]; rfl) (by rw [foldOf_mkWord]; rfl) (by simp) (by simp) (by simp) (by simp) (by simp) h⟩
theorem punctall : Statement (.punctall) := fun _ _ h =>
  ⟨_, rfl, by simp, decode_of_row rfl (by rw [opOf_mkWord]; rfl) (by rw [subOf_mkWord]; exact congrArg some (rfl))
    (by rw [stampOf_mkWord]; rfl) (by rw [foldOf_mkWord]; rfl) (by simp) (by simp) (by simp) (by simp) (by simp) h⟩
theorem ordj (d : BitVec 6) (a : BitVec 6) : Statement (.ordj d a) := fun _ _ h =>
  ⟨_, rfl, by simp, decode_of_row rfl (by rw [opOf_mkWord]; rfl) (by rw [subOf_mkWord]; exact congrArg some (by simp))
    (by rw [stampOf_mkWord]; rfl) (by rw [foldOf_mkWord]; rfl) (by simp) (by simp) (by simp) (by simp) (by simp) h⟩
theorem fence (scope : BitVec 3) : Statement (.fence scope) := fun _ _ h =>
  ⟨_, rfl, by simp, decode_of_row rfl (by rw [opOf_mkWord]; rfl) (by rw [subOf_mkWord]; exact congrArg some (by simp))
    (by rw [stampOf_mkWord]; rfl) (by rw [foldOf_mkWord]; rfl) (by simp) (by simp) (by simp) (by simp) (by simp) h⟩
theorem ramoAdd (d : BitVec 6) (a : BitVec 6) (b : BitVec 6) (oc : BitVec 3) : Statement (.ramoAdd d a b oc) := fun _ _ h =>
  ⟨_, rfl, by simp, decode_of_row rfl (by rw [opOf_mkWord]; rfl) (by rw [subOf_mkWord]; exact congrArg some (by simp))
    (by rw [stampOf_mkWord]; rfl) (by rw [foldOf_mkWord]; rfl) (by simp) (by simp) (by simp) (by simp) (by simp) h⟩
theorem ramoMin (d : BitVec 6) (a : BitVec 6) (b : BitVec 6) (oc : BitVec 3) : Statement (.ramoMin d a b oc) := fun _ _ h =>
  ⟨_, rfl, by simp, decode_of_row rfl (by rw [opOf_mkWord]; rfl) (by rw [subOf_mkWord]; exact congrArg some (by simp))
    (by rw [stampOf_mkWord]; rfl) (by rw [foldOf_mkWord]; rfl) (by simp) (by simp) (by simp) (by simp) (by simp) h⟩
theorem ramoMax (d : BitVec 6) (a : BitVec 6) (b : BitVec 6) (oc : BitVec 3) : Statement (.ramoMax d a b oc) := fun _ _ h =>
  ⟨_, rfl, by simp, decode_of_row rfl (by rw [opOf_mkWord]; rfl) (by rw [subOf_mkWord]; exact congrArg some (by simp))
    (by rw [stampOf_mkWord]; rfl) (by rw [foldOf_mkWord]; rfl) (by simp) (by simp) (by simp) (by simp) (by simp) h⟩
theorem ramoAnd (d : BitVec 6) (a : BitVec 6) (b : BitVec 6) (oc : BitVec 3) : Statement (.ramoAnd d a b oc) := fun _ _ h =>
  ⟨_, rfl, by simp, decode_of_row rfl (by rw [opOf_mkWord]; rfl) (by rw [subOf_mkWord]; exact congrArg some (by simp))
    (by rw [stampOf_mkWord]; rfl) (by rw [foldOf_mkWord]; rfl) (by simp) (by simp) (by simp) (by simp) (by simp) h⟩
theorem ramoOr (d : BitVec 6) (a : BitVec 6) (b : BitVec 6) (oc : BitVec 3) : Statement (.ramoOr d a b oc) := fun _ _ h =>
  ⟨_, rfl, by simp, decode_of_row rfl (by rw [opOf_mkWord]; rfl) (by rw [subOf_mkWord]; exact congrArg some (by simp))
    (by rw [stampOf_mkWord]; rfl) (by rw [foldOf_mkWord]; rfl) (by simp) (by simp) (by simp) (by simp) (by simp) h⟩
theorem ramoXor (d : BitVec 6) (a : BitVec 6) (b : BitVec 6) (oc : BitVec 3) : Statement (.ramoXor d a b oc) := fun _ _ h =>
  ⟨_, rfl, by simp, decode_of_row rfl (by rw [opOf_mkWord]; rfl) (by rw [subOf_mkWord]; exact congrArg some (by simp))
    (by rw [stampOf_mkWord]; rfl) (by rw [foldOf_mkWord]; rfl) (by simp) (by simp) (by simp) (by simp) (by simp) h⟩
theorem ramoSwap (d : BitVec 6) (a : BitVec 6) (b : BitVec 6) (oc : BitVec 3) : Statement (.ramoSwap d a b oc) := fun _ _ h =>
  ⟨_, rfl, by simp, decode_of_row rfl (by rw [opOf_mkWord]; rfl) (by rw [subOf_mkWord]; exact congrArg some (by simp))
    (by rw [stampOf_mkWord]; rfl) (by rw [foldOf_mkWord]; rfl) (by simp) (by simp) (by simp) (by simp) (by simp) h⟩
theorem ramoCas (d : BitVec 6) (a : BitVec 6) (b : BitVec 6) (c : BitVec 6) (oc : BitVec 3) :
    Statement (.ramoCas d a b c oc) := fun _ _ h =>
  ⟨_, rfl, by simp, decode_of_row rfl (by rw [opOf_mkWord]; rfl) (by rw [subOf_mkWord]; exact congrArg some (by simp))
    (by rw [stampOf_mkWord]; rfl) (by rw [foldOf_mkWord]; rfl) (by simp) (by simp) (by simp) (by simp) (by simp) h⟩
theorem ramoFadd (d : BitVec 6) (a : BitVec 6) (b : BitVec 6) (oc : BitVec 3) : Statement (.ramoFadd d a b oc) := fun _ _ h =>
  ⟨_, rfl, by simp, decode_of_row rfl (by rw [opOf_mkWord]; rfl) (by rw [subOf_mkWord]; exact congrArg some (by simp))
    (by rw [stampOf_mkWord]; rfl) (by rw [foldOf_mkWord]; rfl) (by simp) (by simp) (by simp) (by simp) (by simp) h⟩
theorem ramoMinu (d : BitVec 6) (a : BitVec 6) (b : BitVec 6) (oc : BitVec 3) : Statement (.ramoMinu d a b oc) := fun _ _ h =>
  ⟨_, rfl, by simp, decode_of_row rfl (by rw [opOf_mkWord]; rfl) (by rw [subOf_mkWord]; exact congrArg some (by simp))
    (by rw [stampOf_mkWord]; rfl) (by rw [foldOf_mkWord]; rfl) (by simp) (by simp) (by simp) (by simp) (by simp) h⟩
theorem ramoMaxu (d : BitVec 6) (a : BitVec 6) (b : BitVec 6) (oc : BitVec 3) : Statement (.ramoMaxu d a b oc) := fun _ _ h =>
  ⟨_, rfl, by simp, decode_of_row rfl (by rw [opOf_mkWord]; rfl) (by rw [subOf_mkWord]; exact congrArg some (by simp))
    (by rw [stampOf_mkWord]; rfl) (by rw [foldOf_mkWord]; rfl) (by simp) (by simp) (by simp) (by simp) (by simp) h⟩
theorem setmode (a : BitVec 6) (mode : BitVec 3) : Statement (.setmode a mode) := fun _ _ h =>
  ⟨_, rfl, by simp, decode_of_row rfl (by rw [opOf_mkWord]; rfl) (by rw [subOf_mkWord]; exact congrArg some (by simp))
    (by rw [stampOf_mkWord]; rfl) (by rw [foldOf_mkWord]; rfl) (by simp) (by simp) (by simp) (by simp) (by simp) h⟩
theorem spawn (d : BitVec 6) (a : BitVec 6) (tag : BitVec 12) : Statement (.spawn d a tag) := fun _ _ h =>
  ⟨_, rfl, by simp, decode_of_row rfl (by rw [opOf_mkWord]; rfl) (by rw [subOf_mkWord]; exact congrArg some (by simp))
    (by rw [stampOf_mkWord]; rfl) (by rw [foldOf_mkWord]; rfl) (by simp) (by simp) (by simp) (by simp) (by simp) h⟩
theorem cret (d : BitVec 6) : Statement (.cret d) := fun _ _ h =>
  ⟨_, rfl, by simp, decode_of_row rfl (by rw [opOf_mkWord]; rfl) (by rw [subOf_mkWord]; exact congrArg some (by simp))
    (by rw [stampOf_mkWord]; rfl) (by rw [foldOf_mkWord]; rfl) (by simp) (by simp) (by simp) (by simp) (by simp) h⟩
theorem ckick (a : BitVec 6) (tag : BitVec 12) : Statement (.ckick a tag) := fun _ _ h =>
  ⟨_, rfl, by simp, decode_of_row rfl (by rw [opOf_mkWord]; rfl) (by rw [subOf_mkWord]; exact congrArg some (by simp))
    (by rw [stampOf_mkWord]; rfl) (by rw [foldOf_mkWord]; rfl) (by simp) (by simp) (by simp) (by simp) (by simp) h⟩
theorem carm (a : BitVec 6) (tag : BitVec 12) : Statement (.carm a tag) := fun _ _ h =>
  ⟨_, rfl, by simp, decode_of_row rfl (by rw [opOf_mkWord]; rfl) (by rw [subOf_mkWord]; exact congrArg some (by simp))
    (by rw [stampOf_mkWord]; rfl) (by rw [foldOf_mkWord]; rfl) (by simp) (by simp) (by simp) (by simp) (by simp) h⟩
theorem gld (d : BitVec 6) (a : BitVec 6) (b : BitVec 6) : Statement (.gld d a b) := fun _ _ h =>
  ⟨_, rfl, by simp, decode_of_row rfl (by rw [opOf_mkWord]; rfl) (by rw [subOf_mkWord]; exact congrArg some (by simp))
    (by rw [stampOf_mkWord]; rfl) (by rw [foldOf_mkWord]; rfl) (by simp) (by simp) (by simp) (by simp) (by simp) h⟩
theorem gact (a : BitVec 6) : Statement (.gact a) := fun _ _ h =>
  ⟨_, rfl, by simp, decode_of_row rfl (by rw [opOf_mkWord]; rfl) (by rw [subOf_mkWord]; exact congrArg some (by simp))
    (by rw [stampOf_mkWord]; rfl) (by rw [foldOf_mkWord]; rfl) (by simp) (by simp) (by simp) (by simp) (by simp) h⟩
theorem gdrain (a : BitVec 6) : Statement (.gdrain a) := fun _ _ h =>
  ⟨_, rfl, by simp, decode_of_row rfl (by rw [opOf_mkWord]; rfl) (by rw [subOf_mkWord]; exact congrArg some (by simp))
    (by rw [stampOf_mkWord]; rfl) (by rw [foldOf_mkWord]; rfl) (by simp) (by simp) (by simp) (by simp) (by simp) h⟩
theorem gunld (a : BitVec 6) : Statement (.gunld a) := fun _ _ h =>
  ⟨_, rfl, by simp, decode_of_row rfl (by rw [opOf_mkWord]; rfl) (by rw [subOf_mkWord]; exact congrArg some (by simp))
    (by rw [stampOf_mkWord]; rfl) (by rw [foldOf_mkWord]; rfl) (by simp) (by simp) (by simp) (by simp) (by simp) h⟩
theorem gstat (d : BitVec 6) (a : BitVec 6) : Statement (.gstat d a) := fun _ _ h =>
  ⟨_, rfl, by simp, decode_of_row rfl (by rw [opOf_mkWord]; rfl) (by rw [subOf_mkWord]; exact congrArg some (by simp))
    (by rw [stampOf_mkWord]; rfl) (by rw [foldOf_mkWord]; rfl) (by simp) (by simp) (by simp) (by simp) (by simp) h⟩
theorem mstat (d : BitVec 6) (a : BitVec 6) : Statement (.mstat d a) := fun _ _ h =>
  ⟨_, rfl, by simp, decode_of_row rfl (by rw [opOf_mkWord]; rfl) (by rw [subOf_mkWord]; exact congrArg some (by simp))
    (by rw [stampOf_mkWord]; rfl) (by rw [foldOf_mkWord]; rfl) (by simp) (by simp) (by simp) (by simp) (by simp) h⟩
theorem gpatch (d : BitVec 6) (a : BitVec 6) (tag : BitVec 12) : Statement (.gpatch d a tag) := fun _ _ h =>
  ⟨_, rfl, by simp, decode_of_row rfl (by rw [opOf_mkWord]; rfl) (by rw [subOf_mkWord]; exact congrArg some (by simp))
    (by rw [stampOf_mkWord]; rfl) (by rw [foldOf_mkWord]; rfl) (by simp) (by simp) (by simp) (by simp) (by simp) h⟩
theorem trap (code : BitVec 16) : Statement (.trap code) := fun _ _ h =>
  ⟨_, rfl, by simp, decode_of_row rfl (by rw [opOf_mkWord]; rfl) (by rw [subOf_mkWord]; exact congrArg some (by simp))
    (by rw [stampOf_mkWord]; rfl) (by rw [foldOf_mkWord]; rfl) (by simp) (by simp) (by simp) (by simp) (by simp) h⟩
theorem tret : Statement (.tret) := fun _ _ h =>
  ⟨_, rfl, by simp, decode_of_row rfl (by rw [opOf_mkWord]; rfl) (by rw [subOf_mkWord]; exact congrArg some (rfl))
    (by rw [stampOf_mkWord]; rfl) (by rw [foldOf_mkWord]; rfl) (by simp) (by simp) (by simp) (by simp) (by simp) h⟩
theorem mtsr (a : BitVec 6) (sr : BitVec 16) : Statement (.mtsr a sr) := fun _ _ h =>
  ⟨_, rfl, by simp, decode_of_row rfl (by rw [opOf_mkWord]; rfl) (by rw [subOf_mkWord]; exact congrArg some (by simp))
    (by rw [stampOf_mkWord]; rfl) (by rw [foldOf_mkWord]; rfl) (by simp) (by simp) (by simp) (by simp) (by simp) h⟩
theorem idle : Statement (.idle) := fun _ _ h =>
  ⟨_, rfl, by simp, decode_of_row rfl (by rw [opOf_mkWord]; rfl) (by rw [subOf_mkWord]; exact congrArg some (rfl))
    (by rw [stampOf_mkWord]; rfl) (by rw [foldOf_mkWord]; rfl) (by simp) (by simp) (by simp) (by simp) (by simp) h⟩
theorem csave (a : BitVec 6) : Statement (.csave a) := fun _ _ h =>
  ⟨_, rfl, by simp, decode_of_row rfl (by rw [opOf_mkWord]; rfl) (by rw [subOf_mkWord]; exact congrArg some (by simp))
    (by rw [stampOf_mkWord]; rfl) (by rw [foldOf_mkWord]; rfl) (by simp) (by simp) (by simp) (by simp) (by simp) h⟩
theorem cload (a : BitVec 6) : Statement (.cload a) := fun _ _ h =>
  ⟨_, rfl, by simp, decode_of_row rfl (by rw [opOf_mkWord]; rfl) (by rw [subOf_mkWord]; exact congrArg some (by simp))
    (by rw [stampOf_mkWord]; rfl) (by rw [foldOf_mkWord]; rfl) (by simp) (by simp) (by simp) (by simp) (by simp) h⟩
theorem pginv (a : BitVec 6) (b : BitVec 6) (scope : BitVec 4) : Statement (.pginv a b scope) := fun _ _ h =>
  ⟨_, rfl, by simp, decode_of_row rfl (by rw [opOf_mkWord]; rfl) (by rw [subOf_mkWord]; exact congrArg some (by simp))
    (by rw [stampOf_mkWord]; rfl) (by rw [foldOf_mkWord]; rfl) (by simp) (by simp) (by simp) (by simp) (by simp) h⟩
theorem pgfence (scope : BitVec 4) : Statement (.pgfence scope) := fun _ _ h =>
  ⟨_, rfl, by simp, decode_of_row rfl (by rw [opOf_mkWord]; rfl) (by rw [subOf_mkWord]; exact congrArg some (by simp))
    (by rw [stampOf_mkWord]; rfl) (by rw [foldOf_mkWord]; rfl) (by simp) (by simp) (by simp) (by simp) (by simp) h⟩
theorem pgstat (d : BitVec 6) (a : BitVec 6) : Statement (.pgstat d a) := fun _ _ h =>
  ⟨_, rfl, by simp, decode_of_row rfl (by rw [opOf_mkWord]; rfl) (by rw [subOf_mkWord]; exact congrArg some (by simp))
    (by rw [stampOf_mkWord]; rfl) (by rw [foldOf_mkWord]; rfl) (by simp) (by simp) (by simp) (by simp) (by simp) h⟩
theorem snap (ident : BitVec 16) (scope : BitVec 4) : Statement (.snap ident scope) := fun _ _ h =>
  ⟨_, rfl, by simp, decode_of_row rfl (by rw [opOf_mkWord]; rfl) (by rw [subOf_mkWord]; exact congrArg some (by simp))
    (by rw [stampOf_mkWord]; rfl) (by rw [foldOf_mkWord]; rfl) (by simp) (by simp) (by simp) (by simp) (by simp) h⟩
theorem snapq (d : BitVec 6) (a : BitVec 6) : Statement (.snapq d a) := fun _ _ h =>
  ⟨_, rfl, by simp, decode_of_row rfl (by rw [opOf_mkWord]; rfl) (by rw [subOf_mkWord]; exact congrArg some (by simp))
    (by rw [stampOf_mkWord]; rfl) (by rw [foldOf_mkWord]; rfl) (by simp) (by simp) (by simp) (by simp) (by simp) h⟩
theorem snapw (a : BitVec 6) : Statement (.snapw a) := fun _ _ h =>
  ⟨_, rfl, by simp, decode_of_row rfl (by rw [opOf_mkWord]; rfl) (by rw [subOf_mkWord]; exact congrArg some (by simp))
    (by rw [stampOf_mkWord]; rfl) (by rw [foldOf_mkWord]; rfl) (by simp) (by simp) (by simp) (by simp) (by simp) h⟩
theorem rollb (a : BitVec 6) : Statement (.rollb a) := fun _ _ h =>
  ⟨_, rfl, by simp, decode_of_row rfl (by rw [opOf_mkWord]; rfl) (by rw [subOf_mkWord]; exact congrArg some (by simp))
    (by rw [stampOf_mkWord]; rfl) (by rw [foldOf_mkWord]; rfl) (by simp) (by simp) (by simp) (by simp) (by simp) h⟩
theorem rkset (a : BitVec 6) (b : BitVec 6) : Statement (.rkset a b) := fun _ _ h =>
  ⟨_, rfl, by simp, decode_of_row rfl (by rw [opOf_mkWord]; rfl) (by rw [subOf_mkWord]; exact congrArg some (by simp))
    (by rw [stampOf_mkWord]; rfl) (by rw [foldOf_mkWord]; rfl) (by simp) (by simp) (by simp) (by simp) (by simp) h⟩
theorem rkget (d : BitVec 6) (a : BitVec 6) : Statement (.rkget d a) := fun _ _ h =>
  ⟨_, rfl, by simp, decode_of_row rfl (by rw [opOf_mkWord]; rfl) (by rw [subOf_mkWord]; exact congrArg some (by simp))
    (by rw [stampOf_mkWord]; rfl) (by rw [foldOf_mkWord]; rfl) (by simp) (by simp) (by simp) (by simp) (by simp) h⟩

end Laws.Codec

end Sys2Proof
end

