-- ==== Sys2Proof/Tests/Slice0.lean ====
section
/-! SUPPORT. The author's own tests: words written out from the encoding tables of the spec, ill-formed terms that are refused, one
step of an instruction on a small state, and for each statement of Certificates/Slice0/Obligations.lean states and operands that
meet its hypotheses. -/

namespace Sys2Proof.Tests

set_option Elab.async false

open Sys2Proof.Machine Sys2Proof.Claims

/-! ## Small states -/

/-- Nothing but the control unit `n`, which is at its turn. -/
def onUnit (n : Nat) (q : Seq) : State := { State.reset with todo := [], cur := { unit := .seq n }, seqs := [(n, q)], up := true }

/-- Nothing but the compute tile `t`, which executes beat `b` of entry 3 of actor 0 of graph 0 in context 0. -/
def onTileAt (t b : Nat) (x : Tile) : State :=
  { State.reset with todo := [], cur := { unit := .tile t, entry := 3, stamp := 7, beat := b }, tiles := [(t, x)], up := true }

/-- The scalar registers 1, 2 and 3. -/
def threeRegs (a b c : Nat) : Map Word := [(1, BitVec.ofNat 64 a), (2, BitVec.ofNat 64 b), (3, BitVec.ofNat 64 c)]

/-- The registers of control unit `n` after a step; none where the step stops. -/
def unitAfter (r : StepResult) (n : Nat) : Option Seq := match r with
  | .next s => some (s.seq n)
  | .fault _ => none
  | .refused _ => none

/-- The results that are on their way in tile `t` after a step. -/
def pendAfter (r : StepResult) (t : Nat) : Option (List (Nat × Result)) := match r with
  | .next s => some ((s.tile t).pend.map fun p => (p.left, p.res))
  | .fault _ => none
  | .refused _ => none

/-- Does a step answer a next state for which `f` holds? -/
def goes (r : StepResult) (f : State → Bool) : Bool := match r with
  | .next s => f s
  | .fault _ => false
  | .refused _ => false

theorem test_decode_control_flow :
  decode .list 0x00D0_0000_0000_0000 = .ok .nop ∧
  decode .seq 0x00D0_1000_03FF_FFFB = .ok (.br 67108859) ∧
  decode .seq 0x00D0_2009_57FF_FFFB = .ok (.beq 9 21 67108859) ∧
  decode .seq 0x00D0_2109_57FF_FFFB = .ok (.bne 9 21 67108859) ∧
  decode .seq 0x00D0_2209_57FF_FFFB = .ok (.blt 9 21 67108859) ∧
  decode .seq 0x00D0_2309_57FF_FFFB = .ok (.bge 9 21 67108859) ∧
  decode .seq 0x00D0_2409_57FF_FFFB = .ok (.bltu 9 21 67108859) ∧
  decode .seq 0x00D0_2509_57FF_FFFB = .ok (.bgeu 9 21 67108859) ∧
  decode .seq 0x00D0_3009_03FF_FFFB = .ok (.call 9 67108859) ∧
  decode .seq 0x00D0_4000_5400_0000 = .ok (.jr 21) ∧
  decode .seq 0x00D0_4109_5400_0000 = .ok (.jalr 9 21) ∧
  decode .seq 0x00D0_5002_1234_0567 = .ok (.loop 2 4660 1383) ∧
  decode .seq 0x00D0_5102_5400_0567 = .ok (.loopr 2 21 1383) ∧
  decode .list 0xABC0_6002_3215_54AB = .ok (.tloop 2 801 341 171) :=
  ⟨rfl, rfl, rfl, rfl, rfl, rfl, rfl, rfl, rfl, rfl, rfl, rfl, rfl, rfl⟩

theorem test_decode_scalar_arithmetic :
  decode .list 0x00D2_0009_54E0_0000 = .ok (.add 9 21 14) ∧
  decode .list 0x00D2_0109_54E0_0000 = .ok (.sub 9 21 14) ∧
  decode .list 0x00D2_0209_54E0_0000 = .ok (.and 9 21 14) ∧
  decode .list 0x00D2_0309_54E0_0000 = .ok (.or 9 21 14) ∧
  decode .list 0x00D2_0409_54E0_0000 = .ok (.xor 9 21 14) ∧
  decode .list 0x00D2_0509_54E0_0000 = .ok (.sll 9 21 14) ∧
  decode .list 0x00D2_0609_54E0_0000 = .ok (.srl 9 21 14) ∧
  decode .list 0x00D2_0709_54E0_0000 = .ok (.sra 9 21 14) ∧
  decode .list 0x00D2_0809_54E0_0000 = .ok (.mul 9 21 14) ∧
  decode .list 0x00D2_0909_54E0_0000 = .ok (.mulh 9 21 14) ∧
  decode .list 0x00D2_0A09_54E0_0000 = .ok (.mulhu 9 21 14) ∧
  decode .list 0x00D2_0B09_54E0_0000 = .ok (.min 9 21 14) ∧
  decode .list 0x00D2_0C09_54E0_0000 = .ok (.max 9 21 14) ∧
  decode .list 0x00D2_0D09_54E0_0000 = .ok (.minu 9 21 14) ∧
  decode .list 0x00D2_0E09_54E0_0000 = .ok (.maxu 9 21 14) :=
  ⟨rfl, rfl, rfl, rfl, rfl, rfl, rfl, rfl, rfl, rfl, rfl, rfl, rfl, rfl, rfl⟩

theorem test_decode_scalar_immediate :
  decode .list 0x00D2_1009_56AB_CDEF = .ok (.addi 9 21 44813807) ∧
  decode .list 0x00D2_1209_56AB_CDEF = .ok (.andi 9 21 44813807) ∧
  decode .list 0x00D2_1309_56AB_CDEF = .ok (.ori 9 21 44813807) ∧
  decode .list 0x00D2_1409_56AB_CDEF = .ok (.xori 9 21 44813807) ∧
  decode .list 0x00D2_1509_5400_002D = .ok (.slli 9 21 45) ∧
  decode .list 0x00D2_1609_5400_002E = .ok (.srli 9 21 46) ∧
  decode .list 0x00D2_1709_5400_002F = .ok (.srai 9 21 47) ∧
  decode .list 0x00D2_1809_56AB_CDEF = .ok (.muli 9 21 44813807) ∧
  decode .list 0x00D2_1B09_56AB_CDEF = .ok (.mini 9 21 44813807) ∧
  decode .list 0x00D2_1C09_56AB_CDEF = .ok (.maxi 9 21 44813807) ∧
  decode .list 0x00D2_2009_54E0_0000 = .ok (.div 9 21 14) ∧
  decode .list 0x00D2_2109_54E0_0000 = .ok (.divu 9 21 14) ∧
  decode .list 0x00D2_2209_54E0_0000 = .ok (.rem 9 21 14) ∧
  decode .list 0x00D2_2309_54E0_0000 = .ok (.remu 9 21 14) :=
  ⟨rfl, rfl, rfl, rfl, rfl, rfl, rfl, rfl, rfl, rfl, rfl, rfl, rfl, rfl⟩

theorem test_decode_scalar_compare_and_bits :
  decode .list 0x00D2_3009_54E0_0000 = .ok (.seq 9 21 14) ∧
  decode .list 0x00D2_3109_54E0_0000 = .ok (.sne 9 21 14) ∧
  decode .list 0x00D2_3209_54E0_0000 = .ok (.slt 9 21 14) ∧
  decode .list 0x00D2_3309_54E0_0000 = .ok (.sge 9 21 14) ∧
  decode .list 0x00D2_3409_54E0_0000 = .ok (.sltu 9 21 14) ∧
  decode .list 0x00D2_3509_54E0_0000 = .ok (.sgeu 9 21 14) ∧
  decode .list 0x00D2_4009_56AB_CDEF = .ok (.seqi 9 21 44813807) ∧
  decode .list 0x00D2_4109_56AB_CDEF = .ok (.snei 9 21 44813807) ∧
  decode .list 0x00D2_4209_56AB_CDEF = .ok (.slti 9 21 44813807) ∧
  decode .list 0x00D2_4309_56AB_CDEF = .ok (.sgei 9 21 44813807) ∧
  decode .list 0x00D2_4409_56AB_CDEF = .ok (.sltui 9 21 44813807) ∧
  decode .list 0x00D2_4509_56AB_CDEF = .ok (.sgeui 9 21 44813807) ∧
  decode .list 0x00D2_5009_5400_0521 = .ok (.bfx 9 21 20 33) ∧
  decode .list 0x00D2_5109_5400_0521 = .ok (.bfxu 9 21 20 33) ∧
  decode .list 0x00D2_5209_5400_0521 = .ok (.bfi 9 21 20 33) ∧
  decode .list 0x00D2_6009_5400_0000 = .ok (.clz 9 21) ∧
  decode .list 0x00D2_6109_5400_0000 = .ok (.ctz 9 21) ∧
  decode .list 0x00D2_6209_5400_0000 = .ok (.popc 9 21) ∧
  decode .list 0x00D2_6309_5400_0000 = .ok (.brev 9 21) ∧
  decode .list 0x00D2_6409_5400_0000 = .ok (.bswap 9 21) :=
  ⟨rfl, rfl, rfl, rfl, rfl, rfl, rfl, rfl, rfl, rfl, rfl, rfl, rfl, rfl, rfl, rfl, rfl, rfl, rfl, rfl⟩

theorem test_decode_scalar_constants_and_memory :
  decode .list 0x00D2_7009_89AB_CDEF = .ok (.li 9 2309737967) ∧
  decode .list 0x00D2_7109_89AB_CDEF = .ok (.lih 9 2309737967) ∧
  decode .list 0x00D2_8009_5400_0000 = .ok (.mov 9 21) ∧
  decode .list 0x00D2_9009_54E0_0003 = .ok (.lea 9 21 14 3) ∧
  decode .seq 0x00D2_A009_56AB_CDEF = .ok (.ld 9 21 44813807) ∧
  decode .seq 0x00D2_A109_56AB_CDEF = .ok (.ldI8 9 21 44813807) ∧
  decode .seq 0x00D2_A209_56AB_CDEF = .ok (.ldUi8 9 21 44813807) ∧
  decode .seq 0x00D2_A309_56AB_CDEF = .ok (.ldI16 9 21 44813807) ∧
  decode .seq 0x00D2_A409_56AB_CDEF = .ok (.ldUi16 9 21 44813807) ∧
  decode .seq 0x00D2_A509_56AB_CDEF = .ok (.ldI32 9 21 44813807) ∧
  decode .seq 0x00D2_A609_56AB_CDEF = .ok (.ldUi32 9 21 44813807) ∧
  decode .seq 0x00D2_B009_56AB_CDEF = .ok (.st 9 21 44813807) ∧
  decode .seq 0x00D2_B109_56AB_CDEF = .ok (.stI8 9 21 44813807) ∧
  decode .seq 0x00D2_B209_56AB_CDEF = .ok (.stI16 9 21 44813807) ∧
  decode .seq 0x00D2_B309_56AB_CDEF = .ok (.stI32 9 21 44813807) ∧
  decode .list 0x00D2_C009_0000_1300 = .ok (.mfsr 9 19) :=
  ⟨rfl, rfl, rfl, rfl, rfl, rfl, rfl, rfl, rfl, rfl, rfl, rfl, rfl, rfl, rfl, rfl⟩

theorem test_decode_vector_integer :
  decode .list 0xABC4_008B_5850_2B00 = .ok (.vaddInt 2 11 22 5 5 3) ∧
  decode .list 0xABC4_018B_5850_2B00 = .ok (.vsubInt 2 11 22 5 5 3) ∧
  decode .list 0xABC4_028B_5850_2B00 = .ok (.vmulInt 2 11 22 5 5 3) ∧
  decode .list 0xABC4_038B_5850_2B00 = .ok (.vmulh 2 11 22 5 5 3) ∧
  decode .list 0xABC4_048B_5850_2B00 = .ok (.vminInt 2 11 22 5 5 3) ∧
  decode .list 0xABC4_058B_5850_2B00 = .ok (.vmaxInt 2 11 22 5 5 3) ∧
  decode .list 0xABC4_068B_5800_2B00 = .ok (.vabsInt 2 11 22 5 3) ∧
  decode .list 0xABC4_078B_5800_2B00 = .ok (.vnegInt 2 11 22 5 3) ∧
  decode .list 0xABC4_088B_5850_2B00 = .ok (.vadds 2 11 22 5 5 3) ∧
  decode .list 0xABC4_098B_5850_2B00 = .ok (.vsubs 2 11 22 5 5 3) ∧
  decode .list 0xABC4_0A8B_5850_2B00 = .ok (.vavg 2 11 22 5 5 3) ∧
  decode .list 0xABC4_0B8B_5854_6B00 = .ok (.vmad 2 11 22 5 17 5 3) ∧
  decode .list 0xABC4_208B_5850_2800 = .ok (.vand 2 11 22 5 5) ∧
  decode .list 0xABC4_218B_5850_2800 = .ok (.vor 2 11 22 5 5) ∧
  decode .list 0xABC4_228B_5850_2800 = .ok (.vxor 2 11 22 5 5) ∧
  decode .list 0xABC4_238B_5850_2800 = .ok (.vandn 2 11 22 5 5) ∧
  decode .list 0xABC4_248B_5800_2800 = .ok (.vnot 2 11 22 5) ∧
  decode .list 0xABC4_258B_5800_2800 = .ok (.vmov 2 11 22 5) :=
  ⟨rfl, rfl, rfl, rfl, rfl, rfl, rfl, rfl, rfl, rfl, rfl, rfl, rfl, rfl, rfl, rfl, rfl, rfl⟩

theorem test_decode_vector_shift_and_compare :
  decode .list 0xABC4_308B_5850_2B00 = .ok (.vsll 2 11 22 5 5 3) ∧
  decode .list 0xABC4_318B_5850_2B00 = .ok (.vsrl 2 11 22 5 5 3) ∧
  decode .list 0xABC4_328B_5850_2B00 = .ok (.vsra 2 11 22 5 5 3) ∧
  decode .list 0xABC4_338B_5850_2B00 = .ok (.vrol 2 11 22 5 5 3) ∧
  decode .list 0xABC4_348B_58E0_2B00 = .ok (.vslls 2 11 22 14 5 3) ∧
  decode .list 0xABC4_358B_58E0_2B00 = .ok (.vsrls 2 11 22 14 5 3) ∧
  decode .list 0xABC4_368B_58E0_2B00 = .ok (.vsras 2 11 22 14 5 3) ∧
  decode .list 0xABC4_5083_5850_2B00 = .ok (.vcmpeqInt 2 3 22 5 5 3) ∧
  decode .list 0xABC4_5183_5850_2B00 = .ok (.vcmpneInt 2 3 22 5 5 3) ∧
  decode .list 0xABC4_5283_5850_2B00 = .ok (.vcmpltInt 2 3 22 5 5 3) ∧
  decode .list 0xABC4_5383_5850_2B00 = .ok (.vcmpleInt 2 3 22 5 5 3) ∧
  decode .list 0xABC4_5483_5850_2B00 = .ok (.vcmpgtInt 2 3 22 5 5 3) ∧
  decode .list 0xABC4_5583_5850_2B00 = .ok (.vcmpgeInt 2 3 22 5 5 3) :=
  ⟨rfl, rfl, rfl, rfl, rfl, rfl, rfl, rfl, rfl, rfl, rfl, rfl, rfl⟩

theorem test_decode_vector_placing :
  decode .list 0xABC4_608B_5850_2E00 = .ok (.vsel 2 11 22 5 5 6) ∧
  decode .list 0xABC4_708B_5400_0600 = .ok (.vsplat 2 11 21 6) ∧
  decode .list 0xABC4_7189_58E0_0600 = .ok (.vext 2 9 22 14 6) ∧
  decode .list 0xABC4_728B_54E0_0600 = .ok (.vins 2 11 21 14 6) ∧
  decode .list 0xABC4_738B_0000_0600 = .ok (.viota 2 11 6) :=
  ⟨rfl, rfl, rfl, rfl, rfl⟩

theorem test_decode_vector_float :
  decode .list 0xABC4_808B_5850_2AD0 = .ok (.vaddFp 2 11 22 5 5 2 13) ∧
  decode .list 0xABC4_818B_5850_2AD0 = .ok (.vsubFp 2 11 22 5 5 2 13) ∧
  decode .list 0xABC4_828B_5850_2AD0 = .ok (.vmulFp 2 11 22 5 5 2 13) ∧
  decode .list 0xABC4_838B_5854_6AD0 = .ok (.vfma 2 11 22 5 17 5 2 13) ∧
  decode .list 0xABC4_848B_5854_6AD0 = .ok (.vfms 2 11 22 5 17 5 2 13) ∧
  decode .list 0xABC4_858B_5854_6AD0 = .ok (.vfnma 2 11 22 5 17 5 2 13) ∧
  decode .list 0xABC4_868B_5850_2A00 = .ok (.vminFp 2 11 22 5 5 2) ∧
  decode .list 0xABC4_878B_5850_2A00 = .ok (.vmaxFp 2 11 22 5 5 2) ∧
  decode .list 0xABC4_888B_5800_2A00 = .ok (.vabsFp 2 11 22 5 2) ∧
  decode .list 0xABC4_898B_5800_2A00 = .ok (.vnegFp 2 11 22 5 2) ∧
  decode .list 0xABC4_8A8B_5850_2AD0 = .ok (.vdiv 2 11 22 5 5 2 13) ∧
  decode .list 0xABC4_8B8B_5800_2AD0 = .ok (.vsqrt 2 11 22 5 2 13) :=
  ⟨rfl, rfl, rfl, rfl, rfl, rfl, rfl, rfl, rfl, rfl, rfl, rfl⟩

theorem test_decode_vector_float_compare :
  decode .list 0xABC4_9083_5850_2A00 = .ok (.vcmpeqFp 2 3 22 5 5 2) ∧
  decode .list 0xABC4_9183_5850_2A00 = .ok (.vcmpneFp 2 3 22 5 5 2) ∧
  decode .list 0xABC4_9283_5850_2A00 = .ok (.vcmpltFp 2 3 22 5 5 2) ∧
  decode .list 0xABC4_9383_5850_2A00 = .ok (.vcmpleFp 2 3 22 5 5 2) ∧
  decode .list 0xABC4_9483_5850_2A00 = .ok (.vcmpgtFp 2 3 22 5 5 2) ∧
  decode .list 0xABC4_9583_5850_2A00 = .ok (.vcmpgeFp 2 3 22 5 5 2) ∧
  decode .list 0xABC4_9683_5850_2A00 = .ok (.vcmpun 2 3 22 5 5 2) ∧
  decode .list 0xABC4_A08B_89AB_CDEF = .ok (.vli 2 11 2309737967) :=
  ⟨rfl, rfl, rfl, rfl, rfl, rfl, rfl, rfl⟩

theorem test_decode_vector_convert :
  decode .list 0xABC8_008B_5860_2899 = .ok (.vcvt 2 11 22 6 5 9 9) ∧
  decode .list 0xABC8_018B_5874_68DA = .ok (.vquant 2 11 22 7 17 5 13 10) ∧
  decode .list 0xABC8_028B_5894_68D8 = .ok (.vdequant 2 11 22 9 17 5 13 8) ∧
  decode .list 0xABC8_038B_58D4_68D7 = .ok (.vlq2 2 11 22 13 17 5 13 7) ∧
  decode .list 0xABC8_048B_5864_68D8 = .ok (.vscale 2 11 22 6 17 5 13 8) ∧
  decode .list 0xABC8_108B_5800_2AC0 = .ok (.vexp2 2 11 22 5 2 12) ∧
  decode .list 0xABC8_118B_5800_2AC0 = .ok (.vlog2 2 11 22 5 2 12) ∧
  decode .list 0xABC8_128B_5800_2AC0 = .ok (.vrcp 2 11 22 5 2 12) ∧
  decode .list 0xABC8_138B_5800_2AC0 = .ok (.vrsqrt 2 11 22 5 2 12) ∧
  decode .list 0xABC8_148B_5800_2AC0 = .ok (.vtanh 2 11 22 5 2 12) ∧
  decode .list 0xABC8_158B_5800_2AC0 = .ok (.vsigm 2 11 22 5 2 12) :=
  ⟨rfl, rfl, rfl, rfl, rfl, rfl, rfl, rfl, rfl, rfl, rfl⟩

theorem test_decode_vector_reduce :
  decode .list 0xABC8_2089_5800_2BB0 = .ok (.vredsum 2 9 22 5 3 11) ∧
  decode .list 0xABC8_2189_5800_2B00 = .ok (.vredmin 2 9 22 5 3) ∧
  decode .list 0xABC8_2289_5800_2B00 = .ok (.vredmax 2 9 22 5 3) ∧
  decode .list 0xABC8_2389_5800_2800 = .ok (.vredminu 2 9 22 5) ∧
  decode .list 0xABC8_2489_5800_2800 = .ok (.vredmaxu 2 9 22 5) ∧
  decode .list 0xABC8_2589_5800_2800 = .ok (.vredand 2 9 22 5) ∧
  decode .list 0xABC8_2689_5800_2800 = .ok (.vredor 2 9 22 5) ∧
  decode .list 0xABC8_308B_5800_2BB0 = .ok (.vscan 2 11 22 5 3 11) ∧
  decode .list 0xABC8_318B_5800_2BB0 = .ok (.vscanx 2 11 22 5 3 11) ∧
  decode .list 0xABC8_328B_5800_2B00 = .ok (.vscanmax 2 11 22 5 3) :=
  ⟨rfl, rfl, rfl, rfl, rfl, rfl, rfl, rfl, rfl, rfl⟩

theorem test_decode_vector_permute :
  decode .list 0xABC8_408B_5850_0600 = .ok (.vperm 2 11 22 5 6) ∧
  decode .list 0xABC8_418B_58E0_0600 = .ok (.vrot 2 11 22 14 6) ∧
  decode .list 0xABC8_428B_5800_0600 = .ok (.vrev 2 11 22 6) ∧
  decode .list 0xABC8_438B_5850_0600 = .ok (.vzip 2 11 22 5 6) ∧
  decode .list 0xABC8_448B_5850_0600 = .ok (.vunzip 2 11 22 5 6) ∧
  decode .list 0xABC8_458B_58E0_0600 = .ok (.vbcast 2 11 22 14 6) ∧
  decode .list 0xABC8_508A_5857_8100 = .ok (.vsortn 2 10 22 5 30 1) ∧
  decode .list 0xABC8_608B_58E0_2E00 = .ok (.vcompress 2 11 22 14 5 6) ∧
  decode .list 0xABC8_618B_5800_2E00 = .ok (.vexpand 2 11 22 5 6) ∧
  decode .list 0xABC8_708B_0000_2800 = .ok (.vrng 2 11 5) ∧
  decode .list 0xABC8_718B_0000_2A00 = .ok (.vrngf 2 11 5 2) :=
  ⟨rfl, rfl, rfl, rfl, rfl, rfl, rfl, rfl, rfl, rfl, rfl⟩

theorem test_decode_predicate :
  decode .list 0xABC8_8083_1450_0000 = .ok (.pand 2 3 5 5) ∧
  decode .list 0xABC8_8183_1450_0000 = .ok (.por 2 3 5 5) ∧
  decode .list 0xABC8_8283_1450_0000 = .ok (.pxor 2 3 5 5) ∧
  decode .list 0xABC8_8383_1400_0000 = .ok (.pnot 2 3 5) ∧
  decode .list 0xABC8_8483_1400_0000 = .ok (.pmov 2 3 5) ∧
  decode .list 0xABC8_8583_0000_0000 = .ok (.pall 2 3) ∧
  decode .list 0xABC8_8683_0000_0000 = .ok (.pnone 2 3) ∧
  decode .list 0xABC8_8789_1400_0000 = .ok (.pcnt 2 9 5) ∧
  decode .list 0xABC8_8889_1400_0000 = .ok (.pfirst 2 9 5) ∧
  decode .list 0xABC8_8983_5400_0000 = .ok (.pwlt 2 3 21) :=
  ⟨rfl, rfl, rfl, rfl, rfl, rfl, rfl, rfl, rfl, rfl⟩

theorem test_decode_modular :
  decode .list 0xABC9_008A_5040_2802 = .ok (.madd 2 10 20 4 5 2) ∧
  decode .list 0xABC9_018A_5040_2802 = .ok (.msub 2 10 20 4 5 2) ∧
  decode .list 0xABC9_028A_5000_2802 = .ok (.mneg 2 10 20 5 2) ∧
  decode .list 0xABC9_038A_5040_2802 = .ok (.mmulq 2 10 20 4 5 2) ∧
  decode .list 0xABC9_048A_5044_A802 = .ok (.mmac 2 10 20 4 18 5 2) ∧
  decode .list 0xABC9_058A_5000_2802 = .ok (.mtomont 2 10 20 5 2) ∧
  decode .list 0xABC9_068A_5000_2802 = .ok (.mfrmont 2 10 20 5 2) ∧
  decode .list 0xABC9_078A_5000_2802 = .ok (.mred 2 10 20 5 2) ∧
  decode .list 0xABC9_088A_5040_2802 = .ok (.mmul 2 10 20 4 5 2) :=
  ⟨rfl, rfl, rfl, rfl, rfl, rfl, rfl, rfl, rfl⟩

theorem test_decode_butterfly :
  decode .list 0xABC9_108A_5040_0502 = .ok (.bflyct 2 10 20 4 5 2) ∧
  decode .list 0xABC9_118A_5040_0502 = .ok (.bflygs 2 10 20 4 5 2) ∧
  decode .list 0xABC9_208A_5000_0000 = .ok (.bfpermRev 2 10 20) ∧
  decode .list 0xABC9_218A_5000_0000 = .ok (.bfpermShuf 2 10 20) ∧
  decode .list 0xABC9_228A_5001_4000 = .ok (.bfpermStrd 2 10 20 5) ∧
  decode .list 0xABC9_308A_50E0_0002 = .ok (.mauto 2 10 20 14 2) ∧
  decode .list 0xABC9_4082_5000_0000 = .ok (.mqset 2 2 20) ∧
  decode .list 0xABC9_418A_0C00_0000 = .ok (.mqget 2 10 3) :=
  ⟨rfl, rfl, rfl, rfl, rfl, rfl, rfl, rfl⟩

theorem test_decode_tensor :
  decode .list 0xABCA_0000_2400_0234 = .ok (.tcfg 603980340) ∧
  decode .list 0xABCA_1006_54E1_400B = .ok (.tdef 6 21 14 5 11) ∧
  decode .list 0xABCA_2006_0000_0000 = .ok (.tarm 6) ∧
  decode .list 0xABCA_3006_0000_0000 = .ok (.tdisarm 6) ∧
  decode .list 0xABCA_4000_5400_0000 = .ok (.ttagEmpty 21) ∧
  decode .list 0xABCA_4100_5400_0000 = .ok (.ttagFull 21) ∧
  decode .list 0xABCA_5000_5400_0000 = .ok (.twload 21) ∧
  decode .list 0xABCA_600B_14E0_0000 = .ok (.tread 11 5 14) ∧
  decode .list 0xABCA_7000_5450_04A0 = .ok (.tstore 21 5 4 10) ∧
  decode .list 0xABCA_8005_0000_0000 = .ok (.taccz 5) ∧
  decode .seq 0x00DA_9000_0000_0001 = .ok (.tsysto 1) ∧
  decode .list 0xABCA_A009_1800_0000 = .ok (.tstatSlot 9 6) ∧
  decode .list 0xABCA_A109_1400_0000 = .ok (.tstatAcc 9 5) :=
  ⟨rfl, rfl, rfl, rfl, rfl, rfl, rfl, rfl, rfl, rfl, rfl, rfl, rfl⟩

theorem test_decode_arc_and_near :
  decode .list 0xABCB_008B_3400_0000 = .ok (.pop 2 11 13) ∧
  decode .list 0xABCB_0180_3400_0000 = .ok (.popd 2 13) ∧
  decode .list 0xABCB_108D_5800_0400 = .ok (.push 2 13 22 4) ∧
  decode .list 0xABCB_208B_3400_0000 = .ok (.peek 2 11 13) ∧
  decode .list 0xABCB_300B_56AB_CDEF = .ok (.nld 11 21 44813807) ∧
  decode .list 0x00DB_3109_56AB_CDEF = .ok (.nlds 9 21 44813807) ∧
  decode .list 0xABCB_400B_54E0_000A = .ok (.nst 11 21 14 10) ∧
  decode .list 0x00DB_4109_54E0_000A = .ok (.nsts 9 21 14 10) :=
  ⟨rfl, rfl, rfl, rfl, rfl, rfl, rfl, rfl⟩

theorem test_decode_presence_and_generator :
  decode .list 0x00DB_5009_54E0_0000 = .ok (.pld 9 21 14) ∧
  decode .list 0xABCB_510B_54E0_0000 = .ok (.pldv 11 21 14) ∧
  decode .list 0x00DB_5209_54E0_000A = .ok (.pst 9 21 14 10) ∧
  decode .list 0xABCB_530B_54E0_000A = .ok (.pstv 11 21 14 10) ∧
  decode .list 0x00DB_5400_54E0_0000 = .ok (.pclr 21 14) ∧
  decode .list 0xABCB_600B_5400_0000 = .ok (.agset 11 21) ∧
  decode .list 0xABCB_610B_2C00_0000 = .ok (.agld 11 11) ∧
  decode .list 0xABCB_620B_5800_0000 = .ok (.agst 11 22) :=
  ⟨rfl, rfl, rfl, rfl, rfl, rfl, rfl, rfl⟩

theorem test_decode_atomic :
  decode .list 0x00DC_0009_54E0_3004 = .ok (.amoAdd 9 21 14 6 4) ∧
  decode .list 0x00DC_0109_54E0_3004 = .ok (.amoMin 9 21 14 6 4) ∧
  decode .list 0x00DC_0209_54E0_3004 = .ok (.amoMax 9 21 14 6 4) ∧
  decode .list 0x00DC_0309_54E0_3004 = .ok (.amoAnd 9 21 14 6 4) ∧
  decode .list 0x00DC_0409_54E0_3004 = .ok (.amoOr 9 21 14 6 4) ∧
  decode .list 0x00DC_0509_54E0_3004 = .ok (.amoXor 9 21 14 6 4) ∧
  decode .list 0x00DC_0609_54E0_3004 = .ok (.amoSwap 9 21 14 6 4) ∧
  decode .list 0x00DC_0709_54E7_B004 = .ok (.amoCas 9 21 14 30 6 4) ∧
  decode .list 0x00DC_0809_54E0_3104 = .ok (.amoFadd 9 21 14 6 4) ∧
  decode .list 0x00DC_0909_54E0_3004 = .ok (.amoMinu 9 21 14 6 4) ∧
  decode .list 0x00DC_0A09_54E0_3004 = .ok (.amoMaxu 9 21 14 6 4) :=
  ⟨rfl, rfl, rfl, rfl, rfl, rfl, rfl, rfl, rfl, rfl, rfl⟩

theorem test_decode_reduction :
  decode .list 0x00DC_1000_54E0_3004 = .ok (.redAdd 21 14 6 4) ∧
  decode .list 0x00DC_1100_54E0_3004 = .ok (.redMin 21 14 6 4) ∧
  decode .list 0x00DC_1200_54E0_3004 = .ok (.redMax 21 14 6 4) ∧
  decode .list 0x00DC_1300_54E0_3004 = .ok (.redAnd 21 14 6 4) ∧
  decode .list 0x00DC_1400_54E0_3004 = .ok (.redOr 21 14 6 4) ∧
  decode .list 0x00DC_1500_54E0_3004 = .ok (.redXor 21 14 6 4) ∧
  decode .list 0x00DC_1800_54E0_3104 = .ok (.redFadd 21 14 6 4) ∧
  decode .list 0x00DC_1900_54E0_3004 = .ok (.redMinu 21 14 6 4) ∧
  decode .list 0x00DC_1A00_54E0_3004 = .ok (.redMaxu 21 14 6 4) :=
  ⟨rfl, rfl, rfl, rfl, rfl, rfl, rfl, rfl, rfl⟩

theorem test_decode_control_arc :
  decode .list 0x00DC_2005_0000_0000 = .ok (.csig 5) ∧
  decode .seq 0x00DC_2100_1400_0000 = .ok (.cwait 5) ∧
  decode .seq 0x00DC_2209_1400_0000 = .ok (.ctest 9 5) ∧
  decode .list 0xABCC_300D_0000_0000 = .ok (.punct 13) ∧
  decode .list 0xABCC_3100_0000_0000 = .ok .punctall ∧
  decode .list 0x00DC_4005_0800_0000 = .ok (.ordj 5 2) ∧
  decode .seq 0x00DC_5000_0000_0004 = .ok (.fence 4) :=
  ⟨rfl, rfl, rfl, rfl, rfl, rfl, rfl⟩

theorem test_decode_remote_atomic :
  decode .list 0x00DC_6009_54E0_3005 = .ok (.ramoAdd 9 21 14 6) ∧
  decode .list 0x00DC_6109_54E0_3005 = .ok (.ramoMin 9 21 14 6) ∧
  decode .list 0x00DC_6209_54E0_3005 = .ok (.ramoMax 9 21 14 6) ∧
  decode .list 0x00DC_6309_54E0_3005 = .ok (.ramoAnd 9 21 14 6) ∧
  decode .list 0x00DC_6409_54E0_3005 = .ok (.ramoOr 9 21 14 6) ∧
  decode .list 0x00DC_6509_54E0_3005 = .ok (.ramoXor 9 21 14 6) ∧
  decode .list 0x00DC_6609_54E0_3005 = .ok (.ramoSwap 9 21 14 6) ∧
  decode .list 0x00DC_6709_54E7_B005 = .ok (.ramoCas 9 21 14 30 6) ∧
  decode .list 0x00DC_6809_54E0_3105 = .ok (.ramoFadd 9 21 14 6) ∧
  decode .list 0x00DC_6909_54E0_3005 = .ok (.ramoMinu 9 21 14 6) ∧
  decode .list 0x00DC_6A09_54E0_3005 = .ok (.ramoMaxu 9 21 14 6) :=
  ⟨rfl, rfl, rfl, rfl, rfl, rfl, rfl, rfl, rfl, rfl, rfl⟩

theorem test_decode_graph :
  decode .seq 0x00DD_0000_5400_0005 = .ok (.setmode 21 5) ∧
  decode .list 0x00DD_1009_4E97_0000 = .ok (.spawn 9 19 2652) ∧
  decode .list 0xABCD_200D_0000_0000 = .ok (.cret 13) ∧
  decode .list 0x00DD_3000_5697_0000 = .ok (.ckick 21 2652) ∧
  decode .seq 0x00DD_4000_5697_0000 = .ok (.carm 21 2652) ∧
  decode .seq 0x00DD_5009_54E0_0000 = .ok (.gld 9 21 14) ∧
  decode .seq 0x00DD_5100_5400_0000 = .ok (.gact 21) ∧
  decode .seq 0x00DD_5200_5400_0000 = .ok (.gdrain 21) ∧
  decode .seq 0x00DD_5300_5400_0000 = .ok (.gunld 21) ∧
  decode .seq 0x00DD_6009_5400_0000 = .ok (.gstat 9 21) ∧
  decode .seq 0x00DD_6109_5400_0000 = .ok (.mstat 9 21) ∧
  decode .seq 0x00DD_7009_5697_0000 = .ok (.gpatch 9 21 2652) :=
  ⟨rfl, rfl, rfl, rfl, rfl, rfl, rfl, rfl, rfl, rfl, rfl, rfl⟩

theorem test_decode_system :
  decode .seq 0x00DE_0000_00BE_E500 = .ok (.trap 48869) ∧
  decode .seq 0x00DE_1000_0000_0000 = .ok .tret ∧
  decode .seq 0x00DE_2000_5400_0C00 = .ok (.mtsr 21 12) ∧
  decode .seq 0x00DE_3000_0000_0000 = .ok .idle ∧
  decode .seq 0x00DE_4000_5400_0000 = .ok (.csave 21) ∧
  decode .seq 0x00DE_4100_5400_0000 = .ok (.cload 21) ∧
  decode .seq 0x00DE_5000_54E0_0004 = .ok (.pginv 21 14 4) ∧
  decode .seq 0x00DE_6000_0000_0004 = .ok (.pgfence 4) ∧
  decode .seq 0x00DE_7009_5400_0000 = .ok (.pgstat 9 21) :=
  ⟨rfl, rfl, rfl, rfl, rfl, rfl, rfl, rfl, rfl⟩

theorem test_decode_snapshot_and_rank :
  decode .seq 0x00DE_8000_00BE_E505 = .ok (.snap 48869 5) ∧
  decode .seq 0x00DE_9009_5400_0000 = .ok (.snapq 9 21) ∧
  decode .seq 0x00DE_A000_5400_0000 = .ok (.snapw 21) ∧
  decode .seq 0x00DE_B000_5400_0000 = .ok (.rollb 21) ∧
  decode .seq 0x00DE_C000_54E0_0000 = .ok (.rkset 21 14) ∧
  decode .seq 0x00DE_C109_5400_0000 = .ok (.rkget 9 21) :=
  ⟨rfl, rfl, rfl, rfl, rfl, rfl⟩

/-- The worked encodings of R171. -/
theorem test_worked_encodings_of_R171 :
    decode .list 0x014B_0046_0C00_0000 = .ok (.pop 1 6 3) ∧ decode .list 0x015B_0100_0800_0000 = .ok (.popd 0 2) ∧
    decode .list 0x01EB_1081_1C00_0400 = .ok (.push 2 1 7 4) ∧ decode .list 0x028B_2002_1400_0000 = .ok (.peek 0 2 5) ∧
    decode .list 0x032B_3008_1000_0100 = .ok (.nld 8 4 256) ∧ decode .seq 0x000B_3109_17FF_FFF8 = .ok (.nlds 9 5 (-8)) ∧
    decode .list 0x03CB_4008_1050_000A = .ok (.nst 8 4 5 10) ∧ decode .seq 0x000B_5203_28B0_0009 = .ok (.pst 3 10 11 9) ∧
    decode .seq 0x000B_5400_28C0_0000 = .ok (.pclr 10 12) ∧ decode .list 0x005B_6006_0800_0000 = .ok (.agset 6 2) ∧
    decode .list 0x014B_6104_1800_0000 = .ok (.agld 4 6) :=
  ⟨rfl, rfl, rfl, rfl, rfl, rfl, rfl, rfl, rfl, rfl, rfl⟩

/-! ## Ill-formed terms and words that each check of R83 refuses -/

theorem test_smoke_place_refused : Instr.WellFormed .list (.br 5) = false ∧ Instr.WellFormed .seq (.vand 0 5 1 2 3) = false ∧
    Instr.WellFormed .seq (.br 5) = true ∧ Instr.WellFormed .list (.vand 0 5 1 2 3) = true := by decide

theorem test_smoke_fold_refused : Instr.WellFormed .list (.vand 3 5 1 2 3) = false ∧ Instr.WellFormed .list (.vand 2 5 1 2 3) = true := by decide

theorem test_smoke_name_refused : Instr.WellFormed .list (.madd 0 3 2 4 0 0) = false ∧ Instr.WellFormed .list (.vcmpeqInt 0 0 1 2 0 0) = false ∧
    Instr.WellFormed .list (.add 32 1 2) = false ∧ Instr.WellFormed .list (.add 31 1 2) = true := by decide

theorem test_smoke_range_refused : Instr.WellFormed .seq (.slli 3 1 64) = false ∧ Instr.WellFormed .seq (.slli 3 1 63) = true ∧
    Instr.WellFormed .seq (.fence 0) = false ∧ Instr.WellFormed .seq (.fence 6) = false ∧ Instr.WellFormed .seq (.bfx 3 1 63 1) = false := by decide

theorem test_smoke_mode_refused : Instr.WellFormed .list (.vfma 1 5 1 2 5 3 2 6) = false ∧ Instr.WellFormed .list (.vfma 1 5 1 2 5 3 2 13) = true ∧
    Instr.WellFormed .seq (.ramoAdd 3 1 2 1) = false := by decide

theorem test_smoke_event_refused : Instr.WellFormed .seq (.bar2Read 0 0) = false := by decide

theorem test_smoke_words_refused :
    decode .list 0x000F_0000_0000_0000 = .error .opUnassigned ∧ decode .list 0x0002_0F00_0000_0000 = .error .subUnassigned ∧
    decode .list 0x0000_1000_0000_0000 = .error .placeRefused ∧ decode .list 0x0002_0040_0000_0000 = .error .foldRefused ∧
    decode .list 0x0002_0020_0000_0000 = .error .nameRange ∧ decode .list 0x0002_1500_0000_0040 = .error .numberRange ∧
    decode .list 0x0002_0000_0000_0800 = .error .roundingOrPredicate ∧ decode .list 0x0002_0000_0000_0001 = .error .reservedField :=
  ⟨rfl, rfl, rfl, rfl, rfl, rfl, rfl, rfl⟩

/-! ## Witnesses: decoding and the step -/

theorem witness_DecodeOfEncode : Instr.WellFormed .list (.vfma 1 5 1 2 5 3 2 0) = true ∧ Instr.WellFormed .seq (.beq 4 0 (-5)) = true := by
  decide

theorem witness_DecodedIsWellFormed : decode .list 0x0284_8345_0421_5A00 = .ok (.vfma 1 5 1 2 5 3 2 0) := rfl

/-- Unit 40 at its turn, at 0x1000 in a page of context 0, with `word` there. -/
def fetching (word : Nat) (last : Nat) : State :=
  { onUnit 40 { run := .run, pc := 0x1000, last := last, ready := 4 } with
    todo := [.seq 40], pcyc := 5, mem := writeLE [] 0x21000 8 word, graphs := []
    ctxs := [(0, { state := .active })]
    xlats := [(1, { tlb := [{ ctx := 0, va := 0, size := 65536, leaf := 0x1070_0000_0002_0000, leafAt := 0x40 }] })] }

/-- What the statement asks of a state, for unit 40. -/
def fetches (s : State) : Bool :=
  (s.todo == [.seq 40]) && seqWorks s 40 && decide ((s.seq 40).run = .run) && decide ((s.seq 40).ready ≤ s.pcyc) && (s.seq 40).refused.isEmpty &&
    (s.seq 40).queue.isEmpty && (tlbFind s 1 0 0x1000).any (fun x => Need.fetch.allowed x.leaf && Leaf.pa x.leaf == 0x20000 && x.va == 0)

/-- Nothing that a test bank or a walk holds back its fetch. -/
def fetchesAtOnce (s : State) : Bool :=
  fetches s && !streamHeld s (s.seq 40).ctxid (.seq 40) && (walkAhead s 40).isNone && (underTest s 0x21000).isNone

/-- A fetch from a bank under test, and one behind an access that such a bank holds. -/
def testedFetch : State := { fetching 0 0 with dies := [(0, { testing := [0] })] }
def heldFetch : State := { fetching 0 0 with dies := [(0, { held := [.seq 40] })] }

/-- A `nop`, which issues; one with a delay of 13 cycles, which waits; and a word that is no instruction. -/
theorem witness_StepRunsSequencerWord :
    fetchesAtOnce (fetching 0 0) = true ∧ readLE (fetching 0 0).mem 0x21000 8 = 0 ∧ decode .seq 0 = .ok .nop ∧
      canIssue (fetching 0 0) ((fetching 0 0).seq 40) 0 .nop = true ∧
    fetchesAtOnce (fetching 0x00D0_0000_0000_0000 0) = true ∧ readLE (fetching 0x00D0_0000_0000_0000 0).mem 0x21000 8 = 0x00D0_0000_0000_0000 ∧
      decode .seq 0x00D0_0000_0000_0000 = .ok .nop ∧
      canIssue (fetching 0x00D0_0000_0000_0000 0) ((fetching 0 0).seq 40) 0x00D0_0000_0000_0000 .nop = false ∧
    fetchesAtOnce (fetching 0x000F_3000_0000_0000 0) = true ∧ decode .seq 0x000F_3000_0000_0000 = .error .opUnassigned ∧
    fetches testedFetch = true ∧ streamHeld testedFetch (testedFetch.seq 40).ctxid (.seq 40) = false ∧ walkAhead testedFetch 40 = none ∧
      underTest testedFetch 0x21000 = some 0 ∧ fetches heldFetch = true ∧ streamHeld heldFetch (heldFetch.seq 40).ctxid (.seq 40) = true := by
  decide

/-- Tile 0 with one entry, `addi s1, s0, 5` at stamp 7, in the region of key 0 at `CYC` 7. -/
def atEntry : State :=
  { onTileAt 0 0 { active := some { ctx := 0, slot := 0, mode := 0, list := 0, entries := [{ word := 0x0072_1001_0000_0005, owner := 0 }], table := [(0, 1)] }
                   region := some 0 } with
    todo := [.entry 0], regions := [(0, { cyc := 7, rstate := 0, tiles := [0], phases := [100], inPhase := true })]
    graphs := [(0, { state := .running, lists := [(0, .active)] })] }

theorem witness_StepRunsEntry :
    (entryNow { atEntry with todo := [] } 0).any (fun e => e.2.2.word == 0x0072_1001_0000_0005 &&
      entryIssues (setLoops 0 e.2.1.before { atEntry with todo := [] }) 0 e.1 e.2.1 e.2.2) = true ∧
      decode .list 0x0072_1001_0000_0005 = .ok (.addi 1 0 5) := by
  decide

/-- Tile 0 with an entry between its beats. -/
def atBeat : State := { onTileAt 0 1 { between := [{ instr := .vmov 1 3 4 0, cur := { unit := .tile 0, entry := 3, beat := 1 } }] } with
  todo := [.beat 0 3] }

theorem witness_StepRunsTask :
    { State.reset with todo := [.event .powerGood] }.todo = [Task.event .powerGood] ∧
    ((atBeat.tile 0).between.find? fun b => b.cur.entry = 3).isSome = true ∧ (onUnit 0 {}).todo = [] := by
  decide

/-! ## Witnesses: scalar instructions and loops -/

theorem witness_SystemRegisterReads :
    (onTileAt 0 0 {}).cur.unit = .tile 0 ∧ ({ onTileAt 0 0 {} with graphs := [(0, {})] }.graph? 0 0).isSome = true ∧ (onUnit 396 {}).cur.unit = .seq 396 := by
  decide

theorem witness_ScalarResultIsRead : (onUnit 383 {}).cur.unit = .seq 383 ∧ (31 : BitVec 6).toNat ≠ 0 := by decide

/-- An address that is a multiple of 8 and one that is not, in a quad and in a die controller. -/
theorem witness_ControlTransfers :
    let s := onUnit 0 { s := threeRegs 8 12 0 }
    let d := onUnit 384 { s := threeRegs 0xFFFFFFFFFFFFFFF0 0xFFFFFFFFFFFFFFF8 0 }
    (readS s 1).toNat % 8 = 0 ∧ (readS s 2).toNat % 8 ≠ 0 ∧ (readS d 1).toNat % 8 = 0 ∧ readS d 1 ≠ 0xFFFFFFFFFFFFFFF8 ∧
      (d.die 0).inCall = false := by
  decide

/-- Loops 1 and 3 end at the pc: 3 has one round left and ends, 1 goes back; without loop 1, the pc goes on. -/
def atLoopEnd (count : Nat) : State :=
  onUnit 0 { pc := 0x40, loops := [(1, { first := 0x20, final := 0x40, count := count, active := true }), (3, { first := 0x38, final := 0x40, count := 1, active := true })] }

theorem witness_LoopsAtTheirEnd :
    let ends := fun (s : State) (k : Nat) => decide (k < 4) && (mget {} (s.seq 0).loops k).active && (mget {} (s.seq 0).loops k).final == (s.seq 0).pc
    let count := fun (s : State) (k : Nat) => (mget {} (s.seq 0).loops k).count
    (ends (atLoopEnd 2) 1 = true ∧ 1 < count (atLoopEnd 2) 1 ∧ ∀ j, j < 4 → 1 < j → ends (atLoopEnd 2) j = true → count (atLoopEnd 2) j ≤ 1) ∧
      ∀ k, k < 4 → ends (atLoopEnd 1) k = true → count (atLoopEnd 1) k ≤ 1 := by
  decide

/-- `loopr` at 0, 1, 65,535 and 65,536. -/
theorem witness_LoopsAreArmed :
    let s := onUnit 0 { s := threeRegs 1 65535 65536 }
    (readS s 1).toNat = 1 ∧ (readS s 2).toNat = 65535 ∧ 65535 < (readS s 3).toNat ∧ readS s 4 = 0 ∧ (onTileAt 0 0 {}).cur.unit = .tile 0 := by
  decide


/-! ## Witnesses: the vector and modular units: a tile in its first beat, and in a later beat with what the first one read -/

/-- Tile 2,814 with some registers. -/
def vecTile (b : Nat) : State := onTileAt 2814 b { s := threeRegs 5 64 65, v := [(2, 1), (31, 7)], p := [(1, 3)] }

theorem witness_DueResultsWrite : (4 : Nat) ∈ [4, 8, 16, 32] ∧ (32 : Nat) ∈ [4, 8, 16, 32] ∧ elemCount 4 = 512 ∧ elemCount 32 = 64 := by decide

theorem witness_VectorIntegers : (vecTile 0).cur.unit = .tile 2814 := by decide

theorem witness_VectorCompares : (vecTile 3).cur.unit = .tile 2814 ∧ signedCode 0 = true ∧ signedCode 1 = false := by decide

theorem witness_VectorMovement :
    { vecTile 1 with cur := { (vecTile 1).cur with cap := some { scalar := 9 } } }.cur.unit = .tile 2814 ∧ (vecTile 1).cur.beat + 1 = beatsOf 1 := by
  decide

theorem witness_VectorFloats : (vecTile 0).cur.unit = .tile 2814 ∧ Flt.ofTag 1 = .f32 := by decide

/-- Types of equal and of different widths, the last beat and one that is not. -/
theorem witness_VectorConversions :
    (vecTile 0).cur.unit = .tile 2814 ∧ widthOfType 0 = widthOfType 6 ∧ widthOfType 6 ≠ widthOfType 9 ∧ (vecTile 3).cur.beat + 1 = beatsOf 2 ∧
      (vecTile 2).cur.beat + 1 ≠ beatsOf 2 := by
  decide

/-- The float tags of `vrngf`. -/
theorem witness_VectorReductions : (vecTile 0).cur.unit = .tile 2814 ∧ (3 : BitVec 3) ≠ 1 ∧ (3 : BitVec 3) ≠ 2 := by decide

/-- The least and the greatest modulus, and one beyond. -/
theorem witness_MontgomeryConstants : validMod 3 = true ∧ validMod (2 ^ 62 - 1) = true ∧ validMod (2 ^ 62 + 1) = false ∧ validMod 1 = false := by
  decide

theorem witness_ModularRows : (vecTile 0).cur.unit = .tile 2814 := by decide


/-! ## Witnesses: accesses to memory -/

/-- A leaf entry for the 64 KiB page at physical 0x20000: RESIDENT, readable and writable as asked. -/
def leafWord (w rd : Bool) : Word := BitVec.ofNat 64 (2 ^ 60 + bit w * 2 ^ 54 + bit rd * 2 ^ 53 + 0x20000)

/-- Unit 40 of context 0 with that page at virtual 0 in the TLB of its die, its leaf entry at 0x40, and register 1. -/
def dramState (r1 : Nat) (w rd : Bool) : State :=
  { onUnit 40 { run := .run, pc := 0x1000, s := threeRegs r1 0x1122334455667788 0 } with
    mem := writeLE [] 0x40 8 (leafWord w rd).toNat
    xlats := [(1, { tlb := [{ ctx := 0, va := 0, size := 65536, leaf := leafWord w rd, leafAt := 0x40 }] })] }

/-- The last aligned double-word of the page. -/
theorem witness_DramAccessesBegin :
    let s := dramState 0xFFF8 true true
    let va := (readS s 1 + (0 : BitVec 26).signExtend 64).toNat
    va < 2 ^ 56 ∧ va % 8 = 0 ∧ (tlbFind s (dieOfSeq 40) (s.seq 40).ctxid va).any (fun x => Leaf.rd x.leaf && Leaf.w x.leaf && readEntry s x.leafAt == x.leaf) = true ∧
      (s.ctx 0).snapOpen = none ∧ streamHeld s (s.seq 40).ctxid (.seq 40) = false ∧ walkAhead s 40 = none ∧ underTest s 0x40 = none ∧
      streamHeld { s with dies := [(0, { held := [.seq 40] })] } 0 (.seq 40) = true ∧
      walkAhead { s with ops := [(2, { kind := .walk, stream := .seq 40, dst := some 4 })] } 40 = some 2 ∧ goes (execLd 3 1 0 s) (fun u => u.opCount == 1 && (u.seq 40).waits == [(3, 0)]) = true ∧
      goes (execSt 2 1 0 s) (fun u => Leaf.d (readEntry u 0x40) && (u.seq 40).pc == 0x1008) = true := by
  decide +kernel

/-- A load of a byte whose top bit is set, and a store of two bytes, on their way to 0x20010. -/
def dramUnderWay (k : OpKind) (dst : Option Nat) : State :=
  { dramState 0 true true with
    mem := writeLE [] 0x20010 2 0x80FE, seqs := [(40, { waits := (dst.map fun d => (d, 7)).toList })]
    ops := [(7, { kind := k, cur := { unit := .seq 40 }, addr := 0x20010, dst := dst })] }

theorem witness_DramAccessesPerformed :
    (mfind (dramUnderWay (.dramLoad 1 true) (some 3)).ops 7).any (fun o => o.dst == some 3 && !o.refused &&
      (underTest (dramUnderWay (.dramLoad 1 true) (some 3)) o.addr).isNone && !blockedByEarlier (dramUnderWay (.dramLoad 1 true) (some 3)) 7 o) = true ∧
    ((dramUnderWay (.dramLoad 1 true) (some 3)).seq 40).waits = [(3, 7)] ∧
    goes (execDramAccessPerformed 7 (dramUnderWay (.dramLoad 1 true) (some 3))) (fun u => regOf (u.seq 40).s 3 == 0xFFFFFFFFFFFFFFFE && u.ops.isEmpty) = true ∧
    goes (execDramAccessPerformed 7 (dramUnderWay (.dramStore 2 0x1234) none)) (fun u => readLE u.mem 0x20010 2 == 0x1234 && u.ops.isEmpty) = true := by
  decide +kernel

/-- A misaligned address, the first beyond 2^56, and pages that allow only one kind of access. -/
theorem witness_DramAccessesFault :
    let va := fun (s : State) => (readS s 1 + (0 : BitVec 26).signExtend 64).toNat
    streamHeld (dramState 8 true false) 0 (.seq 40) = false ∧ walkAhead (dramState 8 true false) 40 = none ∧ va (dramState 0xFFF9 true true) % 8 ≠ 0 ∧ 2 ^ 56 ≤ va (dramState (2 ^ 56) true true) ∧ va (dramState (2 ^ 56) true true) % 8 = 0 ∧
      (tlbFind (dramState 8 true false) 1 0 8).any (fun x => !Leaf.rd x.leaf) = true ∧ (tlbFind (dramState 8 false true) 1 0 8).any (fun x => !Leaf.w x.leaf) = true := by
  decide +kernel

/-- Memory tile 1 of quad 0 with partitions: a presence one, a line buffer, and the last granule free. -/
def nearParts : MemTile :=
  { parts := [{ base := 0, granules := 1, mode := .presence }, { base := 0x10000, granules := 1, mode := .lineBuffer }] }

/-- Tile 0 over those partitions, with register 1. -/
def nearState (r1 r2 : Nat) : State :=
  { onTileAt 0 0 { s := threeRegs r1 r2 0 } with
    mtiles := [(1, nearParts)], graphs := [(0, { groups := [{ quads := [0] }] })] }

/-- The last 32 words of the memory tile; the end of the line buffer, where an access runs on at its start; presence words, one and 32; and
none for `pclr`. -/
theorem witness_NearAccessesBegin :
    nearGood (nearState 0x1FFF00 0) 0 0x1FFF00 32 false ∧ nearGood (nearState 0x1FFF80 0) 0 0x1FFF80 4 false ∧ nearGood (nearState 0x1FFFF8 0) 0 0x1FFFF8 1 false ∧
      nearGood (nearState 0x1FFF8 0) 0 0x1FFF8 32 false ∧ nearGood (nearState 0xFFF8 0) 0 0xFFF8 1 true ∧ nearGood (nearState 0xFF00 0) 0 0xFF00 32 true ∧
      channelFree (nearState 0 0) 0 ∧ channelFree (nearState 0 0) 4 ∧ curQuad (nearState 0 0) = some 0 ∧ readS (nearState 0 0) 2 = 0 ∧
      (partAt (nearState 0xFFF8 1) 1 0xFFF8).any (ownsPart (nearState 0xFFF8 1)) = true ∧ (readS (nearState 0xFFF8 1) 2).toNat = 1 := by
  simp only [nearGood, channelFree]
  decide +kernel

/-- An access at its banks: `words` words from offset `o` of memory tile 1, of which the words in `full` are present. -/
def atBanks (k : OpKind) (o words : Nat) (full : List Nat) : State :=
  { nearState 0 0 with
    pcyc := 9, near := writeLE [] (nearKey 1 o) 8 0x55, present := full.foldl (fun m p => mput false m (presKey 1 p) true) []
    ops := [(2, { kind := k, cur := { unit := .tile 0 }, mtile := 1, addr := o, words := words, left := List.range words })] }

theorem witness_NearAccessesServed :
    let word := fun (s : State) => (mfind s.ops 2).any fun o => o.addr % 8 == 0 && o.left == List.range o.words && o.words != 0 && o.got == 0 && (busyBanks s 1).isEmpty
    word (atBanks .nearLoad 0x1FFF00 32 []) = true ∧ ((List.range 32).map fun k => wordOffset (atBanks .nearLoad 0x1FFF00 32 []) 1 0x1FFF00 k / 8 % 256).Nodup ∧
      goes (execBankAccess 2 (atBanks .nearLoad 0x1FFFF8 1 [])) (fun u => (mfind u.ops 2).any fun p => p.served && p.usable == 17) = true ∧
      goes (execBankAccess 2 (atBanks (.nearStore 0x77) 0x1FFFF8 1 [])) (fun u => u.ops.isEmpty && nearWord u 1 0x1FFFF8 == 0x77) = true ∧
      isPresent (atBanks .presLoad 8 1 [8]) 1 8 = true ∧ isPresent (atBanks .presLoad 8 1 []) 1 8 = false ∧
      goes (execBankAccess 2 (atBanks .presLoad 8 1 [8])) (fun u => (mfind u.ops 2).any fun p => p.served) = true ∧
      goes (execBankAccess 2 (atBanks .presLoad 8 1 [])) (fun u => (mfind u.ops 2).any fun p => !p.served) = true ∧
      goes (execBankAccess 2 (atBanks (.presStore 0x99) 8 1 [])) (fun u => isPresent u 1 8 && nearWord u 1 8 == 0x99 && u.ops.isEmpty) = true ∧
      goes (execBankAccess 2 (atBanks .presClear 8 2 [8, 16, 24])) (fun u => !isPresent u 1 8 && !isPresent u 1 16 && isPresent u 1 24) = true := by
  decide +kernel

theorem witness_NearAccessesServed_pattern :
    let s : State := { nearState 0 0 with mtiles := [(1, { nearParts with gens := [(3, { j0 := 5, next := [9, 4] })] })] }
    (mget {} (s.mtile 1).gens 3).next = [9, 4] ∧ goes (execGeneratorTakePattern 1 3 s) (fun u => mget {} (u.mtile 1).gens 3 == { desc := 9, next := [4] }) = true := by
  decide +kernel


/-! ## Witnesses: atomics -/

/-- A graph of context 0 that holds quads 0 and 33. -/
def twoQuads : Map Graph := [(0, { groups := [{ quads := [0, 33] }] })]

/-- Tile 0 of that graph with register 1. -/
def atomicState (r1 : Nat) : State := { onTileAt 0 0 { s := threeRegs r1 7 0 } with graphs := twoQuads }

/-- The last word of the near memory tiles under scopes 1 and 2, and a word of another die under scope 4. -/
theorem witness_AtomicsBegin :
    let near := atomicState 0x7FFFFC
    let far := atomicState (memoryOfQuad 33 1 * 2 ^ 52 + 8)
    atomicTarget near (readS near 1) = some (memoryOfQuad 0 3, 0x1FFFFC) ∧ inScope near 1 (memoryOfQuad 0 3) = true ∧ inScope near 2 (memoryOfQuad 0 3) = true ∧
      isFar near (memoryOfQuad 0 3) = false ∧ atomicServes near (memoryOfQuad 0 3) 0x1FFFFC = true ∧
      atomicTarget far (readS far 1) = some (memoryOfQuad 33 1, 8) ∧ inScope far 4 (memoryOfQuad 33 1) = true ∧ inScope far 3 (memoryOfQuad 33 1) = false ∧
      isFar far (memoryOfQuad 33 1) = true ∧
      goes (execAmoAdd 3 1 2 0 1 near) (fun u => u.opCount == 1 && u.agenda == [(6, .atomicPipelineTake 0)]) = true ∧
      goes (execRedMaxu 1 2 4 4 far) (fun u => u.opCount == 1 && (chanOf u (.tile 0) 0).issued == 1) = true := by
  decide +kernel

/-- The package is rank 2; rank 5 is live with links 3 and 4 UP, of which 3 is used. -/
def remoteState (rank : Nat) : State :=
  { atomicState (memoryOfQuad 33 1 * 2 ^ 52 + rank * 2 ^ 42 + 8) with
    ranks := [(2, BitVec.ofNat 64 (2 ^ 62 + 2 ^ 61)), (5, BitVec.ofNat 64 (2 ^ 62 + 0x1C))], links := [(3, { state := .up }), (4, { state := .up })] }

theorem witness_RemoteAtomicsBegin :
    let x := fun (s : State) => (readS s 1).toNat
    bitsOf (x (remoteState 5)) 21 21 = 0 ∧ remoteTile (readS (remoteState 5) 1) = some (memoryOfQuad 33 1) ∧ x (remoteState 5) % 4 = 0 ∧
      bitsOf (x (remoteState 5)) 42 6 = 5 ∧ (remoteState 5).rank = 2 ∧ liveEntry (mget 0 (remoteState 5).ranks 5) = true ∧
      (upLinks (remoteState 5) 5).head? = some 3 ∧ bitsOf (x (remoteState 2)) 42 6 = 2 ∧
      goes (execRamoAdd 3 1 2 0 (remoteState 5)) (fun u => (u.link 3).itemsOut.length == 1 && (u.link 4).itemsOut.isEmpty) = true ∧
      goes (execRamoAdd 3 1 2 0 (remoteState 2)) (fun u => (u.link 3).itemsOut.isEmpty && u.agenda.length == 1) = true := by
  decide +kernel

/-- An atomic at memory tile 1 of quad 33 that `unit` issued, with the word 0xFFFFFFFE there. -/
def atPipeline (k : OpKind) (unit : UnitId) (refused : Bool) (got : Vec) : State :=
  { atomicState 0 with
    near := writeLE [] (nearKey (memoryOfQuad 33 1) 8) 4 0xFFFFFFFE
    seqs := [(40, { waits := [(3, 6)] })]
    ops := [(6, { kind := k, cur := { unit := unit }, mtile := memoryOfQuad 33 1, addr := 8, left := [0], dst := some 3, refused := refused, got := got })] }

theorem witness_AtomicsPerformed :
    let add : OpKind := .atomic 0 5 0 true
    let op := fun (s : State) => (mfind s.ops 6).getD { kind := .walk }
    (op (atPipeline add (.tile 0) false 0)).far = true ∧ (op (atPipeline add (.tile 277) false 0)).far = false ∧
      channelStalled (atPipeline add (.tile 277) false 0) 6 (op (atPipeline add (.tile 277) false 0)) = false ∧
      atomicServes (atPipeline add (.tile 0) false 0) (memoryOfQuad 33 1) 8 = true ∧ (busyBanks (atPipeline add (.tile 0) false 0) (memoryOfQuad 33 1)).isEmpty = true ∧
      goes (execAtomicPipelineTake 6 (atPipeline add (.tile 0) false 0)) (fun u => word32 u (memoryOfQuad 33 1) 8 == 3 &&
        (mfind u.ops 6).any fun p => p.got == 0xFFFFFFFFFFFFFFFE && !p.served) = true ∧
      goes (execAtomicPipelineTake 6 (atPipeline (.atomic 9 5 0 false) (.tile 0) false 0)) (fun u => word32 u (memoryOfQuad 33 1) 8 == 5 && u.ops.isEmpty) = true ∧
      atomicServes { atPipeline add (.tile 0) false 0 with mtiles := [(memoryOfQuad 33 1, { parts := [{ base := 0, granules := 1, mode := .fifo }] })] }
        (memoryOfQuad 33 1) 8 = false ∧
      ((atPipeline add (.seq 40) false 77).seq 40).waits = [(3, 6)] ∧
      goes (execFarAtomicReply 6 (atPipeline add (.seq 40) false 77)) (fun u => regOf (u.seq 40).s 3 == 77) = true ∧
      (op (atPipeline add (.seq 40) true 0)).refused = true := by
  decide +kernel

/-- Invocations of `ramo` that arrive, from link 15 and from the package itself. -/
theorem witness_AtomicsPerformed_remote :
    let item : DynItem := { cls := 1, ctx := 0, rank := 5, itag := 9, a := BitVec.ofNat 64 (memoryOfQuad 33 1 * 2 ^ 52 + 8), b := 5, sub := 0 }
    let s := { atPipeline .walk (.tile 0) false 0 with links := [(15, { itemsIn := [item] })] }
    remoteTile item.a = some (memoryOfQuad 33 1) ∧ remoteServes s 0 (memoryOfQuad 33 1) 8 = true ∧
      invocationWaits s (memoryOfQuad 33 1) 8 0 = false ∧ invocationWaits (atPipeline (.remote 0 5 0 2 16) (.tile 0) false 0) (memoryOfQuad 33 1) 8 0 = false ∧
      goes (execRamoInvocationArrival 15 s) (fun u => word32 u (memoryOfQuad 33 1) 8 == 3 && (u.link 15).itemsIn.isEmpty && (u.link 15).itemsOut.length == 1) = true ∧
      goes (execRamoInvocationArrival 16 (atPipeline (.remote 0 5 0 2 16) (.tile 0) false 0)) (fun u => word32 u (memoryOfQuad 33 1) 8 == 3) = true := by
  decide +kernel

/-! ## Witnesses: the control network -/

/-- Unit 0 of context 0 whose port 0 is member 0 of join 0, port 1 the producer and port 2 the consumer of control arcs, with `held` releases
and tokens. -/
def ctrlState (held : Nat) (q : Seq) : State :=
  { onUnit 0 { q with run := .run, tvec := 0x800
                      cx := [(0, { link := .join 0 0 0, held := held }), (1, { link := .prod 5 }), (2, { link := .cons 6, held := held })] } with
    graphs := [(0, { joins := [{ state := .armed, counts := [0, 254], tags := [1, 2], removed := [0, 0], sent := [0, 0] }], groups := [{ quads := [0] }] })]
    arcs := [(5, { kind := .control, dst := .seq 1 0 }), (6, { kind := .control, dst := .seq 0 2 })] }

theorem witness_ControlInstructions :
    let s := ctrlState 0 {}
    let h := ctrlState 255 { oc := [(0, { issued := 3, upto := 2 })] }
    let link := fun (s : State) (p : Nat) => (mget {} (unitCx s s.cur.unit) p).link
    link s 0 = .join 0 0 0 ∧ (s.graph? 0 0).any (fun y => y.joins.length == 1) = true ∧ link s 1 = .prod 5 ∧ (s.arc? 5).any (fun x => x.dst == .seq 1 0) = true ∧
      canWait (link s 0) = true ∧ canWait (link s 2) = true ∧ canWait (link s 1) = false ∧ canSignal (link s 2) = false ∧ canSignal (link h 0) = true ∧
      (chanOf s (.seq 0) 0).issued ≤ (chanOf s (.seq 0) 0).upto ∧ (chanOf h (.seq 0) 0).upto < (chanOf h (.seq 0) 0).issued ∧
      (mget {} (unitCx h (.seq 0)) 0).held = 255 ∧ (s.seq 0).trap = false ∧ (s.seq 0).tvec ≠ 0 ∧
      goes (execCsig 0 s) (fun u => u.agenda == [(5, .joinSignalArrival 0 0 0 0)]) = true ∧ goes (execCsig 1 s) (fun u => u.agenda.length == 1) = true ∧
      goes (execOrdj 0 0 h) (fun u => (chanOf u (.seq 0) 0).joins == [(3, 0)]) = true ∧ goes (execCwait 0 h) (fun u => (mget {} (u.seq 0).cx 0).held == 254) = true ∧
      goes (execCwait 2 s) (fun u => (u.seq 0).run == .cwait 2) = true ∧ goes (execCtest 3 2 h) (fun u => regOf (u.seq 0).s 3 == 255) = true ∧
      goes (execFence 4 s) (fun u => (u.seq 0).run == .run && (u.seq 0).pc == 8) = true := by
  decide +kernel

/-- A `fence` that has an access in its reach. -/
theorem witness_ControlInstructions_fence :
    let s := { ctrlState 0 {} with ops := [(0, { kind := .nearStore 1, cur := { unit := .seq 0 }, mtile := 1 })] }
    inReach s 0 1 ((mfind s.ops 0).getD { kind := .walk }) = true ∧ goes (execFence 1 s) (fun u => (u.seq 0).run == .fence 1) = true := by
  decide +kernel

/-- Member 1 has 254 signals, member 0 none; the port of member 0 is that of unit 0, that of member 1 of tile 9. -/
theorem witness_ControlArrivals :
    let s : State := { ctrlState 0 {} with pcyc := 30, tiles := [(9, { cx := [(4, { link := .join 0 0 1 })], oc := [(2, { upto := 7, issued := 9 })] })] }
    (joinAt s 0 0 0).state = .armed ∧ (joinAt s 0 0 0).counts = [0, 254] ∧ (joinAt s 0 0 0).firedAt ≠ some s.pcyc ∧ moreSignals 0 0 0 s.todo = false ∧
      memberOf s 0 0 0 0 = some (.seq 0, 0) ∧ memberOf s 0 0 0 1 = some (.tile 9, 4) ∧ (mget {} (s.tile 9).cx 4).skip = 0 ∧
      goes (execJoinSignalArrival 0 0 0 1 s) (fun u => (joinAt u 0 0 0).counts == [0, 255]) = true ∧
      goes (execJoinSignalArrival 0 0 0 0 s) (fun u => (joinAt u 0 0 0).counts == [0, 253] && (joinAt u 0 0 0).firedAt == some 30 && u.agenda.length == 2) = true ∧
      goes (execReleaseArrival 0 0 0 1 s) (fun u => (mget {} (u.tile 9).cx 4).held == 1) = true ∧
      (s.arc? 6).any (fun a => a.dst == .seq 0 2) = true ∧ goes (execControlTokenArrival 0 6 s) (fun u => (mget {} (u.seq 0).cx 2).held == 1) = true ∧
      goes (execOrderTokenArrival 9 2 8 s) (fun u => (mget {} (u.tile 9).oc 2).upto == 8) = true ∧
      goes (execOrderTokenArrival 9 2 9 s) (fun u => (mget {} (u.tile 9).oc 2).upto == 7 && (mget {} (u.tile 9).oc 2).done == [9]) = true := by
  decide +kernel


/-! ## Witnesses: arcs -/

/-- A token of kind `k` with a format and a payload. -/
def tok (k : TokKind) (fmt : Nat) (v : Nat) : Token := { kind := k, tag := 9, colour := 4, fmt := fmt, payload := BitVec.ofNat 512 v }

/-- Tile 0 in region 0 with arc 9 at input port 2 and at output port 3 of its actor, with `ps` at the input. -/
def arcState (a : Arc) (ps : Bool) : State :=
  { onTileAt 0 0 { inPorts := [(2, { arc := some 9, ps := ps })], outPorts := [(3, { arc := some 9 })], region := some 0 } with
    arcs := [(9, a)], regions := [(0, { rstate := 0, tiles := [0] })]
    actors := [(0, { colour := 6 })], ctxs := [(0, { drawn := [6] })] }

/-- A window with a PUNCT ahead of a DATA token; a ring with its last free slot; a slot arc. -/
theorem witness_ArcInstructions :
    let w := arcState { window := [tok .punct 0 0, tok .data 1 55], cap := 3, sent := 2 } false
    let r := arcState { cap := 3, sent := 7, seen := 5, dst := .tile 20 1, src := .tile 0 3 } true
    let l := arcState { kind := .slot, dst := .tile 20 1, src := .tile 0 3 } true
    (headMarkers ((w.arc? 9).getD {}).window).length = 1 ∧ ((w.arc? 9).getD {}).window[1]? = some (tok .data 1 55) ∧
      ((mget {} (w.tile 0).inPorts 2).arc = some 9 ∧ (mget {} (r.tile 0).outPorts 3).arc = some 9) ∧
      (∀ e ∈ (r.tile 0).inPorts, e.2.ps = true) ∧ 6 ∈ (r.ctx 0).drawn ∧ 6 ∉ (r.ctx 0).returned ∧ (7 : Nat) - 5 < 3 ∧
      goes (execPopd 0 2 w) (fun u => ((u.arc? 9).map Arc.window) == some [] && (mget {} (u.tile 0).inPorts 2).ps && (mget {} (u.tile 0).inPorts 2).count == 1) = true ∧
      goes (execPeek 0 1 2 w) (fun u => (u.tile 0).pend.length == 2) = true ∧
      goes (execPush 0 3 1 2 r) (fun u => (u.arc? 9).any fun a => a.sent == 8 && a.transit.map Token.fmt == [2]) = true ∧
      goes (execPunct 3 l) (fun u => (u.arc? 9).any (fun a => a.transit.map Token.kind == [.punct]) && u.agenda == [(routeTime 0 20, .scheduledTokenArrival 0 9)]) = true ∧
      goes (execCret 3 r) (fun u => (u.ctx 0).returned == [6]) = true ∧
      goes (execPunctall r) (fun u => (u.arc? 9).any (fun a => a.transit.map Token.kind == [.punct]) && !(mget {} (u.tile 0).inPorts 2).ps) = true := by
  decide +kernel

/-- A window with markers only, a full ring, a window behind a MODE marker, a port without its PUNCT. -/
theorem witness_ArcInstructionsStop :
    let e := arcState { window := [tok .snap 0 0] } false
    let f := arcState { cap := 2, sent := 70, seen := 4, chunkEnds := [70] } false
    let m := arcState { window := [tok .mode 0 0, tok .data 0 1] } false
    (e.tile 0).region = some 0 ∧ (e.regionAt 0).waiting = none ∧ 2 + 64 * 1 ≤ 70 - 4 ∧
      goes (execPop 0 1 2 e) (fun u => (u.regionAt 0).rstate == 2 && ((u.regionAt 0).waiting.any fun w => w.why == .popWait && w.port == 2)) = true ∧
      goes (execPush 0 3 1 0 f) (fun u => (u.regionAt 0).waiting.any fun w => w.why == .pushWait && w.tag == 9) = true ∧
      goes (execPopd 0 2 m) (fun u => (u.regionAt 0).rstate == 3 && (u.tile 0).reports.map Report.code == [0x10]) = true ∧
      goes (execPunctall e) (fun u => (u.tile 0).reports.map Report.code == [0x14]) = true := by
  decide +kernel

/-- Tokens that arrive: at a consumer that accepts tags 1 and 2 only; a lane that another arc owns; publications; chunks. -/
def landing (a : Arc) : State :=
  { arcState { a with dst := .tile 0 2, src := .tile 3 1 } false with
    tiles := [(0, { inPorts := [(2, { arc := some 9 })], region := some 0 }), (3, { region := some 0 })]
    graphs := [(0, { image := { kernels := [{ ins := [{ num := 0, tags := [1, 2] }] }] } })], lanes := [(803, 8)] }

theorem witness_ArcEvents :
    let good := landing { transit := [tok .data 2 5], cap := 4 }
    let bad := landing { transit := [tok .data 3 5], cap := 4 }
    let lane := landing { kind := .slot, transit := [tok .data 2 5], lanes := [(100, 3)], flights := [{ leg := 0, due := 0 }] }
    let free : State := { lane with lanes := [(803, 9)] }
    let two := landing { kind := .slot, transit := [tok .data 2 5, tok .punct 0 0], lanes := [(100, 3)], flights := [{ leg := 0, due := 0 }, { leg := 0, due := 0 }] }
    let last := landing { kind := .slot, transit := [tok .data 2 5], lanes := [(100, 3)], flights := [{ leg := 1, due := 0 }] }
    let held := landing { transit := [tok .data 2 5], cap := 4, home := some 0, base := 0 }
    let pub := landing { pubs := [130, 131], seen := 2, sent := 131, cap := 1, chunkEnds := [67, 130] }
    let ask := landing { asked := 16, cap := 1 }
    acceptance good 9 ((good.arc? 9).getD {}) = ([1, 2], none) ∧ ((good.arc? 9).getD {}).faultTile = some (0, 2) ∧
      ((lane.arc? 9).getD {}).srcRegion lane = some 0 ∧ laneHeld lane 0 = false ∧ (lane.regionAt 0).reloads = 0 ∧ ((held.arc? 9).getD {}).banks ≠ [] ∧
      goes (execRingWindowWrite 0 9 good) (fun u => (u.arc? 9).any fun a => a.fresh.length == 1 && a.transit.isEmpty) = true ∧
      goes (execRingWindowWrite 0 9 bad) (fun u => (u.tile 0).reports.map Report.code == [0x11] && (u.arc? 9).any fun a => a.read == 1 && a.fresh.isEmpty) = true ∧
      goes (execScheduledTokenArrival 0 9 lane) (fun u => (u.regionAt 0).rstate == 4 && (u.regionAt 0).reloads == 1) = true ∧
      goes (execScheduledTokenArrival 0 9 free) (fun u => (u.arc? 9).any (fun a => a.flights.map Flight.leg == [1]) && u.agenda.length == 1) = true ∧
      goes (execScheduledTokenArrival 0 9 last) (fun u => (u.arc? 9).any fun a => a.flights.isEmpty && a.transit.isEmpty && a.window.length == 1) = true ∧
      goes (execScheduledTokenArrival 0 9 { two with lanes := [(803, 9)] }) (fun u => (u.arc? 9).any (fun a => a.flights.map Flight.waits == [false, true]) &&
        (u.tile 0).reports.map Report.code == [0x13]) = true ∧
      goes (execCreditArrival 0 9 pub) (fun u => (u.arc? 9).any (fun a => a.seen == 130 && a.pubs == [131] && a.chunkEnds.isEmpty) && (u.die 0).attic == 1026) = true ∧
      chunksHeld ask 0 0 = 0 ∧ goes (execChunkGrant 0 9 ask) (fun u => (u.arc? 9).any (fun a => a.chunks == 16 && a.asked == 0) && (u.die 0).attic == 1008) = true := by
  decide +kernel

/-! ## Witnesses: the tensor unit -/

/-- A word of `tcfg`: I8 by I8, M = N = 1, K = 16, one firing a result. -/
def cfgI8 : BitVec 32 := BitVec.ofNat 32 (5 * 2 ^ 29 + 5 * 2 ^ 26 + 2 ^ 25)

/-- Tile 0 with a buffered tile store of two buffers in memory tile 1 of its quad and operand elements of 3 and 5. -/
def tensorState (x : Tensor) (full : List Bool) (systolic : Bool) : State :=
  { onTileAt 0 0 { tensor := x, s := threeRegs 0 0x8000 0 } with
    pcyc := 50, mtiles := [(1, { parts := [{ base := 0, granules := 1, mode := .tileStore, buffers := 2, full := full }] })]
    near := writeLE (writeLE [] (nearKey 1 0) 1 3) (nearKey 1 0x8000) 1 0xFB
    graphs := [(0, { groups := [{ quads := [0], systolic := systolic }] })] }

/-- A slot that takes its operands from both buffers and empties them. -/
def slotI8 : TSlot := { state := .armed, cfg := cfgI8, aAddr := 0, bAddr := 0x8000, acc := 7, flags := 12, curB := 1 }

theorem witness_TensorInstructions :
    let s := tensorState { cfg := cfgI8, slots := [(7, { slotI8 with state := .defined })] } [true, true] false
    let y := tensorState { cfg := cfgI8 } [true, true] true
    let seq : State := { s with cur := { unit := .seq 0 } }
    bufferAt s 0 0 = some (1, 0, 0) ∧ bufferAt s 0 0x8000 = some (1, 0, 1) ∧ bufferBytes s 1 0 = 0x8000 ∧ operandBytes 5 1 16 false = 64 ∧
      inSystolic s 0 = false ∧ ((tensorAt s 0).slot 7).state ≠ .free ∧ inSystolic y 0 = true ∧ (readS y 2).toNat % 64 = 0 ∧ operandBytes 5 64 64 false = 4096 ∧
      (tensorAt s 0).queue.length < 4 ∧ groupOfQuad seq 0 = some (0, 0, 0) ∧ systolicRefusal seq 0 0 0 = none ∧
      goes (execTdef 0 1 2 7 12 s) (fun u => (tensorAt u 0).settings == [.define 0 { slotI8 with state := .defined }]) = true ∧
      goes (execTarm 7 s) (fun u => (tensorAt u 0).settings == [.arm 7 0 3 7]) = true ∧ goes (execTwload 2 y) (fun u => u.agenda == [(130, .twloadValid 0)]) = true ∧
      goes (execTtagFull 1 s) (fun u => u.agenda == [(56, .ttagArrival 0)]) = true ∧ goes (execTstore 1 7 0 0 s) (fun u => (tensorAt u 0).queue.length == 1) = true ∧
      goes (execTsysto 1 seq) (fun u => (groupAt u 0 0 0).systolic) = true := by
  decide +kernel

/-- A firing that starts; the last one of its accumulator, which closes; tags that arrive; a row that is read; a store that starts and ends; an
accumulator that is cleared. -/
theorem witness_TensorSteps :
    let open_ : Acc := { state := .open, started := 1, kind := 1, m := 1, n := 1, ch := 1 }
    let fire := tensorState { slots := [(7, slotI8)] } [true, true] false
    let done := tensorState { slots := [(7, slotI8)], accs := [(7, open_)], firings := [{ ts := 7, cfg := cfgI8, flags := 12, a := 0, b := 0x8000, acc := 7 }] } [true, true] false
    let full := tensorState { accs := [(7, { open_ with state := .closed, cells := [(0, 0xFF_FFFF_FFF1)] })], queue := [{ addr := 0x8000, acc := 7, ft := 0, rm := 0, issued := 40, seg := 0, entry := 0, stamp := 0 }], zeroing := [(5, 49)] } [true, false] false
    let ops : State := { full with ops := [(1, { kind := .tag true, cur := { unit := .tile 0 }, addr := 0x8000 }), (2, { kind := .tensorRead 7 0, cur := { unit := .tile 0 }, issued := 40 })] }
    canFire fire 0 7 = true ∧ ((tensorAt fire 0).acc 7).fits cfgI8 = true ∧ canStore full 0 = true ∧ canClear full 0 5 49 = true ∧ bufferFull ops 1 0 1 = false ∧
      storeRefusal full 0 { addr := 0x8000, acc := 7, ft := 0, rm := 0, issued := 40, seg := 0, entry := 0, stamp := 0 } ((tensorAt full 0).acc 7) = none ∧
      goes (execTensorFiringStart 0 7 fire) (fun u => (tensorAt u 0).firings.length == 1 && (tensorAt u 0).busyUntil == 66 && u.agenda == [(86, .tensorFiringComplete 0 7)]) = true ∧
      goes (execTensorFiringComplete 0 7 done) (fun u => ((tensorAt u 0).acc 7).state == .closed && mget 0 ((tensorAt u 0).acc 7).cells 0 == 0xFF_FFFF_FFF1 && !bufferFull u 1 0 0) = true ∧
      goes (execTtagArrival 1 ops) (fun u => bufferFull u 1 0 1) = true ∧ goes (execTreadRead 2 ops) (fun u => (mfind u.ops 2).any fun o => o.served && elem 32 o.got.toNat 0 == 0xFFFFFFF1) = true ∧
      goes (execTstoreStart 0 full) (fun u => u.agenda == [(57, .tstoreComplete 0)]) = true ∧ goes (execTacczEffect 0 5 full) (fun u => (tensorAt u 0).zeroing.isEmpty) = true := by
  decide +kernel

/-- The group of quad 0 as a systolic grid of two by two tiles: a pass that can start, the pass in flight, and weights that become valid. -/
def gridState (passes : List Pass) : State :=
  let c64 := BitVec.ofNat 32 (5 * 2 ^ 29 + 5 * 2 ^ 26 + 2 ^ 25 + 63 * 2 ^ 13 + 3 * 2 ^ 5)
  let x : Tensor := { cfg := c64, slots := [(1, { state := .defined, cfg := c64, acc := 2 })], weights := { valid := true, fmt := 5 }, loading := [{ addr := 0x10000, cfg := c64 }] }
  { tensorState {} [] true with
    mtiles := [(1, { parts := [{ base := 0, granules := 1, mode := .tileStore, buffers := 1, full := [true] }] })]
    tiles := [(0, { tensor := x }), (2, { tensor := x }), (17, { tensor := x }), (19, { tensor := x })]
    graphs := [(0, { groups := [{ quads := [0], systolic := true, passes := passes }] })] }

/-- Two loads of weights, of which the first is complete. -/
theorem witness_TensorSteps_loads :
    let s := gridState []
    let two : State := s.setTile 0 { s.tile 0 with tensor := { tensorAt s 0 with loading := [{ addr := 0, cfg := 0, complete := true }, { addr := 64, cfg := 0 }] } }
    (tensorAt two 0).loading.map Loading.complete = [true, false] ∧ goes (execTwloadValid 0 two) (fun u => (tensorAt u 0).loading.isEmpty) = true := by
  decide +kernel

theorem witness_TensorSteps_systolic :
    quadRect [0] = some (0, 1, 1) ∧ (match passCheck (gridState []) (groupAt (gridState []) 0 0 0) 0 1 1 1 with | .start _ => true | _ => false) = true ∧
      groupOfTile (gridState []) 0 = some (0, 0, 0) ∧ (tensorAt (gridState []) 0).loading.length = 1 ∧
      (groupAt (gridState []) 0 0 0).starting = none ∧ passInFlight (gridState []) 0 = false ∧
      goes (execTarm 1 (gridState [])) (fun u => (groupAt u 0 0 0).starting.isSome && u.todo == [.event (.systolicPassStart 0 0 0)]) = true ∧
      goes (execTarm 1 (gridState [])) (fun u => goes (execSystolicPassStart 0 0 0 u) fun v => (groupAt v 0 0 0).passes.length == 1) = true ∧
      passLength (Cfg.m 0) 2 2 = 25 ∧ goes (execSystolicPassComplete 0 0 0 (gridState [{ ts := 1, cfg := 0, accs := [2, 2], age := 26 }])) (fun u => (groupAt u 0 0 0).passes.isEmpty &&
        ((tensorAt u 17).acc 2).done == 1) = true ∧
      goes (execSystolicPassComplete 0 0 0 (gridState [{ ts := 1, cfg := 0, accs := [2, 2], age := 20 }, { ts := 1, cfg := 0, accs := [3, 3], age := 26 }])) (fun u =>
        (groupAt u 0 0 0).passes.map Pass.age == [20] && ((tensorAt u 17).acc 3).done == 1) = true ∧
      passInFlight (gridState [{ ts := 1, cfg := 0 }]) 0 = true ∧
      goes (execTwloadValid 0 (gridState [{ ts := 1, cfg := 0 }])) (fun u => (tensorAt u 0).loading.map Loading.complete == [true] && !(tensorAt u 0).weights.valid == false) = true ∧
      goes (execTwloadValid 0 (gridState [])) (fun u => (tensorAt u 0).weights.valid && (tensorAt u 0).loading.isEmpty) = true := by
  decide +kernel


/-! ## Witnesses: graphs and the launch path -/

/-- Mode 2 of an image with a source `m0` that feeds kernel 0 over the arc of index 0. -/
def sourceImage : Image :=
  { kernels := [{ ins := [{ num := 0 }] }], arcs := [{ src := .mem 0 0, dst := .actor 0 0 }], mems := [{ kind := .source, base := 0x1000 }]
    modes := [none, none, some { phases := [8], rates := [], regions := [], lists := [] }] }

/-- Control unit 0 with the handle 260 of slot 4 of context 0, 0x1040 and 0x1041 in its registers; the graph there in a state. -/
def graphState (st : GraphState) : State :=
  { onUnit 0 { s := threeRegs 260 0x1040 0x1041, tvec := 0x800 } with
    pcyc := 9, graphs := [(4, { state := st, handle := 260, mode := 2, target := 2, tags := [7], image := sourceImage, mems := [{ tokens := 3, bound := true }] })]
    arcs := [(7, { slot := 4, decl := some 0, src := .mem 0 0, dst := .tile 0 0 })] }

/-- The state, mode and target of the graph in slot 4 of context 0. -/
def slot4 (s : State) : Option (GraphState × Nat × Nat) := (s.graph? 0 4).map fun x => (x.state, x.mode, x.target)

/-- The cause and value with which unit 0 has entered its handler. -/
def caught (s : State) : Nat × Word × Word := ((s.seq 0).tcause, (s.seq 0).tinfo, (s.seq 0).pc)

theorem witness_GraphInstructions :
    useCount ((graphState .idle).ctx 0) 4 = 1 ∧ (sourceImage.mode? 2).isSome = true ∧ sourceImage.mode? 3 = none ∧
      goes (execSetmode 1 2 (graphState .loaded)) (fun u => slot4 u == some (.loaded, 2, 2)) = true ∧
      goes (execSetmode 1 2 (graphState .running)) (fun u => slot4 u == some (.changing, 2, 2) && u.agenda.map Prod.snd == [.modeRequestArrival 0 4 0]) = true ∧
      goes (execGact 1 (graphState .idle)) (fun u => slot4 u == some (.waiting, 2, 2) && u.agenda.map Prod.snd == [.graphPlacement 0 4]) = true ∧
      goes (execGdrain 1 (graphState .running)) (fun u => slot4 u == some (.draining, 2, 2) && u.agenda.map Prod.snd == [.modeRequestArrival 0 4 0]) = true ∧
      goes (execGdrain 1 (graphState .changing)) (fun u => slot4 u == some (.draining, 2, 2) && u.agenda.isEmpty) = true ∧
      goes (execGunld 1 (graphState .loaded)) (fun u => slot4 u == none && useCount (u.ctx 0) 4 == 2 && u.arcs.isEmpty) = true ∧
      goes (execSetmode 1 3 (graphState .loaded)) (fun u => caught u == (0x40, 3, 0x800)) = true ∧
      goes (execGact 1 (graphState .saved)) (fun u => caught u == (0x40, 2, 0x800)) = true ∧
      goes (execGpatch 2 1 7 (graphState .loaded)) (fun u => (memAt u 0 4 0).patched == some 0x1040) = true ∧
      goes (execGpatch 3 1 7 (graphState .loaded)) (fun u => caught u == (0x40, 6, 0x800)) = true ∧
      goes (execGact 2 (graphState .loaded)) (fun u => caught u == (0x40, 1, 0x800)) = true ∧
      goes (execGld 5 2 0 (graphState .loaded)) (fun u => regOf (u.seq 0).s 5 == 256 && (u.graph? 0 0).any (fun x => x.va == 0x1040) && u.agenda.map Prod.snd == [.graphLoadComplete 0 0]) = true := by
  decide +kernel

/-- The selector of the whole graph, of its load status, of a region it lacks and of its memory actor. -/
theorem witness_GraphInstructions_status :
    let at_ := fun (sel : Nat) => { graphState .running with seqs := [(0, { s := threeRegs (260 + 65536 * sel) 0 0, tvec := 0x800 })] }
    goes (execGstat 5 1 (at_ 0xFFFF)) (fun u => regOf (u.seq 0).s 5 == 0x5480000000000000) = true ∧
      goes (execGstat 5 1 (at_ 0xFFFE)) (fun u => regOf (u.seq 0).s 5 == 0) = true ∧ goes (execGstat 5 1 (at_ 0)) (fun u => caught u == (0x40, 7, 0x800)) = true ∧
      goes (execMstat 5 1 (at_ 0)) (fun u => regOf (u.seq 0).s 5 == 0x300000001) = true := by
  decide +kernel

/-- Tag 9 of context 0 as a spawn arc from slot 4, and as the queue of a copy template of slot 4. -/
def spawnState (u : UnitId) (q : Seq) (a : Arc) : State :=
  { onUnit 0 q with
    cur := { unit := u, slot := 4 }, arcs := [(9, { a with slot := 4, decl := some 0 })], tiles := [(0, { v := [(2, 77)] })]
    graphs := [(4, { image := { arcs := [{ src := .none, dst := .actor 0 0 }], copies := [{ queue := 0, src := 8, dst := 16, words := 3, actor := 0, port := 1 }] }, copies := [{}], tags := [9] })]
    ctxs := [(0, { drawn := [1] })] }

theorem witness_SpawnsAndKicks :
    let arc : Arc := { dst := .tile 0 1, cap := 2 }
    let q : Seq := { s := threeRegs 64 0 0, tvec := 0x800 }
    let t := spawnState (.tile 0) q arc
    let n := spawnState (.seq 0) q arc
    let drawn : State := { n with ops := [(3, { kind := .colour 9 5, cur := { unit := .seq 0 } })], opCount := 4 }
    let served : State := { n with ops := [(3, { kind := .colour 9 5, cur := { unit := .seq 0 }, served := true, got := 2 })], seqs := [(0, { q with run := .spawn 3 })] }
    let kick := spawnState (.seq 0) q { arc with kind := .queue, dst := .copy 0 }
    isSpawnArc n 9 = true ∧
      goes (execSpawn 5 2 9 t) (fun u => (u.tile 0).pend.map (fun p => (p.left, p.op)) == [(32, some 0)] && (u.ctx 0).draws == [0]) = true ∧
      goes (execSpawn 5 1 9 n) (fun u => (u.seq 0).run == .spawn 0 && (u.ctx 0).draws == [0]) = true ∧
      goes (execSpawn 5 1 9 served) (fun u => regOf (u.seq 0).s 5 == 2 && (u.seq 0).pc == 8 && u.ops.isEmpty) = true ∧
      goes (execColourDraw 3 drawn) (fun u => (u.ctx 0).drawn == [2, 1] && (u.arc? 9).any fun a => a.transit.map Token.colour == [2]) = true ∧
      goes (execCkick 1 9 kick) (fun u => (u.arc? 9).any fun a => a.transit.map Token.payload == [64]) = true ∧
      goes (execCkick 1 4095 kick) (fun u => (u.ctx 0).hostArc == [64]) = true ∧
      goes (execCarm 0 9 kick) (fun u => (copyAt u 0 4 0).armed && (copyAt u 0 4 0).words == 3) = true := by
  decide +kernel

/-- `carm` with a descriptor at 0x40 of a page of the TLB: eight words from 0x100 to 0x200, and an odd endpoint. -/
theorem witness_SpawnsAndKicks_descriptor :
    let leaf : Word := BitVec.ofNat 64 (2 ^ 60 + 2 ^ 53 + 3 * 2 ^ 16)
    let base := fun src : Nat => { spawnState (.seq 0) { s := threeRegs 64 0 0, tvec := 0x800 } { kind := .queue, dst := .copy 0 } with
      xlats := [(0, { tlb := [{ ctx := 0, va := 0, size := 65536, leaf := leaf, leafAt := 0 }] })], mem := writeLE [] 0x30040 20 (src + 0x200 * 2 ^ 64 + 8 * 2 ^ 128) }
    streamHeld (base 0x100) 0 (.seq 0) = false ∧ walkAhead (base 0x100) 0 = none ∧ underTest (base 0x100) 0x30040 = none ∧
      underTest { base 0x100 with dies := [(0, { testing := [0] })] } 0x30040 = some 0 ∧
      tlbFind (base 0x100) (dieOfSeq 0) 0 64 = some { ctx := 0, va := 0, size := 65536, leaf := leaf, leafAt := 0 } ∧ Leaf.rd leaf = true ∧
      goes (execCarm 1 9 (base 0x100)) (fun u => (copyAt u 0 4 0).armed && (copyAt u 0 4 0).src == 0x100 && (copyAt u 0 4 0).dst == 0x200 && (copyAt u 0 4 0).words == 8) = true ∧
      goes (execCarm 1 9 (base 0x101)) (fun u => caught u == (0x40, 6, 0x800)) = true := by
  decide +kernel

/-! ## Witnesses: traps -/

theorem witness_TrapInstructions :
    let q : Seq := { s := threeRegs 0x40 0x41 16, tvec := 0x800, pc := 0x100, loops := [(1, { count := 5 })] }
    let s := onUnit 33 q
    let h := onUnit 33 { q with trap := true, handling := .raised, tcause := 7, tepc := 0x108, shadow := [(1, { count := 5 })] }
    (s.cur.unit = .seq 33) ∧
      goes (execTrap 0x123 s) (fun u => (u.seq 33).pc == 0x800 && (u.seq 33).tepc == 0x108 && (u.seq 33).tinfo == 0x123 && (u.seq 33).trap && (u.seq 33).loops.isEmpty) = true ∧
      goes (execTrap 0x123 h) (fun u => (u.seq 33).run == .forwarded .raised false && (u.seq 385).queue.map TrapReq.cause == [0x2307]) = true ∧
      goes (execTret h) (fun u => (u.seq 33).pc == 0x108 && !(u.seq 33).trap && (u.seq 33).loops == [(1, { count := 5 })]) = true ∧
      goes (execTret { h with seqs := [(33, { h.seq 33 with behind := some (0x108, 0x180) })] }) (fun u => (u.seq 33).pc == 0x180) = true ∧
      goes (execTret s) (fun u => (u.seq 33).tcause == 1 && (u.seq 33).tinfo == 3) = true ∧
      goes (execMtsr 1 4 s) (fun u => (u.ctx 0).seed == 0x40) = true ∧ goes (execMtsr 1 5 (onUnit 396 q)) (fun u => (u.seq 396).ctxid == 0) = true ∧
      goes (execMtsr 1 5 s) (fun u => (u.seq 33).tcause == 6) = true ∧ goes (execMtsr 1 8 s) (fun u => (u.seq 33).tvec == 0x40) = true ∧
      goes (execMtsr 2 0xC s) (fun u => (u.seq 33).tcause == 2 && (u.seq 33).tinfo == 0x41) = true ∧ goes (execMtsr 3 0xD h) (fun u => (u.seq 33).skip) = true ∧
      goes (execMtsr 1 0x1B s) (fun u => (mget {} (u.seq 33).loops 3).count == 0x40) = true := by
  decide +kernel

theorem witness_OwnFaults :
    let s := onUnit 33 { tvec := 0x800, pc := 0x100 }
    let bare := onUnit 33 { pc := 0x100 }
    let twice := onUnit 33 { tvec := 0x800, pc := 0x900, trap := true }
    let die := onUnit 385 { tvec := 0x800, pc := 0x900, trap := true }
    (ownFault 33 2 9 s).seq 33 = { tvec := 0x800, pc := 0x800, tepc := 0x100, tcause := 2, tinfo := 9, twhere := s.seqLoc 33, trap := true, handling := .own, back := .off, run := .run, ready := 3 } ∧
      ((ownFault 33 2 9 bare).seq 33).run = .forwarded .own false ∧ ((ownFault 33 2 9 bare).seq 385).queue.map TrapReq.cause = [2] ∧
      ((ownFault 33 2 9 twice).seq 385).queue.map TrapReq.dbl = [true] ∧ ((ownFault 385 2 9 die).seq 385).run = .stopped ∧
      (ownFault 385 2 9 die).events.map (fun e => (e.w0.toNat / 2 ^ 56, e.w1)) = [(0x84, 9)] := by
  decide +kernel

/-- Tile 0 of region 0 holds a report; unit 0 is in its handler for it. -/
theorem witness_ReportsAndTraps :
    let r : Report := { code := 0x14, info := 5, loc := 6, entry := some 3 }
    let base : State := { onUnit 0 {} with tiles := [(0, { region := some 0 })], regions := [(0, { rstate := 0, tiles := [0], inPhase := true })] }
    let held : State := { base with
      tiles := [(0, { region := some 0, reports := [r] })], regions := [(0, { rstate := 3, tiles := [0], inPhase := true })]
      seqs := [(0, { tvec := 0x800, pc := 0x900, tepc := 0x100, trap := true, handling := .report 0 })] }
    let idle := onUnit 0 { tvec := 0x800, pc := 0x100, run := .idle, refused := [{ cause := 0x30, info := 1, loc := 2, kind := .completion 4 }], queue := [{ cause := 0x14, info := 1, loc := 2, kind := .report 0 }] }
    let only := onUnit 0 { tvec := 0x800, pc := 0x100, run := .cwait 3, queue := [{ cause := 0x14, info := 1, loc := 2, kind := .report 0 }] }
    ((tileReport 0 r base).regionAt 0).rstate = 3 ∧ ((tileReport 0 r base).tile 0).reports = [r] ∧
      goes (execTileFaultReport 0 held) (fun u => (u.seq 0).queue.map TrapReq.cause == [0x14]) = true ∧
      goes (execTrapEntry 0 idle) (fun u => (u.seq 0).tcause == 0x30 && (u.seq 0).tepc == 0x108 && (u.seq 0).cmpl) = true ∧
      goes (execSeqCompletionFault 0 idle) (fun u => (u.seq 0).tcause == 0x30 && (u.seq 0).queue.length == 1) = true ∧
      goes (execTrapEntry 0 only) (fun u => (u.seq 0).tcause == 0x14 && (u.seq 0).tepc == 0x100 && (u.seq 0).queue.isEmpty) = true ∧
      goes (execTret held) (fun u => (u.tile 0).reports.isEmpty && (u.regionAt 0).rstate == 2 && (u.seq 0).pc == 0x100) = true ∧
      goes (execTret { held with regions := [(0, { held.regionAt 0 with reloading := true })] }) (fun u => (u.regionAt 0).rstate == 4) = true := by
  decide +kernel

/-- Unit 0 behind a `ramo` at 0x40 whose answer is a LINK, with the `ramo` still on record. -/
theorem witness_ReportsAndTraps_behind :
    let s : State := { onUnit 0 { tvec := 0x800, pc := 0x100, run := .run, refused := [{ cause := 0x70, info := 1, loc := 2, kind := .completion 4 }] } with
      ops := [(4, { kind := .walk, cur := { unit := .seq 0 }, pc := 0x40 })] }
    goes (execTrapEntry 0 s) (fun u => (u.seq 0).tepc == 0x40 && (u.seq 0).behind == some (0x40, 0x100) && !(u.seq 0).cmpl && (u.seq 0).pc == 0x800) = true := by
  decide +kernel

/-! ## Witnesses: contexts -/

/-- A leaf of 1 GiB at physical 0, readable and writable and pinned, and a table entry for the table at `pa`. -/
def leafGiB : Nat := 2 ^ 60 + 2 * 2 ^ 58 + 2 ^ 57 + 2 ^ 54 + 2 ^ 53
def tableAt (pa : Nat) : Nat := 6 * 2 ^ 60 + pa

/-- A table at 0x40000000 that maps the first GiB of a context to physical 0 in three levels: sixteen leaf entries at level 1. -/
def tables : Memory :=
  (List.range 16).foldl (fun m i => writeLE m (0x40004000 + 8 * i) 8 leafGiB)
    (writeLE (writeLE [] 0x40000000 8 (tableAt 0x40002000)) 0x40002000 8 (tableAt 0x40004000))

/-- Unit `n` works for context 2, whose save area is at 0x100000 of its space; context 3 likewise. -/
def ctxState (n a b : Nat) (x : Ctx) (q : Seq) : State :=
  let y : Ctx := { x with ptroot := 0x40000000, saveBase := 0x100000, saveSize := 2 ^ 24 }
  { onUnit n { q with s := threeRegs a b 0, ctxid := 2, tvec := 0x800, run := if q.run == .off then .run else q.run } with
    pcyc := 100, ctxs := [(2, y), (3, y)], mem := tables }

/-- The same with a cellar descriptor at the start of its save area: 64 MiB on another package, two snapshots kept. -/
def snapState (n a b : Nat) (x : Ctx) (q : Seq) : State :=
  { ctxState n a b x q with mem := writeLE tables 0x100000 24 (256 + 2 * 4096 + 2 ^ 26 * 2 ^ 128) }

theorem witness_ContextInstructions :
    let act : Ctx := { state := .active }
    let done : Ctx := { state := .saved, saved := some {} }
    (match clearValid 3 (ctxState 396 3 0 act {}) with | .ok _ _ => true | _ => false) = true ∧
      goes (execCsave 1 (ctxState 396 3 0 act {})) (fun u => (u.seq 396).run == .csave 3 && (u.ctx 3).state == .halting && u.agenda == [(500, .haltPoint 3)]) = true ∧
      goes (execCsave 1 (ctxState 396 (3 + 256) 0 act {})) (fun u => (u.ctx 3).state == .draining && (u.ctx 3).drainSave) = true ∧
      goes (execCsave 1 (ctxState 396 3 0 done { run := .csave 3 })) (fun u => (u.seq 396).run == .run && (u.seq 396).pc == 8) = true ∧
      goes (execCload 1 (ctxState 396 3 0 done {})) (fun u => (u.ctx 3).state == .restoring && u.agenda.map Prod.snd == [.restorePulse 3]) = true ∧
      goes (execCload 1 (ctxState 396 3 0 act { run := .cload 3 })) (fun u => (u.seq 396).pc == 8) = true ∧
      goes (execCsave 1 (ctxState 3 3 0 act {})) (fun u => (u.seq 3).tcause == 8 && (u.seq 3).tinfo == 3) = true ∧
      goes (execPgfence 0 (ctxState 3 3 0 act {})) (fun u => (u.seq 3).pc == 8) = true ∧
      goes (execPginv 1 2 5 { ctxState 3 0x20000 16 act {} with xlats := [(0, { tlb := [{ ctx := 2, va := 0x20000, size := 65536, leaf := 0, leafAt := 0 }, { ctx := 3, va := 0x20000, size := 65536, leaf := 0, leafAt := 0 }] })] })
        (fun u => (u.xlat 0).tlb.map TlbEntry.ctx == [3]) = true ∧
      goes (execPgstat 5 1 (ctxState 3 (2 ^ 56) 0 act {})) (fun u => regOf (u.seq 3).s 5 == 0x2000) = true := by
  decide +kernel

/-- A `pginv` and a `pgfence` of scope 5 where a graph of the context stands on rank 5 too, one whose answer is still out, and a `pgstat`
behind the walk of an earlier one. -/
theorem witness_ContextInstructions_ranked :
    let act : Ctx := { state := .active }
    let wide := fun (x : Ctx) (q : Seq) => { ctxState 3 0x20000 16 x q with
      ranks := [(5, BitVec.ofNat 64 (2 ^ 62 + 4))], graphs := [(512, { image := { ranks := [(0, 5)] } })] }
    let busy := { ctxState 3 0 0 act {} with ops := [(7, { kind := .walk, stream := .seq 3, cur := { unit := .seq 3 }, dst := some 4 })] }
    scopeRanks (wide act {}) 2 5 = [5] ∧ scopeRanks (wide act {}) 2 4 = [] ∧ walkAhead busy 3 = some 7 ∧
      goes (execPginv 1 2 5 (wide act {})) (fun u => (u.seq 3).run == .pginv (some []) && (u.ctx 2).awaited == [(3, 5)]) = true ∧
      goes (execPgfence 5 (wide act {})) (fun u => (u.seq 3).run == .pgfence (some []) && (u.ctx 2).awaited == [(3, 5)]) = true ∧
      goes (execPgfence 5 (wide act { run := .pgfence (some []) })) (fun u => (u.seq 3).run == .run && (u.seq 3).pc == 8) = true ∧
      goes (execPgstat 5 1 busy) (fun u => (u.seq 3).run == .xlat 7) = true := by
  decide +kernel

theorem witness_ContextInstructions_snapshots :
    let act : Ctx := { state := .active }
    let sealed : Snap := { id := 7, state := .sealed, inventory := 0x5555, seed := 99 }
    let busy : Ctx := { state := .active, snaps := [sealed, { id := 8, state := .sealing }] }
    let one : Ctx := { state := .active, snaps := [sealed], rbvec := 0x700 }
    let snapped := fun (s : State) (id : Nat) => (descriptorRead 3 s 2).map fun w => snapRefusal w.2 2 id 4 w.1
    let rolled := fun (s : State) (n : Nat) => (descriptorRead n s 2).map fun w => rollbRefusal (adoptStored 2 w.1 w.2) n 2 7 w.1
    snapped (snapState 3 0 0 act {}) 9 = some 0 ∧ snapped (snapState 3 0 0 act {}) 0 = some 1 ∧ snapped (snapState 3 0 0 busy {}) 9 = some 2 ∧ snapped (ctxState 3 0 0 act {}) 9 = some 7 ∧
      rolled (snapState 396 7 0 one {}) 396 = some 0 ∧ rolled (snapState 3 7 0 one {}) 3 = some 4 ∧
      goes (execSnap 9 4 (snapState 3 0 0 act {})) (fun u => (u.ctx 2).snaps.map Snap.id == [9] && u.agenda == [(500, .snapOpenPoint 2)]) = true ∧
      goes (execSnap 9 5 (snapState 3 0 0 act {})) (fun u => u.agenda == [(860, .snapOpenPoint 2)]) = true ∧
      goes (execSnap 0 4 (snapState 3 0 0 act {})) (fun u => (u.seq 3).tcause == 0x60 && (u.seq 3).tinfo == 1) = true ∧
      goes (execSnapq 5 1 (ctxState 3 7 0 one {})) (fun u => regOf (u.seq 3).s 5 == 0x6000038000000000) = true ∧
      goes (execSnapq 5 1 (ctxState 3 (65536 + 7) 0 one {})) (fun u => regOf (u.seq 3).s 5 == 0x5555) = true ∧
      goes (execSnapw 1 (ctxState 3 7 0 one {})) (fun u => (u.seq 3).pc == 8) = true ∧ goes (execSnapw 1 (ctxState 3 8 0 busy {})) (fun u => (u.seq 3).run == .snapw 8) = true ∧
      goes (execRollb 1 (snapState 396 7 0 one {})) (fun u => (u.seq 396).run == .rollb 2 && (u.ctx 2).state == .rolling) = true ∧
      goes (execRollb 1 (snapState 396 7 0 { one with state := .rolling, rolling := some 7 } { run := .rollb 2 })) (fun u => (u.seq 396).pc == 0x700 && (u.ctx 2).seed == 99 && (u.ctx 2).snapid == 7) = true ∧
      (match readRecords 2 sealed (snapState 396 7 0 { one with state := .rolling, rolling := some 7 } { run := .rollb 2 }) with | .ok _ _ => true | _ => false) = true ∧
      (match readRecords 2 sealed (snapState 396 7 0 { one with state := .rolling, rolling := some 7, cellarBad := true } { run := .rollb 2 }) with
        | .fault _ => true | _ => false) = true ∧
      goes (execRollb 1 (snapState 396 7 0 { one with state := .rolling, rolling := some 7, cellarBad := true } { run := .rollb 2 })) (fun u => (u.ctx 2).state == .lost) = true ∧
      goes (execRollb 1 (snapState 3 7 0 one {})) (fun u => (u.seq 3).tcause == 0x60 && (u.seq 3).tinfo == 4) = true := by
  decide +kernel

theorem witness_ContextInstructions_ranks :
    let self := 2 ^ 61
    let s : State := { ctxState 396 5 (self + 1) {} {} with ranks := [(4, BitVec.ofNat 64 (self + 2))] }
    rksetRefusal s 396 5 (BitVec.ofNat 64 (self + 1)) = 0 ∧ rksetRefusal s 3 5 0 = 2 ∧ rksetRefusal s 396 4 1 = 3 ∧
      goes (execRkset 1 2 s) (fun u => mfind u.ranks 5 == some (BitVec.ofNat 64 (self + 1)) && mfind u.ranks 4 == some 2) = true ∧
      goes (execRkset 1 2 { s with cur := { unit := .seq 3 }, seqs := [(3, { s := threeRegs 5 0 0, tvec := 8, run := .run })] }) (fun u => (u.seq 3).tcause == 0x72 && (u.seq 3).tinfo == 2) = true ∧
      goes (execRkget 5 1 { s with seqs := [(396, { s := threeRegs 4 0 0 })] }) (fun u => regOf (u.seq 396).s 5 == BitVec.ofNat 64 (self + 2)) = true := by
  decide +kernel

/-! ## Witnesses: regions in time -/

/-- Tile 0 alone in region 0 of the graph in slot 0, whose mode has phases of 40 and 20 cycles, with its list in force. -/
def regionState (r : Region) (x : Tile) : State :=
  { onTileAt 0 0 { x with region := some 0, active := some { ctx := 0, slot := 0, mode := 0, list := 0, entries := [], table := [(0, 0), (0, 0)] } } with
    pcyc := 50, regions := [(0, { r with tiles := [0], phases := [40, 20] })], graphs := [(0, { state := .running, lists := [(0, .active)] })] }

/-- A load that has and one that has not been served. -/
def loadOp (served : Bool) : Op := { kind := .nearLoad, cur := { unit := .tile 0, entry := 2, stamp := 9 }, served := served, usable := 40, got := 77 }

theorem witness_RegionsInTime :
    let due := regionState {} { pend := [{ left := 0, order := 1, res := .scalar 3 5 }, { left := 2, order := 2, res := .scalar 4 5 }] }
    let wait := fun (b : Bool) => { regionState { rstate := 0 } { pend := [{ left := 0, order := 1, res := .scalar 3 0, op := some 6 }] } with ops := [(6, loadOp b)] }
    goes (execResultWriteback 0 due) (fun u => (u.tile 0).s == [(3, 5)] && (u.tile 0).pend.length == 1) = true ∧
      goes (execResultWriteback 0 (wait true)) (fun u => (u.tile 0).s == [(3, 77)] && u.ops.isEmpty) = true ∧
      goes (execNearResultLate 0 0 0 (wait false)) (fun u => (u.regionAt 0).rstate == 2 && (u.regionAt 0).waiting == some { why := .nearLate, tile := 0, entry := 2, stamp := 9 }) = true ∧
      goes (execRegionResume 0 0 0 (regionState { rstate := 2, wcnt := 5 } {})) (fun u => (u.regionAt 0).rstate == 0 && (u.regionAt 0).wcnt == 0) = true := by
  decide +kernel

/-- A region at the start of its first phase whose input port declares one token, with and without it; the port is at its last cycle with
and without its token counted; and a watchdog at its limit. -/
theorem witness_RegionsInTime_phases :
    let port : Port := { arc := some 9, rate := [1, 0] }
    let held := fun (w : List Token) => { regionState { rstate := 1, checked := true } { inPorts := [(2, port)] } with arcs := [(9, { window := w, src := .tile 5 0, dst := .tile 0 2, cap := 4 })] }
    let last := fun (n : Nat) => { regionState { rstate := 0, inPhase := true, cyc := 40 } { inPorts := [(2, { port with count := n })] } with arcs := [(9, { src := .tile 5 0, dst := .tile 0 2, cap := 4 })] }
    let stuck := regionState { rstate := 2, inPhase := true, wdog := 1, wcnt := 257, waiting := some { why := .popWait, port := 2, tag := 9, tile := 0 } } {}
    ((held []).regionAt 0).inPhase = false ∧ (runningList (held []) 0).isSome = true ∧ (last 1).arcs.length = 1 ∧ actorDone (last 1) { ctx := 0, slot := 0, mode := 0, list := 0, entries := [], table := [] } 0 = false ∧
      goes (execPhaseStart 0 0 0 (held [tok .data 1 5])) (fun u => (u.regionAt 0).rstate == 0 && (u.regionAt 0).inPhase) = true ∧
      goes (execPhaseStart 0 0 0 (held [])) (fun u => (u.regionAt 0).rstate == 1 && !(u.regionAt 0).inPhase) = true ∧
      goes (execPhaseEnd 0 0 0 (last 1)) (fun u => (u.regionAt 0).phase == 1 && (u.regionAt 0).rstate == 1 && ((u.tile 0).inPorts.map fun e => e.2.count) == [0]) = true ∧
      goes (execPhaseEnd 0 0 0 (last 0)) (fun u => (u.regionAt 0).rstate == 3 && (u.tile 0).reports.map Report.code == [0x10]) = true ∧
      goes (execStall 0 0 0 stuck) (fun u => (u.regionAt 0).rstate == 3 && (u.tile 0).reports.map Report.code == [0x12]) = true := by
  decide +kernel

/-! ## Witnesses: engines -/

/-- An image with one memory actor of a kind: its arcs are 0, out of it or into its port 0, and 1 for its rows, and those of a queue and
of a bound port for a copy template. -/
def engineImage (k : MAKind) : Image :=
  { kernels := [{ ins := [{ num := 0 }], outs := [{ num := 0 }] }]
    arcs := [if k = .source then { src := .mem 0 0, dst := .actor 0 0 } else { src := .actor 0 0, dst := .mem 0 0 }, { src := .none, dst := .template 0, queue := true }]
    mems := [{ kind := k, base := 0, counts := [4], strides := [64], fmt := 2, rowbytes := 64, rows := 8, ordered := true, op := 0 }]
    copies := [{ queue := 1, src := 0x100, dst := 0x200, words := 2, actor := 0, port := 0 }]
    modes := [some { phases := [8], rates := [], regions := [{ lists := [0] }], lists := [{ tile := 0, actors := [0], segs := [] }] }] }

/-- The graph of that image in slot 1 of context 0, RUNNING at tile 0: tag 7 is its arc 0, tag 8 the queue of its template and 7 of
context 64 the bound port; the page at virtual 0 stands at physical 0x20000. -/
def engineState (k : MAKind) (x : MemActor) (f : Template) (w : List Token) : State :=
  { onUnit 396 {} with
    pcyc := 50, ctxs := [(0, { state := .active })]
    graphs := [(1, { state := .running, image := engineImage k, tags := [7, 8], mems := [{ x with bound := true }], copies := [f], placed := [0], lists := [(0, .active)], groups := [{ state := .running, quads := [0] }] })]
    arcs := [(7, { slot := 1, decl := some 0, state := .active, src := if k = .source then .mem 0 0 else .tile 0 0, dst := if k = .source then .tile 0 0 else .mem 0 0, cap := 4, window := w }),
      (8, { slot := 1, decl := some 1, state := .active, kind := .queue, dst := .copy 0, cap := 4, window := w }),
      (boundKey 8, { slot := 1, state := .active, src := .copy 0, dst := .tile 0 0, cap := 64 })]
    mem := writeLE [] 0x40 8 (leafWord true true).toNat
    xlats := [(0, { tlb := [{ ctx := 0, va := 0, size := 65536, leaf := leafWord true true, leafAt := 0x40 }] })] }

theorem witness_EngineSteps :
    let src := engineState .source { base := 0 } {} []
    let reply := { engineState .source { fetching := [(0, 3, none)], next := 1 } {} [] with
      mem := writeLE [] 0x20000 2 0x55, ops := [(4, { kind := .engineRead 0 0, cur := {}, stream := .memActor 1 0, addr := 0x20000 })] }
    let gather := engineState .gather { indices := [2, 3], colour := 5 } {} []
    let sink := engineState .sink {} {} [tok .data 2 0x99]
    let scatter := engineState .scatterAdd { updates := [(0, 7, true)] } {} []
    let dirty : Word := leafWord true true ||| 2 ^ 56
    let tested := { sink with
      dies := [(0, { testing := [0] })], mem := writeLE [] 0x40 8 dirty.toNat
      xlats := [(0, { tlb := [{ ctx := 0, va := 0, size := 65536, leaf := dirty, leafAt := 0x40 }] })] }
    (memDecl src 0 1 0).map MADecl.kind = some .source ∧ memOut src 0 1 0 = some 7 ∧ memIn sink 0 1 0 0 = some 7 ∧
      (tlbFind src (dieOfPos (((Stream.memActor 1 0).tileOf src 0).getD 0)) 0 0).isSome = true ∧ (src.ctx 0).snaps = [] ∧
      goes (execSourceRequest 0 1 0 src) (fun u => (memAt u 0 1 0).next == 1 && u.opCount == 1 && (mfind u.ops 0).any fun o => o.addr == 0x20000) = true ∧
      goes (execDramReply 4 reply) (fun u => (memAt u 0 1 0).tokens == 1 && u.ops.isEmpty && (u.arc? 7).any fun a => a.transit.map Token.payload == [0x55]) = true ∧
      goes (execSourceRequest 0 1 0 gather) (fun u => (memAt u 0 1 0).indices == [3] && (mfind u.ops 0).any fun o => o.addr == 0x20000 + 128) = true ∧
      goes (execSinkWrite 0 1 0 sink) (fun u => readLE u.mem 0x20000 64 == 0x99 && (memAt u 0 1 0).tokens == 1 && (u.arc? 7).any fun a => a.window.isEmpty) = true ∧
      goes (execScatterAddUpdate 0 1 0 scatter) (fun u => readLE u.mem 0x20000 64 == 7 && (memAt u 0 1 0).updates.isEmpty) = true ∧
      goes (execGatherIndexTake 0 1 0 (engineState .gather {} {} [tok .data 0 0xFFFFFFFF])) (fun u => (memAt u 0 1 0).indices.take 2 == [-1, 0]) = true ∧
      (memAt scatter 0 1 0).held = false ∧ (memAt scatter 0 1 0).pause ≤ scatter.pcyc ∧ ctxMoves scatter 0 = true ∧
      underTest { reply with dies := [(0, { testing := [0] })] } 0x20000 = some 0 ∧
      goes (execDramReply 4 { reply with dies := [(0, { testing := [0] })] }) (fun u => (u.die 0).held == [.event (.dramReply 4)]) = true ∧
      underTest sink 0x40 = none ∧ underTest sink 0x20000 = none ∧ underTest tested 0x20000 = some 0 ∧ Leaf.d dirty = true ∧ readEntry tested 0x40 = dirty ∧
      goes (execSinkWrite 0 1 0 tested) (fun u => (u.die 0).held == [.memActor 0 1 0] && (u.arc? 7).any fun a => a.window.length == 1) = true ∧
      goes (execMemoryActorQuiescent 0 1 0 src) (fun u => (memAt u 0 1 0).quiescent) = true := by
  decide +kernel

/-- A token that fires the template, one with an odd offset, and a firing that completes into its bound port. -/
theorem witness_EngineSteps_copies :
    let f : Template := { armed := true, src := 0x100, dst := 0x200, words := 2 }
    let s := fun (v : Nat) => engineState .source {} f [tok .data 0 v]
    let done := engineState .source {} { f with firing := some (4, 8, 2), fsrc := 0x100, fdst := 0x200, fwords := 2 } []
    copyQueue (s 8) 0 1 0 = some 8 ∧ ((Stream.copy 1 0).tileOf (s 8) 0) = some 0 ∧ (done.arc? (boundKey 8)).isSome = true ∧
      goes (execCopyFiring 0 1 0 (s 8)) (fun u => (copyAt u 0 1 0).firing == some (4, 8, 0) && (copyAt u 0 1 0).fwords == 2) = true ∧
      goes (execCopyFiring 0 1 0 (s 9)) (fun u => (copyAt u 0 1 0).firing == none && (copyAt u 0 1 0).held && (u.seq 0).queue.map TrapReq.cause == [0x41]) = true ∧
      goes (execCopyCompletion 0 1 0 done) (fun u => (copyAt u 0 1 0).firing == none && (u.arc? (boundKey 8)).any fun a => a.fresh.map Token.payload == [BitVec.ofNat 512 (2 + 0x108 * 2 ^ 64)]) = true := by
  decide +kernel

/-! ## Witnesses: the steps of a graph -/

/-- An image with one tile, one list of two actors' worth of phases, and a memory actor that nothing needs. -/
def tileImage : Image :=
  { kernels := [{}], tiles := 1, places := [some (0, 0)], groups := [{ parent := none, lists := [0] }]
    modes := [some { phases := [8], rates := [], regions := [{ lists := [0], wdog := 9 }], lists := [{ tile := 0, actors := [0], segs := [[]] }] }] }

/-- The graph of that image in slot 4 of context 0, in a state. -/
def stepState (x : Graph) : State :=
  { onUnit 396 {} with
    pcyc := 9, ctxs := [(0, { state := .active, saveSize := saveBytes 1, seed := 77 })], images := [(0, 0x1000, tileImage)]
    graphs := [(4, { x with handle := 260, va := 0x1000, image := if x.state == .loading then {} else tileImage, groups := if x.groups.isEmpty then [{}] else x.groups })] }

/-- The state of that graph. -/
def stateOf4 (s : State) : Option GraphState := (s.graph? 0 4).map Graph.state

theorem witness_GraphSteps :
    let load := fun v => stepState { state := .loading, verdict := some v }
    let wait := stepState { state := .waiting }
    let narrow := { wait with ctxs := [(0, { state := .active })] }
    let none_ := { wait with badDies := List.range 12 }
    let staging := stepState { state := .staging, groups := [{ state := .bound, quads := [0] }], placed := [0] }
    let issued := fun (told : Bool) (im : Image) (took : List Nat) =>
      { stepState { state := .loading, verdict := some 0, issued := true, told := told, peersTook := took } with images := [(0, 0x1000, im)] }
    let ranked : Image := { tileImage with ranks := [(0, 5)] }
    let bound := fun (im : Image) => { staging with
      graphs := [(4, { (staging.graph? 0 4).getD {} with image := im })] }
    let remote := bound ranked
    let sequenced := bound { tileImage with seqs := [{ grp := 0, va := 0x5000, code := [] }] }
    goes (execGraphLoadComplete 0 4 (load 0)) (fun u => stateOf4 u == some .loaded) = true ∧
      goes (execGraphLoadComplete 0 4 (issued false tileImage [])) (fun u => stateOf4 u == some .loading && u.todo == [.event (.graphLoadComplete 0 4)]) = true ∧
      goes (execGraphLoadComplete 0 4 (issued true tileImage [])) (fun u => stateOf4 u == some .loaded) = true ∧
      goes (execGraphLoadComplete 0 4 (issued true ranked [])) (fun u => stateOf4 u == some .loading && u.agenda == [(10, .graphLoadComplete 0 4)]) = true ∧
      goes (execGraphLoadComplete 0 4 (issued true ranked [5])) (fun u => stateOf4 u == some .loaded) = true ∧
      goes (execGraphLoadComplete 0 4 (load 5)) (fun u => stateOf4 u == some .failed && (u.graph? 0 4).any fun x => x.load == 5) = true ∧
      mustWait wait 0 4 ((wait.graph? 0 4).getD {}) = false ∧ (placeAll wait 0 4 ((wait.graph? 0 4).getD {})).isSome = true ∧
      (placeAll none_ 0 4 ((none_.graph? 0 4).getD {})).isSome = false ∧
      goes (execGraphPlacement 0 4 wait) (fun u => stateOf4 u == some .staging && u.agenda.map Prod.snd == [.stagingComplete 0 4]) = true ∧
      goes (execGraphPlacement 0 4 narrow) (fun u => (u.graph? 0 4).any fun x => x.saveAreaTold && x.state == .waiting) = true ∧
      goes (execGraphPlacement 0 4 none_) (fun u => stateOf4 u == some .waiting && u.agenda.map Prod.snd == [.graphPlacement 0 4]) = true ∧
      goes (execStagingComplete 0 4 staging) (fun u => (u.graph? 0 4).any (fun x => x.groups.map Group.state == [.staged] && x.stagedMode == some 0)) = true ∧
      goes (execStagingComplete 0 4 staging) (fun u => startReady u 0 4 && goes (execStartPulse 0 4 u) fun v => stateOf4 v == some .running &&
        (v.graph? 0 4).any (fun x => x.seed == 77) && (v.regionAt (State.regionKey 0 4 0)).wdog == 9) = true ∧
      ((staging.graph? 0 4).getD {}).isHere 0 = true ∧
      goes (execStagingComplete 0 4 remote) (fun u => goes (execStartPulse 0 4 { u with graphs := u.graphs.map fun e => (e.1, { e.2 with peersReady := [(5, 3)] }) })
        fun v => stateOf4 v == some .running && (mfind v.regions (State.regionKey 0 4 0)).isNone) = true ∧
      ((remote.graph? 0 4).getD {}).isHere 0 = false ∧
      goes (execStagingComplete 0 4 sequenced) (fun v => goes (execStartPulse 0 4 v) fun u => (u.seq 0).run == .run && (u.seq 0).pc == 0x5000) = true ∧
      goes (execModeRequestArrival 0 4 (pointOf 3 0) (stepState { state := .changing })) (fun u => (u.graph? 0 4).any fun x => x.points == [pointOf 3 0]) = true := by
  decide +kernel

/-- Mode requests at a source with a reply on its way and at a template that fires. -/
theorem witness_GraphSteps_points :
    let src := engineState .source { fetching := [(0, 3, none)], next := 1 } {} []
    let tpl := engineState .source {} { firing := some (4, 8, 2) } []
    memOut src 0 1 0 = some 7 ∧ isLive src 7 = true ∧
      goes (execModeRequestArrival 0 1 (pointOf 0 0) src) (fun u => (memAt u 0 1 0).lastToken.isSome) = true ∧
      goes (execModeRequestArrival 0 1 (pointOf 1 0) tpl) (fun u => (copyAt u 0 1 0).stopped) = true := by
  decide +kernel

/-! ## Witnesses: launch records -/

/-- Record 5 of a kind with a handle or tag, and the words that give it. -/
def recordOf (kind handle : Nat) (succ : List Nat) : LaunchRec :=
  { id := 5, kind := kind, irq := false, lat := false, prio := 3, mode := 0, preds := 0, handle := handle, count := 0, arg := 7, succ := succ, readySince := 2 }

def recordBytes (id kind : Nat) : Nat := kind + 3 * 16 + id * 2 ^ 48 + 260 * 2 ^ 64 + (2 ^ 128 - 1) * 2 ^ 256

/-- Context 0 with a ring of which one record, at physical 0x20000, is not read yet; the record 5 unfinished. -/
def ringState (x : Ctx) (g : GraphState) (r : LaunchRec) : State :=
  { stepState { state := g } with
    ctxs := [(0, { x with state := .active, saveSize := saveBytes 1, tail := 1, records := [r] })]
    mem := writeLE [] 0x20000 64 (recordBytes 9 3)
    arcs := [(7, { slot := 4, kind := .queue, dst := .copy 0, cap := 1 }), (8, { slot := 4, dst := .tile 0 0, cap := 1 })]
    xlats := [(0, { tlb := [{ ctx := 0, va := 0, size := 65536, leaf := leafWord true true, leafAt := 0x40 }] })] }

theorem witness_LaunchSteps :
    let s := fun (k h : Nat) (g : GraphState) => ringState {} g (recordOf k h [6, 0xFFFF])
    let read := s 3 0 .loaded
    (read.ctx 0).canRead = true ∧ tlbFind read 0 0 0 = some { ctx := 0, va := 0, size := 65536, leaf := leafWord true true, leafAt := 0x40 } ∧ underTest read 0x20000 = none ∧
      slotOf read 0 260 = some 4 ∧ slotOf read 0 261 = none ∧ recordAt read 0 5 = some (recordOf 3 0 [6, 0xFFFF]) ∧
      goes (execLaunchRecordRead 0 read) (fun u => (u.ctx 0).records.map LaunchRec.id == [5, 9] && (u.ctx 0).readPtr == 1 && u.recordAt == some 9) = true ∧
      goes (execLaunchRecordRead 0 { read with recordAt := some 9 }) (fun u => u.agenda == [(10, .launchRecordRead 0)]) = true ∧
      goes (execLaunchRecordRead 0 { read with xlats := [] }) (fun u => (mfind u.ops 0).any fun o => o.stream == .ring) = true ∧
      goes (execLaunchRecordRead 0 (ringState { ringBase := 2 ^ 56 } .loaded (recordOf 3 0 []))) (fun u => (u.ctx 0).ringStop) = true ∧
      goes (execRecordRun 0 5 (s 0 260 .idle)) (fun u => stateOf4 u == some .waiting && (u.graph? 0 4).any fun x => x.record == some 5 && x.prio == 3) = true ∧
      goes (execRecordRun 0 5 (s 0 260 .running)) (fun u => recordAt u 0 5 == none && stateOf4 u == some .changing) = true ∧
      goes (execRecordRun 0 5 (s 0 260 .waiting)) (fun u => recordAt u 0 5 == none && stateOf4 u == some .waiting) = true ∧
      goes (execRecordRun 0 5 (s 0 260 .draining)) (fun u => recordAt u 0 5 == none && stateOf4 u == some .draining) = true ∧
      goes (execRecordMode 0 5 (s 2 260 .running)) (fun u => stateOf4 u == some .changing) = true ∧
      goes (execRecordMode 0 5 (s 2 260 .loaded)) (fun u => stateOf4 u == some .loaded && (recordAt u 0 5).any LaunchRec.acting) = true ∧
      goes (execRecordUnload 0 5 (s 4 260 .loaded)) (fun u => (u.graph? 0 4).isNone && u.todo == [.event (.recordFinish 0 5)]) = true ∧
      goes (execRecordKick 0 5 (s 1 7 .running)) (fun u => (u.arc? 7).any (fun a => a.transit.map Token.payload == [7]) && (recordAt u 0 5).any fun r => r.place == 1) = true ∧
      goes (execRecordKick 0 5 (s 1 8 .running)) (fun u => recordAt u 0 5 == none) = true ∧ goes (execRecordKick 0 5 (s 1 9 .running)) (fun u => recordAt u 0 5 == none) = true ∧
      goes (execRecordKick 0 5 (s 1 4095 .running)) (fun u => (u.ctx 0).hostArc == [7] && (recordAt u 0 5).any LaunchRec.acting) = true ∧
      underTest { read with dies := [(0, { testing := [0] })] } 0x20000 = some 0 ∧
      goes (execLaunchRecordRead 0 { read with dies := [(0, { testing := [0] })] }) (fun u => (u.die 0).held == [.event (.launchRecordRead 0)]) = true ∧
      goes (execRecordNote 0 5 read) (fun u => u.todo == [.event (.recordFinish 0 5)]) = true ∧
      goes (execRecordFinish 0 5 read) (fun u => recordAt u 0 5 == none && mget 0 (u.ctx 0).kept 6 == 1) = true := by
  decide +kernel

/-! ## Witnesses: pre-emption -/

/-- Context 0 in a state, with its save area in a page of 1 GiB whose translation the TLB of die 0 holds, D set; its graph in a state. -/
def saveState (x : Ctx) (g : Graph) : State :=
  { stepState g with
    pcyc := 900, ctxs := [(0, { x with saveBase := 0x100000, saveSize := saveBytes 1 })], regions := [(State.regionKey 0 4 0, { rstate := 2, tiles := [0], wcnt := 8 })]
    xlats := [(0, { tlb := [{ ctx := 0, va := 0, size := 2 ^ 30, leaf := BitVec.ofNat 64 (leafGiB + 2 ^ 56), leafAt := 0x40 }] })] }

theorem witness_PreemptionSteps :
    let halting := saveState { state := .halting, haltAt := some 800 } { state := .running, groups := [{ state := .running }] }
    let drained := saveState { state := .draining, drainSave := true } { state := .idle }
    let back := fun (d : Bool) => saveState { state := .restoring, saved := some { drain := d } } { state := .idle }
    let spread := fun (x : Ctx) (gs : List (Nat × Graph)) => saveState { x with state := .restoring, saved := some { graphs := (4, { image := { ranks := [(0, 5)] } }) :: gs } } { state := .idle }
    let full := { saveState { state := .restoring, saved := some { graphs := [(4, { handle := 260 })] } } { state := .saved } with badDies := List.range 12 }
    let k := State.regionKey 0 4 0
    haltSettled halting 0 = true ∧ (match endSave 0 900 { drain := true } drained with | .ok _ _ => true | _ => false) = true ∧
      (match endSave 0 900 { drain := true } { drained with xlats := [] } with | .fault _ => true | _ => false) = true ∧
      (match readArea 0 { drain := true } (back true) with | .ok _ _ => true | _ => false) = true ∧
      goes (execHaltPoint 0 halting) (fun u => (u.regionAt k).wcnt == 0) = true ∧
      goes (execSaveComplete 0 halting) (fun u => (u.ctx 0).state == .saved && stateOf4 u == some .saved) = true ∧
      goes (execDrainComplete 0 drained) (fun u => (u.ctx 0).state == .saved) = true ∧
      goes (execDrainComplete 0 { drained with xlats := [] }) (fun u => (u.ctx 0).state == .lost) = true ∧
      goes (execRestorePulse 0 (back true)) (fun u => (u.ctx 0).state == .ready) = true ∧
      goes (execRestorePulse 0 (back false)) (fun u => (u.ctx 0).saved.isNone) = true ∧
      goes (execRestorePulse 0 (spread {} [])) (fun u => (u.ctx 0).placedAt == some 900 && u.agenda.map Prod.fst == [901]) = true ∧
      (placeAllSaved 0 [(4, { handle := 260 })] full).isNone = true ∧
      goes (execRestorePulse 0 full) (fun u => (u.ctx 0).saved.isSome && u.agenda.length == 1) = true ∧
      (Saved.spans { graphs := [(4, { handle := 260 })] }) = false ∧
      goes (execRestorePulse 0 (spread { placedAt := some 900 } [])) (fun u => u.agenda == [(901, .restorePulse 0)]) = true ∧
      goes (execRestorePulse 0 (spread { placedAt := some 890, peersPlaced := [(5, 895)] } []))
        (fun u => (u.ctx 0).pulseAt == some 1408 && u.agenda == [(1408, .restorePulse 0)]) = true ∧
      goes (execRestorePulse 0 (spread { placedAt := some 900, pulseAt := some 950 } [])) (fun u => u.agenda == [(950, .restorePulse 0)]) = true ∧
      goes (execRestorePulse 0 (spread { placedAt := some 900, pulseAt := some 900 } [])) (fun u => (u.ctx 0).saved.isNone) = true ∧
      goes (execConfigStoreError 0 4 0 0 halting) (fun u => (u.tile 0).slow == 8) = true ∧
      goes (execConfigStoreError 0 4 0 1 halting) (fun u => (u.regionAt k).rstate == 4 && (u.regionAt k).reloading) = true ∧
      goes (execConfigReloadComplete 0 4 0 0 { halting with regions := [(k, { rstate := 4, tiles := [0], reloading := true, inPhase := true })] }) (fun u => (u.regionAt k).rstate == 2) = true ∧
      goes (execConfigReloadComplete 0 4 0 4 halting) (fun u => (u.tile 0).reports.map (fun r => (r.code, r.info)) == [(0x16, 3)]) = true := by
  decide +kernel

/-! ## Witnesses: the steps of snapshots and rollbacks -/

/-- A table of four levels at 0x10000 whose first page of 64 KiB has the entry `e`, at 0x40000. -/
def onePage (e : Nat) : Memory :=
  writeLE (writeLE (writeLE (writeLE [] 0x10000 8 (tableAt 0x20000)) 0x20000 8 (tableAt 0x30000)) 0x30000 8 (tableAt 0x40000)) 0x40000 8 e

/-- An entry of a page at 0x50000: RESIDENT, readable, with W, S and D. -/
def pageEntry (w sb d : Bool) : Nat := 2 ^ 60 + 2 ^ 53 + bit w * 2 ^ 54 + bit sb * 2 ^ 55 + bit d * 2 ^ 56 + 0x50000

/-- Context 0 with that page, its cellar of 1 MiB on package 1, and a snapshot 7 in a state. -/
def cellarState (x : Ctx) (e : Nat) (st : SnapState) : State :=
  { onUnit 396 {} with
    mem := onePage e, ranks := [(1, BitVec.ofNat 64 (2 ^ 62 + 8))], links := [(3, { state := .up })]
    ctxs := [(0, { x with state := .active, ptroot := 0x10000, saveBase := 2 ^ 40, saveSize := 2 ^ 20, seed := 9
                          cellar := { csize := 2 ^ 20, keep := 2, place := 1, peer := 1 }, snaps := [{ id := 7, state := st }] })] }

/-- The snapshots of context 0. -/
def snaps0 (s : State) : List (Nat × SnapState × Nat) := (s.ctx 0).snaps.map fun p => (p.id, p.state, p.pages.length)

theorem witness_SnapshotSteps :
    let sweeping := fun (e : Nat) => cellarState { pol := true, sweep := some 0 } e .opened
    goes (execSnapOpenPoint 0 (cellarState {} 0 .requested)) (fun u => (u.ctx 0).pol && snaps0 u == [(7, .opened, 0)] && (u.ctx 0).sweep == some 0) = true ∧
      goes (execSweeperVisit 0 (sweeping (pageEntry false false false))) (fun u => (u.ctx 0).sweep == some 65536) = true ∧
      goes (execSweeperVisit 0 (sweeping (pageEntry true false true + 2 ^ 15))) (fun u => (u.ctx 0).sweep == some 0 && u.agenda.length == 1) = true ∧
      goes (execSweeperVisit 0 (sweeping (pageEntry true false true + 2 ^ 60))) (fun u => u.todo == [.event (.snapshotFail 0 3)]) = true ∧
      goes (execSweeperVisit 0 (sweeping (pageEntry true false true))) (fun u => snaps0 u == [(7, .opened, 1)] && readEntry u 0x40000 == BitVec.ofNat 64 (pageEntry true true false)) = true ∧
      goes (execSweeperVisit 0 { sweeping (pageEntry true false true) with xlats := [(0, { nodeBad := true })] }) (fun u => u.todo == [.event (.snapshotFail 0 3)]) = true ∧
      goes (execSweeperVisit 0 { sweeping (pageEntry true false true) with dies := [(0, { testing := [0] })] }) (fun u => (u.ctx 0).sweep == some 0 && u.agenda.length == 1) = true ∧
      peerReached (sweeping 0) 0 = true ∧ underTest (sweeping 0) 0x50000 = none ∧ ((sweeping 0).xlat 0).nodeBad = false ∧ ((sweeping 0).ctx 0).cellarBad = false ∧
      goes (execSweeperVisit 0 { sweeping 0 with mem := [] }) (fun u => (u.ctx 0).sweep == none) = true := by
  decide +kernel

theorem witness_SnapshotSteps_seal :
    let s := cellarState { pol := true } (pageEntry true true false)
    let full := { s .sealing with ctxs := [(0, { (s .sealing).ctx 0 with cellarUsed := [(0, 2 ^ 20)] })] }
    let r : PageRec := { vpn := 0, size := 0, holder := 7, coff := 0x20000 }
    let back := { s .sealed with ctxs := [(0, { (s .sealed).ctx 0 with copyBack := [r], state := .rolling })] }
    canSeal (s .opened) 0 = true ∧ cellarSlot ((s .sealing).ctx 0) 65536 = some 0 ∧ cellarSlot (full.ctx 0) 65536 = none ∧ back.peerMem.wf = true ∧
      goes (execSnapshotSealing 0 (s .opened)) (fun u => snaps0 u == [(7, .sealing, 0)]) = true ∧
      goes (execSealComplete 0 (s .sealing)) (fun u => snaps0 u == [(7, .sealed, 0)] && (u.ctx 0).snapid == 7 && (u.ctx 0).cellarUsed == [(0, sealBytes { id := 7 })]) = true ∧
      goes (execSealComplete 0 full) (fun u => u.todo == [.event (.snapshotFail 0 1)]) = true ∧
      goes (execSnapshotFail 0 2 (s .sealing)) (fun u => snaps0 u == [(7, .failed, 0)] && (u.ctx 0).failSweep) = true ∧
      goes (execCopyBackPage 0 { back with peerMem := [(2 ^ 52 + 0x20003, 5)] }) (fun u => readByte u.mem 0x50003 == 5 && (u.ctx 0).copyBack.isEmpty) = true ∧
      peerReached back 0 = true ∧ peerReached { back with links := [] } 0 = false ∧
      goes (execCopyBackPage 0 { back with links := [] }) (fun u => (u.ctx 0).state == .lost) = true := by
  decide +kernel

/-- Bytes that no cell lists read 0. -/
theorem readLE_unlisted (m : Memory) (n a : Nat) (h : ∀ c ∈ m, c.1 < a ∨ a + n ≤ c.1) : readLE m a n = 0 := by
  induction n generalizing a with
  | zero => rfl
  | succ n ih =>
    have hb : ∀ m : Memory, (∀ c ∈ m, c.1 ≠ a) → readByte m a = blankByte := by
      intro m
      induction m with
      | nil => intro _; rfl
      | cons c m ihm =>
        intro hc
        have h1 := hc c (List.mem_cons_self ..)
        have h2 := ihm fun x hx => hc x (List.mem_cons_of_mem _ hx)
        simp_all [readByte, mget, mfind]
    rw [readLE, hb m fun c hc => by have := h c hc; omega, ih (a + 1) fun c hc => by have := h c hc; omega]
    rfl

/-- A table whose entries but the first are 0. -/
theorem leavesFrom_first (s : State) (node base n : Nat) (h : ∀ c ∈ s.mem, c.1 < node + 8 ∨ node + 8192 ≤ c.1) :
    leavesFrom s node base (n + 1) =
      let e := readEntry s node
      if Leaf.state e = 0 then []
      else if Leaf.state e = 6 then if n = 0 then [] else leavesFrom s (bitsOf e.toNat 13 39 * 8192) base n
      else
        let g := if Leaf.size e = 0 && n = 0 then 1 else if Leaf.size e = 1 && n = 0 then 32 else if Leaf.size e = 2 && n = 1 then 16 else 0
        if g ≠ 0 && !Leaf.malformed e then [(base, node, e)] else [] := by
  rw [leavesFrom, show List.range 1024 = 0 :: (List.range 1023).map Nat.succ from List.range_succ_eq_map, List.flatMap_cons,
    List.flatMap_eq_nil_iff.mpr, List.append_nil]
  · simp
  · intro i hi
    obtain ⟨j, hj, rfl⟩ := List.mem_map.mp hi
    have hz : readEntry s (node + 8 * (j + 1)) = 0 := by
      rw [readEntry, readLE_unlisted]; rfl
      intro c hc
      have := h c hc
      have := List.mem_range.mp hj
      omega
    simp [hz, Leaf.state, bitsOf]

/-- Such a table with a TABLE entry. -/
theorem leavesFrom_table (s : State) (node next base n : Nat) (h : ∀ c ∈ s.mem, c.1 < node + 8 ∨ node + 8192 ≤ c.1)
    (he : Leaf.state (readEntry s node) = 6 ∧ bitsOf (readEntry s node).toNat 13 39 * 8192 = next) :
    leavesFrom s node base (n + 2) = leavesFrom s next base (n + 1) := by
  rw [leavesFrom_first s node base (n + 1) h]
  simp [he.1, he.2]

/-- A failure sweep over a table with one page. -/
theorem witness_SnapshotSteps_sweep :
    leaves (cellarState { pol := true, failSweep := true } (pageEntry true false true) .failed) 0 = [(0, 0x40000, BitVec.ofNat 64 (pageEntry true false true))] := by
  generalize hs : cellarState { pol := true, failSweep := true } (pageEntry true false true) .failed = s
  have hm : s.mem = onePage (pageEntry true false true) := by rw [← hs]; rfl
  have hp : (s.ctx 0).ptroot = 0x10000 := by rw [← hs]; rfl
  have read : ∀ a, readEntry s a = BitVec.ofNat 64 (readLE (onePage (pageEntry true false true)) a 8) := fun a => by rw [readEntry, hm]
  rw [leaves, hp, leavesFrom_table s 0x10000 0x20000 0 2 (by rw [hm]; decide +kernel) (by rw [read]; decide +kernel),
    leavesFrom_table s 0x20000 0x30000 0 1 (by rw [hm]; decide +kernel) (by rw [read]; decide +kernel),
    leavesFrom_table s 0x30000 0x40000 0 0 (by rw [hm]; decide +kernel) (by rw [read]; decide +kernel),
    leavesFrom_first s 0x40000 0 0 (by rw [hm]; decide +kernel), read,
    show BitVec.ofNat 64 (readLE (onePage (pageEntry true false true)) 0x40000 8) = BitVec.ofNat 64 (pageEntry true false true) by decide +kernel]
  generalize he : BitVec.ofNat 64 (pageEntry true false true) = e
  have : Leaf.state e = 1 ∧ Leaf.size e = 0 ∧ Leaf.malformed e = false := by rw [← he]; decide +kernel
  simp [this]

/-! ## Witnesses: the steps of translation, migration and memory tests -/

/-- Unit 40 waits for the walk 7 of virtual address 0 through a table with the entry `e`; the engine of die 1 runs the migrations `ms` and
holds the requests `rs`. -/
def walkState (e : Nat) (dst : Option Nat) (ms : List Migration) (rs : List (Nat × Nat × Nat × Nat)) : State :=
  { onUnit 40 { run := .off, pc := 0x1000, tvec := 0x8000, ctxid := 0, waits := (dst.map fun d => (d, 7)).toList } with
    mem := onePage e, ctxs := [(0, { state := .active, ptroot := 0x10000 })]
    ops := [(7, { kind := .walk, cur := { unit := .seq 40 }, stream := .seq 40, mtile := 1, dst := dst })]
    xlats := [(1, { running := ms, queue := rs })] }

/-- What a walk finds. -/
def walkFinds (s : State) (f : Word → Nat → Bool) : Bool := match walk s 0 0 with
  | .leaf e place _ => f e place
  | _ => false

theorem witness_TranslationSteps_walk :
    let s := walkState (pageEntry true false true) none [] []
    let tested := { s with dies := [(0, { testing := [0] })] }
    walkTested s 0 0 = none ∧ walkTested tested 0 0 = some 0 ∧ goes (execWalkComplete 7 tested) (fun u => (u.die 0).held == [.event (.walkComplete 7)]) = true ∧
      walkFinds s (fun e p => !Leaf.cmt e && p == 0x40000) = true ∧
      walkFinds (walkState (pageEntry true false true + 2 ^ 15) none [] []) (fun e _ => Leaf.cmt e) = true ∧
      goes (execWalkComplete 7 s) (fun u => (u.seq 40).run == .run && (tlbFind u 1 0 0).isSome) = true ∧
      goes (execWalkComplete 7 (walkState 0 none [] [])) (fun u => (u.seq 40).pc == 0x8000 && (u.seq 40).trap) = true ∧
      (walk (walkState 0 (some 3) [] []) 0 0).word (walkState 0 (some 3) [] []) false = pgstatWord 0 1 0 false 0 ∧
      goes (execWalkComplete 7 (walkState 0 (some 3) [] [])) (fun u => regOf (u.seq 40).s 3 == pgstatWord 0 1 0 false 0) = true := by
  decide +kernel

/-- A migration of that page to the tier, its entry as captured and as it stands now. -/
def moving (dirty : List Nat) (pass kind : Nat) : Migration :=
  { ctx := 0, kind := kind, entry := 0x40000, dest := 2 ^ 42, result := 0x60000, leaf := BitVec.ofNat 64 (pageEntry true false true), pass := pass, dirty := dirty }

theorem witness_TranslationSteps_migration :
    let e := pageEntry true false true
    let gone := e + 3 * 2 ^ 60
    let req := fun (kind entry : Nat) => walkState e none [] [(kind * 64, entry, 2 ^ 42, 0x60000)]
    let run := fun (w : Nat) (m : Migration) => walkState w none [m] []
    let why := fun (s : State) (k : Nat) => migrationRefusal s k (2 ^ 42) false (readEntry s 0x40000)
    let stopped := { run gone (moving [] 1 0) with dies := [(1, { clockStopped := true })] }
    let tested := { run gone (moving [] 1 0) with dies := [(0, { testing := [0] })] }
    goes (execMigrationPassEnd 1 stopped) (fun u => u == stopped) = true ∧ ((req 0 0x40000).die 1).clockStopped = false ∧
      underTest tested 0x50000 = some 0 ∧ goes (execMigrationPassEnd 1 tested) (fun u => (u.die 0).held == [.event (.migrationPassEnd 1)]) = true ∧
      underTest (run gone (moving [] 1 0)) 0x50000 = none ∧ underTest (run gone (moving [] 1 0)) (2 ^ 42) = none ∧
      goes (execMigrationPassEnd 1 (run gone (moving [] 1 0))) (fun u => Leaf.cmt (readEntry u 0x40000)) = true ∧
      regionOfPa (run gone (moving [] 1 0)) 0x50000 = .hbm 0 ∧ why (req 0 0x40000) 0 = 0 ∧ why (req 3 0x40000) 3 = 7 ∧ (req 0 0x40000).mem.wf = true ∧
      goes (execMigrationAccept 1 (req 0 0x40000)) (fun u => (u.xlat 1).running == [moving [] 1 0] && Leaf.state (readEntry u 0x40000) == 4) = true ∧
      goes (execMigrationAccept 1 (req 3 0x40000)) (fun u => readLE u.mem 0x60000 8 == 7 && u.todo == [.event (.migrationAccept 1)]) = true ∧
      entryChanged (readEntry (run e (moving [] 1 0)) 0x40000) (moving [] 1 0).leaf = true ∧
      entryChanged (readEntry (run gone (moving [] 1 0)) 0x40000) (moving [] 1 0).leaf = false ∧
      oldRequests (run gone (moving [] 1 0)) (moving [] 1 0) = false ∧
      goes (execMigrationCommit 1 (run e (moving [] 1 0))) (fun u => readLE u.mem 0x60000 8 == 5) = true ∧
      goes (execMigrationCommit 1 (run gone (moving [] 1 0))) (fun u => readLE u.mem 0x60000 8 == 0 && Leaf.state (readEntry u 0x40000) == 2 && Leaf.pa (readEntry u 0x40000) == 2 ^ 42) = true ∧
      goes (execMigrationCommit 1 (run gone (moving [0x50000 / 64] 3 0))) (fun u => (u.xlat 1).running == [moving [] 4 0]) = true ∧
      goes (execMigrationCommit 1 (run gone (moving [0x50FC0 / 64] 4 0))) (fun u => readLE u.mem 0x60000 8 == 1 && Leaf.state (readEntry u 0x40000) == 1) = true := by
  decide +kernel

/-- A bank under test that holds an access, and reads that fail: a repeat of a served near access, a lasting error of a load. -/
theorem witness_TranslationSteps_reads :
    let s := { walkState 0 none [] [] with dies := [(1, { testing := [2], held := [.event (.dramAccessPerformed 9)] })], mem := [(2 ^ 36 + 2 ^ 31, 5)] }
    let o : Op := { kind := .nearLoad, served := true, usable := 5, cur := { unit := .seq 40 } }
    let l : Op := { kind := .dramLoad 8 false, va := 0x1230, cur := { unit := .seq 40 } }
    goes (execTestBankEnd 1 2 0 s) (fun u => u.mem.isEmpty && u.todo == [.event (.dramAccessPerformed 9)]) = true ∧
      goes (execReadRetry (.access 7) 0 { s with ops := [(7, o)] }) (fun u => (mfind u.ops 7).any fun x => x.usable == 13) = true ∧
      goes (execReadRetry (.access 7) 1 { s with ops := [(7, l)] }) (fun u => (u.seq 40).refused.map TrapReq.cause == [4]) = true := by
  decide +kernel

/-! ## Witnesses: package links and die boundaries -/

/-- Link 3 alone, in cycle 0 of a round of eight frames or, for `late`, in its eighth. -/
def onLink (late : Bool) (x : Link) : State := { onUnit 396 {} with pcyc := if late then 28 else 0, links := [(3, x)], master := 5 }

/-- A frame with its check. -/
def sealed (n : Nat) : Nat := n + crc64 492 n * 2 ^ 3936

/-- A frame of number 2 with a token of a tag in slot 0; an empty frame of a number. -/
def slotBody (tag lseq : Nat) : Nat := sealed (2 * 2 ^ 48 + 2 ^ 24 + (tag * 2 ^ 20 + lseq) * 2 ^ 64)
def emptyBody (fseq : Nat) : Nat := sealed (fseq * 2 ^ 48)

/-- The state of link 3. -/
def stateOf3 (s : State) : LinkState := (s.link 3).state

/-- The published check value of CRC-64/ECMA-182: that of the nine bytes `123456789`. -/
theorem test_crc64_of_the_nine_digits : crc64 9 0x393837363534333231 = 0x6C40DF5F0B497347 := by decide +kernel

theorem witness_LinkSteps_out :
    let t : Token := { tag := 7, payload := 9 }
    let i : DynItem := { cls := 1, ctx := 63, rank := 0, itag := 4, a := 1 }
    goes (execFrameSend 3 (onLink false { state := .up, owners := [(0, 7)], out := [(7, 0, t)], naksDue := [4] }))
        (fun u => (u.link 3).sent.map (fun f => (f.fseq, f.nak, f.tokens)) == [(0, some 4, [(0, t)])]) = true ∧
      goes (execFrameSend 3 (onLink true { state := .up, fseqOut := 7, itemsOut := [i] })) (fun u => (u.link 3).sent.map Frame.items == [[(0, i)]]) = true ∧
      portRuns (onLink false {}) 3 = true ∧ frameIndex 0 7 = 7 ∧
      goes (execFrameResend 3 (onLink true { state := .up, fseqOut := 7, resends := [2, 4], sent := [{ fseq := 2 }], naksDue := [5] }))
        (fun u => (u.link 3).wire == sealed (2 * 2 ^ 48 + 5 * 2 ^ 32 + 2 ^ 31) && (u.link 3).naksDue.isEmpty) = true ∧
      goes (execFrameResend 3 (onLink true { state := .up, fseqOut := 7, resends := [2, 4] })) (fun u => (u.link 3).resends == [4]) = true := by
  decide +kernel

theorem witness_LinkSteps_in :
    let up : Link := { state := .up, ownersIn := [(14, 7)], f := 24 }
    let a : Arc := { slot := 4, lseqIn := 255, dst := .tile 0 0, cap := 1 }
    let s := fun (b : Nat) => { onLink false up with arcs := [(7, { a with lseqIn := b })] }
    let held := onLink false { up with failedNums := [3], nakked := [3] }
    let stopped : State := { s 255 with dies := [(dieOfPos (linkPort 3), { clockStopped := true })] }
    let g := frameOf (slotBody 7 255)
    g.tokens.map (fun e => (e.1, e.2.tag, e.2.lseq)) = [(0, 7, 255)] ∧ g.fseq = 2 ∧ g.items = [] ∧ g.pubs = [] ∧ g.nak = none ∧ (frameOf (emptyBody 3)).tokens = [] ∧
      frameChecks (slotBody 7 255) = true ∧ frameChecks (arrived 71 (emptyBody 3)) = false ∧ (up.placed 0 2).baseIn = 0 ∧ portRuns (s 255) 3 = true ∧
      portRuns stopped 3 = false ∧
      goes (execFrameDelivery 3 2 0 (slotBody 7 255) (s 255)) (fun u => (u.arc? 7).any fun x => x.lseqIn == 0 && x.transit.length == 1) = true ∧
      goes (execFrameDelivery 3 2 0 (slotBody 7 255) (s 254)) (fun u => stateOf3 u == .degraded) = true ∧
      goes (execFrameDelivery 3 2 0 (slotBody 8 255) (s 255)) (fun u => (u.link 3).strays.length == 1) = true ∧
      goes (execFrameDelivery 3 2 0 (slotBody 7 255) { s 255 with pcyc := 1 }) (fun u => u.agenda.length == 1) = true ∧
      goes (execFrameDelivery 3 3 71 (emptyBody 3) (onLink false up)) (fun u => (u.link 3).naksDue == [3]) = true ∧
      goes (execFrameDelivery 3 3 71 (emptyBody 3) held) (fun u => stateOf3 u == .degraded) = true ∧
      goes (execFrameDelivery 3 3 0 (emptyBody 3) held) (fun u => (u.link 3).failedNums.isEmpty && (u.link 3).heldFrames.length == 1) = true ∧
      goes (execFrameDelivery 3 4 0 (emptyBody 4) held) (fun u => (u.link 3).heldFrames.length == 1 && (u.link 3).failedNums == [3]) = true ∧
      goes (execFrameHoldTimeout 3 { onLink false { up with heldFrames := [{ fseq := 1 }] } with pcyc := 353 }) (fun u => stateOf3 u == .degraded) = true := by
  decide +kernel

theorem witness_LinkSteps_states :
    let at_ := fun (st : LinkState) => onLink false { state := st }
    let busy := onLink false { state := .degraded, owners := [(0, 7)] }
    let met := onLink false { state := .aligned, peerMaster := 5, inStep := true }
    let stranger := onLink false { state := .aligned, peerMaster := 4, peerAhead := 99 }
    let self := BitVec.ofNat 64 (2 ^ 62 + 2 ^ 61)
    goes (execLinkTrainingDone 3 (24 + 2 ^ 28) (at_ .training)) (fun u => stateOf3 u == .aligned && (u.link 3).f == 24) = true ∧
      goes (execLinkTrainingDone 3 0 (onLink false { state := .training, attempts := 2 })) (fun u => stateOf3 u == .down) = true ∧
      goes (execLinkEnable 3 met) (fun u => stateOf3 u == .up) = true ∧ goes (execLinkEnable 3 stranger) (fun u => stateOf3 u == .aligned) = true ∧
      goes (execLinkRetrain 3 (at_ .down)) (fun u => stateOf3 u == .training) = true ∧ goes (execLinkRetrain 3 (at_ .degraded)) (fun u => stateOf3 u == .training) = true ∧
      goes (execLinkRetrain 3 busy) (fun u => stateOf3 u == .degraded) = true ∧ goes (execLinkRetrain 3 (at_ .repointed)) (fun u => stateOf3 u == .repointed) = true ∧
      goes (execLinkReset 3 (at_ .repointed)) (fun u => stateOf3 u == .down) = true ∧
      settled stranger = false ∧ settled (at_ .up) = true ∧
      goes (execPcycAdopt 3 4 { stranger with agenda := [(2, .powerGood)] }) (fun u => u.pcyc == 99 && u.master == 4 && u.agenda == [(101, .powerGood)]) = true ∧
      goes (execPcycAdopt 3 4 { stranger with pcyc := 30 }) (fun u => u.agenda == [(32, .pcycAdopt 3 4)]) = true ∧
      goes (execLinkTrainingDone 3 (24 + 2 ^ 28 + 100 * 2 ^ 30) { at_ .training with master := 9 }) (fun u => (u.link 3).peerAhead == 124 && u.agenda == [(32, .pcycAdopt 3 0)]) = true ∧
      goes (execRankLost 3 { at_ .up with ranks := [(0, self), (3, BitVec.ofNat 64 (2 ^ 62 + 8))] })
        (fun u => stateOf3 u == .repointed && mget 0 u.ranks 3 == BitVec.ofNat 64 (2 ^ 63 + 8)) = true := by
  decide +kernel

/-- A flit over boundary 0 by a tile of a region whose lane 2 an arc owns; one of a sequencer's access. -/
theorem witness_LinkSteps_boundary :
    let l := boundaryLink 0 5 false * 8 + 2
    let a : Arc := { slot := 4, src := .tile 0 0, dst := .tile 1 0, cap := 1 }
    let s : State := { onLink false {} with lanes := [(l, 7)], arcs := [(7, a)], tiles := [(0, { region := some 0 })], regions := [(0, { tiles := [0] })] }
    mfind s.lanes l = some 7 ∧ s.arc? 7 = some a ∧ (s.tile 0).region = some 0 ∧
      goes (execBoundaryFlitCrossing 0 (4 * (2 ^ 2 + 512 * 5) + 3) s) (fun u => (u.tile 0).reports.map Report.code == [0x70]) = true ∧
      boundaryRuns s 0 = true ∧ boundaryRuns { s with dies := [(0, { dieOff := true })] } 0 = false ∧
      goes (execBoundaryFlitCrossing 0 (4 * 4137 + 2) s) (fun u => u.agenda == [(48, .boundaryFlitResend 0 4137)]) = true ∧
      goes (execBoundaryFlitResend 0 (4096 + 40 + 1) s) (fun u => (u.seq 40).queue.map TrapReq.cause == [0x70]) = true := by
  decide +kernel

/-! ## Witnesses: the package and its host -/

/-- The package in step `k` of its bring-up. -/
def rising (k : Nat) (bad : List Nat) : State :=
  { State.reset with todo := [], dies := (List.range 12).map (fun d => (d, { step := k })), badDies := bad, pkgid := 3 }

/-- Die 2 alone, with context 0 whose graph 4 stands on its first quad. -/
def onDie2 (x : Die) : State :=
  { onUnit 40 {} with dies := [(2, x)], ctxs := [(0, { state := .active })], graphs := [(4, { groups := [{ state := .bound, quads := [64] }] })] }

theorem witness_PackageSteps :
    goes (execPowerGood (rising 5 [])) (fun u => (u.die 11).step == 6 && mget 0 u.ranks 0 == BitVec.ofNat 64 (2 ^ 62 + 2 ^ 61 + 3 * 2 ^ 16)) = true ∧
      goes (execPowerGood (rising 8 [])) (fun u => u.up && (u.die 11).ready) = true ∧ goes (execPowerGood (rising 2 [0])) (fun u => (u.die 0).step == 3) = true ∧
      goes (execPowerGood (rising 3 [0])) (fun u => u == rising 3 [0]) = true ∧ ctxsOnDie (onDie2 {}) 2 = [0] ∧
      goes (execDcrestart 2 (onDie2 { stopped := true })) (fun u => !(u.die 2).stopped && (u.ctx 0).state == .lost) = true ∧
      goes (execDcrestart 2 (onDie2 { stopped := true, clockStopped := true })) (fun u => (u.die 2).stopped && (u.die 2).log.length == 1) = true ∧
      goes (execDcrestart 2 (onDie2 {})) (fun u => (u.die 2).log.length == 1 && (u.ctx 0).state == .active) = true ∧
      goes (execThermalSample 2 124 (onDie2 { samples := [1, 2, 3, 4, 5] })) (fun u => (u.die 2).samples == [124, 1, 2, 3, 4]) = true ∧
      goes (execThermalSample 2 125 (onDie2 {})) (fun u => (u.die 2).clockStopped && (u.ctx 0).state == .lost && u.events.length == 1) = true ∧
      goes (execAllowanceUpdate 2 (onDie2 { samples := [86, 85] })) (fun u => (u.die 2).allow == 290 && (u.die 2).trips == 1) = true ∧
      goes (execDccall 2 0x4000 (onDie2 {})) (fun u => (u.die 2).busy && (u.die 2).callVa == 0x4000) = true ∧
      goes (execDccall 2 0x4004 (onDie2 {})) (fun u => (u.die 2).log.length == 1) = true ∧ callReady (onDie2 { busy := true }) 2 = true ∧
      goes (execDccallEntry 2 (onDie2 { busy := true, callVa := 0x4000 })) (fun u => (u.seq 386).pc == 0x4000 && regOf (u.seq 386).s 31 == 0xFFFFFFFFFFFFFFF8) = true := by
  decide +kernel

/-- A context's descriptor at physical 0x800: its tables at 0x10000, its save area of 1 MiB at virtual 0, its ring at virtual 0. -/
def descriptor (extra : Nat) : Nat := 0x10000 + 2 ^ 20 * 2 ^ 192 + extra

/-- The tables of that context: a pinned page of 2 MiB at virtual 0, in 32 entries. -/
def pinnedPages : Memory :=
  (List.range 32).foldl (fun m i => writeLE m (0x40000 + 8 * i) 8 (pageEntry true false false - 0x50000 + 2 ^ 21 + 2 ^ 57 + 2 ^ 58)) (onePage 0)

theorem witness_HostSteps_contexts :
    let s := fun (w : Nat) => { onUnit 396 {} with mem := writeLE pinnedPages 0x800 64 w, ctxs := [(0, { state := .active, hostArc := List.range 64 })] }
    let told := fun (u : State) => u.ctxresult.toNat
    (List.range 9).find? (createRefused (s (descriptor 0)) (descriptor 0)) = none ∧ readLE (s (descriptor 0)).mem 0x800 64 = descriptor 0 ∧
      goes (execCtxcreate 0x800 (s (descriptor 0))) (fun u => told u == 2 ^ 63 + 1 && (u.ctx 1).state == .ready) = true ∧
      goes (execCtxcreate 0x800 (s (descriptor (2 ^ 415 + 63 * 2 ^ 408)))) (fun u => told u == 2 ^ 63 + 63) = true ∧
      goes (execCtxcreate 0x800 (s (descriptor (2 ^ 415)))) (fun u => told u == 2 ^ 63 + 7 * 2 ^ 56) = true ∧
      goes (execCtxcreate 0x800 (s (descriptor (2 ^ 414)))) (fun u => told u == 2 ^ 63 + 2 ^ 56) = true ∧
      goes (execContextDestroy 0 (s 0)) (fun u => (u.ctx 0).state == .free) = true ∧ goes (execContextDestroy 1 (s 0)) (fun u => (u.die 0).log.length == 1) = true ∧
      goes (execHostDoorbell 0 8 77 (s 0)) (fun u => (u.ctx 0).hostArc.getLast? == some 77 && (u.ctx 0).hostArc.length == 64) = true ∧
      goes (execHostDoorbell 1 8 77 (s 0)) (fun u => (u.die 0).log.length == 1) = true ∧
      goes (execHostResume 0 { s 0 with hostTraps := [(0, 40, .raised)] }) (fun u => u.hostTraps.isEmpty) = true ∧
      goes (execHostResume 0 (s 0)) (fun u => (u.die 0).log.length == 1) = true := by
  decide +kernel

theorem witness_HostSteps_memory :
    let e : EventRec := { w0 := 5, w1 := 6, w2 := 7, w3 := 8 }
    let s : State := { onUnit 396 {} with ctxs := [(0, { state := .active, causes := [e] })], events := [e], dies := [(0, { log := [{ w0 := 5, w1 := 6 }] })], mem := [(9, 4)] }
    let five := [5, 0, 0, 0, 0, 0, 0, 0]
    goes (execCauseFifoRead 0 s) (fun u => u.hostRead == five && (u.ctx 0).lastCause == e) = true ∧ goes (execPackageEventRead s) (fun u => u.hostRead == five) = true ∧
      goes (execErrorLogRead 0 s) (fun u => u.hostRead == five && (u.die 0).lastLog == 6) = true ∧
      s.up = true ∧ byteBacked s (12 * 2 ^ 36 - 1) = true ∧ byteBacked s (12 * 2 ^ 36) = false ∧
      goes (execBar2Read 8 3 s) (fun u => u.hostRead == [0, 4, 0]) = true ∧ goes (execBar2Write 8 [1, 0] s) (fun u => u.mem == [(8, 1)]) = true ∧
      goes (execBar2Read (12 * 2 ^ 36) 1 s) (fun u => u.hostRead == [0xFF] && (u.die 0).log.length == 2) = true ∧
      goes (execRegisterWrite 0x10 (2 ^ 7 + 9) s) (fun u => u.todo == [.event (.hostResume 9)]) = true ∧
      goes (execRegisterWrite 0x50308 2 s) (fun u => u.todo == [.event (.linkReset 3)]) = true ∧
      goes (execRegisterWrite 0x300118 7 s) (fun u => u.todo == [.event (.migrationRequest 2 0 0 0 7)]) = true := by
  decide +kernel

/-! ## Witnesses: the whole machine -/

theorem witness_UnitsOfInstructions :
    (Instr.bar2Read 0 0).shape.isNone = true ∧ (Instr.tret).shape.map Shape.place = some Where.seqOnly ∧ (Instr.fence 0).shape.map Shape.place = some Where.seqOnly ∧
      (Instr.taccz 0).shape.map Shape.place = some Where.listOnly := by
  decide +kernel

/-- `add` in a compute tile and in a control unit, and the one step that each takes. -/
theorem witness_InstructionsKeep :
    (Instr.add 3 1 2).isInstruction = true ∧ goes (execAdd 3 1 2 (onTileAt 0 0 { s := threeRegs 1 2 0 })) (fun u => (u.tile 0).pend.length == 1) = true ∧
      goes (execAdd 3 1 2 (onUnit 40 { s := threeRegs 1 2 0 })) (fun u => regOf (u.seq 40).s 3 == 3) = true := by
  decide +kernel

/-- The state after reset takes a step. -/
theorem witness_MemoryStaysCanonical : memoriesCanonical State.reset ∧ ∃ u, step State.reset = .next u := by
  refine ⟨⟨rfl, rfl, rfl⟩, ?_⟩
  exact ⟨_, rfl⟩

end Sys2Proof.Tests
end

/-! # What keeps the bytes

A change of the state is either one of the few that write bytes, or it keeps the three memories (device memory, a peer's memory, near
memory) as they are. This first part has the changes that keep them, in the order of the model. -/
section
namespace Sys2Proof.Machine

/-- A state holds the bytes of another one: no byte of device memory, of a peer's memory or of near memory has changed. -/
@[simp] abbrev KeepsBytes (s u : State) : Prop := u.mem = s.mem ∧ u.peerMem = s.peerMem ∧ u.near = s.near

@[simp] theorem State.mem_ite (c : Prop) [Decidable c] (s u : State) : (if c then s else u).mem = if c then s.mem else u.mem :=
  apply_ite ..
@[simp] theorem State.peerMem_ite (c : Prop) [Decidable c] (s u : State) :
    (if c then s else u).peerMem = if c then s.peerMem else u.peerMem := apply_ite ..
@[simp] theorem State.near_ite (c : Prop) [Decidable c] (s u : State) : (if c then s else u).near = if c then s.near else u.near :=
  apply_ite ..

namespace KeepsBytes

theorem refl (s : State) : KeepsBytes s s := ⟨rfl, rfl, rfl⟩

theorem trans {s u w : State} (h : KeepsBytes s u) (h' : KeepsBytes u w) : KeepsBytes s w :=
  ⟨h'.1.trans h.1, h'.2.1.trans h.2.1, h'.2.2.trans h.2.2⟩

/-- A loop whose every turn keeps the bytes keeps them. -/
theorem foldl {α : Type} {f : State → α → State} (hf : ∀ u x, KeepsBytes u (f u x)) {l : List α} {s a : State} (ha : KeepsBytes s a) :
    KeepsBytes s (l.foldl f a) :=
  List.foldlRecOn l f ha fun u hu x _ => hu.trans (hf u x)

@[simp] theorem foldl_self {α : Type} {f : State → α → State} (hf : ∀ u x, KeepsBytes u (f u x)) (l : List α) (s : State) :
    KeepsBytes s (l.foldl f s) := foldl hf (refl s)

end KeepsBytes

/-! ## Changes of `Ops` -/

@[simp] theorem State.delay_keepsBytes (s : State) (d : Nat) (i : Instr) : KeepsBytes s (State.delay s d i) := by
  unfold State.delay; split <;> simp

@[simp] theorem State.cancel_keepsBytes (s : State) (i : Instr) : KeepsBytes s (State.cancel s i) := by unfold State.cancel; split <;> simp

@[simp] theorem State.tellHost_keepsBytes (s : State) (c code tcause id : Nat) (info loc : Word) :
    KeepsBytes s (State.tellHost s c code tcause id info loc) := by
  unfold State.tellHost; dsimp only; (repeat' split) <;> simp

@[simp] theorem State.tellPackage_keepsBytes (s : State) (code tcause id : Nat) (info loc : Word) :
    KeepsBytes s (State.tellPackage s code tcause id info loc) := by
  unfold State.tellPackage; split <;> simp

@[simp] theorem State.tellOpen_keepsBytes (s : State) (c code id : Nat) (info : Option Word) :
    KeepsBytes s (State.tellOpen s c code id info) := by
  simp [State.tellOpen]

@[simp] theorem State.tellPackageOpen_keepsBytes (s : State) (code id : Nat) (info : Option Word) :
    KeepsBytes s (State.tellPackageOpen s code id info) := by
  simp [State.tellPackageOpen]

@[simp] theorem State.logError_keepsBytes (s : State) (d src kind place : Nat) : KeepsBytes s (State.logError s d src kind place) := by
  unfold State.logError; dsimp only; (repeat' split) <;> simp

@[simp] theorem useBanks_keepsBytes (mt : Nat) (bs : List Nat) (s : State) : KeepsBytes s (useBanks mt bs s) := ⟨rfl, rfl, rfl⟩

@[simp] theorem passTrap_keepsBytes (n : Nat) (r : TrapReq) (s : State) : KeepsBytes s (passTrap n r s) := ⟨rfl, rfl, rfl⟩

@[simp] theorem trapEntry_keepsBytes (n : Nat) (r : TrapReq) (resume : Word) (s : State) : KeepsBytes s (trapEntry n r resume s) :=
  ⟨rfl, rfl, rfl⟩

@[simp] theorem forwardTrap_keepsBytes (n : Nat) (r : TrapReq) (resume : Word) (s : State) : KeepsBytes s (forwardTrap n r resume s) := by
  unfold forwardTrap; split <;> simp

@[simp] theorem fatal_keepsBytes (n : Nat) (r : TrapReq) (s : State) : KeepsBytes s (fatal n r s) := by unfold fatal; split <;> simp

@[simp] theorem takeTrap_keepsBytes (n : Nat) (r : TrapReq) (resume : Word) (s : State) : KeepsBytes s (takeTrap n r resume s) := by
  unfold takeTrap; (repeat' split) <;> simp

@[simp] theorem ownFault_keepsBytes (n code : Nat) (info : Word) (s : State) : KeepsBytes s (ownFault n code info s) := by
  unfold ownFault; dsimp only; (repeat' split) <;> simp

@[simp] theorem tileReport_keepsBytes (t : Nat) (r : Report) (s : State) : KeepsBytes s (tileReport t r s) := by
  unfold tileReport; dsimp only; (repeat' split) <;> simp

@[simp] theorem trapReturn_keepsBytes (n : Nat) (s : State) : KeepsBytes s (trapReturn n s) := ⟨rfl, rfl, rfl⟩

/-! ## Changes of `Operands` -/

@[simp] theorem deliver_keepsBytes (lat : Nat) (t : Nat) (rs : List Result) (s : State) : KeepsBytes s (deliver lat t rs s) :=
  ⟨rfl, rfl, rfl⟩

/-! ## Changes of `Arcs` -/

@[simp] theorem setInPort_keepsBytes (s : State) (t p : Nat) (x : Port) : KeepsBytes s (setInPort s t p x) := ⟨rfl, rfl, rfl⟩

@[simp] theorem setOutPort_keepsBytes (s : State) (t p : Nat) (x : Port) : KeepsBytes s (setOutPort s t p x) := ⟨rfl, rfl, rfl⟩

@[simp] theorem raisePunct2_keepsBytes (t p : Nat) (s : State) : KeepsBytes s (raisePunct2 t p s) := by simp [raisePunct2]

@[simp] theorem sendToken_keepsBytes (key : Nat) (tok : Token) (s : State) : KeepsBytes s (sendToken key tok s) := by
  unfold sendToken; dsimp only; (repeat' split) <;> simp

@[simp] theorem countColour_keepsBytes (ctx : Nat) (passed : Bool) (c : Nat) (n : Int) (s : State) :
    KeepsBytes s (countColour ctx passed c n s) := by
  unfold countColour; split <;> simp

@[simp] theorem reportAt_keepsBytes (t code : Nat) (info : Word) (s : State) : KeepsBytes s (reportAt t code info s) := by simp [reportAt]

@[simp] theorem writeWindow_keepsBytes (key : Nat) (tok : Token) (s : State) : KeepsBytes s (writeWindow key tok s) := by
  unfold writeWindow; split <;> simp

@[simp] theorem grantChunks_keepsBytes (key n : Nat) (s : State) : KeepsBytes s (grantChunks key n s) := by
  unfold grantChunks; split <;> simp

@[simp] theorem askDetour_keepsBytes (key : Nat) (s : State) : KeepsBytes s (askDetour key s) := by
  unfold askDetour; dsimp only; (repeat' split) <;> simp

/-- A token that finds room leaves the bytes alone. -/
theorem detourTo_keepsBytes {key : Nat} {tok : Token} {s u : State} (h : detourTo key tok s = some u) : KeepsBytes s u := by
  unfold detourTo at h
  split at h
  · cases h
  · split at h
    · cases h; simp
    · cases h

theorem enterWindow_keepsBytes {key : Nat} {tok : Token} {s u : State} (h : enterWindow key tok s = some u) : KeepsBytes s u := by
  unfold enterWindow at h
  split at h
  · cases h; simp
  split at h
  · cases h; simp
  dsimp only at h
  split at h
  · split at h
    · obtain ⟨v, hv, rfl⟩ := Option.map_eq_some_iff.1 h
      simpa using detourTo_keepsBytes hv
    · split at h <;> (cases h; simp)
  · split at h
    · split at h <;> (cases h; simp)
    · cases h; simp

@[simp] theorem drainEntry_keepsBytes (key : Nat) (s : State) (n : Nat) : KeepsBytes s (drainEntry key s n) := by
  induction n generalizing s with
  | zero => exact ⟨rfl, rfl, rfl⟩
  | succ n ih =>
    unfold drainEntry
    split
    · simp
    split
    · simp
    split
    · rename_i h
      exact .trans (by simpa using enterWindow_keepsBytes h) (ih _)
    · simp

@[simp] theorem arriveAt_keepsBytes (key : Nat) (tok : Token) (s : State) : KeepsBytes s (arriveAt key tok s) := by
  unfold arriveAt; split <;> simp

@[simp] theorem landOldest_keepsBytes (key : Nat) (s : State) : KeepsBytes s (landOldest key s) := by
  unfold landOldest; (repeat' split) <;> simp

@[simp] theorem slotReport_keepsBytes (k : Nat) (info : Word) (s : State) : KeepsBytes s (slotReport k info s) := by simp [slotReport]

@[simp] theorem laneMismatch_keepsBytes (k : Nat) (info : Word) (s : State) : KeepsBytes s (laneMismatch k info s) := by
  unfold laneMismatch; dsimp only; (repeat' split) <;> simp

@[simp] theorem setFlight_keepsBytes (key i : Nat) (f : Flight) (s : State) : KeepsBytes s (setFlight key i f s) := by
  unfold setFlight; split <;> simp

@[simp] theorem landFlight_keepsBytes (key : Nat) (s : State) : KeepsBytes s (landFlight key s) := by unfold landFlight; split <;> simp

@[simp] theorem flyFrom_keepsBytes (key n i : Nat) (used : List Nat) (s : State) : KeepsBytes s (flyFrom key n i used s) := by
  induction n generalizing i used s with
  | zero => exact ⟨rfl, rfl, rfl⟩
  | succ n ih =>
    unfold flyFrom
    dsimp only
    repeat' split
    all_goals simp [ih]

@[simp] theorem resumeFlights_keepsBytes (key : Nat) (s : State) : KeepsBytes s (resumeFlights key s) := by
  unfold resumeFlights; split <;> simp

@[simp] theorem publish_keepsBytes (key : Nat) (s : State) : KeepsBytes s (publish key s) := by unfold publish; (repeat' split) <;> simp

@[simp] theorem returnChunks_keepsBytes (key : Nat) (s : State) : KeepsBytes s (returnChunks key s) := by
  unfold returnChunks; split <;> simp

@[simp] theorem seePointer_keepsBytes (key p : Nat) (s : State) : KeepsBytes s (seePointer key p s) := by unfold seePointer; split <;> simp

/-! ## Changes of `Control` -/

@[simp] theorem setCx_keepsBytes (u : UnitId) (p : Nat) (x : CtrlPort) (s : State) : KeepsBytes s (setCx u p x s) := by
  unfold setCx; split <;> simp

@[simp] theorem setChan_keepsBytes (u : UnitId) (c : Nat) (x : OrdChan) (s : State) : KeepsBytes s (setChan u c x s) := by
  unfold setChan; split <;> simp

@[simp] theorem setJoin_keepsBytes (c g j : Nat) (x : Join) (s : State) : KeepsBytes s (setJoin c g j x s) := by
  unfold setJoin; split <;> simp

@[simp] theorem sendSignal_keepsBytes (u : UnitId) (p colour : Nat) (s : State) : KeepsBytes s (sendSignal u p colour s) := by
  unfold sendSignal; dsimp only; (repeat' split) <;> simp

@[simp] theorem wakeOnToken_keepsBytes (n p : Nat) (s : State) : KeepsBytes s (wakeOnToken n p s) := by
  unfold wakeOnToken; (repeat' split) <;> simp

@[simp] theorem depositAt_keepsBytes (u : UnitId) (p : Nat) (s : State) : KeepsBytes s (depositAt u p s) := by
  unfold depositAt; dsimp only; (repeat' split) <;> simp

@[simp] theorem fireJoin_keepsBytes (c g j : Nat) (s : State) : KeepsBytes s (fireJoin c g j s) :=
  .foldl (fun s m => by split <;> simp) (by simp)

@[simp] theorem tryJoin_keepsBytes (c g j : Nat) (s : State) : KeepsBytes s (tryJoin c g j s) := by
  unfold tryJoin; dsimp only; (repeat' split) <;> simp

@[simp] theorem raiseJoin_keepsBytes (c g j m : Nat) (s : State) : KeepsBytes s (raiseJoin c g j m s) := by unfold raiseJoin; split <;> simp

@[simp] theorem orderDone_keepsBytes (u : UnitId) (c seqn : Nat) (s : State) : KeepsBytes s (orderDone u c seqn s) := by
  unfold orderDone; split <;> simp

/-! ## Changes of `Near` -/

@[simp] theorem setOp_keepsBytes (id : Nat) (o : Op) (s : State) : KeepsBytes s (setOp id o s) := ⟨rfl, rfl, rfl⟩

@[simp] theorem waitFor_keepsBytes (n r id : Nat) (s : State) : KeepsBytes s (waitFor n r id s) := by unfold waitFor; split <;> simp

@[simp] theorem issueLoad_keepsBytes (o : Op) (lat : Nat) (res : Result) (s : State) : KeepsBytes s (issueLoad o lat res s) := by
  unfold issueLoad; (repeat' split) <;> simp

@[simp] theorem answer_keepsBytes (id : Nat) (o : Op) (v : Vec) (ready : Nat) (s : State) : KeepsBytes s (answer id o v ready s) := by
  unfold answer; dsimp only; (repeat' split) <;> simp

@[simp] theorem complete_keepsBytes (id : Nat) (o : Op) (s : State) : KeepsBytes s (complete id o s) := by simp [complete]

@[simp] theorem completionFault_keepsBytes (id code : Nat) (info : Word) (s : State) : KeepsBytes s (completionFault id code info s) := by
  unfold completionFault; (repeat' split) <;> simp

@[simp] theorem dropRefused_keepsBytes (id : Nat) (s : State) : KeepsBytes s (dropRefused id s) := by
  unfold dropRefused; (repeat' split) <;> simp

@[simp] theorem setPresent_keepsBytes (mt o : Nat) (b : Bool) (s : State) : KeepsBytes s (setPresent mt o b s) := ⟨rfl, rfl, rfl⟩

@[simp] theorem toBanks_keepsBytes (o : Op) (s : State) : KeepsBytes s (toBanks o s) := ⟨rfl, rfl, rfl⟩

@[simp] theorem wakeReaders_keepsBytes (mt : Nat) (s : State) : KeepsBytes s (wakeReaders mt s) :=
  .foldl (fun s e => by dsimp only; split <;> simp) (.refl s)

@[simp] theorem keepBanks_keepsBytes (id : Nat) (o : Op) (words : List Nat) (s : State) : KeepsBytes s (keepBanks id o words s) :=
  ⟨rfl, rfl, rfl⟩

@[simp] theorem setGen_keepsBytes (mt g : Nat) (x : Generator) (s : State) : KeepsBytes s (setGen mt g x s) := ⟨rfl, rfl, rfl⟩

/-! ## Changes of `Pages` -/

@[simp] theorem markDirty_keepsBytes (pa n : Nat) (s : State) : KeepsBytes s (markDirty pa n s) := ⟨rfl, rfl, rfl⟩

@[simp] theorem holdRequest_keepsBytes (d : Nat) (w : Task) (s : State) : KeepsBytes s (holdRequest d w s) := by
  unfold holdRequest; dsimp only; (repeat' split) <;> simp

@[simp] theorem updTlb_keepsBytes (die : Nat) (f : List TlbEntry → List TlbEntry) (s : State) : KeepsBytes s (updTlb die f s) :=
  ⟨rfl, rfl, rfl⟩

@[simp] theorem tlbFill_keepsBytes (die ctx va : Nat) (e : Word) (place : Nat) (s : State) : KeepsBytes s (tlbFill die ctx va e place s) :=
  ⟨rfl, rfl, rfl⟩

@[simp] theorem tlbDrop_keepsBytes (d : Nat → Bool) (ctx lo hi : Nat) (s : State) : KeepsBytes s (tlbDrop d ctx lo hi s) := ⟨rfl, rfl, rfl⟩

@[simp] theorem copyFirst_keepsBytes (ctx va : Nat) (s : State) : KeepsBytes s (copyFirst ctx va s) := by
  unfold copyFirst; dsimp only; (repeat' split) <;> simp

@[simp] theorem sendItems_keepsBytes (cls ctx r n : Nat) (s : State) : KeepsBytes s (sendItems cls ctx r n s) := by
  unfold sendItems; split <;> simp

@[simp] theorem tellPeers_keepsBytes (ctx : Nat) (s : State) : KeepsBytes s (tellPeers ctx s) := by simp [tellPeers]

@[simp] theorem sendCellar_keepsBytes (ctx n : Nat) (s : State) : KeepsBytes s (sendCellar ctx n s) := by simp [sendCellar]

@[simp] theorem takeCellar_keepsBytes (ctx off n : Nat) (s : State) : KeepsBytes s (takeCellar ctx off n s) := ⟨rfl, rfl, rfl⟩

@[simp] theorem failSnap_keepsBytes (ctx reason : Nat) (s : State) : KeepsBytes s (failSnap ctx reason s) := ⟨rfl, rfl, rfl⟩

@[simp] theorem clearDirty_keepsBytes (place : Nat) (s : State) : KeepsBytes s (clearDirty place s) := ⟨rfl, rfl, rfl⟩

@[simp] theorem startWalk_keepsBytes (die ctx va : Nat) (st : Stream) (dst : Option Nat) (s : State) :
    KeepsBytes s (startWalk die ctx va st dst s) :=
  ⟨rfl, rfl, rfl⟩

@[simp] theorem updEngine_keepsBytes (ctx : Nat) (st : Stream) (f : MemActor → MemActor) (h : Template → Template) (s : State) :
    KeepsBytes s (updEngine ctx st f h s) := by
  unfold updEngine; (repeat' split) <;> simp

@[simp] theorem setPagewait_keepsBytes (ctx : Nat) (st : Stream) (b : Bool) (s : State) : KeepsBytes s (setPagewait ctx st b s) := by
  simp [setPagewait]

@[simp] theorem setHeld_keepsBytes (ctx : Nat) (st : Stream) (b : Bool) (s : State) : KeepsBytes s (setHeld ctx st b s) := by simp [setHeld]

@[simp] theorem passEngine_keepsBytes (ctx : Nat) (st : Stream) (code : Nat) (info : Word) (s : State) :
    KeepsBytes s (passEngine ctx st code info s) := by
  unfold passEngine; split <;> simp

@[simp] theorem engineReport_keepsBytes (ctx : Nat) (st : Stream) (code : Nat) (info : Word) (s : State) :
    KeepsBytes s (engineReport ctx st code info s) := by
  unfold engineReport; split <;> simp

@[simp] theorem stopRing_keepsBytes (ctx va : Nat) (s : State) : KeepsBytes s (stopRing ctx va s) := by simp [stopRing]

@[simp] theorem streamGoesOn_keepsBytes (op : Nat) (o : Op) (s : State) : KeepsBytes s (streamGoesOn op o s) := by
  unfold streamGoesOn; (repeat' split) <;> simp

@[simp] theorem walkFault_keepsBytes (o : Op) (code : Nat) (s : State) : KeepsBytes s (walkFault o code s) := by
  unfold walkFault; split <;> simp

/-! ## Changes of `Dram` -/

@[simp] theorem askPackages_keepsBytes (n c scope : Nat) (s : State) : KeepsBytes s (askPackages n c scope s) := by
  unfold askPackages; dsimp only; (repeat' split) <;> simp

@[simp] theorem laterPass_keepsBytes (die : Nat) (s : State) : KeepsBytes s (laterPass die s) := ⟨rfl, rfl, rfl⟩

/-! ## Changes of `Atomic` -/

@[simp] theorem toPipeline_keepsBytes (id : Nat) (far : Bool) (s : State) : KeepsBytes s (toPipeline id far s) := by
  unfold toPipeline; split <;> simp

/-! ## Changes of `Engines` -/

@[simp] theorem passAgent_keepsBytes (c a : Nat) (s : State) : KeepsBytes s (passAgent c a s) := by unfold passAgent; split <;> simp

@[simp] theorem updMem_keepsBytes (c g m : Nat) (f : MemActor → MemActor) (s : State) : KeepsBytes s (updMem c g m f s) := by
  unfold updMem; split <;> simp

@[simp] theorem updCopy_keepsBytes (c g t : Nat) (f : Template → Template) (s : State) : KeepsBytes s (updCopy c g t f s) := by
  unfold updCopy; split <;> simp

@[simp] theorem markInjected_keepsBytes (c g : Nat) (s : State) : KeepsBytes s (markInjected c g s) := by
  unfold markInjected; split <;> simp

@[simp] theorem takeHead_keepsBytes (key : Nat) (s : State) : KeepsBytes s (takeHead key s) := by
  unfold takeHead; dsimp only; (repeat' split) <;> simp

@[simp] theorem engineSend_keepsBytes (key : Nat) (tok : Token) (s : State) : KeepsBytes s (engineSend key tok s) := by
  unfold engineSend; split <;> simp

@[simp] theorem deliverReady_keepsBytes (c g m : Nat) (s : State) (n : Nat) : KeepsBytes s (deliverReady c g m s n) := by
  induction n generalizing s with
  | zero => exact ⟨rfl, rfl, rfl⟩
  | succ n ih =>
    unfold deliverReady
    dsimp only
    repeat' split
    all_goals simp [ih]

@[simp] theorem settleEngine_keepsBytes (c g m : Nat) (s : State) : KeepsBytes s (settleEngine c g m s) := by
  unfold settleEngine
  dsimp only
  repeat' split
  all_goals simp

@[simp] theorem acceptRow_keepsBytes (c g m : Nat) (s : State) : KeepsBytes s (acceptRow c g m s) := by
  unfold acceptRow; dsimp only; (repeat' split) <;> simp

@[simp] theorem startUpdates_keepsBytes (c g m : Nat) (s : State) : KeepsBytes s (startUpdates c g m s) := by simp [startUpdates]

@[simp] theorem engineMarkers_keepsBytes (c g m : Nat) (s : State) : KeepsBytes s (engineMarkers c g m s) := by
  unfold engineMarkers; dsimp only; (repeat' split) <;> simp

@[simp] theorem failRecord_keepsBytes (c id : Nat) (s : State) : KeepsBytes s (failRecord c id s) := by simp [failRecord]

@[simp] theorem kickDone_keepsBytes (c tag n : Nat) (ok : Bool) (s : State) : KeepsBytes s (kickDone c tag n ok s) := by
  unfold kickDone; (repeat' split) <;> simp

@[simp] theorem markTemplate_keepsBytes (c g t : Nat) (s : State) : KeepsBytes s (markTemplate c g t s) := by
  unfold markTemplate; split <;> simp

@[simp] theorem copyMarkers_keepsBytes (c g t : Nat) (s : State) : KeepsBytes s (copyMarkers c g t s) := by
  unfold copyMarkers; dsimp only; (repeat' split) <;> simp

/-! ## Changes of `Graph` -/

@[simp] theorem updGraph_keepsBytes (c g : Nat) (f : Graph → Graph) (s : State) : KeepsBytes s (updGraph c g f s) := by
  unfold updGraph; split <;> simp

@[simp] theorem setListState_keepsBytes (c g m t : Nat) (st : ListState) (s : State) : KeepsBytes s (setListState c g m t st s) := by
  simp [setListState]

@[simp] theorem takeSlots_keepsBytes (c : Nat) (g : Graph) (l : List (Nat × Nat × Bool × List Nat)) (s : State) :
    KeepsBytes s (takeSlots c g l s) := by
  simp [takeSlots]

@[simp] theorem bindSeqPorts_keepsBytes (c slot : Nat) (g : Graph) (s : State) : KeepsBytes s (bindSeqPorts c slot g s) := by
  refine .foldl (fun s e => ?_) (.foldl (fun s e => .foldl (fun s m => ?_) (.refl s)) (.refl s))
  · dsimp only; repeat' split
    all_goals simp
  · dsimp only; repeat' split
    all_goals simp

@[simp] theorem startSeqs_keepsBytes (g : Graph) (s : State) : KeepsBytes s (startSeqs g s) :=
  .foldl (fun s e => by split <;> simp) (.refl s)

@[simp] theorem stageList_keepsBytes (c slot m : Nat) (l : ListDecl) (s : State) : KeepsBytes s (stageList c slot m l s) := by
  unfold stageList; dsimp only; (repeat' split) <;> simp

@[simp] theorem startTile_keepsBytes (slot : Nat) (g : Graph) (m : ModeDecl) (l : ListDecl) (region : Nat) (s : State) :
    KeepsBytes s (startTile slot g m l region s) :=
  ⟨rfl, rfl, rfl⟩

@[simp] theorem resetTensors_keepsBytes (g : Graph) (s : State) : KeepsBytes s (resetTensors g s) := ⟨rfl, rfl, rfl⟩

@[simp] theorem dropArrivals_keepsBytes (c slot : Nat) (s : State) : KeepsBytes s (dropArrivals c slot s) := ⟨rfl, rfl, rfl⟩

@[simp] theorem clearStores_keepsBytes (c slot : Nat) (s : State) : KeepsBytes s (clearStores c slot s) := by simp [clearStores]

@[simp] theorem oweReleases_keepsBytes (c slot : Nat) (s : State) : KeepsBytes s (oweReleases c slot s) := by
  refine .foldl (fun s e => ?_) (.refl s)
  split
  · split
    · refine .foldl (fun s n => ?_) (by simp)
      split
      · split <;> simp
      · simp
    · simp
  · simp

@[simp] theorem runRegions_keepsBytes (c slot : Nat) (s : State) : KeepsBytes s (runRegions c slot s) := ⟨rfl, rfl, rfl⟩

@[simp] theorem enterLanes_keepsBytes (c slot : Nat) (s : State) : KeepsBytes s (enterLanes c slot s) := ⟨rfl, rfl, rfl⟩

@[simp] theorem runEngines_keepsBytes (c slot : Nat) (s : State) : KeepsBytes s (runEngines c slot s) := ⟨rfl, rfl, rfl⟩

@[simp] theorem inject_keepsBytes (c slot : Nat) (s : State) : KeepsBytes s (inject c slot s) := by simp [inject]

@[simp] theorem requestMode_keepsBytes (c slot m : Nat) (s : State) : KeepsBytes s (requestMode c slot m s) := by
  unfold requestMode; dsimp only; (repeat' split) <;> simp

@[simp] theorem tellRanks_keepsBytes (c slot : Nat) (s : State) : KeepsBytes s (tellRanks c slot s) := by simp [tellRanks]

@[simp] theorem activate_keepsBytes (c g prio : Nat) (lat : Bool) (since : Nat) (record : Option Nat) (count : Nat) (s : State) :
    KeepsBytes s (activate c g prio lat since record count s) := by
  simp [activate]

@[simp] theorem startDrain_keepsBytes (c g : Nat) (s : State) : KeepsBytes s (startDrain c g s) := by
  unfold startDrain; dsimp only; (repeat' split) <;> simp

@[simp] theorem releaseGroups_keepsBytes (c slot : Nat) (s : State) : KeepsBytes s (releaseGroups c slot s) := by
  unfold releaseGroups
  simp

@[simp] theorem settleCtx_keepsBytes (c : Nat) (s : State) : KeepsBytes s (settleCtx c s) := by
  unfold settleCtx; dsimp only; (repeat' split) <;> simp

@[simp] theorem keepCupboards_keepsBytes (c slot : Nat) (s : State) : KeepsBytes s (keepCupboards c slot s) := by simp [keepCupboards]

@[simp] theorem completeDrain_keepsBytes (c slot : Nat) (s : State) : KeepsBytes s (completeDrain c slot s) := by
  unfold completeDrain; dsimp only; (repeat' split) <;> simp

@[simp] theorem unload_keepsBytes (c slot : Nat) (s : State) : KeepsBytes s (unload c slot s) := by
  unfold unload; dsimp only; split <;> simp

@[simp] theorem takeSlot_keepsBytes (c slot use va : Nat) (s : State) : KeepsBytes s (takeSlot c slot use va s) := ⟨rfl, rfl, rfl⟩

@[simp] theorem askColour_keepsBytes (o : Op) (s : State) : KeepsBytes s (askColour o s) := ⟨rfl, rfl, rfl⟩

/-! ## Changes of `Launch` -/

@[simp] theorem takeTail_keepsBytes (c : Nat) (s : State) : KeepsBytes s (takeTail c s) := by
  unfold takeTail; dsimp only; (repeat' split) <;> simp

@[simp] theorem takeRecord_keepsBytes (c w : Nat) (s : State) : KeepsBytes s (takeRecord c w s) := by
  unfold takeRecord; dsimp only; (repeat' split) <;> simp

@[simp] theorem updRecord_keepsBytes (c id : Nat) (f : LaunchRec → LaunchRec) (s : State) : KeepsBytes s (updRecord c id f s) :=
  ⟨rfl, rfl, rfl⟩

@[simp] theorem countDown_keepsBytes (c id : Nat) (s : State) : KeepsBytes s (countDown c id s) := by
  unfold countDown; dsimp only; (repeat' split) <;> simp

@[simp] theorem applyAllowance_keepsBytes (d : Nat) (s : State) : KeepsBytes s (applyAllowance d s) := by
  unfold applyAllowance
  dsimp only
  split
  · refine KeepsBytes.foldl_self (fun s e => ?_) _ _
    split
    · split <;> simp
    · simp
  · simp

/-! ## Changes of `Link` -/

@[simp] theorem regionReport_keepsBytes (k code : Nat) (info : Word) (s : State) : KeepsBytes s (regionReport k code info s) := by
  unfold regionReport; split <;> simp

@[simp] theorem ramoFault_keepsBytes (id : Nat) (o : Op) (info : Word) (s : State) : KeepsBytes s (ramoFault id o info s) := by
  unfold ramoFault; (repeat' split) <;> simp

@[simp] theorem linkEvent_keepsBytes (n : Nat) (info : Option Word) (s : State) : KeepsBytes s (linkEvent n info s) := by simp [linkEvent]

@[simp] theorem degrade_keepsBytes (n why : Nat) (s : State) : KeepsBytes s (degrade n why s) := by
  unfold degrade; dsimp only; (repeat' split) <;> simp

@[simp] theorem sendFrame_keepsBytes (n : Nat) (f : Frame) (s : State) : KeepsBytes s (sendFrame n f s) := ⟨rfl, rfl, rfl⟩

@[simp] theorem acceptToken_keepsBytes (n j : Nat) (tok : Token) (s : State) : KeepsBytes s (acceptToken n j tok s) := by
  unfold acceptToken; dsimp only; (repeat' split) <;> simp

@[simp] theorem retryStrays_keepsBytes (s : State) : KeepsBytes s (retryStrays s) := by simp [retryStrays]

@[simp] theorem acceptPointer_keepsBytes (n tag p : Nat) (s : State) : KeepsBytes s (acceptPointer n tag p s) := by
  unfold acceptPointer; (repeat' split) <;> simp

@[simp] theorem acceptReply_keepsBytes (n : Nat) (i : DynItem) (s : State) : KeepsBytes s (acceptReply n i s) := by
  unfold acceptReply; dsimp only; (repeat' split) <;> simp

@[simp] theorem acceptItem_keepsBytes (n : Nat) (s : State) (i : DynItem) : KeepsBytes s (acceptItem n s i) := by
  unfold acceptItem; (repeat' split) <;> simp

@[simp] theorem deliverFrame_keepsBytes (n : Nat) (f : Frame) (s : State) : KeepsBytes s (deliverFrame n f s) := by
  unfold deliverFrame; split <;> simp

@[simp] theorem releaseFrame_keepsBytes (n : Nat) (s : State) : KeepsBytes s (releaseFrame n s) := by
  unfold releaseFrame; dsimp only; (repeat' split) <;> simp

@[simp] theorem ignoreLcmd_keepsBytes (link : Nat) (s : State) : KeepsBytes s (ignoreLcmd link s) := by simp [ignoreLcmd]

@[simp] theorem loseFlight_keepsBytes (key lk : Nat) (s : State) : KeepsBytes s (loseFlight key lk s) := by
  unfold loseFlight; (repeat' split) <;> simp

@[simp] theorem loseDynamic_keepsBytes (u b : Nat) (s : State) : KeepsBytes s (loseDynamic u b s) := by
  unfold loseDynamic; dsimp only; (repeat' split) <;> simp

@[simp] theorem losePointer_keepsBytes (b : Nat) (s : State) : KeepsBytes s (losePointer b s) := by unfold losePointer; split <;> simp

@[simp] theorem loseFlit_keepsBytes (b w : Nat) (s : State) : KeepsBytes s (loseFlit b w s) := by unfold loseFlit; split <;> simp

@[simp] theorem sever_keepsBytes (r why : Nat) (s : State) : KeepsBytes s (sever r why s) := by
  refine .foldl (fun s e => ?_) (.foldl (fun s e => by simp) (.foldl (fun s e => by simp) ⟨rfl, rfl, rfl⟩))
  split <;> simp

@[simp] theorem repoint_keepsBytes (r why n : Nat) (s : State) : KeepsBytes s (repoint r why n s) := by
  unfold repoint; dsimp only; (repeat' split) <;> simp

@[simp] theorem tellWays_keepsBytes (c : Nat) (ways : List (Nat × Nat)) (s : State) : KeepsBytes s (tellWays c ways s) :=
  .foldl (fun s w => by split <;> simp) (.refl s)

/-! ## Changes of `Scalar` -/

@[simp] theorem jumpTo_keepsBytes (n : Nat) (target : Word) (s : State) : KeepsBytes s (jumpTo n target s) := ⟨rfl, rfl, rfl⟩

@[simp] theorem endCall_keepsBytes (n : Nat) (fault : Bool) (s : State) : KeepsBytes s (endCall n fault s) := ⟨rfl, rfl, rfl⟩

@[simp] theorem armLoop_keepsBytes (n : Nat) (l count span : Nat) (s : State) : KeepsBytes s (armLoop n l count span s) := ⟨rfl, rfl, rfl⟩

/-! ## Changes of `Tensor` -/

@[simp] theorem setBuffer_keepsBytes (mt i n : Nat) (full : Bool) (s : State) : KeepsBytes s (setBuffer mt i n full s) := by
  unfold setBuffer; dsimp only; (repeat' split) <;> simp

@[simp] theorem setTensor_keepsBytes (t : Nat) (x : Tensor) (s : State) : KeepsBytes s (setTensor t x s) := ⟨rfl, rfl, rfl⟩

@[simp] theorem reportTensor_keepsBytes (t why slot acc addr seg entry stamp : Nat) (op : Option Nat) (s : State) :
    KeepsBytes s (reportTensor t why slot acc addr seg entry stamp op s) := by
  simp [reportTensor]

@[simp] theorem setGroup_keepsBytes (c g i : Nat) (x : Group) (s : State) : KeepsBytes s (setGroup c g i x s) := by
  unfold setGroup; split <;> simp

@[simp] theorem emptyBuffer_keepsBytes (q a : Nat) (s : State) : KeepsBytes s (emptyBuffer q a s) := by unfold emptyBuffer; split <;> simp

@[simp] theorem settleWeights_keepsBytes (t : Nat) (s : State) : KeepsBytes s (settleWeights t s) := by
  unfold settleWeights; dsimp only; (repeat' split) <;> simp

@[simp] theorem addRows_keepsBytes (p : Pass) (q0 h j : Nat) (s : State) : KeepsBytes s (addRows p q0 h j s) :=
  .foldl (fun s c => .foldl (fun s m => by dsimp only; split <;> simp) (.refl s)) (.refl s)

/-! ## Changes of `Traps` -/

@[simp] theorem reissue_keepsBytes (id : Nat) (s : State) : KeepsBytes s (reissue id s) := by unfold reissue; (repeat' split) <;> simp

@[simp] theorem resumeRegion_keepsBytes (t k : Nat) (r : Report) (skip : Bool) (s : State) : KeepsBytes s (resumeRegion t k r skip s) := by
  unfold resumeRegion; (repeat' split) <;> simp

@[simp] theorem releaseReport_keepsBytes (t : Nat) (skip : Bool) (s : State) : KeepsBytes s (releaseReport t skip s) := by
  unfold releaseReport; dsimp only; (repeat' split) <;> simp

@[simp] theorem releaseEngine_keepsBytes (c : Nat) (st : Stream) (s : State) : KeepsBytes s (releaseEngine c st s) := by
  unfold releaseEngine; (repeat' split) <;> simp

@[simp] theorem releaseOwn_keepsBytes (n : Nat) (k : TrapKind) (skip : Bool) (s : State) : KeepsBytes s (releaseOwn n k skip s) := by
  unfold releaseOwn; (repeat' split) <;> simp

@[simp] theorem resumeForward_keepsBytes (m : Nat) (skip : Bool) (s : State) : KeepsBytes s (resumeForward m skip s) := by
  unfold resumeForward; split <;> simp

@[simp] theorem releaseForward_keepsBytes (m c : Nat) (skip : Bool) (s : State) : KeepsBytes s (releaseForward m c skip s) := by
  unfold releaseForward; (repeat' split) <;> simp

@[simp] theorem releaseTrap_keepsBytes (n : Nat) (k : TrapKind) (skip : Bool) (s : State) : KeepsBytes s (releaseTrap n k skip s) := by
  unfold releaseTrap; split <;> simp

@[simp] theorem withdrawDraw_keepsBytes (n : Nat) (s : State) : KeepsBytes s (withdrawDraw n s) := by unfold withdrawDraw; split <;> simp

@[simp] theorem atRamo_keepsBytes (n : Nat) (r : TrapReq) (s : State) : KeepsBytes s (atRamo n r s) := by
  unfold atRamo; (repeat' split) <;> simp

@[simp] theorem setSeed_keepsBytes (c : Nat) (v : Word) (s : State) : KeepsBytes s (setSeed c v s) := ⟨rfl, rfl, rfl⟩

@[simp] theorem wakeIdle_keepsBytes (n : Nat) (s : State) : KeepsBytes s (wakeIdle n s) := by unfold wakeIdle; split <;> simp

/-! ## Changes of `Preempt` -/

@[simp] theorem dropEngineOps_keepsBytes (c : Nat) (s : State) : KeepsBytes s (dropEngineOps c s) := ⟨rfl, rfl, rfl⟩

@[simp] theorem loseGraph_keepsBytes (c slot : Nat) (s : State) : KeepsBytes s (loseGraph c slot s) := by
  unfold loseGraph; (repeat' split) <;> simp

@[simp] theorem loseCtx_keepsBytes (c : Nat) (s : State) : KeepsBytes s (loseCtx c s) := by
  unfold loseCtx; dsimp only; (repeat' split) <;> simp

@[simp] theorem withdraw_keepsBytes (c slot : Nat) (s : State) : KeepsBytes s (withdraw c slot s) := by simp [withdraw]

@[simp] theorem startDrainSave_keepsBytes (c : Nat) (s : State) : KeepsBytes s (startDrainSave c s) := by simp [startDrainSave]

@[simp] theorem parkGraph_keepsBytes (c slot : Nat) (s : State) : KeepsBytes s (parkGraph c slot s) := by simp [parkGraph]

@[simp] theorem restoreGraph_keepsBytes (c slot : Nat) (old : Graph) (s : State) : KeepsBytes s (restoreGraph c slot old s) := by
  simp [restoreGraph]

@[simp] theorem beginRestore_keepsBytes (c : Nat) (s : State) : KeepsBytes s (beginRestore c s) := ⟨rfl, rfl, rfl⟩

@[simp] theorem actAgain_keepsBytes (c : Nat) (v : Saved) (s : State) : KeepsBytes s (actAgain c v s) :=
  .foldl (fun s g => by dsimp only; split <;> simp) (.refl s)

@[simp] theorem slowAccess_keepsBytes (id : Nat) (o : Op) (s : State) : KeepsBytes s (slowAccess id o s) := by
  unfold slowAccess; (repeat' split) <;> simp

@[simp] theorem retryAccess_keepsBytes (op lasting : Nat) (o : Op) (s : State) : KeepsBytes s (retryAccess op lasting o s) := by
  unfold retryAccess
  dsimp only
  cases o.endStep op <;> (repeat' split) <;> simp

@[simp] theorem retryEngine_keepsBytes (c : Nat) (st : Stream) (lasting d : Nat) (src addr : Nat) (s : State) :
    KeepsBytes s (retryEngine c st lasting d src addr s) := by
  unfold retryEngine; (repeat' split) <;> simp

theorem retryTensor_keepsBytes (o : Op) (lasting : Nat) {late gone : State → State} (hl : ∀ u, KeepsBytes u (late u))
    (hg : ∀ u, KeepsBytes u (gone u)) (s : State) : KeepsBytes s (retryTensor o lasting late gone s) := by
  unfold retryTensor
  dsimp only
  split
  · exact .trans (by simp) (hl _)
  · exact .trans (hg s) (by simp)

@[simp] theorem retryToken_keepsBytes (c tag lasting : Nat) (s : State) : KeepsBytes s (retryToken c tag lasting s) := by
  unfold retryToken; (repeat' split) <;> simp

@[simp] theorem resumeReloaded_keepsBytes (k : Nat) (s : State) : KeepsBytes s (resumeReloaded k s) := by
  unfold resumeReloaded
  dsimp only
  split
  · simp
  · exact .foldl (fun s j => by split <;> simp) (.refl s)

/-! ## Changes of `Snapshot` -/

@[simp] theorem updSnapId_keepsBytes (c id : Nat) (f : Snap → Snap) (s : State) : KeepsBytes s (updSnapId c id f s) := ⟨rfl, rfl, rfl⟩

@[simp] theorem recordMembers_keepsBytes (c slot : Nat) (f : End → Bool) (s : State) : KeepsBytes s (recordMembers c slot f s) :=
  .foldl (fun s j => .foldl (fun s m => by split <;> simp) (.refl s)) (.refl s)

@[simp] theorem addRecord_keepsBytes (c : Nat) (r : ActorRec) (s : State) : KeepsBytes s (addRecord c r s) := by simp [addRecord]

@[simp] theorem recordActor_keepsBytes (c slot k : Nat) (quiet : Bool) (s : State) : KeepsBytes s (recordActor c slot k quiet s) := by
  unfold recordActor
  extract_lets g a list t ports cup x r s₁ s₂
  have h₂ : KeepsBytes s s₂ := by
    refine .foldl (fun u p => ?_) (by simp [s₁])
    split
    · simp
    split
    · simp
    · split <;> simp
  exact h₂.trans (addRecord_keepsBytes ..)

@[simp] theorem recordIdle_keepsBytes (c slot : Nat) (s : State) : KeepsBytes s (recordIdle c slot s) := by simp [recordIdle]

@[simp] theorem injectSnap_keepsBytes (c slot : Nat) (s : State) : KeepsBytes s (injectSnap c slot s) := by
  unfold injectSnap
  dsimp only
  refine .foldl (fun u k => ?_) (.foldl (fun u e => ?_) (.foldl (fun u t => ?_) (.foldl (fun u d => ?_) (.refl s))))
  all_goals (repeat' split) <;> simp

@[simp] theorem clearMarks_keepsBytes (c id : Nat) (s : State) : KeepsBytes s (clearMarks c id s) := by
  unfold clearMarks; dsimp only; (repeat' split) <;> simp

@[simp] theorem freeCopies_keepsBytes (c : Nat) (s : State) : KeepsBytes s (freeCopies c s) := ⟨rfl, rfl, rfl⟩

@[simp] theorem retain_keepsBytes (c n : Nat) (s : State) : KeepsBytes s (retain c n s) := by
  induction n generalizing s with
  | zero => exact ⟨rfl, rfl, rfl⟩
  | succ n ih =>
    unfold retain
    dsimp only
    repeat' split
    all_goals simp [ih]

@[simp] theorem requestSnap_keepsBytes (c id : Nat) (dom : Bool) (w : Option Nat) (d : Nat) (s : State) :
    KeepsBytes s (requestSnap c id dom w d s) :=
  ⟨rfl, rfl, rfl⟩

@[simp] theorem rollGraph_keepsBytes (c : Nat) (p : Snap) (r : GraphRec) (s : State) : KeepsBytes s (rollGraph c p r s) := by
  unfold rollGraph
  split
  · simp
  · split
    · simp
    · simp

@[simp] theorem beginRollback_keepsBytes (c id h : Nat) (w : Option Nat) (s : State) : KeepsBytes s (beginRollback c id h w s) := by
  unfold beginRollback; dsimp only; (repeat' split) <;> simp

@[simp] theorem adoptStored_keepsBytes (c : Nat) (w : Option Nat) (s : State) : KeepsBytes s (adoptStored c w s) := by
  unfold adoptStored; dsimp only; (repeat' split) <;> simp

/-! ## Changes of `Platform` -/

@[simp] theorem allDies_keepsBytes (f : Nat → Die → Die) (s : State) : KeepsBytes s (allDies f s) := .foldl (fun s d => by simp) (.refl s)

@[simp] theorem bringUpStep_keepsBytes (k : Nat) (s : State) : KeepsBytes s (bringUpStep k s) := by
  unfold bringUpStep; split <;> simp

@[simp] theorem ignoreCommand_keepsBytes (d addr : Nat) (s : State) : KeepsBytes s (ignoreCommand d addr s) := by simp [ignoreCommand]

@[simp] theorem thermalTrip_keepsBytes (d : Nat) (s : State) : KeepsBytes s (thermalTrip d s) := by simp [thermalTrip]

@[simp] theorem hostReads_keepsBytes (v : Word) (s : State) : KeepsBytes s (hostReads v s) := ⟨rfl, rfl, rfl⟩

@[simp] theorem readRegister_keepsBytes (addr : Nat) (s : State) : KeepsBytes s (readRegister addr s) := by
  unfold readRegister; split <;> simp

@[simp] theorem windowWrite_keepsBytes (d off value : Nat) (s : State) : KeepsBytes s (windowWrite d off value s) := by
  unfold windowWrite; (repeat' split) <;> simp

@[simp] theorem command_keepsBytes (value : Nat) (s : State) : KeepsBytes s (command value s) := by unfold command; split <;> simp

@[simp] theorem linkCommand_keepsBytes (n value : Nat) (s : State) : KeepsBytes s (linkCommand n value s) := by
  unfold linkCommand; split <;> simp

/-! ## Changes of `Regions` -/

@[simp] theorem putDue_keepsBytes (t : Nat) (s : State) (p : Pending) : KeepsBytes s (putDue t s p) := by
  unfold putDue; dsimp only; (repeat' split) <;> simp

@[simp] theorem writeDue_keepsBytes (t : Nat) (s : State) : KeepsBytes s (writeDue t s) := by simp [writeDue]

@[simp] theorem askChunks_keepsBytes (r : Region) (s : State) : KeepsBytes s (askChunks r s) := by
  refine .foldl (fun s t => ?_) (.refl s)
  split
  · simp
  · refine .foldl (fun s e => ?_) (.refl s)
    dsimp only; split
    · split <;> simp
    · simp

@[simp] theorem takeReleases_keepsBytes (r : Region) (s : State) : KeepsBytes s (takeReleases r s) := by
  refine .foldl (fun s t => ?_) (.refl s)
  split
  · simp
  · exact .foldl (fun s e => by simp) (.refl s)

@[simp] theorem sendMarkers_keepsBytes (c : Nat) (tok : Token) (tags : List Nat) (s : State) : KeepsBytes s (sendMarkers c tok tags s) := by
  simp [sendMarkers]

@[simp] theorem forwardSnaps_keepsBytes (c slot : Nat) (s : State) : KeepsBytes s (forwardSnaps c slot s) := by
  unfold forwardSnaps
  dsimp only
  split
  · simp
  · exact .trans (.foldl (fun s f => by split <;> simp) (.refl s)) (updGraph_keepsBytes ..)

@[simp] theorem publishNext_keepsBytes (key : Nat) (s : State) : KeepsBytes s (publishNext key s) := by
  unfold publishNext; (repeat' split) <;> simp

@[simp] theorem publishAll_keepsBytes (r : Region) (s : State) : KeepsBytes s (publishAll r s) := by
  refine .foldl (fun s t => ?_) (.refl s)
  split
  · simp
  · refine .foldl (fun s e => ?_) (.refl s)
    split
    · split <;> simp
    · simp

@[simp] theorem restartTile_keepsBytes (t : Nat) (s : State) : KeepsBytes s (restartTile t s) := ⟨rfl, rfl, rfl⟩

@[simp] theorem countFires_keepsBytes (r : Region) (s : State) : KeepsBytes s (countFires r s) := by
  refine .foldl (fun s t => ?_) (.refl s)
  split
  · simp
  · exact .foldl (fun s k => by simp) (.refl s)

@[simp] theorem removeMarkers_keepsBytes (t p k : Nat) (ms rest : List Token) (s : State) :
    KeepsBytes s (removeMarkers t p k ms rest s).1 := by
  unfold removeMarkers; split <;> simp

@[simp] theorem examineHeads_keepsBytes (t : Nat) (s : State) : KeepsBytes s (examineHeads t s) := by
  refine .foldl (fun s e => ?_) (.refl s)
  dsimp only
  repeat' split
  all_goals simp

@[simp] theorem passMarkerPoints_keepsBytes (t k : Nat) (s : State) : KeepsBytes s (passMarkerPoints t k s) := by
  unfold passMarkerPoints; dsimp only; (repeat' split) <;> simp

@[simp] theorem closeLists_keepsBytes (t : Nat) (s : State) : KeepsBytes s (closeLists t s) := by
  unfold closeLists; dsimp only; (repeat' split) <;> simp

@[simp] theorem restRegion_keepsBytes (k : Nat) (s : State) : KeepsBytes s (restRegion k s) := by
  unfold restRegion; dsimp only; (repeat' split) <;> simp

@[simp] theorem endPeriod_keepsBytes (c slot k : Nat) (s : State) : KeepsBytes s (endPeriod c slot k s) := by
  unfold endPeriod; dsimp only; (repeat' split) <;> simp

@[simp] theorem nextPhase_keepsBytes (c slot k : Nat) (r : Region) (s : State) : KeepsBytes s (nextPhase c slot k r s) := by
  unfold nextPhase; dsimp only; (repeat' split) <;> simp

@[simp] theorem stepPasses_keepsBytes (c slot i : Nat) (s : State) : KeepsBytes s (stepPasses c slot i s).1 := by
  unfold stepPasses; dsimp only; split <;> simp

@[simp] theorem advancePasses_keepsBytes (k : Nat) (s : State) : KeepsBytes s (advancePasses k s) := by
  unfold advancePasses
  split
  · dsimp only; split <;> simp
  · simp

@[simp] theorem endCycle_keepsBytes (k : Nat) (s : State) : KeepsBytes s (endCycle k s) := by
  unfold endCycle; dsimp only; (repeat' split) <;> simp

/-! ## Changes of `Issue` -/

@[simp] theorem State.first_keepsBytes (s : State) (ts : List Task) : KeepsBytes s (State.first s ts) := ⟨rfl, rfl, rfl⟩

@[simp] theorem setLoops_keepsBytes (t : Nat) (vs : List (Nat × Nat)) (s : State) : KeepsBytes s (setLoops t vs s) := ⟨rfl, rfl, rfl⟩

@[simp] theorem afterEntry_keepsBytes (t : Nat) (l : ListStore) (p : Placement) (e : Entry) (i : Instr) (cur : Cur) (s : State) :
    KeepsBytes s (afterEntry t l p e i cur s) :=
  ⟨rfl, rfl, rfl⟩

@[simp] theorem nextBeat_keepsBytes (t e : Nat) (s : State) : KeepsBytes s (nextBeat t e s) := ⟨rfl, rfl, rfl⟩

@[simp] theorem holdRegion_keepsBytes (k st : Nat) (w : Waiting) (pre : List Task) (s : State) : KeepsBytes s (holdRegion k st w pre s) :=
  ⟨rfl, rfl, rfl⟩

@[simp] theorem delayCheck_keepsBytes (k : Nat) (s : State) : KeepsBytes s (delayCheck k s) := by unfold delayCheck; split <;> simp

@[simp] theorem ageResults_keepsBytes (r : Region) (s : State) : KeepsBytes s (ageResults r s) :=
  .foldl (fun s t => by split <;> simp) (.foldl (fun s t => by simp) (.refl s))

@[simp] theorem aheadTile_keepsBytes (v : Nat) (s : State) (t : Nat) : KeepsBytes s (aheadTile v s t) := by
  refine .foldl (fun s p => ?_) (.refl s)
  dsimp only
  repeat' split
  all_goals simp

/-! ## Changes of `Peers` -/

@[simp] theorem peerLoad_keepsBytes (c rank handle va : Nat) (s : State) : KeepsBytes s (peerLoad c rank handle va s) := by
  unfold peerLoad; dsimp only; (repeat' split) <;> simp

@[simp] theorem waitHere_keepsBytes (c rank n : Nat) (ids : List Nat) (s : State) : KeepsBytes s (waitHere c rank n ids s) := by
  unfold waitHere; split <;> simp

/-! ## Changes of `Sched` -/

@[simp] theorem answerStats_keepsBytes (t : Nat) (s : State) : KeepsBytes s (answerStats t s) := by
  refine .foldl (fun s e => ?_) (.refl s)
  split
  · split <;> simp
  · simp

@[simp] theorem readOperands_keepsBytes (t : Nat) (s : State) : KeepsBytes s (readOperands t s) := by simp [readOperands]

@[simp] theorem forwardStops_keepsBytes (c slot : Nat) (s : State) : KeepsBytes s (forwardStops c slot s) := by simp [forwardStops]

@[simp] theorem markSpawnArcs_keepsBytes (c slot : Nat) (s : State) : KeepsBytes s (markSpawnArcs c slot s) := by
  unfold markSpawnArcs; dsimp only; (repeat' split) <;> simp

@[simp] theorem dropReleases_keepsBytes (c slot j : Nat) (s : State) : KeepsBytes s (dropReleases c slot j s) :=
  .foldl (fun s m => by split <;> simp) (.refl s)

@[simp] theorem restJoins_keepsBytes (c slot : Nat) (s : State) : KeepsBytes s (restJoins c slot s) := by
  refine .foldl (fun s e => ?_) (.refl s)
  dsimp only
  split <;> simp

@[simp] theorem closeQuiet_keepsBytes (c slot : Nat) (s : State) : KeepsBytes s (closeQuiet c slot s) := by
  unfold closeQuiet; dsimp only; (repeat' split) <;> simp

@[simp] theorem tellResidue_keepsBytes (c slot : Nat) (s : State) : KeepsBytes s (tellResidue c slot s) := by
  unfold tellResidue; dsimp only; (repeat' split) <;> simp

@[simp] theorem injectDeferred_keepsBytes (c slot : Nat) (s : State) : KeepsBytes s (injectDeferred c slot s) := by
  unfold injectDeferred; split <;> simp

@[simp] theorem restage_keepsBytes (c slot : Nat) (s : State) : KeepsBytes s (restage c slot s) := by
  unfold restage; dsimp only; (repeat' split) <;> simp

@[simp] theorem writeWdog_keepsBytes (c slot reg limit : Nat) (s : State) : KeepsBytes s (writeWdog c slot reg limit s) := by
  unfold writeWdog; dsimp only; (repeat' split) <;> simp

@[simp] theorem measureDies_keepsBytes (s : State) : KeepsBytes s (measureDies s) := by simp [measureDies]

@[simp] theorem tick_keepsBytes (s : State) : KeepsBytes s (tick s) := by simp [tick]

end Sys2Proof.Machine
end

/-! # Meanings that keep the bytes

What is said of the bytes alone is said of the next state too, for every meaning of an instruction or event that writes none. -/
section
namespace Sys2Proof.Machine

/-- What is said of the bytes of a state: of device memory, of a peer's memory and of near memory. -/
@[simp] abbrev State.Has (P : Memory → Memory → Memory → Prop) (s : State) : Prop := P s.mem s.peerMem s.near

/-- What is said of the bytes of the state that a step goes on to, if it goes on to one. -/
inductive NextHas (P : Memory → Memory → Memory → Prop) : StepResult → Prop
  | next {u : State} (h : u.Has P) : NextHas P (.next u)
  | fault (x : Fault) : NextHas P (.fault x)
  | refused (x : Refusal) : NextHas P (.refused x)

section frames
variable {P : Memory → Memory → Memory → Prop}

@[simp] theorem nextHas_next {u : State} : NextHas P (.next u) ↔ P u.mem u.peerMem u.near :=
  ⟨fun | .next h => h, .next⟩
@[simp] theorem nextHas_fault {x : Fault} : NextHas P (.fault x) := .fault x
@[simp] theorem nextHas_refused {x : Refusal} : NextHas P (.refused x) := .refused x
@[simp] theorem nextHas_ite {c : Prop} [Decidable c] {a b : StepResult} :
    NextHas P (if c then a else b) ↔ if c then NextHas P a else NextHas P b := by split <;> rfl

theorem NextHas.ite {c : Prop} [Decidable c] {a b : StepResult} (ha : NextHas P a) (hb : NextHas P b) : NextHas P (if c then a else b) := by
  split
  · exact ha
  · exact hb

theorem NextHas.of_next {r : StepResult} {u : State} (hr : NextHas P r) (h : r = .next u) : u.Has P := by
  subst h; exact nextHas_next.1 hr

theorem KeepsBytes.has {s u : State} (h : KeepsBytes s u) (hs : s.Has P) : u.Has P := by
  obtain ⟨hm, hp, hn⟩ := h
  simpa [hm, hp, hn] using hs

/-! ## Meanings of `Ops` -/

@[simp] theorem finishScalar_has {lat : Nat} {d : BitVec 6} {v : Word} {s : State} (h : s.Has P) : NextHas P (finishScalar lat d v s) := by
  unfold finishScalar
  split <;> simp [h]

@[simp] theorem finishFree_has {n : Nat} {s : State} (h : s.Has P) : NextHas P (finishFree n s) := by simp [finishFree, h]

@[simp] theorem finishOpen_has {n : Nat} {d : BitVec 6} {v : Word} {s : State} (h : s.Has P) : NextHas P (finishOpen n d v s) := by
  simp [finishOpen, h]

theorem onSeq_has {s : State} {f : Nat → StepResult} (hf : ∀ n, NextHas P (f n)) : NextHas P (onSeq s f) := by
  unfold onSeq; split <;> simp [hf]

@[simp] theorem finish_has {s : State} (h : s.Has P) : NextHas P (finish s) := by
  unfold finish
  split <;> simp [h]

@[simp] theorem raise_has {code : Nat} {info : Word} {s : State} (h : s.Has P) : NextHas P (raise code info s) := by
  unfold raise
  split <;> simp [h]

theorem onTile_has {s : State} {f : Nat → StepResult} (h : s.Has P) (hf : ∀ t, NextHas P (f t)) : NextHas P (onTile s f) := by
  unfold onTile; split
  · exact hf _
  · simpa using h

/-! ## Meanings of `Operands` -/

@[simp] theorem finishElems_has {lat w : Nat} {fold : BitVec 2} {d : BitVec 6} {en : Nat → Bool} {f : Nat → Nat} {s : State} (h : s.Has P) :
    NextHas P (finishElems lat w fold d en f s) := by
  refine onTile_has h fun t => ?_
  simp [h]

@[simp] theorem finishWhole_has {lat : Nat} {fold : BitVec 2} {rs : List Result} {s : State} (h : s.Has P) :
    NextHas P (finishWhole lat fold rs s) := by
  refine onTile_has h fun t => ?_
  simp [h]

@[simp] theorem finishCompare_has {lat w : Nat} {fold : BitVec 2} {d : BitVec 6} {f : Nat → Bool} {s : State} (h : s.Has P) :
    NextHas P (finishCompare lat w fold d f s) := by
  refine onTile_has h fun t => ?_
  simp [h]

/-! ## Meanings of `Arcs` -/

@[simp] theorem freeze_has {why : FreezeWhy} {port tag : Nat} {s : State} (h : s.Has P) : NextHas P (freeze why port tag s) := by
  unfold freeze
  split <;> simp [h]

@[simp] theorem raiseRate_has {t p : Nat} {x : Port} {s : State} (h : s.Has P) : NextHas P (raiseRate t p x s) := by simp [raiseRate, h]

@[simp] theorem execPop_has {_fold : BitVec 2} {d a : BitVec 6} {s : State} (h : s.Has P) : NextHas P (execPop _fold d a s) := by
  refine onTile_has h fun t => ?_
  dsimp only
  (repeat' split) <;> simp [h]

@[simp] theorem execPopd_has {_fold : BitVec 2} {a : BitVec 6} {s : State} (h : s.Has P) : NextHas P (execPopd _fold a s) := by
  refine onTile_has h fun t => ?_
  dsimp only
  (repeat' split) <;> simp [h]

@[simp] theorem execPeek_has {_fold : BitVec 2} {d a : BitVec 6} {s : State} (h : s.Has P) : NextHas P (execPeek _fold d a s) := by
  refine onTile_has h fun t => ?_
  dsimp only
  (repeat' split) <;> simp [h]

@[simp] theorem sendOnPort_has {p : Nat} {counted : Bool} {tok : Token} {s : State} (h : s.Has P) :
    NextHas P (sendOnPort p counted tok s) := by
  refine onTile_has h fun t => ?_
  dsimp only
  (repeat' split) <;> simp [h]

@[simp] theorem execPunctall_has {s : State} (h : s.Has P) : NextHas P (execPunctall s) := by
  refine onTile_has h fun t => ?_
  dsimp only
  split
  · exact raise_has h
  split
  · exact freeze_has h
  · refine .next ((KeepsBytes.foldl_self (fun u e => ?_) _ _).has h)
    split <;> simp

@[simp] theorem execCret_has {d : BitVec 6} {s : State} (h : s.Has P) : NextHas P (execCret d s) := by
  refine onTile_has h fun t => ?_
  simp [h]

@[simp] theorem execScheduledTokenArrival_has {ctx tag : Nat} {s : State} (h : s.Has P) :
    NextHas P (execScheduledTokenArrival ctx tag s) := by
  simp [execScheduledTokenArrival, h]

@[simp] theorem execRingWindowWrite_has {ctx tag : Nat} {s : State} (h : s.Has P) : NextHas P (execRingWindowWrite ctx tag s) := by
  unfold execRingWindowWrite
  dsimp only
  (repeat' split) <;> simp [h]

@[simp] theorem execCreditArrival_has {ctx tag : Nat} {s : State} (h : s.Has P) : NextHas P (execCreditArrival ctx tag s) := by
  unfold execCreditArrival
  dsimp only
  (repeat' split) <;> simp [h]

@[simp] theorem execChunkGrant_has {ctx tag : Nat} {s : State} (h : s.Has P) : NextHas P (execChunkGrant ctx tag s) := by
  unfold execChunkGrant
  dsimp only
  (repeat' split) <;> simp [h]

/-! ## Meanings of `Control` -/

@[simp] theorem execJoinSignalArrival_has {ctx slot join member : Nat} {s : State} (h : s.Has P) :
    NextHas P (execJoinSignalArrival ctx slot join member s) := by
  simp [execJoinSignalArrival, h]

@[simp] theorem execReleaseArrival_has {ctx slot join member : Nat} {s : State} (h : s.Has P) :
    NextHas P (execReleaseArrival ctx slot join member s) := by
  unfold execReleaseArrival
  split <;> simp [h]

@[simp] theorem execControlTokenArrival_has {ctx tag : Nat} {s : State} (h : s.Has P) : NextHas P (execControlTokenArrival ctx tag s) := by
  unfold execControlTokenArrival
  dsimp only
  (repeat' split) <;> simp [h]

theorem checkPort_has {ok : Bool} {s : State} {r : StepResult} (h : s.Has P) (hr : NextHas P r) : NextHas P (checkPort ok s r) := by
  unfold checkPort; split
  · split
    · exact hr
    · simpa using h
  · exact hr

@[simp] theorem execCsig_has {d : BitVec 6} {s : State} (h : s.Has P) : NextHas P (execCsig d s) := by
  refine checkPort_has h ?_
  simp [h]

@[simp] theorem execCwait_has {a : BitVec 6} {s : State} (h : s.Has P) : NextHas P (execCwait a s) := by
  refine onSeq_has fun n => checkPort_has h ?_
  dsimp only
  split
  · simpa using h
  · split <;> exact finish_has (by simpa using h)

@[simp] theorem execCtest_has {d a : BitVec 6} {s : State} (h : s.Has P) : NextHas P (execCtest d a s) :=
  onSeq_has fun _ => checkPort_has h (finishScalar_has h)

theorem tagOp_has {c : Nat} {s : State} {k : Nat → State → StepResult} (h : s.Has P) (hk : ∀ n u, u.Has P → NextHas P (k n u)) :
    NextHas P (tagOp c s k) := by
  unfold tagOp
  dsimp only
  split
  · exact hk _ _ h
  split
  · exact raise_has h
  · exact hk _ _ (by simpa using h)

@[simp] theorem execOrderTokenArrival_has {unit chan seqn : Nat} {s : State} (h : s.Has P) :
    NextHas P (execOrderTokenArrival unit chan seqn s) := by
  simp [execOrderTokenArrival, h]

@[simp] theorem execOrdj_has {d a : BitVec 6} {s : State} (h : s.Has P) : NextHas P (execOrdj d a s) := by
  refine checkPort_has h ?_
  simp [h]

/-! ## Meanings of `Near` -/

theorem nearCheck_has {ea : Word} {words : Nat} {presence : Bool} {s : State} {k : Nat → Nat → StepResult} (h : s.Has P)
    (hk : ∀ mt o, NextHas P (k mt o)) : NextHas P (nearCheck ea words presence s k) := by
  unfold nearCheck
  dsimp only
  split
  · exact raise_has h
  split
  · exact raise_has h
  split
  · exact raise_has h
  split
  · exact hk _ _
  · exact raise_has h

@[simp] theorem execPresenceReadServed_has {op : Nat} {s : State} (h : s.Has P) : NextHas P (execPresenceReadServed op s) := by
  unfold execPresenceReadServed
  split <;> simp [h]

@[simp] theorem nearLoad_has {kind : OpKind} {ea : Word} {words : Nat} {presence vec : Bool} {d : BitVec 6} {s : State} (h : s.Has P) :
    NextHas P (nearLoad kind ea words presence vec d s) := by
  refine nearCheck_has h fun _ _ => ?_
  simp [h]

@[simp] theorem nearStore_has {kind : OpKind} {ea : Word} {words : Nat} {presence : Bool} {ch : Nat} {s : State} (h : s.Has P) :
    NextHas P (nearStore kind ea words presence ch s) :=
  nearCheck_has h fun _ _ => tagOp_has h fun _ _ hu => finish_has (by simpa using hu)

@[simp] theorem execNld_has {d a : BitVec 6} {imm : BitVec 26} {s : State} (h : s.Has P) : NextHas P (execNld d a imm s) := by
  refine onTile_has h fun t => ?_
  simp [h]

@[simp] theorem execNst_has {d a b : BitVec 6} {ocx : BitVec 4} {s : State} (h : s.Has P) : NextHas P (execNst d a b ocx s) := by
  refine onTile_has h fun t => ?_
  simp [h]

@[simp] theorem execPldv_has {d a b : BitVec 6} {s : State} (h : s.Has P) : NextHas P (execPldv d a b s) := by
  refine onTile_has h fun t => ?_
  simp [h]

@[simp] theorem execPstv_has {d a b : BitVec 6} {ocx : BitVec 4} {s : State} (h : s.Has P) : NextHas P (execPstv d a b ocx s) := by
  refine onTile_has h fun t => ?_
  simp [h]

@[simp] theorem execPclr_has {a b : BitVec 6} {s : State} (h : s.Has P) : NextHas P (execPclr a b s) := by
  unfold execPclr
  dsimp only
  split
  · exact finish_has h
  refine nearCheck_has h fun mt o => ?_
  split
  · split
    · exact raise_has h
    · exact finish_has (by simpa using h)
  · exact raise_has h

@[simp] theorem execAgset_has {d a : BitVec 6} {s : State} (h : s.Has P) : NextHas P (execAgset d a s) := by
  refine onTile_has h fun t => ?_
  refine nearCheck_has h fun _ _ => ?_
  simp [h]

@[simp] theorem execGeneratorTakePattern_has {mtile gen : Nat} {s : State} (h : s.Has P) :
    NextHas P (execGeneratorTakePattern mtile gen s) := by
  unfold execGeneratorTakePattern
  dsimp only
  (repeat' split) <;> simp [h]

@[simp] theorem giveOffsets_keepsBytes (mt : Nat) (l : List (Nat × Nat)) (r : State × Generator) :
    KeepsBytes r.1 (giveOffsets mt l r).1 := by
  induction l generalizing r with
  | nil => exact .refl _
  | cons t l ih =>
    refine .trans ?_ (ih _)
    dsimp only
    split <;> simp

theorem genAccess_has {ag : BitVec 6} {s : State} {k : Nat → Nat → State → State} (h : s.Has P) (hk : ∀ mt o u, KeepsBytes u (k mt o u)) :
    NextHas P (genAccess ag s k) := by
  unfold genAccess
  extract_lets p l g n open_ o takers r src
  split
  · exact finish_has (by simpa [r, hk] using h)
  · exact raise_has h

@[simp] theorem execAgld_has {d a : BitVec 6} {s : State} (h : s.Has P) : NextHas P (execAgld d a s) := by
  refine onTile_has h fun t => ?_
  refine genAccess_has h fun _ _ _ => ?_
  simp

@[simp] theorem execAgst_has {d a : BitVec 6} {s : State} (h : s.Has P) : NextHas P (execAgst d a s) := by
  refine onTile_has h fun t => ?_
  refine genAccess_has h fun _ _ _ => ?_
  simp

/-! ## Meanings of `Pages` -/

@[simp] theorem execWalkComplete_has {op : Nat} {s : State} (h : s.Has P) : NextHas P (execWalkComplete op s) := by
  unfold execWalkComplete
  dsimp only
  (repeat' split) <;> simp [h]

/-! ## Meanings of `Dram` -/

@[simp] theorem stay_has {n : Nat} {r : RunState} {s : State} (h : s.Has P) : NextHas P (stay n r s) := by simp [stay, h]

@[simp] theorem passOn_has {n : Nat} {s : State} (h : s.Has P) : NextHas P (passOn n s) := by simp [passOn, h]

@[simp] theorem issueAndStay_has {n : Nat} {r : RunState} {s : State} (h : s.Has P) : NextHas P (issueAndStay n r s) := by
  simp [issueAndStay, h]

@[simp] theorem passIssued_has {n : Nat} {s : State} (h : s.Has P) : NextHas P (passIssued n s) := by simp [passIssued, h]

@[simp] theorem execFence_has {scope : BitVec 3} {s : State} (h : s.Has P) : NextHas P (execFence scope s) := by
  refine onSeq_has fun n => ?_
  simp [h]

@[simp] theorem execPginv_has {a b : BitVec 6} {scope : BitVec 4} {s : State} (h : s.Has P) : NextHas P (execPginv a b scope s) := by
  refine onSeq_has fun n => ?_
  (repeat' split) <;> simp [h]

@[simp] theorem execPgfence_has {scope : BitVec 4} {s : State} (h : s.Has P) : NextHas P (execPgfence scope s) := by
  refine onSeq_has fun n => ?_
  (repeat' split) <;> simp [h]

@[simp] theorem execPgstat_has {d a : BitVec 6} {s : State} (h : s.Has P) : NextHas P (execPgstat d a s) := by
  refine onSeq_has fun n => ?_
  dsimp only
  (repeat' split) <;> simp [h]

@[simp] theorem execMigrationRequest_has {die w0 w1 w2 w3 : Nat} {s : State} (h : s.Has P) :
    NextHas P (execMigrationRequest die w0 w1 w2 w3 s) := by
  simp [execMigrationRequest, h]

@[simp] theorem execTestBankStart_has {die bank : Nat} {s : State} (h : s.Has P) : NextHas P (execTestBankStart die bank s) := by
  simp [execTestBankStart, h]

/-! ## Meanings of `Atomic` -/

theorem atomicCheck_has {a : Word} {scope : Nat} {s : State} {k : Nat → Nat → StepResult} (h : s.Has P) (hk : ∀ mt o, NextHas P (k mt o)) :
    NextHas P (atomicCheck a scope s k) := by
  unfold atomicCheck
  split
  · exact raise_has h
  split
  · exact raise_has h
  split
  · exact raise_has h
  split
  · exact raise_has h
  · exact hk _ _

@[simp] theorem atomic_has {sub : Nat} {d : Option (BitVec 6)} {a b c : BitVec 6} {oc scope : BitVec 3} {s : State} (h : s.Has P) :
    NextHas P (atomic sub d a b c oc scope s) :=
  atomicCheck_has h fun _ _ => tagOp_has h fun _ _ hu => by
    dsimp only
    split <;> exact finish_has (by simpa using hu)

@[simp] theorem execFarAtomicReply_has {op : Nat} {s : State} (h : s.Has P) : NextHas P (execFarAtomicReply op s) := by
  unfold execFarAtomicReply
  split <;> simp [h]

/-! ## Meanings of `Engines` -/

@[simp] theorem execDramReply_has {op : Nat} {s : State} (h : s.Has P) : NextHas P (execDramReply op s) := by
  unfold execDramReply
  (repeat' split) <;> simp [h]

@[simp] theorem execGatherIndexTake_has {ctx slot ma : Nat} {s : State} (h : s.Has P) : NextHas P (execGatherIndexTake ctx slot ma s) := by
  unfold execGatherIndexTake
  (repeat' split) <;> simp [h]

@[simp] theorem execMemoryActorQuiescent_has {ctx slot ma : Nat} {s : State} (h : s.Has P) :
    NextHas P (execMemoryActorQuiescent ctx slot ma s) := by
  simp [execMemoryActorQuiescent, h]

@[simp] theorem execCopyFiring_has {ctx slot tpl : Nat} {s : State} (h : s.Has P) : NextHas P (execCopyFiring ctx slot tpl s) := by
  unfold execCopyFiring
  (repeat' split) <;> simp [h]

@[simp] theorem execCopyCompletion_has {ctx slot tpl : Nat} {s : State} (h : s.Has P) : NextHas P (execCopyCompletion ctx slot tpl s) := by
  unfold execCopyCompletion
  dsimp only
  (repeat' split) <;> simp [h]

@[simp] theorem graphFault_has {n reason : Nat} {s : State} (h : s.Has P) : NextHas P (graphFault n reason s) := by simp [graphFault, h]

@[simp] theorem execCkick_has {a : BitVec 6} {tag : BitVec 12} {s : State} (h : s.Has P) : NextHas P (execCkick a tag s) := by
  unfold execCkick
  dsimp only
  split
  · split
    · simpa using h
    · exact freeze_has h
  split
  · split
    · exact passOn_has (by simpa using h)
    · exact stay_has h
  split
  · exact graphFault_has h
  split
  · exact passOn_has (by simpa using h)
  · exact stay_has h

/-! ## Meanings of `Graph` -/

@[simp] theorem execStartPulse_has {ctx slot : Nat} {s : State} (h : s.Has P) : NextHas P (execStartPulse ctx slot s) := by
  unfold execStartPulse
  (repeat' split) <;> simp [h]

@[simp] theorem execModeRequestArrival_has {ctx slot point : Nat} {s : State} (h : s.Has P) :
    NextHas P (execModeRequestArrival ctx slot point s) := by
  unfold execModeRequestArrival
  dsimp only
  (repeat' split) <;> simp [h]

@[simp] theorem execSetmode_has {a : BitVec 6} {mode : BitVec 3} {s : State} (h : s.Has P) : NextHas P (execSetmode a mode s) := by
  refine onSeq_has fun n => ?_
  dsimp only
  (repeat' split) <;> simp [h]

@[simp] theorem execGact_has {a : BitVec 6} {s : State} (h : s.Has P) : NextHas P (execGact a s) := by
  refine onSeq_has fun n => ?_
  dsimp only
  (repeat' split) <;> simp [h]

@[simp] theorem execGdrain_has {a : BitVec 6} {s : State} (h : s.Has P) : NextHas P (execGdrain a s) := by
  refine onSeq_has fun n => ?_
  dsimp only
  (repeat' split) <;> simp [h]

@[simp] theorem execGunld_has {a : BitVec 6} {s : State} (h : s.Has P) : NextHas P (execGunld a s) := by
  refine onSeq_has fun n => ?_
  dsimp only
  (repeat' split) <;> simp [h]

@[simp] theorem execGld_has {d a b : BitVec 6} {s : State} (h : s.Has P) : NextHas P (execGld d a b s) := by
  refine onSeq_has fun n => ?_
  dsimp only
  (repeat' split) <;> simp [h]

@[simp] theorem execGstat_has {d a : BitVec 6} {s : State} (h : s.Has P) : NextHas P (execGstat d a s) := by
  refine onSeq_has fun n => ?_
  dsimp only
  (repeat' split) <;> simp [h]

@[simp] theorem execMstat_has {d a : BitVec 6} {s : State} (h : s.Has P) : NextHas P (execMstat d a s) := by
  refine onSeq_has fun n => ?_
  dsimp only
  (repeat' split) <;> simp [h]

@[simp] theorem execGpatch_has {d a : BitVec 6} {tag : BitVec 12} {s : State} (h : s.Has P) : NextHas P (execGpatch d a tag s) := by
  refine onSeq_has fun n => ?_
  dsimp only
  (repeat' split) <;> simp [h]

@[simp] theorem execSpawn_has {d a : BitVec 6} {tag : BitVec 12} {s : State} (h : s.Has P) : NextHas P (execSpawn d a tag s) := by
  unfold execSpawn
  dsimp only
  split
  · split
    · exact freeze_has h
    · simpa using h
  split
  · split
    · split
      · exact passOn_has (by simpa using h)
      · exact stay_has h
    · exact passOn_has h
  · split
    · exact graphFault_has h
    · exact stay_has (by simpa using h)

@[simp] theorem execColourDraw_has {op : Nat} {s : State} (h : s.Has P) : NextHas P (execColourDraw op s) := by
  unfold execColourDraw
  (repeat' split) <;> simp [h]

/-! ## Meanings of `Launch` -/

@[simp] theorem execRecordRun_has {ctx id : Nat} {s : State} (h : s.Has P) : NextHas P (execRecordRun ctx id s) := by
  unfold execRecordRun
  (repeat' split) <;> simp [h]

@[simp] theorem execRecordKick_has {ctx id : Nat} {s : State} (h : s.Has P) : NextHas P (execRecordKick ctx id s) := by
  unfold execRecordKick
  dsimp only
  (repeat' split) <;> simp [h]

@[simp] theorem execRecordMode_has {ctx id : Nat} {s : State} (h : s.Has P) : NextHas P (execRecordMode ctx id s) := by
  unfold execRecordMode
  (repeat' split) <;> simp [h]

@[simp] theorem execRecordNote_has {ctx id : Nat} {s : State} (h : s.Has P) : NextHas P (execRecordNote ctx id s) := by
  unfold execRecordNote
  split <;> simp [h]

@[simp] theorem execRecordUnload_has {ctx id : Nat} {s : State} (h : s.Has P) : NextHas P (execRecordUnload ctx id s) := by
  unfold execRecordUnload
  (repeat' split) <;> simp [h]

@[simp] theorem execRecordFinish_has {ctx id : Nat} {s : State} (h : s.Has P) : NextHas P (execRecordFinish ctx id s) := by
  unfold execRecordFinish
  split <;> simp [h]

/-! ## Meanings of `Link` -/

@[simp] theorem execFrameSend_has {link : Nat} {s : State} (h : s.Has P) : NextHas P (execFrameSend link s) := by simp [execFrameSend, h]

@[simp] theorem execFrameResend_has {link : Nat} {s : State} (h : s.Has P) : NextHas P (execFrameResend link s) := by
  unfold execFrameResend
  dsimp only
  (repeat' split) <;> simp [h]

@[simp] theorem execFrameDelivery_has {link fseq flip sent : Nat} {s : State} (h : s.Has P) :
    NextHas P (execFrameDelivery link fseq flip sent s) := by
  simp [execFrameDelivery, h]

@[simp] theorem execFrameHoldTimeout_has {link : Nat} {s : State} (h : s.Has P) : NextHas P (execFrameHoldTimeout link s) := by
  simp [execFrameHoldTimeout, h]

@[simp] theorem execLinkTrainingDone_has {link ok : Nat} {s : State} (h : s.Has P) : NextHas P (execLinkTrainingDone link ok s) := by
  simp [execLinkTrainingDone, h]

@[simp] theorem execLinkEnable_has {link : Nat} {s : State} (h : s.Has P) : NextHas P (execLinkEnable link s) := by simp [execLinkEnable, h]

@[simp] theorem execCarrierLoss_has {link : Nat} {s : State} (h : s.Has P) : NextHas P (execCarrierLoss link s) := by
  simp [execCarrierLoss, h]

@[simp] theorem execLinkRetrain_has {link : Nat} {s : State} (h : s.Has P) : NextHas P (execLinkRetrain link s) := by
  simp [execLinkRetrain, h]

@[simp] theorem execLinkReset_has {link : Nat} {s : State} (h : s.Has P) : NextHas P (execLinkReset link s) := by simp [execLinkReset, h]

@[simp] theorem execPcycAdopt_has {link master : Nat} {s : State} (h : s.Has P) : NextHas P (execPcycAdopt link master s) := by
  simp [execPcycAdopt, h]

@[simp] theorem execBoundaryFlitCrossing_has {boundary errors : Nat} {s : State} (h : s.Has P) :
    NextHas P (execBoundaryFlitCrossing boundary errors s) := by
  unfold execBoundaryFlitCrossing
  (repeat' split) <;> simp [h]

@[simp] theorem execBoundaryFlitResend_has {boundary fails : Nat} {s : State} (h : s.Has P) :
    NextHas P (execBoundaryFlitResend boundary fails s) := by
  unfold execBoundaryFlitResend
  dsimp only
  (repeat' split) <;> simp [h]

@[simp] theorem ramo_has {sub : Nat} {d a b c : BitVec 6} {oc : BitVec 3} {s : State} (h : s.Has P) :
    NextHas P (ramo sub d a b c oc s) := by
  unfold ramo
  dsimp only
  split
  · exact raise_has h
  split
  · exact raise_has h
  split
  · exact raise_has h
  · refine tagOp_has h fun seqn u hu => ?_
    split <;> exact finish_has (by simpa using hu)

@[simp] theorem execRamoReply_has {op : Nat} {s : State} (h : s.Has P) : NextHas P (execRamoReply op s) := by
  unfold execRamoReply
  split <;> simp [h]

@[simp] theorem execRankLost_has {rank : Nat} {s : State} (h : s.Has P) : NextHas P (execRankLost rank s) := by simp [execRankLost, h]

@[simp] theorem rankFault_has {n reason : Nat} {s : State} (h : s.Has P) : NextHas P (rankFault n reason s) := by simp [rankFault, h]

@[simp] theorem execRkset_has {a b : BitVec 6} {s : State} (h : s.Has P) : NextHas P (execRkset a b s) := by
  refine onSeq_has fun n => ?_
  dsimp only
  (repeat' split) <;> simp [h]

@[simp] theorem execRkget_has {d a : BitVec 6} {s : State} (h : s.Has P) : NextHas P (execRkget d a s) := by
  refine onSeq_has fun n => ?_
  simp [h]

/-! ## Meanings of `Modular` -/

@[simp] theorem modRow_has {f : Nat → Nat → Nat → Nat → Nat} {lat : Nat} {fold : BitVec 2} {d a b c : BitVec 6} {p : BitVec 3} {qset : BitVec 2}
    {s : State} (h : s.Has P) :
    NextHas P (modRow f lat fold d a b c p qset s) := by
  refine onTile_has h fun t => ?_
  simp [h]

@[simp] theorem modWhole_has {lat : Nat} {fold : BitVec 2} {d : BitVec 6} {q : Nat → Nat} {lane : Nat → Nat} {f : Nat → Nat → Nat}
    {s : State} (h : s.Has P) :
    NextHas P (modWhole lat fold d q lane f s) :=
  finishWhole_has h

@[simp] theorem execBflyct_has {fold : BitVec 2} {d a b : BitVec 6} {stage : BitVec 3} {qset : BitVec 2} {s : State} (h : s.Has P) :
    NextHas P (execBflyct fold d a b stage qset s) := by
  unfold execBflyct; exact modWhole_has h

@[simp] theorem execBflygs_has {fold : BitVec 2} {d a b : BitVec 6} {stage : BitVec 3} {qset : BitVec 2} {s : State} (h : s.Has P) :
    NextHas P (execBflygs fold d a b stage qset s) := by
  unfold execBflygs; exact modWhole_has h

@[simp] theorem permPair_has {f : Nat → Nat} {fold : BitVec 2} {d a : BitVec 6} {s : State} (h : s.Has P) :
    NextHas P (permPair f fold d a s) :=
  finishWhole_has h

@[simp] theorem execMauto_has {fold : BitVec 2} {d a b : BitVec 6} {qset : BitVec 2} {s : State} (h : s.Has P) :
    NextHas P (execMauto fold d a b qset s) := by
  unfold execMauto; exact modWhole_has h

/-! ## Meanings of `Scalar` -/

@[simp] theorem opReg_has {f : Word → Word → Word} {lat : Nat} {d a b : BitVec 6} {s : State} (h : s.Has P) :
    NextHas P (opReg f lat d a b s) :=
  finishScalar_has h

@[simp] theorem opImm_has {f : Word → Word → Word} {lat : Nat} {d a : BitVec 6} {imm : BitVec 26} {s : State} (h : s.Has P) :
    NextHas P (opImm f lat d a imm s) :=
  finishScalar_has h

@[simp] theorem opUn_has {f : Word → Word} {d a : BitVec 6} {s : State} (h : s.Has P) : NextHas P (opUn f d a s) := finishScalar_has h

@[simp] theorem execBr_has {target : BitVec 26} {s : State} (h : s.Has P) : NextHas P (execBr target s) := by
  refine onSeq_has fun n => ?_
  simp [h]

@[simp] theorem branchIf_has {rel : Word → Word → Bool} {d a : BitVec 6} {target : BitVec 26} {s : State} (h : s.Has P) :
    NextHas P (branchIf rel d a target s) := by
  refine onSeq_has fun n => ?_
  simp [h]

@[simp] theorem execCall_has {d : BitVec 6} {target : BitVec 26} {s : State} (h : s.Has P) : NextHas P (execCall d target s) := by
  refine onSeq_has fun n => ?_
  simp [h]

@[simp] theorem jumpReg_has {n : Nat} {t : Word} {s : State} {link : Seq → Seq} (h : s.Has P) : NextHas P (jumpReg n t s link) := by
  simp [jumpReg, h]

@[simp] theorem execJr_has {a : BitVec 6} {s : State} (h : s.Has P) : NextHas P (execJr a s) := by
  refine onSeq_has fun n => ?_
  simp [h]

@[simp] theorem execJalr_has {d a : BitVec 6} {s : State} (h : s.Has P) : NextHas P (execJalr d a s) := by
  refine onSeq_has fun n => ?_
  simp [h]

@[simp] theorem execLoop_has {d : BitVec 6} {count span : BitVec 16} {s : State} (h : s.Has P) : NextHas P (execLoop d count span s) := by
  refine onSeq_has fun n => ?_
  simp [h]

@[simp] theorem execLoopr_has {d a : BitVec 6} {span : BitVec 16} {s : State} (h : s.Has P) : NextHas P (execLoopr d a span s) := by
  refine onSeq_has fun n => ?_
  simp [h]

@[simp] theorem execTloop_has {d : BitVec 6} {_stride : BitVec 12} {count span : BitVec 10} {s : State} (h : s.Has P) :
    NextHas P (execTloop d _stride count span s) := by
  refine onTile_has h fun t => ?_
  simp [h]

/-! ## Meanings of `VectorFp` -/

@[simp] theorem fpRow_has {g : Bool → Exact → Exact → Exact → Exact} {lat : Nat} {fold : BitVec 2} {d a b c : BitVec 6} {p ft : BitVec 3} {rm : BitVec 4}
    {s : State} (h : s.Has P) :
    NextHas P (fpRow g lat fold d a b c p ft rm s) :=
  finishElems_has h

@[simp] theorem fpPick_has {g : Flt → Nat → Nat → Nat} {fold : BitVec 2} {d a b : BitVec 6} {p ft : BitVec 3} {s : State} (h : s.Has P) :
    NextHas P (fpPick g fold d a b p ft s) :=
  finishElems_has h

@[simp] theorem fpCompare_has {nan : Bool} {rel : Exact → Exact → Bool} {fold : BitVec 2} {d a b : BitVec 6} {p ft : BitVec 3}
    {s : State} (h : s.Has P) :
    NextHas P (fpCompare nan rel fold d a b p ft s) :=
  finishCompare_has h

@[simp] theorem convertWhole_has {n wd : Nat} {fold : BitVec 2} {d : BitVec 6} {en : Nat → Bool} {f : Nat → Nat} {s : State} (h : s.Has P) :
    NextHas P (convertWhole n wd fold d en f s) :=
  finishWhole_has h

@[simp] theorem execVcvt_has {fold : BitVec 2} {d a src : BitVec 6} {p : BitVec 3} {rm dst : BitVec 4} {s : State} (h : s.Has P) :
    NextHas P (execVcvt fold d a src p rm dst s) := by
  simp [execVcvt, h]

@[simp] theorem scaleRow_has {fold : BitVec 2} {d a src c : BitVec 6} {p : BitVec 3} {rm dst : BitVec 4} {s : State} (h : s.Has P) :
    NextHas P (scaleRow fold d a src c p rm dst s) :=
  convertWhole_has h

/-! ## Meanings of `Tensor` -/

@[simp] theorem raiseTensor_has {why slot acc addr : Nat} {s : State} (h : s.Has P) : NextHas P (raiseTensor why slot acc addr s) :=
  raise_has h

@[simp] theorem putSetting_has {x : TSetting} {s : State} (h : s.Has P) : NextHas P (putSetting x s) := by
  refine onTile_has h fun t => ?_
  simp [h]

@[simp] theorem execTsysto_has {on : BitVec 1} {s : State} (h : s.Has P) : NextHas P (execTsysto on s) := by
  refine onSeq_has fun n => ?_
  (repeat' split) <;> simp [h]

@[simp] theorem execTdef_has {d a b c : BitVec 6} {flags : BitVec 4} {s : State} (h : s.Has P) : NextHas P (execTdef d a b c flags s) := by
  refine onTile_has h fun t => ?_
  dsimp only
  (repeat' split) <;> simp [h]

@[simp] theorem execTarm_has {d : BitVec 6} {s : State} (h : s.Has P) : NextHas P (execTarm d s) := by
  refine onTile_has h fun t => ?_
  dsimp only
  (repeat' split) <;> simp [h]

@[simp] theorem execTensorFiringStart_has {tile ts : Nat} {s : State} (h : s.Has P) : NextHas P (execTensorFiringStart tile ts s) := by
  simp [execTensorFiringStart, h]

@[simp] theorem execTensorFiringComplete_has {tile ts : Nat} {s : State} (h : s.Has P) :
    NextHas P (execTensorFiringComplete tile ts s) := by
  unfold execTensorFiringComplete
  dsimp only
  (repeat' split) <;> simp [h]

@[simp] theorem sendTag_has {full : Bool} {a : BitVec 6} {s : State} (h : s.Has P) : NextHas P (sendTag full a s) := by
  refine onTile_has h fun t => ?_
  simp [h]

@[simp] theorem execTtagArrival_has {op : Nat} {s : State} (h : s.Has P) : NextHas P (execTtagArrival op s) := by
  unfold execTtagArrival
  (repeat' split) <;> simp [h]

@[simp] theorem execTread_has {d a b : BitVec 6} {s : State} (h : s.Has P) : NextHas P (execTread d a b s) := by
  refine onTile_has h fun t => ?_
  simp [h]

@[simp] theorem execTreadRead_has {op : Nat} {s : State} (h : s.Has P) : NextHas P (execTreadRead op s) := by
  unfold execTreadRead
  (repeat' split) <;> simp [h]

@[simp] theorem execTstore_has {a b : BitVec 6} {ft : BitVec 3} {rm : BitVec 4} {s : State} (h : s.Has P) :
    NextHas P (execTstore a b ft rm s) := by
  refine onTile_has h fun t => ?_
  simp [h]

@[simp] theorem execTstoreStart_has {tile : Nat} {s : State} (h : s.Has P) : NextHas P (execTstoreStart tile s) := by
  unfold execTstoreStart
  dsimp only
  (repeat' split) <;> simp [h]

@[simp] theorem execTstoreComplete_has {tile : Nat} {s : State} (h : s.Has P) : NextHas P (execTstoreComplete tile s) := by
  unfold execTstoreComplete
  dsimp only
  (repeat' split) <;> simp [h]

@[simp] theorem execTaccz_has {d : BitVec 6} {s : State} (h : s.Has P) : NextHas P (execTaccz d s) := by
  refine onTile_has h fun t => ?_
  simp [h]

@[simp] theorem execTacczEffect_has {tile acc : Nat} {s : State} (h : s.Has P) : NextHas P (execTacczEffect tile acc s) := by
  unfold execTacczEffect
  dsimp only
  (repeat' split) <;> simp [h]

@[simp] theorem tensorStat_has {slot : Bool} {d a : BitVec 6} {s : State} (h : s.Has P) : NextHas P (tensorStat slot d a s) := by
  refine onTile_has h fun t => ?_
  simp [h]

@[simp] theorem execTwload_has {a : BitVec 6} {s : State} (h : s.Has P) : NextHas P (execTwload a s) := by
  refine onTile_has h fun t => ?_
  simp [h]

@[simp] theorem execTwloadValid_has {tile : Nat} {s : State} (h : s.Has P) : NextHas P (execTwloadValid tile s) := by
  simp [execTwloadValid, h]

@[simp] theorem execSystolicPassStart_has {ctx slot grp : Nat} {s : State} (h : s.Has P) :
    NextHas P (execSystolicPassStart ctx slot grp s) := by
  unfold execSystolicPassStart
  dsimp only
  (repeat' split) <;> simp [h]

@[simp] theorem execSystolicPassComplete_has {ctx slot grp : Nat} {s : State} (h : s.Has P) :
    NextHas P (execSystolicPassComplete ctx slot grp s) := by
  unfold execSystolicPassComplete
  dsimp only
  (repeat' split) <;> simp [h]

/-! ## Meanings of `Traps` -/

@[simp] theorem execTileFaultReport_has {tile : Nat} {s : State} (h : s.Has P) : NextHas P (execTileFaultReport tile s) := by
  unfold execTileFaultReport
  split <;> simp [h]

@[simp] theorem execTrapEntry_has {seq : Nat} {s : State} (h : s.Has P) : NextHas P (execTrapEntry seq s) := by
  unfold execTrapEntry
  dsimp only
  (repeat' split) <;> simp [h]

@[simp] theorem execSeqCompletionFault_has {seq : Nat} {s : State} (h : s.Has P) : NextHas P (execSeqCompletionFault seq s) := by
  simp [execSeqCompletionFault, h]

@[simp] theorem execTrap_has {code : BitVec 16} {s : State} (h : s.Has P) : NextHas P (execTrap code s) := by
  refine onSeq_has fun n => ?_
  simp [h]

@[simp] theorem execTret_has {s : State} (h : s.Has P) : NextHas P (execTret s) := by
  refine onSeq_has fun n => ?_
  simp [h]

@[simp] theorem execMtsr_has {a : BitVec 6} {sr : BitVec 16} {s : State} (h : s.Has P) : NextHas P (execMtsr a sr s) := by
  refine onSeq_has fun n => ?_
  dsimp only
  split
  · exact finish_has (by simpa using h)
  · split
    · simpa using h
    · exact finish_has (by simpa using h)
  · split
    · simpa using h
    · exact finish_has (by simpa using h)
  · split
    · simpa using h
    · exact finish_has (by simpa using h)
  · exact finish_has (by simpa using h)
  · split <;> simpa using h

@[simp] theorem execIdle_has {s : State} (h : s.Has P) : NextHas P (execIdle s) := by
  refine onSeq_has fun n => ?_
  simp [h]

/-! ## Meanings of `Preempt` -/

@[simp] theorem ctxFault_has {n reason : Nat} {s : State} (h : s.Has P) : NextHas P (ctxFault n reason s) := by simp [ctxFault, h]

@[simp] theorem execHaltPoint_has {ctx : Nat} {s : State} (h : s.Has P) : NextHas P (execHaltPoint ctx s) := by simp [execHaltPoint, h]

@[simp] theorem execCload_has {a : BitVec 6} {s : State} (h : s.Has P) : NextHas P (execCload a s) := by
  refine onSeq_has fun n => ?_
  (repeat' split) <;> simp [h]

@[simp] theorem execReadRetry_has {site : ReadSite} {lasting : Nat} {s : State} (h : s.Has P) :
    NextHas P (execReadRetry site lasting s) := by
  unfold execReadRetry
  cases site with
  | access op => dsimp only; split <;> simp [h]
  | copyWord c g t => dsimp only; (repeat' split) <;> simp [h]
  | tileRegister t reg => dsimp only; split <;> simp [h]
  | seqRegister n reg => dsimp only; (repeat' split) <;> simp [h]
  | firing t ts near =>
    dsimp only
    split
    · exact .next h
    · exact .next ((retryTensor_keepsBytes _ _ (by simp) (by simp) _).has h)
  | tstore t =>
    dsimp only
    split
    · exact .next h
    split
    · exact .next h
    · exact .next ((retryTensor_keepsBytes _ _ (by simp) (by simp) _).has h)
  | twload t near =>
    dsimp only
    split
    · exact .next h
    · exact .next ((retryTensor_keepsBytes _ _ (by simp) (by simp) _).has h)
  | ringToken c tag => simp [h]
  | fetch n => dsimp only; (repeat' split) <;> simp [h]
  | scatterAdd c g m => dsimp only; split <;> simp [h]
  | sweep c => dsimp only; (repeat' split) <;> simp [h]
  | cellar c off => dsimp only; (repeat' split) <;> simp [h]

@[simp] theorem execConfigStoreError_has {ctx slot reg lasting : Nat} {s : State} (h : s.Has P) :
    NextHas P (execConfigStoreError ctx slot reg lasting s) := by
  unfold execConfigStoreError
  dsimp only
  (repeat' split) <;> simp [h]

@[simp] theorem execConfigReloadComplete_has {ctx slot reg failed : Nat} {s : State} (h : s.Has P) :
    NextHas P (execConfigReloadComplete ctx slot reg failed s) := by
  unfold execConfigReloadComplete
  dsimp only
  (repeat' split) <;> simp [h]

/-! ## Meanings of `Snapshot` -/

@[simp] theorem execSnapOpenPoint_has {ctx : Nat} {s : State} (h : s.Has P) : NextHas P (execSnapOpenPoint ctx s) := by
  unfold execSnapOpenPoint
  dsimp only
  (repeat' split) <;> simp [h]

@[simp] theorem execSnapshotSealing_has {ctx : Nat} {s : State} (h : s.Has P) : NextHas P (execSnapshotSealing ctx s) := by
  simp [execSnapshotSealing, h]

@[simp] theorem execSnapshotFail_has {ctx reason : Nat} {s : State} (h : s.Has P) : NextHas P (execSnapshotFail ctx reason s) := by
  unfold execSnapshotFail
  dsimp only
  (repeat' split) <;> simp [h]

@[simp] theorem snapFault_has {n reason : Nat} {s : State} (h : s.Has P) : NextHas P (snapFault n reason s) := by simp [snapFault, h]

@[simp] theorem execSnapq_has {d a : BitVec 6} {s : State} (h : s.Has P) : NextHas P (execSnapq d a s) := by
  refine onSeq_has fun n => ?_
  simp [h]

@[simp] theorem execSnapw_has {a : BitVec 6} {s : State} (h : s.Has P) : NextHas P (execSnapw a s) := by
  refine onSeq_has fun n => ?_
  dsimp only
  (repeat' split) <;> simp [h]

/-! ## Meanings of `Platform` -/

@[simp] theorem execPowerGood_has {s : State} (h : s.Has P) : NextHas P (execPowerGood s) := by simp [execPowerGood, h]

@[simp] theorem execDcrestart_has {die : Nat} {s : State} (h : s.Has P) : NextHas P (execDcrestart die s) := by simp [execDcrestart, h]

@[simp] theorem execThermalSample_has {die degrees : Nat} {s : State} (h : s.Has P) : NextHas P (execThermalSample die degrees s) := by
  simp [execThermalSample, h]

@[simp] theorem execAllowanceUpdate_has {die : Nat} {s : State} (h : s.Has P) : NextHas P (execAllowanceUpdate die s) := by
  simp [execAllowanceUpdate, h]

@[simp] theorem execCtxcreate_has {va : Nat} {s : State} (h : s.Has P) : NextHas P (execCtxcreate va s) := by
  unfold execCtxcreate
  dsimp only
  (repeat' split) <;> simp [h]

@[simp] theorem execContextDestroy_has {ctx : Nat} {s : State} (h : s.Has P) : NextHas P (execContextDestroy ctx s) := by
  simp [execContextDestroy, h]

theorem answered_has {s : State} {r : StepResult} (h : s.Has P) (hr : NextHas P r) : NextHas P (answered s r) := by
  unfold answered; split
  · exact hr
  · simpa using h

@[simp] theorem execHostResume_has {value : Nat} {s : State} (h : s.Has P) : NextHas P (execHostResume value s) := by
  unfold execHostResume
  dsimp only
  (repeat' split) <;> simp [h]

@[simp] theorem execHostDoorbell_has {ctx size value : Nat} {s : State} (h : s.Has P) : NextHas P (execHostDoorbell ctx size value s) := by
  refine answered_has h ?_
  simp [h]

@[simp] theorem execCauseFifoRead_has {ctx : Nat} {s : State} (h : s.Has P) : NextHas P (execCauseFifoRead ctx s) := by
  refine answered_has h ?_
  (repeat' split) <;> simp [h]

@[simp] theorem execPackageEventRead_has {s : State} (h : s.Has P) : NextHas P (execPackageEventRead s) := by
  refine answered_has h ?_
  (repeat' split) <;> simp [h]

@[simp] theorem execErrorLogRead_has {die : Nat} {s : State} (h : s.Has P) : NextHas P (execErrorLogRead die s) := by
  refine answered_has h ?_
  (repeat' split) <;> simp [h]

@[simp] theorem execBar2Read_has {pa len : Nat} {s : State} (h : s.Has P) : NextHas P (execBar2Read pa len s) := by
  refine answered_has h ?_
  (repeat' split) <;> simp [h]

@[simp] theorem execDccall_has {die value : Nat} {s : State} (h : s.Has P) : NextHas P (execDccall die value s) := by simp [execDccall, h]

@[simp] theorem execDccallEntry_has {die : Nat} {s : State} (h : s.Has P) : NextHas P (execDccallEntry die s) := by
  simp [execDccallEntry, h]

@[simp] theorem execRegisterWrite_has {addr value : Nat} {s : State} (h : s.Has P) : NextHas P (execRegisterWrite addr value s) := by
  unfold execRegisterWrite
  (repeat' split) <;> simp [h]

@[simp] theorem execPcieError_has {value : Nat} {s : State} (h : s.Has P) : NextHas P (execPcieError value s) := by simp [execPcieError, h]

/-! ## Meanings of `Regions` -/

@[simp] theorem execResultWriteback_has {tile : Nat} {s : State} (h : s.Has P) : NextHas P (execResultWriteback tile s) := by
  simp [execResultWriteback, h]

@[simp] theorem execNearResultLate_has {ctx slot reg : Nat} {s : State} (h : s.Has P) : NextHas P (execNearResultLate ctx slot reg s) := by
  unfold execNearResultLate
  dsimp only
  (repeat' split) <;> simp [h]

@[simp] theorem execRegionResume_has {ctx slot reg : Nat} {s : State} (h : s.Has P) : NextHas P (execRegionResume ctx slot reg s) := by
  simp [execRegionResume, h]

@[simp] theorem execPhaseStart_has {ctx slot reg : Nat} {s : State} (h : s.Has P) : NextHas P (execPhaseStart ctx slot reg s) := by
  simp [execPhaseStart, h]

@[simp] theorem execPhaseEnd_has {ctx slot reg : Nat} {s : State} (h : s.Has P) : NextHas P (execPhaseEnd ctx slot reg s) := by
  simp [execPhaseEnd, h]

@[simp] theorem execStall_has {ctx slot reg : Nat} {s : State} (h : s.Has P) : NextHas P (execStall ctx slot reg s) := by
  unfold execStall
  dsimp only
  (repeat' split) <;> simp [h]

/-! ## Meanings of `VectorInt` -/

@[simp] theorem intRow_has {f : Nat → Bool → Int → Int → Int → Nat} {lat : Nat} {fold : BitVec 2} {d a b c : BitVec 6} {p ft : BitVec 3}
    {s : State} (h : s.Has P) :
    NextHas P (intRow f lat fold d a b c p ft s) :=
  finishElems_has h

@[simp] theorem logicRow_has {f : Nat → Nat → Nat} {fold : BitVec 2} {d a b : BitVec 6} {p : BitVec 3} {s : State} (h : s.Has P) :
    NextHas P (logicRow f fold d a b p s) :=
  finishElems_has h

@[simp] theorem shiftRow_has {f : Nat → Nat → Nat → Nat} {fold : BitVec 2} {d a b : BitVec 6} {p ft : BitVec 3} {s : State} (h : s.Has P) :
    NextHas P (shiftRow f fold d a b p ft s) :=
  finishElems_has h

@[simp] theorem shiftRowS_has {f : Nat → Nat → Nat → Nat} {fold : BitVec 2} {d a b : BitVec 6} {p ft : BitVec 3} {s : State} (h : s.Has P) :
    NextHas P (shiftRowS f fold d a b p ft s) :=
  finishElems_has h

@[simp] theorem intCompare_has {rel : Int → Int → Bool} {fold : BitVec 2} {d a b : BitVec 6} {p ft : BitVec 3} {s : State} (h : s.Has P) :
    NextHas P (intCompare rel fold d a b p ft s) :=
  finishCompare_has h

/-! ## Meanings of `VectorPerm` -/

@[simp] theorem reduceRow_has {w : Nat} {sx : Bool} {ident : Nat} {node : Capture → Nat → Nat → Nat → Nat} {fold : BitVec 2} {d a : BitVec 6} {p : BitVec 3}
    {s : State} (h : s.Has P) :
    NextHas P (reduceRow w sx ident node fold d a p s) :=
  finishWhole_has h

@[simp] theorem scanRow_has {w : Nat} {ident : Nat} {node : Capture → Nat → Nat → Nat → Nat} {excl : Bool} {fold : BitVec 2} {d a : BitVec 6} {p : BitVec 3}
    {s : State} (h : s.Has P) :
    NextHas P (scanRow w ident node excl fold d a p s) :=
  finishWhole_has h

@[simp] theorem permRow_has {f : Nat → Nat → (Nat → Nat) → (Nat → Nat) → Nat → Nat → Nat} {fold : BitVec 2} {d a b : BitVec 6} {ft : BitVec 3}
    {s : State} (h : s.Has P) :
    NextHas P (permRow f fold d a b ft s) :=
  finishWhole_has h

@[simp] theorem predRow_has {fold : BitVec 2} {d : BitVec 6} {v : Pred} {s : State} (h : s.Has P) : NextHas P (predRow fold d v s) :=
  finishWhole_has h

/-! ## Meanings of `Issue` -/

theorem onNext_has {f : State → State} {r : StepResult} (hf : ∀ u, u.Has P → (f u).Has P) (h : NextHas P r) : NextHas P (onNext f r) := by
  cases h with
  | next h => exact .next (hf _ h)
  | fault x => exact .fault x
  | refused x => exact .refused x

/-! ## Meanings of `Sched` -/

@[simp] theorem memActorTask_has {c g m : Nat} {s : State} (h : s.Has P) : NextHas P (memActorTask c g m s) := by simp [memActorTask, h]

@[simp] theorem tensorTask_has {t : Nat} {s : State} (h : s.Has P) : NextHas P (tensorTask t s) := by simp [tensorTask, h]

@[simp] theorem fireTask_has {t : Nat} {s : State} (h : s.Has P) : NextHas P (fireTask t s) := by
  unfold fireTask
  split <;> simp [h]

@[simp] theorem pulseTasks_keepsBytes (s : State) (c slot : Nat) : KeepsBytes s (pulseTasks s c slot).1 := by
  unfold pulseTasks; dsimp only; (repeat' split) <;> simp

@[simp] theorem graphTask_has {c slot : Nat} {s : State} (h : s.Has P) : NextHas P (graphTask c slot s) := by simp [graphTask, h]

@[simp] theorem dispatchTask_has {s : State} (h : s.Has P) : NextHas P (dispatchTask s) := by simp [dispatchTask, h]

@[simp] theorem dieTask_has {d : Nat} {s : State} (h : s.Has P) : NextHas P (dieTask d s) := by
  unfold dieTask
  dsimp only
  (repeat' split) <;> simp [h]

@[simp] theorem linkTask_has {n : Nat} {s : State} (h : s.Has P) : NextHas P (linkTask n s) := by simp [linkTask, h]

end frames
end Sys2Proof.Machine
end

/-! # What writes bytes

The changes and meanings that write bytes write them through `writeByte`, `writeLE`, `writeBytes` or `copyInto`, or drop bytes, and so keep
the canonical form. -/
section
namespace Sys2Proof.Machine
section frames
variable {P : Memory → Memory → Memory → Prop}

/-! ## Loops and accesses of the part -/

theorem State.Has.foldl {α : Type} {f : State → α → State} (hf : ∀ u x, u.Has P → (f u x).Has P) {l : List α} {s : State} (h : s.Has P) :
    (l.foldl f s).Has P :=
  List.foldlRecOn l f h fun u hu x _ => hf u x hu

/-- What is said of the bytes of the state in which an access of the part ends, if it is not held. -/
inductive EndHas (P : Memory → Memory → Memory → Prop) {α : Type} : PartEnd α → Prop
  | ok {a : α} {s : State} (h : s.Has P) : EndHas P (.ok a s)
  | hold {c va : Nat} : EndHas P (.hold c va)
  | fault {s : State} (h : s.Has P) : EndHas P (.fault s)

section ends
variable {α β : Type}

@[simp] theorem endHas_ok {a : α} {s : State} : EndHas P (.ok a s) ↔ P s.mem s.peerMem s.near := ⟨fun | .ok h => h, .ok⟩
@[simp] theorem endHas_hold {c va : Nat} : EndHas P (.hold c va : PartEnd α) := .hold
@[simp] theorem endHas_fault {s : State} : EndHas P (.fault s : PartEnd α) ↔ P s.mem s.peerMem s.near := ⟨fun | .fault h => h, .fault⟩

theorem EndHas.of_ok {e : PartEnd α} {a : α} {u : State} (he : EndHas P e) (h : e = .ok a u) : u.Has P := by
  subst h; exact endHas_ok.1 he

theorem EndHas.of_fault {e : PartEnd α} {u : State} (he : EndHas P e) (h : e = .fault u) : u.Has P := by
  subst h; exact endHas_fault.1 he

theorem EndHas.bind {e : PartEnd α} {k : α → State → PartEnd β} (he : EndHas P e) (hk : ∀ a u, u.Has P → EndHas P (k a u)) :
    EndHas P (e.bind k) := by
  cases he with
  | ok h => exact hk _ _ h
  | hold => exact .hold
  | fault h => exact .fault h

theorem EndHas.foldl {γ : Type} {k : γ → State → PartEnd α} (hk : ∀ x u, u.Has P → EndHas P (k x u)) {l : List γ} {e : PartEnd α}
    (he : EndHas P e) : EndHas P (l.foldl (fun r x => r.bind fun _ u => k x u) e) :=
  List.foldlRecOn l _ he fun _ hr x _ => hr.bind fun _ u hu => hk x u hu

end ends

theorem partWalk_has {die ctx va : Nat} {s : State} (h : s.Has P) : EndHas P (partWalk die ctx va s) := by
  unfold partWalk; dsimp only; (repeat' split) <;> simp [h]

theorem partLeaf_has {die ctx va : Nat} {need : Need} {s : State} (h : s.Has P) : EndHas P (partLeaf die ctx va need s) := by
  unfold partLeaf
  split
  · exact .fault h
  · refine .bind ?_ fun t u hu => by split <;> simpa using hu
    (repeat' split)
    · exact partWalk_has h
    · exact .ok h
    · exact partWalk_has h

theorem cellarAccess_has {α : Type} {ctx n : Nat} {s : State} {near far : State → PartEnd α} (h : s.Has P)
    (hn : ∀ u, u.Has P → EndHas P (near u)) (hf : ∀ u, u.Has P → EndHas P (far u)) : EndHas P (cellarAccess ctx n s near far) := by
  unfold cellarAccess
  dsimp only
  split
  · simpa using h
  split
  · exact hn s h
  split
  · exact hf _ (by simpa using h)
  · exact .fault h

theorem saveAccess_has {c : Nat} {s : State} {k : State → PartEnd Unit} (h : s.Has P) (hk : ∀ u, u.Has P → EndHas P (k u)) :
    EndHas P (saveAccess c s k) := by
  unfold saveAccess
  split
  · simpa using h
  · exact hk s h

end frames

/-! ## The canonical form -/

/-- The three memories in canonical form. -/
structure CanonicalBytes (m p n : Memory) : Prop where
  mem : m.wf = true
  peer : p.wf = true
  near : n.wf = true

/-- A state with its memories in canonical form. -/
@[simp] abbrev State.Canonical (s : State) : Prop := s.Has CanonicalBytes

theorem Memory.wf_copyInto {m : Memory} (h : m.wf = true) (src : Memory) (a dst n : Nat) : Memory.wf (copyInto src a m dst n) = true :=
  Memory.wf_foldl _ _ _ (Memory.wf_filter h _)

/-! ## Writers of `Near` -/

@[simp] theorem setNearWord_canonical {mt o v : Nat} {s : State} (h : s.Canonical) : (setNearWord mt o v s).Canonical :=
  { h with near := Memory.wf_writeLE h.near _ _ _ }

theorem serveWord_canonical {o : Op} {k : Nat} {s : State} {got : Vec} (h : s.Canonical) : (serveWord o k s got).1.Canonical := by
  unfold serveWord; dsimp only; split
  · exact setNearWord_canonical h
  · exact h

theorem serveWords_canonical {o : Op} {l : List Nat} {r : State × Vec} (h : r.1.Canonical) :
    (l.foldl (fun r k => serveWord o k r.1 r.2) r).1.Canonical :=
  List.foldlRecOn (motive := fun r : State × Vec => r.1.Canonical) l _ h fun _ hr _ _ => serveWord_canonical hr

@[simp] theorem execBankAccess_canonical {op : Nat} {s : State} (h : s.Canonical) : NextHas CanonicalBytes (execBankAccess op s) := by
  unfold execBankAccess
  cases opAt s op with
  | none => exact .next h
  | some o =>
    dsimp only
    generalize o.kind = kind
    cases kind with
    | presLoad => dsimp only; (repeat' split) <;> simp [h]
    | presStore v =>
      have hs : State.Canonical ((List.range o.words).foldl (fun s k =>
          setPresent o.mtile (o.addr + 8 * k) true (setNearWord o.mtile (o.addr + 8 * k) (elem 64 v.toNat k) s)) s) :=
        .foldl (fun u k hu => (setPresent_keepsBytes ..).has (setNearWord_canonical hu)) h
      dsimp only; (repeat' split) <;> simp [h, hs]
    | presClear => dsimp only; (repeat' split) <;> simp [h]
    | _ =>
      have hs : ∀ l : List Nat, (l.foldl (fun r k => serveWord o k r.1 r.2) (s, o.got)).1.Canonical := fun _ => serveWords_canonical h
      dsimp only
      split <;> simp [hs]

/-! ## Writers of `Pages` -/

@[simp] theorem writePhys_canonical {pa n v : Nat} {s : State} (h : s.Canonical) : (writePhys pa n v s).Canonical :=
  { h with mem := Memory.wf_writeLE h.mem _ _ _ }

@[simp] theorem updLeaf_canonical {place : Nat} {f : Word → Word} {s : State} (h : s.Canonical) : (updLeaf place f s).Canonical := by
  unfold updLeaf; exact writePhys_canonical h

@[simp] theorem setDirty_canonical {die : Nat} {t : TlbEntry} {s : State} (h : s.Canonical) : (setDirty die t s).Canonical := by
  simp [setDirty, h]

@[simp] theorem partPa_canonical {die ctx va : Nat} {need : Need} {s : State} (h : s.Canonical) :
    EndHas CanonicalBytes (partPa die ctx va need s) :=
  (partLeaf_has h).bind fun t u hu => by
    split
    · exact endHas_hold
    · split
      · exact .ok (setDirty_canonical hu)
      · exact .ok hu

theorem partChunks_canonical {die : Nat → Nat} {ctx va : Nat} {need : Need} {k : Nat → Nat → State → State} {n i : Nat} {s : State}
    (hk : ∀ i pa u, u.Canonical → (k i pa u).Canonical) (h : s.Canonical) : EndHas CanonicalBytes (partChunks die ctx va need k n i s) := by
  induction n generalizing i s with
  | zero => exact .ok h
  | succ n ih => exact (partPa_canonical h).bind fun pa u hu => ih (hk _ _ _ hu)

@[simp] theorem cellarPa_canonical {die ctx off : Nat} {w : Bool} {s : State} (h : s.Canonical) :
    EndHas CanonicalBytes (cellarPa die ctx off w s) :=
  partPa_canonical h

theorem toCellar_canonical {die ctx pa off n : Nat} {s : State} (h : s.Canonical) :
    EndHas CanonicalBytes (toCellar die ctx pa off s n) := by
  induction n generalizing pa off s with
  | zero => exact .ok h
  | succ n ih =>
    refine .bind (cellarAccess_has h (fun u hu => (cellarPa_canonical hu).bind fun q w hw => ?_) fun u hu => ?_) fun _ u hu => ih hu
    · exact .ok { hw with mem := Memory.wf_copyInto hw.mem _ _ _ _ }
    · exact .ok { hu with peer := Memory.wf_copyInto hu.peer _ _ _ _ }

theorem fromCellar_canonical {die ctx off pa n : Nat} {s : State} (h : s.Canonical) :
    EndHas CanonicalBytes (fromCellar die ctx off pa s n) := by
  induction n generalizing pa off s with
  | zero => exact .ok h
  | succ n ih =>
    refine .bind (cellarAccess_has h (fun u hu => (cellarPa_canonical hu).bind fun q w hw => ?_) fun u hu => ?_) fun _ u hu => ih hu
    · exact .ok { hw with mem := Memory.wf_copyInto hw.mem _ _ _ _ }
    · exact .ok { hu with mem := Memory.wf_copyInto hu.mem _ _ _ _ }

theorem withinCellar_canonical {die ctx src dst n : Nat} {s : State} (h : s.Canonical) :
    EndHas CanonicalBytes (withinCellar die ctx src dst s n) := by
  induction n generalizing src dst s with
  | zero => exact .ok h
  | succ n ih =>
    refine .bind (cellarAccess_has h (fun u hu => (cellarPa_canonical hu).bind fun p w hw =>
      (cellarPa_canonical hw).bind fun q x hx => ?_) fun u hu => ?_) fun _ u hu => ih hu
    · exact .ok { hx with mem := Memory.wf_copyInto hx.mem _ _ _ _ }
    · exact .ok { hu with peer := Memory.wf_copyInto hu.peer _ _ _ _ }

@[simp] theorem cellarBytes_canonical {die ctx off : Nat} {bs : List Byte} {s : State} (h : s.Canonical) :
    EndHas CanonicalBytes (cellarBytes die ctx off bs s) :=
  cellarAccess_has h (fun _ hu => (cellarPa_canonical hu).bind fun _ _ hw => .ok { hw with mem := Memory.wf_writeBytes hw.mem _ _ })
    fun _ hu => .ok { hu with peer := Memory.wf_writeBytes hu.peer _ _ }

theorem readCellar_canonical {die ctx off n : Nat} {s : State} (h : s.Canonical) : EndHas CanonicalBytes (readCellar die ctx off s n) := by
  induction n generalizing off s with
  | zero => exact .ok h
  | succ n ih => exact .bind (cellarAccess_has h (fun u hu => (cellarPa_canonical hu).bind fun _ _ hw => .ok hw) fun _ hu => .ok hu) fun _ u hu => ih hu

@[simp] theorem capture_canonical {ctx va : Nat} {e : Word} {place : Nat} {s : State} (h : s.Canonical) :
    EndHas CanonicalBytes (capture ctx va e place s) := by
  unfold capture
  extract_lets x n done die
  split
  · exact .ok h
  have hdone : ∀ r fresh (u : State), u.Canonical → (done r fresh u).Canonical := fun r fresh u hu => by
    simpa [done] using updLeaf_canonical (by simpa using hu)
  split
  · exact .ok (hdone _ _ _ h)
  split
  · simpa using h
  split
  · exact endHas_hold
  split
  · simpa using h
  split
  · rename_i heq
    exact .ok (hdone _ _ _ ((toCellar_canonical (by simpa using h)).of_ok heq))
  · exact endHas_hold
  · rename_i heq
    simpa using (toCellar_canonical (by simpa using h)).of_fault heq

@[simp] theorem captureFor_canonical {ctx va : Nat} {place : Nat} {s : State} (h : s.Canonical) :
    EndHas CanonicalBytes (captureFor ctx va place s) := by
  unfold captureFor; dsimp only; split
  · exact capture_canonical h
  · exact .ok h

@[simp] theorem mirrorOld_canonical {die ctx page off n v : Nat} {s : State} (h : s.Canonical) :
    EndHas CanonicalBytes (mirrorOld die ctx page off n v s) := by
  unfold mirrorOld
  extract_lets x failed put
  split
  · exact .ok h
  split
  · exact .ok h
  extract_lets bytes
  have hfailed : ∀ r e, EndHas CanonicalBytes e → EndHas CanonicalBytes (failed r e) := by
    intro r e he
    cases he with
    | ok hu => exact .ok hu
    | hold => exact .hold
    | fault hu => exact .ok (by simpa using hu)
  have hput : ∀ o u, u.Canonical → EndHas CanonicalBytes (put o u) := fun o u hu => cellarBytes_canonical hu
  split
  · exact hfailed _ _ (hput _ _ h)
  split
  · simpa using h
  · exact hfailed _ _ ((withinCellar_canonical (by simpa using h)).bind fun _ u hu => hput _ _ (by simpa using hu))

/-- What is said of the bytes of the state that a translation leaves behind. -/
inductive XlationHas (P : Memory → Memory → Memory → Prop) : Xlation → Prop
  | ok {pa page : Nat} {s : State} (h : s.Has P) : XlationHas P (.ok pa page s)
  | miss {s : State} (h : s.Has P) : XlationHas P (.miss s)
  | denied : XlationHas P .denied

section xlations
variable {P : Memory → Memory → Memory → Prop}

@[simp] theorem xlationHas_ok {pa page : Nat} {s : State} : XlationHas P (.ok pa page s) ↔ P s.mem s.peerMem s.near :=
  ⟨fun | .ok h => h, .ok⟩
@[simp] theorem xlationHas_miss {s : State} : XlationHas P (.miss s) ↔ P s.mem s.peerMem s.near := ⟨fun | .miss h => h, .miss⟩
@[simp] theorem xlationHas_denied : XlationHas P .denied := .denied

theorem XlationHas.of_ok {e : Xlation} {pa page : Nat} {u : State} (he : XlationHas P e)
    (h : e = .ok pa page u) : u.Has P := by
  subst h; exact xlationHas_ok.1 he

theorem XlationHas.of_miss {e : Xlation} {u : State} (he : XlationHas P e) (h : e = .miss u) :
    u.Has P := by
  subst h; exact xlationHas_miss.1 he

end xlations

theorem translate_canonical {die ctx va : Nat} {need : Need} {m : Bool} {s : State} (h : s.Canonical) :
    XlationHas CanonicalBytes (translate die ctx va need m s) := by
  unfold translate
  split
  · exact .miss h
  split
  · exact xlationHas_denied
  extract_lets pa same rest
  have hrest : ∀ u, u.Canonical → XlationHas CanonicalBytes (rest u) := fun u hu => by
    dsimp only [rest]
    (repeat' split) <;> simp [hu]
  split
  · exact .ok h
  split
  · split
    · rename_i heq
      exact hrest _ ((captureFor_canonical h).of_ok heq)
    · rename_i heq
      exact hrest _ ((captureFor_canonical h).of_fault heq)
    · simpa using h
  · exact hrest s h

@[simp] theorem partWrite_canonical {die ctx va : Nat} {s : State} (h : s.Canonical) : EndHas CanonicalBytes (partWrite die ctx va s) := by
  refine (partLeaf_has h).bind fun t u hu => ?_
  split
  · rename_i heq
    exact .ok ((translate_canonical hu).of_ok heq)
  · exact endHas_hold
  · exact .fault hu

theorem partBytes_canonical {die ctx n va : Nat} {bs : List Byte} {s : State} (h : s.Canonical) :
    EndHas CanonicalBytes (partBytes die ctx n va bs s) := by
  induction n generalizing va bs s with
  | zero => exact .ok h
  | succ n ih =>
    unfold partBytes
    split
    · exact .ok h
    · exact (partWrite_canonical h).bind fun pa u hu => ih { hu with mem := Memory.wf_writeBytes hu.mem _ _ }

theorem seqAccess_canonical {n va : Nat} {need : Need} {s : State} {k : Nat → Nat → State → StepResult} (h : s.Canonical)
    (hk : ∀ pa page u, u.Canonical → NextHas CanonicalBytes (k pa page u)) : NextHas CanonicalBytes (seqAccess n va need s k) := by
  unfold seqAccess
  dsimp only
  split
  · simpa using h
  split
  · simpa using h
  split
  · simpa using h
  split
  · rename_i heq
    exact hk _ _ _ ((translate_canonical h).of_ok heq)
  · simpa using h
  · rename_i heq
    simpa using (translate_canonical h).of_miss heq

theorem engineAccess_canonical {ctx : Nat} {st : Stream} {va : Nat} {need : Need} {m : Bool} {s : State} {k : Nat → Nat → State → State} (h : s.Canonical)
    (hk : ∀ pa page u, u.Canonical → (k pa page u).Canonical) : (engineAccess ctx st va need m s k).Canonical := by
  unfold engineAccess
  dsimp only
  split
  · exact h
  split
  · simpa using h
  split
  · rename_i heq
    exact hk _ _ _ ((translate_canonical h).of_ok heq)
  · simpa using h
  · rename_i heq
    simpa using (translate_canonical h).of_miss heq

/-! ## Writers of `Dram` -/

@[simp] theorem dramLoad_canonical {bytes : Nat} {signed : Bool} {d a : BitVec 6} {imm : BitVec 26} {s : State} (h : s.Canonical) :
    NextHas CanonicalBytes (dramLoad bytes signed d a imm s) := by
  refine onSeq_has fun n => ?_
  dsimp only
  split
  · simpa using h
  · exact seqAccess_canonical h fun pa page u hu => finish_has (by simpa using hu)

@[simp] theorem dramStore_canonical {bytes : Nat} {d a : BitVec 6} {imm : BitVec 26} {s : State} (h : s.Canonical) :
    NextHas CanonicalBytes (dramStore bytes d a imm s) := by
  refine onSeq_has fun n => ?_
  dsimp only
  split
  · simpa using h
  · exact seqAccess_canonical h fun pa page u hu => finish_has (by simpa using hu)

/-- The old bytes of a captured page reach the cellar, where the write is none that the marker allows (R413). -/
theorem mirrorUnless_canonical {c : Prop} [Decidable c] {die ctx page off n v : Nat} {s : State} (h : s.Canonical) :
    EndHas CanonicalBytes (if c then .ok () s else mirrorOld die ctx page off n v s) := by
  split
  · exact .ok h
  · exact mirrorOld_canonical h

@[simp] theorem execDramAccessPerformed_canonical {op : Nat} {s : State} (h : s.Canonical) :
    NextHas CanonicalBytes (execDramAccessPerformed op s) := by
  unfold execDramAccessPerformed
  split
  · exact .next h
  split
  · exact .next h
  split
  · simpa using h
  split
  · simpa using h
  split
  · simpa using h
  · split
    · rename_i heq
      exact .next ((complete_keepsBytes ..).has (writePhys_canonical ((mirrorUnless_canonical h).of_ok heq)))
    · simpa using h
    · rename_i heq
      exact .next ((complete_keepsBytes ..).has (writePhys_canonical ((mirrorUnless_canonical h).of_fault heq)))
  · exact .next h

@[simp] theorem writeResult_canonical {pa code : Nat} {s : State} (h : s.Canonical) : (writeResult pa code s).Canonical := by
  unfold writeResult; exact writePhys_canonical h

@[simp] theorem execMigrationAccept_canonical {die : Nat} {s : State} (h : s.Canonical) :
    NextHas CanonicalBytes (execMigrationAccept die s) := by
  unfold execMigrationAccept
  dsimp only
  (repeat' split) <;> simp [State.setXlat, h]

@[simp] theorem endMigration_canonical {die : Nat} {m : Migration} {code : Nat} {s : State} (h : s.Canonical) :
    (endMigration die m code s).Canonical := by
  unfold endMigration
  dsimp only
  split <;> simp [State.setXlat, h]

@[simp] theorem execMigrationPassEnd_canonical {die : Nat} {s : State} (h : s.Canonical) :
    NextHas CanonicalBytes (execMigrationPassEnd die s) := by
  unfold execMigrationPassEnd
  split
  · exact .next h
  split
  · exact .next h
  dsimp only
  split
  · exact .next (endMigration_canonical h)
  split
  · simpa using h
  · rename_i m _ _ _ _ _
    have hc : State.Canonical { s with mem := copyInto s.mem (Leaf.pa m.leaf) s.mem m.dest (Leaf.bytes m.leaf) } :=
      { h with mem := Memory.wf_copyInto h.mem _ _ _ _ }
    simpa using updLeaf_canonical ((markDirty_keepsBytes ..).has hc)

@[simp] theorem execMigrationCommit_canonical {die : Nat} {s : State} (h : s.Canonical) :
    NextHas CanonicalBytes (execMigrationCommit die s) := by
  unfold execMigrationCommit
  (repeat' split) <;> simp [h]

@[simp] theorem failPass_canonical {die : Nat} {s : State} (h : s.Canonical) : (failPass die s).Canonical := by
  unfold failPass
  split
  · exact h
  · exact endMigration_canonical (updLeaf_canonical (by simpa using h))

@[simp] theorem execTestBankEnd_canonical {die bank failed : Nat} {s : State} (h : s.Canonical) :
    NextHas CanonicalBytes (execTestBankEnd die bank failed s) :=
  .next { h with mem := Memory.wf_filter h.mem _ }

/-! ## Writers of `Atomic` -/

@[simp] theorem atomicUpdate_canonical {sub mt o : Nat} {b c : BitVec 32} {s : State} (h : s.Canonical) :
    (atomicUpdate sub b c mt o s).1.Canonical :=
  { h with near := Memory.wf_writeLE h.near _ _ _ }

@[simp] theorem execAtomicPipelineTake_canonical {op : Nat} {s : State} (h : s.Canonical) :
    NextHas CanonicalBytes (execAtomicPipelineTake op s) := by
  unfold execAtomicPipelineTake
  split
  · exact .next h
  split
  · dsimp only
    (repeat' split) <;> simp [h]
  · exact .next h

/-! ## Writers of `Engines` -/

@[simp] theorem execSourceRequest_canonical {ctx slot ma : Nat} {s : State} (h : s.Canonical) :
    NextHas CanonicalBytes (execSourceRequest ctx slot ma s) := by
  unfold execSourceRequest
  extract_lets x
  split
  · exact .next h
  extract_lets col fetch
  have hf : ∀ va, (fetch va).Canonical := fun va => engineAccess_canonical h fun pa page u hu => by simpa using hu
  (repeat' split) <;> simp [h, hf]

theorem writeMarked_canonical {c : Nat} {mark : Bool} {va page pa n v : Nat} {w : Task} {s : State} {k : State → State} (h : s.Canonical)
    (hk : ∀ u, u.Canonical → (k u).Canonical) : (writeMarked c mark va page pa n v w s k).Canonical := by
  unfold writeMarked
  split
  · simpa using h
  split
  · rename_i heq
    exact hk _ (writePhys_canonical ((mirrorUnless_canonical h).of_ok heq))
  · simpa using h
  · rename_i heq
    exact hk _ (writePhys_canonical ((mirrorUnless_canonical h).of_fault heq))

@[simp] theorem execSinkWrite_canonical {ctx slot ma : Nat} {s : State} (h : s.Canonical) :
    NextHas CanonicalBytes (execSinkWrite ctx slot ma s) := by
  unfold execSinkWrite
  dsimp only
  split
  · split
    · exact .next h
    · exact .next (engineAccess_canonical h fun pa page u hu => writeMarked_canonical hu fun w hw => by simpa using hw)
  · exact .next h

@[simp] theorem execScatterAddUpdate_canonical {ctx slot ma : Nat} {s : State} (h : s.Canonical) :
    NextHas CanonicalBytes (execScatterAddUpdate ctx slot ma s) := by
  unfold execScatterAddUpdate
  extract_lets x s₁ again
  split
  · exact .next h
  split
  · exact .next h
  split
  · simpa using h
  extract_lets i first
  split
  · exact .next h
  extract_lets s₂ held
  have hs : s₂.Canonical := by
    dsimp only [s₂]
    split
    · exact h
    · exact engineAccess_canonical (by simpa [first] using h) fun pa page u hu => writeMarked_canonical hu fun w hw => by simpa using hw
  refine .next ?_
  split
  · simpa using hs
  · exact hs

theorem translateEnd_canonical {c g t e va : Nat} {need : Need} {m : Bool} {s : State} {k : Nat → State → State} (h : s.Canonical)
    (hk : ∀ a u, u.Canonical → (k a u).Canonical) : (translateEnd c g t e va need m s k).Canonical := by
  unfold translateEnd
  split
  · exact hk _ _ h
  · exact engineAccess_canonical h fun pa page u hu => hk _ _ hu

@[simp] theorem startSpan_canonical {c g t : Nat} {s : State} (h : s.Canonical) : (startSpan c g t s).Canonical := by
  unfold startSpan
  dsimp only
  split
  · exact h
  · exact translateEnd_canonical h fun a u hu => translateEnd_canonical hu fun b w hw => by simpa using hw

@[simp] theorem readRun_canonical {c g t i : Nat} {s : State} (h : s.Canonical) : (readRun c g t i s).Canonical := by
  unfold readRun
  dsimp only
  split
  · exact h
  split
  · split
    · simpa using h
    · exact h
  · refine engineAccess_canonical h fun pa page u hu => ?_
    split <;> simpa using hu

@[simp] theorem landWord_canonical {c g t i : Nat} {s : State} (h : s.Canonical) : (landWord c g t i s).Canonical := by
  unfold landWord
  dsimp only
  split
  · exact h
  split
  · split
    · exact (updCopy_keepsBytes ..).has (setNearWord_canonical (by simpa using h))
    · exact h
  · exact engineAccess_canonical h fun pa page u hu => writeMarked_canonical hu fun w hw => by simpa using hw

theorem copySteps_canonical {c g t n : Nat} {s : State} (h : s.Canonical) : (copySteps c g t n s).Canonical := by
  induction n generalizing s with
  | zero => exact h
  | succ n ih =>
    unfold copySteps
    extract_lets x u all
    split
    · split
      · exact h
      · extract_lets k w
        have hw : w.Canonical := by simpa [w] using h
        split
        · exact hw
        · exact startSpan_canonical hw
    · refine ih ?_
      split
      · exact readRun_canonical h
      · exact landWord_canonical h

@[simp] theorem landInHand_canonical {c g t : Nat} {s : State} (h : s.Canonical) : (landInHand c g t s).Canonical := by
  unfold landInHand
  dsimp only
  split
  · exact h
  · refine .foldl (fun u _ hu => ?_) h
    split
    · exact hu
    · exact landWord_canonical hu

@[simp] theorem copyProgress_canonical {c g t : Nat} {s : State} (h : s.Canonical) : (copyProgress c g t s).Canonical := by
  unfold copyProgress
  split
  · exact h
  · have hs : (copySteps c g t (Config.freeDelay s.freeCount + 1) { s with freeCount := s.freeCount + 1 }).Canonical :=
      copySteps_canonical h
    dsimp only
    split
    · exact hs
    · exact hs

/-! ## Writers of `Graph` -/

@[simp] theorem writeCode_canonical {die c va : Nat} {ws : List Word} {s : State} (h : s.Canonical) :
    EndHas CanonicalBytes (writeCode die c va ws s) :=
  .foldl (fun e u hu => by
    split
    · rename_i heq
      exact .ok (writePhys_canonical ((partWrite_canonical hu).of_ok heq))
    · exact endHas_hold
    · rename_i heq
      exact .ok ((partWrite_canonical hu).of_fault heq)) (.ok h)

@[simp] theorem bindGraph_canonical {c slot : Nat} {t : Trial} {s : State} (h : s.Canonical) :
    EndHas CanonicalBytes (bindGraph c slot t s) := by
  unfold bindGraph
  extract_lets g₀ g copies s₁ s₂ s₃ s₄ s₅ s₆ s₇ s₈
  have h₄ : s₄.Canonical := by simpa [s₄, s₃, s₂, s₁] using h
  have h₅ : s₅.Canonical := .foldl (fun u x hu => .foldl (fun w q hw => by simpa using hw) hu) h₄
  have h₈ : s₈.Canonical := by simpa [s₈, s₇, s₆] using h₅
  refine .foldl (fun d u hu => ?_) (.ok h₈)
  split
  · exact .ok hu
  · exact writeCode_canonical hu

@[simp] theorem execGraphPlacement_canonical {ctx slot : Nat} {s : State} (h : s.Canonical) :
    NextHas CanonicalBytes (execGraphPlacement ctx slot s) := by
  unfold execGraphPlacement
  dsimp only
  split
  · exact .next h
  split
  · exact .next h
  split
  · simpa using h
  split
  · simpa using h
  split
  · split <;> simpa using h
  split
  · rename_i heq
    simpa using (bindGraph_canonical h).of_ok heq
  · simpa using h
  · rename_i heq
    simpa using (bindGraph_canonical h).of_fault heq

@[simp] theorem stageNear_canonical {c slot : Nat} {s : State} (h : s.Canonical) : (stageNear c slot s).Canonical := by
  unfold stageNear
  extract_lets g s₁ s₂ s₃
  have h₁ : s₁.Canonical := .foldl (fun u e hu => by dsimp only; (repeat' split) <;> simpa using hu) h
  have h₂ : s₂.Canonical := .foldl (fun u d hu => by
    split
    · exact { hu with near := Memory.wf_foldl _ _ _ hu.near }
    · exact hu) h₁
  have h₃ : s₃.Canonical := .foldl (fun u k hu => by
    split
    · exact hu
    · rename_i p _
      extract_lets n w
      have hw : w.Canonical := by
        dsimp only [w]
        split
        · exact { hu with near := Memory.wf_filter hu.near _ }
        · exact hu
      split
      · exact { hw with near := Memory.wf_writeBytes hw.near _ _ }
      · exact hw) h₂
  simpa using h₃

@[simp] theorem execStagingComplete_canonical {ctx slot : Nat} {s : State} (h : s.Canonical) :
    NextHas CanonicalBytes (execStagingComplete ctx slot s) := by
  unfold execStagingComplete
  split
  · exact .next h
  split
  · exact .next h
  split
  · extract_lets first s₁ s₂ s₃
    have h₁ : s₁.Canonical := by
      dsimp only [s₁]
      split
      · exact stageNear_canonical h
      · exact h
    simpa [s₃, s₂] using h₁
  · exact .next h

@[simp] theorem loaderReaches_canonical {c va n : Nat} {need : Need} {s : State} (h : s.Canonical) :
    EndHas CanonicalBytes (loaderReaches c va n need s) :=
  partChunks_canonical (fun _ _ _ hu => hu) h

@[simp] theorem readImage_canonical {c va : Nat} {im : Image} {s : State} (h : s.Canonical) : EndHas CanonicalBytes (readImage c va im s) :=
  .foldl (fun d u hu => by
    split
    · exact .ok hu
    · exact loaderReaches_canonical hu) (.foldl (fun d u hu => loaderReaches_canonical hu) (loaderReaches_canonical h))

@[simp] theorem loadVerdict_canonical {c slot : Nat} {s : State} (h : s.Canonical) : EndHas CanonicalBytes (loadVerdict c slot s) := by
  unfold loadVerdict
  dsimp only
  split
  · exact .ok h
  split
  · exact endHas_hold
  · rename_i heq
    exact .ok ((readImage_canonical h).of_fault heq)
  · rename_i heq
    split <;> exact .ok ((readImage_canonical h).of_ok heq)

@[simp] theorem writeData_canonical {c : Nat} {im : Image} {s : State} (h : s.Canonical) : EndHas CanonicalBytes (writeData c im s) :=
  .foldl (fun d u hu => by
    split
    · exact .ok hu
    · exact partBytes_canonical hu) (.ok h)

@[simp] theorem execGraphLoadComplete_canonical {ctx slot : Nat} {s : State} (h : s.Canonical) :
    NextHas CanonicalBytes (execGraphLoadComplete ctx slot s) := by
  unfold execGraphLoadComplete
  dsimp only
  split
  · exact .next h
  split
  · exact .next h
  split
  · split
    · simpa using h
    split
    · simpa using h
    split
    · simpa using h
    · rename_i heq
      simpa using (writeData_canonical h).of_fault heq
    · rename_i heq
      simpa using (writeData_canonical h).of_ok heq
  · simpa using h
  · simpa using h

@[simp] theorem execCarm_canonical {a : BitVec 6} {tag : BitVec 12} {s : State} (h : s.Canonical) :
    NextHas CanonicalBytes (execCarm a tag s) := by
  refine onSeq_has fun n => ?_
  dsimp only
  split
  · exact graphFault_has h
  split
  · exact finish_has (by simpa using h)
  split
  · simpa using h
  split
  · exact stay_has h
  refine seqAccess_canonical h fun pa page u hu => ?_
  split
  · simpa using hu
  split
  · exact graphFault_has hu
  · exact passOn_has (by simpa using hu)

/-! ## Writers of `Launch` -/

@[simp] theorem execLaunchRecordRead_canonical {ctx : Nat} {s : State} (h : s.Canonical) :
    NextHas CanonicalBytes (execLaunchRecordRead ctx s) := by
  unfold execLaunchRecordRead
  dsimp only
  split
  · exact .next h
  split
  · simpa using h
  split
  · simpa using h
  split
  · rename_i heq
    simpa using (translate_canonical h).of_miss heq
  · simpa using h
  · rename_i heq
    have hu := (translate_canonical h).of_ok heq
    (repeat' split) <;> simpa using hu

/-! ## Writers of `Link` -/

@[simp] theorem execRamoInvocationArrival_canonical {link : Nat} {s : State} (h : s.Canonical) :
    NextHas CanonicalBytes (execRamoInvocationArrival link s) := by
  unfold execRamoInvocationArrival
  (repeat' split) <;> simp [h]

/-! ## Writers of `Tensor` -/

@[simp] theorem storeSpan_canonical {q : Nat} {x : TStore} {a : Acc} {n : Nat} {s : State} (h : s.Canonical) :
    (storeSpan q x a n s).Canonical := by
  unfold storeSpan
  dsimp only
  split
  · exact h
  split
  · exact { h with near := Memory.wf_writeLE h.near _ _ _ }
  · exact { h with near := Memory.wf_writeLE h.near _ _ _ }

/-! ## Writers of `Preempt` -/

theorem writeDirty_canonical (n : Nat) {pa : Nat} {bs : List Byte} {s : State} (h : s.Canonical) :
    (markDirty pa n { s with mem := writeBytes s.mem pa bs }).Canonical :=
  (markDirty_keepsBytes pa n { s with mem := writeBytes s.mem pa bs }).has { h with mem := Memory.wf_writeBytes h.mem _ _ }

@[simp] theorem writeArea_canonical {c pcyc : Nat} {v : Saved} {s : State} (h : s.Canonical) :
    EndHas CanonicalBytes (writeArea c pcyc v s) := by
  unfold writeArea
  refine saveAccess_has h fun u hu => ?_
  extract_lets n f put
  have hput : ∀ k pa w, w.Canonical → (put k pa w).Canonical := by
    intro k pa w hw
    exact writeDirty_canonical 65536 hw
  refine .bind (partChunks_canonical hput hu) fun _ w hw => (partPa_canonical hw).bind fun pa x hx => ?_
  exact .ok (writePhys_canonical hx)

@[simp] theorem clearValid_canonical {c : Nat} {s : State} (h : s.Canonical) : EndHas CanonicalBytes (clearValid c s) := by
  unfold clearValid
  refine saveAccess_has h fun u hu => (partPa_canonical hu).bind fun pa w hw => ?_
  exact .ok (writePhys_canonical hw)

theorem readAccs_canonical {c : Nat} {l : List (Nat × Nat × Nat)} {v : Saved} {s : State} (h : s.Canonical) :
    EndHas CanonicalBytes (readAccs c l v s) := by
  induction l generalizing v s with
  | nil => exact .ok h
  | cons e l ih => exact (partPa_canonical h).bind fun _ _ hu => ih hu

@[simp] theorem readArea_canonical {c : Nat} {v : Saved} {s : State} (h : s.Canonical) : EndHas CanonicalBytes (readArea c v s) :=
  .bind (partChunks_canonical (fun _ _ _ hw => hw) h) fun _ _ hu => (readAccs_canonical hu).bind fun _ _ hw =>
    (clearValid_canonical hw).bind fun _ _ hx => .ok hx

@[simp] theorem endSave_canonical {c pcyc : Nat} {v : Saved} {s : State} (h : s.Canonical) : EndHas CanonicalBytes (endSave c pcyc v s) :=
  (writeArea_canonical h).bind fun _ _ hu => by simpa using hu

theorem beginSave_canonical {c : Nat} {drain : Bool} {at_ : Nat} {s : State} (h : s.Canonical) :
    EndHas CanonicalBytes (beginSave c drain at_ s) := by
  refine (clearValid_canonical h).bind fun _ u hu => ?_
  split
  · exact endSave_canonical hu
  split
  · simpa using hu
  · simpa using hu

@[simp] theorem execCsave_canonical {a : BitVec 6} {s : State} (h : s.Canonical) : NextHas CanonicalBytes (execCsave a s) := by
  refine onSeq_has fun n => ?_
  dsimp only
  split
  · split
    · exact passIssued_has h
    · exact stay_has h
  split
  · exact ctxFault_has h
  split
  · exact ctxFault_has h
  split
  · exact ctxFault_has h
  split
  · rename_i heq
    have hu := (beginSave_canonical h).of_ok heq
    refine issueAndStay_has ?_
    split
    · simpa using hu
    · exact hu
  · rename_i heq
    exact issueAndStay_has (by simpa using (beginSave_canonical h).of_fault heq)
  · exact stay_has (by simpa using h)

theorem endAccess_canonical {α : Type} {c : Nat} {e : PartEnd α} {s : State} {k : α → State → State} (he : EndHas CanonicalBytes e)
    (h : s.Canonical) (hk : ∀ a u, u.Canonical → (k a u).Canonical) : (endAccess c e s k).Canonical := by
  cases he with
  | ok hu => exact hk _ _ hu
  | fault hu => simpa [endAccess] using hu
  | hold => simpa [endAccess] using h

@[simp] theorem execDrainComplete_canonical {ctx : Nat} {s : State} (h : s.Canonical) :
    NextHas CanonicalBytes (execDrainComplete ctx s) := by
  refine .next ?_
  split
  · exact endAccess_canonical (endSave_canonical h) h fun _ _ hu => hu
  · exact h

@[simp] theorem execSaveComplete_canonical {ctx : Nat} {s : State} (h : s.Canonical) : NextHas CanonicalBytes (execSaveComplete ctx s) := by
  unfold execSaveComplete
  extract_lets old mine run staging v s₁ s₂
  split
  · exact .next h
  · exact .next (endAccess_canonical (endSave_canonical (by simpa [s₂, s₁] using h)) h fun _ _ hu => hu)

theorem placeSaved_canonical {c slot : Nat} {v : Graph} {s u : State} (h : s.Canonical) (hu : placeSaved c slot v s = some u) : u.Canonical := by
  unfold placeSaved at hu
  dsimp only at hu
  split at hu
  · cases hu; exact h
  split at hu
  · cases hu; exact h
  · obtain ⟨t, -, hb⟩ := Option.bind_eq_some_iff.1 hu
    split at hb
    · rename_i heq
      cases hb
      exact (bindGraph_canonical (by simpa using h)).of_ok heq
    · cases hb

theorem placeAllSaved_canonical {c : Nat} {l : List (Nat × Graph)} {s u : State} (h : s.Canonical) (hu : placeAllSaved c l s = some u) : u.Canonical := by
  induction l generalizing s with
  | nil => cases hu; exact h
  | cons e l ih =>
    obtain ⟨w, hw, hl⟩ := Option.bind_eq_some_iff.1 hu
    exact ih (placeSaved_canonical h hw) hl

@[simp] theorem restoreNear_canonical {m : Moves} {v : Saved} {s : State} (h : s.Canonical) : (restoreNear m v s).Canonical :=
  { h with near := Memory.wf_foldl _ _ _ (Memory.wf_filter h.near _) }

@[simp] theorem writeBack_canonical {c : Nat} {v : Saved} {s : State} (h : s.Canonical) : (writeBack c v s).Canonical := by
  unfold writeBack
  extract_lets m live slots mine s₁ s₂ s₃ s₄ s₅ s₆ s₇ s₈ s₉ s₁₀ s₁₁
  have h₁ : s₁.Canonical := .foldl (fun u e hu => by simpa using hu) h
  have h₂ : s₂.Canonical := .foldl (fun u e hu => .foldl (fun w x hw => by simpa using hw) hu) h₁
  have h₃ : s₃.Canonical := restoreNear_canonical h₂
  have h₄ : s₄.Canonical := .foldl (fun u e hu => by split <;> simpa using hu) h₃
  have h₅ : s₅.Canonical := .foldl (fun u e hu => by split <;> simpa using hu) h₄
  have h₆ : s₆.Canonical := .foldl (fun u e hu => by split <;> simpa using hu) h₅
  have h₇ : s₇.Canonical := h₆
  have h₈ : s₈.Canonical := .foldl (fun u e hu => by exact hu) h₇
  have h₉ : s₉.Canonical := .foldl (fun u e hu => by split <;> simpa using hu) h₈
  have h₁₀ : s₁₀.Canonical := .foldl (fun u e hu => by simpa using hu) h₉
  have h₁₁ : s₁₁.Canonical := .foldl (fun u e hu => by split <;> simpa using hu) h₁₀
  exact .foldl (fun u e hu => by split <;> simpa using hu) h₁₁

theorem finishRestore_canonical {c : Nat} {v : Saved} {again s : State} (ha : again.Canonical) (h : s.Canonical) :
    (finishRestore c v again s).Canonical :=
  endAccess_canonical (readArea_canonical h) ha fun v u hu => by
    have hw : (writeBack c v u).Canonical := writeBack_canonical hu
    simpa using hw

@[simp] theorem execRestorePulse_canonical {ctx : Nat} {s : State} (h : s.Canonical) : NextHas CanonicalBytes (execRestorePulse ctx s) := by
  unfold execRestorePulse
  dsimp only
  split
  · exact .next h
  split
  · exact .next (endAccess_canonical (readArea_canonical h) (by simpa using h) fun _ _ hu => by simpa using hu)
  split
  · split
    · simpa using h
    · rename_i heq
      have hu := placeAllSaved_canonical h heq
      split
      · simpa using hu
      · exact .next (finishRestore_canonical (by simpa using h) hu)
  split
  · split
    · exact .next (finishRestore_canonical (by simpa using h) h)
    · simpa using h
  · split <;> simpa using h

/-! ## Writers of `Snapshot` -/

theorem readDescriptor_canonical {n c : Nat} {s : State} {k : Option Nat → State → StepResult} (h : s.Canonical)
    (hk : ∀ w u, u.Canonical → NextHas CanonicalBytes (k w u)) : NextHas CanonicalBytes (readDescriptor n c s k) := by
  unfold readDescriptor
  split
  · rename_i heq
    exact hk _ _ ((partPa_canonical h).of_ok heq)
  · rename_i heq
    exact hk _ _ ((partPa_canonical h).of_fault heq)
  · exact stay_has (by simpa using h)

@[simp] theorem execSweeperVisit_canonical {ctx : Nat} {s : State} (h : s.Canonical) : NextHas CanonicalBytes (execSweeperVisit ctx s) := by
  unfold execSweeperVisit
  dsimp only
  split
  · split
    · exact .next h
    · split
      · simpa using h
      split
      · split
        · simpa using h
        split
        · rename_i heq
          simpa using (partLeaf_has h).of_fault heq
        · simpa using h
        · rename_i heq
          have hu := (partLeaf_has h).of_ok heq
          split
          · rename_i heq
            simpa using (capture_canonical hu).of_ok heq
          · rename_i heq
            simpa using (capture_canonical hu).of_fault heq
          · simpa using hu
      · simpa using h
  · exact .next h

theorem writeEntries_canonical {c off : Nat} {l : List PageRec} {s : State} (h : s.Canonical) :
    EndHas CanonicalBytes (writeEntries c off l s) := by
  induction l generalizing off s with
  | nil => exact .ok h
  | cons r l ih => exact (cellarBytes_canonical h).bind fun _ _ hu => ih hu

theorem writePrivate_canonical {c k off n : Nat} {s : State} (h : s.Canonical) : EndHas CanonicalBytes (writePrivate c k off n s) := by
  induction n generalizing off s with
  | zero => exact .ok h
  | succ n ih => exact (cellarBytes_canonical h).bind fun _ _ hu => ih hu

/-- The inventory and the words behind it of a sealed snapshot reach the cellar (R403). -/
theorem writeSeal_canonical {c off act words : Nat} {bs : List Byte} {l : List PageRec} {s : State} (h : s.Canonical) :
    EndHas CanonicalBytes ((cellarBytes 0 c off bs s).bind fun _ s =>
      (writeEntries c (off + 64) l s).bind fun _ s => writePrivate c s.freeCount act words { s with freeCount := s.freeCount + words }) :=
  (cellarBytes_canonical h).bind fun _ _ hu => (writeEntries_canonical hu).bind fun _ _ hw => writePrivate_canonical hw

@[simp] theorem execSealComplete_canonical {ctx : Nat} {s : State} (h : s.Canonical) : NextHas CanonicalBytes (execSealComplete ctx s) := by
  unfold execSealComplete
  dsimp only
  split
  · exact .next h
  split
  · simpa using h
  · have ht := fun off n => (takeCellar_keepsBytes ctx off n s).has h
    split
    · simpa using h
    · rename_i heq
      simpa using (writeSeal_canonical (ht _ _)).of_fault heq
    · rename_i heq
      simpa using (writeSeal_canonical (ht _ _)).of_ok heq

@[simp] theorem execFailureSweepEnd_canonical {ctx : Nat} {s : State} (h : s.Canonical) :
    NextHas CanonicalBytes (execFailureSweepEnd ctx s) := by
  unfold execFailureSweepEnd
  extract_lets x pages s₁
  have h₁ : s₁.Canonical := .foldl (fun u l hu => by dsimp only; split; exacts [updLeaf_canonical hu, hu]) h
  simpa using h₁

@[simp] theorem execSnap_canonical {ident : BitVec 16} {scope : BitVec 4} {s : State} (h : s.Canonical) :
    NextHas CanonicalBytes (execSnap ident scope s) := by
  refine onSeq_has fun n => readDescriptor_canonical h fun w u hu => ?_
  split
  · refine finish_has ?_
    split <;> simpa using hu
  · exact snapFault_has hu

@[simp] theorem rollContext_canonical {c : Nat} {p : Snap} {s : State} (h : s.Canonical) : (rollContext c p s).Canonical := by
  unfold rollContext
  extract_lets slots s₁ s₂ s₃ pages s₄ x s₅
  have h₁ : s₁.Canonical := by simpa [s₁] using h
  have h₂ : s₂.Canonical := .foldl (fun u g hu => by simpa using hu) h₁
  have h₃ : s₃.Canonical := .foldl (fun u r hu => by simpa using hu) h₂
  have h₄ : s₄.Canonical := .foldl (fun u r hu => by split; exacts [updLeaf_canonical hu, hu]) h₃
  split <;> simpa [s₅] using h₄

@[simp] theorem rollBack_canonical {n c : Nat} {p : Snap} {s : State} (h : s.Canonical) : (rollBack n c p s).Canonical :=
  by simpa [rollBack] using rollContext_canonical h

@[simp] theorem readRecords_canonical {c : Nat} {p : Snap} {s : State} (h : s.Canonical) : EndHas CanonicalBytes (readRecords c p s) :=
  readCellar_canonical h

/-- The end of a rollback, for any way of reading the records of its snapshot. -/
theorem endRollb_canonical {n c : Nat} {o : Option Snap} {read : Nat → Snap → State → PartEnd Unit} {s : State} (h : s.Canonical)
    (hr : ∀ p, EndHas CanonicalBytes (read c p s)) :
    NextHas CanonicalBytes (match o with
      | none => stay n (.rollb c) s
      | some p => match read c p s with
        | .ok _ s => .next (rollBack n c p s)
        | .hold x va => stay n (.rollb c) (copyFirst x va s)
        | .fault s => passIssued n (loseCtx c s)) := by
  split
  · exact stay_has h
  split
  · rename_i heq
    exact .next (rollBack_canonical ((hr _).of_ok heq))
  · exact stay_has (by simpa using h)
  · rename_i heq
    exact passIssued_has (by simpa using (hr _).of_fault heq)

@[simp] theorem execRollb_canonical {a : BitVec 6} {s : State} (h : s.Canonical) : NextHas CanonicalBytes (execRollb a s) := by
  refine onSeq_has fun n => ?_
  dsimp only
  split
  · split
    · exact passIssued_has h
    · exact endRollb_canonical h fun _ => readRecords_canonical h
  · refine readDescriptor_canonical h fun w u hu => ?_
    split
    · refine issueAndStay_has ?_
      split <;> simpa using hu
    · exact snapFault_has hu

@[simp] theorem execCopyBackPage_canonical {ctx : Nat} {s : State} (h : s.Canonical) : NextHas CanonicalBytes (execCopyBackPage ctx s) := by
  unfold execCopyBackPage
  dsimp only
  split
  · exact .next h
  split
  · split
    · simpa using h
    · rename_i heq
      simpa using (fromCellar_canonical h).of_fault heq
    · rename_i u heq
      have hu := (fromCellar_canonical h).of_ok heq
      have hw : ∀ place f lo hi, (updLeaf place f (tlbDrop (fun _ => true) ctx lo hi u)).Canonical := fun _ _ _ _ =>
        updLeaf_canonical (by simpa using hu)
      split <;> simp [hw]
  · split <;> simpa using h

/-! ## Writers of `Platform` -/

@[simp] theorem execPkgreset_canonical {s : State} (h : s.Canonical) : NextHas CanonicalBytes (execPkgreset s) :=
  .next { h with near := rfl }

/-- Single bytes reach the places that a byte backs. -/
theorem storeBytes_canonical {l : List (Nat × Byte)} {s : State} (h : s.Canonical) :
    (l.foldl (fun s e => if byteBacked s e.1 then writePhys e.1 1 e.2.toNat s else s) s).Canonical :=
  .foldl (fun u e hu => by split; exacts [writePhys_canonical hu, hu]) h

@[simp] theorem execBar2Write_canonical {pa : Nat} {bytes : List (BitVec 8)} {s : State} (h : s.Canonical) :
    NextHas CanonicalBytes (execBar2Write pa bytes s) := by
  refine answered_has h ?_
  split
  · exact .next h
  split
  · simpa using h
  split
  · exact .next (writeDirty_canonical _ h)
  · simpa using storeBytes_canonical h

/-! ## Writers of `Dispatch` -/

theorem exec_canonical {i : Instr} {s : State} (h : s.Canonical) : NextHas CanonicalBytes (exec i s) := by
  unfold exec
  cases i with
  | nop => exact finish_has h
  | br => exact execBr_has h
  | beq | bne | blt | bge | bltu | bgeu => exact branchIf_has h
  | call => exact execCall_has h
  | jr => exact execJr_has h
  | jalr => exact execJalr_has h
  | loop => exact execLoop_has h
  | loopr => exact execLoopr_has h
  | tloop => exact execTloop_has h
  | add | sub | and | or | xor | sll | srl | sra | mul | mulh | mulhu | min | max | minu | maxu => exact opReg_has h
  | addi | andi | ori | xori | slli | srli | srai | muli | mini | maxi => exact opImm_has h
  | div | divu | rem | remu | seq | sne | slt | sge | sltu | sgeu => exact opReg_has h
  | seqi | snei | slti | sgei | sltui | sgeui => exact opImm_has h
  | bfx | bfxu => exact opUn_has h
  | bfi => exact finishScalar_has h
  | clz | ctz | popc | brev | bswap => exact opUn_has h
  | li | lih | mov | lea => exact finishScalar_has h
  | ld | ldI8 | ldUi8 | ldI16 | ldUi16 | ldI32 | ldUi32 => exact dramLoad_canonical h
  | st | stI8 | stI16 | stI32 => exact dramStore_canonical h
  | mfsr => exact finishScalar_has h
  | vaddInt | vsubInt | vmulInt | vmulh | vminInt | vmaxInt | vabsInt | vnegInt | vadds | vsubs | vavg | vmad => exact intRow_has h
  | vand | vor | vxor | vandn | vnot | vmov => exact logicRow_has h
  | vsll | vsrl | vsra | vrol => exact shiftRow_has h
  | vslls | vsrls | vsras => exact shiftRowS_has h
  | vcmpeqInt | vcmpneInt | vcmpltInt | vcmpleInt | vcmpgtInt | vcmpgeInt => exact intCompare_has h
  | vsel | vsplat => exact finishElems_has h
  | vext => exact finishWhole_has h
  | vins | viota => exact finishElems_has h
  | vaddFp | vsubFp | vmulFp | vfma | vfms | vfnma => exact fpRow_has h
  | vminFp | vmaxFp | vabsFp | vnegFp => exact fpPick_has h
  | vdiv | vsqrt => exact fpRow_has h
  | vcmpeqFp | vcmpneFp | vcmpltFp | vcmpleFp | vcmpgtFp | vcmpgeFp | vcmpun => exact fpCompare_has h
  | vli => exact finishElems_has h
  | vcvt => exact execVcvt_has h
  | vquant => exact finishWhole_has h
  | vdequant => exact scaleRow_has h
  | vlq2 => exact convertWhole_has h
  | vscale => exact scaleRow_has h
  | vexp2 | vlog2 | vrcp | vrsqrt | vtanh | vsigm => exact fpRow_has h
  | vredsum | vredmin | vredmax | vredminu | vredmaxu | vredand | vredor => exact reduceRow_has h
  | vscan | vscanx | vscanmax => exact scanRow_has h
  | vperm | vrot | vrev | vzip | vunzip | vbcast => exact permRow_has h
  | vsortn | vcompress | vexpand => exact finishWhole_has h
  | vrng | vrngf => exact finishElems_has h
  | pand | por | pxor | pnot | pmov | pall | pnone => exact predRow_has h
  | pcnt | pfirst => exact finishWhole_has h
  | pwlt => exact predRow_has h
  | madd | msub | mneg | mmulq | mmac | mtomont | mfrmont | mred | mmul => exact modRow_has h
  | bflyct => exact execBflyct_has h
  | bflygs => exact execBflygs_has h
  | bfpermRev | bfpermShuf | bfpermStrd => exact permPair_has h
  | mauto => exact execMauto_has h
  | mqset | mqget => exact finishWhole_has h
  | tcfg => exact putSetting_has h
  | tdef => exact execTdef_has h
  | tarm => exact execTarm_has h
  | tdisarm => exact putSetting_has h
  | ttagEmpty | ttagFull => exact sendTag_has h
  | twload => exact execTwload_has h
  | tread => exact execTread_has h
  | tstore => exact execTstore_has h
  | taccz => exact execTaccz_has h
  | tsysto => exact execTsysto_has h
  | tstatSlot | tstatAcc => exact tensorStat_has h
  | pop => exact execPop_has h
  | popd => exact execPopd_has h
  | push => exact sendOnPort_has h
  | peek => exact execPeek_has h
  | nld => exact execNld_has h
  | nlds => exact nearLoad_has h
  | nst => exact execNst_has h
  | nsts => exact nearStore_has h
  | pld => exact nearLoad_has h
  | pldv => exact execPldv_has h
  | pst => exact nearStore_has h
  | pstv => exact execPstv_has h
  | pclr => exact execPclr_has h
  | agset => exact execAgset_has h
  | agld => exact execAgld_has h
  | agst => exact execAgst_has h
  | amoAdd | amoMin | amoMax | amoAnd | amoOr | amoXor | amoSwap | amoCas | amoFadd | amoMinu | amoMaxu | redAdd | redMin
    | redMax | redAnd | redOr | redXor | redFadd | redMinu | redMaxu => exact atomic_has h
  | csig => exact execCsig_has h
  | cwait => exact execCwait_has h
  | ctest => exact execCtest_has h
  | punct => exact sendOnPort_has h
  | punctall => exact execPunctall_has h
  | ordj => exact execOrdj_has h
  | fence => exact execFence_has h
  | ramoAdd | ramoMin | ramoMax | ramoAnd | ramoOr | ramoXor | ramoSwap | ramoCas | ramoFadd | ramoMinu | ramoMaxu => exact ramo_has h
  | setmode => exact execSetmode_has h
  | spawn => exact execSpawn_has h
  | cret => exact execCret_has h
  | ckick => exact execCkick_has h
  | carm => exact execCarm_canonical h
  | gld => exact execGld_has h
  | gact => exact execGact_has h
  | gdrain => exact execGdrain_has h
  | gunld => exact execGunld_has h
  | gstat => exact execGstat_has h
  | mstat => exact execMstat_has h
  | gpatch => exact execGpatch_has h
  | trap => exact execTrap_has h
  | tret => exact execTret_has h
  | mtsr => exact execMtsr_has h
  | idle => exact execIdle_has h
  | csave => exact execCsave_canonical h
  | cload => exact execCload_has h
  | pginv => exact execPginv_has h
  | pgfence => exact execPgfence_has h
  | pgstat => exact execPgstat_has h
  | snap => exact execSnap_canonical h
  | snapq => exact execSnapq_has h
  | snapw => exact execSnapw_has h
  | rollb => exact execRollb_canonical h
  | rkset => exact execRkset_has h
  | rkget => exact execRkget_has h
  | resultWriteback => exact execResultWriteback_has h
  | regionResume => exact execRegionResume_has h
  | phaseStart => exact execPhaseStart_has h
  | phaseEnd => exact execPhaseEnd_has h
  | stall => exact execStall_has h
  | scheduledTokenArrival => exact execScheduledTokenArrival_has h
  | ringWindowWrite => exact execRingWindowWrite_has h
  | creditArrival => exact execCreditArrival_has h
  | chunkGrant => exact execChunkGrant_has h
  | sourceRequest => exact execSourceRequest_canonical h
  | dramReply => exact execDramReply_has h
  | gatherIndexTake => exact execGatherIndexTake_has h
  | scatterAddUpdate => exact execScatterAddUpdate_canonical h
  | sinkWrite => exact execSinkWrite_canonical h
  | modeRequestArrival => exact execModeRequestArrival_has h
  | memoryActorQuiescent => exact execMemoryActorQuiescent_has h
  | startPulse => exact execStartPulse_has h
  | copyFiring => exact execCopyFiring_has h
  | copyCompletion => exact execCopyCompletion_has h
  | bankAccess => exact execBankAccess_canonical h
  | presenceReadServed => exact execPresenceReadServed_has h
  | generatorTakePattern => exact execGeneratorTakePattern_has h
  | joinSignalArrival => exact execJoinSignalArrival_has h
  | releaseArrival => exact execReleaseArrival_has h
  | controlTokenArrival => exact execControlTokenArrival_has h
  | orderTokenArrival => exact execOrderTokenArrival_has h
  | atomicPipelineTake => exact execAtomicPipelineTake_canonical h
  | farAtomicReply => exact execFarAtomicReply_has h
  | ramoInvocationArrival => exact execRamoInvocationArrival_canonical h
  | ramoReply => exact execRamoReply_has h
  | colourDraw => exact execColourDraw_has h
  | tensorFiringStart => exact execTensorFiringStart_has h
  | tensorFiringComplete => exact execTensorFiringComplete_has h
  | ttagArrival => exact execTtagArrival_has h
  | treadRead => exact execTreadRead_has h
  | tstoreStart => exact execTstoreStart_has h
  | tstoreComplete => exact execTstoreComplete_has h
  | tacczEffect => exact execTacczEffect_has h
  | twloadValid => exact execTwloadValid_has h
  | systolicPassStart => exact execSystolicPassStart_has h
  | systolicPassComplete => exact execSystolicPassComplete_has h
  | tileFaultReport => exact execTileFaultReport_has h
  | trapEntry => exact execTrapEntry_has h
  | seqCompletionFault => exact execSeqCompletionFault_has h
  | haltPoint => exact execHaltPoint_has h
  | saveComplete => exact execSaveComplete_canonical h
  | restorePulse => exact execRestorePulse_canonical h
  | drainComplete => exact execDrainComplete_canonical h
  | graphLoadComplete => exact execGraphLoadComplete_canonical h
  | graphPlacement => exact execGraphPlacement_canonical h
  | stagingComplete => exact execStagingComplete_canonical h
  | launchRecordRead => exact execLaunchRecordRead_canonical h
  | recordRun => exact execRecordRun_has h
  | recordKick => exact execRecordKick_has h
  | recordMode => exact execRecordMode_has h
  | recordNote => exact execRecordNote_has h
  | recordUnload => exact execRecordUnload_has h
  | recordFinish => exact execRecordFinish_has h
  | thermalSample => exact execThermalSample_has h
  | allowanceUpdate => exact execAllowanceUpdate_has h
  | migrationRequest => exact execMigrationRequest_has h
  | migrationAccept => exact execMigrationAccept_canonical h
  | migrationPassEnd => exact execMigrationPassEnd_canonical h
  | migrationCommit => exact execMigrationCommit_canonical h
  | walkComplete => exact execWalkComplete_has h
  | testBankEnd => exact execTestBankEnd_canonical h
  | readRetry => exact execReadRetry_has h
  | configStoreError => exact execConfigStoreError_has h
  | configReloadComplete => exact execConfigReloadComplete_has h
  | snapOpenPoint => exact execSnapOpenPoint_has h
  | sweeperVisit => exact execSweeperVisit_canonical h
  | snapshotSealing => exact execSnapshotSealing_has h
  | sealComplete => exact execSealComplete_canonical h
  | snapshotFail => exact execSnapshotFail_has h
  | failureSweepEnd => exact execFailureSweepEnd_canonical h
  | copyBackPage => exact execCopyBackPage_canonical h
  | frameSend => exact execFrameSend_has h
  | frameDelivery => exact execFrameDelivery_has h
  | frameResend => exact execFrameResend_has h
  | frameHoldTimeout => exact execFrameHoldTimeout_has h
  | boundaryFlitResend => exact execBoundaryFlitResend_has h
  | linkTrainingDone => exact execLinkTrainingDone_has h
  | linkEnable => exact execLinkEnable_has h
  | carrierLoss => exact execCarrierLoss_has h
  | rankLost => exact execRankLost_has h
  | pcycAdopt => exact execPcycAdopt_has h
  | linkRetrain => exact execLinkRetrain_has h
  | linkReset => exact execLinkReset_has h
  | ctxcreate => exact execCtxcreate_has h
  | contextDestroy => exact execContextDestroy_has h
  | hostResume => exact execHostResume_has h
  | hostDoorbell => exact execHostDoorbell_has h
  | causeFifoRead => exact execCauseFifoRead_has h
  | packageEventRead => exact execPackageEventRead_has h
  | errorLogRead => exact execErrorLogRead_has h
  | bar2Read => exact execBar2Read_has h
  | bar2Write => exact execBar2Write_canonical h
  | dccall => exact execDccall_has h
  | dccallEntry => exact execDccallEntry_has h
  | pkgreset => exact execPkgreset_canonical h
  | dcrestart => exact execDcrestart_has h
  | registerWrite => exact execRegisterWrite_has h
  | powerGood => exact execPowerGood_has h
  | nearResultLate => exact execNearResultLate_has h
  | testBankStart => exact execTestBankStart_has h
  | pcieError => exact execPcieError_has h
  | dramAccessPerformed => exact execDramAccessPerformed_canonical h
  | boundaryFlitCrossing => exact execBoundaryFlitCrossing_has h

/-! ## Writers of `Issue` -/

theorem execBeats_canonical {t : Nat} {i : Instr} {cur : Cur} {cap : Option Capture} {m b : Nat} {s : State} (h : s.Canonical) :
    NextHas CanonicalBytes (execBeats t i cur cap m b s) := by
  induction m generalizing b s with
  | zero => exact .next h
  | succ m ih =>
    unfold execBeats
    dsimp only
    split
    · rename_i heq
      have hu := (exec_canonical (by exact h)).of_next heq
      exact ih hu
    · exact exec_canonical h

theorem stopEntry_canonical {t : Nat} {i : Instr} {bad : Nat × Nat} {s done : State} (h : s.Canonical) (hd : done.Canonical) :
    (stopEntry t i bad s done).Canonical := by
  unfold stopEntry
  dsimp only
  split
  · exact hd
  · simpa using h

@[simp] theorem execEntry_canonical {t : Nat} {i : Instr} {s : State} (h : s.Canonical) : NextHas CanonicalBytes (execEntry t i s) := by
  unfold execEntry
  split
  · exact onNext_has (fun _ hu => stopEntry_canonical h hu) (execBeats_canonical h)
  split
  · exact exec_canonical h
  · exact onNext_has (fun _ hu => hu) (exec_canonical h)

@[simp] theorem reissueEntry_canonical {k t id : Nat} {o : Op} {i : Instr} {regs : Tile} {s : State} (h : s.Canonical) :
    (reissueEntry k t id o i regs s).Canonical := by
  unfold reissueEntry
  dsimp only
  split
  · rename_i heq
    have hu := (execBeats_canonical (by exact h)).of_next heq
    split
    · exact h
    · exact hu
  · exact h

@[simp] theorem reissueAny_canonical {k id : Nat} {s : State} (h : s.Canonical) : (reissueAny k id s).Canonical := by
  unfold reissueAny
  split
  · exact h
  split
  · exact reissueEntry_canonical h
  · simpa using h

@[simp] theorem reissueAll_canonical {k : Nat} {s : State} (h : s.Canonical) : (reissueAll k s).Canonical :=
  .foldl (fun _ _ hu => reissueAny_canonical hu) (by exact h)

@[simp] theorem issueEntry_canonical {t : Nat} {s : State} (h : s.Canonical) : NextHas CanonicalBytes (issueEntry t s) := by
  unfold issueEntry
  split
  · exact .next h
  dsimp only
  split
  · simpa using h
  split
  · exact .fault _
  · exact onNext_has (fun u hu => by simpa using hu) (execEntry_canonical (by simpa using h))

@[simp] theorem issueBeat_canonical {t e : Nat} {s : State} (h : s.Canonical) : NextHas CanonicalBytes (issueBeat t e s) := by
  unfold issueBeat
  split
  · exact .next h
  · exact exec_canonical (by simpa using h)

theorem leaves_canonical {s : State} {r : StepResult} (h : s.Canonical) (hr : NextHas CanonicalBytes r) :
    (Outcome.leaves s r).Canonical := by
  cases hr with
  | next hu => exact hu
  | fault => exact h
  | refused => exact h

@[simp] theorem bareWork_canonical {w : Task} {s : State} (h : s.Canonical) : (bareWork w s).Canonical := by
  unfold bareWork
  split
  · split
    · exact h
    split
    · exact h
    · exact leaves_canonical h (exec_canonical h)
  · split
    · exact h
    · exact leaves_canonical h (exec_canonical h)
  · exact h

@[simp] theorem takeReports_canonical {bad : List (Task × List (Nat × Report))} {s : State} (h : s.Canonical) :
    (takeReports bad s).Canonical :=
  .foldl (fun u b hu => by
    split
    · exact bareWork_canonical hu
    · exact .foldl (fun w x hw => by simpa using hw) hu) h

@[simp] theorem phaseCycle_canonical {k : Nat} {s : State} (h : s.Canonical) : NextHas CanonicalBytes (phaseCycle k s) := by
  unfold phaseCycle
  dsimp only
  split
  · simpa using h
  split
  · simpa using reissueAll_canonical h
  split
  · simpa using takeReports_canonical (reissueAll_canonical h)
  · simpa using reissueAll_canonical h

@[simp] theorem earlyBeat_canonical {k v : Nat} {t e : Nat} {s : State} (h : s.Canonical) : (earlyBeat k v t e s).Canonical := by
  unfold earlyBeat
  extract_lets old s₁ x pend s₂
  have h₁ : s₁.Canonical := leaves_canonical h (issueBeat_canonical (by simpa using h))
  split
  · exact h
  · simpa [s₂] using h₁

@[simp] theorem earlyBeats_canonical {k v : Nat} {s : State} (h : s.Canonical) : (earlyBeats k v s).Canonical :=
  .foldl (fun u w hu => by
    split
    · exact earlyBeat_canonical hu
    · exact hu) h

@[simp] theorem regionTask_canonical {k : Nat} {s : State} (h : s.Canonical) : NextHas CanonicalBytes (regionTask k s) := by
  unfold regionTask
  extract_lets c slot s₁ r
  have h₁ : s₁.Canonical := by
    unfold s₁
    split <;> simpa using h
  refine .ite ?stopped <| .ite (by simpa using h₁) <| .ite ?ageing <| .ite (.next h₁) <| .ite (by simpa using h₁) <| .ite ?inPhase <|
    .ite (by simpa using h₁) <| .ite (by simpa using h₁) ?between
  case stopped =>
    split
    · refine .next ?_
      split
      · exact earlyBeats_canonical h₁
      · exact h₁
    · exact .next h₁
  case ageing => exact .next ((ageResults_keepsBytes ..).has (reissueAll_canonical h₁))
  case inPhase => exact .ite (by simpa using h₁) (phaseCycle_canonical h₁)
  case between => split <;> simpa using h₁

@[simp] theorem issueWord_canonical {n : Nat} {w : Word} {s : State} (h : s.Canonical) : NextHas CanonicalBytes (issueWord n w s) := by
  unfold issueWord
  dsimp only
  split
  · split <;> simpa using h
  split
  · exact exec_canonical (by simpa using h)
  · exact .next h

@[simp] theorem fetchAndIssue_canonical {n : Nat} {s : State} (h : s.Canonical) : NextHas CanonicalBytes (fetchAndIssue n s) := by
  unfold fetchAndIssue
  refine seqAccess_canonical (by exact h) fun pa _ u hu => ?_
  split
  · simpa using hu
  · exact issueWord_canonical hu

@[simp] theorem tryAgain_canonical {n : Nat} {s : State} (h : s.Canonical) : NextHas CanonicalBytes (tryAgain n s) := by
  unfold tryAgain
  dsimp only
  split
  · exact .fault _
  · exact exec_canonical h

@[simp] theorem seqTask_canonical {n : Nat} {s : State} (h : s.Canonical) : NextHas CanonicalBytes (seqTask n s) := by
  unfold seqTask
  dsimp only
  split
  · exact .next h
  split
  · simpa using h
  cases (s.seq n).run with
  | off | stopped | forwarded | xlat | idle | cwait => exact .next h
  | run =>
    dsimp only
    split
    · exact fetchAndIssue_canonical h
    · exact .next h
  | fence =>
    dsimp only
    split
    · exact .next h
    · exact fetchAndIssue_canonical (by simpa using h)
  | _ =>
    dsimp only
    split
    · exact tryAgain_canonical h
    · exact .next h

/-! ## Writers of `Peers` -/

theorem peerDescriptor_canonical {c : Nat} {i : Input} {s : State} {k : Option Nat → State → State} (h : s.Canonical)
    (hk : ∀ w u, u.Canonical → (k w u).Canonical) : (peerDescriptor c i s k).Canonical := by
  unfold peerDescriptor
  split
  · rename_i heq
    exact hk _ _ ((partPa_canonical h).of_ok heq)
  · rename_i heq
    exact hk _ _ ((partPa_canonical h).of_fault heq)
  · simpa using h

theorem onPeerGraph_canonical {c slot : Nat} {ok : GraphState → Bool} {f : State → State} {s : State} (hf : s.Canonical → (f s).Canonical)
    (h : s.Canonical) : (onPeerGraph c slot ok f s).Canonical := by
  unfold onPeerGraph
  split
  · exact hf h
  · exact h

theorem endRequest_canonical {c : Nat} {i : Input} {s : State} {e : PartEnd Unit} (he : EndHas CanonicalBytes e) (h : s.Canonical) :
    (endRequest c i s e).Canonical := by
  cases he with
  | ok hu => exact hu
  | fault hu => simpa [endRequest] using hu
  | hold => simpa [endRequest] using h

@[simp] theorem peerRequest_canonical {c : Nat} {r : PeerRequest} {s : State} (h : s.Canonical) : (peerRequest c r s).Canonical := by
  cases r with
  | load rank handle va => simpa [peerRequest] using h
  | refuse slot rank => exact onPeerGraph_canonical (updGraph_keepsBytes ..).has h
  | took slot rank => exact onPeerGraph_canonical (updGraph_keepsBytes ..).has h
  | activate slot => exact onPeerGraph_canonical (activate_keepsBytes ..).has h
  | drain slot => exact onPeerGraph_canonical (startDrain_keepsBytes ..).has h
  | unload slot => exact onPeerGraph_canonical (unload_keepsBytes ..).has h
  | mode slot m =>
    unfold peerRequest
    dsimp only
    split
    · exact h
    · exact onPeerGraph_canonical (requestMode_keepsBytes ..).has h
  | save drain at_ =>
    unfold peerRequest
    dsimp only
    split
    · exact endRequest_canonical (beginSave_canonical h) h
    · exact h
  | restore =>
    unfold peerRequest
    dsimp only
    split <;> simpa using h
  | snap ident at_ =>
    refine peerDescriptor_canonical h fun w u hu => ?_
    split <;> simpa using hu
  | rollBack ident at_ =>
    refine peerDescriptor_canonical h fun w u hu => ?_
    split <;> simpa using hu
  | pginv rank n lo hi => simpa [peerRequest] using h
  | pgfence rank n => simpa [peerRequest] using h
  | pgWait rank n ids =>
    unfold peerRequest
    dsimp only
    split <;> simpa using h
  | pgDone rank n => exact h
  | cellarWrite pa bytes => exact writeDirty_canonical _ h

/-- The end of a rollback that another package asked for, for any way of reading the records of its snapshot. -/
theorem endRollback_canonical {c : Nat} {o : Option Snap} {read : Nat → Snap → State → PartEnd Unit} {s : State} (h : s.Canonical)
    (hr : ∀ p, EndHas CanonicalBytes (read c p s)) :
    State.Canonical (match o with
      | none => s
      | some p => match read c p s with
        | .ok _ s => rollContext c p s
        | .hold x va => copyFirst x va s
        | .fault s => loseCtx c s) := by
  split
  · exact h
  split
  · rename_i heq
    exact rollContext_canonical ((hr _).of_ok heq)
  · simpa using h
  · rename_i heq
    simpa using (hr _).of_fault heq

@[simp] theorem endPeerRollback_canonical {c : Nat} {s : State} (h : s.Canonical) : (endPeerRollback c s).Canonical := by
  unfold endPeerRollback
  split
  · exact endRollback_canonical h fun _ => readRecords_canonical h
  · exact h

/-! ## Writers of `Sched` -/

@[simp] theorem copyTask_canonical {c g t : Nat} {s : State} (h : s.Canonical) : NextHas CanonicalBytes (copyTask c g t s) := by
  unfold copyTask
  split
  · refine .next ?_
    split
    · exact landInHand_canonical h
    · exact h
  · simpa using copyProgress_canonical (by simpa using h)

@[simp] theorem storeNow_canonical {t : Nat} {s : State} (h : s.Canonical) : (storeNow t s).Canonical := by
  unfold storeNow
  dsimp only
  split
  · split
    · split
      · exact storeSpan_canonical h
      · exact h
    · exact h
  · exact h

@[simp] theorem storeTask_canonical {t : Nat} {s : State} (h : s.Canonical) : (storeTask t s).Canonical := by
  unfold storeTask
  split
  · exact storeNow_canonical h
  · exact h

@[simp] theorem contextTask_canonical {c : Nat} {s : State} (h : s.Canonical) : NextHas CanonicalBytes (contextTask c s) := by
  unfold contextTask
  extract_lets s₁ x s₂ reads s₃
  have h₁ : s₁.Canonical := endPeerRollback_canonical (by simpa using h)
  have h₃ : s₃.Canonical := by
    unfold s₃
    split <;> simpa [s₂] using h₁
  simpa using h₃

@[simp] theorem foundCellar_canonical {c : Nat} {cellar : Cellar} {used : List (Nat × Nat)} {snaps : List Snap} {cells : Memory}
    {s : State} (h : s.Canonical) :
    (foundCellar c cellar used snaps cells s).Canonical :=
  { h with peer := Memory.wf_foldl _ _ _ h.peer }

@[simp] theorem takeInput_canonical {i : Input} {s : State} (h : s.Canonical) : (takeInput i s).Canonical := by
  cases i with
  | peer c r => exact peerRequest_canonical h
  | passFails die => exact failPass_canonical h
  | peerCellar => exact foundCellar_canonical h
  | _ => simpa [takeInput] using h

@[simp] theorem inputTask_canonical {s : State} (h : s.Canonical) : NextHas CanonicalBytes (inputTask s) := by
  unfold inputTask
  split
  · exact .next h
  · refine .next ?_
    split
    · exact takeInput_canonical h
    · exact h

@[simp] theorem beforeEvent_canonical {i : Instr} {s : State} (h : s.Canonical) : (beforeEvent i s).Canonical := by
  unfold beforeEvent
  split
  · split
    · rename_i heq
      simpa using (loadVerdict_canonical h).of_ok heq
    · rename_i heq
      simpa using (loadVerdict_canonical h).of_fault heq
    · simpa using h
  · exact h

@[simp] theorem runTask_canonical {t : Task} {s : State} (h : s.Canonical) : NextHas CanonicalBytes (runTask t s) := by
  cases t with
  | event i => exact exec_canonical (beforeEvent_canonical h)
  | region k => exact regionTask_canonical h
  | beat t e => exact issueBeat_canonical h
  | entry t => exact issueEntry_canonical h
  | advance k => exact .next ((endCycle_keepsBytes ..).has h)
  | seq n => exact seqTask_canonical h
  | memActor c g m => exact memActorTask_has h
  | copy c g t => exact copyTask_canonical h
  | tensor t => exact tensorTask_has h
  | fire t => exact fireTask_has h
  | store t => exact .next (storeTask_canonical h)
  | graph c g => exact graphTask_has h
  | context c => exact contextTask_canonical h
  | dispatch => exact dispatchTask_has h
  | arc k => exact .next ((drainEntry_keepsBytes ..).has h)
  | join c g j => exact .next ((tryJoin_keepsBytes ..).has h)
  | link n => exact linkTask_has h
  | die d => exact dieTask_has h
  | input => exact inputTask_canonical h

@[simp] theorem stepOnce_canonical {s : State} (h : s.Canonical) : NextHas CanonicalBytes (stepOnce s) := by
  unfold stepOnce
  split
  · simpa using h
  · exact runTask_canonical h

/-! ## Writers of `Step` -/

@[simp] theorem step_canonical {s : State} (h : s.Canonical) : NextHas CanonicalBytes (step s) := stepOnce_canonical h

/-! ## The obligation -/

/-- Settles O60: every step keeps the memories in canonical form. -/
theorem memoryStaysCanonical : Obligations.MemoryStaysCanonical := by
  unfold Obligations.MemoryStaysCanonical
  intro s u ⟨hm, hp, hn⟩ hstep
  obtain ⟨hm', hp', hn'⟩ := (step_canonical ⟨hm, hp, hn⟩).of_next hstep
  exact ⟨hm', hp', hn'⟩

end Sys2Proof.Machine
end

/-! # Steps of control units and of timed lists

What one step of a control unit and of an entry of a timed list does, from what its task, its fetch and its issue do. -/

section
open Sys2Proof Sys2Proof.Machine Sys2Proof.Claims
namespace Sys2Proof.Machine

/-! ## A task of a cycle -/

theorem step_of_todo {s : State} {t : Task} {rest : List Task} (h : s.todo = t :: rest) :
    step s = runTask t { s with todo := rest } := by
  unfold step stepOnce
  rw [h]

/-! ## Translated accesses that only read -/

/-- With its page in the TLB and the access allowed there, a read or a fetch finds its physical address and changes nothing (R386). -/
theorem translate_hit {s : State} {die ctx va : Nat} {need : Need} {m : Bool} {x : TlbEntry} (hx : tlbFind s die ctx va = some x)
    (ha : need.allowed x.leaf = true) (hw : need.writes = false) :
    translate die ctx va need m s = .ok (Leaf.pa x.leaf + (va - x.va)) x.va s := by
  simp only [translate, hx, ha, hw, Bool.not_true, Bool.not_false, Bool.false_eq_true, if_false, if_true]

section access
variable {s : State} {n va : Nat} {need : Need} {k : Nat → Nat → State → StepResult}

/-- Behind a request of its stream that a test bank holds, an access is tried again in the next cycle (R396). -/
theorem seqAccess_held (hva : va < 2 ^ 56) (hh : streamHeld s (s.seq n).ctxid (.seq n) = true) :
    seqAccess n va need s k = .next (s.updSeq n fun q => { q with ready := s.pcyc + 1 }) := by
  simp only [seqAccess, Nat.not_le.2 hva, hh, if_false, if_true]

/-- With nothing of its stream ahead of it and its page in the TLB, an access goes to its physical address. -/
theorem seqAccess_hit {x : TlbEntry} (hva : va < 2 ^ 56) (hh : streamHeld s (s.seq n).ctxid (.seq n) = false)
    (hwalk : walkAhead s n = none) (hx : tlbFind s (dieOfSeq n) (s.seq n).ctxid va = some x)
    (ha : need.allowed x.leaf = true) (hw : need.writes = false) :
    seqAccess n va need s k = k (Leaf.pa x.leaf + (va - x.va)) x.va s := by
  simp only [seqAccess, Nat.not_le.2 hva, hh, hwalk, translate_hit hx ha hw, Bool.false_eq_true, if_false]

end access

/-! ## A control unit at its turn -/

/-- No trap enters a unit that is in a handler or for which none waits. -/
theorem no_trapEntry {s : State} {n : Nat} (h : (s.seq n).trap = true ∨ ((s.seq n).refused = [] ∧ (s.seq n).queue = [])) :
    (atBoundary s n && (!(s.seq n).refused.isEmpty || !(s.seq n).queue.isEmpty)) = false := by
  rcases h with h | ⟨hr, hq⟩
  · simp [atBoundary, h]
  · simp [hr, hq]

/-- A unit that works, runs and is ready fetches, unless a trap enters it. -/
theorem seqTask_fetches {s : State} {n : Nat} (hw : seqWorks s n = true) (hrun : (s.seq n).run = .run) (hr : (s.seq n).ready ≤ s.pcyc)
    (ht : (s.seq n).trap = true ∨ ((s.seq n).refused = [] ∧ (s.seq n).queue = [])) : seqTask n s = fetchAndIssue n s := by
  simp only [seqTask, hw, no_trapEntry ht, hrun, hr, Bool.not_true, Bool.false_eq_true, if_false, if_true]

/-- Has the issue delay of a word passed (R21)? -/
theorem delayPassed_iff (s : State) (q : Seq) (w : Word) : delayPassed s q w = true ↔ stampOf w = 0 ∨ q.last + (stampOf w).toNat ≤ s.pcyc := by
  simp [delayPassed]

section issue
variable {n : Nat} {w : Word} {s u : State}

/-- An instruction that may issue is executed in the state that names it (R21, R102). -/
theorem issueWord_issues {i : Instr} (hu : { s with cur := seqCur s n w } = u) (hd : decode .seq w = .ok i)
    (hc : canIssue u (u.seq n) w i = true) : issueWord n w s = exec i (u.updSeq n fun q => { q with word := w }) := by
  simp only [issueWord, hd, hu, hc, if_true]

/-- One that may not issue yet waits. -/
theorem issueWord_waits {i : Instr} (hu : { s with cur := seqCur s n w } = u) (hd : decode .seq w = .ok i)
    (hc : canIssue u (u.seq n) w i = false) : issueWord n w s = .next u := by
  simp only [issueWord, hd, hu, hc, Bool.false_eq_true, if_false]

/-- A word that is no instruction raises ILLEGAL with its failing check at the end of its issue delay (R83, R85). -/
theorem issueWord_illegal {e : DecodeError} (hu : { s with cur := seqCur s n w } = u) (hd : decode .seq w = .error e)
    (hp : delayPassed u (u.seq n) w = true) :
    issueWord n w s = .next (ownFault n 0x01 (BitVec.ofNat 64 (failedCheck u w e.check)) u) := by
  simp only [issueWord, hd, hu, hp, if_true]

theorem issueWord_delayed {e : DecodeError} (hu : { s with cur := seqCur s n w } = u) (hd : decode .seq w = .error e)
    (hp : ¬ delayPassed u (u.seq n) w = true) : issueWord n w s = .next u := by
  simp only [issueWord, hd, hu]
  exact if_neg hp

/-- The number in `TINFO` of ILLEGAL: check 5 stands before the checks 6 to 8 (R83, R219). -/
theorem failedCheck_eq (u : State) (w : Word) (k : Nat) :
    failedCheck u w k = if 5 < k ∧ badControlPort u w = true then 5 else k := by
  simp only [failedCheck, Bool.and_eq_true, decide_eq_true_eq]

end issue

section fetch
variable {n pa : Nat} {s f : State} {x : TlbEntry}

/-- Behind a request of its stream that a test bank holds, a fetch is tried again in the next cycle (R396). -/
theorem fetchAndIssue_held (hf : { s with cur := seqCur s n 0 } = f) (hva : (f.seq n).pc.toNat < 2 ^ 56)
    (hh : streamHeld f (f.seq n).ctxid (.seq n) = true) :
    fetchAndIssue n s = .next (f.updSeq n fun q => { q with ready := f.pcyc + 1 }) := by
  simp only [fetchAndIssue, hf, seqAccess_held hva hh]

/-- A fetch whose page stands in the TLB reads its word, unless the bank of the word is under test (R386, R396). -/
theorem fetchAndIssue_hit (hf : { s with cur := seqCur s n 0 } = f) (hva : (f.seq n).pc.toNat < 2 ^ 56)
    (hh : streamHeld f (f.seq n).ctxid (.seq n) = false) (hwalk : walkAhead f n = none)
    (hx : tlbFind f (dieOfSeq n) (f.seq n).ctxid (f.seq n).pc.toNat = some x) (ha : Need.fetch.allowed x.leaf = true)
    (hpa : Leaf.pa x.leaf + ((f.seq n).pc.toNat - x.va) = pa) :
    (∀ d, underTest f pa = some d → fetchAndIssue n s = .next (holdRequest d (.seq n) f)) ∧
    (underTest f pa = none → fetchAndIssue n s = issueWord n (BitVec.ofNat 64 (readLE f.mem pa 8)) f) := by
  simp only [fetchAndIssue, hf, seqAccess_hit hva hh hwalk hx ha rfl, hpa]
  exact ⟨fun d hd => by simp only [hd], fun hfree => by simp only [hfree]⟩

end fetch

/-! ## The entry of a tile at `CYC` -/

section entry
variable {t : Nat} {l : ListStore} {p : Placement} {e : Entry} {i : Instr} {c : Cur} {s u v : State}

@[simp] theorem afterEntry_slow : ((afterEntry t l p e i c s).tile t).slow = (s.tile t).slow := by simp [afterEntry]

@[simp] theorem afterEntry_badReg : ((afterEntry t l p e i c s).tile t).badReg = (s.tile t).badReg := by simp [afterEntry]

@[simp] theorem setLoops_slow (vs : List (Nat × Nat)) : ((setLoops t vs s).tile t).slow = (s.tile t).slow := by simp [setLoops]

@[simp] theorem setLoops_badReg (vs : List (Nat × Nat)) : ((setLoops t vs s).tile t).badReg = (s.tile t).badReg := by simp [setLoops]

/-- A tile that is not late and reads nothing that fails executes its entry (R374, R375). -/
theorem execEntry_at_rest (hs : (s.tile t).slow = 0) (hb : (s.tile t).badReg = none) : execEntry t i s = exec i s := by
  simp only [execEntry, hb, hs, if_true]

/-- The outcome of an entry with its loop counts set behind it (R127). -/
theorem onNext_eq (f : State → State) (r : StepResult) : onNext f r = (match r with
    | .next s => .next (f s)
    | .fault x => .fault x
    | .refused x => .refused x) := by
  cases r <;> rfl

theorem issueEntry_issues (hnow : entryNow u t = some (l, p, e)) (hv : setLoops t p.before u = v) (hc : entryCur v t l p e = c)
    (hi : entryIssues v t l p e = true) (hs : (v.tile t).slow = 0) (hb : (v.tile t).badReg = none) (hd : decode .list e.word = .ok i) :
    issueEntry t u = onNext (setLoops t p.after) (exec i (afterEntry t l p e i c { v with cur := c })) := by
  simp only [issueEntry, hnow, hv, hc, hi, hd, Bool.not_true, Bool.false_eq_true, if_false]
  exact congrArg _ (execEntry_at_rest (afterEntry_slow.trans hs) (afterEntry_badReg.trans hb))

theorem issueEntry_dropped (hnow : entryNow u t = some (l, p, e)) (hv : setLoops t p.before u = v) (hi : entryIssues v t l p e = false) :
    issueEntry t u = .next (setLoops t p.after v) := by
  simp only [issueEntry, hnow, hv, hi, Bool.not_false, if_true]

end entry

/-! ## The obligations -/

/-- Settles O4: the fetch finds its translation, and the word that it reads issues. -/
theorem stepRunsSequencerWord : Obligations.StepRunsSequencerWord := by
  unfold Obligations.StepRunsSequencerWord
  intro s n rest x htodo hworks hrun hready htrap hpc hx hallowed pa w u fetching
  have hfetch := (step_of_todo htodo).trans (seqTask_fetches (s := { s with todo := rest }) hworks hrun hready htrap)
  refine ⟨fun hheld => hfetch.trans (fetchAndIssue_held (f := fetching) rfl hpc hheld), fun hheld hwalk => ?_⟩
  obtain ⟨htested, hfree⟩ := fetchAndIssue_hit (s := { s with todo := rest }) (f := fetching) (pa := pa) rfl hpc hheld hwalk hx hallowed rfl
  refine ⟨fun d hd => hfetch.trans (htested d hd), fun hf => ?_⟩
  have hissues : step s = issueWord n w fetching := hfetch.trans (hfree hf)
  clear_value w pa
  have hu : { fetching with cur := seqCur fetching n w } = u := rfl
  have hdelay : delayPassed u (u.seq n) w = true ↔ stampOf w = 0 ∨ (s.seq n).last + (stampOf w).toNat ≤ s.pcyc := delayPassed_iff _ _ _
  refine ⟨fun i hi hcan => ?_, fun i hi hcan => ?_, fun e he hpast => ?_, fun e he hpast => ?_⟩
  · exact hissues.trans (issueWord_issues hu hi hcan)
  · exact hissues.trans (issueWord_waits hu hi hcan)
  · rw [hissues, issueWord_illegal hu he (hdelay.2 hpast), failedCheck_eq]
  · exact hissues.trans (issueWord_delayed hu he (mt hdelay.1 hpast))

/-- Settles O5: the entry at `CYC` issues between the two changes of the loop counts, or only those happen. -/
theorem stepRunsEntry : Obligations.StepRunsEntry := by
  unfold Obligations.StepRunsEntry
  intro s t rest l p e i htodo u hnow v c
  have hstep : step s = issueEntry t u := step_of_todo htodo
  have hslow : (v.tile t).slow = (s.tile t).slow := setLoops_slow _
  have hbad : (v.tile t).badReg = (s.tile t).badReg := setLoops_badReg _
  refine ⟨fun hissues hs hb hdec => ?_, fun hissues => hstep.trans (issueEntry_dropped hnow rfl hissues)⟩
  exact (hstep.trans (issueEntry_issues hnow rfl rfl hissues (hslow.trans hs) (hbad.trans hb) hdec)).trans (onNext_eq _ _)

end Sys2Proof.Machine
end

/-! # Instructions on ports that stop

Where a beat on a data port finds no token or no room its region freezes, and where it finds a marker that stops its actor, or an
input without its PUNCT, its tile reports (R29, R165 to R170, R222, R226). -/

section
open Sys2Proof Sys2Proof.Machine Sys2Proof.Claims
namespace Sys2Proof.Machine

/-! ## The meanings of the instructions on ports -/

theorem exec_pop (fold : BitVec 2) (d a : BitVec 6) (s : State) : exec (.pop fold d a) s = execPop fold d a s := rfl
theorem exec_popd (fold : BitVec 2) (a : BitVec 6) (s : State) : exec (.popd fold a) s = execPopd fold a s := rfl
theorem exec_peek (fold : BitVec 2) (d a : BitVec 6) (s : State) : exec (.peek fold d a) s = execPeek fold d a s := rfl
theorem exec_push (fold : BitVec 2) (d a : BitVec 6) (ft : BitVec 3) (s : State) :
    exec (.push fold d a ft) s = execPush fold d a ft s := rfl
theorem exec_punct (d : BitVec 6) (s : State) : exec (.punct d) s = execPunct d s := rfl
theorem exec_punctall (s : State) : exec .punctall s = execPunctall s := rfl

/-! ## What stands in a window -/

theorem Token.isPassing_iff (m : Token) : m.isPassing = true ↔ m.kind = .punct ∨ m.kind = .snap := by simp [Token.isPassing]
theorem Token.isStopping_iff (m : Token) : m.isStopping = true ↔ m.kind = .mode ∨ m.kind = .drain := by simp [Token.isStopping]

/-- A MODE or DRAIN marker is no marker that a beat passes. -/
theorem Token.isPassing_of_isStopping {m : Token} (h : m.isStopping = true) : m.isPassing = false := by
  rcases (Token.isStopping_iff m).1 h with h | h <;> simp [Token.isPassing, h]

/-- In a window of passing markers nothing stands behind them (R152). -/
theorem passMarkers_of_passing {w : List Token} (h : ∀ m ∈ w, m.isPassing = true) : (passMarkers w).2 = [] :=
  List.dropWhile_eq_nil_iff.2 h

/-- A marker that stops an actor stands ahead of everything behind it. -/
theorem passMarkers_of_stopping {m : Token} {w : List Token} (h : m.isStopping = true) : passMarkers (m :: w) = ([], m :: w) := by
  simp [passMarkers, Token.isPassing_of_isStopping h]

/-- Without a marker that stops, every token of the window is ahead. -/
theorem itemsAhead_of_no_stop {w : List Token} (h : ∀ m ∈ w, m.isStopping = false) : itemsAhead w = w.filter Token.isItem := by
  unfold itemsAhead
  rw [List.takeWhile_eq_self_iff.2 fun m hm => by simp [h m hm]]

theorem hasStop_of_no_stop {w : List Token} (h : ∀ m ∈ w, m.isStopping = false) : hasStop w = false :=
  List.any_eq_false.2 fun m hm => by simp [h m hm]

/-- A ring window with no free slot takes no token (R160, R162). -/
theorem Arc.canSend_of_full {x : Arc} (hk : x.kind ≠ .slot) (h : x.cap + 64 * x.chunks ≤ x.sent - x.seen) : x.canSend = false := by
  simp only [Arc.canSend, Arc.credits, Arc.slots, Bool.or_eq_false_iff, beq_eq_false_iff_ne, Nat.sub_eq_zero_of_le h, Nat.lt_irrefl, decide_false, and_true]
  exact hk

/-! ## A beat that stops -/

section beats
variable {s : State} {t k tag : Nat} {x : Arc} (hu : s.cur.unit = .tile t)
include hu

/-- A freeze of a region that waits for nothing yet (R29). -/
theorem freeze_tile (hk : (s.tile t).region = some k) (hw : (s.regionAt k).waiting = none) (why : FreezeWhy) (port tag : Nat) :
    freeze why port tag s = .next (s.setRegion k { s.regionAt k with
      rstate := 2
      waiting := some { why := why, port := port, tag := tag, tile := t, seg := s.cur.seg, entry := s.cur.entry, stamp := s.cur.stamp } }) := by
  simp only [freeze, hu, hk, Option.getD_some, hw]

variable (hx : s.arc? (State.arcKey s.cur.ctx tag) = some x)
include hx

/-- `pop` on a window that holds markers only (R168). -/
theorem popBeat_empty {p : Nat} (hp : (inPort s t p).arc = some tag) (h : (passMarkers x.window).2 = [])
    (f : Nat → Token → State → State) : popBeat p s f = freeze .popWait p tag s := by
  simp only [popBeat, onTile_tile s hu, hp, hx, h]

/-- `pop` on a window whose head stops the actor (R165). -/
theorem popBeat_stopping {p : Nat} (hp : (inPort s t p).arc = some tag) {m : Token} {w : List Token} (hm : m.isStopping = true)
    (hw : x.window = m :: w) (f : Nat → Token → State → State) : popBeat p s f = raiseRate t p (inPort s t p) s := by
  simp only [popBeat, onTile_tile s hu, hp, hx, hw, passMarkers_of_stopping hm, hm, if_true]

/-- `peek` on a window that holds no token for its beat (R169). -/
theorem execPeek_empty {fold : BitVec 2} {d a : BitVec 6} (hp : (inPort s t a.toNat).arc = some tag)
    (hn : (x.window.filter Token.isItem).length ≤ s.cur.beat) (hm : ∀ m ∈ x.window, m.isStopping = false) :
    execPeek fold d a s = freeze .popWait a.toNat tag s := by
  have hnone : (itemsAhead x.window)[s.cur.beat]? = none := by
    rw [itemsAhead_of_no_stop hm]
    exact List.getElem?_eq_none hn
  simp only [execPeek, onTile_tile s hu, hp, hx, Option.getD_some, hnone, hasStop_of_no_stop hm, Bool.false_eq_true, if_false]

/-- A token for a window without room (R170, R222). -/
theorem sendOnPort_full {p : Nat} (hp : (outPort s t p).arc = some tag) (hc : x.canSend = false) (counted : Bool) (tok : Token) :
    sendOnPort p counted tok s = freeze .pushWait p tag s := by
  simp only [sendOnPort, onTile_tile s hu, hp, hx, Option.getD_some, hc, Bool.false_eq_true, if_false]

omit hx

/-- `punctall` with an input port whose PUNCT has not come (R226). -/
theorem execPunctall_missing {e : Nat × Port} (he : e ∈ (s.tile t).inPorts) (ho : e.2.owner = s.cur.actor) (hps : e.2.ps = false) :
    ∃ info, execPunctall s = raise 0x14 info s := by
  have hmem : e ∈ (portsOf (s.tile t).inPorts s.cur.actor).filter fun e => !e.2.ps := by simp [portsOf, he, ho, hps]
  obtain ⟨b, l, hl⟩ := List.exists_cons_of_ne_nil (List.ne_nil_of_mem hmem)
  exact ⟨_, by simp only [execPunctall, onTile_tile s hu, hl]; rfl⟩

end beats

/-- Settles O37: each instruction reaches the one branch of its beat that stops it. -/
theorem arcInstructionsStop : Obligations.ArcInstructionsStop := by
  unfold Obligations.ArcInstructionsStop
  intro fold d a ft s t k x tag hu hk hx hw inp out freezes
  have hfreeze := freeze_tile hu hk hw
  refine ⟨fun hin hmarks => ?_, fun hin hshort hgo => ?_, fun hout hkind hfull => ?_, fun hin m rest hwin hm => ?_, fun e he ho hps => ?_⟩
  · have hempty := passMarkers_of_passing fun m hm => (Token.isPassing_iff m).2 (hmarks m hm)
    have hpop := fun f => (popBeat_empty hu hx hin hempty f).trans (hfreeze .popWait a.toNat tag)
    exact ⟨(exec_pop ..).trans (hpop _), (exec_popd ..).trans (hpop _)⟩
  · have hgo' : ∀ m ∈ x.window, m.isStopping = false := fun m hm => by simpa [Token.isStopping] using hgo m hm
    exact (exec_peek ..).trans ((execPeek_empty hu hx hin hshort hgo').trans (hfreeze ..))
  · have hsend := fun counted tok =>
      (sendOnPort_full hu hx hout (Arc.canSend_of_full hkind hfull) counted tok).trans (hfreeze .pushWait d.toNat tag)
    exact ⟨(exec_push ..).trans (hsend _ _), (exec_punct ..).trans (hsend _ _)⟩
  · have hpop := popBeat_stopping hu hx hin ((Token.isStopping_iff m).2 hm) hwin
    exact ⟨_, (exec_pop ..).trans (hpop _), (exec_popd ..).trans (hpop _)⟩
  · simpa only [exec_punctall] using execPunctall_missing hu he ho hps

end Sys2Proof.Machine
end

/-! # Regions in time

What the events of a region do: due results (R98 to R100, R175), freezes and their end (R29, R30, R175), the start of a phase (R28, R217),
its end and the rate check (R139, R165, R203), and the watchdog (R208). -/

section
open Sys2Proof Sys2Proof.Machine Sys2Proof.Claims
namespace Sys2Proof.Machine

/-! ## The meanings of the events -/

theorem exec_resultWriteback (t : Nat) (s : State) : exec (.resultWriteback t) s = execResultWriteback t s := rfl
theorem exec_nearResultLate (c g i : Nat) (s : State) : exec (.nearResultLate c g i) s = execNearResultLate c g i s := rfl
theorem exec_regionResume (c g i : Nat) (s : State) : exec (.regionResume c g i) s = execRegionResume c g i s := rfl
theorem exec_phaseStart (c g i : Nat) (s : State) : exec (.phaseStart c g i) s = execPhaseStart c g i s := rfl
theorem exec_phaseEnd (c g i : Nat) (s : State) : exec (.phaseEnd c g i) s = execPhaseEnd c g i s := rfl
theorem exec_stall (c g i : Nat) (s : State) : exec (.stall c g i) s = execStall c g i s := rfl

/-! ## What a loop over the state leaves alone -/

/-- A loop whose every turn leaves a part of the state alone leaves it alone. -/
theorem foldl_keeps {α β : Type} (part : State → β) {f : State → α → State} (h : ∀ s x, part (f s x) = part s) (l : List α) (s : State) :
    part (l.foldl f s) = part s :=
  List.foldlRecOn l f (motive := fun u => part u = part s) rfl fun u hu x _ => (h u x).trans hu

/-- The tiles, the regions and the presence bits. -/
def State.places (s : State) : Map Tile × Map Region × Map Bool := (s.tiles, s.regions, s.present)

theorem State.places_eq_iff {s u : State} : u.places = s.places ↔ u.tiles = s.tiles ∧ u.regions = s.regions ∧ u.present = s.present := by
  simp [State.places]

theorem State.tile_of_places {s u : State} (h : u.places = s.places) (n : Nat) : u.tile n = s.tile n := by
  simp only [State.tile, (State.places_eq_iff.1 h).1]

theorem State.regionAt_of_places {s u : State} (h : u.places = s.places) (k : Nat) : u.regionAt k = s.regionAt k := by
  simp only [State.regionAt, (State.places_eq_iff.1 h).2.1]

theorem countFires_places (r : Region) (s : State) : (countFires r s).places = s.places := by
  refine foldl_keeps State.places (fun s t => ?_) _ _
  split
  · rfl
  · refine foldl_keeps State.places (fun s k => ?_) _ _
    rfl

theorem publishNext_places (key : Nat) (s : State) : (publishNext key s).places = s.places := by
  unfold publishNext
  (repeat' split) <;> rfl

theorem publishAll_places (r : Region) (s : State) : (publishAll r s).places = s.places := by
  refine foldl_keeps State.places (fun s t => ?_) _ _
  split
  · rfl
  · refine foldl_keeps State.places (fun s e => ?_) _ _
    split
    · split
      · exact publishNext_places _ _
      · rfl
    · rfl

/-! ## Due results (R98 to R100, R175) -/

/-- A result that needs no access and writes a register of its tile. -/
def Pending.isPlain (p : Pending) : Prop :=
  p.op = none ∧ ((∃ d v, p.res = .scalar d v) ∨ (∃ d m v, p.res = .vector d m v) ∨ ∃ d m v, p.res = .pred d m v)

theorem Pending.here_of_noOp {p : Pending} (h : p.op = none) (s : State) : p.here s = decide (p.ready ≤ s.pcyc) := by
  simp [Pending.here, h]

theorem Pending.here_of_op {p : Pending} {id : Nat} {o : Op} {s : State} (h : p.op = some id) (ho : mfind s.ops id = some o) :
    p.here s = (o.served && decide (o.usable ≤ s.pcyc)) := by
  simp [Pending.here, h, opAt, ho]

theorem putDue_plain {p : Pending} (h : p.isPlain) (t : Nat) (s : State) : putDue t s p = s.setTile t (applyResult (s.tile t) p.res) := by
  obtain ⟨hop, ⟨d, v, hr⟩ | ⟨d, m, v, hr⟩ | ⟨d, m, v, hr⟩⟩ := h <;> simp only [putDue, hop, hr]

/-- Plain results are written in turn, and nothing but the registers of the tile changes. -/
theorem foldl_putDue_plain {l : List Pending} (h : ∀ p ∈ l, p.isPlain) (t : Nat) (s : State) :
    (l.foldl (putDue t) s).tile t = (l.map Pending.res).foldl applyResult (s.tile t) ∧ (l.foldl (putDue t) s).memories = s.memories := by
  induction l generalizing s with
  | nil => exact ⟨rfl, rfl⟩
  | cons p l ih =>
    obtain ⟨htile, hmem⟩ := ih (fun q hq => h q (List.mem_cons_of_mem p hq)) (putDue t s p)
    rw [List.foldl_cons, htile, hmem, putDue_plain (h p List.mem_cons_self)]
    simp

theorem keepsMemory_of_memories {s u : State} (h : u.memories = s.memories) : keepsMemory s u := by
  simpa [keepsMemory, State.memories] using h

theorem dueResults_plain {s : State} {t : Nat} (h : ∀ p ∈ (s.tile t).pend, p.isPlain) :
    dueResults s t = (s.tile t).pend.filter fun p => p.left = 0 ∧ p.ready ≤ s.pcyc :=
  List.filter_congr fun p hp => by simp [Pending.here_of_noOp (h p hp).1]

theorem writeDue_plain {s : State} {t : Nat} (h : ∀ p ∈ (s.tile t).pend, p.isPlain) :
    (writeDue t s).tile t = (((s.tile t).pend.filter fun p => p.left = 0 ∧ p.ready ≤ s.pcyc).map Pending.res).foldl applyResult
        { s.tile t with pend := (s.tile t).pend.filter fun p => ¬ (p.left = 0 ∧ p.ready ≤ s.pcyc) } ∧
      (writeDue t s).memories = s.memories := by
  have hkept : ((s.tile t).pend.filter fun p => !(p.left = 0 && p.here s)) =
      (s.tile t).pend.filter fun p => ¬ (p.left = 0 ∧ p.ready ≤ s.pcyc) :=
    List.filter_congr fun p hp => by simp only [Pending.here_of_noOp (h p hp).1, Bool.decide_and, decide_not]
  have hfold := foldl_putDue_plain (l := dueResults s t) (fun p hp => h p (List.mem_of_mem_filter hp)) t
    (s.setTile t { s.tile t with pend := (s.tile t).pend.filter fun p => !(p.left = 0 && p.here s) })
  rw [State.setTile_tile_self, State.memories_setTile] at hfold
  rw [← hkept, ← dueResults_plain h]
  exact hfold

/-- The one result of a tile, its access served, brings its value and ends the access (R175). -/
theorem writeDue_served {s : State} {t : Nat} {p : Pending} {id d : Nat} {o : Op} {v : Word} (hp : (s.tile t).pend = [p]) (hl : p.left = 0)
    (hop : p.op = some id) (ho : mfind s.ops id = some o) (hs : o.served = true) (hu : o.usable ≤ s.pcyc) (hr : p.res = .scalar d v) :
    writeDue t s = ((s.setTile t { s.tile t with pend := [] }).dropOp id).setTile t
      { s.tile t with pend := [], s := setRegOf (s.tile t).s d (o.got.setWidth 64) } := by
  have hhere : p.here s = true := by simp [Pending.here_of_op hop ho, hs, hu]
  have hop' : opAt (s.setTile t { s.tile t with pend := [] }) id = some o := ho
  simp only [writeDue, dueResults, hp, hl, hhere, List.filter_cons, List.filter_nil, decide_true, Bool.and_self, Bool.not_true,
    Bool.false_eq_true, if_true, if_false, List.foldl_cons, List.foldl_nil, putDue, hop, hop', hr, Result.filled, applyResult]
  simp [State.dropOp, State.tile, State.setTile]

/-! ## Freezes (R29, R30, R175) -/

theorem lateAt_unserved {s : State} {t : Nat} {p : Pending} {id : Nat} {o : Op} (hp : (s.tile t).pend = [p]) (hl : p.left = 0)
    (hop : p.op = some id) (ho : mfind s.ops id = some o) (hs : o.served = false) :
    lateAt s t = some {
      why := (match o.kind with | .presLoad => .presenceWait | _ => .nearLate)
      tile := t, seg := o.cur.seg, entry := o.cur.entry, stamp := o.cur.stamp } := by
  have hhere : p.here s = false := by simp [Pending.here_of_op hop ho, hs]
  simp only [lateAt, hp, hl, hhere, List.find?_cons, decide_true, Bool.not_false, Bool.and_self, Option.map_some, hop, Option.bind_some, opAt,
    ho] <;> rfl

@[simp] theorem firstWaiting_none (w : Option Waiting) : firstWaiting none w = w := by cases w <;> rfl

/-- A region of one tile waits for what the results of that tile wait for. -/
theorem lateIn_singleton {s : State} {r : Region} {t : Nat} (h : r.tiles = [t]) : lateIn s r = lateAt s t := by simp [lateIn, h]

section freezes
variable {s : State} {c g i : Nat} {r : Region} (hr : s.regionAt (State.regionKey c g i) = r)
include hr

theorem execNearResultLate_late {w : Waiting} (hw : r.waiting = none) (hl : lateIn s r = some w) :
    execNearResultLate c g i s = .next (s.setRegion (State.regionKey c g i) { r with rstate := 2, waiting := some w }) := by
  simp only [execNearResultLate, hr, hl, hw, firstWaiting_none]

theorem execRegionResume_frozen (h2 : r.rstate = 2) (hw : r.waiting = none) :
    execRegionResume c g i s = .next (s.setRegion (State.regionKey c g i) { r with rstate := 0, wcnt := 0 }) := by
  simp only [execRegionResume, hr, h2, hw, Option.isNone_none, decide_true, Bool.and_self, if_true]

end freezes

/-! ## The conditions of a phase start (R28, R217) -/

theorem firstWaiting_eq_none_iff (v w : Option Waiting) : firstWaiting v w = none ↔ v = none ∧ w = none := by
  cases v with
  | none => simp
  | some v =>
    cases w with
    | none => simp [firstWaiting]
    | some w => simp only [firstWaiting]; split <;> simp

/-- Of many things to wait for there is none exactly where each is none. -/
theorem foldl_firstWaiting_eq_none_iff {α : Type} (f : α → Option Waiting) (l : List α) (w : Option Waiting) :
    l.foldl (fun w x => firstWaiting w (f x)) w = none ↔ w = none ∧ ∀ x ∈ l, f x = none := by
  induction l generalizing w with
  | nil => simp
  | cons x l ih => simp [ih, firstWaiting_eq_none_iff, and_assoc]

theorem foldl_firstWaiting_some_eq_none_iff (l : List Waiting) (w : Option Waiting) :
    l.foldl (fun w v => firstWaiting w (some v)) w = none ↔ w = none ∧ l = [] := by
  rw [foldl_firstWaiting_eq_none_iff, List.eq_nil_iff_forall_not_mem]
  simp only [reduceCtorEq, imp_false]

theorem shortInput_eq_none_iff (s : State) (t : Nat) (l : ListStore) (ph : Nat) :
    shortInput s t l ph = none ↔ ∀ e ∈ holdPorts s l ph (s.tile t).inPorts, e.2.2.1 ≤ (e.2.2.2.window.filter Token.isItem).length := by
  simp [shortInput]

theorem shortOutputs_eq_nil_iff (s : State) (t : Nat) (l : ListStore) (ph : Nat) :
    shortOutputs s t l ph = [] ↔ ∀ e ∈ holdPorts s l ph (s.tile t).outPorts, e.2.2.1 ≤ e.2.2.2.credits := by
  simp [shortOutputs, List.filterMap_eq_nil_iff]

theorem shortReleases_eq_none_iff (s : State) (t : Nat) (l : ListStore) (r : Region) :
    shortReleases s t l r = none ↔ ∀ e ∈ memberPorts s t l r, e.2.2.2 ≤ (mget {} (s.tile t).cx e.1).held := by
  simp [shortReleases]

/-- Every declared token, slot and release of a list is there. -/
def listReady (s : State) (r : Region) (t : Nat) (l : ListStore) : Prop :=
  (∀ e ∈ holdPorts s l r.phase (s.tile t).inPorts, e.2.2.1 ≤ (e.2.2.2.window.filter Token.isItem).length) ∧
  (∀ e ∈ holdPorts s l r.phase (s.tile t).outPorts, e.2.2.1 ≤ e.2.2.2.credits) ∧
  ∀ e ∈ memberPorts s t l r, e.2.2.2 ≤ (mget {} (s.tile t).cx e.1).held

theorem shortList_eq_none_iff (s : State) (r : Region) (t : Nat) :
    shortList s r t = none ↔ ∀ l, runningList s t = some l → listReady s r t l := by
  unfold shortList
  cases runningList s t with
  | none => simp
  | some l =>
    simp only [foldl_firstWaiting_some_eq_none_iff, firstWaiting_eq_none_iff, shortInput_eq_none_iff, shortReleases_eq_none_iff,
      List.map_eq_nil_iff, shortOutputs_eq_nil_iff, Option.some.injEq, forall_eq', listReady]
    exact ⟨fun ⟨⟨hin, hrel⟩, hout⟩ => ⟨hin, hout, hrel⟩, fun ⟨hin, hout, hrel⟩ => ⟨⟨hin, hrel⟩, hout⟩⟩

/-- A held region waits for nothing exactly where every list is ready (R28). -/
theorem phaseShort_eq_none_iff (s : State) (r : Region) :
    phaseShort s r = none ↔ ∀ t l, t ∈ r.tiles → runningList s t = some l → listReady s r t l := by
  simp only [phaseShort, Option.map_eq_none_iff, foldl_firstWaiting_eq_none_iff, true_and, shortList_eq_none_iff]
  exact ⟨fun h t l ht => h t ht l, fun h t ht l => h t l ht⟩

/-- A region that may start its phase starts it where it waits for nothing, and else nothing changes. -/
theorem execPhaseStart_held {s : State} {c g i : Nat} {r : Region} (hr : s.regionAt (State.regionKey c g i) = r) (hin : r.inPhase = false)
    (hst : r.stretchLeft = 0) (hrs : r.rstate = 1 ∨ r.rstate = 5) (hch : r.checked = true) :
    execPhaseStart c g i s = .next (if (phaseShort s r).isSome then s else
      (takeReleases r (askChunks r s)).setRegion (State.regionKey c g i) { r with rstate := 0, inPhase := true, waiting := none }) := by
  have hrs' : (r.rstate = 1 || r.rstate = 5 : Bool) = true := by simpa using hrs
  simp only [execPhaseStart, hr, hin, hst, hrs', hch, ne_eq, not_true_eq_false, decide_false, Bool.not_true, Bool.false_or]
  split <;> rfl

/-! ## Reports of a tile (R352, R356) -/

section reports
variable {s : State} {t k : Nat}

theorem tileReport_regionAt (hk : (s.tile t).region = some k) (x : Report) :
    (tileReport t x s).regionAt k = { s.regionAt k with rstate := 3, wcnt := 0 } := by
  unfold tileReport
  simp only [hk]
  split
  · simp
  · split <;> simp

/-- Of the tiles, a report changes what its own holds. -/
theorem tileReport_tiles (t : Nat) (x : Report) (s : State) : (tileReport t x s).tiles =
    (s.setTile t { s.tile t with reports := insertReport { x with since := max x.since s.pcyc } (s.tile t).reports }).tiles := by
  unfold tileReport
  dsimp only
  (repeat' split) <;> rfl

theorem tileReport_tile_region (t : Nat) (x : Report) (s : State) : ((tileReport t x s).tile t).region = (s.tile t).region := by
  rw [State.tile, tileReport_tiles, ← State.tile, State.setTile_tile_self]

theorem foldl_tileReport_regionAt {l : List Report} (hl : l ≠ []) (hk : (s.tile t).region = some k) :
    (l.foldl (fun s x => tileReport t x s) s).regionAt k = { s.regionAt k with rstate := 3, wcnt := 0 } := by
  induction l generalizing s with
  | nil => exact absurd rfl hl
  | cons x l ih =>
    rw [List.foldl_cons]
    cases l with
    | nil => exact tileReport_regionAt hk x
    | cons y l => rw [ih (List.cons_ne_nil y l) ((tileReport_tile_region ..).trans hk), tileReport_regionAt hk]

theorem mem_reports_tileReport {x y : Report} : y ∈ ((tileReport t x s).tile t).reports ↔
    y = { x with since := max x.since s.pcyc } ∨ y ∈ (s.tile t).reports := by
  rw [tileReport_reports, mem_insertReport]

theorem mem_foldl_tileReport {l : List Report} {y : Report} (h : y ∈ (s.tile t).reports) :
    y ∈ ((l.foldl (fun s x => tileReport t x s) s).tile t).reports :=
  List.foldlRecOn l _ (motive := fun u : State => y ∈ (u.tile t).reports) h fun _ hu _ _ => mem_reports_tileReport.2 (.inr hu)

/-- Every report of a list stands with its tile, as of the boundary at which it is raised. -/
theorem exists_mem_foldl_tileReport {l : List Report} {x : Report} (hx : x ∈ l) :
    ∃ n, { x with since := n } ∈ ((l.foldl (fun s x => tileReport t x s) s).tile t).reports := by
  induction l generalizing s with
  | nil => cases hx
  | cons z l ih =>
    rw [List.foldl_cons]
    rcases List.mem_cons.1 hx with rfl | hx
    · exact ⟨_, mem_foldl_tileReport (mem_reports_tileReport.2 (.inl rfl))⟩
    · exact ih hx

end reports

/-! ## The watchdog (R208) -/

/-- The report of a region that has waited too long for `w`. -/
def stallReport (s : State) (w : Waiting) : Report :=
  { code := Code.stall, info := stallInfo w, loc := s.tileLoc w.tile w.seg w.entry w.stamp }

section stall
variable {s : State} {c g i : Nat} {r : Region} {w : Waiting} (hr : s.regionAt (State.regionKey c g i) = r) (hw : r.waiting = some w)
  (hrs : r.rstate = 1 ∨ r.rstate = 2) (hn : 256 * r.wdog + 1 ≤ r.wcnt)
include hr hw hrs hn

theorem execStall_eq : execStall c g i s =
    let u := tileReport w.tile (stallReport s w) s
    .next (u.setRegion (State.regionKey c g i) { u.regionAt (State.regionKey c g i) with wcnt := r.wcnt }) := by
  have hrs' : (r.rstate = 1 || r.rstate = 2 : Bool) = true := by simpa using hrs
  simp only [execStall, hr, hw, hrs', hn, decide_true, Bool.and_self, if_true]
  rfl

/-- A count of held or frozen cycles past its limit is a STALL report, and stands in the status word for this cycle. -/
theorem execStall_past (hk : (s.tile w.tile).region = some (State.regionKey c g i)) :
    ∃ u y, execStall c g i s = .next u ∧ y ∈ (u.tile w.tile).reports ∧ y.code = 0x12 ∧ y.entry = none ∧ y.op = none ∧
      y.loc = s.tileLoc w.tile w.seg w.entry w.stamp ∧ u.regionAt (State.regionKey c g i) = { r with rstate := 3 } :=
  ⟨_, _, execStall_eq hr hw hrs hn, mem_reports_tileReport.2 (.inl rfl), rfl, rfl, rfl, rfl,
    (State.setRegion_regionAt_self ..).trans (by rw [tileReport_regionAt hk, hr])⟩

end stall

/-! ## The end of a phase (R139, R165, R203) -/

/-- A tile at the start of a phase: no entry is counted, and the monitors of its ports count no token (R63, R165). -/
def Tile.atStart (x : Tile) : Prop := x.counts = [] ∧ x.pos = 0 ∧ ∀ e ∈ x.inPorts ++ x.outPorts, e.2.count = 0 ∧ e.2.mix = false

theorem restartTile_atStart (t : Nat) (s : State) : ((restartTile t s).tile t).atStart := by
  simp only [restartTile, State.setTile_tile_self, Tile.atStart, ← List.map_append, List.forall_mem_map, and_self, implies_true]

theorem restartTile_of_ne {t n : Nat} (h : n ≠ t) (s : State) : (restartTile t s).tile n = s.tile n := State.setTile_tile_of_ne _ _ h

theorem foldl_restartTile_atStart {n : Nat} {l : List Nat} {s : State} (h : n ∈ l ∨ (s.tile n).atStart) :
    ((l.foldl (fun s t => restartTile t s) s).tile n).atStart := by
  induction l generalizing s with
  | nil => simpa using h
  | cons t l ih =>
    refine ih ?_
    by_cases hn : n = t
    · subst hn
      exact .inr (restartTile_atStart n s)
    · rw [restartTile_of_ne hn]
      exact h.imp (fun hm => (List.mem_cons.1 hm).resolve_left hn) id

section nextPhase
variable {c g k : Nat} {r : Region} (s : State) (hlast : r.phase + 1 ≠ r.phases.length)
include hlast

/-- A region behind a phase that is not its last: in the next one, held, or stretching as declared (R203). -/
theorem nextPhase_regionAt : (nextPhase c g k r s).regionAt k = { r with
    cyc := 0, phase := r.phase + 1, inPhase := false, rateDone := false, ended := r.ended + 1, stretchLeft := r.stretch
    wcnt := 0, waiting := none
    rstate := if r.rstate = 3 ∨ r.rstate = 4 then r.rstate else if r.stretch = 0 then 1 else 5 } := by
  by_cases h : r.rstate = 3 ∨ r.rstate = 4
  · have h1 : r.rstate ≠ 1 := by omega
    simp [nextPhase, hlast, h, h1]
  · by_cases hs : r.stretch = 0 <;> simp [nextPhase, hlast, h, hs]

/-- Of the tiles and the presence bits, the end of a phase that is not the last changes what restarting its tiles does. -/
theorem nextPhase_tiles : (nextPhase c g k r s).tiles = (r.tiles.foldl (fun s t => restartTile t s) (countFires r s)).tiles ∧
    (nextPhase c g k r s).present = (r.tiles.foldl (fun s t => restartTile t s) (countFires r s)).present := by
  unfold nextPhase
  extract_lets s₁ s₂ last s₃ s₄ y
  have h₄ : s₄ = s₃ := if_neg hlast
  have htiles : s₄.tiles = s₃.tiles := by rw [h₄]
  have hpresent : s₄.present = s₃.present := by rw [h₄]
  split <;> exact ⟨htiles, hpresent⟩

theorem nextPhase_tile (n : Nat) : (nextPhase c g k r s).tile n = (r.tiles.foldl (fun s t => restartTile t s) (countFires r s)).tile n := by
  simp only [State.tile, (nextPhase_tiles s hlast).1]

theorem nextPhase_present : (nextPhase c g k r s).present = s.present :=
  calc (nextPhase c g k r s).present
    _ = (r.tiles.foldl (fun s t => restartTile t s) (countFires r s)).present := (nextPhase_tiles s hlast).2
    _ = (countFires r s).present := foldl_keeps State.present (f := fun s t => restartTile t s) (fun _ _ => rfl) _ _
    _ = s.present := (State.places_eq_iff.1 (countFires_places r s)).2.2

end nextPhase

/-! ## The rate check (R165) -/

/-- Where every port has the declared count and one colour, nothing is reported. -/
theorem rateReports_eq_nil {s : State} {t : Nat} {r : Region} (h : ∀ l e, runningList s t = some l →
      e ∈ (s.tile t).inPorts ++ (s.tile t).outPorts → actorDone s l e.2.owner = false →
      e.2.count = e.2.rate.getD r.phase 0 ∧ e.2.mix = false) : rateReports s t r = [] := by
  unfold rateReports
  split
  · rfl
  · rename_i l hl
    have hright : ∀ e ∈ (s.tile t).inPorts ++ (s.tile t).outPorts,
        (!actorDone s l e.2.owner && (e.2.count != e.2.rate.getD r.phase 0 || e.2.mix)) = false := fun e he => by
      cases hd : actorDone s l e.2.owner with
      | true => rfl
      | false => simp [h l e hl he hd]
    simp only [List.append_eq_nil_iff, List.filterMap_eq_nil_iff]
    exact ⟨fun e he => by rw [hright e (List.mem_append_left _ he)]; rfl, fun e he => by rw [hright e (List.mem_append_right _ he)]; rfl⟩

/-- An input port whose count is not the declared one is reported (R167). -/
theorem mem_rateReports {s : State} {t : Nat} {r : Region} {l : ListStore} {e : Nat × Port} (hl : runningList s t = some l)
    (he : e ∈ (s.tile t).inPorts) (hd : actorDone s l e.2.owner = false) (hc : e.2.count ≠ e.2.rate.getD r.phase 0) :
    ∃ x ∈ rateReports s t r, x.code = 0x10 ∧ x.entry = none ∧ x.info = rateInfo false e.1 e.2 r.phase := by
  have hwrong : (!actorDone s l e.2.owner && (e.2.count != e.2.rate.getD r.phase 0 || e.2.mix)) = true := by
    rw [hd, bne_iff_ne.2 hc]
    rfl
  refine ⟨{ code := 0x10, info := rateInfo false e.1 e.2 r.phase, loc := s.tileLoc t r.phase (s.tile t).pos (r.cyc - 1), since := s.pcyc + 1 },
    ?_, rfl, rfl, rfl⟩
  simp only [rateReports, hl]
  exact List.mem_append_left _ (List.mem_filterMap.2 ⟨e, he, if_pos hwrong⟩)
/-- The reports of the rate check at a phase end, unless `tret` has released it. -/
def rateCheck (s : State) (r : Region) : List (Nat × Report) :=
  if r.rateDone then [] else r.tiles.flatMap fun t => (rateReports s t r).map fun x => (t, x)

theorem rateCheck_eq_nil {s : State} {r : Region} (h : r.rateDone = false → ∀ t l e, t ∈ r.tiles → runningList s t = some l →
      e ∈ (s.tile t).inPorts ++ (s.tile t).outPorts → actorDone s l e.2.owner = false →
      e.2.count = e.2.rate.getD r.phase 0 ∧ e.2.mix = false) : rateCheck s r = [] := by
  unfold rateCheck
  split
  · rfl
  · rename_i hdone
    exact List.flatMap_eq_nil_iff.2 fun t ht => List.map_eq_nil_iff.2 (rateReports_eq_nil fun l e => h (Bool.eq_false_iff.2 hdone) t l e ht)

section phaseEnd
variable {s : State} {c g i : Nat} {r : Region} (hr : s.regionAt (State.regionKey c g i) = r) (hin : r.inPhase = true)
  (hcyc : r.phases.getD r.phase 0 ≤ r.cyc)
include hr hin hcyc

theorem execPhaseEnd_eq : execPhaseEnd c g i s =
    let u := if (rateCheck s r).isEmpty then nextPhase c g (State.regionKey c g i) r s
      else (rateCheck s r).foldl (fun s b => tileReport b.1 b.2 s) s
    .next (if r.rateDone then u else publishAll r u) := by
  simp only [execPhaseEnd, hr, hin, hcyc, decide_true, Bool.and_self, Bool.not_true, Bool.false_eq_true, if_false]
  rfl

/-- With its rate check passed, a region goes on to what follows the phase. -/
theorem execPhaseEnd_passed (h : rateCheck s r = []) : ∃ u, execPhaseEnd c g i s = .next u ∧
    u.places = (nextPhase c g (State.regionKey c g i) r s).places ∧ KeepsBytes s u := by
  refine ⟨_, execPhaseEnd_eq hr hin hcyc, ?_, ?_⟩
  · simp only [h, List.isEmpty_nil, if_true]
    split
    · rfl
    · exact publishAll_places _ _
  · simp only [h, List.isEmpty_nil, if_true]
    split
    · exact nextPhase_keepsBytes ..
    · exact (nextPhase_keepsBytes ..).trans (publishAll_keepsBytes ..)

/-- A report of the one tile of a region freezes it where it stands, and stands with the tile. -/
theorem execPhaseEnd_reports {t : Nat} {x : Report} (hdone : r.rateDone = false) (ht : r.tiles = [t])
    (hk : (s.tile t).region = some (State.regionKey c g i)) (hx : x ∈ rateReports s t r) : ∃ u n, execPhaseEnd c g i s = .next u ∧
      u.regionAt (State.regionKey c g i) = { r with rstate := 3, wcnt := 0 } ∧ { x with since := n } ∈ (u.tile t).reports := by
  have hne : rateReports s t r ≠ [] := List.ne_nil_of_mem hx
  have hcheck : rateCheck s r = (rateReports s t r).map fun x => (t, x) := by simp [rateCheck, hdone, ht]
  have hplaces := publishAll_places r ((rateReports s t r).foldl (fun s x => tileReport t x s) s)
  obtain ⟨n, hn⟩ := exists_mem_foldl_tileReport (s := s) (t := t) hx
  refine ⟨publishAll r ((rateReports s t r).foldl (fun s x => tileReport t x s) s), n, ?_, ?_, ?_⟩
  · rw [execPhaseEnd_eq hr hin hcyc]
    simp [hcheck, hne, hdone, List.foldl_map]
  · rw [State.regionAt_of_places hplaces, foldl_tileReport_regionAt hne hk, hr]
  · rw [State.tile_of_places hplaces]
    exact hn

end phaseEnd

/-! ## The obligation -/

/-- Settles O47: each event of a region has the one effect that the state of its results, windows, monitors and counts calls for. -/
theorem regionsInTime : Obligations.RegionsInTime := by
  unfold Obligations.RegionsInTime
  intro s c g i t k r x becomes
  refine ⟨fun hplain => ?_, fun p id o d v hp hl hop ho hs hu hr => ?_, fun p id o ht hp hl hop ho hs hw => ?_, fun h2 hw => ?_,
    fun hin hst hrs hch => ?_, fun hin hcyc hlast hrates => ?_, fun l e hin hcyc hdone ht hk _ hl he hd hc => ?_,
    fun w hw hrs hn hwt hk => ?_⟩
  · obtain ⟨htile, hmem⟩ := writeDue_plain hplain
    exact ⟨_, exec_resultWriteback .., keepsMemory_of_memories hmem, htile⟩
  · have hdue := writeDue_served hp hl hop ho hs hu hr
    refine ⟨_, exec_resultWriteback .., ?_, ?_⟩
    · exact (congrArg (State.tile · t) hdue).trans (State.setTile_tile_self ..)
    · exact (congrArg (fun u : State => mfind u.ops id) hdue).trans (mfind_mdel_self ..)
  · have hlate := (lateIn_singleton (s := s) ht).trans (lateAt_unserved hp hl hop ho hs)
    exact (exec_nearResultLate ..).trans (execNearResultLate_late rfl hw hlate)
  · exact (exec_regionResume ..).trans (execRegionResume_frozen rfl h2 hw)
  · refine ⟨_, (exec_phaseStart ..).trans (execPhaseStart_held rfl hin hst hrs hch), fun hthere => ?_, fun hthere => ?_⟩
    · rw [(phaseShort_eq_none_iff s r).2 hthere]
      exact State.setRegion_regionAt_self ..
    · exact if_pos (Option.isSome_iff_ne_none.2 (mt (phaseShort_eq_none_iff s r).1 hthere))
  · obtain ⟨u, hu, hplaces, hmem, hpeer, hnear⟩ := execPhaseEnd_passed rfl hin hcyc (rateCheck_eq_nil hrates)
    refine ⟨u, (exec_phaseEnd ..).trans hu, ?_, fun n hn => ?_, hmem, hpeer, hnear, ?_⟩
    · rw [State.regionAt_of_places hplaces, nextPhase_regionAt s hlast]
    · rw [State.tile_of_places hplaces, nextPhase_tile s hlast]
      exact foldl_restartTile_atStart (.inl hn)
    · rw [(State.places_eq_iff.1 hplaces).2.2, nextPhase_present s hlast]
  · obtain ⟨y, hy, hcode, hentry, hinfo⟩ := mem_rateReports hl he hd hc
    obtain ⟨u, n, hu, hregion, hmem⟩ := execPhaseEnd_reports rfl hin hcyc hdone ht hk hy
    exact ⟨u, (exec_phaseEnd ..).trans hu, by rw [hregion], by rw [hregion], by rw [hregion]; exact hin, _, hmem, hcode, hentry, hinfo⟩
  · subst hwt
    exact execStall_past rfl hw hrs hn hk

end Sys2Proof.Machine
end

/-! # Results of the vector unit

What the elements of a register are that is packed from elements, and what a due result leaves in the registers of its tile (R42, R270, R276). -/
section
open Sys2Proof Sys2Proof.Machine Sys2Proof.Claims
namespace Sys2Proof.Machine

/-! ## The bits of packed elements (R42) -/

theorem testBit_elem (w v k j : Nat) : (elem w v k).testBit j = (decide (j < w) && v.testBit (w * k + j)) := by
  rw [elem, Nat.testBit_mod_two_pow, Nat.testBit_div_two_pow, Nat.add_comm]

theorem testBit_packFrom {w : Nat} (hw : 0 < w) (f : Nat → Nat) (k n i : Nat) :
    (packFrom w f k n).testBit i = (decide (i < w * n) && (f (k + i / w)).testBit (i % w)) := by
  induction n generalizing k i with
  | zero => simp [packFrom]
  | succ n ih =>
    rw [packFrom, Nat.add_comm, Nat.testBit_two_pow_mul_add _ (Nat.mod_lt _ (Nat.two_pow_pos w))]
    by_cases hi : i < w
    · have hn : i < w * (n + 1) := hi.trans_le (Nat.le_mul_of_pos_right w n.succ_pos)
      simp [hi, hn, Nat.testBit_mod_two_pow, Nat.div_eq_of_lt hi, Nat.mod_eq_of_lt hi]
    · have hle : w ≤ i := Nat.not_lt.1 hi
      have hbound : i - w < w * n ↔ i < w * (n + 1) := by rw [Nat.mul_succ]; omega
      have hdiv : k + 1 + (i - w) / w = k + i / w := by rw [Nat.div_eq_sub_div hw hle]; omega
      simp [hi, ih, hbound, hdiv, ← Nat.mod_eq_sub_mod hle]

/-- A width that divides a register: the elements fill it (R269). -/
theorem mul_elemCount {w : Nat} (hd : w ∣ 2048) : w * elemCount w = 2048 := Nat.mul_div_cancel' hd

theorem getLsbD_vecOfElems {w : Nat} (hw : 0 < w) (hd : w ∣ 2048) (f : Nat → Nat) {i : Nat} (hi : i < 2048) :
    (vecOfElems w f).getLsbD i = (f (i / w)).testBit (i % w) := by
  have hn : i < w * (2048 / w) := (mul_elemCount hd).symm ▸ hi
  rw [vecOfElems, pack, BitVec.getLsbD_ofNat, testBit_packFrom hw]
  simp only [hi, hn, decide_true, Bool.true_and, Nat.zero_add]

section elements
variable {w k : Nat} (hw : 0 < w) (hd : w ∣ 2048) (hk : k < elemCount w)
include hd hk

/-- A bit of an element is one of the register. -/
theorem elem_bit_lt {j : Nat} (hj : j < w) : w * k + j < 2048 := by
  have h : w * (k + 1) ≤ 2048 := (Nat.mul_le_mul_left w hk).trans_eq (mul_elemCount hd)
  rw [Nat.mul_succ] at h
  omega

include hw

/-- The elements of a register packed from elements are these. -/
theorem elem_vecOfElems (f : Nat → Nat) : elem w (vecOfElems w f).toNat k = f k % 2 ^ w := by
  refine Nat.eq_of_testBit_eq fun j => ?_
  rw [testBit_elem, Nat.testBit_mod_two_pow]
  by_cases hj : j < w
  · rw [BitVec.testBit_toNat, getLsbD_vecOfElems hw hd f (elem_bit_lt hd hk hj)]
    simp [hj, Nat.mul_add_div hw, Nat.div_eq_of_lt hj, Nat.mod_eq_of_lt hj]
  · simp [hj]

/-- What is written under the mask of elements replaces these elements and no other. -/
theorem elem_merge (on : Nat → Bool) (old new : Vec) :
    elem w ((old &&& ~~~maskOf w on) ||| (new &&& maskOf w on)).toNat k = if on k then elem w new.toNat k else elem w old.toNat k := by
  have hmask : ∀ j, j < w → (maskOf w on).getLsbD (w * k + j) = on k := fun j hj => by
    rw [maskOf, getLsbD_vecOfElems hw hd _ (elem_bit_lt hd hk hj), Nat.mul_add_div hw, Nat.div_eq_of_lt hj, Nat.mul_add_mod,
      Nat.mod_eq_of_lt hj, Nat.add_zero]
    cases on k <;> simp [Nat.testBit_two_pow_sub_one, hj]
  refine Nat.eq_of_testBit_eq fun j => ?_
  rw [apply_ite (Nat.testBit · j)]
  simp only [testBit_elem, BitVec.testBit_toNat, BitVec.getLsbD_or, BitVec.getLsbD_and, BitVec.getLsbD_not]
  by_cases hj : j < w
  · rw [hmask j hj]
    cases on k <;> simp [hj, elem_bit_lt hd hk hj]
  · simp [hj]

end elements

/-! ## What a due result writes (R75, R270, R276) -/

theorem applyResult_vector_regs (x : Tile) (r : Nat) (mask v : Vec) :
    (applyResult x (.vector r mask v)).s = x.s ∧ (applyResult x (.vector r mask v)).p = x.p ∧ (applyResult x (.vector r mask v)).q = x.q :=
  ⟨rfl, rfl, rfl⟩

theorem applyResult_scalar_regs (x : Tile) (r : Nat) (v : Word) :
    (applyResult x (.scalar r v)).v = x.v ∧ (applyResult x (.scalar r v)).p = x.p ∧ (applyResult x (.scalar r v)).q = x.q :=
  ⟨rfl, rfl, rfl⟩

theorem applyResult_pred_regs (x : Tile) (r : Nat) (mask v : Pred) :
    (applyResult x (.pred r mask v)).s = x.s ∧ (applyResult x (.pred r mask v)).v = x.v ∧ (applyResult x (.pred r mask v)).q = x.q := by
  unfold applyResult
  dsimp only
  split <;> exact ⟨rfl, rfl, rfl⟩

theorem applyResult_pred_self (x : Tile) {r : Nat} (mask v : Pred) (h : r ≠ 0) :
    predOf (applyResult x (.pred r mask v)) r = (predOf x r &&& ~~~mask) ||| (v &&& mask) := by
  simp [applyResult, predOf, h]

theorem applyResult_pred_of_ne (x : Tile) {r q : Nat} (mask v : Pred) (h : q ≠ r) :
    predOf (applyResult x (.pred r mask v)) q = predOf x q := by
  by_cases hr : r = 0
  · subst hr
    rw [applyResult_pred_zero]
  · simp only [applyResult, predOf, if_neg hr, mget_mput_of_ne _ _ _ h]

/-- The bits of a predicate's mask take the result, unless the predicate is `p0`. -/
theorem applyResult_pred_getLsbD (x : Tile) (r : Nat) (mask v : Pred) {k : Nat} (hk : k < 512) :
    (predOf (applyResult x (.pred r mask v)) r).getLsbD k = if r ≠ 0 ∧ mask.getLsbD k = true then v.getLsbD k else (predOf x r).getLsbD k := by
  by_cases hr : r = 0
  · subst hr
    simp [applyResult_pred_zero]
  · rw [applyResult_pred_self x mask v hr]
    simp only [BitVec.getLsbD_or, BitVec.getLsbD_and, BitVec.getLsbD_not, hk, decide_true, Bool.true_and]
    cases mask.getLsbD k <;> simp [hr]

/-- Settles O16: the vector merges under its mask of elements, the predicate under its mask of bits, and each kind of result leaves
the other registers. -/
theorem dueResultsWrite : Obligations.DueResultsWrite := by
  unfold Obligations.DueResultsWrite
  intro x w r on f m v u hmem y z c
  obtain ⟨hw, hd⟩ : 0 < w ∧ w ∣ 2048 := by fin_cases hmem <;> decide
  obtain ⟨hys, hyp, hyq⟩ := applyResult_vector_regs x r (maskOf w on) (vecOfElems w f)
  obtain ⟨hzs, hzv, hzq⟩ := applyResult_pred_regs x r m v
  obtain ⟨hcv, hcp, hcq⟩ := applyResult_scalar_regs x r u
  refine ⟨fun k hk => ?_, fun q hq => applyResult_vector_of_ne x _ _ hq, hys, hyp, hyq, fun k hk => applyResult_pred_getLsbD x r m v hk,
    fun q hq => applyResult_pred_of_ne x m v hq, hzs, hzv, hzq, fun q => applyResult_scalar x r q u, hcv, hcp, hcq⟩
  rw [applyResult_vector_self, elem_merge hw hd hk, elem_vecOfElems hw hd hk]

end Sys2Proof.Machine
end

/-! # Reductions, scans, the sort and random numbers

The rows that mix the elements of a register, in the words of R296, R297, R299 and R301. -/
section
open Sys2Proof Sys2Proof.Machine Sys2Proof.Claims
namespace Sys2Proof.Machine

/-! ## The rows -/

section rows
variable (fold : BitVec 2) (d a b c : BitVec 6) (p ft : BitVec 3) (rm : BitVec 4) (s : State)

theorem exec_vredsum : exec (.vredsum fold d a p ft rm) s =
    reduceRow (redWidth ft) (ft == 0) (sumIdent ft) (fun cap => sumNode cap ft rm.toNat) fold d a p s := rfl
theorem exec_vredmin : exec (.vredmin fold d a p ft) s =
    reduceRow (redWidth ft) (ft == 0) (minIdent ft) (fun _ _ => minNode ft) fold d a p s := rfl
theorem exec_vredmax : exec (.vredmax fold d a p ft) s =
    reduceRow (redWidth ft) (ft == 0) (maxIdent ft) (fun _ _ => maxNode ft) fold d a p s := rfl
theorem exec_vredminu : exec (.vredminu fold d a p) s = reduceRow 32 false (2 ^ 32 - 1) (fun _ _ => Nat.min) fold d a p s := rfl
theorem exec_vredmaxu : exec (.vredmaxu fold d a p) s = reduceRow 32 false 0 (fun _ _ => Nat.max) fold d a p s := rfl
theorem exec_vredand : exec (.vredand fold d a p) s = reduceRow 32 false (2 ^ 32 - 1) (fun _ _ => HAnd.hAnd) fold d a p s := rfl
theorem exec_vredor : exec (.vredor fold d a p) s = reduceRow 32 false 0 (fun _ _ => HOr.hOr) fold d a p s := rfl
theorem exec_vscan : exec (.vscan fold d a p ft rm) s =
    scanRow (redWidth ft) (sumIdent ft) (fun cap => sumNode cap ft rm.toNat) false fold d a p s := rfl
theorem exec_vscanx : exec (.vscanx fold d a p ft rm) s =
    scanRow (redWidth ft) (sumIdent ft) (fun cap => sumNode cap ft rm.toNat) true fold d a p s := rfl
theorem exec_vscanmax : exec (.vscanmax fold d a p ft) s =
    scanRow (redWidth ft) (maxIdent ft) (fun _ _ => maxNode ft) false fold d a p s := rfl
theorem exec_vsortn : exec (.vsortn fold d a b c ft) s = execVsortn fold d a b c ft s := rfl
theorem exec_vrng : exec (.vrng fold d p) s = execVrng fold d p s := rfl
theorem exec_vrngf : exec (.vrngf fold d p ft) s = execVrngf fold d p ft s := rfl

end rows

/-! ## Completion on a tile (R275, R276) -/

theorem finishElems_tile {s : State} {t : Nat} (h : s.cur.unit = .tile t) (lat w : Nat) (fold : BitVec 2) (d : BitVec 6)
    (on : Nat → Bool) (f : Nat → Nat) : finishElems lat w fold d on f s = .next (elemsDone lat w fold d on f t s) :=
  onTile_tile s h _

theorem finishWhole_tile {s : State} {t : Nat} (h : s.cur.unit = .tile t) (lat : Nat) (fold : BitVec 2) (rs : List Result) :
    finishWhole lat fold rs s = .next (wholeDone lat fold rs t s) := by
  rw [finishWhole, onTile_tile s h, wholeDone]
  simp only [lastBeat, beq_iff_eq]
  rfl

/-! ## What beat 0 read (R63, R135) -/

/-- The predicate that governs a row does not depend on what else the row reads. -/
theorem enabled_eq_grab (s : State) (a b c : BitVec 6) (p : BitVec 3) (k : Nat) :
    enabled s p k = (grab s a b c p.toNat).pred.getLsbD k := by
  unfold enabled grab
  cases s.cur.cap <;> rfl

theorem scalarC_eq_grab (s : State) (a b c : BitVec 6) (p : Nat) : scalarC s c = (grab s a b c p).scalar3 := by
  unfold scalarC grab
  cases s.cur.cap <;> rfl

/-- The random words of an entry do not depend on the registers that it reads (R63). -/
theorem drawWords_grab (s : State) (a b c a' b' c' : BitVec 6) (p p' : Nat) :
    drawWords (grab s a b c p) = drawWords (grab s a' b' c' p') := by
  unfold grab
  cases s.cur.cap <;> rfl

theorem stochBits_grab (s : State) (a b c a' b' c' : BitVec 6) (p p' k : Nat) :
    stochBits (grab s a b c p) k = stochBits (grab s a' b' c' p') k := by
  rw [stochBits, stochBits, drawWords_grab s a b c a' b' c' p p']

theorem rngWord_grab (s : State) (a b c a' b' c' : BitVec 6) (p p' k : Nat) :
    rngWord (grab s a b c p) k = rngWord (grab s a' b' c' p') k := by
  rw [rngWord, rngWord, drawWords_grab s a b c a' b' c' p p']

/-! ## Registers packed from a list -/

theorem packFrom_congr {w n k : Nat} {f g : Nat → Nat} (h : ∀ i, k ≤ i → i < k + n → f i = g i) : packFrom w f k n = packFrom w g k n := by
  induction n generalizing k with
  | zero => rfl
  | succ n ih => rw [packFrom, packFrom, h k k.le_refl (by omega), ih fun i hi hn => h i (by omega) (by omega)]

theorem vecOfElems_congr {w : Nat} {f g : Nat → Nat} (h : ∀ k, k < elemCount w → f k = g k) : vecOfElems w f = vecOfElems w g :=
  congrArg (BitVec.ofNat 2048) (packFrom_congr fun i _ hi => h i (by simpa [elemCount] using hi))

theorem packFrom_succ (w : Nat) (f : Nat → Nat) (k n : Nat) : packFrom w f (k + 1) n = packFrom w (fun i => f (i + 1)) k n := by
  induction n generalizing k with
  | zero => rfl
  | succ n ih => rw [packFrom, packFrom, ih]

/-- A list packs as its elements, with zeros behind them. -/
theorem packList_eq_pack (w : Nat) {l : List Nat} {n : Nat} (h : l.length ≤ n) : packList w l = pack w n fun k => (l[k]?).getD 0 := by
  induction n generalizing l with
  | zero => rw [List.length_eq_zero_iff.1 (Nat.le_zero.1 h)]; rfl
  | succ n ih =>
    rw [pack, packFrom, packFrom_succ]
    cases l with
    | nil => simpa [packList, pack] using (ih (l := []) n.zero_le).symm
    | cons x l => simpa [packList, pack] using ih (Nat.le_of_succ_le_succ h)

theorem vecOfElems_list (w : Nat) {l : List Nat} (h : l.length ≤ elemCount w) :
    BitVec.ofNat 2048 (packList w l) = vecOfElems w fun k => (l[k]?).getD 0 :=
  congrArg _ (packList_eq_pack w h)

theorem vecOfElems_map {α : Type} (w : Nat) (f : α → Nat) {l : List α} (h : l.length ≤ elemCount w) :
    BitVec.ofNat 2048 (packList w (l.map f)) = vecOfElems w fun k => ((l[k]?).map f).getD 0 := by
  rw [vecOfElems_list w (by simpa using h)]
  simp only [List.getElem?_map]

/-! ## Reductions and scans (R296, R297) -/

/-- What an element enters a reduction or a scan as: itself, or the identity where it is disabled. -/
def inputElem (s : State) (a : BitVec 6) (p : BitVec 3) (w ident k : Nat) : Nat :=
  if enabled s p k then elem w (readV s a).toNat k else ident

/-- A reduction is the tree of R69, with any description of its node and of its identity. -/
theorem reduceRow_tile {s : State} {t : Nat} (h : s.cur.unit = .tile t) {w : Nat} {sx : Bool} {signed : Prop} [Decidable signed]
    {ident ident' : Nat} {node : Capture → Nat → Nat → Nat → Nat} {node' : Nat → Nat → Nat → Nat} {fold : BitVec 2} {d a : BitVec 6}
    {p : BitVec 3} {i : Instr} (hi : exec i s = reduceRow w sx ident node fold d a p s) (hsx : sx = decide signed) (hident : ident = ident') (hnode : ∀ k y z, node (grab s a 0 0 p.toNat) k y z = node' k y z) :
    let r := redTree node' (inputElem s a p w ident') 0 (Nat.log2 (elemCount w))
    exec i s = .next (wholeDone 8 fold
      [.scalar d.toNat (if signed then BitVec.ofInt 64 (signedOf w r) else BitVec.ofNat 64 r)] t s) := by
  subst hsx hident
  obtain rfl : node (grab s a 0 0 p.toNat) = node' := by
    funext k y z
    exact hnode k y z
  simp only [hi, reduceRow, finishWhole_tile h, ← enabled_eq_grab, decide_eq_true_eq]
  rfl

/-- The value of a scan in front of element `k`. -/
def scanValue (node : Nat → Nat → Nat → Nat) (x : Nat → Nat) (ident : Nat) : Nat → Nat
  | 0 => ident
  | k + 1 => node k (scanValue node x ident k) (x k)

theorem scanFrom_eq_map (node : Nat → Nat → Nat → Nat) (x : Nat → Nat) (excl : Bool) (ident k n : Nat) :
    scanFrom node x excl k (scanValue node x ident k) n =
      (List.range' k n).map fun i => if excl then scanValue node x ident i else scanValue node x ident (i + 1) := by
  induction n generalizing k with
  | zero => rfl
  | succ n ih => rw [scanFrom, List.range'_succ, List.map_cons, ← ih (k + 1)]; rfl

/-- The register that a scan writes. -/
theorem vecOfElems_scan (w : Nat) (node : Nat → Nat → Nat → Nat) (x : Nat → Nat) (excl : Bool) (ident : Nat) :
    BitVec.ofNat 2048 (packList w (scanFrom node x excl 0 ident (elemCount w))) =
      vecOfElems w fun k => if excl then scanValue node x ident k else scanValue node x ident (k + 1) := by
  have hscan := scanFrom_eq_map node x excl ident 0 (elemCount w)
  rw [scanValue] at hscan
  rw [hscan, vecOfElems_list w (by simp)]
  exact vecOfElems_congr fun k hk => by simp [hk]

/-- A scan writes its running values, with any description of its node and of its identity. -/
theorem scanRow_tile {s : State} {t : Nat} (h : s.cur.unit = .tile t) {w : Nat} {excl : Bool} {ident ident' : Nat}
    {node : Capture → Nat → Nat → Nat → Nat} {node' : Nat → Nat → Nat → Nat} {fold : BitVec 2} {d a : BitVec 6} {p : BitVec 3}
    {i : Instr} (hi : exec i s = scanRow w ident node excl fold d a p s) (hident : ident = ident') (hnode : ∀ k y z, node (grab s a 0 0 p.toNat) k y z = node' k y z) :
    ∃ y : Nat → Nat, y 0 = ident' ∧ (∀ k, k < elemCount w → y (k + 1) = node' k (y k) (inputElem s a p w ident' k)) ∧
      exec i s = .next (wholeDone 8 fold [allElems w d fun k => if excl then y k else y (k + 1)] t s) := by
  subst hident
  obtain rfl : node (grab s a 0 0 p.toNat) = node' := by
    funext k y z
    exact hnode k y z
  refine ⟨scanValue (node (grab s a 0 0 p.toNat)) (inputElem s a p w ident) ident, rfl, fun _ _ => rfl, ?_⟩
  simp only [hi, scanRow, finishWhole_tile h, ← enabled_eq_grab, wholeVec, vecOfElems_scan]
  rfl

/-! ## Identities and nodes (R296) -/

theorem sumIdent_eq (ft : BitVec 3) : sumIdent ft = if ft = 0 then 0 else 2 ^ ((Flt.ofTag ft).width - 1) := by
  simp [sumIdent, Flt.signed, bit]

theorem minIdent_eq (ft : BitVec 3) : minIdent ft = if ft = 0 then 2 ^ 31 - 1 else (Flt.ofTag ft).maxCode + 1 := by
  simp [minIdent, Flt.inf, Flt.signed, bit]

theorem maxIdent_eq (ft : BitVec 3) :
    maxIdent ft = if ft = 0 then 2 ^ 31 else 2 ^ ((Flt.ofTag ft).width - 1) + ((Flt.ofTag ft).maxCode + 1) := by
  simp [maxIdent, Flt.inf, Flt.signed, bit]

/-- A node of a sum draws with its own element (R63), whatever else the row reads. -/
theorem sumNode_grab (s : State) (ft : BitVec 3) (rm : Nat) (a b c a' b' c' : BitVec 6) (p p' k y z : Nat) :
    sumNode (grab s a b c p) ft rm k y z = if ft = 0 then (y + z) % 2 ^ 32 else
      roundTo (Flt.ofTag ft) (.add (isRdn rm) (.decode (Flt.ofTag ft) y) (.decode (Flt.ofTag ft) z)) rm
        (if rm % 8 = 5 then stochBits (grab s a' b' c' p') k else 0) := by
  rw [sumNode, fadd, stochFor, stochBits_grab s a b c a' b' c' p p']

/-! ## The sort (R299) -/

/-- The sort writes its keys and their values, with zeros behind them. -/
theorem execVsortn_tile {s : State} {t : Nat} (h : s.cur.unit = .tile t) {fold : BitVec 2} {d a b c : BitVec 6} {ft : BitVec 3} :
    let sorted := (sortKeys (sortRank ft) ((List.range 64).map fun k => (elem 32 (readV s a).toNat k, elem 32 (readV s b).toNat k))).take
      (min (scalarC s c).toNat 64)
    exec (.vsortn fold d a b c ft) s = .next (wholeDone 20 fold
      [allElems 32 d fun k => ((sorted[k]?).map fun e => sortKeyOut ft e.1).getD 0,
       .vector (d.toNat + 1) (BitVec.allOnes 2048) (vecOfElems 32 fun k => ((sorted[k]?).map Prod.snd).getD 0)] t s) := by
  intro sorted
  have hs : sorted.length ≤ elemCount 32 := (List.length_take_le ..).trans (Nat.min_le_right ..)
  have hn : Nat.min (grab s a b c 0).scalar3.toNat 64 = min (scalarC s c).toNat 64 := by rw [scalarC_eq_grab s a b c 0]
  rw [exec_vsortn, execVsortn, finishWhole_tile h, hn, vecOfElems_map 32 _ hs, vecOfElems_map 32 _ hs]
  rfl

/-! ## Random numbers (R301) -/

theorem execVrng_tile {s : State} {t : Nat} (h : s.cur.unit = .tile t) (fold : BitVec 2) (d a b c : BitVec 6) (p : BitVec 3) :
    exec (.vrng fold d p) s = .next (elemsDone 6 32 fold d (enabled s p) (rngWord (grab s a b c p.toNat)) t s) := by
  have hw : rngWord (grab s 0 0 0 p.toNat) = rngWord (grab s a b c p.toNat) := by
    funext k
    exact rngWord_grab s 0 0 0 a b c p.toNat p.toNat k
  rw [exec_vrng, execVrng, finishElems_tile h, hw]
  simp only [← enabled_eq_grab]

theorem widthOfTag_half {ft : BitVec 3} (h : ft ≠ 1) : widthOfTag ft = 16 :=
  if_neg fun h1 => h (BitVec.eq_of_toNat_eq h1)

/-- A tag that names neither F32 nor BF16 draws F16. -/
theorem uniformFloat_half {ft : BitVec 3} (h1 : ft ≠ 1) (h2 : ft ≠ 2) (cap : Capture) :
    uniformFloat ft cap = fun k => roundTo .f16 (.dyadic false (elem 16 (rngWord cap (k / 2)) (k % 2) / 2 ^ 5) (-11)) 0 := by
  funext k
  unfold uniformFloat
  split
  · rename_i h
    exact absurd (BitVec.eq_of_toNat_eq h) h1
  · rename_i h
    exact absurd (BitVec.eq_of_toNat_eq h) h2
  · rfl

theorem execVrngf_tile {s : State} {t : Nat} (h : s.cur.unit = .tile t) (fold : BitVec 2) (d a b c : BitVec 6) (p ft : BitVec 3) :
    exec (.vrngf fold d p ft) s =
      .next (elemsDone 6 (widthOfTag ft) fold d (enabled s p) (uniformFloat ft (grab s a b c p.toNat)) t s) := by
  have hf : uniformFloat ft (grab s 0 0 0 p.toNat) = uniformFloat ft (grab s a b c p.toNat) := by
    funext k
    simp only [uniformFloat, rngWord_grab s 0 0 0 a b c p.toNat p.toNat]
  rw [exec_vrngf, execVrngf, finishElems_tile h, hf]
  simp only [← enabled_eq_grab]

/-- Settles O22: each row is the tree, the scan, the sort or the draw of its definition, on what beat 0 read. -/
theorem vectorReductions : Obligations.VectorReductions := by
  unfold Obligations.VectorReductions
  intro fold d a b c p ft rm s t h int f w cap x draw add lesser larger none0 top bottom reduces scans n sorted word draws
  have hsigned : (ft == 0) = decide int := rfl
  have hadd : ∀ k y z, sumNode (grab s a 0 0 p.toNat) ft rm.toNat k y z = add k y z := fun k y z =>
    sumNode_grab s ft rm.toNat a 0 0 a b c p.toNat p.toNat k y z
  have hfloat := execVrngf_tile h fold d a b c p ft
  refine ⟨reduceRow_tile h (exec_vredsum ..) hsigned (sumIdent_eq ft) hadd,
    reduceRow_tile h (exec_vredmin ..) hsigned (minIdent_eq ft) fun _ _ _ => rfl,
    reduceRow_tile h (exec_vredmax ..) hsigned (maxIdent_eq ft) fun _ _ _ => rfl,
    reduceRow_tile h (exec_vredminu ..) rfl rfl fun _ _ _ => rfl, reduceRow_tile h (exec_vredmaxu ..) rfl rfl fun _ _ _ => rfl,
    reduceRow_tile h (exec_vredand ..) rfl rfl fun _ _ _ => rfl, reduceRow_tile h (exec_vredor ..) rfl rfl fun _ _ _ => rfl,
    scanRow_tile h (exec_vscan ..) (sumIdent_eq ft) hadd, scanRow_tile h (exec_vscanx ..) (sumIdent_eq ft) hadd,
    scanRow_tile h (exec_vscanmax ..) (maxIdent_eq ft) fun _ _ _ => rfl, ?_, ?_, fun h1 => ?_, fun h2 => ?_, fun h1 h2 => ?_⟩
  · exact execVsortn_tile h
  · exact execVrng_tile h fold d a b c p
  · subst h1
    exact hfloat
  · subst h2
    exact hfloat
  · rwa [widthOfTag_half h1, uniformFloat_half h1 h2] at hfloat

end Sys2Proof.Machine
end

/-! # What the instructions leave alone

The frame of the instructions apart from bytes of memory: `PCYC`, and in a compute tile the control units, the presence bits and the
registers of every tile. Results wait in their tile until they are due (R98, R276). -/
section
open Sys2Proof Sys2Proof.Machine Sys2Proof.Claims
namespace Sys2Proof.Machine

/-- The registers of a tile: scalars, vectors, predicates and modulus sets. -/
def Tile.regs (x : Tile) : Map Word × Map Vec × Map Pred × Map ModSet := (x.s, x.v, x.p, x.q)

/-- The registers of every tile of a table. -/
def tileRegs (m : Map Tile) (n : Nat) : Map Word × Map Vec × Map Pred × Map ModSet := (mget {} m n).regs

/-- A tile that keeps its registers keeps those of the table. -/
theorem tileRegs_mset {m : Map Tile} {t : Nat} {x : Tile} (h : x.regs = (mget {} m t).regs) : tileRegs (mset m t x) = tileRegs m := by
  funext n
  unfold tileRegs
  by_cases hn : n = t
  · rw [hn, mget_mset_self, h]
  · rw [mget_mset_of_ne _ _ _ hn]

/-- A state has the clock, the control units, the presence bits and the tiles' registers of another one, and executes the same entry. -/
@[simp] abbrev KeepsUnits (s u : State) : Prop :=
  u.pcyc = s.pcyc ∧ u.seqs = s.seqs ∧ u.present = s.present ∧ u.cur = s.cur ∧ tileRegs u.tiles = tileRegs s.tiles

namespace KeepsUnits

theorem refl (s : State) : KeepsUnits s s := ⟨rfl, rfl, rfl, rfl, rfl⟩

theorem trans {s u w : State} (h : KeepsUnits s u) (h' : KeepsUnits u w) : KeepsUnits s w := by
  obtain ⟨hc, hq, hp, he, ht⟩ := h
  obtain ⟨hc', hq', hp', he', ht'⟩ := h'
  exact ⟨hc'.trans hc, hq'.trans hq, hp'.trans hp, he'.trans he, ht'.trans ht⟩

/-- A loop whose every turn keeps them keeps them. -/
theorem foldl {α : Type} {f : State → α → State} (hf : ∀ u x, KeepsUnits u (f u x)) (l : List α) (s : State) : KeepsUnits s (l.foldl f s) :=
  List.foldlRecOn l f (refl s) fun u hu x _ => hu.trans (hf u x)

/-- A tile that keeps its registers. -/
theorem setTile {s : State} {t : Nat} {x : Tile} (h : x.regs = (s.tile t).regs) : KeepsUnits s (s.setTile t x) :=
  ⟨rfl, rfl, rfl, rfl, tileRegs_mset h⟩

end KeepsUnits

/-! ## Changes of the state in a compute tile -/

@[simp] theorem setInPort_keepsUnits (s : State) (t p : Nat) (x : Port) : KeepsUnits s (setInPort s t p x) := .setTile rfl

@[simp] theorem setOutPort_keepsUnits (s : State) (t p : Nat) (x : Port) : KeepsUnits s (setOutPort s t p x) := .setTile rfl

@[simp] theorem setTensor_keepsUnits (t : Nat) (x : Tensor) (s : State) : KeepsUnits s (setTensor t x s) := .setTile rfl

theorem addPendings_regs (lat : Nat) (rs : List Result) (x : Tile) : (rs.foldl (fun x r => addPending x lat r) x).regs = x.regs :=
  List.foldlRecOn rs _ (motive := fun y : Tile => y.regs = x.regs) rfl fun _ hy _ _ => hy

@[simp] theorem deliver_keepsUnits (lat t : Nat) (rs : List Result) (s : State) : KeepsUnits s (deliver lat t rs s) :=
  .setTile (addPendings_regs lat rs _)

@[simp] theorem tileReport_keepsUnits (t : Nat) (r : Report) (s : State) : KeepsUnits s (tileReport t r s) := by
  have hregs : tileRegs (tileReport t r s).tiles = tileRegs s.tiles := by
    rw [tileReport_tiles]
    exact tileRegs_mset rfl
  have hrest : (tileReport t r s).pcyc = s.pcyc ∧ (tileReport t r s).seqs = s.seqs ∧ (tileReport t r s).present = s.present ∧
      (tileReport t r s).cur = s.cur := by
    unfold tileReport
    dsimp only
    (repeat' split) <;> exact ⟨rfl, rfl, rfl, rfl⟩
  obtain ⟨hclock, hseqs, hpresent, hcur⟩ := hrest
  exact ⟨hclock, hseqs, hpresent, hcur, hregs⟩

@[simp] theorem raisePunct2_keepsUnits (t p : Nat) (s : State) : KeepsUnits s (raisePunct2 t p s) := tileReport_keepsUnits ..

@[simp] theorem removeMarkers_keepsUnits (t p k : Nat) (ms rest : List Token) (s : State) :
    KeepsUnits s (removeMarkers t p k ms rest s).1 := by
  unfold removeMarkers; split <;> simp

@[simp] theorem sendToken_keepsUnits (key : Nat) (tok : Token) (s : State) : KeepsUnits s (sendToken key tok s) := by
  unfold sendToken; dsimp only; (repeat' split) <;> simp

@[simp] theorem countColour_keepsUnits (ctx : Nat) (passed : Bool) (c : Nat) (n : Int) (s : State) :
    KeepsUnits s (countColour ctx passed c n s) := by
  unfold countColour; split <;> simp

@[simp] theorem setJoin_keepsUnits (c g j : Nat) (x : Join) (s : State) : KeepsUnits s (setJoin c g j x s) := by
  unfold setJoin; split <;> simp

@[simp] theorem setGroup_keepsUnits (c g i : Nat) (x : Group) (s : State) : KeepsUnits s (setGroup c g i x s) := by
  unfold setGroup; split <;> simp

@[simp] theorem sendSignal_keepsUnits (u : UnitId) (p colour : Nat) (s : State) : KeepsUnits s (sendSignal u p colour s) := by
  unfold sendSignal; dsimp only; (repeat' split) <;> simp

@[simp] theorem setOp_keepsUnits (id : Nat) (o : Op) (s : State) : KeepsUnits s (setOp id o s) := .refl s

@[simp] theorem toBanks_keepsUnits (o : Op) (s : State) : KeepsUnits s (toBanks o s) := .refl s

@[simp] theorem setGen_keepsUnits (mt g : Nat) (x : Generator) (s : State) : KeepsUnits s (setGen mt g x s) := .refl s

@[simp] theorem toPipeline_keepsUnits (id : Nat) (far : Bool) (s : State) : KeepsUnits s (toPipeline id far s) := by
  unfold toPipeline; split <;> simp

@[simp] theorem askColour_keepsUnits (o : Op) (s : State) : KeepsUnits s (askColour o s) := .refl s

@[simp] theorem giveOffsets_keepsUnits (mt : Nat) (l : List (Nat × Nat)) (r : State × Generator) :
    KeepsUnits r.1 (giveOffsets mt l r).1 := by
  induction l generalizing r with
  | nil => exact .refl _
  | cons t l ih =>
    refine .trans ?_ (ih _)
    dsimp only
    split <;> simp

/-! ## What an instruction leaves alone in its unit -/

/-- The frame of an instruction that issues in `s`: the clock, and in a compute tile the units. -/
structure Framed (s u : State) : Prop where
  clock : u.pcyc = s.pcyc
  units : ∀ t, s.cur.unit = .tile t → KeepsUnits s u

namespace Framed

theorem of_units {s u : State} (h : KeepsUnits s u) : Framed s u := ⟨h.1, fun _ _ => h⟩

theorem refl (s : State) : Framed s s := of_units (.refl s)

theorem of_seq {s u : State} {n : Nat} (hn : s.cur.unit = .seq n) (h : u.pcyc = s.pcyc) : Framed s u :=
  ⟨h, fun t ht => by simp [hn] at ht⟩

/-- The entry executes in the same compute tile behind a change that is framed. -/
theorem unit_tile {s u : State} {t : Nat} (h : Framed s u) (ht : s.cur.unit = .tile t) : u.cur.unit = .tile t := by
  obtain ⟨-, -, -, hcur, -⟩ := h.units t ht
  rw [hcur, ht]

theorem trans {s u w : State} (h : Framed s u) (h' : Framed u w) : Framed s w :=
  ⟨h'.clock.trans h.clock, fun t ht => (h.units t ht).trans (h'.units t (h.unit_tile ht))⟩

end Framed

/-! ## The clock

No change of the state that an instruction makes in its cycle moves `PCYC` (R489). -/

@[simp] theorem State.pcyc_ite (c : Prop) [Decidable c] (s u : State) : (if c then s else u).pcyc = if c then s.pcyc else u.pcyc :=
  apply_ite ..

@[simp] theorem foldl_pcyc {α : Type} {f : State → α → State} (hf : ∀ u x, (f u x).pcyc = u.pcyc) (l : List α) (s : State) :
    (l.foldl f s).pcyc = s.pcyc :=
  foldl_keeps State.pcyc hf l s

@[simp] theorem State.cancel_pcyc (s : State) (i : Instr) : (State.cancel s i).pcyc = s.pcyc := by unfold State.cancel; split <;> simp

@[simp] theorem State.tellHost_pcyc (s : State) (c code tcause id : Nat) (info loc : Word) :
    (State.tellHost s c code tcause id info loc).pcyc = s.pcyc := by
  unfold State.tellHost; dsimp only; (repeat' split) <;> simp

@[simp] theorem State.tellPackage_pcyc (s : State) (code tcause id : Nat) (info loc : Word) :
    (State.tellPackage s code tcause id info loc).pcyc = s.pcyc := by
  unfold State.tellPackage; split <;> simp

@[simp] theorem State.tellOpen_pcyc (s : State) (c code id : Nat) (info : Option Word) :
    (State.tellOpen s c code id info).pcyc = s.pcyc := by
  simp [State.tellOpen]

@[simp] theorem State.tellPackageOpen_pcyc (s : State) (code id : Nat) (info : Option Word) :
    (State.tellPackageOpen s code id info).pcyc = s.pcyc := by
  simp [State.tellPackageOpen]

@[simp] theorem passTrap_pcyc (n : Nat) (r : TrapReq) (s : State) : (passTrap n r s).pcyc = s.pcyc := rfl

@[simp] theorem trapEntry_pcyc (n : Nat) (r : TrapReq) (resume : Word) (s : State) : (trapEntry n r resume s).pcyc = s.pcyc :=
  rfl

@[simp] theorem forwardTrap_pcyc (n : Nat) (r : TrapReq) (resume : Word) (s : State) : (forwardTrap n r resume s).pcyc = s.pcyc := by
  unfold forwardTrap; split <;> simp

@[simp] theorem fatal_pcyc (n : Nat) (r : TrapReq) (s : State) : (fatal n r s).pcyc = s.pcyc := by unfold fatal; split <;> simp

@[simp] theorem takeTrap_pcyc (n : Nat) (r : TrapReq) (resume : Word) (s : State) : (takeTrap n r resume s).pcyc = s.pcyc := by
  unfold takeTrap; (repeat' split) <;> simp

@[simp] theorem ownFault_pcyc (n code : Nat) (info : Word) (s : State) : (ownFault n code info s).pcyc = s.pcyc := by
  unfold ownFault; dsimp only; (repeat' split) <;> simp

@[simp] theorem trapReturn_pcyc (n : Nat) (s : State) : (trapReturn n s).pcyc = s.pcyc := rfl

@[simp] theorem setCx_pcyc (u : UnitId) (p : Nat) (x : CtrlPort) (s : State) : (setCx u p x s).pcyc = s.pcyc := by
  unfold setCx; split <;> simp

@[simp] theorem setChan_pcyc (u : UnitId) (c : Nat) (x : OrdChan) (s : State) : (setChan u c x s).pcyc = s.pcyc := by
  unfold setChan; split <;> simp

@[simp] theorem orderDone_pcyc (u : UnitId) (c seqn : Nat) (s : State) : (orderDone u c seqn s).pcyc = s.pcyc := by
  unfold orderDone; split <;> simp

@[simp] theorem waitFor_pcyc (n r id : Nat) (s : State) : (waitFor n r id s).pcyc = s.pcyc := by unfold waitFor; split <;> simp

@[simp] theorem issueLoad_pcyc (o : Op) (lat : Nat) (res : Result) (s : State) : (issueLoad o lat res s).pcyc = s.pcyc := by
  unfold issueLoad; (repeat' split) <;> simp

@[simp] theorem complete_pcyc (id : Nat) (o : Op) (s : State) : (complete id o s).pcyc = s.pcyc := by simp [complete]

@[simp] theorem completionFault_pcyc (id code : Nat) (info : Word) (s : State) : (completionFault id code info s).pcyc = s.pcyc := by
  unfold completionFault; (repeat' split) <;> simp

@[simp] theorem dropRefused_pcyc (id : Nat) (s : State) : (dropRefused id s).pcyc = s.pcyc := by
  unfold dropRefused; (repeat' split) <;> simp

@[simp] theorem markDirty_pcyc (pa n : Nat) (s : State) : (markDirty pa n s).pcyc = s.pcyc := rfl

@[simp] theorem holdRequest_pcyc (d : Nat) (w : Task) (s : State) : (holdRequest d w s).pcyc = s.pcyc := by
  unfold holdRequest; dsimp only; (repeat' split) <;> simp

@[simp] theorem updTlb_pcyc (die : Nat) (f : List TlbEntry → List TlbEntry) (s : State) : (updTlb die f s).pcyc = s.pcyc :=
  rfl

@[simp] theorem tlbFill_pcyc (die ctx va : Nat) (e : Word) (place : Nat) (s : State) : (tlbFill die ctx va e place s).pcyc = s.pcyc :=
  rfl

@[simp] theorem tlbDrop_pcyc (d : Nat → Bool) (ctx lo hi : Nat) (s : State) : (tlbDrop d ctx lo hi s).pcyc = s.pcyc := rfl

@[simp] theorem copyFirst_pcyc (ctx va : Nat) (s : State) : (copyFirst ctx va s).pcyc = s.pcyc := by
  unfold copyFirst; dsimp only; (repeat' split) <;> simp

@[simp] theorem sendItems_pcyc (cls ctx r n : Nat) (s : State) : (sendItems cls ctx r n s).pcyc = s.pcyc := by
  unfold sendItems; split <;> simp

@[simp] theorem tellPeers_pcyc (ctx : Nat) (s : State) : (tellPeers ctx s).pcyc = s.pcyc := by simp [tellPeers]

@[simp] theorem sendCellar_pcyc (ctx n : Nat) (s : State) : (sendCellar ctx n s).pcyc = s.pcyc := by simp [sendCellar]

@[simp] theorem takeCellar_pcyc (ctx off n : Nat) (s : State) : (takeCellar ctx off n s).pcyc = s.pcyc := rfl

@[simp] theorem failSnap_pcyc (ctx reason : Nat) (s : State) : (failSnap ctx reason s).pcyc = s.pcyc := rfl

@[simp] theorem clearDirty_pcyc (place : Nat) (s : State) : (clearDirty place s).pcyc = s.pcyc := rfl

@[simp] theorem startWalk_pcyc (die ctx va : Nat) (st : Stream) (dst : Option Nat) (s : State) :
    (startWalk die ctx va st dst s).pcyc = s.pcyc :=
  rfl

@[simp] theorem updEngine_pcyc (ctx : Nat) (st : Stream) (f : MemActor → MemActor) (h : Template → Template) (s : State) :
    (updEngine ctx st f h s).pcyc = s.pcyc := by
  unfold updEngine; (repeat' split) <;> simp

@[simp] theorem setPagewait_pcyc (ctx : Nat) (st : Stream) (b : Bool) (s : State) : (setPagewait ctx st b s).pcyc = s.pcyc := by
  simp [setPagewait]

@[simp] theorem setHeld_pcyc (ctx : Nat) (st : Stream) (b : Bool) (s : State) : (setHeld ctx st b s).pcyc = s.pcyc := by simp [setHeld]

@[simp] theorem askPackages_pcyc (n c scope : Nat) (s : State) : (askPackages n c scope s).pcyc = s.pcyc := by
  unfold askPackages; dsimp only; (repeat' split) <;> simp

@[simp] theorem updMem_pcyc (c g m : Nat) (f : MemActor → MemActor) (s : State) : (updMem c g m f s).pcyc = s.pcyc := by
  unfold updMem; split <;> simp

@[simp] theorem updCopy_pcyc (c g t : Nat) (f : Template → Template) (s : State) : (updCopy c g t f s).pcyc = s.pcyc := by
  unfold updCopy; split <;> simp

@[simp] theorem startUpdates_pcyc (c g m : Nat) (s : State) : (startUpdates c g m s).pcyc = s.pcyc := by
  unfold startUpdates
  dsimp only
  rw [foldl_pcyc fun _ _ => by simp, State.cancel_pcyc]

@[simp] theorem updGraph_pcyc (c g : Nat) (f : Graph → Graph) (s : State) : (updGraph c g f s).pcyc = s.pcyc := by
  unfold updGraph; split <;> simp

@[simp] theorem inject_pcyc (c slot : Nat) (s : State) : (inject c slot s).pcyc = s.pcyc := by
  unfold inject
  dsimp only
  rw [foldl_pcyc fun _ _ => by simp, updGraph_pcyc]

@[simp] theorem requestMode_pcyc (c slot m : Nat) (s : State) : (requestMode c slot m s).pcyc = s.pcyc := by
  unfold requestMode; dsimp only; (repeat' split) <;> simp

@[simp] theorem tellRanks_pcyc (c slot : Nat) (s : State) : (tellRanks c slot s).pcyc = s.pcyc := by simp [tellRanks]

@[simp] theorem activate_pcyc (c g prio : Nat) (lat : Bool) (since : Nat) (record : Option Nat) (count : Nat) (s : State) :
    (activate c g prio lat since record count s).pcyc = s.pcyc := by
  simp [activate]

@[simp] theorem startDrain_pcyc (c g : Nat) (s : State) : (startDrain c g s).pcyc = s.pcyc := by
  unfold startDrain; dsimp only; (repeat' split) <;> simp

@[simp] theorem releaseGroups_pcyc (c slot : Nat) (s : State) : (releaseGroups c slot s).pcyc = s.pcyc := by
  unfold releaseGroups
  simp

@[simp] theorem settleCtx_pcyc (c : Nat) (s : State) : (settleCtx c s).pcyc = s.pcyc := by
  unfold settleCtx; dsimp only; (repeat' split) <;> simp

@[simp] theorem unload_pcyc (c slot : Nat) (s : State) : (unload c slot s).pcyc = s.pcyc := by
  unfold unload; dsimp only; split <;> simp

@[simp] theorem takeSlot_pcyc (c slot use va : Nat) (s : State) : (takeSlot c slot use va s).pcyc = s.pcyc := rfl

@[simp] theorem regionReport_pcyc (k code : Nat) (info : Word) (s : State) : (regionReport k code info s).pcyc = s.pcyc := by
  unfold regionReport; split <;> simp

@[simp] theorem ramoFault_pcyc (id : Nat) (o : Op) (info : Word) (s : State) : (ramoFault id o info s).pcyc = s.pcyc := by
  unfold ramoFault; (repeat' split) <;> simp

@[simp] theorem linkEvent_pcyc (n : Nat) (info : Option Word) (s : State) : (linkEvent n info s).pcyc = s.pcyc := by simp [linkEvent]

@[simp] theorem sever_pcyc (r why : Nat) (s : State) : (sever r why s).pcyc = s.pcyc := by
  unfold sever
  dsimp only
  rw [foldl_pcyc fun s e => by split <;> simp, foldl_pcyc fun s e => by simp, foldl_pcyc fun s e => by simp]

@[simp] theorem repoint_pcyc (r why n : Nat) (s : State) : (repoint r why n s).pcyc = s.pcyc := by
  unfold repoint; dsimp only; (repeat' split) <;> simp

@[simp] theorem jumpTo_pcyc (n : Nat) (target : Word) (s : State) : (jumpTo n target s).pcyc = s.pcyc := rfl

@[simp] theorem endCall_pcyc (n : Nat) (fault : Bool) (s : State) : (endCall n fault s).pcyc = s.pcyc := rfl

@[simp] theorem armLoop_pcyc (n : Nat) (l count span : Nat) (s : State) : (armLoop n l count span s).pcyc = s.pcyc := rfl

@[simp] theorem reissue_pcyc (id : Nat) (s : State) : (reissue id s).pcyc = s.pcyc := by unfold reissue; (repeat' split) <;> simp

@[simp] theorem resumeRegion_pcyc (t k : Nat) (r : Report) (skip : Bool) (s : State) : (resumeRegion t k r skip s).pcyc = s.pcyc := by
  unfold resumeRegion; (repeat' split) <;> simp

@[simp] theorem releaseReport_pcyc (t : Nat) (skip : Bool) (s : State) : (releaseReport t skip s).pcyc = s.pcyc := by
  unfold releaseReport; dsimp only; (repeat' split) <;> simp

@[simp] theorem releaseEngine_pcyc (c : Nat) (st : Stream) (s : State) : (releaseEngine c st s).pcyc = s.pcyc := by
  unfold releaseEngine; (repeat' split) <;> simp

@[simp] theorem releaseOwn_pcyc (n : Nat) (k : TrapKind) (skip : Bool) (s : State) : (releaseOwn n k skip s).pcyc = s.pcyc := by
  unfold releaseOwn; (repeat' split) <;> simp

@[simp] theorem resumeForward_pcyc (m : Nat) (skip : Bool) (s : State) : (resumeForward m skip s).pcyc = s.pcyc := by
  unfold resumeForward; split <;> simp

@[simp] theorem releaseForward_pcyc (m c : Nat) (skip : Bool) (s : State) : (releaseForward m c skip s).pcyc = s.pcyc := by
  unfold releaseForward; (repeat' split) <;> simp

@[simp] theorem releaseTrap_pcyc (n : Nat) (k : TrapKind) (skip : Bool) (s : State) : (releaseTrap n k skip s).pcyc = s.pcyc := by
  unfold releaseTrap; split <;> simp

@[simp] theorem setSeed_pcyc (c : Nat) (v : Word) (s : State) : (setSeed c v s).pcyc = s.pcyc := rfl

@[simp] theorem dropEngineOps_pcyc (c : Nat) (s : State) : (dropEngineOps c s).pcyc = s.pcyc := rfl

@[simp] theorem loseGraph_pcyc (c slot : Nat) (s : State) : (loseGraph c slot s).pcyc = s.pcyc := by
  unfold loseGraph; (repeat' split) <;> simp

@[simp] theorem loseCtx_pcyc (c : Nat) (s : State) : (loseCtx c s).pcyc = s.pcyc := by
  unfold loseCtx; dsimp only; (repeat' split) <;> simp

@[simp] theorem withdraw_pcyc (c slot : Nat) (s : State) : (withdraw c slot s).pcyc = s.pcyc := by simp [withdraw]

@[simp] theorem startDrainSave_pcyc (c : Nat) (s : State) : (startDrainSave c s).pcyc = s.pcyc := by simp [startDrainSave]

@[simp] theorem beginRestore_pcyc (c : Nat) (s : State) : (beginRestore c s).pcyc = s.pcyc := rfl

@[simp] theorem requestSnap_pcyc (c id : Nat) (dom : Bool) (w : Option Nat) (d : Nat) (s : State) :
    (requestSnap c id dom w d s).pcyc = s.pcyc :=
  rfl

@[simp] theorem rollGraph_pcyc (c : Nat) (p : Snap) (r : GraphRec) (s : State) : (rollGraph c p r s).pcyc = s.pcyc := by
  unfold rollGraph
  split
  · simp
  · split
    · simp
    · simp

@[simp] theorem beginRollback_pcyc (c id h : Nat) (w : Option Nat) (s : State) : (beginRollback c id h w s).pcyc = s.pcyc := by
  unfold beginRollback; dsimp only; (repeat' split) <;> simp

@[simp] theorem adoptStored_pcyc (c : Nat) (w : Option Nat) (s : State) : (adoptStored c w s).pcyc = s.pcyc := by
  unfold adoptStored; dsimp only; (repeat' split) <;> simp

/-! ## Outcomes -/

/-- What is said of the state that a step goes on to, if it goes on to one. -/
inductive NextIs (Q : State → Prop) : StepResult → Prop
  | next {u : State} (h : Q u) : NextIs Q (.next u)
  | fault (x : Fault) : NextIs Q (.fault x)
  | refused (x : Refusal) : NextIs Q (.refused x)

section outcomes
variable {Q R : State → Prop}

@[simp] theorem nextIs_next {u : State} : NextIs Q (.next u) ↔ Q u := ⟨fun | .next h => h, .next⟩

@[simp] theorem nextIs_ite {c : Prop} [Decidable c] {a b : StepResult} :
    NextIs Q (if c then a else b) ↔ if c then NextIs Q a else NextIs Q b := by split <;> rfl

theorem NextIs.of_next {r : StepResult} {u : State} (hr : NextIs Q r) (h : r = .next u) : Q u := by
  subst h; exact nextIs_next.1 hr

theorem NextIs.imp {r : StepResult} (hr : NextIs Q r) (h : ∀ u, Q u → R u) : NextIs R r := by
  cases hr with
  | next hu => exact .next (h _ hu)
  | fault x => exact .fault x
  | refused x => exact .refused x

end outcomes

/-- An instruction that issues in `s` leaves the rest of the machine alone. -/
@[simp] abbrev NextFramed (s : State) (r : StepResult) : Prop := NextIs (Framed s) r

/-- A step that goes on at the clock `k`. -/
@[simp] abbrev NextAt (k : Nat) (r : StepResult) : Prop := NextIs (fun u => u.pcyc = k) r

/-- An instruction behind a change that is framed. -/
theorem Framed.then {s u : State} {r : StepResult} (h : Framed s u) (hr : NextFramed u r) : NextFramed s r :=
  hr.imp fun _ hw => h.trans hw

theorem NextFramed.of_units {s u : State} (h : KeepsUnits s u) : NextFramed s (.next u) := .next (.of_units h)

/-! ## What every instruction may do -/

section shared
variable {s : State}

theorem onSeq_framed {f : Nat → StepResult} (hf : ∀ n, NextAt s.pcyc (f n)) : NextFramed s (onSeq s f) := by
  cases hu : s.cur.unit with
  | tile t => rw [onSeq_tile s hu]; exact .refused _
  | seq n => rw [onSeq_seq s hu]; exact (hf n).imp fun u => .of_seq hu

theorem onTile_framed {f : Nat → StepResult} (hf : ∀ t, NextFramed s (f t)) : NextFramed s (onTile s f) := by
  cases hu : s.cur.unit with
  | tile t => rw [onTile_tile s hu]; exact hf t
  | seq n => rw [onTile_seq s hu]; exact .next (.of_seq hu (ownFault_pcyc ..))

theorem finish_framed : NextFramed s (finish s) := by
  cases hu : s.cur.unit with
  | tile t => rw [finish_tile s hu]; exact .next (.refl s)
  | seq n => rw [finish_seq s hu]; exact .next (.of_seq hu rfl)

theorem Framed.thenFinish {u : State} (h : Framed s u) : NextFramed s (finish u) := h.then finish_framed

theorem finishScalar_framed {lat : Nat} {d : BitVec 6} {v : Word} : NextFramed s (finishScalar lat d v s) := by
  cases hu : s.cur.unit with
  | tile t => rw [finishScalar_tile s hu]; exact .of_units (.setTile rfl)
  | seq n => rw [finishScalar_seq s hu]; exact .next (.of_seq hu rfl)

theorem raise_framed {code : Nat} {info : Word} : NextFramed s (raise code info s) := by
  cases hu : s.cur.unit with
  | tile t => rw [raise_tile s hu]; exact .of_units (tileReport_keepsUnits ..)
  | seq n => rw [raise_seq s hu]; exact .next (.of_seq hu (ownFault_pcyc ..))

theorem freeze_framed {why : FreezeWhy} {port tag : Nat} : NextFramed s (freeze why port tag s) := by
  unfold freeze
  split
  · exact .next (.refl s)
  · exact .of_units (by simp)

theorem issueLoad_framed {o : Op} {lat : Nat} {res : Result} (ho : o.cur = s.cur) : Framed s (issueLoad o lat res s) := by
  cases hu : s.cur.unit with
  | tile t => simp only [issueLoad, ho, hu]; exact .of_units (.setTile rfl)
  | seq n => exact .of_seq hu (issueLoad_pcyc ..)

theorem setChan_framed {c : Nat} {x : OrdChan} : Framed s (setChan s.cur.unit c x s) := by
  cases hu : s.cur.unit with
  | tile t => exact .of_units (.setTile rfl)
  | seq n => exact .of_seq hu (setChan_pcyc ..)

theorem checkPort_framed {ok : Bool} {r : StepResult} (hr : NextFramed s r) : NextFramed s (checkPort ok s r) := by
  unfold checkPort
  split
  next n hu =>
    split
    · exact hr
    · exact .next (.of_seq hu (ownFault_pcyc ..))
  · exact hr

theorem tagOp_framed {c : Nat} {k : Nat → State → StepResult} (hk : ∀ n u, NextFramed u (k n u)) : NextFramed s (tagOp c s k) := by
  unfold tagOp
  dsimp only
  split
  · exact hk _ _
  split
  · exact raise_framed
  · exact setChan_framed.then (hk _ _)

theorem nearCheck_framed {ea : Word} {words : Nat} {presence : Bool} {k : Nat → Nat → StepResult} (hk : ∀ mt o, NextFramed s (k mt o)) :
    NextFramed s (nearCheck ea words presence s k) := by
  unfold nearCheck
  dsimp only
  split
  · exact raise_framed
  split
  · exact raise_framed
  split
  · exact raise_framed
  split
  · exact hk _ _
  · exact raise_framed

theorem atomicCheck_framed {a : Word} {scope : Nat} {k : Nat → Nat → StepResult} (hk : ∀ mt o, NextFramed s (k mt o)) :
    NextFramed s (atomicCheck a scope s k) := by
  unfold atomicCheck
  split
  · exact raise_framed
  split
  · exact raise_framed
  split
  · exact raise_framed
  split
  · exact raise_framed
  · exact hk _ _

/-! ## Results of the vector unit -/

theorem deliver_framed {lat t : Nat} {rs : List Result} : Framed s (deliver lat t rs s) := .of_units (deliver_keepsUnits ..)

theorem finishElems_framed {lat w : Nat} {fold : BitVec 2} {d : BitVec 6} {en : Nat → Bool} {f : Nat → Nat} :
    NextFramed s (finishElems lat w fold d en f s) :=
  onTile_framed fun _ => .next deliver_framed

theorem finishWhole_framed {lat : Nat} {fold : BitVec 2} {rs : List Result} : NextFramed s (finishWhole lat fold rs s) :=
  onTile_framed fun _ => by
    split
    · exact .next deliver_framed
    · exact .next (.refl s)

theorem finishCompare_framed {lat w : Nat} {fold : BitVec 2} {d : BitVec 6} {f : Nat → Bool} :
    NextFramed s (finishCompare lat w fold d f s) :=
  onTile_framed fun _ => .next deliver_framed

theorem modRow_framed {f : Nat → Nat → Nat → Nat → Nat} {lat : Nat} {fold : BitVec 2} {d a b c : BitVec 6} {p : BitVec 3}
    {qset : BitVec 2} : NextFramed s (modRow f lat fold d a b c p qset s) :=
  onTile_framed fun _ => .next deliver_framed

/-! ## Tokens and control ports -/

theorem raiseRate_framed {t p : Nat} {x : Port} : NextFramed s (raiseRate t p x s) := .of_units (tileReport_keepsUnits ..)

theorem popBeat_framed {p : Nat} {k : Nat → Token → State → State} (hk : ∀ t tok u, KeepsUnits u (k t tok u)) :
    NextFramed s (popBeat p s k) := by
  refine onTile_framed fun t => ?_
  dsimp only
  split
  · exact freeze_framed
  split
  · exact freeze_framed
  split
  · exact freeze_framed
  split
  · exact raiseRate_framed
  split
  · exact .of_units (by simp)
  · exact .of_units (.trans (by simp) (hk _ _ _))

theorem execPop_framed {fold : BitVec 2} {d a : BitVec 6} : NextFramed s (execPop fold d a s) :=
  popBeat_framed fun _ _ _ => deliver_keepsUnits ..

theorem execPopd_framed {fold : BitVec 2} {a : BitVec 6} : NextFramed s (execPopd fold a s) := popBeat_framed fun _ _ u => .refl u

theorem execPeek_framed {fold : BitVec 2} {d a : BitVec 6} : NextFramed s (execPeek fold d a s) := by
  refine onTile_framed fun t => ?_
  dsimp only
  split
  · exact freeze_framed
  split
  · exact .next (deliver_framed.trans deliver_framed)
  split
  · exact raiseRate_framed
  · exact freeze_framed

theorem sendOnPort_framed {p : Nat} {counted : Bool} {tok : Token} : NextFramed s (sendOnPort p counted tok s) := by
  refine onTile_framed fun t => ?_
  dsimp only
  split
  · exact .next (.refl s)
  split
  · split <;> exact .of_units (by simp)
  · exact freeze_framed

theorem execPunctall_framed : NextFramed s (execPunctall s) := by
  refine onTile_framed fun t => ?_
  dsimp only
  split
  · exact raise_framed
  split
  · exact freeze_framed
  · refine .of_units (.trans (.foldl (fun u e => ?_) _ _) (.setTile rfl))
    split <;> simp

theorem execCret_framed {d : BitVec 6} : NextFramed s (execCret d s) := by
  refine onTile_framed fun t => ?_
  dsimp only
  split
  · exact raise_framed
  split
  · refine Framed.then (.of_units ?_) sendOnPort_framed
    split <;> simp
  · exact freeze_framed

theorem execCsig_framed {d : BitVec 6} : NextFramed s (execCsig d s) :=
  checkPort_framed (Framed.thenFinish (.of_units (sendSignal_keepsUnits ..)))

theorem execOrdj_framed {d a : BitVec 6} : NextFramed s (execOrdj d a s) := by
  refine checkPort_framed ?_
  dsimp only
  split
  · exact Framed.thenFinish (.of_units (sendSignal_keepsUnits ..))
  · exact setChan_framed.thenFinish

/-! ## Accesses -/

theorem nearLoad_framed {kind : OpKind} {ea : Word} {words : Nat} {presence vec : Bool} {d : BitVec 6} :
    NextFramed s (nearLoad kind ea words presence vec d s) :=
  nearCheck_framed fun _ _ => Framed.thenFinish ((issueLoad_framed rfl).trans (.of_units (.refl _)))

theorem nearStore_framed {kind : OpKind} {ea : Word} {words : Nat} {presence : Bool} {ch : Nat} :
    NextFramed s (nearStore kind ea words presence ch s) :=
  nearCheck_framed fun _ _ => tagOp_framed fun _ _ => Framed.thenFinish (.of_units (toBanks_keepsUnits ..))

theorem execPclr_framed {a b : BitVec 6} : NextFramed s (execPclr a b s) := by
  unfold execPclr
  dsimp only
  split
  · exact finish_framed
  refine nearCheck_framed fun mt o => ?_
  split
  · split
    · exact raise_framed
    · exact Framed.thenFinish (.of_units (toBanks_keepsUnits ..))
  · exact raise_framed

theorem execAgset_framed {d a : BitVec 6} : NextFramed s (execAgset d a s) :=
  onTile_framed fun _ => nearCheck_framed fun _ _ => Framed.thenFinish ((issueLoad_framed rfl).trans (.of_units (.refl _)))

theorem genAccess_framed {ag : BitVec 6} {k : Nat → Nat → State → State} (hk : ∀ mt o, Framed s (k mt o s)) :
    NextFramed s (genAccess ag s k) := by
  unfold genAccess
  extract_lets p l g n open_ o takers r src
  split
  · exact ((hk _ _).trans (.of_units ((giveOffsets_keepsUnits ..).trans (setGen_keepsUnits ..)))).thenFinish
  · exact raise_framed

theorem execAgld_framed {d a : BitVec 6} : NextFramed s (execAgld d a s) :=
  onTile_framed fun _ => genAccess_framed fun _ _ => (issueLoad_framed rfl).trans (.of_units (.refl _))

theorem execAgst_framed {d a : BitVec 6} : NextFramed s (execAgst d a s) :=
  onTile_framed fun _ => genAccess_framed fun _ _ => .of_units (toBanks_keepsUnits ..)

theorem atomic_framed {sub : Nat} {d : Option (BitVec 6)} {a b c : BitVec 6} {oc scope : BitVec 3} :
    NextFramed s (atomic sub d a b c oc scope s) := by
  refine atomicCheck_framed fun mt o => tagOp_framed fun n u => ?_
  refine Framed.thenFinish (.trans ?_ (.of_units (toPipeline_keepsUnits ..)))
  split
  · exact issueLoad_framed rfl
  · exact .of_units (by simp)

theorem ramo_framed {sub : Nat} {d a b c : BitVec 6} {oc : BitVec 3} : NextFramed s (ramo sub d a b c oc s) := by
  unfold ramo
  dsimp only
  split
  · exact raise_framed
  split
  · exact raise_framed
  split
  · exact raise_framed
  refine tagOp_framed fun n u => ?_
  split <;> exact Framed.thenFinish ((issueLoad_framed rfl).trans (.of_units (.refl _)))

/-! ## The tensor unit -/

theorem putSetting_framed {x : TSetting} : NextFramed s (putSetting x s) := onTile_framed fun _ => .of_units (setTensor_keepsUnits ..)

theorem execTdef_framed {d a b c : BitVec 6} {flags : BitVec 4} : NextFramed s (execTdef d a b c flags s) := by
  refine onTile_framed fun t => ?_
  dsimp only
  split
  · exact raise_framed
  split
  · exact raise_framed
  · exact raise_framed
  split
  · exact raise_framed
  split
  · exact raise_framed
  split
  · exact raise_framed
  · exact putSetting_framed

/-- Arming outside a systolic group (R323). -/
theorem armUnless_framed {free : Bool} {ts : Nat} {x : TSetting} :
    NextFramed s (if free then raiseTensor 7 ts 0 0 s else putSetting x s) := by
  split
  · exact raise_framed
  · exact putSetting_framed

theorem execTarm_framed {d : BitVec 6} : NextFramed s (execTarm d s) := by
  refine onTile_framed fun t => ?_
  dsimp only
  split
  · split
    · split
      · split
        · exact raise_framed
        split
        · exact raise_framed
        · exact freeze_framed
        · exact .of_units (setGroup_keepsUnits ..)
      · exact raise_framed
    · exact armUnless_framed
  · exact armUnless_framed

theorem sendTag_framed {full : Bool} {a : BitVec 6} : NextFramed s (sendTag full a s) := onTile_framed fun _ => .of_units (by simp)

theorem execTread_framed {d a b : BitVec 6} : NextFramed s (execTread d a b s) := onTile_framed fun _ => .next (issueLoad_framed rfl)

theorem tensorStat_framed {slot : Bool} {d a : BitVec 6} : NextFramed s (tensorStat slot d a s) :=
  onTile_framed fun _ => .next (issueLoad_framed rfl)

theorem execTstore_framed {a b : BitVec 6} {ft : BitVec 3} {rm : BitVec 4} : NextFramed s (execTstore a b ft rm s) := by
  refine onTile_framed fun t => ?_
  dsimp only
  split
  · exact freeze_framed
  · exact .of_units (setTensor_keepsUnits ..)

theorem execTaccz_framed {d : BitVec 6} : NextFramed s (execTaccz d s) := onTile_framed fun _ => .of_units (setTensor_keepsUnits ..)

theorem execTwload_framed {a : BitVec 6} : NextFramed s (execTwload a s) := by
  refine onTile_framed fun t => ?_
  dsimp only
  split
  · exact raise_framed
  split
  · exact raise_framed
  · exact .of_units (by simp)

theorem execTloop_framed {d : BitVec 6} {stride : BitVec 12} {count span : BitVec 10} : NextFramed s (execTloop d stride count span s) :=
  onTile_framed fun _ => .of_units (.setTile rfl)

end shared

/-! ## Instructions of sequencer code

Each branch of such a meaning goes on behind changes whose clock the lemmas above give. -/

section sequencers
variable {k n : Nat} {s : State}

@[simp] theorem stay_at {r : RunState} : NextAt k (stay n r s) ↔ s.pcyc = k := nextIs_next
@[simp] theorem passOn_at : NextAt k (passOn n s) ↔ s.pcyc = k := nextIs_next
@[simp] theorem issueAndStay_at {r : RunState} : NextAt k (issueAndStay n r s) ↔ s.pcyc = k := nextIs_next
@[simp] theorem passIssued_at : NextAt k (passIssued n s) ↔ s.pcyc = k := nextIs_next
@[simp] theorem finishFree_at : NextAt k (finishFree n s) ↔ s.pcyc = k := nextIs_next
@[simp] theorem finishOpen_at {d : BitVec 6} {v : Word} : NextAt k (finishOpen n d v s) ↔ s.pcyc = k := nextIs_next
@[simp] theorem graphFault_at {reason : Nat} : NextAt k (graphFault n reason s) ↔ s.pcyc = k := by simp [graphFault]
@[simp] theorem ctxFault_at {reason : Nat} : NextAt k (ctxFault n reason s) ↔ s.pcyc = k := by simp [ctxFault]
@[simp] theorem snapFault_at {reason : Nat} : NextAt k (snapFault n reason s) ↔ s.pcyc = k := by simp [snapFault]
@[simp] theorem rankFault_at {reason : Nat} : NextAt k (rankFault n reason s) ↔ s.pcyc = k := by simp [rankFault]
@[simp] theorem jumpReg_at {t : Word} {link : Seq → Seq} : NextAt k (jumpReg n t s link) ↔ s.pcyc = k := by simp [jumpReg]

@[simp] theorem finish_at : NextAt k (finish s) ↔ s.pcyc = k := by
  unfold finish
  split <;> simp

@[simp] theorem finishScalar_at {lat : Nat} {d : BitVec 6} {v : Word} : NextAt k (finishScalar lat d v s) ↔ s.pcyc = k := by
  unfold finishScalar
  split <;> simp

theorem checkPort_at {ok : Bool} {r : StepResult} (h : s.pcyc = k) (hr : NextAt k r) : NextAt k (checkPort ok s r) := by
  unfold checkPort
  split
  · split
    · exact hr
    · simpa using h
  · exact hr

theorem execFence_framed {scope : BitVec 3} : NextFramed s (execFence scope s) := onSeq_framed fun n => by simp

theorem execPginv_framed {a b : BitVec 6} {scope : BitVec 4} : NextFramed s (execPginv a b scope s) := by
  refine onSeq_framed fun n => ?_
  (repeat' split) <;> simp

theorem execPgfence_framed {scope : BitVec 4} : NextFramed s (execPgfence scope s) := by
  refine onSeq_framed fun n => ?_
  (repeat' split) <;> simp

theorem execPgstat_framed {d a : BitVec 6} : NextFramed s (execPgstat d a s) := by
  refine onSeq_framed fun n => ?_
  dsimp only
  (repeat' split) <;> simp

theorem execSetmode_framed {a : BitVec 6} {mode : BitVec 3} : NextFramed s (execSetmode a mode s) := by
  refine onSeq_framed fun n => ?_
  dsimp only
  (repeat' split) <;> simp

theorem execGact_framed {a : BitVec 6} : NextFramed s (execGact a s) := by
  refine onSeq_framed fun n => ?_
  dsimp only
  (repeat' split) <;> simp

theorem execGdrain_framed {a : BitVec 6} : NextFramed s (execGdrain a s) := by
  refine onSeq_framed fun n => ?_
  dsimp only
  (repeat' split) <;> simp

theorem execGunld_framed {a : BitVec 6} : NextFramed s (execGunld a s) := by
  refine onSeq_framed fun n => ?_
  dsimp only
  (repeat' split) <;> simp

theorem execGld_framed {d a b : BitVec 6} : NextFramed s (execGld d a b s) := by
  refine onSeq_framed fun n => ?_
  dsimp only
  (repeat' split) <;> simp

theorem execGstat_framed {d a : BitVec 6} : NextFramed s (execGstat d a s) := by
  refine onSeq_framed fun n => ?_
  dsimp only
  (repeat' split) <;> simp

theorem execMstat_framed {d a : BitVec 6} : NextFramed s (execMstat d a s) := by
  refine onSeq_framed fun n => ?_
  dsimp only
  (repeat' split) <;> simp

theorem execGpatch_framed {d a : BitVec 6} {tag : BitVec 12} : NextFramed s (execGpatch d a tag s) := by
  refine onSeq_framed fun n => ?_
  dsimp only
  (repeat' split) <;> simp

theorem execRkset_framed {a b : BitVec 6} : NextFramed s (execRkset a b s) := by
  refine onSeq_framed fun n => ?_
  dsimp only
  (repeat' split) <;> simp

theorem execRkget_framed {d a : BitVec 6} : NextFramed s (execRkget d a s) := onSeq_framed fun n => by simp

theorem execBr_framed {target : BitVec 26} : NextFramed s (execBr target s) := onSeq_framed fun n => by simp

theorem branchIf_framed {rel : Word → Word → Bool} {d a : BitVec 6} {target : BitVec 26} : NextFramed s (branchIf rel d a target s) :=
  onSeq_framed fun n => by simp

theorem execCall_framed {d : BitVec 6} {target : BitVec 26} : NextFramed s (execCall d target s) := onSeq_framed fun n => by simp

theorem execJr_framed {a : BitVec 6} : NextFramed s (execJr a s) := onSeq_framed fun n => by simp

theorem execJalr_framed {d a : BitVec 6} : NextFramed s (execJalr d a s) := onSeq_framed fun n => by simp

theorem execLoop_framed {d : BitVec 6} {count span : BitVec 16} : NextFramed s (execLoop d count span s) := onSeq_framed fun n => by simp

theorem execLoopr_framed {d a : BitVec 6} {span : BitVec 16} : NextFramed s (execLoopr d a span s) := onSeq_framed fun n => by simp

theorem execTsysto_framed {on : BitVec 1} : NextFramed s (execTsysto on s) := by
  refine onSeq_framed fun n => ?_
  (repeat' split) <;> simp

theorem execTrap_framed {code : BitVec 16} : NextFramed s (execTrap code s) := onSeq_framed fun n => by simp

theorem execTret_framed : NextFramed s (execTret s) := onSeq_framed fun n => by simp

theorem execMtsr_framed {a : BitVec 6} {sr : BitVec 16} : NextFramed s (execMtsr a sr s) := by
  refine onSeq_framed fun n => ?_
  dsimp only
  (repeat' split) <;> simp

theorem execIdle_framed : NextFramed s (execIdle s) := onSeq_framed fun n => by simp

theorem execCload_framed {a : BitVec 6} : NextFramed s (execCload a s) := by
  refine onSeq_framed fun n => ?_
  (repeat' split) <;> simp

theorem execSnapq_framed {d a : BitVec 6} : NextFramed s (execSnapq d a s) := onSeq_framed fun n => by simp

theorem execSnapw_framed {a : BitVec 6} : NextFramed s (execSnapw a s) := by
  refine onSeq_framed fun n => ?_
  dsimp only
  (repeat' split) <;> simp

theorem execCwait_framed {a : BitVec 6} : NextFramed s (execCwait a s) := by
  refine onSeq_framed fun n => checkPort_at rfl ?_
  dsimp only
  (repeat' split) <;> simp

theorem execCtest_framed {d a : BitVec 6} : NextFramed s (execCtest d a s) :=
  onSeq_framed fun n => checkPort_at rfl (by simp)

end sequencers

/-! ## Accesses of the part -/

/-- What is said of the state in which an access of the part ends, if it is not held. -/
inductive EndIs (Q : State → Prop) {α : Type} : PartEnd α → Prop
  | ok {a : α} {s : State} (h : Q s) : EndIs Q (.ok a s)
  | hold {c va : Nat} : EndIs Q (.hold c va)
  | fault {s : State} (h : Q s) : EndIs Q (.fault s)

section ends
variable {Q R : State → Prop} {α β : Type} {e : PartEnd α}

theorem EndIs.of_ok {a : α} {u : State} (he : EndIs Q e) (h : e = .ok a u) : Q u := by
  cases he <;> cases h; assumption

theorem EndIs.of_fault {u : State} (he : EndIs Q e) (h : e = .fault u) : Q u := by
  cases he <;> cases h; assumption

theorem EndIs.imp (he : EndIs Q e) (h : ∀ u, Q u → R u) : EndIs R e := by
  cases he with
  | ok hu => exact .ok (h _ hu)
  | hold => exact .hold
  | fault hu => exact .fault (h _ hu)

theorem EndIs.bind {k : α → State → PartEnd β} (he : EndIs Q e) (hk : ∀ a u, Q u → EndIs Q (k a u)) : EndIs Q (e.bind k) := by
  cases he with
  | ok h => exact hk _ _ h
  | hold => exact .hold
  | fault h => exact .fault h

end ends

/-- A state has the clock, the peers' memory and near memory of another one: it may write device memory. -/
@[simp] abbrev KeepsAside (s u : State) : Prop := u.pcyc = s.pcyc ∧ u.peerMem = s.peerMem ∧ u.near = s.near

theorem KeepsAside.trans {s u w : State} (h : KeepsAside s u) (h' : KeepsAside u w) : KeepsAside s w := by
  obtain ⟨hc, hp, hn⟩ := h
  obtain ⟨hc', hp', hn'⟩ := h'
  exact ⟨hc'.trans hc, hp'.trans hp, hn'.trans hn⟩

/-- An access of the part that ends in a state with the clock, the peers' memory and near memory of `s`. -/
abbrev EndAside (s : State) {α : Type} (e : PartEnd α) : Prop := EndIs (KeepsAside s) e

section parts
variable {α β : Type} {s : State}

theorem EndAside.ok {a : α} {u : State} (h : KeepsAside s u) : EndAside s (.ok a u) := EndIs.ok h

/-- Two accesses, one behind the other. -/
theorem EndAside.then {e : PartEnd α} {k : α → State → PartEnd β} (he : EndAside s e) (hk : ∀ a u, EndAside u (k a u)) :
    EndAside s (e.bind k) :=
  he.bind fun a u hu => (hk a u).imp fun _ hw => hu.trans hw

/-- An access behind a change of the state. -/
theorem EndAside.behind {u : State} {e : PartEnd α} (h : KeepsAside s u) (he : EndAside u e) : EndAside s e :=
  he.imp fun _ hw => h.trans hw

theorem partWalk_aside {die ctx va : Nat} : EndAside s (partWalk die ctx va s) := by
  unfold partWalk
  dsimp only
  split
  · exact .fault (by simp)
  split
  · exact .hold
  split
  · exact .ok (by simp)
  · exact .fault (by simp)

theorem partLeaf_aside {die ctx va : Nat} {need : Need} : EndAside s (partLeaf die ctx va need s) := by
  unfold partLeaf
  split
  · exact .fault (by simp)
  refine .then ?_ fun t u => ?_
  · split
    · split
      · exact partWalk_aside
      · exact .ok (by simp)
    · exact partWalk_aside
  · split
    · exact .ok (by simp)
    · exact .fault (by simp)

@[simp] theorem writePhys_aside (pa n v : Nat) (s : State) : KeepsAside s (writePhys pa n v s) := by simp [writePhys]

@[simp] theorem updLeaf_aside (place : Nat) (f : Word → Word) (s : State) : KeepsAside s (updLeaf place f s) := writePhys_aside ..

@[simp] theorem setDirty_aside (die : Nat) (t : TlbEntry) (s : State) : KeepsAside s (setDirty die t s) := by simp [setDirty]

theorem partPa_aside {die ctx va : Nat} {need : Need} : EndAside s (partPa die ctx va need s) :=
  partLeaf_aside.then fun t u => by
    split
    · exact .hold
    · split
      · exact .ok (setDirty_aside ..)
      · exact .ok (by simp)

theorem partChunks_aside {die : Nat → Nat} {ctx va : Nat} {need : Need} {k : Nat → Nat → State → State}
    (hk : ∀ i pa u, KeepsAside u (k i pa u)) (n i : Nat) : EndAside s (partChunks die ctx va need k n i s) := by
  induction n generalizing i s with
  | zero => exact .ok (by simp)
  | succ n ih => exact partPa_aside.then fun pa u => (ih _).behind (hk _ _ _)

theorem cellarAccess_is {Q : State → Prop} {ctx n : Nat} {near far : State → PartEnd α} (hs : Q s) (hbad : ∀ x, Q (s.setCtx ctx x))
    (hn : EndIs Q (near s)) (hf : EndIs Q (far (sendCellar ctx n s))) : EndIs Q (cellarAccess ctx n s near far) := by
  unfold cellarAccess
  dsimp only
  split
  · exact .fault (hbad _)
  split
  · exact hn
  split
  · exact hf
  · exact .fault hs

theorem readCellar_aside {die ctx off n : Nat} : EndAside s (readCellar die ctx off s n) := by
  induction n generalizing off s with
  | zero => exact .ok (by simp)
  | succ n ih =>
    refine .then (cellarAccess_is (by simp) (by simp) ?_ (.ok (by simp))) fun _ u => ih
    exact partPa_aside.then fun _ u => .ok (by simp)

/-! ## Saves (R366, R371) -/

theorem saveAccess_aside {c : Nat} {k : State → PartEnd Unit} (hk : EndAside s (k s)) : EndAside s (saveAccess c s k) := by
  unfold saveAccess
  split
  · exact .fault (by simp)
  · exact hk

theorem writeArea_aside {c pcyc : Nat} {v : Saved} : EndAside s (writeArea c pcyc v s) := by
  refine saveAccess_aside (.then ?_ fun _ u => partPa_aside.then fun pa w => .ok (writePhys_aside ..))
  exact .behind (by simp) (partChunks_aside (fun _ _ _ => by simp) _ _)

theorem clearValid_aside {c : Nat} : EndAside s (clearValid c s) :=
  saveAccess_aside (partPa_aside.then fun _ _ => .ok (writePhys_aside ..))

theorem endSave_aside {c pcyc : Nat} {v : Saved} : EndAside s (endSave c pcyc v s) := writeArea_aside.then fun _ _ => .ok (by simp)

theorem beginSave_aside {c : Nat} {drain : Bool} {at_ : Nat} : EndAside s (beginSave c drain at_ s) :=
  clearValid_aside.then fun _ u => by
    split
    · exact endSave_aside
    split
    · exact .ok (by simp)
    · exact .ok (by simp)

/-- A step that goes on with the clock, the peers' memory and near memory of `s`. -/
abbrev NextAside (s : State) (r : StepResult) : Prop := NextIs (KeepsAside s) r

theorem NextAside.behind {u : State} {r : StepResult} (h : KeepsAside s u) (hr : NextAside u r) : NextAside s r :=
  hr.imp fun _ hw => h.trans hw

variable {n : Nat}

theorem stay_aside {r : RunState} : NextAside s (stay n r s) := .next (by simp)
theorem issueAndStay_aside {r : RunState} : NextAside s (issueAndStay n r s) := .next (by simp)
theorem passIssued_aside : NextAside s (passIssued n s) := .next (by simp)
theorem ctxFault_aside {reason : Nat} : NextAside s (ctxFault n reason s) := .next (by simp)
theorem snapFault_aside {reason : Nat} : NextAside s (snapFault n reason s) := .next (by simp)

theorem finish_aside : NextAside s (finish s) := by
  unfold finish
  split <;> exact .next (by simp)

theorem onSeq_aside {f : Nat → StepResult} (hf : ∀ n, NextAside s (f n)) : NextAside s (onSeq s f) := by
  unfold onSeq
  split
  · exact hf _
  · exact .refused _

theorem execCsave_aside {a : BitVec 6} : NextAside s (execCsave a s) := by
  refine onSeq_aside fun n => ?_
  dsimp only
  split
  · split
    · exact passIssued_aside
    · exact stay_aside
  split
  · exact ctxFault_aside
  split
  · exact ctxFault_aside
  split
  · exact ctxFault_aside
  split
  · rename_i heq
    refine .behind (beginSave_aside.of_ok heq) (.behind ?_ issueAndStay_aside)
    split <;> simp
  · rename_i heq
    exact .behind (beginSave_aside.of_fault heq) (.behind (by simp) issueAndStay_aside)
  · exact .behind (by simp) stay_aside

/-! ## Rollbacks (R421 to R426) -/

theorem readDescriptor_aside {c : Nat} {k : Option Nat → State → StepResult} (hk : ∀ w u, NextAside u (k w u)) :
    NextAside s (readDescriptor n c s k) := by
  unfold readDescriptor
  split
  · rename_i heq
    exact .behind (partPa_aside.of_ok heq) (hk _ _)
  · rename_i heq
    exact .behind (partPa_aside.of_fault heq) (hk _ _)
  · exact .behind (by simp) stay_aside

theorem foldl_aside {γ : Type} {f : State → γ → State} (hf : ∀ u x, KeepsAside u (f u x)) (l : List γ) (s : State) :
    KeepsAside s (l.foldl f s) :=
  List.foldlRecOn l f (motive := KeepsAside s) (by simp) fun _ hu x _ => hu.trans (hf _ x)

theorem rollContext_aside {c : Nat} {p : Snap} : KeepsAside s (rollContext c p s) := by
  unfold rollContext
  extract_lets slots s₁ s₂ s₃ pages s₄ x s₅
  have h₁ : KeepsAside s s₁ := by simp [s₁]
  have h₂ : KeepsAside s₁ s₂ := foldl_aside (fun _ _ => by simp) _ _
  have h₃ : KeepsAside s₂ s₃ := foldl_aside (fun _ _ => by simp) _ _
  have h₄ : KeepsAside s₃ s₄ := foldl_aside (fun _ _ => by
    split
    · exact updLeaf_aside ..
    · simp) _ _
  refine .trans (h₁.trans (h₂.trans (h₃.trans h₄))) ?_
  split <;> simp [s₅]

theorem rollBack_aside {c : Nat} {p : Snap} : KeepsAside s (rollBack n c p s) :=
  (rollContext_aside (c := c) (p := p)).trans (by simp [rollBack])

theorem execRollb_aside {a : BitVec 6} : NextAside s (execRollb a s) := by
  refine onSeq_aside fun n => ?_
  dsimp only
  split
  · split
    · exact passIssued_aside
    split
    · exact stay_aside
    split
    · rename_i heq
      exact .next ((readCellar_aside.of_ok heq).trans rollBack_aside)
    · exact .behind (by simp) stay_aside
    · rename_i heq
      exact .behind (readCellar_aside.of_fault heq) (.behind (by simp) passIssued_aside)
  · refine readDescriptor_aside fun w u => ?_
    split
    · refine .behind ?_ issueAndStay_aside
      split <;> simp
    · exact snapFault_aside

theorem execSnap_aside {ident : BitVec 16} {scope : BitVec 4} : NextAside s (execSnap ident scope s) :=
  onSeq_aside fun n => readDescriptor_aside fun w u => by
    split
    · refine .behind ?_ finish_aside
      split <;> simp
    · exact snapFault_aside

end parts

/-! ## Loads and stores of sequencer code

A store captures the old page first where a snapshot is open (R401), and so may write the cellar in a peer's memory: only the clock stays. -/

section stores
variable {k : Nat} {s : State} {α : Type}

/-- An access of the part that ends at the clock `k`. -/
abbrev EndAt (k : Nat) {α : Type} (e : PartEnd α) : Prop := EndIs (fun u => u.pcyc = k) e

theorem EndAside.at {e : PartEnd α} (he : EndAside s e) (h : s.pcyc = k) : EndAt k e := he.imp fun _ hu => hu.1.trans h

theorem toCellar_at {die ctx pa off n : Nat} (h : s.pcyc = k) : EndAt k (toCellar die ctx pa off s n) := by
  induction n generalizing pa off s with
  | zero => exact .ok h
  | succ n ih =>
    refine .bind (cellarAccess_is h (fun _ => h) ?_ (.ok (by simpa using h))) fun _ u hu => ih hu
    exact (partPa_aside.at h).bind fun q w hw => .ok (by simpa using hw)

theorem capture_at {ctx va place : Nat} {e : Word} : EndAt s.pcyc (capture ctx va e place s) := by
  unfold capture
  extract_lets x n done die
  have hdone : ∀ r fresh (u : State), u.pcyc = s.pcyc → (done r fresh u).pcyc = s.pcyc := fun r fresh u hu => by simpa [done] using hu
  split
  · exact .ok rfl
  split
  · exact .ok (hdone _ _ _ rfl)
  split
  · exact .ok (by simp)
  split
  · exact .hold
  split
  · exact .ok (by simp)
  split
  · rename_i heq
    exact .ok (hdone _ _ _ ((toCellar_at (by simp)).of_ok heq))
  · exact .hold
  · rename_i heq
    exact .ok (by simpa using (toCellar_at (k := s.pcyc) (by simp)).of_fault heq)

theorem captureFor_at {ctx va place : Nat} : EndAt s.pcyc (captureFor ctx va place s) := by
  unfold captureFor
  dsimp only
  split
  · exact capture_at
  · exact .ok rfl

/-- What is said of the state that a translation leaves behind, unless it is denied. -/
inductive XlationIs (Q : State → Prop) : Xlation → Prop
  | ok {pa page : Nat} {s : State} (h : Q s) : XlationIs Q (.ok pa page s)
  | miss {s : State} (h : Q s) : XlationIs Q (.miss s)
  | denied : XlationIs Q .denied

theorem XlationIs.of_ok {Q : State → Prop} {e : Xlation} {pa page : Nat} {u : State} (he : XlationIs Q e) (h : e = .ok pa page u) : Q u := by
  cases he <;> cases h; assumption

theorem XlationIs.of_miss {Q : State → Prop} {e : Xlation} {u : State} (he : XlationIs Q e) (h : e = .miss u) : Q u := by
  cases he <;> cases h; assumption

theorem translate_at {die ctx va : Nat} {need : Need} {m : Bool} : XlationIs (fun u => u.pcyc = s.pcyc) (translate die ctx va need m s) := by
  unfold translate
  split
  · exact .miss rfl
  split
  · exact .denied
  extract_lets pa same rest
  have hrest : ∀ u : State, u.pcyc = s.pcyc → XlationIs (fun w => w.pcyc = s.pcyc) (rest u) := fun u hu => by
    dsimp only [rest]
    split
    · exact .miss hu
    split
    · exact .ok hu
    split
    · exact .miss (by simpa using hu)
    · exact .ok (by simpa using hu)
  split
  · exact .ok rfl
  split
  · split
    · rename_i heq
      exact hrest _ (captureFor_at.of_ok heq)
    · rename_i heq
      exact hrest _ (captureFor_at.of_fault heq)
    · exact .miss (by simp)
  · exact hrest s rfl

/-- A translation for reading alone leaves the state as it is. -/
theorem translate_read {die ctx va : Nat} {m : Bool} : XlationIs (· = s) (translate die ctx va .read m s) := by
  unfold translate
  split
  · exact .miss rfl
  split
  · exact .denied
  dsimp only
  split
  · exact .ok rfl
  · rename_i h
    exact absurd rfl h

theorem seqAccess_at {n va : Nat} {need : Need} {f : Nat → Nat → State → StepResult}
    (hf : ∀ pa page u, u.pcyc = s.pcyc → NextAt s.pcyc (f pa page u)) : NextAt s.pcyc (seqAccess n va need s f) := by
  unfold seqAccess
  dsimp only
  split
  · simp
  split
  · simp
  split
  · simp
  split
  · rename_i heq
    exact hf _ _ _ (translate_at.of_ok heq)
  · simp
  · rename_i heq
    simpa using translate_at.of_miss heq

theorem seqAccess_read_has {P : Memory → Memory → Memory → Prop} {n va : Nat} {f : Nat → Nat → State → StepResult} (h : s.Has P)
    (hf : ∀ pa page, NextHas P (f pa page s)) : NextHas P (seqAccess n va .read s f) := by
  unfold seqAccess
  dsimp only
  split
  · simpa using h
  split
  · simpa using h
  split
  · simpa using h
  split
  · rename_i heq
    cases translate_read.of_ok heq
    exact hf _ _
  · simpa using h
  · rename_i heq
    cases translate_read.of_miss heq
    simpa using h

theorem dramLoad_framed {bytes : Nat} {signed : Bool} {d a : BitVec 6} {imm : BitVec 26} : NextFramed s (dramLoad bytes signed d a imm s) :=
  onSeq_framed fun n => by
    dsimp only
    split
    · simp
    · exact seqAccess_at fun pa page u hu => by simpa using hu

theorem dramStore_framed {bytes : Nat} {d a : BitVec 6} {imm : BitVec 26} : NextFramed s (dramStore bytes d a imm s) :=
  onSeq_framed fun n => by
    dsimp only
    split
    · simp
    · exact seqAccess_at fun pa page u hu => by simpa using hu

theorem execCarm_framed {a : BitVec 6} {tag : BitVec 12} : NextFramed s (execCarm a tag s) :=
  onSeq_framed fun n => by
    dsimp only
    split
    · simp
    split
    · simp
    split
    · simp
    split
    · simp
    refine seqAccess_at fun pa page u hu => ?_
    split
    · simpa using hu
    split
    · simpa using hu
    · simpa using hu

/-- An instruction of sequencer code that keeps the clock is framed: no compute tile issues it. -/
theorem onSeq_framed_of_aside {f : Nat → StepResult} (h : NextAside s (onSeq s f)) : NextFramed s (onSeq s f) := by
  cases hu : s.cur.unit with
  | tile t => rw [onSeq_tile s hu]; exact .refused _
  | seq n => exact h.imp fun u hk => .of_seq hu hk.1

theorem execCsave_framed {a : BitVec 6} : NextFramed s (execCsave a s) := onSeq_framed_of_aside execCsave_aside

theorem execRollb_framed {a : BitVec 6} : NextFramed s (execRollb a s) := onSeq_framed_of_aside execRollb_aside

theorem execSnap_framed {ident : BitVec 16} {scope : BitVec 4} : NextFramed s (execSnap ident scope s) :=
  onSeq_framed_of_aside execSnap_aside

/-! ## Reads write no byte -/

section reads
variable {P : Memory → Memory → Memory → Prop}

theorem partPa_read_has {die ctx va : Nat} (h : s.Has P) : EndHas P (partPa die ctx va .read s) := by
  refine (partLeaf_has h).bind fun t u hu => ?_
  split
  · exact .hold
  · exact .ok (by simpa [Need.writes] using hu)

theorem dramLoad_has {bytes : Nat} {signed : Bool} {d a : BitVec 6} {imm : BitVec 26} (h : s.Has P) :
    NextHas P (dramLoad bytes signed d a imm s) :=
  onSeq_has fun n => by
    dsimp only
    split
    · simpa using h
    · exact seqAccess_read_has h fun pa page => finish_has (by simpa using h)

theorem execCarm_has {a : BitVec 6} {tag : BitVec 12} (h : s.Has P) : NextHas P (execCarm a tag s) :=
  onSeq_has fun n => by
    dsimp only
    split
    · exact graphFault_has h
    split
    · exact finish_has (by simpa using h)
    split
    · simpa using h
    split
    · exact stay_has h
    refine seqAccess_read_has h fun pa page => ?_
    split
    · simpa using h
    split
    · exact graphFault_has h
    · exact passOn_has (by simpa using h)

theorem readDescriptor_has {n c : Nat} {k : Option Nat → State → StepResult} (h : s.Has P)
    (hk : ∀ w u, u.Has P → NextHas P (k w u)) : NextHas P (readDescriptor n c s k) := by
  unfold readDescriptor
  split
  · rename_i heq
    exact hk _ _ ((partPa_read_has h).of_ok heq)
  · rename_i heq
    exact hk _ _ ((partPa_read_has h).of_fault heq)
  · exact stay_has (by simpa using h)

theorem execSnap_has {ident : BitVec 16} {scope : BitVec 4} (h : s.Has P) : NextHas P (execSnap ident scope s) :=
  onSeq_has fun n => readDescriptor_has h fun w u hu => by
    split
    · refine finish_has ?_
      split <;> simpa using hu
    · exact snapFault_has hu

end reads

end stores

/-! ## Draws and kicks -/

section draws
variable {s : State}

theorem execCkick_framed {a : BitVec 6} {tag : BitVec 12} : NextFramed s (execCkick a tag s) := by
  cases hu : s.cur.unit with
  | tile t =>
    simp only [execCkick, hu]
    split
    · exact .of_units (sendToken_keepsUnits ..)
    · exact freeze_framed
  | seq n =>
    refine NextIs.imp (Q := fun u => u.pcyc = s.pcyc) ?_ fun u => .of_seq hu
    simp only [execCkick, hu]
    (repeat' split) <;> simp

theorem execSpawn_framed {d a : BitVec 6} {tag : BitVec 12} : NextFramed s (execSpawn d a tag s) := by
  cases hu : s.cur.unit with
  | tile t =>
    simp only [execSpawn, hu]
    split
    · exact freeze_framed
    · exact .of_units (.trans (askColour_keepsUnits ..) (.setTile rfl))
  | seq n =>
    refine NextIs.imp (Q := fun u => u.pcyc = s.pcyc) ?_ fun u => .of_seq hu
    simp only [execSpawn, hu]
    (repeat' split) <;> simp

end draws

/-! ## Every instruction -/

theorem execVcvt_framed {fold : BitVec 2} {d a src : BitVec 6} {p : BitVec 3} {rm dst : BitVec 4} {s : State} :
    NextFramed s (execVcvt fold d a src p rm dst s) := by
  unfold execVcvt
  dsimp only
  split
  · exact finishElems_framed
  · exact finishWhole_framed

theorem exec_framed {i : Instr} {s : State} (hi : i.isInstruction = true) : NextFramed s (exec i s) := by
  unfold exec
  cases i with
  | nop => exact finish_framed
  | br => exact execBr_framed
  | beq | bne | blt | bge | bltu | bgeu => exact branchIf_framed
  | call => exact execCall_framed
  | jr => exact execJr_framed
  | jalr => exact execJalr_framed
  | loop => exact execLoop_framed
  | loopr => exact execLoopr_framed
  | tloop => exact execTloop_framed
  | add | sub | and | or | xor | sll | srl | sra | mul | mulh | mulhu | min | max | minu | maxu => exact finishScalar_framed
  | addi | andi | ori | xori | slli | srli | srai | muli | mini | maxi => exact finishScalar_framed
  | div | divu | rem | remu | seq | sne | slt | sge | sltu | sgeu => exact finishScalar_framed
  | seqi | snei | slti | sgei | sltui | sgeui => exact finishScalar_framed
  | bfx | bfxu => exact finishScalar_framed
  | bfi => exact finishScalar_framed
  | clz | ctz | popc | brev | bswap => exact finishScalar_framed
  | li | lih | mov | lea => exact finishScalar_framed
  | ld | ldI8 | ldUi8 | ldI16 | ldUi16 | ldI32 | ldUi32 => exact dramLoad_framed
  | st | stI8 | stI16 | stI32 => exact dramStore_framed
  | mfsr => exact finishScalar_framed
  | vaddInt | vsubInt | vmulInt | vmulh | vminInt | vmaxInt | vabsInt | vnegInt | vadds | vsubs | vavg | vmad => exact finishElems_framed
  | vand | vor | vxor | vandn | vnot | vmov => exact finishElems_framed
  | vsll | vsrl | vsra | vrol => exact finishElems_framed
  | vslls | vsrls | vsras => exact finishElems_framed
  | vcmpeqInt | vcmpneInt | vcmpltInt | vcmpleInt | vcmpgtInt | vcmpgeInt => exact finishCompare_framed
  | vsel | vsplat => exact finishElems_framed
  | vext => exact finishWhole_framed
  | vins | viota => exact finishElems_framed
  | vaddFp | vsubFp | vmulFp | vfma | vfms | vfnma => exact finishElems_framed
  | vminFp | vmaxFp | vabsFp | vnegFp => exact finishElems_framed
  | vdiv | vsqrt => exact finishElems_framed
  | vcmpeqFp | vcmpneFp | vcmpltFp | vcmpleFp | vcmpgtFp | vcmpgeFp | vcmpun => exact finishCompare_framed
  | vli => exact finishElems_framed
  | vcvt => exact execVcvt_framed
  | vquant => exact finishWhole_framed
  | vdequant => exact finishWhole_framed
  | vlq2 => exact finishWhole_framed
  | vscale => exact finishWhole_framed
  | vexp2 | vlog2 | vrcp | vrsqrt | vtanh | vsigm => exact finishElems_framed
  | vredsum | vredmin | vredmax | vredminu | vredmaxu | vredand | vredor => exact finishWhole_framed
  | vscan | vscanx | vscanmax => exact finishWhole_framed
  | vperm | vrot | vrev | vzip | vunzip | vbcast => exact finishWhole_framed
  | vsortn | vcompress | vexpand => exact finishWhole_framed
  | vrng | vrngf => exact finishElems_framed
  | pand | por | pxor | pnot | pmov | pall | pnone => exact finishWhole_framed
  | pcnt | pfirst => exact finishWhole_framed
  | pwlt => exact finishWhole_framed
  | madd | msub | mneg | mmulq | mmac | mtomont | mfrmont | mred | mmul => exact modRow_framed
  | bflyct => exact finishWhole_framed
  | bflygs => exact finishWhole_framed
  | bfpermRev | bfpermShuf | bfpermStrd => exact finishWhole_framed
  | mauto => exact finishWhole_framed
  | mqset | mqget => exact finishWhole_framed
  | tcfg => exact putSetting_framed
  | tdef => exact execTdef_framed
  | tarm => exact execTarm_framed
  | tdisarm => exact putSetting_framed
  | ttagEmpty | ttagFull => exact sendTag_framed
  | twload => exact execTwload_framed
  | tread => exact execTread_framed
  | tstore => exact execTstore_framed
  | taccz => exact execTaccz_framed
  | tsysto => exact execTsysto_framed
  | tstatSlot | tstatAcc => exact tensorStat_framed
  | pop => exact execPop_framed
  | popd => exact execPopd_framed
  | push => exact sendOnPort_framed
  | peek => exact execPeek_framed
  | nld => exact onTile_framed fun _ => nearLoad_framed
  | nlds => exact nearLoad_framed
  | nst => exact onTile_framed fun _ => nearStore_framed
  | nsts => exact nearStore_framed
  | pld => exact nearLoad_framed
  | pldv => exact onTile_framed fun _ => nearLoad_framed
  | pst => exact nearStore_framed
  | pstv => exact onTile_framed fun _ => nearStore_framed
  | pclr => exact execPclr_framed
  | agset => exact execAgset_framed
  | agld => exact execAgld_framed
  | agst => exact execAgst_framed
  | amoAdd | amoMin | amoMax | amoAnd | amoOr | amoXor | amoSwap | amoCas | amoFadd | amoMinu | amoMaxu | redAdd | redMin
    | redMax | redAnd | redOr | redXor | redFadd | redMinu | redMaxu => exact atomic_framed
  | csig => exact execCsig_framed
  | cwait => exact execCwait_framed
  | ctest => exact execCtest_framed
  | punct => exact sendOnPort_framed
  | punctall => exact execPunctall_framed
  | ordj => exact execOrdj_framed
  | fence => exact execFence_framed
  | ramoAdd | ramoMin | ramoMax | ramoAnd | ramoOr | ramoXor | ramoSwap | ramoCas | ramoFadd | ramoMinu | ramoMaxu => exact ramo_framed
  | setmode => exact execSetmode_framed
  | spawn => exact execSpawn_framed
  | cret => exact execCret_framed
  | ckick => exact execCkick_framed
  | carm => exact execCarm_framed
  | gld => exact execGld_framed
  | gact => exact execGact_framed
  | gdrain => exact execGdrain_framed
  | gunld => exact execGunld_framed
  | gstat => exact execGstat_framed
  | mstat => exact execMstat_framed
  | gpatch => exact execGpatch_framed
  | trap => exact execTrap_framed
  | tret => exact execTret_framed
  | mtsr => exact execMtsr_framed
  | idle => exact execIdle_framed
  | csave => exact execCsave_framed
  | cload => exact execCload_framed
  | pginv => exact execPginv_framed
  | pgfence => exact execPgfence_framed
  | pgstat => exact execPgstat_framed
  | snap => exact execSnap_framed
  | snapq => exact execSnapq_framed
  | snapw => exact execSnapw_framed
  | rollb => exact execRollb_framed
  | rkset => exact execRkset_framed
  | rkget => exact execRkget_framed
  | _ => cases hi

/-- The instructions that may write device memory in their cycle: stores, which capture the old page of an open snapshot (R401), `csave` and
`rollb`. -/
def writesMemory : Instr → Bool
  | .st .. | .stI8 .. | .stI16 .. | .stI32 .. | .csave _ | .rollb _ => true
  | _ => false

theorem exec_has {P : Memory → Memory → Memory → Prop} {i : Instr} {s : State} (h : s.Has P) (hi : i.isInstruction = true)
    (hw : writesMemory i = false) : NextHas P (exec i s) := by
  unfold exec
  cases i with
  | nop => exact finish_has h
  | br => exact execBr_has h
  | beq | bne | blt | bge | bltu | bgeu => exact branchIf_has h
  | call => exact execCall_has h
  | jr => exact execJr_has h
  | jalr => exact execJalr_has h
  | loop => exact execLoop_has h
  | loopr => exact execLoopr_has h
  | tloop => exact execTloop_has h
  | add | sub | and | or | xor | sll | srl | sra | mul | mulh | mulhu | min | max | minu | maxu => exact opReg_has h
  | addi | andi | ori | xori | slli | srli | srai | muli | mini | maxi => exact opImm_has h
  | div | divu | rem | remu | seq | sne | slt | sge | sltu | sgeu => exact opReg_has h
  | seqi | snei | slti | sgei | sltui | sgeui => exact opImm_has h
  | bfx | bfxu => exact opUn_has h
  | bfi => exact finishScalar_has h
  | clz | ctz | popc | brev | bswap => exact opUn_has h
  | li | lih | mov | lea => exact finishScalar_has h
  | ld | ldI8 | ldUi8 | ldI16 | ldUi16 | ldI32 | ldUi32 => exact dramLoad_has h
  | st | stI8 | stI16 | stI32 | csave | rollb => cases hw
  | mfsr => exact finishScalar_has h
  | vaddInt | vsubInt | vmulInt | vmulh | vminInt | vmaxInt | vabsInt | vnegInt | vadds | vsubs | vavg | vmad => exact intRow_has h
  | vand | vor | vxor | vandn | vnot | vmov => exact logicRow_has h
  | vsll | vsrl | vsra | vrol => exact shiftRow_has h
  | vslls | vsrls | vsras => exact shiftRowS_has h
  | vcmpeqInt | vcmpneInt | vcmpltInt | vcmpleInt | vcmpgtInt | vcmpgeInt => exact intCompare_has h
  | vsel | vsplat => exact finishElems_has h
  | vext => exact finishWhole_has h
  | vins | viota => exact finishElems_has h
  | vaddFp | vsubFp | vmulFp | vfma | vfms | vfnma => exact fpRow_has h
  | vminFp | vmaxFp | vabsFp | vnegFp => exact fpPick_has h
  | vdiv | vsqrt => exact fpRow_has h
  | vcmpeqFp | vcmpneFp | vcmpltFp | vcmpleFp | vcmpgtFp | vcmpgeFp | vcmpun => exact fpCompare_has h
  | vli => exact finishElems_has h
  | vcvt => exact execVcvt_has h
  | vquant => exact finishWhole_has h
  | vdequant => exact scaleRow_has h
  | vlq2 => exact convertWhole_has h
  | vscale => exact scaleRow_has h
  | vexp2 | vlog2 | vrcp | vrsqrt | vtanh | vsigm => exact fpRow_has h
  | vredsum | vredmin | vredmax | vredminu | vredmaxu | vredand | vredor => exact reduceRow_has h
  | vscan | vscanx | vscanmax => exact scanRow_has h
  | vperm | vrot | vrev | vzip | vunzip | vbcast => exact permRow_has h
  | vsortn | vcompress | vexpand => exact finishWhole_has h
  | vrng | vrngf => exact finishElems_has h
  | pand | por | pxor | pnot | pmov | pall | pnone => exact predRow_has h
  | pcnt | pfirst => exact finishWhole_has h
  | pwlt => exact predRow_has h
  | madd | msub | mneg | mmulq | mmac | mtomont | mfrmont | mred | mmul => exact modRow_has h
  | bflyct => exact execBflyct_has h
  | bflygs => exact execBflygs_has h
  | bfpermRev | bfpermShuf | bfpermStrd => exact permPair_has h
  | mauto => exact execMauto_has h
  | mqset | mqget => exact finishWhole_has h
  | tcfg => exact putSetting_has h
  | tdef => exact execTdef_has h
  | tarm => exact execTarm_has h
  | tdisarm => exact putSetting_has h
  | ttagEmpty | ttagFull => exact sendTag_has h
  | twload => exact execTwload_has h
  | tread => exact execTread_has h
  | tstore => exact execTstore_has h
  | taccz => exact execTaccz_has h
  | tsysto => exact execTsysto_has h
  | tstatSlot | tstatAcc => exact tensorStat_has h
  | pop => exact execPop_has h
  | popd => exact execPopd_has h
  | push => exact sendOnPort_has h
  | peek => exact execPeek_has h
  | nld => exact execNld_has h
  | nlds => exact nearLoad_has h
  | nst => exact execNst_has h
  | nsts => exact nearStore_has h
  | pld => exact nearLoad_has h
  | pldv => exact execPldv_has h
  | pst => exact nearStore_has h
  | pstv => exact execPstv_has h
  | pclr => exact execPclr_has h
  | agset => exact execAgset_has h
  | agld => exact execAgld_has h
  | agst => exact execAgst_has h
  | amoAdd | amoMin | amoMax | amoAnd | amoOr | amoXor | amoSwap | amoCas | amoFadd | amoMinu | amoMaxu | redAdd | redMin
    | redMax | redAnd | redOr | redXor | redFadd | redMinu | redMaxu => exact atomic_has h
  | csig => exact execCsig_has h
  | cwait => exact execCwait_has h
  | ctest => exact execCtest_has h
  | punct => exact sendOnPort_has h
  | punctall => exact execPunctall_has h
  | ordj => exact execOrdj_has h
  | fence => exact execFence_has h
  | ramoAdd | ramoMin | ramoMax | ramoAnd | ramoOr | ramoXor | ramoSwap | ramoCas | ramoFadd | ramoMinu | ramoMaxu => exact ramo_has h
  | setmode => exact execSetmode_has h
  | spawn => exact execSpawn_has h
  | cret => exact execCret_has h
  | ckick => exact execCkick_has h
  | carm => exact execCarm_has h
  | gld => exact execGld_has h
  | gact => exact execGact_has h
  | gdrain => exact execGdrain_has h
  | gunld => exact execGunld_has h
  | gstat => exact execGstat_has h
  | mstat => exact execMstat_has h
  | gpatch => exact execGpatch_has h
  | trap => exact execTrap_has h
  | tret => exact execTret_has h
  | mtsr => exact execMtsr_has h
  | idle => exact execIdle_has h
  | cload => exact execCload_has h
  | pginv => exact execPginv_has h
  | pgfence => exact execPgfence_has h
  | pgstat => exact execPgstat_has h
  | snap => exact execSnap_has h
  | snapq => exact execSnapq_has h
  | snapw => exact execSnapw_has h
  | rkset => exact execRkset_has h
  | rkget => exact execRkget_has h
  | _ => cases hi

/-- No compute tile issues an instruction that may write device memory. -/
theorem exec_writesMemory_tile {i : Instr} {s : State} {t : Nat} (hw : writesMemory i = true) (ht : s.cur.unit = .tile t) :
    exec i s = .refused .sequencerOnlyInList := by
  cases i with
  | st | stI8 | stI16 | stI32 | csave | rollb => exact onSeq_tile s ht _
  | _ => cases hw

/-- An instruction that writes no memory in its cycle keeps every byte. -/
theorem exec_keepsBytes {i : Instr} {s u : State} (hi : i.isInstruction = true) (hw : writesMemory i = false) (hx : exec i s = .next u) :
    KeepsBytes s u :=
  (exec_has (P := fun m p n => m = s.mem ∧ p = s.peerMem ∧ n = s.near) ⟨rfl, rfl, rfl⟩ hi hw).of_next hx

/-- The stores of sequencer code. -/
def IsStore (i : Instr) : Prop :=
  (∃ d a m, i = .st d a m) ∨ (∃ d a m, i = .stI8 d a m) ∨ (∃ d a m, i = .stI16 d a m) ∨ ∃ d a m, i = .stI32 d a m

theorem writesMemory_cases {i : Instr} (hw : writesMemory i = true) : IsStore i ∨ (∃ a, i = .csave a) ∨ ∃ a, i = .rollb a := by
  cases i with
  | st d a m => exact .inl (.inl ⟨d, a, m, rfl⟩)
  | stI8 d a m => exact .inl (.inr (.inl ⟨d, a, m, rfl⟩))
  | stI16 d a m => exact .inl (.inr (.inr (.inl ⟨d, a, m, rfl⟩)))
  | stI32 d a m => exact .inl (.inr (.inr (.inr ⟨d, a, m, rfl⟩)))
  | csave a => exact .inr (.inl ⟨a, rfl⟩)
  | rollb a => exact .inr (.inr ⟨a, rfl⟩)
  | _ => cases hw

/-- No instruction but a store writes near memory or a peer's. -/
theorem exec_keepsAside {i : Instr} {s u : State} (hi : i.isInstruction = true) (hs : ¬IsStore i) (hx : exec i s = .next u) :
    u.near = s.near ∧ u.peerMem = s.peerMem := by
  cases hw : writesMemory i with
  | false =>
    obtain ⟨-, hp, hn⟩ := exec_keepsBytes hi hw hx
    exact ⟨hn, hp⟩
  | true =>
    obtain hs' | ⟨a, rfl⟩ | ⟨a, rfl⟩ := writesMemory_cases hw
    · exact absurd hs' hs
    · obtain ⟨-, hp, hn⟩ := execCsave_aside.of_next hx
      exact ⟨hn, hp⟩
    · obtain ⟨-, hp, hn⟩ := execRollb_aside.of_next hx
      exact ⟨hn, hp⟩

/-- No instruction but a store, `csave` and `rollb` writes device memory. -/
theorem exec_keepsMem {i : Instr} {s u : State} (hi : i.isInstruction = true) (hs : ¬IsStore i) (hcsave : ∀ a, i ≠ .csave a)
    (hrollb : ∀ a, i ≠ .rollb a) (hx : exec i s = .next u) : u.mem = s.mem := by
  cases hw : writesMemory i with
  | false => exact (exec_keepsBytes hi hw hx).1
  | true =>
    obtain hs' | ⟨a, ha⟩ | ⟨a, ha⟩ := writesMemory_cases hw
    · exact absurd hs' hs
    · exact absurd ha (hcsave a)
    · exact absurd ha (hrollb a)

/-- An instruction of a compute tile keeps the memories. -/
theorem exec_keepsMemory_tile {i : Instr} {s u : State} {t : Nat} (hi : i.isInstruction = true) (ht : s.cur.unit = .tile t)
    (hp : u.present = s.present) (hx : exec i s = .next u) : keepsMemory s u := by
  cases hw : writesMemory i with
  | false =>
    obtain ⟨hm, hpeer, hn⟩ := exec_keepsBytes hi hw hx
    exact ⟨hm, hpeer, hn, hp⟩
  | true => cases (exec_writesMemory_tile hw ht).symm.trans hx

/-- Equal registers of a table of tiles, each kind by itself. -/
theorem tile_regs_of_keepsUnits {s u : State} (h : KeepsUnits s u) (n : Nat) :
    (u.tile n).s = (s.tile n).s ∧ (u.tile n).v = (s.tile n).v ∧ (u.tile n).p = (s.tile n).p ∧ (u.tile n).q = (s.tile n).q := by
  obtain ⟨-, -, -, -, hregs⟩ := h
  simpa [tileRegs, Tile.regs, State.tile] using congrFun hregs n

/-- Settles O58: `exec_framed` holds of every instruction, and stores, `csave` and `rollb` alone write bytes, which no tile issues. -/
theorem instructionsKeep : Obligations.InstructionsKeep := by
  unfold Obligations.InstructionsKeep
  intro i s u hi hx isStore
  have hframe : Framed s u := (exec_framed hi).of_next hx
  refine ⟨fun t ht => ?_, fun n _ =>
    ⟨hframe.clock, fun hs => exec_keepsAside hi hs hx, fun hs hcsave hrollb => exec_keepsMem hi hs hcsave hrollb hx⟩⟩
  have hunits := hframe.units t ht
  have ⟨hclock, hseqs, hpresent, _, _⟩ := hunits
  exact ⟨exec_keepsMemory_tile hi ht hpresent hx, hseqs, hclock, tile_regs_of_keepsUnits hunits⟩

end Sys2Proof.Machine
end

/-! # Words and instructions

The round trip of the codec, row by row (R71 to R83), and the checks that a decoded word has passed (R83). -/
section
namespace Sys2Proof

/-! ## From instructions to words -/

namespace Laws.Codec

/-- The round trip of every instruction, from that of its row; an event has no word. -/
theorem roundTrip (i : Instr) : Statement i := by
  cases i with
  | nop => exact nop
  | br => exact br _
  | beq => exact beq _ _ _
  | bne => exact bne _ _ _
  | blt => exact blt _ _ _
  | bge => exact bge _ _ _
  | bltu => exact bltu _ _ _
  | bgeu => exact bgeu _ _ _
  | call => exact call _ _
  | jr => exact jr _
  | jalr => exact jalr _ _
  | loop => exact loop _ _ _
  | loopr => exact loopr _ _ _
  | tloop => exact tloop _ _ _ _
  | add => exact add _ _ _
  | sub => exact sub _ _ _
  | and => exact and _ _ _
  | or => exact or _ _ _
  | xor => exact xor _ _ _
  | sll => exact sll _ _ _
  | srl => exact srl _ _ _
  | sra => exact sra _ _ _
  | mul => exact mul _ _ _
  | mulh => exact mulh _ _ _
  | mulhu => exact mulhu _ _ _
  | min => exact min _ _ _
  | max => exact max _ _ _
  | minu => exact minu _ _ _
  | maxu => exact maxu _ _ _
  | addi => exact addi _ _ _
  | andi => exact andi _ _ _
  | ori => exact ori _ _ _
  | xori => exact xori _ _ _
  | slli => exact slli _ _ _
  | srli => exact srli _ _ _
  | srai => exact srai _ _ _
  | muli => exact muli _ _ _
  | mini => exact mini _ _ _
  | maxi => exact maxi _ _ _
  | div => exact div _ _ _
  | divu => exact divu _ _ _
  | rem => exact rem _ _ _
  | remu => exact remu _ _ _
  | seq => exact seq _ _ _
  | sne => exact sne _ _ _
  | slt => exact slt _ _ _
  | sge => exact sge _ _ _
  | sltu => exact sltu _ _ _
  | sgeu => exact sgeu _ _ _
  | seqi => exact seqi _ _ _
  | snei => exact snei _ _ _
  | slti => exact slti _ _ _
  | sgei => exact sgei _ _ _
  | sltui => exact sltui _ _ _
  | sgeui => exact sgeui _ _ _
  | bfx => exact bfx _ _ _ _
  | bfxu => exact bfxu _ _ _ _
  | bfi => exact bfi _ _ _ _
  | clz => exact clz _ _
  | ctz => exact ctz _ _
  | popc => exact popc _ _
  | brev => exact brev _ _
  | bswap => exact bswap _ _
  | li => exact li _ _
  | lih => exact lih _ _
  | mov => exact mov _ _
  | lea => exact lea _ _ _ _
  | ld => exact ld _ _ _
  | ldI8 => exact ldI8 _ _ _
  | ldUi8 => exact ldUi8 _ _ _
  | ldI16 => exact ldI16 _ _ _
  | ldUi16 => exact ldUi16 _ _ _
  | ldI32 => exact ldI32 _ _ _
  | ldUi32 => exact ldUi32 _ _ _
  | st => exact st _ _ _
  | stI8 => exact stI8 _ _ _
  | stI16 => exact stI16 _ _ _
  | stI32 => exact stI32 _ _ _
  | mfsr => exact mfsr _ _
  | vaddInt => exact vaddInt _ _ _ _ _ _
  | vsubInt => exact vsubInt _ _ _ _ _ _
  | vmulInt => exact vmulInt _ _ _ _ _ _
  | vmulh => exact vmulh _ _ _ _ _ _
  | vminInt => exact vminInt _ _ _ _ _ _
  | vmaxInt => exact vmaxInt _ _ _ _ _ _
  | vabsInt => exact vabsInt _ _ _ _ _
  | vnegInt => exact vnegInt _ _ _ _ _
  | vadds => exact vadds _ _ _ _ _ _
  | vsubs => exact vsubs _ _ _ _ _ _
  | vavg => exact vavg _ _ _ _ _ _
  | vmad => exact vmad _ _ _ _ _ _ _
  | vand => exact vand _ _ _ _ _
  | vor => exact vor _ _ _ _ _
  | vxor => exact vxor _ _ _ _ _
  | vandn => exact vandn _ _ _ _ _
  | vnot => exact vnot _ _ _ _
  | vmov => exact vmov _ _ _ _
  | vsll => exact vsll _ _ _ _ _ _
  | vsrl => exact vsrl _ _ _ _ _ _
  | vsra => exact vsra _ _ _ _ _ _
  | vrol => exact vrol _ _ _ _ _ _
  | vslls => exact vslls _ _ _ _ _ _
  | vsrls => exact vsrls _ _ _ _ _ _
  | vsras => exact vsras _ _ _ _ _ _
  | vcmpeqInt => exact vcmpeqInt _ _ _ _ _ _
  | vcmpneInt => exact vcmpneInt _ _ _ _ _ _
  | vcmpltInt => exact vcmpltInt _ _ _ _ _ _
  | vcmpleInt => exact vcmpleInt _ _ _ _ _ _
  | vcmpgtInt => exact vcmpgtInt _ _ _ _ _ _
  | vcmpgeInt => exact vcmpgeInt _ _ _ _ _ _
  | vsel => exact vsel _ _ _ _ _ _
  | vsplat => exact vsplat _ _ _ _
  | vext => exact vext _ _ _ _ _
  | vins => exact vins _ _ _ _ _
  | viota => exact viota _ _ _
  | vaddFp => exact vaddFp _ _ _ _ _ _ _
  | vsubFp => exact vsubFp _ _ _ _ _ _ _
  | vmulFp => exact vmulFp _ _ _ _ _ _ _
  | vfma => exact vfma _ _ _ _ _ _ _ _
  | vfms => exact vfms _ _ _ _ _ _ _ _
  | vfnma => exact vfnma _ _ _ _ _ _ _ _
  | vminFp => exact vminFp _ _ _ _ _ _
  | vmaxFp => exact vmaxFp _ _ _ _ _ _
  | vabsFp => exact vabsFp _ _ _ _ _
  | vnegFp => exact vnegFp _ _ _ _ _
  | vdiv => exact vdiv _ _ _ _ _ _ _
  | vsqrt => exact vsqrt _ _ _ _ _ _
  | vcmpeqFp => exact vcmpeqFp _ _ _ _ _ _
  | vcmpneFp => exact vcmpneFp _ _ _ _ _ _
  | vcmpltFp => exact vcmpltFp _ _ _ _ _ _
  | vcmpleFp => exact vcmpleFp _ _ _ _ _ _
  | vcmpgtFp => exact vcmpgtFp _ _ _ _ _ _
  | vcmpgeFp => exact vcmpgeFp _ _ _ _ _ _
  | vcmpun => exact vcmpun _ _ _ _ _ _
  | vli => exact vli _ _ _
  | vcvt => exact vcvt _ _ _ _ _ _ _
  | vquant => exact vquant _ _ _ _ _ _ _ _
  | vdequant => exact vdequant _ _ _ _ _ _ _ _
  | vlq2 => exact vlq2 _ _ _ _ _ _ _ _
  | vscale => exact vscale _ _ _ _ _ _ _ _
  | vexp2 => exact vexp2 _ _ _ _ _ _
  | vlog2 => exact vlog2 _ _ _ _ _ _
  | vrcp => exact vrcp _ _ _ _ _ _
  | vrsqrt => exact vrsqrt _ _ _ _ _ _
  | vtanh => exact vtanh _ _ _ _ _ _
  | vsigm => exact vsigm _ _ _ _ _ _
  | vredsum => exact vredsum _ _ _ _ _ _
  | vredmin => exact vredmin _ _ _ _ _
  | vredmax => exact vredmax _ _ _ _ _
  | vredminu => exact vredminu _ _ _ _
  | vredmaxu => exact vredmaxu _ _ _ _
  | vredand => exact vredand _ _ _ _
  | vredor => exact vredor _ _ _ _
  | vscan => exact vscan _ _ _ _ _ _
  | vscanx => exact vscanx _ _ _ _ _ _
  | vscanmax => exact vscanmax _ _ _ _ _
  | vperm => exact vperm _ _ _ _ _
  | vrot => exact vrot _ _ _ _ _
  | vrev => exact vrev _ _ _ _
  | vzip => exact vzip _ _ _ _ _
  | vunzip => exact vunzip _ _ _ _ _
  | vbcast => exact vbcast _ _ _ _ _
  | vsortn => exact vsortn _ _ _ _ _ _
  | vcompress => exact vcompress _ _ _ _ _ _
  | vexpand => exact vexpand _ _ _ _ _
  | vrng => exact vrng _ _ _
  | vrngf => exact vrngf _ _ _ _
  | pand => exact pand _ _ _ _
  | por => exact por _ _ _ _
  | pxor => exact pxor _ _ _ _
  | pnot => exact pnot _ _ _
  | pmov => exact pmov _ _ _
  | pall => exact pall _ _
  | pnone => exact pnone _ _
  | pcnt => exact pcnt _ _ _
  | pfirst => exact pfirst _ _ _
  | pwlt => exact pwlt _ _ _
  | madd => exact madd _ _ _ _ _ _
  | msub => exact msub _ _ _ _ _ _
  | mneg => exact mneg _ _ _ _ _
  | mmulq => exact mmulq _ _ _ _ _ _
  | mmac => exact mmac _ _ _ _ _ _ _
  | mtomont => exact mtomont _ _ _ _ _
  | mfrmont => exact mfrmont _ _ _ _ _
  | mred => exact mred _ _ _ _ _
  | mmul => exact mmul _ _ _ _ _ _
  | bflyct => exact bflyct _ _ _ _ _ _
  | bflygs => exact bflygs _ _ _ _ _ _
  | bfpermRev => exact bfpermRev _ _ _
  | bfpermShuf => exact bfpermShuf _ _ _
  | bfpermStrd => exact bfpermStrd _ _ _ _
  | mauto => exact mauto _ _ _ _ _
  | mqset => exact mqset _ _ _
  | mqget => exact mqget _ _ _
  | tcfg => exact tcfg _
  | tdef => exact tdef _ _ _ _ _
  | tarm => exact tarm _
  | tdisarm => exact tdisarm _
  | ttagEmpty => exact ttagEmpty _
  | ttagFull => exact ttagFull _
  | twload => exact twload _
  | tread => exact tread _ _ _
  | tstore => exact tstore _ _ _ _
  | taccz => exact taccz _
  | tsysto => exact tsysto _
  | tstatSlot => exact tstatSlot _ _
  | tstatAcc => exact tstatAcc _ _
  | pop => exact pop _ _ _
  | popd => exact popd _ _
  | push => exact push _ _ _ _
  | peek => exact peek _ _ _
  | nld => exact nld _ _ _
  | nlds => exact nlds _ _ _
  | nst => exact nst _ _ _ _
  | nsts => exact nsts _ _ _ _
  | pld => exact pld _ _ _
  | pldv => exact pldv _ _ _
  | pst => exact pst _ _ _ _
  | pstv => exact pstv _ _ _ _
  | pclr => exact pclr _ _
  | agset => exact agset _ _
  | agld => exact agld _ _
  | agst => exact agst _ _
  | amoAdd => exact amoAdd _ _ _ _ _
  | amoMin => exact amoMin _ _ _ _ _
  | amoMax => exact amoMax _ _ _ _ _
  | amoAnd => exact amoAnd _ _ _ _ _
  | amoOr => exact amoOr _ _ _ _ _
  | amoXor => exact amoXor _ _ _ _ _
  | amoSwap => exact amoSwap _ _ _ _ _
  | amoCas => exact amoCas _ _ _ _ _ _
  | amoFadd => exact amoFadd _ _ _ _ _
  | amoMinu => exact amoMinu _ _ _ _ _
  | amoMaxu => exact amoMaxu _ _ _ _ _
  | redAdd => exact redAdd _ _ _ _
  | redMin => exact redMin _ _ _ _
  | redMax => exact redMax _ _ _ _
  | redAnd => exact redAnd _ _ _ _
  | redOr => exact redOr _ _ _ _
  | redXor => exact redXor _ _ _ _
  | redFadd => exact redFadd _ _ _ _
  | redMinu => exact redMinu _ _ _ _
  | redMaxu => exact redMaxu _ _ _ _
  | csig => exact csig _
  | cwait => exact cwait _
  | ctest => exact ctest _ _
  | punct => exact punct _
  | punctall => exact punctall
  | ordj => exact ordj _ _
  | fence => exact fence _
  | ramoAdd => exact ramoAdd _ _ _ _
  | ramoMin => exact ramoMin _ _ _ _
  | ramoMax => exact ramoMax _ _ _ _
  | ramoAnd => exact ramoAnd _ _ _ _
  | ramoOr => exact ramoOr _ _ _ _
  | ramoXor => exact ramoXor _ _ _ _
  | ramoSwap => exact ramoSwap _ _ _ _
  | ramoCas => exact ramoCas _ _ _ _ _
  | ramoFadd => exact ramoFadd _ _ _ _
  | ramoMinu => exact ramoMinu _ _ _ _
  | ramoMaxu => exact ramoMaxu _ _ _ _
  | setmode => exact setmode _ _
  | spawn => exact spawn _ _ _
  | cret => exact cret _
  | ckick => exact ckick _ _
  | carm => exact carm _ _
  | gld => exact gld _ _ _
  | gact => exact gact _
  | gdrain => exact gdrain _
  | gunld => exact gunld _
  | gstat => exact gstat _ _
  | mstat => exact mstat _ _
  | gpatch => exact gpatch _ _ _
  | trap => exact trap _
  | tret => exact tret
  | mtsr => exact mtsr _ _
  | idle => exact idle
  | csave => exact csave _
  | cload => exact cload _
  | pginv => exact pginv _ _ _
  | pgfence => exact pgfence _
  | pgstat => exact pgstat _ _
  | snap => exact snap _ _
  | snapq => exact snapq _ _
  | snapw => exact snapw _
  | rollb => exact rollb _
  | rkset => exact rkset _ _
  | rkget => exact rkget _ _
  | _ => exact event rfl

end Laws.Codec

/-- Settles O1: each row of the opcode map has its round trip. -/
theorem decodeOfEncode : Obligations.DecodeOfEncode := fun place stamp i => Laws.Codec.roundTrip i place stamp

/-! ## From words to instructions -/

/-- A word has the FOLD of the instruction that it encodes (R81). Events have no word; every row has its FOLD in the common fields. -/
theorem foldOf_of_encode {stamp : BitVec 12} {i : Instr} {w : Word} (h : encode stamp i = some w) : foldOf w = i.fold := by
  cases i <;> cases h
  all_goals exact foldOf_mkWord ..

/-- What a word passes where no check of its fields fails (R83). -/
theorem passes_of_checkFields_eq_none {place : Place} {w : Word} {i : Instr} {x : Shape} (h : checkFields place w i x = none) :
    x.place.allows place = true ∧ foldOf w ≠ 3 ∧ i.namesOk = true ∧ i.rangesOk place = true ∧ i.modesOk = true ∧
      encode (stampOf w) i = some w := by
  unfold checkFields at h
  dsimp only at h
  split_ifs at h with hplace hfold hnames hranges hmodes henc
  simp only [Bool.not_eq_true', Bool.not_eq_false, Bool.or_eq_true, not_or, beq_iff_eq, bne_iff_ne, not_not] at *
  obtain ⟨hfold, -⟩ := hfold
  obtain ⟨⟨hranges, -⟩, -⟩ := hranges
  obtain ⟨⟨hmodes, -⟩, -⟩ := hmodes
  exact ⟨hplace, hfold, hnames, hranges, hmodes, henc⟩

/-- A word decodes only to an instruction whose checks it passes. -/
theorem checkFields_of_decode {place : Place} {w : Word} {i : Instr} (h : decode place w = .ok i) :
    ∃ x, i.shape = some x ∧ checkFields place w i x = none := by
  unfold decode at h
  split at h
  · cases h
  split at h
  · cases h
  split at h
  · cases h
  rename_i x hx
  split at h
  · cases h
  rename_i hc
  cases h
  exact ⟨x, hx, hc⟩

/-- Settles O2: check 8 compares the word with the encoding of its instruction, so that FOLD, too, is the instruction's. -/
theorem decodedIsWellFormed : Obligations.DecodedIsWellFormed := by
  intro place w i h
  obtain ⟨x, hx, hc⟩ := checkFields_of_decode h
  obtain ⟨hplace, hfold, hnames, hranges, hmodes, henc⟩ := passes_of_checkFields_eq_none hc
  have hfoldOk : i.foldOk = true := bne_iff_ne.2 (foldOf_of_encode henc ▸ hfold)
  exact ⟨by simp [Instr.WellFormed, hx, hplace, hfoldOk, hnames, hranges, hmodes], henc⟩

/-- Settles O3: the decoder evaluates on each of these words. -/
theorem workedWords : Obligations.WorkedWords :=
  ⟨rfl, rfl, rfl, rfl, rfl, rfl, rfl, rfl, rfl, rfl, rfl, rfl, rfl⟩

end Sys2Proof
end

/-! # Scalar results and system registers

What a scalar result leaves in a control unit (R75, R102), and the values that `mfsr` reads (R77, R112). -/
section
open Sys2Proof Sys2Proof.Machine Sys2Proof.Claims
namespace Sys2Proof.Machine

/-! ## Scalar results of a control unit (R75, R97, R102) -/

@[simp] theorem Seq.advance_busy (q : Seq) (now : Nat) : (q.advance now).busy = q.busy := by
  unfold Seq.advance; dsimp only; split <;> rfl

section scalar
variable {s : State} {n lat : Nat} {d : BitVec 6} {v : Word}

theorem scalarDone_seq (h : s.cur.unit = .seq n) :
    scalarDone lat d v s = s.updSeq n fun q => (q.write d.toNat v (s.pcyc + lat)).advance s.pcyc := by simp [scalarDone, h]

/-- The registers of a control unit behind an instruction with a scalar result. -/
theorem scalarDone_seq_s (h : s.cur.unit = .seq n) : ((scalarDone lat d v s).seq n).s = setRegOf (s.seq n).s d.toNat v := by
  simp [scalarDone_seq h, Seq.write]

theorem scalarDone_seq_busy (h : s.cur.unit = .seq n) : (d.toNat, s.pcyc + lat) ∈ ((scalarDone lat d v s).seq n).busy := by
  simp [scalarDone_seq h, Seq.write]

theorem scalarDone_seq_of_ne (h : s.cur.unit = .seq n) {m : Nat} (hm : m ≠ n) : (scalarDone lat d v s).seq m = s.seq m := by
  rw [scalarDone_seq h, State.updSeq_seq_of_ne _ _ hm]

theorem finishScalar_eq : finishScalar lat d v s = .next (scalarDone lat d v s) := by
  unfold finishScalar scalarDone; split <;> rfl

end scalar

/-- Settles O11: a scalar result is one write of a register of the issuing unit. -/
theorem scalarResultIsRead : Obligations.ScalarResultIsRead := by
  intro lat d v s n h t
  have hs : (t.seq n).s = setRegOf (s.seq n).s d.toNat v := scalarDone_seq_s h
  rw [hs]
  exact ⟨regOf_zero _, fun hd => ⟨regOf_setRegOf_self _ v hd, scalarDone_seq_busy h⟩,
    fun r hr => regOf_setRegOf_of_ne _ v hr, fun m hm => scalarDone_seq_of_ne h hm⟩

/-! ## System registers (R77, R112, R125, R126) -/

section registers
variable {s : State} {d : BitVec 6} {k : Nat}

theorem exec_mfsr_of_read {sr : BitVec 16} {v : Word} (h : readSysReg s sr = v) : exec (.mfsr d sr) s = .next (scalarDone 1 d v s) :=
  h ▸ finishScalar_eq

theorem readSysReg_tile {t : Nat} (h : s.cur.unit = .tile t) (sr : BitVec 16) : readSysReg s sr = tileSysReg s t sr.toNat := by
  simp [readSysReg, h]

theorem readSysReg_seq {n : Nat} (h : s.cur.unit = .seq n) (sr : BitVec 16) : readSysReg s sr = seqSysReg s n sr.toNat := by
  simp [readSysReg, h]

theorem exec_mfsr_tile {t sr : Nat} {v : Word} (ht : s.cur.unit = .tile t) (hsr : sr < 2 ^ 16) (h : tileSysReg s t sr = v) :
    exec (.mfsr d (BitVec.ofNat 16 sr)) s = .next (scalarDone 1 d v s) :=
  exec_mfsr_of_read (by rw [readSysReg_tile ht, BitVec.toNat_ofNat, Nat.mod_eq_of_lt hsr, h])

theorem exec_mfsr_seq {n sr : Nat} {v : Word} (hn : s.cur.unit = .seq n) (hsr : sr < 2 ^ 16) (h : seqSysReg s n sr = v) :
    exec (.mfsr d (BitVec.ofNat 16 sr)) s = .next (scalarDone 1 d v s) :=
  exec_mfsr_of_read (by rw [readSysReg_seq hn, BitVec.toNat_ofNat, Nat.mod_eq_of_lt hsr, h])

/-- In a compute tile the mode in force is that of the graph of its entry. -/
theorem modeInForce_tile {t : Nat} {g : Graph} (h : s.cur.unit = .tile t) (hg : s.graph? s.cur.ctx s.cur.slot = some g) :
    modeInForce s = BitVec.ofNat 64 g.mode := by simp [modeInForce, h, hg]

theorem tileSysReg_seed {t : Nat} {g : Graph} (hg : s.graph? s.cur.ctx s.cur.slot = some g) : tileSysReg s t 0x4 = g.seed := by
  simp [tileSysReg, hg]

/-- The numbers of the loop registers are none of those that the read lists one by one. -/
theorem tileSysReg_loop {t sr : Nat} (h : 0x10 ≤ sr ∧ sr < 0x1C) : tileSysReg s t sr = tileLoopReg (s.tile t) sr := by
  unfold tileSysReg
  split
  case h_10 => exact if_pos h
  all_goals omega

theorem seqSysReg_loop {n sr : Nat} (h : 0x10 ≤ sr ∧ sr < 0x1C) : seqSysReg s n sr = seqLoopReg (s.seq n) sr := by
  unfold seqSysReg
  split
  case h_12 => exact if_pos h
  all_goals omega

theorem tileLoopReg_lb (x : Tile) (h : k < 4) : tileLoopReg x (0x10 + k) = BitVec.ofNat 64 (mget 0 x.lb k) := by
  rw [tileLoopReg, if_pos (by omega), Nat.add_sub_cancel_left]

theorem tileLoopReg_le (x : Tile) (h : k < 4) : tileLoopReg x (0x14 + k) = BitVec.ofNat 64 (mget 0 x.le k) := by
  rw [tileLoopReg, if_neg (by omega), if_pos (by omega), Nat.add_sub_cancel_left]

theorem tileLoopReg_lc (x : Tile) : tileLoopReg x (0x18 + k) = BitVec.ofNat 64 (mget 0 x.lc k) := by
  rw [tileLoopReg, if_neg (by omega), if_neg (by omega), Nat.add_sub_cancel_left]

theorem seqLoopReg_first (q : Seq) (h : k < 4) : seqLoopReg q (0x10 + k) = loopAddrBits (mget {} q.loops k).first := by
  rw [seqLoopReg, if_pos (by omega), Nat.add_sub_cancel_left]

theorem seqLoopReg_final (q : Seq) (h : k < 4) : seqLoopReg q (0x14 + k) = loopAddrBits (mget {} q.loops k).final := by
  rw [seqLoopReg, if_neg (by omega), if_pos (by omega), Nat.add_sub_cancel_left]

theorem seqLoopReg_count (q : Seq) : seqLoopReg q (0x18 + k) = BitVec.ofNat 64 (mget {} q.loops k).count := by
  rw [seqLoopReg, if_neg (by omega), if_neg (by omega), Nat.add_sub_cancel_left]

end registers

/-- Settles O10: the registers with a number of their own, then the three kinds of loop registers, in either kind of unit. -/
theorem systemRegisterReads : Obligations.SystemRegisterReads := by
  intro d s reads num
  refine ⟨fun sr => ⟨_, exec_mfsr_of_read rfl⟩, fun t ht => ?_, fun n hn => ?_⟩
  · have fixed (sr : Nat) (hsr : sr < 2 ^ 16) : reads sr (tileSysReg s t sr) := exec_mfsr_tile ht hsr rfl
    have loop {sr : Nat} {v : Word} (h : 0x10 ≤ sr ∧ sr < 0x1C) (hv : tileLoopReg (s.tile t) sr = v) : reads sr v :=
      exec_mfsr_tile ht (by omega) ((tileSysReg_loop h).trans hv)
    refine ⟨fixed 0x0 (by decide), fixed 0x1 (by decide), fixed 0x3 (by decide), fixed 0x5 (by decide), fixed 0x6 (by decide),
      fixed 0x7 (by decide), fixed 0xD (by decide), fun g hg => ⟨?_, ?_⟩, fun k hk => ⟨?_, ?_, ?_⟩⟩
    · exact exec_mfsr_tile ht (by decide) (modeInForce_tile ht hg)
    · exact exec_mfsr_tile ht (by decide) (tileSysReg_seed hg)
    · exact loop (by omega) (tileLoopReg_lb _ hk)
    · exact loop (by omega) (tileLoopReg_le _ hk)
    · exact loop (by omega) (tileLoopReg_lc _)
  · have fixed (sr : Nat) (hsr : sr < 2 ^ 16) : reads sr (seqSysReg s n sr) := exec_mfsr_seq hn hsr rfl
    have loop {sr : Nat} {v : Word} (h : 0x10 ≤ sr ∧ sr < 0x1C) (hv : seqLoopReg (s.seq n) sr = v) : reads sr v :=
      exec_mfsr_seq hn (by omega) ((seqSysReg_loop h).trans hv)
    refine ⟨fixed 0x4 (by decide), fixed 0x5 (by decide), fixed 0x7 (by decide), fixed 0x8 (by decide), fixed 0x9 (by decide),
      fixed 0xA (by decide), fixed 0xB (by decide), fixed 0xC (by decide), fixed 0xD (by decide), fixed 0xE (by decide),
      fun k hk => ⟨?_, ?_, ?_⟩⟩
    · exact loop (by omega) (seqLoopReg_first _ hk)
    · exact loop (by omega) (seqLoopReg_final _ hk)
    · exact loop (by omega) (seqLoopReg_count _)

end Sys2Proof.Machine
end

/-! # Instructions of the other kind of code

An instruction of timed lists alone begins by asking for a tile, one of sequencer code alone for a control unit (R84, R85). -/
section
open Sys2Proof Sys2Proof.Machine Sys2Proof.Claims
namespace Sys2Proof.Machine

/-- `vcvt` has two forms, one for equal widths and one for others; both ask for a tile. -/
theorem execVcvt_seq {fold : BitVec 2} {d a src : BitVec 6} {p : BitVec 3} {rm dst : BitVec 4} {s : State} {n : Nat}
    (hn : s.cur.unit = .seq n) : execVcvt fold d a src p rm dst s = .next (ownFault n 0x01 3 s) := by
  unfold execVcvt
  dsimp only
  split <;> exact onTile_seq s hn _

/-- Check 3 of R83 at issue in sequencer code. -/
theorem exec_seq_of_listOnly {i : Instr} {s : State} {n : Nat} (h : i.shape.map Shape.place = some .listOnly) (hn : s.cur.unit = .seq n) :
    exec i s = .next (ownFault n 0x01 3 s) := by
  cases i with
  | vcvt => exact execVcvt_seq hn
  | tloop | vaddInt | vsubInt | vmulInt | vmulh | vminInt | vmaxInt | vabsInt | vnegInt | vadds | vsubs | vavg | vmad | vand | vor
    | vxor | vandn | vnot | vmov | vsll | vsrl | vsra | vrol | vslls | vsrls | vsras | vcmpeqInt | vcmpneInt | vcmpltInt | vcmpleInt
    | vcmpgtInt | vcmpgeInt | vsel | vsplat | vext | vins | viota | vaddFp | vsubFp | vmulFp | vfma | vfms | vfnma | vminFp | vmaxFp
    | vabsFp | vnegFp | vdiv | vsqrt | vcmpeqFp | vcmpneFp | vcmpltFp | vcmpleFp | vcmpgtFp | vcmpgeFp | vcmpun | vli | vquant
    | vdequant | vlq2 | vscale | vexp2 | vlog2 | vrcp | vrsqrt | vtanh | vsigm | vredsum | vredmin | vredmax | vredminu | vredmaxu
    | vredand | vredor | vscan | vscanx | vscanmax | vperm | vrot | vrev | vzip | vunzip | vbcast | vsortn | vcompress | vexpand | vrng
    | vrngf | pand | por | pxor | pnot | pmov | pall | pnone | pcnt | pfirst | pwlt | madd | msub | mneg | mmulq | mmac | mtomont
    | mfrmont | mred | mmul | bflyct | bflygs | bfpermRev | bfpermShuf | bfpermStrd | mauto | mqset | mqget | tcfg | tdef | tarm
    | tdisarm | ttagEmpty | ttagFull | twload | tread | tstore | taccz | tstatSlot | tstatAcc | pop | popd | push | peek | nld | nst
    | pldv | pstv | agset | agld | agst | punct | punctall | cret => exact onTile_seq s hn _
  | _ => cases h

/-- Check 3 of R83 at issue in a timed list. -/
theorem exec_tile_of_seqOnly {i : Instr} {s : State} {t : Nat} (h : i.shape.map Shape.place = some .seqOnly) (ht : s.cur.unit = .tile t) :
    exec i s = .refused .sequencerOnlyInList := by
  cases i with
  | br | beq | bne | blt | bge | bltu | bgeu | call | jr | jalr | loop | loopr | ld | ldI8 | ldUi8 | ldI16 | ldUi16 | ldI32 | ldUi32
    | st | stI8 | stI16 | stI32 | tsysto | cwait | ctest | fence | setmode | carm | gld | gact | gdrain | gunld | gstat | mstat | gpatch
    | trap | tret | mtsr | idle | csave | cload | pginv | pgfence | pgstat | snap | snapq | snapw | rollb | rkset | rkget => exact onSeq_tile s ht _
  | _ => cases h

/-- Settles O57: every instruction of one kind of code alone asks for its kind of unit first. -/
theorem unitsOfInstructions : Obligations.UnitsOfInstructions := by
  intro i x s hx
  have hplace : i.shape.map Shape.place = some x.place := congrArg (Option.map Shape.place) hx
  exact ⟨fun t hp ht => exec_tile_of_seqOnly (hp ▸ hplace) ht, fun n hp hn => exec_seq_of_listOnly (hp ▸ hplace) hn⟩

end Sys2Proof.Machine
end

/-! # Scalar arithmetic and compares

The functions of OP 0x20 to 0x22 as functions of the signed and unsigned values of their operands (R104 to R107). -/
section
open Sys2Proof Sys2Proof.Machine Sys2Proof.Claims
namespace Sys2Proof.Machine

/-- An instruction whose meaning is one scalar result. -/
theorem exec_of_finishScalar {i : Instr} {s : State} {lat : Nat} {d : BitVec 6} {v w : Word} (h : exec i s = finishScalar lat d v s)
    (hv : v = w) : exec i s = .next (scalarDone lat d w s) := by rw [h, hv, finishScalar_eq]

/-! ## The functions of R104 and R106 on values -/

section words
variable (x y : Word)

theorem add_eq_ofInt : x + y = BitVec.ofInt 64 (x.toInt + y.toInt) := by
  rw [BitVec.ofInt_add, BitVec.ofInt_toInt, BitVec.ofInt_toInt]

theorem sub_eq_ofInt : x - y = BitVec.ofInt 64 (x.toInt - y.toInt) :=
  BitVec.eq_of_toInt_eq (by rw [BitVec.toInt_sub, BitVec.toInt_ofInt])

theorem mul_eq_ofInt : x * y = BitVec.ofInt 64 (x.toInt * y.toInt) := by
  rw [BitVec.ofInt_mul, BitVec.ofInt_toInt, BitVec.ofInt_toInt]

theorem sllW_eq_ofNat : sllW x y = BitVec.ofNat 64 (x.toNat * 2 ^ (y.toNat % 64)) :=
  BitVec.eq_of_toNat_eq (by rw [sllW, BitVec.toNat_shiftLeft, Nat.shiftLeft_eq, BitVec.toNat_ofNat])

theorem srlW_eq_ofNat : srlW x y = BitVec.ofNat 64 (x.toNat / 2 ^ (y.toNat % 64)) := by
  rw [srlW, ← Nat.shiftRight_eq_div_pow, ← BitVec.toNat_ushiftRight, BitVec.ofNat_toNat, BitVec.setWidth_eq]

theorem sraW_eq_ofInt : sraW x y = BitVec.ofInt 64 (x.toInt / 2 ^ (y.toNat % 64)) := by
  rw [sraW, BitVec.sshiftRight, Int.shiftRight_eq_div_pow]
  norm_cast

theorem minW_eq_ofInt : minW x y = BitVec.ofInt 64 (min x.toInt y.toInt) := by
  rw [minW, min_def, apply_ite (BitVec.ofInt 64), BitVec.ofInt_toInt, BitVec.ofInt_toInt]

theorem maxW_eq_ofInt : maxW x y = BitVec.ofInt 64 (max x.toInt y.toInt) := by
  rw [maxW, max_def, apply_ite (BitVec.ofInt 64), BitVec.ofInt_toInt, BitVec.ofInt_toInt]

theorem minuW_eq_ofNat : minuW x y = BitVec.ofNat 64 (min x.toNat y.toNat) := by
  simp only [minuW, min_def, apply_ite (BitVec.ofNat 64), BitVec.ofNat_toNat, BitVec.setWidth_eq]

theorem maxuW_eq_ofNat : maxuW x y = BitVec.ofNat 64 (max x.toNat y.toNat) := by
  simp only [maxuW, max_def, apply_ite (BitVec.ofNat 64), BitVec.ofNat_toNat, BitVec.setWidth_eq]

/-- The remainder of a division that truncates (R106). -/
theorem remW_eq : remW x y = if y = 0 then x else BitVec.ofInt 64 (x.toInt - y.toInt * x.toInt.tdiv y.toInt) := by
  rw [remW, Int.tmod_def]

theorem remuW_eq : remuW x y = if y = 0 then x else BitVec.ofNat 64 (x.toNat - y.toNat * (x.toNat / y.toNat)) := by
  rw [remuW, Nat.mod_eq_sub_mul_div]

end words

/-- Settles O7: each function of the model is the function of R104 or R106 on the values of its operands. -/
theorem scalarArithmetic : Obligations.ScalarArithmetic := by
  intro d a b s x y xs ys xu yu sh gives
  exact ⟨exec_of_finishScalar rfl (add_eq_ofInt x y), exec_of_finishScalar rfl (sub_eq_ofInt x y), exec_of_finishScalar rfl rfl,
    exec_of_finishScalar rfl rfl, exec_of_finishScalar rfl rfl, exec_of_finishScalar rfl (sllW_eq_ofNat x y),
    exec_of_finishScalar rfl (srlW_eq_ofNat x y), exec_of_finishScalar rfl (sraW_eq_ofInt x y), exec_of_finishScalar rfl (mul_eq_ofInt x y),
    exec_of_finishScalar rfl rfl, exec_of_finishScalar rfl rfl, exec_of_finishScalar rfl (minW_eq_ofInt x y),
    exec_of_finishScalar rfl (maxW_eq_ofInt x y), exec_of_finishScalar rfl (minuW_eq_ofNat x y),
    exec_of_finishScalar rfl (maxuW_eq_ofNat x y), exec_of_finishScalar rfl rfl, exec_of_finishScalar rfl (remW_eq x y),
    exec_of_finishScalar rfl rfl, exec_of_finishScalar rfl (remuW_eq x y)⟩

/-! ## The relations of R107 -/

theorem flagWord_decide (p : Prop) [Decidable p] : flagWord (decide p) = oneIf p := by simp [flagWord, oneIf]

section relations
variable (x y : Word)

theorem flagWord_relSeq : flagWord (relSeq x y) = oneIf (x = y) := by simp [relSeq, flagWord, oneIf]
theorem flagWord_relSne : flagWord (relSne x y) = oneIf (x ≠ y) := by simp [relSne, flagWord, oneIf]
theorem flagWord_relSlt : flagWord (relSlt x y) = oneIf (x.toInt < y.toInt) := flagWord_decide _
theorem flagWord_relSge : flagWord (relSge x y) = oneIf (x.toInt ≥ y.toInt) := flagWord_decide _
theorem flagWord_relSltu : flagWord (relSltu x y) = oneIf (x.toNat < y.toNat) := flagWord_decide _
theorem flagWord_relSgeu : flagWord (relSgeu x y) = oneIf (x.toNat ≥ y.toNat) := flagWord_decide _

end relations

/-- Settles O8: each compare gives the truth value of its relation, the immediate forms between the register and the extended immediate. -/
theorem scalarCompares : Obligations.ScalarCompares := by
  intro d a b imm s x y z gives
  exact ⟨exec_of_finishScalar rfl (flagWord_relSeq x y), exec_of_finishScalar rfl (flagWord_relSne x y),
    exec_of_finishScalar rfl (flagWord_relSlt x y), exec_of_finishScalar rfl (flagWord_relSge x y),
    exec_of_finishScalar rfl (flagWord_relSltu x y), exec_of_finishScalar rfl (flagWord_relSgeu x y),
    exec_of_finishScalar rfl (flagWord_relSeq x z), exec_of_finishScalar rfl (flagWord_relSne x z),
    exec_of_finishScalar rfl (flagWord_relSlt x z), exec_of_finishScalar rfl (flagWord_relSge x z),
    exec_of_finishScalar rfl (flagWord_relSltu x z), exec_of_finishScalar rfl (flagWord_relSgeu x z)⟩

end Sys2Proof.Machine
end

/-! # Bit fields, unary rows, constants and moves

The functions of R108 to R111, bit by bit. -/
section
open Sys2Proof Sys2Proof.Machine Sys2Proof.Claims
namespace Sys2Proof.Machine

/-! ## Bits of numbers -/

theorem bitOf_eq_testBit (n k : Nat) : bitOf n k = n.testBit k := by
  rw [bitOf, Nat.testBit_eq_decide_div_mod_eq]; rfl

theorem testBit_bitsOf (n lo w k : Nat) : (bitsOf n lo w).testBit k = (decide (k < w) && n.testBit (lo + k)) := by
  rw [bitsOf, Nat.testBit_mod_two_pow, Nat.testBit_div_two_pow, Nat.add_comm]

/-- The two's-complement value is that of a word of its width. -/
theorem signedOf_eq_toInt (w n : Nat) (hw : 0 < w) : signedOf w n = (BitVec.ofNat w n).toInt := by
  have hpow : 2 ^ w = 2 * 2 ^ (w - 1) := by rw [← pow_succ', Nat.sub_add_cancel hw]
  have hlt : n % 2 ^ w < 2 ^ (w - 1) ↔ 2 * (n % 2 ^ w) < 2 ^ w := by omega
  rw [BitVec.toInt_eq_toNat_cond, BitVec.toNat_ofNat]
  simp only [signedOf, hlt]

/-! ## Bit fields (R108) -/

section fields
variable (x t : Word) {pos lenm1 k : Nat}

theorem getLsbD_bfxW (hk : k < 64) : (bfxW x pos lenm1).getLsbD k = (x >>> pos).getLsbD (min k lenm1) := by
  have hbit (i : Nat) : (BitVec.ofNat (lenm1 + 1) (bitsOf x.toNat pos (lenm1 + 1))).getLsbD i =
      (decide (i < lenm1 + 1) && (x >>> pos).getLsbD i) := by
    rw [BitVec.getLsbD_ofNat, testBit_bitsOf, BitVec.getLsbD_ushiftRight, BitVec.testBit_toNat, ← Bool.and_assoc, Bool.and_self]
  rw [bfxW, signedOf_eq_toInt _ _ (Nat.succ_pos lenm1)]
  change (BitVec.signExtend 64 _).getLsbD k = _
  rw [BitVec.getLsbD_signExtend, BitVec.msb_eq_getLsbD_last, hbit, hbit]
  by_cases h : k < lenm1 + 1
  · simp [hk, h, Nat.min_eq_left (Nat.le_of_lt_succ h)]
  · simp [hk, h, Nat.min_eq_right (Nat.le_of_lt (Nat.lt_of_succ_le (Nat.not_lt.1 h)))]

theorem getLsbD_bfxuW (hk : k < 64) :
    (bfxuW x pos lenm1).getLsbD k = (decide (k < lenm1 + 1) && (x >>> pos).getLsbD k) := by
  rw [bfxuW, BitVec.getLsbD_ofNat, testBit_bitsOf, BitVec.testBit_toNat, BitVec.getLsbD_ushiftRight]
  simp [hk]

/-- The mask of a field. -/
theorem testBit_fieldMask (len pos k : Nat) : ((2 ^ len - 1) * 2 ^ pos).testBit k = decide (pos ≤ k ∧ k < pos + len) := by
  rw [Nat.testBit_mul_two_pow, Nat.testBit_two_pow_sub_one, ← Bool.decide_and]
  exact decide_eq_decide.2 (by omega)

theorem getLsbD_bfiW (hk : k < 64) : (bfiW t x pos lenm1).getLsbD k =
    if pos ≤ k ∧ k < pos + (lenm1 + 1) then x.getLsbD (k - pos) else t.getLsbD k := by
  simp only [bfiW, BitVec.getLsbD_or, BitVec.getLsbD_and, BitVec.getLsbD_not, BitVec.getLsbD_ofNat, testBit_fieldMask]
  by_cases h : pos ≤ k ∧ k < pos + (lenm1 + 1)
  · simp only [h, hk, Nat.testBit_mul_two_pow, BitVec.testBit_toNat, and_self, decide_true, if_true, Bool.not_true, Bool.and_true,
      Bool.true_and, Bool.and_false, Bool.false_or]
  · simp only [h, hk, decide_true, decide_false, if_false, Bool.not_false, Bool.and_true, Bool.and_false, Bool.or_false]

end fields

/-! ## Unary rows (R109) -/

theorem clzN_le (x n : Nat) : clzN x n ≤ n := by
  induction n with
  | zero => exact le_rfl
  | succ n ih => rw [clzN]; split <;> omega

/-- Above the leading 1 every bit is 0. -/
theorem testBit_above_clzN (x n k : Nat) (hk : k < n) (h : n - clzN x n ≤ k) : x.testBit k = false := by
  induction n with
  | zero => omega
  | succ n ih =>
    rw [clzN, bitOf_eq_testBit] at h
    split at h
    · omega
    · rename_i hbit
      rcases Nat.lt_succ_iff_lt_or_eq.1 hk with hlt | rfl
      · exact ih hlt (by omega)
      · exact Bool.not_eq_true _ ▸ hbit

theorem testBit_at_clzN (x n : Nat) (h : clzN x n < n) : x.testBit (n - 1 - clzN x n) = true := by
  induction n with
  | zero => omega
  | succ n ih =>
    rw [clzN, bitOf_eq_testBit] at h ⊢
    split at h
    · rename_i hbit
      rw [if_pos hbit]
      exact hbit
    · rename_i hbit
      rw [if_neg hbit, show n + 1 - 1 - (1 + clzN x n) = n - 1 - clzN x n by omega]
      exact ih (by omega)

theorem ctzN_le (x n : Nat) : ctzN x n ≤ n := by
  induction n generalizing x with
  | zero => exact le_rfl
  | succ n ih =>
    have := ih (x / 2)
    rw [ctzN]; split <;> omega

theorem testBit_below_ctzN (x n k : Nat) (h : k < ctzN x n) : x.testBit k = false := by
  induction n generalizing x k with
  | zero => exact absurd h (Nat.not_lt_zero k)
  | succ n ih =>
    rw [ctzN] at h
    split at h
    · exact absurd h (Nat.not_lt_zero k)
    · cases k with
      | zero => simpa using ‹¬x % 2 = 1›
      | succ k => rw [Nat.testBit_succ]; exact ih _ _ (by omega)

theorem testBit_at_ctzN (x n : Nat) (h : ctzN x n < n) : x.testBit (ctzN x n) = true := by
  induction n generalizing x with
  | zero => exact absurd h (Nat.not_lt_zero _)
  | succ n ih =>
    rw [ctzN] at h ⊢
    split at h
    · rename_i hbit
      rw [if_pos hbit, Nat.testBit_zero, hbit]
      rfl
    · rename_i hbit
      rw [if_neg hbit, Nat.add_comm, Nat.testBit_succ]
      exact ih _ (by omega)

theorem popN_eq_length (x n : Nat) : popN x n = ((List.range n).filter fun k => x.testBit k).length := by
  induction n generalizing x with
  | zero => rfl
  | succ n ih =>
    have hrest : ((List.range n).map Nat.succ).filter (fun k => x.testBit k) =
        ((List.range n).filter fun k => (x / 2).testBit k).map Nat.succ := by
      rw [List.filter_map]
      simp only [Function.comp_def, Nat.testBit_succ]
    rw [popN, List.range_succ_eq_map, List.filter_cons, hrest, ih, Nat.testBit_zero]
    rcases Nat.mod_two_eq_zero_or_one x with h | h <;> simp [h, Nat.add_comm]

theorem popN_le (x n : Nat) : popN x n ≤ n := by
  rw [popN_eq_length]
  exact (List.length_filter_le _ _).trans_eq List.length_range

theorem brevN_lt (x n : Nat) : brevN x n < 2 ^ n := by
  induction n generalizing x with
  | zero => exact Nat.one_pos
  | succ n ih =>
    have := ih (x / 2)
    rw [brevN, pow_succ']
    rcases Nat.mod_two_eq_zero_or_one x with h | h <;> rw [h] <;> omega

theorem testBit_brevN (x n k : Nat) (hk : k < n) : (brevN x n).testBit k = x.testBit (n - 1 - k) := by
  induction n generalizing x with
  | zero => omega
  | succ n ih =>
    rw [brevN, Nat.mul_comm, Nat.testBit_two_pow_mul_add _ (brevN_lt _ _)]
    by_cases h : k < n
    · rw [if_pos h, ih _ h, ← Nat.testBit_succ]
      congr 1
      omega
    · obtain rfl : k = n := by omega
      simp

theorem bswapN_lt (x n : Nat) : bswapN x n < 2 ^ (8 * n) := by
  induction n generalizing x with
  | zero => exact Nat.one_pos
  | succ n ih =>
    have hrest := ih (x / 256)
    have hbyte : x % 256 < 256 := Nat.mod_lt _ (by decide)
    rw [bswapN, show (256 : Nat) ^ n = 2 ^ (8 * n) by rw [pow_mul]; rfl, Nat.mul_succ, pow_add]
    nlinarith

theorem testBit_bswapN (x n i k : Nat) (hi : i < n) (hk : k < 8) :
    (bswapN x n).testBit (8 * i + k) = x.testBit (8 * (n - 1 - i) + k) := by
  induction n generalizing x with
  | zero => omega
  | succ n ih =>
    rw [bswapN, show (256 : Nat) ^ n = 2 ^ (8 * n) by rw [pow_mul]; rfl, Nat.mul_comm, Nat.testBit_two_pow_mul_add _ (bswapN_lt _ _)]
    by_cases h : i < n
    · rw [if_pos (by omega), ih _ h, show (256 : Nat) = 2 ^ 8 from rfl, Nat.testBit_div_two_pow]
      congr 1
      omega
    · obtain rfl : i = n := by omega
      rw [if_neg (by omega), show (256 : Nat) = 2 ^ 8 from rfl, Nat.testBit_mod_two_pow]
      simp [hk]

/-- A count of bits of a word fits into a word. -/
theorem toNat_ofNat_of_le_64 {n : Nat} (h : n ≤ 64) : (BitVec.ofNat 64 n).toNat = n :=
  Nat.mod_eq_of_lt (h.trans_lt (by decide))

section unary
variable (x : Word) {v : Word}

theorem bits_of_toNat_eq_clzN (hv : v.toNat = clzN x.toNat 64) : v.toNat ≤ 64 ∧ (∀ k, 64 - v.toNat ≤ k → x.getLsbD k = false) ∧
    (v.toNat < 64 → x.getLsbD (63 - v.toNat) = true) := by
  rw [hv]
  refine ⟨clzN_le _ _, fun k hk => ?_, testBit_at_clzN x.toNat 64⟩
  by_cases h : k < 64
  · exact testBit_above_clzN x.toNat 64 k h hk
  · exact BitVec.getLsbD_of_ge x k (Nat.not_lt.1 h)

theorem bits_of_toNat_eq_ctzN (hv : v.toNat = ctzN x.toNat 64) : v.toNat ≤ 64 ∧ (∀ k, k < v.toNat → x.getLsbD k = false) ∧
    (v.toNat < 64 → x.getLsbD v.toNat = true) := by
  rw [hv]
  exact ⟨ctzN_le _ _, testBit_below_ctzN x.toNat 64, testBit_at_ctzN x.toNat 64⟩

theorem toNat_popc : (BitVec.ofNat 64 (popN x.toNat 64)).toNat = ((List.range 64).filter fun k => x.getLsbD k).length :=
  (toNat_ofNat_of_le_64 (popN_le _ _)).trans (popN_eq_length _ _)

theorem getLsbD_brev {k : Nat} (hk : k < 64) : (BitVec.ofNat 64 (brevN x.toNat 64)).getLsbD k = x.getLsbD (63 - k) := by
  rw [BitVec.getLsbD_ofNat, testBit_brevN _ _ _ hk, decide_eq_true hk, Bool.true_and, BitVec.testBit_toNat]

theorem getLsbD_bswap {i k : Nat} (hi : i < 8) (hk : k < 8) :
    (BitVec.ofNat 64 (bswapN x.toNat 8)).getLsbD (8 * i + k) = x.getLsbD (8 * (7 - i) + k) := by
  rw [BitVec.getLsbD_ofNat, testBit_bswapN _ _ _ _ hi hk, decide_eq_true (by omega), Bool.true_and, BitVec.testBit_toNat]

end unary

/-! ## Constants and moves (R110, R111) -/

theorem leaW_eq (x y : Word) (sh : Nat) : leaW x y sh = x + y * BitVec.ofNat 64 (2 ^ sh) := by
  have h : BitVec.twoPow 64 sh = BitVec.ofNat 64 (2 ^ sh) := BitVec.eq_of_toNat_eq (by rw [BitVec.toNat_twoPow, BitVec.toNat_ofNat])
  rw [leaW, BitVec.shiftLeft_eq_mul_twoPow, h]

/-- Settles O9: the immediate forms are the functions of R104 on the extended immediate; the other rows are given bit by bit. -/
theorem scalarImmediates : Obligations.ScalarImmediates := by
  intro d a b pos lenm1 imm imm32 sh4 s x z zs sh len does gives
  exact ⟨exec_of_finishScalar rfl (add_eq_ofInt x z), exec_of_finishScalar rfl rfl, exec_of_finishScalar rfl rfl,
    exec_of_finishScalar rfl rfl, exec_of_finishScalar rfl (sllW_eq_ofNat x z), exec_of_finishScalar rfl (srlW_eq_ofNat x z),
    exec_of_finishScalar rfl (sraW_eq_ofInt x z), exec_of_finishScalar rfl (mul_eq_ofInt x z),
    exec_of_finishScalar rfl (minW_eq_ofInt x z), exec_of_finishScalar rfl (maxW_eq_ofInt x z),
    ⟨_, exec_of_finishScalar rfl rfl, fun _ => getLsbD_bfxW x⟩,
    ⟨_, exec_of_finishScalar rfl rfl, fun _ => getLsbD_bfxuW x⟩,
    ⟨_, exec_of_finishScalar rfl rfl, fun _ => getLsbD_bfiW x (readS s d)⟩,
    ⟨_, exec_of_finishScalar rfl rfl, bits_of_toNat_eq_clzN x (toNat_ofNat_of_le_64 (clzN_le _ _))⟩,
    ⟨_, exec_of_finishScalar rfl rfl, bits_of_toNat_eq_ctzN x (toNat_ofNat_of_le_64 (ctzN_le _ _))⟩,
    ⟨_, exec_of_finishScalar rfl rfl, toNat_popc x⟩,
    ⟨_, exec_of_finishScalar rfl rfl, fun _ => getLsbD_brev x⟩,
    ⟨_, exec_of_finishScalar rfl rfl, fun _ _ => getLsbD_bswap x⟩,
    exec_of_finishScalar rfl rfl, exec_of_finishScalar rfl (congrArg (imm32 ++ ·) (BitVec.setWidth_eq_extractLsb' (by decide))),
    exec_of_finishScalar rfl rfl, exec_of_finishScalar rfl (leaW_eq _ _ _)⟩

end Sys2Proof.Machine
end

/-! # Control transfers and loops

Where a control unit goes on behind an instruction, and what becomes of its loops (R102, R117 to R124). -/
section
open Sys2Proof Sys2Proof.Machine Sys2Proof.Claims
namespace Sys2Proof.Machine

/-! ## Loops that a transfer leaves (R124) -/

theorem mfind_map_values {α β : Type} (f : α → β) (m : Map α) (k : Nat) : mfind (m.map fun e => (e.1, f e.2)) k = (mfind m k).map f := by
  induction m with
  | nil => rfl
  | cons e m ih => rw [List.map_cons, mfind, mfind, ih, apply_ite (Option.map f)]; rfl

/-- The change of `leaveLoops` is that of R124 on each loop. -/
theorem leaveLoops_eq_map (ls : Map SeqLoop) (target : Word) : leaveLoops ls target = ls.map fun e => (e.1, leftBy target e.2) := by
  refine List.map_congr_left fun e _ => Prod.ext rfl ?_
  obtain ⟨_, ⟨first, final, count, active⟩⟩ := e
  by_cases h : first.toNat ≤ target.toNat ∧ target.toNat ≤ final.toNat <;> cases active <;> simp [leftBy, h]

theorem mget_leaveLoops (ls : Map SeqLoop) (target : Word) (k : Nat) : mget {} (leaveLoops ls target) k = leftBy target (mget {} ls k) := by
  rw [leaveLoops_eq_map, mget, mget, mfind_map_values]
  cases mfind ls k <;> rfl

/-- Settles O13: a loop is looked up in the changed table as it is changed in the table. -/
theorem transferLeavesLoops : Obligations.TransferLeavesLoops := mget_leaveLoops

/-! ## Loops at their end (R123) -/

/-- Does loop `k` end at the address? -/
def endsAt (ls : Map SeqLoop) (a : Word) (k : Nat) : Bool := (mget {} ls k).active && (mget {} ls k).final == a

/-- A loop that has run for the last time. -/
def SeqLoop.ended (l : SeqLoop) : SeqLoop := { l with count := 0, active := false }

/-- A loop that runs once more. -/
def SeqLoop.counted (l : SeqLoop) : SeqLoop := { l with count := l.count - 1 }

/-- Loop `j` where the loops from `lo` up, below `hi`, that end at the address have ended. -/
def endedIn (ls : Map SeqLoop) (a : Word) (lo hi j : Nat) : SeqLoop :=
  if lo ≤ j ∧ j < hi ∧ endsAt ls a j = true then (mget {} ls j).ended else mget {} ls j

theorem leftBy_ended (target : Word) (l : SeqLoop) : leftBy target l.ended = l.ended := rfl

section loops
variable {ls : Map SeqLoop} {a : Word} {n : Nat}

theorem endsAt_iff {k : Nat} : endsAt ls a k = true ↔ (mget {} ls k).active = true ∧ (mget {} ls k).final = a := by simp [endsAt]

theorem endsAt_mset_of_ne (l : SeqLoop) {j : Nat} (h : j ≠ n) : endsAt (mset ls n l) a j = endsAt ls a j := by
  rw [endsAt, endsAt, mget_mset_of_ne _ _ _ h]

theorem evalLoops_succ_taken (h : endsAt ls a n = true) (hc : 1 < (mget {} ls n).count) :
    evalLoops ls a (n + 1) = (mset ls n (mget {} ls n).counted, some (mget {} ls n).first) :=
  (if_pos h).trans (if_pos hc)

theorem evalLoops_succ_ended (h : endsAt ls a n = true) (hc : (mget {} ls n).count ≤ 1) :
    evalLoops ls a (n + 1) = evalLoops (mset ls n (mget {} ls n).ended) a n :=
  (if_pos h).trans (if_neg (Nat.not_lt.2 hc))

theorem evalLoops_succ_other (h : ¬ endsAt ls a n = true) : evalLoops ls a (n + 1) = evalLoops ls a n := if_neg h

theorem endedIn_ended {lo : Nat} (h : endsAt ls a n = true) (hlo : lo ≤ n) (j : Nat) :
    endedIn (mset ls n (mget {} ls n).ended) a lo n j = endedIn ls a lo (n + 1) j := by
  by_cases hj : j = n
  · subst hj
    simp [endedIn, h, hlo]
  · have hlt : j < n ↔ j < n + 1 := by omega
    simp only [endedIn, endsAt_mset_of_ne _ hj, mget_mset_of_ne _ _ _ hj, hlt]

theorem endedIn_other {lo : Nat} (h : ¬ endsAt ls a n = true) (j : Nat) : endedIn ls a lo n j = endedIn ls a lo (n + 1) j := by
  have hlt : lo ≤ j ∧ j < n ∧ endsAt ls a j = true ↔ lo ≤ j ∧ j < n + 1 ∧ endsAt ls a j = true :=
    and_congr_right fun _ => and_congr_left fun he =>
      ⟨Nat.lt_succ_of_lt, fun hj => Nat.lt_of_le_of_ne (Nat.le_of_lt_succ hj) fun e => h (e ▸ he)⟩
  simp only [endedIn, hlt]

theorem endedIn_empty (lo : Nat) (h : n ≤ lo) (j : Nat) : endedIn ls a lo n j = mget {} ls j := if_neg fun ⟨hl, hu, _⟩ => by omega

/-- Where every loop that ends at the address runs for the last time, all of them end. -/
theorem evalLoops_all_last (h : ∀ k < n, endsAt ls a k = true → (mget {} ls k).count ≤ 1) :
    (evalLoops ls a n).2 = none ∧ ∀ j, mget {} (evalLoops ls a n).1 j = endedIn ls a 0 n j := by
  induction n generalizing ls with
  | zero => exact ⟨rfl, fun j => (endedIn_empty 0 le_rfl j).symm⟩
  | succ n ih =>
    by_cases he : endsAt ls a n = true
    · obtain ⟨hnone, hget⟩ := ih (ls := mset ls n (mget {} ls n).ended) fun k hk hek => by
        rw [endsAt_mset_of_ne _ hk.ne] at hek
        rw [mget_mset_of_ne _ _ _ hk.ne]
        exact h k (Nat.lt_succ_of_lt hk) hek
      rw [evalLoops_succ_ended he (h n n.lt_succ_self he)]
      exact ⟨hnone, fun j => (hget j).trans (endedIn_ended he n.zero_le j)⟩
    · obtain ⟨hnone, hget⟩ := ih fun k hk => h k (Nat.lt_succ_of_lt hk)
      rw [evalLoops_succ_other he]
      exact ⟨hnone, fun j => (hget j).trans (endedIn_other he j)⟩

/-- The first loop in decreasing number that runs once more is taken; those above it have ended. -/
theorem evalLoops_taken {k : Nat} (hk : k < n) (he : endsAt ls a k = true) (hc : 1 < (mget {} ls k).count)
    (h : ∀ j, k < j → j < n → endsAt ls a j = true → (mget {} ls j).count ≤ 1) :
    (evalLoops ls a n).2 = some (mget {} ls k).first ∧
      ∀ j, mget {} (evalLoops ls a n).1 j = if j = k then (mget {} ls k).counted else endedIn ls a (k + 1) n j := by
  induction n generalizing ls with
  | zero => exact absurd hk k.not_lt_zero
  | succ n ih =>
    rcases Nat.lt_succ_iff_lt_or_eq.1 hk with hlt | rfl
    · by_cases hen : endsAt ls a n = true
      · have hcn := h n hlt n.lt_succ_self hen
        obtain ⟨hsome, hget⟩ := ih (ls := mset ls n (mget {} ls n).ended) hlt (by rwa [endsAt_mset_of_ne _ hlt.ne])
          (by rwa [mget_mset_of_ne _ _ _ hlt.ne]) fun j hkj hj hej => by
            rw [endsAt_mset_of_ne _ hj.ne] at hej
            rw [mget_mset_of_ne _ _ _ hj.ne]
            exact h j hkj (Nat.lt_succ_of_lt hj) hej
        rw [mget_mset_of_ne _ _ _ hlt.ne] at hsome hget
        rw [evalLoops_succ_ended hen hcn]
        exact ⟨hsome, fun j => by rw [hget, endedIn_ended hen hlt]⟩
      · obtain ⟨hsome, hget⟩ := ih hlt he hc fun j hkj hj => h j hkj (Nat.lt_succ_of_lt hj)
        rw [evalLoops_succ_other hen]
        exact ⟨hsome, fun j => by rw [hget, endedIn_other hen]⟩
    · rw [evalLoops_succ_taken he hc]
      refine ⟨rfl, fun j => ?_⟩
      rw [mget_mset, endedIn_empty _ le_rfl]

end loops

section advance
variable {q : Seq} {now : Nat}

@[simp] theorem Seq.advance_last : (q.advance now).last = now := by unfold Seq.advance; dsimp only; split <;> rfl

theorem Seq.advance_of_taken {b : Word} (h : (evalLoops q.loops q.pc 4).2 = some b) :
    (q.advance now).pc = b ∧ (q.advance now).loops = leaveLoops (evalLoops q.loops q.pc 4).1 b := by
  simp only [Seq.advance, h, and_self]

theorem Seq.advance_of_none (h : (evalLoops q.loops q.pc 4).2 = none) :
    (q.advance now).pc = q.pc + 8 ∧ (q.advance now).loops = (evalLoops q.loops q.pc 4).1 := by
  simp only [Seq.advance, h, and_self]

end advance

/-- An instruction without a result. -/
theorem finish_eq (s : State) : finish s = .next (done s) := by
  unfold finish done
  split <;> rfl

theorem done_seq {s : State} {n : Nat} (h : s.cur.unit = .seq n) : done s = s.updSeq n fun q => q.advance s.pcyc := by simp [done, h]

/-- Settles O14: the four loops are evaluated in decreasing number up to the first that runs once more. -/
theorem loopsAtTheirEnd : Obligations.LoopsAtTheirEnd := by
  intro s n hn q loop ends ended
  have hends (k : Nat) : ends k ↔ k < 4 ∧ endsAt q.loops q.pc k = true := by rw [endsAt_iff]
  have hseq : (done s).seq n = q.advance s.pcyc := by rw [done_seq hn, State.updSeq_seq_self]
  refine ⟨done s, finish_eq s, ?_⟩
  rw [hseq]
  refine ⟨Seq.advance_last, Seq.advance_ready .., Seq.advance_s .., fun k hk hcount habove => ?_, fun hlast => ?_⟩
  · intro back
    obtain ⟨hk4, hek⟩ := (hends k).1 hk
    obtain ⟨hsome, hget⟩ := evalLoops_taken hk4 hek hcount fun j hkj hj he => habove j hkj ((hends j).2 ⟨hj, he⟩)
    obtain ⟨hpc, hloops⟩ := Seq.advance_of_taken (now := s.pcyc) hsome
    refine ⟨hpc, fun j hkj hj => ?_, ?_, fun j hjk hj => ?_⟩ <;> rw [hloops, mget_leaveLoops, hget]
    · rw [if_neg hkj.ne', endedIn, if_pos ⟨hkj, (hends j).1 hj⟩]
      rfl
    · rw [if_pos rfl]
      rfl
    · rw [if_neg hjk, endedIn, if_neg fun h => hj ⟨h.1, (hends j).2 h.2⟩]
  · obtain ⟨hnone, hget⟩ := evalLoops_all_last fun k hk he => hlast k ((hends k).2 ⟨hk, he⟩)
    obtain ⟨hpc, hloops⟩ := Seq.advance_of_none (now := s.pcyc) hnone
    refine ⟨hpc, fun j hj => ?_, fun j hj => ?_⟩ <;> rw [hloops, hget, endedIn]
    · rw [if_pos ⟨j.zero_le, (hends j).1 hj⟩]
      rfl
    · rw [if_neg fun h => hj ((hends j).2 h.2)]

/-! ## Branches, calls and jumps (R117 to R119) -/

section transfers
variable {s : State} {n : Nat} (hn : s.cur.unit = .seq n)
include hn

/-- A branch goes to its target where the relation of its operands holds, and else to the next instruction. -/
theorem exec_of_branchIf {i : Instr} {rel : Word → Word → Bool} {d a : BitVec 6} {target : BitVec 26} {p : Bool}
    (h : exec i s = branchIf rel d a target s) (hp : rel (readS s d) (readS s a) = p) :
    exec i s = .next (if p then s.updSeq n fun q => q.jump s.pcyc (targetOf (s.seq n).pc target) else done s) := by
  rw [h, branchIf, onSeq_seq s hn, hp, finish_eq]
  cases p <;> rfl

theorem exec_br (target : BitVec 26) :
    exec (.br target) s = .next (s.updSeq n fun q => q.jump s.pcyc (targetOf (s.seq n).pc target)) := onSeq_seq s hn _

theorem exec_call (d : BitVec 6) (target : BitVec 26) : exec (.call d target) s =
    .next (s.updSeq n fun q => (q.write d.toNat ((s.seq n).pc + 8) (s.pcyc + 1)).jump s.pcyc (targetOf (s.seq n).pc target)) :=
  onSeq_seq s hn _

theorem exec_jr (a : BitVec 6) : exec (.jr a) s = jumpReg n (readS s a) s id := onSeq_seq s hn _

theorem exec_jalr (d a : BitVec 6) : exec (.jalr d a) s =
    jumpReg n (readS s a) s fun q => q.write d.toNat ((s.seq n).pc + 8) (s.pcyc + 1) := onSeq_seq s hn _

end transfers

theorem jumpReg_misaligned {n : Nat} {t : Word} {s : State} {link : Seq → Seq} (h : t.toNat % 8 ≠ 0) :
    jumpReg n t s link = .next (ownFault n 0x02 t s) := if_pos h

/-- A jump to a multiple of 8 that does not end a call of DCCALL (R118, R495). -/
theorem jumpReg_goes {n : Nat} {t : Word} {s : State} {link : Seq → Seq} (h : t.toNat % 8 = 0)
    (hret : ¬ (384 ≤ n ∧ n < 396 ∧ (s.die (n - 384)).inCall = true ∧ t = 0xFFFFFFFFFFFFFFF8)) :
    jumpReg n t s link = .next (s.updSeq n fun q => (link q).jump s.pcyc t) := by
  have hret' : ¬ (isDieCtl n && (s.die (n - 384)).inCall && t == firmwareReturn) = true := by
    simpa [isDieCtl, firmwareReturn, and_assoc] using hret
  rw [jumpReg, if_neg (not_not.2 h), if_neg hret']

/-- Settles O12: a transfer is a jump of its unit, and each branch takes it where its relation holds. -/
theorem controlTransfers : Obligations.ControlTransfers := by
  intro d a target s n hn pc there x y go branches
  have hthere : there = targetOf pc target := congrArg (pc + ·) (BitVec.mul_comm _ _)
  have hbranch {i : Instr} {rel : Word → Word → Bool} {p : Bool} (h : exec i s = branchIf rel d a target s) (hp : rel x y = p) :
      branches i p := by
    have := exec_of_branchIf hn h hp
    rwa [← hthere] at this
  refine ⟨?_, hbranch rfl rfl, hbranch rfl (decide_not ..).symm, hbranch rfl rfl, hbranch rfl rfl, hbranch rfl rfl, hbranch rfl rfl, ?_,
    fun h hret => ⟨?_, ?_⟩, fun h => ⟨?_, ?_⟩⟩
  · have := exec_br hn target
    rwa [← hthere] at this
  · have := exec_call hn d target
    rwa [← hthere] at this
  · exact (exec_jr hn a).trans (jumpReg_goes h hret)
  · exact (exec_jalr hn d a).trans (jumpReg_goes h hret)
  · exact (exec_jr hn a).trans (jumpReg_misaligned h)
  · exact (exec_jalr hn d a).trans (jumpReg_misaligned h)

/-! ## Arming loops (R121, R122, R126) -/

section arm
variable {s : State} {n : Nat} (hn : s.cur.unit = .seq n) (d a : BitVec 6) (span : BitVec 16)

/-- Eight bytes for each instruction of a span. -/
theorem ofNat_mul_span : BitVec.ofNat 64 (8 * span.toNat) = 8 * span.zeroExtend 64 := by
  rw [BitVec.ofNat_mul, BitVec.ofNat_toNat]; rfl

theorem ofNat_mul_span_succ : BitVec.ofNat 64 (8 * (span.toNat + 1)) = 8 * (span.zeroExtend 64 + 1) := by
  rw [BitVec.ofNat_mul, BitVec.ofNat_add, BitVec.ofNat_toNat]; rfl

include hn

theorem exec_loop (count : BitVec 16) : exec (.loop d count span) s = .next (armLoop n d.toNat count.toNat span.toNat s) :=
  onSeq_seq s hn _

theorem exec_loopr_arms (h : 1 ≤ (readS s a).toNat) (h' : (readS s a).toNat ≤ 65535) :
    exec (.loopr d a span) s = .next (armLoop n d.toNat (readS s a).toNat span.toNat s) := by
  have hne : readS s a ≠ 0 := fun h0 => by rw [h0] at h; exact absurd h (by decide)
  exact (onSeq_seq s hn _).trans ((if_neg hne).trans (if_neg (Nat.not_lt.2 h')))

theorem exec_loopr_faults (h : 65535 < (readS s a).toNat) : exec (.loopr d a span) s = .next (ownFault n 0x05 (readS s a) s) := by
  have hne : readS s a ≠ 0 := fun h0 => by rw [h0] at h; exact absurd h (by decide)
  exact (onSeq_seq s hn _).trans ((if_neg hne).trans (if_pos h))

/-- With a count of 0 the unit goes behind the body as a jump does, and the loop is inactive (log 47). -/
theorem exec_loopr_skips (h : readS s a = 0) : exec (.loopr d a span) s = .next (s.updSeq n fun q =>
    let q := q.jump s.pcyc (q.pc + BitVec.ofNat 64 (8 * (span.toNat + 1)))
    { q with ready := s.pcyc + 1, loops := mset q.loops d.toNat (mget {} q.loops d.toNat).ended }) :=
  (onSeq_seq s hn _).trans (if_pos h)

end arm

theorem exec_tloop {s : State} {t : Nat} (ht : s.cur.unit = .tile t) (d : BitVec 6) (stride : BitVec 12) (count span : BitVec 10) :
    exec (.tloop d stride count span) s = .next (s.setTile t { s.tile t with
      lb := mput 0 (s.tile t).lb d.toNat (s.cur.entry + 1), le := mput 0 (s.tile t).le d.toNat (s.cur.entry + span.toNat)
      lc := mput 0 (s.tile t).lc d.toNat count.toNat }) :=
  onTile_tile s ht _

/-- Settles O15: a loop is armed behind the evaluation of the ends at its own address (log 46), and `loopr` by its count. -/
theorem loopsAreArmed : Obligations.LoopsAreArmed := by
  intro d a count span stride c10 s10 s
  refine ⟨fun n hn => ?_, fun t ht => exec_tloop ht d stride c10 s10⟩
  intro q pc x armed
  have harmed (k : Nat) : armLoop n d.toNat k span.toNat s = armed k := by rw [armLoop, ofNat_mul_span]; rfl
  refine ⟨?_, fun h h' => ?_, exec_loopr_faults hn d a span, fun h => ⟨_, exec_loopr_skips hn d a span h, ?_⟩⟩
  · rw [exec_loop hn, harmed]
  · rw [exec_loopr_arms hn d a span h h', harmed]
  · refine ⟨?_, ?_, ?_, ?_, fun m hm => State.updSeq_seq_of_ne _ _ hm, rfl, rfl⟩ <;> rw [State.updSeq_seq_self]
    · exact congrArg (pc + ·) (ofNat_mul_span_succ span)
    · rw [mget_mset_self]; rfl
    · rw [mget_mset_self]; rfl
    · rfl

end Sys2Proof.Machine
end

/-! # Accesses of control units to device and host memory

How `ld` and `st` begin, fault and are performed (R113 to R116, R358, R386). -/
section
open Sys2Proof Sys2Proof.Machine Sys2Proof.Claims
namespace Sys2Proof.Machine

/-! ## Words and entries in memory (R5, R382, R383) -/

theorem readByte_writeLE_inside (m : Memory) (a n v k : Nat) (h : k < n) :
    readByte (writeLE m a n v) (a + k) = BitVec.ofNat 8 (v / 256 ^ k) := by
  induction n generalizing m a v k with
  | zero => exact absurd h k.not_lt_zero
  | succ n ih =>
    rw [writeLE]
    cases k with
    | zero => rw [readByte_writeLE_outside _ _ _ _ _ (by omega), Nat.add_zero, readByte_writeByte_self, pow_zero, Nat.div_one]
    | succ k => rw [Nat.add_comm k 1, ← Nat.add_assoc, ih _ _ _ _ (by omega), Nat.div_div_eq_div_mul, pow_add, pow_one]

@[simp] theorem readEntry_updLeaf (place : Nat) (f : Word → Word) (s : State) :
    readEntry (updLeaf place f s) place = f (readEntry s place) := by
  change BitVec.ofNat 64 (readLE (writeLE s.mem place 8 (f (readEntry s place)).toNat) place 8) = _
  rw [readLE_writeLE, show (256 : Nat) ^ 8 = 2 ^ 64 from rfl, Nat.mod_eq_of_lt (BitVec.isLt _), BitVec.ofNat_toNat, BitVec.setWidth_eq]

theorem leaf_d_setBit (e : Word) : Leaf.d (Leaf.setBit e 56 true) = true := by
  rw [Leaf.d, bitOf_eq_testBit, BitVec.testBit_toNat, Leaf.setBit, if_pos rfl, BitVec.getLsbD_or]
  simp

theorem ofNat_toNat_wordVec (w : Word) : BitVec.ofNat 64 (wordVec w).toNat = w := by
  rw [BitVec.ofNat_toNat, wordVec, BitVec.setWidth_setWidth_of_le _ (by decide), BitVec.setWidth_eq]

/-! ## Translation of a write (R386, R413) -/

theorem sameLeaf_of_eq {s : State} {t : TlbEntry} (h : readEntry s t.leafAt = t.leaf) : sameLeaf s t = true := by simp [sameLeaf, h]

/-- With no snapshot open there is nothing to capture. -/
theorem captureFor_closed {s : State} {ctx : Nat} (h : (s.ctx ctx).snapOpen = none) (va place : Nat) :
    captureFor ctx va place s = .ok () s := by
  simp [captureFor, h]

theorem mirrorOld_closed {s : State} {ctx : Nat} (h : (s.ctx ctx).snapOpen = none) (die page off n v : Nat) :
    mirrorOld die ctx page off n v s = .ok () s := by
  simp only [mirrorOld, h]

section translation
variable {s : State} {die ctx va : Nat} {x : TlbEntry} (hx : tlbFind s die ctx va = some x)
include hx

theorem translate_denied {need : Need} {m : Bool} (ha : need.allowed x.leaf = false) : translate die ctx va need m s = .denied := by
  simp only [translate, hx, ha, Bool.not_false, if_true]

/-- A write under an entry that still is as the TLB holds it leaves D set in the leaf. -/
theorem translate_write (hw : Leaf.w x.leaf = true) (he : readEntry s x.leafAt = x.leaf)
    (hfree : Leaf.d x.leaf = true ∨ underTest s x.leafAt = none) (hsnap : (s.ctx ctx).snapOpen = none) :
    translate die ctx va .write true s =
      .ok (Leaf.pa x.leaf + (va - x.va)) x.va (if Leaf.d x.leaf = true then s else setDirty die x s) := by
  have hallowed : Need.write.allowed x.leaf = true := hw
  have hwrites : Need.write.writes = true := rfl
  simp only [translate, hx, hallowed, hwrites, sameLeaf_of_eq he, captureFor_closed hsnap, Bool.not_true, Bool.and_self, if_true,
    Bool.false_eq_true, if_false]
  by_cases hd : Leaf.d x.leaf = true
  · simp only [hd, if_true]
  · simp only [hd, hfree.resolve_left hd, Option.isSome_none, Bool.or_self, Bool.false_eq_true, if_false]

end translation

/-- The state behind the translation of a write: D is set in the leaf entry, and nothing else that an access needs has changed. -/
structure DirtySet (s u : State) (place : Nat) : Prop where
  dirty : Leaf.d (readEntry u place) = true
  bytes : ∀ b, b < place ∨ place + 8 ≤ b → readByte u.mem b = readByte s.mem b
  cur : u.cur = s.cur
  pcyc : u.pcyc = s.pcyc
  opCount : u.opCount = s.opCount
  seqs : u.seqs = s.seqs
  near : u.near = s.near
  peerMem : u.peerMem = s.peerMem

theorem dirtySet_of_dirty {s : State} {place : Nat} (h : Leaf.d (readEntry s place) = true) : DirtySet s s place :=
  ⟨h, fun _ _ => rfl, rfl, rfl, rfl, rfl, rfl, rfl⟩

theorem dirtySet_setDirty (die : Nat) (x : TlbEntry) (s : State) : DirtySet s (setDirty die x s) x.leafAt where
  dirty := (congrArg Leaf.d (readEntry_updLeaf x.leafAt (fun e => Leaf.setBit e 56 true) s)).trans (leaf_d_setBit _)
  bytes b hb := readByte_writeLE_outside s.mem _ _ _ b hb
  cur := rfl
  pcyc := rfl
  opCount := rfl
  seqs := rfl
  near := rfl
  peerMem := rfl

/-! ## The translated access of a control unit (R115, R386, R388) -/

section access
variable {s : State} {n va : Nat} {need : Need} {k : Nat → Nat → State → StepResult}

theorem seqAccess_beyond (h : 2 ^ 56 ≤ va) : seqAccess n va need s k = .next (ownFault n 0x03 (BitVec.ofNat 64 va) s) := if_pos h

/-- Behind the walk of its `pgstat`, an access waits for that walk. -/
theorem seqAccess_behind_walk {id : Nat} (hva : va < 2 ^ 56) (hh : streamHeld s (s.seq n).ctxid (.seq n) = false)
    (hwalk : walkAhead s n = some id) :
    seqAccess n va need s k = .next (s.updSeq n fun q => { q with run := .xlat id, ready := s.pcyc + 1 }) := by
  simp only [seqAccess, Nat.not_le.2 hva, hh, hwalk, Bool.false_eq_true, if_false]

section free
variable (hva : va < 2 ^ 56) (hh : streamHeld s (s.seq n).ctxid (.seq n) = false) (hwalk : walkAhead s n = none)
include hva hh hwalk

theorem seqAccess_denied (h : translate (dieOfSeq n) (s.seq n).ctxid va need true s = .denied) :
    seqAccess n va need s k = .next (ownFault n 0x03 (BitVec.ofNat 64 va) s) := by
  simp only [seqAccess, Nat.not_le.2 hva, hh, hwalk, h, Bool.false_eq_true, if_false]

theorem seqAccess_ok {pa page : Nat} {u : State} (h : translate (dieOfSeq n) (s.seq n).ctxid va need true s = .ok pa page u) :
    seqAccess n va need s k = k pa page u := by
  simp only [seqAccess, Nat.not_le.2 hva, hh, hwalk, h, Bool.false_eq_true, if_false]

end free
end access

/-- An access of `bytes` bytes of control unit `n`: aligned, and then translated (R114, R115). -/
def dramAccess (n bytes va : Nat) (need : Need) (k : Nat → Nat → State → StepResult) (s : State) : StepResult :=
  if va % bytes ≠ 0 then .next (ownFault n 0x02 (BitVec.ofNat 64 va) s) else seqAccess n va need s k

/-- The virtual address of a load or a store. -/
def dramVa (s : State) (a : BitVec 6) (imm : BitVec 26) : Nat := (readS s a + imm.signExtend 64).toNat

/-- The access of a load. -/
def loadOp (bytes : Nat) (signed : Bool) (d : BitVec 6) (va pa : Nat) (s : State) : Op :=
  { mkOp s (.dramLoad bytes signed) 0 pa 1 with va := va, dst := some d.toNat, pol := (s.ctx (curCtx s)).pol }

/-- The access of a store. -/
def storeOp (bytes : Nat) (d : BitVec 6) (va pa page : Nat) (s : State) : Op :=
  { mkOp s (.dramStore bytes (readS s d)) 0 pa 1 with va := va, usable := page, pol := (s.ctx (curCtx s)).pol }

/-- What a load does once it is translated. -/
def beginLoad (bytes : Nat) (signed : Bool) (d : BitVec 6) (va pa _page : Nat) (s : State) : StepResult :=
  finish ((issueLoad (loadOp bytes signed d va pa s) 0 .moderr s).later (.dramAccessPerformed s.opCount))

/-- What a store does once it is translated. -/
def beginStore (bytes : Nat) (d : BitVec 6) (va pa page : Nat) (s : State) : StepResult :=
  finish ((s.newOp (storeOp bytes d va pa page s)).later (.dramAccessPerformed s.opCount))

section begin
variable {s : State} {n : Nat} {i : Instr} {d a : BitVec 6} {imm : BitVec 26} {bytes : Nat} (hn : s.cur.unit = .seq n)
include hn

theorem exec_of_dramLoad {signed : Bool} (h : exec i s = dramLoad bytes signed d a imm s) :
    exec i s = dramAccess n bytes (dramVa s a imm) .read (beginLoad bytes signed d (dramVa s a imm)) s :=
  h.trans (onSeq_seq s hn _)

theorem exec_of_dramStore (h : exec i s = dramStore bytes d a imm s) :
    exec i s = dramAccess n bytes (dramVa s a imm) .write (beginStore bytes d (dramVa s a imm)) s :=
  h.trans (onSeq_seq s hn _)

end begin

section dramAccess
variable {s : State} {n bytes va : Nat} {need : Need} {k : Nat → Nat → State → StepResult}

theorem dramAccess_misaligned (h : va % bytes ≠ 0) : dramAccess n bytes va need k s = .next (ownFault n 0x02 (BitVec.ofNat 64 va) s) :=
  if_pos h

theorem dramAccess_aligned (h : va % bytes = 0) : dramAccess n bytes va need k s = seqAccess n va need s k := if_neg (not_not.2 h)

end dramAccess

/-- Settles O28: an access asks for its alignment, its range and its leaf in turn. -/
theorem dramAccessesFault : Obligations.DramAccessesFault := by
  intro d a imm s n hn va align page faults
  have access {i : Instr} {bytes : Nat} {need : Need} {k : Nat → Nat → State → StepResult} (h : exec i s = dramAccess n bytes va need k s) :
      faults i bytes need.allowed :=
    ⟨fun hal => h.trans (dramAccess_misaligned hal), fun hal hva => (h.trans (dramAccess_aligned hal)).trans (seqAccess_beyond hva),
      fun hal hva hh hwalk _ hx ha => (h.trans (dramAccess_aligned hal)).trans (seqAccess_denied hva hh hwalk (translate_denied hx ha))⟩
  exact ⟨access (exec_of_dramLoad hn rfl), access (exec_of_dramLoad hn rfl), access (exec_of_dramLoad hn rfl),
    access (exec_of_dramLoad hn rfl), access (exec_of_dramLoad hn rfl), access (exec_of_dramLoad hn rfl), access (exec_of_dramLoad hn rfl),
    access (exec_of_dramStore hn rfl), access (exec_of_dramStore hn rfl), access (exec_of_dramStore hn rfl), access (exec_of_dramStore hn rfl)⟩

end Sys2Proof.Machine
end

/-! # Loads and stores of control units: how they begin, and how they are performed

The state behind a `ld` or `st` that issues, and behind its DRAM_ACCESS_PERFORMED (R102, R114, R116). -/
section
open Sys2Proof Sys2Proof.Machine Sys2Proof.Claims
namespace Sys2Proof.Machine

/-! ## A control unit that waits for a register (R102) -/

/-- Where a unit goes on does not depend on what its registers wait for. -/
theorem Seq.advance_pc_waits (q : Seq) (w : List (Nat × Nat)) (now : Nat) :
    (({ q with waits := w } : Seq).advance now).pc = (q.advance now).pc := by
  simp only [Seq.advance]
  split <;> rfl

@[simp] theorem Seq.advance_waits (q : Seq) (now : Nat) : (q.advance now).waits = q.waits := by
  unfold Seq.advance; dsimp only; split <;> rfl

section waitFor
variable {s : State} {n r id : Nat}

theorem mem_waits_waitFor (h : r ≠ 0) : (r, id) ∈ ((waitFor n r id s).seq n).waits := by
  rw [waitFor, if_neg h, State.updSeq_seq_self]
  exact List.mem_cons_self

theorem waitFor_seq_s : ((waitFor n r id s).seq n).s = (s.seq n).s := by
  unfold waitFor; split
  · rfl
  · rw [State.updSeq_seq_self]

theorem waitFor_advance_pc (now : Nat) : (((waitFor n r id s).seq n).advance now).pc = ((s.seq n).advance now).pc := by
  unfold waitFor; split
  · rfl
  · rw [State.updSeq_seq_self, Seq.advance_pc_waits]

@[simp] theorem waitFor_ops : (waitFor n r id s).ops = s.ops := by unfold waitFor; split <;> rfl
@[simp] theorem waitFor_opCount : (waitFor n r id s).opCount = s.opCount := by unfold waitFor; split <;> rfl
@[simp] theorem waitFor_cur : (waitFor n r id s).cur = s.cur := by unfold waitFor; split <;> rfl
@[simp] theorem State.memories_newOp (s : State) (o : Op) : (s.newOp o).memories = s.memories := rfl
@[simp] theorem waitFor_memories : (waitFor n r id s).memories = s.memories := by unfold waitFor; split <;> rfl

end waitFor

/-! ## How a load and a store begin (R114) -/

section begin
variable {s : State} {n va pa page bytes : Nat} {signed : Bool} {d : BitVec 6} (hn : s.cur.unit = .seq n)
include hn

/-- In a control unit the register of a load waits for it. -/
theorem issueLoad_seq {o : Op} {lat r : Nat} {res : Result} (ho : o.cur = s.cur) (hdst : o.dst = some r) :
    issueLoad o lat res s = waitFor n r s.opCount (s.newOp o) := by
  simp only [issueLoad, ho, hn, hdst]

theorem beginLoad_eq : beginLoad bytes signed d va pa page s =
    .next (((waitFor n d.toNat s.opCount (s.newOp (loadOp bytes signed d va pa s))).later (.dramAccessPerformed s.opCount)).updSeq n
      fun q => q.advance s.pcyc) := by
  have hcur : ((waitFor n d.toNat s.opCount (s.newOp (loadOp bytes signed d va pa s))).later
      (.dramAccessPerformed s.opCount)).cur.unit = .seq n := (congrArg Cur.unit waitFor_cur).trans hn
  rw [beginLoad, issueLoad_seq hn rfl rfl, finish_seq _ hcur]
  simp

theorem beginLoad_next : ∃ u o, beginLoad bytes signed d va pa page s = .next u ∧ begun s u o ∧ o.kind = .dramLoad bytes signed ∧
    o.addr = pa ∧ o.va = va ∧ o.dst = some d.toNat ∧ awaited s u d 0 .moderr ∧ goesOn s u ∧ keepsMemory s u := by
  refine ⟨_, loadOp bytes signed d va pa s, beginLoad_eq hn, ?_⟩
  refine ⟨⟨?_, ?_, rfl, rfl, rfl, rfl⟩, rfl, rfl, rfl, rfl, ?_, fun m hm => ?_, keepsMemory_of_memories ?_⟩
  · simp
  · simp
  · simp only [awaited, hn]
    intro hd
    rw [State.updSeq_seq_self, Seq.advance_waits]
    exact mem_waits_waitFor hd
  · obtain rfl : n = m := UnitId.seq.inj (hn.symm.trans hm)
    rw [State.updSeq_seq_self, Seq.advance_s, Seq.advance_ready]
    exact ⟨waitFor_advance_pc _, waitFor_seq_s, rfl⟩
  · simp

end begin

theorem beginStore_next {s w : State} {n va pa page bytes place : Nat} {d : BitVec 6} (hn : s.cur.unit = .seq n) (h : DirtySet s w place) :
    ∃ u o, beginStore bytes d va pa page w = .next u ∧ begun s u o ∧ o.kind = .dramStore bytes (readS s d) ∧ o.addr = pa ∧ o.va = va ∧
      o.dst = none ∧ goesOn s u ∧ Leaf.d (readEntry u place) = true ∧ u.near = s.near ∧ u.peerMem = s.peerMem ∧
      ∀ b, b < place ∨ place + 8 ≤ b → readByte u.mem b = readByte s.mem b := by
  have hw : w.cur.unit = .seq n := (congrArg Cur.unit h.cur).trans hn
  have hseq : w.seq n = s.seq n := by rw [State.seq, State.seq, h.seqs]
  have hread : readS w d = readS s d := by simp only [readS, hw, hn, hseq]
  refine ⟨_, storeOp bytes d va pa page w, finish_seq _ hw, ⟨?_, ?_, h.cur, h.pcyc, rfl, rfl⟩, congrArg _ hread, rfl, rfl, rfl,
    fun m hm => ?_, h.dirty, h.near, h.peerMem, h.bytes⟩
  · simp [h.opCount]
  · simp [h.opCount]
  · obtain rfl : n = m := UnitId.seq.inj (hn.symm.trans hm)
    simp [hseq, h.pcyc]

/-- Settles O26: behind the waits of its stream a load is under way with its register awaited, and a store with D set in its leaf. -/
theorem dramAccessesBegin : Obligations.DramAccessesBegin := by
  intro d a imm s n x hn va pa held free hva hx waits loads stores
  have wait {i : Instr} {bytes : Nat} {need : Need} {k : Nat → Nat → State → StepResult} (h : exec i s = dramAccess n bytes va need k s) :
      waits i bytes := fun hal =>
    have hi := h.trans (dramAccess_aligned hal)
    ⟨fun hh => hi.trans (seqAccess_held hva hh), fun _ hh hwalk => hi.trans (seqAccess_behind_walk hva hh hwalk)⟩
  have load {i : Instr} {bytes : Nat} {signed : Bool} (h : exec i s = dramLoad bytes signed d a imm s) : loads i bytes signed := by
    have hi := exec_of_dramLoad hn h
    refine ⟨wait hi, fun ⟨hh, hwalk⟩ hal hrd => ?_⟩
    rw [(hi.trans (dramAccess_aligned hal)).trans (seqAccess_hit hva hh hwalk hx hrd rfl)]
    exact beginLoad_next hn
  have store {i : Instr} {bytes : Nat} (h : exec i s = dramStore bytes d a imm s) : stores i bytes := by
    have hi := exec_of_dramStore hn h
    refine ⟨wait hi, fun ⟨hh, hwalk⟩ hal hw he htest hsnap => ?_⟩
    rw [(hi.trans (dramAccess_aligned hal)).trans (seqAccess_ok hva hh hwalk (translate_write hx hw he htest hsnap))]
    refine beginStore_next hn ?_
    split
    · exact dirtySet_of_dirty (he ▸ ‹Leaf.d x.leaf = true›)
    · exact dirtySet_setDirty ..
  exact ⟨load rfl, load rfl, load rfl, load rfl, load rfl, load rfl, load rfl, store rfl, store rfl, store rfl, store rfl⟩

/-! ## How an access is performed (R116) -/

@[simp] theorem complete_seqs (id : Nat) (o : Op) (s : State) : (complete id o s).seqs = s.seqs := by
  unfold complete orderDone; split <;> rfl

@[simp] theorem complete_memories (id : Nat) (o : Op) (s : State) : (complete id o s).memories = s.memories := by
  unfold complete orderDone; split <;> rfl

theorem complete_ops_self (id : Nat) (o : Op) (s : State) : mfind (complete id o s).ops id = none := mfind_mdel_self _ _

theorem complete_seq (id : Nat) (o : Op) (s : State) (n : Nat) : (complete id o s).seq n = s.seq n := by
  rw [State.seq, State.seq, complete_seqs]

/-- The answer of an access for which a register of a control unit waits writes that register. -/
theorem answer_seq {s : State} {id n r ready : Nat} {o : Op} (v : Vec) (hn : o.cur.unit = .seq n) (hdst : o.dst = some r)
    (hw : (r, id) ∈ (s.seq n).waits) : ∃ w : State, answer id o v ready s = w.updSeq n (·.write r (BitVec.ofNat 64 v.toNat) (ready + o.slow)) ∧
      w.seq n = s.seq n ∧ w.memories = s.memories := by
  have hc : (s.seq n).waits.contains (r, id) = true := List.contains_iff_mem.2 hw
  refine ⟨setOp id { o with got := v, left := [], served := true, usable := ready + o.slow } s, ?_, rfl, rfl⟩
  simp only [answer, hn, hdst]
  exact if_pos hc

section performed
variable {s : State} {id : Nat} {o : Op} (ho : mfind s.ops id = some o) (hr : o.refused = false) (ht : underTest s o.addr = none)
  (hb : blockedByEarlier s id o = false)
include ho hr ht hb

theorem exec_dramAccessPerformed_load {bytes : Nat} {signed : Bool} (hk : o.kind = .dramLoad bytes signed) :
    exec (.dramAccessPerformed id) s = .next (complete id o
      (answer id o (wordVec (loadValue bytes signed (readLE s.mem o.addr bytes))) s.pcyc s)) := by
  change execDramAccessPerformed id s = _
  simp only [execDramAccessPerformed, opAt, ho, hr, ht, hb, hk, Bool.false_eq_true, if_false]

theorem exec_dramAccessPerformed_store {bytes : Nat} {v : Word} (hk : o.kind = .dramStore bytes v) (hs : (s.ctx o.ctx).snapOpen = none) :
    exec (.dramAccessPerformed id) s = .next (complete id o (writePhys o.addr bytes v.toNat s)) := by
  change execDramAccessPerformed id s = _
  simp only [execDramAccessPerformed, opAt, ho, hr, ht, hb, hk, mirrorOld_closed hs, ite_self, Bool.false_eq_true, if_false]

end performed

/-- Settles O27: a load is one write of its register, a store one write of its bytes. -/
theorem dramAccessesPerformed : Obligations.DramAccessesPerformed := by
  intro s id n o ho hn hr ht hb
  refine ⟨fun bytes signed d hk hdst hw hd => ?_, fun bytes v hk hs => ?_⟩
  · intro v
    obtain ⟨w, hanswer, hseq, hmem⟩ := answer_seq (ready := s.pcyc) (wordVec (loadValue bytes signed v)) hn hdst hw
    have hq : (complete id o (answer id o (wordVec (loadValue bytes signed v)) s.pcyc s)).seq n =
        (s.seq n).write d (loadValue bytes signed v) (s.pcyc + o.slow) := by
      rw [complete_seq, hanswer, State.updSeq_seq_self, hseq, ofNat_toNat_wordVec]
    refine ⟨_, exec_dramAccessPerformed_load ho hr ht hb hk, ?_⟩
    rw [hq]
    refine ⟨regOf_setRegOf_self _ _ hd, fun r hrd => regOf_setRegOf_of_ne _ _ hrd, by simp [Seq.write], rfl,
      keepsMemory_of_memories ?_, complete_ops_self ..⟩
    rw [complete_memories, hanswer, State.memories_updSeq, hmem]
  · refine ⟨_, exec_dramAccessPerformed_store ho hr ht hb hk hs, ?_⟩
    obtain ⟨hmem, hpeer, hnear⟩ := complete_keepsBytes id o (writePhys o.addr bytes v.toNat s)
    rw [hmem, hnear, hpeer, complete_seqs]
    exact ⟨fun k hk => readByte_writeLE_inside _ _ _ _ _ hk, fun b hb => readByte_writeLE_outside _ _ _ _ _ hb, rfl, rfl, rfl,
      complete_ops_self ..⟩

end Sys2Proof.Machine
end

/-! # Beats, and the end of a cycle

What a beat runs, and what becomes of `PCYC` where no task of the cycle is left (R135, R489). -/
section
open Sys2Proof Sys2Proof.Machine Sys2Proof.Claims
namespace Sys2Proof.Machine

/-- An entry between beats runs its instruction as that entry and beat, and stands at its next beat (R135). -/
theorem issueBeat_found {s : State} {t e : Nat} {b : Between} (h : ((s.tile t).between.find? fun b => b.cur.entry = e) = some b) :
    issueBeat t e s = exec b.instr (nextBeat t e (({ s with cur := b.cur } : State).setTile t { s.tile t with issuing := b.cur.order })) := by
  simp only [issueBeat, h]
  rfl

theorem step_of_no_task {s : State} (h : s.todo = []) : step s = .next (tick s) := by
  unfold step stepOnce
  rw [h]

/-- Measuring the energy of the dies takes no time (log 14). -/
@[simp] theorem measureDies_pcyc (s : State) : (measureDies s).pcyc = s.pcyc := by
  rw [measureDies, foldl_pcyc fun _ _ => by simp]

/-- `PCYC` counts in 64 bits (R489): the rest of the end of a cycle does not move it. -/
theorem tick_pcyc (s : State) : (tick s).pcyc = (s.pcyc + 1) % 2 ^ 64 := measureDies_pcyc _

/-- Settles O6: each task is a row of the table, a beat found between beats, or, where none is left, the end of the cycle. -/
theorem stepRunsTask : Obligations.StepRunsTask := by
  unfold Obligations.StepRunsTask
  refine ⟨fun s i rest htodo => ?event, fun s t e rest b htodo hfound => ?beat, fun s htodo => ?tick⟩
  case event => exact step_of_todo htodo
  case beat => exact (step_of_todo htodo).trans (issueBeat_found (s := { s with todo := rest }) hfound)
  case tick => exact ⟨tick s, step_of_no_task htodo, tick_pcyc s⟩

end Sys2Proof.Machine
end

/-! # Near accesses: how they begin

The state behind a near load or store, a presence access or an access of an address generator that issues (R172 to R183). -/
section
open Sys2Proof Sys2Proof.Machine Sys2Proof.Claims
namespace Sys2Proof.Machine

/-! ## A control unit past its instruction (R102) -/

@[simp] theorem Seq.advance_oc (q : Seq) (now : Nat) : (q.advance now).oc = q.oc := by unfold Seq.advance; dsimp only; split <;> rfl

/-- Where a unit goes on depends on its pc and its loops only. -/
theorem Seq.advance_pc_congr {q r : Seq} (hpc : q.pc = r.pc) (hloops : q.loops = r.loops) (now : Nat) :
    (q.advance now).pc = (r.advance now).pc := by
  simp only [Seq.advance, hpc, hloops]
  split <;> rfl

section done
variable (s : State)

@[simp] theorem done_tiles : (done s).tiles = s.tiles := by unfold done; split <;> rfl
@[simp] theorem done_mtiles : (done s).mtiles = s.mtiles := by unfold done; split <;> rfl
@[simp] theorem done_ops : (done s).ops = s.ops := by unfold done; split <;> rfl
@[simp] theorem done_opCount : (done s).opCount = s.opCount := by unfold done; split <;> rfl
@[simp] theorem done_agenda : (done s).agenda = s.agenda := by unfold done; split <;> rfl
@[simp] theorem done_memories : (done s).memories = s.memories := by unfold done; split <;> rfl

@[simp] theorem done_mtile (mt : Nat) : (done s).mtile mt = s.mtile mt := by rw [State.mtile, done_mtiles, State.mtile]

@[simp] theorem done_chanOf (v : UnitId) (c : Nat) : chanOf (done s) v c = chanOf s v c := by
  cases v with
  | tile t => simp only [chanOf, State.tile, done_tiles]
  | seq m =>
    unfold done
    split
    · rfl
    next n _ =>
      by_cases h : m = n
      · simp only [chanOf, h, State.updSeq_seq_self, Seq.advance_oc]
      · simp only [chanOf, State.updSeq_seq_of_ne _ _ h]

theorem awaited_done {s u : State} {d : BitVec 6} {lat : Nat} {res : Result} (h : awaited s u d lat res) :
    awaited s (done u) d lat res := by
  unfold awaited at h ⊢
  split at h
  · simpa only [State.tile, done_tiles] using h
  next m _ =>
    intro hd
    unfold done
    split
    · exact h hd
    next n _ =>
      by_cases hm : m = n
      · simpa only [hm, State.updSeq_seq_self, Seq.advance_waits] using h hd
      · simpa only [State.updSeq_seq_of_ne _ _ hm] using h hd

end done

section waitFor
variable (n r id : Nat) (s : State)

@[simp] theorem waitFor_agenda : (waitFor n r id s).agenda = s.agenda := by unfold waitFor; split <;> rfl

/-- A unit that waits for a register stands where it did. -/
theorem waitFor_seq_goes (m : Nat) : ((waitFor n r id s).seq m).pc = (s.seq m).pc ∧ ((waitFor n r id s).seq m).loops = (s.seq m).loops ∧
    ((waitFor n r id s).seq m).s = (s.seq m).s := by
  unfold waitFor
  split
  · exact ⟨rfl, rfl, rfl⟩
  · by_cases h : m = n
    · simp only [h, State.updSeq_seq_self, and_self]
    · simp only [State.updSeq_seq_of_ne _ _ h, and_self]

end waitFor

/-! ## An access on its way to its banks (R175) -/

/-- What a near access has done when its unit goes on: it is under way as `o` and reaches its banks 6 cycles later, and its unit stands
at its instruction. -/
structure SetForBanks (s u : State) (o : Op) : Prop where
  begins : begun s u o
  agenda : u.agenda = s.agenda ++ [(s.pcyc + 6, .bankAccess s.opCount)]
  memories : u.memories = s.memories
  unit : u.cur.unit = s.cur.unit
  clock : u.pcyc = s.pcyc
  seqs : ∀ n, (u.seq n).pc = (s.seq n).pc ∧ (u.seq n).loops = (s.seq n).loops ∧ (u.seq n).s = (s.seq n).s

/-- Its unit goes on (R102). -/
theorem SetForBanks.goOn {s u : State} {o : Op} (h : SetForBanks s u o) : begun s (done u) o ∧
    (done u).agenda = s.agenda ++ [(s.pcyc + 6, .bankAccess s.opCount)] ∧ keepsMemory s (done u) ∧ goesOn s (done u) := by
  refine ⟨by simpa only [begun, done_ops, done_opCount] using h.begins, (done_agenda u).trans h.agenda,
    keepsMemory_of_memories ((done_memories u).trans h.memories), fun n hn => ?_⟩
  obtain ⟨hpc, hloops, hs⟩ := h.seqs n
  rw [done_seq (h.unit.trans hn), State.updSeq_seq_self, h.clock, Seq.advance_s, Seq.advance_ready]
  exact ⟨Seq.advance_pc_congr hpc hloops _, hs, rfl⟩

/-- An access that the issuing unit makes in this cycle. -/
def Op.IssuedIn (o : Op) (s : State) : Prop := o.cur = s.cur ∧ o.issued = s.pcyc ∧ o.served = false ∧ o.refused = false

theorem mkOp_issuedIn (s : State) (kind : OpKind) (mt a words : Nat) : (mkOp s kind mt a words).IssuedIn s := ⟨rfl, rfl, rfl, rfl⟩

/-- An access without an answer. -/
theorem toBanks_setForBanks {s : State} {o : Op} (ho : o.IssuedIn s) : SetForBanks s (toBanks o s) o where
  begins := ⟨mfind_mset_self _ _ _, rfl, ho⟩
  agenda := rfl
  memories := rfl
  unit := rfl
  clock := rfl
  seqs _ := ⟨rfl, rfl, rfl⟩

/-- A load: its result is due in a tile after `lat` advancing cycles, and in a control unit its register waits for it (R102, R175). -/
theorem issueLoad_setForBanks {s : State} {o : Op} {d : BitVec 6} {lat : Nat} {res : Result} (ho : o.IssuedIn s)
    (hd : o.dst = some d.toNat ∨ (∃ t, s.cur.unit = .tile t)) :
    let u := (issueLoad o lat res s).after 6 (.bankAccess s.opCount)
    SetForBanks s u o ∧ awaited s u d lat res := by
  intro u
  cases hu : s.cur.unit with
  | tile t =>
    have hload : issueLoad o lat res s = (s.newOp o).setTile t (addPending (s.tile t) lat res (some s.opCount)) := by
      simp only [issueLoad, ho.1, hu]
      rfl
    refine ⟨⟨⟨?_, ?_, ho⟩, ?_, ?_, ?_, ?_, fun n => ?_⟩, ?_⟩
    all_goals simp [u, hload, awaited, hu]
  | seq n =>
    have hdst : o.dst = some d.toNat := hd.resolve_right (by simp [hu])
    have hload := issueLoad_seq hu (lat := lat) (res := res) ho.1 hdst
    refine ⟨⟨⟨?_, ?_, ho⟩, ?_, ?_, ?_, ?_, fun n => ?_⟩, ?_⟩
    · simp [u, hload]
    · simp [u, hload]
    · simp [u, hload]
    · simp [u, hload]
    · simp [u, hload]
    · simp [u, hload]
    · simpa [u, hload] using waitFor_seq_goes _ d.toNat s.opCount (s.newOp o) n
    · simp only [awaited, hu]
      intro hd0
      simpa [u, hload] using mem_waits_waitFor (s := s.newOp o) hd0

/-! ## The checks of R173 -/

theorem nearCheck_good {s : State} {q words : Nat} {ea : Word} {presence : Bool} (h : nearGood s q ea words presence)
    (k : Nat → Nat → StepResult) :
    nearCheck ea words presence s k = k (memoryOfQuad q (ea.toNat / 2 ^ 21)) (ea.toNat % 2 ^ 21) := by
  obtain ⟨hq, hin, hal, hspan, hmode⟩ := h
  have hout : ¬ ea.toNat / 2 ^ 23 ≠ 0 := by omega
  have halign : ea.toNat % 2 ^ 21 % 8 = 0 := by omega
  simp only [nearCheck, hq, if_neg hout]
  generalize memoryOfQuad q (ea.toNat / 2 ^ 21) = mt at *
  generalize ea.toNat % 2 ^ 21 = o at *
  have hserves : ((List.range words).all fun i => modeServes presence (modeAt s mt (wordOffset s mt o i))) = true :=
    List.all_eq_true.2 fun i hi => hmode i (List.mem_range.1 hi)
  have hfits : (decide (o % 8 ≠ 0) || (decide (2 ^ 21 < o + 8 * words) && modeAt s mt o != .lineBuffer)) = false := by
    rcases hspan with hspan | hline
    · rw [halign, decide_eq_false (Nat.not_lt.2 hspan)]; rfl
    · rw [halign, hline]; simp
  rw [hfits, hserves]
  rfl

/-! ## Order channels (R227) -/

/-- The state with an operation counted on a channel: an access begins in it as it would before. -/
structure CountedOn (s v : State) (ch n : Nat) : Prop where
  number : ch ≠ 0 → n = (chanOf s s.cur.unit (ch - 1)).issued + 1 ∧ (chanOf v s.cur.unit (ch - 1)).issued = n
  opCount : v.opCount = s.opCount
  agenda : v.agenda = s.agenda
  memories : v.memories = s.memories
  cur : v.cur = s.cur
  clock : v.pcyc = s.pcyc
  seqs : ∀ m, (v.seq m).pc = (s.seq m).pc ∧ (v.seq m).loops = (s.seq m).loops ∧ (v.seq m).s = (s.seq m).s

theorem tagOp_free {s : State} {ch : Nat} (h : channelFree s ch) (k : Nat → State → StepResult) :
    ∃ n v, tagOp ch s k = k n v ∧ CountedOn s v ch n := by
  by_cases hc : ch = 0
  · exact ⟨0, s, if_pos hc, fun hne => absurd hc hne, rfl, rfl, rfl, rfl, rfl, fun _ => ⟨rfl, rfl, rfl⟩⟩
  · have hroom : ¬ 65535 ≤ (chanOf s s.cur.unit (ch - 1)).open := Nat.not_le.2 (h.resolve_left hc)
    refine ⟨_, _, (if_neg hc).trans (if_neg hroom), ?_⟩
    cases hu : s.cur.unit with
    | tile t => exact ⟨fun _ => ⟨by rw [hu], by simp [setChan, chanOf, hu]⟩, rfl, rfl, rfl, rfl, rfl, fun _ => ⟨rfl, rfl, rfl⟩⟩
    | seq n =>
      refine ⟨fun _ => ⟨by rw [hu], by simp [setChan, chanOf, hu]⟩, rfl, rfl, rfl, rfl, rfl, fun m => ?_⟩
      by_cases hm : m = n
      · simp only [setChan, hm, State.updSeq_seq_self, and_self]
      · simp only [setChan, State.updSeq_seq_of_ne _ _ hm, and_self]

theorem SetForBanks.of_counted {s v u : State} {ch n : Nat} {o : Op} (h : CountedOn s v ch n) (hu : SetForBanks v u o) :
    SetForBanks s u o where
  begins := by simpa only [begun, h.opCount, h.cur, h.clock] using hu.begins
  agenda := by simpa only [h.agenda, h.clock, h.opCount] using hu.agenda
  memories := hu.memories.trans h.memories
  unit := by rw [hu.unit, h.cur]
  clock := hu.clock.trans h.clock
  seqs m := by
    obtain ⟨hpc, hloops, hs⟩ := hu.seqs m
    obtain ⟨hpc', hloops', hs'⟩ := h.seqs m
    exact ⟨hpc.trans hpc', hloops.trans hloops', hs.trans hs'⟩

/-! ## Loads and stores (R174, R178, R179) -/

section loads
variable {s : State} {q words : Nat} {ea : Word} {presence : Bool} {kind : OpKind}

theorem nearLoad_begins {vec : Bool} {d : BitVec 6} (h : nearGood s q ea words presence) :
    ∃ u o, nearLoad kind ea words presence vec d s = .next (done u) ∧ SetForBanks s u o ∧
      awaited s u d 14 (if vec then .vector d.toNat (BitVec.allOnes 2048) 0 else .scalar d.toNat 0) ∧
      o = { mkOp s kind (memoryOfQuad q (ea.toNat / 2 ^ 21)) (ea.toNat % 2 ^ 21) words with dst := some d.toNat } :=
  have hload := issueLoad_setForBanks (s := s) (d := d) (lat := 14)
    (res := if vec then .vector d.toNat (BitVec.allOnes 2048) 0 else .scalar d.toNat 0)
    (o := { mkOp s kind (memoryOfQuad q (ea.toNat / 2 ^ 21)) (ea.toNat % 2 ^ 21) words with dst := some d.toNat })
    ⟨rfl, rfl, rfl, rfl⟩ (.inl rfl)
  ⟨_, _, (nearCheck_good h _).trans (finish_eq _), hload.1, hload.2, rfl⟩

theorem nearStore_begins {ch : Nat} (h : nearGood s q ea words presence) (hch : channelFree s ch) :
    ∃ u o, nearStore kind ea words presence ch s = .next (done u) ∧ SetForBanks s u o ∧ o.kind = kind ∧
      (o.mtile = memoryOfQuad q (ea.toNat / 2 ^ 21) ∧ o.addr = ea.toNat % 2 ^ 21 ∧ o.words = words ∧ o.left = List.range words) ∧
      o.dst = none ∧ o.chan = ch ∧
      (ch ≠ 0 → o.seqn = (chanOf s s.cur.unit (ch - 1)).issued + 1 ∧ (chanOf u s.cur.unit (ch - 1)).issued = o.seqn) := by
  obtain ⟨n, v, htag, hv⟩ := tagOp_free hch fun seqn s => finish (toBanks
    { mkOp s kind (memoryOfQuad q (ea.toNat / 2 ^ 21)) (ea.toNat % 2 ^ 21) words with chan := ch, seqn := seqn } s)
  exact ⟨_, _, ((nearCheck_good h _).trans htag).trans (finish_eq _), .of_counted hv (toBanks_setForBanks ⟨rfl, rfl, rfl, rfl⟩),
    rfl, ⟨rfl, rfl, rfl, rfl⟩, rfl, rfl, hv.number⟩

end loads

/-! ## Address generators (R181 to R183) -/

section giveOffsets
variable {mt : Nat} {l : List (Nat × Nat)} {r : State × Generator}

/-- The generator advances once for each access. -/
theorem giveOffsets_gen : (giveOffsets mt l r).2 = r.2.steps l.length := by
  induction l generalizing r with
  | nil => rfl
  | cons x l ih => rw [giveOffsets, ih, List.length_cons, Generator.steps]

/-- Handing out offsets changes accesses under way and nothing else. -/
theorem giveOffsets_state : ∃ ops, (giveOffsets mt l r).1 = { r.1 with ops := ops } := by
  induction l generalizing r with
  | nil => exact ⟨r.1.ops, rfl⟩
  | cons x l ih =>
    rw [giveOffsets]
    dsimp only
    split
    next o _ =>
      obtain ⟨ops, h⟩ := ih (r := (setOp x.2 { o with addr := r.2.offset } r.1, r.2.step))
      exact ⟨ops, h⟩
    · exact ih (r := (r.1, r.2.step))

/-- An access that is not among them keeps its offset. -/
theorem giveOffsets_opAt_of_ne {id : Nat} (h : ∀ x ∈ l, x.2 ≠ id) : opAt (giveOffsets mt l r).1 id = opAt r.1 id := by
  induction l generalizing r with
  | nil => rfl
  | cons x l ih =>
    rw [giveOffsets, ih fun y hy => h y (List.mem_cons_of_mem x hy)]
    dsimp only
    split
    · exact mfind_mset_of_ne _ _ (h x List.mem_cons_self).symm
    · rfl

theorem giveOffsets_append (l' : List (Nat × Nat)) : giveOffsets mt (l ++ l') r = giveOffsets mt l' (giveOffsets mt l r) := by
  induction l generalizing r with
  | nil => rfl
  | cons x l ih => rw [List.cons_append, giveOffsets, ih, giveOffsets]

end giveOffsets

section insertTaker
variable {l id : Nat} {ts : List (Nat × Nat)}

theorem length_insertTaker : (insertTaker l id ts).length = ts.length + 1 := by
  induction ts with
  | nil => rfl
  | cons x r ih => unfold insertTaker; split <;> simp [ih]

/-- A tile stands behind those of a lower local index and ahead of the others (R176). -/
theorem insertTaker_eq (hs : (ts.map Prod.fst).Pairwise (· < ·)) (hl : ∀ x ∈ ts, x.1 ≠ l) :
    ∃ hi, insertTaker l id ts = (ts.filter fun x => x.1 < l) ++ (l, id) :: hi ∧ ∀ x ∈ hi, x ∈ ts := by
  induction ts with
  | nil => exact ⟨[], rfl, fun _ h => h⟩
  | cons x r ih =>
    obtain ⟨hx, hr⟩ := List.pairwise_cons.1 hs
    unfold insertTaker
    split
    next hlt =>
      have hnone : (x :: r).filter (fun y => decide (y.1 < l)) = [] := List.filter_eq_nil_iff.2 fun y hy => by
        rcases List.mem_cons.1 hy with rfl | hy
        · simpa using hlt.le
        · simpa using (hlt.trans (hx y.1 (List.mem_map_of_mem hy))).le
      exact ⟨x :: r, by rw [hnone, List.nil_append], fun _ h => h⟩
    next hge =>
      have hlt : x.1 < l := lt_of_le_of_ne (Nat.not_lt.1 hge) (hl x List.mem_cons_self)
      obtain ⟨hi, he, hmem⟩ := ih hr fun y hy => hl y (List.mem_cons_of_mem x hy)
      exact ⟨hi, by rw [he, List.filter_cons_of_pos (by simpa using hlt), List.cons_append],
        fun y hy => List.mem_cons_of_mem x (hmem y hy)⟩

end insertTaker

/-- The access of a tile gets the offset behind those of a lower local index. -/
theorem giveOffsets_own {mt l id : Nat} {s : State} {g : Generator} {o : Op} (ho : opAt s id = some o)
    (hs : (g.takers.map Prod.fst).Pairwise (· < ·)) (hothers : ∀ x ∈ g.takers, x.1 ≠ l ∧ x.2 < id) :
    opAt (giveOffsets mt (insertTaker l id g.takers) (s, g)).1 id =
      some { o with addr := (g.steps (g.takers.filter fun x => x.1 < l).length).offset } := by
  obtain ⟨hi, hins, hmem⟩ := insertTaker_eq (id := id) hs fun x hx => (hothers x hx).1
  have hother : ∀ x ∈ g.takers, x.2 ≠ id := fun x hx => (hothers x hx).2.ne
  have hown : opAt (giveOffsets mt (g.takers.filter fun x => x.1 < l) (s, g)).1 id = some o :=
    (giveOffsets_opAt_of_ne fun x hx => hother x (List.mem_of_mem_filter hx)).trans ho
  rw [hins, giveOffsets_append, giveOffsets, giveOffsets_opAt_of_ne fun x hx => hother x (hmem x hx)]
  simp only [hown, giveOffsets_gen]
  exact mfind_mset_self _ _ _

theorem takersBefore_eq (g : Generator) (now l : Nat) :
    takersBefore g now l = ((g.opened now).takers.filter fun x => x.1 < l).length := by
  unfold takersBefore Generator.opened
  split <;> rfl

section genAccess
variable {s : State} {q t : Nat} {ag : BitVec 6} (hu : s.cur.unit = .tile t) (hq : curQuad s = some q)
include hu hq

/-- An access of a generator is at the offset behind the accesses of the cycle from tiles of a lower local index, and the generator advances
once more for it (R176, R183). -/
theorem genAccess_begins {k : Nat → Nat → State → State} {mt n off : Nat} {g : Generator} {o : Op}
    (hmt : mt = memoryOfQuad q (ag.toNat / 4 % 4)) (hn : n = ag.toNat % 4) (hg : g = (genAt s mt n).opened s.pcyc)
    (hoff : off = (g.steps (g.takers.filter fun x => x.1 < localOfPos t).length).offset)
    (hsorted : (g.takers.map Prod.fst).Pairwise (· < ·)) (hothers : ∀ x ∈ g.takers, x.1 ≠ localOfPos t ∧ x.2 < s.opCount)
    (hplain : plainAt s mt off = true) (hk : SetForBanks s (k mt off s) o) (ho : o.addr = off) :
    ∃ u ts, genAccess ag s k = .next (done u) ∧ SetForBanks s u o ∧ u.tiles = (k mt off s).tiles ∧
      genAt u mt n = { g.steps (g.takers.length + 1) with takers := ts } := by
  have hplace : genPlace s ag = (mt, n) := by rw [genPlace, hq, hmt, hn]; rfl
  have hfirst : takersBefore (genAt s mt n) s.pcyc (localOfPos t) = (g.takers.filter fun x => x.1 < localOfPos t).length := by
    rw [takersBefore_eq, hg]
  generalize hr : giveOffsets mt (insertTaker (localOfPos t) s.opCount g.takers) (k mt off s, g) = r
  obtain ⟨ops, hstate⟩ : ∃ ops, r.1 = { k mt off s with ops := ops } := by rw [← hr]; exact giveOffsets_state
  have hgen : r.2 = g.steps (g.takers.length + 1) := by rw [← hr, giveOffsets_gen, length_insertTaker]
  have hop : opAt r.1 s.opCount = some o := by
    rw [← hr, giveOffsets_own hk.begins.1 hsorted hothers, ← hoff, ← ho]
  refine ⟨setGen mt n { r.2 with takers := insertTaker (localOfPos t) s.opCount g.takers } r.1,
    insertTaker (localOfPos t) s.opCount g.takers, ?_, ⟨⟨hop, ?_, ?_⟩, ?_, ?_, ?_, ?_, ?_⟩, ?_, ?_⟩
  · simp only [genAccess, hplace, hu, hfirst, ← hg, ← hoff, hplain, hr, if_true]
    exact finish_eq _
  · rw [hstate]; exact hk.begins.2.1
  · exact hk.begins.2.2
  · rw [hstate]; exact hk.agenda
  · rw [hstate]; exact hk.memories
  · rw [hstate]; exact hk.unit
  · rw [hstate]; exact hk.clock
  · rw [hstate]; exact hk.seqs
  · rw [hstate]; rfl
  · rw [← hgen]; simp [genAt, setGen]

end genAccess

/-- The access of `agld` at an offset. -/
def generatorLoad (d : BitVec 6) (mt o : Nat) (s : State) : State :=
  (issueLoad { mkOp s .nearLoad mt o 32 with dst := some d.toNat, gen := true } 14 (.vector d.toNat (BitVec.allOnes 2048) 0) s).after 6
    (.bankAccess s.opCount)

/-- The access of `agst` at an offset. -/
def generatorStore (a : BitVec 6) (mt o : Nat) (s : State) : State :=
  toBanks { mkOp s (.nearStore (readV s a)) mt o 32 with gen := true } s

/-! ## The obligation -/

section meanings
variable (s : State) (d a b : BitVec 6) (imm : BitVec 26) (ocx : BitVec 4)

theorem exec_nld : exec (.nld d a imm) s = onTile s fun _ => nearLoad .nearLoad (readS s a + imm.signExtend 64) 32 false true d s := rfl
theorem exec_nlds : exec (.nlds d a imm) s = nearLoad .nearLoad (readS s a + imm.signExtend 64) 1 false false d s := rfl
theorem exec_nst : exec (.nst d a b ocx) s =
    onTile s fun _ => nearStore (.nearStore (readV s d)) (readS s a + readS s b) 32 false (chanOfX ocx) s := rfl
theorem exec_nsts : exec (.nsts d a b ocx) s =
    nearStore (.nearStore ((readS s d).setWidth 2048)) (readS s a + readS s b) 1 false (chanOfX ocx) s := rfl
theorem exec_pld : exec (.pld d a b) s = nearLoad .presLoad (readS s a + readS s b) 1 true false d s := rfl
theorem exec_pldv : exec (.pldv d a b) s = onTile s fun _ => nearLoad .presLoad (readS s a + readS s b) 32 true true d s := rfl
theorem exec_pst : exec (.pst d a b ocx) s =
    nearStore (.presStore ((readS s d).setWidth 2048)) (readS s a + readS s b) 1 true (chanOfX ocx) s := rfl
theorem exec_pstv : exec (.pstv d a b ocx) s =
    onTile s fun _ => nearStore (.presStore (readV s d)) (readS s a + readS s b) 32 true (chanOfX ocx) s := rfl
theorem exec_agset : exec (.agset d a) s = execAgset d a s := rfl
theorem exec_agld : exec (.agld d a) s = onTile s fun _ => genAccess a s (generatorLoad d) := rfl
theorem exec_agst : exec (.agst d a) s = onTile s fun _ => genAccess d s (generatorStore a) := rfl

end meanings

section begin
variable {s : State} {q : Nat} {d a b : BitVec 6}

/-- `pclr` in a presence partition of its own group (R180). -/
theorem execPclr_begins {p : Partition} (h : nearGood s q (readS s a) 1 true) (hn : (readS s b).toNat ≠ 0) (hmax : (readS s b).toNat ≤ 262144)
    (hp : partAt s (memoryOfQuad q ((readS s a).toNat / 2 ^ 21)) ((readS s a).toNat % 2 ^ 21) = some p)
    (hspan : (readS s a).toNat % 2 ^ 21 + 8 * (readS s b).toNat ≤ p.base + p.granules * 65536) (hown : ownsPart s p = true) :
    ∃ u o, execPclr a b s = .next (done u) ∧ SetForBanks s u o ∧ o.kind = .presClear ∧
      o.mtile = memoryOfQuad q ((readS s a).toNat / 2 ^ 21) ∧ o.addr = (readS s a).toNat % 2 ^ 21 ∧ o.words = (readS s b).toNat := by
  have hserves : (decide (262144 < (readS s b).toNat) || decide (p.base + p.granules * 65536 < (readS s a).toNat % 2 ^ 21 + 8 * (readS s b).toNat) ||
      !ownsPart s p) = false := by
    rw [decide_eq_false (Nat.not_lt.2 hmax), decide_eq_false (Nat.not_lt.2 hspan), hown]; rfl
  refine ⟨_, { mkOp s .presClear (memoryOfQuad q ((readS s a).toNat / 2 ^ 21)) ((readS s a).toNat % 2 ^ 21) (readS s b).toNat with
    left := List.range (min 256 (readS s b).toNat) }, (if_neg hn).trans ((nearCheck_good h _).trans ?_),
    toBanks_setForBanks ⟨rfl, rfl, rfl, rfl⟩, rfl, rfl, rfl, rfl⟩
  simp only [hp, hserves, Bool.false_eq_true, if_false]
  exact finish_eq _

/-- `agset` reads the descriptor; its generator is to take it after 14 advancing cycles (R182). -/
theorem execAgset_begins {t : Nat} (ht : s.cur.unit = .tile t) (h : nearGood s q (readS s a) 4 false) :
    ∃ u o, execAgset d a s = .next (done u) ∧ SetForBanks s u o ∧
      awaited s u 0 14 (.pattern (memoryOfQuad q (d.toNat / 4 % 4)) (d.toNat % 4) 0) ∧
      o = mkOp s (.takePattern (d.toNat % 4)) (memoryOfQuad q ((readS s a).toNat / 2 ^ 21)) ((readS s a).toNat % 2 ^ 21) 4 := by
  have hplace : genPlace s d = (memoryOfQuad q (d.toNat / 4 % 4), d.toNat % 4) := by rw [genPlace, h.1]; rfl
  have hload := issueLoad_setForBanks (s := s) (d := 0) (lat := 14)
    (res := .pattern (memoryOfQuad q (d.toNat / 4 % 4)) (d.toNat % 4) 0)
    (mkOp_issuedIn s (.takePattern (d.toNat % 4)) (memoryOfQuad q ((readS s a).toNat / 2 ^ 21)) ((readS s a).toNat % 2 ^ 21) 4)
    (.inr ⟨t, ht⟩)
  refine ⟨_, _, ((onTile_tile s ht _).trans (nearCheck_good h _)).trans ?_, hload.1, hload.2, rfl⟩
  rw [hplace]
  exact finish_eq _

theorem plainAt_of_serves {mt off : Nat} (h : ∀ k, k < 32 → modeServes false (modeAt s mt (wordOffset s mt off k)) = true) :
    plainAt s mt off = true :=
  List.all_eq_true.2 fun k hk => h k (List.mem_range.1 hk)

/-- What a tile awaits is written in the tile. -/
theorem awaited_congr {t lat : Nat} {res : Result} {u v : State} (ht : s.cur.unit = .tile t) (hv : v.tiles = u.tiles)
    (h : awaited s u d lat res) : awaited s v d lat res := by
  simpa only [awaited, ht, State.tile, hv] using h

/-- A generator's pattern and indices stand behind its accesses of the cycle. -/
theorem genAt_done_of_eq {u : State} {mt n : Nat} {x : Generator} {ts : List (Nat × Nat)} (h : genAt u mt n = { x with takers := ts }) :
    (genAt (done u) mt n).desc = x.desc ∧ (genAt (done u) mt n).j0 = x.j0 ∧ (genAt (done u) mt n).j1 = x.j1 ∧
      (genAt (done u) mt n).j2 = x.j2 := by
  rw [show genAt (done u) mt n = genAt u mt n by rw [genAt, done_mtile, genAt], h]
  exact ⟨rfl, rfl, rfl, rfl⟩

theorem execPclr_none (h : readS s b = 0) : execPclr a b s = .next (done s) := by
  rw [execPclr, h]
  exact finish_eq s

end begin

/-- Settles O29: behind the checks of R173 each access is recorded, awaited and set for its banks. -/
theorem nearAccessesBegin : Obligations.NearAccessesBegin := by
  intro d a b imm ocx s q sum at_ toBank place loads ch stores isTile gen genOf opened offset genGood genPlaced
  have load {i : Instr} {kind : OpKind} {ea : Word} {words : Nat} {presence vec : Bool}
      (hi : exec i s = nearLoad kind ea words presence vec d s) : loads i kind ea words presence vec := fun h => by
    obtain ⟨u, o, hu, hset, hawaits, rfl⟩ := nearLoad_begins (kind := kind) (vec := vec) (d := d) h
    exact ⟨_, _, hi.trans hu, hset.goOn.1, rfl, ⟨rfl, rfl, rfl, rfl⟩, rfl, awaited_done hawaits, hset.goOn.2⟩
  have store {i : Instr} {kind : OpKind} {words : Nat} {presence : Bool}
      (hi : exec i s = nearStore kind sum words presence (chanOfX ocx) s) : stores i kind words presence := fun h hch => by
    obtain ⟨u, o, hu, hset, hkind, hplace, hdst, hchan, hnumber⟩ := nearStore_begins (kind := kind) h hch
    refine ⟨_, o, hi.trans hu, hset.goOn.1, hkind, hplace, hdst, hchan, ?_, hset.goOn.2⟩
    simpa only [done_chanOf] using hnumber
  refine ⟨fun ⟨t, ht⟩ => load ((exec_nld ..).trans (onTile_tile s ht _)), load (exec_nlds ..),
    fun ⟨t, ht⟩ => store ((exec_nst ..).trans (onTile_tile s ht _)), store (exec_nsts ..), load (exec_pld ..),
    fun ⟨t, ht⟩ => load ((exec_pldv ..).trans (onTile_tile s ht _)), store (exec_pst ..),
    fun ⟨t, ht⟩ => store ((exec_pstv ..).trans (onTile_tile s ht _)), ?pclr, fun h => execPclr_none h, ?agset, ?agld, ?agst⟩
  case pclr =>
    intro p h hn hmax hp hspan hown
    obtain ⟨u, o, hu, hset, hkind, hmt, haddr, hwords⟩ := execPclr_begins h hn hmax hp hspan hown
    exact ⟨_, o, hu, hset.goOn.1, hkind, hmt, haddr, hwords, hset.goOn.2⟩
  case agset =>
    rintro ⟨t, ht⟩ h
    obtain ⟨u, o, hu, hset, hawaits, rfl⟩ := execAgset_begins (d := d) ht h
    exact ⟨_, _, (exec_agset ..).trans hu, hset.goOn.1, rfl, ⟨rfl, rfl, rfl, rfl⟩, awaited_done hawaits, hset.goOn.2⟩
  case agld =>
    rintro t ⟨ht, hq, hsorted, hothers, hserves⟩
    have hload := issueLoad_setForBanks (s := s) (d := d) (lat := 14) (res := .vector d.toNat (BitVec.allOnes 2048) 0)
      (o := { mkOp s .nearLoad (gen a).1 (offset a t) 32 with dst := some d.toNat, gen := true }) ⟨rfl, rfl, rfl, rfl⟩ (.inl rfl)
    obtain ⟨u, ts, hu, hset, htiles, hgen⟩ := genAccess_begins (k := generatorLoad d) ht hq rfl rfl rfl rfl hsorted hothers
      (plainAt_of_serves hserves) hload.1 rfl
    refine ⟨_, _, ((exec_agld ..).trans (onTile_tile s ht _)).trans hu, hset.goOn.1, rfl, ⟨rfl, rfl, rfl, rfl, ?_⟩, rfl,
      awaited_done (awaited_congr ht htiles hload.2), hset.goOn.2⟩
    exact genAt_done_of_eq hgen
  case agst =>
    rintro t ⟨ht, hq, hsorted, hothers, hserves⟩
    have hstore := toBanks_setForBanks (s := s) (o := { mkOp s (.nearStore (readV s a)) (gen d).1 (offset d t) 32 with gen := true })
      ⟨rfl, rfl, rfl, rfl⟩
    obtain ⟨u, ts, hu, hset, htiles, hgen⟩ := genAccess_begins (k := generatorStore a) ht hq rfl rfl rfl rfl hsorted hothers
      (plainAt_of_serves hserves) hstore rfl
    refine ⟨_, _, ((exec_agst ..).trans (onTile_tile s ht _)).trans hu, hset.goOn.1, rfl, ⟨rfl, rfl, rfl, rfl, ?_⟩, rfl, hset.goOn.2⟩
    exact genAt_done_of_eq hgen

end Sys2Proof.Machine
end

/-! # Near accesses at their banks

What BANK_ACCESS and PRESENCE_READ_SERVED do where the banks of all the words are free (R175, R176, R178 to R182). -/
section
open Sys2Proof Sys2Proof.Machine Sys2Proof.Claims
namespace Sys2Proof.Machine

/-! ## Words of a memory -/

theorem readLE_congr {m m' : Memory} {a n : Nat} (h : ∀ b, a ≤ b → b < a + n → readByte m b = readByte m' b) :
    readLE m a n = readLE m' a n := by
  induction n generalizing a with
  | zero => rfl
  | succ n ih => rw [readLE, readLE, h a (by omega) (by omega), ih fun b hb hn => h b (by omega) (by omega)]

theorem readLE_lt (m : Memory) (a n : Nat) : readLE m a n < 256 ^ n := by
  induction n generalizing a with
  | zero => simp [readLE]
  | succ n ih =>
    have hb := (readByte m a).isLt
    have hr := ih (a + 1)
    rw [readLE, pow_succ]
    omega

/-- Near memory with the words `k` of a list written, each at its own place. -/
def storeWords (mt : Nat) (place val : Nat → Nat) (l : List Nat) (m : Memory) : Memory :=
  l.foldl (fun m k => writeLE m (nearKey mt (place k)) 8 (val k)) m

section storeWords
variable {mt : Nat} {place val : Nat → Nat} {l : List Nat} {m : Memory}

theorem readByte_storeWords_outside {b : Nat} (h : ∀ k ∈ l, b < nearKey mt (place k) ∨ nearKey mt (place k) + 8 ≤ b) :
    readByte (storeWords mt place val l m) b = readByte m b := by
  induction l generalizing m with
  | nil => rfl
  | cons k l ih =>
    rw [storeWords, List.foldl_cons, ← storeWords, ih fun j hj => h j (List.mem_cons_of_mem k hj),
      readByte_writeLE_outside _ _ _ _ _ (h k List.mem_cons_self)]

/-- Words that do not overlap keep what is written there. -/
theorem readLE_storeWords (hl : l.Pairwise fun i j => place i + 8 ≤ place j ∨ place j + 8 ≤ place i) {k : Nat} (hk : k ∈ l) :
    readLE (storeWords mt place val l m) (nearKey mt (place k)) 8 = val k % 2 ^ 64 := by
  induction l generalizing m with
  | nil => cases hk
  | cons i l ih =>
    obtain ⟨hi, hl⟩ := List.pairwise_cons.1 hl
    rw [storeWords, List.foldl_cons, ← storeWords]
    by_cases hkl : k ∈ l
    · exact ih hl hkl
    · obtain rfl : k = i := (List.mem_cons.1 hk).resolve_right hkl
      rw [readLE_congr fun b hlo hhi => readByte_storeWords_outside fun j hj => ?_, readLE_writeLE]
      · rfl
      · have := hi j hj
        simp only [nearKey] at hlo hhi ⊢
        omega

end storeWords

/-- The presence bits with those of some words set to `b`. -/
def markWords (mt : Nat) (place : Nat → Nat) (b : Bool) (l : List Nat) (m : Map Bool) : Map Bool :=
  l.foldl (fun m k => mput false m (presKey mt (place k)) b) m

section markWords
variable {mt : Nat} {place : Nat → Nat} {b : Bool} {l : List Nat} {m : Map Bool} {key : Nat}

theorem mget_markWords_of_ne (h : ∀ k ∈ l, presKey mt (place k) ≠ key) : mget false (markWords mt place b l m) key = mget false m key := by
  induction l generalizing m with
  | nil => rfl
  | cons k l ih =>
    rw [markWords, List.foldl_cons, ← markWords, ih fun j hj => h j (List.mem_cons_of_mem k hj),
      mget_mput_of_ne _ _ _ (h k List.mem_cons_self).symm]

theorem mget_markWords (h : ∃ k ∈ l, presKey mt (place k) = key) : mget false (markWords mt place b l m) key = b := by
  induction l generalizing m with
  | nil => simp at h
  | cons i l ih =>
    rw [markWords, List.foldl_cons, ← markWords]
    by_cases htail : ∃ k ∈ l, presKey mt (place k) = key
    · exact ih htail
    · obtain ⟨k, hk, he⟩ := h
      obtain rfl : k = i := (List.mem_cons.1 hk).resolve_right fun hkl => htail ⟨k, hkl, he⟩
      rw [mget_markWords_of_ne fun j hj hje => htail ⟨j, hj, hje⟩, he, mget_mput_self]

end markWords

/-! ## What a load reads (R174) -/

theorem getLsbD_putWord (v : Vec) (k x i : Nat) :
    (putWord v k x).getLsbD i = (v.getLsbD i || (decide (i < 2048) && decide (i / 64 = k) && x.testBit (i % 64))) := by
  rw [putWord, BitVec.getLsbD_or, BitVec.getLsbD_ofNat, Nat.testBit_mul_two_pow, Nat.testBit_mod_two_pow]
  congr 1
  by_cases hk : i / 64 = k
  · have h1 : 64 * k ≤ i := by omega
    have h2 : i - 64 * k = i % 64 := by omega
    have h3 : i % 64 < 64 := by omega
    simp [hk, h1, h2, h3]
  · have h : ¬ (64 * k ≤ i ∧ i - 64 * k < 64) := by omega
    rw [not_and_or] at h
    rcases h with h | h <;> simp [hk, h]

/-- The words that a load has read, from its first one on. -/
def wordsRead (f : Nat → Nat) (n : Nat) : Vec := (List.range n).foldl (fun v k => putWord v k (f k)) 0

theorem getLsbD_wordsRead (f : Nat → Nat) (n i : Nat) :
    (wordsRead f n).getLsbD i = (decide (i < 2048) && decide (i / 64 < n) && (f (i / 64)).testBit (i % 64)) := by
  induction n with
  | zero => simp [wordsRead]
  | succ n ih =>
    rw [wordsRead, List.range_succ, List.foldl_append, ← wordsRead, List.foldl_cons, List.foldl_nil, getLsbD_putWord, ih]
    by_cases hn : i / 64 = n
    · simp [hn]
    · have h : i / 64 < n + 1 ↔ i / 64 < n := by omega
      simp [hn, h]

theorem elem_wordsRead (f : Nat → Nat) {n k : Nat} (hk : k < n) (h32 : k < 32) : elem 64 (wordsRead f n).toNat k = f k % 2 ^ 64 := by
  refine Nat.eq_of_testBit_eq fun j => ?_
  rw [testBit_elem, BitVec.testBit_toNat, getLsbD_wordsRead, Nat.testBit_mod_two_pow]
  by_cases hj : j < 64
  · have h1 : (64 * k + j) / 64 = k := by omega
    have h2 : (64 * k + j) % 64 = j := by omega
    have h3 : 64 * k + j < 2048 := by omega
    simp [hj, h1, h2, h3, hk]
  · simp [hj]

/-! ## Where the words of an access lie (R172) -/

theorem base_le_of_partAt {s : State} {mt o : Nat} {p : Partition} (h : partAt s mt o = some p) : p.base ≤ o := by
  have := List.find?_some h
  simp only [Bool.and_eq_true, decide_eq_true_eq] at this
  exact this.1

/-- In every partition the words of an aligned access are aligned. -/
theorem wordOffset_aligned {s : State} {mt o : Nat} (ho : o % 8 = 0) (k : Nat) : wordOffset s mt o k % 8 = 0 := by
  have htile : (o + 8 * k) % 2 ^ 21 % 8 = 0 := by omega
  unfold wordOffset
  split
  next p hp =>
    have hbase := base_le_of_partAt hp
    split
    · have hring : (o - p.base + 8 * k) % (p.granules * 65536) % 8 = (o - p.base + 8 * k) % 8 :=
        Nat.mod_mod_of_dvd _ ⟨p.granules * 8192, by ring⟩
      omega
    · exact htile
  · exact htile

/-- Aligned words in different banks do not overlap. -/
theorem words_disjoint {place : Nat → Nat} {l : List Nat} (hal : ∀ k, place k % 8 = 0)
    (h : (l.map fun k => place k / 8 % 256).Nodup) : l.Pairwise fun i j => place i + 8 ≤ place j ∨ place j + 8 ≤ place i := by
  refine (List.pairwise_map.1 h).imp fun {i j} hij => ?_
  have hi := hal i
  have hj := hal j
  have hne : place i ≠ place j := fun he => hij (by rw [he])
  omega

/-! ## The banks that serve an access (R176) -/

/-- Words in different banks, all of them free, are served at once. -/
theorem foldl_serve (bank : Nat → Nat) (l : List Nat) (r : List Nat × List Nat) (hfree : ∀ k ∈ l, bank k ∉ r.2) (hl : (l.map bank).Nodup) :
    (l.foldl (fun r k => if r.2.contains (bank k) then r else (r.1 ++ [k], r.2 ++ [bank k])) r).1 = r.1 ++ l := by
  induction l generalizing r with
  | nil => simp
  | cons k l ih =>
    obtain ⟨hk, hl⟩ := List.nodup_cons.1 hl
    have hnot : r.2.contains (bank k) = false := by simpa using hfree k List.mem_cons_self
    rw [List.foldl_cons, if_neg (Bool.eq_false_iff.1 hnot), ih _ (fun j hj => ?_) hl]
    · simp
    · simp only [List.mem_append, List.mem_singleton, not_or]
      exact ⟨hfree j (List.mem_cons_of_mem k hj), fun he => hk (List.mem_map.2 ⟨j, hj, he⟩)⟩

/-- The banks of all the words of an access are free, and different. -/
def banksFree (s : State) (id : Nat) (o : Op) : Prop :=
  (∀ k, k < o.words → wordOffset s o.mtile o.addr k / 8 % 256 ∉ closedBanks s id o) ∧
    ((List.range o.words).map fun k => wordOffset s o.mtile o.addr k / 8 % 256).Nodup

theorem servable_free {s : State} {id : Nat} {o : Op} (hl : o.left = List.range o.words) (h : banksFree s id o) :
    servable s id o = List.range o.words := by
  obtain ⟨hfree, hdiff⟩ := h
  rw [servable, hl, foldl_serve (fun k => bankOf (wordOffset s o.mtile o.addr k)) _ _ (fun k hk => hfree k (List.mem_range.1 hk)) hdiff,
    List.nil_append]

/-- Nothing of an access is left where all of its words are served. -/
theorem left_served {l : List Nat} : (l.filter fun k => !l.contains k) = [] := List.filter_eq_nil_iff.2 fun k hk => by simp [hk]

/-! ## Words served (R174) -/

section serve
variable {s : State} {o : Op} {l : List Nat} {got : Vec}

theorem foldl_serveWord_store {v : Vec} (hk : o.kind = .nearStore v) : l.foldl (fun r k => serveWord o k r.1 r.2) (s, got) =
    ({ s with near := storeWords o.mtile (wordOffset s o.mtile o.addr) (elem 64 v.toNat) l s.near }, got) := by
  induction l generalizing s with
  | nil => rfl
  | cons k l ih =>
    rw [List.foldl_cons, serveWord, hk]
    exact ih

theorem foldl_serveWord_load (hk : ∀ v, o.kind ≠ .nearStore v) : l.foldl (fun r k => serveWord o k r.1 r.2) (s, got) =
    (s, l.foldl (fun v k => putWord v k (nearWord s o.mtile (wordOffset s o.mtile o.addr k))) got) := by
  induction l generalizing got with
  | nil => rfl
  | cons k l ih =>
    rw [List.foldl_cons, serveWord]
    split
    next v hv => exact absurd hv (hk v)
    · exact ih

theorem foldl_presStore (mt : Nat) (place val : Nat → Nat) :
    l.foldl (fun s k => setPresent mt (place k) true (setNearWord mt (place k) (val k) s)) s =
      { s with near := storeWords mt place val l s.near, present := markWords mt place true l s.present } := by
  induction l generalizing s with
  | nil => rfl
  | cons k l ih => rw [List.foldl_cons, ih]; rfl

theorem foldl_presClear (mt : Nat) (place : Nat → Nat) :
    l.foldl (fun s k => setPresent mt (place k) false s) s = { s with present := markWords mt place false l s.present } := by
  induction l generalizing s with
  | nil => rfl
  | cons k l ih => rw [List.foldl_cons, ih]; rfl

end serve

/-! ## How an access ends (R175, R178) -/

/-- The answer of an access is there, as its value. -/
theorem answer_op {id ready : Nat} {o : Op} {v : Vec} {s : State} : ∃ p, mfind (answer id o v ready s).ops id = some p ∧
    p.served = true ∧ p.usable = ready + o.slow ∧ p.got = v := by
  refine ⟨{ o with got := v, left := [], served := true, usable := ready + o.slow }, ?_, rfl, rfl, rfl⟩
  unfold answer
  dsimp only
  (repeat' split) <;> exact mfind_mset_self _ _ _

@[simp] theorem answer_memories {id ready : Nat} {o : Op} {v : Vec} {s : State} : (answer id o v ready s).memories = s.memories := by
  unfold answer
  dsimp only
  (repeat' split) <;> rfl

theorem wakeReaders_keeps (mt : Nat) (s : State) : (wakeReaders mt s).memories = s.memories ∧ (wakeReaders mt s).ops = s.ops := by
  refine List.foldlRecOn s.ops _ (motive := fun u : State => u.memories = s.memories ∧ u.ops = s.ops) ⟨rfl, rfl⟩ fun u hu e _ => ?_
  dsimp only
  split <;> exact hu

/-- A load or a presence load whose words `f k` have been read: nothing in memory has changed, and its value is usable 8 cycles later. -/
def readServed (s u : State) (id : Nat) (o : Op) (f : Nat → Nat) : Prop :=
  u.near = s.near ∧ u.present = s.present ∧ u.mem = s.mem ∧
    ∃ p, mfind u.ops id = some p ∧ p.served = true ∧ p.usable = s.pcyc + 8 + o.slow ∧
      ∀ k, k < o.words → k < 32 → elem 64 p.got.toNat k = nearWord s o.mtile (f k)

theorem answer_readServed {s : State} {id : Nat} {o p : Op} {f : Nat → Nat} (bs : List Nat) (hp : p.slow = o.slow) :
    readServed s (answer id p (wordsRead (fun k => nearWord s o.mtile (f k)) o.words) (s.pcyc + 8) (useBanks o.mtile bs s)) id o f := by
  obtain ⟨hmem, -, hnear, hpresent⟩ := keepsMemory_of_memories (s := useBanks o.mtile bs s) (answer_memories (id := id) (o := p)
    (v := wordsRead (fun k => nearWord s o.mtile (f k)) o.words) (ready := s.pcyc + 8))
  obtain ⟨r, hr, hserved, husable, hgot⟩ := answer_op (id := id) (ready := s.pcyc + 8) (o := p)
    (v := wordsRead (fun k => nearWord s o.mtile (f k)) o.words) (s := useBanks o.mtile bs s)
  refine ⟨hnear, hpresent, hmem, r, hr, hserved, by rw [husable, hp], fun k hk h32 => ?_⟩
  rw [hgot, elem_wordsRead _ hk h32]
  exact Nat.mod_eq_of_lt (readLE_lt ..)

/-! ## BANK_ACCESS -/

section bankAccess
variable {s : State} {id : Nat} {o : Op} (ho : mfind s.ops id = some o)
include ho

/-- A load, or the read of a descriptor (R174, R182). -/
theorem execBankAccess_read (hk : o.kind = .nearLoad ∨ ∃ g, o.kind = .takePattern g) (hl : o.left = List.range o.words) (hgot : o.got = 0)
    (hfree : banksFree s id o) :
    ∃ u, execBankAccess id s = .next u ∧ readServed s u id o (wordOffset s o.mtile o.addr) := by
  have hserve := servable_free hl hfree
  have hstore : ∀ v, o.kind ≠ .nearStore v := by
    rintro v hv
    rcases hk with hk | ⟨g, hk⟩ <;> rw [hv] at hk <;> cases hk
  refine ⟨_, ?_, answer_readServed
    (p := { o with got := wordsRead (fun k => nearWord s o.mtile (wordOffset s o.mtile o.addr k)) o.words, left := [] })
    ((List.range o.words).map fun k => bankOf (wordOffset s o.mtile o.addr k)) rfl⟩
  rcases hk with hk | ⟨g, hk⟩ <;>
  · simp only [execBankAccess, opAt, ho, hk, hserve, foldl_serveWord_load hstore, hl, left_served, hgot, List.isEmpty_nil, if_true]
    rfl

/-- A store (R174). -/
theorem execBankAccess_store {v : Vec} (hk : o.kind = .nearStore v) (hl : o.left = List.range o.words) (hfree : banksFree s id o) :
    ∃ p w, execBankAccess id s = .next (complete id p w) ∧ w.present = s.present ∧ w.mem = s.mem ∧
      w.near = storeWords o.mtile (wordOffset s o.mtile o.addr) (elem 64 v.toNat) (List.range o.words) s.near := by
  refine ⟨{ o with left := [] }, useBanks o.mtile ((List.range o.words).map fun k => bankOf (wordOffset s o.mtile o.addr k))
    { s with near := storeWords o.mtile (wordOffset s o.mtile o.addr) (elem 64 v.toNat) (List.range o.words) s.near }, ?_, rfl, rfl, rfl⟩
  rw [execBankAccess, opAt, ho]
  simp only [hk, servable_free hl hfree, foldl_serveWord_store hk, hl, left_served, List.isEmpty_nil, if_true]

/-- The words of a presence access. -/
def presWords (o : Op) : List Nat := (List.range o.words).map fun k => o.addr + 8 * k

omit ho in
theorem map_eq_presWords : (List.range o.words).map (fun k => o.addr + 8 * k) = presWords o := rfl

omit ho in
theorem presWords_all {p : Nat → Bool} : (presWords o).all p = true ↔ ∀ k, k < o.words → p (o.addr + 8 * k) = true := by
  simp [presWords]

/-- The banks of the words of a presence access are free. -/
def presBanksFree (s : State) (id : Nat) (o : Op) : Prop := ∀ k, k < o.words → (o.addr + 8 * k) / 8 % 256 ∉ closedBanks s id o

omit ho in
theorem presWords_free (h : presBanksFree s id o) : ((presWords o).all fun a => !(closedBanks s id o).contains (bankOf a)) = true :=
  presWords_all.2 fun k hk => by simpa [bankOf] using h k hk

omit ho in
/-- The answer of a presence load whose words are present (R178). -/
theorem readPresence_served : readServed s (answer id o (readPresence s o) (s.pcyc + 8) (useBanks o.mtile ((presWords o).map bankOf) s)) id o
    (fun k => o.addr + 8 * k) :=
  answer_readServed (f := fun k => o.addr + 8 * k) _ rfl

/-- A presence load of words that are present (R178). -/
theorem execBankAccess_presLoad (hk : o.kind = .presLoad) (hp : ∀ k, k < o.words → isPresent s o.mtile (o.addr + 8 * k) = true)
    (hfree : presBanksFree s id o) : ∃ u, execBankAccess id s = .next u ∧ readServed s u id o (fun k => o.addr + 8 * k) := by
  refine ⟨_, ?_, readPresence_served⟩
  rw [execBankAccess, opAt, ho]
  simp only [hk, map_eq_presWords, presWords_all.2 hp, presWords_free hfree, if_true]

/-- A presence load that waits for its words (R178). -/
theorem execBankAccess_presLoad_waits (hk : o.kind = .presLoad) (hp : ∃ k, k < o.words ∧ isPresent s o.mtile (o.addr + 8 * k) = false) :
    execBankAccess id s = .next (setOp id { o with left := [] } s) := by
  have hall : ¬ ((presWords o).all fun a => isPresent s o.mtile a) = true := by
    obtain ⟨k, hk, hp⟩ := hp
    exact fun h => Bool.false_ne_true (hp.symm.trans (presWords_all.1 h k hk))
  rw [execBankAccess, opAt, ho]
  simp only [hk, map_eq_presWords, if_neg hall]

/-- The presence load that waited is served (R178). -/
theorem execPresenceReadServed_served (hs : o.served = false) (hp : ∀ k, k < o.words → isPresent s o.mtile (o.addr + 8 * k) = true)
    (hfree : presBanksFree s id o) : ∃ u, execPresenceReadServed id s = .next u ∧ readServed s u id o (fun k => o.addr + 8 * k) := by
  refine ⟨_, ?_, readPresence_served⟩
  rw [execPresenceReadServed, opAt, ho]
  simp only [hs, map_eq_presWords, presWords_all.2 hp, presWords_free hfree, Bool.not_true, Bool.or_false, Bool.false_eq_true, if_false, if_true]

/-- A presence store of words that are empty (R178). -/
theorem execBankAccess_presStore {v : Vec} (hk : o.kind = .presStore v)
    (hp : ∀ k, k < o.words → isPresent s o.mtile (o.addr + 8 * k) = false) (hfree : presBanksFree s id o) :
    ∃ u, execBankAccess id s = .next u ∧ mfind u.ops id = none ∧ u.mem = s.mem ∧
      u.near = storeWords o.mtile (fun k => o.addr + 8 * k) (elem 64 v.toNat) (List.range o.words) s.near ∧
      u.present = markWords o.mtile (fun k => o.addr + 8 * k) true (List.range o.words) s.present := by
  let w : State := { s with near := storeWords o.mtile (fun k => o.addr + 8 * k) (elem 64 v.toNat) (List.range o.words) s.near
                            present := markWords o.mtile (fun k => o.addr + 8 * k) true (List.range o.words) s.present }
  let c := complete id o (useBanks o.mtile ((presWords o).map bankOf) w)
  have hnone : (presWords o).find? (fun a => isPresent s o.mtile a) = none := by
    simpa [presWords] using hp
  have hstep : execBankAccess id s = .next (wakeReaders o.mtile c) := by
    rw [execBankAccess, opAt, ho]
    simp only [hk, map_eq_presWords, presWords_free hfree, Bool.not_true, Bool.false_eq_true, if_false, hnone]
    rw [foldl_presStore]
  obtain ⟨hmem, hops⟩ := wakeReaders_keeps o.mtile c
  obtain ⟨hm, -, hn, hpres⟩ := keepsMemory_of_memories (hmem.trans (complete_memories id o _))
  exact ⟨_, hstep, by rw [hops]; exact complete_ops_self .., hm, hn, hpres⟩

/-- `pclr` of up to 256 words (R180). -/
theorem execBankAccess_presClear (hk : o.kind = .presClear) (hl : o.left = List.range o.words) (hw : o.words ≤ 256)
    (hfree : banksFree s id o) : ∃ u, execBankAccess id s = .next u ∧ mfind u.ops id = none ∧ u.near = s.near ∧ u.mem = s.mem ∧
      u.present = markWords o.mtile (fun k => o.addr + 8 * k) false (List.range o.words) s.present := by
  let w : State := useBanks o.mtile ((List.range o.words).map fun k => bankOf (o.addr + 8 * k))
    { s with present := markWords o.mtile (fun k => o.addr + 8 * k) false (List.range o.words) s.present }
  have hstep : execBankAccess id s = .next (complete id o w) := by
    rw [execBankAccess, opAt, ho]
    simp only [hk, servable_free hl hfree]
    rw [foldl_presClear]
    simp only [hl, left_served, List.isEmpty_nil, Bool.not_true, Bool.false_eq_true, if_false, hw, if_true]
    rfl
  obtain ⟨hm, -, hn, hpres⟩ := keepsMemory_of_memories (complete_memories id o w)
  exact ⟨_, hstep, complete_ops_self .., hn, hm, hpres⟩

end bankAccess

/-- GENERATOR_TAKE_PATTERN (R182). -/
theorem execGeneratorTakePattern_takes {s : State} {mt g : Nat} {x : BitVec 256} {rest : List (BitVec 256)}
    (h : (genAt s mt g).next = x :: rest) : ∃ u, execGeneratorTakePattern mt g s = .next u ∧
      genAt u mt g = { desc := x, j0 := 0, j1 := 0, j2 := 0, next := rest } ∧ keepsMemory s u := by
  refine ⟨setGen mt g { desc := x, next := rest } s, ?_, ?_, rfl, rfl, rfl, rfl⟩
  · simp only [execGeneratorTakePattern, h]
  · simp [genAt, setGen]

theorem isPresent_mark_of_ne {s u : State} {b : Bool} {mt : Nat} {place : Nat → Nat} {n m p : Nat}
    (hu : u.present = markWords mt place b (List.range n) s.present) (h : ∀ k, k < n → presKey m p ≠ presKey mt (place k)) :
    isPresent u m p = isPresent s m p := by
  rw [isPresent, hu, mget_markWords_of_ne fun k hk => (h k (List.mem_range.1 hk)).symm, ← isPresent]

theorem isPresent_mark {s u : State} {b : Bool} {mt : Nat} {place : Nat → Nat} {n k : Nat}
    (hu : u.present = markWords mt place b (List.range n) s.present) (h : k < n) : isPresent u mt (place k) = b := by
  rw [isPresent, hu, mget_markWords ⟨k, List.mem_range.2 h, rfl⟩]

theorem readByte_stored_outside {s u : State} {mt : Nat} {place val : Nat → Nat} {n b : Nat}
    (hu : u.near = storeWords mt place val (List.range n) s.near)
    (h : ∀ k, k < n → b < nearKey mt (place k) ∨ nearKey mt (place k) + 8 ≤ b) : readByte u.near b = readByte s.near b := by
  rw [hu, readByte_storeWords_outside fun k hk => h k (List.mem_range.1 hk)]

/-- A stored word of 64 bits is read back. -/
theorem nearWord_stored {s u : State} {mt : Nat} {place : Nat → Nat} {v : Vec} {n k : Nat}
    (hu : u.near = storeWords mt place (elem 64 v.toNat) (List.range n) s.near)
    (hdis : (List.range n).Pairwise fun i j => place i + 8 ≤ place j ∨ place j + 8 ≤ place i) (h : k < n) :
    nearWord u mt (place k) = elem 64 v.toNat k := by
  rw [nearWord, hu, readLE_storeWords hdis (List.mem_range.2 h)]
  exact Nat.mod_eq_of_lt (Nat.mod_lt _ (by norm_num))

/-- Settles O30: a word in a free bank is served, one after the other (`foldl_serveWord_store`, `foldl_serveWord_load`), and words in
different banks do not overlap (`words_disjoint`). -/
theorem nearAccessesServed : Obligations.NearAccessesServed := by
  unfold Obligations.NearAccessesServed
  intro s id o ho hal
  dsimp only
  have hrun : (List.range o.words).Pairwise fun i j => o.addr + 8 * i + 8 ≤ o.addr + 8 * j ∨ o.addr + 8 * j + 8 ≤ o.addr + 8 * i :=
    List.pairwise_lt_range.imp fun h => .inl (by omega)
  refine ⟨?_, ?_, ?_, ?_, ?_, ?_, ?_, ?_, ?_⟩
  · intro hk hl hgot _ hfree
    exact execBankAccess_read ho (.inl hk) hl hgot hfree
  · intro g hk hl hgot _ hfree
    exact execBankAccess_read ho (.inr ⟨g, hk⟩) hl hgot hfree
  · intro v hk hl _ _ hfree
    obtain ⟨p, w, hstep, hpres, hmem, hnear⟩ := execBankAccess_store ho hk hl hfree
    obtain ⟨hm, -, hn, hp⟩ := keepsMemory_of_memories (complete_memories id p w)
    refine ⟨_, hstep, complete_ops_self .., hp.trans hpres, hm.trans hmem, fun k hlt => ?_,
      fun b => readByte_stored_outside (hn.trans hnear)⟩
    exact nearWord_stored (hn.trans hnear) (words_disjoint (wordOffset_aligned hal) hfree.2) hlt
  · intro hk hp hfree
    exact execBankAccess_presLoad ho hk hp hfree
  · intro hk hp
    exact execBankAccess_presLoad_waits ho hk hp
  · intro _ hs hp hfree
    exact execPresenceReadServed_served ho hs hp hfree
  · intro v hk _ hp hfree
    obtain ⟨u, hstep, hop, hmem, hnear, hpres⟩ := execBankAccess_presStore ho hk hp hfree
    exact ⟨u, hstep, hop, hmem,
      fun k hlt => ⟨nearWord_stored hnear hrun hlt, isPresent_mark (place := fun k => o.addr + 8 * k) hpres hlt⟩,
      fun b => readByte_stored_outside hnear, fun m p => isPresent_mark_of_ne hpres⟩
  · intro hk hl hw hfree
    obtain ⟨u, hstep, hop, hnear, hmem, hpres⟩ := execBankAccess_presClear ho hk hl hw hfree
    exact ⟨u, hstep, hop, hnear, hmem, fun k hlt => isPresent_mark (place := fun k => o.addr + 8 * k) hpres hlt,
      fun m p => isPresent_mark_of_ne hpres⟩
  · intro mt g x rest h
    exact execGeneratorTakePattern_takes h

end Sys2Proof.Machine
end

/-! # Instructions on ports that take and send tokens

What `pop`, `popd`, `peek`, `push`, `punct`, `punctall` and `cret` do where nothing stops them (R168 to R170, R224, R225, R256). -/
section
open Sys2Proof Sys2Proof.Machine Sys2Proof.Claims
namespace Sys2Proof.Machine

/-! ## The head of a window (R152, R223) -/

theorem headMarkers_eq (w : List Token) : headMarkers w = (passMarkers w).1 := by
  unfold headMarkers passMarkers
  congr 1
  funext m
  exact Bool.eq_iff_iff.2 (by simp [Token.isPassing])

/-- What stands behind the markers at the head. -/
theorem passMarkers_rest (w : List Token) : (passMarkers w).2 = w.drop (passMarkers w).1.length := by
  have h := List.takeWhile_append_dropWhile (p := Token.isPassing) (l := w)
  exact (List.drop_left' rfl).symm.trans (congrArg (List.drop (passMarkers w).1.length) h)

theorem passMarkers_of_getElem {w : List Token} {tok : Token} (h : w[(headMarkers w).length]? = some tok) :
    passMarkers w = (headMarkers w, tok :: w.drop ((headMarkers w).length + 1)) := by
  obtain ⟨hlt, hget⟩ := List.getElem?_eq_some_iff.1 h
  refine Prod.ext (headMarkers_eq w).symm ?_
  rw [passMarkers_rest, ← headMarkers_eq, List.drop_eq_getElem_cons hlt, hget]

theorem takePuncts_cons (ps : Bool) (m : Token) (ms : List Token) (h : ps = false ∨ (m.kind == .punct) = false) :
    takePuncts ps (m :: ms) = takePuncts (ps || m.kind == .punct) ms := by
  unfold takePuncts
  rw [List.foldl_cons]
  by_cases hm : (m.kind == .punct) = true
  · obtain rfl : ps = false := h.resolve_right (by simp [hm])
    simp [hm]
  · simp [hm]

/-- At most one PUNCT at the head of a port without PS, and none at one with PS: no second one (R223). -/
theorem takePuncts_single {ps : Bool} {ms : List Token} (h : (ms.filter fun m => m.kind == .punct).length + bit ps ≤ 1) :
    takePuncts ps ms = (ps || ms.any fun m => m.kind == .punct, false) := by
  induction ms generalizing ps with
  | nil => simp [takePuncts]
  | cons m ms ih =>
    by_cases hm : (m.kind == .punct) = true
    · simp only [List.filter_cons, hm, if_true, List.length_cons] at h
      obtain rfl : ps = false := by cases ps <;> simp [bit] at h ⊢
      rw [takePuncts_cons _ _ _ (.inl rfl), ih (by simp only [hm, bit] at h ⊢; exact h)]
      simp [hm]
    · simp only [List.filter_cons, hm] at h
      rw [takePuncts_cons _ _ _ (.inr (by simpa using hm)), ih (by simpa [hm] using h)]
      simp [hm]

theorem foldl_leave_read (ts : List Token) (x : Arc) : (ts.foldl Arc.leave x).read = x.read + (ts.filter Token.spends).length := by
  induction ts generalizing x with
  | nil => rfl
  | cons m ts ih =>
    rw [List.foldl_cons, ih, Arc.leave, List.filter_cons]
    cases m.spends <;> simp [bit]
    omega

/-- Tokens that leave one after the other leave together. -/
theorem leaveAll_append_read (x : Arc) (ts us : List Token) (w rest : List Token) :
    ((x.leaveAll ts w).leaveAll us rest).read = x.read + ((ts ++ us).filter Token.spends).length := by
  rw [Arc.leaveAll, Arc.leaveAll, foldl_leave_read, foldl_leave_read, List.filter_append, List.length_append, Nat.add_assoc]

/-! ## Results on their way (R98, R276) -/

/-- Where results stand in a tile depends only on those already there and on the place of its entry. -/
theorem foldl_addPending_congr {x y : Tile} (hp : x.pend = y.pend) (hi : x.issuing = y.issuing) (lat : Nat) (rs : List Result) :
    (rs.foldl (fun x r => addPending x lat r) x).pend = (rs.foldl (fun x r => addPending x lat r) y).pend ∧
      (rs.foldl (fun x r => addPending x lat r) x).issuing = (rs.foldl (fun x r => addPending x lat r) y).issuing := by
  induction rs generalizing x y with
  | nil => exact ⟨hp, hi⟩
  | cons r rs ih => exact ih (by simp [hp, hi]) hi

theorem foldl_addPending_inPorts (lat : Nat) (rs : List Result) (x : Tile) :
    (rs.foldl (fun x r => addPending x lat r) x).inPorts = x.inPorts :=
  List.foldlRecOn rs _ (motive := fun y : Tile => y.inPorts = x.inPorts) rfl fun _ hy _ _ => hy

section deliver
variable {s w : State} {t lat : Nat} {rs : List Result}

theorem deliver_tile_congr (hp : (w.tile t).pend = (s.tile t).pend) (hi : (w.tile t).issuing = (s.tile t).issuing) :
    ((deliver lat t rs w).tile t).pend = ((deliver lat t rs s).tile t).pend ∧
      ((deliver lat t rs w).tile t).issuing = ((deliver lat t rs s).tile t).issuing := by
  rw [deliver, deliver, State.setTile_tile_self, State.setTile_tile_self]
  exact foldl_addPending_congr hp hi lat rs

theorem deliver_inPort (p : Nat) : inPort (deliver lat t rs s) t p = inPort s t p := by
  rw [inPort, deliver, State.setTile_tile_self, foldl_addPending_inPorts, ← inPort]

end deliver

/-! ## A beat that takes a token (R168, R169) -/

@[simp] theorem inPort_setInPort (s : State) (t p : Nat) (y : Port) : inPort (setInPort s t p y) t p = y := by
  simp [inPort, setInPort, mget_mset_self]

@[simp] theorem setInPort_arc (s : State) (t p k : Nat) (y : Port) : (setInPort s t p y).arc? k = s.arc? k := rfl
@[simp] theorem inPort_setArc (s : State) (t p k : Nat) (x : Arc) : inPort (s.setArc k x) t p = inPort s t p := rfl

/-- The port of a beat behind the markers at the head of its window (R223). -/
def Port.passed (y : Port) (ms : List Token) : Port := { y with ps := y.ps || ms.any fun m => m.kind == .punct }

/-- An arc whose window has lost the markers at its head and the token behind them. -/
def Arc.popped (x : Arc) (tok : Token) : Arc :=
  (x.leaveAll (headMarkers x.window) (tok :: x.window.drop ((headMarkers x.window).length + 1))).leaveAll
    [tok] (x.window.drop ((headMarkers x.window).length + 1))

section pop
variable {s : State} {t p tag : Nat} {x : Arc} {tok : Token} (hu : s.cur.unit = .tile t) (hx : s.arc? (State.arcKey s.cur.ctx tag) = some x)
include hu hx

/-- The markers ahead of the token and the token leave the window, and the port counts the token. -/
theorem popBeat_takes (hp : (inPort s t p).arc = some tag) (ht : x.window[(headMarkers x.window).length]? = some tok)
    (hstop : tok.isStopping = false)
    (hps : ((headMarkers x.window).filter fun m => m.kind == .punct).length + bit (inPort s t p).ps ≤ 1) :
    ∃ w, (∀ f, popBeat p s f = .next (f t tok (deliver 1 t [.colour (curActor s) tok.colour] w))) ∧
      w.arc? (State.arcKey s.cur.ctx tag) = some (x.popped tok) ∧
      inPort w t p = ((inPort s t p).passed (headMarkers x.window)).move tok.colour ∧
      (w.tile t).pend = (s.tile t).pend ∧ (w.tile t).issuing = (s.tile t).issuing ∧ w.memories = s.memories := by
  let ms := headMarkers x.window
  let rest := x.window.drop (ms.length + 1)
  let key := State.arcKey s.cur.ctx tag
  let y := (inPort s t p).passed ms
  let v := setInPort (s.setArc key (x.leaveAll ms (tok :: rest))) t p y
  let w := setInPort (v.setArc key (x.popped tok)) t p (y.move tok.colour)
  have hpop : ∀ f, popBeat p s f = .next (f t tok (deliver 1 t [.colour (curActor s) tok.colour] w)) := fun f => by
    simp only [popBeat, onTile_tile s hu, hp, hx, passMarkers_of_getElem ht, hstop, removeMarkers, takePuncts_single hps, setInPort_arc,
      State.setArc_arc_self, Option.getD_some, inPort_setArc, inPort_setInPort, Bool.false_eq_true, if_false, w, v, y, ms, rest, key,
      Port.passed, Arc.popped]
  refine ⟨w, hpop, State.setArc_arc_self .., inPort_setInPort .., ?_, ?_, rfl⟩
  · simp [w, v, setInPort]
  · simp [w, v, setInPort]

omit hu hx in
/-- What `pop` and `popd` leave behind, however many results follow. -/
theorem popped_facts {u : State} (harc : u.arc? (State.arcKey s.cur.ctx tag) = some (x.popped tok))
    (hin : inPort u t p = ((inPort s t p).passed (headMarkers x.window)).move tok.colour) (hmem : u.memories = s.memories) :
    ∃ y, u.arc? (State.arcKey s.cur.ctx tag) = some y ∧
      y.read = x.read + ((headMarkers x.window ++ [tok]).filter Token.spends).length ∧
      y.window = x.window.drop ((headMarkers x.window).length + 1) ∧ (inPort u t p).count = (inPort s t p).count + 1 ∧
      (inPort u t p).ps = ((inPort s t p).ps || (headMarkers x.window).any fun m => m.kind == .punct) ∧ keepsMemory s u :=
  ⟨_, harc, leaveAll_append_read .., rfl, by rw [hin]; rfl, by rw [hin]; rfl, keepsMemory_of_memories hmem⟩

/-- `peek` (R169). -/
theorem execPeek_reads (hp : (inPort s t p).arc = some tag) {a : BitVec 6} (ha : a.toNat = p) (fold : BitVec 2) (d : BitVec 6)
    (ht : (itemsAhead x.window)[s.cur.beat]? = some tok) :
    execPeek fold d a s = .next (deliver 2 t [payloadResult d s.cur.beat tok.payload] (deliver 1 t [.colour (curActor s) tok.colour] s)) := by
  subst ha
  simp only [execPeek, onTile_tile s hu, hp, hx, Option.getD_some, ht]

end pop

theorem itemsAhead_eq (w : List Token) :
    itemsAhead w = (w.takeWhile fun m => decide (m.kind ≠ .mode ∧ m.kind ≠ .drain)).filter Token.isItem := by
  unfold itemsAhead
  congr 2
  funext m
  exact Bool.eq_iff_iff.2 (by simp [Token.isStopping])

/-! ## A token that is sent (R158, R159, R170) -/

theorem arcKey_div {c tag : Nat} (h : tag < 4096) : State.arcKey c tag / 4096 = c := by unfold State.arcKey; omega
theorem arcKey_mod {c tag : Nat} (h : tag < 4096) : State.arcKey c tag % 4096 = tag := by unfold State.arcKey; omega

/-- The arc whose producer has sent a token. -/
def Arc.sending (s : State) (x : Arc) (tok : Token) : Arc :=
  { x with sent := x.sent + bit tok.spends
           transit := x.transit ++ [tok]
           flights := if x.kind = .slot then x.flights ++ [{ leg := 0, due := s.pcyc + x.firstLeg }] else x.flights }

section send
variable {s : State} {key : Nat} {x : Arc} (hx : s.arc? key = some x) (hd : ∀ r, x.dst ≠ .remote r) (tok : Token)
include hx hd

theorem sendToken_slot (hk : x.kind = .slot) : sendToken key tok s =
    (s.setArc key (x.sending s tok)).after x.firstLeg (.scheduledTokenArrival (key / 4096) (key % 4096)) := by
  unfold sendToken
  simp only [hx, hk, beq_self_eq_true, if_true, Arc.sending]
  rfl

theorem sendToken_ring (hk : x.kind ≠ .slot) : sendToken key tok s =
    (s.setArc key (x.sending s tok)).later (.ringWindowWrite (key / 4096) (key % 4096)) := by
  unfold sendToken
  simp only [hx, beq_eq_false_iff_ne.2 hk, Bool.false_eq_true, if_false, Arc.sending, if_neg hk]

theorem sendToken_arcs : (sendToken key tok s).arcs = mset s.arcs key (x.sending s tok) := by
  by_cases hk : x.kind = .slot
  · rw [sendToken_slot hx hd tok hk]; rfl
  · rw [sendToken_ring hx hd tok hk]; rfl

theorem sendToken_arc_self : (sendToken key tok s).arc? key = some (x.sending s tok) := by
  rw [State.arc?, sendToken_arcs hx hd, mfind_mset_self]

theorem sendToken_arc_of_ne {k : Nat} (h : k ≠ key) : (sendToken key tok s).arc? k = s.arc? k := by
  rw [State.arc?, sendToken_arcs hx hd, mfind_mset_of_ne _ _ h, ← State.arc?]

omit hx hd in
/-- Over a link too (R433). -/
theorem sendToken_ctxs (s : State) (key : Nat) : (sendToken key tok s).ctxs = s.ctxs := by
  unfold sendToken
  dsimp only
  (repeat' split) <;> rfl

theorem sendToken_rest : (sendToken key tok s).tiles = s.tiles ∧ (sendToken key tok s).ctxs = s.ctxs ∧ (sendToken key tok s).actors = s.actors ∧
    (sendToken key tok s).cur = s.cur ∧ (sendToken key tok s).memories = s.memories := by
  by_cases hk : x.kind = .slot
  · rw [sendToken_slot hx hd tok hk]; exact ⟨rfl, rfl, rfl, rfl, rfl⟩
  · rw [sendToken_ring hx hd tok hk]; exact ⟨rfl, rfl, rfl, rfl, rfl⟩

end send

/-- A token that spends a credit departs (R158, R159). -/
theorem departs_sendToken {s : State} {ctx tag : Nat} {x : Arc} {tok : Token} (hx : s.arc? (State.arcKey ctx tag) = some x)
    (hd : ∀ r, x.dst ≠ .remote r) (htag : tag < 4096) (hs : tok.spends = true) :
    departs s (sendToken (State.arcKey ctx tag) tok s) ctx tag x tok := by
  have harc := sendToken_arc_self hx hd tok
  refine ⟨⟨_, harc, rfl, by rw [Arc.sending, hs]; rfl, rfl⟩, fun hk => ⟨?_, _, harc, by rw [Arc.sending, if_pos hk]⟩, fun hk => ?_⟩
  · rw [sendToken_slot hx hd tok hk, arcKey_div htag, arcKey_mod htag]; rfl
  · refine ⟨s.pcyc + 1 + Config.freeDelay s.freeCount, by omega, ?_⟩
    rw [sendToken_ring hx hd tok hk, arcKey_div htag, arcKey_mod htag]; rfl

/-- What departs is seen in the arcs and in the agenda alone. -/
theorem departs_congr {s s' u u' : State} {ctx tag : Nat} {x : Arc} {tok : Token} (hp : s'.pcyc = s.pcyc) (hs : s'.agenda = s.agenda)
    (ha : u'.arcs = u.arcs) (hu : u'.agenda = u.agenda) (h : departs s' u ctx tag x tok) : departs s u' ctx tag x tok := by
  have harc : u'.arc? (State.arcKey ctx tag) = u.arc? (State.arcKey ctx tag) := by rw [State.arc?, ha]; rfl
  unfold departs at h ⊢
  rwa [harc, hu, ← hp, ← hs]

/-- A window that has room takes a token (R160, R162). -/
theorem Arc.canSend_of_room {x : Arc} (h : x.kind = .slot ∨ x.sent - x.seen < x.cap + 64 * x.chunks) : x.canSend = true := by
  simp only [Arc.canSend, Arc.credits, Arc.slots, Bool.or_eq_true, beq_iff_eq, decide_eq_true_eq, Nat.sub_pos_iff_lt]
  exact h

/-- One token on an output port whose arc takes it (R170). -/
theorem sendOnPort_sends {s : State} {t p tag : Nat} {x : Arc} (hu : s.cur.unit = .tile t) (hx : s.arc? (State.arcKey s.cur.ctx tag) = some x)
    (hp : (outPort s t p).arc = some tag) (hc : x.canSend = true) (counted : Bool) (tok : Token) :
    sendOnPort p counted tok s = .next (if counted
      then setOutPort (sendToken (State.arcKey s.cur.ctx tag) { tok with tag := tag } s) t p ((outPort s t p).move tok.colour)
      else sendToken (State.arcKey s.cur.ctx tag) { tok with tag := tag } s) := by
  simp only [sendOnPort, onTile_tile s hu, hp, hx, Option.getD_some, hc, if_true]

section sends
variable {s : State} {t p tag : Nat} {x : Arc} (hu : s.cur.unit = .tile t) (hx : s.arc? (State.arcKey s.cur.ctx tag) = some x)
  (htag : tag < 4096) (hp : (outPort s t p).arc = some tag)
  (hroom : x.kind = .slot ∨ x.sent - x.seen < x.cap + 64 * x.chunks) (hd : ∀ r, x.dst ≠ .remote r)
include hu hx htag hp hroom hd

/-- A token that its port counts (R164, R170). -/
theorem sendOnPort_counted {tok : Token} (hs : tok.spends = true) :
    ∃ u, sendOnPort p true tok s = .next u ∧ departs s u s.cur.ctx tag x { tok with tag := tag } ∧
      (outPort u t p).count = (outPort s t p).count + 1 ∧ u.ctxs = s.ctxs ∧ u.memories = s.memories := by
  obtain ⟨-, hctxs, -, -, hmem⟩ := sendToken_rest hx hd { tok with tag := tag }
  refine ⟨_, sendOnPort_sends hu hx hp (Arc.canSend_of_room hroom) true tok,
    departs_congr rfl rfl rfl rfl (departs_sendToken hx hd htag hs), ?_, hctxs, hmem⟩
  simp [outPort, setOutPort, mget_mset_self, Port.move]

/-- A PUNCT marker, which no port counts (R224). -/
theorem sendOnPort_uncounted {tok : Token} (hs : tok.spends = true) :
    ∃ u, sendOnPort p false tok s = .next u ∧ departs s u s.cur.ctx tag x { tok with tag := tag } ∧ u.tiles = s.tiles ∧
      u.memories = s.memories := by
  obtain ⟨htiles, -, -, -, hmem⟩ := sendToken_rest hx hd { tok with tag := tag }
  exact ⟨_, sendOnPort_sends hu hx hp (Arc.canSend_of_room hroom) false tok, departs_sendToken hx hd htag hs, htiles, hmem⟩

end sends

/-! ## `cret` (R256) -/

/-- A colour's return recorded in its context, and counted by an open snapshot. -/
def colourReturned (ctx c : Nat) (s : State) : State :=
  countColour ctx (s.actor (curActor s)).recorded c (-1) (s.setCtx ctx { s.ctx ctx with returned := (s.ctx ctx).returned ++ [c] })

theorem countColour_rest (ctx : Nat) (passed : Bool) (c : Nat) (n : Int) (s : State) :
    (countColour ctx passed c n s).arcs = s.arcs ∧ (countColour ctx passed c n s).tiles = s.tiles ∧
      (countColour ctx passed c n s).cur = s.cur ∧ (countColour ctx passed c n s).pcyc = s.pcyc ∧
      (countColour ctx passed c n s).agenda = s.agenda ∧ (countColour ctx passed c n s).memories = s.memories ∧
      ((countColour ctx passed c n s).ctx ctx).returned = (s.ctx ctx).returned := by
  cases passed
  · simp [countColour, Ctx.updOpen, State.memories]
  · simp [countColour]

/-- The state in which the token of `cret` departs. -/
def beforeReturn (s : State) : State := if curColour s = 0 then s else colourReturned s.cur.ctx (curColour s) s

theorem beforeReturn_rest (s : State) : (beforeReturn s).arcs = s.arcs ∧ (beforeReturn s).tiles = s.tiles ∧ (beforeReturn s).cur = s.cur ∧
    (beforeReturn s).pcyc = s.pcyc ∧ (beforeReturn s).agenda = s.agenda ∧ (beforeReturn s).memories = s.memories ∧
    (curColour s ≠ 0 → ((beforeReturn s).ctx s.cur.ctx).returned = (s.ctx s.cur.ctx).returned ++ [curColour s]) := by
  unfold beforeReturn
  split
  next h => exact ⟨rfl, rfl, rfl, rfl, rfl, rfl, fun hne => absurd h hne⟩
  next h =>
    obtain ⟨harcs, htiles, hcur, hpcyc, hagenda, hmem, hret⟩ := countColour_rest s.cur.ctx (s.actor (curActor s)).recorded (curColour s) (-1)
      (s.setCtx s.cur.ctx { s.ctx s.cur.ctx with returned := (s.ctx s.cur.ctx).returned ++ [curColour s] })
    exact ⟨harcs, htiles, hcur, hpcyc, hagenda, hmem, fun _ => hret.trans (by simp)⟩

/-- The token of `cret`. -/
def returnToken (c : Nat) : Token := { kind := .data, colour := c, payload := BitVec.ofNat 512 c }

section cret
variable {s : State} {t tag : Nat} {x : Arc} {d : BitVec 6} (hu : s.cur.unit = .tile t)
  (hx : s.arc? (State.arcKey s.cur.ctx tag) = some x) (hp : (outPort s t d.toNat).arc = some tag)
  (hroom : x.kind = .slot ∨ x.sent - x.seen < x.cap + 64 * x.chunks)
  (hc : curColour s = 0 ∨ (curColour s ∈ (s.ctx s.cur.ctx).drawn ∧ curColour s ∉ (s.ctx s.cur.ctx).returned))
include hu hx hp hroom hc

/-- A colour that may be returned goes out as a token (R256). -/
theorem execCret_eq : execCret d s = sendOnPort d.toNat true (returnToken (curColour s)) (beforeReturn s) := by
  have hallowed : (curColour s ≠ 0 && !(s.ctx s.cur.ctx).isDrawn (curColour s)) = false := by
    rcases hc with hc | ⟨hdrawn, hret⟩
    · simp [hc]
    · simp [Ctx.isDrawn, hdrawn, hret]
  simp only [execCret, onTile_tile s hu, hallowed, hp, Option.getD_some, hx, Arc.canSend_of_room hroom, Bool.false_eq_true, if_false, if_true]
  rfl

omit hu hc hroom hp in
theorem beforeReturn_arc : (beforeReturn s).arc? (State.arcKey (beforeReturn s).cur.ctx tag) = some x := by
  obtain ⟨harcs, -, hcur, -⟩ := beforeReturn_rest s
  rw [hcur, State.arc?, harcs]
  exact hx

omit hu hc hroom hp hx in
theorem beforeReturn_outPort (p : Nat) : outPort (beforeReturn s) t p = outPort s t p := by
  obtain ⟨-, htiles, -⟩ := beforeReturn_rest s
  rw [outPort, State.tile, htiles]
  rfl

theorem execCret_sends (htag : tag < 4096) (hd : ∀ r, x.dst ≠ .remote r) : ∃ u, execCret d s = .next u ∧
    departs s u s.cur.ctx tag x { returnToken (curColour s) with tag := tag } ∧
    (outPort u t d.toNat).count = (outPort s t d.toNat).count + 1 ∧ keepsMemory s u := by
  obtain ⟨-, -, hcur, hpcyc, hagenda, hmem, -⟩ := beforeReturn_rest s
  have hport := beforeReturn_outPort (s := s) (t := t) d.toNat
  obtain ⟨u, hsend, hdep, hcount, -, humem⟩ := sendOnPort_counted (tok := returnToken (curColour s))
    (by rw [hcur]; exact hu) (beforeReturn_arc hx) htag (hport ▸ hp) hroom hd rfl
  rw [hcur] at hdep
  exact ⟨u, (execCret_eq hu hx hp hroom hc).trans hsend, departs_congr hpcyc hagenda rfl rfl hdep, hport ▸ hcount,
    keepsMemory_of_memories (humem.trans hmem)⟩

/-- The context has its colour back. -/
theorem execCret_returns (hne : curColour s ≠ 0) : ∃ u, execCret d s = .next u ∧
    (u.ctx s.cur.ctx).returned = (s.ctx s.cur.ctx).returned ++ [curColour s] := by
  obtain ⟨-, -, hcur, -, -, -, hret⟩ := beforeReturn_rest s
  refine ⟨_, (execCret_eq hu hx hp hroom hc).trans (sendOnPort_sends (by rw [hcur]; exact hu) (beforeReturn_arc hx)
    ((congrArg Port.arc (beforeReturn_outPort d.toNat)).trans hp) (Arc.canSend_of_room hroom) true _), ?_⟩
  rw [if_pos rfl, ← hret hne]
  exact congrArg (fun m => (mget {} m s.cur.ctx).returned) (sendToken_ctxs ..)

end cret

/-! ## `punctall` (R225) -/

/-- The PUNCT that an output port of the actor sends. -/
def sendPunct (s : State) (e : Nat × Port) : State :=
  match e.2.arc with
  | some tag => sendToken (State.arcKey s.cur.ctx tag) { kind := .punct, tag := tag, colour := curColour s } s
  | none => s

/-- The ports of an actor with their PS bits cleared. -/
def clearPs (t : Nat) (actor : Nat) (s : State) : State :=
  s.setTile t { s.tile t with inPorts := (s.tile t).inPorts.map fun e => (e.1, if e.2.owner = actor then { e.2 with ps := false } else e.2) }

theorem clearPs_inPorts {t actor : Nat} {s : State} {e : Nat × Port} (he : e ∈ ((clearPs t actor s).tile t).inPorts) (ho : e.2.owner = actor) :
    e.2.ps = false := by
  rw [clearPs, State.setTile_tile_self] at he
  obtain ⟨f, -, rfl⟩ := List.mem_map.1 he
  dsimp only at ho ⊢
  split at ho <;> simp_all

/-- Has an output port no room for a PUNCT (R225)? -/
def portFull (s : State) (e : Nat × Port) : Bool :=
  match e.2.arc with
  | some tag => !((s.arc? (State.arcKey s.cur.ctx tag)).getD {}).canSend
  | none => false

theorem execPunctall_sends {s : State} {t : Nat} (hu : s.cur.unit = .tile t)
    (hin : ∀ e ∈ (s.tile t).inPorts, e.2.owner = s.cur.actor → e.2.ps = true)
    (hout : ∀ e ∈ portsOf (s.tile t).outPorts s.cur.actor, portFull s e = false) :
    execPunctall s = .next (clearPs t s.cur.actor ((portsOf (s.tile t).outPorts s.cur.actor).foldl sendPunct s)) := by
  have hmissing : (portsOf (s.tile t).inPorts s.cur.actor).filter (fun e => !e.2.ps) = [] := by
    refine List.filter_eq_nil_iff.2 fun e he => ?_
    obtain ⟨he, ho⟩ := List.mem_filter.1 he
    simp [hin e he (by simpa using ho)]
  have hfull : (portsOf (s.tile t).outPorts s.cur.actor).filter (portFull s) = [] :=
    List.filter_eq_nil_iff.2 fun e he => by simp [hout e he]
  simp only [execPunctall, onTile_tile s hu, hmissing]
  split
  next e l h => exact absurd (hfull.symm.trans h) (List.cons_ne_nil _ _).symm
  next h => rfl

/-- Some PUNCTs have been sent: no arc has lost a token. -/
def PunctsSent (s u : State) : Prop :=
  u.cur = s.cur ∧ u.actors = s.actors ∧ u.memories = s.memories ∧
    ∀ k y, s.arc? k = some y → ∃ z, u.arc? k = some z ∧ z.dst = y.dst ∧ y.transit ⊆ z.transit

theorem PunctsSent.refl (s : State) : PunctsSent s s := ⟨rfl, rfl, rfl, fun _ y hy => ⟨y, hy, rfl, List.Subset.refl _⟩⟩

theorem PunctsSent.trans {s u v : State} (h : PunctsSent s u) (h' : PunctsSent u v) : PunctsSent s v := by
  obtain ⟨hcur, hact, hmem, harc⟩ := h
  obtain ⟨hcur', hact', hmem', harc'⟩ := h'
  refine ⟨hcur'.trans hcur, hact'.trans hact, hmem'.trans hmem, fun k y hy => ?_⟩
  obtain ⟨z, hz, hdst, hsub⟩ := harc k y hy
  obtain ⟨w, hw, hdst', hsub'⟩ := harc' k z hz
  exact ⟨w, hw, hdst'.trans hdst, fun _ htok => hsub' (hsub htok)⟩

theorem PunctsSent.curColour {s u : State} (h : PunctsSent s u) : curColour u = curColour s := by
  obtain ⟨hcur, hact, -, -⟩ := h
  rw [Machine.curColour, curActor, State.actor, hcur, hact]
  rfl

/-- The PUNCT that a port of context `c` sends with colour `k`. -/
def punctToken (v k : Nat) : Token := { kind := .punct, tag := v, colour := k }

theorem sendPunct_sends {s : State} {e : Nat × Port} {v : Nat} {y : Arc} (hv : e.2.arc = some v)
    (hy : s.arc? (State.arcKey s.cur.ctx v) = some y) (hd : ∀ r, y.dst ≠ .remote r) :
    PunctsSent s (sendPunct s e) ∧
      ∃ z, (sendPunct s e).arc? (State.arcKey s.cur.ctx v) = some z ∧ punctToken v (curColour s) ∈ z.transit := by
  have he : sendPunct s e = sendToken (State.arcKey s.cur.ctx v) (punctToken v (curColour s)) s := by simp only [sendPunct, hv]; rfl
  obtain ⟨-, -, hact, hcur, hmem⟩ := sendToken_rest hy hd (punctToken v (curColour s))
  have hself := sendToken_arc_self hy hd (punctToken v (curColour s))
  rw [he]
  refine ⟨⟨hcur, hact, hmem, fun k w hw => ?_⟩, _, hself, List.mem_append_right _ List.mem_cons_self⟩
  by_cases hk : k = State.arcKey s.cur.ctx v
  · subst hk
    obtain rfl : y = w := Option.some.inj (hy.symm.trans hw)
    exact ⟨_, hself, rfl, List.subset_append_left ..⟩
  · exact ⟨w, (sendToken_arc_of_ne hy hd _ hk).trans hw, rfl, List.Subset.refl _⟩

/-- Every port that is bound to an arc of this package has its PUNCT on the way. -/
theorem foldl_sendPunct {l : List (Nat × Port)} {s : State}
    (h : ∀ e ∈ l, ∃ v y, e.2.arc = some v ∧ s.arc? (State.arcKey s.cur.ctx v) = some y ∧ ∀ r, y.dst ≠ .remote r) :
    PunctsSent s (l.foldl sendPunct s) ∧ ∀ e ∈ l, ∀ v, e.2.arc = some v →
      ∃ z, (l.foldl sendPunct s).arc? (State.arcKey s.cur.ctx v) = some z ∧ punctToken v (curColour s) ∈ z.transit := by
  induction l generalizing s with
  | nil => exact ⟨.refl s, fun e he => by cases he⟩
  | cons e l ih =>
    obtain ⟨v, y, hv, hy, hd⟩ := h e List.mem_cons_self
    obtain ⟨hone, z, hz, htok⟩ := sendPunct_sends hv hy hd
    have hcur : (sendPunct s e).cur = s.cur := hone.1
    obtain ⟨hall, hrest⟩ := ih (s := sendPunct s e) fun f hf => by
      obtain ⟨w, x, hw, hx, hdx⟩ := h f (List.mem_cons_of_mem e hf)
      obtain ⟨x', hx', hdst, -⟩ := hone.2.2.2 _ _ hx
      exact ⟨w, x', hw, by rw [hcur]; exact hx', fun r => by rw [hdst]; exact hdx r⟩
    refine ⟨hone.trans hall, fun f hf w hw => ?_⟩
    rcases List.mem_cons.1 hf with rfl | hf
    · obtain rfl : v = w := Option.some.inj (hv.symm.trans hw)
      obtain ⟨z', hz', -, hsub⟩ := hall.2.2.2 _ _ hz
      exact ⟨z', hz', hsub htok⟩
    · have := hrest f hf w hw
      rwa [hcur, hone.curColour] at this

/-- The token that a beat of `push` sends (R170). -/
def pushToken (s : State) (a : BitVec 6) (ft : BitVec 3) : Token :=
  { kind := .data, colour := curColour s, fmt := ft.toNat, payload := BitVec.ofNat 512 ((readV s a).toNat / 2 ^ (512 * s.cur.beat)) }

/-- Settles O36: a beat that takes a token (`popBeat_takes`), a port whose arc takes one (`sendOnPort_counted`,
`sendOnPort_uncounted`), and the PUNCTs of `punctall` one after the other (`foldl_sendPunct`). -/
theorem arcInstructions : Obligations.ArcInstructions := by
  unfold Obligations.ArcInstructions
  intro fold d a ft s t x tag hu htag
  dsimp only
  intro hx
  refine ⟨fun hin tok ht hmode hdrain hps => ?_, fun hin tok ht => ?_, fun hout hroom hd => ?_, fun hout hroom hd => ?_, fun hcol => ?_,
    fun hin hout => ?_⟩
  · have hstop : tok.isStopping = false := by simp [Token.isStopping, hmode, hdrain]
    obtain ⟨w, hpop, harc, hport, hpend, hissuing, hmem⟩ := popBeat_takes hu hx hin ht hstop hps
    obtain ⟨hp1, hi1⟩ := deliver_tile_congr (lat := 1) (rs := [.colour (curActor s) tok.colour]) hpend hissuing
    obtain ⟨y, hy, hread, hwin, hcount, hps', hkeep⟩ := popped_facts (u := deliver 1 t [.colour (curActor s) tok.colour] w) harc
      ((deliver_inPort _).trans hport) hmem
    obtain ⟨y2, hy2, hread2, hwin2, hcount2, hps2, hkeep2⟩ := popped_facts
      (u := deliver 2 t [payloadResult d s.cur.beat tok.payload] (deliver 1 t [.colour (curActor s) tok.colour] w)) harc
      ((deliver_inPort _).trans ((deliver_inPort _).trans hport)) hmem
    refine ⟨⟨_, y2, (exec_pop ..).trans (hpop _), hy2, hread2, hwin2, hcount2, hps2, (deliver_tile_congr hp1 hi1).1, hkeep2⟩,
      ⟨_, y, (exec_popd ..).trans (hpop _), hy, hread, hwin, hcount, hps', hp1.trans ?_, hkeep⟩⟩
    simp [delivered]
    rfl
  · exact execPeek_reads hu hx hin rfl fold d (by rw [itemsAhead_eq]; exact ht)
  · obtain ⟨u, hexec, hdep, hcount, -, hmem⟩ := sendOnPort_counted hu hx htag hout hroom hd (tok := pushToken s a ft) rfl
    exact ⟨u, hexec, hdep, fun _ => hcount, fun h => absurd trivial h, keepsMemory_of_memories hmem⟩
  · obtain ⟨u, hexec, hdep, htiles, hmem⟩ := sendOnPort_uncounted hu hx htag hout hroom hd (tok := { kind := .punct, colour := curColour s }) rfl
    exact ⟨u, hexec, hdep, False.elim, fun _ => htiles, keepsMemory_of_memories hmem⟩
  · refine ⟨fun hout hroom hd => ?_, fun hne hout hroom => ?_⟩
    · obtain ⟨u, hexec, hdep, hcount, hkeep⟩ := execCret_sends hu hx hout hroom hcol htag hd
      exact ⟨u, hexec, hdep, fun _ => hcount, fun h => absurd trivial h, hkeep⟩
    · exact execCret_returns hu hx hout hroom hcol hne
  · have hports : ∀ e ∈ portsOf (s.tile t).outPorts s.cur.actor, e ∈ (s.tile t).outPorts ∧ e.2.owner = s.cur.actor := fun e he => by
      simpa [portsOf] using he
    have hsent := foldl_sendPunct (l := portsOf (s.tile t).outPorts s.cur.actor) (s := s) fun e he => by
      obtain ⟨v, y, hv, hy, -, hd⟩ := hout e (hports e he).1 (hports e he).2
      exact ⟨v, y, hv, hy, hd⟩
    obtain ⟨⟨-, -, hmem, -⟩, htoks⟩ := hsent
    refine ⟨_, (exec_punctall s).trans (execPunctall_sends hu hin fun e he => ?_), fun e => clearPs_inPorts, fun e he ho v hv => ?_,
      keepsMemory_of_memories hmem⟩
    · obtain ⟨v, y, hv, hy, hroom, -⟩ := hout e (hports e he).1 (hports e he).2
      simp [portFull, hv, hy, Arc.canSend_of_room hroom]
    · exact htoks e (by simpa [portsOf] using ⟨he, ho⟩) v hv

end Sys2Proof.Machine
end

/-! # Tokens, publications and chunks on their way

What the events of an arc do (R38, R39, R153, R156, R158 to R163, R204, R205). -/
section
open Sys2Proof Sys2Proof.Machine Sys2Proof.Claims
namespace Sys2Proof.Machine

/-! ## A token enters its window (R153, R156, R158, R159) -/

/-- The arc with a token written at the end of its window. -/
def Arc.written (x : Arc) (tok : Token) : Arc :=
  { x with window := if x.kind = .slot then x.window ++ [tok] else x.window
           fresh := if x.kind = .slot then x.fresh else x.fresh ++ [tok]
           state := if tok.isStopping then .marked else x.state }

theorem writeWindow_eq {s : State} {key : Nat} {x : Arc} (hx : s.arc? key = some x) (tok : Token) :
    writeWindow key tok s = s.setArc key (x.written tok) := by
  simp only [writeWindow, hx, Arc.written]
  cases tok.isStopping <;> by_cases hk : x.kind = .slot <;> simp [hk]

/-- Two states that differ in their arcs only. -/
def ArcsOnly (s u : State) : Prop := u = { s with arcs := u.arcs }

theorem ArcsOnly.refl (s : State) : ArcsOnly s s := rfl

theorem ArcsOnly.setArc {s u : State} (h : ArcsOnly s u) (k : Nat) (x : Arc) : ArcsOnly s (u.setArc k x) := by
  rw [ArcsOnly] at h ⊢
  rw [h]
  rfl

theorem ArcsOnly.memories {s u : State} (h : ArcsOnly s u) : u.memories = s.memories := by rw [h]; rfl
theorem ArcsOnly.tiles {s u : State} (h : ArcsOnly s u) : u.tiles = s.tiles := by rw [h]

/-- The formats that the end of an arc accepts do not depend on what stands in the arcs. -/
theorem ArcsOnly.acceptance {s u : State} (h : ArcsOnly s u) {key : Nat} {x y : Arc} (hd : y.dst = x.dst) (hs : y.slot = x.slot) :
    acceptance u key y = acceptance s key x := by
  rw [h, Machine.acceptance, Machine.acceptance, hd, hs]
  rfl

/-- The arc with what is left to discard kept where the SNAP of its snapshot enters (R428). -/
def Arc.noted (x : Arc) (tok : Token) : Arc :=
  { x with overdrawAt := if tok.kind = .snap ∧ tok.payload.toNat = x.snapId then x.overdraw else x.overdrawAt }

/-- The state in which a token that its window takes is written. -/
def noteSnap (key : Nat) (x : Arc) (tok : Token) (s : State) : State :=
  if tok.kind == .snap && tok.payload.toNat = x.snapId then s.setArc key { x with overdrawAt := x.overdraw } else s

theorem noteSnap_arc {s : State} {key : Nat} {x : Arc} (hx : s.arc? key = some x) (tok : Token) :
    ArcsOnly s (noteSnap key x tok s) ∧ (noteSnap key x tok s).arc? key = some (x.noted tok) := by
  unfold noteSnap Arc.noted
  by_cases h : tok.kind = .snap ∧ tok.payload.toNat = x.snapId
  · simp only [h, beq_self_eq_true, decide_true, Bool.and_self, and_self, if_true]
    exact ⟨(ArcsOnly.refl s).setArc _ _, State.setArc_arc_self ..⟩
  · have hb : (tok.kind == .snap && decide (tok.payload.toNat = x.snapId)) = false := by simpa using h
    simp only [hb, h, if_false, Bool.false_eq_true]
    exact ⟨.refl s, hx⟩

/-! ## Reports -/

theorem tileReport_arc (t : Nat) (r : Report) (s : State) (k : Nat) : (tileReport t r s).arc? k = s.arc? k := by
  unfold tileReport
  dsimp only
  (repeat' split) <;> rfl

/-- A tile report is the newest of its tile. -/
theorem tileReport_raises (t : Nat) (r : Report) (s : State) :
    ∃ q, ((tileReport t r s).tile t).reports = insertReport q (s.tile t).reports ∧ q.code = r.code :=
  ⟨_, tileReport_reports t r s, rfl⟩

theorem slotReport_raises (k : Nat) (info : Word) (s : State) :
    ∃ q, ((slotReport k info s).tile (lowestTile (s.regionAt k))).reports = insertReport q (s.tile (lowestTile (s.regionAt k))).reports ∧
      q.code = 0x13 :=
  tileReport_raises ..

section enter
variable {s : State} {key : Nat} {x : Arc} {tok : Token} (hx : s.arc? key = some x) (hover : x.overdraw = 0)
  (hdet : (acceptance s key x).2 = none)
include hx hover hdet

theorem enterWindow_accepts (hacc : tok.kind ≠ .data ∨ tok.fmt ∈ (acceptance s key x).1) : ∃ u, enterWindow key tok s = some u ∧ ArcsOnly s u ∧
    u.arc? key = some ((x.noted tok).written tok) := by
  obtain ⟨honly, harc⟩ := noteSnap_arc hx tok
  have hcount : (decide (0 < x.overdraw) && tok.counts) = false := by simp [hover]
  have hno : (tok.kind == .data && !(acceptance s key x).1.contains tok.fmt) = false := by
    rcases hacc with h | h <;> simp [h]
  refine ⟨_, ?_, honly.setArc _ _, State.setArc_arc_self ..⟩
  simp only [enterWindow, hx, hcount, hdet, hno, Bool.false_eq_true, if_false]
  exact congrArg some (writeWindow_eq harc tok)

/-- FORMAT at the consumer's end (R153). -/
theorem enterWindow_refuses (hk : tok.kind = .data) (hacc : tok.fmt ∉ (acceptance s key x).1) {t p : Nat} (hf : x.faultTile = some (t, p)) :
    ∃ r u, enterWindow key tok s = some u ∧ u.arc? key = some { x with read := x.read + 1 } ∧
      (u.tile t).reports = insertReport r (s.tile t).reports ∧ r.code = 0x11 := by
  have hcount : (decide (0 < x.overdraw) && tok.counts) = false := by simp [hover]
  have hno : (tok.kind == .data && !(acceptance s key x).1.contains tok.fmt) = true := by simp [hk, hacc]
  obtain ⟨r, hr, hcode⟩ := tileReport_raises t _ (s.setArc key { x with read := x.read + 1 })
  refine ⟨r, reportAt t Code.format (formatInfo p tok.fmt (key % 4096)) (s.setArc key { x with read := x.read + 1 }), ?_, ?_, hr, hcode⟩
  · simp only [enterWindow, hx, hcount, hdet, hno, hf, Bool.false_eq_true, if_false, if_true]
  · exact (tileReport_arc ..).trans (State.setArc_arc_self ..)

end enter

/-! ## The oldest token of an arc lands (R154) -/

/-- The tokens at the entry go in one after the other; the only one leaves the entry empty. -/
theorem landOldest_enters {s : State} {key : Nat} {x : Arc} {tok : Token} {rest : List Token} (hx : s.arc? key = some x)
    (ht : x.transit = tok :: rest) (he : x.entry = []) : ∃ v, ArcsOnly s v ∧ v.arc? key = some { x with transit := rest } ∧
      ∀ u, enterWindow key tok v = some u → landOldest key s = u := by
  let v := ((s.setArc key { x with transit := rest }).setArc key { x with transit := rest, entry := [tok] }).setArc key
    { x with transit := rest, entry := [] }
  refine ⟨v, (((ArcsOnly.refl s).setArc _ _).setArc _ _).setArc _ _, ?_, fun u hu => ?_⟩
  · exact (State.setArc_arc_self ..).trans (by rw [← he])
  · simp only [v, he] at hu
    simp only [landOldest, hx, ht, arriveAt, State.setArc_arc_self, he, drainEntry, List.nil_append, List.length_nil, hu]

/-- Token `tok` has landed: `y` is the arc, apart from what the landing changes. -/
def Lands (s u : State) (key : Nat) (x y : Arc) (tok : Token) (rest : List Token) : Prop :=
  (tok.kind ≠ .data ∨ tok.fmt ∈ (acceptance s key x).1 → u.arc? key = some { y with
      transit := rest
      window := if x.kind = .slot then x.window ++ [tok] else x.window
      fresh := if x.kind = .slot then x.fresh else x.fresh ++ [tok]
      overdrawAt := if tok.kind = .snap ∧ tok.payload.toNat = x.snapId then 0 else x.overdrawAt
      state := if tok.kind = .mode ∨ tok.kind = .drain then .marked else x.state } ∧ keepsMemory s u ∧ u.tiles = s.tiles) ∧
  (¬ (tok.kind ≠ .data ∨ tok.fmt ∈ (acceptance s key x).1) → ∀ t p, x.faultTile = some (t, p) → ∃ r,
    u.arc? key = some { y with transit := rest, read := x.read + 1 } ∧ (u.tile t).reports = insertReport r (s.tile t).reports ∧ r.code = 0x11)

/-- The landing goes by what the arc held before its event (`s`), whatever the event did to its way here (`v`). -/
theorem landOldest_lands {s v : State} {key : Nat} {x : Arc} {fl : List Flight} {bl : Option Nat} {tok : Token} {rest : List Token}
    (hv : v.arc? key = some { x with flights := fl, blocked := bl })
    (hsame : acceptance v key { x with flights := fl, blocked := bl } = acceptance s key x) (hmem : v.memories = s.memories)
    (htiles : v.tiles = s.tiles) (ht : x.transit = tok :: rest) (he : x.entry = []) (hover : x.overdraw = 0)
    (hdet : (acceptance s key x).2 = none) : Lands s (landOldest key v) key x { x with flights := fl, blocked := bl } tok rest := by
  obtain ⟨w, honly, hw, hland⟩ := landOldest_enters hv ht he
  have hsame' := (honly.acceptance (key := key) (x := { x with flights := fl, blocked := bl })
    (y := { x with flights := fl, blocked := bl, transit := rest }) rfl rfl).trans hsame
  unfold Lands
  rw [← hsame'] at hdet ⊢
  refine ⟨fun hacc => ?_, fun hacc t p hf => ?_⟩
  · obtain ⟨u, hu, huonly, harc⟩ := enterWindow_accepts hw hover hdet hacc
    rw [hland u hu]
    refine ⟨harc.trans ?_, keepsMemory_of_memories (huonly.memories.trans (honly.memories.trans hmem)),
      huonly.tiles.trans (honly.tiles.trans htiles)⟩
    simp only [Arc.written, Arc.noted, hover, Token.isStopping_iff]
  · obtain ⟨hk, hfmt⟩ := not_or.1 hacc
    obtain ⟨r, u, hu, harc, hrep, hcode⟩ := enterWindow_refuses (tok := tok) hw hover hdet (not_not.1 hk) hfmt hf
    rw [hland u hu]
    refine ⟨r, harc, hrep.trans ?_, hcode⟩
    rw [State.tile, honly.tiles, htiles]
    rfl

/-! ## Tokens between routers (R38, R39, R204, R205) -/

section fly
variable {s : State} {key n i : Nat} {x : Arc} {f : Flight} {used : List Nat} (hx : s.arc? key = some x)
include hx

/-- Behind the last token on its way nothing moves. -/
theorem flyFrom_end (h : x.flights[i]? = none) : flyFrom key n i used s = s := by
  cases n with
  | zero => rfl
  | succ n => simp only [flyFrom, hx, h]

/-- Does the token before the `i`-th wait at the lane to which this one has come? -/
def Arc.waitsBefore (x : Arc) (i : Nat) (f : Flight) : Bool :=
  match (if i = 0 then none else x.flights[i - 1]?) with
  | some o => o.waits && o.leg = f.leg
  | none => false

variable (hf : x.flights[i]? = some f) (hdue : f.due ≤ s.pcyc) (hw : f.waits = false)
include hf hdue hw

omit hx hf in
theorem flight_here {k : Nat} : (decide (s.pcyc < f.due) || (f.waits && laneHeld s k)) = false := by
  simp [hw, Nat.not_lt.2 hdue]

/-- At the end of its route the oldest token reaches the consumer. -/
theorem flyFrom_lands (hi : i = 0) (hl : x.lanes[f.leg]? = none) : flyFrom key (n + 1) i used s = flyFrom key n 0 used (landFlight key s) := by
  subst hi
  simp only [flyFrom, hx, hf, flight_here hdue hw, hl, Bool.false_eq_true, if_false, if_true]

variable {l : Nat × Nat} (hl : x.lanes[f.leg]? = some l)
include hl

/-- On its own lane a token passes to the next router. -/
theorem flyFrom_passes (hb : x.waitsBefore i f = false) (hlane : mfind s.lanes (l.1 * 8 + l.2) = some key) (hu : f.leg ∉ used) :
    flyFrom key (n + 1) i used s = flyFrom key n (i + 1) (f.leg :: used)
      ((setFlight key i { leg := f.leg + 1, due := s.pcyc + x.nextLeg f.leg } s).after (x.nextLeg f.leg)
        (.scheduledTokenArrival (key / 4096) (key % 4096))) := by
  have hown : (mfind s.lanes (l.1 * 8 + l.2) != some key) = false := by simpa using hlane
  have hunused : used.contains f.leg = false := by simpa using hu
  unfold Arc.waitsBefore at hb
  cases hprev : (if i = 0 then none else x.flights[i - 1]?) with
  | none => simp only [flyFrom, hx, hf, flight_here hdue hw, hl, hown, hprev, hunused, Bool.false_and, Bool.or_self, Bool.false_eq_true, if_false]
  | some o =>
    simp only [hprev] at hb
    simp only [flyFrom, hx, hf, flight_here hdue hw, hl, hown, hprev, hb, hunused, Bool.false_and, Bool.or_self, Bool.false_eq_true, if_false]

/-- On another arc's lane it waits. -/
theorem flyFrom_mismatch (hlane : mfind s.lanes (l.1 * 8 + l.2) ≠ some key) :
    flyFrom key (n + 1) i used s = flyFrom key n (i + 1) used
      (laneMismatch ((x.srcRegion s).getD 0) (laneInfo s (key % 4096) 0 l) (setFlight key i { f with waits := true } s)) := by
  have hne : (mfind s.lanes (l.1 * 8 + l.2) != some key) = true := by simpa using hlane
  simp only [flyFrom, hx, hf, flight_here hdue hw, hl, hne, Bool.false_eq_true, if_false, if_true]

/-- In a slot that another token has used it raises SLOT. -/
theorem flyFrom_clash (hb : x.waitsBefore i f = false) (hlane : mfind s.lanes (l.1 * 8 + l.2) = some key) (hu : f.leg ∈ used) :
    flyFrom key (n + 1) i used s = flyFrom key n (i + 1) used
      (slotReport ((x.srcRegion s).getD 0) (laneInfo s (key % 4096) 1 l) (setFlight key i { f with waits := true } s)) := by
  have hown : (mfind s.lanes (l.1 * 8 + l.2) != some key) = false := by simpa using hlane
  have hused : used.contains f.leg = true := by simpa using hu
  unfold Arc.waitsBefore at hb
  cases hprev : (if i = 0 then none else x.flights[i - 1]?) with
  | none =>
    simp only [flyFrom, hx, hf, decide_eq_false (Nat.not_lt.2 hdue), hl, hown, hprev, hused, hw, Bool.false_and, Bool.and_false,
      Bool.or_self, Bool.false_eq_true, if_false,
      if_true]
  | some o =>
    simp only [hprev] at hb
    simp only [flyFrom, hx, hf, decide_eq_false (Nat.not_lt.2 hdue), hl, hown, hprev, hb, hused, hw, Bool.false_and, Bool.and_false,
      Bool.or_self, Bool.false_eq_true, if_false,
      if_true]

omit hx hf hdue hw hl in
theorem setFlight_eq (hx : s.arc? key = some x) (f : Flight) : setFlight key i f s = s.setArc key { x with flights := x.flights.set i f } := by
  simp only [setFlight, hx]

end fly

/-! ## SCHEDULED_TOKEN_ARRIVAL -/

theorem exec_scheduledTokenArrival (ctx tag : Nat) (s : State) : exec (.scheduledTokenArrival ctx tag) s =
    .next (flyFrom (State.arcKey ctx tag) (2 * (((s.arc? (State.arcKey ctx tag)).map fun a => a.flights.length).getD 0)) 0 [] s) := rfl

/-- The first token on another arc's lane: its region reloads (R205). -/
theorem laneMismatch_first {v : State} {k : Nat} {info : Word} (hheld : laneHeld v k = false) (hreloads : (v.regionAt k).reloads = 0)
    (hstate : (v.regionAt k).rstate ≠ 3) : laneMismatch k info v =
      (v.setRegion k { v.regionAt k with reloads := 1, reloading := true, rstate := 4, wcnt := 0 }).later
        (.configReloadComplete (k / 2048 / 256) (k / 2048 % 256) (k % 2048) 0) := by
  simp only [laneMismatch, hheld, hreloads, hstate, Bool.false_eq_true, if_false, if_true]

section scheduled
variable {s : State} {ctx tag : Nat} {x : Arc} (hx : s.arc? (State.arcKey ctx tag) = some x) {f : Flight} (hdue : f.due ≤ s.pcyc)
  (hw : f.waits = false)
include hx hdue hw

theorem scheduledTokenArrival_lands (hf : x.flights = [f]) (hl : x.lanes[f.leg]? = none) {tok : Token} {rest : List Token}
    (ht : x.transit = tok :: rest) (he : x.entry = []) (hover : x.overdraw = 0) (hdet : (acceptance s (State.arcKey ctx tag) x).2 = none) :
    ∃ u, exec (.scheduledTokenArrival ctx tag) s = .next (flyFrom (State.arcKey ctx tag) 1 0 [] u) ∧
      Lands s u (State.arcKey ctx tag) x { x with flights := [] } tok rest := by
  refine ⟨_, ?_, landOldest_lands (fl := []) (bl := x.blocked) (State.setArc_arc_self ..) rfl rfl rfl ht he hover hdet⟩
  rw [exec_scheduledTokenArrival, hx]
  simp only [Option.map_some, hf, List.length_singleton, Option.getD_some, Nat.mul_one]
  rw [flyFrom_lands hx (by rw [hf]; rfl) hdue hw rfl hl]
  simp only [landFlight, hx, hf]
  rfl

theorem scheduledTokenArrival_passes {l : Nat × Nat} (htag : tag < 4096) (hf : x.flights = [f]) (hl : x.lanes[f.leg]? = some l)
    (hlane : mfind s.lanes (l.1 * 8 + l.2) = some (State.arcKey ctx tag)) : exec (.scheduledTokenArrival ctx tag) s =
      .next ((s.setArc (State.arcKey ctx tag) { x with flights := [{ leg := f.leg + 1, due := s.pcyc + x.nextLeg f.leg }] }).after
        (x.nextLeg f.leg) (.scheduledTokenArrival ctx tag)) := by
  rw [exec_scheduledTokenArrival, hx]
  simp only [Option.map_some, hf, List.length_singleton, Option.getD_some, Nat.mul_one]
  rw [flyFrom_passes hx (by rw [hf]; rfl) hdue hw hl rfl hlane List.not_mem_nil, arcKey_div htag, arcKey_mod htag, setFlight_eq hx, hf]
  exact congrArg Host.Outcome.next (flyFrom_end (State.setArc_arc_self ..) rfl)

theorem scheduledTokenArrival_waits {l : Nat × Nat} (hf : x.flights = [f]) (hl : x.lanes[f.leg]? = some l)
    (hlane : mfind s.lanes (l.1 * 8 + l.2) ≠ some (State.arcKey ctx tag)) (hheld : laneHeld s ((x.srcRegion s).getD 0) = false)
    (hreloads : (s.regionAt ((x.srcRegion s).getD 0)).reloads = 0) (hstate : (s.regionAt ((x.srcRegion s).getD 0)).rstate ≠ 3) :
    ∃ u, exec (.scheduledTokenArrival ctx tag) s = .next u ∧
      u.arc? (State.arcKey ctx tag) = some { x with flights := [{ f with waits := true }] } ∧
      u.regionAt ((x.srcRegion s).getD 0) =
        { s.regionAt ((x.srcRegion s).getD 0) with reloads := 1, reloading := true, rstate := 4, wcnt := 0 } ∧ u.tiles = s.tiles := by
  let k := (x.srcRegion s).getD 0
  let v := s.setArc (State.arcKey ctx tag) { x with flights := [{ f with waits := true }] }
  have hv : v.arc? (State.arcKey ctx tag) = some { x with flights := [{ f with waits := true }] } := State.setArc_arc_self ..
  refine ⟨(v.setRegion k { v.regionAt k with reloads := 1, reloading := true, rstate := 4, wcnt := 0 }).later
    (.configReloadComplete (k / 2048 / 256) (k / 2048 % 256) (k % 2048) 0), ?_, hv, ?_, rfl⟩
  · rw [exec_scheduledTokenArrival, hx]
    simp only [Option.map_some, hf, List.length_singleton, Option.getD_some, Nat.mul_one]
    rw [flyFrom_mismatch hx (by rw [hf]; rfl) hdue hw hl hlane, setFlight_eq hx, hf]
    exact congrArg Host.Outcome.next ((congrArg (flyFrom _ 1 1 []) (laneMismatch_first (v := v) hheld hreloads hstate)).trans (flyFrom_end hv rfl))
  · exact mget_mset_self _ _ _ _

/-- Two tokens in one slot: the older one passes, and the other one raises SLOT (R205). -/
theorem scheduledTokenArrival_clashes {g : Flight} {l : Nat × Nat} (hf : x.flights = [f, g]) (hgdue : g.due ≤ s.pcyc) (hgw : g.waits = false)
    (hleg : f.leg = g.leg) (hl : x.lanes[f.leg]? = some l) (hlane : mfind s.lanes (l.1 * 8 + l.2) = some (State.arcKey ctx tag)) :
    ∃ u r, exec (.scheduledTokenArrival ctx tag) s = .next u ∧
      (u.tile (lowestTile (s.regionAt ((x.srcRegion s).getD 0)))).reports =
        insertReport r (s.tile (lowestTile (s.regionAt ((x.srcRegion s).getD 0)))).reports ∧ r.code = 0x13 ∧
      u.arc? (State.arcKey ctx tag) =
        some { x with flights := [{ leg := f.leg + 1, due := s.pcyc + x.nextLeg f.leg }, { g with waits := true }] } := by
  let key := State.arcKey ctx tag
  let k := (x.srcRegion s).getD 0
  let y : Arc := { x with flights := [{ leg := f.leg + 1, due := s.pcyc + x.nextLeg f.leg }, g] }
  let v := (s.setArc key y).after (x.nextLeg f.leg) (.scheduledTokenArrival (key / 4096) (key % 4096))
  let w := v.setArc key { y with flights := [{ leg := f.leg + 1, due := s.pcyc + x.nextLeg f.leg }, { g with waits := true }] }
  have hv : v.arc? key = some y := State.setArc_arc_self ..
  obtain ⟨r, hr, hcode⟩ := slotReport_raises k (laneInfo v (key % 4096) 1 l) w
  have harc : (slotReport k (laneInfo v (key % 4096) 1 l) w).arc? key =
      some { x with flights := [{ leg := f.leg + 1, due := s.pcyc + x.nextLeg f.leg }, { g with waits := true }] } :=
    (tileReport_arc ..).trans (State.setArc_arc_self ..)
  refine ⟨slotReport k (laneInfo v (key % 4096) 1 l) w, r, ?_, hr, hcode, harc⟩
  rw [exec_scheduledTokenArrival, hx]
  simp only [Option.map_some, hf, List.length_cons, List.length_nil, Option.getD_some]
  rw [flyFrom_passes hx (by rw [hf]; rfl) hdue hw hl rfl hlane List.not_mem_nil, setFlight_eq hx, hf]
  refine congrArg Host.Outcome.next ((flyFrom_clash hv rfl hgdue hgw (hleg ▸ hl) rfl hlane (hleg ▸ List.mem_singleton_self _)).trans ?_)
  rw [setFlight_eq hv]
  exact flyFrom_end harc rfl

end scheduled

/-! ## RING_WINDOW_WRITE (R159, R176) -/

theorem exec_ringWindowWrite (ctx tag : Nat) (s : State) : exec (.ringWindowWrite ctx tag) s = execRingWindowWrite ctx tag s := rfl

section ring
variable {s : State} {ctx tag : Nat} {x : Arc} (hx : s.arc? (State.arcKey ctx tag) = some x)
include hx

theorem ringWindowWrite_lands (hfree : ∀ b ∈ x.banks, b ∉ busyBanks s (x.home.getD 0)) {tok : Token} {rest : List Token}
    (ht : x.transit = tok :: rest) (he : x.entry = []) (hover : x.overdraw = 0) (hdet : (acceptance s (State.arcKey ctx tag) x).2 = none) :
    ∃ u, exec (.ringWindowWrite ctx tag) s = .next u ∧ Lands s u (State.arcKey ctx tag) x { x with blocked := none } tok rest := by
  have hany : (x.banks.any (busyBanks s (x.home.getD 0)).contains) = false := by
    simpa [List.any_eq_false] using hfree
  let v := s.setArc (State.arcKey ctx tag) { x with blocked := none }
  let w := if x.banks.isEmpty then v else useBanks (x.home.getD 0) x.banks v
  have hw : w.arc? (State.arcKey ctx tag) = some { x with blocked := none } ∧
      acceptance w (State.arcKey ctx tag) { x with blocked := none } = acceptance s (State.arcKey ctx tag) x ∧ w.memories = s.memories ∧
      w.tiles = s.tiles := by
    have hself : v.arc? (State.arcKey ctx tag) = some { x with blocked := none } := State.setArc_arc_self ..
    unfold w
    split
    · exact ⟨hself, rfl, rfl, rfl⟩
    · exact ⟨hself, rfl, rfl, rfl⟩
  obtain ⟨harc, hsame, hmem, htiles⟩ := hw
  refine ⟨landOldest (State.arcKey ctx tag) w, ?_, landOldest_lands (fl := x.flights) harc hsame hmem htiles ht he hover hdet⟩
  simp only [exec_ringWindowWrite, execRingWindowWrite, hx, hany, Bool.false_eq_true, if_false]
  rfl

theorem ringWindowWrite_waits (hbusy : ∃ b, b ∈ x.banks ∧ b ∈ busyBanks s (x.home.getD 0)) : exec (.ringWindowWrite ctx tag) s =
    .next ((s.setArc (State.arcKey ctx tag) { x with blocked := some (x.blocked.getD s.pcyc) }).after 1 (.ringWindowWrite ctx tag)) := by
  have hany : (x.banks.any (busyBanks s (x.home.getD 0)).contains) = true := by
    simpa [List.any_eq_true] using hbusy
  simp only [exec_ringWindowWrite, execRingWindowWrite, hx, hany, if_true]

end ring

/-! ## Publications and chunks (R160 to R163) -/

theorem keptChunks_length_le (seen out cap : Nat) (l : List Nat) : (keptChunks seen out cap l).length ≤ l.length := by
  induction l with
  | nil => exact Nat.le_refl _
  | cons e l ih =>
    unfold keptChunks
    split
    · exact Nat.le_succ_of_le ih
    · exact Nat.le_refl _

/-- A chunk leaves its arc for the pool of its die. -/
theorem returnChunks_gives {s : State} {key : Nat} {x : Arc} (hx : s.arc? key = some x) :
    ∃ kept lent, kept.length ≤ x.chunks ∧ (returnChunks key s).arc? key = some { x with chunkEnds := kept, lent := lent } ∧
      ((returnChunks key s).die x.die).attic = (s.die x.die).attic + (x.chunks - kept.length) ∧ (returnChunks key s).memories = s.memories := by
  refine ⟨keptChunks x.seen (x.sent - x.seen) x.cap x.chunkEnds,
    x.lent + 64 * (x.chunks - (keptChunks x.seen (x.sent - x.seen) x.cap x.chunkEnds).length), keptChunks_length_le .., ?_⟩
  simp only [returnChunks, hx]
  exact ⟨State.setArc_arc_self .., congrArg Die.attic (mget_mset_self _ _ _ _), rfl⟩

theorem exec_creditArrival {s : State} {ctx tag p : Nat} {x : Arc} {ps : List Nat} (hx : s.arc? (State.arcKey ctx tag) = some x)
    (hp : x.pubs = p :: ps) : ∃ v, exec (.creditArrival ctx tag) s = .next (returnChunks (State.arcKey ctx tag) v) ∧
      ArcsOnly s v ∧ v.arc? (State.arcKey ctx tag) = some { x with pubs := ps, seen := max x.seen p } := by
  refine ⟨(s.setArc (State.arcKey ctx tag) { x with pubs := ps }).setArc (State.arcKey ctx tag) { x with pubs := ps, seen := max x.seen p }, ?_,
    ((ArcsOnly.refl s).setArc _ _).setArc _ _, State.setArc_arc_self ..⟩
  show execCreditArrival ctx tag s = _
  simp only [execCreditArrival, hx, hp, seePointer, State.setArc_arc_self]

theorem exec_chunkGrant {s : State} {ctx tag : Nat} {x : Arc} (hx : s.arc? (State.arcKey ctx tag) = some x) (hasked : 0 < x.asked)
    (hcan : canGrant s (State.arcKey ctx tag) x.asked x = true) :
    exec (.chunkGrant ctx tag) s = .next (grantChunks (State.arcKey ctx tag) x.asked s) := by
  show execChunkGrant ctx tag s = _
  simp only [execChunkGrant, hx, hasked, hcan, decide_true, Bool.and_self, if_true]

theorem grantChunks_takes {s : State} {key n : Nat} {x : Arc} (hx : s.arc? key = some x) : ∃ ends, ends.length = n ∧
    (grantChunks key n s).arc? key = some { x with chunkEnds := x.chunkEnds ++ ends, asked := x.asked - n } ∧
    ((grantChunks key n s).die x.die).attic = (s.die x.die).attic - n ∧ (grantChunks key n s).memories = s.memories := by
  refine ⟨(List.range n).map fun i => x.seen + x.slots + 64 * (i + 1), by simp, ?_⟩
  simp only [grantChunks, hx]
  exact ⟨State.setArc_arc_self .., congrArg Die.attic (mget_mset_self _ _ _ _), rfl⟩

/-- Settles O38: what a landing does is one lemma for both planes (`landOldest_lands`), and each turn of the scheduled plane has
its own (`flyFrom_passes`, `flyFrom_mismatch`, `flyFrom_clash`). -/
theorem arcEvents : Obligations.ArcEvents := by
  unfold Obligations.ArcEvents
  intro s ctx tag x hx htag
  dsimp only
  refine ⟨?_, ?_, ?_, ?_, ?_, ?_, ?_⟩
  · rintro f hf ⟨hdue, hw⟩ hl tok rest ht he hover hdet
    obtain ⟨u, hexec, hyes, hno⟩ := scheduledTokenArrival_lands hx hdue hw hf hl ht he hover hdet
    refine ⟨fun hacc => ?_, fun hacc t p hfault => ?_⟩
    · obtain ⟨harc, hkeep, htiles⟩ := hyes hacc
      rw [flyFrom_end harc rfl] at hexec
      exact ⟨u, hexec, harc, hkeep, htiles⟩
    · obtain ⟨r, harc, hrep, hcode⟩ := hno hacc t p hfault
      rw [flyFrom_end harc rfl] at hexec
      exact ⟨u, r, hexec, harc, hrep, hcode⟩
  · rintro f l hf ⟨hdue, hw⟩ hl
    refine ⟨fun hlane => ?_, fun hlane hheld hreloads hstate => ?_⟩
    · exact ⟨_, scheduledTokenArrival_passes hx hdue hw htag hf hl hlane, State.setArc_arc_self .., rfl, rfl, rfl, rfl, rfl, rfl⟩
    · obtain ⟨u, hexec, harc, hregion, htiles⟩ := scheduledTokenArrival_waits hx hdue hw hf hl hlane hheld hreloads hstate
      exact ⟨u, hexec, harc, by rw [hregion], by rw [hregion], by rw [hregion], htiles⟩
  · rintro f g l hf ⟨hdue, hw⟩ ⟨hgdue, hgw⟩ hleg hl hlane
    exact scheduledTokenArrival_clashes hx hdue hw hf hgdue hgw hleg hl hlane
  · intro hfree tok rest ht he hover hdet
    obtain ⟨u, hexec, hyes, hno⟩ := ringWindowWrite_lands hx hfree ht he hover hdet
    refine ⟨fun hacc => ⟨u, hexec, hyes hacc⟩, fun hacc t p hfault => ?_⟩
    obtain ⟨r, harc, hrep, hcode⟩ := hno hacc t p hfault
    exact ⟨u, r, hexec, harc, hrep, hcode⟩
  · intro hbusy
    exact ⟨_, _, ringWindowWrite_waits hx hbusy, State.setArc_arc_self .., rfl, rfl, rfl, rfl⟩
  · intro p ps hp
    obtain ⟨v, hexec, honly, hv⟩ := exec_creditArrival hx hp
    obtain ⟨kept, lent, hle, harc, hattic, hmem⟩ := returnChunks_gives hv
    refine ⟨_, _, hexec, harc, rfl, rfl, rfl, rfl, hle, ?_, keepsMemory_of_memories (hmem.trans honly.memories)⟩
    have hdie : (v.die x.die).attic = (s.die x.die).attic := by rw [honly]; rfl
    have hkept : kept.length ≤ x.chunks := hle
    have hback : ((returnChunks (State.arcKey ctx tag) v).die x.die).attic = (s.die x.die).attic + (x.chunks - kept.length) :=
      hattic.trans (congrArg (· + _) hdie)
    rw [hback]
    show _ + kept.length = _
    omega
  · intro hasked hslots hheld hpool
    have hcan : canGrant s (State.arcKey ctx tag) x.asked x = true := by
      simp [canGrant, arcKey_div htag, hslots, hheld, hpool]
    obtain ⟨ends, hends, harc, hattic, hmem⟩ := grantChunks_takes (n := x.asked) hx
    refine ⟨_, _, exec_chunkGrant hx hasked hcan, harc, ?_, Nat.sub_self _, rfl, rfl, rfl, ?_, keepsMemory_of_memories hmem⟩
    · simp [Arc.chunks, hends]
    · rw [hattic]
      omega

end Sys2Proof.Machine
end

/-! # Engines

What memory actors and copy templates do in a step (R185, R186, R189 to R193, R252). -/
section
open Sys2Proof Sys2Proof.Machine Sys2Proof.Claims
namespace Sys2Proof.Machine

/-! ## An engine of a graph, read and changed -/

/-- The graph of a memory actor holds it. -/
def HasMem (s : State) (c g m : Nat) : Prop := ∃ y, s.graph? c g = some y ∧ m < y.mems.length

/-- The graph of a copy template holds it. -/
def HasCopy (s : State) (c g t : Nat) : Prop := ∃ y, s.graph? c g = some y ∧ t < y.copies.length

section update
variable {s u : State} {c g m : Nat}

theorem updMem_eq {y : Graph} (hy : s.graph? c g = some y) (f : MemActor → MemActor) :
    updMem c g m f s = s.setGraph c g { y with mems := y.mems.set m (f (y.mems.getD m {})) } := by
  simp only [updMem, hy]

theorem updCopy_eq {y : Graph} (hy : s.graph? c g = some y) (f : Template → Template) :
    updCopy c g m f s = s.setGraph c g { y with copies := y.copies.set m (f (y.copies.getD m {})) } := by
  simp only [updCopy, hy]

theorem memAt_updMem (h : HasMem s c g m) (f : MemActor → MemActor) : memAt (updMem c g m f s) c g m = f (memAt s c g m) := by
  obtain ⟨y, hy, hm⟩ := h
  rw [updMem_eq hy, memAt, State.setGraph_graph_self, memAt, hy]
  simp [hm]

theorem copyAt_updCopy (h : HasCopy s c g m) (f : Template → Template) : copyAt (updCopy c g m f s) c g m = f (copyAt s c g m) := by
  obtain ⟨y, hy, hm⟩ := h
  rw [updCopy_eq hy, copyAt, State.setGraph_graph_self, copyAt, hy]
  simp [hm]

theorem HasMem.updMem (h : HasMem s c g m) (f : MemActor → MemActor) : HasMem (updMem c g m f s) c g m := by
  obtain ⟨y, hy, hm⟩ := h
  rw [updMem_eq hy]
  exact ⟨_, State.setGraph_graph_self .., by simpa using hm⟩

theorem memDecl_updMem (f : MemActor → MemActor) : memDecl (updMem c g m f s) c g m = memDecl s c g m := by
  unfold Machine.updMem memDecl
  split
  · rfl
  next y hy => rw [State.setGraph_graph_self, hy]; rfl

/-- Two states that differ in their graphs only. -/
def GraphsOnly (s u : State) : Prop := u = { s with graphs := u.graphs }

theorem updMem_graphs (f : MemActor → MemActor) : GraphsOnly s (updMem c g m f s) := by
  unfold Machine.updMem
  split <;> rfl

theorem updCopy_graphs (f : Template → Template) : GraphsOnly s (updCopy c g m f s) := by
  unfold updCopy
  split <;> rfl

theorem graph_of_graphs (h : u.graphs = s.graphs) : u.graph? c g = s.graph? c g := by rw [State.graph?, h]; rfl
theorem memAt_of_graphs (h : u.graphs = s.graphs) : memAt u c g m = memAt s c g m := by rw [memAt, graph_of_graphs h]; rfl
theorem copyAt_of_graphs (h : u.graphs = s.graphs) : copyAt u c g m = copyAt s c g m := by rw [copyAt, graph_of_graphs h]; rfl
theorem HasMem.of_graphs (h : u.graphs = s.graphs) (hm : HasMem s c g m) : HasMem u c g m := by rwa [HasMem, graph_of_graphs h]
theorem HasCopy.of_graphs (h : u.graphs = s.graphs) (hm : HasCopy s c g m) : HasCopy u c g m := by rwa [HasCopy, graph_of_graphs h]

end update

/-! ## The token at the head of a window (R152, R160) -/

section head
variable {s : State} {key : Nat} {a : Arc} {tok : Token} {rest : List Token}

theorem itemAtHead_eq (h : headOf s key = (headMarkers a.window, tok :: rest)) (ht : tok.isItem = true) : itemAtHead s key = some tok := by
  simp only [itemAtHead, h, ht, if_true]

/-- A publication changes no window. -/
theorem publish_window (hx : s.arc? key = some a) : ∃ b, (publish key s).arc? key = some b ∧ b.window = a.window := by
  unfold publish
  simp only [hx]
  split
  · exact ⟨a, hx, rfl⟩
  · split
    · split
      · exact ⟨a, hx, rfl⟩
      · exact ⟨a, hx, rfl⟩
    · exact ⟨_, State.setArc_arc_self .., rfl⟩

theorem takeHead_window (hx : s.arc? key = some a) (h : headOf s key = (headMarkers a.window, tok :: rest)) :
    ∃ b, (takeHead key s).arc? key = some b ∧ b.window = (a.window.drop (headMarkers a.window).length).tail := by
  have hpass : passMarkers a.window = (headMarkers a.window, tok :: rest) := by
    simpa only [headOf, hx, Option.map_some, Option.getD_some] using h
  have hrest : a.window.drop (headMarkers a.window).length = tok :: rest := by
    rw [headMarkers_eq, ← passMarkers_rest, hpass]
  rw [hrest]
  simp only [takeHead, hx, hpass]
  exact publish_window (State.setArc_arc_self ..)

/-- Taking a token changes arcs, links and the agenda alone. -/
theorem takeHead_rest : (takeHead key s).graphs = s.graphs ∧ (takeHead key s).memories = s.memories ∧ (takeHead key s).ctxs = s.ctxs ∧
    (takeHead key s).seqs = s.seqs := by
  unfold takeHead publish
  dsimp only
  (repeat' split) <;> exact ⟨rfl, rfl, rfl, rfl⟩

end head

/-! ## The translated access of an engine (R386, R388, R413) -/

/-- Two states that differ in device memory and in the translation units only. -/
def MemoryOnly (s u : State) : Prop := u = { s with mem := u.mem, xlats := u.xlats }

theorem MemoryOnly.refl (s : State) : MemoryOnly s s := rfl
theorem MemoryOnly.setDirty (die : Nat) (e : TlbEntry) (s : State) : MemoryOnly s (setDirty die e s) := rfl
theorem MemoryOnly.writePhys {s u : State} (h : MemoryOnly s u) (pa n v : Nat) : MemoryOnly s (writePhys pa n v u) := by
  rw [MemoryOnly] at h ⊢
  rw [h]
  rfl

section access
variable {s : State} {c va : Nat} {st : Stream} {e : TlbEntry}

theorem isWalking_of_hit (h : engineHit s c st va e) : isWalking s c st = false := by
  obtain ⟨-, hwalk, -⟩ := h
  exact List.any_eq_false.2 fun o ho => by simp [hwalk o ho]

theorem engineAccess_ok (h : engineHit s c st va e) {need : Need} {m : Bool} {k : Nat → Nat → State → State} {pa page : Nat} {v : State}
    (ht : translate (dieOfPos ((st.tileOf s c).getD 0)) c va need m s = .ok pa page v) : engineAccess c st va need m s k = k pa page v := by
  obtain ⟨hva, -, -⟩ := id h
  simp only [engineAccess, isWalking_of_hit h, Nat.not_le.2 hva, ht, Bool.false_eq_true, if_false]

/-- A read that hits (R386). -/
theorem engineAccess_read (h : engineHit s c st va e) (hr : Leaf.rd e.leaf = true) (m : Bool) (k : Nat → Nat → State → State) :
    engineAccess c st va .read m s k = k (Leaf.pa e.leaf + (va - e.va)) e.va s :=
  engineAccess_ok h (translate_hit h.2.2 hr rfl)

theorem snapOpen_calm (h : calm s c) : (s.ctx c).snapOpen = none :=
  List.find?_eq_none.2 fun p hp => by simp [(h p hp).1]

theorem agentPending_calm (h : calm s c) (a : Nat) : agentPending s c a = false := by
  have hopen : (s.ctx c).openSnap = none := List.find?_eq_none.2 fun p hp => by simp [(h p hp).1, (h p hp).2]
  simp [agentPending, hopen]

/-- A write that hits sets D in its leaf entry, where it is not set, and leaves the rest of memory alone (R386). -/
theorem engineAccess_write (h : engineStores s c st va e) {need : Need} (hw : need.writes = true) (ha : need.allowed e.leaf = true) :
    ∃ v, MemoryOnly s v ∧ (∀ b, b < e.leafAt ∨ e.leafAt + 8 ≤ b → readByte v.mem b = readByte s.mem b) ∧
      ∀ k, engineAccess c st va need true s k = k (Leaf.pa e.leaf + (va - e.va)) e.va v := by
  obtain ⟨hhit, -, hentry, hcalm, hfree⟩ := h
  obtain ⟨-, -, htlb⟩ := id hhit
  have htranslate : ∀ die, tlbFind s die c va = some e → translate die c va need true s =
      .ok (Leaf.pa e.leaf + (va - e.va)) e.va (if Leaf.d e.leaf = true then s else setDirty die e s) := fun die hdie => by
    simp only [translate, hdie, ha, hw, sameLeaf_of_eq hentry, captureFor_closed (snapOpen_calm hcalm), Bool.not_true, Bool.and_self, if_true,
      Bool.false_eq_true, if_false]
    by_cases hd : Leaf.d e.leaf = true
    · simp only [hd, if_true]
    · simp only [hd, hfree.resolve_left hd, Option.isSome_none, Bool.or_self, Bool.false_eq_true, if_false]
  refine ⟨_, ?_, ?_, fun k => engineAccess_ok hhit (htranslate _ htlb)⟩
  · split
    · exact .refl s
    · exact .setDirty ..
  · split
    · exact fun _ _ => rfl
    · exact (dirtySet_setDirty _ e s).bytes

theorem underTest_of_memoryOnly {v : State} (h : MemoryOnly s v) (pa : Nat) : underTest v pa = underTest s pa := by rw [h]; rfl

/-- A write of an engine whose marker point is behind it, with its bank free (R396, R413). -/
theorem writeMarked_free {pa page n v : Nat} {w : Task} {k : State → State} (h : underTest s pa = none) :
    writeMarked c true va page pa n v w s k = k (writePhys pa n v s) := by
  simp only [writeMarked, h, if_true]

theorem writeMarked_held {pa page n v d : Nat} {w : Task} {k : State → State} (h : underTest s pa = some d) :
    writeMarked c true va page pa n v w s k = holdRequest d w s := by
  simp only [writeMarked, h]

end access

theorem mem_holdRequest (d : Nat) (w : Task) (s : State) : w ∈ ((holdRequest d w s).die d).held := by
  unfold holdRequest
  dsimp only
  split
  next h => exact List.contains_iff_mem.1 h
  · simp [State.die, State.setDie, mget_mset_self]

theorem holdRequest_rest (d : Nat) (w : Task) (s : State) : (holdRequest d w s).graphs = s.graphs ∧ (holdRequest d w s).arcs = s.arcs := by
  unfold holdRequest
  dsimp only
  split <;> exact ⟨rfl, rfl⟩

/-! ## Sources and gathers (R189, R190) -/

/-- The access of a request. -/
def requestOp (s : State) (c g m va pa : Nat) : Op :=
  { mkOp s (.engineRead m (memAt s c g m).next) 0 pa 8 with stream := .memActor g m, ctx := c, va := va }

/-- A request that hits (R189). -/
def requestMade (s : State) (c g m : Nat) (d : MADecl) (col va pa : Nat) : State :=
  (updMem c g m (fun x => x.requested d col none) (s.newOp (requestOp s c g m va pa))).later (.dramReply s.opCount)

section request
variable {s : State} {c g m va : Nat} {d : MADecl} {e : TlbEntry} (hm : HasMem s c g m) (hd : memDecl s c g m = some d)
include hm

theorem requestMade_facts (col pa : Nat) : mfind (requestMade s c g m d col va pa).ops s.opCount = some (requestOp s c g m va pa) ∧
    memAt (requestMade s c g m d col va pa) c g m = (memAt s c g m).requested d col none ∧
    setLater s (requestMade s c g m d col va pa) (.dramReply s.opCount) ∧ keepsMemory s (requestMade s c g m d col va pa) := by
  have hgraphs := updMem_graphs (c := c) (g := g) (m := m) (s := s.newOp (requestOp s c g m va pa)) (fun x => x.requested d col none)
  refine ⟨?_, ?_, ⟨s.pcyc + 1 + Config.freeDelay s.freeCount, by omega, ?_⟩, keepsMemory_of_memories ?_⟩
  · show mfind (updMem c g m _ (s.newOp (requestOp s c g m va pa))).ops s.opCount = _
    rw [hgraphs]
    exact mfind_mset_self _ _ _
  · exact memAt_updMem (s := s.newOp (requestOp s c g m va pa)) hm _
  · unfold requestMade
    rw [hgraphs]
    exact List.mem_append_right _ List.mem_cons_self
  · unfold requestMade
    rw [hgraphs]
    rfl

omit hm
include hd

theorem execSourceRequest_source (hk : d.kind = .source) (hva : (memAt s c g m).address d (memAt s c g m).next = va)
    (hhit : engineHit s c (.memActor g m) va e) (hr : Leaf.rd e.leaf = true) :
    execSourceRequest c g m s = .next (requestMade s c g m d 0 va (Leaf.pa e.leaf + (va - e.va))) := by
  simp only [execSourceRequest, hd, hk, hva, engineAccess_read hhit hr]
  rfl

theorem execSourceRequest_gather (hk : d.kind = .gather) {j : Int} {js : List Int} (hj : (memAt s c g m).indices = j :: js)
    (hva : (memAt s c g m).rowAddress d j (memAt s c g m).row = some va)
    (hhit : engineHit s c (.memActor g m) va e) (hr : Leaf.rd e.leaf = true) :
    execSourceRequest c g m s = .next (requestMade s c g m d (memAt s c g m).colour va (Leaf.pa e.leaf + (va - e.va))) := by
  simp only [execSourceRequest, hd, hk, hj, hva, engineAccess_read hhit hr]
  rfl

end request

/-! ## Replies (R189, R250) -/

/-- The line of a request that reaches its engine. -/
def fillLine (n : Nat) (pl : Payload) (e : Nat × Nat × Option Payload) : Nat × Nat × Option Payload :=
  if e.1 = n then (e.1, e.2.1, some pl) else e

/-- A DATA token of an engine. -/
def engineToken (d : MADecl) (key col : Nat) (pl : Payload) : Token :=
  { kind := .data, tag := key % 4096, colour := col, fmt := d.fmt, payload := pl }

section reply
variable {s : State} {c g m n col key : Nat} {pl : Payload} {d : MADecl} {a : Arc}

/-- The arc of an engine with a token of its own on the way. -/
def Arc.fed (a : Arc) (tok : Token) : Arc := { a with sent := a.sent + 1, transit := a.transit ++ [tok] }

theorem engineSend_fed (ha : s.arc? key = some a) : engineSend key { kind := .data, colour := col, fmt := d.fmt, payload := pl } s =
    (s.setArc key (a.fed (engineToken d key col pl))).soon (.ringWindowWrite (key / 4096) (key % 4096)) := by
  simp only [engineSend, ha]
  rfl

/-- With no request under way nothing more is delivered. -/
theorem deliverReady_empty (h : (memAt s c g m).fetching = []) (k : Nat) : deliverReady c g m s k = s := by
  cases k with
  | zero => rfl
  | succ k =>
    unfold deliverReady
    split
    · rfl
    · simp only [h]

/-- The only request whose line is there becomes a token. -/
theorem deliverReady_one (hd : memDecl s c g m = some d) (hout : memOut s c g m = some key) (hm : HasMem s c g m)
    (hf : (memAt s c g m).fetching = [(n, col, some pl)]) (hsnap : (memAt s c g m).snapAt = none) (k : Nat) :
    deliverReady c g m s (k + 1) = updMem c g m (fun x => { x with fetching := [], tokens := x.tokens + 1 })
      (engineSend key { kind := .data, colour := col, fmt := d.fmt, payload := pl } s) := by
  have hgraphs : (engineSend key { kind := .data, colour := col, fmt := d.fmt, payload := pl } s).graphs = s.graphs := by
    unfold engineSend
    split <;> rfl
  unfold deliverReady
  simp only [hout, hf, hsnap, hd, reduceCtorEq, if_false]
  refine deliverReady_empty ?_ k
  rw [memAt_updMem (hm.of_graphs hgraphs)]

/-- A source without marker points, and with more tokens to come, has nothing else to put into its window. -/
theorem settleEngine_source {u : State} (hdeliver : deliverReady c g m s (2 * (memAt s c g m).fetching.length + 1) = u)
    (hd : memDecl u c g m = some d) (hk : d.kind = .source) (hsnap : (memAt u c g m).snapAt = none)
    (hlast : (memAt u c g m).lastToken = none) : settleEngine c g m s = u := by
  cases hout : memOut u c g m with
  | none => simp only [settleEngine, hdeliver, hd, hout]
  | some key =>
    simp only [settleEngine, hdeliver, hd, hout, hk, hsnap, hlast, reduceCtorEq, decide_false, Bool.false_and, Bool.false_eq_true, if_false,
      ite_self]

end reply

section dramReply
variable {s : State} {id c g m n : Nat} {o : Op} (ho : mfind s.ops id = some o) (hk : o.kind = .engineRead m n)
  (hs : o.stream = .memActor g m) (hr : o.refused = false)
include ho hk hs hr

/-- A bank under test holds the reply (R396). -/
theorem execDramReply_held {die : Nat} (ht : underTest s o.addr = some die) :
    execDramReply id s = .next (holdRequest die (.event (.dramReply id)) s) := by
  simp only [execDramReply, opAt, ho, hk, hs, hr, ht, Bool.false_eq_true, if_false]

theorem execDramReply_fills (hc : o.ctx = c) (ht : underTest s o.addr = none) : execDramReply id s = .next (settleEngine c g m
    (updMem c g m (fun x => { x with fetching := x.fetching.map (fillLine n (readLine s o.addr)) }) (s.dropOp id))) := by
  subst hc
  simp only [execDramReply, opAt, ho, hk, hs, hr, ht, Bool.false_eq_true, if_false]
  rfl

/-- The reply to the only request of a source (R189). -/
theorem execDramReply_source (hc : o.ctx = c) (ht : underTest s o.addr = none) {d : MADecl} (hd : memDecl s c g m = some d)
    (hsource : d.kind = .source) (hm : HasMem s c g m) {col key : Nat} {a : Arc} (hf : (memAt s c g m).fetching = [(n, col, none)])
    (hsnap : (memAt s c g m).snapAt = none) (hlast : (memAt s c g m).lastToken = none) (hout : memOut s c g m = some key)
    (ha : s.arc? key = some a) :
    ∃ u, execDramReply id s = .next u ∧ mfind u.ops id = none ∧
      memAt u c g m = { memAt s c g m with fetching := [], tokens := (memAt s c g m).tokens + 1 } ∧
      u.arc? key = some (a.fed (engineToken d key col (readLine s o.addr))) ∧
      Task.event (.ringWindowWrite (key / 4096) (key % 4096)) ∈ u.todo ∧ keepsMemory s u := by
  let pl := readLine s o.addr
  let v := updMem c g m (fun x => { x with fetching := x.fetching.map (fillLine n pl) }) (s.dropOp id)
  have hm0 : HasMem (s.dropOp id) c g m := hm
  have hv : GraphsOnly (s.dropOp id) v := updMem_graphs _
  have hmv : HasMem v c g m := hm0.updMem _
  have hx : memAt v c g m = { memAt s c g m with fetching := [(n, col, some pl)] } := by
    refine (memAt_updMem hm0 _).trans ?_
    show { memAt s c g m with fetching := (memAt s c g m).fetching.map (fillLine n pl) } = _
    rw [hf]
    simp [fillLine]
  have hdv : memDecl v c g m = some d := (memDecl_updMem _).trans hd
  have hav : v.arc? key = some a := by rw [hv]; exact ha
  have houtv : memOut v c g m = some key := by rw [hv]; exact hout
  let w := engineSend key { kind := .data, colour := col, fmt := d.fmt, payload := pl } v
  have hw : w = (v.setArc key (a.fed (engineToken d key col pl))).soon (.ringWindowWrite (key / 4096) (key % 4096)) := engineSend_fed hav
  have hwgraphs : w.graphs = v.graphs := by rw [hw]; rfl
  let u := updMem c g m (fun x => { x with fetching := [], tokens := x.tokens + 1 }) w
  have hu : GraphsOnly w u := updMem_graphs _
  have hmu : memAt u c g m = { memAt s c g m with fetching := [], tokens := (memAt s c g m).tokens + 1 } := by
    rw [memAt_updMem (hmv.of_graphs hwgraphs), memAt_of_graphs hwgraphs, hx]
  have hdu : memDecl u c g m = some d := by
    rw [memDecl_updMem, memDecl, graph_of_graphs hwgraphs]
    exact hdv
  have hsettle : settleEngine c g m v = u := by
    refine settleEngine_source (deliverReady_one hdv houtv hmv (by rw [hx]) (by rw [hx]; exact hsnap) _) hdu hsource ?_ ?_
    · rw [hmu]; exact hsnap
    · rw [hmu]; exact hlast
  refine ⟨u, (execDramReply_fills ho hk hs hr hc ht).trans (congrArg Host.Outcome.next hsettle), ?_, hmu, ?_, ?_, keepsMemory_of_memories ?_⟩
  · rw [hu, hw, hv]
    exact mfind_mdel_self _ _
  · rw [hu, hw]
    exact State.setArc_arc_self ..
  · rw [hu, hw]
    exact List.mem_append_right _ List.mem_cons_self
  · rw [hu, hw, hv]
    rfl

end dramReply

/-! ## Lines written (R191, R193) -/

theorem line_size : 256 ^ 64 = 2 ^ 512 := by rw [show 512 = 8 * 64 from rfl, pow_mul, show 2 ^ 8 = 256 from rfl]

theorem toNat_lt_pow {w : Nat} (v : BitVec w) : v.toNat < 2 ^ w := v.isLt

theorem toNat_ofNat_of_lt {w x : Nat} (h : x < 2 ^ w) : (BitVec.ofNat w x).toNat = x := by
  rw [BitVec.toNat_ofNat]
  exact Nat.mod_eq_of_lt h

/-- A line written through a translation: the line reads back, and of the other bytes only the leaf entry's may have changed. -/
theorem line_written {s v : State} {pa place x : Nat} (hbytes : ∀ b, b < place ∨ place + 8 ≤ b → readByte v.mem b = readByte s.mem b) :
    readLE (writePhys pa 64 x v).mem pa 64 = x % 2 ^ 512 ∧
      ∀ b, b < pa ∨ pa + 64 ≤ b → b < place ∨ place + 8 ≤ b → readByte (writePhys pa 64 x v).mem b = readByte s.mem b :=
  ⟨(readLE_writeLE v.mem pa 64 x).trans (by rw [line_size]),
    fun b hb hp => (readByte_writeLE_outside v.mem pa 64 x b hb).trans (hbytes b hp)⟩

/-- A line apart from the leaf entry of its page is read behind a translation as before it. -/
theorem readLine_toNat {s v : State} {pa place : Nat} (hbytes : ∀ b, b < place ∨ place + 8 ≤ b → readByte v.mem b = readByte s.mem b)
    (hap : pa + 64 ≤ place ∨ place + 8 ≤ pa) : (readLine v pa).toNat = readLE s.mem pa 64 := by
  have hsame : readLE v.mem pa 64 = readLE s.mem pa 64 := readLE_congr fun b hlo hhi => hbytes b (by omega)
  have hlt := readLE_lt s.mem pa 64
  rw [line_size] at hlt
  rw [readLine, hsame, toNat_ofNat_of_lt hlt]

/-! ## Sinks (R193) -/

section sink
variable {s : State} {c g m key va : Nat} {d : MADecl} {a : Arc} {tok : Token} {e : TlbEntry} (hd : memDecl s c g m = some d)
  (hin : memIn s c g m 0 = some key) (hitem : itemAtHead s key = some tok) (hva : (memAt s c g m).address d (memAt s c g m).next = va)
  (hst : engineStores s c (.memActor g m) va e)
include hd hin hitem hva hst

/-- What a sink does at its bank: its page is translated, with D set. -/
theorem execSinkWrite_at_bank : ∃ v, MemoryOnly s v ∧ (∀ b, b < e.leafAt ∨ e.leafAt + 8 ≤ b → readByte v.mem b = readByte s.mem b) ∧
    execSinkWrite c g m s = .next (writeMarked c true va e.va (Leaf.pa e.leaf + (va - e.va)) 64 tok.payload.toNat (.memActor c g m) v
      fun s => updMem c g m (fun x => { x with next := x.next + 1, tokens := x.tokens + 1 }) (takeHead key s)) := by
  obtain ⟨-, hw, -, hcalm, -⟩ := id hst
  obtain ⟨v, honly, hbytes, haccess⟩ := engineAccess_write hst (need := .write) rfl hw
  refine ⟨v, honly, hbytes, ?_⟩
  simp only [execSinkWrite, hin, hd, hitem, hva, agentPending_calm hcalm, Bool.not_false, haccess]

theorem execSinkWrite_held (ha : s.arc? key = some a) {die : Nat} (ht : underTest s (Leaf.pa e.leaf + (va - e.va)) = some die) :
    ∃ u, execSinkWrite c g m s = .next u ∧ Task.memActor c g m ∈ (u.die die).held ∧ memAt u c g m = memAt s c g m ∧ u.arc? key = some a := by
  obtain ⟨v, honly, -, hexec⟩ := execSinkWrite_at_bank hd hin hitem hva hst
  rw [writeMarked_held ((underTest_of_memoryOnly honly _).trans ht)] at hexec
  obtain ⟨hgraphs, harcs⟩ := holdRequest_rest die (.memActor c g m) v
  refine ⟨_, hexec, mem_holdRequest .., memAt_of_graphs (hgraphs.trans (by rw [honly])), ?_⟩
  rw [State.arc?, harcs, honly]
  exact ha

theorem execSinkWrite_writes (hm : HasMem s c g m) (ha : s.arc? key = some a) {rest : List Token}
    (hhead : headOf s key = (headMarkers a.window, tok :: rest)) (ht : underTest s (Leaf.pa e.leaf + (va - e.va)) = none) :
    ∃ u, execSinkWrite c g m s = .next u ∧
      memAt u c g m = { memAt s c g m with next := (memAt s c g m).next + 1, tokens := (memAt s c g m).tokens + 1 } ∧
      (∃ b, u.arc? key = some b ∧ b.window = (a.window.drop (headMarkers a.window).length).tail) ∧
      readLE u.mem (Leaf.pa e.leaf + (va - e.va)) 64 = tok.payload.toNat ∧ u.near = s.near ∧ u.peerMem = s.peerMem ∧
      ∀ b, b < Leaf.pa e.leaf + (va - e.va) ∨ Leaf.pa e.leaf + (va - e.va) + 64 ≤ b → b < e.leafAt ∨ e.leafAt + 8 ≤ b →
        readByte u.mem b = readByte s.mem b := by
  obtain ⟨v, honly, hbytes, hexec⟩ := execSinkWrite_at_bank hd hin hitem hva hst
  rw [writeMarked_free ((underTest_of_memoryOnly honly _).trans ht)] at hexec
  let w := writePhys (Leaf.pa e.leaf + (va - e.va)) 64 tok.payload.toNat v
  have hw : MemoryOnly s w := honly.writePhys ..
  obtain ⟨hread, hout⟩ := line_written (x := tok.payload.toNat) (pa := Leaf.pa e.leaf + (va - e.va)) hbytes
  obtain ⟨hgraphs, hmem, -, -⟩ := takeHead_rest (s := w) (key := key)
  have hwa : w.arc? key = some a := by rw [hw]; exact ha
  have hwhead : headOf w key = (headMarkers a.window, tok :: rest) := by rw [hw]; exact hhead
  have hwgraphs : (takeHead key w).graphs = s.graphs := hgraphs.trans (by rw [hw])
  let u := updMem c g m (fun x => { x with next := x.next + 1, tokens := x.tokens + 1 }) (takeHead key w)
  have hu : GraphsOnly (takeHead key w) u := updMem_graphs _
  obtain ⟨humem, hupeer, hunear, -⟩ := keepsMemory_of_memories ((by rw [hu]; rfl : u.memories = (takeHead key w).memories).trans hmem)
  refine ⟨u, hexec, ?_, ?_, ?_, ?_, ?_, ?_⟩
  · rw [memAt_updMem (hm.of_graphs hwgraphs), memAt_of_graphs hwgraphs]
  · obtain ⟨b, hb, hwin⟩ := takeHead_window hwa hwhead
    exact ⟨b, by rw [hu]; exact hb, hwin⟩
  · rw [humem]
    exact hread.trans (Nat.mod_eq_of_lt (toNat_lt_pow tok.payload))
  · rw [hunear, hw]
  · rw [hupeer, hw]
  · rw [humem]
    exact hout

end sink

/-! ## Scatter-adds (R191, R192) -/

/-- An element of a packed line that has been written whole. -/
theorem elem_pack_mod {w n l j : Nat} (hw : 0 < w) (hl : w * n = l) (hj : j < n) (f : Nat → Nat) :
    elem w (pack w n f % 2 ^ l) j = f j % 2 ^ w := by
  subst hl
  refine Nat.eq_of_testBit_eq fun i => ?_
  rw [testBit_elem, Nat.testBit_mod_two_pow, Nat.testBit_mod_two_pow, pack, testBit_packFrom hw, Nat.zero_add]
  by_cases hi : i < w
  · have hdiv : (w * j + i) / w = j := by rw [Nat.mul_add_div hw, Nat.div_eq_of_lt hi, Nat.add_zero]
    have hmod : (w * j + i) % w = i := by rw [Nat.mul_add_mod, Nat.mod_eq_of_lt hi]
    have hlt : w * j + i < w * n := by
      have := Nat.mul_le_mul_left w (Nat.succ_le_of_lt hj)
      rw [Nat.mul_succ] at this
      omega
    simp [hi, hdiv, hmod, hlt]
  · simp [hi]

/-- The sum of two lines by its format (R191). -/
theorem addLine_i32 (x y : Nat) : addLine 0 x y = pack 32 16 fun k => elem 32 x k + elem 32 y k := rfl
theorem addLine_f32 (x y : Nat) : addLine 1 x y = pack 32 16 fun k => fadd .f32 0 0 (elem 32 x k) (elem 32 y k) := rfl
theorem addLine_bf16 (x y : Nat) : addLine 2 x y = pack 16 32 fun k => fadd .bf16 0 0 (elem 16 x k) (elem 16 y k) := rfl

section scatter
variable {s : State} {c g m va : Nat} {d : MADecl} {row : Payload} {rest : List (Nat × Payload × Bool)} {e : TlbEntry}

/-- What an engine's access asks of a state does not lie in its graphs. -/
theorem engineStores_of_graphs {u : State} (h : u = { s with graphs := u.graphs, freeCount := u.freeCount }) {st : Stream}
    (hst : engineStores s c st va e) : engineStores u c st va e := by
  rw [h]
  exact hst

/-- The state in which an ordered scatter-add takes its oldest update. -/
def updateTaken (c g m : Nat) (s : State) : State :=
  updMem c g m (fun x => { x with updates := toFront x.updates 0, retry := true }) { s with freeCount := s.freeCount + 1 }

theorem updateTaken_only : updateTaken c g m s = { s with graphs := (updateTaken c g m s).graphs, freeCount := s.freeCount + 1 } :=
  updMem_graphs (s := { s with freeCount := s.freeCount + 1 }) _

theorem toFront_zero {α : Type} (x : α) (l : List α) : toFront (x :: l) 0 = x :: l := rfl

/-- The addition of a row at its bank (R191). -/
def addRow (c g m : Nat) (d : MADecl) (va : Nat) (row : Payload) (pa page : Nat) (s : State) : State :=
  writeMarked c true va page pa 64 (addLine d.op (readLine s pa).toNat row.toNat) (.event (.scatterAddUpdate c g m)) s
    (updMem c g m fun x => { x with updates := x.updates.drop 1, retry := false })

section update
variable (hm : HasMem s c g m) (hd : memDecl s c g m = some d) (hordered : d.ordered = true)
  (hup : (memAt s c g m).updates = (va, row, true) :: rest) (hwait : (memAt s c g m).pagewait = false) (hheld : (memAt s c g m).held = false)
  (hpause : (memAt s c g m).pause ≤ s.pcyc) (hmoves : ctxMoves s c = true)
include hd hordered hup hwait hheld hpause hmoves

/-- The oldest update is taken; it is set again only where it is still there. -/
theorem execScatterAddUpdate_done {u : State} (hu : engineAccess c (.memActor g m) va .both true (updateTaken c g m s) (addRow c g m d va row) = u)
    (hgone : (memAt u c g m).updates = rest) : execScatterAddUpdate c g m s = .next u := by
  have hmoves' : ctxMoves { s with freeCount := s.freeCount + 1 } c = true := hmoves
  have hne : rest.length ≠ rest.length + 1 := by omega
  unfold updateTaken addRow at hu
  simp only [execScatterAddUpdate, hd, hwait, hheld, Nat.not_lt.2 hpause, hordered, hup, Bool.or_self, Bool.true_or, Bool.false_eq_true, if_false,
    if_true, List.getElem?_cons_zero, hmoves', Bool.not_true, hu, hgone, List.length_cons, hne, decide_false, Bool.false_and]

include hm

/-- The row of the oldest update is added to its line (R191). -/
theorem execScatterAddUpdate_adds (hst : engineStores s c (.memActor g m) va e)
    (hr : Leaf.rd e.leaf = true) (ht : underTest s (Leaf.pa e.leaf + (va - e.va)) = none)
    (hap : Leaf.pa e.leaf + (va - e.va) + 64 ≤ e.leafAt ∨ e.leafAt + 8 ≤ Leaf.pa e.leaf + (va - e.va)) :
    ∃ u, execScatterAddUpdate c g m s = .next u ∧ memAt u c g m = { memAt s c g m with updates := rest, retry := false } ∧
      readLE u.mem (Leaf.pa e.leaf + (va - e.va)) 64 =
        addLine d.op (readLE s.mem (Leaf.pa e.leaf + (va - e.va)) 64) row.toNat % 2 ^ 512 ∧
      ∀ b, b < Leaf.pa e.leaf + (va - e.va) ∨ Leaf.pa e.leaf + (va - e.va) + 64 ≤ b → b < e.leafAt ∨ e.leafAt + 8 ≤ b →
        readByte u.mem b = readByte s.mem b := by
  let pa := Leaf.pa e.leaf + (va - e.va)
  let t := updateTaken c g m s
  have htonly : t = { s with graphs := t.graphs, freeCount := t.freeCount } := by
    rw [show t = updateTaken c g m s from rfl, updateTaken_only]
  have hmt : memAt t c g m = { memAt s c g m with updates := (va, row, true) :: rest, retry := true } := by
    refine (memAt_updMem (s := { s with freeCount := s.freeCount + 1 }) hm _).trans ?_
    show { memAt s c g m with updates := toFront (memAt s c g m).updates 0, retry := true } = _
    rw [hup, toFront_zero]
  have htm : HasMem t c g m := HasMem.updMem (s := { s with freeCount := s.freeCount + 1 }) hm _
  have hstt := engineStores_of_graphs htonly hst
  obtain ⟨-, hw, -⟩ := id hst
  obtain ⟨v, honly, hbytes, haccess⟩ := engineAccess_write hstt (need := .both) rfl (by rw [Need.allowed, hr, hw]; rfl)
  have hbytes' : ∀ b, b < e.leafAt ∨ e.leafAt + 8 ≤ b → readByte v.mem b = readByte s.mem b := fun b hb => by
    rw [hbytes b hb, htonly]
  have htest : underTest v pa = none := (underTest_of_memoryOnly honly pa).trans (by rw [htonly]; exact ht)
  let line := addLine d.op (readLine v pa).toNat row.toNat
  let w := writePhys pa 64 line v
  let u := updMem c g m (fun x => { x with updates := x.updates.drop 1, retry := false }) w
  have hwonly : MemoryOnly t w := honly.writePhys ..
  have hwgraphs : w.graphs = t.graphs := by rw [hwonly]
  have hmu : memAt u c g m = { memAt s c g m with updates := rest, retry := false } := by
    rw [memAt_updMem (htm.of_graphs hwgraphs), memAt_of_graphs hwgraphs, hmt]
    rfl
  obtain ⟨hread, hout⟩ := line_written (x := line) (pa := pa) hbytes'
  have humem : u.mem = w.mem := by rw [show u = { w with graphs := u.graphs } from updMem_graphs _]
  refine ⟨u, execScatterAddUpdate_done hd hordered hup hwait hheld hpause hmoves ?_ (by rw [hmu]), hmu, ?_, ?_⟩
  · exact (haccess _).trans (writeMarked_free htest)
  · rw [humem, ← readLine_toNat hbytes' hap]
    exact hread
  · rw [humem]
    exact hout

end update
end scatter

/-! ## Indices, and the end of an actor's work (R190, R252) -/

theorem indicesOf_length (p : Payload) : (indicesOf p).length = 16 := by simp [indicesOf]

theorem indicesOf_getElem (p : Payload) {j : Nat} (hj : j < 16) : (indicesOf p)[j]? = some (BitVec.ofNat 32 (elem 32 p.toNat j)).toInt := by
  simp [indicesOf, hj, signedOf_eq_toInt]

theorem execGatherIndexTake_takes {s : State} {c g m key : Nat} {a : Arc} {tok : Token} {rest : List Token} (hm : HasMem s c g m)
    (hin : memIn s c g m 0 = some key) (ha : s.arc? key = some a) (ht : tok.isItem = true)
    (hhead : headOf s key = (headMarkers a.window, tok :: rest)) : ∃ u, execGatherIndexTake c g m s = .next u ∧
      memAt u c g m = { memAt s c g m with
        indices := indicesOf tok.payload, colour := tok.colour, row := 0, tokens := (memAt s c g m).tokens + 1 } ∧
      (∃ b, u.arc? key = some b ∧ b.window = (a.window.drop (headMarkers a.window).length).tail) ∧ keepsMemory s u := by
  obtain ⟨hgraphs, hmem, -, -⟩ := takeHead_rest (s := s) (key := key)
  obtain ⟨b, hb, hwin⟩ := takeHead_window ha hhead
  let u := updMem c g m (fun x => { x with indices := indicesOf tok.payload, colour := tok.colour, row := 0, tokens := x.tokens + 1 })
    (takeHead key s)
  have hu : GraphsOnly (takeHead key s) u := updMem_graphs _
  refine ⟨u, ?_, ?_, ⟨b, by rw [hu]; exact hb, hwin⟩, keepsMemory_of_memories ?_⟩
  · simp only [execGatherIndexTake, hin, itemAtHead_eq hhead ht]
    rfl
  · rw [memAt_updMem (hm.of_graphs hgraphs), memAt_of_graphs hgraphs]
  · rw [hu]
    exact hmem

theorem passAgent_rest (c a : Nat) (s : State) : (passAgent c a s).graphs = s.graphs ∧ (passAgent c a s).memories = s.memories := by
  unfold passAgent
  split <;> exact ⟨rfl, rfl⟩

theorem execMemoryActorQuiescent_stops {s : State} {c g m : Nat} (hm : HasMem s c g m) : ∃ u, execMemoryActorQuiescent c g m s = .next u ∧
    (memAt u c g m).quiescent = true ∧ (memAt u c g m).next = (memAt s c g m).next ∧ (memAt u c g m).tokens = (memAt s c g m).tokens ∧
    keepsMemory s u := by
  let f : MemActor → MemActor := fun x =>
    { x with quiescent := true, snapPos := if agentPending s c (agentMem g m) then some x.next else x.snapPos, snapAt := none }
  obtain ⟨hgraphs, hmem⟩ := passAgent_rest c (agentMem g m) (updMem c g m f s)
  have hu : GraphsOnly s (updMem c g m f s) := updMem_graphs _
  have hx : memAt (passAgent c (agentMem g m) (updMem c g m f s)) c g m = f (memAt s c g m) :=
    (memAt_of_graphs hgraphs).trans (memAt_updMem hm f)
  refine ⟨_, rfl, by rw [hx], by rw [hx], by rw [hx], keepsMemory_of_memories (hmem.trans (by rw [hu]; rfl))⟩

/-! ## Copy templates (R185 to R187) -/

/-- A queue is an arc of its context. -/
theorem copyQueue_ctx {s : State} {c g t key : Nat} (h : copyQueue s c g t = some key) : key / 4096 = c := by
  obtain ⟨e, he, rfl⟩ := Option.map_eq_some_iff.1 h
  have := List.find?_some he
  simp only [Bool.and_eq_true, decide_eq_true_eq] at this
  exact this.1.1.1

/-- A search that passes over a key does not see what is set there. -/
theorem findSome_mset {α β : Type} {f : Nat × α → Option β} {k : Nat} (hf : ∀ v, f (k, v) = none) (m : Map α) (v : α) :
    (mset m k v).findSome? f = m.findSome? f := by
  induction m with
  | nil => simp [mset, hf]
  | cons e m ih =>
    obtain ⟨j, x⟩ := e
    rw [mset]
    split
    · simp [hf]
    · split
      next h => subst h; simp [hf]
      next => simp only [List.findSome?_cons, ih]

section arcs
variable {β : Type} {f : Nat × Arc → Option β} {key : Nat} (hf : ∀ x, f (key, x) = none)
include hf

theorem findSome_setArc (s : State) (x : Arc) : (s.setArc key x).arcs.findSome? f = s.arcs.findSome? f := findSome_mset hf _ _

theorem findSome_publish (s : State) : (publish key s).arcs.findSome? f = s.arcs.findSome? f := by
  unfold publish
  split
  · rfl
  · split
    · rfl
    · split
      · split <;> rfl
      · exact findSome_setArc hf s _

theorem findSome_takeHead (s : State) : (takeHead key s).arcs.findSome? f = s.arcs.findSome? f := by
  unfold takeHead
  dsimp only
  split
  · rfl
  · split
    · exact (findSome_publish hf _).trans (findSome_setArc hf s _)
    · rfl

end arcs

/-- The bound port of a template does not lie in its context's own arcs. -/
theorem tileOf_takeHead {s : State} {c g t key : Nat} (h : key / 4096 = c) :
    (Stream.copy g t).tileOf (takeHead key s) c = (Stream.copy g t).tileOf s c :=
  findSome_takeHead (fun x => by simp [h]) s

/-! ### A firing that is refused (R187) -/

theorem mem_insertTrap (r : TrapReq) (l : List TrapReq) : r ∈ insertTrap r l := by
  induction l with
  | nil => exact List.mem_cons_self
  | cons q l ih =>
    unfold insertTrap
    split
    · exact List.mem_cons_self
    · exact List.mem_cons_of_mem q ih

theorem passEngine_rest (c : Nat) (st : Stream) (code : Nat) (info : Word) (s : State) : (passEngine c st code info s).graphs = s.graphs ∧
    (passEngine c st code info s).arcs = s.arcs ∧ (passEngine c st code info s).memories = s.memories := by
  unfold passEngine
  split <;> exact ⟨rfl, rfl, rfl⟩

/-- The fault of an engine stands in the queue of its list's quad sequencer. -/
theorem passEngine_queue {s : State} {c t : Nat} {st : Stream} (ht : st.tileOf s c = some t) (code : Nat) (info : Word) :
    ∃ p, p ∈ ((passEngine c st code info s).seq (quadOfPos t)).queue ∧ p.cause = code ∧ p.kind = .engine st := by
  simp only [passEngine, ht]
  refine ⟨{ cause := code, info := info, loc := s.tileLoc t 0 0 0, kind := .engine st, since := s.pcyc }, ?_, rfl, rfl⟩
  rw [passTrap, State.updSeq, State.setSeq_seq_self]
  exact mem_insertTrap _ _

/-- What the end of a kick leaves alone. -/
theorem kickDone_rest (c tag n : Nat) (ok : Bool) (s : State) : (kickDone c tag n ok s).graphs = s.graphs ∧
    (kickDone c tag n ok s).arcs = s.arcs ∧ (kickDone c tag n ok s).seqs = s.seqs ∧ (kickDone c tag n ok s).memories = s.memories := by
  unfold kickDone
  split
  · split
    · exact ⟨rfl, rfl, rfl, rfl⟩
    · unfold failRecord State.tellOpen State.tellHost
      dsimp only
      split <;> exact ⟨rfl, rfl, rfl, rfl⟩
  · exact ⟨rfl, rfl, rfl, rfl⟩

theorem setHeld_copy (c g t : Nat) (s : State) : setHeld c (.copy g t) true s = updCopy c g t (fun x => { x with held := true }) s := rfl

/-- Both ends of a firing stay in their quad's memory (R187). -/
def spansFit (x : Template) (off : Nat) : Prop :=
  (x.src / 2 ^ 63 % 2 = 0 ∨ x.src % 2 ^ 63 + off + 8 * x.words ≤ 2 ^ 23) ∧
    (x.dst / 2 ^ 63 % 2 = 0 ∨ x.dst % 2 ^ 63 + 0 + 8 * x.words ≤ 2 ^ 23)

theorem nearSpanOk_iff (e o n : Nat) : nearSpanOk e o n = true ↔ e / 2 ^ 63 % 2 = 0 ∨ e % 2 ^ 63 + o + 8 * n ≤ 2 ^ 23 := by
  have hbit : bitOf e 63 = false ↔ e / 2 ^ 63 % 2 = 0 := by
    unfold bitOf
    rw [beq_eq_false_iff_ne]
    omega
  simp only [nearSpanOk, isNearEnd, Bool.or_eq_true, Bool.not_eq_true', hbit, decide_eq_true_eq]

/-- The offset of a token (R185). -/
def offsetOf (tok : Token) : Nat := tok.payload.toNat % 2 ^ 64

/-- A firing that is refused: the report of its engine, which waits for a `tret`, and the end of its kick (R187, R264). -/
def firingRefused (c g t key n why off : Nat) (s : State) : State :=
  kickDone c (key % 4096) n false (setHeld c (.copy g t) true (passEngine c (.copy g t) Code.copy (copyInfo why (key % 4096) off) s))

theorem firingRefused_facts {v : State} {c g t : Nat} (hm : HasCopy v c g t) (key n why off : Nat) :
    (firingRefused c g t key n why off v).arcs = v.arcs ∧ (firingRefused c g t key n why off v).memories = v.memories ∧
      copyAt (firingRefused c g t key n why off v) c g t = { copyAt v c g t with held := true } ∧
      ∀ tile, (Stream.copy g t).tileOf v c = some tile → ∃ p, p ∈ ((firingRefused c g t key n why off v).seq (quadOfPos tile)).queue ∧
        p.cause = 0x41 ∧ p.kind = .engine (.copy g t) := by
  let info := copyInfo why (key % 4096) off
  let w := passEngine c (.copy g t) Code.copy info v
  obtain ⟨hwgraphs, hwarcs, hwmem⟩ := passEngine_rest c (.copy g t) Code.copy info v
  have hheld : GraphsOnly w (setHeld c (.copy g t) true w) := by
    rw [setHeld_copy]
    exact updCopy_graphs _
  obtain ⟨hkgraphs, hkarcs, hkseqs, hkmem⟩ := kickDone_rest c (key % 4096) n false (setHeld c (.copy g t) true w)
  refine ⟨hkarcs.trans ?_, hkmem.trans ?_, ?_, fun tile htile => ?_⟩
  · rw [hheld]
    exact hwarcs
  · rw [hheld]
    exact hwmem
  · refine (copyAt_of_graphs hkgraphs).trans ((congrArg (copyAt · c g t) (setHeld_copy c g t w)).trans ?_)
    rw [copyAt_updCopy (hm.of_graphs hwgraphs), copyAt_of_graphs hwgraphs]
  · obtain ⟨p, hp, hcause, hkind⟩ := passEngine_queue htile Code.copy info
    refine ⟨p, ?_, hcause, hkind⟩
    have hseqs : (firingRefused c g t key n why off v).seqs = w.seqs := hkseqs.trans (by rw [hheld])
    rw [State.seq, hseqs]
    exact hp

section firing
variable {s : State} {c g m key : Nat} {a : Arc} {tok : Token} {rest : List Token} (hq : copyQueue s c g m = some key)
  (ha : s.arc? key = some a) (ht : tok.isItem = true) (hhead : headOf s key = (headMarkers a.window, tok :: rest))

/-- The read pointer behind the token of a firing. -/
def firingToken (key : Nat) (s : State) : Nat := (((takeHead key s).arc? key).map Arc.read).getD 0

section exec
include hq ht hhead

theorem execCopyFiring_fires (hoff : offsetOf tok % 8 = 0) (hfit : spansFit (copyAt s c g m) (offsetOf tok)) : ∃ fm,
    execCopyFiring c g m s = .next (updCopy c g m (fun x => { x with
      firing := some (tok.colour, offsetOf tok, 0), span := 0, unread := [], hand := [], fsrc := x.src, fdst := x.dst, fwords := x.words
      ftoken := firingToken key s, fmark := fm }) (takeHead key s)) := by
  obtain ⟨hsrc, hdst⟩ := hfit
  have hs := (nearSpanOk_iff _ _ _).2 hsrc
  have hd := (nearSpanOk_iff _ _ _).2 hdst
  unfold offsetOf at hoff hs
  refine ⟨!agentPending (takeHead key s) c (agentCopy g m), ?_⟩
  simp only [execCopyFiring, hq, itemAtHead_eq hhead ht, hoff, hs, hd, ne_eq, not_true_eq_false, if_false, Bool.not_true, Bool.or_self,
    Bool.false_eq_true]
  rfl

theorem execCopyFiring_refuses (h : ¬ (offsetOf tok % 8 = 0 ∧ spansFit (copyAt s c g m) (offsetOf tok))) : ∃ why,
    execCopyFiring c g m s = .next (firingRefused c g m key (firingToken key s) why (offsetOf tok) (takeHead key s)) := by
  by_cases hoff : offsetOf tok % 8 = 0
  · have hspan : (!nearSpanOk (copyAt s c g m).src (offsetOf tok) (copyAt s c g m).words ||
        !nearSpanOk (copyAt s c g m).dst 0 (copyAt s c g m).words) = true := by
      by_contra hc
      simp only [Bool.not_eq_true, Bool.or_eq_false_iff, Bool.not_eq_false', nearSpanOk_iff] at hc
      exact h ⟨hoff, hc⟩
    refine ⟨1, ?_⟩
    unfold offsetOf at hoff hspan
    simp only [execCopyFiring, hq, itemAtHead_eq hhead ht, hoff, hspan, ne_eq, not_true_eq_false, if_false, if_true]
    rfl
  · refine ⟨0, ?_⟩
    unfold offsetOf at hoff
    simp only [execCopyFiring, hq, itemAtHead_eq hhead ht, hoff, ne_eq, not_false_eq_true, if_true]
    rfl

end exec

include hq ha ht hhead

/-- What a template does with the token at the head of its queue (R185, R187). -/
theorem execCopyFiring_takes (hm : HasCopy s c g m) : ∃ u, execCopyFiring c g m s = .next u ∧
    (∃ b, u.arc? key = some b ∧ b.window = (a.window.drop (headMarkers a.window).length).tail) ∧ keepsMemory s u ∧
    (offsetOf tok % 8 = 0 → spansFit (copyAt s c g m) (offsetOf tok) →
      (copyAt u c g m).firing = some (tok.colour, offsetOf tok, 0) ∧ (copyAt u c g m).fsrc = (copyAt s c g m).src ∧
        (copyAt u c g m).fdst = (copyAt s c g m).dst ∧ (copyAt u c g m).fwords = (copyAt s c g m).words) ∧
    ∀ t, ¬ (offsetOf tok % 8 = 0 ∧ spansFit (copyAt s c g m) (offsetOf tok)) → (Stream.copy g m).tileOf s c = some t →
      (copyAt u c g m).firing = (copyAt s c g m).firing ∧ (copyAt u c g m).held = true ∧
        ∃ p, p ∈ (u.seq (quadOfPos t)).queue ∧ p.cause = 0x41 ∧ p.kind = .engine (.copy g m) := by
  obtain ⟨hgraphs, hmem, -, -⟩ := takeHead_rest (s := s) (key := key)
  obtain ⟨b, hb, hwin⟩ := takeHead_window ha hhead
  have hmt := hm.of_graphs hgraphs
  by_cases h : offsetOf tok % 8 = 0 ∧ spansFit (copyAt s c g m) (offsetOf tok)
  · obtain ⟨fm, hexec⟩ := execCopyFiring_fires hq ht hhead h.1 h.2
    have honly := updCopy_graphs (s := takeHead key s) (c := c) (g := g) (m := m) fun x => { x with
      firing := some (tok.colour, offsetOf tok, 0), span := 0, unread := [], hand := [], fsrc := x.src, fdst := x.dst, fwords := x.words
      ftoken := firingToken key s, fmark := fm }
    refine ⟨_, hexec, ⟨b, by rw [honly]; exact hb, hwin⟩, keepsMemory_of_memories (by rw [honly]; exact hmem), fun _ _ => ?_,
      fun t hno => absurd h hno⟩
    rw [copyAt_updCopy hmt, copyAt_of_graphs hgraphs]
    exact ⟨rfl, rfl, rfl, rfl⟩
  · obtain ⟨why, hexec⟩ := execCopyFiring_refuses hq ht hhead h
    obtain ⟨harcs, hkeep, hcopy, hqueue⟩ := firingRefused_facts hmt key (firingToken key s) why (offsetOf tok)
    refine ⟨_, hexec, ⟨b, by rw [State.arc?, harcs]; exact hb, hwin⟩, keepsMemory_of_memories (hkeep.trans hmem),
      fun hoff hfit => absurd ⟨hoff, hfit⟩ h, fun t _ htile => ?_⟩
    rw [hcopy, copyAt_of_graphs hgraphs]
    exact ⟨rfl, rfl, hqueue t ((tileOf_takeHead (copyQueue_ctx hq)).trans htile)⟩

end firing

/-! ### The end of a firing (R186) -/

/-- The CTRL token of a firing that has ended. -/
def endToken (x : Template) (key col off : Nat) : Token :=
  { kind := .ctrl, tag := key % 4096, colour := col, payload := BitVec.ofNat 512 (x.fwords + (x.fsrc + off) % 2 ^ 64 * 2 ^ 64) }

/-- Where no snapshot waits for a template there is no marker to set. -/
theorem copyMarkers_none {v : State} {c g t : Nat} (hpend : agentPending v c (agentCopy g t) = false) (hdue : (copyAt v c g t).snapDue = false) :
    copyMarkers c g t v = v := by
  unfold copyMarkers
  split
  · rfl
  · simp only [hpend, hdue, Bool.false_and, Bool.false_eq_true, if_false]

theorem execCopyCompletion_ends {s : State} {c g m key col off n : Nat} {b : Arc} (hm : HasCopy s c g m) (hq : copyQueue s c g m = some key)
    (hf : (copyAt s c g m).firing = some (col, off, n)) (hdue : (copyAt s c g m).snapDue = false) (hstop : (copyAt s c g m).stopped = false)
    (hcalm : calm s c) (hb : s.arc? (boundKey key) = some b) (hk : b.kind ≠ .slot) : ∃ u, execCopyCompletion c g m s = .next u ∧
      copyAt u c g m = { copyAt s c g m with firing := none } ∧
      u.arc? (boundKey key) = some { b with fresh := b.fresh ++ [endToken (copyAt s c g m) key col off] } ∧ keepsMemory s u := by
  let tok := endToken (copyAt s c g m) key col off
  let v := s.setArc (boundKey key) (b.written tok)
  let w := updCopy c g m (fun x => { x with firing := none }) v
  have hw : GraphsOnly v w := updCopy_graphs _
  have hcopy : copyAt w c g m = { copyAt s c g m with firing := none } := copyAt_updCopy (s := v) hm _
  have hpend : agentPending w c (agentCopy g m) = false := by
    rw [hw]
    exact agentPending_calm hcalm _
  have hmarkers : copyMarkers c g m w = w := copyMarkers_none hpend (by rw [hcopy]; exact hdue)
  obtain ⟨hgraphs, harcs, -, hmem⟩ := kickDone_rest c (key % 4096) (copyAt s c g m).ftoken true w
  refine ⟨kickDone c (key % 4096) (copyAt s c g m).ftoken true w, ?_, (copyAt_of_graphs hgraphs).trans hcopy, ?_,
    keepsMemory_of_memories (hmem.trans ?_)⟩
  · have hwrite : writeWindow (boundKey key) tok s = v := writeWindow_eq hb tok
    unfold tok endToken at hwrite
    simp only [execCopyCompletion, hq, hf, hwrite, hstop, Bool.false_and, Bool.false_eq_true, if_false]
    exact congrArg (fun u => Host.Outcome.next (kickDone c (key % 4096) (copyAt s c g m).ftoken true u)) hmarkers
  · rw [State.arc?, harcs, hw]
    refine (State.setArc_arc_self ..).trans (congrArg some ?_)
    simp only [Arc.written, if_neg hk]
    rfl
  · rw [hw]
    rfl

/-- Settles O48: each engine's step through its translation (`engineAccess_read`, `engineAccess_write`) and the token at the head of its
window (`takeHead_window`). -/
theorem engineSteps : Obligations.EngineSteps := by
  unfold Obligations.EngineSteps
  intro s c g m y e hy
  dsimp only
  refine ⟨fun d hlt hd => ⟨fun hk hhit hr => ?_, fun j js hk hj hlo hhi hhit hr => ?_,
    fun id o n col key a ho hk hs hc hr hsource ht hf hsnap hlast hout ha => ?_, fun id o n die ho hk hs hr ht => ?_,
    fun key a tok hk hin hhead hst => ?_, fun va row rest hordered hup hwait hheld hpause hmoves hst hr ht hap => ?_⟩,
    fun key a tok hlt hin hhead => ?_, fun hlt => ?_, fun key a tok hlt hq hhead => ?_, fun key b col off n hlt hq hf hdue hstop hcalm hb hk => ?_⟩
  · obtain ⟨hop, hmem, hlater, hkeep⟩ := requestMade_facts (d := d) (va := (memAt s c g m).address d (memAt s c g m).next) ⟨y, hy, hlt⟩ 0
      (Leaf.pa e.leaf + ((memAt s c g m).address d (memAt s c g m).next - e.va))
    refine ⟨_, _, execSourceRequest_source hd hk rfl hhit hr, hop, rfl, rfl, rfl, rfl, hmem.trans ?_, hlater, hkeep⟩
    simp only [MemActor.requested, hk]
  · have hrow : (memAt s c g m).rowAddress d j (memAt s c g m).row =
        some ((memAt s c g m).base + j.toNat * d.rowbytes + 64 * (memAt s c g m).row) := if_pos ⟨hlo, hhi⟩
    obtain ⟨hop, hmem, hlater, hkeep⟩ := requestMade_facts (d := d)
      (va := (memAt s c g m).base + j.toNat * d.rowbytes + 64 * (memAt s c g m).row) ⟨y, hy, hlt⟩ (memAt s c g m).colour
      (Leaf.pa e.leaf + ((memAt s c g m).base + j.toNat * d.rowbytes + 64 * (memAt s c g m).row - e.va))
    refine ⟨_, _, execSourceRequest_gather hd hk hj hrow hhit hr, hop, rfl, rfl, hmem.trans ?_, hlater, hkeep⟩
    simp only [MemActor.requested, hk, hj, List.drop_succ_cons, List.drop_zero]
    split <;> rfl
  · exact execDramReply_source ho hk hs hr hc ht hd hsource ⟨y, hy, hlt⟩ hf hsnap hlast hout ha
  · exact execDramReply_held ho hk hs hr ht
  · obtain ⟨ha, hitem, rest, hhead⟩ := hhead
    have hitem' := itemAtHead_eq hhead hitem
    refine ⟨fun die ht => ?_, fun ht hap => ?_⟩
    · exact execSinkWrite_held hd hin hitem' rfl hst ha ht
    · exact execSinkWrite_writes hd hin hitem' rfl hst ⟨y, hy, hlt⟩ ha hhead ht
  · obtain ⟨u, hexec, hmem, hread, hbytes⟩ := execScatterAddUpdate_adds ⟨y, hy, hlt⟩ hd hordered hup hwait hheld hpause hmoves hst hr ht hap
    refine ⟨u, hexec, hmem, fun hop j hj => ?_, fun hop j hj => ?_, fun hop j hj => ?_, hbytes⟩
    · rw [hread, hop, addLine_i32, elem_pack_mod (by norm_num) rfl hj]
    · rw [hread, hop, addLine_f32, elem_pack_mod (by norm_num) rfl hj]
    · rw [hread, hop, addLine_bf16, elem_pack_mod (by norm_num) rfl hj]
  · obtain ⟨ha, hitem, rest, hhead⟩ := hhead
    obtain ⟨u, hexec, hmem, htaken, hkeep⟩ := execGatherIndexTake_takes ⟨y, hy, hlt⟩ hin ha hitem hhead
    exact ⟨u, indicesOf tok.payload, hexec, hmem, indicesOf_length _, fun j hj => indicesOf_getElem _ hj, htaken, hkeep⟩
  · exact execMemoryActorQuiescent_stops ⟨y, hy, hlt⟩
  · obtain ⟨ha, hitem, rest, hhead⟩ := hhead
    obtain ⟨u, hexec, htaken, hkeep, hfires, hrefuses⟩ := execCopyFiring_takes hq ha hitem hhead ⟨y, hy, hlt⟩
    exact ⟨u, hexec, htaken, hkeep, fun hoff hsrc hdst => hfires hoff ⟨hsrc, hdst⟩, fun t hno htile => hrefuses t hno htile⟩
  · obtain ⟨u, hexec, hcopy, harc, hkeep⟩ := execCopyCompletion_ends ⟨y, hy, hlt⟩ hq hf hdue hstop hcalm hb hk
    exact ⟨u, _, hexec, hcopy, harc, rfl, rfl, rfl, hkeep⟩

end Sys2Proof.Machine
end

/-! # Steps of graphs

How a graph is loaded, placed, staged and started, and how a request reaches its injection points (R198, R245 to R253). -/
section
open Sys2Proof Sys2Proof.Machine Sys2Proof.Claims
namespace Sys2Proof.Machine

/-! ## A graph changed -/

section update
variable {s : State} {c g : Nat}

theorem updGraph_eq {x : Graph} (hx : s.graph? c g = some x) (f : Graph → Graph) : updGraph c g f s = s.setGraph c g (f x) := by
  simp only [updGraph, hx]

theorem graph_updGraph (f : Graph → Graph) : (updGraph c g f s).graph? c g = (s.graph? c g).map f := by
  unfold updGraph
  split
  next h => rw [h]; rfl
  next x h => rw [State.setGraph_graph_self, h]; rfl

theorem updGraph_graphsOnly (f : Graph → Graph) : GraphsOnly s (updGraph c g f s) := by
  unfold updGraph
  split <;> rfl

theorem keepsMemory_of_graphsOnly {u : State} (h : GraphsOnly s u) : keepsMemory s u := by
  rw [h]
  exact ⟨rfl, rfl, rfl, rfl⟩

theorem setLater_later {u : State} (h : u.pcyc = s.pcyc) (i : Instr) : setLater s (u.later i) i :=
  ⟨u.pcyc + 1 + Config.freeDelay u.freeCount, by omega, List.mem_append_right _ List.mem_cons_self⟩

end update

/-! ## GRAPH_LOAD_COMPLETE (R245 to R247, R478) -/

/-- The graphs and the bytes. -/
def State.held (s : State) : Map Graph × (Memory × Memory × Memory × Map Bool) := (s.graphs, s.memories)

theorem State.held_eq_iff {s u : State} : u.held = s.held ↔ u.graphs = s.graphs ∧ u.memories = s.memories := by simp [State.held]

theorem sendItems_held (cls c r n : Nat) (s : State) : (sendItems cls c r n s).held = s.held := by
  unfold sendItems
  split <;> rfl

/-- The other packages that an image names. -/
def Image.others (im : Image) : List Nat := (im.ranks.map Prod.snd).eraseDups

theorem others_all_iff (im : Image) (took : List Nat) : im.others.all took.contains = true ↔ ∀ r, r ∈ im.ranks → r.2 ∈ took := by
  simp only [Image.others, List.all_eq_true, List.mem_eraseDups, List.mem_map, List.contains_iff_mem, forall_exists_index, and_imp,
    forall_apply_eq_imp_iff₂]

section load
variable {s : State} {c g va : Nat} {x : Graph} {im : Image} (hx : s.graph? c g = some x) (hst : x.state = .loading)
include hx hst

/-- A bad image (R246). -/
theorem execGraphLoadComplete_bad {w : Word} (hv : x.verdict = some w) (hw : w ≠ 0) :
    execGraphLoadComplete c g s = .next (s.setGraph c g { x with state := .failed, load := w }) := by
  unfold execGraphLoadComplete
  simp only [hx, hst, bne_self_eq_false, Bool.false_eq_true, if_false, hv]
  split
  next h _ => exact absurd (Option.some.inj h) hw
  next h _ => obtain rfl := Option.some.inj h; rfl
  next h => cases h

section good
variable (hv : x.verdict = some 0) (him : s.images.find? (fun e => decide (e.1 = c) && decide (e.2.1 = x.va)) = some (c, va, im))
include hv him

/-- The package that issued the load asks the others first (R478). -/
theorem execGraphLoadComplete_asks (hi : x.issued = true) (ht : x.told = false) : execGraphLoadComplete c g s =
    .next ((im.others.foldl (fun s r => sendItems 0 c r 1 s) (s.setGraph c g { x with told := true })).soon (.graphLoadComplete c g)) := by
  simp [execGraphLoadComplete, hx, hst, hv, him, hi, ht, updGraph_eq hx, Image.others]

/-- It waits until all of them hold the graph. -/
theorem execGraphLoadComplete_waits (hi : x.issued = true) (ht : x.told = true) (hn : ¬ ∀ r, r ∈ im.ranks → r.2 ∈ x.peersTook) :
    execGraphLoadComplete c g s = .next (s.after 1 (.graphLoadComplete c g)) := by
  have hall : im.others.all x.peersTook.contains = false := by rwa [← Bool.not_eq_true, others_all_iff]
  unfold Image.others at hall
  simp only [execGraphLoadComplete, hx, hst, hv, him, hi, ht, hall, BitVec.ofNat_eq_ofNat, bne_self_eq_false, Bool.false_eq_true, if_false,
    Bool.not_true, Bool.not_false, Bool.and_self, Bool.and_false, if_true]

/-- The arcs of an image enter the arc table under their tags (R156). -/
def declareArcs (c g : Nat) (im : Image) (tags : List Nat) (s : State) : State :=
  im.arcs.zipIdx.foldl (fun s e => s.setArc (State.arcKey c (tags.getD e.2 0)) (loadedArc g im e.1 e.2)) s

theorem execGraphLoadComplete_loads {u : State} (ht : x.issued = false ∨ (x.told = true ∧ ∀ r, r ∈ im.ranks → r.2 ∈ x.peersTook))
    (hu : writeData c im s = .ok () u) :
    ∃ tags, execGraphLoadComplete c g s = .next (declareArcs c g im tags (u.setGraph c g (loadedGraph x im tags))) := by
  refine ⟨(assignTags im (takenTags u c)).getD [], ?_⟩
  have hask : (x.issued && !x.told) = false := by
    rcases ht with h | ⟨h, -⟩ <;> simp [h]
  have hwait : (x.issued && !(im.ranks.map Prod.snd).eraseDups.all x.peersTook.contains) = false := by
    rcases ht with h | ⟨-, h⟩
    · simp [h]
    · exact (congrArg (fun b => x.issued && !b) ((others_all_iff im _).2 h)).trans (Bool.and_false _)
  simp only [execGraphLoadComplete, hx, hst, hv, him, hask, hwait, hu, BitVec.ofNat_eq_ofNat, bne_self_eq_false, Bool.false_eq_true, if_false]
  rfl

end good
end load

theorem declareArcs_held (c g : Nat) (im : Image) (tags : List Nat) (s : State) : (declareArcs c g im tags s).held = s.held := by
  refine foldl_keeps State.held (fun _ _ => ?_) _ _
  rfl

/-! ## MODE_REQUEST_ARRIVAL (R249, R250) -/

theorem pointOf_div {k n : Nat} (h : n < 4096) : pointOf k n / 4096 = k := by unfold pointOf; omega
theorem pointOf_mod {k n : Nat} (h : n < 4096) : pointOf k n % 4096 = n := by unfold pointOf; omega

section request
variable {s : State} {c g n : Nat}

theorem execModeRequestArrival_notes {p : Nat} (hp : 2 ≤ p / 4096) :
    execModeRequestArrival c g p s = .next (updGraph c g (fun x => { x with points := x.points ++ [p] }) s) := by
  obtain ⟨k, hk⟩ : ∃ k, p / 4096 = k + 2 := ⟨p / 4096 - 2, by omega⟩
  simp only [execModeRequestArrival, hk]

/-- A source whose oldest token has not come puts nothing into its window. -/
theorem settleEngine_waits {k col : Nat} {rest : List (Nat × Nat × Option Payload)} (hf : (memAt s c g n).fetching = (k, col, none) :: rest) :
    settleEngine c g n s = s := by
  have hdeliver : ∀ j, deliverReady c g n s j = s := fun j => by
    cases j with
    | zero => rfl
    | succ j =>
      unfold deliverReady
      split
      · rfl
      · simp only [hf]
  unfold settleEngine
  simp only [hdeliver, hf, List.isEmpty_cons, Bool.not_false, if_true]
  split <;> rfl

theorem execModeRequestArrival_source {key k col : Nat} {a : Arc} {rest : List (Nat × Nat × Option Payload)} (hn : n < 4096)
    (hm : HasMem s c g n) (hout : memOut s c g n = some key) (ha : s.arc? key = some a) (hlive : isLive s key = true)
    (hf : (memAt s c g n).fetching = (k, col, none) :: rest) : execModeRequestArrival c g (pointOf 0 n) s =
      .next (updMem c g n (fun x => { x with lastToken := some (x.next + tokensToPeriodEnd s a (memAt s c g n)) }) s) := by
  simp only [execModeRequestArrival, pointOf_div hn, pointOf_mod hn, hout, Option.filter_some, hlive, if_true, ha, Option.getD_some]
  refine congrArg Host.Outcome.next (settleEngine_waits (k := k) (col := col) (rest := rest) ?_)
  rw [memAt_updMem hm]
  exact hf

theorem execModeRequestArrival_template (hn : n < 4096) (hf : (copyAt s c g n).firing ≠ none) :
    execModeRequestArrival c g (pointOf 1 n) s = .next (updCopy c g n (fun x => { x with stopped := true }) s) := by
  simp only [execModeRequestArrival, pointOf_div hn, pointOf_mod hn, Option.isNone_iff_eq_none, hf, if_false]

end request

/-! ## What a placement leaves alone -/

/-- The scalar registers of every control unit of a table. -/
def seqRegs (m : Map Seq) (n : Nat) : Map Word := (mget {} m n).s

theorem seqRegs_mset {m : Map Seq} {n : Nat} {x : Seq} (h : x.s = (mget {} m n).s) : seqRegs (mset m n x) = seqRegs m := by
  funext k
  unfold seqRegs
  by_cases hk : k = n
  · rw [hk, mget_mset_self, h]
  · rw [mget_mset_of_ne _ _ _ hk]

/-- The clock, the graphs and the registers of all units. -/
def State.bound (s : State) : Nat × Map Graph × (Nat → Map Word) × (Nat → Map Word × Map Vec × Map Pred × Map ModSet) :=
  (s.pcyc, s.graphs, seqRegs s.seqs, tileRegs s.tiles)

theorem State.bound_eq_iff {s u : State} : u.bound = s.bound ↔
    u.pcyc = s.pcyc ∧ u.graphs = s.graphs ∧ seqRegs u.seqs = seqRegs s.seqs ∧ tileRegs u.tiles = tileRegs s.tiles := by
  simp [State.bound]

theorem updSeq_bound {s : State} {n : Nat} {f : Seq → Seq} (h : (f (s.seq n)).s = (s.seq n).s) : (s.updSeq n f).bound = s.bound :=
  State.bound_eq_iff.2 ⟨rfl, rfl, seqRegs_mset h, rfl⟩

theorem setTile_bound {s : State} {t : Nat} {x : Tile} (h : x.regs = (s.tile t).regs) : (s.setTile t x).bound = s.bound :=
  State.bound_eq_iff.2 ⟨rfl, rfl, rfl, tileRegs_mset h⟩

/-! ### Accesses of the loader (R385, R386, R413) -/

section loader
variable {α β : Type} {s : State}

/-- An access of the part that leaves the clock, the graphs and the registers as they are in `s`. -/
abbrev EndBound (s : State) {α : Type} (e : PartEnd α) : Prop := EndIs (fun u => u.bound = s.bound) e

theorem EndBound.then {e : PartEnd α} {k : α → State → PartEnd β} (he : EndBound s e) (hk : ∀ a u, EndBound u (k a u)) : EndBound s (e.bind k) :=
  he.bind fun a u hu => (hk a u).imp fun _ hw => hw.trans hu

theorem EndBound.behind {u : State} {e : PartEnd α} (h : u.bound = s.bound) (he : EndBound u e) : EndBound s e :=
  he.imp fun _ hw => hw.trans h

theorem EndBound.foldl {γ : Type} {k : γ → State → PartEnd α} (hk : ∀ x u, EndBound u (k x u)) {l : List γ} {e : PartEnd α}
    (he : EndBound s e) : EndBound s (l.foldl (fun r x => r.bind fun _ u => k x u) e) :=
  List.foldlRecOn l _ he fun _ hr x _ => hr.then fun _ u => hk x u

theorem sendItems_bound (cls c r n : Nat) (s : State) : (sendItems cls c r n s).bound = s.bound := by
  unfold sendItems
  split <;> rfl

theorem copyFirst_bound (c va : Nat) (s : State) : (copyFirst c va s).bound = s.bound := by
  unfold copyFirst
  dsimp only
  split <;> rfl

theorem partWalk_bound {die ctx va : Nat} : EndBound s (partWalk die ctx va s) := by
  unfold partWalk
  dsimp only
  split
  · exact .fault rfl
  split
  · exact .hold
  split
  · exact .ok rfl
  · exact .fault rfl

theorem partLeaf_bound {die ctx va : Nat} {need : Need} : EndBound s (partLeaf die ctx va need s) := by
  unfold partLeaf
  split
  · exact .fault rfl
  refine .then ?_ fun t u => ?_
  · split
    · split
      · exact partWalk_bound
      · exact .ok rfl
    · exact partWalk_bound
  · split
    · exact .ok rfl
    · exact .fault rfl

theorem partPa_bound {die ctx va : Nat} {need : Need} : EndBound s (partPa die ctx va need s) :=
  partLeaf_bound.then fun t u => by
    split
    · exact .hold
    · split <;> exact .ok rfl

theorem toCellar_bound {die ctx pa off n : Nat} : EndBound s (toCellar die ctx pa off s n) := by
  induction n generalizing pa off s with
  | zero => exact .ok rfl
  | succ n ih =>
    refine .then (cellarAccess_is rfl (fun _ => rfl) (partPa_bound.then fun _ _ => .ok rfl) (.ok ?_)) fun _ _ => ih
    exact sendItems_bound ..

theorem capture_bound {ctx va place : Nat} {e : Word} : EndBound s (capture ctx va e place s) := by
  unfold capture
  extract_lets x n done die
  have hdone : ∀ r fresh (u : State), (done r fresh u).bound = u.bound := fun _ _ _ => rfl
  have hcopy {off : Nat} : EndBound s (toCellar die ctx (Leaf.pa e) off (takeCellar ctx off n s) (n / 65536)) :=
    .behind (u := takeCellar ctx off n s) rfl toCellar_bound
  split
  · exact .ok rfl
  split
  · exact .ok (hdone ..)
  split
  · exact .ok rfl
  split
  · exact .hold
  split
  · exact .ok rfl
  split
  next heq => exact .ok ((hdone ..).trans (hcopy.of_ok heq))
  · exact .hold
  next u heq =>
    have hu : u.bound = s.bound := hcopy.of_fault heq
    exact .ok hu

theorem captureFor_bound {ctx va place : Nat} : EndBound s (captureFor ctx va place s) := by
  unfold captureFor
  dsimp only
  split
  · exact capture_bound
  · exact .ok rfl

theorem translate_bound {die ctx va : Nat} {need : Need} {m : Bool} : XlationIs (fun u => u.bound = s.bound) (translate die ctx va need m s) := by
  unfold translate
  split
  · exact .miss rfl
  split
  · exact .denied
  extract_lets pa same rest
  have hrest : ∀ u : State, u.bound = s.bound → XlationIs (fun w => w.bound = s.bound) (rest u) := fun u hu => by
    dsimp only [rest]
    split
    · exact .miss hu
    split
    · exact .ok hu
    split
    · exact .miss hu
    · exact .ok hu
  split
  · exact .ok rfl
  split
  · split
    next heq => exact hrest _ (captureFor_bound.of_ok heq)
    next heq => exact hrest _ (captureFor_bound.of_fault heq)
    · exact .miss (copyFirst_bound ..)
  · exact hrest s rfl

theorem partWrite_bound {die ctx va : Nat} : EndBound s (partWrite die ctx va s) :=
  partLeaf_bound.then fun _ u => by
    split
    next heq => exact .ok (translate_bound.of_ok heq)
    · exact .hold
    · exact .fault rfl

theorem writeCode_bound {die c va : Nat} {ws : List Word} : EndBound s (writeCode die c va ws s) :=
  .foldl (fun _ u => by
    split
    next pa w heq =>
      have hw : w.bound = u.bound := partWrite_bound.of_ok heq
      exact .ok hw
    · exact .hold
    next heq => exact .ok (partWrite_bound.of_fault heq)) (.ok rfl)

end loader

/-! ### Quads that are bound -/

/-- A loop that does something in one turn, and in no turn undoes it, has done it. -/
theorem foldl_does {α : Type} {P : State → Prop} {f : State → α → State} {l : List α} {x : α} (hx : x ∈ l) (hdo : ∀ s, P (f s x))
    (hkeep : ∀ s y, P s → P (f s y)) (s : State) : P (l.foldl f s) := by
  obtain ⟨l₁, l₂, rfl⟩ := List.append_of_mem hx
  rw [List.foldl_append, List.foldl_cons]
  exact List.foldlRecOn l₂ f (hdo _) fun u hu y _ => hkeep u y hu

/-- The tiles and memory tiles of a quad read 0: nothing lists them (R95, R272). -/
def clearTiles (q : Nat) (s : State) : State :=
  (List.range 4).foldl (fun s i => { s with tiles := mdel s.tiles (computeOfQuad q i), mtiles := mdel s.mtiles (memoryOfQuad q i) }) s

/-- The units of a quad as they are bound: its tiles, and a sequencer of the context (R317). -/
def clearQuad (c : Nat) (s : State) (q : Nat) : State :=
  (clearTiles q s).setSeq q { ctxid := c, tvec := ((clearTiles q s).ctx c).tvec }

/-- The registers of the tile at a position read 0. -/
def tileBlank (p : Nat) (s : State) : Prop := tileRegs s.tiles p = ([], [], [], [])

/-- The scalar registers of a control unit read 0. -/
def seqBlank (q : Nat) (s : State) : Prop := seqRegs s.seqs q = []

theorem tileBlank_mdel_self (s : State) (p : Nat) (m : Map MemTile) : tileBlank p { s with tiles := mdel s.tiles p, mtiles := m } := by
  simp only [tileBlank, tileRegs, mget_mdel_self]
  rfl

theorem tileBlank_mdel {s : State} {p : Nat} (h : tileBlank p s) (n : Nat) (m : Map MemTile) :
    tileBlank p { s with tiles := mdel s.tiles n, mtiles := m } := by
  by_cases hn : p = n
  · rw [hn]
    exact tileBlank_mdel_self ..
  · simpa only [tileBlank, tileRegs, mget_mdel_of_ne _ _ hn] using h

section clear
variable {c q p j : Nat} {s : State}

theorem clearTiles_blank (hj : j < 4) (s : State) : tileBlank (computeOfQuad q j) (clearTiles q s) :=
  foldl_does (P := tileBlank _) (List.mem_range.2 hj) (fun _ => tileBlank_mdel_self ..) (fun _ _ h => tileBlank_mdel h _ _) s

theorem clearTiles_keeps (h : tileBlank p s) (n : Nat) : tileBlank p (clearTiles n s) :=
  List.foldlRecOn (motive := tileBlank p) (List.range 4) _ h fun _ hu _ _ => tileBlank_mdel hu _ _

/-- The clock, the graphs and the sequencers. -/
def State.apartTiles (s : State) : Nat × Map Graph × Map Seq := (s.pcyc, s.graphs, s.seqs)

theorem clearTiles_apart (q : Nat) (s : State) : (clearTiles q s).apartTiles = s.apartTiles := by
  refine foldl_keeps State.apartTiles (fun _ _ => ?_) _ _
  rfl

/-- The clock and the graphs. -/
def State.apartUnits (s : State) : Nat × Map Graph := (s.pcyc, s.graphs)

theorem clearQuad_apart (c : Nat) (s : State) (n : Nat) : (clearQuad c s n).apartUnits = s.apartUnits :=
  congrArg (fun x => (x.1, x.2.1)) (clearTiles_apart n s)

/-- The registers of a quad's sequencer and tiles read 0. -/
def quadBlank (q : Nat) (s : State) : Prop := seqBlank q s ∧ ∀ j < 4, tileBlank (computeOfQuad q j) s

theorem clearQuad_blank (c q : Nat) (s : State) : quadBlank q (clearQuad c s q) :=
  ⟨by simp only [seqBlank, seqRegs, clearQuad, State.setSeq_seqs, mget_mset_self], fun _ hj => clearTiles_blank hj s⟩

theorem clearQuad_keeps (h : quadBlank q s) (c n : Nat) : quadBlank q (clearQuad c s n) := by
  obtain ⟨hseq, htiles⟩ := h
  by_cases hn : q = n
  · rw [hn]
    exact clearQuad_blank ..
  · have hseqs : (clearTiles n s).seqs = s.seqs := congrArg (fun x => x.2.2) (clearTiles_apart n s)
    refine ⟨?_, fun j hj => clearTiles_keeps (htiles j hj) n⟩
    simp only [seqBlank, seqRegs, clearQuad, State.setSeq_seqs, mget_mset_of_ne _ _ _ hn, hseqs]
    exact hseq

theorem clearQuads_blank {qs : List Nat} (hq : q ∈ qs) (c : Nat) (s : State) : quadBlank q (qs.foldl (clearQuad c) s) :=
  foldl_does hq (clearQuad_blank c q) (fun _ n h => clearQuad_keeps h c n) s

theorem quadBlank_of_bound {u : State} (h : u.bound = s.bound) (hs : quadBlank q s) : quadBlank q u := by
  obtain ⟨-, -, hseqs, htiles⟩ := State.bound_eq_iff.1 h
  unfold quadBlank seqBlank tileBlank
  rw [hseqs, htiles]
  exact hs

theorem quadBlank_reads (h : quadBlank q s) : (s.seq q).s = [] ∧ ∀ j : Nat, j < 4 →
    (s.tile (computeOfQuad q j)).s = [] ∧ (s.tile (computeOfQuad q j)).v = [] ∧ (s.tile (computeOfQuad q j)).p = [] := by
  obtain ⟨hseq, htiles⟩ := h
  refine ⟨hseq, fun j hj => ?_⟩
  have hregs : (s.tile (computeOfQuad q j)).regs = ([], [], [], []) := htiles j hj
  simp only [Tile.regs, Prod.mk.injEq] at hregs
  obtain ⟨hs, hv, hp, -⟩ := hregs
  exact ⟨hs, hv, hp⟩

end clear

theorem bindSeqPorts_bound (c g : Nat) (y : Graph) (s : State) : (bindSeqPorts c g y s).bound = s.bound := by
  unfold bindSeqPorts
  extract_lets put s₁
  have hput : ∀ (u : State) q p l, (put u q p l).bound = u.bound := fun u q p l => by
    dsimp only [put]
    split
    · rfl
    · exact updSeq_bound rfl
  have h₁ : s₁.bound = s.bound := foldl_keeps State.bound (fun u e => foldl_keeps State.bound (fun u m => by
    split
    · exact hput ..
    · rfl) _ u) _ s
  refine (foldl_keeps State.bound (fun u e => ?_) _ _).trans h₁
  dsimp only
  split
  · refine (hput ..).trans ?_
    split
    · exact hput ..
    · rfl
  · split
    · exact hput ..
    · rfl

theorem takeSlots_bound (c : Nat) (y : Graph) (l : List (Nat × Nat × Bool × List Nat)) (s : State) : (takeSlots c y l s).bound = s.bound := by
  refine foldl_keeps State.bound (fun u _ => foldl_keeps State.bound (fun _ _ => ?_) _ u) _ s
  rfl

/-- What a placement leaves: the graph at its positions, and the units of its quads reading 0. -/
theorem bindGraph_binds {c g : Nat} {t : Trial} {s u : State} (h : bindGraph c g t s = .ok () u) : u.pcyc = s.pcyc ∧
    (u.graph? c g).map Graph.placed = some t.placed ∧ ∀ q, q ∈ t.quads → quadBlank q u := by
  unfold bindGraph at h
  extract_lets y₀ y copies s₁ s₂ s₃ s₄ s₅ s₆ s₇ s₈ at h
  have h₃ : s₃.bound = s₁.bound := (foldl_keeps State.bound (fun u _ => by rfl) _ _).trans (takeSlots_bound ..)
  have hclear : s₄ = t.quads.foldl (clearQuad c) s₃ := rfl
  have h₄ : s₄.apartUnits = s₃.apartUnits := by
    rw [hclear]
    exact foldl_keeps State.apartUnits (clearQuad_apart c) _ _
  have hblank₄ : ∀ q, q ∈ t.quads → quadBlank q s₄ := fun q hq => by
    rw [hclear]
    exact clearQuads_blank hq c s₃
  have h₅ : s₅.bound = s₄.bound := foldl_keeps State.bound (fun u x => foldl_keeps State.bound (fun u q =>
    (foldl_keeps State.bound (fun u i => by rfl) _ _).trans (updSeq_bound rfl)) _ u) _ _
  have h₆ : s₆.bound = s₅.bound := foldl_keeps State.bound (fun u e => by
    dsimp only
    split
    · exact setTile_bound rfl
    · rfl) _ _
  have h₈ : s₈.bound = s₇.bound := bindSeqPorts_bound ..
  have hend : u.bound = s₈.bound := EndIs.of_ok (EndBound.foldl (fun d w => by
    split
    · exact .ok rfl
    · exact writeCode_bound) (.ok rfl)) h
  obtain ⟨hclock₃, hgraphs₃, -⟩ := State.bound_eq_iff.1 h₃
  have hclock₄ : s₄.pcyc = s₃.pcyc := congrArg Prod.fst h₄
  have hgraphs₄ : s₄.graphs = s₃.graphs := congrArg Prod.snd h₄
  obtain ⟨hclock₆, hgraphs₆, -⟩ := State.bound_eq_iff.1 (h₆.trans h₅)
  obtain ⟨hclock₈, hgraphs₈, hseqs₈, htiles₈⟩ := State.bound_eq_iff.1 (hend.trans h₈)
  have h₇ : GraphsOnly s₆ s₇ := updGraph_graphsOnly _
  refine ⟨?_, ?_, fun q hq => ?_⟩
  · exact hclock₈.trans ((congrArg State.pcyc h₇).trans (hclock₆.trans (hclock₄.trans hclock₃)))
  · rw [graph_of_graphs hgraphs₈, graph_updGraph, graph_of_graphs (hgraphs₆.trans (hgraphs₄.trans hgraphs₃)), State.setGraph_graph_self]
    rfl
  · have h₆' : quadBlank q s₆ := quadBlank_of_bound (h₆.trans h₅) (hblank₄ q hq)
    refine quadBlank_of_bound (hend.trans h₈) ?_
    rw [h₇]
    exact h₆'

theorem tellOpen_graphs (s : State) (c code id : Nat) (info : Option Word) : (s.tellOpen c code id info).graphs = s.graphs := by
  unfold State.tellOpen State.tellHost
  dsimp only
  split <;> rfl

/-! ## GRAPH_PLACEMENT (R198, R245, R265, R267, R369) -/

theorem ctxOpen_of_state {s : State} {c : Nat} (h : (s.ctx c).state ∈ [CtxState.ready, .active]) : ctxOpen s c = true := by
  simpa [ctxOpen] using h

/-- The host is told, once, that the save area is too small for a graph (R369). -/
def tellSaveArea (c g : Nat) (told : Bool) (s : State) : State :=
  if told then s else (updGraph c g (fun y => { y with saveAreaTold := true }) s).tellOpen c Code.saveArea 0 none

section place
variable {s : State} {c g : Nat} {x : Graph} (hx : s.graph? c g = some x)
include hx

theorem tellSaveArea_graph : (tellSaveArea c g x.saveAreaTold s).graph? c g = some { x with saveAreaTold := true } := by
  unfold tellSaveArea
  split
  next h => rw [hx, ← h]
  · rw [graph_of_graphs (tellOpen_graphs ..), graph_updGraph, hx]
    rfl

omit hx in
theorem tellSaveArea_pcyc (told : Bool) : (tellSaveArea c g told s).pcyc = s.pcyc := by
  unfold tellSaveArea
  split
  · rfl
  · rw [State.tellOpen_pcyc, updGraph_pcyc]

variable (hst : x.state = .waiting)
include hst

theorem execGraphPlacement_noRoom (hp : placeAll s c g x = none) : execGraphPlacement c g s = .next (s.later (.graphPlacement c g)) := by
  simp only [execGraphPlacement, hx, hst, hp, bne_self_eq_false, Bool.false_eq_true, if_false, ite_self]

section trial
variable (hctx : (s.ctx c).state ∈ [CtxState.ready, .active]) (hw : mustWait s c g x = false) {t : Trial} (hp : placeAll s c g x = some t)
include hctx hw hp

theorem execGraphPlacement_saveArea (hsave : (s.ctx c).saveSize < saveBytes (quadsHeld s c + t.quads.length)) :
    execGraphPlacement c g s = .next ((tellSaveArea c g x.saveAreaTold s).later (.graphPlacement c g)) := by
  have hfits : saveFits s c t = false := decide_eq_false (Nat.not_le.2 hsave)
  simp only [execGraphPlacement, hx, hst, hw, hp, hfits, ctxOpen_of_state hctx, bne_self_eq_false, Bool.false_eq_true, if_false,
    Bool.not_true, Bool.not_false, Bool.or_self, if_true]
  rfl

theorem execGraphPlacement_places {u : State} (hsave : saveBytes (quadsHeld s c + t.quads.length) ≤ (s.ctx c).saveSize)
    (hu : bindGraph c g t s = .ok () u) : ∃ v, GraphsOnly u v ∧ v.graph? c g = (u.graph? c g).map (fun y => { y with state := .staging }) ∧
      execGraphPlacement c g s = .next ((v.setCtx c { v.ctx c with state := .active }).later (.stagingComplete c g)) := by
  have hfits : saveFits s c t = true := decide_eq_true hsave
  refine ⟨updGraph c g (fun y => { y with state := .staging }) u, updGraph_graphsOnly _, graph_updGraph _, ?_⟩
  simp only [execGraphPlacement, hx, hst, hw, hp, hu, hfits, ctxOpen_of_state hctx, bne_self_eq_false, Bool.false_eq_true, if_false,
    Bool.not_true, Bool.or_self]

end trial
end place

/-! ## STAGING_COMPLETE (R148, R200, R245) -/

/-- Device memory, and the state and the target of a graph. -/
def State.stageOf (c g : Nat) (s : State) : Memory × Option (GraphState × Nat) := (s.mem, (s.graph? c g).map fun y => (y.state, y.target))

section stage
variable {c g : Nat}

theorem updGraph_stageOf {f : Graph → Graph} (h : ∀ y, ((f y).state, (f y).target) = (y.state, y.target)) (s : State) :
    (updGraph c g f s).stageOf c g = s.stageOf c g := by
  have hmem : (updGraph c g f s).mem = s.mem := by rw [updGraph_graphsOnly f]
  simp only [State.stageOf, hmem, graph_updGraph, Option.map_map]
  exact congrArg (fun k => (s.mem, (s.graph? c g).map k)) (funext h)

theorem setListState_stageOf (m t : Nat) (st : ListState) (s : State) : (setListState c g m t st s).stageOf c g = s.stageOf c g := by
  refine updGraph_stageOf (fun _ => ?_) s
  rfl

theorem stageList_stageOf (m : Nat) (l : ListDecl) (s : State) : (stageList c g m l s).stageOf c g = s.stageOf c g := by
  unfold stageList
  dsimp only
  split
  · rfl
  · refine (setListState_stageOf ..).trans ?_
    split
    · split
      · exact setListState_stageOf ..
      · rfl
    · rfl

theorem stageNear_stageOf (s : State) : (stageNear c g s).stageOf c g = s.stageOf c g := by
  unfold stageNear
  extract_lets y s₁ s₂ s₃
  have h₁ : s₁.stageOf c g = s.stageOf c g := foldl_keeps (State.stageOf c g) (fun u e => by
    dsimp only
    split
    · rfl
    · split <;> rfl) _ _
  have h₂ : s₂.stageOf c g = s₁.stageOf c g := foldl_keeps (State.stageOf c g) (fun u d => by split <;> rfl) _ _
  have h₃ : s₃.stageOf c g = s₂.stageOf c g := foldl_keeps (State.stageOf c g) (fun u k => by
    split
    · rfl
    · dsimp only
      split
      · split <;> rfl
      · split <;> rfl) _ _
  refine (updGraph_stageOf (fun _ => ?_) _).trans (h₃.trans (h₂.trans h₁))
  rfl

theorem execStagingComplete_stages {s : State} {x : Graph} {m : ModeDecl} (hx : s.graph? c g = some x) (hst : x.state ∈ [GraphState.staging, .changing])
    (hm : x.image.mode? x.target = some m) : ∃ u y, execStagingComplete c g s = .next u ∧ u.graph? c g = some y ∧ y.state = x.state ∧
      y.stagedMode = some x.target ∧ y.everStaged = true ∧
      (x.state = .staging → x.stagedMode = none → ∀ e, e ∈ y.groups → e.state = .staged) ∧ u.mem = s.mem := by
  have hor : (x.state == .staging || x.state == .changing) = true := by simpa using hst
  unfold execStagingComplete
  simp -zeta only [hx, hm, hor, if_true]
  extract_lets first s₁ s₂ s₃
  have h₁ : s₁.stageOf c g = s.stageOf c g := by
    dsimp only [s₁]
    split
    · exact stageNear_stageOf s
    · rfl
  have h₂ : s₂.stageOf c g = s₁.stageOf c g := foldl_keeps (State.stageOf c g) (fun u l => by
    split
    · exact stageList_stageOf ..
    · rfl) _ _
  have hstage : s₃.stageOf c g = (s.mem, some (x.state, x.target)) := (h₂.trans h₁).trans (by rw [State.stageOf, hx]; rfl)
  have hmem : s₃.mem = s.mem := congrArg Prod.fst hstage
  obtain ⟨y, hy, hys⟩ := Option.map_eq_some_iff.1 (congrArg Prod.snd hstage)
  obtain ⟨hstate, htarget⟩ := Prod.ext_iff.1 hys
  refine ⟨_, _, rfl, (graph_updGraph _).trans (congrArg (Option.map _) hy), hstate, congrArg some htarget, rfl, fun hs hnone => ?_, ?_⟩
  · have hfirst : first = true := by simp [first, hs, hnone]
    simp only [hfirst, if_true, List.mem_map]
    rintro e ⟨e', -, rfl⟩
    rfl
  · rw [updGraph_graphsOnly]
    exact hmem

end stage

/-! ## START_PULSE (R201, R253, R479) -/

/-! ### The regions of the target mode (R207, R253) -/

/-- A region of a mode is placed where its lists stand here. -/
def placeRegion (c g : Nat) (y : Graph) (m : ModeDecl) (s : State) (e : RegionDecl × Nat) : State :=
  if e.1.lists.all y.isHere then s.setRegion (State.regionKey c g e.2) (newRegion s y m e.2 e.1) else s

section regions
variable {s : State} {c g i : Nat} {y : Graph} {m : ModeDecl} {r : RegionDecl}

theorem regionKey_inj {j k : Nat} (h : State.regionKey c g j = State.regionKey c g k) : j = k := by
  unfold State.regionKey at h
  omega

theorem regionKey_graph (hi : i < 2048) : State.regionKey c g i / 2048 = State.graphKey c g := by
  unfold State.regionKey
  omega

theorem newRegion_of_dies {u : State} (h : u.dies = s.dies) : newRegion u y m i r = newRegion s y m i r := by
  unfold newRegion unpowered State.die
  rw [h]

theorem placeRegion_dies (u : State) (e : RegionDecl × Nat) : (placeRegion c g y m u e).dies = u.dies := by
  unfold placeRegion
  split <;> rfl

theorem placeRegion_here (hhere : r.lists.all y.isHere = true) (u : State) :
    mfind (placeRegion c g y m u (r, i)).regions (State.regionKey c g i) = some (newRegion u y m i r) := by
  rw [placeRegion, if_pos hhere]
  exact mfind_mset_self ..

theorem placeRegion_away (hhere : r.lists.all y.isHere = false) (u : State) : placeRegion c g y m u (r, i) = u :=
  if_neg (by rw [hhere]; exact Bool.false_ne_true)

theorem placeRegion_of_ne {e : RegionDecl × Nat} (he : e.2 ≠ i) (u : State) :
    mfind (placeRegion c g y m u e).regions (State.regionKey c g i) = mfind u.regions (State.regionKey c g i) := by
  unfold placeRegion
  split
  · exact mfind_mset_of_ne _ _ fun h => he (regionKey_inj h).symm
  · rfl

variable (hr : m.regions[i]? = some r)
include hr

theorem eq_decl_or_ne {e : RegionDecl × Nat} (he : e ∈ m.regions.zipIdx) : e = (r, i) ∨ e.2 ≠ i := by
  by_cases hi : e.2 = i
  · have hget := List.mem_zipIdx_iff_getElem?.1 he
    rw [hi, hr] at hget
    exact .inl (Prod.ext (Option.some.inj hget).symm hi)
  · exact .inr hi

theorem placeRegions_here (hhere : r.lists.all y.isHere = true) :
    mfind (m.regions.zipIdx.foldl (placeRegion c g y m) s).regions (State.regionKey c g i) = some (newRegion s y m i r) := by
  have hmem : (r, i) ∈ m.regions.zipIdx := List.mem_zipIdx_iff_getElem?.2 hr
  obtain ⟨l₁, l₂, hsplit⟩ := List.append_of_mem hmem
  have hdies : (l₁.foldl (placeRegion c g y m) s).dies = s.dies := foldl_keeps State.dies placeRegion_dies l₁ s
  rw [hsplit, List.foldl_append, List.foldl_cons]
  refine (List.foldlRecOn (motive := fun u : State => u.dies = s.dies ∧
    mfind u.regions (State.regionKey c g i) = some (newRegion s y m i r)) l₂ _ ⟨(placeRegion_dies ..).trans hdies, ?_⟩ ?_).2
  · rw [placeRegion_here hhere, newRegion_of_dies hdies]
  · rintro u ⟨hu, hfind⟩ e he
    refine ⟨(placeRegion_dies ..).trans hu, ?_⟩
    have hin : e ∈ m.regions.zipIdx := hsplit ▸ List.mem_append_right _ (List.mem_cons_of_mem _ he)
    obtain rfl | hne := eq_decl_or_ne hr hin
    · rw [placeRegion_here hhere, newRegion_of_dies hu]
    · rw [placeRegion_of_ne hne, hfind]

theorem placeRegions_away (hhere : r.lists.all y.isHere = false) :
    mfind (m.regions.zipIdx.foldl (placeRegion c g y m) s).regions (State.regionKey c g i) = mfind s.regions (State.regionKey c g i) := by
  refine List.foldlRecOn (motive := fun u : State => mfind u.regions (State.regionKey c g i) = mfind s.regions (State.regionKey c g i)) _ _ rfl
    fun u hu e he => ?_
  obtain rfl | hne := eq_decl_or_ne hr he
  · rw [placeRegion_away hhere, hu]
  · rw [placeRegion_of_ne hne, hu]

end regions

/-- A region as it starts (R207, R253, R268, R487). -/
theorem newRegion_eq (s : State) (y : Graph) (m : ModeDecl) (i : Nat) (r : RegionDecl) : newRegion s y m i r = {
    rstate := 1, wdog := mget r.wdog y.wdogs (energyKey y.target i), mode := y.target, tiles := r.lists.map fun t => y.placed.getD t 0
    stretch := if ∃ t, t ∈ r.lists ∧ (s.die (dieOfPos (y.placed.getD t 0))).allow = 0 then 65535 else 0
    phases := m.phases, energy := r.energy, measured := mget [] y.measured (energyKey y.target i) } := by
  simp only [newRegion, unpowered, List.any_map, List.any_eq_true, Function.comp_apply, decide_eq_true_eq]
  split <;> rfl

/-! ### Releases that are owed (R411) -/

/-- A graph without its joins. -/
def Graph.unjoined (y : Graph) : Graph := { y with joins := [] }

/-- The clock, the regions, and a graph without its joins. -/
def State.pulseOf (c g : Nat) (s : State) : Nat × Map Region × Option Graph := (s.pcyc, s.regions, (s.graph? c g).map Graph.unjoined)

theorem State.pulseOf_eq_iff {c g : Nat} {s u : State} : u.pulseOf c g = s.pulseOf c g ↔
    u.pcyc = s.pcyc ∧ u.regions = s.regions ∧ (u.graph? c g).map Graph.unjoined = (s.graph? c g).map Graph.unjoined := by
  simp [State.pulseOf]

section owed
variable {c g : Nat}

theorem setJoin_pulseOf (j : Nat) (x : Join) (s : State) : (setJoin c g j x s).pulseOf c g = s.pulseOf c g := by
  unfold setJoin State.pulseOf
  split
  · rfl
  next y hy => rw [State.setGraph_graph_self, hy]; rfl

theorem setCx_pulseOf (u : UnitId) (p : Nat) (x : CtrlPort) (s : State) : (setCx u p x s).pulseOf c g = s.pulseOf c g := by
  cases u <;> rfl

theorem wakeOnToken_pulseOf (n p : Nat) (s : State) : (wakeOnToken n p s).pulseOf c g = s.pulseOf c g := by
  unfold wakeOnToken
  split
  · rfl
  · split <;> rfl
  · rfl

theorem depositAt_pulseOf (u : UnitId) (p : Nat) (s : State) : (depositAt u p s).pulseOf c g = s.pulseOf c g := by
  unfold depositAt
  dsimp only
  split
  · exact setCx_pulseOf ..
  · cases u with
    | tile t => exact setCx_pulseOf ..
    | seq n => exact (wakeOnToken_pulseOf ..).trans (setCx_pulseOf ..)

theorem oweReleases_pulseOf (s : State) : (oweReleases c g s).pulseOf c g = s.pulseOf c g := by
  refine foldl_keeps (State.pulseOf c g) (fun u e => ?_) _ _
  split
  · split
    · refine (foldl_keeps (State.pulseOf c g) (fun w n => ?_) _ _).trans (setJoin_pulseOf ..)
      split
      · split
        · exact setCx_pulseOf ..
        · exact foldl_keeps (State.pulseOf c g) (fun _ _ => depositAt_pulseOf ..) _ _
      · rfl
    · rfl
  · rfl

theorem runEngines_pulseOf (s : State) : (runEngines c g (runRegions c g s)).pulseOf c g = s.pulseOf c g := rfl

end owed

/-! ### The pulse -/

/-- The clock, the regions and the dies. -/
def State.outsideTiles (s : State) : Nat × Map Region × Map Die := (s.pcyc, s.regions, s.dies)

theorem State.outsideTiles_eq_iff {s u : State} : u.outsideTiles = s.outsideTiles ↔ u.pcyc = s.pcyc ∧ u.regions = s.regions ∧ u.dies = s.dies := by
  simp [State.outsideTiles]

theorem startTile_outsideTiles (g : Nat) (y : Graph) (m : ModeDecl) (l : ListDecl) (k : Nat) (s : State) :
    (startTile g y m l k s).outsideTiles = s.outsideTiles := rfl

theorem clearStores_outsideTiles (c g : Nat) (s : State) : (clearStores c g s).outsideTiles = s.outsideTiles := by
  refine foldl_keeps State.outsideTiles (fun u e => ?_) _ _
  extract_lets mine u₁
  have h₁ : u₁.outsideTiles = u.outsideTiles := foldl_keeps State.outsideTiles (fun _ _ => by rfl) _ _
  exact h₁

/-- A graph at its start pulse, before its lists and regions change (R66, R347, R427). -/
def Graph.seeded (x : Graph) (seed : Word) : Graph := { x with seed := if x.keepSeed then x.seed else seed, keepSeed := false }

/-- A graph that runs in its target mode (R245, R253). -/
def Graph.restarted (x : Graph) (seed : Word) (lists : Map ListState) (joins : List Join) : Graph :=
  { x.seeded seed with
    state := .running, mode := x.target, periods := 0, draining := false, residue := false, points := [], closing := [], finished := []
    forwarding := [], lists := lists, ps := [], groups := x.groups.map fun y => { y with state := .running }, mems := x.mems.map MemActor.pulsed
    peersReady := [], noticed := none, owed := [], copies := x.copies.map fun t => { t with marked := false, stopped := false, quiescent := false }
    joins := joins }

/-- The MODE records of a graph that act finish (R264). -/
def endModes (c h : Nat) (s : State) : State :=
  ((s.ctx c).records.filter fun r => r.kind = 2 && r.acting && !r.failed && r.handle = h).foldl (fun s r => s.soon (.recordFinish c r.id)) s

/-- What a start pulse has done in `w`, before sequencers start: from `v` on, where the regions of the mode in force are gone, it has placed
those of the target, and the graph stands as `y`. -/
structure Pulsed (s : State) (c g : Nat) (x y : Graph) (m : ModeDecl) (v w : State) : Prop where
  dies : v.dies = s.dies
  gone : ∀ k, k / 2048 = State.graphKey c g → mfind v.regions k = none
  clock : w.pcyc = s.pcyc
  regions : w.regions = (m.regions.zipIdx.foldl (placeRegion c g (x.seeded (s.ctx c).seed) m) v).regions
  graph : (w.graph? c g).map Graph.unjoined = some y.unjoined

/-- A table has nothing at a key that a filter drops. -/
theorem mfind_filter_dropped {α : Type} {m : Map α} {p : Nat × α → Bool} {k : Nat} (h : ∀ v, p (k, v) = false) : mfind (m.filter p) k = none := by
  induction m with
  | nil => rfl
  | cons e m ih =>
    obtain ⟨j, v⟩ := e
    rw [List.filter_cons]
    split
    next hp =>
      have hj : j ≠ k := fun hj => by rw [hj, h v] at hp; exact Bool.false_ne_true hp
      rw [mfind, if_neg hj, ih]
    · exact ih

theorem execStartPulse_pulses {s : State} {c g : Nat} {x : Graph} {m : ModeDecl} (hx : s.graph? c g = some x)
    (hm : x.image.mode? x.target = some m) (hready : startReady s c g = true) : ∃ v w lists joins, execStartPulse c g s =
      .next (endModes c x.handle (if x.state == .staging then startSeqs (x.restarted (s.ctx c).seed lists joins) w else w)) ∧
      Pulsed s c g x (x.restarted (s.ctx c).seed lists joins) m v w := by
  unfold execStartPulse
  simp -zeta only [hx, hm, hready, Bool.not_true, Bool.false_eq_true, if_false]
  extract_lets y₀ lists s₁ s₂ s₃ s₄ s₅ s₆ s₇ s₈ stands y s₉ s₁₀
  have h₂ : s₂.outsideTiles = s₁.outsideTiles := foldl_keeps State.outsideTiles (fun _ _ => by rfl) _ _
  have h₃ : s₃ = m.regions.zipIdx.foldl (placeRegion c g (x.seeded (s.ctx c).seed) m) s₂ := rfl
  have hclock₃ : s₃.pcyc = s₂.pcyc := foldl_keeps State.pcyc (fun _ _ => by split <;> rfl) _ _
  have h₄ : s₄.outsideTiles = s₃.outsideTiles := foldl_keeps State.outsideTiles (fun _ _ => by
    split
    · rfl
    · exact startTile_outsideTiles ..) _ _
  have h₅ : s₅.outsideTiles = s₄.outsideTiles := clearStores_outsideTiles ..
  have h₇ : s₇.outsideTiles = s₆.outsideTiles := foldl_keeps State.outsideTiles (fun _ _ => by rfl) _ _
  have h₆ : s₆.outsideTiles = s₅.outsideTiles := rfl
  have h₈ : s₈.outsideTiles = s₇.outsideTiles := rfl
  have h₉ : s₉.pulseOf c g = (s₈.setGraph c g y).pulseOf c g :=
    (runEngines_pulseOf _).trans (oweReleases_pulseOf _)
  obtain ⟨hclock₂, hregions₂, hdies₂⟩ := State.outsideTiles_eq_iff.1 h₂
  obtain ⟨hclock₇, hregions₇, -⟩ := State.outsideTiles_eq_iff.1 (h₈.trans (h₇.trans (h₆.trans (h₅.trans h₄))))
  obtain ⟨hclock₉, hregions₉, hgraph₉⟩ := State.pulseOf_eq_iff.1 h₉
  refine ⟨s₂, s₉, lists, y.joins, rfl, hdies₂, fun k hk => ?_, ?_, ?_, ?_⟩
  · rw [hregions₂]
    exact mfind_filter_dropped fun r => by simp [hk]
  · exact hclock₉.trans (hclock₇.trans (hclock₃.trans hclock₂))
  · exact hregions₉.trans (hregions₇.trans (by rw [h₃]))
  · rw [hgraph₉, State.setGraph_graph_self]
    rfl

section pulsed
variable {s v w : State} {c g i : Nat} {x y : Graph} {m : ModeDecl} {r : RegionDecl} (h : Pulsed s c g x y m v w)
  (hr : m.regions[i]? = some r)
include h hr

theorem Pulsed.region_here (hhere : ∀ t, t ∈ r.lists → x.isHere t = true) :
    mfind w.regions (State.regionKey c g i) = some (newRegion s (x.seeded (s.ctx c).seed) m i r) := by
  have hall : r.lists.all (x.seeded (s.ctx c).seed).isHere = true := List.all_eq_true.2 hhere
  rw [h.regions, placeRegions_here hr hall, newRegion_of_dies h.dies]

theorem Pulsed.region_away (hi : i < 2048) (haway : ∃ t, t ∈ r.lists ∧ x.isHere t = false) :
    mfind w.regions (State.regionKey c g i) = none := by
  obtain ⟨t, ht, hnot⟩ := haway
  have hall : r.lists.all (x.seeded (s.ctx c).seed).isHere = false :=
    List.all_eq_false.2 ⟨t, ht, fun hyes => Bool.false_ne_true (hnot.symm.trans hyes)⟩
  rw [h.regions, placeRegions_away hr hall, h.gone _ (regionKey_graph hi)]

end pulsed

/-! ### Sequencers that start (R479; log 20) -/

section starts
variable {y : Graph} {s : State}

theorem startSeqs_rest (y : Graph) (s : State) : (startSeqs y s).graphs = s.graphs ∧ (startSeqs y s).regions = s.regions :=
  ⟨foldl_keeps State.graphs (fun _ _ => by split <;> rfl) _ _, foldl_keeps State.regions (fun _ _ => by split <;> rfl) _ _⟩

theorem endModes_rest (c h : Nat) (s : State) : (endModes c h s).graphs = s.graphs ∧ (endModes c h s).regions = s.regions ∧
    (endModes c h s).seqs = s.seqs :=
  ⟨foldl_keeps State.graphs (fun _ _ => by rfl) _ _, foldl_keeps State.regions (fun _ _ => by rfl) _ _,
    foldl_keeps State.seqs (fun _ _ => by rfl) _ _⟩

theorem startIf_graphs (b : Bool) (y : Graph) (s : State) : (if b then startSeqs y s else s).graphs = s.graphs := by
  split
  · exact (startSeqs_rest y s).1
  · rfl

theorem startIf_regions (b : Bool) (y : Graph) (s : State) : (if b then startSeqs y s else s).regions = s.regions := by
  split
  · exact (startSeqs_rest y s).2
  · rfl

theorem startSeqs_one {d : SeqDecl} (hd : y.image.seqs = [d]) (hhere : seqHere y d = true) :
    ((startSeqs y s).seq (seqOfBlock y 0)).run = .run ∧ ((startSeqs y s).seq (seqOfBlock y 0)).pc = BitVec.ofNat 64 d.va ∧
      ((startSeqs y s).seq (seqOfBlock y 0)).ready = s.pcyc := by
  have h : (startSeqs y s).seq (seqOfBlock y 0) =
      { s.seq (seqOfBlock y 0) with pc := BitVec.ofNat 64 d.va, run := .run, last := s.pcyc, ready := s.pcyc } := by
    simp only [startSeqs, hd, List.zipIdx_cons, List.zipIdx_nil, List.foldl_cons, List.foldl_nil, hhere, Bool.not_true, Bool.false_eq_true, if_false]
    exact mget_mset_self ..
  rw [h]
  exact ⟨rfl, rfl, rfl⟩

theorem seqOfBlock_restarted (x : Graph) (seed : Word) (lists : Map ListState) (joins : List Join) (q : Nat) :
    seqOfBlock (x.restarted seed lists joins) q = seqOfBlock x q := by
  have hquad : ∀ i p, relToQuad ((x.restarted seed lists joins).groups.getD i {}) p = relToQuad (x.groups.getD i {}) p := fun i p => by
    simp only [Graph.restarted, relToQuad, List.getD_eq_getElem?_getD, List.getElem?_map]
    cases x.groups[i]? <;> rfl
  simp only [seqOfBlock, hquad]
  rfl

end starts

/-! ## The obligation -/

theorem exec_graphLoadComplete (c g : Nat) (s : State) : exec (.graphLoadComplete c g) s = execGraphLoadComplete c g s := rfl
theorem exec_graphPlacement (c g : Nat) (s : State) : exec (.graphPlacement c g) s = execGraphPlacement c g s := rfl
theorem exec_stagingComplete (c g : Nat) (s : State) : exec (.stagingComplete c g) s = execStagingComplete c g s := rfl
theorem exec_startPulse (c g : Nat) (s : State) : exec (.startPulse c g) s = execStartPulse c g s := rfl
theorem exec_modeRequestArrival (c g p : Nat) (s : State) : exec (.modeRequestArrival c g p) s = execModeRequestArrival c g p s := rfl

/-- Settles O49, by an equation for each step under its conditions: the loader's accesses leave the units of a bound quad reading 0
(`bindGraph_binds`), and a start pulse places the regions that stand here behind those it drops (`Pulsed`). What is proved keeps the model's
choices: the sequencer of the image's block 0 starts (log 20), a region on a die without ALLOW has a STRETCH of 65535 (log 22), a rollback's SEED
is kept (log 52), and so is a region's WDOG (log 59). -/
theorem graphSteps : Obligations.GraphSteps := by
  unfold Obligations.GraphSteps
  intro s c g x hx
  simp only [exec_graphLoadComplete, exec_graphPlacement, exec_stagingComplete, exec_startPulse, exec_modeRequestArrival]
  refine ⟨fun va im u' hst hv him => ⟨fun hi ht => ?_, fun hi ht hn => ?_, fun ht hu => ?_⟩, fun w hst hv hw => ?_,
    fun t u' hst hctx hwait hp hsave hu => ?_, fun t hst hctx hwait hp hsave => ?_, fun hst hctx hp => ?_, fun m hst hm => ?_,
    fun m hready hm => ?_, fun p hp => ?_, fun n key a k col rest hlt hn hout ha hlive hf => ?_, fun n hlt hn hf => ?_⟩
  · have hheld := foldl_keeps State.held (fun u r => sendItems_held 0 c r 1 u) im.others (s.setGraph c g { x with told := true })
    obtain ⟨hgraphs, hmem⟩ := State.held_eq_iff.1 hheld
    exact ⟨_, execGraphLoadComplete_asks hx hst hv him hi ht, (graph_of_graphs hgraphs).trans (State.setGraph_graph_self ..),
      List.mem_append_right _ List.mem_cons_self, keepsMemory_of_memories hmem⟩
  · exact execGraphLoadComplete_waits hx hst hv him hi ht hn
  · obtain ⟨tags, hexec⟩ := execGraphLoadComplete_loads hx hst hv him ht hu
    obtain ⟨hgraphs, hmem⟩ := State.held_eq_iff.1 (declareArcs_held c g im tags (u'.setGraph c g (loadedGraph x im tags)))
    exact ⟨_, loadedGraph x im tags, hexec, (graph_of_graphs hgraphs).trans (State.setGraph_graph_self ..), rfl, rfl, rfl, rfl, rfl, rfl,
      keepsMemory_of_memories hmem⟩
  · exact ⟨_, execGraphLoadComplete_bad hx hst hv hw, State.setGraph_graph_self .., keepsMemory_of_memories rfl⟩
  · obtain ⟨hclock, hplaced, hblank⟩ := bindGraph_binds hu
    obtain ⟨z, hz, hzp⟩ := Option.map_eq_some_iff.1 hplaced
    obtain ⟨v, hv, hgraph, hexec⟩ := execGraphPlacement_places hx hst hctx hwait hp hsave hu
    refine ⟨_, { z with state := .staging }, hexec, ?_, rfl, hzp, ?_, ?_, fun q hq => ?_⟩
    · exact hgraph.trans (congrArg (Option.map _) hz)
    · exact congrArg Ctx.state (State.setCtx_ctx_self ..)
    · exact setLater_later ((congrArg State.pcyc hv).trans hclock) _
    · refine quadBlank_reads ?_
      rw [hv]
      exact hblank q hq
  · exact ⟨_, execGraphPlacement_saveArea hx hst hctx hwait hp hsave, tellSaveArea_graph hx, setLater_later (tellSaveArea_pcyc _) _⟩
  · exact ⟨_, execGraphPlacement_noRoom hx hst hp, hx, setLater_later rfl _, keepsMemory_of_memories rfl⟩
  · exact execStagingComplete_stages hx hst hm
  · obtain ⟨v, w, lists, joins, hexec, hpulse⟩ := execStartPulse_pulses hx hm hready
    obtain ⟨hgraphs, hregions, hseqs⟩ := endModes_rest c x.handle
      (if x.state == .staging then startSeqs (x.restarted (s.ctx c).seed lists joins) w else w)
    rw [startIf_graphs] at hgraphs
    rw [startIf_regions] at hregions
    obtain ⟨y, hy, hyz⟩ := Option.map_eq_some_iff.1 hpulse.graph
    obtain ⟨hmem, hnear⟩ := (execStartPulse_has (P := fun a _ b => a = s.mem ∧ b = s.near) ⟨rfl, rfl⟩).of_next hexec
    refine ⟨_, y, hexec, (graph_of_graphs hgraphs).trans hy, congrArg Graph.state hyz, congrArg Graph.mode hyz, congrArg Graph.periods hyz,
      congrArg Graph.draining hyz, congrArg Graph.seed hyz, congrArg Graph.keepSeed hyz, fun i r hr hi => ?_, fun d hst hd hhere => ?_, hmem, hnear⟩
    · rw [hregions]
      exact ⟨fun hhere => (hpulse.region_here hr hhere).trans (congrArg some (newRegion_eq ..)), hpulse.region_away hr hi⟩
    · obtain ⟨hrun, hpc, hready⟩ := startSeqs_one (y := x.restarted (s.ctx c).seed lists joins) (s := w) hd hhere
      rw [seqOfBlock_restarted] at hrun hpc hready
      simp only [hst, beq_self_eq_true, if_true] at hseqs
      simp only [State.seq, hst, beq_self_eq_true, if_true, hseqs]
      exact ⟨hrun, hpc, hready.trans hpulse.clock⟩
  · exact ⟨_, execModeRequestArrival_notes hp, (graph_updGraph _).trans (congrArg (Option.map _) hx), keepsMemory_of_graphsOnly (updGraph_graphsOnly _)⟩
  · exact ⟨_, execModeRequestArrival_source hn ⟨x, hx, hlt⟩ hout ha hlive hf, keepsMemory_of_graphsOnly (updMem_graphs _), memAt_updMem ⟨x, hx, hlt⟩ _⟩
  · exact ⟨_, execModeRequestArrival_template hn hf, copyAt_updCopy ⟨x, hx, hlt⟩ _, keepsMemory_of_graphsOnly (updCopy_graphs _)⟩

end Sys2Proof.Machine
end

/-! # Atomics: how they begin

The state behind an `amo` or a `red` that issues (R230 to R235). -/
section
open Sys2Proof Sys2Proof.Machine Sys2Proof.Claims
namespace Sys2Proof.Machine

/-! ## An operation counted on a channel (R227) -/

section setChan
variable (v : UnitId) (c : Nat) (x : OrdChan) (s : State)

@[simp] theorem setChan_readS (r : BitVec 6) : readS (setChan v c x s) r = readS s r := by
  cases v with
  | tile t =>
    simp only [readS, setChan, State.setTile_cur, State.setTile_read_seq]
    split
    next u _ => by_cases h : u = t <;> simp [h, State.setTile_tile_of_ne]
    · rfl
  | seq n =>
    simp only [readS, setChan, State.updSeq_cur, State.updSeq_read_tile]
    split
    · rfl
    next m _ => by_cases h : m = n <;> simp [h, State.updSeq_seq_of_ne]

/-- The results on their way stay in their tile. -/
theorem setChan_pend (t : Nat) : ((setChan v c x s).tile t).pend = (s.tile t).pend ∧
    ((setChan v c x s).tile t).issuing = (s.tile t).issuing := by
  cases v with
  | tile u => by_cases h : t = u <;> simp [setChan, h, State.setTile_tile_of_ne]
  | seq n => exact ⟨rfl, rfl⟩

end setChan

/-- The state with an operation counted on a channel gives its operands, and the results on their way, as before. -/
structure OperandsOf (s v : State) : Prop where
  scalars : ∀ r, readS v r = readS s r
  results : ∀ t, (v.tile t).pend = (s.tile t).pend ∧ (v.tile t).issuing = (s.tile t).issuing

/-- The number and the state with which `tagOp` goes on do not depend on what follows. -/
theorem tagOp_counted {s : State} {ch : Nat} (h : channelFree s ch) (k : Nat → State → StepResult) :
    ∃ n v, tagOp ch s k = k n v ∧ CountedOn s v ch n ∧ OperandsOf s v := by
  obtain ⟨n, v, hv, hcounted⟩ := tagOp_free h fun _ v => .next v
  by_cases hc : ch = 0
  · obtain rfl : s = v := Host.Outcome.next.inj ((if_pos hc).symm.trans hv)
    exact ⟨0, s, if_pos hc, { hcounted with number := fun hne => absurd hc hne }, fun _ => rfl, fun _ => ⟨rfl, rfl⟩⟩
  · have htag {k : Nat → State → StepResult} := (if_neg hc).trans (if_neg (Nat.not_le.2 (h.resolve_left hc))) (a := tagOp ch s k)
    obtain rfl := Host.Outcome.next.inj (htag.symm.trans hv)
    obtain ⟨hn, -⟩ := hcounted.number hc
    exact ⟨n, _, htag.trans (by rw [hn]), hcounted, setChan_readS _ _ _ _, setChan_pend _ _ _ _⟩

/-! ## An access that is recorded and awaited -/

@[simp] theorem done_after (s : State) (n : Nat) (i : Instr) : done (s.after n i) = (done s).after n i := by
  cases hu : s.cur.unit with
  | tile t => simp only [done, State.after_cur, hu]
  | seq n => simp only [done, State.after_cur, hu]; rfl
@[simp] theorem done_later (s : State) (i : Instr) : done (s.later i) = (done s).later i := by
  cases hu : s.cur.unit with
  | tile t => simp only [done, State.later_cur, hu]
  | seq n => simp only [done, State.later_cur, hu]; rfl
@[simp] theorem done_pcyc (s : State) : (done s).pcyc = s.pcyc := by unfold done; split <;> rfl

/-- What an access of the issuing unit has done before it is on its way anywhere: its unit goes on. -/
theorem recorded_of_setForBanks {s w : State} {o : Op} (h : SetForBanks s (w.after 6 (.bankAccess s.opCount)) o) :
    begun s (done w) o ∧ (done w).agenda = s.agenda ∧ (done w).pcyc = s.pcyc ∧ keepsMemory s (done w) ∧ goesOn s (done w) := by
  obtain ⟨hbegun, hagenda, hmem, hgoes⟩ := h.goOn
  rw [done_after] at hbegun hagenda hmem hgoes
  exact ⟨hbegun, List.append_inj_left' hagenda rfl, (done_pcyc w).trans h.clock, hmem, hgoes⟩

/-! ## The way to the pipeline (R230, R231, R234) -/

theorem atomicCheck_good {s : State} {a : Word} {scope mt o : Nat} (htarget : atomicTarget s a = some (mt, o)) (hal : o % 4 = 0)
    (hscope : inScope s scope mt = true) (hserves : isFar s mt = true ∨ atomicServes s mt o = true) (k : Nat → Nat → StepResult) :
    atomicCheck a scope s k = k mt o := by
  have hpart : (!isFar s mt && !atomicServes s mt o) = false := by rcases hserves with h | h <;> simp [h]
  simp only [atomicCheck, htarget, hal, hscope, hpart, ne_eq, not_true_eq_false, Bool.not_true, Bool.false_eq_true, if_false]

theorem isFar_congr {s v : State} (h : v.cur = s.cur) (mt : Nat) : isFar v mt = isFar s mt := by
  simp only [isFar, curQuad, h]

/-- An atomic as the issuing unit's access (R230, R233). -/
def atomicOp (sub : Nat) (d : Option (BitVec 6)) (a b c : BitVec 6) (ch n mt o : Nat) (s : State) : Op :=
  { mkOp s (.atomic sub ((readS s b).setWidth 32) ((readS s c).setWidth 32) d.isSome) mt o 1 with
    va := (readS s a).toNat, chan := ch, seqn := n, dst := d.map BitVec.toNat }

/-- The access of an atomic recorded, and its register awaited. -/
def recordAtomic (sub : Nat) (d : Option (BitVec 6)) (a b c : BitVec 6) (ch lat n mt o : Nat) (s : State) : State :=
  match d with
  | some r => issueLoad (atomicOp sub d a b c ch n mt o s) lat (.scalar r.toNat 0) s
  | none => s.newOp (atomicOp sub d a b c ch n mt o s)

theorem recordAtomic_recorded (sub : Nat) (d : Option (BitVec 6)) (a b c : BitVec 6) (ch lat n mt o : Nat) (s : State) :
    SetForBanks s ((recordAtomic sub d a b c ch lat n mt o s).after 6 (.bankAccess s.opCount)) (atomicOp sub d a b c ch n mt o s) ∧
      ∀ r, d = some r → awaited s (recordAtomic sub d a b c ch lat n mt o s) r lat (.scalar r.toNat 0) := by
  cases d with
  | none => exact ⟨toBanks_setForBanks ⟨rfl, rfl, rfl, rfl⟩, nofun⟩
  | some r =>
    have hload := issueLoad_setForBanks (s := s) (d := r) (lat := lat) (res := .scalar r.toNat 0)
      (o := atomicOp sub (some r) a b c ch n mt o s) ⟨rfl, rfl, rfl, rfl⟩ (.inl rfl)
    exact ⟨hload.1, by rintro _ ⟨rfl⟩; exact hload.2⟩

/-- What is awaited behind the count of a channel is awaited from the start. -/
theorem awaited_of_counted {s v u : State} {ch n lat : Nat} {d : BitVec 6} {res : Result} (hv : CountedOn s v ch n) (ho : OperandsOf s v)
    (h : awaited v u d lat res) : awaited s u d lat res := by
  unfold awaited at h ⊢
  rw [hv.cur, hv.opCount] at h
  split at h
  next t _ =>
    obtain ⟨hpend, hissuing⟩ := ho.results t
    rw [h, addPending_pend, addPending_pend, hpend, hissuing]
  · exact h

theorem awaited_toPipeline {s u : State} {d : BitVec 6} {lat id : Nat} {res : Result} {far : Bool} (h : awaited s u d lat res) :
    awaited s (toPipeline id far u) d lat res := by
  cases far <;> exact h

theorem atomic_eq (sub : Nat) (d : Option (BitVec 6)) (a b c : BitVec 6) (oc scope : BitVec 3) (s : State) :
    atomic sub d a b c oc scope s = atomicCheck (readS s a) scope.toNat s fun mt o => tagOp (chanOfP oc) s fun n v => finish
      (toPipeline v.opCount (isFar v mt) (recordAtomic sub d a b c (chanOfP oc) (amoLatency scope.toNat) n mt o v)) := by
  cases d <;> rfl

theorem atomic_begins {s : State} {sub mt o : Nat} {d : Option (BitVec 6)} {a b c : BitVec 6} {oc scope : BitVec 3}
    (htarget : atomicTarget s (readS s a) = some (mt, o)) (hal : o % 4 = 0)
    (hscope : inScope s scope.toNat mt = true) (hserves : isFar s mt = true ∨ atomicServes s mt o = true)
    (hch : channelFree s (chanOfP oc)) :
    ∃ u p, atomic sub d a b c oc scope s = .next u ∧ begun s u p ∧
      p.kind = .atomic sub ((readS s b).setWidth 32) ((readS s c).setWidth 32) d.isSome ∧ p.mtile = mt ∧ p.addr = o ∧ p.chan = chanOfP oc ∧
      p.dst = d.map BitVec.toNat ∧ (∀ r, d = some r → awaited s u r (amoLatency scope.toNat) (.scalar r.toNat 0)) ∧
      (chanOfP oc ≠ 0 → p.seqn = (chanOf s s.cur.unit (chanOfP oc - 1)).issued + 1) ∧
      (isFar s mt = false → u.agenda = s.agenda ++ [(s.pcyc + 6, .atomicPipelineTake s.opCount)]) ∧
      (isFar s mt = true → ∃ n, s.pcyc < n ∧ u.agenda = s.agenda ++ [(n, .atomicPipelineTake s.opCount)]) ∧ keepsMemory s u ∧ goesOn s u := by
  obtain ⟨n, v, htag, hv, hops⟩ := tagOp_counted hch fun n v => finish
    (toPipeline v.opCount (isFar v mt) (recordAtomic sub d a b c (chanOfP oc) (amoLatency scope.toNat) n mt o v))
  have hexec := (((atomic_eq sub d a b c oc scope s).trans (atomicCheck_good htarget hal hscope hserves _)).trans htag).trans (finish_eq _)
  obtain ⟨hset, hawaits⟩ := recordAtomic_recorded sub d a b c (chanOfP oc) (amoLatency scope.toNat) n mt o v
  generalize recordAtomic sub d a b c (chanOfP oc) (amoLatency scope.toNat) n mt o v = w at hexec hset hawaits
  rw [hv.opCount] at hset
  obtain ⟨hbegun, hagenda, hclock, hmem, hgoes⟩ := recorded_of_setForBanks (.of_counted hv hset)
  rw [isFar_congr hv.cur, hv.opCount] at hexec
  have hkind : (atomicOp sub d a b c (chanOfP oc) n mt o v).kind = .atomic sub ((readS s b).setWidth 32) ((readS s c).setWidth 32) d.isSome := by
    rw [← hops.scalars, ← hops.scalars]; rfl
  have hwaits : ∀ r, d = some r → awaited s (done (toPipeline s.opCount (isFar s mt) w)) r (amoLatency scope.toNat) (.scalar r.toNat 0) :=
    fun r hr => awaited_done (awaited_toPipeline (awaited_of_counted hv hops (hawaits r hr)))
  cases hfar : isFar s mt <;> rw [hfar] at hexec hwaits
  · have hdone : done (toPipeline s.opCount false w) = (done w).after 6 (.atomicPipelineTake s.opCount) := done_after ..
    refine ⟨_, _, hexec, ?_, hkind, rfl, rfl, rfl, rfl, hwaits, fun h => (hv.number h).1, fun _ => ?_, nofun, ?_⟩
    all_goals rw [hdone]
    · exact hbegun
    · rw [State.after_agenda, hagenda, hclock]
    · exact ⟨hmem, hgoes⟩
  · have hdone : done (toPipeline s.opCount true w) = (done w).later (.atomicPipelineTake s.opCount) := done_later ..
    refine ⟨_, _, hexec, ?_, hkind, rfl, rfl, rfl, rfl, hwaits, fun h => (hv.number h).1, nofun, fun _ => ?_, ?_⟩
    all_goals rw [hdone]
    · exact hbegun
    · exact ⟨s.pcyc + 1 + Config.freeDelay (done w).freeCount, by omega, by rw [State.later_agenda, hagenda, hclock]⟩
    · exact ⟨hmem, hgoes⟩

/-- Settles O31: every row is `atomic` with its SUB and its operands. -/
theorem atomicsBegin : Obligations.AtomicsBegin := by
  intro d a b c oc scope s mt o ch lat htarget hal hscope hserves hch begins zeroReg
  have row {i : Instr} {sub : Nat} {c : BitVec 6} {dst : Option (BitVec 6)} (hi : exec i s = atomic sub dst a b c oc scope s) :
      begins i sub ((readS s c).setWidth 32) dst := by
    obtain ⟨u, p, hu, h⟩ := atomic_begins (sub := sub) (d := dst) (b := b) (c := c) htarget hal hscope hserves hch
    exact ⟨u, p, hi.trans hu, h⟩
  exact ⟨row rfl, row rfl, row rfl, row rfl, row rfl, row rfl, row rfl, row rfl, row rfl, row rfl, row rfl, row rfl, row rfl, row rfl, row rfl,
    row rfl, row rfl, row rfl, row rfl, row rfl⟩

end Sys2Proof.Machine
end

/-! # Atomics at their bank

What the atomic pipeline of a memory tile does to a word, and how the old word comes back (R230, R233, R234, R443, R444). -/
section
open Sys2Proof Sys2Proof.Machine Sys2Proof.Claims
namespace Sys2Proof.Machine

/-! ## The functions of R233 -/

section functions
variable (w b : BitVec 32)

theorem add32_eq_ofInt : w + b = BitVec.ofInt 32 (w.toInt + b.toInt) := by
  rw [BitVec.ofInt_add, BitVec.ofInt_toInt, BitVec.ofInt_toInt]

theorem min32_eq_ofInt : (if w.toInt ≤ b.toInt then w else b) = BitVec.ofInt 32 (min w.toInt b.toInt) := by
  rw [min_def, apply_ite (BitVec.ofInt 32), BitVec.ofInt_toInt, BitVec.ofInt_toInt]

theorem max32_eq_ofInt : (if w.toInt ≤ b.toInt then b else w) = BitVec.ofInt 32 (max w.toInt b.toInt) := by
  rw [max_def, apply_ite (BitVec.ofInt 32), BitVec.ofInt_toInt, BitVec.ofInt_toInt]

theorem minu32_eq_ofNat : (if w.toNat ≤ b.toNat then w else b) = BitVec.ofNat 32 (min w.toNat b.toNat) := by
  simp only [min_def, apply_ite (BitVec.ofNat 32), BitVec.ofNat_toNat, BitVec.setWidth_eq]

theorem maxu32_eq_ofNat : (if w.toNat ≤ b.toNat then b else w) = BitVec.ofNat 32 (max w.toNat b.toNat) := by
  simp only [max_def, apply_ite (BitVec.ofNat 32), BitVec.ofNat_toNat, BitVec.setWidth_eq]

theorem atomicNew_eq_atomicResult (sub : Nat) (c : BitVec 32) : atomicNew sub w b c = atomicResult sub w b c := by
  unfold atomicNew
  split
  case h_1 => exact add32_eq_ofInt w b
  case h_2 => exact min32_eq_ofInt w b
  case h_3 => exact max32_eq_ofInt w b
  case h_4 | h_5 | h_6 | h_7 | h_8 | h_9 => rfl
  case h_10 => exact minu32_eq_ofNat w b
  case h_11 =>
    have hlast : atomicResult sub w b c = BitVec.ofNat 32 (max w.toNat b.toNat) := by simp_all [atomicResult]
    exact (maxu32_eq_ofNat w b).trans hlast.symm

end functions

theorem atomicOld_eq_oldWord (sub : Nat) (w : BitVec 32) : atomicOld sub w = oldWord sub w := by
  simp only [atomicOld, oldWord, BitVec.ofNat_toNat]
  rfl

/-- A scalar in an access's place for its value comes out as it went in. -/
theorem setWidth_wordVec (w : Word) : (wordVec w).setWidth 64 = w := (BitVec.ofNat_toNat 64 _).symm.trans (ofNat_toNat_wordVec w)

/-! ## The update of a word (R233) -/

/-- The word at an offset of a memory tile becomes `v`, and nothing else in memory changes. -/
structure WordUpdated (s u : State) (mt o : Nat) (v : BitVec 32) : Prop where
  word : word32 u mt o = v
  others : changesWord s u mt o
  present : u.present = s.present
  mem : u.mem = s.mem

theorem WordUpdated.of_memories {s u w : State} {mt o : Nat} {v : BitVec 32} (h : WordUpdated s w mt o v) (hm : u.memories = w.memories) :
    WordUpdated s u mt o v := by
  obtain ⟨hmem, -, hnear, hpresent⟩ := keepsMemory_of_memories hm
  refine ⟨?_, fun b hb => ?_, hpresent.trans h.present, hmem.trans h.mem⟩
  · rw [word32, hnear]; exact h.word
  · rw [hnear]; exact h.others b hb

/-- An update returns the old word, and stores the function of R233 on it. -/
theorem atomicUpdate_updates (s : State) (bs : List Nat) (sub : Nat) (b c : BitVec 32) (mt o : Nat) :
    ∃ u, atomicUpdate sub b c mt o (useBanks mt bs s) = (u, word32 s mt o) ∧
      WordUpdated s u mt o (atomicResult sub (word32 s mt o) b c) ∧ u.links = s.links ∧ u.rank = s.rank ∧ u.pcyc = s.pcyc := by
  refine ⟨_, rfl, ⟨?_, fun k hk => readByte_writeLE_outside s.near _ _ _ k hk, rfl, rfl⟩, rfl, rfl, rfl⟩
  have hread := readLE_writeLE s.near (nearKey mt o) 4 (atomicNew sub (word32 s mt o) b c).toNat
  rw [← atomicNew_eq_atomicResult]
  refine (congrArg (BitVec.ofNat 32) hread).trans ?_
  rw [show 256 ^ 4 = 2 ^ 32 from rfl, Nat.mod_eq_of_lt (BitVec.isLt _), BitVec.ofNat_toNat, BitVec.setWidth_eq]

/-! ## The atomic pipeline (R230, R234) -/

@[simp] theorem orderDone_memories (u : UnitId) (c n : Nat) (s : State) : (orderDone u c n s).memories = s.memories := by
  unfold orderDone; split <;> rfl
@[simp] theorem orderDone_read_seq (u : UnitId) (c n : Nat) (s : State) (m : Nat) : (orderDone u c n s).seq m = s.seq m := by
  unfold orderDone; split <;> rfl

/-- The access behind its answer. -/
theorem answer_find (id : Nat) (o : Op) (v : Vec) (ready : Nat) (s : State) : mfind (answer id o v ready s).ops id =
    some { o with got := v, left := [], served := true, usable := ready + o.slow } := by
  unfold answer
  dsimp only
  (repeat' split) <;> exact mfind_mset_self _ _ _

/-- An atomic in the input channel of its memory tile: it has entered the pipeline in its first cycle there. -/
def Op.enter (o : Op) (now : Nat) : Op := { o with entered := some (o.entered.getD now) }

/-- An atomic that its memory tile has performed, with its old word. -/
def Op.performed (o : Op) (sub : Nat) (w : BitVec 32) : Op := { o with chan := 0, left := [], got := wordVec (atomicOld sub w) }

/-- ATOMIC_PIPELINE_TAKE of an atomic that is still to be performed: it is refused, waits, or is performed (R230, R234). -/
theorem atomicPipelineTake_eq {s : State} {id : Nat} {o : Op} (ho : mfind s.ops id = some o) {sub : Nat} {b c : BitVec 32} {answers : Bool}
    (hk : o.kind = .atomic sub b c answers) (hr : o.refused = false) (hl : o.left ≠ []) : exec (.atomicPipelineTake id) s =
      if o.far && !atomicServes s o.mtile o.addr then
        .next ((setOp id { o.enter s.pcyc with left := [], refused := true } s).later (.farAtomicReply id))
      else if (busyBanks s o.mtile).contains (bankOf o.addr) || channelStalled s id (o.enter s.pcyc) then
        .next ((setOp id (o.enter s.pcyc) s).after 1 (.atomicPipelineTake id))
      else
        let r := atomicUpdate sub b c o.mtile o.addr (useBanks o.mtile [bankOf o.addr] s)
        let u := orderDone o.cur.unit o.chan o.seqn r.1
        let p := (o.enter s.pcyc).performed sub r.2
        if !answers then .next (u.dropOp id)
        else if o.far then .next ((setOp id p u).later (.farAtomicReply id))
        else .next (answer id p p.got (u.pcyc + 14) u) := by
  change execAtomicPipelineTake id s = _
  have hleft : (o.refused || o.left.isEmpty) = false := by simp [hr, hl]
  rw [execAtomicPipelineTake, opAt, ho]
  cases o
  cases hk
  exact if_neg (Bool.eq_false_iff.1 hleft)

section pipeline
variable {s : State} {id : Nat} {o : Op} (ho : mfind s.ops id = some o) {sub : Nat} {b c : BitVec 32} {answers : Bool}
  (hk : o.kind = .atomic sub b c answers) (hr : o.refused = false) (hl : o.left ≠ [])
include ho hk hr hl

/-- A far target that no atomic may act on refuses it (R230). -/
theorem atomicPipelineTake_refuses (hfar : o.far = true) (hserves : atomicServes s o.mtile o.addr = false) :
    exec (.atomicPipelineTake id) s = .next ((setOp id { o.enter s.pcyc with left := [], refused := true } s).later (.farAtomicReply id)) := by
  rw [atomicPipelineTake_eq ho hk hr hl, hfar, hserves]
  rfl

/-- An atomic whose bank is free, with no earlier one in its channel, is performed (R234). -/
theorem atomicPipelineTake_performs (hfree : o.addr / 8 % 256 ∉ busyBanks s o.mtile) (hserves : atomicServes s o.mtile o.addr = true)
    (hstall : channelStalled s id (o.enter s.pcyc) = false) :
    ∃ w, WordUpdated s w o.mtile o.addr (atomicResult sub (word32 s o.mtile o.addr) b c) ∧
      exec (.atomicPipelineTake id) s =
        let p := (o.enter s.pcyc).performed sub (word32 s o.mtile o.addr)
        if !answers then .next (w.dropOp id)
        else if o.far then .next ((setOp id p w).later (.farAtomicReply id))
        else .next (answer id p p.got (s.pcyc + 14) w) := by
  have hbank : (busyBanks s o.mtile).contains (bankOf o.addr) = false := by simpa [bankOf] using hfree
  obtain ⟨u, hupdate, hword, -, -, hclock⟩ := atomicUpdate_updates s [bankOf o.addr] sub b c o.mtile o.addr
  refine ⟨orderDone o.cur.unit o.chan o.seqn u, hword.of_memories (orderDone_memories ..), ?_⟩
  rw [atomicPipelineTake_eq ho hk hr hl]
  simp only [hserves, hbank, hstall, hupdate, hclock, orderDone_pcyc, Bool.not_true, Bool.and_false, Bool.or_self, Bool.false_eq_true, if_false]

end pipeline

/-! ## Replies (R234, R444) -/

/-- The reply of an atomic for which a register of a control unit waits writes that register. -/
theorem answer_waiting {s : State} {id n r ready : Nat} {o : Op} (v : Vec) (hn : o.cur.unit = .seq n) (hdst : o.dst = some r) (h0 : r ≠ 0)
    (hw : (r, id) ∈ (s.seq n).waits) : regOf ((answer id o v ready s).seq n).s r = v.setWidth 64 ∧
      (r, id) ∉ ((answer id o v ready s).seq n).waits ∧ keepsMemory s (answer id o v ready s) := by
  refine ⟨?_, ?_, keepsMemory_of_memories answer_memories⟩ <;>
    obtain ⟨w, hanswer, -, -⟩ := answer_seq (ready := ready) v hn hdst hw
  · rw [hanswer, State.updSeq_seq_self, ← BitVec.ofNat_toNat]
    exact regOf_setRegOf_self _ _ h0
  · rw [hanswer, State.updSeq_seq_self]
    simp [Seq.write]

section reply
variable {s : State} {id : Nat} {o : Op} (ho : mfind s.ops id = some o)
include ho

theorem farAtomicReply_refused (hr : o.refused = true) :
    exec (.farAtomicReply id) s = .next (completionFault id 0x21 (BitVec.ofNat 64 o.va) s) := by
  change execFarAtomicReply id s = _
  simp only [execFarAtomicReply, opAt, ho, hr, if_true]

theorem ramoReply_refused (hr : o.refused = true) :
    exec (.ramoReply id) s = .next (completionFault id 0x21 (BitVec.ofNat 64 o.va) s) := by
  change execRamoReply id s = _
  simp only [execRamoReply, opAt, ho, hr, if_true]

theorem farAtomicReply_answers (hr : o.refused = false) : exec (.farAtomicReply id) s = .next (answer id o o.got s.pcyc s) := by
  change execFarAtomicReply id s = _
  simp only [execFarAtomicReply, opAt, ho, hr, Bool.false_eq_true, if_false]

theorem ramoReply_answers (hr : o.refused = false) : exec (.ramoReply id) s =
    .next (answer id { o with chan := 0 } o.got s.pcyc (orderDone o.cur.unit o.chan o.seqn s)) := by
  change execRamoReply id s = _
  rw [execRamoReply, opAt, ho]
  exact if_neg (Bool.eq_false_iff.1 hr)

end reply

/-! ## Invocations of `ramo` (R443, R444) -/

/-- The item with which a package replies to an invocation. -/
def replyItem (s : State) (i : DynItem) (v : Word) : DynItem := { cls := 2, ctx := i.ctx, rank := s.rank, itag := i.itag, a := v }

/-- The oldest invocation of a link is performed, and the old word leaves on the link. -/
theorem ramoInvocationArrival_link {s : State} {l mt : Nat} {i : DynItem} {rest : List DynItem} (hl : l < 16)
    (hin : (s.link l).itemsIn = i :: rest) (htile : remoteTile i.a = some mt) (hserves : remoteServes s i.ctx mt (i.a.toNat % 2 ^ 21) = true)
    (hwait : invocationWaits s mt (i.a.toNat % 2 ^ 21) (i.entered.getD s.pcyc) = false) :
    ∃ w, WordUpdated s w mt (i.a.toNat % 2 ^ 21) (atomicResult i.sub (word32 s mt (i.a.toNat % 2 ^ 21)) i.b i.c) ∧
      exec (.ramoInvocationArrival l) s = .next (w.setLink l { s.link l with
        itemsIn := rest, itemsOut := (s.link l).itemsOut ++ [replyItem s i ((word32 s mt (i.a.toNat % 2 ^ 21)).setWidth 64)] }) := by
  obtain ⟨w, hupdate, hword, hlinks, hrank, -⟩ := atomicUpdate_updates s [bankOf (i.a.toNat % 2 ^ 21)] i.sub i.b i.c mt (i.a.toNat % 2 ^ 21)
  have hlink : w.link l = s.link l := by rw [State.link, hlinks, State.link]
  refine ⟨w, hword, ?_⟩
  change execRamoInvocationArrival l s = _
  have hown : ¬ l = ownLink := by simp only [ownLink]; omega
  simp only [execRamoInvocationArrival, if_neg hown, hin, htile, Option.getD_some, Option.isNone_some, hserves, hwait, hupdate, hlink, hrank,
    Bool.not_true, Bool.or_self, Bool.false_eq_true, if_false]
  rfl

/-- The package's own invocation is performed, and its old word stays with the access until its reply. -/
theorem ramoInvocationArrival_own {s : State} {id : Nat} {o : Op} {sub r : Nat} {b c : BitVec 32} (hops : s.ops = [(id, o)])
    (hk : o.kind = .remote sub b c r 16) (hl : o.left ≠ []) (hserves : remoteServes s o.ctx o.mtile o.addr = true)
    (hwait : invocationWaits s o.mtile o.addr (o.entered.getD s.pcyc) = false) :
    ∃ w, WordUpdated s w o.mtile o.addr (atomicResult sub (word32 s o.mtile o.addr) b c) ∧
      exec (.ramoInvocationArrival 16) s = .next ((setOp id { o with got := wordVec (atomicOld sub (word32 s o.mtile o.addr)), left := [] } w).later
        (.ramoReply id)) := by
  obtain ⟨w, hupdate, hword, -⟩ := atomicUpdate_updates s [bankOf o.addr] sub b c o.mtile o.addr
  have hfind : (s.ops.find? fun e => e.2.invoked) = some (id, o) := by simp [hops, Op.invoked, hk, hl, ownLink]
  refine ⟨w, hword, ?_⟩
  change execRamoInvocationArrival ownLink s = _
  rw [execRamoInvocationArrival, if_pos rfl, hfind]
  cases o
  cases hk
  simp only [hserves, hwait, hupdate, Bool.not_true, Bool.false_eq_true, if_false]

/-- Settles O33: an update is the function of R233 on its word (`atomicUpdate_updates`), in whichever way it comes to the bank. -/
theorem atomicsPerformed : Obligations.AtomicsPerformed := by
  intro s id o ho free old updates
  have updated {u : State} {sub : Nat} {b c : BitVec 32} (h : WordUpdated s u o.mtile o.addr (atomicResult sub old b c)) : updates u sub b c :=
    ⟨h.word, h.others, h.present, h.mem⟩
  refine ⟨?performs, ?refuses, ?replies, ?refused, ?link, ?own⟩
  case performs =>
    intro sub b c answers _ hk hr hl hfree hserves hstall
    obtain ⟨w, hword, hexec⟩ := atomicPipelineTake_performs ho hk hr hl hfree hserves hstall
    cases answers with
    | false => exact ⟨_, hexec, updated (hword.of_memories rfl), fun _ => mfind_mdel_self _ _, nofun⟩
    | true =>
      have hgot : ((o.enter s.pcyc).performed sub old).got.setWidth 64 = oldWord sub old :=
        (setWidth_wordVec _).trans (atomicOld_eq_oldWord sub old)
      cases hfar : o.far with
      | false =>
        rw [hfar] at hexec
        exact ⟨_, hexec, updated (hword.of_memories answer_memories), nofun,
          fun _ => ⟨_, answer_find .., hgot, rfl, fun _ => ⟨rfl, rfl⟩, nofun⟩⟩
      | true =>
        rw [hfar] at hexec
        exact ⟨_, hexec, updated (hword.of_memories rfl), nofun, fun _ => ⟨_, mfind_mset_self _ _ _, hgot, rfl, nofun, fun _ => rfl⟩⟩
  case refuses =>
    intro sub b c answers hk hr hl hfar hserves
    exact ⟨_, atomicPipelineTake_refuses ho hk hr hl hfar hserves, keepsMemory_of_memories rfl, _, mfind_mset_self _ _ _, rfl⟩
  case replies =>
    intro n d hr hn hdst hd hw
    have hw' : (d, id) ∈ ((orderDone o.cur.unit o.chan o.seqn s).seq n).waits := by rwa [orderDone_read_seq]
    refine ⟨⟨_, farAtomicReply_answers ho hr, answer_waiting o.got hn hdst hd hw⟩, _, ramoReply_answers ho hr, ?_⟩
    obtain ⟨hreg, hwaits, hmem⟩ := answer_waiting (o := { o with chan := 0 }) (ready := s.pcyc) o.got hn hdst hd hw'
    exact ⟨hreg, hwaits, keepsMemory_of_memories (answer_memories.trans (orderDone_memories ..))⟩
  case refused => exact fun hr => ⟨farAtomicReply_refused ho hr, ramoReply_refused ho hr⟩
  case link =>
    intro l i rest hl hin _ htile haddr hserves hwait
    rw [haddr] at hserves hwait
    obtain ⟨w, hword, hexec⟩ := ramoInvocationArrival_link hl hin htile hserves hwait
    rw [← haddr] at hword hexec
    refine ⟨_, hexec, updated (hword.of_memories rfl), ?_, ?_⟩ <;> rw [State.setLink_link_self]
    rw [replyItem, ← BitVec.ofNat_toNat]
  case own =>
    intro sub b c r _ hops hk hl hserves hwait
    obtain ⟨w, hword, hexec⟩ := ramoInvocationArrival_own hops hk hl hserves hwait
    exact ⟨_, hexec, updated (hword.of_memories rfl), _, mfind_mset_self _ _ _, (setWidth_wordVec _).trans (atomicOld_eq_oldWord sub old), rfl⟩

end Sys2Proof.Machine
end

/-! # Instructions of the control network

How signals and control tokens leave a control port, and how a control unit waits at one (R213, R219 to R221, R227, R229, R236, R364). -/
section
open Sys2Proof Sys2Proof.Machine Sys2Proof.Claims
namespace Sys2Proof.Machine

/-! ## A unit that goes on -/

/-- A change after which the issuing unit goes on as before: it stands at its instruction with its loops and registers. -/
structure StaysAt (s u : State) : Prop where
  cur : u.cur = s.cur
  clock : u.pcyc = s.pcyc
  memories : u.memories = s.memories
  seqs : ∀ n, (u.seq n).pc = (s.seq n).pc ∧ (u.seq n).loops = (s.seq n).loops ∧ (u.seq n).s = (s.seq n).s

namespace StaysAt

theorem of_seqs {s u : State} (hcur : u.cur = s.cur) (hclock : u.pcyc = s.pcyc) (hmem : u.memories = s.memories) (hseqs : u.seqs = s.seqs) :
    StaysAt s u :=
  ⟨hcur, hclock, hmem, fun n => by rw [State.seq, hseqs]; exact ⟨rfl, rfl, rfl⟩⟩

theorem trans {s v u : State} (h : StaysAt s v) (h' : StaysAt v u) : StaysAt s u where
  cur := h'.cur.trans h.cur
  clock := h'.clock.trans h.clock
  memories := h'.memories.trans h.memories
  seqs n := by
    obtain ⟨hpc, hloops, hs⟩ := h.seqs n
    obtain ⟨hpc', hloops', hs'⟩ := h'.seqs n
    exact ⟨hpc'.trans hpc, hloops'.trans hloops, hs'.trans hs⟩

/-- A change of a control unit in what does not tell where it goes on. -/
theorem updSeq (s : State) (n : Nat) (f : Seq → Seq)
    (h : (f (s.seq n)).pc = (s.seq n).pc ∧ (f (s.seq n)).loops = (s.seq n).loops ∧ (f (s.seq n)).s = (s.seq n).s) : StaysAt s (s.updSeq n f) where
  cur := rfl
  clock := rfl
  memories := rfl
  seqs m := by
    by_cases hm : m = n
    · rw [hm, State.updSeq_seq_self]; exact h
    · rw [State.updSeq_seq_of_ne _ _ hm]; exact ⟨rfl, rfl, rfl⟩

/-- The unit goes on behind its instruction, and no memory has changed. -/
theorem goesOn {s u : State} (h : StaysAt s u) : keepsMemory s (done u) ∧ Claims.goesOn s (done u) := by
  refine ⟨keepsMemory_of_memories ((done_memories u).trans h.memories), fun n hn => ?_⟩
  obtain ⟨hpc, hloops, hs⟩ := h.seqs n
  rw [done_seq ((congrArg Cur.unit h.cur).trans hn), State.updSeq_seq_self, h.clock, Seq.advance_s, Seq.advance_ready]
  exact ⟨Seq.advance_pc_congr hpc hloops _, hs, rfl⟩

end StaysAt

theorem setCx_staysAt (v : UnitId) (p : Nat) (x : CtrlPort) (s : State) : StaysAt s (setCx v p x s) := by
  cases v with
  | tile t => exact .of_seqs rfl rfl rfl rfl
  | seq n => exact .updSeq s n (fun q => { q with cx := mset q.cx p x }) ⟨rfl, rfl, rfl⟩

theorem setChan_staysAt (v : UnitId) (c : Nat) (x : OrdChan) (s : State) : StaysAt s (setChan v c x s) := by
  cases v with
  | tile t => exact .of_seqs rfl rfl rfl rfl
  | seq n => exact .updSeq s n (fun q => { q with oc := mset q.oc c x }) ⟨rfl, rfl, rfl⟩

theorem setJoin_graphsOnly (c g j : Nat) (x : Join) (s : State) : GraphsOnly s (setJoin c g j x s) := by
  unfold setJoin
  split <;> rfl

theorem setJoin_staysAt (c g j : Nat) (x : Join) (s : State) : StaysAt s (setJoin c g j x s) := by
  rw [setJoin_graphsOnly c g j x s]
  exact .of_seqs rfl rfl rfl rfl

@[simp] theorem setJoin_agenda (c g j : Nat) (x : Join) (s : State) : (setJoin c g j x s).agenda = s.agenda := by
  rw [setJoin_graphsOnly c g j x s]

@[simp] theorem setChan_agenda (v : UnitId) (c : Nat) (x : OrdChan) (s : State) : (setChan v c x s).agenda = s.agenda := by cases v <;> rfl

@[simp] theorem setJoin_read_seq (c g j : Nat) (x : Join) (s : State) (n : Nat) : (setJoin c g j x s).seq n = s.seq n := by
  rw [setJoin_graphsOnly c g j x s]
  rfl

theorem setCx_unitCx_self (v : UnitId) (p : Nat) (x : CtrlPort) (s : State) : unitCx (setCx v p x s) v = mset (unitCx s v) p x := by
  cases v <;> simp [setCx, unitCx]

theorem setChan_chanOf_self (v : UnitId) (c : Nat) (x : OrdChan) (s : State) : chanOf (setChan v c x s) v c = x := by
  cases v <;> simp [setChan, chanOf]

@[simp] theorem done_arcs (s : State) : (done s).arcs = s.arcs := by unfold done; split <;> rfl

theorem done_tile {s : State} {t : Nat} (h : s.cur.unit = .tile t) : done s = s := by simp [done, h]

/-! ## Signals and control tokens (R213, R219) -/

section sendSignal
variable {s : State} {u : UnitId} {p colour : Nat}

/-- A signal for a join departs (R213). -/
theorem sendSignal_join {g j m : Nat} (h : (mget {} (unitCx s u) p).link = .join g j m) :
    ∃ v, StaysAt s v ∧ v.agenda = s.agenda ∧ sendSignal u p colour s =
      v.after (routeTime u.pos (joinAt s (unitCtx s u) g j).elem + 1) (.joinSignalArrival (unitCtx s u) g j m) := by
  let x := joinAt s (unitCtx s u) g j
  refine ⟨setJoin (unitCtx s u) g j { x with sent := bump x.sent m (· + 1) } s, setJoin_staysAt .., setJoin_agenda .., ?_⟩
  simp only [sendSignal, h]
  rfl

section token
variable {tag : Nat} (h : (mget {} (unitCx s u) p).link = .prod tag)
include h

/-- A control token departs to a port of this package. -/
theorem sendSignal_token {x : Arc} (hx : s.arc? (State.arcKey (unitCtx s u) tag) = some x) (hd : ∀ r, x.dst ≠ .remote r) :
    sendSignal u p colour s = (s.setArc (State.arcKey (unitCtx s u) tag) { x with
        sent := x.sent + 1, transit := x.transit ++ [{ kind := .ctrl, tag := tag, colour := colour }] }).after
      (routeTime u.pos (x.dst.pos.getD 0) + 1) (.controlTokenArrival (unitCtx s u) tag) := by
  simp only [sendSignal, h, hx]

/-- A control token for another package takes its slot on a link (R433). -/
theorem sendSignal_remote {x : Arc} {r : _} (hx : s.arc? (State.arcKey (unitCtx s u) tag) = some x) (hd : x.dst = .remote r) :
    sendSignal u p colour s = sendToken (State.arcKey (unitCtx s u) tag) { kind := .ctrl, tag := tag, colour := colour } s := by
  simp only [sendSignal, h, hx, hd]

theorem sendSignal_noArc (hx : s.arc? (State.arcKey (unitCtx s u) tag) = none) : sendSignal u p colour s = s := by
  simp only [sendSignal, h, hx]

end token

theorem sendSignal_unbound (h : canSignal (mget {} (unitCx s u) p).link = false) : sendSignal u p colour s = s := by
  unfold sendSignal
  split
  next hl => rw [hl] at h; cases h
  next hl => rw [hl] at h; cases h
  · rfl

end sendSignal

/-! ## The kind of a port (R219) -/

section checkPort
variable {s : State} {r : StepResult}

theorem checkPort_good (s : State) (r : StepResult) : checkPort true s r = r := by unfold checkPort; split <;> rfl

theorem checkPort_tile {t : Nat} (h : s.cur.unit = .tile t) (ok : Bool) (r : StepResult) : checkPort ok s r = r := by simp only [checkPort, h]

theorem checkPort_bad {n : Nat} (h : s.cur.unit = .seq n) (r : StepResult) : checkPort false s r = .next (ownFault n 0x01 5 s) := by
  simp only [checkPort, h, Bool.false_eq_true, if_false]

end checkPort

/-! ## Waits of a control unit (R102, R220, R236) -/

@[simp] theorem Seq.advance_cx (q : Seq) (now : Nat) : (q.advance now).cx = q.cx := by unfold Seq.advance; dsimp only; split <;> rfl

theorem done_seq_cx (s : State) (n : Nat) : ((done s).seq n).cx = (s.seq n).cx := by
  unfold done
  split
  · rfl
  next m _ =>
    by_cases h : n = m
    · rw [h, State.updSeq_seq_self, Seq.advance_cx]
    · rw [State.updSeq_seq_of_ne _ _ h]

theorem take_total {x : CtrlPort} (h : 0 < x.held) : x.take.held + x.take.waiting + 1 = x.held + x.waiting := by
  unfold CtrlPort.take
  split <;> (dsimp only; omega)

theorem fenceHolds_iff {s : State} {n k : Nat} : fenceHolds s n k = true ↔ ∃ e, e ∈ s.ops ∧ e.2.cur.unit = .seq n ∧ inReach s n k e.2 = true := by
  simp [fenceHolds, openOps]

/-- A unit that has issued a `fence` stays while an access in its reach is not complete (R236). -/
theorem step_of_fence {s : State} {n k : Nat} {rest : List Task} (htodo : s.todo = .seq n :: rest) (hrun : (s.seq n).run = .fence k)
    (ht : (s.seq n).trap = true ∨ ((s.seq n).refused = [] ∧ (s.seq n).queue = [])) (hk : fenceHolds s n k = true) :
    step s = .next { s with todo := rest } := by
  rw [step_of_todo htodo]
  change seqTask n { s with todo := rest } = _
  have hrun' : (State.seq { s with todo := rest } n).run = .fence k := hrun
  have hk' : fenceHolds { s with todo := rest } n k = true := hk
  have ht' := no_trapEntry (s := { s with todo := rest }) ht
  simp only [seqTask, ht', hrun', hk', Bool.true_or, Bool.false_eq_true, if_false, if_true, ite_self]

section seq
variable {s : State} {n : Nat} (hn : s.cur.unit = .seq n) {d a : BitVec 6}
include hn

theorem curLink_seq (p : Nat) : curLink s p = (mget {} (s.seq n).cx p).link := by simp only [curLink, unitCx, hn]

/-- A release or a token in the window of a port is taken (R220). -/
theorem execCwait_takes (hw : canWait (mget {} (s.seq n).cx a.toNat).link = true) (hh : 0 < (mget {} (s.seq n).cx a.toNat).held) :
    ∃ v, StaysAt s v ∧ (v.seq n).cx = mset (s.seq n).cx a.toNat (mget {} (s.seq n).cx a.toNat).take ∧ execCwait a s = .next (done v) := by
  have hset := setCx_staysAt (.seq n) a.toNat (mget {} (s.seq n).cx a.toNat).take s
  have hcx := setCx_unitCx_self (.seq n) a.toNat (mget {} (s.seq n).cx a.toNat).take s
  simp only [execCwait, onSeq_seq s hn, curLink_seq hn, hw, checkPort_good, if_neg (Nat.pos_iff_ne_zero.1 hh)]
  split
  · exact ⟨_, hset.trans (setJoin_staysAt ..), (congrArg Seq.cx (setJoin_read_seq ..)).trans hcx, finish_eq _⟩
  · exact ⟨_, hset, hcx, finish_eq _⟩

theorem execCwait_waits (hw : canWait (mget {} (s.seq n).cx a.toNat).link = true) (hh : (mget {} (s.seq n).cx a.toNat).held = 0) :
    execCwait a s = .next (s.updSeq n fun q => { q with run := .cwait a.toNat, ready := s.pcyc + 1 }) := by
  simp only [execCwait, onSeq_seq s hn, curLink_seq hn, hw, checkPort_good, hh, if_true]

theorem execCtest_counts (hw : canWait (mget {} (s.seq n).cx a.toNat).link = true) :
    execCtest d a s = .next (scalarDone 1 d (BitVec.ofNat 64 (min 255 (mget {} (s.seq n).cx a.toNat).held)) s) := by
  simp only [execCtest, onSeq_seq s hn, curLink_seq hn, hw, checkPort_good, finishScalar_eq]

/-- A port of the wrong kind raises ILLEGAL with check 5 (R219). -/
theorem execCwait_illegal (hw : canWait (mget {} (s.seq n).cx a.toNat).link = false) : execCwait a s = .next (ownFault n 0x01 5 s) := by
  simp only [execCwait, onSeq_seq s hn, curLink_seq hn, hw, checkPort_bad hn]

theorem execCtest_illegal (hw : canWait (mget {} (s.seq n).cx a.toNat).link = false) : execCtest d a s = .next (ownFault n 0x01 5 s) := by
  simp only [execCtest, onSeq_seq s hn, curLink_seq hn, hw, checkPort_bad hn]

theorem execFence_eq (scope : BitVec 3) : execFence scope s = .next (s.updSeq n fun q =>
    { q.advance s.pcyc with run := if fenceHolds s n scope.toNat then .fence scope.toNat else .run }) := onSeq_seq s hn _

end seq

/-- Settles O34: a signal or a token leaves a port by its link (`sendSignal_join`, `sendSignal_token`), and each wait of a control unit has
its own equation. -/
theorem controlInstructions : Obligations.ControlInstructions := by
  intro d a scope s u0 ctx port colour token chan isTile sends
  have hcolour : sendColour s = colour := by
    simp only [sendColour, colour, u0]
    split <;> rfl
  have signals {i : Instr} (hi : exec i s = checkPort (canSignal (port d).link) s (finish (sendSignal u0 d.toNat colour s))) : sends i := by
    have good (h : canSignal (port d).link = true) : exec i s = .next (done (sendSignal u0 d.toNat colour s)) := by
      rw [hi, h, checkPort_good, finish_eq]
    refine ⟨fun g j m hl => ?join, fun tag x hl hx => ⟨fun hd => ?token, fun r hd => ?remote⟩, fun tag hl hx => ?noArc, fun ⟨t, ht⟩ hl => ?unbound⟩
    case join =>
      obtain ⟨v, hv, hagenda, hsend⟩ := sendSignal_join (colour := colour) hl
      rw [good (by rw [hl]; rfl), hsend]
      refine ⟨_, rfl, ?_, StaysAt.goesOn (hv.trans (.of_seqs rfl rfl rfl rfl))⟩
      rw [done_agenda, State.after_agenda, hagenda, hv.clock]
    case token =>
      rw [good (by rw [hl]; rfl), sendSignal_token hl hx hd]
      refine ⟨_, { x with sent := x.sent + 1, transit := x.transit ++ [token tag] }, rfl, ?_, rfl, rfl, done_agenda _,
        StaysAt.goesOn (.of_seqs rfl rfl rfl rfl)⟩
      rw [State.arc?, done_arcs]
      exact mfind_mset_self _ _ _
    case remote => rw [good (by rw [hl]; rfl), sendSignal_remote hl hx hd]
    case noArc => rw [good (by rw [hl]; rfl), sendSignal_noArc hl hx]
    case unbound => rw [hi, checkPort_tile ht, finish_eq, sendSignal_unbound hl, done_tile ht]
  have hcsig : exec (.csig d) s = checkPort (canSignal (port d).link) s (finish (sendSignal u0 d.toNat colour s)) := by
    rw [← hcolour]; rfl
  have hordj : exec (.ordj d a) s = checkPort (canSignal (port d).link) s (if chan.issued ≤ chan.upto
      then finish (sendSignal u0 d.toNat colour s)
      else finish (setChan u0 a.toNat { chan with joins := chan.joins ++ [(chan.issued, d.toNat, colour)] } s)) := by
    rw [← hcolour]; rfl
  refine ⟨signals hcsig, fun hnow => signals (hordj.trans (by rw [if_pos hnow])), fun hlate hport => ?ordj, fun n hn => ?seq⟩
  case ordj =>
    rw [if_neg (Nat.not_le.2 hlate), finish_eq] at hordj
    have hgood : exec (.ordj d a) s = .next (done (setChan u0 a.toNat { chan with joins := chan.joins ++ [(chan.issued, d.toNat, colour)] } s)) := by
      rcases hport with ⟨t, ht⟩ | hport
      · rw [hordj, checkPort_tile ht]
      · rw [hordj, hport, checkPort_good]
    refine ⟨_, hgood, ?_, (done_agenda _).trans (setChan_agenda ..), StaysAt.goesOn (setChan_staysAt ..)⟩
    rw [done_chanOf, setChan_chanOf_self]
  case seq =>
    intro q
    have hport (r : BitVec 6) : port r = mget {} (s.seq n).cx r.toNat := by simp only [port, u0, unitCx, hn]
    simp only [hport]
    refine ⟨fun hw hh => ?taken, execCwait_waits hn, execCtest_counts hn, ⟨fun hfree => ?passes, fun hwaits => ?holds, fun k rest htodo hrun ht hk => ?stays⟩,
      onSeq_seq s hn _, fun hl => ?signal, fun hw => ⟨execCwait_illegal hn hw, execCtest_illegal hn hw⟩⟩
    case taken =>
      obtain ⟨v, hv, hcx, hexec⟩ := execCwait_takes hn hw hh
      refine ⟨_, hexec, ?_, hv.goesOn⟩
      rw [done_seq_cx, hcx, mget_mset_self]
      exact take_total hh
    case passes => rw [← fenceHolds_iff] at hfree; exact (execFence_eq hn scope).trans (by rw [if_neg hfree])
    case holds => exact (execFence_eq hn scope).trans (by rw [if_pos (fenceHolds_iff.2 hwaits)])
    case stays => exact step_of_fence htodo hrun ht (fenceHolds_iff.2 hk)
    case signal =>
      have hbad : canSignal (port d).link = false := by rw [hport]; exact hl
      exact ⟨by rw [hcsig, hbad, checkPort_bad hn], by rw [hordj, hbad, checkPort_bad hn]⟩

end Sys2Proof.Machine
end

/-! # What arrives on the control network

A signal at its join, a release or a control token at its port, and an order token at its channel (R213, R215, R216, R227 to R229). -/
section
open Sys2Proof Sys2Proof.Machine Sys2Proof.Claims
namespace Sys2Proof.Machine

/-! ## A join read and changed -/

section join
variable {s : State} {c g j : Nat}

/-- Does slot `g` of context `c` hold a graph with join `j`? -/
def HasJoin (s : State) (c g j : Nat) : Prop := ∃ y, s.graph? c g = some y ∧ j < y.joins.length

theorem setJoin_hasJoin (h : HasJoin s c g j) (x : Join) : HasJoin (setJoin c g j x s) c g j ∧ joinAt (setJoin c g j x s) c g j = x := by
  obtain ⟨y, hy, hj⟩ := h
  have hset : (setJoin c g j x s).graph? c g = some { y with joins := y.joins.set j x } := by
    simp only [setJoin, hy, State.setGraph_graph_self]
  exact ⟨⟨_, hset, by simpa using hj⟩, by simp [joinAt, hset, hj]⟩

@[simp] theorem setJoin_todo (x : Join) : (setJoin c g j x s).todo = s.todo := by rw [setJoin_graphsOnly]

/-- Which unit is a member stands in the units. -/
theorem memberOf_congr {u : State} (ht : u.tiles = s.tiles) (hs : u.seqs = s.seqs) (m : Nat) : memberOf u c g j m = memberOf s c g j m := by
  simp only [memberOf, unitCtx, State.tile, ht, hs]
  rfl

@[simp] theorem setJoin_memberOf (x : Join) (m : Nat) : memberOf (setJoin c g j x s) c g j m = memberOf s c g j m := by
  rw [setJoin_graphsOnly c g j x s]
  exact memberOf_congr rfl rfl m

end join

/-! ## Counts (R215) -/

section counts
variable {l : List Nat} {m k : Nat}

@[simp] theorem length_bump (f : Nat → Nat) : (bump l m f).length = l.length := List.length_set

theorem getD_bump (hm : m < l.length) : (bump l m (· + 1)).getD k 0 = l.getD k 0 + bit (k = m) := by
  by_cases h : k = m
  · subst h; simp [bump, nth, hm, bit]
  · simp [bump, h, Ne.symm h, bit]

theorem all_pos_iff : (l.all (0 < ·)) = true ↔ ∀ k, k < l.length → 0 < l.getD k 0 := by
  simp only [List.all_eq_true, decide_eq_true_eq]
  refine ⟨fun h k hk => ?_, fun h x hx => ?_⟩
  · rw [List.getD_eq_getElem _ _ hk]; exact h _ (List.getElem_mem hk)
  · obtain ⟨k, hk, rfl⟩ := List.getElem_of_mem hx
    rw [← List.getD_eq_getElem _ 0 hk]; exact h k hk

end counts

/-! ## A join fires (R215) -/

/-- The release for a member departs, where the member is bound here. -/
def departRelease (c g j elem : Nat) (s : State) (m : Nat) : State :=
  match memberOf s c g j m with
  | some (u, _) => s.after (routeTime elem u.pos + 1) (.releaseArrival c g j m)
  | none => s

section releases
variable {c g j elem : Nat}

/-- A departure stands in the agenda, and changes nothing else. -/
theorem departRelease_agenda (s : State) (m : Nat) : ∃ l, departRelease c g j elem s m = { s with agenda := s.agenda ++ l } := by
  unfold departRelease
  split
  · exact ⟨_, rfl⟩
  · exact ⟨[], by rw [List.append_nil]⟩

theorem mem_departReleases_of_mem {s : State} {l : List Nat} {e : Nat × Instr} (h : e ∈ s.agenda) :
    e ∈ (l.foldl (departRelease c g j elem) s).agenda := by
  refine List.foldlRecOn l _ (motive := fun u : State => e ∈ u.agenda) h fun u hu m _ => ?_
  obtain ⟨l', hl'⟩ := departRelease_agenda (c := c) (g := g) (j := j) (elem := elem) u m
  rw [hl']
  exact List.mem_append_left _ hu

theorem mem_departReleases {s : State} {l : List Nat} {now k p : Nat} {v : UnitId} (hnow : s.pcyc = now) (hk : k ∈ l)
    (hv : memberOf s c g j k = some (v, p)) : (now + (routeTime elem v.pos + 1), .releaseArrival c g j k) ∈ (l.foldl (departRelease c g j elem) s).agenda := by
  induction l generalizing s with
  | nil => cases hk
  | cons m l ih =>
    rw [List.foldl_cons]
    rcases List.mem_cons.1 hk with rfl | hk
    · refine mem_departReleases_of_mem ?_
      rw [departRelease, hv, ← hnow]
      exact List.mem_append_right _ List.mem_cons_self
    · obtain ⟨l', hl'⟩ := departRelease_agenda (c := c) (g := g) (j := j) (elem := elem) s m
      rw [hl']
      exact ih hnow hk ((memberOf_congr rfl rfl k).trans hv)

theorem departReleases_joinAt (s : State) (l : List Nat) : joinAt (l.foldl (departRelease c g j elem) s) c g j = joinAt s c g j :=
  foldl_keeps (joinAt · c g j) (fun u m => by
    obtain ⟨l', hl'⟩ := departRelease_agenda (c := c) (g := g) (j := j) (elem := elem) u m
    rw [hl']
    rfl) l s

end releases

section fire
variable {s : State} {c g j : Nat}

/-- Without held signals every count falls by 1, and the releases depart. -/
theorem fireJoin_eq (h : (joinAt s c g j).heldSigs = []) : ∃ held, fireJoin c g j s =
    (List.range (joinAt s c g j).counts.length).foldl (departRelease c g j (joinAt s c g j).elem)
      (setJoin c g j { joinAt s c g j with
        counts := (List.range (joinAt s c g j).counts.length).map fun i => (joinAt s c g j).counts.getD i 0 - 1
        heldSigs := held, firedAt := some s.pcyc } s) := by
  have hfallen (i : Nat) : nth ((joinAt s c g j).counts.map (· - 1)) i = (joinAt s c g j).counts.getD i 0 - 1 := by
    simp only [nth, List.getD_eq_getElem?_getD, List.getElem?_map]
    cases (joinAt s c g j).counts[i]? <;> rfl
  have hnone (i : Nat) : nth [] i = 0 := rfl
  simp only [fireJoin, h, hfallen, hnone, Nat.lt_irrefl, decide_false, Bool.false_and, Bool.false_eq_true, if_false]
  exact ⟨_, rfl⟩

theorem fireJoin_fires (h : HasJoin s c g j) (hheld : (joinAt s c g j).heldSigs = []) :
    (∀ k, k < (joinAt s c g j).counts.length → (joinAt (fireJoin c g j s) c g j).counts.getD k 0 = (joinAt s c g j).counts.getD k 0 - 1) ∧
      (joinAt (fireJoin c g j s) c g j).firedAt = some s.pcyc ∧
      ∀ k v p, k < (joinAt s c g j).counts.length → memberOf s c g j k = some (v, p) →
        (s.pcyc + (routeTime (joinAt s c g j).elem v.pos + 1), .releaseArrival c g j k) ∈ (fireJoin c g j s).agenda := by
  obtain ⟨held, hfire⟩ := fireJoin_eq hheld
  rw [hfire, departReleases_joinAt, (setJoin_hasJoin h _).2]
  refine ⟨fun k hk => ?_, rfl, fun k v p hk hv => ?_⟩
  · simp [List.getD_eq_getElem?_getD, hk]
  · exact mem_departReleases (setJoin_staysAt ..).clock (List.mem_range.2 hk) ((setJoin_memberOf ..).trans hv)

/-- A join in which a member has no signal does not fire. -/
theorem tryJoin_waits {k : Nat} (hk : k < (joinAt s c g j).counts.length) (h0 : (joinAt s c g j).counts.getD k 0 = 0) : tryJoin c g j s = s := by
  have hall : ((joinAt s c g j).counts.all (0 < ·)) = false :=
    Bool.eq_false_iff.2 fun h => (all_pos_iff.1 h k hk).ne' h0
  simp only [tryJoin, hall, Bool.and_false, Bool.false_and, Bool.false_eq_true, if_false]

theorem tryJoin_fires (harmed : (joinAt s c g j).state = .armed) (hne : (joinAt s c g j).counts ≠ [])
    (hall : ∀ k, k < (joinAt s c g j).counts.length → 0 < (joinAt s c g j).counts.getD k 0) (hfired : (joinAt s c g j).firedAt ≠ some s.pcyc) :
    tryJoin c g j s = fireJoin c g j s := by
  have hfired' : ((joinAt s c g j).firedAt != some s.pcyc) = true := bne_iff_ne.2 hfired
  have hne' : (joinAt s c g j).counts.isEmpty = false := List.isEmpty_eq_false_iff.2 hne
  simp only [tryJoin, harmed, hne', all_pos_iff.2 hall, hfired', beq_self_eq_true, Bool.not_false, Bool.and_self, if_true]

end fire

/-! ## JOIN_SIGNAL_ARRIVAL (R215, R216) -/

/-- A join with one more signal of a member. -/
def Join.signalled (x : Join) (m : Nat) : Join := { x with counts := bump x.counts m (· + 1) }

theorem joinSignalArrival_counts {s : State} {c g j m : Nat} (harmed : (joinAt s c g j).state = .armed)
    (hroom : (joinAt s c g j).counts.getD m 0 < 255) : exec (.joinSignalArrival c g j m) s =
      let v := setJoin c g j ((joinAt s c g j).signalled m) s
      .next (if moreSignals c g j s.todo then v else tryJoin c g j v) := by
  have hstate : ((joinAt s c g j).state != .armed) = false := by rw [harmed]; rfl
  have hnth : nth (joinAt s c g j).counts m < 255 := hroom
  change execJoinSignalArrival c g j m s = _
  simp only [execJoinSignalArrival, hstate, hnth, setJoin_todo, Bool.false_eq_true, if_false, if_true]
  rfl

section arrival
variable {s : State} {c g j m : Nat} (h : HasJoin s c g j) (harmed : (joinAt s c g j).state = .armed) (hm : m < (joinAt s c g j).counts.length)
  (hroom : (joinAt s c g j).counts.getD m 0 < 255)
include h harmed hm hroom

/-- While more signals of the cycle are to come, or one is missing, the signal is only counted. -/
theorem joinSignalArrival_waits (hwait : moreSignals c g j s.todo = true ∨
      ∃ k, k < (joinAt s c g j).counts.length ∧ (joinAt s c g j).counts.getD k 0 + bit (k = m) = 0) :
    exec (.joinSignalArrival c g j m) s = .next (setJoin c g j ((joinAt s c g j).signalled m) s) := by
  obtain ⟨-, hjoin⟩ := setJoin_hasJoin h ((joinAt s c g j).signalled m)
  rw [joinSignalArrival_counts harmed hroom]
  rcases hwait with hmore | ⟨k, hk, h0⟩
  · exact congrArg _ (if_pos hmore)
  · have htry : tryJoin c g j (setJoin c g j ((joinAt s c g j).signalled m) s) = setJoin c g j ((joinAt s c g j).signalled m) s :=
      tryJoin_waits (k := k) (by rw [hjoin]; exact (length_bump _).symm ▸ hk) (by rw [hjoin]; exact (getD_bump hm).trans h0)
    exact congrArg _ ((congrArg _ htry).trans (ite_self _))

/-- The last signal that is missing, and the last of the cycle, fires the join. -/
theorem joinSignalArrival_fires (hlast : moreSignals c g j s.todo = false)
    (hall : ∀ k, k < (joinAt s c g j).counts.length → 0 < (joinAt s c g j).counts.getD k 0 + bit (k = m))
    (hfired : (joinAt s c g j).firedAt ≠ some s.pcyc) :
    exec (.joinSignalArrival c g j m) s = .next (fireJoin c g j (setJoin c g j ((joinAt s c g j).signalled m) s)) := by
  obtain ⟨-, hjoin⟩ := setJoin_hasJoin h ((joinAt s c g j).signalled m)
  have hclock : (setJoin c g j ((joinAt s c g j).signalled m) s).pcyc = s.pcyc := (setJoin_staysAt ..).clock
  have hlength : ((joinAt s c g j).signalled m).counts.length = (joinAt s c g j).counts.length := length_bump _
  rw [joinSignalArrival_counts harmed hroom]
  refine congrArg _ ((if_neg (Bool.eq_false_iff.1 hlast)).trans (tryJoin_fires ?_ ?_ ?_ ?_)) <;> rw [hjoin]
  · exact harmed
  · exact List.ne_nil_of_length_pos (hlength ▸ Nat.zero_lt_of_lt hm)
  · exact fun k hk => (hall k (hlength ▸ hk)).trans_eq (getD_bump hm).symm
  · rw [hclock]; exact hfired

end arrival

/-! ## Releases and control tokens at a port (R213, R220, R364) -/

/-- The port of a tile counts a release. -/
theorem depositAt_tile {s : State} {t p : Nat} (hs : (mget {} (s.tile t).cx p).skip = 0) :
    mget {} ((depositAt (.tile t) p s).tile t).cx p = { mget {} (s.tile t).cx p with held := (mget {} (s.tile t).cx p).held + 1 } := by
  have hskip : ¬ 0 < (mget {} (unitCx s (.tile t)) p).skip := by rw [unitCx, hs]; exact Nat.lt_irrefl 0
  simp only [depositAt, if_neg hskip, setCx, State.setTile_tile_self, mget_mset_self]
  rfl

/-- What a token does for a unit that waits at a port or in `idle` (R220, R364). -/
theorem wakeOnToken_wakes (s : State) (n p : Nat) : ((wakeOnToken n p s).seq n).cx = (s.seq n).cx ∧
    ((s.seq n).run = .cwait p → ((wakeOnToken n p s).seq n).run = .run) ∧
    ((s.seq n).run = .idle → ((wakeOnToken n p s).seq n).run = .run ∧ ((wakeOnToken n p s).seq n).pc = ((s.seq n).advance (s.seq n).last).pc) := by
  unfold wakeOnToken
  split
  next h => simp [h]
  next w h =>
    by_cases hw : w = p
    · simp [h, hw]
    · simp [h, hw]
  next hidle hwait => exact ⟨rfl, fun h => absurd h (hwait p), fun h => absurd h hidle⟩

/-- Where a unit goes on does not depend on the cycle. -/
theorem Seq.advance_pc_anytime (q : Seq) (a b : Nat) : (q.advance a).pc = (q.advance b).pc := by
  simp only [Seq.advance]
  split <;> rfl

/-- The window of a control unit's port takes a token, and the unit wakes. -/
theorem depositAt_seq {s : State} {n p : Nat} (hs : (mget {} (s.seq n).cx p).skip = 0) (hh : (mget {} (s.seq n).cx p).held < 255) :
    mget {} ((depositAt (.seq n) p s).seq n).cx p = { mget {} (s.seq n).cx p with held := (mget {} (s.seq n).cx p).held + 1 } ∧
      ((s.seq n).run = .cwait p → ((depositAt (.seq n) p s).seq n).run = .run) ∧
      ((s.seq n).run = .idle → ((depositAt (.seq n) p s).seq n).run = .run ∧
        ((depositAt (.seq n) p s).seq n).pc = ((s.seq n).advance s.pcyc).pc) := by
  have hskip : ¬ 0 < (mget {} (unitCx s (.seq n)) p).skip := by rw [unitCx, hs]; exact Nat.lt_irrefl 0
  have hroom : (mget {} (unitCx s (.seq n)) p).held < 255 := hh
  obtain ⟨hcx, hwait, hidle⟩ := wakeOnToken_wakes
    (setCx (.seq n) p { mget {} (s.seq n).cx p with held := (mget {} (s.seq n).cx p).held + 1 } s) n p
  have hdeposit : depositAt (.seq n) p s =
      wakeOnToken n p (setCx (.seq n) p { mget {} (s.seq n).cx p with held := (mget {} (s.seq n).cx p).held + 1 } s) := by
    simp only [depositAt, if_neg hskip, if_pos hroom]
    rfl
  rw [← hdeposit] at hcx hwait hidle
  simp only [setCx, State.updSeq_seq_self] at hcx hwait hidle
  refine ⟨by rw [hcx, mget_mset_self], hwait, fun hrun => ?_⟩
  obtain ⟨hrun', hpc⟩ := hidle hrun
  exact ⟨hrun', (hpc.trans (Seq.advance_pc_anytime _ _ s.pcyc)).trans (Seq.advance_pc_congr (by rfl) (by rfl) _)⟩

/-! ## Order tokens (R227 to R229) -/

/-- The next operation in order moves C on. -/
theorem settle_next {x : OrdChan} (hd : x.done = []) :
    ({ x with done := x.done ++ [x.upto + 1] } : OrdChan).settle 1 = { x with upto := x.upto + 1, done := [] } := by
  simp [hd, OrdChan.settle]

/-- One beyond it is kept until those before it have completed. -/
theorem settle_beyond {x : OrdChan} {k : Nat} (hd : x.done = []) (hk : k ≠ x.upto + 1) :
    ({ x with done := x.done ++ [k] } : OrdChan).settle 1 = { x with done := [k] } := by
  simp [hd, OrdChan.settle, hk.symm]

/-- Without captures an order token changes its channel alone. -/
theorem orderTokenArrival_tile {s : State} {t c k : Nat} {y : OrdChan} (ht : t < 4096) (hd : (mget {} (s.tile t).oc c).done = [])
    (hy : ({ mget {} (s.tile t).oc c with done := (mget {} (s.tile t).oc c).done ++ [k] } : OrdChan).settle 1 = y) (hj : y.joins = []) :
    ∃ u, exec (.orderTokenArrival t c k) s = .next u ∧ mget {} (u.tile t).oc c = y := by
  refine ⟨setChan (.tile t) c y s, ?_, setChan_chanOf_self (.tile t) c y s⟩
  change execOrderTokenArrival t c k s = _
  have hchan : chanOf s (.tile t) c = mget {} (s.tile t).oc c := rfl
  have hdone : (mget {} (s.tile t).oc c).done.length + 1 = 1 := by rw [hd]; rfl
  simp only [execOrderTokenArrival, unitOf, if_pos ht, hchan, hdone, hy]
  cases y
  cases hj
  rfl

/-- Settles O35: a signal waits or fires its join (`joinSignalArrival_waits`, `joinSignalArrival_fires`), a port's window takes what arrives
(`depositAt_tile`, `depositAt_seq`), and an order token settles its channel. -/
theorem controlArrivals : Obligations.ControlArrivals := by
  intro s ctx slot j m g hg hj x others
  have hhas : HasJoin s ctx slot j := ⟨g, hg, hj⟩
  refine ⟨fun harmed hm hroom hfired => ?signal, fun t p hmember hs => ?release, fun tag a n p ha hdst hs hh => ?token,
    fun t c k ht hd hjoins => ?order⟩
  case signal =>
    have hrisen (k : Nat) : (x.signalled m).counts.getD k 0 = x.counts.getD k 0 + bit (k = m) := getD_bump hm
    have hlength : (x.signalled m).counts.length = x.counts.length := length_bump _
    obtain ⟨hhas', hjoin⟩ := setJoin_hasJoin hhas (x.signalled m)
    by_cases hwait : others = true ∨ ∃ k, k < x.counts.length ∧ x.counts.getD k 0 + bit (k = m) = 0
    · refine ⟨_, joinSignalArrival_waits hhas harmed hm hroom hwait, fun _ => ?_, fun hlast hall => ?_⟩
      · rw [hjoin]
        exact ⟨hlength, fun k _ => hrisen k, setJoin_agenda ..⟩
      · rcases hwait with hmore | ⟨k, hk, h0⟩
        · exact absurd hmore (Bool.eq_false_iff.1 hlast)
        · exact absurd h0 (hall k hk).ne'
    · obtain ⟨hlast, hall⟩ := not_or.1 hwait
      have hall' (k : Nat) (hk : k < x.counts.length) : 0 < x.counts.getD k 0 + bit (k = m) :=
        Nat.pos_of_ne_zero fun h0 => hall ⟨k, hk, h0⟩
      refine ⟨_, joinSignalArrival_fires hhas harmed hm hroom (Bool.eq_false_iff.2 hlast) hall' hfired, fun h => absurd h hwait,
        fun _ _ hheld => ?_⟩
      obtain ⟨hcounts, hfiredAt, hreleases⟩ := fireJoin_fires hhas' (by rw [hjoin]; exact hheld)
      rw [hjoin] at hcounts hreleases
      refine ⟨fun k hk => ?_, ?_, fun k v p hk hv => ?_⟩
      · exact (hcounts k (hlength.symm ▸ hk)).trans (congrArg (· - 1) (hrisen k))
      · rw [hfiredAt, (setJoin_staysAt ..).clock]
      · rw [← (setJoin_staysAt ctx slot j (x.signalled m) s).clock]
        exact hreleases k v p (hlength.symm ▸ hk) ((setJoin_memberOf ..).trans hv)
  case release =>
    refine ⟨depositAt (.tile t) p s, ?_, depositAt_tile hs⟩
    change execReleaseArrival ctx slot j m s = _
    simp only [execReleaseArrival, hmember]
  case token =>
    refine ⟨_, ?_, depositAt_seq (s := s.setArc (State.arcKey ctx tag) { a with transit := a.transit.drop 1, read := a.read + 1 }) hs hh⟩
    change execControlTokenArrival ctx tag s = _
    simp only [execControlTokenArrival, ha, hdst]
  case order =>
    refine ⟨fun hk => ?_, fun hk => ?_⟩
    · subst hk
      exact orderTokenArrival_tile ht hd (settle_next hd) hjoins
    · exact orderTokenArrival_tile ht hd (settle_beyond hd hk) hjoins

end Sys2Proof.Machine
end

/-! # Instructions of graphs

How a control unit asks a graph for a mode, an activation or a drain, unloads, loads and patches one, and reads its status (R244, R245, R248,
R249, R257 to R261). -/
section
open Sys2Proof Sys2Proof.Machine Sys2Proof.Claims
namespace Sys2Proof.Machine

/-! ## Handles (R244) -/

section handle
variable {s : State} {c g : Nat} {h : Word}

theorem slotOf_handle {x : Graph} (hx : s.graph? c g = some x) (hg : g < 256) (hh : h.toNat = g + 256 * useCount (s.ctx c) g)
    (hu : useCount (s.ctx c) g < 256) : slotOf s c h = some g := by
  have hslot : h.toNat % 256 = g := by omega
  have huse : h.toNat / 256 = useCount (s.ctx c) g := by omega
  have hlt : h.toNat < 65536 := by omega
  simp only [slotOf, hslot, huse, hlt, hx, Option.isSome_some, decide_true, Bool.and_self, if_true]

theorem slotOf_stale (hu : h.toNat / 256 ≠ useCount (s.ctx c) (h.toNat % 256)) : slotOf s c h = none := by
  simp only [slotOf, hu, decide_false, Bool.and_false, Bool.false_and, Bool.false_eq_true, if_false]

theorem curCtx_seq {n : Nat} (hn : s.cur.unit = .seq n) : curCtx s = (s.seq n).ctxid := by simp only [curCtx, hn]

theorem graphAt_eq {x : Graph} (hx : s.graph? c g = some x) : graphAt s c g = x := by simp only [graphAt, hx, Option.getD_some]

end handle

/-! ## What a request to a graph changes -/

@[simp] theorem done_graphs (s : State) : (done s).graphs = s.graphs := by unfold done; split <;> rfl
@[simp] theorem done_ctxs (s : State) : (done s).ctxs = s.ctxs := by unfold done; split <;> rfl

theorem done_graph (s : State) (c g : Nat) : (done s).graph? c g = s.graph? c g := graph_of_graphs (done_graphs s)

/-- Two states that differ in graphs, in what is sent to other packages, and in steps set for later only. -/
def RequestOnly (s u : State) : Prop :=
  u = { s with graphs := u.graphs, links := u.links, agenda := u.agenda, freeCount := u.freeCount }

namespace RequestOnly
variable {s v u : State}

theorem refl (s : State) : RequestOnly s s := rfl

theorem trans (h : RequestOnly s v) (h' : RequestOnly v u) : RequestOnly s u := by
  unfold RequestOnly at *
  rw [h', h]

theorem of_graphsOnly (h : GraphsOnly s u) : RequestOnly s u := by
  unfold RequestOnly
  rw [h]

theorem later (s : State) (i : Instr) : RequestOnly s (s.later i) := rfl
theorem setGraph (s : State) (c g : Nat) (x : Graph) : RequestOnly s (s.setGraph c g x) := rfl

theorem clock (h : RequestOnly s u) : u.pcyc = s.pcyc := by rw [h]
theorem tiles (h : RequestOnly s u) : u.tiles = s.tiles := by rw [h]
theorem ctxs (h : RequestOnly s u) : u.ctxs = s.ctxs := by rw [h]

theorem staysAt (h : RequestOnly s u) : StaysAt s u := by
  rw [h]
  exact .of_seqs rfl rfl rfl rfl

/-- The unit that asks goes on. -/
theorem goesOn (h : RequestOnly s u) : Claims.goesOn s (done u) := h.staysAt.goesOn.2

end RequestOnly

/-- The graphs and the steps set for later. -/
def State.requests (s : State) : Map Graph × List (Nat × Instr) := (s.graphs, s.agenda)

theorem State.requests_eq_iff {s u : State} : u.requests = s.requests ↔ u.graphs = s.graphs ∧ u.agenda = s.agenda := by simp [State.requests]

/-- Other packages are told of a request in items on their links alone (R478). -/
theorem tellRanks_requests (c g : Nat) (s : State) : (tellRanks c g s).requests = s.requests :=
  foldl_keeps State.requests (fun s r => by unfold sendItems; split <;> rfl) _ _

theorem tellRanks_requestOnly (c g : Nat) (s : State) : RequestOnly s (tellRanks c g s) :=
  List.foldlRecOn _ _ (motive := RequestOnly s) (.refl s) fun u hu r _ => hu.trans (by unfold sendItems; split <;> rfl)

theorem tellRanks_graph (c g : Nat) (s : State) : (tellRanks c g s).graph? c g = s.graph? c g :=
  graph_of_graphs (State.requests_eq_iff.1 (tellRanks_requests c g s)).1

/-! ## Steps set for later -/

theorem setLater_of_clock {s v u : State} {i : Instr} (hp : v.pcyc = s.pcyc) (h : setLater v u i) : setLater s u i := by
  unfold setLater at *
  rwa [← hp]

theorem setLater_done {s u : State} {i : Instr} (h : setLater s u i) : setLater s (done u) i := by
  unfold setLater at *
  rwa [done_agenda]

theorem setLater_of_later {s u : State} {i : Instr} (h : setLater s u i) (j : Instr) : setLater s (u.later j) i := by
  obtain ⟨n, hn, hi⟩ := h
  exact ⟨n, hn, List.mem_append_left _ hi⟩

/-- Steps set for later, one for each number of a list. -/
def laterAll (f : Nat → Instr) (l : List Nat) (s : State) : State := l.foldl (fun s p => s.later (f p)) s

theorem laterAll_requestOnly (f : Nat → Instr) (l : List Nat) (s : State) : RequestOnly s (laterAll f l s) :=
  List.foldlRecOn l _ (motive := RequestOnly s) (.refl s) fun _ hu _ _ => hu.trans (.later _ _)

theorem laterAll_graphs (f : Nat → Instr) (l : List Nat) (s : State) : (laterAll f l s).graphs = s.graphs := by
  refine foldl_keeps State.graphs (fun _ _ => ?_) l s
  rfl

theorem setLater_laterAll {l : List Nat} {p : Nat} (hp : p ∈ l) (f : Nat → Instr) (s : State) : setLater s (laterAll f l s) (f p) :=
  setLater_of_clock (laterAll_requestOnly f l s).clock
    (foldl_does (P := fun u => setLater u u (f p)) hp (fun u => setLater_later (s := u.later (f p)) (u := u) rfl _)
      (fun u q hu => setLater_of_clock (s := u.later (f q)) (v := u) rfl (setLater_of_later hu _)) s)

/-! ## Requests to the injection points (R250) -/

section inject
variable {s : State} {c g : Nat} {x : Graph}

theorem inject_eq (hx : s.graph? c g = some x) : inject c g s =
    laterAll (.modeRequestArrival c g) (injectionPoints x) (s.setGraph c g { x with owed := owedSpawns s c x }) := by
  simp only [inject, updGraph_eq hx, graphAt, State.setGraph_graph_self]
  rfl

theorem inject_requestOnly (hx : s.graph? c g = some x) : RequestOnly s (inject c g s) := by
  rw [inject_eq hx]
  exact .trans (.setGraph ..) (laterAll_requestOnly ..)

theorem inject_graph (hx : s.graph? c g = some x) : (inject c g s).graph? c g = some { x with owed := owedSpawns s c x } := by
  rw [inject_eq hx, graph_of_graphs (laterAll_graphs ..), State.setGraph_graph_self]

theorem inject_setLater (hx : s.graph? c g = some x) {p : Nat} (hp : p ∈ injectionPoints x) :
    setLater s (inject c g s) (.modeRequestArrival c g p) := by
  rw [inject_eq hx]
  exact setLater_of_clock (v := s.setGraph c g { x with owed := owedSpawns s c x }) rfl (setLater_laterAll hp (.modeRequestArrival c g) _)

end inject

/-! ## Requests for a mode (R249) -/

/-- Whether the lists of the target stand ready depends on the tiles and on the image, the target and the places of the graph. -/
theorem targetStaged_congr {s u : State} {c g : Nat} {x y : Graph} (ht : u.tiles = s.tiles) (hx : s.graph? c g = some x)
    (hy : u.graph? c g = some y) (h : (y.image, y.target, y.placed) = (x.image, x.target, x.placed)) :
    targetStaged u c g = targetStaged s c g := by
  obtain ⟨himage, htarget, hplaced⟩ : y.image = x.image ∧ y.target = x.target ∧ y.placed = x.placed := by simpa using h
  simp only [targetStaged, graphAt_eq hx, graphAt_eq hy, Graph.isHere, State.tile, ht, himage, htarget, hplaced]

section request
variable {s : State} {c g m : Nat} {x : Graph} (hx : s.graph? c g = some x)

/-- A graph of which a mode is asked. -/
def Graph.aimed (x : Graph) (m : Nat) : Graph := { x with target := m }

/-- The lists of the target are staged, unless they stand ready (R148). -/
def stageTarget (c g : Nat) (s : State) : State := if targetStaged s c g then s else s.later (.stagingComplete c g)

theorem stageTarget_requestOnly (c g : Nat) (s : State) : RequestOnly s (stageTarget c g s) := by
  unfold stageTarget
  split
  · exact .refl s
  · exact .later ..

theorem stageTarget_graph (s : State) : (stageTarget c g s).graph? c g = s.graph? c g := by
  unfold stageTarget
  split <;> rfl

theorem stageTarget_keeps_setLater {v : State} {i : Instr} (h : setLater v s i) : setLater v (stageTarget c g s) i := by
  unfold stageTarget
  split
  · exact h
  · exact setLater_of_later h _

theorem stageTarget_setLater {v : State} (hp : s.pcyc = v.pcyc) (h : targetStaged s c g = false) :
    setLater v (stageTarget c g s) (.stagingComplete c g) := by
  simp only [stageTarget, h, Bool.false_eq_true, if_false]
  exact setLater_later hp _

include hx

theorem requestMode_eq : requestMode c g m s =
    if x.state == .running then stageTarget c g (inject c g (updGraph c g (fun y => { y with state := .changing }) (s.setGraph c g (x.aimed m))))
    else if x.state == .changing then stageTarget c g (s.setGraph c g (x.aimed m))
    else s.setGraph c g (x.aimed m) := by
  simp only [requestMode, graphAt_eq hx, updGraph_eq hx]
  split
  · rfl
  · cases x.state == .changing
    · rfl
    · change (if (!targetStaged (s.setGraph c g (x.aimed m)) c g) = true then _ else _) = _
      unfold stageTarget
      cases targetStaged (s.setGraph c g (x.aimed m)) c g <;> rfl

theorem requestMode_notRun (hst : x.state ∈ [GraphState.loaded, .waiting, .staging, .idle]) :
    requestMode c g m s = s.setGraph c g (x.aimed m) := by
  have hstill : (x.state == .running) = false ∧ (x.state == .changing) = false := by revert hst; cases x.state <;> simp
  simp only [requestMode_eq hx, hstill, Bool.false_eq_true, if_false]

theorem requestMode_changing (hst : x.state = .changing) : requestMode c g m s = stageTarget c g (s.setGraph c g (x.aimed m)) := by
  rw [requestMode_eq hx, if_neg (by simp [hst]), if_pos (by simp [hst])]

/-- A RUNNING graph is CHANGING, and the request goes to its injection points. -/
theorem requestMode_running (hst : x.state = .running) : ∃ w y, requestMode c g m s = stageTarget c g w ∧ RequestOnly s w ∧
    w.graph? c g = some y ∧ y.state = .changing ∧ y.mode = x.mode ∧ (y.image, y.target, y.placed) = (x.image, m, x.placed) ∧
    ∀ p, p ∈ injectionPoints x → setLater s w (.modeRequestArrival c g p) := by
  let v := updGraph c g (fun y => { y with state := .changing }) (s.setGraph c g (x.aimed m))
  have hv : v.graph? c g = some { x.aimed m with state := .changing } := by rw [graph_updGraph, State.setGraph_graph_self]; rfl
  have hsv : RequestOnly s v := .trans (.setGraph ..) (.of_graphsOnly (updGraph_graphsOnly _))
  exact ⟨inject c g v, _, by rw [requestMode_eq hx, if_pos (by simp [hst])], hsv.trans (inject_requestOnly hv), inject_graph hv, rfl, rfl,
    rfl, fun p hp => setLater_of_clock hsv.clock (inject_setLater hv hp)⟩

end request

/-! ## Activation and drains (R245, R259) -/

section drain
variable {s : State} {c g : Nat} {x : Graph} (hx : s.graph? c g = some x)

/-- A graph that waits for its groups. -/
def Graph.activated (x : Graph) (prio : Nat) (lat : Bool) (since : Nat) (record : Option Nat) (count : Nat) : Graph :=
  { x with state := .waiting, prior := x.state, prio := prio, lat := lat, since := since, record := record, count := count, ran := 0 }

/-- A graph that drains. -/
def Graph.drained (x : Graph) : Graph := { x with state := .draining, draining := true }

include hx

theorem activate_eq (prio : Nat) (lat : Bool) (since : Nat) (record : Option Nat) (count : Nat) :
    activate c g prio lat since record count s = (s.setGraph c g (x.activated prio lat since record count)).later (.graphPlacement c g) := by
  simp only [activate, updGraph_eq hx]
  rfl

theorem startDrain_changing (hst : x.state = .changing) : startDrain c g s = s.setGraph c g x.drained := by
  simp only [startDrain, graphAt_eq hx, updGraph_eq hx]
  rw [if_neg (by simp [hst])]
  rfl

/-- The points of a RUNNING graph get the request; those of a CHANGING one already have it. -/
theorem startDrain_running (hst : x.state = .running) : startDrain c g s = inject c g (s.setGraph c g x.drained) := by
  simp only [startDrain, graphAt_eq hx, updGraph_eq hx]
  rw [if_pos (by simp [hst])]
  rfl

end drain

/-! ## Unloading (R244, R245, R259) -/

/-- A table has at a key only what is listed there. -/
theorem mem_of_mfind {α : Type} {m : Map α} {k : Nat} {v : α} (h : mfind m k = some v) : (k, v) ∈ m := by
  induction m with
  | nil => cases h
  | cons e m ih =>
    obtain ⟨j, w⟩ := e
    rw [mfind] at h
    split at h
    next hj =>
      obtain rfl := hj
      obtain rfl := Option.some.inj h
      exact List.mem_cons_self
    next => exact List.mem_cons_of_mem _ (ih h)

theorem ctx_of_ctxs {s u : State} (h : u.ctxs = s.ctxs) (c : Nat) : u.ctx c = s.ctx c := by simp only [State.ctx, h]

theorem releaseGroups_ctxs (c g : Nat) (s : State) : (releaseGroups c g s).ctxs = s.ctxs := by
  unfold releaseGroups
  extract_lets x quads mine s₁ s₂ s₃ s₄
  have h₁ : s₁.ctxs = s.ctxs := foldl_keeps State.ctxs (fun _ _ => by split <;> rfl) _ _
  have h₂ : s₂.ctxs = s₁.ctxs := foldl_keeps State.ctxs (fun _ _ => by split <;> rfl) _ _
  have h₄ : s₄.ctxs = s₃.ctxs := by
    refine foldl_keeps State.ctxs (fun u q => ?_) _ _
    exact foldl_keeps State.ctxs (fun _ _ => by rfl) (List.range 4) u
  rw [updGraph_graphsOnly]
  exact h₄.trans (h₂.trans h₁)

theorem settleCtx_uses (c : Nat) (s : State) : ((settleCtx c s).ctx c).uses = (s.ctx c).uses := by
  unfold settleCtx
  dsimp only
  split
  · rw [State.setCtx_ctx_self]
  · rfl

section unload
variable (c g : Nat) (s : State)

theorem unload_graph : (unload c g s).graph? c g = none := by
  simp only [unload, State.graph?, State.setCtx_graphs, mfind_mdel_self]

theorem unload_uses : useCount ((unload c g s).ctx c) g = if useCount (s.ctx c) g = 255 then 1 else useCount (s.ctx c) g + 1 := by
  unfold unload
  extract_lets x s₁ s₂ s₃ y k
  have h₁ : s₁.ctxs = s.ctxs := by dsimp only [s₁]; split <;> rfl
  have h₂ : (s₂.ctx c).uses = (s.ctx c).uses :=
    (settleCtx_uses c _).trans (congrArg Ctx.uses (ctx_of_ctxs ((releaseGroups_ctxs c g s₁).trans h₁) c))
  clear_value s₂
  have hk : k = useCount (s.ctx c) g := congrArg (mget 1 · g) h₂
  rw [State.setCtx_ctx_self, useCount, mget_mset_self, hk]

/-- No arc of the graph is left. -/
theorem unload_arcs {k : Nat} {y : Arc} (hy : (unload c g s).arc? k = some y) (hk : k / 4096 = c) : y.slot ≠ g := by
  have hmem := mem_of_mfind hy
  intro hslot
  simp [unload, hk, hslot] at hmem

end unload

/-! ## Requests of a control unit, by the state of the graph (R249, R259, R261) -/

/-- A result whose time is open is in its register (R102). -/
theorem openDone_reg {n : Nat} {d : BitVec 6} {v : Word} {s : State} (hd : d.toNat ≠ 0) :
    regOf ((openDone n d v s).seq n).s d.toNat = v := by
  have hseq : (openDone n d v s).seq n = ((s.seq n).write d.toNat v (s.pcyc + 1 + Config.freeDelay s.freeCount)).advance s.pcyc :=
    State.updSeq_seq_self s n fun q => (q.write d.toNat v (s.pcyc + 1 + Config.freeDelay s.freeCount)).advance s.pcyc
  rw [hseq, Seq.advance_s]
  exact regOf_setRegOf_self _ _ hd

theorem graphFault_eq (n k : Nat) (s : State) : graphFault n k s = graphRefused n k s := rfl

section asks
variable {s : State} {n c : Nat} {a : BitVec 6} (hn : s.cur.unit = .seq n) (hc : curCtx s = c)
include hn hc

section stale
variable (hs : slotOf s c (readS s a) = none)
include hs

theorem execSetmode_stale (mode : BitVec 3) : execSetmode a mode s = graphRefused n 1 s := by
  simp only [execSetmode, onSeq_seq s hn, hc, hs, graphFault_eq]

theorem execGact_stale : execGact a s = graphRefused n 1 s := by simp only [execGact, onSeq_seq s hn, hc, hs, graphFault_eq]
theorem execGdrain_stale : execGdrain a s = graphRefused n 1 s := by simp only [execGdrain, onSeq_seq s hn, hc, hs, graphFault_eq]
theorem execGunld_stale : execGunld a s = graphRefused n 1 s := by simp only [execGunld, onSeq_seq s hn, hc, hs, graphFault_eq]

theorem execGpatch_stale (d : BitVec 6) (tag : BitVec 12) : execGpatch d a tag s = graphRefused n 1 s := by
  simp only [execGpatch, onSeq_seq s hn, hc, hs, graphFault_eq]

end stale

section named
variable {g : Nat} {x : Graph} (hs : slotOf s c (readS s a) = some g) (hx : s.graph? c g = some x)
include hs

theorem execGunld_eq : execGunld a s = .next (done (unload c g (tellRanks c g s))) := by
  simp only [execGunld, onSeq_seq s hn, hc, hs, finish_eq]

include hx

/-- `setmode` in its three outcomes (R249, R261). -/
theorem execSetmode_eq (mode : BitVec 3) : execSetmode a mode s =
    if x.state.takesMode = false then graphRefused n 2 s
    else if x.image.mode? mode.toNat = none then graphRefused n 3 s
    else .next (done (requestMode c g mode.toNat (tellRanks c g s))) := by
  simp only [execSetmode, onSeq_seq s hn, hc, hs, graphAt_eq hx, finish_eq, graphFault_eq, Bool.not_eq_true', Option.isNone_iff_eq_none]

section setmode
variable {mode : BitVec 3} (hm : (x.image.mode? mode.toNat).isSome = true)
include hm

theorem execSetmode_asks (ht : x.state.takesMode = true) :
    execSetmode a mode s = .next (done (requestMode c g mode.toNat (tellRanks c g s))) := by
  rw [execSetmode_eq hn hc hs hx, if_neg (by simp [ht]), if_neg (Option.isSome_iff_ne_none.1 hm)]

/-- A graph that does not run starts in the mode asked for. -/
theorem execSetmode_notRun (hst : x.state ∈ [GraphState.loaded, .waiting, .staging, .idle]) :
    ∃ u, execSetmode a mode s = .next u ∧ u.graph? c g = some (x.aimed mode.toNat) ∧ goesOn s u := by
  have hexec := execSetmode_asks hn hc hs hx hm (by revert hst; cases x.state <;> simp [GraphState.takesMode])
  rw [requestMode_notRun ((tellRanks_graph ..).trans hx) hst] at hexec
  exact ⟨_, hexec, (done_graph ..).trans (State.setGraph_graph_self ..), ((tellRanks_requestOnly c g s).trans (.setGraph ..)).goesOn⟩

/-- A graph that runs changes to it: its injection points are asked, and the lists of the target are staged. -/
theorem execSetmode_running (hst : x.state = .running) :
    ∃ u y, execSetmode a mode s = .next u ∧ u.graph? c g = some y ∧ y.state = .changing ∧ y.target = mode.toNat ∧ y.mode = x.mode ∧
      (∀ p, p ∈ injectionPoints x → setLater s u (.modeRequestArrival c g p)) ∧
      (targetStaged (s.setGraph c g (x.aimed mode.toNat)) c g = false → setLater s u (.stagingComplete c g)) ∧ goesOn s u := by
  have hv := tellRanks_requestOnly c g s
  obtain ⟨w, y, hreq, hvw, hy, hstate, hymode, hplan, hpoints⟩ := requestMode_running (m := mode.toNat) ((tellRanks_graph ..).trans hx) hst
  have hexec := execSetmode_asks hn hc hs hx hm (by rw [hst]; rfl)
  rw [hreq] at hexec
  have hsw := hv.trans hvw
  have hstaged : targetStaged w c g = targetStaged (s.setGraph c g (x.aimed mode.toNat)) c g :=
    targetStaged_congr hsw.tiles (State.setGraph_graph_self ..) hy hplan
  obtain ⟨-, htarget, -⟩ : y.image = x.image ∧ y.target = mode.toNat ∧ y.placed = x.placed := by simpa using hplan
  exact ⟨_, y, hexec, (done_graph ..).trans ((stageTarget_graph _).trans hy), hstate, htarget, hymode,
    fun p hp => setLater_done (stageTarget_keeps_setLater (setLater_of_clock hv.clock (hpoints p hp))),
    fun hno => setLater_done (stageTarget_setLater hsw.clock (hstaged.trans hno)), (hsw.trans (stageTarget_requestOnly ..)).goesOn⟩

/-- A graph that changes already changes to the mode asked for last. -/
theorem execSetmode_changing (hst : x.state = .changing) :
    ∃ u, execSetmode a mode s = .next u ∧ u.graph? c g = some (x.aimed mode.toNat) ∧
      (targetStaged (s.setGraph c g (x.aimed mode.toNat)) c g = false → setLater s u (.stagingComplete c g)) ∧ goesOn s u := by
  have hexec := execSetmode_asks hn hc hs hx hm (by rw [hst]; rfl)
  rw [requestMode_changing ((tellRanks_graph ..).trans hx) hst] at hexec
  have hsw : RequestOnly s ((tellRanks c g s).setGraph c g (x.aimed mode.toNat)) := (tellRanks_requestOnly ..).trans (.setGraph ..)
  have hstaged : targetStaged ((tellRanks c g s).setGraph c g (x.aimed mode.toNat)) c g =
      targetStaged (s.setGraph c g (x.aimed mode.toNat)) c g :=
    targetStaged_congr hsw.tiles (State.setGraph_graph_self ..) (State.setGraph_graph_self ..) rfl
  exact ⟨_, hexec, (done_graph ..).trans ((stageTarget_graph _).trans (State.setGraph_graph_self ..)),
    fun hno => setLater_done (stageTarget_setLater hsw.clock (hstaged.trans hno)), (hsw.trans (stageTarget_requestOnly ..)).goesOn⟩

end setmode

theorem execGact_eq : execGact a s =
    if x.state ∈ [GraphState.loaded, .idle] then .next (done (activate c g 0 false s.pcyc none 0 (tellRanks c g s))) else graphRefused n 2 s := by
  simp only [execGact, onSeq_seq s hn, hc, hs, graphAt_eq hx, finish_eq, graphFault_eq, Bool.or_eq_true, beq_iff_eq, List.mem_cons,
    List.not_mem_nil, or_false]

theorem execGdrain_eq (hst : x.state ∈ [GraphState.running, .changing]) :
    execGdrain a s = .next (done (startDrain c g (tellRanks c g s))) := by
  have hor : (x.state == .running || x.state == .changing) = true := by simpa using hst
  simp only [execGdrain, onSeq_seq s hn, hc, hs, graphAt_eq hx, finish_eq, hor, if_true]

/-- `gpatch` at the memory actor at an end of its arc (R248). -/
theorem execGpatch_eq {d : BitVec 6} {tag : BitVec 12} {m i : Nat} {e : ArcDecl} (hi : x.tags[i]? = some tag.toNat)
    (hfirst : ∀ j, j < i → x.tags[j]? ≠ some tag.toNat) (he : x.image.arcs[i]? = some e)
    (hm : (∃ p, e.src = .mem m p) ∨ ((∀ k p, e.src ≠ .mem k p) ∧ ∃ p, e.dst = .mem m p)) : execGpatch d a tag s =
      if (readS s d).toNat % 64 = 0 then .next (done (updMem c g m (fun y => { y with patched := some (readS s d).toNat }) s))
      else graphRefused n 6 s := by
  have hfind : x.tags.findIdx? (· == tag.toNat) = some i := by
    obtain ⟨hlt, hget⟩ := List.getElem?_eq_some_iff.1 hi
    refine List.findIdx?_eq_some_iff_getElem.2 ⟨hlt, by simp [hget], fun j hj => ?_⟩
    simpa [List.getElem?_eq_getElem (hj.trans hlt)] using hfirst j hj
  simp only [execGpatch, onSeq_seq s hn, hc, hs, graphAt_eq hx, hfind, Option.bind_some, he, finish_eq, graphFault_eq, ne_eq, ite_not]
  rcases hm with ⟨p, hp⟩ | ⟨hsrc, p, hp⟩
  · rw [hp]
  · rw [hp]
    cases h : e.src
    case mem k q => exact absurd h (hsrc k q)
    all_goals rfl

end named

/-! ## `gld` (R259) -/

/-- A graph that a slot has taken and whose image is being checked. -/
def takenGraph (handle va : Nat) : Graph := { state := .loading, handle := handle, va := va, issued := true }

omit hn hc in
/-- A slot taken, with its use count, by the `gld` of this package. -/
theorem takeSlot_takes (r use va : Nat) : ∃ u, updGraph c r (fun x => { x with issued := true }) (takeSlot c r use va s) = u ∧
    u.graph? c r = some (takenGraph (use * 256 + r) va) ∧ useCount (u.ctx c) r = use ∧ setLater s u (.graphLoadComplete c r) := by
  have hnew : (takeSlot c r use va s).graph? c r = some { handle := use * 256 + r, va := va } := State.setGraph_graph_self ..
  have hlater : setLater s (takeSlot c r use va s) (.graphLoadComplete c r) := setLater_later (by rfl) _
  rw [updGraph_eq hnew]
  refine ⟨_, rfl, State.setGraph_graph_self .., ?_, hlater⟩
  simp [takeSlot, useCount]

/-- `gld` in the lowest free slot. -/
theorem execGld_lowest {d b : BitVec 6} {r : Nat} (hb : readS s b = 0) (hr : r < 256) (hfree : s.graph? c r = none)
    (hlow : ∀ k, k < r → s.graph? c k ≠ none) :
    ∃ u, execGld d a b s = .next (openDone n d (BitVec.ofNat 64 (useCount (s.ctx c) r * 256 + r)) u) ∧
      u.graph? c r = some (takenGraph (useCount (s.ctx c) r * 256 + r) (readS s a).toNat) ∧
      useCount (u.ctx c) r = useCount (s.ctx c) r ∧ setLater s u (.graphLoadComplete c r) := by
  have hfind : (List.range 256).find? (fun k => (s.graph? c k).isNone) = some r := by
    refine List.find?_range_eq_some.2 ⟨by simp [hfree], List.mem_range.2 hr, fun j hj => ?_⟩
    simpa [Option.ne_none_iff_isSome] using hlow j hj
  obtain ⟨u, hu, hfacts⟩ := takeSlot_takes (s := s) (c := c) r (useCount (s.ctx c) r) (readS s a).toNat
  refine ⟨u, ?_, hfacts⟩
  rw [← hu]
  simp only [execGld, onSeq_seq s hn, hc, hb, hfind]
  rfl

end asks

/-! ## Status (R207, R260) -/

section status
variable {s : State} {n c g sel : Nat} {d a : BitVec 6} (hn : s.cur.unit = .seq n)
include hn

theorem execGstat_wide (h : 2 ^ 32 ≤ (readS s a).toNat) : execGstat d a s = graphRefused n 7 s := by
  simp only [execGstat, onSeq_seq s hn, h, if_true, graphFault_eq]

theorem execMstat_wide (h : 2 ^ 32 ≤ (readS s a).toNat) : execMstat d a s = graphRefused n 7 s := by
  simp only [execMstat, onSeq_seq s hn, h, if_true, graphFault_eq]

section selected
variable {x : Graph} (hc : curCtx s = c) (hx : s.graph? c g = some x) (hg : g < 256) (hsel : sel < 65536)
  (hh : (readS s a).toNat = g + 256 * useCount (s.ctx c) g + 65536 * sel) (hu : useCount (s.ctx c) g < 256)

omit hn in
include hg hsel hh hu in
/-- The fields of a status operand: the selector above the handle. -/
theorem statusOperand_fields : ¬ 2 ^ 32 ≤ (readS s a).toNat ∧ bitsOf (readS s a).toNat 16 16 = sel ∧
    (BitVec.ofNat 64 ((readS s a).toNat % 65536)).toNat = g + 256 * useCount (s.ctx c) g := by
  rw [BitVec.toNat_ofNat, bitsOf]
  omega

include hc hx hg hsel hh hu

theorem execGstat_eq : execGstat d a s =
    if sel = 0xFFFF then .next (openDone n d (graphStatus s c g x) s)
    else if sel = 0xFFFE then .next (openDone n d x.load s)
    else if sel < 256 && sel < x.modeNow.regions.length then .next (openDone n d (regionStatus s c g sel x) s)
    else graphRefused n 7 s := by
  obtain ⟨hlt, hbits, hhandle⟩ := statusOperand_fields hg hsel hh hu
  simp only [execGstat, onSeq_seq s hn, hc, hlt, hbits, slotOf_handle hx hg hhandle hu, graphAt_eq hx, if_false]
  rfl

theorem execMstat_eq {m : MemActor} (hm : x.mems[sel]? = some m) : execMstat d a s = .next (openDone n d
    (BitVec.ofNat 64 (m.tokens % 2 ^ 32 * 2 ^ 32 + bit m.pagewait * 4 + bit m.range * 2 + bit m.bound)) s) := by
  obtain ⟨hlt, hbits, hhandle⟩ := statusOperand_fields hg hsel hh hu
  simp only [execMstat, onSeq_seq s hn, hc, hlt, hbits, slotOf_handle hx hg hhandle hu, graphAt_eq hx, hm, if_false]
  rfl

end selected
end status

/-! ## The obligation -/

theorem exec_setmode (a : BitVec 6) (mode : BitVec 3) (s : State) : exec (.setmode a mode) s = execSetmode a mode s := rfl
theorem exec_gact (a : BitVec 6) (s : State) : exec (.gact a) s = execGact a s := rfl
theorem exec_gdrain (a : BitVec 6) (s : State) : exec (.gdrain a) s = execGdrain a s := rfl
theorem exec_gunld (a : BitVec 6) (s : State) : exec (.gunld a) s = execGunld a s := rfl
theorem exec_gld (d a b : BitVec 6) (s : State) : exec (.gld d a b) s = execGld d a b s := rfl
theorem exec_gpatch (d a : BitVec 6) (tag : BitVec 12) (s : State) : exec (.gpatch d a tag) s = execGpatch d a tag s := rfl
theorem exec_gstat (d a : BitVec 6) (s : State) : exec (.gstat d a) s = execGstat d a s := rfl
theorem exec_mstat (d a : BitVec 6) (s : State) : exec (.mstat d a) s = execMstat d a s := rfl

/-- Settles O41: each instruction is a case of its handle and of the state of its graph, a request changes what `RequestOnly` lists, and
unloading leaves no arc of the graph. The time after which a step that a request sets is due is open (log 2). -/
theorem graphInstructions : Obligations.GraphInstructions := by
  unfold Obligations.GraphInstructions
  intro d a b mode tag s n g x hn c h uses hx hg
  have hc : curCtx s = c := curCtx_seq hn
  simp -zeta only [exec_setmode, exec_gact, exec_gdrain, exec_gunld, exec_gld, exec_gpatch, exec_gstat, exec_mstat]
  refine ⟨fun hh hu => ?named, fun hlt hstale => ?stale, fun r hb hr hfree hlow => ?load, fun sel hsel hh hu => ?status,
    fun hwide => ⟨execGstat_wide hn hwide, execMstat_wide hn hwide⟩⟩
  case named =>
    intro setsMode
    have hs : slotOf s c h = some g := slotOf_handle hx hg hh hu
    have hv : RequestOnly s (tellRanks c g s) := tellRanks_requestOnly ..
    have hvx : (tellRanks c g s).graph? c g = some x := (tellRanks_graph ..).trans hx
    refine ⟨execSetmode_notRun hn hc hs hx, execSetmode_running hn hc hs hx, execSetmode_changing hn hc hs hx, fun hst => ?activates,
      fun hst => ?drains, fun hst => ?drainsOn, ?unloads, fun hm hst => ?noMode, fun hst => ?wrongState,
      fun m i e hi hfirst he hend hm => ?patches⟩
    case activates =>
      have hexec := execGact_eq hn hc hs hx
      rw [if_pos hst, activate_eq hvx] at hexec
      exact ⟨_, hexec, (done_graph ..).trans (State.setGraph_graph_self ..), setLater_done (setLater_later hv.clock _),
        ((hv.trans (.setGraph ..)).trans (.later ..)).goesOn⟩
    case drains =>
      have hexec := execGdrain_eq hn hc hs hx (by simp [hst])
      rw [startDrain_running hvx hst] at hexec
      have hsw : RequestOnly s ((tellRanks c g s).setGraph c g x.drained) := hv.trans (.setGraph ..)
      have hw := State.setGraph_graph_self (tellRanks c g s) c g x.drained
      exact ⟨_, _, hexec, (done_graph ..).trans (inject_graph hw), rfl, rfl,
        fun p hp => setLater_done (setLater_of_clock hsw.clock (inject_setLater hw hp)), (hsw.trans (inject_requestOnly hw)).goesOn⟩
    case drainsOn =>
      have hexec := execGdrain_eq hn hc hs hx (by simp [hst])
      rw [startDrain_changing hvx hst] at hexec
      exact ⟨_, hexec, (done_graph ..).trans (State.setGraph_graph_self ..),
        (done_agenda _).trans (State.requests_eq_iff.1 (tellRanks_requests c g s)).2, (hv.trans (.setGraph ..)).goesOn⟩
    case unloads =>
      refine ⟨_, execGunld_eq hn hc hs, (done_graph ..).trans (unload_graph ..), ?_, fun k y hy => ?_⟩
      · rw [ctx_of_ctxs (done_ctxs _), unload_uses, ctx_of_ctxs hv.ctxs]
      · rw [State.arc?, done_arcs] at hy
        exact unload_arcs c g _ hy
    case noMode =>
      have ht : x.state.takesMode = true := by revert hst; cases x.state <;> simp [GraphState.takesMode]
      rw [execSetmode_eq hn hc hs hx, if_neg (by simp [ht]), if_pos (by simpa [setsMode] using hm)]
    case wrongState =>
      have ht : x.state.takesMode = false := by revert hst; cases x.state <;> simp [GraphState.takesMode]
      have hno : x.state ∉ [GraphState.loaded, .idle] := by revert hst; cases x.state <;> simp
      exact ⟨by rw [execSetmode_eq hn hc hs hx, if_pos ht], by rw [execGact_eq hn hc hs hx, if_neg hno]⟩
    case patches =>
      have hexec := execGpatch_eq hn hc hs hx (d := d) hi hfirst he hend
      refine ⟨fun hal => ?_, fun hal => by rw [hexec, if_neg hal]⟩
      rw [if_pos hal] at hexec
      exact ⟨_, hexec, (memAt_of_graphs (done_graphs _)).trans (memAt_updMem ⟨x, hx, hm⟩ _),
        RequestOnly.goesOn (.of_graphsOnly (updMem_graphs _))⟩
  case stale =>
    have hs : slotOf s c h = none := slotOf_stale hstale
    intro i hi
    simp only [List.mem_cons, List.not_mem_nil, or_false] at hi
    rcases hi with rfl | rfl | rfl | rfl | rfl
    · exact execSetmode_stale hn hc hs mode
    · exact execGact_stale hn hc hs
    · exact execGdrain_stale hn hc hs
    · exact execGunld_stale hn hc hs
    · exact execGpatch_stale hn hc hs d tag
  case load =>
    obtain ⟨u, hexec, hgraph, huse, hlater⟩ := execGld_lowest hn hc (d := d) (a := a) hb hr hfree hlow
    exact ⟨_, hexec, hgraph, huse, openDone_reg, hlater⟩
  case status =>
    have hexec := execGstat_eq (d := d) hn hc hx hg hsel hh hu
    refine ⟨fun hall => by rw [hexec, if_pos hall], fun hload => ?_, fun hlt hregion => ?_, fun m hm => execMstat_eq hn hc hx hg hsel hh hu hm⟩
    · rw [hexec, if_neg (by omega), if_pos hload]
    · rw [hexec, if_neg (by omega), if_neg (by omega), if_pos (by simp [hlt, hregion])]

end Sys2Proof.Machine
end

/-! # Spawns, kicks and armed templates

How a colour is asked for and drawn, how a kick departs, and how a copy template is armed (R254, R255, R257, R258, R263). -/
section
open Sys2Proof Sys2Proof.Machine Sys2Proof.Claims
namespace Sys2Proof.Machine

/-! ## A wait that is over (R102) -/

/-- The state in which a control unit that may have waited goes on. -/
def movedOn (n : Nat) (s : State) : State := s.updSeq n fun q => { q.advance s.pcyc with run := .run }

theorem passOn_eq (n : Nat) (s : State) : passOn n s = .next (movedOn n s) := rfl

theorem movedOn_graphs (n : Nat) (s : State) : (movedOn n s).graphs = s.graphs := rfl

theorem movedOn_seq (n : Nat) (s : State) : (movedOn n s).seq n = { (s.seq n).advance s.pcyc with run := .run } := State.updSeq_seq_self ..

/-- The unit goes on behind its instruction, and no memory has changed. -/
theorem StaysAt.movedOn {s u : State} {n : Nat} (hn : s.cur.unit = .seq n) (h : StaysAt s u) :
    keepsMemory s (movedOn n u) ∧ Claims.goesOn s (movedOn n u) := by
  refine ⟨keepsMemory_of_memories h.memories, fun m hm => ?_⟩
  obtain rfl : n = m := UnitId.seq.inj (hn.symm.trans hm)
  obtain ⟨hpc, hloops, hs⟩ := h.seqs n
  rw [movedOn_seq, h.clock]
  exact ⟨Seq.advance_pc_congr hpc hloops _, (Seq.advance_s ..).trans hs, Seq.advance_ready ..⟩

/-! ## A colour asked for (R255) -/

theorem mem_insertDraw (s : State) (id : Nat) (l : List Nat) : id ∈ insertDraw s id l := by
  induction l with
  | nil => exact List.mem_cons_self
  | cons x l ih =>
    unfold insertDraw
    extract_lets key a b
    split
    · exact List.mem_cons_self
    · exact List.mem_cons_of_mem _ ih

section ask
variable (o : Op) (s : State)

theorem askColour_op : ∃ w, s.pcyc < w ∧ mfind (askColour o s).ops s.opCount = some { o with usable := w } :=
  ⟨s.pcyc + 1 + Config.freeDelay s.freeCount, by omega, mfind_mset_self _ _ _⟩

theorem askColour_draws : s.opCount ∈ ((askColour o s).ctx o.ctx).draws := by
  simp only [askColour, State.setCtx_ctx_self]
  exact mem_insertDraw ..

end ask

/-- The draw that a `spawn` asks for. -/
def drawOp (s : State) (tag : Nat) (v : Payload) (dst : Option Nat) : Op :=
  { mkOp s (.colour tag v) 0 0 1 with dst := dst, left := [] }

section spawn
variable {s : State} {d a : BitVec 6} {tag : BitVec 12}

/-- In a tile the number drawn is a result due after 32 advancing cycles. -/
theorem execSpawn_tile {t : Nat} (hu : s.cur.unit = .tile t) {x : Arc} (hx : s.arc? (State.arcKey (curCtx s) tag.toNat) = some x)
    (hc : x.canSend = true) : execSpawn d a tag s =
      .next ((askColour (drawOp s tag.toNat (BitVec.ofNat 512 (readV s a).toNat) (some d.toNat)) s).setTile t
        (addPending (s.tile t) 32 (.scalar d.toNat 0) (some s.opCount))) := by
  simp only [execSpawn, hu, hx, Option.getD_some, hc, Bool.not_true, Bool.false_eq_true, if_false]
  rfl

section seq
variable {n : Nat} (hn : s.cur.unit = .seq n)
include hn

theorem execSpawn_waits (hrun : (s.seq n).run = .run) (hx : isSpawnArc s (State.arcKey (curCtx s) tag.toNat) = true) : execSpawn d a tag s =
    .next ((askColour (drawOp s tag.toNat ((readS s a).setWidth 512) none) s).updSeq n fun q =>
      { q with run := .spawn s.opCount, ready := s.pcyc + 1 }) := by
  simp only [execSpawn, hn, hrun, hx, Bool.not_true, Bool.false_eq_true, if_false]
  rfl

theorem execSpawn_served {id : Nat} {o : Op} (hrun : (s.seq n).run = .spawn id) (ho : mfind s.ops id = some o) (hs : o.served = true) :
    execSpawn d a tag s =
      .next (movedOn n ((s.dropOp id).updSeq n fun q => q.write d.toNat (BitVec.ofNat 64 o.got.toNat) s.pcyc)) := by
  simp only [execSpawn, hn, hrun, opAt, ho, hs, if_true, passOn_eq]

end seq
end spawn

/-! ## COLOUR_DRAW (R254, R255) -/

section draw
variable {s : State} {c k : Nat}

theorem freeColour_lowest {x : Ctx} (h0 : 0 < k) (hk : k < 64) (hfree : k ∉ x.drawn) (hlow : ∀ j, 0 < j → j < k → j ∈ x.drawn) :
    freeColour x = some k := by
  refine List.find?_range_eq_some.2 ⟨by simp [h0, hfree], List.mem_range.2 hk, fun j hj => ?_⟩
  rcases Nat.eq_zero_or_pos j with rfl | hj0
  · rfl
  · simp [hlow j hj0 hj]

theorem wordVec_ofNat (h : k < 2 ^ 64) : wordVec (BitVec.ofNat 64 k) = BitVec.ofNat 2048 k :=
  BitVec.setWidth_ofNat_of_le_of_lt (by decide) h

/-- A context that has given colour `k` to the draw `id`. -/
def colourDrawn (c k id : Nat) (s : State) : State :=
  s.setCtx c { s.ctx c with drawn := k :: (s.ctx c).drawn, draws := (s.ctx c).draws.filter (· != id) }

/-- What an open snapshot counts of colours says nothing of those drawn. -/
theorem countColour_draws (ctx : Nat) (passed : Bool) (k : Nat) (n : Int) (s : State) :
    ((countColour ctx passed k n s).ctx ctx).drawn = (s.ctx ctx).drawn ∧ ((countColour ctx passed k n s).ctx ctx).draws = (s.ctx ctx).draws := by
  unfold countColour
  split
  · exact ⟨rfl, rfl⟩
  · rw [State.setCtx_ctx_self]
    exact ⟨rfl, rfl⟩

theorem answer_rest (id : Nat) (o : Op) (v : Vec) (ready : Nat) (s : State) :
    (answer id o v ready s).arcs = s.arcs ∧ (answer id o v ready s).ctxs = s.ctxs := by
  unfold answer
  dsimp only
  (repeat' split) <;> exact ⟨rfl, rfl⟩

section served
variable {id tag : Nat} {o : Op} {v : Payload} {x : Arc} (ho : mfind s.ops id = some o) (hkind : o.kind = .colour tag v)
  (hctx : o.ctx = c) (hx : s.arc? (State.arcKey c tag) = some x) (hfree : freeColour (s.ctx c) = some k) (hdue : o.usable ≤ s.pcyc)
  (hsend : x.canSend = true) (hstop : x.stopping = false)
include ho hkind hctx hx hfree hdue hsend hstop

/-- A draw that the dispatcher can serve: the colour is taken and counted, its token departs, and the issuer gets the number. -/
theorem execColourDraw_serves : ∃ passed ready, execColourDraw id s = .next (answer id o (wordVec (BitVec.ofNat 64 k)) ready
    (sendToken (State.arcKey c tag) { kind := .data, tag := tag, colour := k, payload := v }
      (countColour c passed k 1 (colourDrawn c k id s)))) := by
  have hcan : canDraw s id = true := by
    simp only [canDraw, opAt, ho, hkind, hctx, hx, Option.getD_some, hdue, hfree, hsend, hstop, Option.isSome_some, decide_true, Bool.not_false,
      Bool.and_self]
  simp only [execColourDraw, opAt, ho, hkind, hctx, hcan, hfree, if_true]
  exact ⟨_, _, rfl⟩

theorem execColourDraw_next (hd : ∀ r, x.dst ≠ .remote r) : ∃ u p y, execColourDraw id s = .next u ∧
    (u.ctx c).drawn = k :: (s.ctx c).drawn ∧ id ∉ (u.ctx c).draws ∧ mfind u.ops id = some p ∧ p.served = true ∧
    p.got = wordVec (BitVec.ofNat 64 k) ∧ u.arc? (State.arcKey c tag) = some y ∧
    y.transit = x.transit ++ [{ kind := .data, tag := tag, colour := k, payload := v }] ∧ keepsMemory s u := by
  obtain ⟨passed, ready, hexec⟩ := execColourDraw_serves ho hkind hctx hx hfree hdue hsend hstop
  obtain ⟨hcarcs, -, -, -, -, hcmem, -⟩ := countColour_rest c passed k 1 (colourDrawn c k id s)
  obtain ⟨hdrawn, hdraws⟩ := countColour_draws c passed k 1 (colourDrawn c k id s)
  generalize countColour c passed k 1 (colourDrawn c k id s) = w at *
  have hw : w.arc? (State.arcKey c tag) = some x := by rw [State.arc?, hcarcs]; exact hx
  let tok : Token := { kind := .data, tag := tag, colour := k, payload := v }
  obtain ⟨-, hsctxs, -, -, hsmem⟩ := sendToken_rest hw hd tok
  obtain ⟨harcs, hctxs⟩ := answer_rest id o (wordVec (BitVec.ofNat 64 k)) ready (sendToken (State.arcKey c tag) tok w)
  obtain ⟨p, hp, hserved, -, hgot⟩ := answer_op (id := id) (o := o) (v := wordVec (BitVec.ofNat 64 k)) (ready := ready)
    (s := sendToken (State.arcKey c tag) tok w)
  have hctx := ctx_of_ctxs (hctxs.trans hsctxs) c
  refine ⟨_, p, x.sending w tok, hexec, ?_, ?_, hp, hserved, hgot, ?_, rfl, keepsMemory_of_memories ?_⟩
  · rw [hctx, hdrawn, colourDrawn, State.setCtx_ctx_self]
  · rw [hctx, hdraws, colourDrawn, State.setCtx_ctx_self]
    simp
  · rw [State.arc?, harcs]
    exact sendToken_arc_self hw hd tok
  · rw [answer_memories, hsmem, hcmem]
    rfl

end served
end draw

/-! ## Kicks (R257, R263) -/

section kick
variable {s : State} {a : BitVec 6} {tag : BitVec 12}

section sent
variable {x : Arc} (hx : s.arc? (State.arcKey (curCtx s) tag.toNat) = some x) (hc : x.canSend = true)
include hx hc

theorem execCkick_tile {t : Nat} (hu : s.cur.unit = .tile t) : execCkick a tag s =
    .next (sendToken (State.arcKey (curCtx s) tag.toNat) { kickToken s (readS s a) with tag := tag.toNat } s) := by
  simp only [execCkick, hu, hx, Option.getD_some, hc, if_true]

theorem execCkick_seq {n : Nat} (hn : s.cur.unit = .seq n) (htag : tag.toNat ≠ 4095) (hk : x.kind = .queue) : execCkick a tag s =
    .next (movedOn n (sendToken (State.arcKey (curCtx s) tag.toNat) { kickToken s (readS s a) with tag := tag.toNat } s)) := by
  simp only [execCkick, hn, htag, hx, hk, hc, Option.getD_some, Option.isNone_some, bne_self_eq_false, Bool.or_self, Bool.false_eq_true,
    if_false, if_true, passOn_eq]

end sent

/-- A kick of the host arc (R263). -/
theorem execCkick_host {n : Nat} (hn : s.cur.unit = .seq n) (htag : tag.toNat = 4095) (hroom : (s.ctx (curCtx s)).hostArc.length < 64) :
    execCkick a tag s = .next (movedOn n (s.setCtx (curCtx s)
      { s.ctx (curCtx s) with hostArc := (s.ctx (curCtx s)).hostArc ++ [(readS s a).toNat % 2 ^ 32] })) := by
  simp only [execCkick, hn, htag, hroom, if_true, passOn_eq]

/-- A token that departs leaves its unit where it stands. -/
theorem sendToken_staysAt {key : Nat} {x : Arc} (hx : s.arc? key = some x) (hd : ∀ r, x.dst ≠ .remote r) (tok : Token) :
    StaysAt s (sendToken key tok s) := by
  by_cases hk : x.kind = .slot
  · rw [sendToken_slot hx hd tok hk]
    exact .of_seqs rfl rfl rfl rfl
  · rw [sendToken_ring hx hd tok hk]
    exact .of_seqs rfl rfl rfl rfl

end kick

/-! ## `carm` (R258) -/

/-- Is a descriptor refused: an endpoint of it, or its length (R195, R258)? -/
def badDescriptor (y : Graph) (t w : Nat) : Bool :=
  let quad := ((y.image.copies[t]?).bind fun z => y.image.tileOf z.actor).map y.image.quadOf
  badEndpoint y.layout quad (bitsOf w 0 64) (bitsOf w 128 32) || badEndpoint y.layout quad (bitsOf w 64 64) (bitsOf w 128 32) ||
    16777216 < bitsOf w 128 32

/-- A template as a descriptor arms it. -/
def Template.described (x : Template) (w : Nat) : Template :=
  { x with armed := bitsOf w 128 32 != 0, src := bitsOf w 0 64, dst := bitsOf w 64 64, words := bitsOf w 128 32 }

theorem Template.described_eq (x : Template) (w : Nat) : x.described w =
    { x with armed := decide (bitsOf w 128 32 ≠ 0), src := bitsOf w 0 64, dst := bitsOf w 64 64, words := bitsOf w 128 32 } := by
  have h : (bitsOf w 128 32 != 0) = decide (bitsOf w 128 32 ≠ 0) := Bool.eq_iff_iff.2 (by simp)
  rw [Template.described, h]

/-- What a `carm` does with its descriptor at `pa`. -/
def armAt (n c slot t : Nat) (y : Graph) (pa _page : Nat) (s : State) : StepResult :=
  match underTest s pa with
  | some die => .next (holdRequest die (.seq n) (s.updSeq n fun q => { q with run := .carm, ready := s.pcyc + 1 }))
  | none =>
    if badDescriptor y t (readLE s.mem pa 32) then graphRefused n 6 s
    else .next (movedOn n (updCopy c slot t (fun x => x.described (readLE s.mem pa 32)) s))

section armAt
variable {s : State} {n c slot t pa page : Nat} {y : Graph}

theorem armAt_held {die : Nat} (h : underTest s pa = some die) : armAt n c slot t y pa page s =
    .next (holdRequest die (.seq n) (s.updSeq n fun q => { q with run := .carm, ready := s.pcyc + 1 })) := by
  simp only [armAt, h]

theorem armAt_arms (h : underTest s pa = none) (hb : ¬ badDescriptor y t (readLE s.mem pa 32) = true) : armAt n c slot t y pa page s =
    .next (movedOn n (updCopy c slot t (fun x => x.described (readLE s.mem pa 32)) s)) := by
  simp only [armAt, h, if_neg hb]

theorem armAt_refuses (h : underTest s pa = none) (hb : badDescriptor y t (readLE s.mem pa 32) = true) :
    armAt n c slot t y pa page s = graphRefused n 6 s := by
  simp only [armAt, h, if_pos hb]

end armAt

section carm
variable {s : State} {n t : Nat} {a : BitVec 6} {tag : BitVec 12} {x : Arc} {y : Graph} (hn : s.cur.unit = .seq n)
  (hx : s.arc? (State.arcKey (curCtx s) tag.toNat) = some x) (hd : x.dst = .copy t) (hy : s.graph? (curCtx s) x.slot = some y)
include hn hx hd hy

theorem execCarm_declared (h0 : readS s a = 0) :
    execCarm a tag s = .next (done (updCopy (curCtx s) x.slot t (declaredTemplate y t) s)) := by
  simp only [execCarm, onSeq_seq s hn, hx, Option.bind_some, templateOf, hd, graphAt_eq hy, h0, finish_eq]
  rfl

theorem execCarm_reads (h0 : readS s a ≠ 0) (hal : (readS s a).toNat % 32 = 0)
    (hops : ∀ o, o ∈ s.ops → o.2.cur.unit = .seq n → o.2.isDram = false) :
    execCarm a tag s = seqAccess n (readS s a).toNat .read s (armAt n (curCtx s) x.slot t y) := by
  have hva : (readS s a).toNat ≠ 0 := fun h => h0 (BitVec.eq_of_toNat_eq h)
  have hopen : openOps s n Op.isDram = false := List.any_eq_false.2 fun o ho => by
    by_cases hu : o.2.cur.unit = .seq n
    · simp [hops o ho hu]
    · simp [hu]
  simp only [execCarm, onSeq_seq s hn, hx, Option.bind_some, templateOf, hd, graphAt_eq hy, hva, hal, hopen, ne_eq, not_true_eq_false,
    Bool.false_eq_true, if_false]
  refine congrArg (seqAccess n _ .read s) (funext fun pa => funext fun _ => funext fun u => ?_)
  unfold armAt
  cases underTest u pa <;> rfl

end carm

/-! ## The obligation -/

theorem exec_spawn (d a : BitVec 6) (tag : BitVec 12) (s : State) : exec (.spawn d a tag) s = execSpawn d a tag s := rfl
theorem exec_ckick (a : BitVec 6) (tag : BitVec 12) (s : State) : exec (.ckick a tag) s = execCkick a tag s := rfl
theorem exec_carm (a : BitVec 6) (tag : BitVec 12) (s : State) : exec (.carm a tag) s = execCarm a tag s := rfl
theorem exec_colourDraw (id : Nat) (s : State) : exec (.colourDraw id) s = execColourDraw id s := rfl

/-- Settles O42: a spawn asks for a colour (`askColour`), which a draw gives with its token (`execColourDraw_next`), a kick is one token of its
queue, and `carm` reads its descriptor at the address that the TLB gives (`execCarm_reads`). When a draw reaches the dispatcher is open (log 2). -/
theorem spawnsAndKicks : Obligations.SpawnsAndKicks := by
  unfold Obligations.SpawnsAndKicks
  intro d a tag s x c key open_ colour hx
  simp -zeta only [exec_spawn, exec_ckick, exec_carm, exec_colourDraw]
  refine ⟨fun t hu hopen => ?tile, fun n hn hrun hspawn => ?asks, fun n id o hn hrun ho hserved hd => ?served,
    fun id o v k ho hkind hctx h0 hk hfree hlow hdue hopen hstop hd => ?draws, fun hqueue hopen hd => ?kicks, fun n hn htag hroom => ?host,
    fun n t y hn hcopy hy ht => ?arms⟩
  case tile =>
    obtain ⟨w, hw, hop⟩ := askColour_op (drawOp s tag.toNat (BitVec.ofNat 512 (readV s a).toNat) (some d.toNat)) s
    refine ⟨_, _, execSpawn_tile hu hx (Arc.canSend_of_room hopen), hop, rfl, ?_, askColour_draws .., hw, keepsMemory_of_memories rfl⟩
    simp only [awaited, hu, State.setTile_tile_self]
  case asks =>
    obtain ⟨w, hw, hop⟩ := askColour_op (drawOp s tag.toNat ((readS s a).setWidth 512) none) s
    refine ⟨_, _, execSpawn_waits hn hrun hspawn, hop, rfl, ?_, ?_, askColour_draws ..⟩
    · rw [State.updSeq_seq_self]
    · rw [State.updSeq_seq_self]
      rfl
  case served =>
    refine ⟨_, execSpawn_served hn hrun ho hserved, ?_, ?_, ?_, mfind_mdel_self ..⟩
    · rw [movedOn_seq, State.updSeq_seq_self]
      exact (congrArg (regOf · d.toNat) (Seq.advance_s ..)).trans ((regOf_setRegOf_self _ _ hd).trans (BitVec.ofNat_toNat ..))
    · rw [movedOn_seq]
    · rw [movedOn_seq, State.updSeq_seq_self]
      exact Seq.advance_pc_congr (q := (s.seq n).write d.toNat (BitVec.ofNat 64 o.got.toNat) s.pcyc) (r := s.seq n) rfl rfl _
  case draws =>
    obtain ⟨u, p, y, hexec, hdrawn, hdraws, hp, hserved, hgot, hrest⟩ := execColourDraw_next ho hkind hctx hx
      (freeColour_lowest h0 hk hfree hlow) hdue (Arc.canSend_of_room hopen) hstop hd
    exact ⟨u, p, y, hexec, hdrawn, hdraws, hp, hserved, hgot.trans (wordVec_ofNat (by omega)), hrest⟩
  case kicks =>
    have hcan := Arc.canSend_of_room hopen
    have hcolour : sendColour s = colour := by
      cases hu : s.cur.unit <;> simp only [sendColour, curColour, curActor, colour, hu]
    let tok : Token := { kind := .data, tag := tag.toNat, colour := colour, payload := (readS s a).setWidth 512 }
    have htok : { kickToken s (readS s a) with tag := tag.toNat } = tok := by rw [kickToken, hcolour]
    have hdep : departs s (sendToken key tok s) c tag.toNat x tok := departs_sendToken hx hd tag.isLt rfl
    have hstays : StaysAt s (sendToken key tok s) := sendToken_staysAt hx hd tok
    cases hu : s.cur.unit with
    | tile t =>
      have hexec := execCkick_tile (a := a) hx hcan hu
      rw [htok] at hexec
      exact ⟨_, hexec, hdep, keepsMemory_of_memories hstays.memories, fun n hn => by cases hu.symm.trans hn⟩
    | seq n =>
      obtain ⟨htag, hk⟩ := hqueue n hu
      have hexec := execCkick_seq (a := a) hx hcan hu htag hk
      rw [htok] at hexec
      exact ⟨_, hexec, departs_congr rfl rfl rfl rfl hdep, hstays.movedOn hu⟩
  case host =>
    refine ⟨_, execCkick_host hn htag hroom, ?_, (StaysAt.movedOn hn (.of_seqs rfl rfl rfl rfl)).2⟩
    exact congrArg Ctx.hostArc (State.setCtx_ctx_self ..)
  case arms =>
    have hc : (s.seq n).ctxid = c := (curCtx_seq hn).symm
    have hhas : HasCopy s c x.slot t := ⟨y, hy, ht⟩
    refine ⟨fun h0 => ?declared, fun e h0 hal hva hops hheld hwalk htlb hrd => ?described⟩
    case declared =>
      refine ⟨_, execCarm_declared hn hx hcopy hy h0, ?_, RequestOnly.goesOn (.of_graphsOnly (updCopy_graphs _))⟩
      exact (copyAt_of_graphs (done_graphs _)).trans (copyAt_updCopy hhas _)
    case described =>
      intro pa
      have hexec : execCarm a tag s = armAt n c x.slot t y pa e.va s := (execCarm_reads hn hx hcopy hy h0 hal hops).trans
        (seqAccess_hit hva (by rwa [hc]) hwalk (by rwa [hc]) hrd rfl)
      refine ⟨fun die hdie => hexec.trans (armAt_held hdie), fun hfree => ?_⟩
      intro w bad
      have hbad : bad ↔ badDescriptor y t w = true := by
        simp [bad, badDescriptor, or_assoc, w]
      refine ⟨fun hgood => ?_, fun hb => ?_⟩
      · refine ⟨_, hexec.trans (armAt_arms hfree (by rwa [← hbad])),
          (StaysAt.movedOn hn (RequestOnly.staysAt (.of_graphsOnly (updCopy_graphs _)))).2, ?_⟩
        exact (copyAt_of_graphs (movedOn_graphs ..)).trans ((copyAt_updCopy hhas _).trans (Template.described_eq ..))
      · exact hexec.trans (armAt_refuses hfree (hbad.1 hb))

end Sys2Proof.Machine
end

/-! # Element-wise rows and compares of the vector unit

The rows that take each element by itself, as functions of the values of the elements (R280 to R283, R286 to R290). -/
section
open Sys2Proof Sys2Proof.Machine Sys2Proof.Claims
namespace Sys2Proof.Machine

/-! ## The compares and the rounding rows -/

section rows
variable (fold : BitVec 2) (d a b c : BitVec 6) (p ft : BitVec 3) (rm : BitVec 4) (s : State)

theorem exec_vcmpeqInt : exec (.vcmpeqInt fold d a b p ft) s = intCompare (fun x y => x == y) fold d a b p ft s := rfl
theorem exec_vcmpneInt : exec (.vcmpneInt fold d a b p ft) s = intCompare (fun x y => x != y) fold d a b p ft s := rfl
theorem exec_vcmpltInt : exec (.vcmpltInt fold d a b p ft) s = intCompare (fun x y => decide (x < y)) fold d a b p ft s := rfl
theorem exec_vcmpleInt : exec (.vcmpleInt fold d a b p ft) s = intCompare (fun x y => decide (x ≤ y)) fold d a b p ft s := rfl
theorem exec_vcmpgtInt : exec (.vcmpgtInt fold d a b p ft) s = intCompare (fun x y => decide (y < x)) fold d a b p ft s := rfl
theorem exec_vcmpgeInt : exec (.vcmpgeInt fold d a b p ft) s = intCompare (fun x y => decide (y ≤ x)) fold d a b p ft s := rfl
theorem exec_vcmpeqFp : exec (.vcmpeqFp fold d a b p ft) s = fpCompare false (fun x y => !x.lt y && !y.lt x) fold d a b p ft s := rfl
theorem exec_vcmpneFp : exec (.vcmpneFp fold d a b p ft) s = fpCompare true (fun x y => x.lt y || y.lt x) fold d a b p ft s := rfl
theorem exec_vcmpltFp : exec (.vcmpltFp fold d a b p ft) s = fpCompare false (fun x y => x.lt y) fold d a b p ft s := rfl
theorem exec_vcmpleFp : exec (.vcmpleFp fold d a b p ft) s = fpCompare false (fun x y => !y.lt x) fold d a b p ft s := rfl
theorem exec_vcmpgtFp : exec (.vcmpgtFp fold d a b p ft) s = fpCompare false (fun x y => y.lt x) fold d a b p ft s := rfl
theorem exec_vcmpgeFp : exec (.vcmpgeFp fold d a b p ft) s = fpCompare false (fun x y => !x.lt y) fold d a b p ft s := rfl
theorem exec_vcmpun : exec (.vcmpun fold d a b p ft) s = fpCompare true (fun _ _ => false) fold d a b p ft s := rfl
theorem exec_vaddFp : exec (.vaddFp fold d a b p ft rm) s = fpRow (fun rdn x y _ => .add rdn x y) 4 fold d a b 0 p ft rm s := rfl
theorem exec_vsubFp : exec (.vsubFp fold d a b p ft rm) s = fpRow (fun rdn x y _ => .add rdn x y.neg) 4 fold d a b 0 p ft rm s := rfl
theorem exec_vmulFp : exec (.vmulFp fold d a b p ft rm) s = fpRow (fun _ x y _ => .mul x y) 4 fold d a b 0 p ft rm s := rfl
theorem exec_vfma : exec (.vfma fold d a b c p ft rm) s = fpRow (fun rdn x y z => .add rdn (.mul x y) z) 4 fold d a b c p ft rm s := rfl
theorem exec_vfms : exec (.vfms fold d a b c p ft rm) s = fpRow (fun rdn x y z => .add rdn (.mul x y) z.neg) 4 fold d a b c p ft rm s := rfl
theorem exec_vfnma : exec (.vfnma fold d a b c p ft rm) s =
    fpRow (fun rdn x y z => .add rdn z (Exact.mul x y).neg) 4 fold d a b c p ft rm s := rfl
theorem exec_vdiv : exec (.vdiv fold d a b p ft rm) s = fpRow (fun _ x y _ => .div x y) 16 fold d a b 0 p ft rm s := rfl
theorem exec_vsqrt : exec (.vsqrt fold d a p ft rm) s = fpRow (fun _ x _ _ => sqrtExact x) 16 fold d a 0 0 p ft rm s := rfl
theorem exec_vexp2 : exec (.vexp2 fold d a p ft rm) s = fpRow (fun _ x _ _ => exp2Exact x) 12 fold d a 0 0 p ft rm s := rfl
theorem exec_vlog2 : exec (.vlog2 fold d a p ft rm) s = fpRow (fun _ x _ _ => log2Exact x) 12 fold d a 0 0 p ft rm s := rfl
theorem exec_vrcp : exec (.vrcp fold d a p ft rm) s = fpRow (fun _ x _ _ => rcpExact x) 12 fold d a 0 0 p ft rm s := rfl
theorem exec_vrsqrt : exec (.vrsqrt fold d a p ft rm) s = fpRow (fun _ x _ _ => rsqrtExact x) 12 fold d a 0 0 p ft rm s := rfl
theorem exec_vtanh : exec (.vtanh fold d a p ft rm) s = fpRow (fun _ x _ _ => tanhExact x) 12 fold d a 0 0 p ft rm s := rfl
theorem exec_vsigm : exec (.vsigm fold d a p ft rm) s = fpRow (fun _ x _ _ => sigmExact x) 12 fold d a 0 0 p ft rm s := rfl

end rows

/-! ## Operands and completion (R135, R270, R276) -/

theorem scalarA_eq_grab (s : State) (a b c : BitVec 6) (p : Nat) : scalarA s a = (grab s a b c p).scalar := by
  unfold scalarA grab
  cases s.cur.cap <;> rfl

theorem scalarB_eq_grab (s : State) (a b c : BitVec 6) (p : Nat) : scalarB s b = (grab s a b c p).scalar2 := by
  unfold scalarB grab
  cases s.cur.cap <;> rfl

/-- A rounding draws for its own element (R64), whatever else the row reads. -/
theorem stochFor_grab (s : State) (a b c a' b' c' : BitVec 6) (p p' rm k : Nat) :
    stochFor (grab s a b c p) rm k = if rm % 8 = 5 then stochBits (grab s a' b' c' p') k else 0 := by
  rw [stochFor, stochBits_grab s a b c a' b' c' p p']

theorem finishCompare_tile {s : State} {t : Nat} (h : s.cur.unit = .tile t) (lat w : Nat) (fold : BitVec 2) (d : BitVec 6)
    (f : Nat → Bool) : finishCompare lat w fold d f s = .next (bitsDone lat w fold d f t s) :=
  onTile_tile s h _

section rows
variable {s : State} {t : Nat} {i : Instr} {fold : BitVec 2} {d a b c : BitVec 6} {p ft : BitVec 3} {rm : BitVec 4} {lat : Nat}

/-- An element-wise row, with any description of which elements it writes and of what it writes. -/
theorem exec_of_finishElems (h : s.cur.unit = .tile t) {w : Nat} {en en' : Nat → Bool} {f g : Nat → Nat}
    (hi : exec i s = finishElems lat w fold d en f s) (hen : ∀ k, en k = en' k) (hfg : ∀ k, f k = g k) :
    exec i s = .next (elemsDone lat w fold d en' g t s) := by
  obtain rfl : en = en' := funext hen
  obtain rfl : f = g := funext hfg
  rw [hi, finishElems_tile h]

/-- An element-wise row under its predicate. -/
theorem exec_of_enabledElems (h : s.cur.unit = .tile t) {w : Nat} {f g : Nat → Nat}
    (hi : exec i s = finishElems lat w fold d (fun k => (grab s a b c p.toNat).pred.getLsbD k) f s) (hfg : ∀ k, f k = g k) :
    exec i s = .next (elemsDone lat w fold d (enabled s p) g t s) :=
  exec_of_finishElems h hi (fun k => (enabled_eq_grab s a b c p k).symm) hfg

/-- A whole-register row, with any description of its results. -/
theorem exec_of_finishWhole (h : s.cur.unit = .tile t) {rs rs' : List Result} (hi : exec i s = finishWhole lat fold rs s) (hrs : rs = rs') :
    exec i s = .next (wholeDone lat fold rs' t s) := by
  rw [hi, hrs, finishWhole_tile h]

/-! ## Integers (R280) -/

theorem elem_lt (w v k : Nat) : elem w v k < 2 ^ w := Nat.mod_lt _ (Nat.two_pow_pos w)

/-- The value of an element in the type of its row (R78). -/
def intElem (s : State) (ft : BitVec 3) (r : BitVec 6) (k : Nat) : Int :=
  if signedCode ft then signedOf (widthOfCode ft) (elem (widthOfCode ft) (readV s r).toNat k)
  else (elem (widthOfCode ft) (readV s r).toNat k : Int)

theorem intOf_elem (w : Nat) (sg : Bool) (v k : Nat) :
    intOf w sg (elem w v k) = if sg then signedOf w (elem w v k) else (elem w v k : Int) := by
  rw [intOf, Nat.mod_eq_of_lt (elem_lt w v k)]

theorem patternOf_eq (w : Nat) (x : Int) : patternOf w x = (x % 2 ^ w).toNat := by
  rw [patternOf, Nat.cast_pow, Nat.cast_ofNat]

/-- Saturation is a clamp to the bounds of the type (R45). -/
theorem sat_eq_clamp (w : Nat) (sg : Bool) (x : Int) : (if sg then satSigned w x else satUnsigned w x) =
    (if sg then clamp (-2 ^ (w - 1)) (2 ^ (w - 1) - 1) else clamp 0 (2 ^ w - 1)) x := by
  cases sg <;> simp [satSigned, satUnsigned, clamp]

/-- An integer row writes the pattern of a value that is given by the values of its operands. -/
theorem exec_of_intRow (h : s.cur.unit = .tile t) {f : Nat → Bool → Int → Int → Int → Nat} {v : Nat → Int}
    (hi : exec i s = intRow f lat fold d a b c p ft s)
    (hv : ∀ k, f (widthOfCode ft) (signedCode ft) (intElem s ft a k) (intElem s ft b k) (intElem s ft c k) =
      patternOf (widthOfCode ft) (v k)) :
    exec i s = .next (elemsDone lat (widthOfCode ft) fold d (enabled s p) (fun k => (v k % 2 ^ widthOfCode ft).toNat) t s) := by
  refine exec_of_enabledElems h hi fun k => ?_
  rw [intOf_elem, intOf_elem, intOf_elem, ← patternOf_eq]
  exact hv k

/-! ## Shifts (R282) -/

theorem shArith_eq (w x n : Nat) : shArith w x n = (signedOf w x / 2 ^ n % 2 ^ w).toNat := by
  rw [shArith, patternOf_eq, Nat.cast_pow, Nat.cast_ofNat]

/-- A shift by a scalar, as beat 0 read it. -/
theorem exec_of_shiftRowS (h : s.cur.unit = .tile t) {f : Nat → Nat → Nat → Nat} {g : Nat → Nat}
    (hi : exec i s = shiftRowS f fold d a b p ft s)
    (hg : ∀ k, f (widthOfCode ft) (elem (widthOfCode ft) (readV s a).toNat k) ((scalarB s b).toNat % widthOfCode ft) = g k) :
    exec i s = .next (elemsDone 2 (widthOfCode ft) fold d (enabled s p) g t s) := by
  refine exec_of_enabledElems h hi fun k => ?_
  rw [← scalarB_eq_grab]
  exact hg k

/-! ## Compares (R283, R289) -/

/-- A compare of integers is a relation of the values of its elements. -/
theorem exec_of_intCompare (h : s.cur.unit = .tile t) {rel : Int → Int → Bool} {v : Nat → Bool}
    (hi : exec i s = intCompare rel fold d a b p ft s)
    (hv : ∀ k, rel (intElem s ft a k) (intElem s ft b k) = v k) :
    exec i s = .next (bitsDone 2 (widthOfCode ft) fold d (fun k => enabled s p k && v k) t s) := by
  simp only [hi, intCompare, finishCompare_tile h, ← enabled_eq_grab, intOf_elem, ← hv]
  rfl

/-- The exact value of an element in the format of its row (R43). -/
def floatElem (s : State) (ft : BitVec 3) (r : BitVec 6) (k : Nat) : Exact :=
  .decode (Flt.ofTag ft) (elem (Flt.ofTag ft).width (readV s r).toNat k)

/-- A compare of floats is a relation of the values of its elements, apart from NaN. -/
theorem exec_of_fpCompare (h : s.cur.unit = .tile t) {nan : Bool} {rel : Exact → Exact → Bool} {v : Nat → Bool}
    (hi : exec i s = fpCompare nan rel fold d a b p ft s) (hv : ∀ k, rel (floatElem s ft a k) (floatElem s ft b k) = v k) :
    exec i s = .next (bitsDone 4 (Flt.ofTag ft).width fold d (fun k => enabled s p k &&
      if (floatElem s ft a k).isNan || (floatElem s ft b k).isNan then nan else v k) t s) := by
  simp only [hi, fpCompare, finishCompare_tile h, ← enabled_eq_grab, ← hv]
  rfl

/-! ## Floats (R286, R287, R290) -/

/-- A rounding row rounds a value that is given by the values of its operands, with the draw of the element. -/
theorem exec_of_fpRow (h : s.cur.unit = .tile t) (b' c' : BitVec 6) {g : Bool → Exact → Exact → Exact → Exact} {v : Nat → Exact}
    (hi : exec i s = fpRow g lat fold d a b c p ft rm s)
    (hv : ∀ k, g (isRdn rm.toNat) (floatElem s ft a k) (floatElem s ft b k) (floatElem s ft c k) = v k) :
    exec i s = .next (elemsDone lat (Flt.ofTag ft).width fold d (enabled s p)
      (fun k => roundTo (Flt.ofTag ft) (v k) rm.toNat (if rm.toNat % 8 = 5 then stochBits (grab s a b' c' p.toNat) k else 0)) t s) := by
  refine exec_of_enabledElems h hi fun k => ?_
  rw [← hv, stochFor_grab s a b c a b' c' p.toNat p.toNat]
  rfl

end rows

theorem testBit_bit (v : Bool) (j : Nat) : (bit v).testBit j = (decide (j = 0) && v) := by
  cases v <;> cases j <;> simp [bit, Nat.testBit_succ]

/-- Negation flips the sign bit of an encoding that is no NaN (R287). -/
theorem signed_not_bitOf {f : Flt} {x : Nat} (hx : x < 2 ^ f.width) :
    f.signed (!bitOf x (f.width - 1)) (x % 2 ^ (f.width - 1)) = x ^^^ 2 ^ (f.width - 1) := by
  obtain ⟨n, hn⟩ : ∃ n, f.width = n + 1 := by cases f <;> exact ⟨_, rfl⟩
  simp only [Flt.signed, hn, Nat.add_sub_cancel, bitOf_eq_testBit] at hx ⊢
  refine Nat.eq_of_testBit_eq fun j => ?_
  rw [Nat.mul_comm, Nat.testBit_two_pow_mul_add _ (Nat.mod_lt _ (Nat.two_pow_pos n)), Nat.testBit_xor, Nat.testBit_two_pow,
    Nat.testBit_mod_two_pow, testBit_bit]
  rcases Nat.lt_trichotomy j n with hj | rfl | hj
  · simp [hj, hj.ne']
  · simp
  · have hhigh : x.testBit j = false := Nat.testBit_lt_two_pow (hx.trans_le (Nat.pow_le_pow_right (by decide) hj))
    simp [hhigh, hj.not_gt, hj.ne, Nat.sub_eq_zero_iff_le, hj.not_ge]

/-- Settles O17: each row writes the function of R280, R281 or R282 on the values of its operands. -/
theorem vectorIntegers : Obligations.VectorIntegers := by
  unfold Obligations.VectorIntegers
  intro fold d a b c p ft s t h w sg raw slot val sat ints bits n m
  have hmulh : ∀ k, iMulh w sg (val a k) (val b k) 0 = patternOf w (val a k * val b k / 2 ^ w) := fun k => by
    rw [iMulh, Nat.cast_pow, Nat.cast_ofNat]
  have hsat : ∀ x, patternOf w (if sg then satSigned w x else satUnsigned w x) = patternOf w (sat x) := fun x =>
    congrArg _ (sat_eq_clamp w sg x)
  exact ⟨exec_of_intRow h rfl fun _ => rfl, exec_of_intRow h rfl fun _ => rfl, exec_of_intRow h rfl fun _ => rfl,
    exec_of_intRow h rfl hmulh, exec_of_intRow h rfl fun _ => rfl, exec_of_intRow h rfl fun _ => rfl,
    exec_of_intRow h rfl fun k => congrArg (patternOf w) (Int.natCast_natAbs (val a k)), exec_of_intRow h rfl fun _ => rfl,
    exec_of_intRow h rfl fun k => hsat _, exec_of_intRow h rfl fun k => hsat _, exec_of_intRow h rfl fun _ => rfl,
    exec_of_intRow h rfl fun _ => rfl, exec_of_enabledElems h rfl fun _ => rfl, exec_of_enabledElems h rfl fun _ => rfl,
    exec_of_enabledElems h rfl fun _ => rfl, exec_of_enabledElems h rfl fun _ => rfl, exec_of_enabledElems h rfl fun _ => rfl,
    exec_of_enabledElems h rfl fun _ => rfl, exec_of_enabledElems h rfl fun _ => rfl, exec_of_enabledElems h rfl fun _ => rfl,
    exec_of_enabledElems h rfl fun k => shArith_eq w (raw a k) (n k), exec_of_enabledElems h rfl fun _ => rfl,
    exec_of_shiftRowS h rfl fun _ => rfl, exec_of_shiftRowS h rfl fun _ => rfl,
    exec_of_shiftRowS h rfl fun k => shArith_eq w (raw a k) m⟩

/-- Settles O18: each compare is its relation on the values of the two elements, and 0 where the element is disabled. -/
theorem vectorCompares : Obligations.VectorCompares := by
  unfold Obligations.VectorCompares
  intro fold d a b p ft s t h w val ints f flo nan floats
  exact ⟨exec_of_intCompare h (exec_vcmpeqInt ..) fun _ => rfl, exec_of_intCompare h (exec_vcmpneInt ..) fun _ => decide_not.symm,
    exec_of_intCompare h (exec_vcmpltInt ..) fun _ => rfl, exec_of_intCompare h (exec_vcmpleInt ..) fun _ => rfl,
    exec_of_intCompare h (exec_vcmpgtInt ..) fun _ => rfl, exec_of_intCompare h (exec_vcmpgeInt ..) fun _ => rfl,
    exec_of_fpCompare h (exec_vcmpeqFp ..) fun _ => rfl, exec_of_fpCompare h (exec_vcmpneFp ..) fun _ => rfl,
    exec_of_fpCompare h (exec_vcmpltFp ..) fun _ => rfl, exec_of_fpCompare h (exec_vcmpleFp ..) fun _ => rfl,
    exec_of_fpCompare h (exec_vcmpgtFp ..) fun _ => rfl, exec_of_fpCompare h (exec_vcmpgeFp ..) fun _ => rfl,
    exec_of_fpCompare h (exec_vcmpun ..) fun _ => rfl⟩

/-- Settles O20: each row rounds or picks by the values of its operands. -/
theorem vectorFloats : Obligations.VectorFloats := by
  unfold Obligations.VectorFloats
  intro fold d a b c p ft rm s t h f enc val rdn rounds picks
  have hneg : ∀ k, fneg f (enc a k) = if (val a k).isNan then f.nan else enc a k ^^^ 2 ^ (f.width - 1) := fun k => by
    rw [fneg, signed_not_bitOf (elem_lt ..)]
  exact ⟨exec_of_fpRow h b c (exec_vaddFp ..) fun _ => rfl, exec_of_fpRow h b c (exec_vsubFp ..) fun _ => rfl,
    exec_of_fpRow h b c (exec_vmulFp ..) fun _ => rfl, exec_of_fpRow h b c (exec_vfma ..) fun _ => rfl,
    exec_of_fpRow h b c (exec_vfms ..) fun _ => rfl, exec_of_fpRow h b c (exec_vfnma ..) fun _ => rfl,
    exec_of_fpRow h b c (exec_vdiv ..) fun _ => rfl, exec_of_fpRow h b c (exec_vsqrt ..) fun _ => rfl,
    exec_of_fpRow h b c (exec_vexp2 ..) fun _ => rfl, exec_of_fpRow h b c (exec_vlog2 ..) fun _ => rfl,
    exec_of_fpRow h b c (exec_vrcp ..) fun _ => rfl, exec_of_fpRow h b c (exec_vrsqrt ..) fun _ => rfl,
    exec_of_fpRow h b c (exec_vtanh ..) fun _ => rfl, exec_of_fpRow h b c (exec_vsigm ..) fun _ => rfl,
    exec_of_enabledElems h rfl fun _ => rfl, exec_of_enabledElems h rfl fun _ => rfl, exec_of_enabledElems h rfl fun _ => rfl,
    exec_of_enabledElems h rfl hneg⟩

end Sys2Proof.Machine
end

/-! # Movement in the vector unit

Selection, movement, permutes, compress, expand and the predicate rows (R284, R285, R298, R300, R302). -/
section
open Sys2Proof Sys2Proof.Machine Sys2Proof.Claims
namespace Sys2Proof.Machine

/-! ## Expansion (R300) -/

/-- The number of elements below `k` that a predicate picks. -/
def pickedBelow (on : Nat → Bool) (k : Nat) : Nat := ((List.range k).filter on).length

theorem pickedBelow_succ (on : Nat → Bool) (k : Nat) : pickedBelow on (k + 1) = pickedBelow on k + if on k then 1 else 0 := by
  rw [pickedBelow, List.range_succ, List.filter_append, List.length_append, pickedBelow, List.filter_singleton]
  cases on k <;> rfl

/-- An expansion puts at each picked position the next element of its source. -/
theorem expandFrom_eq_map (on : Nat → Bool) (x : Nat → Nat) (k n : Nat) : expandFrom on x k (pickedBelow on k) n =
    (List.range' k n).map fun i => if on i then x (pickedBelow on i) else 0 := by
  induction n generalizing k with
  | zero => rfl
  | succ n ih =>
    have hrest := ih (k + 1)
    rw [pickedBelow_succ] at hrest
    rw [expandFrom, List.range'_succ, List.map_cons, ← hrest]
    cases on k <;> rfl

/-- The register that an expansion writes. -/
theorem vecOfElems_expand (w : Nat) (on : Nat → Bool) (x : Nat → Nat) :
    BitVec.ofNat 2048 (packList w (expandFrom on x 0 0 (elemCount w))) =
      vecOfElems w fun k => if on k then x (pickedBelow on k) else 0 := by
  have hexpand : expandFrom on x 0 0 (elemCount w) = _ := expandFrom_eq_map on x 0 (elemCount w)
  rw [hexpand, vecOfElems_list w (by simp)]
  exact vecOfElems_congr fun k hk => by simp [hk]

/-! ## Predicates (R302) -/

/-- The first operand does not depend on the second one. -/
theorem predPair_fst (s : State) (a b b' : BitVec 6) : (predPair s a b).1 = (predPair s a b').1 := by
  unfold predPair grab
  cases s.cur.cap <;> rfl

theorem getLsbD_predOfBits (f : Nat → Bool) {k : Nat} (hk : k < 512) : (predOfBits f).getLsbD k = f k := by
  rw [predOfBits, pack, BitVec.getLsbD_ofNat, testBit_packFrom Nat.one_pos, testBit_bit]
  simp [hk, Nat.mod_one]

theorem toNat_ofNat_of_le_512 {n : Nat} (h : n ≤ 512) : (BitVec.ofNat 64 n).toNat = n :=
  Nat.mod_eq_of_lt (h.trans_lt (by decide))

theorem toNat_count (x : Pred) : (BitVec.ofNat 64 ((List.range 512).countP fun k => x.getLsbD k)).toNat =
    ((List.range 512).filter fun k => x.getLsbD k).length := by
  rw [List.countP_eq_length_filter]
  exact toNat_ofNat_of_le_512 ((List.length_filter_le ..).trans_eq List.length_range)

/-- The first position below `n` that satisfies `f`, or `n`. -/
theorem first_range (f : Nat → Bool) (n : Nat) :
    let v := ((List.range n).find? f).getD n
    (∀ k, k < v → f k = false) ∧ (v < n → f v = true) ∧ v ≤ n := by
  cases hv : (List.range n).find? f with
  | none => exact ⟨fun k hk => by simpa using List.find?_range_eq_none.1 hv k hk, fun hlt => absurd hlt (lt_irrefl n), le_rfl⟩
  | some i =>
    obtain ⟨hi, hmem, hbelow⟩ := List.find?_range_eq_some.1 hv
    exact ⟨fun k hk => by simpa using hbelow k hk, fun _ => hi, (List.mem_range.1 hmem).le⟩

section equations
variable (fold : BitVec 2) (d a b : BitVec 6) (ft : BitVec 3) (s : State)

theorem exec_vperm : exec (.vperm fold d a b ft) s =
    permRow (fun w n x y _ k => x (min n (2 ^ w) * (k / min n (2 ^ w)) + y k % min n (2 ^ w))) fold d a b ft s := rfl
theorem exec_vrot : exec (.vrot fold d a b ft) s = permRow (fun _ n x _ c k => x ((k + c) % n)) fold d a b ft s := rfl
theorem exec_vrev : exec (.vrev fold d a ft) s = permRow (fun _ n x _ _ k => x (n - 1 - k)) fold d a 0 ft s := rfl
theorem exec_vzip : exec (.vzip fold d a b ft) s =
    permRow (fun _ _ x y _ k => if k % 2 = 0 then x (k / 2) else y (k / 2)) fold d a b ft s := rfl
theorem exec_vunzip : exec (.vunzip fold d a b ft) s =
    permRow (fun _ n x y _ k => if 2 * k < n then x (2 * k) else y (2 * k - n)) fold d a b ft s := rfl
theorem exec_vbcast : exec (.vbcast fold d a b ft) s = permRow (fun _ n x _ c _ => x (c % n)) fold d a b ft s := rfl

end equations

section rows
variable {s : State} {t : Nat} {i : Instr} {fold : BitVec 2} {d a b : BitVec 6} {p ft : BitVec 3}

theorem exec_of_predRow (h : s.cur.unit = .tile t) {v v' : Pred} (hi : exec i s = predRow fold d v s) (hv : v = v') :
    exec i s = .next (wholeDone 1 fold [.pred d.toNat allTrue v'] t s) :=
  exec_of_finishWhole h hi (hv ▸ rfl)

/-! ## Permutes (R298) -/

/-- A permute writes every element of its register. -/
theorem exec_of_permRow (h : s.cur.unit = .tile t) {f : Nat → Nat → (Nat → Nat) → (Nat → Nat) → Nat → Nat → Nat}
    {g : Nat → Nat} (hi : exec i s = permRow f fold d a b ft s)
    (hg : ∀ k, f (widthOfCode ft) (elemCount (widthOfCode ft)) (elem (widthOfCode ft) (readV s a).toNat)
      (elem (widthOfCode ft) (readV s b).toNat) (scalarB s b).toNat k = g k) :
    exec i s = .next (wholeDone 4 fold [allElems (widthOfCode ft) d g] t s) := by
  obtain rfl := funext hg
  refine exec_of_finishWhole h hi ?_
  rw [← scalarB_eq_grab]
  rfl

/-! ## Compress, expand, extract (R284, R300) -/

theorem exec_vcompress_tile (h : s.cur.unit = .tile t) :
    let w := widthOfCode ft
    let picked := (List.range (elemCount w)).filter fun k => enabled s p k
    exec (.vcompress fold d a b p ft) s = .next (wholeDone 4 fold
      [allElems w d fun j => ((picked.map (elem w (readV s a).toNat))[j]?).getD 0,
       .scalar b.toNat (BitVec.ofNat 64 picked.length)] t s) := by
  intro w picked
  have hlen : (picked.map (elem w (readV s a).toNat)).length ≤ elemCount w := by
    rw [List.length_map]
    exact (List.length_filter_le ..).trans_eq List.length_range
  refine exec_of_finishWhole h rfl ?_
  simp only [← enabled_eq_grab, allElems, ← vecOfElems_list w hlen]
  rfl

theorem exec_vexpand_tile (h : s.cur.unit = .tile t) :
    let w := widthOfCode ft
    exec (.vexpand fold d a p ft) s = .next (wholeDone 4 fold
      [allElems w d fun k => if enabled s p k then elem w (readV s a).toNat (pickedBelow (enabled s p) k) else 0] t s) := by
  intro w
  refine exec_of_finishWhole h rfl ?_
  simp only [← enabled_eq_grab, vecOfElems_expand]
  rfl

theorem exec_vext_tile (h : s.cur.unit = .tile t) :
    exec (.vext fold d a b ft) s = .next (wholeDone 3 fold
      [.scalar d.toNat (BitVec.ofInt 64 (intElem s ft a ((scalarB s b).toNat % elemCount (widthOfCode ft))))] t s) := by
  refine exec_of_finishWhole h rfl ?_
  rw [intOf_elem, ← scalarB_eq_grab]
  rfl

end rows

/-- Settles O19: the elements of each row stand where its rule puts them, and the predicate rows are given bit by bit. -/
theorem vectorMovement : Obligations.VectorMovement := by
  unfold Obligations.VectorMovement
  intro fold d a b p ft imm s t h w n x y cb ca pa pb elems whole perm preds picked
  have hpair : predPair s a b = (pa, pb) := by
    simp only [predPair, grab, pa, pb]
    cases s.cur.cap <;> rfl
  have hpa : (predPair s a 0).1 = pa := (predPair_fst s a 0 b).trans (congrArg Prod.fst hpair)
  have hcb : (grab s a b 0 0).scalar2.toNat = cb := congrArg BitVec.toNat (scalarB_eq_grab s a b 0 0).symm
  have hzip : ∀ k, (if k % 2 = 0 then x (k / 2) else y (k / 2)) = if k % 2 = 0 then x (k / 2) else y ((k - 1) / 2) := fun k => by
    split
    · rfl
    · rw [show (k - 1) / 2 = k / 2 by omega]
  refine ⟨exec_of_finishElems h rfl (fun _ => rfl) fun k => ?sel, exec_of_finishElems h rfl (fun _ => rfl) fun k => ?splat,
    exec_of_finishElems h rfl (fun _ => rfl) fun _ => rfl, exec_of_finishElems h rfl (fun k => ?place) fun k => ?ins, exec_vext_tile h,
    exec_of_finishElems h rfl (fun _ => rfl) fun _ => rfl, exec_of_permRow h (exec_vperm ..) fun _ => rfl,
    exec_of_permRow h (exec_vrot ..) fun _ => rfl, exec_of_permRow h (exec_vrev ..) fun _ => rfl, exec_of_permRow h (exec_vzip ..) hzip,
    exec_of_permRow h (exec_vunzip ..) fun _ => rfl, exec_of_permRow h (exec_vbcast ..) fun _ => rfl, exec_vcompress_tile h,
    exec_vexpand_tile h, exec_of_predRow h rfl (by rw [hpair]), exec_of_predRow h rfl (by rw [hpair]),
    exec_of_predRow h rfl (by rw [hpair]), exec_of_predRow h rfl (congrArg _ hpa), exec_of_predRow h rfl hpa, exec_of_predRow h rfl rfl,
    exec_of_predRow h rfl rfl, ⟨_, exec_of_finishWhole h rfl rfl, ?count⟩, ⟨_, exec_of_finishWhole h rfl rfl, ?first⟩,
    ⟨_, exec_of_predRow h rfl rfl, ?less⟩⟩
  case sel => rw [← enabled_eq_grab]
  case splat => rw [← scalarA_eq_grab]
  case place => rw [hcb]
  case ins => rw [← scalarA_eq_grab]
  case count => rw [hpa, toNat_count]
  case first =>
    obtain ⟨hbelow, hat, hle⟩ := first_range (fun k => pa.getLsbD k) 512
    rw [hpa, toNat_ofNat_of_le_512 hle]
    exact ⟨hbelow, hat, hle⟩
  case less =>
    intro k hk
    rw [getLsbD_predOfBits _ hk, ← scalarA_eq_grab]

end Sys2Proof.Machine
end

/-! # Conversions of the vector unit

Conversions between formats, quantisation with its scales, and the rows that apply scales (R291 to R295). -/
section
open Sys2Proof Sys2Proof.Machine Sys2Proof.Claims
namespace Sys2Proof.Machine

/-! ## Scales as bytes of a register (R293) -/

theorem getLsbD_maskOf {w : Nat} (hw : 0 < w) (hd : w ∣ 2048) (on : Nat → Bool) {i : Nat} (hi : i < 2048) :
    (maskOf w on).getLsbD i = on (i / w) := by
  rw [maskOf, getLsbD_vecOfElems hw hd _ hi]
  cases on (i / w) <;> simp [Nat.testBit_two_pow_sub_one, Nat.mod_lt i hw]

theorem getLsbD_lowByte {i : Nat} (hi : i < 2048) : (BitVec.ofNat 2048 255).getLsbD i = decide (i < 8) := by
  rw [BitVec.getLsbD_ofNat, show 255 = 2 ^ 8 - 1 from rfl, Nat.testBit_two_pow_sub_one, decide_eq_true hi, Bool.true_and]

/-- The mask of all bytes but byte 0. -/
def upperBytes : Vec := maskOf 8 fun j => j != 0

theorem getLsbD_upperBytes {i : Nat} (hi : i < 2048) : upperBytes.getLsbD i = decide (8 ≤ i) := by
  rw [upperBytes, getLsbD_maskOf (by decide) (by decide) _ hi, bne, beq_eq_decide, ← decide_not]
  exact decide_eq_decide.2 (by omega)

theorem lowByte_or_upperBytes : BitVec.ofNat 2048 255 ||| upperBytes = BitVec.allOnes 2048 :=
  BitVec.eq_of_getLsbD_eq fun i hi => by
    rw [BitVec.getLsbD_or, getLsbD_lowByte hi, getLsbD_upperBytes hi, BitVec.getLsbD_allOnes, ← Bool.decide_or]
    exact decide_eq_decide.2 (by omega)

theorem lowByte_and_upperBytes : BitVec.ofNat 2048 255 &&& upperBytes = 0 :=
  BitVec.eq_of_getLsbD_eq fun i hi => by
    rw [BitVec.getLsbD_and, getLsbD_lowByte hi, getLsbD_upperBytes hi, ← Bool.decide_and]
    exact (decide_eq_false (by omega)).trans BitVec.getLsbD_zero.symm

/-- Byte 0 and the bytes behind it, each under its mask, are all bytes. -/
theorem lowByte_merge_upperBytes (f : Nat → Nat) : (BitVec.ofNat 2048 255 &&& BitVec.ofNat 2048 (f 0)) |||
    (upperBytes &&& vecOfElems 8 fun j => if j = 0 then 0 else f j) = vecOfElems 8 f :=
  BitVec.eq_of_getLsbD_eq fun i hi => by
    have hbyte (g : Nat → Nat) : (vecOfElems 8 g).getLsbD i = (g (i / 8)).testBit (i % 8) :=
      getLsbD_vecOfElems (by decide) (by decide) g hi
    rw [BitVec.getLsbD_or, BitVec.getLsbD_and, BitVec.getLsbD_and, getLsbD_lowByte hi, getLsbD_upperBytes hi, hbyte, hbyte,
      BitVec.getLsbD_ofNat, decide_eq_true hi]
    by_cases h : i < 8
    · simp [h, Nat.div_eq_of_lt h, Nat.mod_eq_of_lt h]
    · simp [h, Nat.not_lt.1 h, show i / 8 ≠ 0 by omega]

/-- The scale that quantisation chooses for block `g` of 32 elements; behind the last block there are zeros (R293). -/
def quantScale (s : State) (sf df : Flt) (a : BitVec 6) (p : BitVec 3) (g : Nat) : Nat :=
  if g < elemCount sf.width / 32 then
    chooseScale df (((List.range 32).filter fun j => enabled s p (32 * g + j)).map fun j =>
      Exact.decode sf (elem sf.width (readV s a).toNat (32 * g + j)))
  else 0

theorem getD_map_range (f : Nat → Nat) (n g : Nat) : ((List.range n).map f).getD g 0 = if g < n then f g else 0 := by
  rw [List.getD_eq_getElem?_getD]
  by_cases h : g < n <;> simp [h]

/-! ## The rows -/

section rows
variable {s : State} {t : Nat} {i : Instr} {fold : BitVec 2} {d a src c : BitVec 6} {p : BitVec 3} {rm dst : BitVec 4}

/-- A row that converts into another width, with any description of its elements. -/
theorem exec_of_convertWhole (h : s.cur.unit = .tile t) {n w : Nat} {f g : Nat → Nat}
    (hi : exec i s = convertWhole n w fold d (fun k => (grab s a src c p.toNat).pred.getLsbD k) f s) (hfg : ∀ k, f k = g k) :
    exec i s = .next (wholeDone 4 fold [.vector d.toNat (maskOf w fun k => if k < n then enabled s p k else true)
      (vecOfElems w fun k => if k < n ∧ enabled s p k = true then g k else 0)] t s) := by
  obtain rfl : f = g := funext hfg
  have hon (k : Nat) : (k < n ∧ (if k < n then enabled s p k else true) = true) ↔ (k < n ∧ enabled s p k = true) :=
    and_congr_right fun hk => by rw [if_pos hk]
  refine exec_of_finishWhole h hi ?_
  simp only [← enabled_eq_grab, hon]

theorem exec_vcvt : exec (.vcvt fold d a src p rm dst) s = execVcvt fold d a src p rm dst s := rfl

/-- Quantisation writes byte 0 of its scales, its elements, and the other scales. -/
theorem exec_vquant_tile (h : s.cur.unit = .tile t) :
    let sf := Flt.ofType src.toNat
    let df := Flt.ofType dst.toNat
    let e := elemCount sf.width
    let sc := quantScale s sf df a p
    exec (.vquant fold d a src c p rm dst) s = .next (wholeDone 4 fold
      [.vector c.toNat (BitVec.ofNat 2048 255) (BitVec.ofNat 2048 (sc 0)),
       .vector d.toNat (maskOf df.width fun k => if k < e then enabled s p k else true) (vecOfElems df.width fun k =>
         if k < e ∧ enabled s p k = true then quantElem df (sc (k / 32)) (Exact.decode sf (elem sf.width (readV s a).toNat k)) rm.toNat
           (stochFor (grab s a src c p.toNat) rm.toNat k) else 0),
       .vector c.toNat upperBytes (vecOfElems 8 fun j => if j = 0 then 0 else sc j)] t s) := by
  intro sf df e sc
  refine exec_of_finishWhole h rfl ?_
  simp only [getD_map_range, ← enabled_eq_grab]
  rfl

end rows

/-- Settles O21: each row converts its enabled elements; the three writes of `vquant` put together are its elements and its scales. -/
theorem vectorConversions : Obligations.VectorConversions := by
  unfold Obligations.VectorConversions
  intro fold d a src c p rm dst s t h ws wd sf df r draw x scale on converts e block sc
  have hdraw : ∀ k, stochFor (grab s a src 0 p.toNat) r k = draw k := fun k => stochFor_grab s a src 0 a src c p.toNat p.toNat r k
  refine ⟨fun hw => exec_of_enabledElems h (exec_vcvt.trans (if_pos hw)) fun k => ?_,
    fun hw => exec_of_convertWhole h (exec_vcvt.trans (if_neg hw)) fun k => ?_, ⟨_, exec_vquant_tile h, fun hbeat => if_neg hbeat,
    fun hbeat => ⟨_, _, _, _, rfl, if_pos hbeat, lowByte_or_upperBytes, lowByte_and_upperBytes, lowByte_merge_upperBytes sc⟩⟩,
    exec_of_convertWhole h rfl fun _ => rfl, exec_of_convertWhole h rfl fun _ => rfl, exec_of_convertWhole h rfl fun _ => rfl⟩
  · rw [hdraw]
  · rw [hdraw]

end Sys2Proof.Machine
end

/-! # The order of the sort

`vsortn` sorts by insertion: keys fall, and equal keys keep their slot order (R299). -/
section
open Sys2Proof Sys2Proof.Machine Sys2Proof.Claims
namespace Sys2Proof.Machine

/-- The ranks of a list of keys with values never rise. -/
def RanksFall (rank : Nat → Int) (l : List (Nat × Nat)) : Prop := l.Pairwise fun e g => rank g.1 ≤ rank e.1

/-- The entries of one rank, in their order. -/
def ofRank (rank : Nat → Int) (r : Int) (l : List (Nat × Nat)) : List (Nat × Nat) := l.filter fun e => rank e.1 = r

section sort
variable {rank : Nat → Int} {e : Nat × Nat} {l : List (Nat × Nat)}

theorem ofRank_append (rank : Nat → Int) (r : Int) (l m : List (Nat × Nat)) :
    ofRank rank r (l ++ m) = ofRank rank r l ++ ofRank rank r m :=
  List.filter_append ..

theorem ofRank_eq_nil {r : Int} (h : ∀ y ∈ l, rank y.1 < r) : ofRank rank r l = [] :=
  List.filter_eq_nil_iff.2 fun y hy => by simpa using (h y hy).ne

/-- An insertion is Mathlib's, in front of the first entry of a lower rank. -/
theorem insertKey_eq_orderedInsert (rank : Nat → Int) (e : Nat × Nat) (l : List (Nat × Nat)) :
    insertKey rank e l = l.orderedInsert (fun e g => rank g.1 < rank e.1) e := by
  induction l with
  | nil => rfl
  | cons x l ih => rw [insertKey, List.orderedInsert_cons, ih]

theorem insertKey_perm (rank : Nat → Int) (e : Nat × Nat) (l : List (Nat × Nat)) : (insertKey rank e l).Perm (e :: l) := by
  rw [insertKey_eq_orderedInsert]
  exact List.perm_orderedInsert _ e l

theorem RanksFall.insertKey (h : RanksFall rank l) : RanksFall rank (insertKey rank e l) := by
  induction l with
  | nil => exact List.pairwise_singleton ..
  | cons x l ih =>
    obtain ⟨hx, hl⟩ := List.pairwise_cons.1 h
    rw [Machine.insertKey]
    split
    case isTrue hlt => exact List.pairwise_cons.2 ⟨List.forall_mem_cons.2 ⟨hlt.le, fun y hy => (hx y hy).trans hlt.le⟩, h⟩
    case isFalse hle =>
      refine List.pairwise_cons.2 ⟨fun y hy => ?_, ih hl⟩
      obtain rfl | hy := List.mem_cons.1 ((insertKey_perm rank e l).mem_iff.1 hy)
      · exact not_lt.1 hle
      · exact hx y hy

/-- An entry goes behind all entries of its rank, and the other ranks keep their entries. -/
theorem RanksFall.ofRank_insertKey (h : RanksFall rank l) (r : Int) :
    ofRank rank r (Machine.insertKey rank e l) = ofRank rank r l ++ ofRank rank r [e] := by
  induction l with
  | nil => rfl
  | cons x l ih =>
    obtain ⟨hx, hl⟩ := List.pairwise_cons.1 h
    rw [Machine.insertKey]
    split
    case isTrue hlt =>
      by_cases he : rank e.1 = r
      · have hlow : ofRank rank r (x :: l) = [] :=
          ofRank_eq_nil (he ▸ List.forall_mem_cons.2 ⟨hlt, fun y hy => (hx y hy).trans_lt hlt⟩)
        rw [← List.singleton_append (x := e), ofRank_append, hlow, List.append_nil, List.nil_append]
      · simp [ofRank, he]
    case isFalse =>
      rw [← List.singleton_append, ofRank_append, ih hl, ← List.append_assoc, ← ofRank_append, List.singleton_append]

/-- A loop of insertions keeps falling ranks, adds its entries, and puts each behind the entries of its rank. -/
theorem foldl_insertKey {acc : List (Nat × Nat)} (h : RanksFall rank acc) :
    let sorted := l.foldl (fun acc e => insertKey rank e acc) acc
    sorted.Perm (acc ++ l) ∧ RanksFall rank sorted ∧ ∀ r, ofRank rank r sorted = ofRank rank r acc ++ ofRank rank r l := by
  induction l generalizing acc with
  | nil => exact ⟨(List.append_nil acc).symm ▸ .rfl, h, fun r => (List.append_nil _).symm⟩
  | cons e l ih =>
    obtain ⟨hperm, hfall, hrank⟩ := ih (h.insertKey (e := e))
    refine ⟨hperm.trans (((insertKey_perm rank e acc).append_right l).trans List.perm_middle.symm), hfall, fun r => ?_⟩
    rw [List.foldl_cons, hrank, h.ofRank_insertKey, List.append_assoc, ← ofRank_append, List.singleton_append]

end sort

/-- Settles O23: insertion into falling ranks is stable. -/
theorem sortOrders : Obligations.SortOrders := fun _ _ => foldl_insertKey List.Pairwise.nil

end Sys2Proof.Machine
end

/-! # Moduli and the modular rows

The Montgomery constants as congruences (R304), and the modular rows as functions of pairs (R306 to R315). -/
section
open Sys2Proof Sys2Proof.Machine Sys2Proof.Claims
namespace Sys2Proof.Machine

/-! ## Moduli (R304) -/

theorem validMod_iff (q : Nat) : validMod q = true ↔ q % 2 = 1 ∧ 3 ≤ q ∧ q < 2 ^ 62 := by
  simp [validMod, and_assoc]

/-! ## The inverse modulo 2^64 -/

theorem intCast_mod_word (n : Nat) : ((n % 2 ^ 64 : Nat) : Int) = n - 2 ^ 64 * (n / 2 ^ 64 : Nat) := by omega

/-- A Newton step doubles the number of low bits in which `x` is the inverse of `q`, up to 64. -/
theorem newton_step {q x m : Nat} (h : (2 ^ m : Int) ∣ q * x - 1) :
    (2 ^ min (2 * m) 64 : Int) ∣ q * (x * (2 ^ 64 + 2 - q * x % 2 ^ 64) % 2 ^ 64 : Nat) - 1 := by
  have hsq : (2 ^ min (2 * m) 64 : Int) ∣ (q * x - 1) ^ 2 :=
    (pow_dvd_pow 2 (Nat.min_le_left ..)).trans (by rw [mul_comm, pow_mul]; exact pow_dvd_pow_of_dvd h 2)
  have hword : (2 ^ min (2 * m) 64 : Int) ∣ 2 ^ 64 := pow_dvd_pow 2 (Nat.min_le_right ..)
  have hsub : ((2 ^ 64 + 2 - q * x % 2 ^ 64 : Nat) : Int) = 2 ^ 64 + 2 - (q * x % 2 ^ 64 : Nat) := by omega
  rw [intCast_mod_word, Nat.cast_mul, hsub, intCast_mod_word, Nat.cast_mul]
  generalize ((q * x / 2 ^ 64 : Nat) : Int) = c
  generalize ((x * (2 ^ 64 + 2 - q * x % 2 ^ 64) / 2 ^ 64 : Nat) : Int) = e
  have hsplit : (q * (x * (2 ^ 64 + 2 - (q * x - 2 ^ 64 * c)) - 2 ^ 64 * e) - 1 : Int) =
      2 ^ 64 * (q * x * (1 + c) - q * e) - (q * x - 1) ^ 2 := by ring
  rw [hsplit]
  exact dvd_sub (hword.mul_right _) hsq

theorem inv64Steps_lt (q n x : Nat) : inv64Steps q (n + 1) x < 2 ^ 64 := by
  induction n generalizing x with
  | zero => exact Nat.mod_lt _ (by decide)
  | succ n ih => exact ih _

/-- An odd number is its own inverse in 3 bits, and so after five steps `q` has its inverse in 64. -/
theorem inv64Steps_inverse {q : Nat} (hq : q % 2 = 1) : (2 ^ 64 : Int) ∣ q * inv64Steps q 5 q - 1 := by
  have hstart : (2 ^ 3 : Int) ∣ q * q - 1 := by
    have hmod : q * q % 8 = 1 := by
      have : q % 8 = 1 ∨ q % 8 = 3 ∨ q % 8 = 5 ∨ q % 8 = 7 := by omega
      rcases this with h | h | h | h <;> simp [Nat.mul_mod, h]
    omega
  exact newton_step (m := 48) (newton_step (m := 24) (newton_step (m := 12) (newton_step (m := 6) (newton_step (m := 3) hstart))))

theorem montK_mul {q : Nat} (hv : validMod q = true) : (montK q * q + 1) % 2 ^ 64 = 0 := by
  obtain ⟨hodd, -, -⟩ := (validMod_iff q).1 hv
  have hlt := inv64Steps_lt q 4 q
  have hinv := inv64Steps_inverse hodd
  rw [montK, if_pos hv, ← Nat.dvd_iff_mod_eq_zero, ← Int.natCast_dvd_natCast]
  generalize inv64Steps q 5 q = y at hlt hinv
  have hsub : ((2 ^ 64 - y : Nat) : Int) = 2 ^ 64 - y := by omega
  rw [Nat.cast_add, Nat.cast_mul, intCast_mod_word, hsub]
  generalize (((2 ^ 64 - y) / 2 ^ 64 : Nat) : Int) = c
  have hsplit : ((2 ^ 64 - y - 2 ^ 64 * c) * q + (1 : Nat) : Int) = 2 ^ 64 * (q * (1 - c)) - (q * y - 1) := by push_cast; ring
  rw [hsplit]
  exact dvd_sub (dvd_mul_right ..) hinv

/-! ## The Montgomery product (R312) -/

section halving
variable {q x : Nat} (hq : q % 2 = 1)
include hq

theorem halfMod_lt (hx : x < q) : halfMod q x < q := by
  unfold halfMod
  split <;> omega

theorem halfMod_mul_two (x : Nat) : halfMod q x * 2 ≡ x [MOD q] := by
  unfold halfMod
  split
  case isTrue h => rw [Nat.div_mul_cancel (Nat.dvd_of_mod_eq_zero h)]
  case isFalse h =>
    rw [Nat.div_mul_cancel (by omega)]
    exact Nat.add_modEq_right

/-- Halving `n` times keeps a residue a residue and divides it by `2 ^ n` modulo `q`. -/
theorem halveMod_spec (n : Nat) (hx : x < q) : halveMod q n x < q ∧ halveMod q n x * 2 ^ n ≡ x [MOD q] := by
  induction n generalizing x with
  | zero => exact ⟨hx, by rw [pow_zero, mul_one]; rfl⟩
  | succ n ih =>
    obtain ⟨hlt, hmul⟩ := ih (halfMod_lt hq hx)
    refine ⟨hlt, ?_⟩
    rw [halveMod, pow_succ, ← mul_assoc]
    exact (hmul.mul_right 2).trans (halfMod_mul_two hq x)

end halving

/-- Settles O24: five Newton steps invert an odd number, and 64 halvings divide by 2^64. -/
theorem montgomeryConstants : Obligations.MontgomeryConstants := by
  unfold Obligations.MontgomeryConstants
  intro q x
  refine ⟨validMod_iff q, fun hv => ?_, fun hv => ?_⟩
  · have hno : ¬ validMod q = true := by rw [hv]; decide
    exact ⟨if_neg hno, if_neg hno⟩
  · obtain ⟨hodd, hlow, -⟩ := (validMod_iff q).1 hv
    obtain ⟨hlt, hmul⟩ := halveMod_spec hodd 64 (Nat.mod_lt x (by omega : 0 < q))
    have hk : montK q < 2 ^ 64 := by
      rw [montK, if_pos hv]
      exact Nat.mod_lt _ (by decide)
    exact ⟨hk, montK_mul hv, if_pos hv, hlt, hmul.trans (Nat.mod_modEq x q)⟩

/-! ## The modular rows (R306 to R315) -/

section rows
variable (fold : BitVec 2) (d a b c stride : BitVec 6) (p stage : BitVec 3) (qset : BitVec 2) (s : State)

theorem exec_madd : exec (.madd fold d a b p qset) s = modRow (fun q x y _ => (x + y) % q) 4 fold d a b 0 p qset s := rfl
theorem exec_msub : exec (.msub fold d a b p qset) s = modRow (fun q x y _ => subMod q x y) 4 fold d a b 0 p qset s := rfl
theorem exec_mneg : exec (.mneg fold d a p qset) s = modRow (fun q x _ _ => subMod q 0 x) 4 fold d a 0 0 p qset s := rfl
theorem exec_mmulq : exec (.mmulq fold d a b p qset) s = modRow (fun q x y _ => mont q (x * y)) 8 fold d a b 0 p qset s := rfl
theorem exec_mmac : exec (.mmac fold d a b c p qset) s = modRow (fun q x y z => (mont q (x * y) + z) % q) 8 fold d a b c p qset s := rfl
theorem exec_mtomont : exec (.mtomont fold d a p qset) s = modRow (fun q x _ _ => x * 2 ^ 64 % q) 8 fold d a 0 0 p qset s := rfl
theorem exec_mfrmont : exec (.mfrmont fold d a p qset) s = modRow (fun q x _ _ => mont q x) 8 fold d a 0 0 p qset s := rfl
theorem exec_mred : exec (.mred fold d a p qset) s = modRow (fun q x _ _ => x % q) 4 fold d a 0 0 p qset s := rfl
theorem exec_mmul : exec (.mmul fold d a b p qset) s = modRow (fun q x y _ => x * y % q) 12 fold d a b 0 p qset s := rfl
theorem exec_bflyct : exec (.bflyct fold d a b stage qset) s =
    modWhole 10 fold d (fun l => (mget {} (grab s a b 0 0).sets qset.toNat).modulus (l % 16)) (lowOfPair stage.toNat) (fun q k =>
      let i := lowOfPair stage.toNat k
      let m := mont q (readPair s a (i + 2 ^ stage.toNat) * readPair s b i)
      if k = i then (readPair s a i + m) % q else subMod q (readPair s a i) m) s := rfl
theorem exec_bflygs : exec (.bflygs fold d a b stage qset) s =
    modWhole 10 fold d (fun l => (mget {} (grab s a b 0 0).sets qset.toNat).modulus (l % 16)) (lowOfPair stage.toNat) (fun q k =>
      let i := lowOfPair stage.toNat k
      let j := i + 2 ^ stage.toNat
      if k = i then (readPair s a i + readPair s a j) % q else mont q (subMod q (readPair s a i) (readPair s a j) * readPair s b i)) s := rfl
theorem exec_mauto : exec (.mauto fold d a b qset) s =
    modWhole 6 fold d (fun l => (mget {} (grab s a b 0 0).sets qset.toNat).modulus (l % 16)) id
      (fun q k => (autoSum (readPair s a) ((grab s a b 0 0).scalar2.toNat % 128) k 64 % q).toNat) s := rfl
theorem exec_bfpermRev : exec (.bfpermRev fold d a) s = permPair brev6 fold d a s := rfl
theorem exec_bfpermShuf : exec (.bfpermShuf fold d a) s = permPair rotr6 fold d a s := rfl
theorem exec_bfpermStrd : exec (.bfpermStrd fold d a stride) s =
    permPair (fun k => 2 ^ stride.toNat * (k % 2 ^ (6 - stride.toNat)) + k / 2 ^ (6 - stride.toNat)) fold d a s := rfl

end rows

/-- The modulus sets of an entry of tile `t`, as beat 0 read them (R135). -/
def setsRead (s : State) (t : Nat) : Map ModSet :=
  match s.cur.cap with
  | none => (s.tile t).q
  | some c => c.sets

section tile
variable {s : State} {t : Nat} {i : Instr} {fold : BitVec 2} {d a b c : BitVec 6} {p stage : BitVec 3} {qset : BitVec 2} {lat : Nat}

theorem setsRead_eq_grab (h : s.cur.unit = .tile t) (a b c : BitVec 6) (p : Nat) : (grab s a b c p).sets = setsRead s t := by
  unfold grab setsRead
  cases s.cur.cap
  · simp only [readSets, h]
  · rfl

/-- The modulus under which lane `e` of a row works (R305). -/
def laneModulus (s : State) (t : Nat) (qset : BitVec 2) (e : Nat) : Nat := elem 64 (mget {} (setsRead s t) qset.toNat).q.toNat (e % 16)

theorem exec_of_modRow (h : s.cur.unit = .tile t) {f : Nat → Nat → Nat → Nat → Nat} (hi : exec i s = modRow f lat fold d a b c p qset s) :
    exec i s = .next (delivered lat t (pairResults d (fun e => elemInBeat 32 (beatsOf fold) s.cur.beat e && enabled s p e)
      (fun e => !validMod (laneModulus s t qset e)) fun e => if validMod (laneModulus s t qset e) then
        f (laneModulus s t qset e) (readPair s a e) (readPair s b e) (readPair s c e) else 0) s) := by
  rw [hi, modRow, onTile_tile s h]
  simp only [setsRead_eq_grab h, ← enabled_eq_grab]
  rfl

theorem exec_of_modWhole (h : s.cur.unit = .tile t) {q lane : Nat → Nat} {f : Nat → Nat → Nat} (hi : exec i s = modWhole lat fold d q lane f s)
    (hq : q = laneModulus s t qset) :
    exec i s = .next (wholeDone lat fold (pairResults d (fun _ => true) (fun e => !validMod (laneModulus s t qset (lane e)))
      fun e => if validMod (laneModulus s t qset (lane e)) then f (laneModulus s t qset (lane e)) e else 0) t s) := by
  subst hq
  exact exec_of_finishWhole h hi rfl

theorem exec_of_permPair (h : s.cur.unit = .tile t) {f : Nat → Nat} (hi : exec i s = permPair f fold d a s) :
    exec i s = .next (wholeDone 4 fold (pairResults d (fun _ => true) (fun _ => false) fun k => readPair s a (f k)) t s) :=
  exec_of_finishWhole h hi rfl

theorem modulus_grab (h : s.cur.unit = .tile t) (a b : BitVec 6) :
    (fun l => (mget {} (grab s a b 0 0).sets qset.toNat).modulus (l % 16)) = laneModulus s t qset := by
  rw [setsRead_eq_grab h]
  rfl

end tile

/-- Settles O25: each row is its function of the pairs under the modulus of its lane. -/
theorem modularRows : Obligations.ModularRows := by
  unfold Obligations.ModularRows
  intro fold d a b c stride p stage qset s t h sets set q pair on x y z rows wholes moves sub hgt low
  have hmauto := exec_of_modWhole h (exec_mauto fold d a b qset s) (modulus_grab h a b)
  rw [← scalarB_eq_grab] at hmauto
  exact ⟨(exec_of_modRow h (exec_madd fold d a b p qset s) :), (exec_of_modRow h (exec_msub fold d a b p qset s) :),
    (exec_of_modRow h (exec_mneg fold d a p qset s) :), (exec_of_modRow h (exec_mmulq fold d a b p qset s) :),
    (exec_of_modRow h (exec_mmac fold d a b c p qset s) :), (exec_of_modRow h (exec_mtomont fold d a p qset s) :),
    (exec_of_modRow h (exec_mfrmont fold d a p qset s) :), (exec_of_modRow h (exec_mred fold d a p qset s) :),
    (exec_of_modRow h (exec_mmul fold d a b p qset s) :),
    (exec_of_modWhole h (exec_bflyct fold d a b stage qset s) (modulus_grab h a b) :),
    (exec_of_modWhole h (exec_bflygs fold d a b stage qset s) (modulus_grab h a b) :), hmauto,
    exec_of_permPair h (exec_bfpermRev ..), exec_of_permPair h (exec_bfpermShuf ..), exec_of_permPair h (exec_bfpermStrd ..),
    exec_of_finishWhole h rfl rfl, exec_of_finishWhole h rfl (by rw [setsRead_eq_grab h]; rfl)⟩

end Sys2Proof.Machine
end

/-! # Traps and their return

What a trap, an own fault and a report do to the unit that takes them, and the return of a handler (R351 to R365, R500). -/
section
open Sys2Proof Sys2Proof.Machine Sys2Proof.Claims
namespace Sys2Proof.Machine

theorem seq_of_seqs {s u : State} (h : u.seqs = s.seqs) (n : Nat) : u.seq n = s.seq n := by rw [State.seq, h]; rfl

/-! ## Passing and forwarding (R356, R360) -/

section forward
variable {n : Nat} (r : TrapReq) (resume : Word) (s : State)

@[simp] theorem Seq.woken_queue (q : Seq) (k : TrapKind) (now : Nat) : (q.woken k now).queue = q.queue := by
  unfold Seq.woken
  split
  · split
    · unfold Seq.advance
      dsimp only
      split <;> rfl
    · rfl
  · rfl

theorem passTrap_queue (n : Nat) : ((passTrap n r s).seq n).queue = insertTrap { r with since := s.pcyc } (s.seq n).queue := by
  simp [passTrap]

theorem mem_queue_passTrap (n : Nat) : { r with since := s.pcyc } ∈ ((passTrap n r s).seq n).queue := by
  rw [passTrap_queue]
  exact mem_insertTrap ..

theorem passTrap_seq_of_ne {m : Nat} (h : m ≠ n) : (passTrap n r s).seq m = s.seq m := State.updSeq_seq_of_ne _ _ h

/-- The die controller of quad sequencer `n` has got a trap that the sequencer forwarded. -/
def GotForward (n cause : Nat) (info loc : Word) (dbl : Bool) (c : Nat) (u : State) : Prop :=
  ∃ r, r ∈ (u.seq (384 + n / 32)).queue ∧ r.cause = cause ∧ r.info = info ∧ r.loc = loc ∧ r.dbl = dbl ∧ r.kind = .forwarded n c

/-- Quad sequencer `n` as it waits behind a trap that it has forwarded. -/
def Seq.forwards (q : Seq) (r : TrapReq) (resume : Word) (now : Nat) : Seq :=
  { q with pc := resume, run := .forwarded r.kind r.dbl, last := now, ready := now + 1 }

theorem forwardTrap_quad (h : n < 384) : forwardTrap n r resume s =
    passTrap (384 + n / 32) { r with kind := .forwarded n (s.seq n).ctxid } (s.updSeq n fun q => q.forwards r resume s.pcyc) := by
  simp only [forwardTrap, isQuadSeq, dieOfSeq, h, decide_true, if_true]
  rfl

theorem forwardTrap_quad_seq (h : n < 384) : (forwardTrap n r resume s).seq n = (s.seq n).forwards r resume s.pcyc := by
  rw [forwardTrap_quad r resume s h, passTrap_seq_of_ne _ _ (by omega), State.updSeq_seq_self]

theorem forwardTrap_quad_got (h : n < 384) :
    GotForward n r.cause r.info r.loc r.dbl (s.seq n).ctxid (forwardTrap n r resume s) := by
  rw [forwardTrap_quad r resume s h]
  exact ⟨_, mem_queue_passTrap .., rfl, rfl, rfl, rfl, rfl⟩

theorem forwardTrap_quad_seq_of_ne (h : n < 384) {m : Nat} (hm : m ≠ n) (hd : m ≠ 384 + n / 32) :
    (forwardTrap n r resume s).seq m = s.seq m := by
  rw [forwardTrap_quad r resume s h, passTrap_seq_of_ne _ _ hd, State.updSeq_seq_of_ne _ _ hm]

/-- A die controller or the dispatcher tells the host. -/
theorem forwardTrap_ctl (h : 384 ≤ n) : (forwardTrap n r resume s).seqs = s.seqs ∧
    (forwardTrap n r resume s).hostTraps = s.hostTraps ++ [(trapCtx n r.kind s, n, r.kind)] := by
  simp only [forwardTrap, isQuadSeq, Nat.not_lt.2 h, decide_false, Bool.false_eq_true, if_false]
  unfold State.tellHost
  dsimp only
  split <;> exact ⟨rfl, rfl⟩

end forward

/-! ## Taking a trap without a handler (R357, R360) -/

/-- A unit that forwards a trap stands at `pc`, and does not wait for what it waited for. -/
def Seq.standsAt (q : Seq) (pc : Word) (now : Nat) : Seq :=
  { q with pc := pc, back := q.run.kept, run := q.run.kept, last := now, ready := now + 1 }

section take
variable {n : Nat} {r : TrapReq} {resume : Word} {s : State} (hv : (s.seq n).tvec = 0)
include hv

theorem takeTrap_quad (h : n < 384) :
    takeTrap n r resume s = forwardTrap n r resume (s.updSeq n fun q => q.standsAt resume s.pcyc) := by
  have hcall : faultOfCall s n r.kind = false := by simp [faultOfCall, isDieCtl, Nat.not_le.2 h]
  simp [takeTrap, hv, isQuadSeq, h, hcall, Seq.standsAt]

/-- A quad sequencer without a handler waits behind the forward, and its die controller has the trap. -/
theorem takeTrap_quad_spec (h : n < 384) : ((takeTrap n r resume s).seq n).pc = resume ∧
    ((takeTrap n r resume s).seq n).run = .forwarded r.kind r.dbl ∧ ((takeTrap n r resume s).seq n).s = (s.seq n).s ∧
    GotForward n r.cause r.info r.loc r.dbl (s.seq n).ctxid (takeTrap n r resume s) := by
  have hgot := forwardTrap_quad_got r resume (s.updSeq n fun q => q.standsAt resume s.pcyc) h
  rw [State.updSeq_seq_self] at hgot
  rw [takeTrap_quad hv h, forwardTrap_quad_seq _ _ _ h, State.updSeq_seq_self]
  exact ⟨rfl, rfl, rfl, hgot⟩

/-- A die controller or the dispatcher stands behind its own fault, and waits there for the host in code that the host called. -/
theorem takeTrap_ctl_own (h : 384 ≤ n) (hk : r.kind = .own) : takeTrap n r resume s =
    let w := forwardTrap n r (resume + 8) (s.updSeq n fun q => q.standsAt (resume + 8) s.pcyc)
    if faultOfCall s n .own then w.updSeq n fun q => { q with run := .forwarded .own r.dbl } else w := by
  simp only [takeTrap, hv, isQuadSeq, Nat.not_lt.2 h, decide_false, hk, Bool.false_eq_true, if_false, if_true]
  rfl

theorem takeTrap_ctl_own_spec (h : 384 ≤ n) (hk : r.kind = .own) :
    let u := takeTrap n r resume s
    (∀ m, m ≠ n → u.seq m = s.seq m) ∧ (u.seq n).s = (s.seq n).s ∧ (u.seq n).pc = resume + 8 ∧
      u.hostTraps = s.hostTraps ++ [((s.seq n).ctxid, n, .own)] ∧
      (n = 396 ∨ (s.die (n - 384)).inCall = false → (u.seq n).run = (s.seq n).run.kept) := by
  intro u
  have hu : u = _ := takeTrap_ctl_own hv h hk
  obtain ⟨hseqs, htraps⟩ := forwardTrap_ctl r (resume + 8) (s.updSeq n fun q => q.standsAt (resume + 8) s.pcyc) h
  have hother (m : Nat) (hm : m ≠ n) := (seq_of_seqs hseqs m).trans (State.updSeq_seq_of_ne _ _ hm)
  have hself := (seq_of_seqs hseqs n).trans (State.updSeq_seq_self ..)
  have htold : trapCtx n r.kind (s.updSeq n fun q => q.standsAt (resume + 8) s.pcyc) = (s.seq n).ctxid := by
    simp [hk, trapCtx, Seq.standsAt]
  rw [htold, hk] at htraps
  generalize forwardTrap n r (resume + 8) (s.updSeq n fun q => q.standsAt (resume + 8) s.pcyc) = w at hu hother hself htraps
  cases hcall : faultOfCall s n .own with
  | false =>
    obtain rfl : u = w := by rw [hu, hcall]; rfl
    rw [hself]
    exact ⟨hother, rfl, rfl, htraps, fun _ => rfl⟩
  | true =>
    have hu : u = w.updSeq n fun q => { q with run := .forwarded .own r.dbl } := by rw [hu, hcall]; rfl
    rw [hu, State.updSeq_seq_self, hself]
    refine ⟨fun m hm => (State.updSeq_seq_of_ne _ _ hm).trans (hother m hm), rfl, rfl, htraps, fun hno => ?_⟩
    have hin : n < 396 ∧ (s.die (n - 384)).inCall = true := by simpa [faultOfCall, isDieCtl, h] using hcall
    rcases hno with rfl | hno
    · exact absurd hin.1 (lt_irrefl _)
    · exact absurd hin.2 (by simp [hno])

end take

/-! ## A double fault (R360) -/

section fatal
variable (n : Nat) (r : TrapReq) (s : State)

theorem tellPackage_seqs (code tcause id : Nat) (info loc : Word) : (s.tellPackage code tcause id info loc).seqs = s.seqs := by
  unfold State.tellPackage
  split <;> rfl

/-- The package event FIFO gets the record, unless it is full (R455). -/
theorem tellPackage_events (code tcause id : Nat) (info loc : Word) (h : s.events.length < 256) :
    (s.tellPackage code tcause id info loc).events =
      s.events ++ [{ w0 := causeWord code s.eventsOvf tcause id, w1 := info, w2 := loc, w3 := 0 }] := by
  rw [State.tellPackage, if_neg (Nat.not_le.2 h)]

theorem causeWord_code {code : Nat} (h : code < 256) (ovf : Bool) (tcause id : Nat) : (causeWord code ovf tcause id).toNat / 2 ^ 56 = code := by
  have hbit : bit ovf ≤ 1 := by cases ovf <;> decide
  rw [causeWord, BitVec.toNat_ofNat]
  omega

theorem fatal_seqs : (fatal n r s).seqs = (s.updSeq n fun q => { q with run := .stopped }).seqs := by
  unfold fatal
  dsimp only
  split <;> simp [State.updSeq, State.seq, tellPackage_seqs]

theorem fatal_events : (fatal n r s).events = (s.tellPackage Code.fatal r.cause 0 r.info (s.seqLoc n)).events := by
  unfold fatal
  dsimp only
  split <;> rfl

end fatal

/-! ## Own faults (R357, R358, R360) -/

/-- The trap of a unit's own fault. -/
def ownTrap (s : State) (n code : Nat) (info : Word) : TrapReq := { cause := code, info := info, loc := s.seqLoc n, kind := .own }

section own
variable {s : State} {n : Nat} (code : Nat) (info : Word)

theorem ownFault_outside (h : (s.seq n).trap = false) : ownFault n code info s = takeTrap n (ownTrap s n code info) (s.seq n).pc s := by
  simp only [ownFault, h, Bool.false_eq_true, if_false, ownTrap]

theorem ownFault_double_quad (h : (s.seq n).trap = true) (hn : n < 384) :
    ownFault n code info s = forwardTrap n { ownTrap s n code info with dbl := true } (s.seq n).pc s := by
  simp only [ownFault, h, isQuadSeq, hn, decide_true, if_true, ownTrap]

theorem ownFault_double_ctl (h : (s.seq n).trap = true) (hn : 384 ≤ n) :
    ownFault n code info s = fatal n { ownTrap s n code info with dbl := true } s := by
  simp only [ownFault, h, isQuadSeq, Nat.not_lt.2 hn, decide_false, if_true, Bool.false_eq_true, if_false, ownTrap]

/-- An own fault touches its unit, and the die controller of a quad sequencer. -/
theorem ownFault_seq_of_ne {m : Nat} (hm : m ≠ n) (hd : n < 384 → m ≠ 384 + n / 32) : (ownFault n code info s).seq m = s.seq m := by
  cases ht : (s.seq n).trap with
  | false =>
    rw [ownFault_outside _ _ ht]
    by_cases hv : (s.seq n).tvec = 0
    · by_cases hn : n < 384
      · rw [takeTrap_quad hv hn, forwardTrap_quad_seq_of_ne _ _ _ hn hm (hd hn), State.updSeq_seq_of_ne _ _ hm]
      · exact (takeTrap_ctl_own_spec hv (Nat.not_lt.1 hn) rfl).1 m hm
    · rw [takeTrap_handler _ _ _ _ hv, trapEntry_of_ne _ _ _ _ hm]
  | true =>
    by_cases hn : n < 384
    · rw [ownFault_double_quad _ _ ht hn, forwardTrap_quad_seq_of_ne _ _ _ hn hm (hd hn)]
    · rw [ownFault_double_ctl _ _ ht (Nat.not_lt.1 hn)]
      exact (seq_of_seqs (fatal_seqs ..) m).trans (State.updSeq_seq_of_ne _ _ hm)

/-- An own fault leaves the registers of its unit. -/
theorem ownFault_s : ((ownFault n code info s).seq n).s = (s.seq n).s := by
  cases ht : (s.seq n).trap with
  | false =>
    rw [ownFault_outside _ _ ht]
    by_cases hv : (s.seq n).tvec = 0
    · by_cases hn : n < 384
      · exact (takeTrap_quad_spec hv hn).2.2.1
      · exact (takeTrap_ctl_own_spec hv (Nat.not_lt.1 hn) rfl).2.1
    · rw [takeTrap_handler _ _ _ _ hv, trapEntry_s]
  | true =>
    by_cases hn : n < 384
    · rw [ownFault_double_quad _ _ ht hn, forwardTrap_quad_seq _ _ _ hn]
      rfl
    · rw [ownFault_double_ctl _ _ ht (Nat.not_lt.1 hn), seq_of_seqs (fatal_seqs ..), State.updSeq_seq_self]

/-- Settles O44: an own fault is an entry, a forward, or FATAL. -/
theorem ownFaults : Obligations.OwnFaults := by
  unfold Obligations.OwnFaults
  intro s n code info q u die
  obtain ⟨hmem, -, hnear⟩ := ownFault_keepsBytes n code info s
  refine ⟨fun m hm hd => ownFault_seq_of_ne code info hm hd, hmem, hnear, ownFault_s code info, fun ht hv => ?entry, fun ht hv hn => ?forward,
    fun ht hv hn => ?host, fun ht hn => ?double, fun ht hn => ?fatal⟩
  case entry =>
    simp only [u, ownFault_handler _ _ _ _ ht hv, trapEntry, State.updSeq_seq_self]
    rfl
  case forward =>
    obtain ⟨hpc, hrun, -, hgot⟩ := takeTrap_quad_spec (r := ownTrap s n code info) (resume := (s.seq n).pc) hv hn
    rw [← ownFault_outside _ _ ht] at hpc hrun hgot
    exact ⟨hrun, hpc, hgot⟩
  case host =>
    obtain ⟨-, -, hpc, htraps, hrun⟩ := takeTrap_ctl_own_spec (r := ownTrap s n code info) (resume := (s.seq n).pc) hv hn rfl
    rw [← ownFault_outside _ _ ht] at hpc htraps hrun
    exact ⟨hpc, htraps, hrun⟩
  case double =>
    obtain ⟨r, hr, hcause, hinfo, -, hdbl, hkind⟩ := forwardTrap_quad_got { ownTrap s n code info with dbl := true } (s.seq n).pc s hn
    rw [← ownFault_double_quad _ _ ht hn] at hr
    have hseq : u.seq n = _ := (congrArg (State.seq · n) (ownFault_double_quad code info ht hn)).trans (forwardTrap_quad_seq _ _ _ hn)
    rw [hseq]
    exact ⟨rfl, rfl, r, hr, hcause, hinfo, hdbl, hkind⟩
  case fatal =>
    have hu : u = fatal n _ s := ownFault_double_ctl code info ht hn
    rw [hu, fatal_events]
    refine ⟨?_, fun hroom => ⟨_, tellPackage_events _ _ _ _ _ _ hroom, causeWord_code (by decide) .., rfl⟩⟩
    rw [seq_of_seqs (fatal_seqs ..), State.updSeq_seq_self]

end own

/-! ## `trap`, `tret` and `mtsr` (R359, R362, R363) -/

theorem exec_trap (code : BitVec 16) (s : State) : exec (.trap code) s = execTrap code s := rfl
theorem exec_tret (s : State) : exec .tret s = execTret s := rfl
theorem exec_mtsr (a : BitVec 6) (sr : BitVec 16) (s : State) : exec (.mtsr a sr) s = execMtsr a sr s := rfl

/-- What `trap` raises outside a handler (R362). -/
def raisedTrap (s : State) (n : Nat) (code : BitVec 16) : TrapReq :=
  { cause := Code.trap, info := BitVec.ofNat 64 code.toNat, loc := s.seqLoc n, kind := .raised }

/-- What `trap` forwards in a handler (R362). -/
def forwardedTrap (q : Seq) (code : BitVec 16) (k : TrapKind) : TrapReq :=
  { cause := q.tcause % 256 + code.toNat % 256 * 256, info := q.tinfo, loc := q.twhere, kind := k }

theorem returnPc_eq_leftAt (q : Seq) : q.returnPc = if q.handling = .own ∧ q.skip = true then q.tepc + 8 else leftAt q := by
  unfold Seq.returnPc leftAt
  cases q.handling <;> cases q.behind <;> cases q.skip <;> rfl

section instructions
variable {s : State} {n : Nat} (h : s.cur.unit = .seq n)
include h

theorem execTrap_outside (code : BitVec 16) (ht : (s.seq n).trap = false) :
    execTrap code s = .next (takeTrap n (raisedTrap s n code) ((s.seq n).pc + 8) s) := by
  simp only [execTrap, onSeq_seq s h, ht, Bool.not_false, if_true, raisedTrap]

theorem execTrap_quad (code : BitVec 16) (ht : (s.seq n).trap = true) (hn : n < 384) :
    execTrap code s = .next (forwardTrap n (forwardedTrap (s.seq n) code .raised) ((s.seq n).pc + 8) s) := by
  simp only [execTrap, onSeq_seq s h, ht, Bool.not_true, Bool.false_eq_true, if_false, isQuadSeq, hn, decide_true, if_true, forwardedTrap]

theorem execTrap_ctl (code : BitVec 16) (ht : (s.seq n).trap = true) (hn : 384 ≤ n) :
    execTrap code s = .next ((forwardTrap n (forwardedTrap (s.seq n) code (s.seq n).handling) ((s.seq n).pc + 8) s).updSeq n fun q =>
      { q.advance s.pcyc with handling := .none }) := by
  simp only [execTrap, onSeq_seq s h, ht, Bool.not_true, Bool.false_eq_true, if_false, isQuadSeq, Nat.not_lt.2 hn, decide_false, forwardedTrap]

theorem execTret_handler (ht : (s.seq n).trap = true) :
    execTret s = .next (trapReturn n (releaseTrap n (s.seq n).handling (s.seq n).skip s)) := by
  simp only [execTret, onSeq_seq s h, ht, Bool.not_true, Bool.false_eq_true, if_false]

/-- A register of the unit written, and the unit past the instruction. -/
theorem finish_updSeq (f : Seq → Seq) : ∃ u, finish (s.updSeq n f) = .next u ∧ u.seq n = (f (s.seq n)).advance s.pcyc ∧
    (∀ m, m ≠ n → u.seq m = s.seq m) ∧ keepsMemory s u ∧ u.ctxs = s.ctxs := by
  refine ⟨_, (finish_eq _).trans (congrArg _ (done_seq (n := n) h)), ?_, fun m hm => ?_, keepsMemory_of_memories rfl, rfl⟩
  · simp only [State.updSeq_seq_self, State.updSeq_pcyc]
  · simp only [State.updSeq_seq_of_ne _ _ hm]

theorem execMtsr_seed (a : BitVec 6) : ∃ u, execMtsr a 4 s = .next u ∧
    u.ctx (s.seq n).ctxid = { s.ctx (s.seq n).ctxid with seed := readS s a } ∧ u.seq n = (s.seq n).advance s.pcyc ∧
    ∀ m, m ≠ n → u.seq m = s.seq m := by
  refine ⟨_, (onSeq_seq s h _).trans ((finish_eq _).trans (congrArg _ (done_seq (n := n) h))), ?_, ?_, fun m hm => ?_⟩
  · simp [setSeed]
  · simp [setSeed]
  · simp [setSeed, State.updSeq_seq_of_ne _ _ hm]

theorem execMtsr_refuses {a : BitVec 6} (ha : (readS s a).toNat % 8 ≠ 0) :
    execMtsr a 8 s = .next (ownFault n 0x02 (readS s a) s) ∧ execMtsr a 0xC s = .next (ownFault n 0x02 (readS s a) s) :=
  ⟨(onSeq_seq s h _).trans (if_pos ha), (onSeq_seq s h _).trans (if_pos ha)⟩

/-- A loop count acts behind the evaluation of the loops at this instruction (R363). -/
theorem execMtsr_loop (a : BitVec 6) {k : Nat} (hk : k < 4) : execMtsr a (BitVec.ofNat 16 (0x18 + k)) s = .next (s.updSeq n fun q =>
    let w := q.advance s.pcyc
    { w with loops := mset w.loops k { mget {} w.loops k with count := (readS s a).toNat % 65536 } }) := by
  refine (onSeq_seq s h _).trans ?_
  obtain rfl | rfl | rfl | rfl : k = 0 ∨ k = 1 ∨ k = 2 ∨ k = 3 := by omega
  all_goals rfl

end instructions

/-- Settles O43: `trap` takes or forwards, `tret` returns, and `mtsr` writes one register. -/
theorem trapInstructions : Obligations.TrapInstructions := by
  unfold Obligations.TrapInstructions
  intro code a s n h q v others puts
  have hcode : BitVec.ofNat 64 code.toNat = code.zeroExtend 64 := BitVec.eq_of_toNat_eq (by simp)
  have put {sr : Nat} {f : Seq → Seq} (hput : execMtsr a (BitVec.ofNat 16 sr) s = finish (s.updSeq n f)) : puts sr f := by
    obtain ⟨u, hu, hq⟩ := finish_updSeq h f
    exact ⟨u, (exec_mtsr ..).trans (hput.trans hu), hq⟩
  refine ⟨fun ht hv => ?enters, fun ht hv hn => ?forwards, fun ht hn => ?host, fun ht hn => ?passes, fun ht hk => ?returns,
    fun ht => ?outside, execMtsr_seed h a, fun hn => put (f := fun q => { q with ctxid := v.toNat % 64 }) ?ctxid, fun hn => ?priv,
    fun hv => ⟨put (f := fun q => { q with tvec := v }) ?tvec, put (f := fun q => { q with tepc := v }) ?tepc⟩, fun hv => execMtsr_refuses h hv, ?skip,
    fun k hk => ?loops⟩
  case enters =>
    rw [exec_trap, execTrap_outside h _ ht, takeTrap_handler _ _ _ _ hv]
    refine ⟨_, rfl, fun m hm => trapEntry_of_ne _ _ _ _ hm, keepsMemory_of_memories rfl, ?_⟩
    rw [trapEntry, State.updSeq_seq_self, ← hcode]
    rfl
  case forwards =>
    obtain ⟨hpc, hrun, -, r, hr, hcause, hinfo, hloc, -, hkind⟩ :=
      takeTrap_quad_spec (r := raisedTrap s n code) (resume := (s.seq n).pc + 8) hv hn
    exact ⟨_, execTrap_outside h code ht, hpc, hrun, r, hr, hcause, hinfo.trans hcode, hloc, hkind⟩
  case host =>
    obtain ⟨hseqs, htraps⟩ := forwardTrap_ctl (forwardedTrap q code q.handling) (q.pc + 8) s hn
    refine ⟨_, execTrap_ctl h code ht hn, ?_, ?_, htraps⟩
    · rw [State.updSeq_seq_self, seq_of_seqs hseqs]
    · rw [State.updSeq_seq_self, seq_of_seqs hseqs]
      exact (Seq.advance_trap ..).trans ht
  case passes =>
    obtain ⟨r, hr, hcause, hinfo, hloc, -, hkind⟩ := forwardTrap_quad_got (forwardedTrap q code .raised) (q.pc + 8) s hn
    refine ⟨_, execTrap_quad h code ht hn, ?_, ?_, r, hr, hcause, hinfo, hloc, hkind⟩
    · rw [forwardTrap_quad_seq _ _ _ hn]
      rfl
    · rw [forwardTrap_quad_seq _ _ _ hn]
      rfl
  case returns =>
    have hown : releaseTrap n q.handling q.skip s = s := by
      simp only [List.mem_cons, List.not_mem_nil, or_false] at hk
      rcases hk with hk | hk | hk <;> rw [hk] <;> rfl
    rw [exec_tret, execTret_handler h ht, hown]
    simp only [trapReturn, returnPc_eq_leftAt]
  case outside => rw [exec_tret, execTret, onSeq_seq s h, if_pos (by rw [ht]; rfl)]
  case ctxid => exact (onSeq_seq s h _).trans (if_neg (by simp [isQuadSeq, hn]))
  case priv => exact (onSeq_seq s h _).trans (if_pos (by simp [isQuadSeq, hn]))
  case tvec => exact (onSeq_seq s h _).trans (if_neg (not_not.2 hv))
  case tepc => exact (onSeq_seq s h _).trans (if_neg (not_not.2 hv))
  case skip =>
    have hbit : bitOf v.toNat 4 = v.getLsbD 4 := bitOf_eq_testBit ..
    rw [← hbit]
    exact put (f := fun q => { q with skip := bitOf v.toNat 4 }) (onSeq_seq s h _)
  case loops =>
    refine ⟨_, execMtsr_loop h a hk, fun m hm => State.updSeq_seq_of_ne _ _ hm, keepsMemory_of_memories rfl, rfl, ?_⟩
    rw [State.updSeq_seq_self]

/-! ## The report of a tile and its way to the sequencer (R352, R356) -/

/-- The first report of a tile freezes its region and leaves for its sequencer in the same cycle. -/
theorem tileReport_first {t k : Nat} {x : Report} {s : State} (hk : (s.tile t).region = some k) (hnone : (s.tile t).reports = [])
    (hx : x.since ≤ s.pcyc) : tileReport t x s = ((s.setTile t { s.tile t with reports := [{ x with since := s.pcyc }] }).setRegion k
      { s.regionAt k with rstate := 3, wcnt := 0 }).soon (.tileFaultReport t) := by
  simp only [tileReport, hk, hnone, insertReport, max_eq_right hx, List.isEmpty_nil, Bool.not_true, Bool.false_eq_true, if_false]
  exact if_pos rfl

theorem exec_tileFaultReport (t : Nat) (s : State) : exec (.tileFaultReport t) s = execTileFaultReport t s := rfl

theorem execTileFaultReport_passes {t : Nat} {s : State} {r : Report} {rest : List Report} (h : (s.tile t).reports = r :: rest) :
    execTileFaultReport t s =
      .next (passTrap (quadOfPos t) { cause := r.code, info := r.info, loc := r.loc, kind := .report t } s) := by
  simp only [execTileFaultReport, h]

/-! ## Entry at a boundary (R357, R500) -/

/-- A unit outside a handler at an instruction boundary (R357). -/
def WaitsAtBoundary (s : State) (n : Nat) : Prop :=
  let q := s.seq n
  (q.run = .run ∧ q.ready ≤ s.pcyc) ∨ q.run = .off ∨ q.run = .idle ∨ q.run = .ckick ∨ q.run = .carm ∨ (∃ p, q.run = .cwait p) ∨
    (∃ i, q.run = .snapw i) ∨ (∃ i, q.run = .fence i) ∨ (∃ l, q.run = .pginv l) ∨ (∃ l, q.run = .pgfence l) ∨
    (∃ i, q.run = .spawn i ∧ ∀ o, mfind s.ops i = some o → o.served = false)

theorem atBoundary_of_waits {s : State} {n : Nat} (ht : (s.seq n).trap = false) (h : WaitsAtBoundary s n) : atBoundary s n = true := by
  unfold atBoundary
  rcases h with ⟨h, hready⟩ | h | h | h | h | ⟨_, h⟩ | ⟨_, h⟩ | ⟨_, h⟩ | ⟨_, h⟩ | ⟨_, h⟩ | ⟨i, h, hserved⟩
  · simp only [ht, h, decide_eq_true hready]; rfl
  iterate 9 · simp only [ht, h]; rfl
  · simp only [ht, h, opAt]
    cases ho : mfind s.ops i with
    | none => rfl
    | some o => simp [hserved o ho]

/-- The address of the `ramo` behind which a LINK enters, where it is one that the unit still waits for (R441). -/
def ramoBehind (s : State) (n : Nat) (p : TrapReq) : Option Word :=
  match p.kind with
  | .completion i => if p.cause = 0x70 ∧ (s.seq n).run ≠ .spawn i then (mfind s.ops i).map Op.pc else none
  | _ => none

/-- A unit with a handler as it enters trap `p` between its instructions (R357). -/
def Seq.entered (q : Seq) (p : TrapReq) (ramo : Option Word) (back : Word) (now : Nat) : Seq :=
  { q with tepc := ramo.getD back, behind := ramo.map fun w => (w, back)
           shadow := q.loops, loops := [], tcause := p.cause, tinfo := p.info, twhere := p.loc, trap := true, skip := false
           fwd := (match p.kind with | .forwarded _ _ => true | _ => false), dbl := p.dbl
           cmpl := (match p.kind with | .completion _ => ramo.isNone | _ => false)
           handling := p.kind, back := q.run.kept, pc := q.tvec, run := .run, last := now, ready := now + 3 }

section entry
variable {s : State} {n : Nat}

@[simp] theorem withdrawDraw_pcyc (n : Nat) (s : State) : (withdrawDraw n s).pcyc = s.pcyc := by unfold withdrawDraw; split <;> rfl

/-- An entry withdraws no access but that of a waiting `spawn`. -/
theorem mfind_withdrawDraw (i : Nat) :
    mfind (withdrawDraw n s).ops i = if (s.seq n).run = .spawn i then none else mfind s.ops i := by
  unfold withdrawDraw
  split
  next j hj =>
    rw [hj, State.dropOp_ops]
    by_cases hi : i = j
    · simp [hi]
    · rw [if_neg fun h => hi (RunState.spawn.inj h).symm, mfind_mdel_of_ne _ hi]
      rfl
  next hno => rw [if_neg fun h => hno i h]

/-- The entry of a trap, with the `ramo` behind which it stands. -/
theorem atRamo_entry (p : TrapReq) (back : Word) (q' : Seq) :
    (atRamo n p (trapEntry n p back ((withdrawDraw n s).setSeq n q'))).seq n = q'.entered p (ramoBehind s n p) back s.pcyc := by
  have hseq : (trapEntry n p back ((withdrawDraw n s).setSeq n q')).seq n = q'.entered p none back s.pcyc := by
    simp only [trapEntry, State.updSeq_seq_self, State.setSeq_seq_self, State.setSeq_pcyc, withdrawDraw_pcyc]
    cases hk : p.kind <;> simp [Seq.entered, hk]
  unfold atRamo ramoBehind
  cases hk : p.kind with
  | completion i =>
    have hop : opAt (trapEntry n p back ((withdrawDraw n s).setSeq n q')) i = if (s.seq n).run = .spawn i then none else mfind s.ops i :=
      mfind_withdrawDraw i
    dsimp only
    rw [hop]
    by_cases hspawn : (s.seq n).run = .spawn i
    · simp only [hspawn, ne_eq, not_true_eq_false, and_false, if_true, if_false, hseq]
    · cases ho : mfind s.ops i with
      | none => simp [hspawn, hseq]
      | some o =>
        by_cases hc : p.cause = 0x70
        · simp [hspawn, hseq, hc, Seq.entered, hk]
        · simp [hspawn, hseq, hc]
  | _ => exact hseq

theorem execTrapEntry_refused {p : TrapReq} {l : List TrapReq} (ht : (s.seq n).trap = false) (hv : (s.seq n).tvec ≠ 0)
    (h : WaitsAtBoundary s n) (hp : (s.seq n).refused = p :: l) : ∃ u, execTrapEntry n s = .next u ∧
    u.seq n = { s.seq n with refused := l }.entered p (ramoBehind s n p) (resumeAt (s.seq n)) s.pcyc := by
  have hv' : (((withdrawDraw n s).setSeq n { s.seq n with refused := l }).seq n).tvec ≠ 0 := by rwa [State.setSeq_seq_self]
  refine ⟨atRamo n p (trapEntry n p (resumeAt (s.seq n)) ((withdrawDraw n s).setSeq n { s.seq n with refused := l })), ?_, atRamo_entry p _ _⟩
  simp only [execTrapEntry, atBoundary_of_waits ht h, Bool.not_true, Bool.false_eq_true, if_false, hp]
  exact congrArg (fun u => Host.Outcome.next (atRamo n p u)) (takeTrap_handler _ _ _ _ hv')

theorem execTrapEntry_queue {p : TrapReq} {l : List TrapReq} (ht : (s.seq n).trap = false) (hv : (s.seq n).tvec ≠ 0)
    (h : WaitsAtBoundary s n) (hnone : (s.seq n).refused = []) (hp : (s.seq n).queue = p :: l) : ∃ u, execTrapEntry n s = .next u ∧
    u.seq n = { s.seq n with queue := l }.entered p none (resumeAt (s.seq n)) s.pcyc := by
  have hv' : (((withdrawDraw n s).setSeq n { s.seq n with queue := l }).seq n).tvec ≠ 0 := by rwa [State.setSeq_seq_self]
  refine ⟨trapEntry n p (resumeAt (s.seq n)) ((withdrawDraw n s).setSeq n { s.seq n with queue := l }), ?_, ?_⟩
  · rw [execTrapEntry, atBoundary_of_waits ht h]
    dsimp only
    rw [if_neg (by decide)]
    split
    next hr => exact absurd (hr.symm.trans hnone) (by simp)
    next hr =>
      obtain ⟨rfl, rfl⟩ := List.cons.inj (hr.symm.trans hp)
      exact congrArg _ (takeTrap_handler _ _ _ _ hv')
    next hr => exact absurd (hr.symm.trans hp) (by simp)
  · simp only [trapEntry, State.updSeq_seq_self, State.setSeq_seq_self, State.setSeq_pcyc, withdrawDraw_pcyc]
    cases hk : p.kind <;> simp [Seq.entered, hk]

theorem execSeqCompletionFault_boundary (ht : (s.seq n).trap = false) (h : WaitsAtBoundary s n) :
    execSeqCompletionFault n s = execTrapEntry n s := if_pos (atBoundary_of_waits ht h)

theorem resumeAt_eq (q : Seq) : resumeAt q = if q.run = .idle then q.pc + 8 else q.pc := by
  unfold resumeAt
  split
  next h => rw [if_pos h]
  next h => rw [if_neg h]

end entry

/-! ## Release of a report (R359, R377) -/

section release
variable {s : State} {t k : Nat} {r : Report}

/-- The release of an entry's report leaves its region to resume by itself. -/
theorem resumeRegion_entry (hop : r.op = none) (hentry : r.entry ≠ none) (hrate : r.code ≠ 0x10) (hstall : r.code ≠ 0x12)
    (hslot : r.code ≠ 0x13) (hconfig : r.code ≠ 0x16) : resumeRegion t k r false s = s := by
  have hreloads : reloads r.code = false := by simp [reloads, hslot, hconfig]
  obtain ⟨e, he⟩ := Option.ne_none_iff_exists'.1 hentry
  simp [resumeRegion, hop, he, hrate, hstall, hreloads]

/-- The state in which a region resumes (R352, R377). -/
def resumedState (s : State) (k : Nat) : Nat :=
  if ∃ j, j ∈ regionsOfGroup s k ∧ (s.regionAt j).reloading = true then 4 else if (s.regionAt k).inPhase = true then 2 else 1

/-- The last report of a frozen region. -/
theorem releaseReport_last (hk : (s.tile t).region = some k) (hr : (s.tile t).reports = [r]) (hop : r.op = none)
    (hentry : r.entry ≠ none) (hrate : r.code ≠ 0x10) (hstall : r.code ≠ 0x12) (hslot : r.code ≠ 0x13) (hconfig : r.code ≠ 0x16)
    (hfrozen : (s.regionAt k).rstate = 3) (hothers : ∀ m, m ∈ (s.regionAt k).tiles → m ≠ t → (s.tile m).reports = []) :
    releaseReport t false s = (s.setTile t { s.tile t with reports := [] }).setRegion k
      { s.regionAt k with rstate := resumedState s k, waiting := none } := by
  have hnone : noReports (s.setTile t { s.tile t with reports := [] }) (s.regionAt k) = true := List.all_eq_true.2 fun m hm => by
    by_cases hmt : m = t
    · simp [hmt]
    · simp [State.setTile_tile_of_ne _ _ hmt, hothers m hm hmt]
  have hany : (∃ j, j ∈ regionsOfGroup s k ∧ (s.regionAt j).reloading = true) ↔
      (regionsOfGroup s k).any (fun j => (s.regionAt j).reloading) = true := List.any_eq_true.symm
  unfold releaseReport
  dsimp only
  split
  next h => exact absurd (h.symm.trans hr) (by simp)
  next r' rest h =>
    obtain ⟨rfl, rfl⟩ := List.cons.inj (h.symm.trans hr)
    split
    next h => exact absurd (h.symm.trans hk) (by simp)
    next k' h =>
      obtain rfl := Option.some.inj (h.symm.trans hk)
      rw [List.isEmpty_nil, if_pos rfl, resumeRegion_entry hop hentry hrate hstall hslot hconfig, State.setTile_read_regionAt, hnone,
        decide_eq_true hfrozen, resumedState]
      simp only [hany]
      rfl

end release

/-- Settles O45: a report freezes its region and is passed on, is taken at a boundary, and is released by `tret`. -/
theorem reportsAndTraps : Obligations.ReportsAndTraps := by
  unfold Obligations.ReportsAndTraps
  intro s t n k r rest q
  refine ⟨fun x hk hnone hx => ?raised, fun hr => ?passed, ?taken,
    fun hn ht hk hskip hr hregion hop hentry hrate hstall hslot hconfig hfrozen hothers => ?released⟩
  case raised =>
    rw [tileReport_first hk hnone hx]
    refine ⟨?_, ?_, ?_, rfl, fun j hj => ?_⟩
    · simp
    · simp
    · simp
    · simp [State.setRegion_regionAt_of_ne _ _ hj]
  case passed =>
    exact ⟨_, (exec_tileFaultReport ..).trans (execTileFaultReport_passes hr), ⟨_, mem_queue_passTrap .., rfl, rfl, rfl, rfl⟩, rfl⟩
  case taken =>
    intro ht hv hwaits back enters ramo
    have hback : resumeAt q = back := resumeAt_eq q
    refine ⟨fun p l hp => ?_, fun p l hnone hp => ?_⟩
    · obtain ⟨u, hu, henter⟩ := execTrapEntry_refused ht hv hwaits hp
      rw [hback] at henter
      exact ⟨⟨u, hu, henter⟩, u, (execSeqCompletionFault_boundary ht hwaits).trans hu, henter⟩
    · obtain ⟨u, hu, henter⟩ := execTrapEntry_queue ht hv hwaits hnone hp
      rw [hback] at henter
      exact ⟨u, hu, henter⟩
  case released =>
    have hrelease : releaseTrap n q.handling q.skip s = _ :=
      (by rw [hk, hskip]; rfl : releaseTrap n q.handling q.skip s = releaseReport t false s).trans
        (releaseReport_last hregion hr hop hentry hrate hstall hslot hconfig hfrozen hothers)
    have hexec := execTret_handler hn ht
    rw [hrelease] at hexec
    refine ⟨_, (exec_tret s).trans hexec, by simp [trapReturn], by simp [trapReturn, resumedState], by simp, ?_, by simp [q]⟩
    simp only [trapReturn, State.updSeq_seq_self, returnPc_eq_leftAt]
    exact if_neg fun h => Bool.false_ne_true (hskip.symm.trans h.2)

end Sys2Proof.Machine
end

/-! # The package

The state after reset, bring-up, resets, heat, and code called on a die controller (R486 to R492, R495, R498). -/
section
open Sys2Proof Sys2Proof.Machine Sys2Proof.Claims
namespace Sys2Proof.Machine

/-! ## The twelve dies -/

section dies
variable (f : Nat → Die → Die) (s : State)

theorem foldl_setDie_die (n j : Nat) : ((List.range n).foldl (fun s d => s.setDie d (f d (s.die d))) s).die j =
    if j < n then f j (s.die j) else s.die j := by
  induction n with
  | zero => rfl
  | succ n ih =>
    rw [List.range_succ, List.foldl_append]
    by_cases hj : j = n
    · subst hj
      simp [ih]
    · rw [List.foldl_cons, List.foldl_nil, State.setDie_die_of_ne _ _ hj, ih]
      exact if_congr (by omega) rfl rfl

theorem allDies_die {j : Nat} (hj : j < 12) : (allDies f s).die j = f j (s.die j) := (foldl_setDie_die f s 12 j).trans (if_pos hj)

/-- Two states that differ in the management of dies only. -/
def DiesOnly (s u : State) : Prop := u = { s with dies := u.dies }

theorem allDies_only : DiesOnly s (allDies f s) :=
  List.foldlRecOn (motive := fun u : State => DiesOnly s u) _ _ rfl fun u hu d _ => by
    unfold DiesOnly at *
    rw [hu]
    rfl

@[simp] theorem allDies_up : (allDies f s).up = s.up := by rw [allDies_only f s]
@[simp] theorem allDies_mem : (allDies f s).mem = s.mem := by rw [allDies_only f s]
@[simp] theorem allDies_pcyc : (allDies f s).pcyc = s.pcyc := by rw [allDies_only f s]
@[simp] theorem allDies_master : (allDies f s).master = s.master := by rw [allDies_only f s]
@[simp] theorem allDies_ranks : (allDies f s).ranks = s.ranks := by rw [allDies_only f s]

end dies

/-! ## Bring-up (R491, R492) -/

/-- The step of R491 behind step `k`; 9 stands for the end of step 8. -/
def stepBehind (k : Nat) : Nat := if k = 8 then 9 else k + 1

/-- The state after the step of R491 behind step `k`. -/
def broughtUp (k : Nat) (s : State) : State := allDies (fun _ x => { x with step := min 8 (k + 1) }) (bringUpStep (stepBehind k) s)

theorem exec_powerGood (s : State) : exec .powerGood s = execPowerGood s := rfl

section powerGood
variable {s : State}

theorem execPowerGood_up (h : s.up = true) : execPowerGood s = .next s := if_pos h

theorem execPowerGood_fails (h : s.up = false)
    (hbad : (3 ≤ (s.die 0).step ∧ 0 ∈ s.badDies) ∨ (5 ≤ (s.die 0).step ∧ s.badDispatcher = true)) : execPowerGood s = .next s := by
  rw [execPowerGood, if_neg (by simp [h])]
  exact if_pos (by simpa using hbad)

theorem execPowerGood_steps (h : s.up = false) (hdie : 3 ≤ (s.die 0).step → 0 ∉ s.badDies)
    (hdisp : 5 ≤ (s.die 0).step → s.badDispatcher = false) : execPowerGood s =
      .next (if (broughtUp (s.die 0).step s).up then broughtUp (s.die 0).step s else (broughtUp (s.die 0).step s).later .powerGood) := by
  rw [execPowerGood, if_neg (by simp [h])]
  exact if_neg (by simpa [not_or] using ⟨hdie, hdisp⟩)

/-- Only the end of step 8 ends bring-up. -/
theorem bringUpStep_up {k : Nat} (hpos : 1 ≤ k) (hk : k ≤ 8) : (bringUpStep k s).up = s.up := by
  have htrain : (bringUpStep 7 s).up = s.up := foldl_keeps State.up (fun _ _ => by split <;> rfl) _ _
  match k, hpos, hk with
  | 1, _, _ | 2, _, _ | 5, _, _ | 6, _, _ | 8, _, _ => rfl
  | 3, _, _ | 4, _, _ => simp only [bringUpStep, allDies_up]
  | 7, _, _ => exact htrain

theorem broughtUp_up (k : Nat) (hk : k ≤ 8) (h : s.up = false) : (broughtUp k s).up = decide (k = 8) := by
  rw [broughtUp, allDies_up, stepBehind]
  split
  case isTrue h8 => rw [h8]; rfl
  case isFalse h8 => rw [bringUpStep_up (by omega) (by omega), h, decide_eq_false h8]

/-- What a step of bring-up has done once it is taken. -/
theorem broughtUp_spec (k : Nat) : let u := broughtUp k s
    (∀ j : Nat, j < 12 → (u.die j).step = min 8 (k + 1)) ∧ u.mem = s.mem ∧ (k = 0 → u.pcyc = 0 ∧ u.master = s.pkgid) ∧
    (k = 5 → mget 0 u.ranks 0 = BitVec.ofNat 64 (2 ^ 62 + 2 ^ 61 + s.pkgid % 64 * 2 ^ 16)) ∧
    (k = 8 → ∀ j : Nat, j < 12 → (u.die j).ready = true) := by
  simp only [broughtUp]
  refine ⟨fun j hj => ?_, ?_, fun h0 => ?_, fun h5 => ?_, fun h8 j hj => ?_⟩
  · rw [allDies_die _ _ hj]
  · rw [allDies_mem]
    exact (bringUpStep_keepsBytes _ s).1
  · subst h0
    rw [allDies_pcyc, allDies_master]
    exact ⟨rfl, rfl⟩
  · subst h5
    rw [allDies_ranks]
    rfl
  · subst h8
    have hend : bringUpStep (stepBehind 8) s = { allDies (fun _ x => { x with ready := true }) s with up := true } := rfl
    rw [allDies_die _ _ hj, hend]
    exact congrArg Die.ready (allDies_die (fun _ x => { x with ready := true }) s hj)

theorem execPowerGood_goes (h : s.up = false) {k : Nat} (hstep : (s.die 0).step = k) (hk : k ≤ 8) (hdie : 3 ≤ k → 0 ∉ s.badDies)
    (hdisp : 5 ≤ k → s.badDispatcher = false) : ∃ u, execPowerGood s = .next u ∧
    (∀ j : Nat, j < 12 → (u.die j).step = min 8 (k + 1)) ∧ u.mem = s.mem ∧ (k = 0 → u.pcyc = 0 ∧ u.master = s.pkgid) ∧
    (k = 5 → mget 0 u.ranks 0 = BitVec.ofNat 64 (2 ^ 62 + 2 ^ 61 + s.pkgid % 64 * 2 ^ 16)) ∧
    (k = 8 → u.up = true ∧ ∀ j : Nat, j < 12 → (u.die j).ready = true) ∧
    (k < 8 → u.up = false ∧ ∃ n, u.pcyc < n ∧ (n, .powerGood) ∈ u.agenda) := by
  subst hstep
  obtain ⟨hsteps, hmem, hfirst, hranks, hready⟩ := broughtUp_spec (s := s) (s.die 0).step
  have hup := broughtUp_up _ hk h
  refine ⟨_, execPowerGood_steps h hdie hdisp, ?_⟩
  generalize broughtUp (s.die 0).step s = u at hsteps hmem hfirst hranks hready hup
  by_cases h8 : (s.die 0).step = 8
  · rw [decide_eq_true h8] at hup
    rw [if_pos hup]
    exact ⟨hsteps, hmem, hfirst, hranks, fun _ => ⟨hup, hready h8⟩, fun hlt => absurd h8 hlt.ne⟩
  · rw [decide_eq_false h8] at hup
    rw [if_neg (by simp [hup])]
    exact ⟨hsteps, hmem, hfirst, hranks, fun h => absurd h h8, fun _ => ⟨hup, u.pcyc + 1 + Config.freeDelay u.freeCount, by simp; omega, by simp⟩⟩

end powerGood

/-- Settles O59: every table of the state after reset is empty, and its one task is the first step of bring-up. -/
theorem resetState : Obligations.ResetState := by
  unfold Obligations.ResetState
  intro s
  obtain ⟨u, hu, hsteps, -⟩ := execPowerGood_goes (s := { s with todo := [] }) rfl rfl (Nat.zero_le 8) (by decide) (by decide)
  exact ⟨⟨rfl, rfl, rfl⟩, rfl, rfl, fun _ => rfl, fun _ => rfl, fun _ => ⟨rfl, rfl, rfl, rfl⟩, fun _ => ⟨rfl, rfl⟩,
    fun _ => ⟨rfl, rfl, rfl, rfl⟩, rfl, rfl, rfl, u, (step_of_todo (t := .event .powerGood) rfl).trans hu, hu, hsteps 0 (by decide)⟩

/-! ## A context that is lost (R488, R498) -/

/-- Two states that differ only in what the release of a graph's groups touches. -/
def GroupsReleased (s u : State) : Prop :=
  u = { s with tiles := u.tiles, mtiles := u.mtiles, seqs := u.seqs, graphs := u.graphs, actors := u.actors, regions := u.regions
               arcs := u.arcs, ops := u.ops, lanes := u.lanes, dies := u.dies, links := u.links, agenda := u.agenda }

namespace GroupsReleased
variable {s u w : State}

theorem refl (s : State) : GroupsReleased s s := rfl

theorem trans (h : GroupsReleased s u) (h' : GroupsReleased u w) : GroupsReleased s w := by
  unfold GroupsReleased at *
  rw [h', h]

/-- A loop of such changes is one. -/
theorem foldl {α : Type} {f : State → α → State} (hf : ∀ u x, GroupsReleased u (f u x)) (l : List α) (s : State) :
    GroupsReleased s (l.foldl f s) :=
  List.foldlRecOn l f (refl s) fun u hu x _ => hu.trans (hf u x)

end GroupsReleased

theorem clearTiles_only (q : Nat) (s : State) : GroupsReleased s (clearTiles q s) :=
  .foldl (f := fun s i => { s with tiles := mdel s.tiles (computeOfQuad q i), mtiles := mdel s.mtiles (memoryOfQuad q i) })
    (fun _ _ => rfl) _ _

theorem updGraph_only (c g : Nat) (f : Graph → Graph) (s : State) : GroupsReleased s (updGraph c g f s) := by
  unfold updGraph
  split <;> rfl

theorem releaseGroups_only (c g : Nat) (s : State) : GroupsReleased s (releaseGroups c g s) := by
  unfold releaseGroups
  extract_lets x quads mine s₁ s₂ s₃ s₄
  have h₁ : GroupsReleased s s₁ := .foldl (fun _ _ => by split <;> rfl) _ _
  have h₂ : GroupsReleased s₁ s₂ := .foldl (fun _ _ => by split <;> rfl) _ _
  have h₃ : GroupsReleased s₂ s₃ := rfl
  have h₄ : GroupsReleased s₃ s₄ := by
    refine .foldl (fun u q => ?_) _ _
    exact (clearTiles_only q u).trans rfl
  exact (((h₁.trans h₂).trans h₃).trans h₄).trans (updGraph_only ..)

theorem loseGraph_only (c g : Nat) (s : State) : GroupsReleased s (loseGraph c g s) := by
  unfold loseGraph
  split
  · rfl
  · split
    · rfl
    · refine (releaseGroups_only c g s).trans (.trans ?_ (updGraph_only ..))
      rfl

/-- The graphs of a context are lost: the state to which the host is told. -/
def graphsLost (c : Nat) (s : State) : State :=
  ((s.graphs.filter fun e => e.1 / 256 = c).map fun e => e.1 % 256).foldl (fun s g => loseGraph c g s) (dropEngineOps c s)

theorem graphsLost_only (c : Nat) (s : State) : GroupsReleased s (graphsLost c s) :=
  .trans (u := dropEngineOps c s) rfl (.foldl (fun u g => loseGraph_only c g u) _ _)

/-- Two states that differ only in what the loss of a context touches. -/
def LostOnly (s u : State) : Prop :=
  u = { s with tiles := u.tiles, mtiles := u.mtiles, seqs := u.seqs, graphs := u.graphs, actors := u.actors, regions := u.regions
               arcs := u.arcs, ops := u.ops, lanes := u.lanes, dies := u.dies, links := u.links, agenda := u.agenda
               ctxs := u.ctxs, todo := u.todo, msix := u.msix, freeCount := u.freeCount }

theorem LostOnly.trans {s u w : State} (h : LostOnly s u) (h' : LostOnly u w) : LostOnly s w := by
  unfold LostOnly at *
  rw [h', h]

section told
variable (c code tcause id : Nat) (info loc : Word) (s : State)

theorem tellHost_only : s.tellHost c code tcause id info loc = { s with
    ctxs := (s.tellHost c code tcause id info loc).ctxs, msix := (s.tellHost c code tcause id info loc).msix } := by
  unfold State.tellHost
  dsimp only
  split <;> rfl

/-- The host is told of a context by its cause FIFO alone. -/
theorem tellHost_ctx (j : Nat) : ∃ causes ovf, (s.tellHost c code tcause id info loc).ctx j = { s.ctx j with causes := causes, ovf := ovf } ∧
    (j ≠ c → causes = (s.ctx j).causes ∧ ovf = (s.ctx j).ovf) := by
  by_cases hj : j = c
  · subst hj
    unfold State.tellHost
    dsimp only
    split
    · exact ⟨(s.ctx j).causes, true, State.setCtx_ctx_self .., fun h => absurd rfl h⟩
    · exact ⟨_, false, State.setCtx_ctx_self .., fun h => absurd rfl h⟩
  · refine ⟨(s.ctx j).causes, (s.ctx j).ovf, ?_, fun _ => ⟨rfl, rfl⟩⟩
    unfold State.tellHost
    dsimp only
    split
    · exact State.setCtx_ctx_of_ne _ _ hj
    · exact State.setCtx_ctx_of_ne _ _ hj

end told

theorem tellOpen_ctx (c code id : Nat) (info : Option Word) (s : State) (j : Nat) :
    ∃ causes ovf, (s.tellOpen c code id info).ctx j = { s.ctx j with causes := causes, ovf := ovf } ∧
      (j ≠ c → causes = (s.ctx j).causes ∧ ovf = (s.ctx j).ovf) := tellHost_ctx ..

/-- A context as it is LOST. -/
def Ctx.asLost (x : Ctx) : Ctx :=
  { x with state := .lost, saved := none, haltAt := none, drainSave := false, drained := [], draws := [], copyBack := [], rolling := none
           saveBad := false, placedAt := none, pulseAt := none, awaited := [] }

/-- The state in which a context is lost, before the host is told. -/
def ctxLost (c : Nat) (s : State) : State :=
  let u := graphsLost c s
  let u := if ((u.ctx c).busySnap).isSome then u.soon (.snapshotFail c 4) else u
  u.setCtx c (u.ctx c).asLost

theorem loseCtx_eq (c : Nat) (s : State) : loseCtx c s = (ctxLost c s).tellOpen c Code.lost 0 none := rfl

theorem ctxLost_only (c : Nat) (s : State) : LostOnly s (ctxLost c s) := by
  have hgraphs : LostOnly s (graphsLost c s) := by
    unfold LostOnly
    rw [graphsLost_only c s]
  refine hgraphs.trans ?_
  unfold ctxLost
  dsimp only
  split <;> rfl

theorem ctxLost_ctx (c j : Nat) (s : State) : (ctxLost c s).ctx j = if j = c then (s.ctx c).asLost else s.ctx j := by
  have hctx (i : Nat) : (graphsLost c s).ctx i = s.ctx i := ctx_of_ctxs (by rw [graphsLost_only c s]) i
  by_cases hj : j = c
  · subst hj
    rw [if_pos rfl, ctxLost, State.setCtx_ctx_self]
    split <;> simp [hctx]
  · rw [if_neg hj, ctxLost, State.setCtx_ctx_of_ne _ _ hj]
    split <;> simp [hctx]

theorem tellOpen_only (c code id : Nat) (info : Option Word) (s : State) : LostOnly s (s.tellOpen c code id info) := by
  unfold State.tellOpen LostOnly
  rw [tellHost_only]

theorem loseCtx_only (c : Nat) (s : State) : LostOnly s (loseCtx c s) := (ctxLost_only c s).trans (tellOpen_only ..)

/-- A lost context is LOST, and no other changes its state. -/
theorem loseCtx_state (c j : Nat) (s : State) : ((loseCtx c s).ctx j).state = if j = c then .lost else (s.ctx j).state := by
  obtain ⟨causes, ovf, htold, -⟩ := tellOpen_ctx c Code.lost 0 none (ctxLost c s) j
  rw [loseCtx_eq, htold, ctxLost_ctx]
  split <;> rfl

/-! ## The clock of a die while contexts are lost -/

theorem setDie_clockStopped {s : State} {e : Nat} {x : Die} (h : x.clockStopped = (s.die e).clockStopped) (d : Nat) :
    ((s.setDie e x).die d).clockStopped = (s.die d).clockStopped := by
  by_cases hd : d = e
  · rw [hd, State.setDie_die_self, h]
  · rw [State.setDie_die_of_ne _ _ hd]

theorem releaseGroups_clockStopped (c g d : Nat) (s : State) : ((releaseGroups c g s).die d).clockStopped = (s.die d).clockStopped := by
  unfold releaseGroups
  extract_lets x quads mine s₁ s₂ s₃ s₄
  have h₁ : (s₁.die d).clockStopped = (s.die d).clockStopped :=
    foldl_keeps (fun s => (s.die d).clockStopped) (fun _ _ => by split; exacts [setDie_clockStopped (by rfl) d, rfl]) _ _
  have h₂ : (s₂.die d).clockStopped = (s₁.die d).clockStopped :=
    foldl_keeps (fun s => (s.die d).clockStopped) (fun _ _ => by split; exacts [setDie_clockStopped (by rfl) d, rfl]) _ _
  have h₄ : s₄.dies = s₃.dies := by
    refine foldl_keeps State.dies (fun u q => ?_) _ _
    exact foldl_keeps State.dies (fun _ _ => by rfl) (List.range 4) u
  rw [updGraph_graphsOnly]
  exact (congrArg (fun m => (mget {} m d).clockStopped) h₄).trans (h₂.trans h₁)

theorem loseGraph_clockStopped (c g d : Nat) (s : State) : ((loseGraph c g s).die d).clockStopped = (s.die d).clockStopped := by
  unfold loseGraph
  split
  · rfl
  · split
    · rfl
    · rw [updGraph_graphsOnly]
      exact releaseGroups_clockStopped c g d s

theorem loseCtx_clockStopped (c d : Nat) (s : State) : ((loseCtx c s).die d).clockStopped = (s.die d).clockStopped := by
  have hgraphs : ((graphsLost c s).die d).clockStopped = (s.die d).clockStopped :=
    foldl_keeps (fun s => (s.die d).clockStopped) (fun s g => loseGraph_clockStopped c g d s) _ _
  rw [loseCtx_eq, State.tellOpen, tellHost_only, ← hgraphs, ctxLost]
  dsimp only
  split <;> rfl

/-! ## All contexts of a die -/

/-- Each context of a list is lost. -/
def loseAll (l : List Nat) (s : State) : State := l.foldl (fun s c => loseCtx c s) s

theorem loseAll_only (l : List Nat) (s : State) : LostOnly s (loseAll l s) :=
  List.foldlRecOn (motive := fun u : State => LostOnly s u) l _ rfl fun u hu c _ => hu.trans (loseCtx_only c u)

theorem loseAll_state {l : List Nat} {c : Nat} (hc : c ∈ l) (s : State) : ((loseAll l s).ctx c).state = .lost := by
  refine foldl_does (P := fun u => (u.ctx c).state = .lost) hc (fun s => ?_) (fun s j h => ?_) s
  · rw [loseCtx_state, if_pos rfl]
  · rw [loseCtx_state, h, ite_self]

theorem loseAll_clockStopped (l : List Nat) (d : Nat) (s : State) : ((loseAll l s).die d).clockStopped = (s.die d).clockStopped :=
  foldl_keeps (fun s => (s.die d).clockStopped) (fun s c => loseCtx_clockStopped c d s) l s

/-! ## The error log of a die (R496, R497) -/

section log
variable (s : State) (d src kind place : Nat)

theorem logError_only : DiesOnly s (s.logError d src kind place) := by
  unfold State.logError
  dsimp only
  split <;> rfl

theorem logError_keepsMemory : keepsMemory s (s.logError d src kind place) := keepsMemory_of_memories (State.memories_logError ..)

theorem logError_logs (hsrc : src < 16) (hkind : kind < 4) : logs s (s.logError d src kind place) d src kind := by
  intro hroom
  rw [State.logError, if_neg (Nat.not_le.2 hroom), State.setDie_die_self]
  refine ⟨_, rfl, ?_, rfl⟩
  rw [BitVec.toNat_ofNat]
  omega

end log

/-! ## Resets (R498) -/

section resets
variable {s : State} {d : Nat}

/-- A value of a table with a property that all values listed and the default have. -/
theorem mget_of_all {α : Type} {P : α → Prop} {x : α} {m : Map α} (hx : P x) (h : ∀ e ∈ m, P e.2) (k : Nat) : P (mget x m k) := by
  unfold mget
  cases hf : mfind m k with
  | none => exact hx
  | some v => exact h _ (mem_of_mfind hf)

/-- A reset leaves every context FREE, with at most its cellar. -/
theorem execPkgreset_free {u : State} (hu : execPkgreset s = .next u) (c : Nat) : (u.ctx c).state = .free := by
  obtain rfl := Host.Outcome.next.inj hu
  refine mget_of_all (P := fun x : Ctx => x.state = .free) rfl (fun e he => ?_) c
  obtain ⟨e', -, he'⟩ := List.mem_filterMap.1 he
  dsimp only at he'
  split at he'
  · obtain ⟨x, -, rfl⟩ := Option.map_eq_some_iff.1 he'
    rfl
  · obtain rfl := Option.some.inj he'
    rfl

theorem exec_pkgreset (s : State) : exec .pkgreset s = execPkgreset s := rfl

theorem exec_dcrestart (d : Nat) (s : State) : exec (.dcrestart d) s = execDcrestart d s := rfl

theorem execDcrestart_ignored (h : (s.die d).stopped = false ∨ (s.die d).clockStopped = true) :
    execDcrestart d s = .next (ignoreCommand d (windowOf d 0x200) s) := if_pos (by simpa using h)

/-- A die controller as it starts again in a state. -/
def restarted (d : Nat) (s : State) : State :=
  let u : State := { s with hostTraps := s.hostTraps.filter fun e => e.2.1 != 384 + d }
  ((u.setDie d { s.die d with stopped := false, log := [], lost := 0, joins := 0, attic := 1024, busy := false, inCall := false }).setSeq
    (384 + d) {}).setXlat d { s.xlat d with tlb := [] }

theorem restarted_spec (d : Nat) (s : State) : ((restarted d s).die d).stopped = false ∧ ((restarted d s).die d).log = [] ∧
    ((restarted d s).die d).attic = 1024 ∧ (restarted d s).seq (384 + d) = {} ∧ ((restarted d s).xlat d).tlb = [] ∧
    (∀ c, (restarted d s).ctx c = s.ctx c) ∧ (restarted d s).mem = s.mem := by
  refine ⟨?_, ?_, ?_, ?_, ?_, fun _ => rfl, rfl⟩ <;> simp [restarted]

theorem execDcrestart_restarts (hs : (s.die d).stopped = true) (hc : (s.die d).clockStopped = false) : ∃ u, execDcrestart d s = .next u ∧
    (u.die d).stopped = false ∧ (u.die d).log = [] ∧ (u.die d).attic = 1024 ∧ u.seq (384 + d) = {} ∧ (u.xlat d).tlb = [] ∧
    (∀ c, c ∈ ctxsOnDie s d → (u.ctx c).state = .lost) ∧ u.mem = s.mem := by
  have hgo : execDcrestart d s = .next (restarted d (loseAll (ctxsOnDie s d) s)) := if_neg (by simp [hs, hc])
  obtain ⟨hstopped, hlog, hattic, hseq, htlb, hctx, hmem⟩ := restarted_spec d (loseAll (ctxsOnDie s d) s)
  refine ⟨_, hgo, hstopped, hlog, hattic, hseq, htlb, fun c hm => ?_, ?_⟩
  · rw [hctx, loseAll_state hm]
  · rw [hmem, loseAll_only]

end resets

/-! ## Heat (R486 to R488) -/

section heat
variable {s : State} {d t : Nat}

theorem exec_thermalSample (d t : Nat) (s : State) : exec (.thermalSample d t) s = execThermalSample d t s := rfl

/-- The samples of a die with one of `t` degrees: two of one cycle count as one, the higher. -/
def sampled (x : Die) (t now : Nat) : List Nat :=
  if x.sampledAt = some now then max t (x.samples.headD 0) :: x.samples.drop 1 else (t :: x.samples).take 5

theorem execThermalSample_waits (h : s.pcyc % 8000 ≠ 0) :
    execThermalSample d t s = .next (s.after (8000 - s.pcyc % 8000) (.thermalSample d t)) := if_pos h

theorem execThermalSample_at (h : s.pcyc % 8000 = 0) : execThermalSample d t s =
    .next (if 125 ≤ t && !(s.die d).clockStopped
      then thermalTrip d (s.setDie d { s.die d with samples := sampled (s.die d) t s.pcyc, sampledAt := some s.pcyc })
      else s.setDie d { s.die d with samples := sampled (s.die d) t s.pcyc, sampledAt := some s.pcyc }) := if_neg (not_not.2 h)

theorem execThermalSample_cool (h : s.pcyc % 8000 = 0) (ht : t < 125) : execThermalSample d t s =
    .next (s.setDie d { s.die d with samples := sampled (s.die d) t s.pcyc, sampledAt := some s.pcyc }) := by
  rw [execThermalSample_at h, if_neg (by simp; omega)]

/-- The package event FIFO holds one record more than before: code 0x84, from die `d`. -/
def TripTold (s u : State) (d : Nat) : Prop :=
  s.events.length < 256 → ∃ e, u.events = s.events ++ [e] ∧ e.w0.toNat / 2 ^ 56 = 0x84 ∧ e.w1 = BitVec.ofNat 64 (d + 16)

theorem tellPackage_die (code tcause id : Nat) (info loc : Word) (s : State) (d : Nat) : (s.tellPackage code tcause id info loc).die d = s.die d := by
  unfold State.tellPackage
  split <;> rfl

theorem tellPackage_ctx (code tcause id : Nat) (info loc : Word) (s : State) (c : Nat) : (s.tellPackage code tcause id info loc).ctx c = s.ctx c := by
  unfold State.tellPackage
  split <;> rfl

/-- A trip stops the clock of the die and its controller, loses its contexts and tells the package. -/
theorem thermalTrip_spec (d : Nat) (s : State) : ((thermalTrip d s).die d).clockStopped = true ∧ ((thermalTrip d s).seq (384 + d)).run = .stopped ∧
    (∀ c, c ∈ ctxsOnDie s d → ((thermalTrip d s).ctx c).state = .lost) ∧ TripTold s (thermalTrip d s) d := by
  have hclock : ((loseAll (ctxsOnDie s d) (s.setDie d { s.die d with clockStopped := true })).die d).clockStopped = true := by
    rw [loseAll_clockStopped, State.setDie_die_self]
  have hlost (c : Nat) (hm : c ∈ ctxsOnDie s d) := loseAll_state hm (s.setDie d { s.die d with clockStopped := true })
  have hevents : (loseAll (ctxsOnDie s d) (s.setDie d { s.die d with clockStopped := true })).events = s.events := by
    rw [loseAll_only]
    rfl
  have hdef : thermalTrip d s = ((loseAll (ctxsOnDie s d) (s.setDie d { s.die d with clockStopped := true })).updSeq (384 + d)
    fun q => { q with run := .stopped }).tellPackage Code.fatal 0 0 (BitVec.ofNat 64 (d + 16)) 0 := rfl
  rw [hdef]
  generalize loseAll (ctxsOnDie s d) _ = w at hclock hlost hevents
  refine ⟨?_, ?_, fun c hm => ?_, fun hroom => ?_⟩
  · rw [tellPackage_die]
    exact hclock
  · rw [seq_of_seqs (tellPackage_seqs ..)]
    simp
  · rw [tellPackage_ctx]
    exact hlost c hm
  · have hroom' : (w.updSeq (384 + d) fun q => { q with run := .stopped }).events.length < 256 := by simpa [hevents] using hroom
    rw [tellPackage_events _ _ _ _ _ _ hroom', State.updSeq_events, hevents]
    exact ⟨_, rfl, causeWord_code (by decide) _ _ _, rfl⟩

theorem execThermalSample_trips (h : s.pcyc % 8000 = 0) (ht : 125 ≤ t) (hc : (s.die d).clockStopped = false) :
    ∃ u, execThermalSample d t s = .next u ∧ (u.die d).clockStopped = true ∧ (u.seq (384 + d)).run = .stopped ∧
      (∀ c, c ∈ ctxsOnDie s d → (u.ctx c).state = .lost) ∧ TripTold s u d := by
  rw [execThermalSample_at h, if_pos (by simp [ht, hc])]
  exact ⟨_, rfl, thermalTrip_spec d (s.setDie d { s.die d with samples := sampled (s.die d) t s.pcyc, sampledAt := some s.pcyc })⟩

theorem exec_allowanceUpdate (d : Nat) (s : State) : exec (.allowanceUpdate d) s = execAllowanceUpdate d s := rfl

theorem execAllowanceUpdate_at (h : s.pcyc % 40000 = 0) (hs : (s.die d).stopped = false) (hc : (s.die d).clockStopped = false)
    (ho : (s.die d).dieOff = false) : execAllowanceUpdate d s = .next (s.setDie d { s.die d with
      temp := (s.die d).samples.foldl max 0, allow := allowanceOf (s.die d).acap ((s.die d).samples.foldl max 0)
      trips := if 85 < (s.die d).samples.foldl max 0 then min 65535 ((s.die d).trips + 1) else (s.die d).trips }) :=
  if_neg (by simp [h, hs, hc, ho])

end heat

/-! ## Code called on a die controller (R495) -/

section calls
variable {s : State} {d value : Nat}

theorem exec_dccall (d value : Nat) (s : State) : exec (.dccall d value) s = execDccall d value s := rfl

theorem exec_dccallEntry (d : Nat) (s : State) : exec (.dccallEntry d) s = execDccallEntry d s := rfl

theorem execDccall_calls (hv : value % 8 = 0) (hb : (s.die d).busy = false) (hc : (s.ctx (s.die d).callCtxIn).state ≠ .free) :
    execDccall d value s = .next (s.setDie d { s.die d with
      callVa := BitVec.ofNat 64 value, callCtx := (s.die d).callCtxIn, busy := true, done := false }) := if_neg (by simp [hv, hb, hc])

theorem execDccall_ignored (h : value % 8 ≠ 0 ∨ (s.die d).busy = true ∨ (s.ctx (s.die d).callCtxIn).state = .free) :
    execDccall d value s = .next (ignoreCommand d (windowOf d 0x300) s) := if_pos (by simpa [or_assoc] using h)

theorem execDccallEntry_enters (h : callReady s d = true) : ∃ u, execDccallEntry d s = .next u ∧ (u.seq (384 + d)).pc = (s.die d).callVa ∧
    (u.seq (384 + d)).ctxid = (s.die d).callCtx ∧ (u.seq (384 + d)).run = .run ∧ (∀ r : Nat, r ≠ 31 → regOf (u.seq (384 + d)).s r = 0) ∧
    (u.seq (384 + d)).ready = s.pcyc + 3 ∧ regOf (u.seq (384 + d)).s 31 = 0xFFFFFFFFFFFFFFF8 ∧ (u.die d).inCall = true ∧
    (u.die d).firmware = s.seq (384 + d) ∧ (u.seq (384 + d)).waits = [] ∧ (u.seq (384 + d)).busy = [] ∧ keepsMemory s u := by
  refine ⟨_, if_neg (by simp [h]), ?_⟩
  have hregs (r : Nat) (hr : r ≠ 31) : regOf (setRegOf [] 31 firmwareReturn) r = 0 := by
    rw [regOf_setRegOf_of_ne [] firmwareReturn hr]
    exact ite_self 0
  have hret : regOf (setRegOf [] 31 firmwareReturn) 31 = 0xFFFFFFFFFFFFFFF8 := regOf_setRegOf_self [] firmwareReturn (by decide)
  refine ⟨?_, ?_, ?_, fun r hr => ?_, ?_, ?_, ?_, ?_, ?_, ?_, keepsMemory_of_memories rfl⟩
  case refine_4 => simpa using hregs r hr
  case refine_6 => simpa using hret
  all_goals simp

end calls

/-- Settles O55: each instruction of the package's own has a lemma for each case; those of bring-up cite R491, those of heat R486 to R488. -/
theorem packageSteps : Obligations.PackageSteps := by
  unfold Obligations.PackageSteps
  intro s d x next
  simp only [x, next, exec_powerGood, exec_pkgreset, exec_dcrestart, exec_thermalSample, exec_allowanceUpdate, exec_dccall, exec_dccallEntry]
  refine ⟨execPowerGood_up, fun k hup hk hk8 hdie hdisp => execPowerGood_goes hup hk hk8 hdie hdisp, fun k hup hk => ?_,
    ⟨_, rfl, rfl, rfl, rfl, rfl, rfl, rfl, rfl, rfl, rfl, rfl, rfl, execPkgreset_free rfl⟩, execDcrestart_restarts, fun h => ?_,
    fun t => execThermalSample_waits, fun t ht hcool => ⟨fun hfirst => ?_, fun m ms hat hsamples => ?_⟩, fun t => execThermalSample_trips,
    execAllowanceUpdate_at, fun value => ⟨execDccall_calls, fun h => ?_⟩, execDccallEntry_enters⟩
  · subst hk
    exact execPowerGood_fails hup
  · exact ⟨_, execDcrestart_ignored h, logError_logs _ _ _ _ _ (by decide) (by decide),
      by rw [ignoreCommand, logError_only], by rw [ignoreCommand, logError_only], logError_keepsMemory ..⟩
  · rw [execThermalSample_cool ht hcool, sampled, if_neg hfirst]
  · have hmax : sampled (s.die d) t s.pcyc = max t m :: ms := by rw [sampled, if_pos hat, hsamples]; rfl
    rw [execThermalSample_cool ht hcool, hmax, ← hat]
  · exact ⟨_, execDccall_ignored h, logError_logs _ _ _ _ _ (by decide) (by decide), by rw [ignoreCommand, logError_only]⟩

end Sys2Proof.Machine
end

/-! # What the host does

Contexts made and destroyed, doorbells, registers, event FIFOs and device memory (R348, R349, R451 to R455, R493 to R496, R502). -/
section
open Sys2Proof Sys2Proof.Machine Sys2Proof.Claims
namespace Sys2Proof.Machine

/-! ## Bytes -/

theorem bytesLE_length (n k : Nat) : (bytesLE n k).length = k := by
  induction k generalizing n with
  | zero => rfl
  | succ k ih => rw [bytesLE, List.length_cons, ih]

theorem bytesLE_getElem? {k i : Nat} (n : Nat) (hi : i < k) : (bytesLE n k)[i]? = some (BitVec.ofNat 8 (n / 256 ^ i)) := by
  induction k generalizing n i with
  | zero => omega
  | succ k ih =>
    cases i with
    | zero => simp [bytesLE]
    | succ i => rw [bytesLE, List.getElem?_cons_succ, ih _ (by omega), Nat.div_div_eq_div_mul, pow_succ, mul_comm]

/-- The host has read 8 bytes: those of a word. -/
theorem hostReads_bytes (w : Word) (s : State) : (hostReads w s).hostRead.length = 8 ∧
    ∀ i : Nat, i < 8 → (hostReads w s).hostRead[i]? = some (BitVec.ofNat 8 (w.toNat / 256 ^ i)) :=
  ⟨bytesLE_length .., fun _ hi => bytesLE_getElem? _ hi⟩

theorem readByte_writeBytes_inside (m : Memory) (a : Nat) {bs : List Byte} {i : Nat} {b : Byte} (h : bs[i]? = some b) :
    readByte (writeBytes m a bs) (a + i) = b := by
  induction bs generalizing m a i with
  | nil => cases h
  | cons b' bs ih =>
    cases i with
    | zero =>
      obtain rfl := Option.some.inj h
      rw [writeBytes, readByte_writeBytes_outside _ _ _ _ (by omega), Nat.add_zero, readByte_writeByte_self]
    | succ i => rw [writeBytes, ← ih (writeByte m a b') (a + 1) h, show a + (i + 1) = a + 1 + i by omega]

/-! ## Contexts are made (R348, R453) -/

section create
variable {s : State} {va : Nat}

theorem execCtxcreate_refused (hup : s.up = true) {r : Nat} (hr : r < 9) (hrefused : createRefused s (readLE s.mem va 64) r = true)
    (hlow : ∀ q : Nat, q < r → createRefused s (readLE s.mem va 64) q = false) :
    execCtxcreate va s = .next { s with ctxresult := BitVec.ofNat 64 (2 ^ 63 + r * 2 ^ 56) } := by
  have hfind : (List.range 9).find? (fun r => createRefused s (readLE s.mem va 64) r) = some r :=
    List.find?_range_eq_some.2 ⟨hrefused, List.mem_range.2 hr, fun q hq => by simp [hlow q hq]⟩
  rw [execCtxcreate, if_neg (by simp [hup])]
  simp only [hfind]

/-- A state with a new context, made from a descriptor. -/
def made (s : State) (k w : Nat) : State :=
  { s.setCtx k { ctxOf w with stored := (s.ctx k).stored } with ctxresult := BitVec.ofNat 64 (2 ^ 63 + k) }

theorem execCtxcreate_makes (hup : s.up = true) (hall : ∀ r : Nat, r < 9 → createRefused s (readLE s.mem va 64) r = false) :
    execCtxcreate va s = .next (made s (ctxidFor s (readLE s.mem va 64)) (readLE s.mem va 64)) := by
  have hfind : (List.range 9).find? (fun r => createRefused s (readLE s.mem va 64) r) = none :=
    List.find?_eq_none.2 fun r hr => by simp [hall r (List.mem_range.1 hr)]
  rw [execCtxcreate, if_neg (by simp [hup])]
  simp only [hfind]
  rfl

theorem made_ctx (s : State) (k w : Nat) : (made s k w).ctx k = { ctxOf w with stored := (s.ctx k).stored } := State.setCtx_ctx_self ..

theorem made_ctx_of_ne {j k : Nat} (h : j ≠ k) (w : Nat) : (made s k w).ctx j = s.ctx j := State.setCtx_ctx_of_ne _ _ h

/-- REQID names the context. -/
theorem ctxidFor_requested {w : Nat} (h : w / 2 ^ 415 % 2 = 1) : ctxidFor s w = w / 2 ^ 408 % 64 := by
  rw [ctxidFor, if_pos (show bitOf w 415 = true from decide_eq_true h)]
  rfl

/-- Without REQID the lowest FREE context is taken: there is one, else REASON 6 applies. -/
theorem ctxidFor_lowest {w : Nat} (h : w / 2 ^ 415 % 2 = 0) (hfree : createRefused s w 6 = false) :
    (s.ctx (ctxidFor s w)).state = .free ∧ ∀ j : Nat, j < ctxidFor s w → (s.ctx j).state ≠ .free := by
  rw [ctxidFor, if_neg (show ¬ bitOf w 415 = true from fun hb => absurd (of_decide_eq_true hb) (by rw [h]; decide))]
  cases hfind : (List.range 64).find? fun c => (s.ctx c).state == .free with
  | none =>
    have hnone := List.find?_eq_none.1 hfind
    simp [createRefused] at hfree hnone
    obtain ⟨c, hc, hstate⟩ := hfree
    exact absurd hstate (hnone c hc)
  | some c =>
    obtain ⟨hc, -, hlow⟩ := List.find?_range_eq_some.1 hfind
    exact ⟨by simpa using hc, fun j hj => by simpa using hlow j hj⟩

theorem ofNat_bitsOf (w lo : Nat) : BitVec.ofNat 64 (bitsOf w lo 64) = BitVec.ofNat 64 (w / 2 ^ lo) :=
  BitVec.eq_of_toNat_eq (by simp [bitsOf])

/-- The fields of a context by their places in its descriptor. -/
theorem ctxOf_fields (w : Nat) : (ctxOf w).ptroot = w % 2 ^ 64 ∧ (ctxOf w).ringBase = w / 2 ^ 76 % 2 ^ 52 * 2 ^ 12 ∧
    (ctxOf w).saveBase = w / 2 ^ 128 % 2 ^ 64 ∧ (ctxOf w).saveSize = w / 2 ^ 192 % 2 ^ 64 ∧ (ctxOf w).tvec = BitVec.ofNat 64 (w / 2 ^ 256) ∧
    (ctxOf w).rbvec = BitVec.ofNat 64 (w / 2 ^ 320) ∧ (ctxOf w).seed = BitVec.ofNat 64 (w / 2 ^ 448) := by
  simp only [ctxOf, ofNat_bitsOf]
  simp only [bitsOf, Nat.pow_zero, Nat.div_one, show (2 : Nat) ^ 12 = 4096 by decide, and_self]

end create

/-! ## Contexts are destroyed (R349) -/

section destroy
variable (c g : Nat) (s : State)

/-- The release of a graph's groups adds no graph. -/
theorem releaseGroups_graph_none {g : Nat} (h : s.graph? c g = none) (k : Nat) : (releaseGroups c k s).graph? c g = none := by
  unfold releaseGroups
  extract_lets x quads mine s₁ s₂ s₃ s₄
  have h₁ : s₁.graphs = s.graphs := foldl_keeps State.graphs (fun _ _ => by split <;> rfl) _ _
  have h₂ : s₂.graphs = s₁.graphs := foldl_keeps State.graphs (fun _ _ => by split <;> rfl) _ _
  have h₄ : s₄.graphs = s₃.graphs := by
    refine foldl_keeps State.graphs (fun u q => ?_) _ _
    exact foldl_keeps State.graphs (fun _ _ => by rfl) (List.range 4) u
  have hnone : s₄.graph? c g = none := (graph_of_graphs (h₄.trans (h₂.trans h₁))).trans h
  unfold updGraph
  split
  next => exact hnone
  next y hy =>
    have hne : State.graphKey c g ≠ State.graphKey c k := fun he => by
      rw [State.graph?, ← he] at hy
      rw [State.graph?, hy] at hnone
      cases hnone
    exact (mfind_mset_of_ne _ _ hne).trans hnone

/-- Unloading adds no graph. -/
theorem unload_graph_none {g : Nat} (h : s.graph? c g = none) (k : Nat) : (unload c k s).graph? c g = none := by
  unfold unload
  extract_lets x s₁ s₂ s₃ y n
  have h₁ : s₁.graphs = s.graphs := by dsimp only [s₁]; split <;> rfl
  have h₂ : s₂.graphs = (releaseGroups c k s₁).graphs := by
    dsimp only [s₂, settleCtx]
    split <;> rfl
  have hnone : s₂.graph? c g = none := (graph_of_graphs h₂).trans (releaseGroups_graph_none c s₁ ((graph_of_graphs h₁).trans h) k)
  clear_value s₂
  change mfind (mdel s₂.graphs _) _ = none
  by_cases hk : State.graphKey c g = State.graphKey c k
  · rw [hk, mfind_mdel_self]
  · rw [mfind_mdel_of_ne _ hk]
    exact hnone

/-- The slots of a context's graphs. -/
def slotsOf : List Nat := (s.graphs.filter fun e => e.1 / 256 = c).map fun e => e.1 % 256

/-- Every graph of a context is unloaded. -/
def unloadAll : State := (slotsOf c s).foldl (fun s g => unload c g s) s

theorem unloadAll_graph {g : Nat} (hg : g < 256) : (unloadAll c s).graph? c g = none := by
  unfold unloadAll
  cases h : s.graph? c g with
  | none => exact List.foldlRecOn (motive := fun u : State => u.graph? c g = none) _ _ h fun u hu k _ => unload_graph_none c u hu k
  | some y =>
    have hmem : g ∈ slotsOf c s := by
      have hkey : State.graphKey c g = c * 256 + g := rfl
      exact List.mem_map.2 ⟨_, List.mem_filter.2 ⟨mem_of_mfind h, decide_eq_true (by dsimp only; omega)⟩, by dsimp only; omega⟩
    exact foldl_does (f := fun s g => unload c g s) (P := fun u => u.graph? c g = none) hmem (fun u => unload_graph c g u)
      (fun u k h => unload_graph_none c u h k) s

theorem unloadAll_mem : (unloadAll c s).mem = s.mem := foldl_keeps State.mem (fun s g => (unload_keepsBytes c g s).1) _ _

/-- The walker of a die without the entries of a context. -/
def withoutCtx (x : Xlat) : Xlat := { x with tlb := x.tlb.filter fun x => !(x.ctx = c && x.va < 2 ^ 56 && 0 < x.va + x.size) }

/-- What a `TLB` holds behind a drop of the whole address space of a context. -/
theorem tlbDrop_whole {k : Nat} {t : TlbEntry} (ht : t ∈ ((tlbDrop (fun _ => true) c 0 (2 ^ 56) s).xlat k).tlb) (hc : t.ctx = c) :
    2 ^ 56 ≤ t.va ∨ t.va + t.size = 0 := by
  have hxlat : (tlbDrop (fun _ => true) c 0 (2 ^ 56) s).xlat k = ((mfind s.xlats k).map (withoutCtx c)).getD {} :=
    congrArg (fun o : Option Xlat => o.getD {}) (mfind_map_values (withoutCtx c) s.xlats k)
  rw [hxlat] at ht
  cases hx : mfind s.xlats k with
  | none => simp [hx] at ht
  | some x =>
    simp [hx, hc, withoutCtx] at ht
    omega

theorem execContextDestroy_free (h : (s.ctx c).state = .free) : execContextDestroy c s = .next (ignoreCommand 0 0x10 s) := if_pos (by simp [h])

/-- A state `u` without context `c` of `s`, but for its sealed snapshots. -/
def withoutContext (u : State) : State :=
  let x := s.ctx c
  let kept := x.snaps.filter fun p => p.state == .sealed
  let u := u.setCtx c { stored := if kept.isEmpty then x.stored else some (x.cellar, x.cellarUsed, kept) }
  tlbDrop (fun _ => true) c 0 (2 ^ 56) { u with
    ops := u.ops.filter fun e => !(e.2.ctx = c)
    agenda := u.agenda.filter fun e => !ofContext c e.2
    hostTraps := u.hostTraps.filter fun e => e.1 != c
    images := u.images.filter fun e => e.1 != c }

theorem withoutContext_ctx (u : State) : ((withoutContext c s u).ctx c).state = .free ∧ ((withoutContext c s u).ctx c).records = [] ∧
    ((withoutContext c s u).ctx c).causes = [] := by
  have hctx : (withoutContext c s u).ctx c = { stored := _ } := State.setCtx_ctx_self u c _
  rw [hctx]
  exact ⟨rfl, rfl, rfl⟩

theorem execContextDestroy_spec (h : (s.ctx c).state ≠ .free) : ∃ u, execContextDestroy c s = .next u ∧ (u.ctx c).state = .free ∧
    (u.ctx c).records = [] ∧ (u.ctx c).causes = [] ∧ (∀ g : Nat, g < 256 → u.graph? c g = none) ∧
    (∀ (k : Nat) (t : TlbEntry), t ∈ (u.xlat k).tlb → t.ctx = c → 2 ^ 56 ≤ t.va ∨ t.va + t.size = 0) ∧ u.mem = s.mem := by
  have hgo : execContextDestroy c s = .next (withoutContext c s (unloadAll c s)) := if_neg (by simpa using h)
  obtain ⟨hstate, hrecords, hcauses⟩ := withoutContext_ctx c s (unloadAll c s)
  exact ⟨_, hgo, hstate, hrecords, hcauses, fun g hg => unloadAll_graph c s hg, fun k t => tlbDrop_whole c _, unloadAll_mem c s⟩

end destroy

/-! ## Traps, doorbells and FIFOs (R360, R453 to R455) -/

section doorbells
variable {s : State} {c n value : Nat}

theorem answered_up {r : StepResult} (h : s.up = true) : answered s r = r := if_pos h

theorem answered_down {r : StepResult} (h : s.up = false) : answered s r = .next s := if_neg (by simp [h])

theorem execHostResume_none (h : s.hostTraps.find? (fun e => decide (e.1 = value % 64)) = none) :
    execHostResume value s = .next (ignoreCommand 0 0x10 s) := by
  rw [execHostResume]
  simp only [h]

theorem execHostResume_raised (h : s.hostTraps.find? (fun e => decide (e.1 = value % 64)) = some (c, n, .raised))
    (hcall : 384 ≤ n → n < 396 → (s.die (n - 384)).inCall = false) :
    execHostResume value s = .next { s with hostTraps := s.hostTraps.erase (c, n, .raised) } := by
  have hfault : faultOfCall { s with hostTraps := s.hostTraps.erase (c, n, .raised) } n .raised = false := by
    cases hctl : isDieCtl n with
    | false => rw [faultOfCall, hctl]; rfl
    | true =>
      simp only [isDieCtl, Bool.and_eq_true, decide_eq_true_eq] at hctl
      have hfree : ({ s with hostTraps := s.hostTraps.erase (c, n, .raised) } : State).die (n - 384) = s.die (n - 384) := rfl
      rw [faultOfCall, hfree, hcall hctl.1 hctl.2, Bool.and_false, Bool.false_and]
  rw [execHostResume]
  simp only [h]
  exact congrArg _ (if_neg (Bool.eq_false_iff.1 hfault))

/-- A ring of the dispatcher ends its `idle` alone. -/
theorem wakeIdle_seq_of_ne {m : Nat} (h : m ≠ n) : (wakeIdle n s).seq m = s.seq m := by
  unfold wakeIdle
  split
  · exact State.updSeq_seq_of_ne _ _ h
  · rfl

theorem wakeIdle_memories (n : Nat) (s : State) : (wakeIdle n s).memories = s.memories := by
  unfold wakeIdle
  split <;> rfl

theorem wakeIdle_ctxs (n : Nat) (s : State) : (wakeIdle n s).ctxs = s.ctxs := by
  unfold wakeIdle
  split <;> rfl

/-- Where an `idle` that ends goes on. -/
theorem wakeIdle_idle (h : (s.seq n).run = .idle) :
    ((wakeIdle n s).seq n).run = .run ∧ ((wakeIdle n s).seq n).pc = (Seq.advance (s.seq n) s.pcyc).pc := by
  have hpc (q : Seq) (t t' : Nat) : (q.advance t).pc = (q.advance t').pc := by
    unfold Seq.advance
    dsimp only
    split <;> rfl
  unfold wakeIdle
  rw [h]
  simp only [State.updSeq_seq_self]
  exact ⟨trivial, hpc ..⟩

/-- The host arc of a context with one more token: the newest is replaced where 64 wait. -/
def rungArc (x : Ctx) (value : Nat) : List Nat := if 64 ≤ x.hostArc.length then x.hostArc.dropLast ++ [value] else x.hostArc ++ [value]

/-- The dies whose controller serves a context go on. -/
def wakeServing (c : Nat) (s : State) : State :=
  (List.range 12).foldl (fun s d => if (s.seq (384 + d)).ctxid = c then wakeIdle (384 + d) s else s) s

theorem execHostDoorbell_ignored (hup : s.up = true) (h : n ≠ 8 ∨ (s.ctx c).state = .free) :
    execHostDoorbell c n value s = .next (ignoreCommand 0 (0x10000 + 0x1000 * c) s) := by
  rw [execHostDoorbell, answered_up hup]
  exact if_pos (by simpa using h)

theorem execHostDoorbell_rings (hup : s.up = true) (h : (s.ctx c).state ≠ .free) : execHostDoorbell c 8 value s =
    .next (wakeServing c (wakeIdle 396 (s.setCtx c { s.ctx c with hostArc := rungArc (s.ctx c) value }))) := by
  rw [execHostDoorbell, answered_up hup]
  exact if_neg (by simpa using h)

theorem wakeServing_ctxs (c : Nat) (s : State) : (wakeServing c s).ctxs = s.ctxs :=
  foldl_keeps State.ctxs (fun s d => by split; exacts [wakeIdle_ctxs .., rfl]) _ _

theorem wakeServing_memories (c : Nat) (s : State) : (wakeServing c s).memories = s.memories :=
  foldl_keeps State.memories (fun s d => by split; exacts [wakeIdle_memories .., rfl]) _ _

/-- The dispatcher is not a die controller. -/
theorem wakeServing_dispatcher (c : Nat) (s : State) : (wakeServing c s).seq 396 = s.seq 396 := by
  refine List.foldlRecOn (motive := fun u : State => u.seq 396 = s.seq 396) _ _ rfl fun u hu d hd => ?_
  split
  · rw [wakeIdle_seq_of_ne (by have := List.mem_range.1 hd; omega), hu]
  · exact hu

/-- What a doorbell does: the token is on the host arc, and the dispatcher goes on. -/
theorem rung_spec (c value : Nat) (s : State) :
    let u := wakeServing c (wakeIdle 396 (s.setCtx c { s.ctx c with hostArc := rungArc (s.ctx c) value }))
    ((s.ctx c).hostArc.length < 64 → (u.ctx c).hostArc = (s.ctx c).hostArc ++ [value]) ∧
    (64 ≤ (s.ctx c).hostArc.length → (u.ctx c).hostArc = (s.ctx c).hostArc.dropLast ++ [value]) ∧
    ((s.seq 396).run = .idle → (u.seq 396).run = .run ∧ (u.seq 396).pc = (Seq.advance (s.seq 396) s.pcyc).pc) ∧ keepsMemory s u := by
  intro u
  have harc : (u.ctx c).hostArc = rungArc (s.ctx c) value := by
    rw [ctx_of_ctxs ((wakeServing_ctxs c _).trans (wakeIdle_ctxs 396 _)), State.setCtx_ctx_self]
  have hseq : u.seq 396 = (wakeIdle 396 (s.setCtx c { s.ctx c with hostArc := rungArc (s.ctx c) value })).seq 396 := wakeServing_dispatcher ..
  refine ⟨fun h => ?_, fun h => ?_, fun h => ?_, ?_⟩
  · rw [harc, rungArc, if_neg (by omega)]
  · rw [harc, rungArc, if_pos h]
  · rw [hseq]
    exact wakeIdle_idle (s := s.setCtx c { s.ctx c with hostArc := rungArc (s.ctx c) value }) h
  · exact keepsMemory_of_memories ((wakeServing_memories c _).trans (wakeIdle_memories ..))

end doorbells

section fifos
variable {s : State} {c d : Nat}

theorem execCauseFifoRead_empty (hup : s.up = true) (h : (s.ctx c).causes = []) : execCauseFifoRead c s = .next (hostReads 0 s) := by
  rw [execCauseFifoRead, answered_up hup, h]

theorem execCauseFifoRead_cons (hup : s.up = true) {e : EventRec} {es : List EventRec} (h : (s.ctx c).causes = e :: es) :
    execCauseFifoRead c s = .next (hostReads e.w0 (s.setCtx c { s.ctx c with causes := es, lastCause := e })) := by
  rw [execCauseFifoRead, answered_up hup]
  dsimp only
  split
  next hnil => exact absurd (hnil.symm.trans h) (by simp)
  next r rest hcons =>
    obtain ⟨rfl, rfl⟩ := List.cons.inj (hcons.symm.trans h)
    rfl

theorem execPackageEventRead_cons (hup : s.up = true) {e : EventRec} {es : List EventRec} (h : s.events = e :: es) :
    execPackageEventRead s = .next (hostReads e.w0 { s with events := es, lastEvent := e }) := by
  rw [execPackageEventRead, answered_up hup]
  split
  next hnil => exact absurd (hnil.symm.trans h) (by simp)
  next r rest hcons =>
    obtain ⟨rfl, rfl⟩ := List.cons.inj (hcons.symm.trans h)
    rfl

theorem execErrorLogRead_cons (hup : s.up = true) {e : LogEntry} {es : List LogEntry} (h : (s.die d).log = e :: es) :
    execErrorLogRead d s = .next (hostReads e.w0 (s.setDie d { s.die d with log := es, lastLog := e.w1 })) := by
  rw [execErrorLogRead, answered_up hup]
  dsimp only
  split
  next hnil => exact absurd (hnil.symm.trans h) (by simp)
  next r rest hcons =>
    obtain ⟨rfl, rfl⟩ := List.cons.inj (hcons.symm.trans h)
    rfl

end fifos

/-! ## Device memory (R451, R502) -/

section bar2
variable {s : State} {pa len : Nat} {bytes : List (BitVec 8)} {b : BitVec 8}

/-- No byte of an access stands in a bank under test. -/
theorem findSome?_underTest_none {places : List Nat} (h : ∀ a ∈ places, underTest s a = none) : places.findSome? (underTest s) = none :=
  List.findSome?_eq_none_iff.2 h

/-- The places of an access. -/
theorem mem_places {a : Nat} (h : a ∈ (List.range len).map (pa + ·)) : ∃ i, i < len ∧ a = pa + i := by
  obtain ⟨i, hi, rfl⟩ := List.mem_map.1 h
  exact ⟨i, List.mem_range.1 hi, rfl⟩

theorem execBar2Read_open (hup : s.up = true) (htest : ∀ i : Nat, i < len → underTest s (pa + i) = none) : execBar2Read pa len s =
    .next { if ((List.range len).map (pa + ·)).all (byteBacked s) then s else s.logError 0 9 0 pa with
      hostRead := ((List.range len).map (pa + ·)).map fun a => if byteBacked s a then readByte s.mem a else 0xFF } := by
  have hnone : ((List.range len).map (pa + ·)).findSome? (underTest s) = none := findSome?_underTest_none fun a ha => by
    obtain ⟨i, hi, rfl⟩ := mem_places ha
    exact htest i hi
  rw [execBar2Read, answered_up hup]
  simp only [hnone]

theorem execBar2Read_backed (hup : s.up = true) (h : ∀ i : Nat, i < len → byteBacked s (pa + i) = true ∧ underTest s (pa + i) = none) :
    execBar2Read pa len s = .next { s with hostRead := (List.range len).map fun i => readByte s.mem (pa + i) } := by
  have hall : ((List.range len).map (pa + ·)).all (byteBacked s) = true := List.all_eq_true.2 fun a ha => by
    obtain ⟨i, hi, rfl⟩ := mem_places ha
    exact (h i hi).1
  have hgot : (((List.range len).map (pa + ·)).map fun a => if byteBacked s a then readByte s.mem a else 0xFF) =
      (List.range len).map fun i => readByte s.mem (pa + i) := by
    rw [List.map_map]
    exact List.map_congr_left fun i hi => if_pos (h i (List.mem_range.1 hi)).1
  rw [execBar2Read_open hup fun i hi => (h i hi).2, if_pos hall, hgot]

theorem execBar2Read_unbacked (hup : s.up = true) (hback : byteBacked s pa = false) (htest : underTest s pa = none) :
    execBar2Read pa 1 s = .next { s.logError 0 9 0 pa with hostRead := [0xFF] } := by
  have hall : ¬ ((List.range 1).map (pa + ·)).all (byteBacked s) = true := by simp [hback]
  have hgot : (((List.range 1).map (pa + ·)).map fun a => if byteBacked s a then readByte s.mem a else 0xFF) = [0xFF] := by simp [hback]
  rw [execBar2Read_open hup fun i hi => by obtain rfl : i = 0 := (by omega); exact htest, if_neg hall, hgot]

theorem execBar2Read_held (hup : s.up = true) {d : Nat} (h : underTest s pa = some d) :
    execBar2Read pa 1 s = .next (holdRequest d (.event (.bar2Read pa 1)) s) := by
  have hsome : ((List.range 1).map (pa + ·)).findSome? (underTest s) = some d := by simp [h]
  rw [execBar2Read, answered_up hup]
  simp only [hsome]

theorem execBar2Write_held (hup : s.up = true) {d : Nat} (h : underTest s pa = some d) :
    execBar2Write pa [b] s = .next (holdRequest d (.event (.bar2Write pa [b])) s) := by
  have hsome : ((List.range [b].length).map (pa + ·)).findSome? (underTest s) = some d := by simp [h]
  rw [execBar2Write, answered_up hup]
  simp only [hsome]
  rfl

theorem execBar2Write_backed (hup : s.up = true) (h : ∀ i : Nat, i < bytes.length → byteBacked s (pa + i) = true ∧ underTest s (pa + i) = none) :
    ∃ u, execBar2Write pa bytes s = .next u ∧ u.mem = writeBytes s.mem pa bytes ∧ u.near = s.near ∧ u.ctxs = s.ctxs := by
  have hnone : ((List.range bytes.length).map (pa + ·)).findSome? (underTest s) = none := findSome?_underTest_none fun a ha => by
    obtain ⟨i, hi, rfl⟩ := mem_places ha
    exact (h i hi).2
  have hall : ((List.range bytes.length).map (pa + ·)).all (byteBacked s) = true := List.all_eq_true.2 fun a ha => by
    obtain ⟨i, hi, rfl⟩ := mem_places ha
    exact (h i hi).1
  rw [execBar2Write, answered_up hup]
  cases bytes with
  | nil => exact ⟨s, rfl, rfl, rfl, rfl⟩
  | cons b bs =>
    simp only [hnone, hall]
    exact ⟨_, rfl, rfl, rfl, rfl⟩

theorem execBar2Write_unbacked (hup : s.up = true) (hback : byteBacked s pa = false) (htest : underTest s pa = none) :
    execBar2Write pa [b] s = .next (s.logError 0 9 0 pa) := by
  have hnone : ((List.range [b].length).map (pa + ·)).findSome? (underTest s) = none := by simp [htest]
  rw [execBar2Write, answered_up hup]
  simp only [hnone]
  simp [hback]

end bar2

/-! ## Register writes (R440, R452, R453, R494, R495, R498) -/

section registers
variable {s : State} {value d off : Nat}

theorem execRegisterWrite_package (hup : s.up = true) (hv : value < 2 ^ 64) :
    execRegisterWrite 0x00 value s = .next ({ s with ctxresult := BitVec.ofNat 64 (s.ctxresult.toNat % 2 ^ 63) }.later (.ctxcreate value)) ∧
    execRegisterWrite 0x10 value s = .next (command value s) ∧ execRegisterWrite 0x18 value s = .next { s with pkgvec := value % 256 } := by
  simp only [execRegisterWrite, Nat.mod_eq_of_lt hv, hup]
  exact ⟨rfl, rfl, rfl⟩

theorem execRegisterWrite_doorbell (hup : s.up = true) (hv : value < 2 ^ 64) {c : Nat} (hc : c < 64) :
    execRegisterWrite (0x10000 + 0x1000 * c) value s = .next (s.soon (.hostDoorbell c 8 value)) := by
  unfold execRegisterWrite
  rw [Nat.mod_eq_of_lt hv, if_neg (by simp [hup]), if_neg (by omega), if_pos (by omega), if_pos (by omega),
    show (0x10000 + 0x1000 * c - 0x10000) / 0x1000 = c by omega]

theorem execRegisterWrite_link (hup : s.up = true) (hv : value < 2 ^ 64) {n : Nat} (hn : n < 16) :
    execRegisterWrite (0x50008 + 256 * n) value s = .next (linkCommand n value s) := by
  unfold execRegisterWrite
  rw [Nat.mod_eq_of_lt hv, if_neg (by simp [hup]), if_neg (by omega), if_neg (by omega), if_pos (by omega), if_pos (by omega),
    show (0x50008 + 256 * n - 0x50000) / 0x100 = n by omega]

theorem execRegisterWrite_window (hup : s.up = true) (hv : value < 2 ^ 64) (hd : d < 12) (hoff : off < 0x100000) :
    execRegisterWrite (0x100000 + 0x100000 * d + off) value s = .next (windowWrite d off value s) := by
  unfold execRegisterWrite
  rw [Nat.mod_eq_of_lt hv, if_neg (by simp [hup]), if_neg (by omega), if_neg (by omega), if_neg (by omega),
    if_pos (by simp; omega), show (0x100000 + 0x100000 * d + off - 0x100000) / 0x100000 = d by omega,
    show (0x100000 + 0x100000 * d + off) % 0x100000 = off by omega]

theorem command_destroy (h : value / 64 % 4 = 1) : command value s = s.soon (.contextDestroy (value % 64)) := by
  have hop : bitsOf value 6 2 = 1 := h
  simp only [command, hop]

theorem command_resume (h : value / 64 % 4 = 2) : command value s = s.soon (.hostResume (value % 64)) := by
  have hop : bitsOf value 6 2 = 2 := h
  simp only [command, hop]

/-- The registers of a migration request once its last word is written, and the request as it is taken. -/
theorem linkCommand_retrain {n : Nat} (h : value % 4 = 1) : linkCommand n value s = s.soon (.linkRetrain n) := by
  simp only [linkCommand, h]

theorem linkCommand_reset {n : Nat} (h : value % 4 = 2) : linkCommand n value s = s.soon (.linkReset n) := by
  simp only [linkCommand, h]

theorem windowWrite_request (hv : value < 2 ^ 64) : Task.event (.migrationRequest d ((s.die d).mreq.getD 0 0).toNat ((s.die d).mreq.getD 1 0).toNat
    ((s.die d).mreq.getD 2 0).toNat (if 3 < (s.die d).mreq.length then value else 0)) ∈ (windowWrite d 0x118 value s).todo := by
  have hlow (i : Nat) (hi : i ≠ 3) (v : Word) : ((s.die d).mreq.set 3 v).getD i 0 = (s.die d).mreq.getD i 0 := by
    simp [List.getD_eq_getElem?_getD, List.getElem?_set_ne hi.symm]
  have hlast : (((s.die d).mreq.set 3 (BitVec.ofNat 64 value)).getD 3 0).toNat = if 3 < (s.die d).mreq.length then value else 0 := by
    rw [List.getD_eq_getElem?_getD, List.getElem?_set_self']
    by_cases h3 : 3 < (s.die d).mreq.length
    · simpa [h3] using hv
    · simp [h3]
  refine List.mem_append_right _ (List.mem_singleton.2 ?_)
  simp only [hlow 0 (by decide), hlow 1 (by decide), hlow 2 (by decide), hlast]

theorem windowWrite_restart (h1 : value / 2 % 2 = 0) (h0 : value % 2 = 1) : windowWrite d 0x200 value s = s.soon (.dcrestart d) := by
  have hb1 : bitOf value 1 = false := by simp [bitOf, h1]
  have hb0 : bitOf value 0 = true := by simp [bitOf, h0]
  simp only [windowWrite, hb1, hb0]
  rfl

theorem windowWrite_reset (h1 : value / 2 % 2 = 1) : windowWrite 0 0x200 value s = s.soon .pkgreset := by
  have hb1 : bitOf value 1 = true := by simp [bitOf, h1]
  simp only [windowWrite, hb1]
  rfl

end registers

/-- Settles O56: each action of the host has a lemma for each case; what is ignored is only logged. -/
theorem hostSteps : Obligations.HostSteps := by
  unfold Obligations.HostSteps
  intro s c d x y next reads ignored
  have hignored (i : Instr) (addr : Nat) (h : exec i s = .next (ignoreCommand 0 addr s)) : ignored i :=
    ⟨_, h, logError_logs _ _ _ _ _ (by decide) (by decide), by rw [ignoreCommand, logError_only], by rw [ignoreCommand, logError_only],
      logError_keepsMemory ..⟩
  refine ⟨fun va hup => ⟨fun r => execCtxcreate_refused hup, fun hall => ?_⟩, fun hup va => if_pos (by simp [hup]),
    execContextDestroy_spec c s, fun h => hignored _ _ (execContextDestroy_free c s h), fun value n hc h hcall => ?_,
    fun value hc h => hignored _ 0x10 (execHostResume_none (hc ▸ h)), fun hup value n bytes i hi => ?_, fun value hup h => ?_,
    fun value size hup h => hignored _ _ (execHostDoorbell_ignored hup h), fun e es hup h => ?_, fun hup h => ?_, fun e es hup h => ?_,
    fun e es hup h => ?_, fun pa len hup h => ?_, fun pa die b hup h => ⟨execBar2Read_held hup h, execBar2Write_held hup h⟩,
    fun pa hup hback htest => ?_, fun pa bytes hup h => ?_, fun pa b hup hback htest => ?_, fun hup value hv => ?_, fun value h => ?_⟩
  · refine ⟨_, execCtxcreate_makes hup hall, _, rfl, ctxidFor_requested, fun h => ctxidFor_lowest h (hall 6 (by decide)), ?_⟩
    rw [made_ctx]
    obtain ⟨hroot, hring, hbase, hsize, htvec, hrbvec, hseed⟩ := ctxOf_fields (readLE s.mem va 64)
    exact ⟨rfl, hroot, hring, hbase, hsize, htvec, hrbvec, hseed, fun j hj => made_ctx_of_ne hj _, keepsMemory_of_memories rfl⟩
  · subst hc
    exact execHostResume_raised h hcall
  · simp only [List.mem_cons, List.not_mem_nil, or_false] at hi
    rcases hi with rfl | rfl | rfl | rfl | rfl | rfl
    · exact answered_down hup
    · exact answered_down hup
    · exact answered_down hup
    · exact answered_down hup
    · exact answered_down hup
    · exact answered_down hup
  · exact ⟨_, execHostDoorbell_rings hup h, rung_spec c value s⟩
  · exact ⟨_, execCauseFifoRead_cons hup h, hostReads_bytes .., State.setCtx_ctx_self ..⟩
  · exact ⟨_, execCauseFifoRead_empty hup h, hostReads_bytes 0 s, rfl⟩
  · exact ⟨_, execPackageEventRead_cons hup h, hostReads_bytes .., rfl, rfl⟩
  · exact ⟨_, execErrorLogRead_cons hup h, hostReads_bytes .., State.setDie_die_self ..⟩
  · refine ⟨_, execBar2Read_backed hup h, by simp, keepsMemory_of_memories rfl, fun i hi => ?_⟩
    simp [hi]
  · exact ⟨_, execBar2Read_unbacked hup hback htest, rfl, logError_logs _ _ _ _ _ (by decide) (by decide)⟩
  · obtain ⟨u, hu, hmem, hnear, hctxs⟩ := execBar2Write_backed hup h
    refine ⟨u, hu, fun i b hb => ?_, hnear, hctxs, fun a ha => ?_⟩
    · rw [hmem, readByte_writeBytes_inside _ _ hb]
    · rw [hmem, readByte_writeBytes_outside _ _ _ _ ha]
  · exact ⟨_, execBar2Write_unbacked hup hback htest, logError_keepsMemory .. |>.1, logError_logs _ _ _ _ _ (by decide) (by decide)⟩
  · obtain ⟨hcreate, hcommand, hvector⟩ := execRegisterWrite_package hup hv
    refine ⟨⟨_, hcreate, ?_, setLater_later rfl _⟩, fun h => ?_, fun h => ?_, ⟨_, hvector, rfl⟩, execRegisterWrite_doorbell hup hv,
      fun n hn => ⟨fun h => ?_, fun h => ?_⟩, fun hd => ⟨?_, ?_, fun h1 h0 => ?_, fun h0 h1 => ?_, ?_⟩⟩
    · exact lt_of_le_of_lt (BitVec.toNat_ofNat .. ▸ Nat.mod_le ..) (Nat.mod_lt _ (by decide))
    · exact hcommand.trans (congrArg Host.Outcome.next (command_destroy h))
    · exact hcommand.trans (congrArg Host.Outcome.next (command_resume h))
    · exact (execRegisterWrite_link hup hv hn).trans (congrArg Host.Outcome.next (linkCommand_retrain h))
    · exact (execRegisterWrite_link hup hv hn).trans (congrArg Host.Outcome.next (linkCommand_reset h))
    · exact ⟨_, execRegisterWrite_window hup hv hd (by decide), congrArg Die.acap (State.setDie_die_self ..)⟩
    · exact ⟨_, execRegisterWrite_window hup hv hd (by decide), windowWrite_request hv⟩
    · exact (execRegisterWrite_window hup hv hd (by decide)).trans (congrArg Host.Outcome.next (windowWrite_restart h1 h0))
    · exact (execRegisterWrite_window hup hv hd (by decide)).trans (congrArg Host.Outcome.next (h0 ▸ windowWrite_reset h1))
    · exact execRegisterWrite_window hup hv hd (by decide)
  · have hkind : min 2 (value % 4) = value % 4 := by omega
    refine ⟨_, rfl, ?_, logError_keepsMemory ..⟩
    rw [hkind]
    exact logError_logs _ _ _ _ _ (by decide) (by omega)

end Sys2Proof.Machine
end

/-! # Remote atomics: how they begin

The state behind a `ramo` that issues (R443, R444). -/
section
open Sys2Proof Sys2Proof.Machine Sys2Proof.Claims
namespace Sys2Proof.Machine

/-! ## What an item is made of -/

/-- Two states from which the issuing unit sends alike: the links, the ranks and the context of the unit. -/
structure SendsAs (s u : State) : Prop where
  links : u.links = s.links
  ranks : u.ranks = s.ranks
  ctx : curCtx u = curCtx s

namespace SendsAs
variable {s u w : State}

theorem refl (s : State) : SendsAs s s := ⟨rfl, rfl, rfl⟩

theorem trans (h : SendsAs s u) (h' : SendsAs u w) : SendsAs s w :=
  ⟨h'.links.trans h.links, h'.ranks.trans h.ranks, h'.ctx.trans h.ctx⟩

theorem link (h : SendsAs s u) (l : Nat) : u.link l = s.link l := by rw [State.link, h.links, State.link]

theorem rank (h : SendsAs s u) : u.rank = s.rank := by rw [State.rank, h.ranks, State.rank]

theorem setTile (t : Nat) (x : Tile) (s : State) : SendsAs s (s.setTile t x) := ⟨rfl, rfl, rfl⟩

theorem updSeq (n : Nat) {f : Seq → Seq} {s : State} (h : (f (s.seq n)).ctxid = (s.seq n).ctxid) : SendsAs s (s.updSeq n f) := by
  refine ⟨rfl, rfl, ?_⟩
  unfold curCtx
  rw [State.updSeq_cur]
  split
  · rfl
  next m _ =>
    by_cases hm : m = n
    · rw [hm, State.updSeq_seq_self, h]
    · rw [State.updSeq_seq_of_ne _ _ hm]

theorem setChan (v : UnitId) (c : Nat) (x : OrdChan) (s : State) : SendsAs s (setChan v c x s) := by
  cases v with
  | tile t => exact setTile ..
  | seq n =>
    unfold Machine.setChan
    exact updSeq n rfl

theorem issueLoad (o : Op) (lat : Nat) (res : Result) (s : State) : SendsAs s (issueLoad o lat res s) := by
  have hnew : SendsAs s (s.newOp o) := ⟨rfl, rfl, rfl⟩
  unfold Machine.issueLoad
  dsimp only
  split
  · exact hnew.trans (setTile ..)
  · split
    · unfold waitFor
      split
      · exact hnew
      · exact hnew.trans (updSeq _ rfl)
    · exact hnew

end SendsAs

/-- With `tagOp_counted`: what the issuing unit would send is the same behind the count of a channel. -/
theorem tagOp_sends {s : State} {ch : Nat} (h : channelFree s ch) (k : Nat → State → StepResult) :
    ∃ n v, tagOp ch s k = k n v ∧ CountedOn s v ch n ∧ OperandsOf s v ∧ SendsAs s v := by
  obtain ⟨n, v, hv, hcounted, hops⟩ := tagOp_counted h fun _ v => .next v
  by_cases hc : ch = 0
  · obtain rfl : s = v := Host.Outcome.next.inj ((if_pos hc).symm.trans hv)
    exact ⟨0, s, if_pos hc, { hcounted with number := fun hne => absurd hc hne }, hops, .refl s⟩
  · have htag {k : Nat → State → StepResult} := (if_neg hc).trans (if_neg (Nat.not_le.2 (h.resolve_left hc))) (a := tagOp ch s k)
    obtain rfl := Host.Outcome.next.inj (htag.symm.trans hv)
    obtain ⟨hn, -⟩ := hcounted.number hc
    exact ⟨n, _, htag.trans (by rw [hn]), hcounted, hops, .setChan ..⟩

/-! ## The remote atomic (R443, R444) -/

section ramo
variable (sub : Nat) (d b c : BitVec 6) (x : Word) (ch n mt l : Nat) (s : State)

/-- The third operand, which only the compare-and-swap has. -/
def ramoThird : BitVec 32 := if sub = 7 then (readS s c).setWidth 32 else 0

/-- A remote atomic at address `x` as the issuing unit's access. -/
def remoteOp : Op :=
  { mkOp s (.remote sub ((readS s b).setWidth 32) (ramoThird sub c s) (bitsOf x.toNat 42 6) l) mt (x.toNat % 2 ^ 21) 1 with
    va := x.toNat, chan := ch, seqn := n, dst := some d.toNat, pc := curPc s }

/-- The access recorded and awaited. -/
def recordRemote : State := issueLoad (remoteOp sub d b c x ch n mt l s) 2048 (.scalar d.toNat 0) s

/-- The item that carries the atomic of state `s` to another package, from state `w`. -/
def ramoItem (w : State) : DynItem :=
  { cls := 1, ctx := curCtx w, rank := w.rank, itag := s.opCount % 65536, a := x, b := (readS s b).setWidth 32
    c := ramoThird sub c s, sub := sub, ft := if sub = 8 then 1 else 0 }

/-- A link with an item to send. -/
def Link.carrying (y : Link) (i : DynItem) (id : Nat) : Link :=
  { y with itemsOut := y.itemsOut ++ [i], inFlight := y.inFlight ++ [(id % 65536, id)] }

variable {sub d b c x ch n mt l s}

theorem ramo_eq {a : BitVec 6} {oc : BitVec 3} (hx : readS s a = x) (hzero : bitsOf x.toNat 21 21 = 0) (htile : remoteTile x = some mt)
    (hal : x.toNat % 4 = 0)
    (hlink : (if bitsOf x.toNat 42 6 = s.rank then some ownLink
      else if liveEntry (mget 0 s.ranks (bitsOf x.toNat 42 6)) then (upLinks s (bitsOf x.toNat 42 6)).head? else none) = some l) :
    ramo sub d a b c oc s = tagOp (chanOfP oc) s fun n v =>
      let w := recordRemote sub d b c x (chanOfP oc) n mt l v
      if l = ownLink then finish (w.later (.ramoInvocationArrival l))
      else finish (w.setLink l ((w.link l).carrying (ramoItem sub b c x v w) v.opCount)) := by
  unfold ramo
  rw [hx]
  dsimp only
  rw [if_neg (by simp [hzero, htile]), if_neg (by simp [hal]), hlink, htile]
  rfl

/-- A remote atomic in the state in which it is counted. -/
theorem recordRemote_counted {v : State} (hv : CountedOn s v ch n) (hops : OperandsOf s v) (hsend : SendsAs s v) :
    let w := recordRemote sub d b c x ch n mt l v
    let o := remoteOp sub d b c x ch n mt l v
    begun s (done w) o ∧ o.kind = .remote sub ((readS s b).setWidth 32) (ramoThird sub c s) (bitsOf x.toNat 42 6) l ∧
      (done w).agenda = s.agenda ∧ (done w).pcyc = s.pcyc ∧ keepsMemory s (done w) ∧ goesOn s (done w) ∧
      awaited s (done w) d 2048 (.scalar d.toNat 0) ∧ SendsAs s w ∧ ramoItem sub b c x v w = ramoItem sub b c x s s := by
  intro w o
  obtain ⟨hset, hwaits⟩ := issueLoad_setForBanks (s := v) (d := d) (lat := 2048) (res := .scalar d.toNat 0) (o := o) ⟨rfl, rfl, rfl, rfl⟩ (.inl rfl)
  obtain ⟨hbegun, hagenda, hclock, hmem, hgoes⟩ := recorded_of_setForBanks (s := s) (w := w) (o := o) (by
    have hset' := SetForBanks.of_counted hv hset
    rwa [hv.opCount] at hset')
  have hsends : SendsAs s w := hsend.trans (.issueLoad ..)
  refine ⟨hbegun, ?_, hagenda, hclock, hmem, hgoes, awaited_done (awaited_of_counted hv hops hwaits), hsends, ?_⟩
  · simp only [o, remoteOp, mkOp, ramoThird, hops.scalars]
  · simp only [ramoItem, ramoThird, hops.scalars, hv.opCount, hsends.ctx, hsends.rank]

theorem done_setLink (l : Nat) (y : Link) (w : State) : done (w.setLink l y) = (done w).setLink l y := by
  unfold done
  split
  next u hu => rw [show w.cur.unit = .tile u from hu]
  next m hu =>
    rw [show w.cur.unit = .seq m from hu]
    rfl

variable {a : BitVec 6} {oc : BitVec 3} (hx : readS s a = x) (hzero : bitsOf x.toNat 21 21 = 0) (htile : remoteTile x = some mt)
  (hal : x.toNat % 4 = 0) (hch : channelFree s (chanOfP oc))
include hx hzero htile hal hch

/-- To the package's own rank it stays in the package. -/
theorem ramo_own (hr : bitsOf x.toNat 42 6 = s.rank) : ∃ u p n, ramo sub d a b c oc s = .next u ∧ begun s u p ∧
    p.kind = .remote sub ((readS s b).setWidth 32) (ramoThird sub c s) (bitsOf x.toNat 42 6) 16 ∧ p.mtile = mt ∧ p.addr = x.toNat % 2 ^ 21 ∧
    p.chan = chanOfP oc ∧ awaited s u d 2048 (.scalar d.toNat 0) ∧ s.pcyc < n ∧ u.agenda = s.agenda ++ [(n, .ramoInvocationArrival 16)] ∧
    keepsMemory s u ∧ goesOn s u := by
  have heq := ramo_eq (sub := sub) (d := d) (b := b) (c := c) (oc := oc) (l := ownLink) hx hzero htile hal (if_pos hr)
  obtain ⟨n, v, htag, hv, hops, hsend⟩ := tagOp_sends hch fun n v =>
    let w := recordRemote sub d b c x (chanOfP oc) n mt ownLink v
    if ownLink = ownLink then finish (w.later (.ramoInvocationArrival ownLink))
    else finish (w.setLink ownLink ((w.link ownLink).carrying (ramoItem sub b c x v w) v.opCount))
  obtain ⟨hbegun, hkind, hagenda, hclock, hmem, hgoes, hwaits, -, -⟩ :=
    recordRemote_counted (sub := sub) (d := d) (b := b) (c := c) (x := x) (mt := mt) (l := ownLink) hv hops hsend
  have hexec := ((heq.trans htag).trans (if_pos rfl)).trans (finish_eq _)
  rw [done_later] at hexec
  exact ⟨_, _, s.pcyc + 1 + Config.freeDelay (done (recordRemote sub d b c x (chanOfP oc) n mt ownLink v)).freeCount, hexec, hbegun, hkind,
    rfl, rfl, rfl, hwaits, by omega, by rw [State.later_agenda, hagenda, hclock]; rfl, hmem, hgoes⟩

/-- To a live rank with an UP link it leaves on the lowest-numbered one. -/
theorem ramo_sent (hr : bitsOf x.toNat 42 6 ≠ s.rank) (hlive : liveEntry (mget 0 s.ranks (bitsOf x.toNat 42 6)) = true)
    (hl : (upLinks s (bitsOf x.toNat 42 6)).head? = some l) : ∃ u p, ramo sub d a b c oc s = .next u ∧ begun s u p ∧
    p.kind = .remote sub ((readS s b).setWidth 32) (ramoThird sub c s) (bitsOf x.toNat 42 6) l ∧
    p.chan = chanOfP oc ∧ awaited s u d 2048 (.scalar d.toNat 0) ∧
    u.link l = (s.link l).carrying (ramoItem sub b c x s s) s.opCount ∧ keepsMemory s u ∧ goesOn s u := by
  have heq := ramo_eq (sub := sub) (d := d) (b := b) (c := c) (oc := oc) (l := l) hx hzero htile hal
    ((if_neg hr).trans ((if_pos hlive).trans hl))
  have hport : l ≠ ownLink := by
    have hmem := List.mem_of_head? hl
    simp only [upLinks, rankLinks, List.mem_filter, List.mem_range] at hmem
    exact Nat.ne_of_lt hmem.1.1
  obtain ⟨n, v, htag, hv, hops, hsend⟩ := tagOp_sends hch fun n v =>
    let w := recordRemote sub d b c x (chanOfP oc) n mt l v
    if l = ownLink then finish (w.later (.ramoInvocationArrival l))
    else finish (w.setLink l ((w.link l).carrying (ramoItem sub b c x v w) v.opCount))
  obtain ⟨hbegun, hkind, hagenda, hclock, hmem, hgoes, hwaits, hlinks, hitem⟩ :=
    recordRemote_counted (sub := sub) (d := d) (b := b) (c := c) (x := x) (mt := mt) (l := l) hv hops hsend
  have hexec := ((heq.trans htag).trans (if_neg hport)).trans (finish_eq _)
  rw [done_setLink, hlinks.link, hitem, hv.opCount] at hexec
  exact ⟨_, _, hexec, hbegun, hkind, rfl, hwaits, State.setLink_link_self .., hmem, hgoes⟩

end ramo

/-- Settles O32: every row is `ramo` with its SUB; its two clauses are `ramo_own` and `ramo_sent`. -/
theorem remoteAtomicsBegin : Obligations.RemoteAtomicsBegin := by
  intro d a b c oc s mt l x r ch hzero htile hal hch begins
  have row {i : Instr} {sub : Nat} {c : BitVec 6} (hi : exec i s = ramo sub d a b c oc s) : begins i sub (ramoThird sub c s) := by
    refine ⟨fun hr => ?_, fun hr hlive hl => ?_⟩
    · obtain ⟨u, p, n, hu, h⟩ := ramo_own (sub := sub) (d := d) (b := b) (c := c) rfl hzero htile hal hch hr
      exact ⟨u, p, n, hi.trans hu, h⟩
    · obtain ⟨u, p, hu, hbegun, hkind, hchan, hwaits, hlink, hmem, hgoes⟩ :=
        ramo_sent (sub := sub) (d := d) (b := b) (c := c) rfl hzero htile hal hch hr hlive hl
      exact ⟨u, p, hi.trans hu, hbegun, hkind, hchan, hwaits, by rw [hlink]; rfl, by rw [hlink]; rfl, hmem, hgoes⟩
  exact ⟨row (c := 0) rfl, row (c := 0) rfl, row (c := 0) rfl, row (c := 0) rfl, row (c := 0) rfl, row (c := 0) rfl, row (c := 0) rfl, row rfl,
    row (c := 0) rfl, row (c := 0) rfl, row (c := 0) rfl⟩

end Sys2Proof.Machine
end

/-! # Instructions of the tensor unit

The state behind each tensor instruction of a timed list, and behind `tsysto` (R319, R323 to R325, R331 to R335, R342 to R344). -/
section
open Sys2Proof Sys2Proof.Machine Sys2Proof.Claims
namespace Sys2Proof.Machine

section tensorInstructions
variable {s : State} {t : Nat} {a b c d : BitVec 6} {flags rm : BitVec 4} (ht : s.cur.unit = .tile t)
include ht

/-! ## Settings (R319, R323 to R325) -/

theorem putSetting_tile (x : TSetting) : putSetting x s = .next (setTensor t { tensorAt s t with settings := (tensorAt s t).settings ++ [x] } s) :=
  onTile_tile s ht _

/-- `tdef` with its checks passed: an armed slot, the two buffers, their sizes and the format LQ2 by columns. -/
theorem execTdef_defines {ma ia na mb ib nb : Nat} (harmed : ((tensorAt s t).slot d.toNat).state ≠ .armed)
    (ha : bufferAt s (quadOfPos t) (readS s a).toNat = some (ma, ia, na)) (hb : bufferAt s (quadOfPos t) (readS s b).toNat = some (mb, ib, nb))
    (hfa : operandBytes (Cfg.afmt (tensorAt s t).cfg) (Cfg.m (tensorAt s t).cfg) (Cfg.k (tensorAt s t).cfg) (flags.getLsbD 0) ≤ bufferBytes s ma ia)
    (hfb : operandBytes (Cfg.bfmt (tensorAt s t).cfg) (Cfg.n (tensorAt s t).cfg) (Cfg.k (tensorAt s t).cfg) (flags.getLsbD 1) ≤ bufferBytes s mb ib)
    (hla : ¬ (flags.getLsbD 0 = true ∧ Cfg.afmt (tensorAt s t).cfg = 6)) (hlb : ¬ (flags.getLsbD 1 = true ∧ Cfg.bfmt (tensorAt s t).cfg = 6)) :
    execTdef d a b c flags s = putSetting (.define d.toNat { state := .defined, cfg := (tensorAt s t).cfg, aAddr := (readS s a).toNat
                                                             bAddr := (readS s b).toNat, acc := c.toNat, flags := flags.toNat, curA := na, curB := nb }) s := by
  have hbit (i : Nat) : bitOf flags.toNat i = flags.getLsbD i := bitOf_eq_testBit ..
  rw [execTdef, onTile_tile s ht]
  dsimp only
  rw [if_neg (by simpa using harmed), ha, hb]
  dsimp only
  rw [hbit, hbit, if_neg (Nat.not_lt.2 hfa), if_neg (Nat.not_lt.2 hfb), if_neg (by simpa using And.intro hla hlb)]

/-- `tarm` outside a systolic group. -/
theorem execTarm_arms (hsys : inSystolic s t = false) (hfree : ((tensorAt s t).slot d.toNat).state ≠ .free) :
    execTarm d s = putSetting (.arm d.toNat s.cur.seg s.cur.entry s.cur.stamp) s := by
  have hstate : ¬ (((tensorAt s t).slot d.toNat).state == .free) = true := by simpa using hfree
  rw [execTarm, onTile_tile s ht]
  unfold inSystolic at hsys
  dsimp only
  split
  next c g i hgroup =>
    rw [hgroup] at hsys
    rw [if_neg (Bool.eq_false_iff.1 hsys), if_neg hstate]
  next => rw [if_neg hstate]

/-- The corner's `tarm` of a systolic group. -/
theorem execTarm_starts {cx g i q0 w h : Nat} {p : Pass} (hgroup : groupOfTile s t = some (cx, g, i)) (hsys : (groupAt s cx g i).systolic = true)
    (hrect : quadRect (groupAt s cx g i).quads = some (q0, w, h)) (hcorner : gridTile q0 0 0 = t)
    (hcheck : passCheck s (groupAt s cx g i) q0 w h d.toNat = .start p) :
    execTarm d s = .next ((setGroup cx g i { groupAt s cx g i with starting := some p } s).soon (.systolicPassStart cx g i)) := by
  rw [execTarm, onTile_tile s ht]
  simp only [hgroup, hsys, hrect, hcorner, hcheck, if_true, ne_eq, not_true_eq_false, if_false]

/-! ## Tags, weights, results (R331 to R335, R343) -/

theorem sendTag_sends (full : Bool) : ∃ v o, sendTag full a s = .next v ∧ begun s v o ∧ o.kind = .tag full ∧ o.addr = (readS s a).toNat ∧
    v.agenda = s.agenda ++ [(s.pcyc + 6, .ttagArrival s.opCount)] ∧ keepsMemory s v ∧ v.tiles = s.tiles :=
  ⟨_, _, onTile_tile s ht _, ⟨mfind_mset_self .., rfl, rfl, rfl, rfl, rfl⟩, rfl, rfl, rfl, keepsMemory_of_memories rfl, rfl⟩

theorem execTwload_loads (hsys : inSystolic s t = true) (hal : (readS s a).toNat % 64 = 0) (hlt : (readS s a).toNat < 2 ^ 23)
    (hfit : (readS s a).toNat % 2 ^ 21 + operandBytes (Cfg.bfmt (tensorAt s t).cfg) 64 64 false ≤ 2 ^ 21) :
    execTwload a s = .next ((setTensor t { tensorAt s t with
      loading := (tensorAt s t).loading ++ [{ addr := (readS s a).toNat, cfg := (tensorAt s t).cfg }] } s).after 80 (.twloadValid t)) := by
  rw [execTwload, onTile_tile s ht]
  dsimp only
  rw [if_neg (by simp [hsys]), if_neg (by simp [hal]; omega)]

/-- A load of the tensor unit: it is recorded and its register awaited. -/
theorem issueLoad_begins (o : Op) (ho : o.IssuedIn s) (lat : Nat) (res : Result) :
    begun s (issueLoad o lat res s) o ∧ awaited s (issueLoad o lat res s) d lat res ∧ keepsMemory s (issueLoad o lat res s) := by
  obtain ⟨hset, hwaits⟩ := issueLoad_setForBanks (s := s) (d := d) (lat := lat) (res := res) ho (.inr ⟨t, ht⟩)
  exact ⟨hset.begins, hwaits, keepsMemory_of_memories (u := issueLoad o lat res s) hset.memories⟩

theorem execTread_reads : ∃ v o, execTread d a b s = .next v ∧ begun s v o ∧ o.kind = .tensorRead a.toNat ((readS s b).toNat % 64) ∧
    awaited s v d 8 (.vector d.toNat (BitVec.allOnes 2048) 0) ∧ keepsMemory s v := by
  obtain ⟨hbegun, hwaits, hmem⟩ := issueLoad_begins (d := d) ht
    { mkOp s (.tensorRead a.toNat ((readS s b).toNat % 64)) 0 0 1 with dst := some d.toNat } ⟨rfl, rfl, rfl, rfl⟩ 8 (wholeVec d 0)
  exact ⟨_, _, onTile_tile s ht _, hbegun, rfl, hwaits, hmem⟩

theorem execTstore_queues {ft : BitVec 3} (h : (tensorAt s t).queue.length < 4) : execTstore a b ft rm s = .next (setTensor t { tensorAt s t with
    queue := (tensorAt s t).queue ++ [{ addr := (readS s a).toNat, acc := b.toNat, ft := ft.toNat, rm := rm.toNat, issued := s.pcyc
                                        seg := s.cur.seg, entry := s.cur.entry, stamp := s.cur.stamp }] } s) := by
  rw [execTstore, onTile_tile s ht]
  exact if_neg (Nat.not_le.2 h)

theorem tensorStat_reads (slot : Bool) : ∃ v o, tensorStat slot d a s = .next v ∧ begun s v o ∧ o.kind = .tensorStat slot a.toNat ∧
    awaited s v d 2 (.scalar d.toNat 0) ∧ keepsMemory s v := by
  obtain ⟨hbegun, hwaits, hmem⟩ := issueLoad_begins (d := d) ht
    { mkOp s (.tensorStat slot a.toNat) 0 0 1 with dst := some d.toNat } ⟨rfl, rfl, rfl, rfl⟩ 2 (.scalar d.toNat 0)
  exact ⟨_, _, onTile_tile s ht _, hbegun, rfl, hwaits, hmem⟩

end tensorInstructions

/-! ## A root group (R209, R342) -/

section group
variable {s : State} {c g i n : Nat} {y : Graph}

theorem setGroup_eq (hy : s.graph? c g = some y) (x : Group) : setGroup c g i x s = s.setGraph c g { y with groups := y.groups.set i x } := by
  simp only [setGroup, hy]

theorem groupAt_of_graphs {u : State} (h : u.graphs = s.graphs) : groupAt u c g i = groupAt s c g i := by
  rw [groupAt, graph_of_graphs h, groupAt]

theorem groupAt_setGroup (hy : s.graph? c g = some y) (hi : i < y.groups.length) (x : Group) : groupAt (setGroup c g i x s) c g i = x := by
  rw [setGroup_eq hy, groupAt, State.graph?, State.setGraph_graphs, mfind_mset_self]
  simp [hi]

/-- `tsysto` with nothing in flight in its group. -/
theorem execTsysto_sets {on : BitVec 1} (hn : s.cur.unit = .seq n) (hquad : n < 384) (hgroup : groupOfQuad s n = some (c, g, i))
    (hrect : on = 1 → systolicRefusal s c g i = none) (hpasses : (groupAt s c g i).passes = []) (hstarting : (groupAt s c g i).starting = none)
    (hfirings : ∀ e, e ∈ s.tiles → quadOfPos e.1 ∈ (groupAt s c g i).quads → e.2.tensor.firings = []) :
    execTsysto on s = .next (movedOn n (setGroup c g i { groupAt s c g i with systolic := decide (on = 1) } s)) := by
  have hrefuses : (if on = 1 then systolicRefusal s c g i else none) = none := by
    split
    next h => exact hrect h
    next => rfl
  have hidle : (s.tiles.any fun e => (groupAt s c g i).quads.contains (quadOfPos e.1) && !e.2.tensor.firings.isEmpty) = false :=
    List.any_eq_false.2 fun e he => by
      by_cases hq : quadOfPos e.1 ∈ (groupAt s c g i).quads
      · simp [hfirings e he hq]
      · simp [hq]
  have hunit : isQuadSeq n = true := decide_eq_true hquad
  rw [execTsysto, onSeq_seq s hn]
  simp only [hunit, if_true, hgroup, hrefuses, hpasses, hstarting, hidle]
  rfl

end group

/-- Settles O39: a row for each instruction of the unit. -/
theorem tensorInstructions : Obligations.TensorInstructions := by
  unfold Obligations.TensorInstructions
  intro d a b c imm ft flags rm on s t ht
  refine ⟨putSetting_tile ht _, fun ma ia na mb ib nb harmed ha hb hfa hfb hla hlb => ?_, fun hsys hfree => ?_,
    fun cx g i q0 w h p hgroup hsys hrect hcorner hcheck => execTarm_starts ht hgroup hsys hrect hcorner hcheck, putSetting_tile ht _,
    fun full => ?_, fun hsys hal hlt hfit => execTwload_loads ht hsys hal hlt hfit, execTread_reads ht, fun h => execTstore_queues ht h,
    onTile_tile s ht _, fun isSlot => ?_, fun r n cx g i y hn hquad hgroup hy hi hrect hpasses hstarting hfirings => ?_⟩
  · exact (execTdef_defines ht harmed ha hb hfa hfb hla hlb).trans (putSetting_tile ht _)
  · exact (execTarm_arms ht hsys hfree).trans (putSetting_tile ht _)
  · cases full
    · exact sendTag_sends ht false
    · exact sendTag_sends ht true
  · cases isSlot
    · exact tensorStat_reads ht false
    · exact tensorStat_reads ht true
  · refine ⟨_, execTsysto_sets hn hquad hgroup hrect hpasses hstarting hfirings, ?_, ?_⟩
    · exact (groupAt_of_graphs (movedOn_graphs ..)).trans (groupAt_setGroup hy hi _)
    · have honly : GraphsOnly r (setGroup cx g i { groupAt r cx g i with systolic := decide (on = 1) } r) := by
        rw [setGroup_eq hy]; rfl
      exact (StaysAt.movedOn hn (RequestOnly.staysAt (.of_graphsOnly honly))).2

end Sys2Proof.Machine
end

/-! # Steps of the tensor unit

Firings, tags, results, weights and systolic passes (R320, R323, R325 to R328, R331 to R334, R343 to R346). -/
section
open Sys2Proof Sys2Proof.Machine Sys2Proof.Claims
namespace Sys2Proof.Machine

/-! ## The unit of a tile, its slots and accumulators -/

section objects
variable (s : State) (t n : Nat) (x : Tensor)

@[simp] theorem tensorAt_setTensor_self : tensorAt (setTensor t x s) t = x := by rw [setTensor, tensorAt, State.setTile_tile_self]

theorem tensorAt_setTensor_of_ne {u : Nat} (h : u ≠ t) : tensorAt (setTensor t x s) u = tensorAt s u := by
  rw [setTensor, tensorAt, State.setTile_tile_of_ne _ _ h, tensorAt]

@[simp] theorem Tensor.acc_setAcc_self (a : Acc) : (x.setAcc n a).acc n = a := mget_mset_self ..

theorem Tensor.acc_setAcc_of_ne {m : Nat} (h : m ≠ n) (a : Acc) : (x.setAcc n a).acc m = x.acc m := mget_mset_of_ne _ _ _ h

theorem Tensor.slot_setSlot (k : Nat) (a : TSlot) : (x.setSlot n a).slot k = if k = n then a else x.slot k := by
  split
  next h => exact h ▸ mget_mset_self ..
  next h => exact mget_mset_of_ne _ _ _ h

/-- A buffer's tag changes no unit. -/
theorem setBuffer_tiles (mt i n : Nat) (full : Bool) : (setBuffer mt i n full s).tiles = s.tiles := by
  unfold setBuffer
  dsimp only
  split <;> rfl

theorem setBuffer_memories (mt i n : Nat) (full : Bool) : (setBuffer mt i n full s).memories = s.memories := by
  unfold setBuffer
  dsimp only
  split <;> rfl

theorem emptyBuffer_tiles (q a : Nat) : (emptyBuffer q a s).tiles = s.tiles := by
  unfold emptyBuffer
  split
  · exact setBuffer_tiles ..
  · rfl

theorem emptyBuffer_memories (q a : Nat) : (emptyBuffer q a s).memories = s.memories := by
  unfold emptyBuffer
  split
  · exact setBuffer_memories ..
  · rfl

theorem tensorAt_of_tiles {s u : State} (h : u.tiles = s.tiles) (t : Nat) : tensorAt u t = tensorAt s t := by
  simp only [tensorAt, State.tile, h]

/-- The buffer of a consumed operand becomes EMPTY. -/
def consumed (b : Bool) (q a : Nat) (s : State) : State := if b then emptyBuffer q a s else s

theorem consumed_tiles (b : Bool) (q a : Nat) : (consumed b q a s).tiles = s.tiles := by
  cases b
  · rfl
  · exact emptyBuffer_tiles ..

theorem consumed_memories (b : Bool) (q a : Nat) : (consumed b q a s).memories = s.memories := by
  cases b
  · rfl
  · exact emptyBuffer_memories ..

end objects

/-! ## Settings (R325) -/

section settings
variable (u : Tensor) (x y : TSetting)

theorem settle_one : Tensor.settle { u with settings := [x] } = Tensor.apply { u with settings := [] } x := rfl

/-- A setting that takes effect leaves the list of settings as it is. -/
theorem apply_settings : (u.apply x).settings = u.settings := by
  cases x with
  | disarm ts =>
    rw [Tensor.apply]
    split <;> rfl
  | _ => rfl

theorem settle_two : Tensor.settle { u with settings := [x, y] } =
    Tensor.settle { Tensor.settle { u with settings := [x] } with settings := [y] } := by
  have hnone : ({ Tensor.settle { u with settings := [x] } with settings := [] } : Tensor) = Tensor.settle { u with settings := [x] } := by
    have hsettings : (Tensor.settle { u with settings := [x] }).settings = [] := apply_settings _ _
    generalize Tensor.settle { u with settings := [x] } = w at hsettings
    rw [← hsettings]
  rw [settle_one { Tensor.settle { u with settings := [x] } with settings := [y] } y]
  exact congrArg (Tensor.apply · y) hnone.symm

theorem slot_disarm (ts k : Nat) : (u.apply (.disarm ts)).slot k =
    if k = ts ∧ (u.slot ts).state = .armed then { u.slot ts with state := .defined } else u.slot k := by
  rw [Tensor.apply]
  by_cases harmed : (u.slot ts).state = .armed
  · rw [if_pos (by simp [harmed]), Tensor.slot_setSlot]
    simp only [harmed, and_true]
  · rw [if_neg (by simpa using harmed), if_neg (fun h => harmed h.2)]

end settings

/-! ## Firings (R326 to R328) -/

section firings
variable {s : State} {t ts : Nat}

/-- The firing that a slot starts. -/
def firingFrom (s : State) (t ts : Nat) : Firing :=
  let x := (tensorAt s t).slot ts
  { ts := ts, cfg := x.cfg, flags := x.flags, acc := x.acc, a := ((currentA s (quadOfPos t) x).map Prod.fst).getD 0
    b := ((currentB s (quadOfPos t) x).map Prod.fst).getD 0 }

/-- An accumulator that takes a firing. -/
def Acc.takes (a : Acc) (cfg : BitVec 32) : Acc :=
  if a.state == .empty then
    { state := .open, started := 1, done := 0, kind := Cfg.kind cfg, m := Cfg.m cfg, n := Cfg.n cfg, ch := Cfg.ch cfg, cells := [] }
  else { a with started := a.started + 1 }

theorem Acc.takes_open {a : Acc} (h : a.open? = true) (cfg : BitVec 32) :
    (a.takes cfg).state = .open ∧ (a.takes cfg).started = (if a.state = .empty then 0 else a.started) + 1 := by
  by_cases hempty : a.state = .empty
  · rw [Acc.takes, if_pos (by simp [hempty]), if_pos hempty]
    exact ⟨rfl, rfl⟩
  · have hopen : a.state = .open := by
      simp only [Acc.open?, Bool.or_eq_true, Bool.and_eq_true, beq_iff_eq] at h
      exact (h.resolve_left hempty).1
    rw [Acc.takes, if_neg (by simpa using hempty), if_neg hempty]
    exact ⟨hopen, rfl⟩

/-- The unit of a tile with a firing started. -/
def firingTensor (s : State) (t ts : Nat) : Tensor :=
  let u := tensorAt s t
  let x := u.slot ts
  { (u.setSlot ts (x.rotate s (quadOfPos t))).setAcc x.acc ((u.acc x.acc).takes x.cfg) with
    busyUntil := s.pcyc + Cfg.cycles x.cfg, firings := u.firings ++ [firingFrom s t ts] }

theorem firingTensor_acc (s : State) (t ts : Nat) : (firingTensor s t ts).acc ((tensorAt s t).slot ts).acc =
    ((tensorAt s t).acc ((tensorAt s t).slot ts).acc).takes ((tensorAt s t).slot ts).cfg := mget_mset_self ..

theorem execTensorFiringStart_fires (hfire : canFire s t ts = true)
    (hfits : ((tensorAt s t).acc ((tensorAt s t).slot ts).acc).fits ((tensorAt s t).slot ts).cfg = true) :
    execTensorFiringStart t ts s = .next ((setTensor t (firingTensor s t ts) s).after (Cfg.cycles ((tensorAt s t).slot ts).cfg + 20)
      (.tensorFiringComplete t ts)) := by
  rw [execTensorFiringStart]
  dsimp only
  rw [if_neg (by simp [hfire]), if_neg (by simp [hfits])]
  rfl

/-- A slot can fire only into an accumulator that takes firings. -/
theorem open_of_canFire (h : canFire s t ts = true) : ((tensorAt s t).acc ((tensorAt s t).slot ts).acc).open? = true := by
  unfold canFire at h
  simp only [Bool.and_eq_true] at h
  obtain ⟨⟨⟨⟨⟨⟨⟨-, -⟩, -⟩, hopen⟩, -⟩, -⟩, -⟩, -⟩ := h
  exact hopen

end firings

/-! ## The words of an accumulator -/

/-- A table made over a range of numbers of keys has at a key the value of its number, where the keys differ. -/
theorem mget_range {α : Type} {z : α} {l : Nat} {key : Nat → Nat} (f : Nat → α) (hinj : ∀ i j, i < l → j < l → key i = key j → i = j)
    {e : Nat} (he : e < l) :
    mget z ((List.range l).map fun e => (key e, f e)) (key e) = f e := by
  have hfind (es : List Nat) (hin : ∀ i ∈ es, i < l) (hmem : e ∈ es) : mfind (es.map fun e => (key e, f e)) (key e) = some (f e) := by
    induction es with
    | nil => cases hmem
    | cons i es ih =>
      rw [List.map_cons, mfind]
      split
      next hkey => rw [hinj i e (hin i List.mem_cons_self) he hkey]
      next hkey =>
        refine ih (fun j hj => hin j (List.mem_cons_of_mem _ hj)) ((List.mem_cons.1 hmem).resolve_left fun h => hkey (congrArg key h.symm))
  rw [mget, hfind _ (fun i hi => List.mem_range.1 hi) (List.mem_range.2 he)]
  rfl

/-- The word of element (i, j) after each element of an accumulator of at most 64 columns has been changed. -/
theorem mget_mapCells {m n i j : Nat} (f : Nat → Nat → BitVec 40 → BitVec 40) (cells : Map (BitVec 40)) (hn : n ≤ 64) (hi : i < m) (hj : j < n) :
    mget 0 (mapCells m n f cells) (64 * i + j) = f i j (mget 0 cells (64 * i + j)) := by
  have hpos : 0 < n := by omega
  have he : n * i + j < m * n := calc
    n * i + j < n * i + n := by omega
    _ = n * (i + 1) := by rw [Nat.mul_succ]
    _ ≤ n * m := Nat.mul_le_mul_left n hi
    _ = m * n := Nat.mul_comm n m
  have hdiv : (n * i + j) / n = i := by rw [Nat.mul_add_div hpos, Nat.div_eq_of_lt hj, Nat.add_zero]
  have hmod : (n * i + j) % n = j := by rw [Nat.mul_add_mod, Nat.mod_eq_of_lt hj]
  have hinj (a b : Nat) (h : 64 * (a / n) + a % n = 64 * (b / n) + b % n) : a = b := by
    have hma := Nat.mod_lt a hpos
    have hmb := Nat.mod_lt b hpos
    have hquot : a / n = b / n := by omega
    rw [← Nat.div_add_mod a n, ← Nat.div_add_mod b n, hquot]
    omega
  have hget := mget_range (z := 0) (key := fun e => 64 * (e / n) + e % n) (fun e => f (e / n) (e % n) (mget 0 cells (64 * (e / n) + e % n)))
    (fun a b _ _ => hinj a b) he
  simp only [hdiv, hmod] at hget
  exact hget

section complete
variable {s : State} {t ts : Nat} {f : Firing} {rest : List Firing}

/-- The unit of a tile once its oldest firing has added its products. -/
def firedTensor (s : State) (t : Nat) (f : Firing) : Tensor :=
  let u := tensorAt s t
  let q := quadOfPos t
  let near := asRead s.near f.got
  let a := nearOperand near q f.a (Cfg.afmt f.cfg) (Cfg.m f.cfg) (Cfg.k f.cfg) (bitOf f.flags 0)
  let b := nearOperand near q f.b (Cfg.bfmt f.cfg) (Cfg.n f.cfg) (Cfg.k f.cfg) (bitOf f.flags 1)
  let acc := u.acc f.acc
  { u with firings := u.firings.erase f }.setAcc f.acc
    { acc with cells := mapCells acc.m acc.n (fun i j c => firedCell acc.kind a b (Cfg.k f.cfg) i j c) acc.cells }.oneDone

theorem execTensorFiringComplete_adds (hf : (tensorAt s t).firings = f :: rest) (hts : f.ts = ts) :
    ∃ v, execTensorFiringComplete t ts s = .next v ∧ tensorAt v t = firedTensor s t f ∧ keepsMemory s v := by
  have hfiring : (tensorAt s t).firingOf ts = some f := by
    rw [Tensor.firingOf, hf]
    exact List.find?_cons_of_pos (by simp [hts])
  have hgo : execTensorFiringComplete t ts s = .next (consumed (bitOf f.flags 3) (quadOfPos t) f.b
      (consumed (bitOf f.flags 2) (quadOfPos t) f.a (setTensor t (firedTensor s t f) s))) := by
    rw [execTensorFiringComplete]
    simp only [hfiring]
    rfl
  refine ⟨_, hgo, ?_, keepsMemory_of_memories ?_⟩
  · rw [tensorAt_of_tiles ((consumed_tiles ..).trans (consumed_tiles ..)), tensorAt_setTensor_self]
  · exact (consumed_memories ..).trans (consumed_memories ..)

/-- What the products of a firing change in its unit. -/
theorem firedTensor_spec (hf : (tensorAt s t).firings = f :: rest) (hn : ((tensorAt s t).acc f.acc).n ≤ 64) :
    let u := tensorAt s t
    let w := firedTensor s t f
    let acc := u.acc f.acc
    let near := asRead s.near f.got
    let A := nearOperand near (quadOfPos t) f.a (Cfg.afmt f.cfg) (Cfg.m f.cfg) (Cfg.k f.cfg) (bitOf f.flags 0)
    let B := nearOperand near (quadOfPos t) f.b (Cfg.bfmt f.cfg) (Cfg.n f.cfg) (Cfg.k f.cfg) (bitOf f.flags 1)
    w.firings = rest ∧ (w.acc f.acc).done = acc.done + 1 ∧ (acc.done + 1 = acc.ch → (w.acc f.acc).state = .closed) ∧
    (∀ i j, i < acc.m → j < acc.n → mget 0 (w.acc f.acc).cells (64 * i + j) =
      (List.range ((Cfg.k f.cfg + 31) / 32)).foldl (fun e g => accAdd acc.kind e (groupSum A B i j (Cfg.k f.cfg) g)) (mget 0 acc.cells (64 * i + j))) ∧
    (∀ n, n ≠ f.acc → w.acc n = u.acc n) := by
  intro u w acc near A B
  have hacc : w.acc f.acc = { acc with cells := mapCells acc.m acc.n (fun i j c => firedCell acc.kind A B (Cfg.k f.cfg) i j c) acc.cells }.oneDone :=
    Tensor.acc_setAcc_self ..
  refine ⟨?_, ?_, fun h => ?_, fun i j hi hj => ?_, fun n hne => Tensor.acc_setAcc_of_ne _ _ hne _⟩
  · change u.firings.erase f = rest
    rw [hf, List.erase_cons_head]
  · rw [hacc]; rfl
  · rw [hacc]; exact if_pos h
  · rw [hacc]; exact mget_mapCells _ _ hn hi hj

end complete

/-! ## Tags and results (R331 to R334) -/

section results
variable {s : State} {t id : Nat}

theorem bufferFull_setBuffer {mt i n : Nat} {p : Partition} (hp : (s.mtile mt).parts[i]? = some p) (hn : n < p.full.length) (full : Bool) :
    bufferFull (setBuffer mt i n full s) mt i n = full := by
  obtain ⟨hi, -⟩ := List.getElem?_eq_some_iff.1 hp
  have hparts : ((setBuffer mt i n full s).mtile mt).parts = (s.mtile mt).parts.set i { p with full := p.full.set n full } := by
    simp only [setBuffer, hp]
    rw [State.setMtile_mtile_self]
  rw [bufferFull, hparts, List.getElem?_set_self hi]
  simp [hn]

/-- A `ttag` that may change its tag does so. -/
theorem execTtagArrival_sets {o : Op} {full : Bool} {mt i n : Nat} {p : Partition} (ho : mfind s.ops id = some o) (hkind : o.kind = .tag full)
    (hunit : o.cur.unit = .tile t) (hbuf : bufferAt s (quadOfPos t) o.addr = some (mt, i, n)) (hp : (s.mtile mt).parts[i]? = some p)
    (hn : n < p.full.length) (hfull : full = true → bufferFull s mt i n = false) (hahead : storeAhead s id o mt i n = false) :
    ∃ v, execTtagArrival id s = .next v ∧ bufferFull v mt i n = full ∧ mfind v.ops id = none ∧ keepsMemory s v := by
  have hbusy : (full && bufferFull s mt i n) = false := by
    cases full with
    | false => rfl
    | true => exact hfull rfl
  have hgo : execTtagArrival id s = .next ((setBuffer mt i n full s).dropOp id) := by
    rw [execTtagArrival, opAt, ho]
    dsimp only
    rw [hkind, hunit]
    simp only [hbuf, hahead, hbusy]
    rfl
  exact ⟨_, hgo, bufferFull_setBuffer hp hn full, mfind_mdel_self .., keepsMemory_of_memories (setBuffer_memories ..)⟩

/-- A `tread` whose accumulator is CLOSED, with nothing earlier pending. -/
theorem execTreadRead_answers {o : Op} {n r : Nat} (ho : mfind s.ops id = some o) (hkind : o.kind = .tensorRead n r)
    (hunit : o.cur.unit = .tile t) (hserved : o.served = false) (hissued : o.issued < s.pcyc) (hclosed : ((tensorAt s t).acc n).state = .closed)
    (hqueue : ∀ x, x ∈ (tensorAt s t).queue → x.acc = n → o.issued ≤ x.issued)
    (hzero : ∀ z, z ∈ (tensorAt s t).zeroing → z.1 = n → o.issued ≤ z.2) :
    execTreadRead id s = .next (answer id o (vecOfElems 32 fun j => treadSlot ((tensorAt s t).acc n) r j) (s.pcyc + 7) s) := by
  have hq : ((tensorAt s t).queue.any fun x => x.acc = n && x.issued < o.issued) = false := List.any_eq_false.2 fun x hx => by
    simpa using hqueue x hx
  have hz : ((tensorAt s t).zeroing.any fun z => z.1 = n && z.2 < o.issued) = false := List.any_eq_false.2 fun z hz => by
    simpa using hzero z hz
  rw [execTreadRead, opAt, ho]
  dsimp only
  rw [hkind, hunit]
  dsimp only
  rw [hq, hz]
  exact if_pos (by simp [hclosed, hissued, hserved])

/-- The head of the queue starts. -/
theorem execTstoreStart_starts {x : TStore} {rest : List TStore} (hx : (tensorAt s t).queue = x :: rest) (hcan : canStore s t = true)
    (hok : storeRefusal s (quadOfPos t) x ((tensorAt s t).acc x.acc) = none) : execTstoreStart t s =
      .next ((setTensor t { tensorAt s t with queue := { x with started := some s.pcyc } :: rest } s).after
        (6 + ((tensorAt s t).acc x.acc).m + ceilDiv (storeScaleBytes ((tensorAt s t).acc x.acc) x.ft) 256) (.tstoreComplete t)) := by
  rw [execTstoreStart]
  dsimp only
  split
  next hnil => exact absurd (hnil.symm.trans hx) (by simp)
  next x' rest' hcons =>
    obtain ⟨rfl, rfl⟩ := List.cons.inj (hcons.symm.trans hx)
    rw [if_neg (by simp [hcan]), hok]

/-- The head of the queue ends. -/
theorem execTstoreComplete_ends {x : TStore} {rest : List TStore} (hx : (tensorAt s t).queue = x :: rest) (hstarted : x.started ≠ none) :
    ∃ v, execTstoreComplete t s = .next v ∧ tensorAt v t = { tensorAt s t with queue := rest }.setAcc x.acc {} ∧ keepsMemory s v := by
  rw [execTstoreComplete]
  dsimp only
  split
  next hnil => exact absurd (hnil.symm.trans hx) (by simp)
  next x' rest' hcons =>
    obtain ⟨rfl, rfl⟩ := List.cons.inj (hcons.symm.trans hx)
    rw [if_neg (by simpa [Option.isNone_iff_eq_none] using hstarted)]
    split
    · refine ⟨_, rfl, ?_, keepsMemory_of_memories (setBuffer_memories ..)⟩
      rw [tensorAt_of_tiles (setBuffer_tiles ..), tensorAt_setTensor_self]
    · exact ⟨_, rfl, tensorAt_setTensor_self .., keepsMemory_of_memories rfl⟩

/-- A `taccz` takes effect. -/
theorem execTacczEffect_clears {acc : Nat} {z : Nat × Nat} (hz : (tensorAt s t).zeroing.find? (fun z => decide (z.1 = acc)) = some z)
    (hcan : canClear s t acc z.2 = true) : execTacczEffect t acc s =
      .next (setTensor t ({ tensorAt s t with zeroing := (tensorAt s t).zeroing.erase z }.setAcc acc {}) s) := by
  rw [execTacczEffect]
  simp only [hz, hcan, if_true]

end results

/-! ## Weights (R343) -/

section weights
variable {s : State} {t : Nat} {before rest : List Loading} {l : Loading}

/-- The loads whose cycles have passed are passed over. -/
theorem updLoading_append (f : Loading → Loading) (hbefore : ∀ z, z ∈ before → z.complete = true) (hl : l.complete = false) :
    updLoading f (before ++ l :: rest) = before ++ f l :: rest := by
  induction before with
  | nil => exact if_neg (by simp [hl])
  | cons z zs ih =>
    rw [List.cons_append, updLoading, if_pos (hbefore z List.mem_cons_self), ih fun z hz => hbefore z (List.mem_cons_of_mem _ hz), List.cons_append]

/-- The state in which the oldest load under way has read every word. -/
theorem execTwloadValid_eq (hload : (tensorAt s t).loading = before ++ l :: rest) (hbefore : ∀ z, z ∈ before → z.complete = true)
    (hl : l.complete = false) : execTwloadValid t s =
      .next (settleWeights t (setTensor t { tensorAt s t with loading := before ++ l.full s.near (quadOfPos t) :: rest } s)) := by
  rw [execTwloadValid, hload, updLoading_append _ hbefore hl]

theorem settleWeights_waits (h : passInFlight s t = true) : settleWeights t s = s := if_pos h

/-- With no pass in flight the last load whose cycles have passed gives the weights. -/
theorem settleWeights_loads (h : passInFlight s t = false) (hload : (tensorAt s t).loading = before ++ l :: rest)
    (hbefore : ∀ z, z ∈ before → z.complete = true) (hl : l.complete = true) (hrest : ∀ z, z ∈ rest → z.complete = false) :
    settleWeights t s = setTensor t { tensorAt s t with loading := rest, weights := loadedWeights s.near (quadOfPos t) l } s := by
  have hready : (tensorAt s t).loading.filter Loading.complete = before ++ [l] := by
    rw [hload, List.filter_append, List.filter_eq_self.2 hbefore, List.filter_cons_of_pos hl, List.filter_eq_nil_iff.2 (by simpa using hrest)]
  have hlate : (tensorAt s t).loading.filter (fun x => !x.complete) = rest := by
    rw [hload, List.filter_append, List.filter_eq_nil_iff.2 (by simpa using hbefore), List.filter_cons_of_neg (by simp [hl]),
      List.filter_eq_self.2 (by simpa using hrest), List.nil_append]
  rw [settleWeights]
  dsimp only
  rw [if_neg (Bool.eq_false_iff.1 h), hready, List.getLast?_concat, hlate]

/-- The word of element (k, j) of loaded weights. -/
theorem loadedWeights_cell (near : Memory) (q : Nat) (l : Loading) {j k : Nat} (hj : j < 64) (hk : k < 64) :
    (mget 0 (loadedWeights near q l).cells (64 * k + j)).toNat =
      operandRaw (asRead near l.got) (quadKey q l.addr) (Cfg.bfmt l.cfg) 64 64 false j k % 2 ^ 16 := by
  have hget := mget_range (z := 0) (key := fun e => e)
    (fun e => BitVec.ofNat 16 (operandRaw (asRead near l.got) (quadKey q l.addr) (Cfg.bfmt l.cfg) 64 64 false (e % 64) (e / 64)))
    (fun _ _ _ _ h => h) (show 64 * k + j < 4096 by omega)
  have hdiv : (64 * k + j) / 64 = k := by omega
  have hmod : (64 * k + j) % 64 = j := by omega
  rw [hdiv, hmod] at hget
  rw [loadedWeights]
  dsimp only
  rw [hget, BitVec.toNat_ofNat]

end weights

/-! ## Systolic passes (R344 to R346) -/

/-- A loop over distinct values: what the step of one of them does is there at the end, where the others keep it. -/
theorem foldl_once {α : Type} {P Q : State → Prop} {f : State → α → State} {l : List α} {x : α} (hx : x ∈ l) (hnodup : l.Nodup)
    (hbefore : ∀ s y, y ≠ x → P s → P (f s y)) (hdo : ∀ s, P s → Q (f s x)) (hafter : ∀ s y, y ≠ x → Q s → Q (f s y)) {s : State} (h : P s) :
    Q (l.foldl f s) := by
  obtain ⟨l₁, l₂, rfl⟩ := List.append_of_mem hx
  have hne₁ (y : α) (hy : y ∈ l₁) : y ≠ x := fun hyx => (List.nodup_append.1 hnodup).2.2 y hy x List.mem_cons_self hyx
  have hne₂ (y : α) (hy : y ∈ l₂) : y ≠ x := fun hyx => (List.nodup_cons.1 (List.nodup_append.1 hnodup).2.1).1 (hyx ▸ hy)
  rw [List.foldl_append, List.foldl_cons]
  have hP : P (l₁.foldl f s) := List.foldlRecOn l₁ f h fun u hu y hy => hbefore u y (hne₁ y hy) hu
  exact List.foldlRecOn l₂ f (hdo _ hP) fun u hu y hy => hafter u y (hne₂ y hy) hu

section passes
variable {s : State} {c g i q0 m n : Nat} {y : Graph} {p : Pass}

/-- The tiles of a row of the grid differ. -/
theorem gridTile_ne {q0 r a b : Nat} (h : a ≠ b) : gridTile q0 r a ≠ gridTile q0 r b := by
  unfold gridTile posOf
  dsimp only
  omega

/-- The bottom accumulators are taken. -/
def takeAccs (q0 r j : Nat) (p : Pass) (s : State) : State :=
  (List.range j).foldl (fun s c => setTensor (gridTile q0 r c) ((tensorAt s (gridTile q0 r c)).setAcc (p.accs.getD c 0)
    (((tensorAt s (gridTile q0 r c)).acc (p.accs.getD c 0)).forPass p.cfg)) s) s

/-- The A operands rotate. -/
def rotateRows (q0 h : Nat) (p : Pass) (s : State) : State :=
  (List.range h).foldl (fun s r => setTensor (gridTile q0 r 0) ((tensorAt s (gridTile q0 r 0)).setSlot p.ts
    (((tensorAt s (gridTile q0 r 0)).slot p.ts).rotate s (quadOfPos (gridTile q0 r 0)))) s) s

theorem takeAccs_acc (q0 r : Nat) (p : Pass) (s : State) {j k : Nat} (hk : k < j) :
    (tensorAt (takeAccs q0 r j p s) (gridTile q0 r k)).acc (p.accs.getD k 0) =
      ((tensorAt s (gridTile q0 r k)).acc (p.accs.getD k 0)).forPass p.cfg := by
  refine foldl_once (P := fun u => tensorAt u (gridTile q0 r k) = tensorAt s (gridTile q0 r k))
    (Q := fun u => (tensorAt u (gridTile q0 r k)).acc (p.accs.getD k 0) = ((tensorAt s (gridTile q0 r k)).acc (p.accs.getD k 0)).forPass p.cfg)
    (List.mem_range.2 hk) List.nodup_range
    (fun u c hc hu => ?_) (fun u hu => ?_) (fun u c hc hu => ?_) rfl
  · rw [tensorAt_setTensor_of_ne _ _ _ (gridTile_ne hc.symm), hu]
  · rw [tensorAt_setTensor_self, Tensor.acc_setAcc_self, hu]
  · rw [tensorAt_setTensor_of_ne _ _ _ (gridTile_ne hc.symm), hu]

theorem rotateRows_acc (q0 h : Nat) (p : Pass) (s : State) (t k : Nat) : (tensorAt (rotateRows q0 h p s) t).acc k = (tensorAt s t).acc k := by
  refine foldl_keeps (fun u => (tensorAt u t).acc k) (fun u r => ?_) _ _
  by_cases ht : t = gridTile q0 r 0
  · rw [ht, tensorAt_setTensor_self]
    rfl
  · rw [tensorAt_setTensor_of_ne _ _ _ ht]

theorem takeAccs_graphs (q0 r j : Nat) (p : Pass) (s : State) : (takeAccs q0 r j p s).graphs = s.graphs :=
  foldl_keeps State.graphs (fun _ _ => by rfl) _ _

theorem rotateRows_graphs (q0 h : Nat) (p : Pass) (s : State) : (rotateRows q0 h p s).graphs = s.graphs :=
  foldl_keeps State.graphs (fun _ _ => by rfl) _ _

theorem takeAccs_memories (q0 r j : Nat) (p : Pass) (s : State) : (takeAccs q0 r j p s).memories = s.memories :=
  foldl_keeps State.memories (fun _ _ => by rfl) _ _

theorem rotateRows_memories (q0 h : Nat) (p : Pass) (s : State) : (rotateRows q0 h p s).memories = s.memories :=
  foldl_keeps State.memories (fun _ _ => by rfl) _ _

theorem setGroup_only (c g i : Nat) (x : Group) (s : State) : GraphsOnly s (setGroup c g i x s) := by
  unfold setGroup
  split <;> rfl

theorem setGroup_tiles (c g i : Nat) (x : Group) (s : State) : (setGroup c g i x s).tiles = s.tiles := by rw [setGroup_only c g i x s]

theorem setGroup_memories (c g i : Nat) (x : Group) (s : State) : (setGroup c g i x s).memories = s.memories := by
  rw [setGroup_only c g i x s]
  rfl

/-- The group of a pass that starts. -/
def Group.passing (x : Group) (p : Pass) : Group := { x with passes := x.passes ++ [p], starting := none, sincePass := some 1 }

theorem execSystolicPassStart_starts (hrect : quadRect (groupAt s c g i).quads = some (q0, m, n)) (hp : (groupAt s c g i).starting = some p) :
    execSystolicPassStart c g i s = .next (rotateRows q0 (2 * n) { p.enter s.near q0 (2 * n) with age := 1 }
      (takeAccs q0 (2 * n - 1) (2 * m) { p.enter s.near q0 (2 * n) with age := 1 }
        (setGroup c g i ((groupAt s c g i).passing { p.enter s.near q0 (2 * n) with age := 1 }) s))) := by
  rw [execSystolicPassStart]
  simp only [hrect, hp]
  rfl

/-- A pass that starts: its group, and the accumulators it takes. -/
theorem execSystolicPassStart_spec (hy : s.graph? c g = some y) (hi : i < y.groups.length)
    (hrect : quadRect (groupAt s c g i).quads = some (q0, m, n)) (hp : (groupAt s c g i).starting = some p) :
    ∃ v, execSystolicPassStart c g i s = .next v ∧ keepsMemory s v ∧
      groupAt v c g i = (groupAt s c g i).passing { p.enter s.near q0 (2 * n) with age := 1 } ∧
      ∀ k, k < 2 * m → (tensorAt v (gridTile q0 (2 * n - 1) k)).acc (p.accs.getD k 0) =
        ((tensorAt s (gridTile q0 (2 * n - 1) k)).acc (p.accs.getD k 0)).forPass p.cfg := by
  refine ⟨_, execSystolicPassStart_starts hrect hp, keepsMemory_of_memories ?_, ?_, fun k hk => ?_⟩
  · exact ((rotateRows_memories ..).trans (takeAccs_memories ..)).trans (setGroup_memories ..)
  · exact (groupAt_of_graphs ((rotateRows_graphs ..).trans (takeAccs_graphs ..))).trans (groupAt_setGroup hy hi _)
  · have htake := takeAccs_acc q0 (2 * n - 1) { p.enter s.near q0 (2 * n) with age := 1 }
      (setGroup c g i ((groupAt s c g i).passing { p.enter s.near q0 (2 * n) with age := 1 }) s) hk
    rw [tensorAt_of_tiles (setGroup_tiles ..)] at htake
    exact (rotateRows_acc ..).trans htake

/-! ### The end of a pass -/

theorem settleWeights_acc (u : Nat) (s : State) (t k : Nat) : (tensorAt (settleWeights u s) t).acc k = (tensorAt s t).acc k := by
  unfold settleWeights
  dsimp only
  split
  · rfl
  · split
    · rfl
    · by_cases ht : t = u
      · rw [ht, tensorAt_setTensor_self]
        rfl
      · rw [tensorAt_setTensor_of_ne _ _ _ ht]

theorem settleWeights_graphs (u : Nat) (s : State) : (settleWeights u s).graphs = s.graphs := by
  unfold settleWeights
  dsimp only
  split
  · rfl
  · split <;> rfl

theorem settleWeights_memories (u : Nat) (s : State) : (settleWeights u s).memories = s.memories := by
  unfold settleWeights
  dsimp only
  split
  · rfl
  · split <;> rfl

/-- The bottom accumulators count a pass. -/
def countPass (q0 r j : Nat) (p : Pass) (s : State) : State :=
  (List.range j).foldl (fun s c => setTensor (gridTile q0 r c) ((tensorAt s (gridTile q0 r c)).setAcc (p.accs.getD c 0)
    { (tensorAt s (gridTile q0 r c)).acc (p.accs.getD c 0) with
      started := ((tensorAt s (gridTile q0 r c)).acc (p.accs.getD c 0)).started + 1 }.oneDone) s) s

theorem countPass_acc (q0 r : Nat) (p : Pass) (s : State) {j k : Nat} (hk : k < j) :
    (tensorAt (countPass q0 r j p s) (gridTile q0 r k)).acc (p.accs.getD k 0) =
      { (tensorAt s (gridTile q0 r k)).acc (p.accs.getD k 0) with
        started := ((tensorAt s (gridTile q0 r k)).acc (p.accs.getD k 0)).started + 1 }.oneDone := by
  refine foldl_once (P := fun u => tensorAt u (gridTile q0 r k) = tensorAt s (gridTile q0 r k))
    (Q := fun u => (tensorAt u (gridTile q0 r k)).acc (p.accs.getD k 0) =
      { (tensorAt s (gridTile q0 r k)).acc (p.accs.getD k 0) with
        started := ((tensorAt s (gridTile q0 r k)).acc (p.accs.getD k 0)).started + 1 }.oneDone)
    (List.mem_range.2 hk) List.nodup_range (fun u c hc hu => ?_) (fun u hu => ?_) (fun u c hc hu => ?_) rfl
  · rw [tensorAt_setTensor_of_ne _ _ _ (gridTile_ne hc.symm), hu]
  · rw [tensorAt_setTensor_self, Tensor.acc_setAcc_self, hu]
  · rw [tensorAt_setTensor_of_ne _ _ _ (gridTile_ne hc.symm), hu]

/-- The consumed A buffers of a pass become EMPTY. -/
def emptyRows (q0 h : Nat) (p : Pass) (s : State) : State :=
  (List.range h).foldl (fun s r =>
    if bitOf (p.flags.getD r 0) 2 then emptyBuffer (quadOfPos (gridTile q0 r 0)) (p.bufs.getD r 0) s else s) s

/-- A buffer's tag changes no graph. -/
theorem emptyBuffer_graphs (q a : Nat) (s : State) : (emptyBuffer q a s).graphs = s.graphs := by
  unfold emptyBuffer setBuffer
  split
  · dsimp only
    split <;> rfl
  · rfl

theorem emptyRows_keeps (q0 h : Nat) (p : Pass) (s : State) : (emptyRows q0 h p s).tiles = s.tiles ∧
    (emptyRows q0 h p s).graphs = s.graphs ∧ (emptyRows q0 h p s).memories = s.memories :=
  ⟨foldl_keeps State.tiles (fun _ _ => by split; exacts [emptyBuffer_tiles .., rfl]) _ _,
    foldl_keeps State.graphs (fun _ _ => by split; exacts [emptyBuffer_graphs .., rfl]) _ _,
    foldl_keeps State.memories (fun _ _ => by split; exacts [emptyBuffer_memories .., rfl]) _ _⟩

/-- Weights that waited for a pass take effect in each tile of its grid. -/
def settleGrid (q0 h j : Nat) (s : State) : State := (List.range (h * j)).foldl (fun s i => settleWeights (gridTile q0 (i / j) (i % j)) s) s

theorem settleGrid_keeps (q0 h j : Nat) (s : State) : (∀ t k, (tensorAt (settleGrid q0 h j s) t).acc k = (tensorAt s t).acc k) ∧
    (settleGrid q0 h j s).graphs = s.graphs ∧ (settleGrid q0 h j s).memories = s.memories :=
  ⟨fun t k => foldl_keeps (fun u => (tensorAt u t).acc k) (fun _ _ => settleWeights_acc ..) _ _,
    foldl_keeps State.graphs (fun _ _ => settleWeights_graphs ..) _ _, foldl_keeps State.memories (fun _ _ => settleWeights_memories ..) _ _⟩

theorem countPass_keeps (q0 r j : Nat) (p : Pass) (s : State) : (countPass q0 r j p s).graphs = s.graphs ∧
    (countPass q0 r j p s).memories = s.memories :=
  ⟨foldl_keeps State.graphs (fun _ _ => by rfl) _ _, foldl_keeps State.memories (fun _ _ => by rfl) _ _⟩

/-- The state behind the end of a pass: the pass leaves its group at `before`. -/
theorem execSystolicPassComplete_ends {before rest : List Pass} (hrect : quadRect (groupAt s c g i).quads = some (q0, m, n))
    (hpasses : (groupAt s c g i).passes = before ++ p :: rest)
    (hbefore : ∀ z, z ∈ before → z.age ≤ passLength (Cfg.m z.cfg) (2 * n) (2 * m)) (hp : passLength (Cfg.m p.cfg) (2 * n) (2 * m) < p.age) :
    let u := emptyRows q0 (2 * n) p (countPass q0 (2 * n - 1) (2 * m) p s)
    execSystolicPassComplete c g i s = .next (settleGrid q0 (2 * n) (2 * m)
      (setGroup c g i { groupAt u c g i with passes := before ++ rest } u)) := by
  intro u
  have hfind : (groupAt s c g i).passes.findIdx? (fun p => decide (passLength (Cfg.m p.cfg) (2 * n) (2 * m) < p.age)) = some before.length := by
    have hnone : before.findIdx? (fun p => decide (passLength (Cfg.m p.cfg) (2 * n) (2 * m) < p.age)) = none :=
      List.findIdx?_eq_none_iff.2 fun z hz => by simpa using hbefore z hz
    rw [hpasses, List.findIdx?_append, hnone, List.findIdx?_cons, if_pos (decide_eq_true hp)]
    simp
  have hget : (groupAt s c g i).passes.getD before.length { ts := 0, cfg := 0 } = p := by rw [hpasses]; simp
  have herase : (groupAt s c g i).passes.eraseIdx before.length = before ++ rest := by rw [hpasses]; simp [List.eraseIdx_append_of_length_le]
  rw [execSystolicPassComplete]
  simp only [hrect, hfind, hget, herase]
  rfl

/-- The end of a pass counts in each bottom accumulator. -/
theorem execSystolicPassComplete_spec {before rest : List Pass} (hy : s.graph? c g = some y) (hi : i < y.groups.length)
    (hrect : quadRect (groupAt s c g i).quads = some (q0, m, n)) (hpasses : (groupAt s c g i).passes = before ++ p :: rest)
    (hbefore : ∀ z, z ∈ before → z.age ≤ passLength (Cfg.m z.cfg) (2 * n) (2 * m)) (hp : passLength (Cfg.m p.cfg) (2 * n) (2 * m) < p.age) :
    ∃ v, execSystolicPassComplete c g i s = .next v ∧ groupAt v c g i = { groupAt s c g i with passes := before ++ rest } ∧ keepsMemory s v ∧
      ∀ k, k < 2 * m → (tensorAt v (gridTile q0 (2 * n - 1) k)).acc (p.accs.getD k 0) =
        { (tensorAt s (gridTile q0 (2 * n - 1) k)).acc (p.accs.getD k 0) with
          started := ((tensorAt s (gridTile q0 (2 * n - 1) k)).acc (p.accs.getD k 0)).started + 1 }.oneDone := by
  have hgo := execSystolicPassComplete_ends hrect hpasses hbefore hp
  obtain ⟨hcgraphs, hcmem⟩ := countPass_keeps q0 (2 * n - 1) (2 * m) p s
  obtain ⟨hetiles, hegraphs, hemem⟩ := emptyRows_keeps q0 (2 * n) p (countPass q0 (2 * n - 1) (2 * m) p s)
  have hacc (k : Nat) (hk : k < 2 * m) := countPass_acc q0 (2 * n - 1) p s hk
  generalize countPass q0 (2 * n - 1) (2 * m) p s = u₁ at hgo hcgraphs hcmem hetiles hegraphs hemem hacc
  generalize emptyRows q0 (2 * n) p u₁ = u at hgo hetiles hegraphs hemem
  obtain ⟨hsacc, hsgraphs, hsmem⟩ := settleGrid_keeps q0 (2 * n) (2 * m) (setGroup c g i { groupAt u c g i with passes := before ++ rest } u)
  have hgraphs : u.graphs = s.graphs := hegraphs.trans hcgraphs
  refine ⟨_, hgo, ?_, keepsMemory_of_memories ?_, fun k hk => ?_⟩
  · rw [groupAt_of_graphs hsgraphs, groupAt_setGroup ((graph_of_graphs hgraphs).trans hy) hi, groupAt_of_graphs hgraphs]
  · exact ((hsmem.trans (setGroup_memories ..)).trans hemem).trans hcmem
  · rw [hsacc, tensorAt_of_tiles (setGroup_tiles ..), tensorAt_of_tiles hetiles, hacc k hk]

/-! ### The rows of a pass -/

/-- The words of a row of an accumulator after a change of each. -/
def mapRow (r : Nat) (f : Nat → BitVec 40 → BitVec 40) (cells : Map (BitVec 40)) : Map (BitVec 40) :=
  (List.range 64).foldl (fun cs e => mset cs (64 * r + e) (f e (mget 0 cs (64 * r + e)))) cells

/-- The words of a row that the first `l` changes leave. -/
theorem mget_rowPrefix (r : Nat) (f : Nat → BitVec 40 → BitVec 40) (cells : Map (BitVec 40)) (l k : Nat) :
    mget 0 ((List.range l).foldl (fun cs e => mset cs (64 * r + e) (f e (mget 0 cs (64 * r + e)))) cells) k =
      if 64 * r ≤ k ∧ k < 64 * r + l then f (k - 64 * r) (mget 0 cells k) else mget 0 cells k := by
  induction l generalizing k with
  | zero => rw [if_neg (by omega)]; rfl
  | succ l ih =>
    rw [List.range_succ, List.foldl_append, List.foldl_cons, List.foldl_nil]
    by_cases hk : k = 64 * r + l
    · subst hk
      rw [mget_mset_self, ih, if_neg (by omega), if_pos (by omega), Nat.add_sub_cancel_left]
    · rw [mget_mset_of_ne _ _ _ hk, ih]
      exact if_congr (by omega) rfl rfl

theorem mget_mapRow_in {r e : Nat} (he : e < 64) (f : Nat → BitVec 40 → BitVec 40) (cells : Map (BitVec 40)) :
    mget 0 (mapRow r f cells) (64 * r + e) = f e (mget 0 cells (64 * r + e)) := by
  rw [mapRow, mget_rowPrefix, if_pos (by omega), Nat.add_sub_cancel_left]

/-- Two states with the same weights in every tile. -/
def SameWeights (s u : State) : Prop := ∀ t, (tensorAt u t).weights = (tensorAt s t).weights

theorem passSum_congr {u : State} (hu : SameWeights s u) (p : Pass) (q0 h c r e : Nat) : passSum u p q0 h c r e = passSum s p q0 h c r e := by
  unfold passSum
  simp only [hu _]

/-- Row `r` of column `c` is added into its accumulator, if it is due. -/
def addPassRow (p : Pass) (q0 h c r : Nat) (s : State) : State :=
  if 5 * r + 8 * c + 12 * (h - 1) + 4 = p.age then
    let t := gridTile q0 (h - 1) c
    let acc := ((tensorAt s t).acc (p.accs.getD c 0)).forPass p.cfg
    setTensor t ((tensorAt s t).setAcc (p.accs.getD c 0)
      { acc with cells := mapRow r (fun e w => accAdd acc.kind w (passSum s p q0 h c r e)) acc.cells }) s
  else s

theorem addRows_eq (p : Pass) (q0 h j : Nat) (s : State) :
    addRows p q0 h j s = (List.range j).foldl (fun s c => (List.range (Cfg.m p.cfg)).foldl (fun s r => addPassRow p q0 h c r s) s) s := rfl

theorem addPassRow_weights (p : Pass) (q0 h c r : Nat) (s : State) : SameWeights s (addPassRow p q0 h c r s) := fun t => by
  unfold addPassRow
  dsimp only
  split
  · by_cases ht : t = gridTile q0 (h - 1) c
    · rw [ht, tensorAt_setTensor_self]
      rfl
    · rw [tensorAt_setTensor_of_ne _ _ _ ht]
  · rfl

/-- A row leaves the units of other tiles. -/
theorem addPassRow_of_ne {c k : Nat} (hk : k ≠ c) (p : Pass) (q0 h r : Nat) (s : State) :
    tensorAt (addPassRow p q0 h c r s) (gridTile q0 (h - 1) k) = tensorAt s (gridTile q0 (h - 1) k) := by
  unfold addPassRow
  split
  · exact tensorAt_setTensor_of_ne _ _ _ (gridTile_ne hk)
  · rfl

/-- The accumulator of a column, with the first row of a pass that it takes. -/
def columnAcc (p : Pass) (q0 h c : Nat) (s : State) : Acc := ((tensorAt s (gridTile q0 (h - 1) c)).acc (p.accs.getD c 0)).forPass p.cfg

theorem columnAcc_addPassRow (p : Pass) (q0 h c r : Nat) (s : State) (hdue : 5 * r + 8 * c + 12 * (h - 1) + 4 = p.age) :
    (tensorAt (addPassRow p q0 h c r s) (gridTile q0 (h - 1) c)).acc (p.accs.getD c 0) = { columnAcc p q0 h c s with
      cells := mapRow r (fun e w => accAdd (columnAcc p q0 h c s).kind w (passSum s p q0 h c r e)) (columnAcc p q0 h c s).cells } := by
  rw [addPassRow, if_pos hdue, tensorAt_setTensor_self, Tensor.acc_setAcc_self]
  rfl

/-- A row that is not due changes nothing. -/
theorem addPassRow_late (p : Pass) (q0 h c r : Nat) (s : State) (hlate : 5 * r + 8 * c + 12 * (h - 1) + 4 ≠ p.age) :
    addPassRow p q0 h c r s = s := if_neg hlate

/-- No row of the column that ends in tile `t` has been added yet. -/
def ColumnOpen (s u : State) (t : Nat) : Prop := SameWeights s u ∧ tensorAt u t = tensorAt s t

/-- The word `e` of row `r` has its sum. -/
def RowAdded (p : Pass) (q0 h c r e : Nat) (s u : State) : Prop :=
  mget 0 ((tensorAt u (gridTile q0 (h - 1) c)).acc (p.accs.getD c 0)).cells (64 * r + e) =
    accAdd (columnAcc p q0 h c s).kind (mget 0 (columnAcc p q0 h c s).cells (64 * r + e)) (passSum s p q0 h c r e)

theorem addRows_cell {q0 h j r c e : Nat} (hc : c < j) (hr : r < Cfg.m p.cfg) (he : e < 64) (hdue : 5 * r + 8 * c + 12 * (h - 1) + 4 = p.age) :
    RowAdded p q0 h c r e s (addRows p q0 h j s) := by
  have hrest (r' : Nat) (hne : r' ≠ r) (u : State) : addPassRow p q0 h c r' u = u := addPassRow_late _ _ _ _ _ _ (by omega)
  rw [addRows_eq]
  refine foldl_once (P := fun u => ColumnOpen s u (gridTile q0 (h - 1) c)) (Q := RowAdded p q0 h c r e s)
    (List.mem_range.2 hc) List.nodup_range (fun u c' hc' hu => ?_) (fun u hu => ?_) (fun u c' hc' hu => ?_) ⟨fun _ => rfl, rfl⟩
  · refine List.foldlRecOn (motive := fun u : State => ColumnOpen s u (gridTile q0 (h - 1) c)) _ _ hu fun w hw r' _ => ?_
    exact ⟨fun t => (addPassRow_weights p q0 h c' r' w t).trans (hw.1 t), (addPassRow_of_ne hc'.symm ..).trans hw.2⟩
  · refine foldl_once (P := fun u => ColumnOpen s u (gridTile q0 (h - 1) c)) (Q := RowAdded p q0 h c r e s)
      (List.mem_range.2 hr) List.nodup_range (fun u r' hr' hu => ?_) (fun u hu => ?_) (fun u r' hr' hu => ?_) hu
    · rwa [hrest r' hr']
    · have hcol : columnAcc p q0 h c u = columnAcc p q0 h c s := by rw [columnAcc, hu.2, columnAcc]
      rw [RowAdded, columnAcc_addPassRow _ _ _ _ _ _ hdue, mget_mapRow_in he, hcol, passSum_congr hu.1]
    · rwa [hrest r' hr']
  · refine List.foldlRecOn (motive := fun u : State => RowAdded p q0 h c r e s u) _ _ hu fun w hw r' _ => ?_
    rw [RowAdded, addPassRow_of_ne hc'.symm]
    exact hw

end passes

/-- Settles O40: first what each setting does, then each step of the unit. -/
theorem tensorSteps : Obligations.TensorSteps := by
  unfold Obligations.TensorSteps
  refine ⟨fun u w ts y seg entry stamp => ⟨rfl, fun _ => rfl, fun k => Tensor.slot_setSlot .., fun k => Tensor.slot_setSlot .., fun k => ?_,
    settle_two u⟩, fun s t ts id => ⟨fun hfire hfits => ?_, fun f rest hf hts hn => ?_,
    fun o full mt i n p ho hkind hunit hbuf hp hn hfull hahead => execTtagArrival_sets ho hkind hunit hbuf hp hn hfull hahead,
    fun o n r ho hkind hunit hserved hissued hclosed hqueue hzero => ?_, fun x rest hx hcan hok => ?_, fun x rest hx hstarted => ?_,
    fun acc z hz hcan => ?_, fun before l rest hload hbefore hrest => ?_, fun c g i y q0 m n p hy hi hrect hp => ?_,
    fun p q0 h j r c e hc hr he hdue => addRows_cell hc hr he hdue, fun c g i y q0 m n before p rest hy hi hrect hpasses hbefore hp => ?_⟩⟩
  · exact slot_disarm { u with settings := [] } ts k
  · have hgo := execTensorFiringStart_fires hfire hfits
    obtain ⟨hopen, hstarted⟩ := Acc.takes_open (open_of_canFire hfire) ((tensorAt s t).slot ts).cfg
    have hunit : tensorAt ((setTensor t (firingTensor s t ts) s).after (Cfg.cycles ((tensorAt s t).slot ts).cfg + 20)
      (.tensorFiringComplete t ts)) t = firingTensor s t ts := tensorAt_setTensor_self ..
    rw [← firingTensor_acc, ← hunit] at hopen hstarted
    exact ⟨_, firingFrom s t ts, hgo, congrArg Tensor.firings hunit, rfl, rfl, rfl, rfl, congrArg Tensor.busyUntil hunit, hopen, hstarted, rfl,
      keepsMemory_of_memories rfl⟩
  · obtain ⟨v, hv, hunit, hmem⟩ := execTensorFiringComplete_adds hf hts
    obtain ⟨hfirings, hdone, hclosed, hcells, hothers⟩ := firedTensor_spec hf hn
    rw [← hunit] at hfirings hdone hclosed hcells hothers
    exact ⟨v, hv, hfirings, hdone, hclosed, hcells, hothers, hmem⟩
  · have hgo := execTreadRead_answers ho hkind hunit hserved hissued hclosed hqueue hzero
    obtain ⟨p, hp, hserved, husable, hgot⟩ := answer_op (id := id) (ready := s.pcyc + 7) (o := o)
      (v := vecOfElems 32 fun j => treadSlot ((tensorAt s t).acc n) r j) (s := s)
    refine ⟨_, p, hgo, hp, hserved, husable, fun j hj => ?_⟩
    rw [hgot]
    exact elem_vecOfElems (by decide) (by decide) (show j < elemCount 32 from hj) _
  · exact ⟨_, execTstoreStart_starts hx hcan hok, congrArg Tensor.queue (tensorAt_setTensor_self ..), rfl, keepsMemory_of_memories rfl⟩
  · obtain ⟨v, hv, hunit, hmem⟩ := execTstoreComplete_ends hx hstarted
    refine ⟨v, hv, ?_, ?_, hmem⟩
    · exact (congrArg Tensor.queue hunit).trans rfl
    · exact (congrArg (Tensor.acc · x.acc) hunit).trans (Tensor.acc_setAcc_self ..)
  · refine ⟨_, execTacczEffect_clears hz hcan, ?_, ?_, keepsMemory_of_memories rfl⟩
    · exact (congrArg (Tensor.acc · acc) (tensorAt_setTensor_self ..)).trans (Tensor.acc_setAcc_self ..)
    · exact congrArg Tensor.zeroing (tensorAt_setTensor_self ..)
  · have hgo := execTwloadValid_eq hload hbefore (hrest l List.mem_cons_self)
    have hunit := tensorAt_setTensor_self s t { tensorAt s t with loading := before ++ l.full s.near (quadOfPos t) :: rest }
    refine ⟨fun hidle => ?_, fun hbusy => hgo.trans (congrArg Host.Outcome.next (settleWeights_waits hbusy))⟩
    have hsettled := settleWeights_loads (s := setTensor t { tensorAt s t with loading := before ++ l.full s.near (quadOfPos t) :: rest } s)
      hidle (congrArg Tensor.loading hunit) hbefore rfl fun z hz => hrest z (List.mem_cons_of_mem _ hz)
    rw [hsettled, hunit] at hgo
    refine ⟨_, hgo, ?_⟩
    simp only [setTensor, State.setTile_tile_self]
    exact ⟨rfl, rfl, trivial, keepsMemory_of_memories rfl, fun j k hj hk => loadedWeights_cell _ _ _ hj hk⟩
  · obtain ⟨v, hv, hmem, hgroup, haccs⟩ := execSystolicPassStart_spec hy hi hrect hp
    exact ⟨v, hv, hmem, hgroup, haccs⟩
  · obtain ⟨v, hv, hgroup, hmem, haccs⟩ := execSystolicPassComplete_spec hy hi hrect hpasses hbefore hp
    refine ⟨v, hv, hgroup, hmem, fun k hk => ?_⟩
    dsimp only
    rw [haccs k hk]
    exact ⟨rfl, rfl, rfl, rfl⟩

end Sys2Proof.Machine
end

/-! # Context instructions

A `rollb` waits for the writes that its context has issued (R427), which the statement leaves out. -/
section
open Sys2Proof Sys2Proof.Machine Sys2Proof.Claims
namespace Sys2Proof.Machine

section rollback
variable {s : State} {n c : Nat} {a : BitVec 6}

/-- While a write of its context is still to be performed, a `rollb` waits. -/
theorem rollsTo_writesOut (h : writesOut s c = true) : rollsTo s c = none := if_pos (by simp [h])

theorem execRollb_waits (hn : s.cur.unit = .seq n) (hrun : (s.seq n).run = .rollb c) (hrolling : (s.ctx c).state = .rolling)
    (hnone : rollsTo s c = none) : execRollb a s = stay n (.rollb c) s := by
  rw [execRollb, onSeq_seq s hn]
  simp only [hrun, hrolling, hnone]
  rfl

end rollback

/-- The snapshot to which the counterexample rolls back. -/
def rolledSnap : Snap := { id := 7, state := .sealed }

/-- Die controller 12 in a `rollb` of context 2 to a snapshot whose cellar cannot be read, with a near store of the context still out. -/
def storeOut : State :=
  { State.reset with
    cur := { unit := .seq 396 }, seqs := [(396, { run := .rollb 2, ctxid := 2 })]
    ctxs := [(2, { state := .rolling, rolling := some 7, cellarBad := true, snaps := [rolledSnap] })]
    ops := [(0, { kind := .nearStore 0, cur := { unit := .seq 396 }, ctx := 2 })] }

theorem storeOut_unreadable : ∃ y, readRecords 2 rolledSnap storeOut = .fault y := by
  have hfault : (match readRecords 2 rolledSnap storeOut with | .fault _ => true | _ => false) = true := by decide +kernel
  cases hread : readRecords 2 rolledSnap storeOut with
  | fault y => exact ⟨y, rfl⟩
  | ok x y => rw [hread] at hfault; cases hfault
  | hold x y => rw [hread] at hfault; cases hfault

/-- Refutes O46: the clause on a `rollb` that waits says that it ends once the context has stopped; in `storeOut` a near store is still to be
performed, and R427 lets it wait. -/
theorem not_contextInstructions : ¬ Obligations.ContextInstructions := by
  unfold Obligations.ContextInstructions
  intro h
  obtain ⟨-, -, -, -, -, -, -, -, -, -, -, -, -, -, -, -, -, -, -, -, hrollb, -⟩ := h 0 0 0 0 0 storeOut 396 rfl
  obtain ⟨y, hread⟩ := storeOut_unreadable
  obtain ⟨-, hlost⟩ := hrollb rolledSnap rfl rfl (.inl rfl) rfl rfl y
  obtain ⟨u, hu, -, hrun⟩ := hlost hread
  have hstay : exec (.rollb 0) storeOut = stay 396 (.rollb 2) storeOut := 
    execRollb_waits (s := storeOut) (c := 2) (a := 0) rfl rfl rfl (rollsTo_writesOut (by decide))
  obtain rfl := Host.Outcome.next.inj (hstay.symm.trans hu)
  cases hrun

end Sys2Proof.Machine
end

/-! # Package links and die boundaries

What a fault report leaves unchanged, the frames of a link, its states, and the flits of a die boundary (R430, R432 to R440, R490). -/
section
open Sys2Proof Sys2Proof.Machine Sys2Proof.Claims
namespace Sys2Proof.Machine

/-! ## What the reports of a fault leave unchanged -/

/-- The links, the arcs, the rank table and the memories are as they were. -/
structure ReportsOnly (s u : State) : Prop where
  links : u.links = s.links
  arcs : u.arcs = s.arcs
  ranks : u.ranks = s.ranks
  memories : u.memories = s.memories

namespace ReportsOnly
variable {s u w : State}

theorem refl (s : State) : ReportsOnly s s := ⟨rfl, rfl, rfl, rfl⟩

theorem trans (h : ReportsOnly s u) (h' : ReportsOnly u w) : ReportsOnly s w :=
  ⟨h'.links.trans h.links, h'.arcs.trans h.arcs, h'.ranks.trans h.ranks, h'.memories.trans h.memories⟩

theorem foldl {α : Type} {f : State → α → State} (hf : ∀ v x, ReportsOnly v (f v x)) (l : List α) (s : State) :
    ReportsOnly s (l.foldl f s) := by
  induction l generalizing s with
  | nil => exact refl s
  | cons x l ih => exact (hf s x).trans (ih _)

theorem link (h : ReportsOnly s u) (n : Nat) : u.link n = s.link n := by rw [State.link, h.links, State.link]

theorem arc (h : ReportsOnly s u) (k : Nat) : u.arc? k = s.arc? k := by rw [State.arc?, h.arcs, State.arc?]

theorem keepsMemory (h : ReportsOnly s u) : keepsMemory s u := keepsMemory_of_memories h.memories

theorem tileReport (t : Nat) (r : Report) (s : State) : ReportsOnly s (tileReport t r s) := by
  unfold Machine.tileReport
  dsimp only
  (repeat' split) <;> exact ⟨rfl, rfl, rfl, rfl⟩

theorem regionReport (k code : Nat) (info : Word) (s : State) : ReportsOnly s (regionReport k code info s) := by
  unfold Machine.regionReport
  split
  · exact refl s
  · exact tileReport ..

theorem updSeq (n : Nat) (f : Seq → Seq) (s : State) : ReportsOnly s (s.updSeq n f) := ⟨rfl, rfl, rfl, rfl⟩

theorem logError (s : State) (d src kind place : Nat) : ReportsOnly s (s.logError d src kind place) := by
  unfold State.logError
  dsimp only
  split <;> exact ⟨rfl, rfl, rfl, rfl⟩

theorem tellPackage (s : State) (code tcause id : Nat) (info loc : Word) : ReportsOnly s (s.tellPackage code tcause id info loc) := by
  unfold State.tellPackage
  split <;> exact ⟨rfl, rfl, rfl, rfl⟩

theorem tellPackageOpen (s : State) (code id : Nat) (info : Option Word) : ReportsOnly s (s.tellPackageOpen code id info) :=
  (tellPackage s code 0 id _ _).trans ⟨rfl, rfl, rfl, rfl⟩

theorem tellHost (s : State) (c code tcause id : Nat) (info loc : Word) : ReportsOnly s (s.tellHost c code tcause id info loc) := by
  unfold State.tellHost
  dsimp only
  split <;> exact ⟨rfl, rfl, rfl, rfl⟩

theorem passTrap (n : Nat) (r : TrapReq) (s : State) : ReportsOnly s (passTrap n r s) := updSeq ..

theorem forwardTrap (n : Nat) (r : TrapReq) (resume : Word) (s : State) : ReportsOnly s (forwardTrap n r resume s) := by
  unfold Machine.forwardTrap
  split
  · exact (updSeq ..).trans (passTrap ..)
  · exact (tellHost ..).trans ⟨rfl, rfl, rfl, rfl⟩

theorem fatal (n : Nat) (r : TrapReq) (s : State) : ReportsOnly s (fatal n r s) := by
  have htold := (tellPackage s Code.fatal r.cause 0 r.info (s.seqLoc n)).trans (updSeq n (fun q => { q with run := .stopped }) _)
  unfold Machine.fatal
  dsimp only
  split
  · exact htold.trans ⟨rfl, rfl, rfl, rfl⟩
  · exact htold

theorem takeTrap (n : Nat) (r : TrapReq) (resume : Word) (s : State) : ReportsOnly s (takeTrap n r resume s) := by
  unfold Machine.takeTrap
  split
  · dsimp only
    split
    · exact ((updSeq ..).trans (forwardTrap ..)).trans (updSeq ..)
    · exact (updSeq ..).trans (forwardTrap ..)
  · exact ⟨rfl, rfl, rfl, rfl⟩

theorem ownFault (n code : Nat) (info : Word) (s : State) : ReportsOnly s (ownFault n code info s) := by
  unfold Machine.ownFault
  dsimp only
  split
  · split
    · exact forwardTrap ..
    · exact fatal ..
  · exact takeTrap ..

theorem completionFault (id code : Nat) (info : Word) (s : State) : ReportsOnly s (completionFault id code info s) := by
  unfold Machine.completionFault
  split
  · exact refl s
  next o _ =>
    have hset : ReportsOnly s (setOp id { o with refused := true } s) := ⟨rfl, rfl, rfl, rfl⟩
    dsimp only
    split
    · exact hset.trans (tileReport ..)
    · split
      · split
        · exact hset.trans (forwardTrap ..)
        · exact hset.trans (fatal ..)
      · exact hset.trans ⟨rfl, rfl, rfl, rfl⟩

theorem ramoFault (id : Nat) (o : Op) (info : Word) (s : State) : ReportsOnly s (ramoFault id o info s) := by
  unfold Machine.ramoFault
  split
  · split
    · exact regionReport ..
    · exact refl s
  · split
    · refine trans ?_ (ownFault ..)
      exact ⟨rfl, rfl, rfl, rfl⟩
    · exact completionFault ..

theorem linkEvent (n : Nat) (info : Option Word) (s : State) : ReportsOnly s (linkEvent n info s) := tellPackageOpen ..

end ReportsOnly

/-! ## A lasting failure (R439) -/

theorem degrade_up {s : State} {n : Nat} (h : (s.link n).state = .up) (why : Nat) :
    ReportsOnly (s.setLink n { s.link n with state := .degraded, last := min 65535 ((s.link n).last + 1) }) (degrade n why s) := by
  unfold degrade
  dsimp only
  rw [if_neg (by simp [h])]
  refine .trans ?_ (.linkEvent ..)
  refine .trans ?_ (.foldl (fun v e => .ramoFault ..) _ _)
  refine .trans ?_ (.foldl (fun v k => .regionReport ..) _ _)
  exact .logError ..

/-! ## What a frame takes along (R433, R437) -/

theorem foldl_idle {α β : Type} {f : β → α → β} {b : β} : ∀ {l : List α}, (∀ a ∈ l, f b a = b) → l.foldl f b = b
  | [], _ => rfl
  | a :: l, h => by rw [List.foldl_cons, h a (by simp), foldl_idle fun c hc => h c (by simp [hc])]

/-- One slot of frame `k` takes the oldest token of its arc that has reached the port. -/
def fillSlot (now k : Nat) (r : Link × List (Nat × Token)) (j : Nat) : Link × List (Nat × Token) :=
  match mfind r.1.owners (7 * k + j) with
  | none => r
  | some key =>
    match r.1.out.find? fun t => t.1 = key with
    | some t => if t.2.1 ≤ now then ({ r.1 with out := r.1.out.erase t }, r.2 ++ [(j, t.2.2)]) else r
    | none => r

theorem fillSlots_eq (now k : Nat) (x : Link) : fillSlots now k x = (List.range 7).foldl (fillSlot now k) (x, []) := rfl

theorem fillSlots_rest (now k : Nat) (x : Link) : ∃ out, (fillSlots now k x).1 = { x with out := out } := by
  rw [fillSlots_eq]
  refine List.foldlRecOn (motive := fun r : Link × List (Nat × Token) => ∃ out, r.1 = { x with out := out }) _ _ ⟨x.out, rfl⟩ ?_
  intro r ⟨out, hr⟩ j _
  unfold fillSlot
  split
  · exact ⟨out, hr⟩
  · split
    · split
      · exact ⟨r.1.out.erase _, by rw [hr]⟩
      · exact ⟨out, hr⟩
    · exact ⟨out, hr⟩

theorem fillSlot_unowned {now k j : Nat} {r : Link × List (Nat × Token)} (h : mfind r.1.owners (7 * k + j) = none) : fillSlot now k r j = r := by
  unfold fillSlot
  rw [h]

/-- The one owned slot takes the one token that has reached the port. -/
theorem fillSlots_one {now k j key t : Nat} {tok : Token} {x : Link} (hj : j < 7) (howner : x.owners = [(7 * k + j, key)])
    (hout : x.out = [(key, t, tok)]) (ht : t ≤ now) : fillSlots now k x = ({ x with out := [] }, [(j, tok)]) := by
  have hother : ∀ i, i ≠ j → mfind x.owners (7 * k + i) = none := fun i hi => by simp [howner, mfind, Ne.symm hi]
  have hmine : mfind x.owners (7 * k + j) = some key := by simp [howner, mfind]
  have htakes : fillSlot now k (x, []) j = ({ x with out := [] }, [(j, tok)]) := by
    unfold fillSlot
    simp [hmine, hout, ht]
  obtain ⟨l, l', hl⟩ := List.append_of_mem (List.mem_range.2 hj)
  have hnodup := hl ▸ List.nodup_range (n := 7)
  have hbefore : ∀ i ∈ l, i ≠ j := fun i hi => by
    rintro rfl
    exact (List.nodup_append.1 hnodup).2.2 _ hi _ (List.mem_cons_self ..) rfl
  have hbehind : ∀ i ∈ l', i ≠ j := fun i hi => by
    rintro rfl
    exact (List.nodup_cons.1 (List.nodup_append.1 hnodup).2.1).1 hi
  rw [fillSlots_eq, hl, List.foldl_append, List.foldl_cons, foldl_idle fun i hi => fillSlot_unowned (hother i (hbefore i hi)), htakes]
  exact foldl_idle fun i hi => fillSlot_unowned (hother i (hbehind i hi))

theorem takeItems_rest (m : Nat) (x : Link) : ∃ items served, (takeItems x m).1 = { x with itemsOut := items, served := served } := by
  induction m generalizing x with
  | zero => exact ⟨_, _, rfl⟩
  | succ m ih =>
    unfold takeItems
    split
    · exact ⟨_, _, rfl⟩
    next i _ =>
      obtain ⟨items, served, h⟩ := ih { x with itemsOut := x.itemsOut.erase i, served := mset x.served i.group i.ctx }
      exact ⟨items, served, h⟩

theorem mem_of_nextItem {x : Link} {i : DynItem} (h : nextItem x = some i) : i ∈ x.itemsOut := by
  obtain ⟨g, -, hg⟩ := List.exists_of_findSome?_eq_some h
  obtain ⟨d, -, hd⟩ := List.exists_of_findSome?_eq_some hg
  exact List.mem_of_mem_filter (List.mem_of_find?_eq_some hd)

theorem nextItem_none {x : Link} (h : x.itemsOut = []) : nextItem x = none :=
  Option.eq_none_iff_forall_ne_some.2 fun i hi => by simpa [h] using mem_of_nextItem hi

theorem nextItem_one {x : Link} {i : DynItem} (h : x.itemsOut = [i]) (hctx : i.ctx < 64) : nextItem x = some i := by
  cases hnone : nextItem x with
  | some y =>
    have hy : y ∈ [i] := h ▸ mem_of_nextItem hnone
    rw [List.mem_singleton.1 hy]
  | none =>
    exfalso
    have hgroup : i.group < 3 := by unfold DynItem.group; split <;> [omega; split <;> omega]
    have hturn := List.findSome?_eq_none_iff.1 (List.findSome?_eq_none_iff.1 hnone i.group (List.mem_range.2 hgroup))
      ((i.ctx + 64 - (mget 63 x.served i.group + 1) % 64) % 64) (List.mem_range.2 (by omega))
    have hmet : i.ctx = (mget 63 x.served i.group + 1 + (i.ctx + 64 - (mget 63 x.served i.group + 1) % 64) % 64) % 64 := by omega
    simp [h, ← hmet] at hturn

theorem takeItems_none {x : Link} (h : x.itemsOut = []) : ∀ m, takeItems x m = (x, [])
  | 0 => rfl
  | m + 1 => by unfold takeItems; rw [nextItem_none h]

theorem takeItems_one {x : Link} {i : DynItem} (h : x.itemsOut = [i]) (hctx : i.ctx < 64) (m : Nat) :
    takeItems x (m + 1) = ({ x with itemsOut := [], served := mset x.served i.group i.ctx }, [i]) := by
  unfold takeItems
  rw [nextItem_one h hctx]
  dsimp only
  rw [h, List.erase_cons_head, takeItems_none rfl]

/-! ## Frames out (R432, R437, R438) -/

section out
variable {s : State} {n : Nat}

theorem wantsFrame_of (hup : (s.link n).state = .up) (hruns : portRuns s n = true) (hstart : (s.link n).startAt ≤ s.pcyc) (hround : s.pcyc % 4 = 0)
    (hplace : s.pcyc / 4 % 8 = frameIndex (s.link n).baseOut (s.link n).fseqOut) : wantsFrame s n = true := by
  simp [wantsFrame, frameNow, hup, hruns, hstart, hround, hplace]

/-- The tokens that the frame of a link takes along, and the link without them. -/
def slotsOut (s : State) (n : Nat) : Link × List (Nat × Token) :=
  let x := s.link n
  let k := frameIndex x.baseOut x.fseqOut
  if k = 7 then (x, []) else fillSlots s.pcyc k x

/-- Then its dynamic items, and the link without these too. -/
def itemsTaken (s : State) (n : Nat) : Link × List DynItem :=
  takeItems (slotsOut s n).1 (openSlots (frameIndex (s.link n).baseOut (s.link n).fseqOut) (s.link n)).length

/-- Then its publications. -/
def pubsTaken (s : State) (n : Nat) : List (Nat × Nat × Nat) :=
  if frameIndex (s.link n).baseOut (s.link n).fseqOut = 7 then [] else ((itemsTaken s n).1.pubsOut.filter fun p => p.2.1 ≤ s.pcyc).take 2

/-- The frame of a link. -/
def frameOut (s : State) (n : Nat) : Frame :=
  { fseq := (s.link n).fseqOut, tokens := (slotsOut s n).2
    items := (openSlots (frameIndex (s.link n).baseOut (s.link n).fseqOut) (s.link n)).zip (itemsTaken s n).2
    pubs := (pubsTaken s n).map fun p => (p.1 % 4096, p.2.2 % 65536), nak := (s.link n).naksDue.head? }

/-- The link that has given up what its frame takes along. -/
def emptied (s : State) (n : Nat) : Link :=
  { (itemsTaken s n).1 with
    pubsOut := (pubsTaken s n).foldl (fun l p => l.erase p) (itemsTaken s n).1.pubsOut
    sent := ((itemsTaken s n).1.sent ++ [frameOut s n]).drop ((itemsTaken s n).1.sent.length + 1 - 1024) }

theorem execFrameSend_sends (h : wantsFrame s n = true) :
    execFrameSend n s = .next (sendFrame n (frameOut s n) (s.setLink n (emptied s n))) := if_neg (by simp [h])

theorem slotsOut_rest : ∃ out, (slotsOut s n).1 = { s.link n with out := out } := by
  unfold slotsOut
  dsimp only
  split
  · exact ⟨_, rfl⟩
  · exact fillSlots_rest ..

theorem emptied_rest : ∃ items served pubs sent, emptied s n = { s.link n with
    out := (slotsOut s n).1.out, itemsOut := items, served := served, pubsOut := pubs, sent := sent } ∧ sent.getLast? = some (frameOut s n) := by
  obtain ⟨items, served, hitems⟩ := takeItems_rest (openSlots (frameIndex (s.link n).baseOut (s.link n).fseqOut) (s.link n)).length (slotsOut s n).1
  obtain ⟨out, hout⟩ := slotsOut_rest (s := s) (n := n)
  refine ⟨items, served, (emptied s n).pubsOut, (emptied s n).sent, ?_, ?_⟩
  · unfold emptied itemsTaken
    rw [hitems, hout]
  · unfold emptied
    dsimp only
    rw [List.getLast?_drop, if_neg (by simp only [List.length_append, List.length_singleton]; omega), List.getLast?_concat]

theorem emptied_items (i : DynItem) (hk : frameIndex (s.link n).baseOut (s.link n).fseqOut = 7) (h : (s.link n).itemsOut = [i])
    (hctx : i.ctx < 64) : (frameOut s n).items = [(0, i)] ∧ (frameOut s n).tokens = [] ∧ (emptied s n).itemsOut = [] := by
  have hslots : slotsOut s n = (s.link n, []) := if_pos hk
  have hitems : itemsTaken s n = ({ s.link n with itemsOut := [], served := mset (s.link n).served i.group i.ctx }, [i]) := by
    unfold itemsTaken openSlots
    rw [hslots, if_pos hk]
    exact takeItems_one h hctx 6
  refine ⟨?_, ?_, ?_⟩
  · show List.zip (openSlots _ _) (itemsTaken s n).2 = _
    rw [hitems, openSlots, if_pos hk]
    rfl
  · show (slotsOut s n).2 = []
    rw [hslots]
  · show (itemsTaken s n).1.itemsOut = []
    rw [hitems]

/-- A frame departs. -/
theorem sendFrame_spec (f : Frame) (y : Link) (hy : y.naksDue = (s.link n).naksDue) (hseq : y.fseqOut = (s.link n).fseqOut) :
    let u := sendFrame n f (s.setLink n y)
    u.link n = { y with wire := f.bytes s.freeCount, fseqOut := ((s.link n).fseqOut + 1) % 65536, naksDue := (s.link n).naksDue.drop 1
                        nakked := y.nakked ++ (s.link n).naksDue.take 1 } ∧ keepsMemory s u := by
  refine ⟨(State.setLink_link_self ..).trans ?_, keepsMemory_of_memories rfl⟩
  rw [State.setLink_link_self, hy, hseq]
  rfl

theorem execFrameSend_spec (h : wantsFrame s n = true) : ∃ u, execFrameSend n s = .next u ∧
    (u.link n).fseqOut = ((s.link n).fseqOut + 1) % 65536 ∧ (u.link n).naksDue = (s.link n).naksDue.drop 1 ∧ keepsMemory s u ∧
    (u.link n).sent.getLast? = some (frameOut s n) ∧ (u.link n).wire = (frameOut s n).bytes s.freeCount ∧
    (u.link n).out = (slotsOut s n).1.out ∧ (u.link n).itemsOut = (emptied s n).itemsOut := by
  obtain ⟨items, served, pubs, sent, hrest, hlast⟩ := emptied_rest (s := s) (n := n)
  obtain ⟨hlink, hmem⟩ := sendFrame_spec (frameOut s n) (emptied s n) (by rw [hrest]) (by rw [hrest])
  refine ⟨_, execFrameSend_sends h, ?_⟩
  rw [hlink]
  exact ⟨rfl, rfl, hmem, by rw [hrest]; exact hlast, rfl, by rw [hrest], rfl⟩

theorem execFrameResend_spec {f : Nat} {rest : List Nat} (h : wantsFrame s n = true)
    (hk : frameIndex (s.link n).baseOut (s.link n).fseqOut = 7) (hres : (s.link n).resends = f :: rest) :
    ∃ u, execFrameResend n s = .next u ∧ (u.link n).resends = rest ∧ (u.link n).fseqOut = ((s.link n).fseqOut + 1) % 65536 ∧ keepsMemory s u ∧
      ∀ g : Frame, (s.link n).sent.find? (fun g => decide (g.fseq = f)) = some g →
        (u.link n).wire = Frame.bytes { g with nak := (s.link n).naksDue.head? } s.freeCount ∧ (u.link n).naksDue = (s.link n).naksDue.drop 1 := by
  unfold execFrameResend
  dsimp only
  split
  next hnone => exact absurd (hnone.symm.trans hres) (by simp)
  next f' rest' hcons =>
  obtain ⟨rfl, rfl⟩ := List.cons.inj (hcons.symm.trans hres)
  rw [if_pos (by simp [h, hk])]
  split
  next hnone =>
    refine ⟨_, rfl, ?_⟩
    rw [State.setLink_link_self]
    exact ⟨rfl, rfl, keepsMemory_of_memories rfl, fun g hg => absurd (hnone.symm.trans hg) (by simp)⟩
  next g hg =>
    obtain ⟨hlink, hmem⟩ := sendFrame_spec { g with nak := (s.link n).naksDue.head? } { s.link n with resends := rest' } rfl rfl
    refine ⟨_, rfl, ?_⟩
    rw [hlink]
    refine ⟨rfl, rfl, hmem, fun g' hg' => ?_⟩
    obtain rfl := Option.some.inj (hg.symm.trans hg')
    exact ⟨rfl, rfl⟩

end out

/-! ## A token at the receiving port (R205, R433, R436) -/

theorem slotReport_only (k : Nat) (info : Word) (s : State) : ReportsOnly s (slotReport k info s) := .tileReport ..

theorem laneMismatch_only (k : Nat) (info : Word) (s : State) : ReportsOnly s (laneMismatch k info s) := by
  unfold laneMismatch
  dsimp only
  split
  · exact .refl s
  · split
    · exact ⟨rfl, rfl, rfl, rfl⟩
    · exact slotReport_only ..

theorem degrade_spec {s : State} {n : Nat} (h : (s.link n).state = .up) (why : Nat) : let u := degrade n why s
    (u.link n).state = .degraded ∧ (u.link n).last = min 65535 ((s.link n).last + 1) ∧ keepsMemory s u ∧ u.arcs = s.arcs := by
  have honly := degrade_up h why
  have hlink := (honly.link n).trans (State.setLink_link_self ..)
  refine ⟨?_, ?_, keepsMemory_of_memories honly.memories, honly.arcs⟩
  all_goals rw [hlink]

section token
variable {v : State} {n j key : Nat} {a : Arc} {tok : Token} (howner : mfind (v.link n).ownersIn j = some key) (ha : v.arc? key = some a)
  (hstrays : (v.link n).strays = [])
include howner ha hstrays

theorem acceptToken_foreign (htag : tok.tag ≠ key % 4096) : ((acceptToken n j tok v).arc? key) = some a ∧
    ((acceptToken n j tok v).link n).strays = [(j, tok)] := by
  have hset : ((v.setLink n { v.link n with strays := (v.link n).strays ++ [(j, tok)] }).link n).strays = [(j, tok)] := by
    rw [State.setLink_link_self, hstrays]
    rfl
  unfold acceptToken
  rw [howner, Option.bind_some, ha, Option.map_some]
  dsimp only
  rw [if_pos (by simp [htag])]
  split
  next k _ =>
    rw [if_neg htag, (laneMismatch_only ..).arc, (laneMismatch_only ..).link]
    exact ⟨ha, hset⟩
  · exact ⟨ha, hset⟩

theorem acceptToken_late (htag : tok.tag = key % 4096) (hseq : tok.lseq ≠ a.lseqIn) : acceptToken n j tok v = degrade n 1 v := by
  unfold acceptToken
  rw [howner, Option.bind_some, ha, Option.map_some]
  dsimp only
  rw [if_neg (by simp [htag, hstrays]), if_pos hseq]

theorem acceptToken_next (htag : tok.tag = key % 4096) (hseq : tok.lseq = a.lseqIn) : let u := acceptToken n j tok v
    u.arc? key = some { a with
      lseqIn := (a.lseqIn + 1) % 256, transit := a.transit ++ [{ tok with lseq := 0 }], sent := a.sent + bit tok.spends } ∧
    u.link n = v.link n ∧ u.memories = v.memories := by
  unfold acceptToken
  rw [howner, Option.bind_some, ha, Option.map_some]
  dsimp only
  rw [if_neg (by simp [htag, hstrays]), if_neg (by simp [hseq])]
  split <;> exact ⟨State.setArc_arc_self .., rfl, rfl⟩

end token

/-! ## Frames in (R434, R438) -/

theorem placed_rest (now fseq : Nat) (x : Link) : ∃ base, x.placed now fseq = { x with baseIn := base } := by
  unfold Link.placed
  dsimp only
  split
  · exact ⟨_, rfl⟩
  · exact ⟨_, rfl⟩

theorem deliverFrame_tokens {f : Frame} {n : Nat} {v : State} (hitems : f.items = []) (hpubs : f.pubs = []) (hnak : f.nak = none) :
    deliverFrame n f v = f.tokens.foldl (fun s t => acceptToken n (7 * frameIndex (s.link n).baseIn f.fseq + t.1) t.2 s)
      (v.setLink n { v.link n with fseqIn := (f.fseq + 1) % 65536 }) := by
  unfold deliverFrame
  rw [hitems, hpubs, hnak]
  rfl

theorem insertFrame_length (base : Nat) (f : Frame) : ∀ l, (insertFrame base f l).length = l.length + 1
  | [] => rfl
  | g :: l => by
    unfold insertFrame
    split
    · rfl
    · rw [List.length_cons, insertFrame_length base f l, List.length_cons]

section arrival
variable {s : State} {n : Nat} (fseq flip sent : Nat) (hup : (s.link n).state = .up) (hruns : portRuns s n = true)

theorem execFrameDelivery_stopped (h : portRuns s n = false) : execFrameDelivery n fseq flip sent s = .next s := if_pos (by simp [h])

include hup hruns

theorem execFrameDelivery_early (h : s.pcyc % 4 ≠ (s.link n).f % 4) :
    execFrameDelivery n fseq flip sent s = .next (s.after 1 (.frameDelivery n fseq flip sent)) := by
  unfold execFrameDelivery
  dsimp only
  rw [if_neg (by simp [hup, hruns]), if_pos h]

variable (hnow : s.pcyc % 4 = (s.link n).f % 4)
include hnow

theorem execFrameDelivery_fails (h : frameChecks (arrived flip sent) = false) : execFrameDelivery n fseq flip sent s =
    if (s.link n).nakked.contains fseq then .next (degrade n 0 s)
    else .next (s.setLink n { s.link n with failedNums := (s.link n).failedNums ++ [fseq], naksDue := (s.link n).naksDue ++ [fseq] }) := by
  unfold execFrameDelivery
  dsimp only
  rw [if_neg (by simp [hup, hruns]), if_neg (by simp [hnow]), if_pos (by simp [h])]

/-- The frame as it comes in. -/
def frameIn (s : State) (flip sent : Nat) : Frame := { frameOf (arrived flip sent) with since := s.pcyc }

/-- The link that has learnt from its place. -/
def placedLink (s : State) (n flip sent : Nat) : Link := (s.link n).placed s.pcyc (frameOf (arrived flip sent)).fseq

theorem execFrameDelivery_passes (h : frameChecks (arrived flip sent) = true) : execFrameDelivery n fseq flip sent s =
    let f := frameIn s flip sent
    let x := placedLink s n flip sent
    if x.failedNums.contains f.fseq then
      .next ((s.setLink n { x with
        failedNums := x.failedNums.filter (· != f.fseq), nakked := x.nakked.filter (· != f.fseq)
        trans := min 65535 (x.trans + 1), heldFrames := insertFrame x.fseqIn f x.heldFrames }).logError (dieOfPos (linkPort n)) 7 1 n)
    else if x.failedNums.isEmpty && x.heldFrames.isEmpty then .next (deliverFrame n f (s.setLink n x))
    else .next (s.setLink n { x with heldFrames := insertFrame x.fseqIn f x.heldFrames }) := by
  unfold execFrameDelivery
  dsimp only
  rw [if_neg (by simp [hup, hruns]), if_neg (by simp [hnow]), if_neg (by simp [h])]
  rfl

variable (hcheck : frameChecks (arrived flip sent) = true)
include hcheck

theorem execFrameDelivery_resent (h : (frameOf (arrived flip sent)).fseq ∈ (s.link n).failedNums) : ∃ u,
    execFrameDelivery n fseq flip sent s = .next u ∧ (frameOf (arrived flip sent)).fseq ∉ (u.link n).failedNums ∧
    (u.link n).trans = min 65535 ((s.link n).trans + 1) ∧ (u.link n).heldFrames.length = (s.link n).heldFrames.length + 1 ∧
    logs s u (linkPort n / 256) 7 1 := by
  obtain ⟨base, hplaced⟩ := placed_rest s.pcyc (frameOf (arrived flip sent)).fseq (s.link n)
  rw [execFrameDelivery_passes fseq flip sent hup hruns hnow hcheck]
  dsimp only
  rw [placedLink, hplaced, if_pos (by simpa [frameIn] using h)]
  refine ⟨_, rfl, ?_⟩
  rw [(ReportsOnly.logError ..).link, State.setLink_link_self]
  refine ⟨fun hmem => ?_, rfl, insertFrame_length .., ?_⟩
  · exact absurd (List.of_mem_filter hmem) (by simp [frameIn])
  · exact logError_logs (s.setLink n _) _ _ _ _ (by decide) (by decide)

theorem execFrameDelivery_held (hne : (s.link n).failedNums ≠ []) (h : (frameOf (arrived flip sent)).fseq ∉ (s.link n).failedNums) : ∃ u,
    execFrameDelivery n fseq flip sent s = .next u ∧ (u.link n).heldFrames.length = (s.link n).heldFrames.length + 1 ∧
    (u.link n).fseqIn = (s.link n).fseqIn ∧ u.arcs = s.arcs := by
  obtain ⟨base, hplaced⟩ := placed_rest s.pcyc (frameOf (arrived flip sent)).fseq (s.link n)
  rw [execFrameDelivery_passes fseq flip sent hup hruns hnow hcheck]
  dsimp only
  rw [placedLink, hplaced, if_neg (by simpa [frameIn] using h), if_neg (by simp [hne])]
  refine ⟨_, rfl, ?_⟩
  rw [State.setLink_link_self]
  exact ⟨insertFrame_length .., rfl, rfl⟩

/-- The state in which the tokens of a frame are accepted. -/
def numbered (s : State) (n flip sent : Nat) : State :=
  (s.setLink n (placedLink s n flip sent)).setLink n { placedLink s n flip sent with fseqIn := ((frameOf (arrived flip sent)).fseq + 1) % 65536 }

omit hup hruns hnow hcheck in
theorem numbered_link : (numbered s n flip sent).link n =
    { placedLink s n flip sent with fseqIn := ((frameOf (arrived flip sent)).fseq + 1) % 65536 } := State.setLink_link_self ..

theorem execFrameDelivery_delivers (hfailed : (s.link n).failedNums = []) (hheld : (s.link n).heldFrames = [])
    (hitems : (frameOf (arrived flip sent)).items = []) (hpubs : (frameOf (arrived flip sent)).pubs = [])
    (hnak : (frameOf (arrived flip sent)).nak = none) : execFrameDelivery n fseq flip sent s =
      .next ((frameOf (arrived flip sent)).tokens.foldl
        (fun v t => acceptToken n (7 * frameIndex (v.link n).baseIn (frameOf (arrived flip sent)).fseq + t.1) t.2 v) (numbered s n flip sent)) := by
  obtain ⟨base, hplaced⟩ := placed_rest s.pcyc (frameOf (arrived flip sent)).fseq (s.link n)
  rw [execFrameDelivery_passes fseq flip sent hup hruns hnow hcheck]
  dsimp only
  rw [if_neg (by simp [placedLink, hplaced, hfailed]), if_pos (by simp [placedLink, hplaced, hfailed, hheld]),
    deliverFrame_tokens (f := frameIn s flip sent) hitems hpubs hnak, State.setLink_link_self]
  rfl

end arrival

theorem bits_of_low {m lo w : Nat} (h : lo + w ≤ m) (x : Nat) : x % 2 ^ m / 2 ^ lo % 2 ^ w = x / 2 ^ lo % 2 ^ w := by
  obtain ⟨e, rfl⟩ := Nat.exists_eq_add_of_le h
  rw [Nat.add_assoc, Nat.pow_add, Nat.mod_mul_right_div_self, Nat.mod_mod_of_dvd _ (Nat.pow_dvd_pow 2 (Nat.le_add_right w e))]

/-- What the fields of a token's slot hold (R150, R432). -/
theorem tokenOf_frameOf {body j : Nat} (hj : j < 7) (hocc : body / 2 ^ (24 + j) % 2 = 1) (hdyn : body / 2 ^ (17 + j) % 2 = 0) :
    ∃ tok : Token, (j, tok) ∈ (frameOf body).tokens ∧
      let at_ := body / 2 ^ (64 + 544 * j)
      tok.tag = at_ / 2 ^ 20 % 4096 ∧ tok.colour = at_ / 2 ^ 14 % 64 ∧ tok.fmt = at_ / 2 ^ 11 % 8 ∧ tok.lseq = at_ % 256 ∧
      tok.payload = BitVec.ofNat 512 (at_ / 2 ^ 32) := by
  refine ⟨tokenOf (bitsOf body (64 + 544 * j) 544), List.mem_filterMap.2 ⟨j, List.mem_range.2 hj, ?_⟩, ?_⟩
  · rw [if_pos (by simp [bitOf, hocc, hdyn])]
  · generalize hat : body / 2 ^ (64 + 544 * j) = at_
    simp only [tokenOf, bitsOf, hat]
    refine ⟨bits_of_low (by decide) _, bits_of_low (by decide) _, bits_of_low (by decide) _, ?_, ?_⟩
    · exact (bits_of_low (by decide) at_).trans (by rw [Nat.pow_zero, Nat.div_one]; rfl)
    · rw [bits_of_low (by decide)]
      exact BitVec.eq_of_toNat_eq (by simp only [BitVec.toNat_ofNat, Nat.mod_mod])

/-! ## Link states (R439, R440, R490) -/

section states
variable {s : State} {n : Nat}

theorem settled_setLink {x : Link} (h : settled s = false) (hx : x.state ≠ .up) : settled (s.setLink n x) = false := by
  unfold settled at h ⊢
  rw [Bool.or_eq_false_iff] at h ⊢
  refine ⟨List.any_eq_false.2 fun e he => ?_, h.2⟩
  rcases mem_mset he with rfl | hmem
  · simpa using hx
  · exact List.any_eq_false.1 h.1 e hmem

/-- A link that has trained, before the ports exchange what R490 says. -/
def trained (s : State) (n ok : Nat) : Link :=
  { s.link n with state := .aligned, f := ok % 4096, peer := bitsOf ok 12 6, peerLink := bitsOf ok 18 4, attempts := 0 }

theorem execLinkTrainingDone_aligns {ok : Nat} (h : (s.link n).state = .training) (hok : ok ≠ 0) (hlow : 24 ≤ ok % 4096) (hhigh : ok % 4096 ≤ 256)
    (hgood : n ∉ s.badLinks) : execLinkTrainingDone n ok s =
      let y := Link.exchange s ok (trained s n ok)
      let u := s.setLink n y
      .next (if !settled u && y.offers u then u.after (32 - s.pcyc % 32) (.pcycAdopt n y.peerMaster) else u) := by
  unfold execLinkTrainingDone
  dsimp only
  rw [if_neg (by simp [h]), if_pos (by simp [hok, hlow, hhigh, hgood])]
  rfl

theorem execLinkTrainingDone_fails (h : (s.link n).state = .training) : execLinkTrainingDone n 0 s =
    if (s.link n).attempts < 2 then .next (s.setLink n { s.link n with attempts := (s.link n).attempts + 1, trainAt := s.pcyc })
    else .next (linkEvent n none (s.setLink n { s.link n with state := .down, attempts := 0 })) := by
  unfold execLinkTrainingDone
  dsimp only
  rw [if_neg (by simp [h]), if_neg (by simp)]

/-- The exchange with a peer that is settled. -/
theorem exchange_settled {ok : Nat} {x : Link} (h : ok / 2 ^ 28 % 2 = 1) : Link.exchange s ok x =
    let ahead := (ok / 2 ^ 30 % 2 ^ 64 + x.f + 2 ^ 64 - s.pcyc % 2 ^ 64) % 2 ^ 64
    { x with peerMaster := ok / 2 ^ 22 % 64, peerSettled := true, peerAhead := ahead, inStep := decide (ahead = 0) } := by
  have hp : decide (bitsOf ok 28 1 = 1) = true := by simpa [bitsOf] using h
  unfold Link.exchange
  dsimp only
  rw [hp, if_neg (by simp)]
  rfl

theorem execLinkTrainingDone_spec {ok : Nat} (h : (s.link n).state = .training) (hok : ok ≠ 0) (hlow : 24 ≤ ok % 4096) (hhigh : ok % 4096 ≤ 256)
    (hgood : n ∉ s.badLinks) : ∃ u, execLinkTrainingDone n ok s = .next u ∧ keepsMemory s u ∧
      let ahead := (ok / 2 ^ 30 % 2 ^ 64 + ok % 4096 + 2 ^ 64 - s.pcyc % 2 ^ 64) % 2 ^ 64
      (ok / 2 ^ 28 % 2 = 1 → (settled s = false → (s.pcyc + (32 - s.pcyc % 32), .pcycAdopt n (ok / 2 ^ 22 % 64)) ∈ u.agenda) ∧
        u.link n = { s.link n with
          state := .aligned, f := ok % 4096, peer := ok / 2 ^ 12 % 64, peerLink := ok / 2 ^ 18 % 16, attempts := 0
          peerMaster := ok / 2 ^ 22 % 64, peerSettled := true, peerAhead := ahead, inStep := decide (ahead = 0) }) := by
  refine ⟨_, execLinkTrainingDone_aligns h hok hlow hhigh hgood, ?_, fun hpeer => ⟨fun hunsettled => ?_, ?_⟩⟩
  · split <;> exact keepsMemory_of_memories rfl
  · rw [exchange_settled hpeer, settled_setLink hunsettled (by simp [trained]), if_pos (by simp [Link.offers, trained])]
    simp
  · rw [exchange_settled hpeer]
    split <;> exact State.setLink_link_self ..

theorem execFrameHoldTimeout_late (hup : (s.link n).state = .up) (h : ∃ f, f ∈ (s.link n).heldFrames ∧ f.since + 4 * (s.link n).f + 256 < s.pcyc) :
    execFrameHoldTimeout n s = .next (degrade n 0 s) := by
  obtain ⟨f, hf, hlate⟩ := h
  have hheld : heldTooLong s n = true := by
    simp only [heldTooLong, hup, beq_self_eq_true, Bool.true_and]
    exact List.any_eq_true.2 ⟨f, hf, decide_eq_true hlate⟩
  unfold execFrameHoldTimeout
  rw [if_pos hheld]

theorem execLinkEnable_inStep (h : (s.link n).state = .aligned) (hmaster : (s.link n).peerMaster = s.master) (hstep : (s.link n).inStep = true) :
    execLinkEnable n s = .next (s.setLink n { s.link n with
      state := .up, startAt := (s.pcyc / 32 + 1) * 32, baseOut := (s.link n).fseqOut, baseIn := (s.link n).fseqIn }) := by
  unfold execLinkEnable
  dsimp only
  rw [if_neg (by simp [h]), if_pos (by simp [hmaster, hstep])]

theorem execLinkEnable_apart (h : (s.link n).state = .aligned) (hout : (s.link n).peerMaster ≠ s.master ∨ (s.link n).inStep = false) :
    execLinkEnable n s = .next (linkEvent n none s) := by
  unfold execLinkEnable
  dsimp only
  rw [if_neg (by simp [h]), if_neg (by rcases hout with h | h <;> simp [h])]

/-- A command that the state of its link does not take. -/
theorem ignoreLcmd_spec (n : Nat) (s : State) : (ignoreLcmd n s).links = s.links ∧ logs s (ignoreLcmd n s) (linkPort n / 256) 10 0 :=
  ⟨(ReportsOnly.logError ..).links, logError_logs _ _ _ _ _ (by decide) (by decide)⟩

theorem execLinkRetrain_trains (h : (s.link n).state = .down ∨ ((s.link n).state = .degraded ∧ (s.link n).owners = [] ∧ (s.link n).ownersIn = [])) :
    execLinkRetrain n s = .next (s.setLink n ((s.link n).train s.pcyc)) := if_pos (by
  rcases h with h | ⟨h, hout, hin⟩
  · simp [h]
  · simp [h, ownsSlot, hout, hin])

theorem execLinkRetrain_ignored (h : (s.link n).state ∈ [.training, .aligned, .up, .repointed]) :
    execLinkRetrain n s = .next (ignoreLcmd n s) := if_neg (by
  simp only [List.mem_cons, List.not_mem_nil, or_false] at h
  rcases h with h | h | h | h <;> simp [h])

theorem execLinkReset_down (h : (s.link n).state = .down) : execLinkReset n s = .next (s.setLink n ((s.link n).train s.pcyc)) :=
  if_pos (by simp [h])

theorem execLinkReset_repointed (h : (s.link n).state = .repointed) : execLinkReset n s = .next (s.setLink n { s.link n with state := .down }) :=
  (if_neg (by simp [h])).trans (if_pos (by simp [h]))

theorem execLinkReset_ignored (h : (s.link n).state ∈ [.training, .aligned, .up, .degraded]) : execLinkReset n s = .next (ignoreLcmd n s) := by
  simp only [List.mem_cons, List.not_mem_nil, or_false] at h
  refine (if_neg ?_).trans (if_neg ?_)
  all_goals rcases h with h | h | h | h <;> simp [h]

end states

/-! ## A lost rank (R448) -/

section rank
variable {s : State} {r : Nat}

theorem sever_only (r why : Nat) (s : State) : ∃ links, ReportsOnly { s with links := links } (sever r why s) := by
  refine ⟨s.links.map fun l => (l.1, l.2.without ((s.arcs.filter fun e => e.2.src == .remote r || e.2.dst == .remote r).map Prod.fst).contains), ?_⟩
  unfold sever
  refine .trans ?_ (.foldl (fun v e => ?_) _ _)
  · refine .trans ?_ (.foldl (fun v e => .passTrap ..) _ _)
    exact .foldl (fun v e => .regionReport ..) _ _
  · split
    · exact .ramoFault ..
    · exact .refl _

theorem repoint_link (r why n l : Nat) (v : State) : ((repoint r why n v).link l).state = if l = n then .repointed else (v.link l).state := by
  unfold repoint
  dsimp only
  split
  next h =>
    split
    next hl => rw [hl, beq_iff_eq.1 h]
    · rfl
  · rw [(ReportsOnly.linkEvent ..).link]
    split
    next hl => rw [hl, State.setLink_link_self]
    next hl => rw [State.setLink_link_of_ne _ _ hl]

theorem repoint_keeps (r why n : Nat) (v : State) : (repoint r why n v).ranks = v.ranks ∧ (repoint r why n v).memories = v.memories := by
  unfold repoint
  dsimp only
  split
  · exact ⟨rfl, rfl⟩
  · exact ⟨(ReportsOnly.linkEvent ..).ranks, (ReportsOnly.linkEvent ..).memories⟩

theorem repointAll_spec (r why : Nat) : ∀ (mask : List Nat) (v : State), let u := mask.foldl (fun s n => repoint r why n s) v
    u.ranks = v.ranks ∧ u.memories = v.memories ∧ ∀ l, l ∈ mask ∨ (v.link l).state = .repointed → (u.link l).state = .repointed
  | [], v => ⟨rfl, rfl, fun l h => h.resolve_left (by simp)⟩
  | n :: mask, v => by
    obtain ⟨hranks, hmem, hlinks⟩ := repointAll_spec r why mask (repoint r why n v)
    obtain ⟨hranks', hmem'⟩ := repoint_keeps r why n v
    refine ⟨hranks.trans hranks', hmem.trans hmem', fun l hl => hlinks l ?_⟩
    rw [repoint_link]
    by_cases hn : l = n
    · exact .inr (if_pos hn)
    · rw [if_neg hn]
      exact hl.imp_left fun h => (List.mem_cons.1 h).resolve_left hn

theorem failSnap_only (c why : Nat) (s : State) : ReportsOnly s (failSnap c why s) := ⟨rfl, rfl, rfl, rfl⟩

/-- The rank table with a rank lost. -/
def rankGone (s : State) (r : Nat) : State :=
  { s with ranks := mset s.ranks r (BitVec.ofNat 64 ((mget 0 s.ranks r).toNat % 2 ^ 62 + 2 * 2 ^ 62)) }

/-- Its links repointed. -/
def linksGone (s : State) (r : Nat) : State := (rankLinks s r).foldl (fun s n => repoint r 3 n s) (sever r 3 (rankGone s r))

theorem execRankLost_only (hlive : liveEntry (mget 0 s.ranks r) = true) (hself : bitOf (mget 0 s.ranks r).toNat 61 = false) :
    ∃ u, execRankLost r s = .next u ∧ ReportsOnly (linksGone s r) u := by
  refine ⟨_, if_neg (by rw [hlive, hself]; decide), ?_⟩
  refine .trans ?_ (.tellPackageOpen ..)
  refine .trans ?_ (.foldl (fun v e => failSnap_only ..) _ _)
  exact ⟨rfl, rfl, rfl, rfl⟩

theorem execRankLost_spec {e : Word} (he : e = mget 0 s.ranks r) (hlive : e.toNat / 2 ^ 62 = 1) (hself : e.toNat / 2 ^ 61 % 2 = 0) :
    ∃ u, execRankLost r s = .next u ∧ mget 0 u.ranks r = BitVec.ofNat 64 (e.toNat % 2 ^ 62 + 2 ^ 63) ∧
      (∀ j : Nat, j ≠ r → mget 0 u.ranks j = mget 0 s.ranks j) ∧
      (∀ l : Nat, l < 16 → e.toNat / 2 ^ l % 2 = 1 → (u.link l).state = .repointed) ∧ keepsMemory s u := by
  subst he
  obtain ⟨links, hsever⟩ := sever_only r 3 (rankGone s r)
  obtain ⟨hranks, hmem, hlinks⟩ := repointAll_spec r 3 (rankLinks s r) (sever r 3 (rankGone s r))
  obtain ⟨u, hu, honly⟩ := execRankLost_only (s := s) (r := r) (by simp only [liveEntry, bitsOf, hlive]; rfl) (by simp only [bitOf, hself]; rfl)
  have hall : u.ranks = (rankGone s r).ranks := (honly.ranks.trans hranks).trans hsever.ranks
  refine ⟨u, hu, ?_, fun j hj => ?_, fun l hl hbit => ?_, keepsMemory_of_memories ((honly.memories.trans hmem).trans hsever.memories)⟩
  · rw [hall]
    exact mget_mset_self ..
  · rw [hall]
    exact mget_mset_of_ne _ _ _ hj
  · rw [honly.link]
    exact hlinks l (.inl (List.mem_filter.2 ⟨List.mem_range.2 hl, by unfold bitOf; rw [hbit]; rfl⟩))

end rank

/-! ## The master number and the cycle of a peer (R490) -/

section adopt
variable {s : State} {n : Nat}

theorem execPcycAdopt_ignored {m : Nat} (h : settled s = true ∨ m ≠ (s.link n).peerMaster) : execPcycAdopt n m s = .next s :=
  if_pos (by rcases h with h | h <;> simp [h, eq_comm])

/-- The state of a package that has taken the number and the cycle of the peer of link `n`. -/
def adopted (s : State) (n : Nat) : State :=
  let x := s.link n
  let v := (s.pcyc + x.peerAhead) % 2 ^ 64
  { s with pcyc := v, master := x.peerMaster
           links := s.links.map fun e => (e.1, e.2.moved s.pcyc v x.peerAhead x.peerMaster)
           agenda := s.agenda.map fun e => (moveCycle s.pcyc v e.1, e.2)
           seqs := s.seqs.map fun e => (e.1, e.2.moved s.pcyc v)
           rankDown := s.rankDown.map fun e => (e.1, moveCycle s.pcyc v e.2) }

variable (hfree : settled s = false) (hal : (s.link n).state = .aligned)
  (hoffer : (s.link n).peerSettled = true ∨ (s.link n).peerMaster < s.master)
include hfree hal hoffer

theorem execPcycAdopt_eq : execPcycAdopt n (s.link n).peerMaster s =
    if s.pcyc % 32 ≠ 0 then .next (s.after (32 - s.pcyc % 32) (.pcycAdopt n (s.link n).peerMaster)) else .next (adopted s n) :=
  if_neg (by rcases hoffer with h | h <;> simp [hfree, Link.offers, hal, h])

omit hfree hoffer in
/-- The link over which a package adopts is in step. -/
theorem adopted_inStep : ((adopted s n).link n).inStep = true := by
  obtain ⟨x, hx⟩ : ∃ x, mfind s.links n = some x := by
    cases h : mfind s.links n with
    | some x => exact ⟨x, rfl⟩
    | none =>
      rw [State.link, mget, h] at hal
      cases hal
  have hlink : s.link n = x := by rw [State.link, mget, hx, Option.getD_some]
  unfold adopted State.link
  dsimp only
  rw [mget, mfind_map_values, hx, Option.map_some, Option.getD_some]
  change (Link.moved _ _ (s.link n).peerAhead (s.link n).peerMaster x).inStep = true
  rw [hlink]
  simp [Link.moved]

omit hfree hal hoffer in
theorem adopted_agenda {t : Nat} {i : Instr} (h : (t, i) ∈ s.agenda) (ht : s.pcyc ≤ t) :
    ((s.pcyc + (s.link n).peerAhead) % 2 ^ 64 + (t - s.pcyc), i) ∈ (adopted s n).agenda :=
  List.mem_map.2 ⟨(t, i), h, by rw [moveCycle, if_pos ht]⟩

end adopt

/-! ## Die boundaries (R430) -/

/-- A loop that keeps what one of its steps needs, and then what that step does. -/
theorem foldl_reaches {α : Type} {P Q : State → Prop} {f : State → α → State} {l : List α} {x : α} (hx : x ∈ l)
    (hbefore : ∀ s y, P s → P (f s y)) (hdo : ∀ s, P s → Q (f s x)) (hafter : ∀ s y, Q s → Q (f s y)) {s : State} (h : P s) : Q (l.foldl f s) := by
  obtain ⟨l₁, l₂, rfl⟩ := List.append_of_mem hx
  rw [List.foldl_append, List.foldl_cons]
  have hP : P (l₁.foldl f s) := List.foldlRecOn l₁ f h fun u hu y _ => hbefore u y hu
  exact List.foldlRecOn l₂ f (hdo _ hP) fun u hu y _ => hafter u y hu

/-- The logs of the dies, the regions and the memories are as they were. -/
structure FlitsOnly (s u : State) : Prop where
  dies : u.dies = s.dies
  regions : u.regions = s.regions
  memories : u.memories = s.memories

section boundary
variable {s : State} {b : Nat}

theorem losePointer_only (b : Nat) (s : State) : FlitsOnly s (losePointer b s) := by
  unfold losePointer
  split <;> exact ⟨rfl, rfl, rfl⟩

theorem loseFlight_only (key lk : Nat) (s : State) : FlitsOnly s (loseFlight key lk s) := by
  unfold loseFlight
  split
  · exact ⟨rfl, rfl, rfl⟩
  · split <;> exact ⟨rfl, rfl, rfl⟩

theorem FlitsOnly.trans {s u w : State} (h : FlitsOnly s u) (h' : FlitsOnly u w) : FlitsOnly s w :=
  ⟨h'.dies.trans h.dies, h'.regions.trans h.regions, h'.memories.trans h.memories⟩

theorem loseFlights_only (keys : List Nat) (lk : Nat) (s : State) : FlitsOnly s (keys.foldl (fun s key => loseFlight key lk s) s) :=
  List.foldlRecOn keys _ (motive := fun u => FlitsOnly s u) ⟨rfl, rfl, rfl⟩ fun _ hu key _ => hu.trans (loseFlight_only key lk _)

theorem tileReport_dies (t : Nat) (r : Report) (s : State) : (tileReport t r s).dies = s.dies := by
  unfold tileReport
  dsimp only
  (repeat' split) <;> rfl

theorem regionReport_dies (k code : Nat) (info : Word) (s : State) : (regionReport k code info s).dies = s.dies := by
  unfold regionReport
  split
  · rfl
  · exact tileReport_dies ..

/-- A report that stands stays. -/
theorem reports_tileReport {t p : Nat} {x y : Report} {s : State} (h : y ∈ (s.tile p).reports) : y ∈ ((tileReport t x s).tile p).reports := by
  by_cases hp : p = t
  · subst hp
    exact mem_reports_tileReport.2 (.inr h)
  · rw [State.tile, tileReport_tiles, ← State.tile, State.setTile_tile_of_ne _ _ hp]
    exact h

theorem reports_regionReport {k code p : Nat} {info : Word} {y : Report} {s : State} (h : y ∈ (s.tile p).reports) :
    y ∈ ((regionReport k code info s).tile p).reports := by
  unfold regionReport
  split
  · exact h
  · exact reports_tileReport h

/-- A region that exists still exists. -/
theorem tileReport_hasRegion {t k : Nat} {x : Report} {s : State} (h : (mfind s.regions k).isSome) :
    (mfind (tileReport t x s).regions k).isSome := by
  have hset (j : Nat) (r : Region) : (mfind (mset s.regions j r) k).isSome := by
    by_cases hj : k = j
    · rw [hj, mfind_mset_self]
      rfl
    · rwa [mfind_mset_of_ne _ _ hj]
  cases hr : (s.tile t).region with
  | none =>
    simp only [tileReport, hr]
    (repeat' split) <;> exact h
  | some j =>
    simp only [tileReport, hr]
    (repeat' split) <;> exact hset ..

theorem regionReport_hasRegion {j code k : Nat} {info : Word} {s : State} (h : (mfind s.regions k).isSome) :
    (mfind (regionReport j code info s).regions k).isSome := by
  unfold regionReport
  split
  · exact h
  · exact tileReport_hasRegion h

/-- The report of a region stands with its lowest tile. -/
theorem regionReport_reports {k : Nat} {r : Region} (code : Nat) (info : Word) {s : State} (h : mfind s.regions k = some r) :
    ∃ y, y ∈ ((regionReport k code info s).tile (r.tiles.foldl min 4095)).reports ∧ y.code = code ∧ y.info = info := by
  unfold regionReport
  rw [h]
  exact ⟨_, mem_reports_tileReport.2 (.inl rfl), rfl, rfl⟩

theorem execBoundaryFlitCrossing_stopped (h : boundaryRuns s b = false) (w : Nat) : execBoundaryFlitCrossing b w s = .next s := if_pos (by simp [h])

theorem execBoundaryFlitResend_stopped (h : boundaryRuns s b = false) (w : Nat) : execBoundaryFlitResend b w s = .next s := if_pos (by simp [h])

theorem execBoundaryFlitCrossing_clean : execBoundaryFlitCrossing b 0 s = .next s := ite_self _

section runs
variable (h : boundaryRuns s b = true)
include h

theorem execBoundaryFlitCrossing_corrected : execBoundaryFlitCrossing b 1 s = .next (s.logError (boundaryDies b).1 6 0 b) := if_neg (by simp [h])

theorem execBoundaryFlitCrossing_dynamic (w : Nat) : execBoundaryFlitCrossing b (4 * w + 2) s = .next (s.after 48 (.boundaryFlitResend b w)) := by
  unfold execBoundaryFlitCrossing
  rw [if_neg (by simp [h]), show (4 * w + 2) % 4 = 2 by omega, show (4 * w + 2) / 4 = w by omega]
  rfl

theorem execBoundaryFlitCrossing_lost (w : Nat) : execBoundaryFlitCrossing b (4 * w + 3) s = .next (loseFlit b w s) := by
  unfold execBoundaryFlitCrossing
  rw [if_neg (by simp [h]), show (4 * w + 3) % 4 = 3 by omega, show (4 * w + 3) / 4 = w by omega]
  rfl

theorem execBoundaryFlitResend_succeeds : execBoundaryFlitResend b 0 s = .next (s.logError (boundaryDies b).1 6 1 b) := if_neg (by simp [h])

theorem execBoundaryFlitResend_seq (m : Nat) : execBoundaryFlitResend b (4096 + m + 1) s = .next (passTrap m
    { cause := Code.link, info := linkInfo s.rank b 4, loc := s.seqLoc m, kind := .raised } (s.logError (boundaryDies b).1 6 2 b)) := by
  unfold execBoundaryFlitResend
  dsimp only
  rw [if_neg (by simp [h]), unitOf, if_neg (by omega), Nat.add_sub_cancel_left]
  dsimp only
  rw [logError_only]
  rfl

end runs

/-- The arcs whose tokens a flit of the scheduled plane carried. -/
def flitKeys (s : State) (b w : Nat) : List Nat :=
  ((List.range 8).filter (bitOf w)).filterMap fun l => mfind s.lanes (boundaryLink b (bitsOf w 9 4) (bitOf w 13) * 8 + l)

/-- The state in which the pointer of the flit is lost. -/
def pointerLost (s : State) (b w : Nat) : State :=
  let v := s.logError (boundaryDies b).1 6 2 b
  if bitOf w 8 then losePointer b v else v

/-- The regions that hear of a lost flit. -/
def flitRegions (s : State) (b w : Nat) : List Nat :=
  ((flitKeys s b w).filterMap fun key => ((pointerLost s b w).arc? key).bind (Arc.localRegion (pointerLost s b w))).eraseDups

theorem loseFlit_eq (b w : Nat) (s : State) : loseFlit b w s = (flitRegions s b w).foldl
    (fun v k => regionReport k Code.link (linkInfo v.rank b 4) v)
    ((flitKeys s b w).foldl (fun v key => loseFlight key (boundaryLink b (bitsOf w 9 4) (bitOf w 13)) v) (pointerLost s b w)) := rfl

theorem pointerLost_only (b w : Nat) (s : State) : FlitsOnly (s.logError (boundaryDies b).1 6 2 b) (pointerLost s b w) := by
  unfold pointerLost
  dsimp only
  split
  · exact losePointer_only ..
  · exact ⟨rfl, rfl, rfl⟩

theorem loseFlit_logs (b w : Nat) (s : State) : logs s (loseFlit b w s) (boundaryDies b).1 6 2 ∧ keepsMemory s (loseFlit b w s) := by
  have hkeeps := (pointerLost_only b w s).trans (loseFlights_only (flitKeys s b w) (boundaryLink b (bitsOf w 9 4) (bitOf w 13)) _)
  have hdies : (loseFlit b w s).dies = (s.logError (boundaryDies b).1 6 2 b).dies := by
    rw [loseFlit_eq, foldl_keeps State.dies fun v k => regionReport_dies ..]
    exact hkeeps.dies
  have hmem : (loseFlit b w s).memories = s.memories := by
    rw [loseFlit_eq, foldl_keeps State.memories fun v k => (ReportsOnly.regionReport ..).memories]
    exact hkeeps.memories.trans (State.memories_logError ..)
  refine ⟨?_, keepsMemory_of_memories hmem⟩
  unfold logs State.die
  rw [hdies]
  exact logError_logs s _ _ _ _ (by decide) (by decide)

theorem loseFlit_reports {lane place key r t : Nat} {a : Arc} (hlane : lane < 8) (hplace : place < 16)
    (hkey : mfind s.lanes (boundaryLink b place false * 8 + lane) = some key) (ha : s.arc? key = some a) (hsrc : a.src = .tile t 0)
    (hr : (s.tile t).region = some r) (hregion : (mfind s.regions r).isSome) :
    ∃ (p : Nat) (y : Report), y ∈ ((loseFlit b (2 ^ lane + 512 * place) s).tile p).reports ∧ y.code = 0x70 := by
  have hbits : bitsOf (2 ^ lane + 512 * place) 9 4 = place ∧ bitOf (2 ^ lane + 512 * place) 13 = false ∧
      bitOf (2 ^ lane + 512 * place) 8 = false ∧ bitOf (2 ^ lane + 512 * place) lane = true := by
    unfold bitsOf bitOf
    interval_cases lane <;> simp <;> omega
  obtain ⟨hbp, hback, hptr, hbl⟩ := hbits
  have hlost : pointerLost s b (2 ^ lane + 512 * place) = s.logError (boundaryDies b).1 6 2 b := by
    unfold pointerLost
    rw [hptr]
    rfl
  have hmem : key ∈ flitKeys s b (2 ^ lane + 512 * place) :=
    List.mem_filterMap.2 ⟨lane, List.mem_filter.2 ⟨List.mem_range.2 hlane, hbl⟩, by rw [hbp, hback, hkey]⟩
  have hhit : r ∈ flitRegions s b (2 ^ lane + 512 * place) := by
    refine List.mem_eraseDups.2 (List.mem_filterMap.2 ⟨key, hmem, ?_⟩)
    rw [hlost, logError_only]
    show (s.arc? key).bind _ = _
    rw [ha, Option.bind_some]
    unfold Arc.localRegion
    rw [hsrc]
    exact hr
  have hthere := (loseFlights_only (flitKeys s b (2 ^ lane + 512 * place)) (boundaryLink b place false) (pointerLost s b (2 ^ lane + 512 * place))).regions
  rw [loseFlit_eq, hbp, hback]
  refine foldl_reaches (P := fun u => (mfind u.regions r).isSome) (Q := fun u => ∃ (p : Nat) (y : Report), y ∈ (u.tile p).reports ∧ y.code = 0x70)
    hhit (fun v y => regionReport_hasRegion) (fun v hv => ?_) (fun v k ⟨p, y, hy, hcode⟩ => ⟨p, y, reports_regionReport hy, hcode⟩) ?_
  · obtain ⟨x, hx⟩ := Option.isSome_iff_exists.1 hv
    obtain ⟨y, hy, hcode, -⟩ := regionReport_reports Code.link (linkInfo v.rank b 4) hx
    exact ⟨_, y, hy, hcode⟩
  · rw [hthere, hlost, logError_only]
    exact hregion

end boundary

/-! ## The settled statement -/

section delivered
variable {s : State} {n : Nat} (fseq flip sent : Nat) (hup : (s.link n).state = .up) (hruns : portRuns s n = true)
  (hnow : s.pcyc % 4 = (s.link n).f % 4) (hcheck : frameChecks (arrived flip sent) = true) (hfailed : (s.link n).failedNums = [])
  (hheld : (s.link n).heldFrames = []) (hitems : (frameOf (arrived flip sent)).items = [])
  (hpubs : (frameOf (arrived flip sent)).pubs = []) (hnak : (frameOf (arrived flip sent)).nak = none)
include hup hruns hnow hcheck hfailed hheld hitems hpubs hnak

theorem execFrameDelivery_empty (htok : (frameOf (arrived flip sent)).tokens = []) :
    execFrameDelivery n fseq flip sent s = .next (numbered s n flip sent) := by
  rw [execFrameDelivery_delivers fseq flip sent hup hruns hnow hcheck hfailed hheld hitems hpubs hnak, htok]
  rfl

theorem execFrameDelivery_token {j : Nat} {tok : Token} (htok : (frameOf (arrived flip sent)).tokens = [(j, tok)]) :
    execFrameDelivery n fseq flip sent s = .next (acceptToken n
      (7 * frameIndex (placedLink s n flip sent).baseIn (frameOf (arrived flip sent)).fseq + j) tok (numbered s n flip sent)) := by
  rw [execFrameDelivery_delivers fseq flip sent hup hruns hnow hcheck hfailed hheld hitems hpubs hnak, htok, List.foldl_cons, List.foldl_nil,
    numbered_link]

/-- A frame with one token: what the port does with it depends on its tag and its number. -/
theorem execFrameDelivery_tokenSpec {j key : Nat} {a : Arc} {tok : Token} (htok : (frameOf (arrived flip sent)).tokens = [(j, tok)])
    (hstrays : (s.link n).strays = [])
    (howner : mfind (s.link n).ownersIn (7 * frameIndex (placedLink s n flip sent).baseIn (frameOf (arrived flip sent)).fseq + j) = some key)
    (ha : s.arc? key = some a) : ∃ u, execFrameDelivery n fseq flip sent s = .next u ∧
      (tok.tag ≠ key % 4096 → u.arc? key = some a ∧
        (u.link n).strays = [(7 * frameIndex (placedLink s n flip sent).baseIn (frameOf (arrived flip sent)).fseq + j, tok)]) ∧
      (tok.tag = key % 4096 → tok.lseq = a.lseqIn → u.arc? key = some { a with
          lseqIn := (a.lseqIn + 1) % 256, transit := a.transit ++ [{ tok with lseq := 0 }], sent := a.sent + bit tok.spends } ∧
        (u.link n).fseqIn = ((frameOf (arrived flip sent)).fseq + 1) % 65536 ∧ keepsMemory s u) ∧
      (tok.tag = key % 4096 → tok.lseq ≠ a.lseqIn → ((u.link n).state = .degraded ∧ (u.link n).last = min 65535 ((s.link n).last + 1) ∧
        keepsMemory s u) ∧ u.arc? key = some a) := by
  obtain ⟨base, hplaced⟩ := placed_rest s.pcyc (frameOf (arrived flip sent)).fseq (s.link n)
  have hlink := numbered_link (s := s) (n := n) flip sent
  have hkept : ((numbered s n flip sent).link n).ownersIn = (s.link n).ownersIn ∧ ((numbered s n flip sent).link n).strays = [] ∧
      ((numbered s n flip sent).link n).state = .up ∧ ((numbered s n flip sent).link n).last = (s.link n).last := by
    rw [hlink, placedLink, hplaced]
    exact ⟨rfl, hstrays, hup, rfl⟩
  obtain ⟨howners, hstrays', hup', hlast⟩ := hkept
  have howner' := (congrArg (mfind · _) howners).trans howner
  refine ⟨_, execFrameDelivery_token fseq flip sent hup hruns hnow hcheck hfailed hheld hitems hpubs hnak htok,
    fun htag => acceptToken_foreign howner' ha hstrays' htag, fun htag hseq => ?_, fun htag hseq => ?_⟩
  · obtain ⟨harc, hnew, hmem⟩ := acceptToken_next howner' ha hstrays' htag hseq
    exact ⟨harc, congrArg Link.fseqIn (hnew.trans hlink), keepsMemory_of_memories hmem⟩
  · obtain ⟨hnew, hlast', hmem, harcs⟩ := degrade_spec hup' 1
    rw [acceptToken_late howner' ha hstrays' htag hseq]
    exact ⟨⟨hnew, by rw [hlast', hlast], hmem⟩, by rw [State.arc?, harcs]; exact ha⟩

end delivered

/-- Settles O54: frames, tokens, link states, the rank table and die boundaries, rule by rule. -/
theorem linkSteps : Obligations.LinkSteps := by
  intro s n x next degrades k sends
  have hwants : sends → wantsFrame s n = true := fun ⟨hup, hruns, hstart, hround, hplace⟩ => wantsFrame_of hup hruns hstart hround hplace
  have hdegrade (why : Nat) (hup : x.state = .up) : degrades (degrade n why s) := by
    obtain ⟨hstate, hlast, hmem, -⟩ := degrade_spec hup why
    exact ⟨hstate, hlast, hmem⟩
  refine ⟨?sent, ?resent, ?delivered, ?decoded, ?timeout, ?carrier, ?training, ?enable, ?retrainDown, ?retrainDegraded, ?retrainIgnored,
    ?resetDown, ?resetRepointed, ?resetIgnored, ?rank, ?adopt, ?adoptIgnored, ?stopped, ?clean, ?boundary⟩
  case sent =>
    intro hsends
    obtain ⟨u, hu, hseq, hnaks, hmem, hlast, hwire, hout, hitems⟩ := execFrameSend_spec (hwants hsends)
    refine ⟨u, hu, hseq, hnaks, hmem, frameOut s n, hlast, hwire, rfl, rfl, ?_, ?_⟩
    · intro j key t tok hk hj howner htoken ht
      have hslots : slotsOut s n = ({ x with out := [] }, [(j, tok)]) :=
        (if_neg (Nat.ne_of_lt hk)).trans (fillSlots_one hj howner htoken ht)
      exact ⟨congrArg Prod.snd hslots, hout.trans (by rw [hslots])⟩
    · intro i hk hone hctx
      obtain ⟨hi, htok, hempty⟩ := emptied_items i hk hone hctx
      exact ⟨hi, htok, hitems.trans hempty⟩
  case resent =>
    intro f rest hsends hk hres
    exact execFrameResend_spec (hwants hsends) hk hres
  case delivered =>
    intro fseq flip sent hup body g y
    refine ⟨execFrameDelivery_stopped fseq flip sent, execFrameDelivery_early fseq flip sent hup, fun hruns hnow => ⟨?_, ?_, ?_, ?_, ?_⟩⟩
    · intro hbad hnew
      refine ⟨_, (execFrameDelivery_fails fseq flip sent hup hruns hnow hbad).trans (if_neg (by simpa using hnew)), ?_⟩
      dsimp only
      rw [State.setLink_link_self]
      exact ⟨rfl, rfl, rfl, rfl⟩
    · intro hbad hold
      exact ⟨_, (execFrameDelivery_fails fseq flip sent hup hruns hnow hbad).trans (if_pos (by simpa using hold)), hdegrade 0 hup⟩
    · intro hcheck hfailed hheld hstrays hitems hpubs hnak
      refine ⟨fun htok => ?_, ?_⟩
      · exact ⟨_, execFrameDelivery_empty fseq flip sent hup hruns hnow hcheck hfailed hheld hitems hpubs hnak htok, numbered_link flip sent, rfl,
          keepsMemory_of_memories rfl⟩
      · intro j key a tok htok at_ howner ha
        obtain ⟨u, hu, hspec⟩ := execFrameDelivery_tokenSpec fseq flip sent hup hruns hnow hcheck hfailed hheld hitems hpubs hnak htok hstrays howner ha
        exact ⟨fun htag => ⟨u, hu, hspec.1 htag⟩, fun htag hseq => ⟨u, hu, hspec.2.1 htag hseq⟩, fun htag hseq => ⟨u, hu, hspec.2.2 htag hseq⟩⟩
    · exact fun hcheck hmem => execFrameDelivery_resent fseq flip sent hup hruns hnow hcheck hmem
    · exact fun hcheck hne hmem => execFrameDelivery_held fseq flip sent hup hruns hnow hcheck hne hmem
  case decoded => exact fun body j => ⟨rfl, tokenOf_frameOf⟩
  case timeout => exact fun hup hlate => ⟨_, execFrameHoldTimeout_late hup hlate, hdegrade 0 hup⟩
  case carrier => exact fun hup => ⟨_, rfl, hdegrade 2 hup⟩
  case training =>
    intro htraining
    refine ⟨fun ok hok hlow hhigh hgood => execLinkTrainingDone_spec htraining hok hlow hhigh hgood, fun hfew => ?_, fun hmany => ?_⟩
    · exact (execLinkTrainingDone_fails htraining).trans (if_pos hfew)
    · refine ⟨_, (execLinkTrainingDone_fails htraining).trans (if_neg (Nat.not_lt.2 hmany)), ?_, ?_⟩
      · rw [(ReportsOnly.linkEvent ..).link, State.setLink_link_self]
      · exact keepsMemory_of_memories (ReportsOnly.linkEvent ..).memories
  case enable =>
    exact fun hal => ⟨execLinkEnable_inStep hal, fun hout =>
      ⟨_, execLinkEnable_apart hal hout, (ReportsOnly.linkEvent ..).links, (ReportsOnly.linkEvent ..).keepsMemory⟩⟩
  case retrainDown =>
    intro hdown
    refine ⟨_, execLinkRetrain_trains (.inl hdown), ?_⟩
    dsimp only
    rw [State.setLink_link_self]
    refine ⟨rfl, rfl, rfl, ?_, ?_, keepsMemory_of_memories rfl⟩
    · exact if_pos (by simp [show (s.link n).state = .down from hdown])
    · exact if_pos (by simp [show (s.link n).state = .down from hdown])
  case retrainDegraded =>
    intro hdeg hout hin
    refine ⟨_, execLinkRetrain_trains (.inr ⟨hdeg, hout, hin⟩), ?_⟩
    dsimp only
    rw [State.setLink_link_self]
    refine ⟨rfl, rfl, rfl, ?_, ?_, keepsMemory_of_memories rfl⟩
    · exact if_neg (by simp [show (s.link n).state = .degraded from hdeg])
    · exact if_neg (by simp [show (s.link n).state = .degraded from hdeg])
  case retrainIgnored => exact fun hstate => ⟨_, execLinkRetrain_ignored hstate, ignoreLcmd_spec n s⟩
  case resetDown =>
    intro hdown
    refine ⟨_, execLinkReset_down hdown, ?_⟩
    dsimp only
    rw [State.setLink_link_self]
    exact ⟨rfl, if_pos (by simp [show (s.link n).state = .down from hdown]), if_pos (by simp [show (s.link n).state = .down from hdown])⟩
  case resetRepointed => exact execLinkReset_repointed
  case resetIgnored => exact fun hstate => ⟨_, execLinkReset_ignored hstate, ignoreLcmd_spec n s⟩
  case rank => exact fun e he hlive hself => execRankLost_spec he hlive hself
  case adopt =>
    intro hfree hal hoffer
    refine ⟨fun hround => ?_, fun hround => (execPcycAdopt_eq hfree hal hoffer).trans (if_pos hround)⟩
    exact ⟨_, (execPcycAdopt_eq hfree hal hoffer).trans (if_neg (by simpa using hround)), rfl, rfl, adopted_inStep hal, keepsMemory_of_memories rfl,
      fun t i hmem ht => adopted_agenda hmem ht⟩
  case adoptIgnored => exact fun m h => execPcycAdopt_ignored h
  case stopped => exact fun h w => ⟨execBoundaryFlitCrossing_stopped h w, execBoundaryFlitResend_stopped h w⟩
  case clean => exact execBoundaryFlitCrossing_clean
  case boundary =>
    intro hruns
    refine ⟨⟨_, execBoundaryFlitCrossing_corrected hruns, logError_logs _ _ _ _ _ (by decide) (by decide), logError_keepsMemory ..⟩,
      execBoundaryFlitCrossing_dynamic hruns, fun w => ⟨_, execBoundaryFlitCrossing_lost hruns w, loseFlit_logs n w s⟩, ?_,
      ⟨_, execBoundaryFlitResend_succeeds hruns, logError_logs _ _ _ _ _ (by decide) (by decide), logError_keepsMemory ..⟩, fun m => ?_⟩
    · intro lane place key a r t hlane hplace hkey ha hsrc hr ⟨y, hy⟩
      exact ⟨_, execBoundaryFlitCrossing_lost hruns _, loseFlit_reports hlane hplace hkey ha hsrc hr (by rw [hy]; rfl)⟩
    · refine ⟨_, execBoundaryFlitResend_seq hruns m, ?_, ?_, _, mem_queue_passTrap .., rfl⟩
      · exact logError_logs s _ _ _ _ (by decide) (by decide)
      · exact ((ReportsOnly.logError ..).trans (.passTrap ..)).keepsMemory

end Sys2Proof.Machine
end

/-! # Copies of pages

What a byte of memory reads behind a copy, the bits of a leaf entry, and the accesses of the part to a cellar in another package (R382,
R402, R403). -/
section
open Sys2Proof Sys2Proof.Machine Sys2Proof.Claims
namespace Sys2Proof.Machine

/-! ## A byte behind a copy -/

section maps
variable {α : Type}

theorem pairwise_of_mrising {lo : Nat} {m : Map α} (h : mrising lo m = true) : m.Pairwise (fun e f => e.1 < f.1) ∧ ∀ e ∈ m, lo ≤ e.1 := by
  induction m generalizing lo with
  | nil => exact ⟨.nil, by simp⟩
  | cons e m ih =>
    obtain ⟨k, v⟩ := e
    rw [mrising, Bool.and_eq_true, decide_eq_true_eq] at h
    obtain ⟨hpair, hlow⟩ := ih h.2
    refine ⟨List.pairwise_cons.2 ⟨fun f hf => hlow f hf, hpair⟩, fun f hf => ?_⟩
    rcases List.mem_cons.1 hf with rfl | hf
    · exact h.1
    · exact (h.1.trans (Nat.le_succ k)).trans (hlow f hf)

theorem mfind_ne_none {m : Map α} {e : Nat × α} (h : e ∈ m) : mfind m e.1 ≠ none := by
  induction m with
  | nil => cases h
  | cons f m ih =>
    obtain ⟨j, v⟩ := f
    rw [mfind]
    split
    · exact Option.some_ne_none v
    next hj =>
      rcases List.mem_cons.1 h with rfl | h
      · exact absurd rfl hj
      · exact ih h

theorem mfind_filter_kept {m : Map α} {p : Nat × α → Bool} {k : Nat} (h : ∀ v, p (k, v) = true) : mfind (m.filter p) k = mfind m k := by
  induction m with
  | nil => rfl
  | cons e m ih =>
    obtain ⟨j, v⟩ := e
    by_cases hj : j = k
    · subst hj
      rw [List.filter_cons_of_pos (h v), mfind, mfind, if_pos rfl, if_pos rfl]
    · rw [mfind, if_neg hj, ← ih]
      by_cases hp : p (j, v) = true
      · rw [List.filter_cons_of_pos hp, mfind, if_neg hj]
      · rw [List.filter_cons_of_neg hp]

end maps

/-- A cell of a source written where the copy puts it. -/
def copyCell (a dst : Nat) (m : Memory) (c : Host.Cell) : Memory := writeByte m (c.1 - a + dst) c.2

theorem foldl_copyCell_apart (a dst b : Nat) : ∀ (cs : List Host.Cell) (m : Memory), (∀ c ∈ cs, c.1 - a + dst ≠ b) →
    readByte (cs.foldl (copyCell a dst) m) b = readByte m b
  | [], _, _ => rfl
  | c :: cs, m, h => by
    rw [List.foldl_cons, foldl_copyCell_apart a dst b cs _ fun d hd => h d (List.mem_cons_of_mem _ hd)]
    exact mget_mput_of_ne _ _ _ (Ne.symm (h c List.mem_cons_self))

theorem copyInto_eq (src : Memory) (a : Nat) (m : Memory) (dst n : Nat) :
    copyInto src a m dst n = (cellsIn src a n).foldl (copyCell a dst) (m.filter fun c => c.1 < dst || dst + n ≤ c.1) := rfl

theorem mem_cellsIn {src : Memory} {a n : Nat} {c : Host.Cell} : c ∈ cellsIn src a n ↔ c ∈ src ∧ a ≤ c.1 ∧ c.1 < a + n := by
  simp [cellsIn, List.mem_filter]

/-- Outside the range of a copy a byte is what it was. -/
theorem readByte_copyInto_outside {src m : Memory} {a dst n b : Nat} (h : b < dst ∨ dst + n ≤ b) :
    readByte (copyInto src a m dst n) b = readByte m b := by
  rw [copyInto_eq, foldl_copyCell_apart]
  · rw [readByte, readByte, mget, mget, mfind_filter_kept fun v => by simpa using h]
  · intro c hc
    obtain ⟨-, hlow, hhigh⟩ := mem_cellsIn.1 hc
    omega

/-- Inside it is the byte of the source. -/
theorem readByte_copyInto_inside {src m : Memory} {a dst n j : Nat} (hwf : src.wf = true) (hj : j < n) :
    readByte (copyInto src a m dst n) (dst + j) = readByte src (a + j) := by
  obtain ⟨hpair, -⟩ := pairwise_of_mrising ((Memory.wf_iff src).1 hwf).1
  rw [copyInto_eq]
  cases hfind : mfind src (a + j) with
  | none =>
    rw [foldl_copyCell_apart]
    · rw [readByte, readByte, mget, mget, hfind, mfind_filter_dropped fun v => by simp; omega]
    · intro c hc hmet
      obtain ⟨hmem, hlow, hhigh⟩ := mem_cellsIn.1 hc
      have hkey : c.1 = a + j := by omega
      exact mfind_ne_none hmem (hkey ▸ hfind)
  | some v =>
    have hmem : (a + j, v) ∈ cellsIn src a n := mem_cellsIn.2 ⟨mem_of_mfind hfind, by dsimp only; omega, by dsimp only; omega⟩
    have hcells : (cellsIn src a n).Pairwise (fun e f => e.1 < f.1) := hpair.filter _
    obtain ⟨l, l', hl⟩ := List.append_of_mem hmem
    rw [hl] at hcells
    have hbehind : ∀ c ∈ l', c.1 - a + dst ≠ dst + j := fun c hc => by
      have hlt := (List.pairwise_cons.1 (List.pairwise_append.1 hcells).2.1).1 c hc
      dsimp only at hlt
      omega
    rw [hl, List.foldl_append, List.foldl_cons, foldl_copyCell_apart a dst _ l' _ hbehind, copyCell]
    dsimp only
    rw [show a + j - a + dst = dst + j by omega, readByte_writeByte_self, readByte, mget, hfind, Option.getD_some]

/-! ## The bits of a leaf entry (R382) -/

namespace Leaf

theorem testBit_setBit {e : Word} {k : Nat} {b : Bool} (hk : k < 64) (i : Nat) :
    (setBit e k b).toNat.testBit i = if i = k then b else e.toNat.testBit i := by
  have hone : (BitVec.ofNat 64 (2 ^ k)).getLsbD i = decide (i = k) := by
    rw [BitVec.getLsbD_ofNat, Nat.testBit_two_pow]
    by_cases hi : i = k
    · simp [hi, hk]
    · simp [hi, Ne.symm hi]
  simp only [BitVec.testBit_toNat]
  unfold setBit
  cases b
  · rw [if_neg (by decide), BitVec.getLsbD_and, BitVec.getLsbD_not, hone]
    by_cases hi : i = k
    · simp [hi]
    · by_cases h64 : i < 64
      · simp [hi, h64]
      · simp [hi, h64, BitVec.getLsbD_of_ge e i (Nat.le_of_not_lt h64)]
  · rw [if_pos rfl, BitVec.getLsbD_or, hone]
    by_cases hi : i = k
    · simp [hi]
    · simp [hi]

theorem bitOf_setBit {e : Word} {k : Nat} {b : Bool} (hk : k < 64) (i : Nat) :
    bitOf (setBit e k b).toNat i = if i = k then b else bitOf e.toNat i := by
  rw [bitOf_eq_testBit, testBit_setBit hk, bitOf_eq_testBit]

theorem testBit_setField {e : Word} {lo n v : Nat} (h : lo + n ≤ 64) (i : Nat) :
    (setField e lo n v).toNat.testBit i = if lo ≤ i ∧ i < lo + n then v.testBit (i - lo) else e.toNat.testBit i := by
  have hmask : ((2 ^ n - 1) * 2 ^ lo).testBit i = decide (lo ≤ i ∧ i < lo + n) := by
    rw [Nat.mul_comm, Nat.testBit_two_pow_mul, Nat.testBit_two_pow_sub_one]
    by_cases hlo : lo ≤ i
    · simp only [hlo, decide_true, Bool.true_and, true_and, decide_eq_decide]
      omega
    · simp [hlo]
  have hval : (v % 2 ^ n * 2 ^ lo).testBit i = (decide (lo ≤ i ∧ i < lo + n) && v.testBit (i - lo)) := by
    rw [Nat.mul_comm, Nat.testBit_two_pow_mul, Nat.testBit_mod_two_pow]
    by_cases hlo : lo ≤ i
    · simp only [hlo, decide_true, Bool.true_and, true_and, show i - lo < n ↔ i < lo + n by omega]
    · simp [hlo]
  simp only [BitVec.testBit_toNat]
  unfold setField
  rw [BitVec.getLsbD_or, BitVec.getLsbD_and, BitVec.getLsbD_not, BitVec.getLsbD_ofNat, BitVec.getLsbD_ofNat, hmask, hval]
  by_cases hin : lo ≤ i ∧ i < lo + n
  · simp [hin, show i < 64 by omega]
  · by_cases h64 : i < 64
    · simp [hin, h64]
    · simp [hin, h64, BitVec.getLsbD_of_ge e i (Nat.le_of_not_lt h64)]

/-- An entry with what a field of it holds. -/
theorem setField_self {e : Word} {lo n v : Nat} (h : lo + n ≤ 64) (hv : v = bitsOf e.toNat lo n) : setField e lo n v = e := by
  refine BitVec.eq_of_toNat_eq (Nat.eq_of_testBit_eq fun i => ?_)
  rw [testBit_setField h]
  split
  next hin =>
    rw [hv, testBit_bitsOf, decide_eq_true (show i - lo < n by omega), Bool.true_and, show lo + (i - lo) = i by omega]
  · rfl

end Leaf

end Sys2Proof.Machine
end

/-! # Snapshots and rollback

The cellar in another package (R403), the open point (R406, R407), the sweeper (R415), sealing (R416 to R418), failure (R419) and the copy
home (R428). -/
section
open Sys2Proof Sys2Proof.Machine Sys2Proof.Claims
namespace Sys2Proof.Machine

/-! ## A cellar in another package that can be reached (R403) -/

/-- The cellar of a context lies with a peer that is reached, and no access of it has failed. -/
structure FarCellar (s : State) (c : Nat) : Prop where
  good : (s.ctx c).cellarBad = false
  place : (s.ctx c).cellar.place = 1
  reached : peerReached s c = true

/-- Two states with the contexts, the ranks and the states of the links in common. -/
structure SamePeers (s u : State) : Prop where
  ctxs : u.ctxs = s.ctxs
  ranks : u.ranks = s.ranks
  links : ∀ n, (u.link n).state = (s.link n).state

section far
variable {s u : State} {c n : Nat}

theorem peerReached_congr (hcellar : (u.ctx c).cellar.peer = (s.ctx c).cellar.peer) (hranks : u.ranks = s.ranks)
    (hlinks : ∀ n, (u.link n).state = (s.link n).state) : peerReached u c = peerReached s c := by
  unfold peerReached upLinks rankLinks
  simp only [hcellar, hranks, hlinks]

theorem FarCellar.of_peers (h : FarCellar s c) (hp : SamePeers s u) : FarCellar u c := by
  have hctx : u.ctx c = s.ctx c := ctx_of_ctxs hp.ctxs c
  obtain ⟨hgood, hplace, hreached⟩ := h
  refine ⟨by rw [hctx, hgood], by rw [hctx, hplace], ?_⟩
  rw [peerReached_congr (by rw [hctx]) hp.ranks hp.links, hreached]

theorem sendCellar_peers (c n : Nat) (s : State) : SamePeers s (sendCellar c n s) := by
  unfold sendCellar sendItems
  split
  · exact ⟨rfl, rfl, fun _ => rfl⟩
  next l _ =>
    refine ⟨rfl, rfl, fun m => ?_⟩
    by_cases hm : m = l
    · rw [hm, State.setLink_link_self]
    · rw [State.setLink_link_of_ne _ _ hm]

theorem sendCellar_links (c n : Nat) (s : State) : sendCellar c n s = { s with links := (sendCellar c n s).links } := by
  unfold sendCellar sendItems
  split <;> rfl

theorem cellarAccess_far {α : Type} (h : FarCellar s c) (near far : State → PartEnd α) : cellarAccess c n s near far = far (sendCellar c n s) := by
  obtain ⟨hgood, hplace, hreached⟩ := h
  unfold cellarAccess
  dsimp only
  rw [if_neg (by simp [hgood]), if_neg (by simp [hplace]), if_pos hreached]

/-- Two states that differ in the peers' memory and the links only. -/
def PeerOnly (s u : State) : Prop := u = { s with peerMem := u.peerMem, links := u.links }

theorem PeerOnly.trans {s u w : State} (h : PeerOnly s u) (h' : PeerOnly u w) : PeerOnly s w := by
  rw [PeerOnly] at h h' ⊢
  rw [h', h]

/-- What an access of a far cellar leaves. -/
def FarEnd (s : State) (e : PartEnd Unit) : Prop := ∃ u, e = .ok () u ∧ PeerOnly s u ∧ SamePeers s u

theorem FarEnd.bind {e : PartEnd Unit} {k : Unit → State → PartEnd Unit} (he : FarEnd s e)
    (hk : ∀ u, PeerOnly s u → SamePeers s u → FarEnd u (k () u)) : FarEnd s (e.bind k) := by
  obtain ⟨u, rfl, honly, hp⟩ := he
  obtain ⟨w, hw, honly', hp'⟩ := hk u honly hp
  exact ⟨w, hw, honly.trans honly', ⟨hp'.ctxs.trans hp.ctxs, hp'.ranks.trans hp.ranks, fun n => (hp'.links n).trans (hp.links n)⟩⟩

theorem sent_far (h : FarCellar s c) (m : State → Memory) : FarEnd s (cellarAccess c n s near fun s => .ok () { s with peerMem := m s }) := by
  have hsent := sendCellar_peers c n s
  refine ⟨_, cellarAccess_far h _ _, ?_, ⟨hsent.ctxs, hsent.ranks, hsent.links⟩⟩
  rw [PeerOnly, sendCellar_links]

theorem toCellar_far (h : FarCellar s c) (die pa off : Nat) : FarEnd s (toCellar die c pa off s n) := by
  induction n generalizing pa off s with
  | zero => exact ⟨s, rfl, rfl, ⟨rfl, rfl, fun _ => rfl⟩⟩
  | succ n ih => exact (sent_far h _).bind fun u _ hp => ih (h.of_peers hp) _ _

theorem cellarBytes_far (h : FarCellar s c) (die off : Nat) (bs : List Byte) : FarEnd s (cellarBytes die c off bs s) := sent_far h _

/-- Two states that differ in device memory, the translation units and the links only. -/
def CopyOnly (s u : State) : Prop := u = { s with mem := u.mem, xlats := u.xlats, links := u.links }

theorem CopyOnly.trans {s u w : State} (h : CopyOnly s u) (h' : CopyOnly u w) : CopyOnly s w := by
  rw [CopyOnly] at h h' ⊢
  rw [h', h]

/-- What copying `n` chunks from a far cellar leaves. -/
structure CopiedHome (s u : State) (src pa n : Nat) : Prop where
  only : CopyOnly s u
  peers : SamePeers s u
  inside : ∀ j, j < 65536 * n → readByte u.mem (pa + j) = readByte s.peerMem (src + j)
  outside : ∀ b, b < pa ∨ pa + 65536 * n ≤ b → readByte u.mem b = readByte s.mem b

theorem fromCellar_far (h : FarCellar s c) (hwf : s.peerMem.wf = true) (die off pa : Nat) :
    ∃ u, fromCellar die c off pa s n = .ok () u ∧ CopiedHome s u (cellarPeer s c off) pa n := by
  induction n generalizing off pa s with
  | zero => exact ⟨s, rfl, rfl, ⟨rfl, rfl, fun _ => rfl⟩, by simp, fun _ _ => rfl⟩
  | succ n ih =>
    have hsent := sendCellar_peers c 65536 s
    have hlinks := sendCellar_links c 65536 s
    unfold fromCellar
    rw [cellarAccess_far h]
    dsimp only [PartEnd.bind]
    generalize hv : sendCellar c 65536 s = v at hsent hlinks ⊢
    have hsrc : cellarPeer v c off = cellarPeer s c off := by rw [cellarPeer, ctx_of_ctxs hsent.ctxs, cellarPeer]
    have hpeer : v.peerMem = s.peerMem := by rw [hlinks]
    generalize hw : markDirty pa 65536 { v with mem := copyInto v.peerMem (cellarPeer v c off) v.mem pa 65536 } = w
    have hwpeers : SamePeers s w := by rw [← hw]; exact ⟨hsent.ctxs, hsent.ranks, hsent.links⟩
    have hwmem : w.mem = copyInto s.peerMem (cellarPeer s c off) s.mem pa 65536 := by
      rw [← hw]
      change copyInto v.peerMem (cellarPeer v c off) v.mem pa 65536 = _
      rw [hsrc, hpeer, hlinks]
    have hwpeer : w.peerMem = s.peerMem := by rw [← hw]; exact hpeer
    have hwonly : CopyOnly s w := by rw [CopyOnly, ← hw, hlinks]; rfl
    have hwsrc : cellarPeer w c (off + 65536) = cellarPeer s c off + 65536 := by
      rw [cellarPeer, ctx_of_ctxs hwpeers.ctxs, cellarPeer]
      omega
    obtain ⟨u, hu, honly, hpeers, hin, hout⟩ := ih (h.of_peers hwpeers) (hwpeer ▸ hwf) (off + 65536) (pa + 65536)
    refine ⟨u, hu, hwonly.trans honly, ⟨hpeers.ctxs.trans hwpeers.ctxs, hpeers.ranks.trans hwpeers.ranks,
      fun m => (hpeers.links m).trans (hwpeers.links m)⟩, fun j hj => ?_, fun b hb => ?_⟩
    · by_cases hfirst : j < 65536
      · rw [hout _ (.inl (by omega)), hwmem]
        exact readByte_copyInto_inside hwf hfirst
      · have hlater := hin (j - 65536) (by omega)
        rwa [hwsrc, hwpeer, show pa + 65536 + (j - 65536) = pa + j by omega,
          show cellarPeer s c off + 65536 + (j - 65536) = cellarPeer s c off + j by omega] at hlater
    · have hfirst : b < pa ∨ pa + 65536 ≤ b :=
        hb.imp_right fun h => (Nat.add_le_add_left (Nat.le_mul_of_pos_right _ n.succ_pos) pa).trans h
      rw [hout b (by omega), hwmem]
      exact readByte_copyInto_outside hfirst

/-- Where the cellar cannot be read, the first chunk fails. -/
theorem fromCellar_lost (hplace : (s.ctx c).cellar.place = 1) (hlost : (s.ctx c).cellarBad = true ∨ peerReached s c = false) (die off pa : Nat) (n : Nat) :
    ∃ u, fromCellar die c off pa s (n + 1) = .fault u := by
  unfold fromCellar cellarAccess
  dsimp only
  by_cases hbad : (s.ctx c).cellarBad = true
  · exact ⟨_, by rw [if_pos hbad]; rfl⟩
  · rw [if_neg hbad, if_neg (by simp [hplace]), if_neg (by simp [hlost.resolve_left hbad])]
    exact ⟨s, rfl⟩

end far

/-! ## What the markers of a snapshot leave of its record (R406, R407) -/

/-- What a snapshot is: its number, its state, the one before it, its seed and its polarity. -/
def Snap.head (p : Snap) : Nat × SnapState × Nat × Word × Bool := (p.id, p.state, p.prev, p.seed, p.pol)

/-- The polarity, the sweep and the snapshots of a context. -/
def Ctx.heads (x : Ctx) : Bool × Option Nat × List (Nat × SnapState × Nat × Word × Bool) := (x.pol, x.sweep, x.snaps.map Snap.head)

theorem Ctx.heads_updOpen {f : Snap → Snap} (hf : ∀ p, (f p).head = p.head) (x : Ctx) : (x.updOpen f).heads = x.heads := by
  unfold Ctx.heads Ctx.updOpen
  dsimp only
  rw [List.map_map, List.map_congr_left fun p _ => ?_]
  dsimp only [Function.comp]
  split
  · exact hf p
  · rfl

/-- Context `c` keeps these, and the clock stands. -/
structure KeepsHeads (c : Nat) (s u : State) : Prop where
  heads : (u.ctx c).heads = (s.ctx c).heads
  clock : u.pcyc = s.pcyc

section heads
variable {c : Nat} {s u w : State}

theorem KeepsHeads.refl : KeepsHeads c s s := ⟨rfl, rfl⟩
theorem KeepsHeads.trans (h : KeepsHeads c s u) (h' : KeepsHeads c u w) : KeepsHeads c s w :=
  ⟨h'.heads.trans h.heads, h'.clock.trans h.clock⟩
theorem KeepsHeads.of_ctxs (h : u.ctxs = s.ctxs ∧ u.pcyc = s.pcyc) : KeepsHeads c s u := ⟨congrArg Ctx.heads (ctx_of_ctxs h.1 c), h.2⟩

theorem KeepsHeads.foldl {α : Type} {f : State → α → State} (hf : ∀ v x, KeepsHeads c v (f v x)) (l : List α) (s : State) :
    KeepsHeads c s (l.foldl f s) :=
  List.foldlRecOn l f (motive := fun u : State => KeepsHeads c s u) .refl fun _ hu x _ => hu.trans (hf _ x)

theorem KeepsHeads.setCtx {x : Ctx} (h : x.heads = (s.ctx c).heads) : KeepsHeads c s (s.setCtx c x) :=
  ⟨(congrArg Ctx.heads (State.setCtx_ctx_self ..)).trans h, rfl⟩

theorem KeepsHeads.updOpen {f : Snap → Snap} (hf : ∀ p, (f p).head = p.head) (s : State) :
    KeepsHeads c s (s.setCtx c ((s.ctx c).updOpen f)) :=
  .setCtx (Ctx.heads_updOpen hf _)

theorem passAgent_heads (a : Nat) (s : State) : KeepsHeads c s (passAgent c a s) := by
  unfold passAgent
  split
  · exact .updOpen (by intro; rfl) s
  · exact .refl

theorem addRecord_heads (r : ActorRec) (s : State) : KeepsHeads c s (addRecord c r s) := (KeepsHeads.updOpen (by intro; rfl) s).trans (passAgent_heads ..)

theorem recordMembers_heads (slot : Nat) (f : End → Bool) (s : State) : KeepsHeads c s (recordMembers c slot f s) := by
  unfold recordMembers
  refine .foldl (fun v j => .foldl (fun v m => ?_) _ _) _ _
  split
  · exact .updOpen (by intro; rfl) v
  · exact .refl

theorem recordActor_heads (slot k : Nat) (quiet : Bool) (s : State) : KeepsHeads c s (recordActor c slot k quiet s) := by
  unfold recordActor
  refine .trans ?_ (addRecord_heads ..)
  refine .trans ?_ (.foldl (fun v p => ?_) _ _)
  · refine .trans ?_ (recordMembers_heads ..)
    exact .of_ctxs ⟨rfl, rfl⟩
  · split
    · exact .refl
    · split
      · exact .refl
      · split
        · exact .updOpen (by intro; rfl) v
        · exact .of_ctxs ⟨rfl, rfl⟩

theorem recordIdle_heads (slot : Nat) (s : State) : KeepsHeads c s (recordIdle c slot s) := by
  unfold recordIdle
  refine .trans ?_ (.updOpen (by intro; rfl) _)
  refine .trans (u := recordMembers c slot (fun _ => true) _) ?_ (.of_ctxs ⟨rfl, rfl⟩)
  refine .trans ?_ (recordMembers_heads ..)
  refine .foldl (fun v k => ?_) _ _
  refine .trans ?_ (addRecord_heads ..)
  exact .of_ctxs ⟨rfl, rfl⟩

theorem updMem_keeps (g m : Nat) (f : MemActor → MemActor) (s : State) : (updMem c g m f s).ctxs = s.ctxs ∧ (updMem c g m f s).pcyc = s.pcyc := by
  unfold updMem
  split <;> exact ⟨rfl, rfl⟩

theorem updGraph_keeps (g : Nat) (f : Graph → Graph) (s : State) : (updGraph c g f s).ctxs = s.ctxs ∧ (updGraph c g f s).pcyc = s.pcyc := by
  unfold updGraph
  split <;> exact ⟨rfl, rfl⟩

theorem engineSend_keeps (key : Nat) (tok : Token) (s : State) : (engineSend key tok s).ctxs = s.ctxs ∧ (engineSend key tok s).pcyc = s.pcyc := by
  unfold engineSend
  split <;> exact ⟨rfl, rfl⟩

theorem writeWindow_keeps (key : Nat) (tok : Token) (s : State) : (writeWindow key tok s).ctxs = s.ctxs ∧ (writeWindow key tok s).pcyc = s.pcyc := by
  unfold writeWindow
  split <;> exact ⟨rfl, rfl⟩

theorem sendToken_clock (key : Nat) (tok : Token) (s : State) : (sendToken key tok s).pcyc = s.pcyc := by
  unfold sendToken
  dsimp only
  (repeat' split) <;> rfl

theorem injectSnap_heads (slot : Nat) (s : State) : KeepsHeads c s (injectSnap c slot s) := by
  unfold injectSnap
  refine .trans (.trans (.trans (.foldl (fun v d => ?mems) _ _) (.foldl (fun v t => ?copies) _ _)) (.foldl (fun v e => ?arcs) _ _))
    (.foldl (fun v k => ?actors) _ _)
  case mems =>
    dsimp only
    split
    · split
      · exact .trans (.trans (.of_ctxs (engineSend_keeps ..)) (.of_ctxs (updMem_keeps ..))) (passAgent_heads ..)
      · exact .of_ctxs (updMem_keeps ..)
    · split
      · exact .trans (.of_ctxs (engineSend_keeps ..)) (passAgent_heads ..)
      · exact .refl
    · split
      · exact .trans (.of_ctxs (updMem_keeps ..)) (passAgent_heads ..)
      · exact .refl
  case copies =>
    dsimp only
    split
    · split
      · exact .trans (.of_ctxs (writeWindow_keeps ..)) (passAgent_heads ..)
      · exact .of_ctxs (writeWindow_keeps ..)
    · exact passAgent_heads ..
  case arcs =>
    dsimp only
    split
    · exact .of_ctxs ⟨sendToken_ctxs .., sendToken_clock ..⟩
    · exact .refl
  case actors =>
    split
    · exact passAgent_heads ..
    · split
      · exact recordActor_heads ..
      · split
        · exact (recordActor_heads ..).trans (.of_ctxs (updGraph_keeps ..))
        · exact .refl

/-- Of the context, clearing the marks changes what is saved only. -/
theorem clearMarks_ctx (id : Nat) (s : State) : (∃ v, (clearMarks c id s).ctx c = { s.ctx c with saved := v }) ∧
    (clearMarks c id s).pcyc = s.pcyc ∧ (clearMarks c id s).memories = s.memories := by
  unfold clearMarks
  dsimp only
  split
  · exact ⟨⟨_, rfl⟩, rfl, rfl⟩
  · exact ⟨⟨_, State.setCtx_ctx_self ..⟩, rfl, rfl⟩

theorem clearMarks_heads (id : Nat) (s : State) : KeepsHeads c s (clearMarks c id s) := by
  obtain ⟨⟨v, hctx⟩, hclock, -⟩ := clearMarks_ctx (c := c) id s
  exact ⟨by rw [hctx]; rfl, hclock⟩

end heads

/-! ## The open point (R406, R407) -/

section opening
variable {s : State} {c : Nat} {p : Snap}

/-- A requested snapshot as it opens. -/
def opens (s : State) (c : Nat) (p : Snap) : Snap :=
  let x := s.ctx c
  let mine := s.graphs.filter fun e => e.1 / 256 = c
  let held := mine.filter fun e => e.2.state == .saved
  { p with state := .opened, pol := !x.pol, seed := x.seed, prev := (x.newestSealed.map Snap.id).getD 0, epoch := x.epoch
           graphs := mine.map fun e => { slot := e.1 % 256, handle := e.2.handle, mode := e.2.mode, seed := e.2.seed
                                         positions := e.2.mems.map MemActor.next, unstaged := !e.2.everStaged
                                         latched := e.2.flows || e.2.state == .saved || e.2.keepSeed : GraphRec }
           pending := ((mine.filter fun e => e.2.flows) ++ held).flatMap fun e => agentsOf (e.1 % 256) e.2
           colours := x.drawn.foldl (fun m k => if x.returned.contains k then m else mset m k 1) []
           sqns := seqNumbers s c, deferred := held.map fun e => e.1 % 256 }

/-- The context with the snapshot open. -/
def openedCtx (s : State) (c : Nat) (p : Snap) : State :=
  s.setCtx c { s.ctx c with
    pol := !(s.ctx c).pol, sweep := some 0, stored := none, snaps := (s.ctx c).snaps.map fun r => if r.id = p.id then opens s c p else r }

/-- The markers are on their way. -/
def markersIn (s : State) (c : Nat) (p : Snap) : State :=
  let mine := s.graphs.filter fun e => e.1 / 256 = c
  let v := clearMarks c p.id (openedCtx s c p)
  let v := mine.foldl (fun s e => recordMembers c (e.1 % 256) isSeqCx s) v
  let v := (mine.filter fun e => e.2.rests).foldl (fun s e => recordIdle c (e.1 % 256) s) v
  (mine.filter fun e => e.2.flows).foldl (fun s e => injectSnap c (e.1 % 256) s) v

theorem execSnapOpenPoint_opens (h : (s.ctx c).snaps.find? (fun p => decide (p.state = .requested)) = some p) :
    execSnapOpenPoint c s = .next ((markersIn s c p).later (.sweeperVisit c)) := by
  have hfind : (s.ctx c).snaps.find? (fun p => p.state == .requested) = some p := h
  unfold execSnapOpenPoint
  dsimp only
  rw [hfind]
  rfl

theorem markersIn_heads (s : State) (c : Nat) (p : Snap) : KeepsHeads c (openedCtx s c p) (markersIn s c p) := by
  unfold markersIn
  refine .trans (.trans (.trans (clearMarks_heads ..) (.foldl (fun v e => recordMembers_heads ..) _ _))
    (.foldl (fun v e => recordIdle_heads ..) _ _)) (.foldl (fun v e => injectSnap_heads ..) _ _)

theorem execSnapOpenPoint_spec (h : (s.ctx c).snaps.find? (fun p => decide (p.state = .requested)) = some p) :
    ∃ u, execSnapOpenPoint c s = .next u ∧ (u.ctx c).pol = !(s.ctx c).pol ∧ (u.ctx c).sweep = some 0 ∧ setLater s u (.sweeperVisit c) ∧
      ∃ q : Snap, q ∈ (u.ctx c).snaps ∧ q.id = p.id ∧ q.state = .opened ∧ q.prev = ((s.ctx c).newestSealed.map Snap.id).getD 0 ∧
        q.seed = (s.ctx c).seed ∧ q.pol = !(s.ctx c).pol := by
  obtain ⟨hheads, hclock⟩ := markersIn_heads s c p
  unfold openedCtx at hheads
  rw [State.setCtx_ctx_self] at hheads
  obtain ⟨hpol, hrest⟩ := Prod.ext_iff.1 hheads
  obtain ⟨hsweep, hsnaps⟩ := Prod.ext_iff.1 hrest
  refine ⟨_, execSnapOpenPoint_opens h, hpol, hsweep, setLater_later hclock _, ?_⟩
  · have hmem : (opens s c p).head ∈ (((markersIn s c p).ctx c).snaps.map Snap.head) := by
      refine Eq.subst (motive := fun l => (opens s c p).head ∈ l) hsnaps.symm ?_
      exact List.mem_map_of_mem (List.mem_map.2 ⟨p, List.mem_of_find?_eq_some h, if_pos rfl⟩)
    obtain ⟨q, hq, hhead⟩ := List.mem_map.1 hmem
    obtain ⟨hid, hhead⟩ := Prod.ext_iff.1 hhead
    obtain ⟨hstate, hhead⟩ := Prod.ext_iff.1 hhead
    obtain ⟨hprev, hhead⟩ := Prod.ext_iff.1 hhead
    obtain ⟨hseed, hqpol⟩ := Prod.ext_iff.1 hhead
    exact ⟨q, hq, hid, hstate, hprev, hseed, hqpol⟩

end opening

/-! ## The sweeper (R413, R415) -/

theorem exec_sweeperVisit (c : Nat) (s : State) : exec (.sweeperVisit c) s = execSweeperVisit c s := rfl

/-- Two states that differ in their translation units only. -/
def XlatsOnly (s u : State) : Prop := u = { s with xlats := u.xlats }

theorem partWalk_xlats {die c va : Nat} {s : State} : EndIs (XlatsOnly s) (partWalk die c va s) := by
  unfold partWalk
  dsimp only
  split
  · exact .fault rfl
  · split
    · exact .hold
    · split
      · exact .ok rfl
      · exact .fault rfl

theorem partLeaf_xlats {die c va : Nat} {need : Need} {s : State} : EndIs (XlatsOnly s) (partLeaf die c va need s) := by
  unfold partLeaf
  split
  · exact .fault rfl
  · refine .bind ?_ fun t u hu => ?_
    · split
      · split
        · exact partWalk_xlats
        · exact .ok rfl
      · exact partWalk_xlats
    · split
      · exact .ok hu
      · exact .fault hu

section capture
variable {c : Nat} {s : State} {p : Snap}

/-- A page captured: its record in the open snapshot, its leaf taken and clean. -/
def captured (c place : Nat) (r : PageRec) (fresh : Nat) (pol : Bool) (s : State) : State :=
  clearDirty place (updLeaf place (fun e => Leaf.setBit (Leaf.setBit e 55 pol) 56 false)
    (s.setCtx c ((s.ctx c).updSnap fun p => { p with pages := insertPage r p.pages, newCopies := p.newCopies + fresh })))

theorem mem_insertPage (r : PageRec) : ∀ l, r ∈ insertPage r l
  | [] => List.mem_singleton_self r
  | q :: l => by
    unfold insertPage
    split
    · exact List.mem_cons_self
    · split
      · exact List.mem_cons_self
      · exact List.mem_cons_of_mem _ (mem_insertPage r l)

theorem readEntry_captured (place : Nat) (r : PageRec) (fresh : Nat) (pol : Bool) : Leaf.s (readEntry (captured c place r fresh pol s) place) = pol ∧
    Leaf.d (readEntry (captured c place r fresh pol s) place) = false := by
  have hread := readEntry_updLeaf place (fun e => Leaf.setBit (Leaf.setBit e 55 pol) 56 false)
    (s.setCtx c ((s.ctx c).updSnap fun p => { p with pages := insertPage r p.pages, newCopies := p.newCopies + fresh }))
  have hmem : readEntry (captured c place r fresh pol s) place = _ := hread
  rw [hmem, Leaf.s, Leaf.d, Leaf.bitOf_setBit (by decide), Leaf.bitOf_setBit (by decide), Leaf.bitOf_setBit (by decide)]
  exact ⟨rfl, rfl⟩

theorem captured_ctx (place : Nat) (r : PageRec) (fresh : Nat) (pol : Bool) : (captured c place r fresh pol s).ctx c =
    (s.ctx c).updSnap fun p => { p with pages := insertPage r p.pages, newCopies := p.newCopies + fresh } := State.setCtx_ctx_self ..

/-- The record stands in the open snapshot. -/
theorem mem_captured (hopen : (s.ctx c).snapOpen = some p) (place : Nat) (r : PageRec) (fresh : Nat) (pol : Bool) :
    ∃ q : Snap, q ∈ ((captured c place r fresh pol s).ctx c).snaps ∧ q.id = p.id ∧ r ∈ q.pages := by
  have hmem : p ∈ (s.ctx c).snaps := List.mem_of_find?_eq_some hopen
  have hopened : (p.state == .opened) = true := List.find?_some (p := fun p : Snap => p.state == .opened) hopen
  rw [captured_ctx]
  refine ⟨{ p with pages := insertPage r p.pages, newCopies := p.newCopies + fresh }, List.mem_map.2 ⟨p, hmem, ?_⟩, rfl, mem_insertPage ..⟩
  rw [hopened]
  rfl

theorem capture_kept {va place : Nat} {e : Word} {r : PageRec} (hopen : (s.ctx c).snapOpen = some p) (hd : Leaf.d e = false)
    (hkept : keptCopy (s.ctx c) va = some r) : capture c va e place s =
      .ok () (captured c place { r with vpn := va / 65536, size := Leaf.size e } 0 (s.ctx c).pol s) := by
  unfold capture
  dsimp only
  rw [hopen]
  dsimp only
  rw [hd, if_neg (by decide), hkept]
  rfl

theorem takeCellar_ctx (off n : Nat) (s : State) : (takeCellar c off n s).ctx c = { s.ctx c with cellarUsed := (s.ctx c).cellarUsed ++ [(off, n)] } :=
  State.setCtx_ctx_self ..

theorem FarCellar.takeCellar (h : FarCellar s c) (off n : Nat) : FarCellar (takeCellar c off n s) c := by
  obtain ⟨hgood, hplace, hreached⟩ := h
  refine ⟨by rw [takeCellar_ctx, hgood], by rw [takeCellar_ctx, hplace], ?_⟩
  exact (peerReached_congr (s := s) (u := Machine.takeCellar c off n s) (by rw [takeCellar_ctx]) rfl fun _ => rfl).trans hreached

/-- A page without a copy that still holds is copied to a far cellar. -/
theorem capture_copied {va place off : Nat} {e : Word} (hopen : (s.ctx c).snapOpen = some p)
    (hnone : (if Leaf.d e then none else keptCopy (s.ctx c) va) = none) (hslot : cellarSlot (s.ctx c) (Leaf.bytes e) = some off)
    (htest : underTest s (Leaf.pa e) = none) (hnode : (s.xlat (homeDie s (Leaf.pa e))).nodeBad = false) (hfar : FarCellar s c) :
    ∃ w, capture c va e place s = .ok () (captured c place { vpn := va / 65536, size := Leaf.size e, holder := p.id, coff := off } 1 (s.ctx c).pol w) ∧
      PeerOnly (takeCellar c off (Leaf.bytes e) s) w := by
  obtain ⟨w, hw, honly, -⟩ := toCellar_far (n := Leaf.bytes e / 65536) (hfar.takeCellar off (Leaf.bytes e)) (homeDie s (Leaf.pa e)) (Leaf.pa e) off
  refine ⟨w, ?_, honly⟩
  unfold capture
  dsimp only
  rw [hopen]
  dsimp only
  rw [hnone]
  dsimp only
  rw [hslot]
  dsimp only
  rw [htest, if_neg (by decide), hnode, if_neg (by decide), hw]
  rfl

end capture

section sweeper
variable {c : Nat} {s : State} {p : Snap} {va : Nat} (hsweep : (s.ctx c).sweep = some va) (hopen : (s.ctx c).snapOpen = some p)
include hsweep hopen

theorem execSweeperVisit_end (h : (leaves s c).find? (fun l => decide (va ≤ l.1)) = none) :
    execSweeperVisit c s = .next (s.setCtx c { s.ctx c with sweep := none }) := by
  unfold execSweeperVisit
  dsimp only
  rw [hsweep, hopen]
  dsimp only
  rw [h]

variable {v place : Nat} {e : Word} (hleaf : (leaves s c).find? (fun l => decide (va ≤ l.1)) = some (v, place, e))
include hleaf

/-- The sweeper behind a leaf. -/
def passedLeaf (c v : Nat) (e : Word) (s : State) : State := s.setCtx c { s.ctx c with sweep := some (v + Leaf.bytes e) }

/-- Is a leaf to be captured (R415)? -/
def leafDue (s : State) (c v : Nat) (e : Word) : Bool := Leaf.w e && Leaf.s e != (s.ctx c).pol && !neverCaptured (s.ctx c) v (Leaf.bytes e)

theorem execSweeperVisit_waits (hdue : leafDue s c v e = true) (hwait : Leaf.state e = 4 ∨ Leaf.cmt e = true) :
    execSweeperVisit c s = .next (s.later (.sweeperVisit c)) := by
  unfold execSweeperVisit
  dsimp only
  rw [hsweep, hopen]
  dsimp only
  rw [hleaf]
  exact if_pos (by rw [Bool.and_eq_true]; exact ⟨hdue, by simpa using hwait⟩)

theorem execSweeperVisit_passes (h : leafDue s c v e = false ∨ (¬ (Leaf.state e = 4 ∨ Leaf.cmt e = true) ∧ Leaf.isHome e = false)) :
    execSweeperVisit c s = .next ((passedLeaf c v e s).later (.sweeperVisit c)) := by
  unfold execSweeperVisit
  dsimp only
  rw [hsweep, hopen]
  dsimp only
  rw [hleaf]
  refine (if_neg ?_).trans (if_neg ?_)
  all_goals
    rw [Bool.and_eq_true]
    rintro ⟨hdue, hcond⟩
    have hdue' : leafDue s c v e = true := hdue
    rcases h with h | ⟨h, hhome⟩
    · simp [h] at hdue'
    · simp_all

variable (hdue : leafDue s c v e = true) (hready : ¬ (Leaf.state e = 4 ∨ Leaf.cmt e = true)) (hhome : Leaf.isHome e = true)
include hdue hready hhome

theorem execSweeperVisit_home : execSweeperVisit c s = if !leafMatches s e then .next (failSnap c 3 s) else
    match partLeaf (homeDie s (Leaf.pa e)) c v .write s with
    | .fault s => .next (failSnap c 3 s)
    | .hold c' p => .next ((copyFirst c' p s).later (.sweeperVisit c))
    | .ok t s =>
      match capture c v (Leaf.setField e 16 36 (bitsOf t.leaf.toNat 16 36)) place s with
      | .ok _ s => .next ((passedLeaf c v e s).later (.sweeperVisit c))
      | .fault s => .next ((passedLeaf c v e s).later (.sweeperVisit c))
      | .hold c' p => .next ((copyFirst c' p s).later (.sweeperVisit c)) := by
  unfold execSweeperVisit
  dsimp only
  rw [hsweep, hopen]
  dsimp only
  rw [hleaf]
  refine (if_neg ?_).trans ((if_pos ?_).trans rfl)
  · rw [Bool.and_eq_true]
    exact fun h => hready (by simpa using h.2)
  · rw [Bool.and_eq_true]
    exact ⟨hdue, hhome⟩

theorem execSweeperVisit_captured {t : TlbEntry} {y w : State} {r : PageRec} {fresh : Nat} (hmatch : leafMatches s e = true)
    (hpart : partLeaf (homeDie s (Leaf.pa e)) c v .write s = .ok t y) (hpa : bitsOf t.leaf.toNat 16 36 = bitsOf e.toNat 16 36)
    (hcap : capture c v e place y = .ok () (captured c place r fresh (s.ctx c).pol w)) (hw : (w.ctx c).snapOpen = some p) (hclock : w.pcyc = s.pcyc)
    (hvpn : r.vpn = v / 65536) (hsize : r.size = Leaf.size e) :
    ∃ u, execSweeperVisit c s = .next u ∧ (u.ctx c).sweep = some (v + Leaf.bytes e) ∧ Leaf.s (readEntry u place) = (s.ctx c).pol ∧
      Leaf.d (readEntry u place) = false ∧ setLater s u (.sweeperVisit c) ∧
      ∃ (q : Snap) (r : PageRec), q ∈ (u.ctx c).snaps ∧ q.id = p.id ∧ r ∈ q.pages ∧ r.vpn = v / 65536 ∧ r.size = Leaf.size e := by
  obtain ⟨hs, hd⟩ := readEntry_captured (c := c) (s := w) place r fresh (s.ctx c).pol
  obtain ⟨q, hq, hid, hr⟩ := mem_captured hw place r fresh (s.ctx c).pol
  refine ⟨(passedLeaf c v e (captured c place r fresh (s.ctx c).pol w)).later (.sweeperVisit c), ?_, ?_, hs, hd, setLater_later hclock _, q, r, ?_, hid,
    hr, hvpn, hsize⟩
  · rw [execSweeperVisit_home hsweep hopen hleaf hdue hready hhome, hmatch, hpart]
    dsimp only
    rw [hpa, Leaf.setField_self (by decide) rfl, hcap]
    rfl
  · show ((State.setCtx _ c _).ctx c).sweep = _
    rw [State.setCtx_ctx_self]
  · show q ∈ ((State.setCtx _ c _).ctx c).snaps
    rw [State.setCtx_ctx_self]
    exact hq

theorem execSweeperVisit_spec {t : TlbEntry} {y : State} (hmatch : leafMatches s e = true)
    (hpart : partLeaf (homeDie s (Leaf.pa e)) c v .write s = .ok t y) (hpa : bitsOf t.leaf.toNat 16 36 = bitsOf e.toNat 16 36)
    (h : (Leaf.d e = false ∧ keptCopy (s.ctx c) v ≠ none) ∨ ((s.ctx c).cellar.place = 1 ∧ cellarSlot (s.ctx c) (Leaf.bytes e) ≠ none ∧
      underTest s (Leaf.pa e) = none ∧ (y.xlat (homeDie s (Leaf.pa e))).nodeBad = false ∧ (s.ctx c).cellarBad = false ∧ peerReached s c = true)) :
    ∃ u, execSweeperVisit c s = .next u ∧ (u.ctx c).sweep = some (v + Leaf.bytes e) ∧ Leaf.s (readEntry u place) = (s.ctx c).pol ∧
      Leaf.d (readEntry u place) = false ∧ setLater s u (.sweeperVisit c) ∧
      ∃ (q : Snap) (r : PageRec), q ∈ (u.ctx c).snaps ∧ q.id = p.id ∧ r ∈ q.pages ∧ r.vpn = v / 65536 ∧ r.size = Leaf.size e := by
  have honly : XlatsOnly s y := partLeaf_xlats.of_ok hpart
  have hctx : y.ctx c = s.ctx c := ctx_of_ctxs (by rw [honly]) c
  have hyopen : (y.ctx c).snapOpen = some p := by rw [hctx, hopen]
  have hclock : y.pcyc = s.pcyc := by rw [honly]
  cases hkept : (if Leaf.d e then none else keptCopy (y.ctx c) v) with
  | some r =>
    obtain ⟨hd, hkept⟩ := Option.ite_none_left_eq_some.1 hkept
    have hcap := capture_kept (place := place) hyopen (Bool.eq_false_iff.2 hd) hkept
    rw [hctx] at hcap
    exact execSweeperVisit_captured hsweep hopen hleaf hdue hready hhome hmatch hpart hpa hcap hyopen hclock rfl rfl
  | none =>
    have hfar := h.resolve_left fun ⟨hd, hne⟩ => hne (by rwa [hd, if_neg (by decide), hctx] at hkept)
    obtain ⟨hplace, hslot, htest, hnode, hgood, hreached⟩ := hfar
    obtain ⟨off, hoff⟩ := Option.ne_none_iff_exists'.1 hslot
    have hyfar : FarCellar y c := FarCellar.of_peers ⟨hgood, hplace, hreached⟩ (by rw [honly]; exact ⟨rfl, rfl, fun _ => rfl⟩)
    obtain ⟨w, hcap, hw⟩ := capture_copied (place := place) hyopen hkept (by rw [hctx, hoff]) (by rw [honly]; exact htest)
      (by rw [show homeDie y (Leaf.pa e) = homeDie s (Leaf.pa e) by rw [honly]; rfl]; exact hnode) hyfar
    have hwctxs : w.ctxs = (takeCellar c off (Leaf.bytes e) y).ctxs := by rw [hw]
    have hwctx : (w.ctx c).snaps = (y.ctx c).snaps := by rw [ctx_of_ctxs hwctxs, takeCellar_ctx]
    rw [hctx] at hcap
    exact execSweeperVisit_captured hsweep hopen hleaf hdue hready hhome hmatch hpart hpa hcap
      (by rw [← hyopen, Ctx.snapOpen, hwctx, Ctx.snapOpen]) (by rw [hw]; exact hclock) rfl rfl

end sweeper

/-! ## Sealing (R416 to R418) -/

section sealing
variable {c : Nat} {s : State} {p : Snap}

/-- A snapshot as its sealing begins: the channel states and positions join the record. -/
def seals (s : State) (c : Nat) (p : Snap) : Snap :=
  { p with
    state := .sealing
    channels := s.arcs.foldl (fun m e =>
      if (e.1 / 4096 = c || e.1 / 4096 = c + 64) && !e.2.recorded.isEmpty then mset m e.1 e.2.recorded else m) p.channels
    overdraw := s.arcs.foldl (fun m e =>
      if (e.1 / 4096 = c || e.1 / 4096 = c + 64) && 0 < e.2.overdrawAt then mset m e.1 (mget 0 m e.1 + e.2.overdrawAt) else m) p.overdraw
    graphs := p.graphs.map fun r =>
      match s.graph? c r.slot with
      | some g => { r with positions := g.mems.zipIdx.map fun m => m.1.snapPos.getD (r.positions.getD m.2 0) }
      | none => r }

theorem execSnapshotSealing_seals (h : canSeal s c = true) :
    execSnapshotSealing c s = .next ((s.setCtx c ((s.ctx c).updSnap (seals s c))).later (.sealComplete c)) := if_neg (by simp [h])

theorem execSnapshotSealing_spec (hopen : (s.ctx c).snapOpen = some p) (hcan : canSeal s c = true) :
    ∃ u, execSnapshotSealing c s = .next u ∧
      (∃ q : Snap, q ∈ (u.ctx c).snaps ∧ q.id = p.id ∧ q.state = .sealing ∧ q.pages = p.pages ∧ q.actors = p.actors) ∧
      setLater s u (.sealComplete c) ∧ keepsMemory s u := by
  have hmem : p ∈ (s.ctx c).snaps := List.mem_of_find?_eq_some hopen
  have hopened : (p.state == .opened) = true := List.find?_some (p := fun p : Snap => p.state == .opened) hopen
  refine ⟨_, execSnapshotSealing_seals hcan, ⟨seals s c p, ?_, rfl, rfl, rfl, rfl⟩, setLater_later rfl _, keepsMemory_of_memories rfl⟩
  show _ ∈ ((s.setCtx c _).ctx c).snaps
  rw [State.setCtx_ctx_self]
  exact List.mem_map.2 ⟨p, hmem, if_pos hopened⟩

/-- With no more than KEEP snapshots SEALED, none is discarded (R418). -/
theorem retain_within (n : Nat) (h : ((s.ctx c).snaps.filter fun p => p.state == .sealed).length ≤ (s.ctx c).cellar.keep) : retain c n s = s := by
  cases n with
  | zero => rfl
  | succ n =>
    unfold retain
    dsimp only
    split
    · exact if_pos (by simp [h])
    · rfl

theorem writeEntries_far (off : Nat) (l : List PageRec) {s : State} (h : FarCellar s c) : FarEnd s (writeEntries c off l s) := by
  induction l generalizing off s with
  | nil => exact ⟨s, rfl, rfl, ⟨rfl, rfl, fun _ => rfl⟩⟩
  | cons r l ih => exact (cellarBytes_far h _ _ _).bind fun u _ hp => ih _ (h.of_peers hp)

theorem writePrivate_far (k off n : Nat) {s : State} (h : FarCellar s c) : FarEnd s (writePrivate c k off n s) := by
  induction n generalizing off k s with
  | zero => exact ⟨s, rfl, rfl, ⟨rfl, rfl, fun _ => rfl⟩⟩
  | succ n ih => exact (cellarBytes_far h _ _ _).bind fun u _ hp => ih _ _ (h.of_peers hp)

/-- A snapshot is sealed: its inventory is in place and it is the newest. -/
def sealedAs (c : Nat) (p : Snap) (off : Nat) (s : State) : State :=
  let v := updSnapId c p.id (fun p => { p with state := .sealed, inventory := off }) s
  v.setCtx c { v.ctx c with snapid := p.id }

theorem sealedAs_ctx (off : Nat) : (sealedAs c p off s).ctx c = { s.ctx c with
    snapid := p.id
    snaps := (s.ctx c).snaps.map fun q => if q.id = p.id then { q with state := .sealed, inventory := off } else q } := by
  unfold sealedAs updSnapId
  dsimp only
  rw [State.setCtx_ctx_self, State.setCtx_ctx_self]

/-- Where the far cellar takes the inventory and the records (R417). -/
theorem execSealComplete_seals {off : Nat} (hp : (s.ctx c).snaps.find? (fun p => decide (p.state = .sealing)) = some p) (hfar : FarCellar s c)
    (hslot : cellarSlot (s.ctx c) 65536 ≠ none)
    (hoff : ((List.range ((s.ctx c).cellar.csize / 65536)).map (· * 65536)).find? (fun o =>
      decide (o + sealBytes p ≤ (s.ctx c).cellar.csize) && (s.ctx c).cellarUsed.all fun u => !meets o (sealBytes p) u.1 u.2) = some off) :
    ∃ w, execSealComplete c s = .next (retain c 8 (sealedAs c p off w)) ∧ w.ctxs = (takeCellar c off (sealBytes p) s).ctxs ∧ w.mem = s.mem := by
  obtain ⟨o, ho⟩ := Option.ne_none_iff_exists'.1 hslot
  have hfind : (s.ctx c).snaps.find? (fun p => p.state == .sealing) = some p := hp
  obtain ⟨u, hu, honly, hpeers⟩ := cellarBytes_far (hfar.takeCellar off (sealBytes p)) 0 off
    (bytesLE (inventoryHeader c p (off + inventoryBytes p)) 64)
  have hufar := (hfar.takeCellar off (sealBytes p)).of_peers hpeers
  obtain ⟨v, hv, honly', hpeers'⟩ := writeEntries_far (off + 64) p.pages hufar
  have hvfar := hufar.of_peers hpeers'
  obtain ⟨w, hw, honly'', -⟩ := writePrivate_far v.freeCount (off + inventoryBytes p) ((privateBytes p + 7) / 8)
    (s := { v with freeCount := v.freeCount + (privateBytes p + 7) / 8 }) ⟨hvfar.good, hvfar.place, hvfar.reached⟩
  refine ⟨w, ?_, ?_, ?_⟩
  · unfold execSealComplete
    dsimp only
    rw [hfind]
    dsimp only
    rw [ho, Option.bind_some, hoff]
    dsimp only
    rw [hu]
    dsimp only [PartEnd.bind]
    rw [hv]
    dsimp only
    rw [hw]
    rfl
  · rw [honly'']
    exact hpeers'.ctxs.trans hpeers.ctxs
  · rw [honly'']
    change v.mem = s.mem
    rw [honly', honly]
    rfl

theorem execSealComplete_spec {off : Nat} (hp : (s.ctx c).snaps.find? (fun p => decide (p.state = .sealing)) = some p) (hfar : FarCellar s c)
    (hslot : cellarSlot (s.ctx c) 65536 ≠ none)
    (hoff : ((List.range ((s.ctx c).cellar.csize / 65536)).map (· * 65536)).find? (fun o =>
      decide (o + sealBytes p ≤ (s.ctx c).cellar.csize) && (s.ctx c).cellarUsed.all fun u => !meets o (sealBytes p) u.1 u.2) = some off)
    (hkeep : ((s.ctx c).snaps.filter fun q => q.state = .sealed ∨ q.id = p.id).length ≤ (s.ctx c).cellar.keep) :
    ∃ u, execSealComplete c s = .next u ∧ (u.ctx c).snapid = p.id ∧
      (∃ q : Snap, q ∈ (u.ctx c).snaps ∧ q.id = p.id ∧ q.state = .sealed ∧ q.inventory = off) ∧ u.mem = s.mem ∧
      (off, sealBytes p) ∈ (u.ctx c).cellarUsed := by
  obtain ⟨w, hexec, hctxs, hmem⟩ := execSealComplete_seals hp hfar hslot hoff
  have hctx := (ctx_of_ctxs hctxs c).trans (takeCellar_ctx ..)
  have hsealed : (sealedAs c p off w).ctx c = _ := sealedAs_ctx off
  have hretain : retain c 8 (sealedAs c p off w) = sealedAs c p off w := by
    refine retain_within 8 ?_
    rw [hsealed, hctx]
    dsimp only
    rw [List.filter_map, List.length_map]
    refine (Nat.le_of_eq (congrArg List.length (List.filter_congr fun q _ => ?_))).trans hkeep
    dsimp only [Function.comp]
    by_cases hq : q.id = p.id
    · rw [if_pos hq]
      simp only [hq, or_true]
      rfl
    · rw [if_neg hq]
      simp only [hq, or_false]
      rfl
  refine ⟨_, hexec, ?_⟩
  rw [hretain, hsealed, hctx]
  refine ⟨rfl, ⟨{ p with state := .sealed, inventory := off }, ?_, rfl, rfl, rfl⟩, hmem, List.mem_append_right _ List.mem_cons_self⟩
  exact List.mem_map.2 ⟨p, List.mem_of_find?_eq_some hp, if_pos rfl⟩

theorem execSealComplete_full (hp : (s.ctx c).snaps.find? (fun p => decide (p.state = .sealing)) = some p)
    (hslot : cellarSlot (s.ctx c) 65536 = none) : execSealComplete c s = .next (failSnap c 1 s) := by
  have hfind : (s.ctx c).snaps.find? (fun p => p.state == .sealing) = some p := hp
  unfold execSealComplete
  dsimp only
  rw [hfind]
  dsimp only
  rw [hslot, Option.bind_none]

end sealing

/-! ## Failure (R419) -/

section failure
variable {c : Nat} {s : State}

/-- A failed snapshot. -/
def failed (why : Nat) (p : Snap) : Snap := { p with state := .failed, reason := why, pending := [], deferred := [] }

/-- The context without what the failed snapshot held. -/
def failedCtx (c why : Nat) (p : Snap) (s : State) : State :=
  let v := updSnapId c p.id (failed why) s
  freeCopies c ((v.cancel (.snapOpenPoint c)).setCtx c { v.ctx c with sweep := none, failSweep := true })

theorem cancel_keeps (i : Instr) (s : State) : (s.cancel i).ctxs = s.ctxs ∧ (s.cancel i).pcyc = s.pcyc ∧ (s.cancel i).memories = s.memories := by
  unfold State.cancel
  split <;> exact ⟨rfl, rfl, rfl⟩

theorem execSnapshotFail_fails {p : Snap} (why : Nat) (h : (s.ctx c).busySnap = some p) :
    execSnapshotFail c why s = .next ((clearMarks c 0 (failedCtx c why p s)).later (.failureSweepEnd c)) := by
  unfold execSnapshotFail
  dsimp only
  rw [h]
  rfl

theorem failedCtx_spec (why : Nat) (p : Snap) : (∃ used, (failedCtx c why p s).ctx c = { s.ctx c with
      snaps := (s.ctx c).snaps.map fun q => if q.id = p.id then failed why q else q
      sweep := none, failSweep := true, cellarUsed := used }) ∧
    (failedCtx c why p s).pcyc = s.pcyc ∧ (failedCtx c why p s).memories = s.memories := by
  obtain ⟨-, hclock, hmem⟩ := cancel_keeps (.snapOpenPoint c) (updSnapId c p.id (failed why) s)
  refine ⟨?_, hclock, hmem⟩
  unfold failedCtx freeCopies updSnapId
  dsimp only
  simp only [State.setCtx_ctx_self]
  exact ⟨_, rfl⟩

theorem execSnapshotFail_spec {p : Snap} (why : Nat) (h : (s.ctx c).busySnap = some p) : ∃ u, execSnapshotFail c why s = .next u ∧
    (∃ q : Snap, q ∈ (u.ctx c).snaps ∧ q.id = p.id ∧ q.state = .failed ∧ q.reason = why) ∧ (u.ctx c).sweep = none ∧ (u.ctx c).failSweep = true ∧
    setLater s u (.failureSweepEnd c) ∧ keepsMemory s u := by
  obtain ⟨⟨used, hctx⟩, hclock, hmem⟩ := failedCtx_spec (c := c) (s := s) why p
  obtain ⟨⟨saved, hmarks⟩, hclock', hmem'⟩ := clearMarks_ctx (c := c) 0 (failedCtx c why p s)
  refine ⟨_, execSnapshotFail_fails why h, ?_⟩
  have hfinal : ((clearMarks c 0 (failedCtx c why p s)).later (.failureSweepEnd c)).ctx c = _ := hmarks
  rw [hfinal, hctx]
  refine ⟨⟨failed why p, List.mem_map.2 ⟨p, List.mem_of_find?_eq_some h, if_pos rfl⟩, rfl, rfl, rfl⟩, rfl, rfl,
    setLater_later (hclock'.trans hclock) _, keepsMemory_of_memories (hmem'.trans hmem)⟩

/-- The leaf of `l` as the failure sweep leaves it, where `pages` are the pages of the failed snapshots. -/
def sweepLeaf (pol : Bool) (pages : List PageRec) (s : State) (l : Nat × Nat × Word) : State :=
  let taken := pages.any fun r => r.vpn * 65536 = l.1
  if Leaf.s l.2.2 != pol || taken then
    updLeaf l.2.1 (fun e => (if taken then Leaf.setBit (Leaf.setBit e 55 pol) 56 true else Leaf.setBit e 55 pol)) s
  else s

/-- The leaves as it leaves them. -/
def sweptLeaves (c : Nat) (s : State) : State :=
  (leaves s c).foldl (sweepLeaf (s.ctx c).pol (((s.ctx c).snaps.filter fun p => p.state == .failed).flatMap Snap.pages)) s

theorem execFailureSweepEnd_eq : execFailureSweepEnd c s = .next ((sweptLeaves c s).setCtx c { (sweptLeaves c s).ctx c with
    failSweep := false
    snaps := ((sweptLeaves c s).ctx c).snaps.map fun p => if p.state == .failed then { p with pages := [] } else p }) := rfl

/-- A leaf of the tables is an entry that stands in memory. -/
theorem readEntry_of_leavesFrom {node base n : Nat} {l : Nat × Nat × Word} (h : l ∈ leavesFrom s node base n) : readEntry s l.2.1 = l.2.2 := by
  induction n generalizing node base with
  | zero => cases h
  | succ n ih =>
    unfold leavesFrom at h
    obtain ⟨i, -, hi⟩ := List.mem_flatMap.1 h
    dsimp only at hi
    split at hi
    · cases hi
    · split at hi
      · split at hi
        · cases hi
        · exact ih hi
      · obtain rfl := List.mem_singleton.1 (List.mem_ite_nil_right.1 hi).2
        rfl

theorem readEntry_of_leaves {l : Nat × Nat × Word} (h : l ∈ leaves s c) : readEntry s l.2.1 = l.2.2 := by
  unfold leaves at h
  exact readEntry_of_leavesFrom h

theorem readEntry_setCtx (place : Nat) (x : Ctx) (s : State) : readEntry (s.setCtx c x) place = readEntry s place := rfl

theorem leaf_s_sweepLeaf (pol : Bool) (pages : List PageRec) {l : Nat × Nat × Word} (h : readEntry s l.2.1 = l.2.2) :
    Leaf.s (readEntry (sweepLeaf pol pages s l) l.2.1) = pol := by
  unfold sweepLeaf
  dsimp only
  split
  · rw [readEntry_updLeaf]
    unfold Leaf.s
    split
    · rw [Leaf.bitOf_setBit (by decide), Leaf.bitOf_setBit (by decide)]
      rfl
    · rw [Leaf.bitOf_setBit (by decide)]
      rfl
  next hsame =>
    rw [h]
    simpa using (Bool.or_eq_false_iff.1 (Bool.eq_false_iff.2 hsame)).1

/-- With one leaf, the sweep leaves that one captured. -/
theorem leaf_s_sweptLeaves {va place : Nat} {e : Word} (hone : leaves s c = [(va, place, e)]) :
    Leaf.s (readEntry (sweptLeaves c s) place) = (s.ctx c).pol := by
  have hread := readEntry_of_leaves (hone ▸ List.mem_singleton_self (va, place, e))
  unfold sweptLeaves
  rw [hone, List.foldl_cons, List.foldl_nil]
  exact leaf_s_sweepLeaf (l := (va, place, e)) _ _ hread

theorem execFailureSweepEnd_spec : ∃ u, execFailureSweepEnd c s = .next u ∧ (u.ctx c).failSweep = false ∧
    (∀ q : Snap, q ∈ (u.ctx c).snaps → q.state = .failed → q.pages = []) ∧
    ∀ (va place : Nat) (e : Word), leaves s c = [(va, place, e)] → Leaf.s (readEntry u place) = (s.ctx c).pol := by
  refine ⟨_, execFailureSweepEnd_eq, ?_, ?_, fun va place e hone => ?_⟩
  · rw [State.setCtx_ctx_self]
  · rw [State.setCtx_ctx_self]
    dsimp only
    intro q hq hfailed
    obtain ⟨p, -, rfl⟩ := List.mem_map.1 hq
    by_cases hp : (p.state == .failed) = true
    · rw [if_pos hp]
    · rw [if_neg hp] at hfailed
      exact absurd (beq_iff_eq.2 hfailed) hp
  · rw [readEntry_setCtx]
    exact leaf_s_sweptLeaves hone

end failure

/-! ## The copy home (R428) -/

section copyBack
variable {c : Nat} {s : State} {r : PageRec} {rest : List PageRec} (hback : (s.ctx c).copyBack = r :: rest)
include hback

omit hback in
/-- A page holds whole chunks. -/
theorem bytes_chunks (e : Word) : 65536 ∣ Leaf.bytes e := by
  unfold Leaf.bytes Leaf.bytesOf
  (repeat' split) <;> decide

/-- The context behind a page of its rollback. -/
def behindPage (c : Nat) (rest : List PageRec) (s : State) : State :=
  let v := s.setCtx c { s.ctx c with copyBack := rest }
  if rest.isEmpty then retain c 8 v else v.later (.copyBackPage c)

/-- A leaf whose page is home again. -/
def cameHome (c : Nat) (r : PageRec) (e : Word) (place : Nat) (pol : Bool) (s : State) : State :=
  updLeaf place (fun e => Leaf.setBit (Leaf.setBit (Leaf.setBit e 56 false) 55 pol) 15 false)
    (tlbDrop (fun _ => true) c (r.vpn * 65536) (r.vpn * 65536 + Leaf.bytes e) s)

theorem execCopyBackPage_unmapped (hnone : ∀ (e : Word) (place lvl : Nat), walk s c (r.vpn * 65536) ≠ .leaf e place lvl) :
    execCopyBackPage c s = .next (behindPage c rest s) := by
  unfold execCopyBackPage
  dsimp only
  split
  next h => exact absurd (h.symm.trans hback) (by simp)
  next r' rest' h =>
    obtain ⟨rfl, rfl⟩ := List.cons.inj (h.symm.trans hback)
    split
    next e place lvl hwalk => exact absurd hwalk (hnone e place lvl)
    · rfl

variable {e : Word} {place lvl : Nat} (hwalk : walk s c (r.vpn * 65536) = .leaf e place lvl)
include hwalk

theorem execCopyBackPage_lost {w : State}
    (h : fromCellar (homeDie s (Leaf.pa e)) c r.coff (Leaf.pa e) s (Leaf.bytes e / 65536) = .fault w) :
    execCopyBackPage c s = .next (loseCtx c w) := by
  unfold execCopyBackPage
  dsimp only
  split
  next h => exact absurd (h.symm.trans hback) (by simp)
  next r' rest' hcons =>
    obtain ⟨rfl, rfl⟩ := List.cons.inj (hcons.symm.trans hback)
    rw [hwalk]
    dsimp only
    rw [h]

theorem execCopyBackPage_home {w : State}
    (h : fromCellar (homeDie s (Leaf.pa e)) c r.coff (Leaf.pa e) s (Leaf.bytes e / 65536) = .ok () w) :
    execCopyBackPage c s = .next (behindPage c rest (cameHome c r e place (s.ctx c).pol w)) := by
  unfold execCopyBackPage
  dsimp only
  split
  next h => exact absurd (h.symm.trans hback) (by simp)
  next r' rest' hcons =>
    obtain ⟨rfl, rfl⟩ := List.cons.inj (hcons.symm.trans hback)
    rw [hwalk]
    dsimp only
    rw [h]
    rfl

theorem execCopyBackPage_cannot (hplace : (s.ctx c).cellar.place = 1) (hbytes : 65536 ≤ Leaf.bytes e)
    (hlost : (s.ctx c).cellarBad = true ∨ peerReached s c = false) :
    ∃ u, execCopyBackPage c s = .next u ∧ (u.ctx c).state = .lost := by
  obtain ⟨n, hn⟩ : ∃ n, Leaf.bytes e / 65536 = n + 1 := Nat.exists_eq_add_one.2 (Nat.div_pos hbytes (by decide))
  obtain ⟨w, hw⟩ := fromCellar_lost hplace hlost (homeDie s (Leaf.pa e)) r.coff (Leaf.pa e) n
  exact ⟨_, execCopyBackPage_lost hback hwalk (by rw [hn, hw]), (loseCtx_state ..).trans (if_pos rfl)⟩

omit hback hwalk in
theorem readEntry_cameHome (e : Word) (place : Nat) (pol : Bool) (w : State) : let u := cameHome c r e place pol w
    Leaf.cmt (readEntry u place) = false ∧ Leaf.d (readEntry u place) = false ∧ Leaf.s (readEntry u place) = pol := by
  intro u
  have hread := readEntry_updLeaf place (fun e => Leaf.setBit (Leaf.setBit (Leaf.setBit e 56 false) 55 pol) 15 false)
    (tlbDrop (fun _ => true) c (r.vpn * 65536) (r.vpn * 65536 + Leaf.bytes e) w)
  have hmem : readEntry u place = _ := hread
  rw [hmem]
  unfold Leaf.cmt Leaf.d Leaf.s
  simp only [Leaf.bitOf_setBit (show 15 < 64 by decide), Leaf.bitOf_setBit (show 55 < 64 by decide), Leaf.bitOf_setBit (show 56 < 64 by decide)]
  exact ⟨rfl, rfl, rfl⟩

omit hback hwalk in
theorem readByte_cameHome (e : Word) (place : Nat) (pol : Bool) (w : State) {b : Nat} (hb : b < place ∨ place + 8 ≤ b) :
    readByte (cameHome c r e place pol w).mem b = readByte w.mem b := readByte_writeLE_outside _ _ _ _ _ hb

omit hback hwalk in
theorem retain_keeps (n : Nat) (s : State) : (retain c n s).memories = s.memories ∧ ((retain c n s).ctx c).copyBack = (s.ctx c).copyBack := by
  induction n generalizing s with
  | zero => exact ⟨rfl, rfl⟩
  | succ n ih =>
    unfold retain
    dsimp only
    split
    · split
      · exact ⟨rfl, rfl⟩
      · obtain ⟨hmem, hctx⟩ := ih (freeCopies c (s.setCtx c _))
        refine ⟨hmem, hctx.trans ?_⟩
        unfold freeCopies
        dsimp only
        rw [State.setCtx_ctx_self, State.setCtx_ctx_self]
    · exact ⟨rfl, rfl⟩

omit hback hwalk in
theorem behindPage_keeps (w : State) : (behindPage c rest w).memories = w.memories ∧ ((behindPage c rest w).ctx c).copyBack = rest := by
  have hset : ((w.setCtx c { w.ctx c with copyBack := rest }).ctx c).copyBack = rest := by rw [State.setCtx_ctx_self]
  unfold behindPage
  dsimp only
  split
  · obtain ⟨hmem, hctx⟩ := retain_keeps (c := c) 8 (w.setCtx c { w.ctx c with copyBack := rest })
    exact ⟨hmem, hctx.trans hset⟩
  · exact ⟨rfl, hset⟩

theorem execCopyBackPage_spec (hfar : FarCellar s c) (hwf : s.peerMem.wf = true) : ∃ u, execCopyBackPage c s = .next u ∧
    (u.ctx c).copyBack = rest ∧ Leaf.cmt (readEntry u place) = false ∧ Leaf.d (readEntry u place) = false ∧
    Leaf.s (readEntry u place) = (s.ctx c).pol ∧ ∀ j : Nat, j < Leaf.bytes e → (Leaf.pa e + j < place ∨ place + 8 ≤ Leaf.pa e + j) →
      readByte u.mem (Leaf.pa e + j) = readByte s.peerMem ((s.ctx c).cellar.peer * 2 ^ 52 + (s.ctx c).cellar.cbase + r.coff + j) := by
  obtain ⟨w, hw, hcopied⟩ := fromCellar_far (n := Leaf.bytes e / 65536) hfar hwf (homeDie s (Leaf.pa e)) r.coff (Leaf.pa e)
  obtain ⟨hmem, hctx⟩ := behindPage_keeps (c := c) (rest := rest) (cameHome c r e place (s.ctx c).pol w)
  replace hmem : (behindPage c rest (cameHome c r e place (s.ctx c).pol w)).mem = (cameHome c r e place (s.ctx c).pol w).mem :=
    congrArg Prod.fst hmem
  refine ⟨_, execCopyBackPage_home hback hwalk hw, hctx, ?_⟩
  have hentry : readEntry (behindPage c rest (cameHome c r e place (s.ctx c).pol w)) place =
      readEntry (cameHome c r e place (s.ctx c).pol w) place := by rw [readEntry, hmem, readEntry]
  rw [hentry, hmem]
  obtain ⟨hcmt, hd, hs⟩ := readEntry_cameHome (c := c) (r := r) e place (s.ctx c).pol w
  refine ⟨hcmt, hd, hs, fun j hj hout => ?_⟩
  rw [readByte_cameHome _ _ _ _ hout]
  exact hcopied.inside j (by rwa [Nat.mul_div_cancel' (bytes_chunks e)])

end copyBack

/-- Settles O52: the rules of each step of a snapshot and of the copy home, from the state at which it occurs. -/
theorem snapshotSteps : Obligations.SnapshotSteps := by
  intro s c x next
  refine ⟨fun p hp => execSnapOpenPoint_spec hp, fun va p hsweep hopen => ⟨fun hend => ?_, ?_⟩,
    fun p hopen hcan => execSnapshotSealing_spec hopen hcan,
    fun p off hp hplace hreached hgood hslot hoff hkeep => execSealComplete_spec hp ⟨hgood, hplace, hreached⟩ hslot hoff hkeep,
    fun p hp hslot => execSealComplete_full hp hslot, fun p why hp => execSnapshotFail_spec why hp, execFailureSweepEnd_spec, ?_, ?_⟩
  · exact ⟨_, (exec_sweeperVisit c s).trans (execSweeperVisit_end hsweep hopen hend), State.setCtx_ctx_self .., keepsMemory_of_memories rfl⟩
  · intro v place e hleaf due waits
    have hdue : due ↔ leafDue s c v e = true := by
      simp only [due, leafDue, Bool.and_eq_true, bne_iff_ne, Bool.not_eq_true', and_assoc]
      rfl
    have hnot (h : ¬ due) : leafDue s c v e = false := Bool.eq_false_iff.2 fun hd => h (hdue.2 hd)
    have hpasses (h : execSweeperVisit c s = .next ((passedLeaf c v e s).later (.sweeperVisit c))) : next (.sweeperVisit c) fun u =>
        u.ctx c = { x with sweep := some (v + Leaf.bytes e) } ∧ keepsMemory s u ∧ setLater s u (.sweeperVisit c) :=
      ⟨_, h, State.setCtx_ctx_self .., keepsMemory_of_memories rfl, setLater_later rfl _⟩
    refine ⟨fun hd hw => ?_, fun hd => ?_, fun hd hw hhome => ?_, fun hd hw hhome hmatch => ?_, fun hd hw hhome hmatch => ⟨?_, ?_, ?_⟩⟩
    · exact ⟨_, (exec_sweeperVisit c s).trans (execSweeperVisit_waits hsweep hopen hleaf (hdue.1 hd) hw), rfl, keepsMemory_of_memories rfl, setLater_later rfl _⟩
    · exact hpasses (execSweeperVisit_passes hsweep hopen hleaf (.inl (hnot hd)))
    · exact hpasses (execSweeperVisit_passes hsweep hopen hleaf (.inr ⟨hw, hhome⟩))
    · exact (execSweeperVisit_home hsweep hopen hleaf (hdue.1 hd) hw hhome).trans (if_pos (by simp [hmatch]))
    · intro y hpart
      refine (execSweeperVisit_home hsweep hopen hleaf (hdue.1 hd) hw hhome).trans ?_
      rw [hmatch, hpart]
      rfl
    · intro k w hpart
      refine (execSweeperVisit_home hsweep hopen hleaf (hdue.1 hd) hw hhome).trans ?_
      rw [hmatch, hpart]
      rfl
    · exact fun t y hpart hpa h => execSweeperVisit_spec hsweep hopen hleaf (hdue.1 hd) hw hhome hmatch hpart hpa h
  · intro r rest e place lvl hback hwalk hplace
    exact ⟨fun hbytes hlost => execCopyBackPage_cannot hback hwalk hplace hbytes hlost,
      fun hgood hreached hwf => execCopyBackPage_spec hback hwalk ⟨hgood, hplace, hreached⟩ hwf⟩
  · intro r rest hback hnone
    obtain ⟨hmem, hctx⟩ := behindPage_keeps (c := c) (rest := rest) s
    exact ⟨_, execCopyBackPage_unmapped hback hnone, hctx, keepsMemory_of_memories hmem⟩

end Sys2Proof.Machine
end

/-! # A load of no bytes that is read again

A read of device memory that fails is read again by delaying its end (R374, R375): a load of no bytes, which no instruction issues, has such an
end too, although `Op.isDram` counts it among the accesses to near space. -/
section
open Sys2Proof Sys2Proof.Machine Sys2Proof.Claims
namespace Sys2Proof.Machine

section retry
variable {s : State} {id : Nat} {o : Op}

theorem exec_readRetry_access (ho : mfind s.ops id = some o) (lasting : Nat) :
    exec (.readRetry (.access id) lasting) s = .next (retryAccess id lasting o s) := by
  have hexec : exec (.readRetry (.access id) lasting) s = execReadRetry (.access id) lasting s := rfl
  rw [hexec, execReadRetry, opAt, ho]

theorem delay_ops (d : Nat) (i : Instr) (s : State) : (s.delay d i).ops = s.ops := by
  unfold State.delay
  split <;> rfl

theorem logError_ops (s : State) (d src kind place : Nat) : (s.logError d src kind place).ops = s.ops := by
  unfold State.logError
  dsimp only
  split <;> rfl

/-- A transient failure of an operation that has an end delays the end only. -/
theorem retryAccess_ops_of_endStep {i : Instr} (hend : o.endStep id = some i) : (retryAccess id 0 o s).ops = s.ops := by
  unfold retryAccess slowAccess
  rw [if_pos rfl, hend]
  exact (delay_ops ..).trans (logError_ops ..)

end retry

/-- A load of no bytes, issued by die controller 12. -/
def noBytes : Op := { kind := .dramLoad 0 false, cur := { unit := .seq 396 } }

/-- Refutes O53: the clause on a transient failure of an access that is not one of device memory says that the access itself gets 8 cycles
more; for `noBytes` the end of its access is delayed, and it stays as it is. -/
theorem not_translationSteps : ¬ Obligations.TranslationSteps := by
  unfold Obligations.TranslationSteps
  intro h
  obtain ⟨-, -, -, -, -, -, -, hread⟩ := h { State.reset with ops := [(0, noBytes)] } 0 0 0
  have hfind : mfind [(0, noBytes)] 0 = some noBytes := rfl
  obtain ⟨hnear, -⟩ := hread noBytes hfind
  obtain ⟨u, hu, -, hslow⟩ := hnear rfl nofun (fun _ _ => nofun)
  obtain rfl := Host.Outcome.next.inj ((exec_readRetry_access (s := { State.reset with ops := [(0, noBytes)] }) hfind 0).symm.trans hu)
  rw [retryAccess_ops_of_endStep (i := .dramAccessPerformed 0) rfl] at hslow
  have hsame : noBytes = { noBytes with slow := noBytes.slow + 8 } := Option.some.inj (hfind.symm.trans hslow)
  exact absurd (congrArg Op.slow hsame) (by decide)

end Sys2Proof.Machine
end

/-! # Preemption, saves and restores

The HALT point and the end of a HALT save (R366 to R369), the end of a DRAIN save (R371), a restore with the pulse that packages agree on (R370,
R442), and the reload of a configuration store (R377). -/
section
open Sys2Proof Sys2Proof.Machine Sys2Proof.Claims
namespace Sys2Proof.Machine

/-! ## The HALT point (R366) -/

theorem exec_haltPoint (c : Nat) (s : State) : exec (.haltPoint c) s = execHaltPoint c s := rfl

theorem mfind_map_keyed {α : Type} (f : Nat → α → α) (m : Map α) (k : Nat) :
    mfind (m.map fun e => (e.1, f e.1 e.2)) k = (mfind m k).map (f k) := by
  induction m with
  | nil => rfl
  | cons e m ih =>
    rw [List.map_cons, mfind, mfind, ih]
    by_cases hk : e.1 = k
    · rw [if_pos hk, if_pos hk, hk]; rfl
    · rw [if_neg hk, if_neg hk]

/-- What a HALT point makes of a region. -/
def haltedRegion (c k : Nat) (r : Region) : Region := if k / 2048 / 256 = c then { r with waiting := none, wcnt := 0 } else r

theorem execHaltPoint_eq {s : State} {c : Nat} (h : (s.ctx c).state = .halting ∨ (s.ctx c).state = .rolling) :
    execHaltPoint c s = .next { s with regions := s.regions.map fun e => (e.1, haltedRegion c e.1 e.2) } := by
  unfold execHaltPoint
  rw [if_neg (by rcases h with h | h <;> simp [h])]
  rfl

/-! ## The end of a save (R368, R369, R371) -/

theorem exec_saveComplete (c : Nat) (s : State) : exec (.saveComplete c) s = execSaveComplete c s := rfl
theorem exec_drainComplete (c : Nat) (s : State) : exec (.drainComplete c) s = execDrainComplete c s := rfl

section saves
variable {s u : State} {c : Nat}

theorem partChunks_bound {die : Nat → Nat} {va : Nat} {need : Need} {k : Nat → Nat → State → State} (hk : ∀ i pa u, (k i pa u).bound = u.bound)
    (n i : Nat) : EndBound s (partChunks die c va need k n i s) := by
  induction n generalizing i s with
  | zero => exact .ok rfl
  | succ n ih => exact partPa_bound.then fun pa u => .behind (hk i pa u) (ih _)

theorem markDirty_bound (pa n : Nat) (m : Memory) (s : State) : (markDirty pa n { s with mem := m }).bound = s.bound := rfl

theorem writePhys_bound (pa n v : Nat) (s : State) : (writePhys pa n v s).bound = s.bound := markDirty_bound ..

theorem freeCount_bound (f : Nat) (s : State) : State.bound { s with freeCount := f } = s.bound := rfl

theorem writeArea_bound {pcyc : Nat} {v : Saved} : EndBound s (writeArea c pcyc v s) := by
  unfold writeArea saveAccess
  split
  · exact .fault rfl
  · refine .then ?_ fun _ u => partPa_bound.then fun pa w => .ok (writePhys_bound ..)
    refine .behind ?_ (partChunks_bound (fun i pa u => ?_) _ _)
    · exact freeCount_bound ..
    · exact markDirty_bound ..

/-- A save that has ended. -/
theorem endSave_ok {pcyc : Nat} {v : Saved} (h : endSave c pcyc v s = .ok () u) :
    (u.ctx c).state = .saved ∧ (u.ctx c).saved = some v ∧ u.graphs = s.graphs := by
  unfold endSave at h
  cases hw : writeArea c pcyc v s with
  | ok a w =>
    rw [hw] at h
    obtain ⟨-, rfl⟩ := PartEnd.ok.inj h
    have hbound : w.bound = s.bound := writeArea_bound.of_ok hw
    obtain ⟨-, hgraphs, -⟩ := State.bound_eq_iff.1 hbound
    exact ⟨congrArg Ctx.state (State.setCtx_ctx_self ..), congrArg Ctx.saved (State.setCtx_ctx_self ..), hgraphs⟩
  | hold p va => rw [hw] at h; cases h
  | fault w => rw [hw] at h; cases h

/-- The slots of the graphs that a HALT saves. -/
def haltedSlots (s : State) (c : Nat) : List Nat :=
  ((s.graphs.filter fun e => decide (e.1 / 256 = c)).filter fun e =>
    e.2.state = .running ∨ e.2.state = .changing ∨ e.2.state = .draining).map fun e => e.1 % 256

/-- They are parked. -/
def haltedParked (s : State) (c : Nat) : State := (haltedSlots s c).foldl (fun s g => parkGraph c g s) (dropEngineOps c s)

theorem GroupsReleased.fixed (h : GroupsReleased s u) : u.ctxs = s.ctxs ∧ u.pcyc = s.pcyc := by
  unfold GroupsReleased at h
  rw [h]
  exact ⟨rfl, rfl⟩

/-- The arcs of a graph that is parked. -/
def arcsBound (c g : Nat) (s : State) : State :=
  { s with arcs := s.arcs.map fun e =>
      if e.1 / 4096 = c && e.2.slot = g then (e.1, { e.2 with state := if e.2.state == .declared then .declared else .bound }) else e }

/-- A graph that was `old` and is parked. -/
def Graph.parked (old g : Graph) : Graph :=
  { g with
    state := .saved, prior := old.state, groups := g.groups.map fun x => { x with state := .saved }
    lists := g.lists.map fun l => (l.1, .loaded)
    joins := g.joins.zipIdx.map fun j =>
      { j.1 with state := if ((old.joins[j.2]?).map Join.state).getD .declared == .declared then .declared else .bound } }

theorem parkGraph_eq (c g : Nat) (s : State) :
    parkGraph c g s = updGraph c g (Graph.parked (graphAt s c g)) (arcsBound c g (releaseGroups c g s)) := rfl

theorem parkGraph_only (c g : Nat) (s : State) : GroupsReleased s (parkGraph c g s) := by
  have harcs : GroupsReleased (releaseGroups c g s) (arcsBound c g (releaseGroups c g s)) := rfl
  rw [parkGraph_eq]
  exact ((releaseGroups_only c g s).trans harcs).trans (updGraph_only ..)

theorem haltedParked_ctxs : (haltedParked s c).ctxs = s.ctxs :=
  foldl_keeps State.ctxs (fun u g => (parkGraph_only c g u).fixed.1) _ _

theorem haltedParked_pcyc : (haltedParked s c).pcyc = s.pcyc :=
  foldl_keeps State.pcyc (fun u g => (parkGraph_only c g u).fixed.2) _ _

theorem execSaveComplete_saves (hsettled : haltSettled s c = true) (hstaged : ∀ e, e ∈ s.graphs → e.1 / 256 = c → e.2.state ≠ .staging) :
    execSaveComplete c s = .next (endAccess c
      (endSave c ((s.ctx c).haltAt.getD s.pcyc) (saveObjects c (haltedSlots s c) s) (haltedParked s c)) s fun _ s => s) := by
  have hslots : (((s.graphs.filter fun e => e.1 / 256 = c).filter fun e => e.2.state == .running || e.2.state == .changing ||
      e.2.state == .draining).map fun e => e.1 % 256) = haltedSlots s c := by
    rw [haltedSlots]
    congr 2
    funext e
    simp [Bool.or_assoc, beq_eq_decide]
  have hnone : ((s.graphs.filter fun e => e.1 / 256 = c).filter fun e => e.2.state == .staging) = [] := by
    rw [List.filter_eq_nil_iff]
    intro e he
    rw [List.mem_filter] at he
    simpa using hstaged e he.1 (by simpa using he.2)
  unfold execSaveComplete
  dsimp only
  rw [if_neg (by simp [hsettled]), hslots, hnone]
  show Host.Outcome.next (endAccess c (endSave c (((haltedParked s c).ctx c).haltAt.getD (haltedParked s c).pcyc) _ _) s _) = _
  rw [haltedParked_pcyc, ctx_of_ctxs haltedParked_ctxs]
  rfl

theorem updGraph_graph_of_ne {g n : Nat} (f : Graph → Graph) (h : n ≠ g) : (updGraph c g f s).graph? c n = s.graph? c n := by
  unfold updGraph
  split
  · rfl
  · exact State.setGraph_graph_of_ne _ _ fun hkey => h (by simp only [State.graphKey] at hkey; omega)

theorem clearTiles_graphs (q : Nat) (s : State) : (clearTiles q s).graphs = s.graphs :=
  foldl_keeps State.graphs (f := fun s i => { s with tiles := mdel s.tiles (computeOfQuad q i), mtiles := mdel s.mtiles (memoryOfQuad q i) })
    (fun _ _ => rfl) _ _

/-- The release of a graph's groups changes no other graph. -/
theorem releaseGroups_updGraph (c g : Nat) (s : State) : ∃ f v, releaseGroups c g s = updGraph c g f v ∧ v.graphs = s.graphs := by
  unfold releaseGroups
  extract_lets x quads mine s₁ s₂ s₃ s₄
  have h₁ : s₁.graphs = s.graphs := foldl_keeps State.graphs (fun _ _ => by split <;> rfl) _ _
  have h₂ : s₂.graphs = s₁.graphs := foldl_keeps State.graphs (fun _ _ => by split <;> rfl) _ _
  have h₃ : s₃.graphs = s₂.graphs := rfl
  have h₄ : s₄.graphs = s₃.graphs := by
    refine foldl_keeps State.graphs (fun u q => ?_) _ _
    exact clearTiles_graphs q u
  exact ⟨_, s₄, rfl, h₄.trans (h₃.trans (h₂.trans h₁))⟩

theorem arcsBound_graph {g n : Nat} : (arcsBound c g s).graph? c n = s.graph? c n := graph_of_graphs rfl

theorem parkGraph_graph {g n : Nat} (hne : n ≠ g) : (parkGraph c g s).graph? c n = s.graph? c n := by
  obtain ⟨f, v, hv, hgraphs⟩ := releaseGroups_updGraph c g s
  rw [parkGraph_eq, updGraph_graph_of_ne _ hne, arcsBound_graph, hv, updGraph_graph_of_ne _ hne, graph_of_graphs hgraphs]

theorem parkGraph_saves {g : Nat} (h : s.graph? c g ≠ none) : ∃ z, (parkGraph c g s).graph? c g = some z ∧ z.state = .saved := by
  obtain ⟨x, hx⟩ := Option.ne_none_iff_exists'.1 h
  obtain ⟨f, v, hv, hgraphs⟩ := releaseGroups_updGraph c g s
  have hy : (releaseGroups c g s).graph? c g = some (f x) := by rw [hv, graph_updGraph, graph_of_graphs hgraphs, hx]; rfl
  rw [parkGraph_eq, graph_updGraph, arcsBound_graph, hy]
  exact ⟨_, rfl, rfl⟩

/-- A graph that a HALT saves is SAVED. -/
theorem haltedParked_saves {n : Nat} {y : Graph} (hn : n < 256) (hy : s.graph? c n = some y)
    (hstate : y.state = .running ∨ y.state = .changing ∨ y.state = .draining) :
    ∃ z, (haltedParked s c).graph? c n = some z ∧ z.state = .saved := by
  have hmem : n ∈ haltedSlots s c := by
    refine List.mem_map.2 ⟨(State.graphKey c n, y), List.mem_filter.2 ⟨List.mem_filter.2 ⟨mem_of_mfind hy, ?_⟩, by simpa using hstate⟩, ?_⟩
    · exact decide_eq_true (by simp only [State.graphKey]; omega)
    · simp only [State.graphKey]; omega
  have hother : ∀ (u : State) (g : Nat), (∃ z, u.graph? c n = some z ∧ z.state = .saved) →
      ∃ z, (parkGraph c g u).graph? c n = some z ∧ z.state = .saved := by
    intro u g hu
    by_cases hg : n = g
    · subst hg
      obtain ⟨z, hz, -⟩ := hu
      exact parkGraph_saves (by rw [hz]; nofun)
    · rwa [parkGraph_graph hg]
  refine foldl_reaches (P := fun u => u.graph? c n ≠ none) hmem (fun u g hu => ?_) (fun u hu => parkGraph_saves hu) hother ?_
  · by_cases hg : n = g
    · subst hg
      obtain ⟨z, hz, -⟩ := parkGraph_saves hu
      rw [hz]
      nofun
    · rwa [parkGraph_graph hg]
  · exact (graph_of_graphs (s := s) rfl).trans hy ▸ nofun

theorem execDrainComplete_drained (hstate : (s.ctx c).state = .draining) (hsave : (s.ctx c).drainSave = true)
    (hrest : ∀ e, e ∈ s.graphs → e.1 / 256 = c → e.2.state ∈ [.idle, .loaded, .failed]) :
    execDrainComplete c s = .next (endAccess c (endSave c s.pcyc { drain := true, again := (s.ctx c).drained } s) s fun _ s => s) := by
  have hall : allDrained s c = true := by
    simp only [allDrained, hstate, hsave, beq_self_eq_true, Bool.and_true, Bool.true_and, List.all_eq_true]
    intro e he
    by_cases hc : e.1 / 256 = c
    · have := hrest e he hc
      simp only [List.mem_cons, List.not_mem_nil, or_false] at this
      rcases this with h | h | h <;> simp [h]
    · simp [hc]
  unfold execDrainComplete
  rw [if_pos hall]

end saves

/-! ## Restore (R370, R442) -/

theorem exec_restorePulse (c : Nat) (s : State) : exec (.restorePulse c) s = execRestorePulse c s := rfl

section restores
variable {s q : State} {c : Nat} {v : Saved}

/-- A step of the pulse before the save is read. -/
theorem tellPeers_links (c : Nat) (s : State) : ∃ l, tellPeers c s = { s with links := l } := by
  refine List.foldlRecOn (motive := fun u : State => ∃ l : Map Link, u = { s with links := l }) _ _ ⟨s.links, rfl⟩ fun u hu r _ => ?_
  obtain ⟨l, rfl⟩ := hu
  unfold sendItems
  split
  · exact ⟨l, rfl⟩
  · exact ⟨_, rfl⟩

theorem actAgain_ctxs (c : Nat) (v : Saved) (s : State) : (actAgain c v s).ctxs = s.ctxs := by
  refine foldl_keeps State.ctxs (fun u g => ?_) _ _
  dsimp only
  split
  · unfold activate updGraph
    split <;> rfl
  · rfl

/-- A context that goes on: ACTIVE, or READY where no graph of it has a group (R349). -/
theorem settleCtx_goesOn (h : (s.ctx c).state = .active) (hsaved : (s.ctx c).saved = none) :
    ((settleCtx c s).ctx c).state ∈ [CtxState.active, .ready] ∧ ((settleCtx c s).ctx c).saved = none := by
  unfold settleCtx
  dsimp only
  split
  · rw [State.setCtx_ctx_self]
    have hready : CtxState.ready ∈ [CtxState.active, .ready] := by decide
    exact ⟨hready, hsaved⟩
  · exact ⟨by rw [h]; decide, hsaved⟩

/-- A restore whose save can be read. -/
theorem finishRestore_goesOn {w : Saved} {p : State} (again : State) (h : readArea c v q = .ok w p) :
    ((finishRestore c v again q).ctx c).state ∈ [CtxState.active, .ready] ∧ ((finishRestore c v again q).ctx c).saved = none := by
  unfold finishRestore
  rw [h]
  exact settleCtx_goesOn (congrArg Ctx.state (State.setCtx_ctx_self ..)) (congrArg Ctx.saved (State.setCtx_ctx_self ..))

variable (hstate : (s.ctx c).state = .restoring) (hsaved : (s.ctx c).saved = some v)
include hstate hsaved

theorem execRestorePulse_drain {w : Saved} {p : State} (hdrain : v.drain = true) (h : readArea c v s = .ok w p) :
    execRestorePulse c s = .next (actAgain c w (p.setCtx c { p.ctx c with state := .ready, saved := none, haltAt := none })) := by
  unfold execRestorePulse
  simp only [hstate, hsaved, Option.getD_some, hdrain]
  rw [h]
  rfl

variable (hdrain : v.drain = false)
include hdrain

section first
variable (hfirst : (s.ctx c).placedAt = none)
include hfirst

theorem execRestorePulse_unplaced (h : placeAllSaved c v.graphs s = none) : execRestorePulse c s = .next (s.later (.restorePulse c)) := by
  unfold execRestorePulse
  simp only [hstate, hsaved, Option.getD_some, hdrain, hfirst, h]
  rfl

theorem execRestorePulse_alone (h : placeAllSaved c v.graphs s = some q) (hspans : v.spans = false) :
    execRestorePulse c s = .next (finishRestore c v (s.later (.restorePulse c)) q) := by
  unfold execRestorePulse
  simp only [hstate, hsaved, Option.getD_some, hdrain, hfirst, h, hspans]
  rfl

theorem execRestorePulse_tells (h : placeAllSaved c v.graphs s = some q) (hspans : v.spans = true) :
    execRestorePulse c s = .next ((tellPeers c (q.setCtx c { q.ctx c with placedAt := some q.pcyc })).after 1 (.restorePulse c)) := by
  unfold execRestorePulse
  simp only [hstate, hsaved, Option.getD_some, hdrain, hfirst, h, hspans]
  rfl

end first

section placed
variable (hplaced : (s.ctx c).placedAt ≠ none)
include hplaced

/-- Has every other package on which the save has groups told that it has placed them? -/
def peersAllPlaced (s : State) (c : Nat) (v : Saved) : Prop := ∀ e, e ∈ v.graphs → ∀ r, r ∈ e.2.image.ranks → mfind (s.ctx c).peersPlaced r.2 ≠ none

omit hstate hsaved hdrain hplaced in
theorem peersAllPlaced_iff : ((v.graphs.flatMap fun e => e.2.image.ranks.map Prod.snd).all fun r => (mfind (s.ctx c).peersPlaced r).isSome) = true ↔
    peersAllPlaced s c v := by
  simp only [List.all_eq_true, List.mem_flatMap, List.mem_map, Option.isSome_iff_ne_none, peersAllPlaced]
  constructor
  · intro h e he r hr
    exact h r.2 ⟨e, he, r, hr, rfl⟩
  · rintro h k ⟨e, he, r, hr, rfl⟩
    exact h e he r hr

theorem execRestorePulse_waits (hnone : (s.ctx c).pulseAt = none) (h : ¬ peersAllPlaced s c v) :
    execRestorePulse c s = .next (s.after 1 (.restorePulse c)) := by
  have hnot := Bool.eq_false_iff.2 fun hall => h (peersAllPlaced_iff.1 hall)
  have hat := Option.isNone_eq_false_iff.2 (Option.isSome_iff_ne_none.2 hplaced)
  unfold execRestorePulse
  simp only [hstate, hsaved, Option.getD_some, hdrain, hat, hnone, hnot]
  rfl

theorem execRestorePulse_sets (hnone : (s.ctx c).pulseAt = none) (h : peersAllPlaced s c v) :
    let at_ := pulseFrom (lastMet (s.ctx c).placedAt (s.ctx c).peersPlaced) s.pcyc
    execRestorePulse c s = .next ((s.setCtx c { s.ctx c with pulseAt := some at_ }).after (at_ - s.pcyc) (.restorePulse c)) := by
  have hall := peersAllPlaced_iff.2 h
  have hat := Option.isNone_eq_false_iff.2 (Option.isSome_iff_ne_none.2 hplaced)
  unfold execRestorePulse
  simp only [hstate, hsaved, Option.getD_some, hdrain, hat, hnone, hall]
  rfl

theorem execRestorePulse_early {h : Nat} (hat : (s.ctx c).pulseAt = some h) (hearly : s.pcyc < h) :
    execRestorePulse c s = .next (s.after (h - s.pcyc) (.restorePulse c)) := by
  have hplaced' := Option.isNone_eq_false_iff.2 (Option.isSome_iff_ne_none.2 hplaced)
  unfold execRestorePulse
  simp only [hstate, hsaved, Option.getD_some, hdrain, hplaced', hat, if_neg (Nat.not_le.2 hearly)]
  rfl

theorem execRestorePulse_due {h : Nat} (hat : (s.ctx c).pulseAt = some h) (hdue : h ≤ s.pcyc) :
    execRestorePulse c s = .next (finishRestore c v (s.after 32 (.restorePulse c)) s) := by
  have hplaced' := Option.isNone_eq_false_iff.2 (Option.isSome_iff_ne_none.2 hplaced)
  unfold execRestorePulse
  simp only [hstate, hsaved, Option.getD_some, hdrain, hplaced', hat, if_pos hdue]
  rfl

end placed

omit hstate hsaved hdrain in
theorem lt_pulseFrom (m n : Nat) : n < pulseFrom m n := by
  unfold pulseFrom
  omega

end restores

/-! ## Configuration stores (R377) -/

theorem exec_configStoreError (c g i lasting : Nat) (s : State) : exec (.configStoreError c g i lasting) s = execConfigStoreError c g i lasting s := rfl
theorem exec_configReloadComplete (c g i failed : Nat) (s : State) :
    exec (.configReloadComplete c g i failed) s = execConfigReloadComplete c g i failed s := rfl

section stores
variable {s : State} {k : Nat} {r : Region} (hr : mfind s.regions k = some r)
include hr

theorem regionAt_of_mfind : s.regionAt k = r := by
  rw [State.regionAt, mget, hr]
  rfl

/-- A region is one of its own group. -/
theorem mem_regionsOfGroup_self : k ∈ regionsOfGroup s k := by
  unfold regionsOfGroup
  rw [regionAt_of_mfind hr]
  dsimp only
  split
  · exact List.mem_singleton_self k
  next a b i hgroup =>
    obtain ⟨t, ht, hquad⟩ := Option.bind_eq_some_iff.1 hgroup
    refine List.mem_map.2 ⟨(k, r), List.mem_filter.2 ⟨mem_of_mfind hr, ?_⟩, rfl⟩
    have htiles : r.tiles.any (fun t => (groupOfQuad s (quadOfPos t)).any fun x => x.2.2 = i) = true :=
      List.any_eq_true.2 ⟨t, List.mem_of_mem_head? ht, by rw [hquad]; simp⟩
    simp [htiles]

/-- The other regions of the group of a region are the same while its tiles are. -/
theorem mem_regionsOfGroup_setRegion {x : Region} {j : Nat} (htiles : x.tiles = r.tiles) (hj : j ∈ regionsOfGroup (s.setRegion k x) k) (hne : j ≠ k) :
    j ∈ regionsOfGroup s k := by
  unfold regionsOfGroup at hj ⊢
  rw [State.setRegion_regionAt_self, htiles] at hj
  rw [regionAt_of_mfind hr]
  have hsame : groupOfQuad (s.setRegion k x) = groupOfQuad s := rfl
  rw [hsame] at hj
  dsimp only at hj ⊢
  split at hj
  · exact hj
  next a b i hgroup =>
    obtain ⟨e, he, rfl⟩ := List.mem_map.1 hj
    obtain ⟨he, hin⟩ := List.mem_filter.1 he
    rcases mem_mset he with rfl | he
    · exact absurd rfl hne
    · exact List.mem_map.2 ⟨e, List.mem_filter.2 ⟨he, hin⟩, rfl⟩

end stores

section stores
variable {s u : State} {c g i k : Nat} {r : Region}

theorem logError_keepsRegions (s : State) (d src kind place : Nat) : (s.logError d src kind place).regions = s.regions ∧
    (s.logError d src kind place).tiles = s.tiles ∧ (s.logError d src kind place).pcyc = s.pcyc := by
  have h : DiesOnly s (s.logError d src kind place) := logError_only ..
  unfold DiesOnly at h
  rw [h]
  exact ⟨rfl, rfl, rfl⟩

/-- A region of the group stops until store `k` has been reloaded. -/
def regionStops (k : Nat) (s : State) (j : Nat) : State :=
  s.setRegion j { s.regionAt j with
    rstate := if (s.regionAt j).rstate = 3 then 3 else 4, wcnt := 0, reloading := (s.regionAt j).reloading || j = k }

/-- The group stops. -/
def groupStops (k : Nat) (s : State) : State := (regionsOfGroup s k).foldl (regionStops k) s

/-- A tile's next entry is late for a read of its region's store that is repeated. -/
def entryLate (t : Nat) (s : State) : State := s.setTile t { s.tile t with slow := (s.tile t).slow + 8 }

theorem groupStops_region (hr : mfind s.regions k = some r) :
    ((groupStops k s).regionAt k).rstate = (if r.rstate = 3 then 3 else 4) ∧ ((groupStops k s).regionAt k).wcnt = 0 ∧
      ((groupStops k s).regionAt k).reloading = true := by
  have hself : ∀ u : State, (regionStops k u k).regionAt k = { u.regionAt k with
      rstate := if (u.regionAt k).rstate = 3 then 3 else 4, wcnt := 0, reloading := (u.regionAt k).reloading || k = k } :=
    fun u => State.setRegion_regionAt_self ..
  have hother : ∀ (u : State) (j : Nat), j ≠ k → (regionStops k u j).regionAt k = u.regionAt k :=
    fun u j hj => State.setRegion_regionAt_of_ne _ _ (Ne.symm hj)
  refine foldl_reaches (P := fun u => (u.regionAt k).rstate = 3 ↔ r.rstate = 3)
    (Q := fun u => (u.regionAt k).rstate = (if r.rstate = 3 then 3 else 4) ∧ (u.regionAt k).wcnt = 0 ∧ (u.regionAt k).reloading = true) (mem_regionsOfGroup_self hr) (fun u j hu => ?_) (fun u hu => ?_)
    (fun u j hu => ?_) (by rw [regionAt_of_mfind hr])
  · by_cases hj : j = k
    · rw [hj, hself]
      dsimp only
      split
      next h => exact iff_of_true rfl (hu.1 h)
      next h => exact iff_of_false (by decide) fun hr => h (hu.2 hr)
    · rwa [hother u j hj]
  · rw [hself]
    simp only [hu, decide_true, Bool.or_true, and_self]
  · by_cases hj : j = k
    · rw [hj, hself]
      obtain ⟨hrstate, -, -⟩ := hu
      refine ⟨?_, rfl, by simp⟩
      dsimp only
      rw [hrstate]
      split <;> rfl
    · rwa [hother u j hj]

theorem groupStops_keeps (k : Nat) (s : State) : (groupStops k s).memories = s.memories ∧ (groupStops k s).pcyc = s.pcyc :=
  ⟨foldl_keeps State.memories (f := regionStops k) (fun _ _ => rfl) _ _, foldl_keeps State.pcyc (f := regionStops k) (fun _ _ => rfl) _ _⟩

theorem execConfigStoreError_transient (hr : mfind s.regions (State.regionKey c g i) = some r) :
    execConfigStoreError c g i 0 s = .next (entryLate (lowestTile r) (s.logError (dieOfPos (lowestTile r)) 5 1 (tileAddr (lowestTile r)))) := by
  unfold execConfigStoreError
  dsimp only
  rw [hr]
  rfl

theorem execConfigStoreError_lasting (hr : mfind s.regions (State.regionKey c g i) = some r) :
    execConfigStoreError c g i 1 s = .next ((groupStops (State.regionKey c g i) (s.logError (dieOfPos (lowestTile r)) 5 2 (tileAddr (lowestTile r)))).later
      (.configReloadComplete c g i 0)) := by
  unfold execConfigStoreError
  dsimp only
  rw [hr]
  rfl

/-! ### The reload of a configuration -/

/-- The RSTATE of a region whose group goes on. -/
def reloadedState (r : Region) : Nat := if r.rstate = 4 then if r.inPhase = true then 2 else 1 else r.rstate

/-- A region that was `r` when its reload ended, and may have gone on. -/
structure Region.Reloaded (r x : Region) : Prop where
  tiles : x.tiles = r.tiles
  reloading : x.reloading = false
  inPhase : x.inPhase = r.inPhase
  rstate : x.rstate = r.rstate ∨ x.rstate = reloadedState r

/-- A region of the group goes on. -/
def regionResumes (s : State) (j : Nat) : State :=
  if (s.regionAt j).rstate = 4 then s.setRegion j { s.regionAt j with rstate := if (s.regionAt j).inPhase then 2 else 1, waiting := none } else s

theorem resumeReloaded_eq (k : Nat) (s : State) : resumeReloaded k s =
    if (regionsOfGroup s k).any (fun j => (s.regionAt j).reloading) then s else (regionsOfGroup s k).foldl regionResumes s := rfl

theorem reloadedState_ne (r : Region) : reloadedState r ≠ 4 := by
  unfold reloadedState
  split
  · split <;> decide
  · assumption

theorem regionResumes_reloaded {x : Region} (hx : mfind u.regions k = some x) (h : r.Reloaded x) (j : Nat) :
    ∃ y, mfind (regionResumes u j).regions k = some y ∧ r.Reloaded y ∧ (j = k ∨ x.rstate = reloadedState r → y.rstate = reloadedState r) := by
  obtain ⟨htiles, hreloading, hinPhase, hrstate⟩ := h
  unfold regionResumes
  by_cases hj : j = k
  · subst hj
    rw [regionAt_of_mfind hx]
    split
    next h4 =>
      have hr4 : r.rstate = 4 := hrstate.elim (fun h => h ▸ h4) fun h => absurd (h ▸ h4) (reloadedState_ne r)
      have hresumed : (if x.inPhase then 2 else 1) = reloadedState r := by rw [reloadedState, if_pos hr4, hinPhase]
      exact ⟨_, mfind_mset_self .., ⟨htiles, hreloading, hinPhase, .inr hresumed⟩, fun _ => hresumed⟩
    next h4 =>
      have hresumed : x.rstate = reloadedState r := hrstate.elim (fun h => by rw [reloadedState, if_neg (h ▸ h4), h]) id
      exact ⟨x, hx, ⟨htiles, hreloading, hinPhase, hrstate⟩, fun _ => hresumed⟩
  · refine ⟨x, ?_, ⟨htiles, hreloading, hinPhase, hrstate⟩, fun h => h.resolve_left hj⟩
    split
    · exact (mfind_mset_of_ne _ _ (Ne.symm hj)).trans hx
    · exact hx

/-- The store of a region has been reloaded, and its group goes on where it can. -/
def storeReloaded (k : Nat) (r : Region) (s : State) : State := resumeReloaded k (s.setRegion k { r with reloading := false })

theorem storeReloaded_region (hr : mfind s.regions k = some r) : ∃ y, mfind (storeReloaded k r s).regions k = some y ∧ r.Reloaded y ∧
    ((∀ j, j ∈ regionsOfGroup s k → j ≠ k → (s.regionAt j).reloading = false) → y.rstate = reloadedState r) := by
  have hset : mfind (s.setRegion k { r with reloading := false }).regions k = some { r with reloading := false } := mfind_mset_self ..
  have hstart : r.Reloaded { r with reloading := false } := ⟨rfl, rfl, rfl, .inl rfl⟩
  unfold storeReloaded
  rw [resumeReloaded_eq]
  split
  next hany =>
    refine ⟨_, hset, hstart, fun hnone => ?_⟩
    obtain ⟨j, hj, hreloading⟩ := List.any_eq_true.1 hany
    by_cases hjk : j = k
    · rw [hjk, State.setRegion_regionAt_self] at hreloading
      cases hreloading
    · rw [State.setRegion_regionAt_of_ne _ _ hjk,
        hnone j (mem_regionsOfGroup_setRegion hr (x := { r with reloading := false }) rfl hj hjk) hjk] at hreloading
      cases hreloading
  · have hreaches : ∃ y, mfind ((regionsOfGroup (s.setRegion k { r with reloading := false }) k).foldl regionResumes
        (s.setRegion k { r with reloading := false })).regions k = some y ∧ r.Reloaded y ∧ y.rstate = reloadedState r := by
      refine foldl_reaches (P := fun u => ∃ y, mfind u.regions k = some y ∧ r.Reloaded y)
        (Q := fun u => ∃ y, mfind u.regions k = some y ∧ r.Reloaded y ∧ y.rstate = reloadedState r) (mem_regionsOfGroup_self hset)
        (fun u j hu => ?_) (fun u hu => ?_) (fun u j hu => ?_) ⟨_, hset, hstart⟩
      · obtain ⟨x, hx, hfollows⟩ := hu
        obtain ⟨y, hy, hfollows, -⟩ := regionResumes_reloaded hx hfollows j
        exact ⟨y, hy, hfollows⟩
      · obtain ⟨x, hx, hfollows⟩ := hu
        obtain ⟨y, hy, hfollows, hrstate⟩ := regionResumes_reloaded hx hfollows k
        exact ⟨y, hy, hfollows, hrstate (.inl rfl)⟩
      · obtain ⟨x, hx, hfollows, hresumed⟩ := hu
        obtain ⟨y, hy, hfollows, hrstate⟩ := regionResumes_reloaded hx hfollows j
        exact ⟨y, hy, hfollows, hrstate (.inr hresumed)⟩
    obtain ⟨y, hy, hfollows, hrstate⟩ := hreaches
    exact ⟨y, hy, hfollows, fun _ => hrstate⟩

theorem storeReloaded_keeps (k : Nat) (r : Region) (s : State) :
    (storeReloaded k r s).memories = s.memories ∧ (storeReloaded k r s).links = s.links := by
  have hstep : ∀ (u : State) (j : Nat), (regionResumes u j).memories = u.memories ∧ (regionResumes u j).links = u.links := by
    intro u j
    unfold regionResumes
    split <;> exact ⟨rfl, rfl⟩
  unfold storeReloaded
  rw [resumeReloaded_eq]
  split
  · exact ⟨rfl, rfl⟩
  · exact ⟨foldl_keeps State.memories (fun u j => (hstep u j).1) _ _, foldl_keeps State.links (fun u j => (hstep u j).2) _ _⟩

/-- The arcs whose flights are looked at again. -/
def flightsOf (c k : Nat) (s : State) : List Nat := (s.arcs.filter fun e => e.1 / 4096 = c && e.2.kind == .slot && e.2.srcRegion s = some k).map Prod.fst

/-- Tokens that wait for the lanes of a graph go on. -/
def lanesResume (c g k : Nat) (s : State) : State := (flightsOf c k s).foldl (fun s key => resumeFlights key s) (enterLanes c g s)

theorem lanesResume_keeps (c g k : Nat) (s : State) :
    (lanesResume c g k s).regions = s.regions ∧ (lanesResume c g k s).memories = s.memories ∧ (lanesResume c g k s).links = s.links := by
  have hstep : ∀ (u : State) (key : Nat), (resumeFlights key u).regions = u.regions ∧ (resumeFlights key u).memories = u.memories ∧
      (resumeFlights key u).links = u.links := by
    intro u key
    unfold resumeFlights
    split <;> exact ⟨rfl, rfl, rfl⟩
  exact ⟨foldl_keeps State.regions (fun u key => (hstep u key).1) _ _, foldl_keeps State.memories (fun u key => (hstep u key).2.1) _ _,
    foldl_keeps State.links (fun u key => (hstep u key).2.2) _ _⟩

/-- Without strays nothing of the links is tried again. -/
theorem retryStrays_keeps (h : ∀ l, l ∈ s.links → l.2.strays = []) : (retryStrays s).regions = s.regions ∧ (retryStrays s).memories = s.memories := by
  refine List.foldlRecOn (motive := fun u : State => u.regions = s.regions ∧ u.memories = s.memories) _ _ ⟨rfl, rfl⟩ fun u hu l hl => ?_
  rw [h l hl]
  exact hu

theorem execConfigReloadComplete_done (hr : mfind s.regions (State.regionKey c g i) = some r) : execConfigReloadComplete c g i 0 s =
    .next (retryStrays (lanesResume c g (State.regionKey c g i) (storeReloaded (State.regionKey c g i) r s))) := by
  unfold execConfigReloadComplete
  dsimp only
  rw [hr]
  rfl

theorem execConfigReloadComplete_fails (hr : mfind s.regions (State.regionKey c g i) = some r) (n : Nat) : execConfigReloadComplete c g i (n + 1) s =
    .next (regionReport (State.regionKey c g i) Code.config (BitVec.ofNat 64 (n % 16)) (storeReloaded (State.regionKey c g i) r s)) := by
  unfold execConfigReloadComplete
  dsimp only
  rw [hr]
  rfl

theorem configStoreError_transient (hr : mfind s.regions (State.regionKey c g i) = some r) :
    let t := r.tiles.foldl min 4095
    ∃ u, exec (.configStoreError c g i 0) s = .next u ∧ u.regions = s.regions ∧ keepsMemory s u ∧ (u.tile t).slow = (s.tile t).slow + 8 ∧
      ((s.die (t / 256)).log.length < 1024 → ∃ e, (u.die (t / 256)).log = (s.die (t / 256)).log ++ [e] ∧ e.w0.toNat / 2 ^ 58 = 5 * 4 + 1) := by
  intro t
  refine ⟨_, (exec_configStoreError c g i 0 s).trans (execConfigStoreError_transient hr), ?_⟩
  obtain ⟨hregions, htiles, -⟩ := logError_keepsRegions s (dieOfPos t) 5 1 (tileAddr t)
  refine ⟨hregions, keepsMemory_of_memories (State.memories_logError ..), ?_, fun hroom => ?_⟩
  · refine (congrArg Tile.slow (State.setTile_tile_self ..)).trans ?_
    exact congrArg (fun m => (mget ({} : Tile) m t).slow + 8) htiles
  · obtain ⟨e, he, hkind, -⟩ := logError_logs s (dieOfPos t) 5 1 (tileAddr t) (by decide) (by decide) hroom
    exact ⟨e, he, hkind⟩

theorem configStoreError_lasting (hr : mfind s.regions (State.regionKey c g i) = some r) :
    ∃ u, exec (.configStoreError c g i 1) s = .next u ∧ (u.regionAt (State.regionKey c g i)).rstate = (if r.rstate = 3 then 3 else 4) ∧
      (u.regionAt (State.regionKey c g i)).wcnt = 0 ∧ (u.regionAt (State.regionKey c g i)).reloading = true ∧
      setLater s u (.configReloadComplete c g i 0) ∧ keepsMemory s u := by
  refine ⟨_, (exec_configStoreError c g i 1 s).trans (execConfigStoreError_lasting hr), ?_⟩
  obtain ⟨hregions, -, hpcyc⟩ := logError_keepsRegions s (dieOfPos (lowestTile r)) 5 2 (tileAddr (lowestTile r))
  obtain ⟨hstop, hwcnt, hreloading⟩ := groupStops_region (by rw [hregions]; exact hr)
  obtain ⟨hmemory, hclock⟩ := groupStops_keeps (State.regionKey c g i) (s.logError (dieOfPos (lowestTile r)) 5 2 (tileAddr (lowestTile r)))
  exact ⟨hstop, hwcnt, hreloading, setLater_later (hclock.trans hpcyc) _, keepsMemory_of_memories (hmemory.trans (State.memories_logError ..))⟩

theorem configReloadComplete_done (hr : mfind s.regions (State.regionKey c g i) = some r) (hstrays : ∀ l, l ∈ s.links → l.2.strays = []) :
    let k := State.regionKey c g i
    ∃ u, exec (.configReloadComplete c g i 0) s = .next u ∧ keepsMemory s u ∧ (u.regionAt k).reloading = false ∧
      ((∀ j, j ∈ regionsOfGroup s k → j ≠ k → (s.regionAt j).reloading = false) → (u.regionAt k).rstate = reloadedState r) := by
  intro k
  refine ⟨_, (exec_configReloadComplete c g i 0 s).trans (execConfigReloadComplete_done hr), ?_⟩
  obtain ⟨y, hy, hreloaded, hrstate⟩ := storeReloaded_region hr
  obtain ⟨hmemories, hlinks⟩ := storeReloaded_keeps k r s
  obtain ⟨hregions, hmemory, hlanes⟩ := lanesResume_keeps c g k (storeReloaded k r s)
  obtain ⟨hfinal, hlast⟩ := retryStrays_keeps (s := lanesResume c g k (storeReloaded k r s)) (by rw [hlanes, hlinks]; exact hstrays)
  have hat : (retryStrays (lanesResume c g k (storeReloaded k r s))).regionAt k = y := regionAt_of_mfind (by rw [hfinal, hregions]; exact hy)
  refine ⟨keepsMemory_of_memories (hlast.trans (hmemory.trans hmemories)), ?_, fun hothers => ?_⟩
  · exact (congrArg Region.reloading hat).trans hreloaded.reloading
  · exact (congrArg Region.rstate hat).trans (hrstate hothers)

theorem configReloadComplete_fails (hr : mfind s.regions (State.regionKey c g i) = some r) (n : Nat) :
    ∃ u y, exec (.configReloadComplete c g i (n + 1)) s = .next u ∧ y ∈ (u.tile (r.tiles.foldl min 4095)).reports ∧ y.code = 0x16 ∧
      y.info = BitVec.ofNat 64 (n % 16) ∧ keepsMemory s u := by
  obtain ⟨x, hx, hreloaded, -⟩ := storeReloaded_region hr
  obtain ⟨hmemories, -⟩ := storeReloaded_keeps (State.regionKey c g i) r s
  obtain ⟨y, hy, hcode, hinfo⟩ := regionReport_reports Code.config (BitVec.ofNat 64 (n % 16)) hx
  rw [hreloaded.tiles] at hy
  have hreport := (ReportsOnly.regionReport (State.regionKey c g i) Code.config (BitVec.ofNat 64 (n % 16))
    (storeReloaded (State.regionKey c g i) r s)).memories
  exact ⟨_, y, (exec_configReloadComplete c g i (n + 1) s).trans (execConfigReloadComplete_fails hr n), hy, hcode, hinfo,
    keepsMemory_of_memories (hreport.trans hmemories)⟩

end stores

/-- Settles O51: the steps of preemption, each under its condition. -/
theorem preemptionSteps : Obligations.PreemptionSteps := by
  unfold Obligations.PreemptionSteps
  intro s c g i x k
  refine ⟨fun hstate => ?_, fun hsettled hstaged => ?_, fun hstate hsave hrest => ?_, fun v hstate hsaved => ⟨?_, ?_⟩, fun r hr => ?_⟩
  case refine_1 =>
    refine ⟨_, (exec_haltPoint c s).trans (execHaltPoint_eq (by simpa using hstate)), keepsMemory_of_memories rfl, fun j r hj => ?_⟩
    show mfind (s.regions.map _) j = _
    rw [mfind_map_keyed (haltedRegion c), hj]
    rfl
  case refine_2 =>
    intro slots parked u hend
    obtain ⟨hstate, hsaved, hgraphs⟩ := endSave_ok hend
    refine ⟨?_, hstate, hsaved, fun n y hn hy hrun => ?_⟩
    · rw [exec_saveComplete, execSaveComplete_saves hsettled hstaged]
      exact congrArg (fun e => Host.Outcome.next (endAccess c e s fun _ s => s)) hend
    · obtain ⟨z, hz, hzstate⟩ := haltedParked_saves hn hy (by simpa using hrun)
      exact ⟨z, (graph_of_graphs hgraphs).trans hz, hzstate⟩
  case refine_3 =>
    have hexec := (exec_drainComplete c s).trans (execDrainComplete_drained hstate hsave hrest)
    refine ⟨fun u hend => ?_, fun u hend => ⟨_, hexec, ?_⟩⟩
    · obtain ⟨hstate, hsaved, -⟩ := endSave_ok hend
      rw [hend] at hexec
      exact ⟨hexec, hstate, hsaved⟩
    · rw [hend]
      exact (loseCtx_state c c u).trans (if_pos rfl)
  case refine_4 =>
    intro w p hdrain hread
    refine ⟨_, (exec_restorePulse c s).trans (execRestorePulse_drain hstate hsaved hdrain hread), ?_⟩
    rw [ctx_of_ctxs (actAgain_ctxs ..), State.setCtx_ctx_self]
    exact ⟨rfl, rfl⟩
  case refine_5 =>
    intro goesOn placed
    refine ⟨fun hdrain hfirst => ⟨fun hnone => ?_, fun q hq => ⟨fun w p hspans hread => ?_, fun hspans => ?_⟩⟩, fun hdrain hplaced => ⟨?_, ?_, ?_⟩⟩
    · exact ⟨_, (exec_restorePulse c s).trans (execRestorePulse_unplaced hstate hsaved hdrain hfirst hnone), rfl, rfl, setLater_later rfl _⟩
    · exact ⟨_, (exec_restorePulse c s).trans (execRestorePulse_alone hstate hsaved hdrain hfirst hq hspans), finishRestore_goesOn _ hread⟩
    · refine ⟨_, (exec_restorePulse c s).trans (execRestorePulse_tells hstate hsaved hdrain hfirst hq hspans), ?_⟩
      obtain ⟨l, hl⟩ := tellPeers_links c (q.setCtx c { q.ctx c with placedAt := some q.pcyc })
      rw [hl]
      exact ⟨congrArg Ctx.placedAt (State.setCtx_ctx_self q c _), rfl⟩
    · intro hnone hnot
      exact (exec_restorePulse c s).trans (execRestorePulse_waits hstate hsaved hdrain hplaced hnone hnot)
    · intro hnone hall
      refine ⟨_, (exec_restorePulse c s).trans (execRestorePulse_sets hstate hsaved hdrain hplaced hnone hall), ?_⟩
      intro h
      refine ⟨State.setCtx_ctx_self .., ?_⟩
      have hlater := lt_pulseFrom (lastMet x.placedAt x.peersPlaced) s.pcyc
      rw [State.after_agenda]
      exact congrArg (fun n => s.agenda ++ [(n, Instr.restorePulse c)]) (Nat.add_sub_of_le hlater.le)
    · intro h hat
      refine ⟨fun hearly => (exec_restorePulse c s).trans (execRestorePulse_early hstate hsaved hdrain hplaced hat hearly), fun w p hdue hread => ?_⟩
      exact ⟨_, (exec_restorePulse c s).trans (execRestorePulse_due hstate hsaved hdrain hplaced hat hdue), finishRestore_goesOn _ hread⟩
  case refine_6 =>
    exact ⟨configStoreError_transient hr, configStoreError_lasting hr, configReloadComplete_done hr, configReloadComplete_fails hr⟩

end Sys2Proof.Machine
end
